-- ==== Sys2Proof/Word.lean ====
section
/-!
DEFINITION. The words of the Merba M1 and the sparse table that holds any numbered collection of it.
-/

namespace Sys2Proof

/-- A byte, the addressable unit of memory and scratchpad (R10). -/
abbrev Byte := BitVec 8

/-- A 32-bit word. -/
abbrev W32 := BitVec 32

/-- A 64-bit word: a register, a ring word, a word of a tensor-table entry. -/
abbrev W64 := BitVec 64

/-- A numbered collection (arrays, regions, contexts, journal entries): number and content, sorted by
number. A number that is not listed holds the collection's initial content. -/
abbrev Tbl (α : Type) := List (Nat × α)

end Sys2Proof
end

