-- ==== Sys2Proof/Syntax.lean ====
section
/-!
DEFINITION. The commands of the Merba M1: one constructor of `Instr` per row of spec/opcode_table.json, in
the table's order, with the operands that row has. Where the spec leaves an outcome to the physics or to the
licensee's chip (a lock that fails, a parity error, the data a read returns), that outcome is an operand of
the command (log entry 7).
-/

namespace Sys2Proof

/-- A context number, 0 to 4,095 (R217). -/
abbrev CtxId := Fin 4096
/-- An array number, 0 to 15, engine-wide (R7). -/
abbrev ArrId := Fin 16
/-- A region number (R12). -/
abbrev RgnId := Fin 4
/-- A host port number (R30). -/
abbrev HostId := Fin 4
/-- A memory port number; port q belongs to region q / 4 (R315). -/
abbrev PortId := Fin 16
/-- An island number of R357. -/
abbrev IslId := Fin 60

/-- The two masters that may hold the maintenance token (R366). -/
inductive Master where
  | host
  | mgmt
  deriving DecidableEq, Repr

/-- The head of a vendor message on the sideband port (R346): the enterprise number it carries and its instance byte;
M1's own number of SBD_ID where none is given. -/
structure SbdHead where
  pen : W32 := 0xCBCD
  inst : Byte := 0
  deriving DecidableEq, Repr

/-- Who asks for a maintenance activity (R377): a host through MNT_MAINT_REQ on its port, or the management controller by
MAINT_REQUEST. -/
inductive MaintFrom where
  | host (p : HostId)
  | mgmt (h : SbdHead)
  deriving DecidableEq, Repr

/-- The kinds of unit of R315. -/
inductive UnitKind where
  | array
  | side
  | region
  | port
  deriving DecidableEq, Repr

/-- A unit as MNT_UNIT_REQ names it (R315). -/
structure UnitSel where
  kind : UnitKind
  unit : Fin 16
  deriving DecidableEq, Repr

/-- What an RS(36,32) check finds (R297): nothing, a symbol that it corrects, an error it reports. -/
inductive RsResult where
  | clean
  | corrected
  | uncorrectable
  deriving DecidableEq, Repr

/-- What cold boot finds (R362, R363), and the last phase that the command takes it through. -/
structure BootReport where
  /-- the phases run up to the end of this one: 0 leaves phase 1 in progress, 4 and above reach ready -/
  upto : Nat
  /-- the OTP array reads without an uncorrectable codeword -/
  otpOk : Bool
  /-- REFCLK runs (R34) -/
  refclkOk : Bool
  /-- islands that lock on none of their oscillators, by R357 number -/
  noLock : List IslId
  /-- islands with a standby oscillator that lock on one of their two oscillators only -/
  oneLock : List IslId
  /-- banks that fail the march test: region and bank -/
  badBanks : List (RgnId × Nat)
  /-- arrays that fail the golden STREAM set -/
  failArrays : List ArrId
  deriving DecidableEq, Repr

/-- What the self-test of a unit, or of a region with its units, finds (R323). -/
structure TestReport where
  pass : Bool
  badBanks : List Nat
  failArrays : List ArrId
  failSide : Bool
  failPorts : List PortId
  deriving DecidableEq, Repr

/-- A maintenance activity by its code of R377, with the array of code 1. -/
structure MaintAct where
  code : Fin 7
  array : ArrId
  deriving DecidableEq, Repr

/-- One MPP interface whose responses M1 receives (R331). -/
inductive PortRef where
  | mem (q : PortId)
  | host (p : HostId)
  deriving DecidableEq, Repr

/-- The five atomics of R283. -/
inductive AtomicOp where
  | add32
  | add64
  | cas
  | max
  | or
  deriving DecidableEq, Repr

/-- Sections of the live telemetry a sideband read returns (R346). -/
inductive TlmSection where
  | island
  | thermal
  | counter
  deriving DecidableEq, Repr

/-- SPDM requests by what they do to M1 (R345). -/
inductive SpdmReq where
  | certificate
  | challenge
  | measurements
  | keyExchange
  | finishMutual (authentic : Bool)
  | endSession
  deriving DecidableEq, Repr

/-- TAP instructions by what they do (R348). -/
inductive TapIns where
  | bypass
  | isolate (code : Nat)
  | drive (code : Nat)
  | network (code : Nat)
  deriving DecidableEq, Repr

/-- The commands, in the order of spec/opcode_table.json. An operand with a default stands behind the state in its meaning. -/
inductive Instr where
  | rstColdNAssert
  | coldBoot (r : BootReport)
  | rstWarmNFall
  | resetWarm (p : HostId)
  | contextAbort (p : HostId) (c : CtxId)
  | arrayReset (p : HostId) (a : ArrId)
  | refclkLoss
  | timestampSample (x : W64)
  | timestampStale
  | droopStretch (i : IslId)
  | islandFault (i : IslId)
  | railsRemoved
  | hostPortDown (p : HostId)
  | hostPortUp (p : HostId)
  | memoryPortDown (q : PortId)
  | mainSideDown
  | mppCreditReturn (port : PortRef) (req wd : BitVec 4)
  | mppRdReceive (port : PortRef) (tag : BitVec 12) (data : List Byte) (rs : RsResult) (poison : Bool)
  | mppRspReceive (port : PortRef) (tag : BitVec 12) (status : BitVec 2) (prior : W64)
  | crossingTransfer (src dst : IslId) (cycles : Nat)
  | registerWrite (p : HostId) (off : BitVec 21) (size : Nat) (v : W64)
  | hostSpeaksWrite (p : HostId) (v : BitVec 4)
  | unitDisable (p : HostId) (u : UnitSel)
  | unitForceDisable (p : HostId) (u : UnitSel)
  | unitEnable (p : HostId) (u : UnitSel)
  | unitFence (p : HostId) (u : UnitSel)
  | unitDrainDone (u : UnitSel)
  | unitTestDone (u : UnitSel) (r : TestReport)
  | ownerAcquire (p : HostId)
  | ownerRelease (p : HostId)
  | streamOwnerWrite (p : HostId) (c : CtxId) (arrays : BitVec 16)
  | scratchpadScrub (m : MaintFrom) (r : RgnId)
  | arraySelfTest (m : MaintFrom) (a : ArrId)
  | islandRecalibration (m : MaintFrom) (r : RgnId)
  | fuseShadowReload (m : MaintFrom) (r : RgnId)
  | rngSelfTest (m : MaintFrom) (r : RgnId)
  | journalCompaction (m : MaintFrom) (r : RgnId)
  | telemetrySnapshot (m : MaintFrom) (r : RgnId)
  | maintQueuedStart (r : RgnId) (odd : Option (Fin 3) := none)
  | maintActivityEnd (r : RgnId) (act : MaintAct) (pass : Bool) (failLanes : W32)
  | autoScrub (r : RgnId)
  | snapNow (p : HostId)
  | snapshotPeriod
  | pstateRun (p : HostId)
  | pstateReducedClock (p : HostId)
  | pstateRetention (p : HostId)
  | retentionPortGate
  | idleEntry
  | powerControlInterval (avgMw : Nat) (islandMw : List Nat)
  | thermalInterval (temps : List Int)
  | doorbellNotify (p : HostId) (c : CtxId)
  | dbPoll
  | contextActivation (c : CtxId)
  | doorbellValue (c : CtxId) (w : W64)
  | descriptorFetch (c : CtxId)
  | admission (c : CtxId)
  | cqHeadRead (c : CtxId) (v : W32)
  | completionRecord (c : CtxId)
  | dispatch (c : CtxId) (disagree : Fin 3)
  | bindSubtile (r : RgnId) (odd : Option (Fin 3))
  | starvationRelief (r : RgnId) (odd : Option (Fin 3) := none)
  | tempoPeriodEnd (c : CtxId)
  | slotAssign (r : RgnId) (odd : Option (Fin 3))
  | shadowLoadRow (a : ArrId) (parityBad : Bool) (rs : RsResult)
  | passCastle (a : ArrId) (rs : RsResult)
  | rowBroadcast (a : ArrId) (dry blocked : List Nat) (upset : List (Nat × W32))
  | rowCheck (a : ArrId)
  | rowCommit (a : ArrId) (odd : Option (Fin 3)) (rs : RsResult)
  | skewedDelivery (a : ArrId) (rs : RsResult)
  | bankGrant (r : RgnId) (bank : Fin 512) (rs : RsResult) (odd : Option (Fin 3) := none)
  | portGrant (q : PortId) (write : Bool) (rs : RsResult := .clean)
  | rngGrant (r : RgnId) (badLanes : List Nat)
  | sideWeightFill (r : RgnId)
  | sideDotRow (r : RgnId) (upset : List (Nat × W32)) (rs : RsResult) (buf : RsResult := .clean)
  | sideSpillService (r : RgnId) (bad : Bool)
  | transposerRow (a : ArrId)
  | gatherRow (a : ArrId) (rs : RsResult)
  | stageWindow (a : ArrId)
  | gambitPreload (a : ArrId)
  | gambitPrefetch (r : RgnId) (c : CtxId)
  | speculativePass (a : ArrId) (c : CtxId) (rs : RsResult)
  | specConfirm (c : CtxId) (lost : Option ArrId)
  | subtileReplay (r : RgnId) (odd : Option (Fin 3) := none)
  | maskSweep (c : CtxId)
  | maskRebuild (c : CtxId)
  | maskCommit (c : CtxId)
  | maskRetire (c : CtxId)
  | maskCommitRecovery (c : CtxId)
  | waitvPoll (c : CtxId)
  | waitvTimeout (c : CtxId)
  | windowRead (p : HostId) (addr : BitVec 57) (len : Nat) (space : Bool := false)
  | windowWrite (p : HostId) (addr : BitVec 57) (data : List Byte)
  | windowAtomic (p : HostId) (addr : BitVec 57) (op : AtomicOp) (operand new : W64)
  | nop (c : CtxId) (i : W32)
  | gemm (c : CtxId) (i : W32)
  | fused2 (c : CtxId) (i : W32)
  | spmm (c : CtxId) (i : W32)
  | tspmm (c : CtxId) (i : W32)
  | mgrad (c : CtxId) (i : W32)
  | conv (c : CtxId) (i : W32)
  | gemv (c : CtxId) (i : W32)
  | fold (c : CtxId) (i : W32)
  | prune (c : CtxId) (i : W32)
  | regrow (c : CtxId) (i : W32)
  | maskset (c : CtxId) (i : W32)
  | bmask (c : CtxId) (i : W32)
  | castle (c : CtxId) (i : W32)
  | rwrite (c : CtxId) (i : W32)
  | rread (c : CtxId) (i : W32)
  | ratomicFetchAdd32 (c : CtxId) (i : W32)
  | ratomicFetchAdd64 (c : CtxId) (i : W32)
  | ratomicCas (c : CtxId) (i : W32)
  | ratomicMax (c : CtxId) (i : W32)
  | ratomicOr (c : CtxId) (i : W32)
  | waitv (c : CtxId) (i : W32)
  | fence (c : CtxId) (i : W32)
  | ctxsave (c : CtxId) (i : W32)
  | ctxload (c : CtxId) (i : W32)
  | stream (c : CtxId) (i : W32)
  | entdaa (addr : BitVec 7)
  | setdasa (addr : BitVec 7)
  | setEndpointId (eid : BitVec 8)
  | spdmRequest (req : SpdmReq)
  | faultNotifyRead
  | getTelemetry (sec : TlmSection) (h : SbdHead := {})
  | readFaultLog (idx : Fin 512) (bad : List (Fin 512)) (h : SbdHead := {})
  | readAccount (c : CtxId) (h : SbdHead := {})
  | readJournal (r : RgnId) (first : Fin 1024) (h : SbdHead := {})
  | readFuseView (h : SbdHead := {})
  | unitRequest (w : W32) (h : SbdHead := {})
  | warmReset (h : SbdHead := {})
  | maintRequest (w : W32) (h : SbdHead := {})
  | ownership (acquire : Bool) (h : SbdHead := {})
  | setPowerCap (w : W64) (h : SbdHead := {})
  | testUnlock (h : SbdHead := {})
  | tapInstruction (ins : TapIns)
  | idcode
  deriving DecidableEq, Repr

end Sys2Proof
end

