-- ==== Sys2Proof/Machine/Flags.lean ====
section
/-!
DEFINITION. Tile flags (R87, R248), completion statuses (R247) and unit-state codes as the spec numbers them.
-/

namespace Sys2Proof.Machine

/-- The tile flags of a completion record, flag i at bit i (R248). -/
abbrev TFlags := BitVec 16

def flSat : TFlags := 0x0001
def flOutSat : TFlags := 0x0002
def flScaleOvf : TFlags := 0x0004
def flScaleUf : TFlags := 0x0008
def flNanSeen : TFlags := 0x0010
def flBoundWeak : TFlags := 0x0020
def flSpillUsed : TFlags := 0x0040
def flReplayed : TFlags := 0x0080
def flFencedMove : TFlags := 0x0100
def flMaskedEdge : TFlags := 0x0200
def flSideRouted : TFlags := 0x0400
def flStreamed : TFlags := 0x0800

/-- The flag `f` when `b` holds, no flag otherwise. -/
def flagIf (b : Bool) (f : TFlags) : TFlags := if b then f else 0

/-- Bits 0 to 5: the flags that turn OK into OK_FLAGS (R248). -/
def flagsWeigh (f : TFlags) : Bool := f &&& 0x003F != 0

/-- Completion statuses (R247). -/
inductive Status where
  | ok
  | okFlags
  | admitSize
  | admitAlign
  | admitCount
  | badOpcode
  | badVersion
  | badRsvd
  | xlateFault
  | arraysAbsent
  | dupClaim
  | waitTimeout
  | shapeNoBucket
  | spillFull
  | ctxAborted
  | unrecoverable
  deriving DecidableEq, Repr

/-- The status codes of R247. -/
def statusCode : Status → BitVec 8
  | .ok => 0x00
  | .okFlags => 0x01
  | .admitSize => 0x10
  | .admitAlign => 0x11
  | .admitCount => 0x12
  | .badOpcode => 0x20
  | .badVersion => 0x21
  | .badRsvd => 0x22
  | .xlateFault => 0x30
  | .arraysAbsent => 0x31
  | .dupClaim => 0x32
  | .waitTimeout => 0x33
  | .shapeNoBucket => 0x34
  | .spillFull => 0x35
  | .ctxAborted => 0x40
  | .unrecoverable => 0x41

/-- A descriptor that would complete with OK completes with OK_FLAGS when bits 0 to 5 are not all clear (R248). -/
def statusWith (st : Status) (f : TFlags) : Status :=
  match st with
  | .ok => if flagsWeigh f then .okFlags else .ok
  | other => other

end Sys2Proof.Machine
end

