-- ==== Sys2Proof/Machine/Num.lean ====
section
/-!
DEFINITION. Exact numbers: what every operand, product, sum and scale of the engine stands for, and the
roundings the spec names. A finite number is a sign, a magnitude and a power of two, so that -0 is kept and
every product and sum is exact until a rule rounds it.
-/

namespace Sys2Proof.Machine

/-- A number of the engine: NaN, an infinity, or (-1)^neg * mag * 2^exp. -/
inductive Num where
  | nan
  | inf (neg : Bool)
  | fin (neg : Bool) (mag : Nat) (exp : Int)
  deriving DecidableEq, Repr

/-- Zero of a sign. -/
def numZero (neg : Bool := false) : Num := .fin neg 0 0

/-- An integer as a number. -/
def numOfInt (i : Int) : Num := .fin (decide (i < 0)) i.natAbs 0

/-- One times a power of two. -/
def numPow2 (k : Int) : Num := .fin false 1 k

def numNeg : Num → Num
  | .nan => .nan
  | .inf n => .inf (!n)
  | .fin n m e => .fin (!n) m e

def numAbs : Num → Num
  | .nan => .nan
  | .inf _ => .inf false
  | .fin _ m e => .fin false m e

def numIsNan : Num → Bool
  | .nan => true
  | _ => false

def numIsInf : Num → Bool
  | .inf _ => true
  | _ => false

def numIsZero : Num → Bool
  | .fin _ m _ => m == 0
  | _ => false

def numIsFinite : Num → Bool
  | .fin _ _ _ => true
  | _ => false

def numIsNeg : Num → Bool
  | .nan => false
  | .inf n => n
  | .fin n _ _ => n

/-- Multiply by 2^k exactly. -/
def numScale (x : Num) (k : Int) : Num :=
  match x with
  | .fin n m e => .fin n m (e + k)
  | other => other

/-- The exact product (R68: a NaN operand gives NaN, Inf times 0 gives NaN). -/
def numMul : Num → Num → Num
  | .nan, _ => .nan
  | _, .nan => .nan
  | .inf a, .inf b => .inf (a != b)
  | .inf a, .fin b m _ => if m == 0 then .nan else .inf (a != b)
  | .fin a m _, .inf b => if m == 0 then .nan else .inf (a != b)
  | .fin a m e, .fin b k f => .fin (a != b) (m * k) (e + f)

/-- The signed integer that a finite number is in units of 2^u, for u at or below its exponent. -/
def intAt (neg : Bool) (mag : Nat) (exp u : Int) : Int :=
  let v : Int := (mag <<< (exp - u).toNat : Nat)
  if neg then -v else v

/-- The exact sum (R68: opposite infinities give NaN; an exact zero is +0 unless both terms are negative). -/
def numAdd : Num → Num → Num
  | .nan, _ => .nan
  | _, .nan => .nan
  | .inf a, .inf b => if a == b then .inf a else .nan
  | .inf a, .fin _ _ _ => .inf a
  | .fin _ _ _, .inf b => .inf b
  | .fin a m e, .fin b k f =>
    if m == 0 && k == 0 then .fin (a && b) 0 0
    else if m == 0 then .fin b k f
    else if k == 0 then .fin a m e
    else
      let u := if e ≤ f then e else f
      let v := intAt a m e u + intAt b k f u
      if v = 0 then .fin false 0 0 else .fin (decide (v < 0)) v.natAbs u

def numSub (x y : Num) : Num := numAdd x (numNeg y)

/-- Exact comparison of numbers that are not NaN; false when either is NaN. -/
def numLt : Num → Num → Bool
  | .nan, _ => false
  | _, .nan => false
  | .inf a, .inf b => a && !b
  | .inf a, .fin _ _ _ => a
  | .fin _ _ _, .inf b => !b
  | .fin a m e, .fin b k f =>
    let u := if e ≤ f then e else f
    decide (intAt a m e u < intAt b k f u)

def numLe (x y : Num) : Bool := !numIsNan x && !numIsNan y && !numLt y x

/-- Round to nearest, ties to even: `mag` shifted right by `sh` bits. -/
def rneShift (mag sh : Nat) : Nat :=
  let q := mag >>> sh
  let r := mag - (q <<< sh)
  let half := (1 <<< sh) / 2
  if sh == 0 then mag
  else if r > half || (r == half && q % 2 == 1) then q + 1
  else q

/-- The spacing 2^q of a binary format of `p` significant bits, smallest spacing 2^emin, around mag * 2^exp. -/
def quantum (p : Nat) (emin : Int) (mag : Nat) (exp : Int) : Int :=
  let top : Int := (mag.log2 : Int) + exp - ((p : Int) - 1)
  if top < emin then emin else top

/-- Round a finite magnitude to nearest, ties to even: the rounded magnitude in units of 2^q, and q. -/
def roundMag (p : Nat) (emin : Int) (mag : Nat) (exp : Int) : Nat × Int :=
  if mag == 0 then (0, emin)
  else
    let q := quantum p emin mag exp
    if q ≤ exp then (mag <<< (exp - q).toNat, q)
    else (rneShift mag (q - exp).toNat, q)

/-- Round to nearest, ties to even, to `p` bits with smallest spacing 2^emin and no largest value. -/
def numRound (p : Nat) (emin : Int) : Num → Num
  | .fin n m e => let (m', q) := roundMag p emin m e; .fin n m' q
  | other => other

/-- One addition of a column tree (R67): 24-bit significand, 10-bit exponent, round to nearest, ties to even. -/
def treeAdd (x y : Num) : Num := numRound 24 (-535) (numAdd x y)

/-- The largest finite FP32 magnitude. -/
def fltMax (neg : Bool) : Num := .fin neg 0xFFFFFF 104

/-- True when a finite magnitude is 2^k or above. -/
def magGe (mag : Nat) (exp k : Int) : Bool := mag != 0 && decide (k ≤ (mag.log2 : Int) + exp)

/-- Round to FP32 to nearest, ties to even; a magnitude of 2^128 - 2^103 or above gives FLT_MAX of its sign
and the mark that it saturated (R75, R94). -/
def fp32Sat : Num → Num × Bool
  | .fin n m e =>
    let (m', q) := roundMag 24 (-149) m e
    if magGe m' q 128 then (fltMax n, true) else (.fin n m' q, false)
  | other => (other, false)

/-- FP32 addition and multiplication, round to nearest, ties to even, saturating. -/
def fp32Add (x y : Num) : Num × Bool := fp32Sat (numAdd x y)
def fp32Mul (x y : Num) : Num × Bool := fp32Sat (numMul x y)

/-- The balanced pairwise tree of depth `d` over leaves of which those not listed are +0 (R40). At level
`lvl` the node with index `i` is multiplied by `scale i` (R73); the caller gives `lvl = none` where no block
scales apply. `i` is the index of this node within its level. -/
def treeSum (add : Num → Num → Num) (lvl : Option Nat) (scale : Nat → Num) : Nat → Nat → List Num → Num
  | 0, i, ls =>
    let v := match ls with
      | [] => numZero
      | x :: _ => x
    if lvl = some 0 then numMul v (scale i) else v
  | d + 1, i, ls =>
    match ls with
    | [] => numZero
    | _ =>
      let h := 1 <<< d
      let l := treeSum add lvl scale d (2 * i) (ls.take h)
      let r := treeSum add lvl scale d (2 * i + 1) (ls.drop h)
      let v := add l r
      if lvl = some (d + 1) then numMul v (scale i) else v

/-- The value of a tree of integers (INT8 times INT8 without block scales, R67). -/
def intSum (xs : List Int) : Int := xs.foldl (· + ·) 0

/-- floor of the square root, by bits from `b` down (structural). -/
def isqrtBits : Nat → Nat → Nat → Nat
  | 0, _, r => r
  | b + 1, n, r =>
    let c := r + (1 <<< b)
    if c * c ≤ n then isqrtBits b n c else isqrtBits b n r

def isqrt (n : Nat) : Nat := isqrtBits (n.log2 / 2 + 1) n 0

end Sys2Proof.Machine
end

