-- ==== Sys2Proof/Machine/Formats.lean ====
section
/-!
DEFINITION. Element formats (R62 to R65), decoding and encoding, output conversion (R79 to R85), weight
expansion (R76, R77) and E8M0 scales (R70).
-/

namespace Sys2Proof.Machine

/-- The element formats by their codes (R65). -/
inductive Fmt where
  | fp32 | bf16 | fp16 | e4m3 | e5m2 | e3m2 | e2m3 | e2m1 | int8 | int4 | int32
  deriving DecidableEq, Repr

/-- The format a 4-bit code names; codes 0xB to 0xF are reserved (R65). -/
def fmtOfCode : Nat → Option Fmt
  | 0 => some .fp32
  | 1 => some .bf16
  | 2 => some .fp16
  | 3 => some .e4m3
  | 4 => some .e5m2
  | 5 => some .e3m2
  | 6 => some .e2m3
  | 7 => some .e2m1
  | 8 => some .int8
  | 9 => some .int4
  | 10 => some .int32
  | _ => none

/-- Stored bits of one element. -/
def fmtBits : Fmt → Nat
  | .fp32 => 32
  | .bf16 => 16
  | .fp16 => 16
  | .e4m3 => 8
  | .e5m2 => 8
  | .e3m2 => 6
  | .e2m3 => 6
  | .e2m1 => 4
  | .int8 => 8
  | .int4 => 4
  | .int32 => 32

/-- Mantissa bits of a float format (R62). -/
def fmtMant : Fmt → Nat
  | .fp32 => 23
  | .bf16 => 7
  | .fp16 => 10
  | .e4m3 => 3
  | .e5m2 => 2
  | .e3m2 => 2
  | .e2m3 => 3
  | .e2m1 => 1
  | _ => 0

/-- The exponent of the smallest subnormal of a float format (R62). -/
def fmtEmin : Fmt → Int
  | .fp32 => -149
  | .bf16 => -133
  | .fp16 => -24
  | .e4m3 => -9
  | .e5m2 => -16
  | .e3m2 => -4
  | .e2m3 => -3
  | .e2m1 => -1
  | _ => 0

/-- The largest finite magnitude as mantissa and power of two; the virtual next code N has the mantissa one
higher (R83). -/
def fmtMax : Fmt → Nat × Int
  | .fp32 => (0xFFFFFF, 104)
  | .bf16 => (255, 120)
  | .fp16 => (2047, 5)
  | .e4m3 => (14, 5)
  | .e5m2 => (7, 13)
  | .e3m2 => (7, 2)
  | .e2m3 => (15, -1)
  | .e2m1 => (3, 1)
  | .int8 => (127, 0)
  | .int4 => (7, 0)
  | .int32 => (0x7FFFFFFF, 0)

/-- Formats that are two's complement integers (R62). -/
def fmtIsInt : Fmt → Bool
  | .int8 => true
  | .int4 => true
  | .int32 => true
  | _ => false

/-- Formats that encode infinities (R62). -/
def fmtHasInf : Fmt → Bool
  | .fp32 => true
  | .bf16 => true
  | .fp16 => true
  | .e5m2 => true
  | _ => false

/-- The canonical NaN of a format that has one (R64). -/
def fmtNan : Fmt → Option Nat
  | .fp32 => some 0x7FC00000
  | .bf16 => some 0x7FC0
  | .fp16 => some 0x7E00
  | .e4m3 => some 0x7F
  | .e5m2 => some 0x7F
  | _ => none

/-- Two's complement value of the low `w` bits of a code. -/
def signedOf (w code : Nat) : Int :=
  let c := code % 2 ^ w
  if 2 * c < 2 ^ w then (c : Int) else (c : Int) - (2 ^ w : Nat)

/-- The two's complement code of an integer in `w` bits. -/
def codeOf (w : Nat) (i : Int) : Nat := (i % ((2 ^ w : Nat) : Int)).toNat

/-- The value a stored code has in a format (R62). -/
def decodeElem (f : Fmt) (code : Nat) : Num :=
  if fmtIsInt f then numOfInt (signedOf (fmtBits f) code)
  else
    let b := fmtBits f
    let mb := fmtMant f
    let neg := (code >>> (b - 1)) % 2 == 1
    let frac := code % 2 ^ mb
    let ebits := b - 1 - mb
    let ex := (code >>> mb) % 2 ^ ebits
    let top := ex == 2 ^ ebits - 1
    if fmtHasInf f && top then
      if frac == 0 then .inf neg else .nan
    else if f == .e4m3 && top && frac == 7 then .nan
    else if ex == 0 then .fin neg frac (fmtEmin f)
    else .fin neg (frac + 2 ^ mb) (fmtEmin f + (ex : Int) - 1)

/-- The sign bit of a format at its place. -/
def signBit (f : Fmt) (neg : Bool) : Nat := if neg then 2 ^ (fmtBits f - 1) else 0

/-- The code of a magnitude `mag` in units of 2^q that lies on the format's grid, below its virtual next code. -/
def codeMag (f : Fmt) (neg : Bool) (mag : Nat) (q : Int) : Nat :=
  signBit f neg + ((q - fmtEmin f).toNat <<< fmtMant f) + mag

/-- The code of the largest finite value of a sign (R62). -/
def codeMax (f : Fmt) (neg : Bool) : Nat :=
  if fmtIsInt f then (if neg then 2 ^ (fmtBits f - 1) else 2 ^ (fmtBits f - 1) - 1)
  else codeMag f neg (fmtMax f).1 (fmtMax f).2

/-- The code of infinity in a format that has it. -/
def codeInf (f : Fmt) (neg : Bool) : Nat :=
  signBit f neg + ((2 ^ (fmtBits f - 1 - fmtMant f) - 1) <<< fmtMant f)

/-- The code of a number that lies on a float format's grid already. -/
def encodeExact (f : Fmt) : Num → Nat
  | .nan => (fmtNan f).getD 0
  | .inf n => if fmtHasInf f then codeInf f n else codeMax f n
  | .fin n m e =>
    if fmtIsInt f then codeOf (fmtBits f) (intAt n m e (if e < 0 then e else 0) / ((2 ^ (if e < 0 then (-e).toNat else 0) : Nat) : Int))
    else
      let (m', q) := roundMag (fmtMant f + 1) (fmtEmin f) m e
      codeMag f n m' q

/-- FP32 codes and numbers. -/
def fp32Of (w : W32) : Num := decodeElem .fp32 w.toNat
def fp32Code (x : Num) : W32 := BitVec.ofNat 32 (encodeExact .fp32 x)

/-- Output rounding modes (R79); code 0b11 is reserved. -/
inductive RMode where
  | nearest
  | stochastic
  | zero
  deriving DecidableEq, Repr

def rmodeOf : Nat → RMode
  | 1 => .stochastic
  | 2 => .zero
  | _ => .nearest

/-- The result of a conversion: the stored code and the flags it raises. -/
structure Conv where
  code : Nat
  flags : TFlags
  deriving DecidableEq, Repr

/-- An overflow under round-to-nearest or stochastic rounding (R82). -/
def overflowConv (f : Fmt) (neg nosat : Bool) : Conv :=
  match f with
  | .fp32 => ⟨codeMax f neg, flSat⟩
  | .int32 => ⟨codeMax f neg, flSat⟩
  | .e4m3 => if nosat then ⟨0x7F, flNanSeen⟩ else ⟨codeMax f neg, flOutSat⟩
  | _ => if nosat && fmtHasInf f then ⟨codeInf f neg, flOutSat⟩ else ⟨codeMax f neg, flOutSat⟩

/-- An overflow under round-toward-zero: largest finite whatever the saturation control (R81, R85). -/
def overflowZero (f : Fmt) (neg : Bool) : Conv :=
  ⟨codeMax f neg, if f == .fp32 || f == .int32 then flSat else flOutSat⟩

/-- An infinity (R84). -/
def infConv (f : Fmt) (neg nosat : Bool) : Conv :=
  match f with
  | .fp32 => ⟨codeInf f neg, 0⟩
  | .e4m3 => if nosat then ⟨0x7F, flNanSeen⟩ else ⟨codeMax f neg, flOutSat⟩
  | _ => if nosat && fmtHasInf f then ⟨codeInf f neg, 0⟩ else ⟨codeMax f neg, flOutSat⟩

/-- A NaN (R84): the canonical NaN where the format has one, +0 otherwise; the tile carries NAN_SEEN (R68). -/
def nanConv (f : Fmt) : Conv := ⟨(fmtNan f).getD 0, flNanSeen⟩

/-- Round a magnitude in a mode: what is kept in units of 2^sh, from `u` 16 random bits (R80, R81). -/
def roundMode (mode : RMode) (u mag sh : Nat) : Nat :=
  let lo := mag >>> sh
  let r := mag - (lo <<< sh)
  match mode with
  | .nearest => rneShift mag sh
  | .zero => lo
  | .stochastic => if r == 0 then lo else if ((r <<< 16) >>> sh) + u ≥ 2 ^ 16 then lo + 1 else lo

/-- True when `mag * 2^exp` is `m * 2^q` or above. -/
def atLeast (mag : Nat) (exp : Int) (m : Nat) (q : Int) : Bool :=
  let u := if exp ≤ q then exp else q
  decide (mag <<< (exp - u).toNat ≥ m <<< (q - u).toNat)

/-- Conversion of a value to an output format (R79 to R85): `u` is the 16 random bits of the element. -/
def convert (f : Fmt) (mode : RMode) (nosat : Bool) (u : Nat) : Num → Conv
  | .nan => nanConv f
  | .inf n => infConv f n nosat
  | .fin n m e =>
    let nmag := (fmtMax f).1 + (if fmtIsInt f && n then 2 else 1)
    let nexp := (fmtMax f).2
    -- INT8's virtual next codes are 128 and -129 (R79)
    if atLeast m e nmag nexp then
      (if mode == .zero then overflowZero f n else overflowConv f n nosat)
    else if m == 0 then ⟨if fmtIsInt f then 0 else signBit f n, 0⟩
    else
      let q := if fmtIsInt f then 0 else quantum (fmtMant f + 1) (fmtEmin f) m e
      let m' := if q ≤ e then m <<< (e - q).toNat else roundMode mode u m (q - e).toNat
      if atLeast m' q nmag nexp then overflowConv f n nosat
      else if fmtIsInt f then ⟨codeOf (fmtBits f) (if n then -(m' : Int) else (m' : Int)), 0⟩
      else ⟨codeMag f n m' q, 0⟩

/-- Round to nearest, ties to even, saturating: the conversion of expansions, fill values and piece values. -/
def convertSat (f : Fmt) (x : Num) : Conv := convert f .nearest false 0 x

/-- The error term of a compensated pair: BF16, round to nearest, ties to even (R94). -/
def bf16Rne (x : Num) : BitVec 16 := BitVec.ofNat 16 (convertSat .bf16 x).code

def bf16Of (w : BitVec 16) : Num := decodeElem .bf16 w.toNat

/-- An E8M0 scale code: 2^(E - 127), NaN for 0xFF (R70). -/
def e8m0 (code : Nat) : Num := if code == 0xFF then .nan else numPow2 ((code : Int) - 127)

/-- Weight expansion through the lookup table (R76, R77): the value, the target's code and whether it saturated. -/
def expandLut (entry : Nat) (target : Fmt) : Nat × Bool :=
  match decodeElem .fp16 entry with
  | .nan => ((fmtNan target).getD 0, false)
  | .inf n => if target == .bf16 then (codeInf .bf16 n, false) else (codeMax target n, true)
  | x => let c := convertSat target x; (c.code, c.flags != 0)

/-- The value v of R76 for a scale with zero point: an exact integer difference times an FP32 scale, rounded
and saturated at FLT_MAX. -/
def expandValue (d : Int) (s : W32) : Num × Bool := fp32Mul (numOfInt d) (fp32Of s)

/-- Weight expansion through a scale with zero point (R76, R77). An infinity gives the largest finite value
and counts as saturated; a NaN gives the canonical NaN. -/
def expandScale (d : Int) (s : W32) (target : Fmt) : Nat × Bool :=
  let (v, sat) := expandValue d s
  match v with
  | .nan => ((fmtNan target).getD 0, false)
  | .inf n => (codeMax target n, true)
  | x => let c := convertSat target x; (c.code, sat || c.flags != 0)

/-- The BF16 pieces of an FP32 operand (R89). -/
def bf16Hi (x : Num) : Num :=
  match x with
  | .fin _ _ _ => decodeElem .bf16 (convertSat .bf16 x).code
  | other => other

def bf16Lo (x : Num) : Num :=
  match x with
  | .fin _ _ _ => decodeElem .bf16 (convertSat .bf16 (fp32Sat (numSub x (bf16Hi x))).1).code
  | _ => numZero

end Sys2Proof.Machine
end

