-- ==== Sys2Proof/Machine/Accum.lean ====
section
/-!
DEFINITION. Accumulation: the compensated pair and its step (R92 to R97), wide values W64 and X320 (R100 to
R105), DET accumulation (R112), the final value (R106) and FOLD's sum (R110, R111).
-/

namespace Sys2Proof.Machine

/-! ### Values with saturation -/

/-- A value that may carry the saturation mark of a sign (R96, R102, R103). -/
inductive SVal where
  | num (x : Num)
  | sat (neg : Bool)
  deriving DecidableEq, Repr

/-- An element's pair: s and the code of e (R92). -/
abbrev Pair := W32 × BitVec 16

/-- The saturation mark in the e field (R96). -/
def satMark : BitVec 16 := 0xFF80

def pairZero : Pair := (0, 0)

/-- What a pair stands for: the exact s + e, or its saturated sign (R92, R106). -/
def pairVal (isInt : Bool) (p : Pair) : SVal :=
  if isInt then
    (if p.2 == satMark then .sat (p.1.msb) else .num (numOfInt p.1.toInt))
  else if p.2 == satMark then .sat (p.1.msb)
  else .num (numAdd (fp32Of p.1) (bf16Of p.2))

/-! ### The step of R94 -/

/-- A NaN element (R97). -/
def pairNan : Pair := (0x7FC00000, 0)

/-- A saturated element of a sign (R96). -/
def pairSat (neg : Bool) : Pair := (fp32Code (fltMax neg), satMark)

/-- The two two-sums of R94 on finite values. -/
def stepFinite (s e y : Num) : Pair × TFlags :=
  let (t, tsat) := fp32Add s y
  if tsat then (pairSat (numIsNeg (numAdd s y)), flSat)
  else
    let err := numSub (numAdd s y) t
    let v := (fp32Add e err).1
    let (s2, ssat) := fp32Add t v
    if ssat then (pairSat (numIsNeg (numAdd t v)), flSat)
    else ((fp32Code s2, bf16Rne (numSub (numAdd t v) s2)), 0)

/-- Accumulate a pass term into a floating-point pair (R94, R96, R97). -/
def stepFloat (p : Pair) (y : Num) : Pair × TFlags :=
  let s := fp32Of p.1
  match s, y with
  | .nan, _ => (pairNan, flNanSeen)
  | _, .nan => (pairNan, flNanSeen)
  | .inf a, .inf b => if a == b then (p, 0) else (pairNan, flNanSeen)
  | .inf _, .fin _ _ _ => (p, 0)
  | .fin _ _ _, .inf b => ((fp32Code (.inf b), 0), 0)
  | .fin _ _ _, .fin _ _ _ => if p.2 == satMark then (p, flSat) else stepFinite s (bf16Of p.2) y

/-- The integer of a finite number that is one. -/
def intOf : Num → Int
  | .fin n m e => intAt n m e 0
  | _ => 0

/-- An INT32 partial's step (R94, R96). -/
def stepInt (p : Pair) (y : Int) : Pair × TFlags :=
  if p.2 == satMark then (p, flSat)
  else
    let v := p.1.toInt + y
    if v > 0x7FFFFFFF then ((0x7FFFFFFF, satMark), flSat)
    else if v < -0x80000000 then ((0x80000000, satMark), flSat)
    else ((BitVec.ofInt 32 v, 0), 0)

/-- The step of an element: y is the pass term of R95. -/
def accStep (isInt : Bool) (p : Pair) (y : Num) : Pair × TFlags :=
  if isInt then stepInt p (intOf y) else stepFloat p y

/-- The pass term (R95): the tree's sum, and the spill list's exact sum where the pass has entries for the
element; then one rounding to FP32. -/
def passTerm (isInt : Bool) (tree : Num) (z : Option Num) : Num × TFlags :=
  match z with
  | none => (tree, 0)
  | some z =>
    let x := numAdd tree z
    if isInt then (x, 0)
    else
      let (v, sat) := fp32Sat x
      (v, flagIf sat flSat ||| flagIf (numIsNan v) flNanSeen)

/-- The root conversion of a pass sum (R75). -/
def rootConvert (x : Num) : Num × TFlags :=
  match x with
  | .nan => (x, flNanSeen)
  | .inf _ => (x, 0)
  | .fin n m e =>
    let (v, sat) := fp32Sat x
    if sat then (v, flSat ||| flScaleOvf)
    else if m != 0 && !magGe m e (-149) && !(decide ((1 : Nat) <<< (m.log2) < m) && magGe m e (-150)) then (.fin n 0 0, flScaleUf)
    else (v, 0)

/-! ### Wide values -/

/-- The wide formats (R100). -/
inductive WideFmt where
  | none
  | w64
  | x320
  deriving DecidableEq, Repr

def wideOf : Nat → WideFmt
  | 1 => .w64
  | 2 => .x320
  | _ => .none

def wideCode : WideFmt → Nat
  | .none => 0
  | .w64 => 1
  | .x320 => 2

/-- Bytes of one wide element and of a wide row (R100). -/
def wideBytes : WideFmt → Nat
  | .none => 0
  | .w64 => 8
  | .x320 => 40

/-- binary64 rounding; a magnitude of 2^1024 or above is an infinity (R102). -/
def round64 (x : Num) : Num :=
  match numRound 53 (-1074) x with
  | .fin n m e => if magGe m e 1024 then .inf n else .fin n m e
  | other => other

/-- The value a W64 code stands for (R102). -/
def w64Of (c : Nat) : SVal :=
  let neg := bits c 63 63 == 1
  let ex := bits c 62 52
  let fr := bits c 51 0
  if ex == 0x7FF then
    if fr == 0 then .num (.inf neg) else if fr == 1 then .sat neg else .num .nan
  else if ex == 0 then .num (.fin neg fr (-1074))
  else .num (.fin neg (fr + 2 ^ 52) ((ex : Int) - 1075))
where
  bits (v hi lo : Nat) : Nat := (v >>> lo) % 2 ^ (hi + 1 - lo)

/-- The W64 code of a value on binary64's grid (R102). -/
def w64Code : SVal → Nat
  | .sat neg => (if neg then 2 ^ 63 else 0) + 0x7FF * 2 ^ 52 + 1
  | .num .nan => 0x7FF8000000000000
  | .num (.inf neg) => (if neg then 2 ^ 63 else 0) + 0x7FF * 2 ^ 52
  | .num (.fin neg m e) =>
    let (m', q) := roundMag 53 (-1074) m e
    (if neg then 2 ^ 63 else 0) + ((q + 1074).toNat <<< 52) + m'

/-- The X320 clamp (R104): (2^301 - 1) * 2^-149. -/
def x320Max (neg : Bool) : Num := .fin neg (2 ^ 301 - 1) (-149)

/-- The value an X320 word stands for (R103). -/
def x320Of (w : Nat) : SVal :=
  let v := w % 2 ^ 302
  let cls := (w >>> 302) % 4
  let neg := v ≥ 2 ^ 301
  if cls == 3 then .num .nan
  else if cls == 1 then .num (.inf false)
  else if cls == 2 then .num (.inf true)
  else if (w >>> 304) % 2 == 1 then .sat neg
  else .num (.fin neg (if neg then 2 ^ 302 - v else v) (-149))

/-- The integer of a number on the grid of 2^-149. -/
def gridInt : Num → Int
  | .fin n m e => if e ≥ -149 then intAt n m e (-149) else
      let q : Int := (m >>> (-149 - e).toNat : Nat)
      if n then -q else q
  | _ => 0

/-- The X320 word of a value (R103). DESIGN CHOICE (log 42): the value field of an Inf or NaN class is 0, and a
value with bits below 2^-149, which only a W64 region written by software can bring into FOLD, loses them. -/
def x320Code : SVal → Nat
  | .sat neg => codeOf 302 (gridInt (x320Max neg)) + 2 ^ 304
  | .num .nan => 3 * 2 ^ 302
  | .num (.inf neg) => (if neg then 2 else 1) * 2 ^ 302
  | .num x => codeOf 302 (gridInt x)

def wideValOf (f : WideFmt) (w : Nat) : SVal :=
  match f with
  | .none => .num numZero
  | .w64 => w64Of w
  | .x320 => x320Of w

def wideValCode (f : WideFmt) (v : SVal) : Nat :=
  match f with
  | .none => 0
  | .w64 => w64Code v
  | .x320 => x320Code v

/-- A finite sum in a wide format: W64 rounds, X320 clamps at 2^152 (R102, R104). -/
def wideFinite (f : WideFmt) (a b : Num) : SVal × TFlags :=
  match f with
  | .x320 =>
    match numAdd a b with
    | .fin n m e => if magGe m e 152 then (.sat n, flSat) else (.num (.fin n m e), 0)
    | x => (.num x, 0)
  | _ => (.num (round64 (numAdd a (round64 b))), 0)

/-- Add a value to a wide value (R88, R96, R97, R101 to R104). -/
def wideAdd (f : WideFmt) (w x : SVal) : SVal × TFlags :=
  match w, x with
  | .num .nan, _ => (.num .nan, flNanSeen)
  | _, .num .nan => (.num .nan, flNanSeen)
  | .sat a, .sat b => if a == b then (.sat a, flSat) else (.num .nan, flNanSeen)
  | .sat _, .num (.inf b) => (.num (.inf b), 0)
  | .sat a, .num _ => (.sat a, flSat)
  | .num (.inf a), .num (.inf b) => if a == b then (.num (.inf a), 0) else (.num .nan, flNanSeen)
  | .num (.inf a), _ => (.num (.inf a), 0)
  | .num _, .num (.inf b) => (.num (.inf b), 0)
  | .num _, .sat b => (.sat b, flSat)
  | .num a, .num b => wideFinite f a b

/-- A spill (R101): the pair is added to the wide value; the next pass starts from (0, 0). -/
def spillPair (f : WideFmt) (isInt : Bool) (w : SVal) (p : Pair) : SVal × TFlags := wideAdd f w (pairVal isInt p)

/-- A DET pass term (R112): the tree's sum and the spill list's, rounded onto the multiples of 2^-149. -/
def detTerm (tree : Num) (z : Option Num) : Num :=
  match numAdd tree (z.getD numZero) with
  | .fin n m e => if e ≥ -149 then .fin n m e else .fin n (rneShift m (-149 - e).toNat) (-149)
  | x => x

/-- Add a DET pass term to X320. -/
def detAdd (w : SVal) (tree : Num) (z : Option Num) : SVal × TFlags := wideAdd .x320 w (.num (detTerm tree z))

/-! ### Spill passes (R100, R101, R105) -/

/-- P after a pass, and whether that pass is a spill pass: P reaches S, or 4,096 with a wide region. -/
def spillPass (interval : Nat) (wide : Bool) (p : Nat) : Bool :=
  (decide (1 ≤ interval) && decide (interval ≤ p)) || (wide && decide (4096 ≤ p))

/-- The tile carries BOUND_WEAK from the pass that brings P to 4,097 without a wide region. -/
def boundWeak (wide : Bool) (p : Nat) : Bool := !wide && decide (4097 ≤ p)

/-! ### Final values (R106, R110, R111) -/

/-- The exact sum of values (R88, R106, R111): NaN, else an infinity, else a saturated sign, else the sum; with the
flags it raises. Its order never matters. -/
def exactSum (vs : List SVal) : SVal × TFlags :=
  let nan := vs.any (fun v => v == .num .nan)
  let pinf := vs.any (fun v => v == .num (.inf false))
  let ninf := vs.any (fun v => v == .num (.inf true))
  let psat := vs.any (fun v => v == .sat false)
  let nsat := vs.any (fun v => v == .sat true)
  if nan || (pinf && ninf) then (.num .nan, flNanSeen)
  else if pinf then (.num (.inf false), 0)
  else if ninf then (.num (.inf true), 0)
  else if psat && nsat then (.num .nan, flNanSeen)
  else if psat then (.sat false, flSat)
  else if nsat then (.sat true, flSat)
  else
    (.num (vs.foldl (fun a v => match v with
      | .num x => numAdd a x
      | .sat _ => a) numZero), 0)

/-- What enters conversion from an exact sum: a saturated sign counts as FLT_MAX (R106). -/
def sumVals (vs : List SVal) : Num × TFlags :=
  match exactSum vs with
  | (.num x, f) => (x, f)
  | (.sat neg, f) => (fltMax neg, f)

/-- The final value of an element: its wide value, s and e (R106). -/
def finalVal (isInt : Bool) (wide : WideFmt) (w : SVal) (p : Pair) : Num × TFlags :=
  if wide == .none then sumVals [pairVal isInt p] else sumVals [w, pairVal isInt p]

/-- FOLD's X320 partial output: the exact sum as a wide value, clamped once as R104 clamps it. -/
def foldWide (vs : List SVal) : SVal × TFlags :=
  match exactSum vs with
  | (.num (.fin n m e), f) => if magGe m e 152 then (.sat n, flSat) else (.num (.fin n m e), f)
  | r => r

end Sys2Proof.Machine
end

