-- ==== Sys2Proof/Config.lean ====
section
/-!
DEFINITION. What the spec leaves to the implementation or leaves open: constants without a body, so that no
claim can rest on a value of them (log entries 10 to 12).
-/

namespace Sys2Proof.Config

/-- FREE VALUE (log 10). The n-th open value of 64 bits; `State.freeCnt` numbers them. -/
opaque freeValue : Nat → W64

/-- DESIGN CHOICE (log 11). The hash that indexes Gambit's history table from the context, the tensor index
and the column group of a key (R266); the spec does not give it. -/
opaque gambitHash : Nat → Nat → Nat → Fin 4096

/-- DESIGN CHOICE (log 12). The engine-defined body of the save area (R245): byte `i` of the 4,032 bytes
behind the 64 B header, for the number of the free value that the save takes. -/
opaque saveBody : Nat → Nat → Byte

/-- DESIGN CHOICE (log 12). Jadraide's manufacturer code, IDCODE bits [11:1] (R348); the spec gives no value. -/
opaque manufacturer : BitVec 11

/-- DESIGN CHOICE (log 12). The SHA-384 digest of a fuse view (R345): the function is outside the spec. -/
opaque sha384 : W64 → BitVec 384

/-- DESIGN CHOICE (log 12). What M1 answers to an SPDM request that carries certificates or signatures (R345). -/
opaque spdmAnswer : Nat → W64

/-- FREE VALUE (log 10). The setpoint in millivolts of an island other than an array at a frequency in MHz:
the spec gives a voltage table for arrays only (before R355). -/
opaque islandMillivolts : Nat → Nat → Nat

/-- FREE VALUE (log 10). What the TAP's instrument network returns for an instruction (R348). -/
opaque tapNetwork : Nat → W64

/-- FREE VALUE (log 10). The bits a mask operation writes where the spec gives none (R121, R122, R124, R128, R140): inactive
slots and members, index bits of inactive slots, padding, and a shadow returned with undefined contents. The first argument
numbers the operation, the second is the address of a row or list, the third an item of it. -/
opaque maskFill : Nat → Nat → Nat → Byte

/-- FREE VALUE (log 10). The second beat of a STREAM source row in a two-beat pass mode (R39, R60): the spec gives a source row 32
bits per physical row. Arguments: the operation, the source row, the physical row. -/
opaque secondBeat : Nat → Nat → Nat → W32

end Sys2Proof.Config
end

