-- ==== Sys2Proof/Machine/State.lean ====
section
/-!
DEFINITION. The state of the Merba M1 as plain data: every register, queue, buffer, counter, mode and pin the
spec gives it, the memory its commands act on, and the queue of waiting commands. INVENTORY.md lists each
field with the rule that names it and its reset value.
-/

namespace Sys2Proof.Machine

/-- Why a step may stop the model for good. There is no such reason: the hardware contains its faults and goes on
(chapter 13), and so does every command here. -/
inductive Fault where
  deriving DecidableEq, Repr

/-- Why a command is not given a meaning. -/
inductive Refusal where
  /-- Raised by a refused arm of `exec` only: the command is not modelled yet. Safe: nothing is claimed of it. -/
  | notModelled (mnemonic : String)
  deriving DecidableEq, Repr

/-- What M1's OTP holds beside the array-enable map (R362): repair data, trim codes of the islands, the device key. -/
structure OtpData where
  repair : List W64
  trim : List W64
  key : BitVec 384
  deriving DecidableEq, Repr

/-- What the integrator and the fuses fix (R4, R5, R344, R362). -/
structure HwConfig where
  regions : Nat
  otp : BitVec 16
  otpData : OtpData
  staticAddr : BitVec 7
  /-- transfers an asynchronous crossing holds (R35) -/
  xingCap : Nat
  deriving DecidableEq, Repr

/-- Boot, reset and power-state progress (R351, R362 to R365, R384, R385). -/
structure Boot where
  resetAsserted : Bool
  ready : Bool
  phase : BitVec 3
  fail : Bool
  warmHeld : Bool
  pstate : BitVec 2
  /-- dispatch stopped by a board-level fault (R31, R325, R349, R356) -/
  stopped : Bool
  /-- the rails are removed (R384) -/
  off : Bool
  /-- the host ports are gated in retention (R385) -/
  gated : Bool
  /-- the engine fuse shadow's array-enable map (R362 phase 1) -/
  fuse : BitVec 16
  /-- the rest of the fuse shadow (R362 phase 1) -/
  fuseData : OtpData
  /-- units that were LIVE at retention entry (R374) -/
  retained : List UnitSel
  /-- doorbell-notifies held until ready (R364) -/
  heldNotify : List (HostId × CtxId)
  /-- sideband unit and maintenance requests held until ready (R364): true for MAINT_REQUEST -/
  heldSide : List (Bool × W32)
  deriving DecidableEq, Repr

/-- The timebase (R349, R350). -/
structure Time where
  t : Nat
  held : Bool
  stale : Bool
  refclk : Bool
  calibrated : Bool
  deriving DecidableEq, Repr

/-- Where a byte lives: the licensee's memory or a region's scratchpad. -/
inductive Space where
  | mem
  | spad (r : Nat)
  deriving DecidableEq, Repr

/-- The bytes the commands act on: memory by IO-virtual address, scratchpad by region-relative offset. A byte
that is not listed is 0 (log 3; R362 for the scratchpad). -/
structure Mems where
  host : List Host.Cell
  spad : Tbl (List Host.Cell)
  deriving DecidableEq, Repr

/-- How the licensee's memory system answers (R334): ranges whose accesses answer with a translation error,
by ASID or for every ASID, and ranges whose reads answer poisoned. -/
structure Env where
  xlate : List (Option (BitVec 16) × Nat × Nat)
  poison : List (Nat × Nat)
  deriving DecidableEq, Repr

/-- Bytes to be written at an address. -/
structure MemWrite where
  sp : Space
  addr : Nat
  bytes : List Byte
  deriving DecidableEq, Repr

/-- The setup registers that a warm reset returns to their reset values (R392). -/
structure Regs where
  speaks : BitVec 4
  agreed : BitVec 4
  ctxBase : BitVec 57
  pollNs : BitVec 32
  /-- the poll interval that is running, 0 where none is (R396) -/
  pollCur : BitVec 32
  sideThreshold : BitVec 5
  sideFallback : Bool
  quantum : BitVec 16
  qdepth : BitVec 3
  starveUs : BitVec 12
  preloadEn : Bool
  specEn : Bool
  prefetchEn : Bool
  specPasses : BitVec 4
  confMin : BitVec 2
  winEn : Bool
  winBase : BitVec 29
  waitPoll : BitVec 8
  irqAddr : BitVec 57
  irqEn : Bool
  irqData : BitVec 32
  engineAsid : BitVec 16
  snapBase : BitVec 57
  periodMs : BitVec 16
  /-- registers of which one 4 B half has been written: offset, upper half or not, the half written (R386) -/
  halves : List (Nat × Bool × W32)
  deriving DecidableEq, Repr

/-- The fields of ENG_PWR_CFG (R355). -/
structure PwrCfg where
  capW : BitVec 10
  boostEn : Bool
  fFloor : BitVec 11
  tThrottle : BitVec 8
  deriving DecidableEq, Repr

/-- Power and thermal control (R355, R356, R383, R401). -/
structure Pwr where
  /-- ENG_PWR_CFG as it was written last -/
  cfg : PwrCfg
  /-- ENG_PWR_CFG in force: a write takes effect at the next interval (R355) -/
  now : PwrCfg
  target : BitVec 2
  /-- the arrays step towards the point of `target` (R384) -/
  moving : Bool
  /-- a target written during a transition (R383) -/
  nextTarget : Option (BitVec 2)
  autoIdle : Bool
  retRefused : Bool
  idleUs : BitVec 8
  avgMw : Nat
  binding : Bool
  throttled : Bool
  /-- the power controller's points in MHz -/
  capArray : Nat
  capSide : Nat
  capStaging : Nat
  /-- the limit that reduced-clock sets for the arrays in MHz; at 1850 it limits none -/
  rcPoint : Nat
  /-- the thermal limit of an island in MHz; an island that is not listed has none -/
  thermal : Tbl Nat
  /-- a site has reached 110 degrees (R356) -/
  tripped : Bool
  temps : Tbl Int
  maxTemps : Tbl Int
  islandMw : Tbl Nat
  deriving DecidableEq, Repr

/-- States of a unit (R314). -/
inductive UState where
  | absent
  | live
  | draining
  | disabled
  | fenced
  | testing
  deriving DecidableEq, Repr

/-- A unit: its state, the state it held before its enable request (R373), and whether it drains for a
self-test (R381). -/
structure MUnit where
  st : UState
  prior : UState
  forTest : Bool
  deriving DecidableEq, Repr

structure Units where
  array : Tbl MUnit
  side : Tbl MUnit
  region : Tbl MUnit
  port : Tbl MUnit
  deriving DecidableEq, Repr

/-- A clock island (R34, R312, R353, R359). -/
structure Island where
  standby : Bool
  out : Bool
  droops : W32
  gated : Bool
  deriving DecidableEq, Repr

/-- Whose access a request is (R338, R334). -/
inductive Owner where
  | desc (c : Nat) (ring : W32)
  /-- a preload of an array, or, without one, a prefetch: its context, tensor and generation -/
  | gambit (c tensor : Nat) (gen : W32) (array : Option Nat)
  | maint
  | engine
  /-- the fault interrupt (R398) -/
  | irq
  /-- its response is awaited and discarded (R374) -/
  | lost
  | host (p : Nat)
  deriving DecidableEq, Repr

/-- A request on an MPP interface (R332). -/
structure PortReq where
  op : Nat
  addr : Nat
  asid : BitVec 16
  len : Nat
  cls : Nat
  aop : Nat
  data : List Byte
  owner : Owner
  arrived : Nat
  retried : Bool
  /-- the array and the band whose sub-tile asks (R308) -/
  sub : Option (Nat × Nat) := none
  deriving DecidableEq, Repr

/-- A transfer presented to an asynchronous crossing and not yet delivered: the data of a port's read (R35). -/
structure Crossing where
  src : Nat
  dst : Nat
  read : PortReq
  deriving DecidableEq, Repr

/-- A memory port (R331 to R333, R399). -/
structure MemPort where
  up : Bool
  credReq : Nat
  credWd : Nat
  rdQ : List PortReq
  wrQ : List PortReq
  rdOut : Tbl PortReq
  wrOut : Tbl PortReq
  ce : W32
  ue : BitVec 16
  poison : BitVec 16
  ueTimes : List Nat
  cycle : Nat
  /-- reads that wait in the port for room in the crossing (R35, R331) -/
  held : List PortReq
  deriving DecidableEq, Repr

/-- What M1 answers to a request on a host port's target side (R341), or to a sideband message. -/
inductive HostResp where
  | none
  | ok
  | err
  | data (bs : List Byte)
  | prior (w : W64)
  deriving DecidableEq, Repr

/-- A host port (R340 to R342). -/
structure HostPort where
  up : Bool
  /-- treated as down until cold reset after an island fault (R312, R363) -/
  dead : Bool
  lastUp : Nat
  credReq : Nat
  credWd : Nat
  initQ : List PortReq
  /-- outstanding initiator requests by their tags, in order of issue (R342) -/
  initOut : Tbl PortReq
  resp : HostResp
  /-- the lines that a window access in progress has read: offset, bytes (R289) -/
  wdata : List (Nat × List Byte)
  deriving DecidableEq, Repr


/-- An entry of the engine fault log (R324). -/
structure FlogEntry where
  ts : W64
  cls : BitVec 3
  corrupt : Bool
  kind : BitVec 4
  source : Byte
  index : BitVec 5
  region : BitVec 2
  count : Byte
  ctx : BitVec 12
  ring : W32
  detail : W32
  addr : W64
  deriving DecidableEq, Repr

structure FaultLog where
  entries : Tbl FlogEntry
  next : BitVec 9
  written : W32
  /-- a fault interrupt awaits its acknowledgement (R398) -/
  irqWait : Bool
  /-- an entry of class 3 or above arrived in the meantime -/
  irqMore : Bool
  deriving DecidableEq, Repr

/-- Sideband answers: command and instance byte, completion byte and payload (R346), a notification (R347), an SPDM answer (R345). -/
inductive SbdResp where
  | none
  | done (cmd inst code : Byte) (payload : List W64)
  | notify (e : FlogEntry) (overflow : Bool)
  | spdm (payload : List W64)
  deriving DecidableEq, Repr

structure Sideband where
  dynAddr : BitVec 7
  eid : BitVec 8
  session : Bool
  /-- an SPDM key exchange awaits its finish (R345) -/
  kex : Bool
  /-- the mandatory byte of an in-band interrupt that the bus owner has not answered (R344, R347) -/
  ibi : Option Byte
  queue : List (FlogEntry × Bool)
  ovf : Bool
  resp : SbdResp
  deriving DecidableEq, Repr

/-- The TAP (R348). -/
structure Tap where
  unlocked : Bool
  status : BitVec 2
  ir : TapIns
  out : W64
  deriving DecidableEq, Repr

/-- One context's accounting record (R358). -/
structure Acct where
  macOps : W64
  arrayCycles : W64
  sideCycles : W64
  rdBytes : W64
  wrBytes : W64
  passes : W64
  descriptors : W32
  lateSteps : W32
  lateNs : W64
  deriving DecidableEq, Repr

structure Telemetry where
  cnt : Tbl W64
  acct : Tbl Acct
  seq : W32
  /-- regions that still have to write their part of the snapshot in progress (R360) -/
  snapLeft : List Nat
  deriving DecidableEq, Repr

/-- An entry of the claim ledger (R293): address, value, and who wrote it. -/
structure Claim where
  sp : Space
  addr : Nat
  value : W64
  ctx : Nat
  seq : W32
  deriving DecidableEq, Repr

/-- The key of a stationary block (R265). -/
structure BlockKey where
  ctx : Nat
  tensor : Nat
  gen : W32
  group : Nat
  head : Nat
  pass : Nat
  mode : Nat
  deriving DecidableEq, Repr

/-- An entry of Gambit's history table (R266). -/
structure HistEntry where
  pred : BlockKey
  conf : BitVec 2
  deriving DecidableEq, Repr

structure Gambit where
  hist : Tbl HistEntry
  /-- predictions installed by CASTLE hints, per array (R269) -/
  hint : Tbl BlockKey
  deriving DecidableEq, Repr

/-- How the cells of an array read the row bus (R39): the formats of the pass, the slot budget, and whether
cells select by slot_index. -/
structure PassMode where
  act : Nat
  wgt : Nat
  slots : Nat
  slotted : Bool
  scaled : Bool
  deriving DecidableEq, Repr

/-- One bank of a multiply cell (R37). -/
structure BCell where
  value : BitVec 16
  info : BitVec 4
  deriving DecidableEq, Repr

/-- One physical row of a bank set: its cells, its check sums (check cell first, then the check table, R55)
and whether a check sum saturated. Cells that are not listed are zero. -/
structure BankRow where
  cells : List BCell
  checks : List W32
  sat : Bool
  deriving DecidableEq, Repr

/-- One bank set of an array with its block-scale store (R72). -/
structure Bank where
  rows : List BankRow
  scales : List (List Byte)
  mode : PassMode
  key : Option BlockKey
  deriving DecidableEq, Repr

/-- Where a sub-tile's partial lives (R115, R116). -/
structure SlotRef where
  backed : Bool
  num : Nat
  region : Nat
  deriving DecidableEq, Repr

/-- A partial element as it is held between its steps: its pair, the code of its wide value, and its flags. -/
structure PElem where
  pair : W32 × BitVec 16
  wide : Nat
  fl : TFlags
  deriving DecidableEq, Repr

/-- One row of a link buffer (R175, R178): the intermediate's codes, the exponent its partials are rescaled by, and the
row's softmax state (m, l) behind it. -/
structure LinkRow where
  row : Nat
  codes : List Nat
  shift : Int
  soft : W32 × W32
  deriving DecidableEq, Repr

/-- One half of a link buffer (R175): the intermediate of one W1 column group of a FUSED2 sub-tile's chunk. -/
structure LinkHalf where
  ctx : Nat
  ring : W32
  h : Nat
  c : Nat
  group : Nat
  rows : List LinkRow
  deriving DecidableEq, Repr

/-- How far a FUSED2 sub-tile is (R176, R177): the lead's W1 group, pass and row, the follower's W2 group and row in the
second-product pass that follows the committed ones, and what is not committed yet: the lead's partials of each row, its
row states, the follower's partials, and flags. `soft` is the committed row state, `shifts` the exponents by which the committed
passes rescaled each row (R179). -/
structure Fuse where
  /-- it runs on an array pair, and not solo (R173) -/
  paired : Bool
  leadG : Nat
  leadP : Nat
  leadRow : Nat
  followG : Nat
  followRow : Nat
  soft : List (W32 × W32)
  shifts : List (List Int)
  now : List (W32 × W32)
  part : Tbl (List PElem)
  pend : Tbl (List PElem)
  flags : TFlags
  deriving DecidableEq, Repr

def Fuse.init : Fuse :=
  { paired := false, leadG := 0, leadP := 0, leadRow := 0, followG := 0, followRow := 0, soft := [], shifts := [], now := [], part := [], pend := [], flags := 0 }

/-- A sub-tile from its emission to its completion (R148, R253, R301). -/
structure SubTile where
  ctx : Nat
  ring : W32
  variant : Nat
  shapeV : Nat
  h : Nat
  c : Nat
  g : Nat
  m0 : Nat
  rows : Nat
  passes : Nat
  cost : Nat
  prio : Nat
  side : Bool
  array : Option Nat
  /-- the array on which it ran first (R305) -/
  home : Option Nat
  band : Nat
  bandRows : Nat
  /-- the array position that it shares with the sub-tiles in the other bands (R19, R50) -/
  pos : Nat
  slot : Option SlotRef
  jent : Option Nat
  passesDone : Nat
  rowMark : Nat
  /-- passes whose spill-list sums the Side Path has delivered (R126) -/
  zPasses : Nat
  misses : Nat
  flags : TFlags
  moved : Bool
  entered : Nat
  /-- its place in the order of dispatch of its region (R117, R306) -/
  order : Nat
  /-- it has begun a pass on the array it is bound to (R256) -/
  started : Bool
  /-- it restarts, and its descriptor is read again from the ring first (R29, R307) -/
  reread : Bool
  /-- rows of its last pass for which the Side Path has asked for hashes (R210) -/
  hashRow : Nat
  /-- the last row, by pass and tag, whose operands the Side Path has asked for (R23) -/
  fedRow : Nat × Nat := (0, 0)
  fuse : Fuse
  deriving DecidableEq, Repr

/-- A shadow load in progress (R17, R44): `cycle` is the array cycle in which its next row is broadcast. -/
structure Load where
  key : BlockKey
  band : Nat
  preload : Bool
  nextRow : Nat
  total : Nat
  parity : Nat
  restarted : Bool
  cycle : Nat
  /-- bytes a preload asked of a memory port, charged when it hits (R358) -/
  bytes : Nat
  deriving DecidableEq, Repr

/-- A result row between its broadcast and its commit (R42). -/
structure RowRes where
  row : Nat
  cycle : Nat
  sums : List W32
  ycheck : W32
  isInt : Bool
  /-- F of R56 is 2 to this power -/
  allow : Int
  skip : Bool
  accepted : Bool
  flags : TFlags
  /-- the flags that each column's sum raised (R75, R88) -/
  cols : List TFlags := []
  deriving DecidableEq, Repr

/-- A result row in the skewed delay line (R46). -/
structure DelayRow where
  ctx : Nat
  ring : W32
  row : Nat
  cycle : Nat
  writes : List MemWrite
  /-- the slot that the delivery of the sub-tile's last row frees (R115) -/
  frees : Option SlotRef
  deriving DecidableEq, Repr

/-- The speculative partial buffer and what it holds (R20, R271). -/
structure SpecBuf where
  sub : SubTile
  passes : Nat
  pairs : List (List (W32 × BitVec 16))
  gens : List (Nat × W32)
  shape : Option Nat
  flags : TFlags
  confirmed : Bool
  /-- spec_passes and conf_min as they stood when it started (R277) -/
  limit : Nat
  conf : Nat
  deriving DecidableEq, Repr

/-- The pass that a band, or the whole array as band 0, runs (R45, R47, R51). -/
structure Lane where
  /-- the array cycle from which a requested Castle is held (R15) -/
  castleReq : Option Nat
  /-- what the check of the bank that becomes active has found while the Castle waits (R16) -/
  castleRs : RsResult := .clean
  /-- the array cycle after the last Castle (R44) -/
  castled : Nat
  /-- array cycles each physical row has broadcast in the pass, and the activation rows each column tree has taken -/
  sent : List Nat
  taken : List Nat
  /-- entries in each column's drain buffer (R47) -/
  drain : List Nat
  results : List RowRes
  /-- activation rows of the pass whose reads the staging unit has asked for (R23, R41) -/
  asked : Nat := 0
  deriving DecidableEq, Repr

def Lane.init : Lane := { castleReq := none, castled := 0, sent := [], taken := [], drain := [], results := [] }

structure ArrayS where
  active : Bank
  shadow : Bank
  /-- the shadow loads in the order they were requested: the first that is not complete has the load bus (R44, R51) -/
  loads : List Load
  /-- the next array cycle in which the load bus is free -/
  bus : Nat
  /-- the lanes by their band -/
  lanes : Tbl Lane
  cycle : Nat
  delay : List DelayRow
  bandLayout : BitVec 3
  bandOcc : BitVec 4
  bandFenced : BitVec 4
  /-- bands fenced until the record of a descriptor that ended in XLATE_FAULT is written (R308): band, context, ring -/
  bandHold : List (Nat × Nat × W32)
  bound : List SubTile
  cnt : Tbl W64
  missTimes : List Nat
  parityTimes : List Nat
  spec : Option SpecBuf
  link : List LinkHalf
  gather : Tbl (List Byte)
  tsp : List BankRow
  lastKey : Option BlockKey
  deriving DecidableEq, Repr

/-- One journal entry with its two copies (R300, R301): eight words each, and whether a copy is lost. -/
structure JEntry where
  a : List W64
  b : List W64
  lostA : Bool
  lostB : Bool
  deriving DecidableEq, Repr

/-- A residency copy (R145, R161). -/
structure ResCopy where
  ctx : Nat
  /-- the descriptor that had it fetched -/
  ring : W32
  tensor : Nat
  gen : W32
  bytes : Nat
  stamp : Nat
  deriving DecidableEq, Repr

/-- A CONV input window (R186, R187): the input rows of one image it holds. -/
structure Window where
  ctx : Nat
  ring : W32
  chunk : Nat
  head : Nat
  image : Nat
  lo : Nat
  hi : Nat
  bytes : Nat
  deriving DecidableEq, Repr

/-- What a granted bank access does (R23): a read for its source, a write of bytes of one line, an atomic, of which `held`
says that its read has been granted (R284), or a read that answers a host port (R289). -/
inductive BankAct where
  | read
  | write (bs : List Byte)
  | atomic (op : Nat) (x new : W64) (held : Bool)
  | fetch (n : Nat)
  deriving DecidableEq, Repr

/-- A scratchpad bank request (R23). -/
structure BankReq where
  cls : Nat
  addr : Nat
  act : BankAct
  arrived : Nat
  owner : Owner
  /-- the accumulation slot that the grant frees: it writes a sub-tile's last output row (R115) -/
  frees : Option (Nat × SlotRef)
  /-- the journal record that the grant writes: it writes the last bytes of a row (R43): region, entry and record -/
  mark : Option (Nat × Nat × List W64) := none
  deriving DecidableEq, Repr

/-- A request for a batch of hashes (R210). -/
structure RngReq where
  cls : Nat
  unit : Nat
  /-- which row of the unit the hashes are for -/
  tag : Nat
  count : Nat
  arrived : Nat
  deriving DecidableEq, Repr

/-- One half of a Side Path's weight buffer (R195). -/
structure SideHalf where
  ctx : Nat
  ring : W32
  h : Nat
  c : Nat
  g : Nat
  pass : Nat
  /-- it holds a block of a FUSED2's W2 -/
  second : Bool
  bytes : Nat
  deriving DecidableEq, Repr

/-- A watch entry of the fabric node (R285). -/
structure Watch where
  ctx : Nat
  addr : Nat
  deriving DecidableEq, Repr

structure Region where
  journal : Tbl JEntry
  queue : List SubTile
  sideQ : List SubTile
  replayQ : List SubTile
  slots : List (Nat × Nat)
  resid : List ResCopy
  windows : List Window
  cnt : Tbl W64
  /-- the banks mapped onto spares, and how many spares failed a march test (R362, R403) -/
  spares : List Nat
  badSpares : Nat
  bankReqs : List BankReq
  /-- the scratchpad cycle, and per bank the cycle after its last grant (R23, R24) -/
  scycle : Nat
  bankNext : Tbl Nat
  bankTimes : Tbl (List Nat)
  lanes : W32
  laneMis : BitVec 16
  laneTimes : Tbl (List Nat)
  selfDone : Bool
  selfPass : Bool
  selfFailed : W32
  rngReqs : List RngReq
  rcycle : Nat
  sideHalves : List SideHalf
  sideMissTimes : List Nat
  sideLink : List LinkHalf
  watch : List Watch
  ctlCopies : Nat
  ctlTimes : Tbl (List Nat)
  /-- a scrub's next line of each bank, with the cycle from which it is asked for, and the cycle at which the scrub began (R377) -/
  scrub : Tbl (Nat × Nat)
  scrubFrom : Nat
  running : List MaintAct
  queued : List (Master × MaintAct)
  starveFrom : Tbl Nat
  /-- classes that receive the next bindings, in the order they were relieved (R257) -/
  relief : List Nat
  deriving DecidableEq, Repr

/-- An RNG slot of a context (R202). -/
structure RngSlot where
  key : W64
  streamBase : W32
  epoch : W32
  deriving DecidableEq, Repr

/-- Tempo (R260, R261): period k, its start and end, the cumulative lateness, the step's descriptors that have
no record yet, when its last record was written, and the descriptors of the next step. -/
structure Tempo where
  k : Nat
  start : Nat
  fin : Nat
  late : Nat
  openRings : List W32
  lastDone : Nat
  nextRings : List W32
  deriving DecidableEq, Repr

/-- What a completion record reports beside the echoes (R246). -/
structure Result where
  status : Status
  flags : TFlags
  checkId : Byte
  operand : BitVec 16
  shortfall : W32
  result : W64
  deriving DecidableEq, Repr

/-- The top-k sieve of one scope unit (R137): accepted positions, the positions of the boundary bin, how many
are still to be taken from it, and the stage of the narrowing. -/
structure SieveUnit where
  acc : List Nat
  bin : List Nat
  left : Nat
  stage : Nat
  fin : Bool
  deriving DecidableEq, Repr

/-- A mask operation in flight (R133, R301): its phase (0 admit, 1 sweep, 2 select, 3 rebuild, 4 commit,
5 retire), sweep number, sieve, new active set of each head, and the counts of the new layout. -/
structure MaskOp where
  phase : Nat
  sweep : Nat
  region : Nat
  sieve : List (List SieveUnit)
  sel : List (List Bool)
  promotions : Nat
  spillNeed : Nat
  toverNeed : Nat
  flags : TFlags
  jent : Option Nat
  deriving DecidableEq, Repr

/-- An admitted descriptor with its admission record (R304), its progress and its result. -/
structure Adm where
  ring : W32
  desc : List W64
  entries : Tbl (List W64)
  params : Tbl (List W64)
  variants : List (List W64)
  ent : List W64
  key : W64
  stream : W32
  epoch : W32
  /-- sub-tiles emitted, their number once dispatch has begun, and those completed -/
  emitted : Nat
  total : Option Nat
  doneSubs : Nat
  /-- its undispatched sub-tiles found no live array: it completes with ARRAYS_ABSENT (R254) -/
  absent : Bool
  variant : Nat
  shapeV : Nat
  flags : TFlags
  result : Option Result
  /-- a remote operation whose effect is done, and the prior value it returned (R291) -/
  prior : Option W64
  /-- source bytes of an RWRITE or RREAD that have been read: address, bytes (R281, R282) -/
  copied : List (Nat × List Byte)
  /-- a WAITV's activation time and the value last read (R285) -/
  active : Option Nat
  lastRead : W64
  mask : Option MaskOp
  /-- row statistics of completed column groups: head, row, group, values (R172) -/
  stats : List (Nat × Nat × Nat × List W32)
  deriving DecidableEq, Repr

structure Context where
  ent : List W64
  st : BitVec 4
  producer : W32
  fetch : W32
  retire : W32
  cqWritten : W32
  cqHead : W32
  dbOverrun : Bool
  cqWait : Bool
  /-- cq_head_addr is to be read (R227) -/
  cqRead : Bool
  dbRead : Bool
  dbAgain : Bool
  activating : Bool
  /-- a context abort is in progress (R375) -/
  aborting : Bool
  fetched : List (W32 × List W64)
  /-- slots whose read the licensee answered with a translation error (R334) -/
  slotXlate : List W32
  admitted : List Adm
  /-- admitted descriptors that have completed and await their record, in the order they completed (R228) -/
  doneQ : List W32
  rng : Tbl RngSlot
  tempo : Tempo
  deficit : Int
  visited : Bool
  waitConf : BitVec 2
  backing : List Nat
  /-- the generation each tensor-table entry had when M1 last read it at admission (R145) -/
  lastGens : Tbl W32
  deriving DecidableEq, Repr

structure Maint where
  holder : BitVec 2
  refused : Bool
  mainDown : Bool
  streamCtx : BitVec 12
  streamArrays : BitVec 16
  deriving DecidableEq, Repr

structure State where
  cfg : HwConfig
  boot : Boot
  time : Time
  mems : Mems
  env : Env
  regs : Regs
  pwr : Pwr
  mnt : Maint
  units : Units
  isl : Tbl Island
  mp : Tbl MemPort
  hp : Tbl HostPort
  xing : List Crossing
  xingOut : List Crossing
  flog : FaultLog
  sbd : Sideband
  tap : Tap
  tlm : Telemetry
  ledger : List Claim
  gambit : Gambit
  ctxs : Tbl Context
  rgns : Tbl Region
  arrs : Tbl ArrayS
  /-- the current context of each priority class (R258) -/
  dwrr : Tbl Nat
  /-- the number of the next free value (log 10) -/
  freeCnt : Nat
  /-- commands that wait, first in, first out -/
  pending : List Instr
  deriving DecidableEq, Repr

def OtpData.blank : OtpData := { repair := [], trim := [], key := 0 }

/-- The setup registers at their reset values (R392). -/
def Regs.reset : Regs :=
  { speaks := 0, agreed := 1, ctxBase := 0, pollNs := 0, pollCur := 0, sideThreshold := 8, sideFallback := false,
    quantum := 0x1000, qdepth := 2, starveUs := 0x64, preloadEn := true, specEn := true, prefetchEn := true,
    specPasses := 4, confMin := 2, winEn := false, winBase := 0, waitPoll := 0x10, irqAddr := 0, irqEn := false,
    irqData := 0, engineAsid := 0, snapBase := 0, periodMs := 0, halves := [] }

def PwrCfg.reset : PwrCfg := { capW := 0, boostEn := false, fFloor := 0x190, tThrottle := 0x5F }

def Pwr.reset : Pwr :=
  { cfg := PwrCfg.reset, now := PwrCfg.reset, target := 0, moving := false, nextTarget := none, autoIdle := true,
    retRefused := false, idleUs := 0x64, avgMw := 0, binding := false, throttled := false, capArray := 1600,
    capSide := 2000, capStaging := 1600, rcPoint := 1850, thermal := [], tripped := false, temps := [], maxTemps := [], islandMw := [] }

def PassMode.init : PassMode := { act := 0, wgt := 0, slots := 4, slotted := false, scaled := false }

def Bank.init : Bank := { rows := [], scales := [], mode := PassMode.init, key := none }

def ArrayS.init : ArrayS :=
  { active := Bank.init, shadow := Bank.init, loads := [], bus := 0, lanes := [], cycle := 0, delay := [], bandLayout := 0, bandOcc := 0, bandFenced := 0, bandHold := [], bound := [], cnt := [],
    missTimes := [], parityTimes := [], spec := none, link := [], gather := [], tsp := [], lastKey := none }

def Region.init : Region :=
  { journal := [], queue := [], sideQ := [], replayQ := [], slots := [], resid := [], windows := [], cnt := [],
    spares := [], badSpares := 0, bankReqs := [], scycle := 0, bankNext := [], bankTimes := [], lanes := 0xFFFFFFFF, laneMis := 0, laneTimes := [],
    selfDone := false, selfPass := false, selfFailed := 0, rngReqs := [], rcycle := 0, sideHalves := [],
    sideMissTimes := [], sideLink := [], watch := [], ctlCopies := 3, ctlTimes := [], scrub := [], scrubFrom := 0, running := [], queued := [],
    starveFrom := [], relief := [] }

def Tempo.init : Tempo :=
  { k := 0, start := 0, fin := 0, late := 0, openRings := [], lastDone := 0, nextRings := [] }

def Context.init : Context :=
  { ent := [], st := 0, producer := 0, fetch := 0, retire := 0, cqWritten := 0, cqHead := 0, dbOverrun := false,
    cqWait := false, cqRead := false, dbRead := false, dbAgain := false, activating := false, aborting := false, fetched := [], slotXlate := [], admitted := [], doneQ := [], rng := [],
    tempo := Tempo.init, deficit := 0, visited := false, waitConf := 0, backing := [], lastGens := [] }

def MemPort.init : MemPort :=
  { up := false, credReq := 0, credWd := 0, rdQ := [], wrQ := [], rdOut := [], wrOut := [], ce := 0, ue := 0,
    poison := 0, ueTimes := [], cycle := 0, held := [] }

def HostPort.init : HostPort :=
  { up := false, dead := false, lastUp := 0, credReq := 0, credWd := 0, initQ := [], initOut := [], resp := .none, wdata := [] }

def Island.init : Island := { standby := false, out := false, droops := 0, gated := false }

def MUnit.init : MUnit := { st := .absent, prior := .absent, forTest := false }

def Acct.init : Acct :=
  { macOps := 0, arrayCycles := 0, sideCycles := 0, rdBytes := 0, wrBytes := 0, passes := 0, descriptors := 0,
    lateSteps := 0, lateNs := 0 }

/-- The machine held in cold reset (R351, R365): every field at the value the spec states for reset, and at the
value log entries 1 and 2 name where it states none. -/
def State.reset : State :=
  { cfg := { regions := 4, otp := 0xFFFF, otpData := OtpData.blank, staticAddr := 0, xingCap := 8 },
    boot := { resetAsserted := true, ready := false, phase := 0, fail := false, warmHeld := false, pstate := 0,
              stopped := false, off := false, gated := false, fuse := 0, fuseData := OtpData.blank, retained := [],
              heldNotify := [], heldSide := [] },
    time := { t := 0, held := false, stale := false, refclk := true, calibrated := false },
    mems := { host := [], spad := [] },
    env := { xlate := [], poison := [] },
    regs := Regs.reset,
    pwr := Pwr.reset,
    mnt := { holder := 0, refused := false, mainDown := false, streamCtx := 0, streamArrays := 0 },
    units := { array := [], side := [], region := [], port := [] },
    isl := [], mp := [], hp := [], xing := [], xingOut := [],
    flog := { entries := [], next := 0, written := 0, irqWait := false, irqMore := false },
    sbd := { dynAddr := 0, eid := 0, session := false, kex := false, ibi := none, queue := [], ovf := false, resp := .none },
    tap := { unlocked := false, status := 0, ir := .bypass, out := 0 },
    tlm := { cnt := [], acct := [], seq := 0, snapLeft := [] },
    ledger := [], gambit := { hist := [], hint := [] }, ctxs := [], rgns := [], arrs := [], dwrr := [],
    freeCnt := 0, pending := [] }

end Sys2Proof.Machine
end

