-- ==== Sys2Proof/Machine/Ops.lean ====
section
/-!
DEFINITION. Shared operations: tables, bytes in memory, bit fields, the parts of the state by number, the
fault log and its reports (R324, R325, R347, R398), unit states (R314), counters and events within 1 ms (R296).
-/

namespace Sys2Proof.Machine

/-! ### Tables -/

/-- The entry of number `k`, or the collection's initial content. -/
def tget {α : Type} (d : α) : Tbl α → Nat → α
  | [], _ => d
  | (j, v) :: t, k => if j = k then v else tget d t k

/-- True when `k` is listed. -/
def thas {α : Type} : Tbl α → Nat → Bool
  | [], _ => false
  | (j, _) :: t, k => j == k || thas t k

/-- Set the entry of number `k`. -/
def tset {α : Type} : Tbl α → Nat → α → Tbl α
  | [], k, v => [(k, v)]
  | (j, w) :: t, k, v =>
    if k < j then (k, v) :: (j, w) :: t
    else if j = k then (k, v) :: t
    else (j, w) :: tset t k v

/-- Drop the entry of number `k`. -/
def tdrop {α : Type} (t : Tbl α) (k : Nat) : Tbl α := t.filter (fun e => e.1 != k)

/-- Change every listed entry. -/
def tmap {α : Type} (f : Nat → α → α) (t : Tbl α) : Tbl α := t.map (fun e => (e.1, f e.1 e.2))

/-! ### Bytes -/

/-- The byte at an address; a byte that is not listed reads 0. -/
def rdCell : List Host.Cell → Nat → Byte
  | [], _ => 0
  | (k, v) :: t, a => if k = a then v else rdCell t a

/-- Put a nonzero byte in order. -/
def putCell : List Host.Cell → Nat → Byte → List Host.Cell
  | [], a, b => [(a, b)]
  | (k, v) :: t, a, b =>
    if a < k then (a, b) :: (k, v) :: t
    else if k = a then (a, b) :: t
    else (k, v) :: putCell t a b

/-- Write a byte and keep the canonical form: writing 0 removes the entry. -/
def wrCell (m : List Host.Cell) (a : Nat) (b : Byte) : List Host.Cell :=
  if b = 0 then m.filter (fun e => e.1 != a) else putCell m a b

/-- Write bytes from an address upward. -/
def wrCells : List Host.Cell → Nat → List Byte → List Host.Cell
  | m, _, [] => m
  | m, a, b :: bs => wrCells (wrCell m a b) (a + 1) bs

/-- The cells of a space. -/
def cellsOf (ms : Mems) : Space → List Host.Cell
  | .mem => ms.host
  | .spad r => tget [] ms.spad r

/-- The byte of a space at an address. -/
def rdByte (ms : Mems) (sp : Space) (a : Nat) : Byte := rdCell (cellsOf ms sp) a

/-- `n` bytes of a space from an address upward. -/
def rdBytes (ms : Mems) (sp : Space) (a : Nat) : Nat → List Byte
  | 0 => []
  | n + 1 => rdByte ms sp a :: rdBytes ms sp (a + 1) n

/-- Replace the cells of a region's scratchpad; a scratchpad of zeros is not listed. -/
def setCells (t : Tbl (List Host.Cell)) (r : Nat) (m : List Host.Cell) : Tbl (List Host.Cell) :=
  if m.isEmpty then tdrop t r else tset t r m

/-- Write bytes into a space. -/
def wrBytes (ms : Mems) (sp : Space) (a : Nat) (bs : List Byte) : Mems :=
  match sp with
  | .mem => { ms with host := wrCells ms.host a bs }
  | .spad r => { ms with spad := setCells ms.spad r (wrCells (tget [] ms.spad r) a bs) }

/-- Perform writes in order. -/
def applyWrites (ms : Mems) (ws : List MemWrite) : Mems :=
  ws.foldl (fun m w => wrBytes m w.sp w.addr w.bytes) ms

/-- The number little-endian bytes stand for (R10). -/
def leNat : List Byte → Nat
  | [] => 0
  | b :: bs => b.toNat + 256 * leNat bs

/-- `n` little-endian bytes of a number (R10). -/
def leBytes : Nat → Nat → List Byte
  | 0, _ => []
  | n + 1, v => BitVec.ofNat 8 v :: leBytes n (v / 256)

/-- Little-endian numbers in memory. -/
def rdLe (ms : Mems) (sp : Space) (a n : Nat) : Nat := leNat (rdBytes ms sp a n)
def rd64 (ms : Mems) (sp : Space) (a : Nat) : W64 := BitVec.ofNat 64 (rdLe ms sp a 8)
def wrLe (ms : Mems) (sp : Space) (a n v : Nat) : Mems := wrBytes ms sp a (leBytes n v)

/-- `n` consecutive 64-bit words. -/
def rdWords (ms : Mems) (sp : Space) (a : Nat) : Nat → List W64
  | 0 => []
  | n + 1 => rd64 ms sp a :: rdWords ms sp (a + 8) n

/-- The bytes of 64-bit words. -/
def wordBytes (ws : List W64) : List Byte := ws.flatMap (fun w => leBytes 8 w.toNat)

/-! ### Bit fields -/

/-- Bits [hi:lo] of a number (R10). -/
def bits (v hi lo : Nat) : Nat := (v >>> lo) % 2 ^ (hi + 1 - lo)

/-- Bits [hi:lo] of the word at byte offset `off` of a structure. -/
def fld (ws : List W64) (off hi lo : Nat) : Nat := bits (ws.getD (off / 8) 0).toNat hi lo

/-- One bit of a structure. -/
def fbit (ws : List W64) (off i : Nat) : Bool := fld ws off i i == 1

/-- A number with bits [hi:lo] replaced. -/
def setBits (v hi lo x : Nat) : Nat :=
  v - (bits v hi lo <<< lo) + ((x % 2 ^ (hi + 1 - lo)) <<< lo)

/-- A structure with bits [hi:lo] of the word at byte offset `off` replaced. -/
def setFld (ws : List W64) (off hi lo x : Nat) : List W64 :=
  ws.set (off / 8) (BitVec.ofNat 64 (setBits (ws.getD (off / 8) 0).toNat hi lo x))

def b2n (b : Bool) : Nat := if b then 1 else 0

def ceilDiv (a b : Nat) : Nat := (a + b - 1) / b
def roundUp (a b : Nat) : Nat := ceilDiv a b * b

/-! ### The parts of the state -/

def getArr (s : State) (a : Nat) : ArrayS := tget ArrayS.init s.arrs a
def setArr (s : State) (a : Nat) (x : ArrayS) : State := { s with arrs := tset s.arrs a x }
def getLane (x : ArrayS) (b : Nat) : Lane := tget Lane.init x.lanes b
def setLane (x : ArrayS) (b : Nat) (l : Lane) : ArrayS := { x with lanes := tset x.lanes b l }
def getRgn (s : State) (r : Nat) : Region := tget Region.init s.rgns r
def setRgn (s : State) (r : Nat) (x : Region) : State := { s with rgns := tset s.rgns r x }
def getCtx (s : State) (c : Nat) : Context := tget Context.init s.ctxs c
def setCtx (s : State) (c : Nat) (x : Context) : State := { s with ctxs := tset s.ctxs c x }
def getMp (s : State) (q : Nat) : MemPort := tget MemPort.init s.mp q
def setMp (s : State) (q : Nat) (x : MemPort) : State := { s with mp := tset s.mp q x }
def getHp (s : State) (p : Nat) : HostPort := tget HostPort.init s.hp p
def setHp (s : State) (p : Nat) (x : HostPort) : State := { s with hp := tset s.hp p x }
def getIsl (s : State) (i : Nat) : Island := tget Island.init s.isl i
def setIsl (s : State) (i : Nat) (x : Island) : State := { s with isl := tset s.isl i x }
def getAcct (s : State) (c : Nat) : Acct := tget Acct.init s.tlm.acct c
def setAcct (s : State) (c : Nat) (x : Acct) : State := { s with tlm := { s.tlm with acct := tset s.tlm.acct c x } }

/-- The unit of a kind and number. -/
def getUnit (us : Units) (k : UnitKind) (n : Nat) : MUnit :=
  match k with
  | .array => tget MUnit.init us.array n
  | .side => tget MUnit.init us.side n
  | .region => tget MUnit.init us.region n
  | .port => tget MUnit.init us.port n

def setUnit (us : Units) (k : UnitKind) (n : Nat) (u : MUnit) : Units :=
  match k with
  | .array => { us with array := tset us.array n u }
  | .side => { us with side := tset us.side n u }
  | .region => { us with region := tset us.region n u }
  | .port => { us with port := tset us.port n u }

/-- The state of a unit (R314). -/
def unitSt (s : State) (k : UnitKind) (n : Nat) : UState := (getUnit s.units k n).st

def isLive (s : State) (k : UnitKind) (n : Nat) : Bool := unitSt s k n == .live

/-- Put a unit into a state. -/
def putUnit (s : State) (k : UnitKind) (n : Nat) (st : UState) : State :=
  { s with units := setUnit s.units k n { st := st, prior := (getUnit s.units k n).st, forTest := false } }

/-- The region a unit belongs to (R7, R315). -/
def regionOf (k : UnitKind) (n : Nat) : Nat :=
  match k with
  | .array => n / 4
  | .side => n
  | .region => n
  | .port => n / 4

/-- The state's code in MNT_ARRAY_STATE and its neighbours (R314, R316). -/
def ustateCode : UState → Nat
  | .absent => 0
  | .live => 1
  | .draining => 2
  | .disabled => 3
  | .fenced => 4
  | .testing => 5

/-! ### Counters and free values -/

/-- Add to a telemetry counter (R359, R389). -/
def addCnt (s : State) (i n : Nat) : State :=
  { s with tlm := { s.tlm with cnt := tset s.tlm.cnt i (tget 0 s.tlm.cnt i + BitVec.ofNat 64 n) } }

/-- Add to a region counter by its index (offset / 8 in R402). -/
def addRgnCnt (s : State) (r i n : Nat) : State :=
  let x := getRgn s r
  setRgn s r { x with cnt := tset x.cnt i (tget 0 x.cnt i + BitVec.ofNat 64 n) }

/-- Add to an array counter by its index (offset / 8 in R405). -/
def addArrCnt (s : State) (a i n : Nat) : State :=
  let x := getArr s a
  setArr s a { x with cnt := tset x.cnt i (tget 0 x.cnt i + BitVec.ofNat 64 n) }

/-- The next free value of 64 bits (log 10), and the state in which it is used up. -/
def freeNext (s : State) : W64 × State := (Config.freeValue s.freeCnt, { s with freeCnt := s.freeCnt + 1 })

/-! ### Events within 1 ms (R296) -/

/-- The times of the events that count with one at `t`, oldest first, after adding it. -/
def addEvent (times : List Nat) (t : Nat) : List Nat := times.filter (fun u => decide (t ≤ u + 1000000)) ++ [t]

/-- True when the `n`-th event of a kind falls no more than 1,000,000 ns after the first of them. -/
def reached (n : Nat) (times : List Nat) : Bool := decide (n ≤ times.length)

/-! ### Ports -/

/-- A host port that carries traffic: its up input is high and no island fault has taken it down. -/
def hpLive (s : State) (p : Nat) : Bool := (getHp s p).up && !(getHp s p).dead

/-- The host port of a context: c mod 4, or the next live one (R30). -/
def hostPortFor (s : State) (c : Nat) : Option Nat :=
  [c % 4, (c + 1) % 4, (c + 2) % 4, (c + 3) % 4].find? (hpLive s)

/-- The lowest tag from `base` up that is not outstanding. -/
def freeTag (out : Tbl PortReq) (base : Nat) : Nat :=
  ((List.range (out.length + 1)).map (· + base)).find? (fun t => !thas out t) |>.getD base

/-- WD transfers of a host-port request: 64 B of data each (R331, R340). -/
def hostWd (q : PortReq) : Nat := if q.op == 0 then 0 else ceilDiv q.len 64

/-- Issue a request on the initiator side of a host port: at once when M1 holds the credits, later when they
are returned (R331). The outstanding requests stand in their order of issue. -/
def hostSend (s : State) (p : Nat) (q : PortReq) : State :=
  let x := getHp s p
  let wd := hostWd q
  if x.credReq ≥ 1 && x.credWd ≥ wd && x.initQ.isEmpty then
    setHp s p { x with credReq := x.credReq - 1, credWd := x.credWd - wd,
                       initOut := x.initOut ++ [(freeTag x.initOut (if q.op == 0 then 0 else 2048), q)] }
  else setHp s p { x with initQ := x.initQ ++ [q] }

/-! ### Fault log (R324, R325, R347, R397, R398) -/

/-- The classes of R310. -/
def clsCorrectable : BitVec 3 := 1
def clsReplayable : BitVec 3 := 2
def clsArray : BitVec 3 := 3
def clsRegion : BitVec 3 := 4
def clsBoard : BitVec 3 := 5

/-- A fault-log entry at time T with nothing but its class, kind and source. -/
def flogBase (s : State) (cls : BitVec 3) (kind : BitVec 4) (source : Byte) (index region : Nat) : FlogEntry :=
  { ts := BitVec.ofNat 64 s.time.t, cls := cls, corrupt := false, kind := kind, source := source,
    index := BitVec.ofNat 5 index, region := BitVec.ofNat 2 region, count := 1, ctx := 0, ring := 0, detail := 0, addr := 0 }

/-- Send the fault message-write interrupt, or remember that one is due: while another awaits its acknowledgement, and while no
host port is up (R398, R342). -/
def faultIrq (s : State) : State :=
  if !s.regs.irqEn then s
  else if s.flog.irqWait then { s with flog := { s.flog with irqMore := true } }
  else
    match hostPortFor s 0 with
    | none => { s with flog := { s.flog with irqMore := true } }
    | some p =>
      let s1 := { s with flog := { s.flog with irqWait := true, irqMore := false },
                         mems := wrLe s.mems .mem s.regs.irqAddr.toNat 4 s.regs.irqData.toNat }
      hostSend s1 p { op := 1, addr := s.regs.irqAddr.toNat, asid := s.regs.engineAsid, len := 4, cls := 0, aop := 0,
                      data := leBytes 4 s.regs.irqData.toNat, owner := .irq, arrived := 0, retried := false }

/-- An interrupt that was due while no host port was up goes out (R342, R398). -/
def irqHeld (s : State) : State := if s.flog.irqMore && !s.flog.irqWait then faultIrq s else s

/-- Raise an in-band interrupt with its mandatory byte 0xA5 (R344), and queue a FAULT_NOTIFY: up to 16; a further one is dropped and
the overflow bit of the last one is set (R347). -/
def notifySideband (s : State) (e : FlogEntry) : State :=
  if s.sbd.queue.length < 16 then { s with sbd := { s.sbd with ibi := some 0xA5, queue := s.sbd.queue ++ [(e, false)] } }
  else { s with sbd := { s.sbd with ibi := some 0xA5, ovf := true,
                                    queue := s.sbd.queue.dropLast ++ (s.sbd.queue.getLast?.toList.map (fun x => (x.1, true))) } }

/-- Entries open for a merge: class 1, same source at the same unit, within 1 ms (R325). A bank or an island is named by its number
in `detail` (R312, R324). -/
def mergeAt (s : State) (e : FlogEntry) : Option Nat :=
  (s.flog.entries.find? (fun x =>
    x.2.cls == clsCorrectable && x.2.source == e.source && x.2.kind == e.kind && x.2.index == e.index &&
    x.2.region == e.region && x.2.detail == e.detail && decide (e.ts.toNat ≤ x.2.ts.toNat + 1000000))).map (·.1)

/-- Write a new entry at `next` (R397) and report it when its class is 3 or above (R325). -/
def logNew (s : State) (e : FlogEntry) : State :=
  let s1 := { s with flog := { s.flog with entries := tset s.flog.entries s.flog.next.toNat e,
                                           next := s.flog.next + 1, written := s.flog.written + 1 } }
  if e.cls.toNat ≥ 3 then faultIrq (notifySideband s1 e) else s1

/-- Log an event: class 1 events merge into the open entry, every other event has an entry of its own (R325). -/
def logFault (s : State) (e : FlogEntry) : State :=
  match (if e.cls == clsCorrectable then mergeAt s e else none) with
  | some j =>
    let x := tget e s.flog.entries j
    { s with flog := { s.flog with entries := tset s.flog.entries j { x with count := if x.count == 255 then 255 else x.count + 1 } } }
  | none => logNew s e

/-- The main side is down: a token that the host holds is released (R367). -/
def mainSideDown (s : State) : State :=
  { s with mnt := { s.mnt with mainDown := true, holder := if s.mnt.holder == 1 then 0 else s.mnt.holder } }

/-- A board-level fault: M1 sends the notification, then stops dispatch (R325); the main side is then down (R367). -/
def boardFault (s : State) (kind : BitVec 4) (source : Byte) (index : Nat) (detail : Nat) : State :=
  let s1 := logFault s { flogBase s clsBoard kind source index 0 with detail := BitVec.ofNat 32 detail }
  mainSideDown { s1 with boot := { s1.boot with stopped := true } }

/-! ### Conditions on the engine -/

/-- M1 dispatches, fetches and admits: ready, in run or reduced-clock, and not stopped (R365, R384, R325). -/
def running (s : State) : Bool :=
  s.boot.ready && !s.boot.stopped && !s.boot.off && (s.boot.pstate == 0 || s.boot.pstate == 1)

/-- The target side of a host port answers (R341, R364, R385). -/
def hostAnswers (s : State) (p : Nat) : Bool :=
  hpLive s p && !s.boot.resetAsserted && !s.boot.off && !s.boot.gated && decide (s.boot.phase.toNat ≥ 3)

/-- A host-port target request wakes M1 from idle (R384). -/
def wake (s : State) : State :=
  if s.boot.pstate == 2 then
    { s with boot := { s.boot with pstate := if s.pwr.target == 1 then 1 else 0 },
             isl := tmap (fun _ i => { i with gated := false }) s.isl }
  else s

/-- Answer a target-side request of a host port. -/
def respond (s : State) (p : Nat) (r : HostResp) : State := setHp s p { getHp s p with resp := r }

/-- The sideband port answers from the end of boot phase 1, in retention too (R364, R385). -/
def sidebandAnswers (s : State) : Bool := !s.boot.resetAsserted && !s.boot.off && decide (s.boot.phase.toNat ≥ 2)

/-- The answer to a vendor command (R346): it echoes the command byte and the instance byte. -/
def sbdDone (s : State) (cmd : Byte) (h : SbdHead) (code : Byte) (payload : List W64 := []) : State :=
  { s with sbd := { s.sbd with resp := .done cmd h.inst code payload } }

/-- The enterprise number that SBD_ID.pen reports (R346, R400). -/
def sbdPen : W32 := 0xCBCD

/-- M1 takes a vendor message: the port answers, and the message carries M1's enterprise number (R346, R364). DESIGN CHOICE (log 46): M1
does not answer a message that carries another one. -/
def sbdTakes (s : State) (h : SbdHead) : Bool := sidebandAnswers s && h.pen == sbdPen

/-- The host (1) or the management controller (2) holds the maintenance token (R366, R369). -/
def holds (s : State) (m : Master) : Bool :=
  match m with
  | .host => s.mnt.holder == 1
  | .mgmt => s.mnt.holder == 2

/-- M1 fetches, admits and dispatches for a context: it is active, and no abort of it is in progress (R219, R375). -/
def takesWork (x : Context) : Bool := x.st == 1 && !x.aborting

/-- Any context is active (R229 state 1). -/
def anyActive (s : State) : Bool := s.ctxs.any (fun c => c.2.st == 1)

/-- A configured region number (R315). -/
def configured (s : State) (r : Nat) : Bool := decide (r < s.cfg.regions)

end Sys2Proof.Machine
end

