-- ==== Sys2Proof/Machine/Operands.lean ====
section
/-!
DEFINITION. Every operand form: the context-table entry (R218), tensor-table entries (R230 to R232), descriptor
layouts (R233 to R243), parameter records (R238), remote addresses (R278), pass modes (R39, R66) and the
addresses of elements (R63, R122, R152, R153).
-/

namespace Sys2Proof.Machine

/-! ### The context-table entry (R218) -/

def ceEnable (e : List W64) : Bool := fbit e 0x00 0
def ceSkewed (e : List W64) : Bool := fbit e 0x00 1
def ceGambitOff (e : List W64) : Bool := fbit e 0x00 2
def ceCoResident (e : List W64) : Bool := fbit e 0x00 3
def cePoll (e : List W64) : Bool := fbit e 0x00 4
def ceIrq (e : List W64) : Bool := fbit e 0x00 5
def ceLedger (e : List W64) : Bool := fbit e 0x00 6
def cePrio (e : List W64) : Nat := fld e 0x00 10 8
def ceAsid (e : List W64) : BitVec 16 := BitVec.ofNat 16 (fld e 0x00 31 16)
def ceAffinity (e : List W64) : Nat := fld e 0x00 47 32
def ceWeight (e : List W64) : Nat := fld e 0x00 55 48
def ceDbAddr (e : List W64) : Nat := fld e 0x08 56 0
def ceSqBase (e : List W64) : Nat := fld e 0x10 56 0
def ceCqBase (e : List W64) : Nat := fld e 0x18 56 0
def ceCqHeadAddr (e : List W64) : Nat := fld e 0x20 56 0
def ceStatusBase (e : List W64) : Nat := fld e 0x28 56 0
def ceSqLog2 (e : List W64) : Nat := fld e 0x30 4 0
def ceCqLog2 (e : List W64) : Nat := fld e 0x30 12 8
def ceRingEpoch (e : List W64) : Nat := fld e 0x30 63 32
def ceTtBase (e : List W64) : Nat := fld e 0x38 56 0
def ceTtCount (e : List W64) : Nat := fld e 0x40 16 0
def ceMsiAddr (e : List W64) : Nat := fld e 0x48 56 0
def ceMsiData (e : List W64) : Nat := fld e 0x50 31 0
def ceTempoNs (e : List W64) : Nat := fld e 0x58 31 0
def ceCatchup (e : List W64) : Nat := if fld e 0x58 34 32 == 0 then 2 else fld e 0x58 34 32
def ceAccPool (e : List W64) : Nat := fld e 0x60 31 0
def ceAccSlots (e : List W64) : Nat := fld e 0x60 47 32
def ceAccRows (e : List W64) : Nat := if fld e 0x60 63 48 == 0 then 65536 else fld e 0x60 63 48
def ceBackBase (e : List W64) : Nat := fld e 0x68 56 0
def ceBackSlots (e : List W64) : Nat := if ceBackBase e == 0 then 0 else fld e 0x70 31 0
def ceResBase (e : List W64) : Nat := fld e 0x78 31 0
def ceResBytes (e : List W64) : Nat := fld e 0x78 63 32
def ceRngBase (e : List W64) : Nat := fld e 0x80 56 0
def ceSaveBase (e : List W64) : Nat := fld e 0x88 56 0

/-- The reserved bits of the entry are zero. -/
def ceRsvZero (e : List W64) : Bool :=
  !fbit e 0x00 7 && fld e 0x00 15 11 == 0 && fld e 0x00 63 56 == 0 &&
  [0x08, 0x10, 0x18, 0x20, 0x28, 0x38, 0x48, 0x68, 0x80, 0x88].all (fun o => fld e o 63 57 == 0) &&
  fld e 0x30 7 5 == 0 && fld e 0x30 31 13 == 0 && fld e 0x40 63 17 == 0 && fld e 0x50 63 32 == 0 &&
  fld e 0x58 63 35 == 0 && fld e 0x70 63 32 == 0 && (e.drop 18).all (· == 0)

/-- Every field of the entry is in its range and every alignment of the table holds (R218, R219, R261). -/
def ceInRange (e : List W64) : Bool :=
  decide (1 ≤ ceWeight e) && decide (4 ≤ ceSqLog2 e ∧ ceSqLog2 e ≤ 16) && decide (4 ≤ ceCqLog2 e ∧ ceCqLog2 e ≤ 16) &&
  decide (1 ≤ ceTtCount e ∧ ceTtCount e ≤ 65536) && decide (fld e 0x58 34 32 ≤ 4) &&
  (ceTempoNs e == 0 || decide (1000 ≤ ceTempoNs e)) &&
  ceDbAddr e % 8 == 0 && ceSqBase e % 64 == 0 && ceCqBase e % 64 == 0 && ceCqHeadAddr e % 4 == 0 &&
  ceStatusBase e % 64 == 0 && ceTtBase e % 64 == 0 && ceMsiAddr e % 4 == 0 && ceRngBase e % 64 == 0 && ceSaveBase e % 64 == 0

def ceValid (e : List W64) : Bool := ceRsvZero e && ceInRange e

/-- Array `a` is named in the affinity mask. -/
def inMask (mask a : Nat) : Bool := (mask >>> a) % 2 == 1

/-- The LIVE arrays of an affinity mask, ascending. -/
def liveArrays (s : State) (mask : Nat) : List Nat := (List.range 16).filter (fun a => inMask mask a && isLive s .array a)

/-! ### Translation and poison (R334) -/

/-- The first address of a range whose access answers with a translation error, for an ASID. DESIGN CHOICE (log 43): R3 leaves open
what a range past 2^57 does; it answers with a translation error there. -/
def xlateAt (env : Env) (asid : BitVec 16) (a len : Nat) : Option Nat :=
  if 2 ^ 57 < a + len then some (max a (2 ^ 57))
  else (env.xlate.find? (fun x => (x.1.isNone || x.1 == some asid) && decide (a < x.2.1 + x.2.2 ∧ x.2.1 < a + len))).map
    (fun x => if a < x.2.1 then x.2.1 else a)

/-- True when a read of a range answers poisoned data. -/
def poisonedAt (env : Env) (a len : Nat) : Bool :=
  env.poison.any (fun x => decide (a < x.1 + x.2 ∧ x.1 < a + len))

/-! ### Tensor-table entries (R230 to R232) -/

/-- A tensor-table entry by its fields; the fields of the other kind of entry are 0. -/
structure TEnt where
  base : Nat
  space : Nat
  region : Nat
  gen : W32
  fmtCode : Nat
  layout : Nat
  tmapLayout : Nat
  expand : Nat
  bscale : Bool
  valid : Bool
  bscaleIndex : Nat
  dim0 : Nat
  dim1 : Nat
  rowStride : Nat
  batchStride : Nat
  headStride : Nat
  batchRows : Nat
  alloc : Nat
  qparam : Nat
  spillBase : Nat
  tmapOff : Nat
  toverOff : Nat
  spillCount : Nat
  spillCap : Nat
  toverCount : Nat
  toverCap : Nat
  deriving DecidableEq, Repr

/-- Read an entry's fields from its eight words. Strides are in bytes. -/
def tentOf (w : List W64) : TEnt :=
  let lay := fld w 0x08 37 36
  let sq := lay != 0
  { base := fld w 0x00 56 0, space := fld w 0x00 58 57, region := fld w 0x00 60 59,
    gen := BitVec.ofNat 32 (fld w 0x08 31 0), fmtCode := fld w 0x08 35 32, layout := lay,
    tmapLayout := fld w 0x08 39 38, expand := fld w 0x08 41 40, bscale := fbit w 0x08 42, valid := fbit w 0x08 43,
    bscaleIndex := fld w 0x08 63 48, dim0 := fld w 0x10 31 0, dim1 := fld w 0x10 63 32,
    rowStride := if sq then 0 else 64 * fld w 0x18 31 0,
    batchStride := if sq then 0 else 64 * fld w 0x18 63 32,
    headStride := 64 * (if sq then fld w 0x38 31 0 else fld w 0x20 31 0),
    batchRows := if sq then 0 else fld w 0x20 63 32,
    alloc := if sq then 0 else fld w 0x28 39 0,
    qparam := if sq then fld w 0x38 47 32 else fld w 0x28 55 40,
    spillBase := if sq then fld w 0x18 56 0 else 0,
    tmapOff := if sq then fld w 0x20 31 0 else 0,
    toverOff := if sq then fld w 0x20 63 32 else 0,
    spillCount := if sq then fld w 0x28 31 0 else 0,
    spillCap := if sq then fld w 0x28 63 32 else 0,
    toverCount := if sq then fld w 0x30 31 0 else 0,
    toverCap := if sq then fld w 0x30 63 32 else 0 }

/-- The element format an entry names; a reserved code has none. -/
def tentFmt (t : TEnt) : Fmt := (fmtOfCode t.fmtCode).getD .fp32

/-- The space an entry's bytes lie in for a sub-tile that runs in region `r` (R231). -/
def tentSpace (t : TEnt) (r : Nat) : Space :=
  match t.space with
  | 0 => .mem
  | 1 => .spad r
  | _ => .spad t.region

/-- The slot budget of a layout (R119): dense and SQ4 have 4 slots, SQ2 two, SQ1 one. -/
def layoutSlots : Nat → Nat
  | 2 => 2
  | 3 => 1
  | _ => 4

/-- A format whose quad unit is a k-pair (R119). -/
def fmtPaired : Fmt → Bool
  | .e3m2 => true
  | .e2m3 => true
  | .e2m1 => true
  | _ => false

/-- Members of a quad unit. -/
def unitSize (f : Fmt) : Nat := if fmtPaired f then 2 else 1

/-- Quads along an axis of `k` logical positions (R119, R122). -/
def quads (f : Fmt) (k : Nat) : Nat := ceilDiv k (4 * unitSize f)

/-- Bytes of one slot row: value plane and meta plane (R122). -/
def slotValueBytes : Fmt → Nat
  | .int4 => 128
  | .bf16 => 512
  | .fp16 => 512
  | .e3m2 => 384
  | .e2m3 => 384
  | _ => 256

def slotRowBytes (f : Fmt) : Nat := slotValueBytes f + 128

/-- Slot rows of one column group (R122): quads along k times the slot budget. -/
def slotRows (t : TEnt) : Nat := quads (tentFmt t) t.dim0 * layoutSlots t.layout

/-- Column groups of `n` columns. -/
def groups (n : Nat) : Nat := ceilDiv n 256

/-- Bytes of a spill or T-overflow directory, padded to 64 B (R124, R129). -/
def dirBytes (g p : Nat) : Nat := roundUp (4 * (g * p + 1)) 64

/-- The tensor has a T-map (R127, R231). -/
def hasTmap (t : TEnt) : Bool := t.tmapOff != 0 && t.tmapLayout != 0

/-- Slot rows of one transposed column group (R127, R128). -/
def tmapRows (t : TEnt) : Nat := quads (tentFmt t) t.dim1 * layoutSlots t.tmapLayout

/-! ### Descriptors (R233 to R243) -/

def dOpcode (d : List W64) : Nat := fld d 0x00 7 0
def dVersion (d : List W64) : Nat := fld d 0x00 11 8
def dClass (d : List W64) : Nat := fld d 0x00 15 12
def dSeq (d : List W64) : W32 := BitVec.ofNat 32 (fld d 0x00 63 32)
def dIrq (d : List W64) : Bool := fbit d 0x00 16
def dDet (d : List W64) : Bool := fbit d 0x00 17
def dBucketed (d : List W64) : Bool := fbit d 0x00 18
def dAllowStream (d : List W64) : Bool := fbit d 0x00 19
def dNoSide (d : List W64) : Bool := fbit d 0x00 20
def dRngStep (d : List W64) : Bool := fbit d 0x00 21
def dRelease (d : List W64) : Bool := fbit d 0x00 22
def dAcquire (d : List W64) : Bool := fbit d 0x00 23
def dRelaxAff (d : List W64) : Bool := fbit d 0x00 24
def dSkewed (d : List W64) : Bool := fbit d 0x00 25

/-- The compute layout (R236). -/
def dAct (d : List W64) : Nat := fld d 0x08 15 0
def dW (d : List W64) : Nat := fld d 0x08 31 16
def dC (d : List W64) : Nat := fld d 0x08 47 32
def dOut (d : List W64) : Nat := fld d 0x08 63 48
def dAccIn (d : List W64) : Nat := fld d 0x10 15 0
def dAccOut (d : List W64) : Nat := fld d 0x10 31 16
def dWide (d : List W64) : Nat := fld d 0x10 47 32
def dAux (d : List W64) : Nat := fld d 0x10 63 48
def dMt (d : List W64) : Nat := fld d 0x18 16 0
def dNt (d : List W64) : Nat := fld d 0x18 27 17
def dKt (d : List W64) : Nat := fld d 0x18 48 28
def dHeads (d : List W64) : Nat := fld d 0x18 61 49
def dMorg (d : List W64) : Nat := fld d 0x20 31 0
def dNorg (d : List W64) : Nat := 256 * fld d 0x20 47 32
def dKorg (d : List W64) : Nat := 256 * fld d 0x20 63 48
def dRound (d : List W64) : Nat := fld d 0x28 1 0
def dNosat (d : List W64) : Bool := fbit d 0x28 2
def dOutMx (d : List W64) : Bool := fbit d 0x28 3
def dWideFmt (d : List W64) : Nat := fld d 0x28 5 4
def dSrData (d : List W64) : Nat := fld d 0x28 7 6
def dRngSlot (d : List W64) : Nat := fld d 0x28 10 8
def dSpillInt (d : List W64) : Nat := fld d 0x28 28 16
def dMchunk (d : List W64) : Nat := fld d 0x28 48 32
def dRngStream (d : List W64) : Nat := fld d 0x30 31 0
/-- Step `i` of rf_prog or rf1_prog (R167). -/
def dRf (d : List W64) (i : Nat) : Nat := fld d 0x30 (39 + 8 * i) (32 + 8 * i)
def dBeta (d : List W64) : W32 := BitVec.ofNat 32 (fld d 0x38 31 0)
/-- Step `i` of FUSED2's rf2_prog (R167). -/
def dRf2 (d : List W64) (i : Nat) : Nat := fld d 0x38 (7 + 8 * i) (8 * i)
def dInterFmt (d : List W64) : Nat := fld d 0x38 35 32
def dW2 (d : List W64) : Nat := fld d 0x38 63 48

/-- The parameter record (R238). -/
def pRowScale (p : List W64) : Nat := fld p 0x00 15 0
def pChanScale (p : List W64) : Nat := fld p 0x00 31 16
def pBias (p : List W64) : Nat := fld p 0x00 47 32
def pRstat (p : List W64) : Nat := fld p 0x00 63 48
def pRfA (p : List W64) : W32 := BitVec.ofNat 32 (fld p 0x08 31 0)
def pKeepScale (p : List W64) : W32 := BitVec.ofNat 32 (fld p 0x08 63 32)
def pRf2A (p : List W64) : W32 := BitVec.ofNat 32 (fld p 0x10 31 0)
def pDropP (p : List W64) : Nat := fld p 0x10 56 32
def pRsIn (p : List W64) : Nat := fld p 0x18 15 0
def pRsOut (p : List W64) : Nat := fld p 0x18 31 16
def pQoff (p : List W64) : Int := signedOf 32 (fld p 0x18 63 32)
def pHin (p : List W64) : Nat := fld p 0x20 15 0
def pWin (p : List W64) : Nat := fld p 0x20 31 16
def pCin (p : List W64) : Nat := fld p 0x20 48 32
def pFiltR (p : List W64) : Nat := fld p 0x20 53 49
def pFiltS (p : List W64) : Nat := fld p 0x20 58 54
def pDgrad (p : List W64) : Bool := fbit p 0x20 59
/-- Geometry field `i`: stride_h, stride_w, dil_h, dil_w, pad_top, pad_bottom, pad_left, pad_right. -/
def pGeom (p : List W64) (i : Nat) : Nat := fld p 0x28 (4 * i + 3) (4 * i)
def pInDil (p : List W64) : Nat := fld p 0x28 35 32
def pAccInWide (p : List W64) : Nat := fld p 0x30 15 0

/-- The bucketed layout (R239). -/
def bIndex (d : List W64) : Nat := fld d 0x08 15 0
def bShape (d : List W64) : Nat := fld d 0x08 31 16
def bDim (d : List W64) : Nat := fld d 0x08 33 32
def bCount (d : List W64) : Nat := fld d 0x08 39 36

/-- FOLD (R240). -/
def foOut (d : List W64) : Nat := fld d 0x08 15 0
def foAccOut (d : List W64) : Nat := fld d 0x08 31 16
def foWideOut (d : List W64) : Nat := fld d 0x08 47 32
def foCount (d : List W64) : Nat := fld d 0x08 51 48
def foPart (d : List W64) (i : Nat) : Nat := fld d (0x10 + 8 * (i / 4)) (16 * (i % 4) + 15) (16 * (i % 4))
def foPartWide (d : List W64) (i : Nat) : Nat := fld d (0x20 + 8 * (i / 4)) (16 * (i % 4) + 15) (16 * (i % 4))
def foMt (d : List W64) : Nat := fld d 0x38 16 0
def foNt (d : List W64) : Nat := fld d 0x38 27 17
def foHeads (d : List W64) : Nat := fld d 0x38 40 28
/-- A FOLD's conversion fields as word 0x28 of the compute layout, its tile and its RNG stream: a GEMM-like
descriptor whose output conversion FOLD runs. -/
def foAsCompute (d : List W64) : List W64 :=
  let w := [d.getD 0 0, 0, 0, 0, 0, 0, 0, 0]
  let w := setFld w 0x08 63 48 (foOut d)
  let w := setFld w 0x18 16 0 (foMt d)
  let w := setFld w 0x18 27 17 (foNt d)
  let w := setFld w 0x18 61 49 (foHeads d)
  let w := setFld w 0x28 31 0 (fld d 0x30 31 0)
  setFld w 0x30 31 0 (fld d 0x30 63 32)

/-- Mask operations (R241). -/
def mkTarget (d : List W64) : Nat := fld d 0x08 15 0
def mkShadow (d : List W64) : Nat := fld d 0x08 31 16
def mkGen (d : List W64) : W32 := BitVec.ofNat 32 (fld d 0x08 63 32)
def mkK0 (d : List W64) : Nat := fld d 0x10 23 0
def mkK1 (d : List W64) : Nat := fld d 0x10 47 24
def mkScope (d : List W64) : Nat := fld d 0x10 49 48
def mkMode (d : List W64) : Bool := fbit d 0x10 50
def mkRngSlot (d : List W64) : Nat := fld d 0x10 53 51
def mkN0 (d : List W64) : Nat := fld d 0x18 23 0
def mkN1 (d : List W64) : Nat := fld d 0x18 47 24
def mkSelect (d : List W64) : Nat := fld d 0x20 31 0
def mkFill (d : List W64) : W32 := BitVec.ofNat 32 (fld d 0x20 63 32)
def mkSrc0 (d : List W64) : Nat := fld d 0x28 15 0
def mkSrc1 (d : List W64) : Nat := fld d 0x28 31 16
def mkSrc2 (d : List W64) : Nat := fld d 0x28 47 32
def mkStream (d : List W64) : Nat := fld d 0x30 31 0
def mkTokens (d : List W64) : Nat := fld d 0x30 52 32
def mkHeads (d : List W64) : Nat := if fld d 0x38 12 0 == 0 then 1 else fld d 0x38 12 0

/-- BMASK, CASTLE, STREAM (R242). -/
def bmOut (d : List W64) : Nat := fld d 0x08 15 0
def bmSlot (d : List W64) : Nat := fld d 0x08 18 16
def bmP24 (d : List W64) : Nat := fld d 0x08 56 32
def bmM (d : List W64) : Nat := fld d 0x10 31 0
def bmN (d : List W64) : Nat := fld d 0x10 63 32
def bmStream (d : List W64) : Nat := fld d 0x18 31 0
def caW (d : List W64) : Nat := fld d 0x08 15 0
def caArray (d : List W64) : Nat := fld d 0x08 19 16
def caGroup (d : List W64) : Nat := fld d 0x10 47 32
def caPass (d : List W64) : Nat := fld d 0x10 31 0
def stArray (d : List W64) : Nat := fld d 0x08 3 0
def stSrc (d : List W64) : Nat := fld d 0x08 31 16
def stDst (d : List W64) : Nat := fld d 0x08 47 32
def stRows (d : List W64) : Nat := fld d 0x10 20 0

/-- Remote operations (R243). -/
def reA (d : List W64) : W64 := d.getD 1 0
def reB (d : List W64) : W64 := d.getD 2 0
def reC (d : List W64) : W64 := d.getD 3 0
def reLen (d : List W64) : Nat := if dOpcode d == 0x20 then fld d 0x18 8 0 else fld d 0x18 12 0
def reOp (d : List W64) : Nat := fld d 0x20 2 0
def wvEq (d : List W64) : Bool := fbit d 0x18 0
def wvTimeout (d : List W64) : Nat := fld d 0x18 63 32
def feTensor (d : List W64) : Nat := fld d 0x08 15 0

/-- The space and address a remote operation's address field names (R278). -/
def remoteSpace (a : W64) : Space :=
  if bits a.toNat 63 62 == 1 then .spad (bits a.toNat 61 60) else .mem
def remoteAddr (a : W64) : Nat := bits a.toNat 56 0

/-! ### Indices a descriptor reads and writes (R251) -/

def opCompute (o : Nat) : Bool := decide (1 ≤ o ∧ o ≤ 7)
def opMask (o : Nat) : Bool := o == 0x10 || o == 0x11 || o == 0x12
def opRemote (o : Nat) : Bool := o == 0x20 || o == 0x21 || o == 0x22 || o == 0x23

/-- The parameter record a descriptor names, as admission read it. -/
def paramOf (params : Tbl (List W64)) (d : List W64) : List W64 := if dAux d == 0 then [] else tget [] params (dAux d)

/-- Every index a compute descriptor names, the parameter record's among them. -/
def computeIdx (params : Tbl (List W64)) (d : List W64) : List Nat :=
  let p := paramOf params d
  [dAct d, dW d, dC d, dOut d, dAccIn d, dAccOut d, dWide d, dAux d, if dOpcode d == 2 then dW2 d else 0,
   pRowScale p, pChanScale p, pBias p, pRstat p, pRsIn p, pRsOut p, pAccInWide p]

/-- The indices a compute descriptor writes (R251). -/
def computeWrites (params : Tbl (List W64)) (d : List W64) : List Nat :=
  let p := paramOf params d
  [dOut d, dAccOut d, if decide (1 ≤ dSpillInt d) || dDet d then dWide d else 0, pRstat p, pRsOut p]

/-- Every index a descriptor names, 0 left out. -/
def idxAll (params : Tbl (List W64)) (variants : List (List W64)) (d : List W64) : List Nat :=
  let o := dOpcode d
  let l :=
    if opCompute o then
      (if dBucketed d then [bIndex d, bShape d] ++ variants.flatMap (computeIdx params) else computeIdx params d)
    else if o == 8 then
      [foOut d, foAccOut d, foWideOut d] ++ (List.range 8).flatMap (fun i => [foPart d i, foPartWide d i])
    else if opMask o then [mkTarget d, mkShadow d, mkSrc0 d, mkSrc1 d, mkSrc2 d]
    else if o == 0x13 then [bmOut d]
    else if o == 0x18 then [caW d]
    else if o == 0x30 then [stSrc d, stDst d]
    else []
  l.filter (· != 0)

/-- The indices a descriptor writes, 0 left out (R251). -/
def idxWrites (params : Tbl (List W64)) (variants : List (List W64)) (d : List W64) : List Nat :=
  let o := dOpcode d
  let l :=
    if opCompute o then
      (if dBucketed d then variants.flatMap (computeWrites params) else computeWrites params d)
    else if o == 8 then [foOut d, foAccOut d, foWideOut d]
    else if opMask o then [mkTarget d, mkShadow d]
    else if o == 0x13 then [bmOut d]
    else if o == 0x30 then [stDst d]
    else []
  l.filter (· != 0)

/-- Two descriptors conflict (R251): one reads or writes an index the other writes. -/
def idxConflict (e d : Adm) : Bool :=
  let ew := idxWrites e.params e.variants e.desc
  let ea := idxAll e.params e.variants e.desc
  let dw := idxWrites d.params d.variants d.desc
  let da := idxAll d.params d.variants d.desc
  da.any (fun i => ew.contains i) || dw.any (fun i => ea.contains i)

/-! ### Pass modes (R39, R66, R73) -/

/-- The format in the banks for an activation and a stored weight format (R66, R76). -/
def bankFmt (act w : Fmt) : Fmt :=
  match act, w with
  | .e4m3, .int4 => .e4m3
  | .e4m3, .int8 => .e4m3
  | .e5m2, .int4 => .e4m3
  | .e5m2, .int8 => .e4m3
  | .bf16, .int4 => .bf16
  | .bf16, .int8 => .bf16
  | .fp16, .int4 => .bf16
  | .fp16, .int8 => .bf16
  | _, f => f

/-- The pairs the array supports (R66). -/
def pairLegal (act w : Fmt) : Bool :=
  let fp8 (f : Fmt) := f == .e4m3 || f == .e5m2
  let fp6 (f : Fmt) := f == .e3m2 || f == .e2m3
  let h (f : Fmt) := f == .bf16 || f == .fp16
  let i (f : Fmt) := f == .int4 || f == .int8
  (fp8 act && (fp8 w || w == .e2m1 || i w)) || (act == .int8 && w == .int8) || (fp6 act && fp6 w) ||
  (act == .e2m1 && w == .e2m1) || (h act && (h w || i w)) || (act == .fp32 && w == .fp32)

/-- One product per cycle although the weight is a 4-bit format: an FP8 activation with an E2M1 weight (R38). -/
def fp8e2m1 (act w : Fmt) : Bool := (act == .e4m3 || act == .e5m2) && w == .e2m1

/-- Members per cell in a pass mode: k-pairs in 6- and 4-bit modes (R38, R39). -/
def modeUnit (act w : Fmt) : Nat := if fmtPaired w && !fp8e2m1 act w then 2 else 1

/-- Logical k per physical row (R39). -/
def kPerRow (act w : Fmt) (slots : Nat) : Nat := modeUnit act w * (4 / slots)

/-- Logical K of one pass (R39): never below 256. -/
def kPerPass (act w : Fmt) (slots : Nat) : Nat := 256 * kPerRow act w slots

/-- Two-beat modes (R39): 16-bit modes, and slotted 6-bit modes. -/
def twoBeat (act w : Fmt) (slots : Nat) : Bool :=
  fmtBits (bankFmt act w) == 16 || w == .fp32 || (fmtBits w == 6 && slots != 4)

/-- Array cycles per activation row (R39). -/
def cyclesPerRow (act w : Fmt) (slots : Nat) : Nat := if twoBeat act w slots then 2 else 1

/-- Side Path cycles per dot row (R188). -/
def sideCyclesPerRow (act w : Fmt) (slots : Nat) : Nat := if twoBeat act w slots then 4 else 2

/-- The tree level whose subtree covers one block of 32 logical k (R73). -/
def scaleLevel (act w : Fmt) (slots : Nat) : Nat := (32 / kPerRow act w slots).log2

/-- An INT32 partial: INT8 times INT8 without block scales (R92). -/
def intPartial (act w : Fmt) (scaled : Bool) : Bool := act == .int8 && w == .int8 && !scaled

/-! ### Addresses of elements -/

/-- The byte offset of a packed element and its bits within the bytes read there (R63). -/
def packedCode (f : Fmt) (byteAt : Nat → Byte) (j : Nat) : Nat :=
  match fmtBits f with
  | 4 => bits (byteAt (j / 2)).toNat (4 * (j % 2) + 3) (4 * (j % 2))
  | 6 =>
    let o := j / 4 * 3
    let v := leNat [byteAt o, byteAt (o + 1), byteAt (o + 2)]
    bits v (6 * (j % 4) + 5) (6 * (j % 4))
  | b => leNat ((List.range (b / 8)).map (fun i => byteAt (j * (b / 8) + i)))

/-- Stored bytes of `n` packed elements (R63). -/
def packedBytes (f : Fmt) (n : Nat) : Nat := ceilDiv (n * fmtBits f) 8

/-- The base of row `m` of a dense operand, batches folded in (R152), for head `h` (R153). -/
def rowBase (t : TEnt) (h m : Nat) : Nat :=
  let b := if t.batchRows == 0 then 0 else m / t.batchRows
  let i := if t.batchRows == 0 then m else m % t.batchRows
  t.base + h * t.headStride + b * t.batchStride + i * t.rowStride

/-- The code of element (m, j) of a dense operand. -/
def denseCode (ms : Mems) (t : TEnt) (r h m j : Nat) : Nat :=
  let sp := tentSpace t r
  let b := rowBase t h m
  packedCode (tentFmt t) (fun o => rdByte ms sp (b + o)) j

/-- The E8M0 code of block `b` of row `i` of a scale array whose rows hold `n` bytes, each padded to 64 B (R72). -/
def scaleCode (ms : Mems) (t : TEnt) (r h i b n : Nat) : Nat :=
  (rdByte ms (tentSpace t r) (t.base + t.headStride * h + i * roundUp n 64 + b)).toNat

/-- FP32 element `i` of a vector. -/
def vecF32 (ms : Mems) (t : TEnt) (r i : Nat) : W32 := BitVec.ofNat 32 (rdLe ms (tentSpace t r) (t.base + 4 * i) 4)

end Sys2Proof.Machine
end

