-- ==== Sys2Proof/Machine/Containment.lean ====
section
/-!
DEFINITION. Taking units out of service and bringing them back (R28, R54, R306, R307, R314 to R323): shared
operations of every fault, request, reset and self-test.
-/

namespace Sys2Proof.Machine

/-! ### Sub-tiles that leave a unit -/

/-- A FUSED2 sub-tile goes on at the W1 group behind the last committed pass: what is not committed is discarded (R177). -/
def fuseResume (t : SubTile) : SubTile :=
  { t with fuse := { Fuse.init with leadG := t.passesDone, soft := t.fuse.soft, shifts := t.fuse.shifts, now := t.fuse.soft } }

/-- A sub-tile that has to leave its array carries REPLAYED and FENCED_MOVE (R58, R318). -/
def leaveFlags (t : SubTile) : SubTile :=
  { fuseResume t with flags := t.flags ||| flReplayed ||| flFencedMove, moved := true, misses := 0, started := false }

/-- A sub-tile restarted from its first pass (R29, R307): no pass done, no row committed, no slot, and its descriptor to be
read again. -/
def restartSub (t : SubTile) : SubTile :=
  { t with passesDone := 0, rowMark := 0, slot := none, zPasses := 0, misses := 0, jent := none, reread := true, started := false,
           fedRow := (0, 0), fuse := Fuse.init, flags := t.flags ||| flReplayed }

/-- Gambit's speculation on an array is squashed (R273) and a preload in its shadow bank abandoned (R264). -/
def dropSpeculation (s : State) (a : Nat) : State :=
  let x := getArr s a
  let s1 := if x.spec.isSome then addCnt s 7 1 else s
  let s2 := if x.loads.any (·.preload) then addCnt s1 3 1 else s1
  setArr s2 a { getArr s2 a with spec := none, loads := x.loads.filter (fun l => !l.preload) }

/-! ### Array positions and bands -/

/-- The bands that a sub-tile of band `b` and a number of rows covers (R50). -/
def bandMask (b rows : Nat) : BitVec 4 :=
  if rows == 256 then 0xF else if rows == 128 then BitVec.ofNat 4 (3 <<< b) else BitVec.ofNat 4 (1 <<< b)

def subBands (t : SubTile) : BitVec 4 := bandMask t.band t.bandRows

/-- The bands of a list of sub-tiles. -/
def bandsOf (l : List SubTile) : BitVec 4 := l.foldl (fun m t => m ||| subBands t) 0

/-- The sub-tiles in the position that an array runs: the first one, with those in its other bands (R51). -/
def seated (l : List SubTile) : List SubTile :=
  match l with
  | [] => []
  | t :: _ => if t.bandRows == 256 then [t] else l.filter (fun u => u.bandRows != 256 && u.pos == t.pos)

/-- The layout code of a position's bands (R50, R406): a half without a sub-tile is cut as the other half. -/
def layoutOf (l : List SubTile) : BitVec 3 :=
  let small (h : Nat) : Bool := l.any (fun t => t.bandRows == 64 && t.band / 2 == h)
  let big (h : Nat) : Bool := l.any (fun t => t.bandRows == 128 && t.band / 2 == h)
  let lo := small 0 || (!big 0 && small 1)
  let hi := small 1 || (!big 1 && small 0)
  if lo && hi then 4 else if hi then 2 else if lo then 3 else 1

/-- The bands that stay fenced until a record is written (R308). -/
def heldBands (x : ArrayS) : BitVec 4 := x.bandHold.foldl (fun m b => m ||| BitVec.ofNat 4 (1 <<< b.1)) 0

/-- An array's bound sub-tiles change: its layout changes only where no band still holds a sub-tile (R51), and an array that holds no band
tile has no band fenced but those that await a record (R308, R314). -/
def withBound (x : ArrayS) (l : List SubTile) : ArrayS :=
  let now := seated l
  let same := (seated x.bound).any (fun t => now.any (fun u => u.pos == t.pos))
  if now.all (fun t => t.bandRows == 256) then
    { x with bound := l, bandLayout := 0, bandOcc := 0, bandFenced := if l.all (fun t => t.bandRows == 256) then heldBands x else x.bandFenced }
  else { x with bound := l, bandLayout := if same && x.bandLayout != 0 then x.bandLayout else layoutOf now, bandOcc := bandsOf now }

/-- FUSED2 sub-tiles that run on the pair of which the array is the follower (R173). -/
def followed (s : State) (a : Nat) : List SubTile :=
  if a % 2 == 1 then (getArr s (a - 1)).bound.filter (·.fuse.paired) else []

/-- A FUSED2 sub-tile's intermediate leaves a link buffer with it (R175). -/
def linkOf (t : SubTile) (q : LinkHalf) : Bool := q.ctx == t.ctx && q.ring == t.ring && q.h == t.h && q.c == t.c

/-- The sub-tiles of an array that `f` names leave it; the running ones take their lanes and loads with them. -/
def dropBound (f : SubTile → Bool) (x : ArrayS) : ArrayS :=
  let out := (seated x.bound).filter f
  let left (b : Nat) : Bool := out.any (fun t => t.band == b)
  { withBound x (x.bound.filter (fun t => !f t)) with
    loads := x.loads.filter (fun l => l.preload || !left l.band),
    lanes := x.lanes.filter (fun e => !left e.1),
    link := x.link.filter (fun q => !(x.bound.filter f).any (fun t => linkOf t q)) }

/-- The follower's part of FUSED2 sub-tiles that leave the pair: its lane and link buffer (R177). -/
def dropFollowed (gone : List SubTile) (x : ArrayS) : ArrayS :=
  let had := gone.any (fun t => x.link.any (linkOf t))
  if !had then x
  else { x with link := x.link.filter (fun q => !gone.any (fun t => linkOf t q)),
                lanes := if x.bound.any (·.started) then x.lanes else [],
                loads := if x.bound.any (·.started) then x.loads else x.loads.filter (·.preload) }

/-- The sub-tiles that `f` names leave array `a`, and its follower with them. -/
def leaveArray (s : State) (a : Nat) (f : SubTile → Bool) : State :=
  let gone := ((getArr s a).bound.filter f).filter (·.fuse.paired)
  let s1 := setArr s a (dropBound f (getArr s a))
  if gone.isEmpty then s1 else setArr s1 (a + 1) (dropFollowed gone (getArr s1 (a + 1)))

/-- The rows and loads in progress on an array are discarded, and its sub-tiles leave it in order (R54, R306). -/
def emptyArray (s : State) (a : Nat) : State :=
  let s1 := dropSpeculation s a
  let pair := followed s1 a
  let gone := (getArr s1 a).bound ++ pair
  let r := getRgn s1 (a / 4)
  let s2 := setRgn s1 (a / 4) { r with replayQ := r.replayQ ++ gone.map (fun t => leaveFlags { t with array := none }) }
  let s3 := if pair.isEmpty then s2 else leaveArray s2 (a - 1) (·.fuse.paired)
  let s4 := leaveArray s3 a (fun _ => true)
  setArr s4 a { getArr s4 a with loads := [], lanes := [], bandFenced := 0, tsp := [], gather := [], link := [] }

/-- The sub-tiles routed to a Side Path leave it for the arrays (R197, R198). -/
def emptySide (s : State) (r : Nat) : State :=
  let x := getRgn s r
  setRgn s r { x with sideQ := [], sideHalves := [], sideLink := [],
                      replayQ := x.replayQ ++ x.sideQ.map (fun t => leaveFlags { t with side := false, array := none }) }

/-! ### Ports that leave service -/

/-- A port serves its region: it is LIVE, or both drain and the region's bound work runs to completion through it (R317, R322). DESIGN
CHOICE (log 46): R317 lets a DRAINING port take no new request, and a DRAINING region's work needs its ports. -/
def portServes (s : State) (q : Nat) : Bool :=
  isLive s .port q || (unitSt s .port q == .draining && unitSt s .region (q / 4) == .draining)

/-- The next port of the region of `q` that serves, in ascending order modulo 4 (R322). -/
def nextPort (s : State) (q : Nat) : Option Nat :=
  let b := q / 4 * 4
  [b + (q + 1) % 4, b + (q + 2) % 4, b + (q + 3) % 4].find? (portServes s)

/-- The port a region sends a request at address `v` through (R26), or the next one that serves (R322). -/
def portFor (s : State) (r v : Nat) : Option Nat :=
  let q := 4 * r + (v >>> 9) % 4
  if portServes s q then some q else nextPort s q

/-- Give an admitted descriptor its result, unless it has one; it then awaits its record (R228). -/
def finishIn (x : Context) (ring : W32) (res : Result) : Context :=
  if x.admitted.any (fun d => d.ring == ring && d.result.isNone) then
    { x with admitted := x.admitted.map (fun d => if d.ring == ring && d.result.isNone then { d with result := some res } else d),
             doneQ := x.doneQ ++ [ring] }
  else x

/-- Complete an admitted descriptor of a context with a result, unless it has one. -/
def finishDesc (s : State) (c : Nat) (ring : W32) (res : Result) : State := setCtx s c (finishIn (getCtx s c) ring res)

/-- A result with a status and no offending tensor (R246). -/
def plainResult (st : Status) (f : TFlags := 0) : Result :=
  { status := statusWith st f, flags := f, checkId := 0, operand := 0xFFFF, shortfall := 0, result := 0 }

/-- The descriptor an atomic request in doubt belongs to completes with UNRECOVERABLE (R291, R343). -/
def loseAtomic (s : State) (q : PortReq) : State :=
  match q.owner with
  | .desc c ring => if q.op == 2 then finishDesc s c ring (plainResult .unrecoverable) else s
  | _ => s

/-- A port's arrival stamps and its cycle counter moved on together: every request keeps its age (R27). -/
def shiftPort (n : Nat) (y : MemPort) : MemPort :=
  let later (p : PortReq) : PortReq := { p with arrived := p.arrived + n }
  { y with cycle := y.cycle + n, rdQ := y.rdQ.map later, wrQ := y.wrQ.map later,
           rdOut := tmap (fun _ p => later p) y.rdOut, wrOut := tmap (fun _ p => later p) y.wrOut }

/-- Requests of a port whose cycle counter stands at `cycle` join the queues of port `y` with the age they have (R27). -/
def joinPort (cycle : Nat) (rs : List PortReq) (y : MemPort) : MemPort :=
  let z := shiftPort cycle y
  let moved := rs.map (fun p => { p with arrived := y.cycle + p.arrived })
  { z with rdQ := z.rdQ ++ moved.filter (·.op == 0), wrQ := z.wrQ ++ moved.filter (·.op != 0) }

/-- What a port that leaves service has to send again: what it has issued, but for atomics, which are in doubt, and requests whose
responses would be discarded; and what waits on it. -/
def portAgain (x : MemPort) : List PortReq :=
  ((x.rdOut ++ x.wrOut).map (·.2)).filter (fun p => p.op != 2 && p.owner != .lost) ++ x.rdQ ++ x.wrQ

/-- A port's requests move to the next port that serves, or wait where they are until their region leaves service for want of one; an
atomic that has left the engine is in doubt (R322, R343). -/
def emptyPort (s : State) (q : Nat) : State :=
  let x := getMp s q
  let s1 := ((x.rdOut ++ x.wrOut).map (·.2)).foldl loseAtomic s
  let bare := { x with rdQ := [], wrQ := [], rdOut := [], wrOut := [] }
  match nextPort s q with
  | none => setMp s1 q { bare with rdQ := (portAgain x).filter (·.op == 0), wrQ := (portAgain x).filter (·.op != 0) }
  | some j => setMp (setMp s1 q bare) j (joinPort x.cycle (portAgain x) (getMp s1 j))

/-! ### Regions that leave service -/

/-- A WAITV that reads a region which leaves LIVE completes with ARRAYS_ABSENT (R321). -/
def waitAbsent (r : Nat) (x : Context) : Context :=
  match x.admitted.find? (fun d => fld d.desc 0 7 0 == 0x23 && d.active.isSome && d.result.isNone &&
      fld d.desc 8 63 62 == 1 && fld d.desc 8 61 60 == r) with
  | some d => finishIn x d.ring { plainResult .arraysAbsent with result := d.lastRead }
  | none => x

/-- A scratchpad RWRITE or RREAD whose bank accesses a region that leaves LIVE has not granted completes with ARRAYS_ABSENT
(R321). -/
def failRemote (x : Context) (c : Nat) (reqs : List BankReq) : Context :=
  let hit (d : Adm) : Bool := (fld d.desc 0 7 0 == 0x20 || fld d.desc 0 7 0 == 0x21) && reqs.any (fun q => q.owner == .desc c d.ring)
  (x.admitted.filter hit).foldl (fun y d => finishIn y d.ring (plainResult .arraysAbsent)) x

/-- A scratchpad RATOMIC of a context that the region has not performed completes with ARRAYS_ABSENT (R321). -/
def failAtomics (s : State) (reqs : List BankReq) : State :=
  reqs.foldl (fun t q =>
    match q.act, q.owner with
    | .atomic .., .desc c ring => finishDesc t c ring (plainResult .arraysAbsent)
    | _, _ => t) s

/-- Release an accumulation slot, or a backing slot, of a context (R115, R116). -/
def freeSlot (s : State) (c : Nat) (sl : Option SlotRef) : State :=
  match sl with
  | none => s
  | some r =>
    if r.backed then setCtx s c { getCtx s c with backing := (getCtx s c).backing.filter (· != r.num) }
    else setRgn s r.region { getRgn s r.region with slots := (getRgn s r.region).slots.filter (· != (c, r.num)) }

/-- The bank requests that a region's exit drops: the slots they would have freed are free, and window accesses are answered with
an error (R115, R289, R321). -/
def dropRequests (s : State) (reqs : List BankReq) : State :=
  reqs.foldl (fun t q =>
    let t1 := match q.frees with
      | some f => freeSlot t f.1 (some f.2)
      | none => t
    match q.owner with
    | .host p => setHp t1 p { getHp t1 p with resp := .err, wdata := [] }
    | _ => t1) s

/-! ### Sub-tiles that end without completing -/

/-- The sub-tiles that `f` names leave a region's queues. -/
def dropQueued (f : SubTile → Bool) (x : Region) : Region :=
  { x with queue := x.queue.filter (fun t => !f t), sideQ := x.sideQ.filter (fun t => !f t),
           replayQ := x.replayQ.filter (fun t => !f t) }

/-- Every sub-tile the engine holds, bound ones first. -/
def allSubs (s : State) : List SubTile :=
  s.arrs.flatMap (fun e => e.2.bound) ++ s.rgns.flatMap (fun e => e.2.queue ++ e.2.sideQ ++ e.2.replayQ)

/-- The sub-tiles of a region that hold an entry of its journal. -/
def regionSubs (s : State) (r : Nat) : List SubTile :=
  [4 * r, 4 * r + 1, 4 * r + 2, 4 * r + 3].flatMap (fun a => (getArr s a).bound) ++ (getRgn s r).sideQ ++ (getRgn s r).replayQ

/-- A journal without a sub-tile's entry. -/
def dropEntry (l : Tbl JEntry) (t : SubTile) : Tbl JEntry :=
  match t.jent with
  | some k => tdrop l k
  | none => l

/-- The journal entries of the sub-tiles that `f` names are free (R302). -/
def freeEntries (s : State) (f : SubTile → Bool) : State :=
  { s with rgns := tmap (fun r x => { x with journal := ((regionSubs s r).filter f).foldl dropEntry x.journal }) s.rgns }

/-- Sub-tiles that `f` names are discarded with their slots and journal entries. -/
def dropSubs (s : State) (f : SubTile → Bool) : State :=
  let s1 := (allSubs s).foldl (fun t u => if f u then freeSlot t u.ctx u.slot else t) (freeEntries s f)
  let s2 := s1.arrs.foldl (fun t e => leaveArray t e.1 f) s1
  { s2 with rgns := tmap (fun _ x => dropQueued f x) s2.rgns }

/-- The sub-tile belongs to a descriptor. -/
def ofDesc (c : Nat) (ring : W32) (t : SubTile) : Bool := t.ctx == c && t.ring == ring

/-- In band mode the bands of the faulting sub-tile, the one in band `b`, are fenced until its descriptor's record is written (R54,
R308). -/
def holdBands (c : Nat) (ring : W32) (b : Nat) (x : ArrayS) : ArrayS :=
  if x.bandLayout == 0 then x
  else
    let mine := ((seated x.bound).filter (fun t => ofDesc c ring t && t.band == b)).flatMap (fun t => (List.range 4).filter (fun b => (subBands t).getLsbD b))
    { x with bandHold := x.bandHold ++ mine.map (fun b => (b, c, ring)),
             bandFenced := mine.foldl (fun m b => m ||| BitVec.ofNat 4 (1 <<< b)) x.bandFenced }

/-- The tile flags an admitted descriptor has gathered, with those of rows that its unfinished sub-tiles have
committed (R87, R248). -/
def admFlags (s : State) (c : Nat) (ring : W32) : TFlags :=
  match (getCtx s c).admitted.find? (fun d => d.ring == ring) with
  | some d => ((allSubs s).filter (ofDesc c ring)).foldl (fun f t => f ||| t.flags) (d.flags ||| (d.mask.map (·.flags)).getD 0)
  | none => 0

/-- The confirmed speculation of a descriptor that ends early leaves its buffer (R272). -/
def dropConfirmed (s : State) (c : Nat) (ring : W32) : State :=
  { s with arrs := tmap (fun _ x => { x with spec := x.spec.filter (fun b => !(b.confirmed && ofDesc c ring b.sub)) }) s.arrs }

/-- A descriptor ends early with a status: its sub-tiles that have not completed are discarded. -/
def endDesc (s : State) (c : Nat) (ring : W32) (st : Status) (result : W64 := 0) : State :=
  finishDesc (dropConfirmed (dropSubs s (ofDesc c ring)) c ring) c ring { plainResult st (admFlags s c ring) with result := result }

/-- No array of the mask is live (R254): the descriptor's sub-tiles that no array or Side Path has taken are discarded;
those bound go on, and the descriptor completes with ARRAYS_ABSENT behind them. -/
def absentDesc (s : State) (c : Nat) (ring : W32) : State :=
  let n := (s.rgns.flatMap (fun e => e.2.queue.filter (ofDesc c ring))).length
  let s1 := { s with rgns := tmap (fun _ x => { x with queue := x.queue.filter (fun t => !ofDesc c ring t) }) s.rgns }
  if (allSubs s1).any (ofDesc c ring) then
    setCtx s1 c { getCtx s1 c with admitted := (getCtx s1 c).admitted.map (fun d =>
      if d.ring == ring then { d with emitted := d.emitted - n, total := some (d.emitted - n), absent := true } else d) }
  else endDesc s1 c ring .arraysAbsent

/-- A translation error on an access of a descriptor (R308); `sub` is the array and band of the sub-tile that made it. -/
def xlateFail (s : State) (c : Nat) (ring : W32) (addr : Nat) (sub : Option (Nat × Nat) := none) : State :=
  let t := match sub with
    | some (a, b) => setArr s a (holdBands c ring b (getArr s a))
    | none => s
  endDesc t c ring .xlateFault (BitVec.ofNat 64 addr)

/-! ### Work of a region that leaves LIVE -/

/-- A remote operation of an admitted descriptor, by the owner of its requests. -/
def ofRemote (s : State) (o : Owner) : Bool :=
  match o with
  | .desc c ring => (getCtx s c).admitted.any (fun d => d.ring == ring && decide (0x20 ≤ fld d.desc 0 7 0 ∧ fld d.desc 0 7 0 ≤ 0x22))
  | _ => false

/-- The requests of a port of a region that leaves service: writes, and the reads of remote operations, go out through the region `dest`
instead (R291, R322); other reads go with the work that asked for them. -/
def leavePort (s : State) (dest q : Nat) : State :=
  let x := getMp s q
  let s1 := ((x.rdOut ++ x.wrOut).map (·.2)).foldl loseAtomic s
  ((portAgain x).filter (fun p => p.op != 0 || ofRemote s p.owner)).foldl (fun u p =>
    match portFor u dest p.addr with
    | none => u
    | some k => setMp u k (joinPort x.cycle [p] (getMp u k)))
    (setMp s1 q { x with rdQ := [], wrQ := [], rdOut := [], wrOut := [] })

/-- The numbers of the four arrays, and of the four ports, of a region. -/
def fourOf (r : Nat) : List Nat := [4 * r, 4 * r + 1, 4 * r + 2, 4 * r + 3]

/-- The lowest-numbered other region that is LIVE. -/
def otherRegion (s : State) (r : Nat) : Option Nat := [0, 1, 2, 3].find? (fun q => q != r && isLive s .region q)

/-- The ports of a region that leaves service give their requests to the lowest-numbered LIVE region (R291, R302); while no other
region is LIVE they keep them, and an enabled region takes them up. -/
def leavePorts (s : State) (r : Nat) : State :=
  match otherRegion s r with
  | none => (fourOf r).foldl emptyPort s
  | some dest => (fourOf r).foldl (fun u q => leavePort u dest q) s

/-- A region that has become LIVE takes up what the ports of regions out of service still hold. -/
def adoptPorts (s : State) (r : Nat) : State :=
  (([0, 1, 2, 3].filter (fun q => q != r && !isLive s .region q && unitSt s .region q != .draining)).flatMap fourOf).foldl
    (fun u q => leavePort u r q) s

/-- The lowest free entry of a region's 1,024. -/
def freeJournal (x : Region) : Option Nat := (List.range 1024).find? (fun j => !thas x.journal j)

/-- The current record of an entry: the copy at 0x00, or the copy at 0x40 when the first is lost. -/
def journalRecord (e : JEntry) : List W64 := if e.lostA then e.b else e.a

/-- The record of a remote operation on memory (R301): its requests go on through another region. -/
def memRemote (s : State) (e : JEntry) : Bool :=
  let w := ((journalRecord e).getD 0 0).toNat
  bits w 3 1 == 1 && (getCtx s (bits w 15 4)).admitted.any (fun d =>
    d.ring.toNat == bits w 63 32 && decide (0x20 ≤ fld d.desc 0 7 0 ∧ fld d.desc 0 7 0 ≤ 0x23) && remoteSpace (if dOpcode d.desc == 0x21 then reB d.desc else reA d.desc) == .mem)

/-- The records of memory operations that a region carried move with them to the region that carries them from now on (R291, R302). -/
def moveRemote (s : State) (es : Tbl JEntry) (dest : Nat) : State :=
  (es.filter (fun e => memRemote s e.2)).foldl (fun u e =>
    match freeJournal (getRgn u dest) with
    | none => u
    | some k => setRgn u dest { getRgn u dest with journal := tset (getRgn u dest).journal k e.2 }) s

/-- A request that asks a region's banks for a remote operation or a host-port window (R289). -/
def askedRemote (s : State) (q : BankReq) : Bool :=
  match q.owner with
  | .host _ => true
  | o => ofRemote s o

/-- An operand of the descriptor lies in the scratchpad of region `r` (R321). -/
def operandIn (r : Nat) (d : Adm) : Bool :=
  (idxAll d.params d.variants d.desc).any (fun i =>
    let t := tentOf (tget [] d.entries i)
    t.space == 2 && t.region == r)

/-- A mask operation has committed (R141). -/
def committedMask (d : Adm) : Bool := d.mask.any (fun m => decide (5 ≤ m.phase))

/-- The descriptors whose operands lie in the scratchpad of region `r` complete with ARRAYS_ABSENT (R321). -/
def failOperands (s : State) (r : Nat) : State :=
  s.ctxs.foldl (fun u e => (e.2.admitted.filter (fun d => d.result.isNone && !committedMask d && operandIn r d)).foldl
    (fun v d => endDesc v e.1 d.ring .arraysAbsent) u) s

/-- A region leaves LIVE (R321): its residency copies go; its scratchpad is no target of a remote operation, a WAITV or a window any
more, and no operand. -/
def leaveLive (s : State) (r : Nat) : State :=
  let x := getRgn s r
  let gone := x.bankReqs.filter (askedRemote s)
  let s1 := setRgn s r { x with resid := [], watch := [], bankReqs := x.bankReqs.filter (fun q => !askedRemote s q) }
  let s2 := dropRequests (failAtomics s1 gone) gone
  failOperands { s2 with ctxs := tmap (fun c y => waitAbsent r (failRemote y c gone)) s2.ctxs } r

/-- The sub-tile's partials lie in a slot of region `r` (R115, R306). -/
def slotIn (r : Nat) (t : SubTile) : Bool := t.slot.any (fun sl => !sl.backed && sl.region == r)

/-- Sub-tiles of other regions whose slot was in region `r` have lost it, and start over (R307). -/
def orphanSubs (s : State) (r : Nat) : State :=
  let again (t : SubTile) : SubTile := if slotIn r t then { restartSub t with jent := t.jent } else t
  let s1 := s.arrs.foldl (fun u e =>
    let x := getRgn u (e.1 / 4)
    setRgn u (e.1 / 4) { x with replayQ := x.replayQ ++ (e.2.bound.filter (slotIn r)).map (fun t => { again t with array := none }) }) s
  let s2 := s1.arrs.foldl (fun u e => leaveArray u e.1 (slotIn r)) s1
  { s2 with rgns := tmap (fun _ x => { x with sideQ := x.sideQ.map again, replayQ := x.replayQ.map again }) s2.rgns }

/-- A region leaves service: what R321 says of one that leaves LIVE, its sub-tiles restart elsewhere, and those that were never bound
start elsewhere (R307). Its activities end with a fence alone (R379). -/
def emptyRegion (s : State) (r : Nat) (fenced : Bool) : State :=
  let s1 := (fourOf r).foldl emptyArray (leaveLive s r)
  let s2 := emptySide s1 r
  let all := (getRgn s2 r).replayQ
  let s3 := all.foldl (fun u t => freeSlot u t.ctx t.slot) s2
  let x := getRgn s3 r
  let s4 := orphanSubs (setRgn s3 r { x with
      replayQ := all.map restartSub ++ x.queue, queue := [], resid := [], windows := [],
      slots := [], journal := [], bankReqs := [], rngReqs := [],
      running := if fenced then [] else x.running, queued := if fenced then [] else x.queued }) r
  let s5 := match otherRegion s r with
    | none => s4
    | some dest => moveRemote s4 x.journal dest
  let s6 := leavePorts (dropRequests s5 x.bankReqs) r
  { s6 with tlm := { s6.tlm with snapLeft := if fenced then s6.tlm.snapLeft.filter (· != r) else s6.tlm.snapLeft } }

/-- The units of a region other than the region itself. -/
def unitsOf (r : Nat) : List (UnitKind × Nat) :=
  [(.array, 4 * r), (.array, 4 * r + 1), (.array, 4 * r + 2), (.array, 4 * r + 3), (.side, r),
   (.port, 4 * r), (.port, 4 * r + 1), (.port, 4 * r + 2), (.port, 4 * r + 3)]

/-- The state a unit of a region takes when its region takes `st` (R314, R318): an ABSENT unit keeps its
state, and a FENCED one stays FENCED. -/
def followRegion (st old : UState) : UState :=
  match old with
  | .absent => .absent
  | .fenced => if st == .testing then .testing else .fenced
  | .disabled => if st == .draining then .disabled else st
  | _ => st

/-- Put a region and its units into a state (R314). -/
def putRegion (s : State) (r : Nat) (st : UState) : State :=
  (unitsOf r).foldl (fun t u =>
    if unitSt t u.1 u.2 == followRegion st (unitSt t u.1 u.2) then t
    else putUnit t u.1 u.2 (followRegion st (unitSt t u.1 u.2))) (putUnit s .region r st)

/-- The fence of an array ends its self-test early (R379). -/
def endSelfTest (s : State) (n : Nat) : State :=
  let x := getRgn s (n / 4)
  let other (a : MaintAct) : Bool := !(a.code == 1 && a.array.val == n)
  setRgn s (n / 4) { x with running := x.running.filter other, queued := x.queued.filter (fun q => other q.2) }

/-- Take a unit out of service at once: FENCED after a fault or a fence request, DISABLED after a disable with
force (R318). -/
def takeOut (s : State) (k : UnitKind) (n : Nat) (st : UState) : State :=
  match k with
  | .array =>
    let t := putUnit (emptyArray s n) .array n st
    if st == .fenced then endSelfTest t n else t
  | .side => putUnit (emptySide s n) .side n st
  | .port => putUnit (emptyPort s n) .port n st
  | .region => putRegion (emptyRegion s n (st == .fenced)) n st

/-- The unit_kind code of R324. -/
def kindCode : UnitKind → BitVec 4
  | .array => 1
  | .side => 3
  | .port => 4
  | .region => 9

/-- A log entry about a unit. -/
def unitEntry (s : State) (cls : BitVec 3) (source : Byte) (k : UnitKind) (n : Nat) : FlogEntry :=
  flogBase s cls (kindCode k) source n (regionOf k n)

/-- The class of a fenced unit (R310). -/
def fenceClass (k : UnitKind) : BitVec 3 := if k == .region then clsRegion else clsArray

/-- A LIVE region with no LIVE port left is fenced (R322). -/
def portsLeft (s : State) (k : UnitKind) (n : Nat) : State :=
  if k == .port && isLive s .region (n / 4) && !([0, 1, 2, 3].any (fun j => isLive s .port (n / 4 * 4 + j))) then
    logFault (takeOut s .region (n / 4) .fenced) (unitEntry s clsRegion 0x20 .region (n / 4))
  else s

/-- Take a unit out of service into FENCED without an entry of its own. -/
def fenceQuiet (s : State) (k : UnitKind) (n : Nat) : State := portsLeft (takeOut s k n .fenced) k n

/-- Fence a unit: it leaves service at once and M1 logs source 0x20 (R318, R319). -/
def fenceUnit (s : State) (k : UnitKind) (n : Nat) : State :=
  portsLeft (logFault (takeOut s k n .fenced) (unitEntry s (fenceClass k) 0x20 k n)) k n

/-! ### Requests (R315) -/

/-- Ignored and logged: a request for an absent unit (source 0x24). -/
def logIgnored (s : State) (k : UnitKind) (n : Nat) : State :=
  logFault s (unitEntry s clsCorrectable 0x24 k n)

/-- The actions of MNT_UNIT_REQ. -/
inductive UnitAction where
  | disable
  | forceDisable
  | enable
  | fence
  deriving DecidableEq, Repr

/-- Arrays a region's enable or an array's enable takes out of STREAM ownership (R370). -/
def dropOwned (s : State) (k : UnitKind) (n : Nat) : State :=
  let mask : BitVec 16 := match k with
    | .array => BitVec.ofNat 16 (1 <<< n)
    | .region => BitVec.ofNat 16 (0xF <<< (4 * n))
    | _ => 0
  { s with mnt := { s.mnt with streamArrays := s.mnt.streamArrays &&& ~~~mask } }

/-- A disable without force (R317): a LIVE unit drains; Gambit's work on it is dropped. -/
def disableUnit (s : State) (k : UnitKind) (n : Nat) : State :=
  if !isLive s k n then s
  else
    match k with
    | .array => putUnit (dropSpeculation s n) .array n .draining
    | .region => putRegion ((fourOf n).foldl dropSpeculation (leaveLive s n)) n .draining
    | _ => portsLeft (putUnit s k n .draining) k n

/-- A disable with force (R318): it ends in DISABLED, and a unit that is FENCED stays FENCED. -/
def forceDisableUnit (s : State) (k : UnitKind) (n : Nat) : State :=
  match unitSt s k n with
  | .fenced => s
  | .disabled => s
  | _ => portsLeft (logFault (takeOut s k n .disabled) (unitEntry s clsCorrectable 0x22 k n)) k n

/-- An enable (R323): a FENCED or DISABLED unit of a LIVE region, or such a region with its units, moves to TESTING. -/
def enableUnit (s : State) (k : UnitKind) (n : Nat) : State :=
  let st := unitSt s k n
  if k == .region then
    (if st == .fenced || st == .disabled then putRegion (dropOwned s k n) n .testing else s)
  else if !isLive s .region (regionOf k n) then logIgnored s k n
  else if st == .fenced || st == .disabled then putUnit (dropOwned s k n) k n .testing
  else s

/-- A unit request (R315, R317, R318, R323). A request for an ABSENT unit, or a region number beyond REGIONS, is
ignored and logged. -/
def unitReq (s : State) (k : UnitKind) (n : Nat) (act : UnitAction) : State :=
  if unitSt s k n == .absent || !configured s (regionOf k n) then logIgnored s k n
  else
    match act with
    | .disable => disableUnit s k n
    | .forceDisable => forceDisableUnit s k n
    | .enable => enableUnit s k n
    | .fence => if unitSt s k n == .fenced then s else fenceUnit s k n

/-! ### Drains and tests -/

/-- No request waits on a port or is outstanding there. -/
def portIdle (x : MemPort) : Bool := x.rdOut.isEmpty && x.wrOut.isEmpty && x.rdQ.isEmpty && x.wrQ.isEmpty && x.held.isEmpty

/-- The Mask Unit of region `r` works on an operation that has not committed. -/
def maskWorks (s : State) (r : Nat) : Bool :=
  s.ctxs.any (fun e => e.2.admitted.any (fun d => d.result.isNone && d.mask.any (fun m => m.region == r && decide (1 ≤ m.phase ∧ m.phase < 5))))

/-- No work remains on a DRAINING unit (R317). -/
def drained (s : State) (k : UnitKind) (n : Nat) : Bool :=
  match k with
  | .array => (getArr s n).bound.isEmpty
  | .side => (getRgn s n).sideQ.isEmpty
  | .port => portIdle (getMp s n)
  | .region =>
    (getRgn s n).queue.isEmpty && (getRgn s n).sideQ.isEmpty && (getRgn s n).replayQ.isEmpty && (getRgn s n).bankReqs.isEmpty &&
      (fourOf n).all (fun a => (getArr s a).bound.isEmpty && (getArr s a).delay.isEmpty && portIdle (getMp s a)) && !maskWorks s n

/-- A drained unit becomes DISABLED and M1 logs source 0x22; one that drained for a self-test moves to TESTING
(R317, R381). A region takes its DRAINING units with it and drops its residency copies (R321). -/
def drainDone (s : State) (k : UnitKind) (n : Nat) : State :=
  if unitSt s k n != .draining || !drained s k n then s
  else if (getUnit s.units k n).forTest then
    { s with units := setUnit s.units k n { st := .testing, prior := .live, forTest := true } }
  else
    let s1 := match k with
      | .region => putRegion (emptyRegion s n false) n .disabled
      | _ => putUnit s k n .disabled
    logFault s1 (unitEntry s clsCorrectable 0x22 k n)

/-- The counts under R296 of a unit restart when it is enabled again (R296, R323). -/
def clearTimes (s : State) (k : UnitKind) (n : Nat) : State :=
  match k with
  | .array => setArr s n { getArr s n with missTimes := [], parityTimes := [] }
  | .side => setRgn s n { getRgn s n with sideMissTimes := [] }
  | .port => setMp s n { getMp s n with ueTimes := [] }
  | .region => setRgn s n { getRgn s n with bankTimes := [], ctlTimes := [], laneTimes := [] }

/-- One unit's self-test ends: LIVE with source 0x21, or FENCED with source 0x20 (R323). -/
def testOne (s : State) (k : UnitKind) (n : Nat) (pass : Bool) : State :=
  if unitSt s k n != .testing then s
  else if pass then
    logFault (clearTimes (putUnit s k n .live) k n) (unitEntry s clsCorrectable 0x21 k n)
  else logFault (putUnit s k n .fenced) (unitEntry s (fenceClass k) 0x20 k n)

/-- The data banks that a march test maps onto spares, and how many spares it finds failing (R362, R403). DESIGN CHOICE (log 46): the
spec does not say how a failing spare shows; the banks stand in RGNn_SPARES in order, and later sparing finds one spare less. -/
def sparesOf (bad : List Nat) : List Nat × Nat := ((bad.filter (fun b => decide (b < 512))).take 4, (bad.filter (fun b => decide (512 ≤ b))).length)

/-- A region's test (R323): its scratchpad is reinitialised, failing banks are mapped onto spares, and its units
are tested; more than 4 failing banks leave it FENCED. -/
def testRegion (s : State) (n : Nat) (r : TestReport) : State :=
  if unitSt s .region n != .testing then s
  else if !r.pass || decide (r.badBanks.length > 4) then
    logFault (putRegion (putUnit s .region n .fenced) n .fenced) (unitEntry s clsRegion 0x20 .region n)
  else
    let s1 := { s with mems := { s.mems with spad := tdrop s.mems.spad n } }
    let s2 := setRgn s1 n { getRgn s1 n with spares := (sparesOf r.badBanks).1, badSpares := (sparesOf r.badBanks).2, journal := [] }
    let s3 := testOne s2 .region n true
    let s4 := (unitsOf n).foldl (fun t u => testOne t u.1 u.2 (match u.1 with
      | .array => !r.failArrays.any (fun a => a.val == u.2)
      | .side => !r.failSide
      | .port => !r.failPorts.any (fun q => q.val == u.2)
      | .region => true)) s3
    let s5 := portsLeft s4 .port (4 * n)
    if isLive s5 .region n then adoptPorts s5 n else s5

end Sys2Proof.Machine
end

