-- ==== Sys2Proof/Machine/Records.lean ====
section
/-!
DEFINITION. What M1 writes back to a context: completion records (R226, R228, R246), status lines (R229), the
message-write interrupt, the charge of a context's account (R358), and the tile journal (R300 to R303).
-/

namespace Sys2Proof.Machine

/-! ### Accounts (R358) -/

def chargeRd (s : State) (c n : Nat) : State :=
  setAcct s c { getAcct s c with rdBytes := (getAcct s c).rdBytes + BitVec.ofNat 64 n }

def chargeWr (s : State) (c n : Nat) : State :=
  setAcct s c { getAcct s c with wrBytes := (getAcct s c).wrBytes + BitVec.ofNat 64 n }

/-! ### Writes and reads through a host port for a context (R30, R336, R338) -/

/-- Issue a request for a context on its host port; while no port is up it waits at port c mod 4 (R30, R342). -/
def hostIssue (s : State) (c : Nat) (q : PortReq) : State :=
  match hostPortFor s c with
  | some p => hostSend s p q
  | none => setHp s (c % 4) { getHp s (c % 4) with initQ := (getHp s (c % 4)).initQ ++ [q] }

/-- A log entry about an access at a host port (R324). -/
def hostEntry (s : State) (source : Byte) (p a : Nat) : FlogEntry :=
  { flogBase s clsReplayable 11 source p 0 with addr := BitVec.ofNat 64 a }

/-- Write bytes to memory through the host port of a context, for an owner. A write that passes 2^57 is not performed; it is logged as
one with a translation error is (R3, R334; log 43). -/
def hostPut (s : State) (c : Nat) (o : Owner) (a : Nat) (bs : List Byte) : State :=
  if 2 ^ 57 < a + bs.length then logFault s (hostEntry s 0x11 ((hostPortFor s c).getD (c % 4)) (max a (2 ^ 57)))
  else hostIssue { s with mems := wrBytes s.mems .mem a bs } c
    { op := 1, addr := a, asid := ceAsid (getCtx s c).ent, len := bs.length, cls := 0, aop := 0,
      data := bs, owner := o, arrived := s.time.t, retried := false }

/-- Read `n` bytes of memory through the host port of a context, a line of 64 B at a time (R336, R340): the requests carry `asid`. -/
def hostAsk (s : State) (c : Nat) (asid : BitVec 16) (a n : Nat) : State :=
  (List.range (ceilDiv n 64)).foldl (fun t i => hostIssue t c
    { op := 0, addr := a + 64 * i, asid := asid, len := min 64 (n - 64 * i), cls := 0, aop := 0, data := [], owner := .engine,
      arrived := s.time.t, retried := false }) s

/-- A write to memory, charged to the context (R358). -/
def hostWriteFor (s : State) (c : Nat) (o : Owner) (a : Nat) (bs : List Byte) : State := chargeWr (hostPut s c o a bs) c bs.length

def hostWrite (s : State) (c : Nat) (a : Nat) (bs : List Byte) : State := hostWriteFor s c .engine a bs

/-! ### Requests to memory ports and RNG units -/

/-- A log entry about an access at a memory port (R324). -/
def portEntry (s : State) (source : Byte) (q : Nat) (r : PortReq) : FlogEntry :=
  let e := { flogBase s clsReplayable 4 source q (q / 4) with addr := BitVec.ofNat 64 r.addr }
  match r.owner with
  | .desc c ring => { e with ctx := BitVec.ofNat 12 c, ring := ring }
  | _ => e

/-- The entry of a poisoned read that region `r` makes for a descriptor at address `a` (R309, R324): the port is the one that carries
the address (R26, R322). -/
def poisonEntry (s : State) (r c : Nat) (ring : W32) (a : Nat) : FlogEntry :=
  let q := (portFor s r a).getD (4 * r + (a >>> 9) % 4)
  { flogBase s clsReplayable 4 0x15 q (q / 4) with ctx := BitVec.ofNat 12 c, ring := ring, addr := BitVec.ofNat 64 a }

/-- Queue a read on the port its address selects (R26, R322), in the class of its source (R27); `sub` is the array and band of a sub-tile
that asks (R308). -/
def queueRead (s : State) (o : Owner) (asid : BitVec 16) (r cls a n : Nat) (sub : Option (Nat × Nat) := none) : State :=
  match portFor s r a with
  | none => s
  | some q =>
    let x := getMp s q
    setMp s q { x with rdQ := x.rdQ ++ [{ op := 0, addr := a % 2 ^ 57, asid := asid, len := n, cls := cls, aop := 0, data := [], owner := o,
                                          arrived := x.cycle, retried := false, sub := sub }] }

/-- Queue a write or an atomic of a requester on the port of region `r` that its address selects (R26, R322). -/
def queueOut (s : State) (o : Owner) (asid : BitVec 16) (r op aop cls a : Nat) (bs : List Byte) (sub : Option (Nat × Nat) := none) : State :=
  match portFor s r a with
  | none => s
  | some q =>
    let x := getMp s q
    setMp s q { x with wrQ := x.wrQ ++ [{ op := op, addr := a % 2 ^ 57, asid := asid, len := if op == 2 then 8 else bs.length, cls := cls,
                                          aop := aop, data := bs, owner := o, arrived := x.cycle, retried := false, sub := sub }] }

/-- The pieces of a range that cross no 512 B boundary (R26). DESIGN CHOICE (log 43): R3 leaves open how a sum past 57 bits is
carried; no range past 2^57 is asked for, as its access has answered with a translation error before (`xlateAt`). -/
def pieces512 : Nat → Nat → Nat → List (Nat × Nat)
  | 0, _, _ => []
  | f + 1, a, n =>
    if n == 0 then []
    else
      let k := min n (512 - a % 512)
      (a, k) :: pieces512 f (a + k) (n - k)

/-- Queue reads of a whole range. -/
def queueReads (s : State) (o : Owner) (asid : BitVec 16) (r cls a n : Nat) (sub : Option (Nat × Nat) := none) : State :=
  (pieces512 (n / 512 + 2) a n).foldl (fun t p => queueRead t o asid r cls p.1 p.2 sub) s

/-- A request for hashes of a class of R210: an array's drain (0), the Side Path (1), the Mask Unit (2), BMASK (3), maintenance (4);
in batches of up to 256. -/
def askRng (s : State) (r cls unit tag count : Nat) : State :=
  let x := getRgn s r
  setRgn s r { x with rngReqs := x.rngReqs ++ (List.range (ceilDiv count 256)).map (fun i =>
    { cls := cls, unit := unit, tag := tag, count := min 256 (count - 256 * i), arrived := x.rcycle }) }

/-! ### The status line (R229) -/

/-- The 64 bytes of a context's status line. -/
def statusBytes (x : Context) (t : Nat) : List Byte :=
  leBytes 4 x.fetch.toNat ++ leBytes 4 x.retire.toNat ++ leBytes 4 x.cqWritten.toNat ++
  leBytes 4 (x.st.toNat + 16 * b2n x.dbOverrun + 32 * b2n x.cqWait) ++ leBytes 8 t ++ List.replicate 40 0

/-- A rewrite of the context's status line that has not gone out yet. -/
def statusPending (s : State) (c : Nat) (q : PortReq) : Bool :=
  q.op == 1 && q.addr == ceStatusBase (getCtx s c).ent && q.len == 64 && q.asid == ceAsid (getCtx s c).ent && q.owner == .engine

/-- Rewrite a context's status line; a status_base of 0 names none. A rewrite that still waits is merged into this one (R229). -/
def writeStatus (s : State) (c : Nat) : State :=
  let x := getCtx s c
  if ceStatusBase x.ent == 0 then s
  else
    let waits := s.hp.any (fun e => e.2.initQ.any (statusPending s c))
    let s1 := { s with hp := tmap (fun _ p => { p with initQ := p.initQ.filter (fun q => !statusPending s c q) }) s.hp }
    let s2 := hostPut s1 c .engine (ceStatusBase x.ent) (statusBytes x s.time.t)
    if waits then s2 else chargeWr s2 c 64

/-! ### Completion records (R226, R246) -/

/-- The 32 bytes of a completion record. -/
def recordBytes (desc : List W64) (res : Result) (phase : Bool) (t : Nat) : List Byte :=
  leBytes 4 (dSeq desc).toNat ++
  leBytes 4 ((statusCode res.status).toNat + 256 * b2n phase + 65536 * res.flags.toNat) ++
  leBytes 4 (res.checkId.toNat + 256 * dOpcode desc + 65536 * res.operand.toNat) ++
  leBytes 4 res.shortfall.toNat ++ leBytes 8 t ++ leBytes 8 res.result.toNat

/-- The address and the phase bit of record `j` (R226). -/
def recordAddr (e : List W64) (j : W32) : Nat := ceCqBase e + 32 * (j.toNat % 2 ^ ceCqLog2 e)
def recordPhase (e : List W64) (j : W32) : Bool := j.toNat / 2 ^ ceCqLog2 e % 2 == 0

/-- The oldest descriptor without a record (R223), once `admitted` and `fetched` hold none that has one. -/
def retireIndex (x : Context) : W32 :=
  match x.admitted with
  | d :: _ => d.ring
  | [] =>
    match x.fetched with
    | (i, _) :: _ => i
    | [] => x.fetch

/-- Tempo: a descriptor of the current or the next step has its record (R260). -/
def tempoDone (t : Tempo) (ring : W32) (now : Nat) : Tempo :=
  { t with openRings := t.openRings.filter (· != ring), nextRings := t.nextRings.filter (· != ring),
           lastDone := if t.openRings.contains ring then now else t.lastDone }

/-- A context after the record of its descriptor `ring` has been written. -/
def afterRecord (x : Context) (ring : W32) (now : Nat) : Context :=
  let y := { x with admitted := x.admitted.filter (fun d => d.ring != ring), doneQ := x.doneQ.filter (· != ring),
                    cqWritten := x.cqWritten + 1, tempo := tempoDone x.tempo ring now }
  { y with retire := retireIndex y }

/-- Bands fenced for a descriptor's translation fault return to service with its record (R308). -/
def releaseBands (s : State) (c : Nat) (ring : W32) : State :=
  { s with arrs := tmap (fun _ x =>
      let mine := x.bandHold.filter (fun b => b.2.1 == c && b.2.2 == ring)
      { x with bandHold := x.bandHold.filter (fun b => !(b.2.1 == c && b.2.2 == ring)),
               bandFenced := x.bandFenced &&& ~~~(mine.foldl (fun m b => m ||| BitVec.ofNat 4 (1 <<< b.1)) 0) }) s.arrs }

/-! ### The tile journal (R300 to R303) -/

/-- A request for the bank of a scratchpad address, in a class of R23; its grant may free a slot and write a journal record. -/
def askBankFor (s : State) (r cls a : Nat) (act : BankAct) (o : Owner) (frees : Option (Nat × SlotRef))
    (mark : Option (Nat × Nat × List W64) := none) : State :=
  let x := getRgn s r
  setRgn s r { x with bankReqs := x.bankReqs ++ [{ cls := cls, addr := a, act := act, arrived := x.scycle, owner := o, frees := frees, mark := mark }] }

def askBank (s : State) (r cls a : Nat) (act : BankAct) (o : Owner) : State := askBankFor s r cls a act o none

/-- Address of a journal entry's copy at 0x00 (R300). -/
def journalAddr (j : Nat) : Nat := 0x02FE0000 + 128 * j

/-- Write both copies of an entry, through the banks in the drain class (R23, R300). Journal copies are state of their own;
the requests carry no bytes. -/
def putJournal (s : State) (r j : Nat) (ws : List W64) : State :=
  let x := getRgn s r
  let s1 := setRgn s r { x with journal := tset x.journal j { a := ws, b := ws, lostA := false, lostB := false } }
  askBank (askBank s1 r 0 (journalAddr j) (.write []) .engine) r 0 (journalAddr j + 64) (.write []) .engine

def dropJournal (s : State) (r j : Nat) : State :=
  let x := getRgn s r
  setRgn s r { x with journal := tdrop x.journal j }

/-- Word 0x00 of every journal record. -/
def journalWord0 (kind ctx : Nat) (flags : TFlags) (ring : W32) : W64 :=
  BitVec.ofNat 64 (1 + 2 * kind + 16 * ctx + 65536 * flags.toNat + 2 ^ 32 * ring.toNat)

/-- The generation of a tensor index as admission read it. -/
def genOf (d : Adm) (i : Nat) : Nat := if i == 0 then 0 else (tentOf (tget [] d.entries i)).gen.toNat

/-- The descriptor that a sub-tile of an admitted descriptor runs: the variant of a BUCKETED one (R156). -/
def runDesc (d : Adm) : List W64 := if dBucketed d.desc then d.variants.getD d.variant d.desc else d.desc

/-- The stream that the descriptor draws from: a variant's own rng_stream counts from the first one's (R205, R239). -/
def drawStream (d : Adm) : W32 :=
  let v := runDesc d
  let first := if dBucketed d.desc then d.variants.getD 0 v else v
  d.stream - BitVec.ofNat 32 (dRngStream first) + BitVec.ofNat 32 (dRngStream v)

/-- A compute record (R301). -/
def subJournal (t : SubTile) (d : Adm) : List W64 :=
  let r := runDesc d
  [ journalWord0 0 t.ctx t.flags t.ring,
    BitVec.ofNat 64 (t.h + 2 ^ 12 * t.c + 2 ^ 28 * t.g + 2 ^ 30 * (t.array.getD 0) + 2 ^ 34 * t.band +
      2 ^ 36 * b2n t.side + 2 ^ 37 * b2n (t.slot.any (·.backed)) + 2 ^ 38 * b2n t.moved),
    BitVec.ofNat 64 (t.passesDone + 2 ^ 16 * t.rowMark),
    BitVec.ofNat 64 ((t.slot.map (·.num)).getD 0 + 2 ^ 32 * t.shapeV),
    BitVec.ofNat 64 (genOf d (dAct r) + 2 ^ 32 * genOf d (dW r)),
    BitVec.ofNat 64 (genOf d (dC r) + 2 ^ 32 * (if dOpcode r == 2 then genOf d (dW2 r) else 0)),
    d.key,
    BitVec.ofNat 64 ((drawStream d).toNat + 2 ^ 32 * d.epoch.toNat) ]

/-- A FOLD record: the compute layout with chunk and group 0. -/
def foldJournal (c : Nat) (d : Adm) : List W64 :=
  [ journalWord0 3 c d.flags d.ring, 0, 0, 0, 0, 0, d.key, BitVec.ofNat 64 (d.stream.toNat + 2 ^ 32 * d.epoch.toNat) ]

/-- A mask-operation record: the phase and the sweep number, and what a Bernoulli REGROW draws with (R205). -/
def maskJournal (c : Nat) (d : Adm) (phase sweep : Nat) : List W64 :=
  let draws := dOpcode d.desc == 0x11 && mkMode d.desc
  [ journalWord0 2 c d.flags d.ring, BitVec.ofNat 64 (phase + 16 * sweep), 0, 0, 0, 0,
    if draws then d.key else 0, if draws then BitVec.ofNat 64 (d.stream.toNat + 2 ^ 32 * d.epoch.toNat) else 0 ]

/-- A remote-operation record: whether its request has left the engine, whether it is acknowledged, and the prior value (R291). -/
def remoteJournal (c : Nat) (d : Adm) (issued acked : Bool) : List W64 :=
  [ journalWord0 1 c d.flags d.ring, BitVec.ofNat 64 (b2n issued + 2 * b2n acked), d.prior.getD 0, 0, 0, 0, 0, 0 ]

/-- Change the record of a remote operation in place (R291, R300, R301). -/
def markRemote (s : State) (c : Nat) (ring : W32) (issued acked : Bool) : State :=
  match (getCtx s c).admitted.find? (fun d => d.ring == ring) with
  | none => s
  | some d =>
    let ws := remoteJournal c d issued acked
    let mine := s.rgns.flatMap (fun e => (e.2.journal.filter (fun q => (journalRecord q.2).getD 0 0 == ws.getD 0 0)).map (fun q => (e.1, q.1)))
    mine.foldl (fun t k => putJournal t k.1 k.2 ws) s

/-- A request of a remote operation leaves the engine, or its bank grants it: its record says so (R291). -/
def markIssued (s : State) (o : Owner) : State :=
  match o with
  | .desc c ring =>
    if (getCtx s c).admitted.any (fun d => d.ring == ring && decide (0x20 ≤ fld d.desc 0 7 0 ∧ fld d.desc 0 7 0 ≤ 0x22) && d.result.isNone) then
      markRemote s c ring true false
    else s
  | _ => s

/-- Free the entries a descriptor's own operation holds: FOLD, mask and remote records (R302). -/
def freeDescJournal (s : State) (c : Nat) (ring : W32) : State :=
  { s with rgns := tmap (fun _ x =>
      { x with journal := x.journal.filter (fun e =>
          let w := ((journalRecord e.2).getD 0 0).toNat
          !(bits w 15 4 == c && bits w 63 32 == ring.toNat && bits w 3 1 != 0)) }) s.rgns }

/-- The summary view of a journal entry (R303): bytes 0x00 to 0x1F of the current record, zeros behind. -/
def journalSummary (x : Region) (j : Nat) : List Byte :=
  if thas x.journal j then
    wordBytes ((journalRecord (tget { a := [], b := [], lostA := false, lostB := false } x.journal j)).take 4) ++ List.replicate 96 0
  else List.replicate 128 0

/-- The bytes a reader of a scratchpad sees: the summary view in the journal range (R22, R303). -/
def spadByte (s : State) (r a : Nat) : Byte :=
  if decide (0x02FE0000 ≤ a ∧ a < 0x03000000) then
    (journalSummary (getRgn s r) ((a - 0x02FE0000) / 128)).getD ((a - 0x02FE0000) % 128) 0
  else rdByte s.mems (.spad r) a

/-- Scratchpad that software may allocate ends at 49,024 KiB (R22). -/
def spadEnd : Nat := 49024 * 1024

/-! ### Writing a record (R228) -/

/-- Send the message-write interrupt of an IRQ-flagged record (R218, R228, R235). -/
def recordIrq (s : State) (c : Nat) (desc : List W64) : State :=
  let e := (getCtx s c).ent
  if dIrq desc && ceIrq e then hostWrite s c (ceMsiAddr e) (leBytes 4 (ceMsiData e)) else s

/-- Write the completion record of a descriptor, then the status line, then the interrupt. -/
def writeRecord (s : State) (c : Nat) (ring : W32) (desc : List W64) (res : Result) : State :=
  let x := getCtx s c
  let s1 := hostWrite s c (recordAddr x.ent x.cqWritten) (recordBytes desc res (recordPhase x.ent x.cqWritten) s.time.t)
  let s2 := setCtx s1 c (afterRecord (getCtx s1 c) ring s.time.t)
  let s3 := setAcct s2 c { getAcct s2 c with descriptors := (getAcct s2 c).descriptors + 1 }
  let s4 := releaseBands (freeDescJournal s3 c ring) c ring
  recordIrq (writeStatus s4 c) c desc

/-- A write or atomic of the descriptor waits for a bank. -/
def bankOutstanding (s : State) (c : Nat) (ring : W32) : Bool :=
  s.rgns.any (fun e => e.2.bankReqs.any (fun q => q.act != .read && q.owner == .desc c ring))

/-- A write of the descriptor waits for a bank, or is unacknowledged on some port (R228). -/
def writesOutstanding (s : State) (c : Nat) (ring : W32) : Bool :=
  bankOutstanding s c ring || s.mp.any (fun q =>
    q.2.wrQ.any (fun r => r.owner == .desc c ring) || q.2.wrOut.any (fun r => r.2.owner == .desc c ring)) ||
  s.hp.any (fun q => q.2.initQ.any (fun r => r.op == 1 && r.owner == .desc c ring) ||
    q.2.initOut.any (fun r => r.2.op == 1 && r.2.owner == .desc c ring))

/-- Reads whose data M1 has received and has not yet delivered to the staging island (R35). -/
def inFlight (s : State) : List PortReq := s.xing.map (·.read) ++ s.mp.flatMap (fun q => q.2.held)

/-- A read or atomic of the descriptor is outstanding on some memory port, or on its way from it. -/
def readsOutstanding (s : State) (c : Nat) (ring : W32) : Bool :=
  (inFlight s).any (fun r => r.owner == .desc c ring) || s.mp.any (fun q =>
    q.2.rdQ.any (fun r => r.owner == .desc c ring) || q.2.rdOut.any (fun r => r.2.owner == .desc c ring))

end Sys2Proof.Machine
end

