-- ==== Sys2Proof/Machine/Telemetry.lean ====
section
/-!
DEFINITION. Island operating points (R8, R354 to R356) and the telemetry snapshot (R357 to R360).
-/

namespace Sys2Proof.Machine

/-! ### Operating points -/

/-- Kinds of island by the numbering of R357. -/
inductive IslKind where
  | array (a : Nat)
  | scratchpad (n : Nat)
  | staging (n : Nat)
  | side (n : Nat)
  | regionControl (n : Nat)
  | fabric (n : Nat)
  | memPort (q : Nat)
  | hostPort (p : Nat)
  | engine
  | alwaysOn
  | test
  | timebase
  deriving DecidableEq, Repr

def islKind (i : Nat) : IslKind :=
  if i < 16 then .array i
  else if i < 20 then .scratchpad (i - 16)
  else if i < 24 then .staging (i - 20)
  else if i < 28 then .side (i - 24)
  else if i < 32 then .regionControl (i - 28)
  else if i < 36 then .fabric (i - 32)
  else if i < 52 then .memPort (i - 36)
  else if i < 56 then .hostPort (i - 52)
  else if i == 56 then .engine
  else if i == 57 then .alwaysOn
  else if i == 58 then .test
  else .timebase

/-- The thermal site an island draws on (R357). -/
def islSite (i : Nat) : Nat :=
  match islKind i with
  | .array a => a
  | .scratchpad n => 16 + n
  | .staging n => 16 + n
  | .side n => 20 + n
  | .regionControl n => 20 + n
  | .fabric n => 20 + n
  | .memPort q => 24 + q / 4
  | .hostPort _ => 28
  | .engine => 29
  | _ => 30

/-- The low end of an island's range in MHz (R8's island table). -/
def islLow (i : Nat) : Nat :=
  match islKind i with
  | .array _ => 400
  | .scratchpad _ => 800
  | .staging _ => 800
  | .side _ => 800
  | .regionControl _ => 800
  | .fabric _ => 1000
  | .memPort _ => 1000
  | .hostPort _ => 1000
  | .engine => 600
  | .alwaysOn => 100
  | .test => 400
  | .timebase => 1000

/-- An island's nominal point in MHz. -/
def islNominal (i : Nat) : Nat :=
  match islKind i with
  | .array _ => 1600
  | .scratchpad _ => 1600
  | .staging _ => 1600
  | .side _ => 2000
  | .regionControl _ => 1600
  | .fabric _ => 2000
  | .memPort _ => 2000
  | .hostPort _ => 2000
  | .engine => 1200
  | .alwaysOn => 100
  | .test => 400
  | .timebase => 1000

/-- The point the power rules set for an island: the power controller's, and reduced-clock for arrays (R384). -/
def powerPoint (s : State) (i : Nat) : Nat :=
  match islKind i with
  | .array _ => min s.pwr.capArray s.pwr.rcPoint
  | .side _ => s.pwr.capSide
  | .staging _ => s.pwr.capStaging
  | _ => islNominal i

/-- The top of an island's range: boost lifts the arrays' (R355). -/
def islTop (p : Pwr) (i : Nat) : Nat := if i < 16 && p.now.boostEn then 1850 else islNominal i

/-- The frequency an island runs at: the lower of the power and thermal points (R356, R384). -/
def islFreq (s : State) (i : Nat) : Nat :=
  match s.pwr.thermal.find? (fun e => e.1 == i) with
  | some e => min (powerPoint s i) e.2
  | none => powerPoint s i

/-- The voltage table of the arrays in mV, linear between its points; where the interpolation is no whole
number of mV, and for every other island, the value is free (log 10). -/
def islMv (i f : Nat) : Nat :=
  let seg (f0 v0 f1 v1 : Nat) : Nat :=
    if (f - f0) * (v1 - v0) % (f1 - f0) == 0 then v0 + (f - f0) * (v1 - v0) / (f1 - f0) else Config.islandMillivolts i f
  match islKind i with
  | .array _ =>
    if f < 400 then Config.islandMillivolts i f
    else if f ≤ 800 then seg 400 550 800 620
    else if f ≤ 1200 then seg 800 620 1200 680
    else if f ≤ 1600 then seg 1200 680 1600 750
    else if f ≤ 1850 then seg 1600 750 1850 850
    else Config.islandMillivolts i f
  | _ => Config.islandMillivolts i f

/-- The cap in force in W (R355). -/
def capInForce (s : State) : Nat := if s.pwr.now.capW == 0 then 650 else s.pwr.now.capW.toNat

/-- The limiting cause of an island (R359): 0 none, 1 cap, 2 thermal, 3 boost, 4 floor. -/
def limitCause (s : State) (i : Nat) : Nat :=
  let f := islFreq s i
  if f > islNominal i then 3
  else if f == islNominal i then 0
  else if f < powerPoint s i then 2
  else match islKind i with
    | .array _ => if f == s.pwr.now.fFloor.toNat then 4 else 1
    | _ => if f == islLow i then 4 else 1

/-! ### The snapshot block (R359) -/

/-- The 64 B header. -/
def snapHeader (s : State) : List Byte :=
  leBytes 8 s.time.t ++ leBytes 4 (s.tlm.seq.toNat) ++ leBytes 4 (1 + 65536 * b2n s.time.stale) ++
  leBytes 4 s.pwr.avgMw ++ leBytes 4 (capInForce s) ++ List.replicate 40 0

/-- The 16 B entry of an island. -/
def islEntry (s : State) (i : Nat) : List Byte :=
  let f := islFreq s i
  leBytes 2 f ++ leBytes 2 (islMv i f) ++ leBytes 4 (tget 0 s.pwr.islandMw i) ++ leBytes 4 (getIsl s i).droops.toNat ++
  leBytes 4 (islSite i + 256 * limitCause s i + 2048 * b2n (getIsl s i).gated)

/-- The 4 B entry of a thermal site, signed, in 1/16 of a degree. -/
def siteEntry (s : State) (k : Nat) : List Byte :=
  leBytes 2 (codeOf 16 (tget 0 s.pwr.temps k)) ++ leBytes 2 (codeOf 16 (tget 0 s.pwr.maxTemps k))

/-- A context's 64 B accounting record (R358). -/
def acctBytes (a : Acct) : List Byte :=
  wordBytes [a.macOps, a.arrayCycles, a.sideCycles, a.rdBytes, a.wrBytes, a.passes] ++
  leBytes 4 a.descriptors.toNat ++ leBytes 4 a.lateSteps.toNat ++ leBytes 8 a.lateNs.toNat

/-- The island, thermal and counter sections. -/
def islSection (s : State) : List Byte := (List.range 60).flatMap (islEntry s)
def thermalSection (s : State) : List Byte := (List.range 32).flatMap (siteEntry s)
def counterSection (s : State) : List Byte := (List.range 32).flatMap (fun i => leBytes 8 (tget 0 s.tlm.cnt i).toNat)

/-- The writes of a snapshot, in ascending order: header and sections, the zero gap, the accounting records. -/
def snapWrites (s : State) : List MemWrite :=
  let b := s.regs.snapBase.toNat
  [ { sp := .mem, addr := b, bytes := snapHeader s ++ islSection s ++ thermalSection s ++ counterSection s },
    { sp := .mem, addr := b + 0x580, bytes := List.replicate 0xA80 0 } ] ++
  (List.range 4096).map (fun c => { sp := .mem, addr := b + 0x1000 + 64 * c, bytes := acctBytes (getAcct s c) })

/-- Queue the block's bytes, which lie end to end, on the ports of region `r` in the maintenance class (R26, R27, R377). -/
def queueSnapshot (s : State) (r : Nat) (bs : List Byte) : State :=
  let b := s.regs.snapBase.toNat
  (pieces512 (bs.length / 512 + 2) b bs.length).foldl (fun u p =>
    queueOut u .maint s.regs.engineAsid r 1 0 2 p.1 ((bs.drop (p.1 - b)).take p.2)) s

/-- Write the block to snap_base with engine_asid, through the ports of region `r`. A translation error is logged with source
0x11 (R334); the temperatures' maxima restart. -/
def writeSnapshot (s : State) (r : Nat) : State :=
  let b := s.regs.snapBase.toNat
  match xlateAt s.env s.regs.engineAsid b 0x41000 with
  | some a => logFault s { flogBase s clsReplayable 10 0x11 0 0 with addr := BitVec.ofNat 64 a }
  | none =>
    queueSnapshot { s with mems := applyWrites s.mems (snapWrites s),
                           tlm := { s.tlm with seq := s.tlm.seq + 1 },
                           pwr := { s.pwr with maxTemps := s.pwr.temps } } r ((snapWrites s).flatMap (·.bytes))

end Sys2Proof.Machine
end

