-- ==== Sys2Proof/Machine/Maintenance.lean ====
section
/-!
DEFINITION. The Maintenance Arbiters (R377 to R382), unit requests by their word (R315), telemetry snapshots as
an activity (R360), and the commands of both masters that ask for them.
-/

namespace Sys2Proof.Machine

/-! ### Region control (R28) -/

/-- A region works: it is LIVE, or drains (R317). -/
def regionServes (s : State) (r : Nat) : Bool := unitSt s .region r == .live || unitSt s .region r == .draining

/-- A state update of region control: copy `odd` disagrees. Of three copies it is outvoted, and retired at its third
disagreement within 1 ms; of two, the disagreement fences the region. -/
def regionVote (s : State) (r : Nat) (odd : Option (Fin 3)) : State :=
  match odd with
  | none => s
  | some i =>
    let x := getRgn s r
    if !regionServes s r then s
    else if x.ctlCopies == 3 then
      let ts := addEvent (tget [] x.ctlTimes i.val) s.time.t
      let s1 := logFault (setRgn s r { x with ctlTimes := tset x.ctlTimes i.val ts }) (flogBase s clsCorrectable 8 0x0D i.val r)
      if reached 3 ts then
        logFault (setRgn s1 r { getRgn s1 r with ctlCopies := 2, ctlTimes := [] }) (flogBase s1 clsArray 8 0x0E i.val r)
      else s1
    else fenceUnit s .region r

/-! ### Compatibility (R378) -/

/-- Two activities of one region may run together. -/
def compatible (a b : MaintAct) : Bool :=
  let row (x y : Nat) : Bool :=
    match x, y with
    | 0, 1 => true
    | 0, 3 => true
    | 0, 4 => true
    | 0, 6 => true
    | 1, 4 => true
    | 1, 5 => true
    | 1, 6 => true
    | 3, 4 => true
    | 3, 6 => true
    | 4, 5 => true
    | 4, 6 => true
    | 5, 6 => true
    | _, _ => false
  if a.code == 1 && b.code == 1 then a.array != b.array
  else row a.code.val b.code.val || row b.code.val a.code.val

/-- The same activity on the same target. -/
def sameAct (a b : MaintAct) : Bool := a.code == b.code && (a.code != 1 || a.array == b.array)

/-- A request may start beside the running activities and the requests queued before it (R379). -/
def mayStart (running earlier : List MaintAct) (a : MaintAct) : Bool :=
  running.all (compatible a) && earlier.all (compatible a)

/-! ### Activities -/

/-- Rewrite both copies of every valid journal entry from the good copy; an entry with both copies lost keeps
neither. Free entries are zero already. -/
def compactEntry (e : JEntry) : JEntry :=
  if e.lostA && e.lostB then e
  else { a := journalRecord e, b := journalRecord e, lostA := false, lostB := false }

/-- A self-test begins (R381): a LIVE array drains first, a DISABLED or FENCED one moves to TESTING. -/
def startSelfTest (s : State) (a : Nat) : State :=
  match unitSt s .array a with
  | .live =>
    let s1 := disableUnit s .array a
    { s1 with units := setUnit s1.units .array a { st := .draining, prior := .live, forTest := true } }
  | .disabled => enableUnit s .array a
  | .fenced => enableUnit s .array a
  | _ => s

/-- The part of a snapshot that region `r` owes is done; the block is written with the last part (R360). -/
def snapPart (s : State) (r : Nat) : State :=
  let left := s.tlm.snapLeft.filter (· != r)
  let s1 := { s with tlm := { s.tlm with snapLeft := left } }
  if s.regs.snapBase == 0 then s1 else if left.isEmpty then writeSnapshot s1 r else s1

/-- A maintenance-class access of one copy of a journal entry (R23, R300). -/
def journalAsk (x : Region) (act : BankAct) (k off : Nat) : BankReq :=
  { cls := 4, addr := journalAddr k + off, act := act, arrived := x.scycle, owner := .maint, frees := none }

/-- Compaction's accesses (R377): both copies of every valid entry are read and rewritten, both of every free entry are zeroed. -/
def compactReqs (x : Region) : List BankReq :=
  (List.range 1024).flatMap (fun k =>
    (if thas x.journal k then [journalAsk x .read k 0, journalAsk x .read k 64] else []) ++
      [journalAsk x (.write []) k 0, journalAsk x (.write []) k 64])

/-- An activity starts in a region: a scrub begins with the first line of every bank, compaction queues its accesses, and the RNG
self-test asks for its vectors, one hash for each lane (R210, R215; how many the spec leaves open, log 44). -/
def startAct (s : State) (r : Nat) (a : MaintAct) : State :=
  let x := getRgn s r
  let s1 := setRgn s r { x with running := x.running ++ [a] }
  match a.code.val with
  | 0 => setRgn s1 r { getRgn s1 r with scrub := [], scrubFrom := x.scycle }
  | 1 => startSelfTest s1 a.array.val
  | 5 => setRgn s1 r { getRgn s1 r with
      journal := tmap (fun _ e => compactEntry e) (getRgn s1 r).journal, bankReqs := (getRgn s1 r).bankReqs ++ compactReqs (getRgn s1 r) }
  | 4 => askRng s1 r 4 r 0 32
  | 6 => snapPart s1 r
  | _ => s1

/-- The queued requests that a request of a master stands behind: while the main side is down, one of the management controller goes
ahead of every host request (R380). -/
def queuedBefore (down : Bool) (q : List (Master × MaintAct)) (m : Master) : List (Master × MaintAct) :=
  if down && m == .mgmt then q.takeWhile (·.1 == .mgmt) else q

/-- Queue a request at its place (R380). -/
def queueAct (down : Bool) (q : List (Master × MaintAct)) (m : Master) (a : MaintAct) : List (Master × MaintAct) :=
  queuedBefore down q m ++ (m, a) :: q.drop (queuedBefore down q m).length

/-- A region that takes maintenance requests: configured, and neither absent nor disabled (R382). -/
def maintRegion (s : State) (r : Nat) : Bool :=
  configured s r && unitSt s .region r != .absent && unitSt s .region r != .disabled

/-- The array of code 1 lies in the region. -/
def actFits (r : Nat) (a : MaintAct) : Bool := a.code != 1 || a.array.val / 4 == r

/-- One region takes a request (R377 to R380): merged, started or queued. True when it was DEFERRED. -/
def requestAct (s : State) (m : Master) (r : Nat) (a : MaintAct) : State × Bool :=
  if !maintRegion s r || !actFits r a then (s, false)
  else
    let x := getRgn s r
    if x.running.any (sameAct a) then (s, false)
    else if x.queued.any (fun q => sameAct a q.2) then (s, true)
    else if mayStart x.running ((queuedBefore s.mnt.mainDown x.queued m).map (·.2)) a then (startAct s r a, false)
    else (setRgn s r { x with queued := queueAct s.mnt.mainDown x.queued m a }, true)

/-! ### The words of MNT_MAINT_REQ and MNT_UNIT_REQ -/

/-- The snapshot activity runs or is queued in region `r`. -/
def snapBusy (s : State) (r : Nat) : Bool :=
  (getRgn s r).running.any (fun a => a.code == 6) || (getRgn s r).queued.any (fun q => q.2.code == 6)

/-- Every named region takes a request in turn; true when one of them DEFERRED it. DESIGN CHOICE (log 46): the spec gives no completion
for a request of which only some regions defer it. -/
def requestActs (s : State) (m : Master) (named : List Nat) (a : MaintAct) : State × Bool :=
  named.foldl (fun (acc : State × Bool) r =>
    let (t, d) := requestAct acc.1 m r a
    (t, acc.2 || d)) (s, false)

/-- A snapshot request (R360): ignored while snap_base is 0; merged into a snapshot in progress, and DEFERRED where that is queued
(R378). -/
def snapAct (s : State) (m : Master) (named : List Nat) (a : MaintAct) : State × Bool :=
  if s.regs.snapBase == 0 then (s, false)
  else if [0, 1, 2, 3].any (snapBusy s) then (s, named.any (fun r => (getRgn s r).queued.any (fun q => q.2.code == 6)))
  else requestActs { s with tlm := { s.tlm with snapLeft := named.filter (maintRegion s) } } m named a

/-- Every named region takes the request; true when one of them DEFERRED it. Code 7 is ignored (R377). A maintenance request wakes M1
from idle (R384). -/
def maintWord (s : State) (m : Master) (w : Nat) : State × Bool :=
  match (if h : bits w 2 0 < 7 then some (⟨bits w 2 0, h⟩ : Fin 7) else none) with
  | none => (s, false)
  | some code =>
    let a : MaintAct := { code := code, array := Fin.ofNat 16 (bits w 11 8) }
    let named := [0, 1, 2, 3].filter (fun r => bits w (4 + r) (4 + r) == 1)
    if code == 6 then snapAct (wake s) m named a else requestActs (wake s) m named a

/-- The word that asks for one activity in one region. -/
def actWord (r : Nat) (code : Fin 7) (a : ArrId) : Nat := code.val + 16 * 2 ^ r + 256 * a.val

/-- MNT_MAINT_REQ: without the token the write is ignored and marked (R366). -/
def hostMaint (s : State) (w : Nat) : State :=
  if holds s .host then (maintWord s .host w).1 else { s with mnt := { s.mnt with refused := true } }

/-- MAINT_REQUEST over the sideband (R346, R364, R366): a session, the token, an activity code that exists;
before ready it is answered 0x01 and held. -/
def sbdMaint (s : State) (h : SbdHead) (w : Nat) : State :=
  if !sbdTakes s h then s
  else if !s.sbd.session then sbdDone s 0x12 h 0x05
  else if !holds s .mgmt then sbdDone s 0x12 h 0x02
  else if bits w 2 0 == 7 then sbdDone s 0x12 h 0x03
  else if !s.boot.ready then
    sbdDone { s with boot := { s.boot with heldSide := s.boot.heldSide ++ [(true, BitVec.ofNat 32 w)] } } 0x12 h 0x01
  else
    let (t, d) := maintWord s .mgmt w
    sbdDone t 0x12 h (if d then 0x01 else 0x00)

/-- A host's write of a register that answers the port (R341). -/
def hostWord (s : State) (p : Nat) (f : State → State) : State :=
  if hostAnswers s p then respond (f (wake s)) p .ok else s

/-- One activity asked for in one region by either master. -/
def maintCommand (s : State) (m : MaintFrom) (r : Nat) (code : Fin 7) (a : ArrId) : State :=
  match m with
  | .host p => hostWord s p.val (fun t => hostMaint t (actWord r code a))
  | .mgmt h => sbdMaint s h (actWord r code a)

/-- The unit kinds of MNT_UNIT_REQ (R315). -/
def unitKindOf (w : Nat) : UnitKind :=
  match bits w 1 0 with
  | 0 => .array
  | 1 => .side
  | 2 => .region
  | _ => .port

/-- The request an MNT_UNIT_REQ word spells; action 0b11 is none. -/
def unitActionOf (w : Nat) : Option UnitAction :=
  match bits w 7 6 with
  | 0 => some (if bits w 8 8 == 1 then .forceDisable else .disable)
  | 1 => some .enable
  | 2 => some .fence
  | _ => none

/-- A unit request of a master. The self-test of an enabled array is an activity of its region's Maintenance Arbiter (R323). -/
def unitAsk (s : State) (m : Master) (k : UnitKind) (n : Nat) (act : UnitAction) : State :=
  let t := unitReq s k n act
  if act == .enable && k == .array && unitSt s k n != .testing && unitSt t k n == .testing then
    (requestAct t m (n / 4) { code := 1, array := Fin.ofNat 16 n }).1
  else t

/-- Apply an MNT_UNIT_REQ word (R315). -/
def unitWord (s : State) (m : Master) (w : Nat) : State :=
  match unitActionOf w with
  | none => s
  | some act => unitAsk s m (unitKindOf w) (bits w 5 2) act

/-- Snapshots (R360): ignored while snap_base is 0, merged while one is being written. -/
def snapRequest (s : State) : State :=
  (maintWord s .host (6 + 16 * 0xF)).1

/-! ### The commands -/

/-- SCRATCHPAD_SCRUB: a maintenance request, code 0 (R377). -/
def execScratchpadScrub (m : MaintFrom) (r : RgnId) (s : State) : Host.Outcome State Fault Refusal :=
  .next (maintCommand s m r.val 0 0)

/-- ARRAY_SELF_TEST: code 1 for one array of its region (R381). -/
def execArraySelfTest (m : MaintFrom) (a : ArrId) (s : State) : Host.Outcome State Fault Refusal :=
  .next (maintCommand s m (a.val / 4) 1 a)

/-- ISLAND_RECALIBRATION: code 2 (R377). -/
def execIslandRecalibration (m : MaintFrom) (r : RgnId) (s : State) : Host.Outcome State Fault Refusal :=
  .next (maintCommand s m r.val 2 0)

/-- FUSE_SHADOW_RELOAD: code 3 (R377). -/
def execFuseShadowReload (m : MaintFrom) (r : RgnId) (s : State) : Host.Outcome State Fault Refusal :=
  .next (maintCommand s m r.val 3 0)

/-- RNG_SELF_TEST: code 4 (R215, R377). -/
def execRngSelfTest (m : MaintFrom) (r : RgnId) (s : State) : Host.Outcome State Fault Refusal :=
  .next (maintCommand s m r.val 4 0)

/-- JOURNAL_COMPACTION: code 5 (R377). -/
def execJournalCompaction (m : MaintFrom) (r : RgnId) (s : State) : Host.Outcome State Fault Refusal :=
  .next (maintCommand s m r.val 5 0)

/-- TELEMETRY_SNAPSHOT: code 6 (R359, R360, R377). -/
def execTelemetrySnapshot (m : MaintFrom) (r : RgnId) (s : State) : Host.Outcome State Fault Refusal :=
  .next (maintCommand s m r.val 6 0)

/-- The first queued request that may start, with those before and behind it. -/
def pickQueued (running : List MaintAct) :
    List (Master × MaintAct) → List (Master × MaintAct) → Option (MaintAct × List (Master × MaintAct))
  | _, [] => none
  | before, q :: rest =>
    if mayStart running (before.map (·.2)) q.2 then some (q.2, before ++ rest)
    else pickQueued running (before ++ [q]) rest

/-- Start the first queued request that is compatible with the running and the earlier queued ones (R379). -/
def startQueued (s : State) (r : Nat) : State :=
  let x := getRgn s r
  match pickQueued x.running [] x.queued with
  | none => s
  | some (a, rest) => startAct (setRgn s r { x with queued := rest }) r a

/-- MAINT_QUEUED_START (R379, R380). `odd` is a region-control copy that disagrees on the update (R28). -/
def execMaintQueuedStart (r : RgnId) (s : State) (odd : Option (Fin 3) := none) : Host.Outcome State Fault Refusal :=
  .next (startQueued (regionVote s r.val odd) r.val)

/-- The RNG self-test ends (R215, R404): failing lanes are retired and logged. -/
def rngTestEnd (s : State) (r : Nat) (fail : W32) : State :=
  let x := getRgn s r
  let hit := fail &&& x.lanes
  let s1 := setRgn s r { x with selfDone := true, selfPass := hit == 0, selfFailed := fail, lanes := x.lanes &&& ~~~fail }
  ((List.range 32).filter (fun l => hit.getLsbD l)).foldl (fun t l => logFault t (flogBase t clsArray 7 0x0C l r)) s1

/-- A scrub has read every line of every bank (R377). -/
def scrubDone (x : Region) : Bool := (List.range 512).all (fun b => decide (1536 ≤ (tget (0, 0) x.scrub b).1))

/-- The work of an activity is not over: lines of a scrub, accesses of a compaction, an array that still drains, hashes that the RNG
self-test still waits for. -/
def actBusy (s : State) (r : Nat) (a : MaintAct) : Bool :=
  let x := getRgn s r
  match a.code.val with
  | 0 => !scrubDone x
  | 1 => unitSt s .array a.array.val == .draining
  | 4 => x.rngReqs.any (fun q => q.cls == 4)
  | 5 => x.bankReqs.any (fun q => q.owner == .maint && decide (journalAddr 0 ≤ q.addr))
  | _ => false

/-- A region's share of the fuse shadow is read from OTP again (R377). -/
def reloadFuses (s : State) (r : Nat) : State :=
  let share : BitVec 16 := BitVec.ofNat 16 (15 <<< (4 * r))
  { s with boot := { s.boot with fuse := (s.boot.fuse &&& ~~~share) ||| (s.cfg.otp &&& share), fuseData := s.cfg.otpData } }

/-- A running activity finishes once its work is over: the array's self-test brings it into service or fences it (R381); the RNG
self-test retires lanes; a reload leaves the fuses as OTP has them. -/
def endAct (s : State) (r : Nat) (a : MaintAct) (pass : Bool) (fail : W32) : State :=
  let x := getRgn s r
  if !x.running.any (sameAct a) || actBusy s r a then s
  else
    let s1 := setRgn s r { x with running := x.running.filter (fun b => !sameAct a b) }
    match a.code.val with
    | 1 => testOne s1 .array a.array.val pass
    | 3 => reloadFuses s1 r
    | 4 => rngTestEnd s1 r fail
    | _ => s1

/-- AUTO_SCRUB: every second a scrub is queued as a host request (R381). -/
def execAutoScrub (r : RgnId) (s : State) : Host.Outcome State Fault Refusal :=
  .next (if s.boot.ready then (maintWord s .host (actWord r.val 0 0)).1 else s)

/-- SNAP_NOW: a write of TLM_SNAP_CFG.snap_now (R360). -/
def execSnapNow (p : HostId) (s : State) : Host.Outcome State Fault Refusal :=
  .next (hostWord s p.val snapRequest)

/-- SNAPSHOT_PERIOD: the period_ms timer expires (R360). -/
def execSnapshotPeriod (s : State) : Host.Outcome State Fault Refusal :=
  .next (if s.boot.ready && s.regs.periodMs != 0 then snapRequest s else s)

end Sys2Proof.Machine
end

