-- ==== Sys2Proof/Machine/Resets.lean ====
section
/-!
DEFINITION. Cold reset (R351), warm reset and the warm reset that ends retention (R326, R373, R374), context
abort (R375) and array reset (R376): the shared operations and their commands.
-/

namespace Sys2Proof.Machine

/-! ### Cold reset -/

/-- Everything M1 holds returns to its state in cold reset; the integration's parameters, the inputs' levels,
the licensee's memory and T (R350: T never decreases) are not M1's to clear. -/
def coldReset (s : State) : State :=
  { State.reset with
      cfg := s.cfg, env := s.env, mems := s.mems, freeCnt := s.freeCnt, pending := s.pending,
      boot := { State.reset.boot with off := s.boot.off },
      time := { State.reset.time with t := s.time.t, refclk := s.time.refclk },
      mp := tmap (fun _ q => { MemPort.init with up := q.up, cycle := q.cycle }) s.mp,
      hp := tmap (fun _ p => { HostPort.init with up := p.up, lastUp := p.lastUp }) s.hp }

/-- RST_COLD_N_ASSERT (R351, R32, R295, R144). -/
def execRstColdNAssert (s : State) : Host.Outcome State Fault Refusal := .next (coldReset s)

/-! ### Warm reset -/

/-- What warm reset leaves of a region (R373, R402 to R404): counters, spares, RNG lanes, the windows of R296. -/
def warmRegion (x : Region) : Region :=
  { Region.init with
      cnt := x.cnt, spares := x.spares, badSpares := x.badSpares, bankTimes := x.bankTimes, lanes := x.lanes, laneMis := x.laneMis,
      laneTimes := x.laneTimes, selfDone := x.selfDone, selfPass := x.selfPass, selfFailed := x.selfFailed,
      sideMissTimes := x.sideMissTimes, ctlCopies := x.ctlCopies, ctlTimes := x.ctlTimes,
      scycle := x.scycle, bankNext := x.bankNext, rcycle := x.rcycle }

/-- What warm reset leaves of an array: its stationary banks and counters. -/
def warmArray (x : ArrayS) : ArrayS :=
  { ArrayS.init with
      active := x.active, shadow := x.shadow, cycle := x.cycle, cnt := x.cnt, missTimes := x.missTimes,
      parityTimes := x.parityTimes }

/-- In retention VDD_ARR and VDD_LOGIC are removed: the ending warm reset finds of an array what R354 lists, its counters alone.
DESIGN CHOICE (log 46): the banks then read as after an array reset. -/
def retainArray (x : ArrayS) : ArrayS := { ArrayS.init with cycle := x.cycle, cnt := x.cnt }

/-- At warm reset a TESTING unit returns to the state before its enable, a DRAINING one becomes DISABLED (R373). -/
def warmUnit (u : MUnit) : MUnit :=
  match u.st with
  | .testing => { st := u.prior, prior := u.prior, forTest := false }
  | .draining => { st := .disabled, prior := .draining, forTest := false }
  | _ => { u with forTest := false }

def warmUnits (us : Units) : Units :=
  { array := tmap (fun _ u => warmUnit u) us.array, side := tmap (fun _ u => warmUnit u) us.side,
    region := tmap (fun _ u => warmUnit u) us.region, port := tmap (fun _ u => warmUnit u) us.port }

/-- ENG_PWR_CFG and the controller's measurements stay; ENG_PWR_CTL returns to its reset value (R373, R392). -/
def warmPwr (p : Pwr) : Pwr :=
  { p with target := Pwr.reset.target, autoIdle := Pwr.reset.autoIdle, retRefused := Pwr.reset.retRefused,
           idleUs := Pwr.reset.idleUs, rcPoint := Pwr.reset.rcPoint, moving := false, nextTarget := none }

/-- The response to a request is awaited and its data discarded (R374 step 2). -/
def loseReq (r : PortReq) : PortReq := { r with owner := .lost }

/-- The whole of a warm reset but its end: contexts inactive, work, journal, ledger, history, speculation and
maintenance gone, requests that have not left M1 dropped, the responses to the others to be discarded (R326, R373, R374). -/
def warmClear (s : State) : State :=
  { s with
      regs := Regs.reset, pwr := warmPwr s.pwr,
      mnt := { s.mnt with streamCtx := 0, streamArrays := 0 },
      units := warmUnits s.units,
      isl := tmap (fun _ i => { i with gated := false }) s.isl,
      mp := tmap (fun _ q => { q with rdQ := [], wrQ := [], held := [], rdOut := tmap (fun _ r => loseReq r) q.rdOut, wrOut := tmap (fun _ r => loseReq r) q.wrOut }) s.mp,
      hp := tmap (fun _ p => { p with initQ := [], initOut := tmap (fun _ r => loseReq r) p.initOut, resp := .none }) s.hp,
      xing := [], xingOut := [],
      flog := { s.flog with irqWait := false, irqMore := false },
      tlm := { s.tlm with snapLeft := [] },
      ledger := [], gambit := { hist := [], hint := [] }, ctxs := [],
      rgns := tmap (fun _ x => warmRegion x) s.rgns, arrs := tmap (fun _ x => if s.boot.pstate == 3 then retainArray x else warmArray x) s.arrs, dwrr := [],
      boot := { s.boot with warmHeld := false, pstate := 0, gated := false } }

/-- Units that go to TESTING in the warm reset that ends retention (R374). -/
def retainedTest (s : State) : State :=
  s.boot.retained.foldl (fun t u =>
    if unitSt t u.kind u.unit.val == .live then putUnit t u.kind u.unit.val .testing else t) s

/-- A unit of those is still TESTING. -/
def retainedLeft (s : State) : Bool := s.boot.retained.any (fun u => unitSt s u.kind u.unit.val == .testing)

/-- A request of M1 has no response yet. -/
def outstanding (s : State) : Bool :=
  s.mp.any (fun q => !q.2.rdOut.isEmpty || !q.2.wrOut.isEmpty) || s.hp.any (fun p => !p.2.initOut.isEmpty)

/-- Steps 2 and 3 of a warm reset are over. -/
def warmOver (s : State) : Bool := !retainedLeft s && !outstanding s

/-- Step 4: M1 sets ready. -/
def warmEnd (s : State) : State :=
  { s with boot := { s.boot with ready := true, phase := 5, retained := [] } }

/-- A warm reset (R374): ENG_STATUS.boot_phase reads 6 while responses are awaited. In retention it ends retention, and the units that
were LIVE at its entry are tested before ready is set. DESIGN CHOICE (log 46): those tests begin at once, beside the wait for responses. -/
def warmRun (s : State) : State :=
  let s1 := if s.boot.pstate == 3 then retainedTest (warmClear s) else { warmClear s with boot := { (warmClear s).boot with retained := [] } }
  if warmOver s1 then warmEnd s1 else { s1 with boot := { s1.boot with ready := false, phase := 6 } }

/-- A request for a warm reset: held until ready (R351), merged into one in progress (R374). Without rails there is none. -/
def warmAsk (s : State) : State :=
  if s.boot.off || s.boot.phase == 6 then s
  else if !s.boot.ready then { s with boot := { s.boot with warmHeld := true } }
  else warmRun s

/-- RST_WARM_N_FALL (R351, R373). -/
def execRstWarmNFall (s : State) : Host.Outcome State Fault Refusal := .next (warmAsk s)

/-- A register write that needs the token (R366): ignored and marked without it. -/
def tokenWrite (s : State) (p : Nat) (f : State → State) : State :=
  if !hostAnswers s p then s
  else
    let s1 := wake s
    if holds s1 .host then respond (f s1) p .ok else respond { s1 with mnt := { s1.mnt with refused := true } } p .ok

/-- RESET_WARM: ENG_RESET kind 0b01 (R372). -/
def execResetWarm (p : HostId) (s : State) : Host.Outcome State Fault Refusal := .next (tokenWrite s p.val warmAsk)

/-! ### Context abort (R375) -/

def ofCtx (c : Nat) (t : SubTile) : Bool := t.ctx == c

/-- A context's speculation and loads on an array are dropped. -/
def abortArray (s : State) (c a : Nat) : State :=
  let x := getArr s a
  let spec := x.spec.any (fun b => b.sub.ctx == c)
  let s1 := if spec then addCnt s 7 1 else s
  let s2 := if x.loads.any (fun l => l.key.ctx == c && l.preload) then addCnt s1 3 1 else s1
  setArr s2 a { x with spec := if spec then none else x.spec, loads := x.loads.filter (fun l => l.key.ctx != c) }

/-- A pass of the sub-tile is in progress: in its band, on the follower of its pair, or on its Side Path. -/
def midPass (s : State) (t : SubTile) : Bool :=
  match t.array with
  | none => t.side && (t.rowMark != 0 || t.fuse.leadRow != 0 || t.fuse.followRow != 0)
  | some a =>
    (t.started && (seated (getArr s a).bound).contains t && !(getLane (getArr s a) t.band).sent.isEmpty) ||
    (t.fuse.paired && (followed s (a + 1)).head? == some t && !(getArr s (a + 1)).bound.any (·.started) && !(getLane (getArr s (a + 1)) 0).sent.isEmpty)

/-- The flags of a context's sub-tiles that `f` names go to their descriptors, which report them (R248). -/
def keepFlags (s : State) (c : Nat) (f : SubTile → Bool) : State :=
  let mine := (allSubs s).filter (fun t => t.ctx == c && f t)
  setCtx s c { getCtx s c with admitted := (getCtx s c).admitted.map (fun d =>
    { d with flags := (mine.filter (fun t => t.ring == d.ring)).foldl (fun m t => m ||| t.flags) d.flags }) }

/-- An aborting context's sub-tiles end but for those in the middle of a pass (R375 step 2). -/
def abortIdle (s : State) (c : Nat) : State :=
  let idle (t : SubTile) : Bool := t.ctx == c && !midPass s t
  dropSubs (keepFlags s c idle) idle

/-- A pass of an aborting context's sub-tile has ended, and the sub-tile with it. -/
def passEnded (s : State) (c : Nat) : State := if (getCtx s c).aborting then abortIdle s c else s

/-- The request serves context `c`. -/
def reqOf (c : Nat) (r : PortReq) : Bool :=
  match r.owner with
  | .desc d _ => d == c
  | .gambit d _ _ _ => d == c
  | _ => false

/-- No sub-tile of the context is left, no request of it waits or is outstanding, and its committed rows are delivered (R375 step 4). -/
def abortQuiet (s : State) (c : Nat) : Bool :=
  !(allSubs s).any (ofCtx c) && !s.arrs.any (fun e => e.2.delay.any (fun q => q.ctx == c)) &&
  !(inFlight s).any (reqOf c) && !s.mp.any (fun q => (q.2.rdQ ++ q.2.wrQ ++ (q.2.rdOut ++ q.2.wrOut).map (·.2)).any (reqOf c)) &&
  !s.hp.any (fun p => (p.2.initQ ++ p.2.initOut.map (·.2)).any (reqOf c)) &&
  !s.rgns.any (fun e => e.2.bankReqs.any (fun q => match q.owner with
    | .desc d _ => d == c
    | _ => false))

/-- What a region holds for a context is released: slots, journal entries, watch entries, windows, requests for hashes. -/
def abortRegion (c : Nat) (x : Region) : Region :=
  { x with slots := x.slots.filter (fun e => e.1 != c),
           journal := x.journal.filter (fun e => bits ((journalRecord e.2).getD 0 0).toNat 15 4 != c),
           watch := x.watch.filter (fun w => w.ctx != c), windows := x.windows.filter (fun w => w.ctx != c),
           sideHalves := x.sideHalves.filter (fun h => h.ctx != c),
           rngReqs := x.rngReqs.filter (fun q => !(((q.cls == 2 || q.cls == 3) && q.unit == c) || (q.cls == 0 && q.unit == 16 + c))) }

/-- The flags that the record of an aborted descriptor reports: those raised up to its end (R248). -/
def abortFlags (d : Adm) : TFlags := d.flags ||| ((d.result.map (·.flags)).getD 0) ||| ((d.mask.map (·.flags)).getD 0)

/-- The result field of an aborted descriptor's record (R246, R285): the prior value that an RATOMIC returned, the last value that a
WAITV read, else 0. -/
def abortValue (d : Adm) : W64 :=
  if dOpcode d.desc == 0x22 then d.prior.getD 0 else if dOpcode d.desc == 0x23 && d.active.isSome then d.lastRead else 0

/-- What the record of an admitted descriptor reports when its context is aborted: a committed mask operation
completes with OK, a descriptor that admission rejected keeps its rejection, every other one is CTX_ABORTED. -/
def abortResult (d : Adm) : Result :=
  if d.ent.isEmpty then d.result.getD (plainResult .ctxAborted)
  else if committedMask d then { plainResult .ok (abortFlags d) with result := (mkGen d.desc + 1).setWidth 64 }
  else { plainResult .ctxAborted (abortFlags d) with result := abortValue d }

/-- The abort is over: the context is aborted, and its status line says so. -/
def abortEnd (s : State) (c : Nat) : State :=
  let x := getCtx s c
  writeStatus (setCtx { s with rgns := tmap (fun _ y => abortRegion c y) s.rgns } c { x with st := 2, aborting := false, doneQ := [], backing := [] }) c

/-- An aborting context goes on: its idle sub-tiles end, and once it is quiet it has its next record, in ring order; behind the last
one, or where it has none, the abort is over. DESIGN CHOICE (log 46): each record is written at a COMPLETION_RECORD. -/
def abortNext (s : State) (c : Nat) : State :=
  let s1 := abortIdle s c
  if !abortQuiet s1 c then s1
  else
    match (getCtx s1 c).admitted with
    | [] => abortEnd s1 c
    | d :: ds =>
      let s2 := writeRecord s1 c d.ring d.desc (abortResult d)
      if ds.isEmpty then abortEnd s2 c else s2

/-- Context abort (R375): the active context fetches and admits no more, its speculation is squashed, and its sub-tiles end but for those
in the middle of a pass. One that has nothing left to wait for and no record to write is aborted at once. -/
def contextAbort (s : State) (c : Nat) : State :=
  let x := getCtx s c
  if x.st != 1 || x.aborting then s
  else
    let s1 := abortIdle ((List.range 16).foldl (fun t a => abortArray t c a)
      (setCtx s c { x with aborting := true, fetched := [], slotXlate := [], activating := false, dbRead := false, dbAgain := false, cqRead := false })) c
    if (getCtx s1 c).admitted.isEmpty && abortQuiet s1 c then abortEnd s1 c else s1

/-- CONTEXT_ABORT: ENG_RESET kind 0b10; it needs no token (R366, R372). -/
def execContextAbort (p : HostId) (c : CtxId) (s : State) : Host.Outcome State Fault Refusal :=
  .next (if hostAnswers s p.val then respond (contextAbort (wake s) c.val) p.val .ok else s)

/-! ### Array reset -/

/-- Array reset (R376): only a DISABLED or FENCED array; in any other state the write is ignored and marked. -/
def arrayReset (s : State) (a : Nat) : State :=
  match unitSt s .array a with
  | .disabled => setArr s a { ArrayS.init with missTimes := (getArr s a).missTimes, parityTimes := (getArr s a).parityTimes }
  | .fenced => setArr s a { ArrayS.init with missTimes := (getArr s a).missTimes, parityTimes := (getArr s a).parityTimes }
  | _ => { s with mnt := { s.mnt with refused := true } }

/-- ARRAY_RESET: ENG_RESET kind 0b11 (R372, R376). -/
def execArrayReset (p : HostId) (a : ArrId) (s : State) : Host.Outcome State Fault Refusal :=
  .next (tokenWrite s p.val (fun t => arrayReset t a.val))

end Sys2Proof.Machine
end

