-- ==== Sys2Proof/Machine/Waits.lean ====
section
/-!
DEFINITION. WAITV's reads of its value (R285, R252), the watch entries of the fabric nodes, and the writes that
touch them.
-/

namespace Sys2Proof.Machine

/-- The active WAITV of a context that has not completed; an abort has ended it (R375). -/
def activeWait (x : Context) : Option Adm :=
  if x.aborting then none else x.admitted.find? (fun d => dOpcode d.desc == 0x23 && d.active.isSome && d.result.isNone)

/-- The comparison of R285. -/
def waitMet (d : List W64) (v : W64) : Bool := if wvEq d then v == reB d else decide ((reB d).toNat ≤ v.toNat)

/-- A 2-bit counter one up, or one down (R266, R270). -/
def conf2Up (c : BitVec 2) : BitVec 2 := if c == 3 then 3 else c + 1
def conf2Down (c : BitVec 2) : BitVec 2 := if c == 0 then 0 else c - 1

/-- Complete the active WAITV of a context with a result. -/
def endWait (s : State) (c : Nat) (d : Adm) (res : Result) : State :=
  let s1 := finishDesc s c d.ring res
  { s1 with rgns := tmap (fun _ x => { x with watch := x.watch.filter (fun w => w.ctx != c) }) s1.rgns }

/-- Read a WAITV's value once and complete the WAITV when it meets the comparison; `v` is what the read finds. -/
def waitValue (s : State) (c : Nat) (d : Adm) (v : W64) : State :=
  let x := getCtx s c
  let s1 := setCtx s c { x with admitted := x.admitted.map (fun e => if e.ring == d.ring then { e with lastRead := v } else e) }
  if waitMet d.desc v then
    let s2 := endWait s1 c d { plainResult .ok with result := v }
    setCtx s2 c { getCtx s2 c with waitConf := conf2Up (getCtx s2 c).waitConf }
  else s1

/-- The word at a remote operation's address, journal range included (R303). -/
def remoteWord (s : State) (a : W64) : W64 :=
  match remoteSpace a with
  | .mem => rd64 s.mems .mem (remoteAddr a)
  | .spad r => BitVec.ofNat 64 (leNat ((List.range 8).map (fun i => spadByte s r (remoteAddr a + i))))

/-- The region whose ports carry a context's memory operations: the lowest-numbered LIVE one in its mask (R302). DESIGN CHOICE (log 46):
where none of those is LIVE, which R302 leaves open, the lowest-numbered LIVE region of the engine carries and journals them. -/
def carrier (s : State) (c : Nat) : Option Nat :=
  let mask := ceAffinity (getCtx s c).ent
  ([0, 1, 2, 3].find? (fun r => isLive s .region r && decide (bits mask (4 * r + 3) (4 * r) ≠ 0))).orElse
    (fun _ => [0, 1, 2, 3].find? (fun r => isLive s .region r))

/-- Read the value of the active WAITV of a context (R285): a translation error completes it with XLATE_FAULT
(R291), a poisoned word with UNRECOVERABLE (R309), a region that is not LIVE with ARRAYS_ABSENT (R321). -/
def waitvRead (s : State) (c : Nat) : State :=
  match activeWait (getCtx s c) with
  | none => s
  | some d =>
    let a := reA d.desc
    match remoteSpace a with
    | .spad r => if isLive s .region r then waitValue s c d (remoteWord s a) else endWait s c d { plainResult .arraysAbsent with result := d.lastRead }
    | .mem =>
      let s0 := chargeRd s c 8
      match xlateAt s.env (ceAsid (getCtx s c).ent) (remoteAddr a) 8 with
      | some f => endWait s0 c d { plainResult .xlateFault with result := BitVec.ofNat 64 f }
      | none =>
        if poisonedAt s.env (remoteAddr a) 8 then
          endWait (logFault s0 (poisonEntry s ((carrier s c).getD 0) c d.ring (remoteAddr a))) c d { plainResult .unrecoverable with result := d.lastRead }
        else waitValue s0 c d (remoteWord s a)

/-- The active WAITV of a context names memory, or found no free watch entry: M1 polls it. -/
def waitPolled (s : State) (c : Nat) : Bool :=
  match activeWait (getCtx s c) with
  | none => false
  | some d =>
    match remoteSpace (reA d.desc) with
    | .mem => true
    | .spad r => !(getRgn s r).watch.any (fun w => w.ctx == c)

/-- After a write of `n` bytes at offset `a` of region `r`, the node reads every watched line it touched again. -/
def wakeWatch (s : State) (r a n : Nat) : State :=
  let hit := (getRgn s r).watch.filter (fun w => decide (a / 64 ≤ w.addr / 64 ∧ w.addr / 64 ≤ (a + n - 1) / 64))
  hit.foldl (fun t w => waitvRead t w.ctx) s

/-- Perform a write and wake the watch entries it touches. -/
def writeWaking (s : State) (w : MemWrite) : State :=
  let s1 := { s with mems := wrBytes s.mems w.sp w.addr w.bytes }
  match w.sp with
  | .mem => s1
  | .spad r => if w.bytes.isEmpty then s1 else wakeWatch s1 r w.addr w.bytes.length

/-- Perform writes in order, waking watch entries. -/
def writesWaking (s : State) (ws : List MemWrite) : State := ws.foldl writeWaking s

end Sys2Proof.Machine
end

