-- ==== Sys2Proof/Machine/Rings.lean ====
section
/-!
DEFINITION. Doorbells, activation, the submission ring and the completion ring (R217 to R229).
-/

namespace Sys2Proof.Machine

/-! ### Notifies (R222, R219, R364) -/

/-- The doorbell word is to be read, once more after a read that is outstanding (R222). -/
def askDoorbell (x : Context) : Context := if x.dbRead then { x with dbAgain := true } else { x with dbRead := true }

/-- cq_head_addr is to be read while admission waits for room (R227). -/
def askHead (x : Context) : Context := if x.cqWait then { x with cqRead := true } else x

/-- The interval that a value of poll_ns stands for (R396). -/
def pollInterval (v : BitVec 32) : BitVec 32 := if v == 0 then 0 else if v.toNat < 1000 then 1000 else v

/-- A doorbell-notify takes effect: an active context's doorbell word and polled WAITV are read, an inactive one
is to be activated, and one that aborts once its abort is over (R375; DESIGN CHOICE, log 46: R375 speaks of the next notify). While the
context table's base is 0 it is dropped (R396). -/
def notifyOp (s : State) (c : Nat) : State :=
  if s.regs.ctxBase == 0 then s
  else
    let x := getCtx s c
    if takesWork x then
      let s1 := setCtx s c (askHead (askDoorbell x))
      if waitPolled s1 c then waitvRead s1 c else s1
    else setCtx s c { x with activating := true }

/-- A notify that arrives on a host port: held before ready, at once afterwards; it wakes M1 from idle (R384). -/
def notifyAt (s : State) (p : HostId) (c : CtxId) : State :=
  if !s.boot.ready then { s with boot := { s.boot with heldNotify := s.boot.heldNotify ++ [(p, c)] } }
  else notifyOp (wake s) c.val

/-- DOORBELL_NOTIFY (R222, R341). -/
def execDoorbellNotify (p : HostId) (c : CtxId) (s : State) : Host.Outcome State Fault Refusal :=
  .next (if hostAnswers s p.val then respond (notifyAt s p c) p.val .ok else s)

/-- The poll interval expires (R222, R227, R384): the doorbell words of polling contexts and the awaited cq_head_addr words are to be
read, and the next interval is poll_ns as it stands now (R396). -/
def dbPoll (s : State) : State :=
  let s1 := if s.ctxs.any (fun e => takesWork e.2 && (cePoll e.2.ent || e.2.cqWait)) then wake s else s
  { s1 with regs := { s1.regs with pollCur := pollInterval s1.regs.pollNs },
            ctxs := tmap (fun _ x => if takesWork x then askHead (if cePoll x.ent then askDoorbell x else x) else x) s1.ctxs }

/-- DB_POLL: no interval runs while poll_ns is 0 (R222). -/
def execDbPoll (s : State) : Host.Outcome State Fault Refusal :=
  .next (if s.regs.pollCur == 0 || !s.boot.ready then s else dbPoll s)

/-! ### Activation (R219) -/

/-- The RNG slot block (R202): slot j from 16 bytes at 16·j. -/
def readSlots (ms : Mems) (base : Nat) : Tbl RngSlot :=
  (List.range 8).map (fun j =>
    (j, { key := rd64 ms .mem (base + 16 * j), streamBase := BitVec.ofNat 32 (rdLe ms .mem (base + 16 * j + 8) 4),
          epoch := BitVec.ofNat 32 (rdLe ms .mem (base + 16 * j + 12) 4) }))

/-- Tempo begins a period 0 at `now` (R260, R263). -/
def tempoStart (e : List W64) (now : Nat) : Tempo :=
  { Tempo.init with start := now, fin := now + ceTempoNs e, lastDone := now }

/-- The context as activation leaves it. -/
def activated (x : Context) (e : List W64) (slots : Tbl RngSlot) (now : Nat) : Context :=
  { Context.init with ent := e, st := 1, dbRead := true, rng := slots, tempo := tempoStart e now, waitConf := x.waitConf }

/-- Activation: the entry is read with engine_asid, its slots with the context's ASID. A translation error on
either read leaves the context as it was and drops the notify. The reads go out through the context's host port (R335); the words are
taken as memory holds them now (log 14). -/
def activate (s : State) (c : Nat) : State :=
  let x := getCtx s c
  let a := s.regs.ctxBase.toNat + 256 * c
  let drop := setCtx s c { x with activating := false }
  if (xlateAt s.env s.regs.engineAsid a 256).isSome then drop
  else
    let e := rdWords s.mems .mem a 32
    if !ceEnable e then drop
    else if !ceValid e then
      let s1 := setCtx s c { Context.init with ent := e, st := 3, waitConf := x.waitConf }
      if ceStatusBase e % 64 == 0 then writeStatus s1 c else s1
    else if (xlateAt s.env (ceAsid e) (ceRngBase e) 128).isSome then drop
    else chargeRd (setCtx (hostAsk (hostAsk s c s.regs.engineAsid a 256) c (ceAsid e) (ceRngBase e) 128) c (activated x e (readSlots s.mems (ceRngBase e)) s.time.t)) c 384

/-- CONTEXT_ACTIVATION (R219, R217, R202). -/
def execContextActivation (c : CtxId) (s : State) : Host.Outcome State Fault Refusal :=
  .next (if (getCtx s c.val).activating && (getCtx s c.val).st != 1 && running s && s.regs.ctxBase != 0 && (hostPortFor s c.val).isSome then activate s c.val else s)

/-! ### The doorbell word (R221 to R224) -/

/-- A doorbell value against the context: ignored with another epoch or an overrun, else the new producer. -/
def doorbell (x : Context) (w : W64) : Context :=
  if bits w.toNat 63 32 != ceRingEpoch x.ent then x
  else
    let prod : W32 := BitVec.ofNat 32 (bits w.toNat 31 0)
    if decide ((prod - x.retire).toNat > 2 ^ ceSqLog2 x.ent) then { x with dbOverrun := true }
    else { x with dbOverrun := false, producer := prod }

/-- The word returns; a read that was merged follows. A change of db_overrun rewrites the status line. -/
def doorbellOp (s : State) (c : Nat) (w : W64) : State :=
  let x := getCtx s c
  let y := doorbell x w
  let s1 := { s with mems := wrLe s.mems .mem (ceDbAddr x.ent) 8 w.toNat }
  let s2 := chargeRd (setCtx s1 c { y with dbRead := x.dbAgain, dbAgain := false }) c 8
  if y.dbOverrun != x.dbOverrun then writeStatus s2 c else s2

/-- DOORBELL_VALUE (R223, R224). -/
def execDoorbellValue (c : CtxId) (w : W64) (s : State) : Host.Outcome State Fault Refusal :=
  .next (if (getCtx s c.val).st == 1 && (getCtx s c.val).dbRead && (hostPortFor s c.val).isSome then doorbellOp s c.val w else s)

/-! ### Fetch (R223) -/

/-- The slot of descriptor `i`. -/
def slotAddr (e : List W64) (i : W32) : Nat := ceSqBase e + 64 * (i.toNat % 2 ^ ceSqLog2 e)

/-- How many descriptors a fetch takes: up to 16, up to the producer index. -/
def fetchCount (x : Context) : Nat :=
  let n := (x.producer - x.fetch).toNat
  if n > 2 ^ ceSqLog2 x.ent then 0 else min 16 n

/-- The words of descriptor `i`; a slot whose read answers with a translation error or stays poisoned gives none. -/
def readSlot (s : State) (e : List W64) (i : W32) : List W64 :=
  if (xlateAt s.env (ceAsid e) (slotAddr e i) 64).isSome || poisonedAt s.env (slotAddr e i) 64 then [] else rdWords s.mems .mem (slotAddr e i) 8

/-- Ask for the slot of descriptor `i` through the context's host port (R30, R223). -/
def askSlot (s : State) (c : Nat) (i : W32) : State :=
  let e := (getCtx s c).ent
  hostIssue s c { op := 0, addr := slotAddr e i, asid := ceAsid e, len := 64, cls := 0, aop := 0, data := [], owner := .desc c i,
                  arrived := s.time.t, retried := false }

/-- The read of a descriptor's slot has not returned. -/
def slotPending (s : State) (c : Nat) (ring : W32) : Bool :=
  s.hp.any (fun p => p.2.initQ.any (fun q => q.op == 0 && q.owner == .desc c ring) ||
    p.2.initOut.any (fun q => q.2.op == 0 && q.2.owner == .desc c ring))

/-- The slot's words have returned: a fetched descriptor is what memory holds by now (log 14). -/
def slotArrived (s : State) (c : Nat) (ring : W32) (words : List W64) : State :=
  setCtx s c { getCtx s c with fetched := (getCtx s c).fetched.map (fun f => if f.1 == ring then (ring, words) else f) }

/-- A fetch: each slot is asked for, and its words are taken as memory holds them now and again when they return. -/
def fetchOp (s : State) (c : Nat) : State :=
  let x := getCtx s c
  let n := fetchCount x
  let rings := (List.range n).map (fun k => x.fetch + BitVec.ofNat 32 k)
  rings.foldl (fun t i => if (readSlot s x.ent i).isEmpty then t else askSlot t c i)
    (setCtx s c { x with fetched := x.fetched ++ rings.map (fun i => (i, readSlot s x.ent i)), fetch := x.fetch + BitVec.ofNat 32 n })

/-- DESCRIPTOR_FETCH (R223, R30). -/
def execDescriptorFetch (c : CtxId) (s : State) : Host.Outcome State Fault Refusal :=
  .next (if takesWork (getCtx s c.val) && running s && (hostPortFor s c.val).isSome then fetchOp s c.val else s)

/-! ### The completion ring (R227, R228) -/

/-- There is room for one more record. -/
def cqRoom (x : Context) : Bool :=
  decide ((x.cqWritten + BitVec.ofNat 32 x.admitted.length - x.cqHead).toNat < 2 ^ ceCqLog2 x.ent)

/-- cq_head_addr returns `v`; cq_wait follows the room, and a change of it rewrites the status line. -/
def cqHeadOp (s : State) (c : Nat) (v : W32) : State :=
  let x := getCtx s c
  let y := { x with cqHead := v, cqRead := false }
  let s1 := { s with mems := wrLe s.mems .mem (ceCqHeadAddr x.ent) 4 v.toNat }
  let s2 := chargeRd (setCtx s1 c { y with cqWait := !cqRoom y }) c 4
  if (!cqRoom y) != x.cqWait then writeStatus s2 c else s2

/-- CQ_HEAD_READ (R227): when the check of room has failed, then on every notify and poll, until room appears. -/
def execCqHeadRead (c : CtxId) (v : W32) (s : State) : Host.Outcome State Fault Refusal :=
  .next (if (getCtx s c.val).st == 1 && (getCtx s c.val).cqRead && (hostPortFor s c.val).isSome
    then cqHeadOp s c.val v else s)

/-- M1 writes records: ready, not stopped by an engine-fatal or other board-level fault (R313, R325). -/
def recordsGo (s : State) : Bool := s.boot.ready && !s.boot.stopped && !s.boot.off

/-- A CTXLOAD that read enable = 0 retires its context once it has its record (R245). -/
def retireAfterLoad (s : State) (c : Nat) (d : Adm) : State :=
  if dOpcode d.desc == 0x2A && !ceEnable (getCtx s c).ent then
    writeStatus (setCtx s c { getCtx s c with st := 0, fetched := [], slotXlate := [], dbRead := false, dbAgain := false }) c
  else s

/-- The next descriptor to get its record: the first that completed and whose writes are acknowledged. -/
def nextRecord (s : State) (c : Nat) : Option (Adm × Result) :=
  let x := getCtx s c
  match x.doneQ with
  | [] => none
  | ring :: _ =>
    match x.admitted.find? (fun d => d.ring == ring) with
    | none => none
    | some d =>
      match d.result with
      | none => none
      | some res => if writesOutstanding s c ring then none else some (d, res)

/-- COMPLETION_RECORD (R226, R228, R229, R246): the next record of a context, or what an abort of it does next (R375). -/
def execCompletionRecord (c : CtxId) (s : State) : Host.Outcome State Fault Refusal :=
  .next (if (getCtx s c.val).st == 1 && recordsGo s && (hostPortFor s c.val).isSome then
    if (getCtx s c.val).aborting then abortNext s c.val
    else match nextRecord s c.val with
    | none => s
    | some (d, res) => retireAfterLoad (writeRecord s c.val d.ring d.desc res) c.val d
    else s)

end Sys2Proof.Machine
end

