-- ==== Sys2Proof/Machine/Ready.lean ====
section
/-!
DEFINITION. Power-state requests (R383 to R385) and what waits for ready: a held warm reset, notifies, sideband requests and power
targets (R351, R364), after cold boot and at the end of a warm reset (R374).
-/

namespace Sys2Proof.Machine

/-! ### Power-state requests -/

/-- No context is active, no work admitted, no maintenance activity running (R385). -/
def retentionAllowed (s : State) : Bool :=
  !anyActive s && !s.ctxs.any (fun e => !e.2.admitted.isEmpty) && !s.rgns.any (fun e => !e.2.running.isEmpty)

/-- The arrays, Side Paths and ports that are LIVE (R374). -/
def liveUnits (s : State) : List UnitSel :=
  ((List.range 16).filter (fun a => isLive s .array a)).map (fun a => { kind := .array, unit := Fin.ofNat 16 a }) ++
  ((List.range 4).filter (fun n => isLive s .side n)).map (fun n => { kind := .side, unit := Fin.ofNat 16 n }) ++
  ((List.range 16).filter (fun q => isLive s .port q)).map (fun q => { kind := .port, unit := Fin.ofNat 16 q })

/-- Entry into retention, or its refusal (R385). -/
def enterRetention (s : State) : State :=
  if retentionAllowed s then
    { s with pwr := { s.pwr with target := 2 }, boot := { s.boot with pstate := 3, retained := liveUnits s } }
  else { s with pwr := { s.pwr with retRefused := true } }

/-- A target takes effect (R384): the arrays begin to step towards f_floor, or back, and retention is entered at once. -/
def powerGo (s : State) (t : Nat) : State :=
  match t with
  | 0 => { s with pwr := { s.pwr with target := 0, moving := s.boot.pstate == 1 && decide (s.pwr.rcPoint < s.pwr.capArray) },
                  boot := { s.boot with pstate := 0 } }
  | 1 => { s with pwr := { s.pwr with target := 1, rcPoint := min s.pwr.rcPoint s.pwr.capArray,
                                      moving := decide (s.pwr.now.fFloor.toNat < min s.pwr.rcPoint s.pwr.capArray) },
                  boot := { s.boot with pstate := 1 } }
  | 2 => enterRetention s
  | _ => s

/-- M1 is between two power states: it boots or runs a warm reset, or the arrays still step (R384). -/
def inTransition (s : State) : Bool := !s.boot.ready || s.pwr.moving

/-- A target written to ENG_PWR_CTL (R383): 0b11 is ignored; during a transition the last one waits for its end; in retention only the
ending warm reset changes the state (R384). -/
def powerTarget (s : State) (t : Nat) : State :=
  if t == 3 then s
  else if s.boot.pstate == 3 then (if t == 2 then s else { s with pwr := { s.pwr with target := BitVec.ofNat 2 t } })
  else if inTransition s then { s with pwr := { s.pwr with nextTarget := some (BitVec.ofNat 2 t) } }
  else powerGo s t

/-- A transition has ended: the target written during it takes effect (R383). -/
def targetNext (s : State) : State :=
  match s.pwr.nextTarget with
  | some t => if inTransition s then s else powerGo { s with pwr := { s.pwr with nextTarget := none } } t.toNat
  | none => s

/-! ### ready (R351, R364, R374) -/

/-- ready has just been set: a held warm reset acts, then the held notifies and sideband requests take effect, then a held power
target. DESIGN CHOICE (log 46): R351 and R364 give no order among them. -/
def readyNow (s : State) : State :=
  let ns := s.boot.heldNotify
  let ss := s.boot.heldSide
  let s1 := { s with boot := { s.boot with ready := true, phase := 5, heldNotify := [], heldSide := [] } }
  let s2 := if s1.boot.warmHeld then warmRun s1 else s1
  let s3 := ns.foldl (fun t n => notifyOp t n.2.val) s2
  targetNext (ss.foldl (fun t w => if w.1 then (maintWord t .mgmt w.2.toNat).1 else unitWord t .mgmt w.2.toNat) s3)

/-- A warm reset in progress ends once no response is awaited and no unit is TESTING for it: M1 sets ready (R374 step 4). -/
def warmNext (s : State) : State :=
  if s.boot.phase == 6 && !s.boot.ready && warmOver s then readyNow { s with boot := { s.boot with retained := [] } } else s

end Sys2Proof.Machine
end

