-- ==== Sys2Proof/Machine/Ports.lean ====
section
/-!
DEFINITION. Host ports and memory ports as the licensee's chip drives them: up inputs (R342, R343), credits
(R331), read data and responses (R322, R333, R334), the main side (R367), and the crossings (R35).
-/

namespace Sys2Proof.Machine

/-! ### Host ports -/

/-- Send queued initiator requests of a host port while credits last. -/
def flushHost : Nat → State → Nat → State
  | 0, s, _ => s
  | n + 1, s, p =>
    let x := getHp s p
    match x.initQ with
    | [] => s
    | q :: rest =>
      let wd := hostWd q
      if x.credReq ≥ 1 && x.credWd ≥ wd && hpLive s p then
        flushHost n (hostSend (setHp s p { x with initQ := [] }) p q |> fun t => setHp t p { getHp t p with initQ := rest }) p
      else s

/-- The next live host port after `p` in R30's order. -/
def nextHost (s : State) (p : Nat) : Option Nat := [(p + 1) % 4, (p + 2) % 4, (p + 3) % 4].find? (hpLive s)

/-- A port's outstanding and queued initiator requests move to the next live port, or wait where they are (R342). -/
def moveHost (s : State) (p : Nat) : State :=
  let x := getHp s p
  let all := (x.initOut.map (·.2)).filter (fun q => q.owner != .lost) ++ x.initQ
  let s1 := setHp s p { x with initOut := [], initQ := [], resp := .none }
  match nextHost s1 p with
  | some j => all.foldl (fun t q => hostSend t j q) s1
  | none => setHp s1 p { getHp s1 p with initQ := all }

/-- HOST_PORT_DOWN (R342): target requests are discarded, initiator traffic moves on. -/
def hostDown (s : State) (p : Nat) : State :=
  if !(getHp s p).up then s
  else
    let s1 := moveHost (setHp s p { getHp s p with up := false, lastUp := s.time.t, wdata := [] }) p
    { s1 with rgns := tmap (fun _ x => { x with bankReqs := x.bankReqs.filter (fun q => q.owner != .host p) }) s1.rgns }

def execHostPortDown (p : HostId) (s : State) : Host.Outcome State Fault Refusal := .next (warmNext (hostDown s p.val))

/-- HOST_PORT_UP (R342, R30, R367): the port carries traffic again, and requests held because no port was up go out. -/
def hostUp (s : State) (p : Nat) : State :=
  let s1 := setHp s p { getHp s p with up := true }
  let s2 := { s1 with mnt := { s1.mnt with mainDown := s1.boot.stopped } }
  if !hpLive s2 p then s2
  else
    let held := [0, 1, 2, 3].filter (fun j => j != p && !hpLive s2 j)
    let qs := held.flatMap (fun j => (getHp s2 j).initQ)
    let s3 := held.foldl (fun t j => setHp t j { getHp t j with initQ := [] }) s2
    let s4 := setHp s3 p { getHp s3 p with initQ := (getHp s3 p).initQ ++ qs }
    irqHeld (flushHost (getHp s4 p).initQ.length s4 p)

def execHostPortUp (p : HostId) (s : State) : Host.Outcome State Fault Refusal :=
  .next (if (getHp s p.val).up then s else hostUp s p.val)

/-- No host port's up input has been high for the last 1 ms. -/
def noneUp (s : State) : Bool :=
  [0, 1, 2, 3].all (fun p => !(getHp s p).up && decide ((getHp s p).lastUp + 1000000 ≤ s.time.t))

/-- MAIN_SIDE_DOWN (R367). -/
def execMainSideDown (s : State) : Host.Outcome State Fault Refusal :=
  .next (if noneUp s || s.boot.stopped then mainSideDown s else s)

/-! ### Memory ports -/

/-- The up input of a memory port falls: the port is fenced (R343, R318, R322). -/
def memDown (s : State) (q : Nat) : State :=
  let s1 := setMp s q { getMp s q with up := false }
  match unitSt s1 .port q with
  | .absent => s1
  | .fenced => s1
  | _ => fenceUnit s1 .port q

/-- MEMORY_PORT_DOWN (R343). -/
def execMemoryPortDown (q : PortId) (s : State) : Host.Outcome State Fault Refusal := .next (warmNext (memDown s q.val))

/-- MPP_CREDIT_RETURN (R331). -/
def creditReturn (s : State) (port : PortRef) (req wd : Nat) : State :=
  match port with
  | .mem q => setMp s q.val { getMp s q.val with up := true, credReq := (getMp s q.val).credReq + req, credWd := (getMp s q.val).credWd + wd }
  | .host p =>
    let s1 := setHp s p.val { getHp s p.val with credReq := (getHp s p.val).credReq + req, credWd := (getHp s p.val).credWd + wd }
    flushHost (getHp s1 p.val).initQ.length s1 p.val

def execMppCreditReturn (port : PortRef) (req wd : BitVec 4) (s : State) : Host.Outcome State Fault Refusal :=
  .next (creditReturn s port req.toNat wd.toNat)

/-- A Gambit access that fails abandons what it was for, silently (R267, R268, R334): the preload of its array, or the copy that it would
fill. A copy that a tile has taken reads for that tile. -/
def gambitAbandon (s : State) (q c tensor : Nat) (gen : W32) (array : Option Nat) : State :=
  match array with
  | some a =>
    let hit (l : Load) : Bool := l.preload && l.key.ctx == c && l.key.tensor == tensor && l.key.gen == gen
    if (getArr s a).loads.any hit then
      addCnt (setArr s a { getArr s a with loads := (getArr s a).loads.filter (fun l => !hit l), tsp := [] }) 3 1
    else s
  | none =>
    let x := getRgn s (q / 4)
    setRgn s (q / 4) { x with resid := x.resid.filter (fun y => !(y.ctx == c && y.tensor == tensor && y.gen == gen)) }

/-- Gambit's own accesses raise no counter but Gambit's (R274). -/
def ofGambit : Owner → Bool
  | .gambit .. => true
  | _ => false

/-- Put a read request back at the front of a port's queue, marked as reissued. -/
def reissue (s : State) (q : Nat) (r : PortReq) : State :=
  setMp s q { getMp s q with rdQ := { r with retried := true } :: (getMp s q).rdQ }

/-- Uncorrectable RS errors on a port's data (R322, R399): counted and logged; the third within 1 ms fences the port, behind what `f`
does for the request. -/
def portError (s : State) (q : Nat) (r : PortReq) (f : State → State) : State :=
  let x := getMp s q
  let times := addEvent x.ueTimes s.time.t
  let s1 := logFault (setMp s q { x with ue := if x.ue == 0xFFFF then x.ue else x.ue + 1, ueTimes := times }) (portEntry s 0x0B q r)
  if reached 3 times then fenceUnit (f s1) .port q else f s1

/-- Read data with an uncorrectable RS error (R322, R399): a Gambit access is abandoned silently (R267); else the request goes out once
more on the same port, and after that on the next LIVE one, where it joins with the age it has (R27). -/
def rdUncorrectable (s : State) (q : Nat) (r : PortReq) : State :=
  match r.owner with
  | .gambit c n g a => gambitAbandon s q c n g a
  | _ => portError s q r (fun t =>
      match (if r.retried then nextPort t q else none) with
      | none => reissue t q r
      | some j => setMp t j (joinPort (getMp t q).cycle [{ r with retried := true }] (getMp t j)))

/-- A poisoned response (R309, R334): logged; an operand is fetched once more, and then its descriptor ends with
UNRECOVERABLE; a Gambit access is abandoned without an entry. -/
def rdPoisoned (s : State) (q : Nat) (r : PortReq) : State :=
  let x := getMp s q
  let s1 := if ofGambit r.owner then s else setMp s q { x with poison := if x.poison == 0xFFFF then x.poison else x.poison + 1 }
  match r.owner with
  | .gambit c n g a => gambitAbandon s1 q c n g a
  | .desc c ring =>
    let s2 := logFault s1 (portEntry s 0x15 q r)
    if r.retried then endDesc s2 c ring .unrecoverable else reissue s2 q r
  | _ => logFault s1 (portEntry s 0x15 q r)

/-- Byte `a` of memory is to be written by a request of M1 that has no acknowledgement yet: the model's memory holds that byte already
(log 14), and read data that left before it does not undo it. -/
def writePends (s : State) (a : Nat) : Bool :=
  let hit (q : PortReq) : Bool := q.op == 1 && decide (q.addr ≤ a ∧ a < q.addr + q.len)
  s.mp.any (fun q => q.2.wrQ.any hit || q.2.wrOut.any (fun e => hit e.2)) || s.hp.any (fun p => p.2.initQ.any hit || p.2.initOut.any (fun e => hit e.2))

/-- The bytes of read data from `a` on stand in memory, but for those that M1 is writing. -/
def takeData (s : State) (a : Nat) (bs : List Byte) : Mems :=
  ((List.range bs.length).zip bs).foldl (fun m x => if writePends s (a + x.1) then m else wrBytes m .mem (a + x.1) [x.2]) s.mems

/-- Good read data: what the licensee's memory holds there (log 14), in the byte lanes from the address modulo the width `lanes` of a
transfer on (R333, R340), charged to the context of the request (R358). -/
def rdGood (s : State) (lanes : Nat) (r : PortReq) (data : List Byte) : State :=
  let t := { s with mems := takeData s r.addr ((data.drop (r.addr % lanes)).take r.len) }
  match r.owner with
  | .desc c _ => chargeRd t c r.len
  | _ => t

/-! ### Crossings (R35) -/

/-- The crossing from a port island into its region's staging island. -/
def portXing (q : Nat) (x : Crossing) : Bool := x.src == 36 + q && x.dst == 20 + q / 4

/-- It holds as many transfers as it can. -/
def xingFull (s : State) (q : Nat) : Bool := decide (s.cfg.xingCap ≤ (s.xing.filter (portXing q)).length)

/-- The port island presents a read to the crossing into its region's staging island; a full crossing holds it in the port, in order,
until an entry frees (R35, R357). -/
def present (s : State) (q : Nat) (r : PortReq) : State :=
  if xingFull s q || !(getMp s q).held.isEmpty then setMp s q { getMp s q with held := (getMp s q).held ++ [r] }
  else { s with xing := s.xing ++ [{ src := 36 + q, dst := 20 + q / 4, read := r }] }

/-- A freed entry takes the oldest read that the port holds. -/
def presentHeld (s : State) (q : Nat) : State :=
  match (getMp s q).held with
  | [] => s
  | r :: rest =>
    if xingFull s q then s
    else { setMp s q { getMp s q with held := rest } with xing := s.xing ++ [{ src := 36 + q, dst := 20 + q / 4, read := r }] }

/-! ### Responses -/

/-- The new value of an atomic (R283) from the old word, the operand and CAS's new value. -/
def atomicNew (op : Nat) (old operand new : W64) : W64 :=
  match op with
  | 0 => BitVec.ofNat 64 (2 ^ 32 * bits old.toNat 63 32 + (bits old.toNat 31 0 + bits operand.toNat 31 0) % 2 ^ 32)
  | 1 => old + operand
  | 2 => if old == operand then new else old
  | 3 => if old.toNat < operand.toNat then operand else old
  | _ => old ||| operand

/-- What an atomic returns (R283): op 0 the low half, the others the word. -/
def atomicResult (op : Nat) (old : W64) : W64 := if op == 0 then BitVec.ofNat 64 (bits old.toNat 31 0) else old

/-- Two claims on one address. -/
def sameWord (a b : Claim) : Bool := a.sp == b.sp && a.addr == b.addr

/-- Enter a claim into the ledger (R293, R295). The entries of the least recently used address come first; a full
ledger drops that address, or, where it holds one address alone, its oldest value. -/
def claimEnter (s : State) (k : Claim) : State :=
  let others := s.ledger.filter (fun e => !sameWord e k)
  let own := s.ledger.filter (fun e => sameWord e k && e.value != k.value) ++ [k]
  let all := others ++ own
  if all.length ≤ 4096 then { s with ledger := all }
  else
    let left := match others with
      | [] => own.drop 1
      | old :: _ => others.filter (fun e => !sameWord e old) ++ own
    addCnt { s with ledger := left } 8 1

/-- A FETCH_ADD of a context with the claim ledger enters its new value (R293). DESIGN CHOICE (log 46): of a 32-bit FETCH_ADD, whose
new value R293 does not spell out, it enters the whole 64-bit word. -/
def claimAdd (s : State) (c : Nat) (ring : W32) (a : W64) (op : Nat) (new : W64) : State :=
  if ceLedger (getCtx s c).ent && (op == 0 || op == 1) then
    claimEnter s { sp := remoteSpace a, addr := remoteAddr a, value := new, ctx := c,
                   seq := match (getCtx s c).admitted.find? (fun d => d.ring == ring) with
                     | some d => dSeq d.desc
                     | none => 0 }
  else s

/-- Keep what an atomic returned in its admission record and its journal entry (R291). -/
def setPrior (s : State) (c : Nat) (ring : W32) (v : W64) : State :=
  setCtx s c { getCtx s c with admitted := (getCtx s c).admitted.map (fun d => if d.ring == ring then { d with prior := some v } else d) }

/-- The licensee has performed an atomic: memory holds its new value, the descriptor completes with the prior
value (R283, R284). -/
def atomicDone (s : State) (r : PortReq) (prior : W64) : State :=
  let operand : W64 := BitVec.ofNat 64 (leNat (r.data.take 8))
  let new : W64 := BitVec.ofNat 64 (leNat ((r.data.drop 8).take 8))
  let v := atomicNew r.aop prior operand new
  let s1 := { s with mems := wrLe s.mems .mem r.addr 8 v.toNat }
  match r.owner with
  | .desc c ring =>
    let s2 := setPrior (claimAdd s1 c ring (BitVec.ofNat 64 r.addr) r.aop v) c ring (atomicResult r.aop prior)
    finishDesc (markRemote s2 c ring true true) c ring { plainResult .ok with result := atomicResult r.aop prior }
  | _ => s1

/-- A response that reports a translation error or an address that decodes to nothing (R334). -/
def rspError (s : State) (q : Nat) (r : PortReq) : State :=
  match r.owner with
  | .desc c ring => xlateFail s c ring r.addr r.sub
  | .gambit c n g a => gambitAbandon s q c n g a
  | .lost => s
  | _ => logFault s (portEntry s 0x11 q r)

/-- The acknowledgement of a fault interrupt (R398). -/
def irqAck (s : State) (r : PortReq) : State :=
  if s.flog.irqWait && r.owner == .irq then
    let s1 := { s with flog := { s.flog with irqWait := false, irqMore := false } }
    if s.flog.irqMore then faultIrq s1 else s1
  else s

end Sys2Proof.Machine
end

