-- ==== Sys2Proof/Machine/Boot.lean ====
section
/-!
DEFINITION. Cold boot (R362 to R365, R7), clocks, time and rails (R312, R349, R350, R353, R384).
-/

namespace Sys2Proof.Machine

/-! ### Cold boot -/

/-- Boot stops in a phase with a board-level fault (R363). -/
def bootFail (s : State) (phase : Nat) (kind : BitVec 4) (source : Byte) (detail : Nat) : State :=
  let s1 := boardFault s kind source 0 detail
  { s1 with boot := { s1.boot with phase := BitVec.ofNat 3 phase, fail := true } }

/-- The islands of a region whose loss fences it. -/
def regionIslands (n : Nat) : List Nat := [16 + n, 20 + n, 28 + n, 32 + n]

/-- An island is in a list. -/
def hasIsl (l : List IslId) (i : Nat) : Bool := l.any (fun x => x.val == i)

/-- Banks of region `n` that fail the march test. -/
def badOf (r : BootReport) (n : Nat) : List Nat := (r.badBanks.filter (fun b => b.1.val == n)).map (·.2)

/-- Region `n` comes up FENCED for its islands: one of its own, or every memory port's (R363, R322). -/
def regionDead (r : BootReport) (n : Nat) : Bool :=
  (regionIslands n).any (hasIsl r.noLock) || [0, 1, 2, 3].all (fun j => hasIsl r.noLock (36 + 4 * n + j))

/-- A region the configuration has and the OTP map leaves an array in (R4, R7). -/
def regionPresent (s : State) (fuse : BitVec 16) (n : Nat) : Bool :=
  configured s n && [0, 1, 2, 3].any (fun j => fuse.getLsbD (4 * n + j))

/-- The state of a unit after calibration: ABSENT, FENCED, or in test until boot ends (R314, R363). -/
def bootUnit (present lost : Bool) : MUnit :=
  { MUnit.init with st := if !present then .absent else if lost then .fenced else .testing }

/-- The units of the configuration once the islands are calibrated (R314, R363). DESIGN CHOICE (log 46): until its phase is passed a unit
reads TESTING. -/
def bootUnits (s : State) (r : BootReport) : Units :=
  let fuse := s.boot.fuse
  { array := (List.range 16).map (fun a =>
      (a, bootUnit (fuse.getLsbD a && regionPresent s fuse (a / 4)) (regionDead r (a / 4) || hasIsl r.noLock a))),
    side := (List.range 4).map (fun n => (n, bootUnit (regionPresent s fuse n) (regionDead r n || hasIsl r.noLock (24 + n)))),
    region := (List.range 4).map (fun n => (n, bootUnit (regionPresent s fuse n) (regionDead r n))),
    port := (List.range 16).map (fun q =>
      (q, bootUnit (regionPresent s fuse (q / 4)) (regionDead r (q / 4) || hasIsl r.noLock (36 + q)))) }

/-- The region an island belongs to; 0 for those of the engine (R34, R357). -/
def islRegion (i : Nat) : Nat :=
  match islKind i with
  | .array a => a / 4
  | .scratchpad n => n
  | .staging n => n
  | .side n => n
  | .regionControl n => n
  | .fabric n => n
  | .memPort q => q / 4
  | _ => 0

/-- The log entry of an island's fault (R363, R312, R324). -/
def islandEntry (s : State) (cls : BitVec 3) (i : Nat) : FlogEntry :=
  { flogBase s cls 12 0x12 0 (islRegion i) with detail := BitVec.ofNat 32 i }

/-- The class of an island's loss of every oscillator (R310). -/
def islandClass (i : Nat) : BitVec 3 :=
  match islKind i with
  | .scratchpad _ => clsRegion
  | .staging _ => clsRegion
  | .regionControl _ => clsRegion
  | .fabric _ => clsRegion
  | .test => clsCorrectable
  | .engine => clsBoard
  | .timebase => clsBoard
  | .alwaysOn => clsBoard
  | _ => clsArray

/-- Phase 2 logs each island that failed; an island on one oscillator runs without a standby from now on. -/
def bootIslands (s : State) (r : BootReport) : State :=
  let s1 := r.oneLock.foldl (fun t i =>
    logFault (setIsl t i.val { getIsl t i.val with standby := true }) (islandEntry t clsCorrectable i.val)) s
  let s2 := r.noLock.foldl (fun t i =>
    logFault (setIsl t i.val { getIsl t i.val with out := true }) (islandEntry t (islandClass i.val) i.val)) s1
  { s2 with hp := [0, 1, 2, 3].foldl (fun h p =>
      if hasIsl r.noLock (52 + p) then tset h p { tget HostPort.init h p with dead := true } else h) s2.hp }

/-- Phase 3 maps failing banks onto spares and zeroes every line (R362, R403); more than 4 fence the region. -/
def bootBanks (s : State) (r : BootReport) (n : Nat) : State :=
  let bad := badOf r n
  let s1 := setRgn s n { getRgn s n with spares := (sparesOf bad).1, badSpares := (sparesOf bad).2 }
  let s2 := (bad.take 4).foldl (fun t b => logFault t { flogBase t clsArray 5 0x02 0 n with detail := BitVec.ofNat 32 b }) s1
  if bad.length > 4 then logFault (putRegion s2 n .fenced) (unitEntry s2 clsRegion 0x20 .region n) else s2

/-- A phase is over and the next one begins. -/
def nextPhase (s : State) : State := { s with boot := { s.boot with phase := s.boot.phase + 1 } }

/-- Phase 1 (R362): the OTP array into the fuse shadow. -/
def bootOtp (s : State) (r : BootReport) : State :=
  if !r.otpOk then bootFail s 1 12 0x12 57
  else nextPhase { s with boot := { s.boot with fuse := s.cfg.otp &&& BitVec.ofNat 16 (2 ^ (4 * s.cfg.regions) - 1), fuseData := s.cfg.otpData } }

/-- Phase 2 (R362, R363): the islands lock. Without REFCLK calibration never completes (R34). -/
def bootCal (s : State) (r : BootReport) : State :=
  if !r.refclkOk then s
  else if hasIsl r.noLock 59 then bootFail s 2 12 0x12 59
  else if hasIsl r.noLock 57 then bootFail s 2 12 0x12 57
  else if hasIsl r.noLock 56 then bootFail s 2 12 0x12 56
  else
    let s1 := bootIslands { s with time := { s.time with calibrated := true }, units := bootUnits s r } r
    if [0, 1, 2, 3].all (fun p => hasIsl r.noLock (52 + p)) then bootFail s1 2 12 0x12 52 else nextPhase s1

/-- Phase 3 (R362): the scratchpads. -/
def bootPads (s : State) (r : BootReport) : State :=
  nextPhase ((List.range s.cfg.regions).foldl (fun t n => if unitSt t .region n == .testing then bootBanks t r n else t)
    { s with mems := { s.mems with spad := [] } })

/-- Phase 4 (R362): a unit that passed is LIVE; an array that failed is FENCED. -/
def bootPass (s : State) (r : BootReport) (k : UnitKind) (n : Nat) : State :=
  if unitSt s k n != .testing then s
  else if k == .array && r.failArrays.any (fun x => x.val == n) then logFault (putUnit s k n .fenced) (unitEntry s clsArray 0x20 k n)
  else putUnit s k n .live

/-- The end of phase 4: ready, unless no array is LIVE (R363, R7). -/
def bootTest (s : State) (r : BootReport) : State :=
  let s1 := [0, 1, 2, 3].foldl (fun t n => (unitsOf n).foldl (fun u k => bootPass u r k.1 k.2) (bootPass t r .region n)) s
  if (List.range 16).any (fun a => isLive s1 .array a) then readyNow s1 else bootFail s1 4 1 0x20 0

/-- The phase that boot is in runs to its end. -/
def bootPhase (s : State) (r : BootReport) : State :=
  match s.boot.phase.toNat with
  | 1 => bootOtp s r
  | 2 => bootCal s r
  | 3 => bootPads s r
  | 4 => bootTest s r
  | _ => s

/-- Up to `n` phases run, none behind the report's last; a board-level fault stops boot (R365). -/
def bootRun (r : BootReport) : Nat → State → State
  | 0, s => s
  | n + 1, s =>
    if s.boot.ready || s.boot.fail then s
    else if s.boot.stopped then { s with boot := { s.boot with fail := true } }
    else if r.upto < s.boot.phase.toNat then s
    else bootRun r n (bootPhase s r)

/-- RST_COLD_N rises, or boot goes on (R351, R362). -/
def coldBoot (s : State) (r : BootReport) : State :=
  let s1 := { s with time := { s.time with refclk := r.refclkOk } }
  if s.boot.resetAsserted then bootRun r 4 { s1 with boot := { s.boot with resetAsserted := false, off := false, phase := 1 } }
  else if s.boot.ready || s.boot.fail || decide (4 < s.boot.phase.toNat) then s
  else bootRun r 4 s1

/-- COLD_BOOT (R351, R362). DESIGN CHOICE (log 46): one command runs the phases up to the one that its report names, so that boot may be
seen, and answered to, between its phases; commands that follow go on with it. -/
def execColdBoot (r : BootReport) (s : State) : Host.Outcome State Fault Refusal := .next (coldBoot s r)

/-! ### Clocks -/

/-- M1 has its rails and is out of cold reset. -/
def powered (s : State) : Bool := !s.boot.off && !s.boot.resetAsserted

/-- REFCLK_LOSS (R349): a board-level fault once the islands are calibrated. -/
def refclkLoss (s : State) : State :=
  let s1 := { s with time := { s.time with refclk := false } }
  if powered s && s.time.calibrated && s.time.refclk then boardFault s1 12 0x12 0 59 else s1

def execRefclkLoss (s : State) : Host.Outcome State Fault Refusal := .next (refclkLoss s)

/-- TIMESTAMP_SAMPLE (R350): T advances to a later sample, and stops on an earlier one until a sample passes it. -/
def timestamp (s : State) (x : W64) : State :=
  let s1 := { s with time := { s.time with stale := false } }
  if x.toNat > s.time.t then { s1 with time := { s1.time with t := x.toNat, held := false } }
  else if x.toNat < s.time.t then addCnt { s1 with time := { s1.time with held := true } } 9 1
  else s1

def execTimestampSample (x : W64) (s : State) : Host.Outcome State Fault Refusal :=
  .next (if powered s then timestamp s x else s)

/-- TIMESTAMP_STALE (R350): no toggle for 1 ms; T then advances on the timebase alone. -/
def execTimestampStale (s : State) : Host.Outcome State Fault Refusal :=
  .next (if powered s then { s with time := { s.time with stale := true, held := false } } else s)

/-- DROOP_STRETCH (R353, R359): the event is counted for the island and in counter 12; only timing changes. -/
def droop (s : State) (i : Nat) : State :=
  addCnt (setIsl s i { getIsl s i with droops := (getIsl s i).droops + 1 }) 12 1

def execDroopStretch (i : IslId) (s : State) : Host.Outcome State Fault Refusal :=
  .next (if powered s then droop s i.val else s)

/-! ### Island faults (R312) -/

/-- A unit whose island is lost is FENCED unless it is absent or fenced already. -/
def loseUnit (s : State) (k : UnitKind) (n : Nat) : State :=
  match unitSt s k n with
  | .absent => s
  | .fenced => s
  | _ => fenceQuiet s k n

/-- The first fault of an island with a standby oscillator switches it over; the second is fatal to `f`'s unit. -/
def standbyFault (s : State) (i : Nat) (second : State → State) : State :=
  if !(getIsl s i).standby then
    logFault (setIsl s i { getIsl s i with standby := true }) (islandEntry s clsCorrectable i)
  else second (setIsl s i { getIsl s i with out := true })

/-- Contain an island fault by the island's kind. -/
def islandFaultOp (s : State) (i : Nat) : State :=
  let gone := setIsl s i { getIsl s i with out := true }
  let rgn (n : Nat) : State := standbyFault s i (fun t => loseUnit (logFault t (islandEntry t clsRegion i)) .region n)
  match islKind i with
  | .array a => loseUnit (logFault gone (islandEntry s clsArray i)) .array a
  | .side n => loseUnit (logFault gone (islandEntry s clsArray i)) .side n
  | .memPort q => loseUnit (logFault gone (islandEntry s clsArray i)) .port q
  | .hostPort p =>
    let s1 := logFault gone (islandEntry s clsArray i)
    moveHost (setHp s1 p { getHp s1 p with dead := true }) p
  | .scratchpad n => rgn n
  | .staging n => rgn n
  | .regionControl n => rgn n
  | .fabric n => rgn n
  | .engine => standbyFault s i (fun t => boardFault t 12 0x12 0 i)
  | .timebase => boardFault gone 12 0x12 0 i
  | .alwaysOn => boardFault gone 12 0x12 0 i
  | .test => logFault gone (islandEntry s clsCorrectable i)

/-- The island exists on this configuration, and its clock has not been lost before. -/
def islandRuns (s : State) (i : Nat) : Bool :=
  !(getIsl s i).out &&
  (match islKind i with
    | .array a => unitSt s .array a != .absent
    | .scratchpad n => unitSt s .region n != .absent
    | .staging n => unitSt s .region n != .absent
    | .side n => unitSt s .side n != .absent
    | .regionControl n => unitSt s .region n != .absent
    | .fabric n => unitSt s .region n != .absent
    | .memPort q => unitSt s .port q != .absent
    | _ => true)

/-- ISLAND_FAULT (R312, R311). -/
def execIslandFault (i : IslId) (s : State) : Host.Outcome State Fault Refusal :=
  .next (if powered s && islandRuns s i.val then warmNext (islandFaultOp s i.val) else s)

/-- RAILS_REMOVED (R384, R354): off holds nothing. -/
def railsRemoved (s : State) : State :=
  let s1 := coldReset s
  { s1 with boot := { s1.boot with off := true }, mems := { s1.mems with spad := [] } }

def execRailsRemoved (s : State) : Host.Outcome State Fault Refusal := .next (railsRemoved s)

end Sys2Proof.Machine
end

