-- ==== Sys2Proof/Machine/Power.lean ====
section
/-!
DEFINITION. Power states (R354, R383 to R385), the power controller (R355, R401) and thermal throttling (R356).
-/

namespace Sys2Proof.Machine

/-! ### A register write by its halves (R386) -/

/-- A write of one 8 B register: which 4 B halves it covers, and the value in place. -/
structure RegW where
  lo : Bool
  hi : Bool
  v : Nat
  deriving DecidableEq, Repr

/-- An 8 B write. -/
def regW8 (v : Nat) : RegW := { lo := true, hi := true, v := v }

/-- A field [hi:lo] that lies in one half is covered by the write. -/
def RegW.covers (w : RegW) (lo : Nat) : Bool := if lo < 32 then w.lo else w.hi

/-- A field's value after the write. -/
def RegW.field (w : RegW) (hi lo old : Nat) : Nat := if w.covers lo then bits w.v hi lo else old

/-- A bit that acts when it is written as 1 (WO, W1C). -/
def RegW.one (w : RegW) (i : Nat) : Bool := w.covers i && bits w.v i i == 1

/-! ### ENG_PWR_CFG -/

/-- A write of ENG_PWR_CFG: values outside a field's range leave that field unchanged (R355, R387). -/
def pwrCfgFields (p : PwrCfg) (w : RegW) : PwrCfg :=
  let cap := w.field 9 0 p.capW.toNat
  let fl := w.field 26 16 p.fFloor.toNat
  let tt := w.field 39 32 p.tThrottle.toNat
  { capW := if decide (1 ≤ cap ∧ cap ≤ 99) then p.capW else BitVec.ofNat 10 cap,
    boostEn := w.field 10 10 (b2n p.boostEn) == 1,
    fFloor := if decide (400 ≤ fl ∧ fl ≤ 1600) && fl % 25 == 0 then BitVec.ofNat 11 fl else p.fFloor,
    tThrottle := if decide (70 ≤ tt ∧ tt ≤ 105) then BitVec.ofNat 8 tt else p.tThrottle }

/-- The write takes effect at the next interval (R355). -/
def pwrCfgWrite (p : Pwr) (w : RegW) : Pwr := { p with cfg := pwrCfgFields p.cfg w }

/-! ### Power states -/

/-- A host's write of a target; the access wakes M1 from idle first (R384). -/
def pstateWrite (s : State) (p t : Nat) : State := hostWord s p (fun u => powerTarget u t)

/-- PSTATE_RUN: target = 0b00 (R384). -/
def execPstateRun (p : HostId) (s : State) : Host.Outcome State Fault Refusal := .next (pstateWrite s p.val 0)

/-- PSTATE_REDUCED_CLOCK: target = 0b01 (R384). -/
def execPstateReducedClock (p : HostId) (s : State) : Host.Outcome State Fault Refusal := .next (pstateWrite s p.val 1)

/-- PSTATE_RETENTION: target = 0b10 (R385). -/
def execPstateRetention (p : HostId) (s : State) : Host.Outcome State Fault Refusal := .next (pstateWrite s p.val 2)

/-- Gate the islands that `f` names. -/
def gateIslands (s : State) (f : Nat → Bool) : State :=
  ((List.range 60).filter f).foldl (fun t i => setIsl t i { getIsl t i with gated := true }) s

/-- RETENTION_PORT_GATE (R385, R354): only always-on and timebase keep their clocks. -/
def execRetentionPortGate (s : State) : Host.Outcome State Fault Refusal :=
  .next (if s.boot.pstate == 3 then
    gateIslands { s with boot := { s.boot with gated := true } } (fun i => i != 57 && i != 59)
    else s)

/-- No admitted work, no maintenance, no fetch (R384). -/
def noWork (s : State) : Bool :=
  !s.ctxs.any (fun e => !e.2.admitted.isEmpty || !e.2.fetched.isEmpty || (e.2.st == 1 && e.2.producer != e.2.fetch) ||
    e.2.dbRead || e.2.activating) &&
  !s.rgns.any (fun e => !e.2.running.isEmpty || !e.2.queued.isEmpty)

/-- IDLE_ENTRY (R384, R354). -/
def execIdleEntry (s : State) : Host.Outcome State Fault Refusal :=
  .next (if s.boot.ready && s.boot.pstate == 0 && s.pwr.autoIdle && !inTransition s && noWork s then
    gateIslands { s with boot := { s.boot with pstate := 2 } } (fun i => decide (i < 52) || i == 58)
    else s)

/-! ### The power controller (R355, R401) -/

/-- The highest point of the array islands. -/
def arrayTop (p : Pwr) : Nat := if p.now.boostEn then 1850 else 1600

/-- One step down: arrays to f_floor, then Side Path, then staging, each to its low end. -/
def stepDown (p : Pwr) : Pwr :=
  if p.capArray > p.now.fFloor.toNat then { p with capArray := max p.now.fFloor.toNat (p.capArray - 25) }
  else if p.capSide > 800 then { p with capSide := p.capSide - 25 }
  else if p.capStaging > 800 then { p with capStaging := p.capStaging - 25 }
  else p

/-- One step up, in the reverse order. -/
def stepUp (p : Pwr) : Pwr :=
  if p.capStaging < 1600 then { p with capStaging := p.capStaging + 25 }
  else if p.capSide < 2000 then { p with capSide := p.capSide + 25 }
  else if p.capArray < arrayTop p then { p with capArray := min (arrayTop p) (p.capArray + 25) }
  else p

/-- The reduced-clock limit follows its target by the same steps (R384): down to f_floor, or up until it limits the arrays no more. -/
def stepReduced (p : Pwr) (reduced : Bool) : Pwr :=
  if reduced then
    let f := p.now.fFloor.toNat
    let r := if p.rcPoint < f then min f (p.rcPoint + 25) else max f (p.rcPoint - 25)
    { p with rcPoint := r, moving := p.moving && decide (f < r) }
  else if p.capArray ≤ p.rcPoint + 25 then { p with rcPoint := 1850, moving := false }
  else { p with rcPoint := p.rcPoint + 25 }

/-- The points after an interval with an average of `avg` mW and a cap of `cap` W. DESIGN CHOICE (log 46): arrays outside the range that
a changed f_floor or boost_en leaves step back into it first, one step per interval. -/
def controlStep (p : Pwr) (avg cap : Nat) : Pwr :=
  if arrayTop p < p.capArray then { p with capArray := max (arrayTop p) (p.capArray - 25) }
  else if p.capArray < p.now.fFloor.toNat then { p with capArray := min p.now.fFloor.toNat (p.capArray + 25) }
  else if avg > 1000 * cap then stepDown p
  else if 100 * avg < 98 * (1000 * cap) then stepUp p
  else p

/-- The cap holds some island below its target. -/
def capBinding (p : Pwr) : Bool := decide (p.capArray < 1600) || decide (p.capSide < 2000) || decide (p.capStaging < 1600)

/-- An interval: ENG_PWR_CFG as written comes into force, the points step, and a power state that the arrays were stepping to is
reached. -/
def powerInterval (s : State) (avg : Nat) (mw : List Nat) : State :=
  let s0 := { s with pwr := { s.pwr with now := s.pwr.cfg } }
  let p1 := controlStep s0.pwr avg (capInForce s0)
  let p2 := { stepReduced p1 (s.boot.pstate == 1) with
                avgMw := avg, binding := capBinding p1,
                islandMw := ((List.range 60).map (fun i => (i, mw.getD i 0))) }
  let s1 := targetNext { s with pwr := p2 }
  if capBinding p1 then addCnt s1 10 10 else s1

/-- POWER_CONTROL_INTERVAL (R355): every 10 µs, from regulator current sense. -/
def execPowerControlInterval (avgMw : Nat) (islandMw : List Nat) (s : State) : Host.Outcome State Fault Refusal :=
  .next (if powered s && s.boot.pstate != 3 then powerInterval s avgMw islandMw else s)

/-! ### Thermal throttling (R356) -/

/-- Islands that are never throttled (R355). -/
def neverThrottled (i : Nat) : Bool :=
  match islKind i with
  | .memPort _ => true
  | .hostPort _ => true
  | .fabric _ => true
  | .alwaysOn => true
  | _ => false

/-- The sites whose heat lowers an island: its own, and site 31 for an array (R357). -/
def sitesOf (i : Nat) : List Nat := if i < 16 then [i, 31] else [islSite i]

/-- An island's thermal limit after an interval (R356): 25 MHz below the point it runs at while a site of it is above t_throttle, and
25 MHz more, until it is gone, once every one of them has fallen 2 degrees below. -/
def thermalStep (s : State) (temps : Tbl Int) (i : Nat) : Option Nat :=
  let lim : Int := 16 * (s.pwr.now.tThrottle.toNat : Int)
  let old := (s.pwr.thermal.find? (fun e => e.1 == i)).map (·.2)
  if neverThrottled i then none
  else if (sitesOf i).any (fun k => decide (tget 0 temps k > lim)) then some (max (islLow i) (islFreq s i - 25))
  else if (sitesOf i).all (fun k => decide (tget 0 temps k ≤ lim - 32)) then
    old.bind (fun f => if islTop s.pwr i ≤ f + 25 then none else some (f + 25))
  else old

/-- A thermal trip: dispatch stops, the array islands are gated, and a board-level fault is reported. -/
def thermalTrip (s : State) (site : Nat) : State :=
  gateIslands (boardFault { s with pwr := { s.pwr with tripped := true } } 12 0x13 0 site) (fun i => decide (i < 16))

def thermalInterval (s : State) (ts : List Int) : State :=
  let s0 := { s with pwr := { s.pwr with now := { s.pwr.now with tThrottle := s.pwr.cfg.tThrottle } } }
  let temps := (List.range 32).map (fun k => (k, ts.getD k (tget 0 s.pwr.temps k)))
  let hot := temps.any (fun e => decide (e.2 > 16 * (s0.pwr.now.tThrottle.toNat : Int)))
  let p := { s0.pwr with
    temps := temps,
    maxTemps := (List.range 32).map (fun k => (k, max (tget 0 s.pwr.maxTemps k) (tget 0 temps k))),
    thermal := (List.range 60).flatMap (fun i => ((thermalStep s0 temps i).map (fun f => (i, f))).toList),
    throttled := hot }
  let s1 := { s with pwr := p }
  let s2 := if hot then addCnt s1 11 10 else s1
  match temps.find? (fun e => decide (e.2 ≥ 1760)) with
  | some e => if s.pwr.tripped then s2 else thermalTrip s2 e.1
  | none => s2

/-- THERMAL_INTERVAL (R356): every 10 µs; temperatures in 1/16 of a degree. -/
def execThermalInterval (temps : List Int) (s : State) : Host.Outcome State Fault Refusal :=
  .next (if powered s then thermalInterval s temps else s)

end Sys2Proof.Machine
end

