-- ==== Sys2Proof/Machine/Registers.lean ====
section
/-!
DEFINITION. The register window (R386 to R406): what each register reads, what a write of it does, and the
commands that are writes of one register.
-/

namespace Sys2Proof.Machine

/-! ### Reads -/

/-- The word of MNT_OWNER (R369). -/
def ownerWord (s : State) : Nat := s.mnt.holder.toNat + 16 * b2n s.mnt.mainDown + 32 * b2n s.mnt.refused

/-- States packed three bits each. -/
def packStates (s : State) (k : UnitKind) (n : Nat) : Nat :=
  ((List.range n).map (fun i => ustateCode (unitSt s k i) * 8 ^ i)).foldl (· + ·) 0

/-- The word of ENG_STATUS (R365). -/
def statusWord (s : State) : Nat :=
  b2n s.boot.ready + 2 * s.boot.phase.toNat + 16 * b2n s.boot.fail + 32 * b2n s.boot.warmHeld + 256 * s.boot.pstate.toNat

/-- Ones in a map. -/
def ones (m : BitVec 16) : Nat := ((List.range 16).filter (fun i => m.getLsbD i)).length

/-- The word of ENG_FUSE_VIEW and READ_FUSE_VIEW (R395). -/
def fuseWord (s : State) : Nat :=
  (if s.cfg.regions == 1 then 0 else if s.cfg.regions == 2 then 1 else 2) + 2 ^ 16 * s.boot.fuse.toNat +
  2 ^ 32 * ones s.boot.fuse + 2 ^ 40

/-- The 32 bytes of a fault-log entry (R324). -/
def flogBytes (e : FlogEntry) : List Byte :=
  leBytes 8 e.ts.toNat ++
  leBytes 4 (e.cls.toNat + 8 * b2n e.corrupt + 16 * e.kind.toNat + 256 * e.source.toNat + 2 ^ 16 * e.index.toNat +
    2 ^ 21 * e.region.toNat + 2 ^ 24 * e.count.toNat) ++
  leBytes 4 e.ctx.toNat ++ leBytes 4 e.ring.toNat ++ leBytes 4 e.detail.toNat ++ leBytes 8 e.addr.toNat

/-- Entry `j` of the log; a free entry reads as zero (R397). -/
def flogAt (s : State) (j : Nat) : List Byte :=
  if thas s.flog.entries j then flogBytes (tget (flogBase s 0 0 0 0 0) s.flog.entries j) else List.replicate 32 0

/-- The activities of a list as bits by their codes. -/
def actBits (l : List MaintAct) : Nat :=
  ((List.range 7).filter (fun i => l.any (fun a => a.code.val == i))).foldl (fun m i => m + 2 ^ i) 0

/-- Registers of the engine block (R392). -/
def readEngine (s : State) (off : Nat) : Option Nat :=
  match off with
  | 0x00000 => some 0x000001FF01000101
  | 0x00008 => some s.regs.speaks.toNat
  | 0x00010 => some s.regs.agreed.toNat
  | 0x00018 => some (statusWord s)
  | 0x00020 => some (fuseWord s)
  | 0x00028 => some 0
  | 0x00030 => some s.regs.ctxBase.toNat
  | 0x00038 => some s.regs.pollNs.toNat
  | 0x00040 => some (s.regs.sideThreshold.toNat + 256 * b2n s.regs.sideFallback)
  | 0x00048 => some (s.regs.quantum.toNat + 2 ^ 16 * s.regs.qdepth.toNat + 2 ^ 20 * s.regs.starveUs.toNat)
  | 0x00050 => some (b2n s.regs.preloadEn + 2 * b2n s.regs.specEn + 4 * b2n s.regs.prefetchEn +
      16 * s.regs.specPasses.toNat + 256 * s.regs.confMin.toNat)
  | 0x00058 => some (b2n s.regs.winEn + 2 ^ 16 * s.regs.winBase.toNat + 2 ^ 48 * s.regs.waitPoll.toNat)
  | 0x00060 => some (s.pwr.cfg.capW.toNat + 2 ^ 10 * b2n s.pwr.cfg.boostEn + 2 ^ 16 * s.pwr.cfg.fFloor.toNat + 2 ^ 32 * s.pwr.cfg.tThrottle.toNat)
  | 0x00068 => some (s.pwr.target.toNat + 4 * b2n s.pwr.autoIdle + 8 * b2n s.pwr.retRefused + 256 * s.pwr.idleUs.toNat)
  | 0x00070 => some (s.regs.irqAddr.toNat + 2 ^ 63 * b2n s.regs.irqEn)
  | 0x00078 => some s.regs.irqData.toNat
  | 0x00080 => some (s.flog.next.toNat + 2 ^ 16 * s.flog.written.toNat)
  | 0x10000 => some (s.regs.engineAsid.toNat +
      ((List.range 4).foldl (fun m p => m + 2 ^ (16 + p) * b2n (getHp s p).up) 0) +
      ((List.range 16).foldl (fun m q => m + 2 ^ (32 + q) * b2n (getMp s q).up) 0))
  | 0x20000 => some (sbdPen.toNat + 2 ^ 32 * s.cfg.staticAddr.toNat + 2 ^ 40 * s.sbd.dynAddr.toNat + 2 ^ 48 * s.sbd.eid.toNat +
      2 ^ 56 * b2n s.sbd.session)
  | 0x20008 => some (s.sbd.queue.length + 32 * b2n s.sbd.ovf)
  | 0x30000 => some 0
  | 0x30008 => some (packStates s .array 16)
  | 0x30010 => some (packStates s .region 4 + 2 ^ 12 * packStates s .side 4)
  | 0x30018 => some (packStates s .port 16)
  | 0x30020 => some (ownerWord s)
  | 0x30028 => some (s.mnt.streamCtx.toNat + 2 ^ 16 * s.mnt.streamArrays.toNat)
  | 0x30030 => some 0
  | 0x30038 => some ((List.range 4).foldl (fun m n =>
      m + 2 ^ (16 * n) * actBits (getRgn s n).running + 2 ^ (16 * n + 8) * actBits ((getRgn s n).queued.map (·.2))) 0)
  | 0x38000 => some s.regs.snapBase.toNat
  | 0x38008 => some s.regs.periodMs.toNat
  | 0x38010 => some (s.pwr.avgMw + 2 ^ 32 * capInForce s + 2 ^ 42 * b2n s.pwr.binding + 2 ^ 43 * b2n s.pwr.throttled)
  | o =>
    if decide (0x08000 ≤ o ∧ o < 0x0C000) then some (leNat ((flogAt s ((o - 0x08000) / 32)).drop (o % 32) |>.take 8))
    else if decide (0x10100 ≤ o ∧ o < 0x10180) then
      let q := getMp s ((o - 0x10100) / 8)
      some (q.ce.toNat + 2 ^ 32 * q.ue.toNat + 2 ^ 48 * q.poison.toNat)
    else if decide (0x3F000 ≤ o ∧ o < 0x3F100) then some (tget 0 s.tlm.cnt ((o - 0x3F000) / 8)).toNat
    else none

/-- RGNn_SPARES (R403). -/
def sparesWord (x : Region) : Nat :=
  x.spares.length + ((List.range 4).foldl (fun m i => m + 2 ^ (4 + 9 * i) * x.spares.getD i 0) 0)

/-- Registers of an array block (R405, R406); the whole block of an ABSENT array reads 0 (R390). -/
def readArray (s : State) (a off : Nat) : Option Nat :=
  let x := getArr s a
  if unitSt s .array a == .absent then some 0
  else if off == 0x40 then some (x.bandLayout.toNat + 16 * x.bandOcc.toNat + 256 * x.bandFenced.toNat)
  else if off < 0x40 then some (tget 0 x.cnt (off / 8)).toNat
  else none

/-- Registers of a region block (R402 to R404). -/
def readRegion (s : State) (n off : Nat) : Option Nat :=
  let x := getRgn s n
  if off == 0x10 then some (sparesWord x)
  else if off < 0xA0 then some (tget 0 x.cnt (off / 8)).toNat
  else if off == 0xC000 then some (x.lanes.toNat + 2 ^ 32 * x.laneMis.toNat)
  else if off == 0xC008 then some (b2n x.selfDone + 2 * b2n x.selfPass + 2 ^ 32 * x.selfFailed.toNat)
  else if decide (0x10000 ≤ off ∧ off < 0x20000) then readArray s (4 * n + (off - 0x10000) / 0x4000) (off % 0x4000)
  else none

/-- What an 8 B register reads at a window offset that is a multiple of 8; none where no register lies (R390). -/
def readReg (s : State) (off : Nat) : Option Nat :=
  if off < 0x40000 then readEngine s off
  else
    let n := off / 0x40000 - 1
    if n < 4 && configured s n then readRegion s n (off % 0x40000) else none

/-! ### Writes -/

/-- A field that spans both halves after a write (R386): the field's word once both halves are written, and a
free value of 64 bits while one of them is not. -/
def spanWord (s : State) (off : Nat) (w : RegW) : Nat × State :=
  let rest := s.regs.halves.filter (fun h => h.1 != off)
  if w.lo && w.hi then (w.v, { s with regs := { s.regs with halves := rest } })
  else
    match s.regs.halves.find? (fun h => h.1 == off && h.2.1 != w.hi) with
    | some h =>
      (if w.hi then bits w.v 63 32 * 2 ^ 32 + h.2.2.toNat else bits w.v 31 0 + h.2.2.toNat * 2 ^ 32,
       { s with regs := { s.regs with halves := rest } })
    | none =>
      let (f, s1) := freeNext s
      (f.toNat, { s1 with regs := { s1.regs with halves := rest ++ [(off, w.hi, BitVec.ofNat 32 (if w.hi then bits w.v 63 32 else bits w.v 31 0))] } })

/-- ENG_HOST_SPEAKS (R249, R394): 0, and any write while a context is active, is ignored. -/
def speaksWrite (s : State) (v : BitVec 4) : State :=
  if v == 0 || anyActive s then s
  else { s with regs := { s.regs with speaks := v, agreed := if v.toNat < 1 then v else 1 } }

/-- MNT_OWNER (R368, R369): acquire and release; both at once are ignored. -/
def ownerAcquire (s : State) : State :=
  if s.mnt.holder == 0 then { s with mnt := { s.mnt with holder := 1 } } else s

def ownerRelease (s : State) : State :=
  if s.mnt.holder == 1 then { s with mnt := { s.mnt with holder := 0 } } else s

/-- MNT_STREAM_OWNER (R370): the mask keeps only arrays that are DISABLED or FENCED. -/
def streamOwner (s : State) (c : BitVec 12) (arrays : BitVec 16) : State :=
  let keep := (List.range 16).foldl (fun m a =>
    if arrays.getLsbD a && (unitSt s .array a == .disabled || unitSt s .array a == .fenced) then m ||| BitVec.ofNat 16 (1 <<< a) else m)
    (0 : BitVec 16)
  { s with mnt := { s.mnt with streamCtx := c, streamArrays := keep } }

/-- An action that needs the token, by a host that may not hold it (R366). -/
def withToken (s : State) (f : State → State) : State :=
  if holds s .host then f s else { s with mnt := { s.mnt with refused := true } }

/-- ENG_RESET (R372). -/
def resetWrite (s : State) (w : RegW) : State :=
  if !w.lo || bits w.v 7 0 != 0x5A then s
  else
    match bits w.v 9 8 with
    | 1 => withToken s warmAsk
    | 2 => contextAbort s (bits w.v 21 10)
    | 3 => withToken s (fun t => arrayReset t (bits w.v 13 10))
    | _ => s

/-- A write of ENG_DB_POLL_NS (R396): at once where no interval runs, else at the end of the one that does. -/
def pollWrite (s : State) (v : BitVec 32) : State :=
  { s with regs := { s.regs with pollNs := v, pollCur := if s.regs.pollCur == 0 then pollInterval v else s.regs.pollCur } }

/-- A write of an engine register (R387): RW fields, W1C bits and actions; RO registers ignore it. -/
def writeEngine (s : State) (off : Nat) (w : RegW) : State :=
  let g := s.regs
  match off with
  | 0x00008 => if w.lo then speaksWrite s (BitVec.ofNat 4 w.v) else s
  | 0x00028 => resetWrite s w
  | 0x00030 =>
    if anyActive s then s
    else
      let (v, t) := spanWord s off w
      { t with regs := { t.regs with ctxBase := BitVec.ofNat 57 (v / 4096 * 4096) } }
  | 0x00038 => pollWrite s (BitVec.ofNat 32 (w.field 31 0 g.pollNs.toNat))
  | 0x00040 =>
    let th := w.field 4 0 g.sideThreshold.toNat
    { s with regs := { g with sideThreshold := if decide (1 ≤ th ∧ th ≤ 16) then BitVec.ofNat 5 th else g.sideThreshold,
                              sideFallback := w.field 8 8 (b2n g.sideFallback) == 1 } }
  | 0x00048 =>
    let q := w.field 15 0 g.quantum.toNat
    let d := w.field 18 16 g.qdepth.toNat
    { s with regs := { g with quantum := if q == 0 then g.quantum else BitVec.ofNat 16 q,
                              qdepth := if decide (1 ≤ d ∧ d ≤ 4) then BitVec.ofNat 3 d else g.qdepth,
                              starveUs := BitVec.ofNat 12 (w.field 31 20 g.starveUs.toNat) } }
  | 0x00050 =>
    let n := w.field 7 4 g.specPasses.toNat
    let c := w.field 9 8 g.confMin.toNat
    { s with regs := { g with preloadEn := w.field 0 0 (b2n g.preloadEn) == 1, specEn := w.field 1 1 (b2n g.specEn) == 1,
                              prefetchEn := w.field 2 2 (b2n g.prefetchEn) == 1,
                              specPasses := if n == 0 then g.specPasses else BitVec.ofNat 4 n,
                              confMin := if c == 0 then g.confMin else BitVec.ofNat 2 c } }
  | 0x00058 =>
    let p := w.field 55 48 g.waitPoll.toNat
    let s1 := { s with regs := { g with winEn := w.field 0 0 (b2n g.winEn) == 1,
                                        waitPoll := if p == 0 then g.waitPoll else BitVec.ofNat 8 p } }
    let (v, t) := spanWord s1 off w
    { t with regs := { t.regs with winBase := BitVec.ofNat 29 (bits v 44 16) } }
  | 0x00060 => { s with pwr := pwrCfgWrite s.pwr w }
  | 0x00068 =>
    let i := w.field 15 8 s.pwr.idleUs.toNat
    let s1 := { s with pwr := { s.pwr with autoIdle := w.field 2 2 (b2n s.pwr.autoIdle) == 1,
                                           retRefused := s.pwr.retRefused && !w.one 3,
                                           idleUs := if i == 0 then s.pwr.idleUs else BitVec.ofNat 8 i } }
    if w.lo then powerTarget s1 (bits w.v 1 0) else s1
  | 0x00070 =>
    let (v, t) := spanWord s off w
    { t with regs := { t.regs with irqAddr := BitVec.ofNat 57 (bits v 56 2 * 4), irqEn := w.field 63 63 (b2n g.irqEn) == 1 } }
  | 0x00078 => { s with regs := { g with irqData := BitVec.ofNat 32 (w.field 31 0 g.irqData.toNat) } }
  | 0x10000 => { s with regs := { g with engineAsid := BitVec.ofNat 16 (w.field 15 0 g.engineAsid.toNat) } }
  | 0x20008 => { s with sbd := { s.sbd with ovf := s.sbd.ovf && !w.one 5 } }
  | 0x30000 => if w.lo then withToken s (fun t => warmNext (unitWord t .host w.v)) else s
  | 0x30020 =>
    if w.one 2 && w.one 3 then s
    else
      let s1 := { s with mnt := { s.mnt with refused := s.mnt.refused && !w.one 5 } }
      if w.one 2 then ownerAcquire s1 else if w.one 3 then ownerRelease s1 else s1
  | 0x30028 =>
    if w.lo then withToken s (fun t => streamOwner t (BitVec.ofNat 12 w.v) (BitVec.ofNat 16 (bits w.v 31 16))) else s
  | 0x30030 => if w.lo then hostMaint s w.v else s
  | 0x38000 =>
    let (v, t) := spanWord s off w
    let t1 := { t with regs := { t.regs with snapBase := BitVec.ofNat 57 (bits v 56 12 * 4096) } }
    if w.one 60 then snapRequest t1 else t1
  | 0x38008 => { s with regs := { g with periodMs := BitVec.ofNat 16 (w.field 15 0 g.periodMs.toNat) } }
  | _ => s

/-- A register access of 4 or 8 naturally aligned bytes at a register (R341, R386, R390). -/
def accessLegal (s : State) (off size : Nat) : Bool :=
  (size == 4 || size == 8) && off % size == 0 && (readReg s (off / 8 * 8)).isSome

/-- The halves a write covers, with the value in place. -/
def regWrite (off size v : Nat) : RegW :=
  if size == 8 then regW8 v
  else if off % 8 == 0 then { lo := true, hi := false, v := bits v 31 0 }
  else { lo := false, hi := true, v := bits v 31 0 * 2 ^ 32 }

/-- The bytes a register read of 4 or 8 B returns (R341, R386). -/
def readBytes (s : State) (off size : Nat) : List Byte := ((leBytes 8 ((readReg s (off / 8 * 8)).getD 0)).drop (off % 8)).take size

/-- A host-port read with space = 1 (R341, R390): the register's bytes, or ERR where none lies or the access is not 4 or 8 B, naturally
aligned. -/
def registerRead (s : State) (p off size : Nat) : State :=
  if !hostAnswers s p then s
  else
    let s1 := wake s
    respond s1 p (if accessLegal s1 off size then .data (readBytes s1 off size) else .err)

/-- REGISTER_WRITE (R387, R388, R341): answered OK once it has taken effect, ERR where no register lies. Region
and array blocks hold only registers that ignore writes. -/
def registerWrite (s : State) (p off size v : Nat) : State :=
  if !hostAnswers s p then s
  else
    let s1 := wake s
    if accessLegal s1 off size then
      respond (if off < 0x40000 then writeEngine s1 (off / 8 * 8) (regWrite off size v) else s1) p .ok
    else respond s1 p .err

def execRegisterWrite (p : HostId) (off : BitVec 21) (size : Nat) (v : W64) (s : State) : Host.Outcome State Fault Refusal :=
  .next (registerWrite s p.val off.toNat size v.toNat)

/-- HOST_SPEAKS_WRITE (R249, R394). -/
def execHostSpeaksWrite (p : HostId) (v : BitVec 4) (s : State) : Host.Outcome State Fault Refusal :=
  .next (hostWord s p.val (fun t => speaksWrite t v))

/-- UNIT_DISABLE (R315, R317). -/
def execUnitDisable (p : HostId) (u : UnitSel) (s : State) : Host.Outcome State Fault Refusal :=
  .next (tokenWrite s p.val (fun t => warmNext (unitAsk t .host u.kind u.unit.val .disable)))

/-- UNIT_FORCE_DISABLE (R315, R318). -/
def execUnitForceDisable (p : HostId) (u : UnitSel) (s : State) : Host.Outcome State Fault Refusal :=
  .next (tokenWrite s p.val (fun t => warmNext (unitAsk t .host u.kind u.unit.val .forceDisable)))

/-- UNIT_ENABLE (R315, R323). -/
def execUnitEnable (p : HostId) (u : UnitSel) (s : State) : Host.Outcome State Fault Refusal :=
  .next (tokenWrite s p.val (fun t => warmNext (unitAsk t .host u.kind u.unit.val .enable)))

/-- UNIT_FENCE (R315, R318). -/
def execUnitFence (p : HostId) (u : UnitSel) (s : State) : Host.Outcome State Fault Refusal :=
  .next (tokenWrite s p.val (fun t => warmNext (unitAsk t .host u.kind u.unit.val .fence)))

/-- UNIT_DRAIN_DONE (R317, R321, R381). -/
def execUnitDrainDone (u : UnitSel) (s : State) : Host.Outcome State Fault Refusal :=
  .next (drainDone s u.kind u.unit.val)

/-- The self-test of an array enabled or named in MNT_MAINT_REQ runs as an activity of its region; those of the warm reset that ends
retention do not (R323, R374, R381). -/
def testRuns (s : State) (k : UnitKind) (n : Nat) : Bool :=
  k != .array || s.boot.phase == 6 || (getRgn s (n / 4)).running.any (fun a => a.code == 1 && a.array.val == n)

/-- A test's end; an array's self-test also ends as an activity of its region, and the last test of the warm
reset that ends retention sets ready (R374, R381). -/
def unitTestDone (s : State) (k : UnitKind) (n : Nat) (r : TestReport) : State :=
  if unitSt s k n != .testing || !testRuns s k n then s
  else
    let s1 := if k == .region then testRegion s n r else testOne s k n r.pass
    let x := getRgn s1 (regionOf k n)
    warmNext (if k == .array then
      setRgn s1 (n / 4) { x with running := x.running.filter (fun a => !(a.code == 1 && a.array.val == n)) } else s1)

/-- MAINT_ACTIVITY_END (R379, R381, R215). -/
def execMaintActivityEnd (r : RgnId) (act : MaintAct) (pass : Bool) (failLanes : W32) (s : State) :
    Host.Outcome State Fault Refusal := .next (warmNext (endAct s r.val act pass failLanes))

/-- UNIT_TEST_DONE (R323, R374). -/
def execUnitTestDone (u : UnitSel) (r : TestReport) (s : State) : Host.Outcome State Fault Refusal :=
  .next (unitTestDone s u.kind u.unit.val r)

/-- OWNER_ACQUIRE (R368, R369). -/
def execOwnerAcquire (p : HostId) (s : State) : Host.Outcome State Fault Refusal :=
  .next (hostWord s p.val ownerAcquire)

/-- OWNER_RELEASE (R369). -/
def execOwnerRelease (p : HostId) (s : State) : Host.Outcome State Fault Refusal :=
  .next (hostWord s p.val ownerRelease)

/-- STREAM_OWNER_WRITE (R370). -/
def execStreamOwnerWrite (p : HostId) (c : CtxId) (arrays : BitVec 16) (s : State) : Host.Outcome State Fault Refusal :=
  .next (tokenWrite s p.val (fun t => streamOwner t (BitVec.ofNat 12 c.val) arrays))

end Sys2Proof.Machine
end

