-- ==== Sys2Proof/Machine/Sideband.lean ====
section
/-!
DEFINITION. The sideband port (R344 to R347, R400, R368) and test access (R348).
-/

namespace Sys2Proof.Machine

/-! ### Address, endpoint and SPDM -/

/-- ENTDAA (R344). -/
def execEntdaa (addr : BitVec 7) (s : State) : Host.Outcome State Fault Refusal :=
  .next (if sidebandAnswers s then { s with sbd := { s.sbd with dynAddr := addr } } else s)

/-- SETDASA (R344): only where SBD_STATIC_ADDR is nonzero. -/
def execSetdasa (addr : BitVec 7) (s : State) : Host.Outcome State Fault Refusal :=
  .next (if sidebandAnswers s && s.cfg.staticAddr != 0 then { s with sbd := { s.sbd with dynAddr := addr } } else s)

/-- SET_ENDPOINT_ID (R345). -/
def execSetEndpointId (eid : BitVec 8) (s : State) : Host.Outcome State Fault Refusal :=
  .next (if sidebandAnswers s then { s with sbd := { s.sbd with eid := eid } } else s)

/-- The 384 bits of a digest as six words. -/
def digestWords (d : BitVec 384) : List W64 := (List.range 6).map (fun i => BitVec.ofNat 64 (bits d.toNat (64 * i + 63) (64 * i)))

/-- M1's measurements (R345): silicon revision, ENG_VERSION, SHA-384 digest of the fuse view. -/
def measurements (s : State) : List W64 :=
  [1, 0x000001FF01000101] ++ digestWords (Config.sha384 (BitVec.ofNat 64 (fuseWord s)))

/-- What an SPDM request does (R345, R400): a session opens when the finish of a key exchange authenticates both sides. DESIGN CHOICE
(log 46): any other finish, and an end without a session, is answered with an error (answer 5), and a failed finish ends the exchange. -/
def spdmOp (s : State) (req : SpdmReq) : State :=
  match req with
  | .certificate => { s with sbd := { s.sbd with resp := .spdm [Config.spdmAnswer 0] } }
  | .challenge => { s with sbd := { s.sbd with resp := .spdm [Config.spdmAnswer 1] } }
  | .measurements => { s with sbd := { s.sbd with resp := .spdm (measurements s) } }
  | .keyExchange => { s with sbd := { s.sbd with kex := true, resp := .spdm [Config.spdmAnswer 2] } }
  | .finishMutual authentic =>
    if s.sbd.kex && authentic then { s with sbd := { s.sbd with kex := false, session := true, resp := .spdm [Config.spdmAnswer 3] } }
    else { s with sbd := { s.sbd with kex := false, resp := .spdm [Config.spdmAnswer 5] } }
  | .endSession =>
    if s.sbd.session then { s with sbd := { s.sbd with session := false, resp := .spdm [Config.spdmAnswer 4] } }
    else { s with sbd := { s.sbd with resp := .spdm [Config.spdmAnswer 5] } }

/-- SPDM_REQUEST (R345). -/
def execSpdmRequest (req : SpdmReq) (s : State) : Host.Outcome State Fault Refusal :=
  .next (if sidebandAnswers s then spdmOp s req else s)

/-- FAULT_NOTIFY_READ (R347): the oldest queued notification. The in-band interrupt stands while one is queued. -/
def faultNotifyRead (s : State) : State :=
  match s.sbd.queue with
  | [] => s
  | (e, o) :: rest => { s with sbd := { s.sbd with queue := rest, ibi := if rest.isEmpty then none else s.sbd.ibi, resp := .notify e o } }

def execFaultNotifyRead (s : State) : Host.Outcome State Fault Refusal :=
  .next (if sidebandAnswers s then faultNotifyRead s else s)

/-! ### Vendor commands without a session (R346) -/

/-- Bytes as 64-bit words. -/
def wordsOf (bs : List Byte) : List W64 :=
  (List.range (ceilDiv bs.length 8)).map (fun i => BitVec.ofNat 64 (leNat ((bs.drop (8 * i)).take 8)))

/-- GET_TELEMETRY (R346, R359): a section taken live. -/
def telemetryOf (s : State) (sec : TlmSection) : List W64 :=
  match sec with
  | .island => wordsOf (islSection s)
  | .thermal => wordsOf (thermalSection s)
  | .counter => wordsOf (counterSection s)

def execGetTelemetry (sec : TlmSection) (s : State) (h : SbdHead := {}) : Host.Outcome State Fault Refusal :=
  .next (if sbdTakes s h then sbdDone s 0x01 h 0x00 (telemetryOf s sec) else s)

/-- READ_FAULT_LOG (R346, R324): the entries written from an index up. -/
def flogFrom (s : State) (idx : Nat) : List W64 :=
  (s.flog.entries.filter (fun e => decide (idx ≤ e.1))).flatMap (fun e => wordsOf (flogBytes e.2))

/-- Entries that fail their own RS check when read are marked corrupt (R298, R324). -/
def flogCheck (s : State) (bad : List Nat) : State :=
  { s with flog := { s.flog with entries := tmap (fun k e => { e with corrupt := e.corrupt || bad.contains k }) s.flog.entries } }

/-- READ_FAULT_LOG (R298, R324, R346). `bad`: entries whose RS check fails (log 7). -/
def execReadFaultLog (idx : Fin 512) (bad : List (Fin 512)) (s : State) (h : SbdHead := {}) : Host.Outcome State Fault Refusal :=
  .next (if sbdTakes s h then sbdDone (flogCheck s (bad.map (·.val))) 0x02 h 0x00 (flogFrom (flogCheck s (bad.map (·.val))) idx.val) else s)

/-- READ_ACCOUNT (R346, R358): completion 0x04 while the main side is down. -/
def execReadAccount (c : CtxId) (s : State) (h : SbdHead := {}) : Host.Outcome State Fault Refusal :=
  .next (if !sbdTakes s h then s
    else if s.mnt.mainDown then sbdDone s 0x03 h 0x04
    else sbdDone (wake s) 0x03 h 0x00 (wordsOf (acctBytes (getAcct s c.val))))

/-- READ_JOURNAL (R346, R303): the summary view of 32 entries. -/
def journalFrom (x : Region) (first : Nat) : List W64 :=
  (List.range 32).flatMap (fun k => if first + k < 1024 then wordsOf (journalSummary x (first + k)) else [])

def execReadJournal (r : RgnId) (first : Fin 1024) (s : State) (h : SbdHead := {}) : Host.Outcome State Fault Refusal :=
  .next (if !sbdTakes s h then s
    else if !configured s r.val then sbdDone s 0x04 h 0x03
    else sbdDone (wake s) 0x04 h 0x00 (journalFrom (getRgn s r.val) first.val))

/-- READ_FUSE_VIEW (R346, R395). -/
def execReadFuseView (s : State) (h : SbdHead := {}) : Host.Outcome State Fault Refusal :=
  .next (if sbdTakes s h then sbdDone s 0x05 h 0x00 [BitVec.ofNat 64 (fuseWord s)] else s)

/-! ### Vendor commands inside a session (R346) -/

/-- A session command: completion 0x05 outside a session, and nothing else happens. -/
def inSession (s : State) (cmd : Byte) (h : SbdHead) (f : State → State) : State :=
  if !sbdTakes s h then s else if !s.sbd.session then sbdDone s cmd h 0x05 else f s

/-- A session command that also needs the token (R366). -/
def inSessionToken (s : State) (cmd : Byte) (h : SbdHead) (f : State → State) : State :=
  inSession s cmd h (fun t => if holds t .mgmt then f t else sbdDone t cmd h 0x02)

/-- UNIT_REQUEST (R346, R315, R364): held before ready. -/
def sbdUnit (s : State) (h : SbdHead) (w : W32) : State :=
  inSessionToken s 0x10 h (fun t =>
    if (unitActionOf w.toNat).isNone then sbdDone t 0x10 h 0x03
    else if !t.boot.ready then sbdDone { t with boot := { t.boot with heldSide := t.boot.heldSide ++ [(false, w)] } } 0x10 h 0x01
    else sbdDone (unitWord (wake t) .mgmt w.toNat) 0x10 h 0x00)

def execUnitRequest (w : W32) (s : State) (h : SbdHead := {}) : Host.Outcome State Fault Refusal := .next (sbdUnit s h w)

/-- WARM_RESET (R346, R373, R385): also the reset that ends retention. -/
def execWarmReset (s : State) (h : SbdHead := {}) : Host.Outcome State Fault Refusal :=
  .next (inSessionToken s 0x11 h (fun t => sbdDone (warmAsk t) 0x11 h 0x00))

/-- MAINT_REQUEST (R346, R377, R382). -/
def execMaintRequest (w : W32) (s : State) (h : SbdHead := {}) : Host.Outcome State Fault Refusal := .next (sbdMaint s h w.toNat)

/-- OWNERSHIP (R368): a free token goes to the asker; while the main side is down the management controller
takes it from the host. -/
def ownershipOp (s : State) (h : SbdHead) (acquire : Bool) : State :=
  if acquire then
    if s.mnt.holder == 0 || s.mnt.holder == 2 || s.mnt.mainDown then sbdDone { s with mnt := { s.mnt with holder := 2 } } 0x13 h 0x00
    else sbdDone s 0x13 h 0x02
  else if s.mnt.holder == 2 then sbdDone { s with mnt := { s.mnt with holder := 0 } } 0x13 h 0x00
  else sbdDone s 0x13 h 0x02

def execOwnership (acquire : Bool) (s : State) (h : SbdHead := {}) : Host.Outcome State Fault Refusal :=
  .next (inSession s 0x13 h (fun t => ownershipOp t h acquire))

/-- SET_POWER_CAP (R346, R355, R366): the ENG_PWR_CFG word; no token. -/
def execSetPowerCap (w : W64) (s : State) (h : SbdHead := {}) : Host.Outcome State Fault Refusal :=
  .next (inSession s 0x14 h (fun t => sbdDone { t with pwr := pwrCfgWrite t.pwr (regW8 w.toNat) } 0x14 h 0x00))

/-- TEST_UNLOCK (R348). -/
def execTestUnlock (s : State) (h : SbdHead := {}) : Host.Outcome State Fault Refusal :=
  .next (inSession s 0x15 h (fun t => sbdDone { t with tap := { t.tap with unlocked := true } } 0x15 h 0x00))

/-! ### The TAP (R348) -/

/-- Some unit is LIVE. -/
def anyLive (s : State) : Bool :=
  s.units.array.any (fun e => e.2.st == .live) || s.units.side.any (fun e => e.2.st == .live) ||
  s.units.region.any (fun e => e.2.st == .live) || s.units.port.any (fun e => e.2.st == .live)

/-- Test access works: rails present, test island not lost (R312). -/
def tapWorks (s : State) : Bool := !s.boot.off && !(getIsl s 58).out

/-- An instruction that isolates the wrapper or drives internal state is refused while a unit is LIVE. -/
def tapIntrusive (s : State) (ins : TapIns) (code : Nat) : State :=
  if anyLive s then { s with tap := { s.tap with status := 1 } }
  else { s with tap := { s.tap with ir := ins, status := 0, out := Config.tapNetwork code } }

/-- Before TEST_UNLOCK every instruction but IDCODE acts as BYPASS. -/
def tapOp (s : State) (ins : TapIns) : State :=
  if !s.tap.unlocked then { s with tap := { s.tap with ir := .bypass, out := 0 } }
  else
    match ins with
    | .bypass => { s with tap := { s.tap with ir := .bypass, out := 0 } }
    | .isolate code => tapIntrusive s ins code
    | .drive code => tapIntrusive s ins code
    | .network code => { s with tap := { s.tap with ir := ins, out := Config.tapNetwork code } }

/-- TAP_INSTRUCTION (R348). -/
def execTapInstruction (ins : TapIns) (s : State) : Host.Outcome State Fault Refusal :=
  .next (if tapWorks s then tapOp s ins else s)

/-- The 32-bit IDCODE (R348). -/
def idcodeWord : W64 := BitVec.ofNat 64 (2 ^ 28 + 2 ^ 12 * 0x0F01 + 2 * Config.manufacturer.toNat + 1)

/-- IDCODE (R348). -/
def execIdcode (s : State) : Host.Outcome State Fault Refusal :=
  .next (if tapWorks s then { s with tap := { s.tap with out := idcodeWord } } else s)

end Sys2Proof.Machine
end

