-- ==== Sys2Proof/Machine/Runnable.lean ====
section
/-!
DEFINITION. When an admitted descriptor may start (R250 to R252, R286, R287), and the form every descriptor
command shares.
-/

namespace Sys2Proof.Machine

/-- The admitted descriptor of a ring index. -/
def findAdm (x : Context) (ring : W32) : Option Adm := x.admitted.find? (fun d => d.ring == ring)

/-- The descriptors of the context admitted before one and still without a record. -/
def earlier (x : Context) (ring : W32) : List Adm := x.admitted.takeWhile (fun d => d.ring != ring)

/-- The descriptors admitted after one. -/
def later (x : Context) (ring : W32) : List Adm := (x.admitted.dropWhile (fun d => d.ring != ring)).drop 1

/-- Every sub-tile of the descriptor has been emitted, or it has none to emit (R250). -/
def emittedAll (d : Adm) : Bool :=
  d.result.isSome || (match d.total with
    | some n => d.emitted == n
    | none => !(opCompute (dOpcode d.desc) || dOpcode d.desc == 8 || dOpcode d.desc == 0x13 || dOpcode d.desc == 0x30) &&
        (!opMask (dOpcode d.desc) || d.mask.any (fun m => decide (1 ≤ m.phase))))

/-- An earlier WAITV has not completed (R252). -/
def waitOpen (x : Context) (ring : W32) : Bool :=
  (earlier x ring).any (fun e => dOpcode e.desc == 0x23 && e.result.isNone)

/-- An earlier WAITV holds the descriptor: it has not completed (R252), or it has with OK and has no record yet (R287). -/
def waitHeld (x : Context) (ring : W32) : Bool :=
  (earlier x ring).any (fun e => dOpcode e.desc == 0x23 && e.result.all (fun r => r.status == .ok))

/-- An earlier operation with ACQUIRE has no record yet (R287). -/
def acquireHeld (x : Context) (ring : W32) : Bool :=
  (earlier x ring).any (fun e => opRemote (dOpcode e.desc) && dAcquire e.desc)

/-- An earlier descriptor conflicts in an index (R251). -/
def indexHeld (x : Context) (d : Adm) : Bool := (earlier x d.ring).any (fun e => idxConflict e d)

/-- The target class a remote operation is ordered in (R286): true for scratchpad. -/
def remoteClass (d : List W64) : Bool :=
  match remoteSpace (if dOpcode d == 0x21 then reB d else reA d) with
  | .mem => false
  | .spad _ => true

/-- A remote operation reads or writes memory. -/
def remoteMem (d : List W64) : Bool :=
  remoteSpace (reA d) == .mem || ((dOpcode d == 0x20 || dOpcode d == 0x21) && remoteSpace (reB d) == .mem)

/-- An earlier remote operation of the same class has not taken effect, or one on memory has no acknowledgement or read data yet
(R286). -/
def remoteHeld (s : State) (c : Nat) (d : Adm) : Bool :=
  opRemote (dOpcode d.desc) &&
  (earlier (getCtx s c) d.ring).any (fun e =>
    opRemote (dOpcode e.desc) && (remoteClass e.desc == remoteClass d.desc || (remoteMem e.desc && remoteMem d.desc)) &&
    (e.result.isNone || writesOutstanding s c e.ring || readsOutstanding s c e.ring))

/-- RELEASE waits for every earlier record (R287). -/
def releaseHeld (x : Context) (d : Adm) : Bool :=
  opRemote (dOpcode d.desc) && dRelease d.desc && !(earlier x d.ring).isEmpty

/-- The descriptor is admitted, has not completed, and nothing holds its dispatch. -/
def dispatchable (s : State) (c : Nat) (d : Adm) : Bool :=
  let x := getCtx s c
  running s && takesWork x && d.result.isNone && !waitHeld x d.ring && !acquireHeld x d.ring && !indexHeld x d &&
  (earlier x d.ring).all emittedAll && !remoteHeld s c d && !releaseHeld x d

/-- The descriptor has not begun: nothing emitted, nothing issued, not active. -/
def unstarted (s : State) (c : Nat) (d : Adm) : Bool :=
  d.total.isNone && d.emitted == 0 && d.active.isNone && !d.mask.any (fun m => decide (1 ≤ m.phase)) &&
  !writesOutstanding s c d.ring && !readsOutstanding s c d.ring

/-- A speculation on the descriptor awaits its comparison, which comes before its dispatch (R272). -/
def specPends (s : State) (c : Nat) (d : Adm) : Bool := s.arrs.any (fun e => e.2.spec.any (fun b => !b.confirmed && ofDesc c d.ring b.sub))

/-- A descriptor command: the admitted descriptor at ring index `i` of context `c`, where its opcode is `op`
and it may start. In every other state nothing happens (log 6). -/
def descCommand (s : State) (c : Nat) (i : W32) (op : Nat) (f : State → Adm → State) : State :=
  match findAdm (getCtx s c) i with
  | none => s
  | some d => if dOpcode d.desc == op && dispatchable s c d && !specPends s c d && unstarted s c d then f s d else s

/-- A descriptor completes with a result. -/
def finish (s : State) (c : Nat) (d : Adm) (res : Result) : State := finishDesc s c d.ring res

/-- Change an admitted descriptor. -/
def setAdm (s : State) (c : Nat) (ring : W32) (f : Adm → Adm) : State :=
  setCtx s c { getCtx s c with admitted := (getCtx s c).admitted.map (fun d => if d.ring == ring then f d else d) }

/-- A poisoned operand that region `r` reads (R309): logged with source 0x15, and the descriptor ends with UNRECOVERABLE. -/
def poisonFail (s : State) (r c : Nat) (ring : W32) (addr : Nat) : State :=
  endDesc (logFault s (poisonEntry s r c ring addr)) c ring .unrecoverable

/-- What an access to memory for a context meets. -/
inductive Access where
  | ok
  | xlate (a : Nat)
  | poison (a : Nat)
  deriving DecidableEq, Repr

/-- A read of `n` bytes of memory under a context's ASID. -/
def memAccess (s : State) (c a n : Nat) : Access :=
  match xlateAt s.env (ceAsid (getCtx s c).ent) a n with
  | some f => .xlate f
  | none => if poisonedAt s.env a n then .poison a else .ok

/-- A write of `n` bytes of memory: poison is a matter of reads. -/
def memWriteAccess (s : State) (c a n : Nat) : Access :=
  match xlateAt s.env (ceAsid (getCtx s c).ent) a n with
  | some f => .xlate f
  | none => .ok

end Sys2Proof.Machine
end

