-- ==== Sys2Proof/Machine/Remote.lean ====
section
/-!
DEFINITION. Remote memory operations (R278 to R288, R291 to R295), WAITV (R252, R285), and the scratchpad window
of the host ports (R289, R290).
-/

namespace Sys2Proof.Machine

/-! ### Reading scratchpad for a reader outside the tiles -/

/-- An address of region `r` lies in the residency area of an active context (R268). -/
def inResidency (s : State) (r a : Nat) : Bool :=
  isLive s .region r && s.ctxs.any (fun e => e.2.st == 1 &&
    decide (ceResBase e.2.ent ≤ a ∧ a < ceResBase e.2.ent + ceResBytes e.2.ent))

/-- `n` bytes of a scratchpad (R282): the journal's summary view, unspecified bytes in a residency area. -/
def spadRead (s : State) (r : Nat) : Nat → Nat → List Byte × State
  | _, 0 => ([], s)
  | a, n + 1 =>
    let (bs, t) := spadRead s r (a + 1) n
    if inResidency s r a then
      let (f, t1) := freeNext t
      (BitVec.ofNat 8 f.toNat :: bs, t1)
    else (spadByte s r a :: bs, t)

/-- Why a remote operation cannot start. -/
inductive SrcRead where
  | ok
  | xlate (a : Nat)
  | poison (a : Nat)
  | absent
  deriving DecidableEq, Repr

/-- What the read of a source meets (R279, R291, R309, R321). -/
def srcAccess (s : State) (c : Nat) (a : W64) (n : Nat) : SrcRead :=
  match remoteSpace a with
  | .spad r => if isLive s .region r then .ok else .absent
  | .mem =>
    match memAccess s c (remoteAddr a) n with
    | .ok => .ok
    | .xlate f => .xlate f
    | .poison f => .poison f

/-- What the write of a destination meets. -/
def dstAccess (s : State) (c : Nat) (a : W64) (n : Nat) : SrcRead :=
  match remoteSpace a with
  | .spad r => if isLive s .region r then .ok else .absent
  | .mem =>
    match memWriteAccess s c (remoteAddr a) n with
    | .xlate f => .xlate f
    | _ => .ok

/-! ### Carrying a memory operation (R302) -/

/-- The pieces of a range that lie within one 64 B line each (R281). -/
def linePieces : Nat → Nat → List Byte → List (Nat × List Byte)
  | 0, _, _ => []
  | f + 1, a, bs =>
    match bs with
    | [] => []
    | _ =>
      let n := 64 - a % 64
      (a, bs.take n) :: linePieces f (a + n) (bs.drop n)

/-- Queue a request of a descriptor on the port its address selects (R26, R322). -/
def queuePort (s : State) (c : Nat) (ring : W32) (r op aop cls a : Nat) (bs : List Byte) (sub : Option (Nat × Nat) := none) : State :=
  queueOut s (.desc c ring) (ceAsid (getCtx s c).ent) r op aop cls a bs sub

/-- The region that journals a remote operation on address `a` (R302): the target's, or the carrier. -/
def remoteRegion (s : State) (c : Nat) (a : W64) : Option Nat :=
  match remoteSpace a with
  | .spad r => if isLive s .region r then some r else none
  | .mem => carrier s c

/-- A remote operation issues with a journal entry of its target region (R301, R302): without a live region it ends with
ARRAYS_ABSENT, and without a free entry it waits. -/
def remoteIssue (s : State) (c : Nat) (d : Adm) (a : W64) (f : State → Nat → State) : State :=
  match remoteRegion s c a with
  | none => finish s c d (plainResult .arraysAbsent)
  | some r =>
    match freeJournal (getRgn s r) with
    | none => s
    | some k => f (putJournal s r k (remoteJournal c d false false)) r

/-- The end of a remote operation that cannot access an address. -/
def remoteFail (s : State) (c : Nat) (d : Adm) : SrcRead → State
  | .ok => s
  | .xlate f => finish s c d { plainResult .xlateFault with result := BitVec.ofNat 64 f }
  | .poison f => poisonFail s ((carrier s c).getD 0) c d.ring f
  | .absent => finish s c d (plainResult .arraysAbsent)

/-! ### RWRITE and RREAD (R281, R282): the source is read -/

/-- The source and destination of an RWRITE, or of an RREAD. -/
def copySrc (d : List W64) : W64 := if dOpcode d == 0x21 then reA d else reB d
def copyDst (d : List W64) : W64 := if dOpcode d == 0x21 then reB d else reA d

/-- The reads of a source: a request for the bank of each line, or through the ports of region `r` (R23, R26). DESIGN CHOICE (log
44): a memory read is of class 1 of R27, which names none. -/
def copyReads (s : State) (c r : Nat) (d : Adm) : State :=
  let a := copySrc d.desc
  let n := reLen d.desc
  match remoteSpace a with
  | .spad q => (linePieces (n + 1) (remoteAddr a) (List.replicate n 0)).foldl (fun u p => askBank u q 3 p.1 (.fetch p.2.length) (.desc c d.ring)) s
  | .mem => queueReads s (.desc c d.ring) (ceAsid (getCtx s c).ent) r 1 (remoteAddr a) n

/-- An RWRITE or RREAD issues. -/
def copyOp (s : State) (c : Nat) (d : Adm) : State :=
  match srcAccess s c (copySrc d.desc) (reLen d.desc), dstAccess s c (copyDst d.desc) (reLen d.desc) with
  | .ok, .ok => remoteIssue s c d (copyDst d.desc) (fun u r => copyReads u c (match remoteSpace (copySrc d.desc) with
      | .spad _ => r
      | .mem => (carrier s c).getD r) d)
  | .ok, e => remoteFail s c d e
  | e, _ => remoteFail s c d e

/-- RWRITE (R281, R293). -/
def execRwrite (c : CtxId) (i : W32) (s : State) : Host.Outcome State Fault Refusal :=
  .next (descCommand s c.val i 0x20 (fun t d => copyOp t c.val d))

/-- RREAD (R282, R268, R303). -/
def execRread (c : CtxId) (i : W32) (s : State) : Host.Outcome State Fault Refusal :=
  .next (descCommand s c.val i 0x21 (fun t d => copyOp t c.val d))

/-! ### Claims (R293, R294), and the destination is written -/

/-- The ledger already holds this value for the address, from another claim. -/
def dupClaim (s : State) (c : Nat) (d : Adm) (v : W64) : Bool :=
  let a := reA d.desc
  s.ledger.any (fun k => k.sp == remoteSpace a && k.addr == remoteAddr a && k.value == v &&
    !(k.ctx == c && k.seq == dSeq d.desc))

/-- An RWRITE that is a claim: an 8 B-aligned write of 8 B by a context with the ledger. -/
def isClaim (s : State) (c : Nat) (d : Adm) : Bool :=
  ceLedger (getCtx s c).ent && reLen d.desc == 8 && remoteAddr (reA d.desc) % 8 == 0

/-- Descriptors that one held complete with a status, in ring order, and do no work (R252, R294). -/
def failLater (s : State) (c : Nat) (ring : W32) (st : Status) : State :=
  (later (getCtx s c) ring).foldl (fun t e => endDesc t c e.ring st) s

/-- Enter the claim of an RWRITE that has been performed. -/
def enterClaim (s : State) : Option Claim → State
  | none => s
  | some k => claimEnter s k

/-- Write the bytes of an RWRITE or RREAD to its destination, each piece of a line as one write, and enter the claim it makes (R281,
R282). DESIGN CHOICE (log 44): a memory write is of class 0 of R27, which names none. -/
def copyTo (s : State) (c : Nat) (d : Adm) (bs : List Byte) (claim : Option Claim) : State :=
  let a := copyDst d.desc
  let ps := linePieces (bs.length + 1) (remoteAddr a) bs
  match remoteSpace a with
  | .spad r =>
    if isLive s .region r then
      ps.foldl (fun t p => askBank t r 3 p.1 (.write p.2) (.desc c d.ring)) (enterClaim s claim)
    else finish s c d (plainResult .arraysAbsent)
  | .mem =>
    match carrier s c with
    | none => finish s c d (plainResult .arraysAbsent)
    | some r => ps.foldl (fun t p => queuePort { t with mems := wrBytes t.mems .mem p.1 p.2 } c d.ring r 1 0 0 p.1 p.2)
        (chargeWr (enterClaim s claim) c bs.length)

/-- The source has been read: a claim that the ledger already holds is not performed (R293); with ACQUIRE it fails what it holds. -/
def copyGo (s : State) (c : Nat) (d : Adm) (bs : List Byte) : State :=
  let v : W64 := BitVec.ofNat 64 (leNat bs)
  if dOpcode d.desc == 0x20 && isClaim s c d then
    if dupClaim s c d v then
      let s1 := finish s c d (plainResult .dupClaim)
      if dAcquire d.desc then failLater s1 c d.ring .dupClaim else s1
    else
      copyTo s c d bs (some { sp := remoteSpace (reA d.desc), addr := remoteAddr (reA d.desc), value := v, ctx := c, seq := dSeq d.desc })
  else copyTo s c d bs none

/-- The descriptor is an RWRITE or RREAD that has no result. -/
def copying (s : State) (c : Nat) (ring : W32) : Option Adm :=
  (findAdm (getCtx s c) ring).filter (fun d => d.result.isNone && (dOpcode d.desc == 0x20 || dOpcode d.desc == 0x21))

/-- A line of the source has been read from scratchpad. -/
def copyLine (s : State) (c : Nat) (ring : W32) (a : Nat) (bs : List Byte) : State :=
  match copying s c ring with
  | none => s
  | some d =>
    let got := d.copied ++ [(a, bs)]
    let s1 := setAdm s c ring (fun e => { e with copied := got })
    if got.foldl (fun n p => n + p.2.length) 0 < reLen d.desc then s1
    else
      let first := remoteAddr (copySrc d.desc)
      copyGo s1 c d ((List.range (reLen d.desc)).map (fun i =>
        ((got.findSome? (fun p => if p.1 ≤ first + i && first + i < p.1 + p.2.length then p.2[first + i - p.1]? else none)).getD 0)))

/-- The read data of a source in memory has returned (R286). -/
def copyRead (s : State) (o : Owner) : State :=
  match o with
  | .desc c ring =>
    (match copying s c ring with
     | none => s
     | some d => if readsOutstanding s c ring || writesOutstanding s c ring then s
         else copyGo s c d (rdBytes s.mems .mem (remoteAddr (copySrc d.desc)) (reLen d.desc)))
  | _ => s

/-- An RWRITE or RREAD whose writes have all been granted or acknowledged is done (R228, R286, R291). -/
def copyDone (s : State) (o : Owner) : State :=
  match o with
  | .desc c ring =>
    (match copying s c ring with
     | none => s
     | some d => if readsOutstanding s c ring || writesOutstanding s c ring then s
         else finish (markRemote s c ring true true) c d (plainResult .ok))
  | _ => s

/-! ### RATOMIC (R283, R284, R291) -/

/-- Read, change and write a scratchpad word in one fabric-node step; the prior value. -/
def spadAtomic (s : State) (r a op : Nat) (operand new : W64) : W64 × W64 × State :=
  let old := rd64 s.mems (.spad r) a
  let v := atomicNew op old operand new
  (old, v, writeWaking s { sp := .spad r, addr := a, bytes := leBytes 8 v.toNat })

/-- A scratchpad RATOMIC is performed (R284): its word, its claim and its journal record in one step (R291). -/
def atomicStep (s : State) (c r : Nat) (d : Adm) : State :=
  let a := reA d.desc
  let op := reOp d.desc
  let (old, v, s1) := spadAtomic s r (remoteAddr a) op (reB d.desc) (reC d.desc)
  let s2 := markRemote (setPrior (claimAdd s1 c d.ring a op v) c d.ring (atomicResult op old)) c d.ring true true
  finish s2 c d { plainResult .ok with result := atomicResult op old }

/-- RATOMIC: a scratchpad word is changed by its fabric node, in two grants of its bank; a memory word by the licensee's memory
system, to which the request goes out. DESIGN CHOICE (log 44): it is of class 0 of R27, which names none. -/
def ratomicOp (s : State) (c : Nat) (d : Adm) : State :=
  let a := reA d.desc
  let op := reOp d.desc
  match dstAccess s c a 8 with
  | .ok =>
    remoteIssue s c d a (fun u r =>
      match remoteSpace a with
      | .spad q => askBank u q 3 (remoteAddr a) (.atomic op (reB d.desc) (reC d.desc) false) (.desc c d.ring)
      | .mem => queuePort u c d.ring r 2 op 0 (remoteAddr a) (leBytes 8 (reB d.desc).toNat ++ (if op == 2 then leBytes 8 (reC d.desc).toNat else [])))
  | e => remoteFail s c d e

/-- An RATOMIC descriptor of operation `k`. -/
def ratomicCommand (s : State) (c : Nat) (i : W32) (k : Nat) : State :=
  descCommand s c i 0x22 (fun t d => if reOp d.desc == k then ratomicOp t c d else t)

/-- RATOMIC op 0: FETCH_ADD of 32 bits (R283). -/
def execRatomicFetchAdd32 (c : CtxId) (i : W32) (s : State) : Host.Outcome State Fault Refusal :=
  .next (ratomicCommand s c.val i 0)

/-- RATOMIC op 1: FETCH_ADD of 64 bits (R283). -/
def execRatomicFetchAdd64 (c : CtxId) (i : W32) (s : State) : Host.Outcome State Fault Refusal :=
  .next (ratomicCommand s c.val i 1)

/-- RATOMIC op 2: compare and swap (R283). -/
def execRatomicCas (c : CtxId) (i : W32) (s : State) : Host.Outcome State Fault Refusal :=
  .next (ratomicCommand s c.val i 2)

/-- RATOMIC op 3: unsigned maximum (R283). -/
def execRatomicMax (c : CtxId) (i : W32) (s : State) : Host.Outcome State Fault Refusal :=
  .next (ratomicCommand s c.val i 3)

/-- RATOMIC op 4: OR (R283). -/
def execRatomicOr (c : CtxId) (i : W32) (s : State) : Host.Outcome State Fault Refusal :=
  .next (ratomicCommand s c.val i 4)

/-! ### WAITV (R252, R285) -/

/-- A WAITV becomes active: it takes a journal entry (R291, R302), a watch entry for a scratchpad address while one of the 64 is
free, and reads its value once. -/
def waitvOp (s : State) (c : Nat) (d : Adm) : State :=
  let s1 := setAdm s c d.ring (fun e => { e with active := some s.time.t })
  match remoteRegion s c (reA d.desc) with
  | none => waitvRead s1 c
  | some r =>
    match freeJournal (getRgn s r) with
    | none => s
    | some k =>
      let s2 := putJournal s1 r k (remoteJournal c d true false)
      let s3 := match remoteSpace (reA d.desc) with
        | .mem => s2
        | .spad q =>
          let x := getRgn s2 q
          if x.watch.length < 64 then setRgn s2 q { x with watch := x.watch ++ [{ ctx := c, addr := remoteAddr (reA d.desc) }] } else s2
      waitvRead s3 c

/-- WAITV (R285, R252). -/
def execWaitv (c : CtxId) (i : W32) (s : State) : Host.Outcome State Fault Refusal :=
  .next (descCommand s c.val i 0x23 (fun t d => waitvOp t c.val d))

/-- WAITV_POLL (R285): the wait_poll interval expires. -/
def execWaitvPoll (c : CtxId) (s : State) : Host.Outcome State Fault Refusal :=
  .next (if running s && waitPolled s c.val then waitvRead s c.val else s)

/-- Gambit's speculation of a context that is not confirmed is squashed where `f` says so (R273). -/
def squashCtx (s : State) (c : Nat) (f : SpecBuf → Bool) : State :=
  (List.range 16).foldl (fun t a =>
    if (getArr t a).spec.any (fun b => b.sub.ctx == c && !b.confirmed && f b) then addCnt (setArr t a { getArr t a with spec := none }) 7 1 else t) s

/-- The timeout of an active WAITV has elapsed. -/
def waitExpired (s : State) (d : Adm) : Bool :=
  wvTimeout d.desc != 0 && (match d.active with
    | some t => decide (t + 1000 * wvTimeout d.desc ≤ s.time.t)
    | none => false)

/-- WAIT_TIMEOUT (R252, R270, R273): the WAITV and every descriptor it held complete with it. -/
def waitTimeout (s : State) (c : Nat) (d : Adm) : State :=
  let s1 := endWait s c d { plainResult .waitTimeout with result := d.lastRead }
  let s2 := setCtx s1 c { getCtx s1 c with waitConf := conf2Down (getCtx s1 c).waitConf }
  let before := earlier (getCtx s c) d.ring
  failLater (squashCtx s2 c (fun b => !before.any (fun e => e.ring == b.sub.ring))) c d.ring .waitTimeout

/-- WAITV_TIMEOUT (R252, R285). -/
def execWaitvTimeout (c : CtxId) (s : State) : Host.Outcome State Fault Refusal :=
  .next (match activeWait (getCtx s c.val) with
    | none => s
    | some d => if running s && waitExpired s d then waitTimeout s c.val d else s)

/-! ### The window (R289, R290) -/

/-- The region and offset an address of the window names, where the access of `n` bytes is allowed there. -/
def windowAt (s : State) (addr n : Nat) : Option (Nat × Nat) :=
  let off := addr % 2 ^ 28
  let r := off / 2 ^ 26
  let o := off % 2 ^ 26
  if s.regs.winEn && addr / 2 ^ 28 == s.regs.winBase.toNat && isLive s .region r && decide (o + n ≤ 0x03000000) then some (r, o)
  else none

/-- The access touches the journal range (R22). -/
def inJournal (o n : Nat) : Bool := decide (0x02FE0000 < o + n)

/-- A window access of the port still waits for a bank. -/
def windowWaits (s : State) (p : Nat) : Bool := s.rgns.any (fun e => e.2.bankReqs.any (fun q => q.owner == .host p))

/-- A window access asks the banks of its lines in the remote class (R23, R289); its answer follows the last grant. -/
def windowAsk (s : State) (p r : Nat) (reqs : List (Nat × BankAct)) : State :=
  reqs.foldl (fun t q => askBank t r 3 q.1 q.2 (.host p)) (setHp s p { getHp s p with resp := .none, wdata := [] })

/-- A read of the window (R289, R340). -/
def windowRead (s : State) (p addr len : Nat) : State :=
  if len == 0 || decide (len > 64) then respond s p .err
  else
    match windowAt s addr len with
    | none => respond s p .err
    | some (r, o) => windowAsk s p r ((linePieces (len + 1) o (List.replicate len 0)).map (fun q => (q.1, .fetch q.2.length)))

/-- A port takes one window access at a time (log 28). -/
def windowOpen (s : State) (p : Nat) : Bool := hostAnswers s p && !windowWaits s p

/-- WINDOW_READ (R289, R340, R341): a target read; with `space` it is a register access, whose offset is the address (R341, R386). DESIGN
CHOICE (log 46): the table has a row for register writes alone, so a register read is this row's. -/
def execWindowRead (p : HostId) (addr : BitVec 57) (len : Nat) (s : State) (space : Bool := false) : Host.Outcome State Fault Refusal :=
  .next (if !windowOpen s p.val then s else if space then registerRead s p.val addr.toNat len else windowRead (wake s) p.val addr.toNat len)

/-- WINDOW_WRITE (R289): a write to the journal range is refused. -/
def windowWrite (s : State) (p addr : Nat) (bs : List Byte) : State :=
  if bs.isEmpty || decide (bs.length > 64) then respond s p .err
  else
    match windowAt s addr bs.length with
    | none => respond s p .err
    | some (r, o) =>
      if inJournal o bs.length then respond s p .err
      else windowAsk s p r ((linePieces (bs.length + 1) o bs).map (fun q => (q.1, .write q.2)))

def execWindowWrite (p : HostId) (addr : BitVec 57) (data : List Byte) (s : State) : Host.Outcome State Fault Refusal :=
  .next (if windowOpen s p.val then windowWrite (wake s) p.val addr.toNat data else s)

/-- The code of an atomic (R243). -/
def atomicCode : AtomicOp → Nat
  | .add32 => 0
  | .add64 => 1
  | .cas => 2
  | .max => 3
  | .or => 4

/-- WINDOW_ATOMIC (R289, R283): on an 8 B-aligned word. -/
def windowAtomic (s : State) (p addr : Nat) (op : AtomicOp) (operand new : W64) : State :=
  match windowAt s addr 8 with
  | none => respond s p .err
  | some (r, o) =>
    if inJournal o 8 || o % 8 != 0 then respond s p .err
    else windowAsk s p r [(o, .atomic (atomicCode op) operand new false)]

def execWindowAtomic (p : HostId) (addr : BitVec 57) (op : AtomicOp) (operand new : W64) (s : State) :
    Host.Outcome State Fault Refusal :=
  .next (if windowOpen s p.val then windowAtomic (wake s) p.val addr.toNat op operand new else s)

/-! ### Read data and responses (R333) -/

/-- A host-port read goes out once more (R322). -/
def hostReissue (s : State) (p : Nat) (q : PortReq) : State := hostSend s p { q with retried := true }

/-- The data of a host-port read: a descriptor's slot has arrived (R223). -/
def hostGood (s : State) (q : PortReq) (data : List Byte) : State :=
  let s1 := rdGood s 64 q data
  match q.owner with
  | .desc c ring => slotArrived s1 c ring (rdWords s1.mems .mem q.addr 8)
  | _ => s1

/-- A log entry about a host-port read, with the descriptor it is for. -/
def hostReadEntry (s : State) (p : Nat) (q : PortReq) : FlogEntry :=
  let e := hostEntry s 0x15 p q.addr
  match q.owner with
  | .desc c ring => { e with ctx := BitVec.ofNat 12 c, ring := ring }
  | _ => e

/-- A poisoned host-port read is logged, and goes out once more; a descriptor that stays poisoned has no words, and ends with
UNRECOVERABLE (R309, R334). -/
def hostPoisoned (s : State) (p : Nat) (q : PortReq) : State :=
  let s1 := logFault s (hostReadEntry s p q)
  if !q.retried then hostReissue s1 p q
  else
    match q.owner with
    | .desc c ring => if (findAdm (getCtx s c) ring).isSome then endDesc s1 c ring .unrecoverable else slotArrived s1 c ring []
    | _ => s1

/-- The read of a descriptor's slot met a translation error (R166, R334): admission ends it with XLATE_FAULT. -/
def slotFault (s : State) (c : Nat) (ring : W32) : State :=
  let t := slotArrived s c ring []
  setCtx t c { getCtx t c with slotXlate := (getCtx t c).slotXlate ++ [ring] }

/-- A host-port access that the chip could not translate or place (R334): its descriptor ends, or the event is logged. -/
def hostError (s : State) (p : Nat) (q : PortReq) : State :=
  match q.owner with
  | .desc c ring => if q.op == 0 && (findAdm (getCtx s c) ring).isNone then slotFault s c ring else xlateFail s c ring q.addr
  | _ => logFault s (hostEntry s 0x11 p q.addr)

/-- Read data that a memory port has received for an outstanding request: discarded where nobody waits for it (R374), checked (R322,
R399), reissued or ended where it is poisoned (R309), else on its way to the staging island (R35). -/
def rdReceive (s : State) (q : Nat) (r : PortReq) (data : List Byte) (rs : RsResult) (poison : Bool) : State :=
  if r.owner == .lost then warmNext s
  else if rs == .uncorrectable then rdUncorrectable s q r
  else if poison then rdPoisoned s q r
  else present (rdGood s 512 r data) q r

/-- The same on a host port. -/
def hostReceive (s : State) (p : Nat) (r : PortReq) (data : List Byte) (rs : RsResult) (poison : Bool) : State :=
  if r.owner == .lost then warmNext s
  else if rs == .uncorrectable then hostReissue s p r
  else if poison then hostPoisoned s p r
  else hostGood s r data

/-- A corrected error on a port's data (R399). -/
def countCe (x : MemPort) (rs : RsResult) (o : Owner) : MemPort :=
  { x with ce := if rs == .corrected && x.ce != 0xFFFFFFFF && !ofGambit o then x.ce + 1 else x.ce }

/-- MPP_RD_RECEIVE (R333, R322, R309, R399). DESIGN CHOICE (log 46): the spec does not say what M1 does with data under a tag that has no
read outstanding; the model discards it. -/
def execMppRdReceive (port : PortRef) (tag : BitVec 12) (data : List Byte) (rs : RsResult) (poison : Bool) (s : State) :
    Host.Outcome State Fault Refusal :=
  .next (match port with
  | .mem q =>
    (match (getMp s q.val).rdOut.find? (fun e => e.1 == tag.toNat && e.2.op == 0) with
    | none => s
    | some e =>
      rdReceive (setMp s q.val (countCe { getMp s q.val with rdOut := tdrop (getMp s q.val).rdOut tag.toNat } rs e.2.owner)) q.val e.2 data rs poison)
  | .host p =>
    match (getHp s p.val).initOut.find? (fun e => e.1 == tag.toNat && e.2.op == 0) with
    | none => s
    | some e => hostReceive (setHp s p.val { getHp s p.val with initOut := tdrop (getHp s p.val).initOut tag.toNat }) p.val e.2 data rs poison)

/-- The outstanding request that a response with this status answers: a write or an atomic, or a read that could not be translated or
placed (R333, R334). -/
def answered (l : Tbl PortReq) (tag : Nat) (status : BitVec 2) : Option PortReq :=
  (l.find? (fun e => e.1 == tag && (e.2.op != 0 || status != 0))).map (·.2)

/-- A response that a memory port has received for an outstanding request (R333, R334, R374). -/
def rspReceive (s : State) (q : Nat) (r : PortReq) (status : BitVec 2) (prior : W64) : State :=
  if r.owner == .lost then warmNext (if r.op == 2 && status == 0 then atomicDone s r prior else s)
  else if status != 0 then rspError s q r
  else if r.op == 2 then atomicDone s r prior
  else copyDone s r.owner

/-- MPP_RSP_RECEIVE (R333, R334, R335, R398). DESIGN CHOICE (log 46): the spec does not say what M1 does with a response that answers
nothing; the model discards it. -/
def execMppRspReceive (port : PortRef) (tag : BitVec 12) (status : BitVec 2) (prior : W64) (s : State) :
    Host.Outcome State Fault Refusal :=
  .next (match port with
  | .mem q =>
    let x := getMp s q.val
    (match answered (x.wrOut ++ x.rdOut) tag.toNat status with
    | none => s
    | some r => rspReceive (setMp s q.val { x with wrOut := tdrop x.wrOut tag.toNat, rdOut := tdrop x.rdOut tag.toNat }) q.val r status prior)
  | .host p =>
    match answered (getHp s p.val).initOut tag.toNat status with
    | none => s
    | some r =>
      let s1 := setHp s p.val { getHp s p.val with initOut := tdrop (getHp s p.val).initOut tag.toNat }
      if r.owner == .lost then warmNext s1 else if status != 0 then hostError s1 p.val r else irqAck s1 r)

/-! ### Crossings (R35) -/

/-- The oldest transfer presented to a crossing is delivered, 3 to 6 destination cycles after it was presented; order is kept, and the
freed entry takes the next that its port holds. The staging island now has the data: a remote operation whose source this was goes
on. -/
def crossingDeliver (s : State) (src dst cycles : Nat) : State :=
  if decide (3 ≤ cycles ∧ cycles ≤ 6) then
    match s.xing.find? (fun x => x.src == src && x.dst == dst) with
    | none => s
    | some x => copyRead (presentHeld { s with xing := s.xing.erase x, xingOut := s.xingOut ++ [x] } (src - 36)) x.read.owner
  else s

/-- CROSSING_TRANSFER (R35, R36). -/
def execCrossingTransfer (src dst : IslId) (cycles : Nat) (s : State) : Host.Outcome State Fault Refusal :=
  .next (crossingDeliver s src.val dst.val cycles)

end Sys2Proof.Machine
end

