-- ==== Sys2Proof/Machine/Control.lean ====
section
/-!
DEFINITION. The control descriptors NOP, FENCE, CTXSAVE and CTXLOAD (R234, R244, R245, R328 to R330).
-/

namespace Sys2Proof.Machine

/-- NOP does nothing and completes (R234). -/
def execNop (c : CtxId) (i : W32) (s : State) : Host.Outcome State Fault Refusal :=
  .next (descCommand s c.val i 0x00 (fun t d => finish t c.val d (plainResult .ok)))

/-- The earlier descriptors a FENCE waits for (R244): all, or those that read or write its tensor. -/
def fenceWaits (x : Context) (d : Adm) : Bool :=
  (earlier x d.ring).any (fun e => feTensor d.desc == 0 || (idxAll e.params e.variants e.desc).contains (feTensor d.desc))

/-- FENCE completes once what it waits for has records (R244). -/
def execFence (c : CtxId) (i : W32) (s : State) : Host.Outcome State Fault Refusal :=
  .next (descCommand s c.val i 0x28 (fun t d =>
    if fenceWaits (getCtx t c.val) d then t else finish t c.val d (plainResult .ok)))

/-- The RNG slot block as CTXSAVE writes it (R202). -/
def slotBytes (x : Context) : List Byte :=
  (List.range 8).flatMap (fun j =>
    let q := tget { key := 0, streamBase := 0, epoch := 0 } x.rng j
    leBytes 8 q.key.toNat ++ leBytes 4 q.streamBase.toNat ++ leBytes 4 q.epoch.toNat)

/-- Live RNG lanes of the engine's LIVE regions. -/
def liveLanes (s : State) : Nat :=
  ((List.range 4).filter (isLive s .region)).foldl (fun n r =>
    n + ((List.range 32).filter (fun l => (getRgn s r).lanes.getLsbD l)).length) 0

/-- The save area's header (R329). -/
def saveHeader (s : State) (c : Nat) : List Byte :=
  leBytes 8 (1 + 16 * 1 + 256 * 1 + 2 ^ 16 * c) ++
  leBytes 8 ((liveArrays s 0xFFFF).foldl (fun m a => m + 2 ^ a) 0 + 2 ^ 16 * (liveLanes s % 256)) ++
  leBytes 8 s.time.t ++ List.replicate 40 0

/-- The save area: the header and the engine-defined body (R245, log 12). -/
def saveArea (s : State) (c : Nat) : List Byte :=
  saveHeader s c ++ (List.range 4032).map (fun i => Config.saveBody s.freeCnt i)

/-- The first address at which the writes of CTXSAVE meet a translation error. -/
def saveFault (s : State) (c : Nat) : Option Nat :=
  let e := (getCtx s c).ent
  (xlateAt s.env (ceAsid e) (ceRngBase e) 128).orElse (fun _ => xlateAt s.env (ceAsid e) (ceSaveBase e) 4096)

/-- CTXSAVE writes the RNG slots and the save area (R245, R205); the context's speculation is squashed (R273). -/
def ctxsaveOp (s : State) (c : Nat) (d : Adm) : State :=
  let s0 := squashCtx s c (fun _ => true)
  match saveFault s0 c with
  | some a => finish s0 c d { plainResult .xlateFault with result := BitVec.ofNat 64 a }
  | none =>
    let x := getCtx s0 c
    let s1 := (linePieces 2 (ceRngBase x.ent) (slotBytes x)).foldl (fun t p => hostWriteFor t c (.desc c d.ring) p.1 p.2) s0
    let s2 := (linePieces 65 (ceSaveBase x.ent) (saveArea s0 c)).foldl (fun t p => hostWriteFor t c (.desc c d.ring) p.1 p.2) s1
    finish (freeNext s2).2 c d (plainResult .ok)

/-- CTXSAVE and CTXLOAD wait as FENCE does with tensor_index 0; they use the context's host port. -/
def alone (s : State) (c : Nat) (d : Adm) : Bool :=
  (earlier (getCtx s c) d.ring).isEmpty && (hostPortFor s c).isSome

def execCtxsave (c : CtxId) (i : W32) (s : State) : Host.Outcome State Fault Refusal :=
  .next (descCommand s c.val i 0x29 (fun t d => if alone t c.val d then ctxsaveOp t c.val d else t))

/-- Arrays of a mask that are absent on this engine (R245, R328). -/
def absentArrays (s : State) (mask : Nat) : List Nat :=
  (List.range 16).filter (fun a => inMask mask a && unitSt s .array a == .absent)

/-- The mask without them. -/
def presentMask (s : State) (mask : Nat) : Nat :=
  (List.range 16).foldl (fun m a => if inMask mask a && unitSt s .array a != .absent then m + 2 ^ a else m) 0

/-- The context after a CTXLOAD of entry `e` (R245, R263): its slots, its entry, a new Tempo period 0. -/
def loaded (x : Context) (e : List W64) (slots : Tbl RngSlot) (now : Nat) : Context :=
  { x with ent := e, rng := slots, tempo := tempoStart e now }

/-- The result of a CTXLOAD and the context it leaves, from the entry read at `a` (R245, R328, R329, R411). With enable = 0 it completes
on the former entry, which it disables. An entry that activation would refuse (R219) leaves the former one and completes with BAD_RSVD
(log 24). -/
def ctxloadOp (s : State) (c : Nat) (d : Adm) : State :=
  let x := getCtx s c
  let a := s.regs.ctxBase.toNat + 256 * c
  let e := rdWords s.mems .mem a 32
  let hdr := (rd64 s.mems .mem (ceSaveBase e)).toNat
  let area := if bits hdr 0 0 == 1 then 4096 else 64
  let fault := (xlateAt s.env s.regs.engineAsid a 256).orElse (fun _ =>
    if !ceEnable e then none
    else (xlateAt s.env (ceAsid e) (ceRngBase e) 128).orElse (fun _ => xlateAt s.env (ceAsid e) (ceSaveBase e) area))
  match fault with
  | some f => finish s c d { plainResult .xlateFault with result := BitVec.ofNat 64 f }
  | none =>
    let ask := hostAsk s c s.regs.engineAsid a 256
    let mask := ceAffinity e
    let keep := presentMask s mask
    let put (e : List W64) : State :=
      finish (chargeRd (setCtx (hostAsk (hostAsk ask c (ceAsid e) (ceRngBase e) 128) c (ceAsid e) (ceSaveBase e) area) c
        (loaded x e (readSlots s.mems (ceRngBase e)) s.time.t)) c (384 + area)) c d (plainResult .ok)
    if !ceEnable e then finish (chargeRd (setCtx ask c { x with ent := setFld x.ent 0x00 0 0 0 }) c 256) c d (plainResult .ok)
    else if !ceValid e then finish ask c d (plainResult .badRsvd)
    else if bits hdr 0 0 == 1 && (bits hdr 7 4 != 1 || bits hdr 15 8 != 1) then
      finish ask c d { plainResult .badVersion with checkId := 0x02, operand := 0xFFFF, shortfall := 1 }
    else if (absentArrays s mask).isEmpty then put e
    else if dRelaxAff d.desc && keep != 0 then put (setFld e 0x00 47 32 keep)
    else finish ask c d (plainResult .arraysAbsent)

def execCtxload (c : CtxId) (i : W32) (s : State) : Host.Outcome State Fault Refusal :=
  .next (descCommand s c.val i 0x2A (fun t d => if alone t c.val d then ctxloadOp t c.val d else t))

end Sys2Proof.Machine
end

