-- ==== Sys2Proof/Machine/Phg.lean ====
section
/-!
DEFINITION. Position-hash random bits (R199 to R201, R203, R206, R207).
-/

namespace Sys2Proof.Machine

/-- The multipliers and shifts of the four rounds (R199). -/
def phgRounds : List (W64 × Nat) :=
  [(0xB5E31C974D2A6F0B, 32), (0x8C47E2D136A9B55F, 29), (0xE71A9F630C5D8B27, 32), (0xA3D95B1EF4827C6D, 31)]

/-- One multiply-xorshift round. -/
def phgRound (h m : W64) (r : W64 × Nat) : W64 :=
  let x := (h ^^^ m) * r.1
  x ^^^ (x >>> r.2)

/-- The position-hash function (R199). -/
def phg (key : W64) (stream epoch : W32) (pos dword : W64) : W64 :=
  let se : W64 := BitVec.ofNat 64 (stream.toNat * 2 ^ 32 + epoch.toNat)
  ([pos, se, dword, key].zip phgRounds).foldl (fun h x => phgRound h x.1 x.2) key

/-- The data word (R200): purpose, length code and data value. -/
def dataWord (purpose len data : Nat) : W64 := BitVec.ofNat 64 (data + 2 ^ 16 * len + 2 ^ 20 * purpose)

/-- The purpose codes (R200). -/
def purpRound : Nat := 1
def purpDropout : Nat := 2
def purpBmask : Nat := 3
def purpRegrow : Nat := 4

/-- The slot values a descriptor draws with (R203). -/
structure Draw where
  key : W64
  stream : W32
  epoch : W32
  deriving DecidableEq, Repr

/-- The hash of a position without data bits. -/
def drawAt (d : Draw) (purpose pos : Nat) : W64 := phg d.key d.stream d.epoch (BitVec.ofNat 64 pos) (dataWord purpose 0 0)

/-- The Bernoulli bit of probability p24 / 2^24 (R207). -/
def bernoulli (d : Draw) (purpose pos p24 : Nat) : Bool := decide ((drawAt d purpose pos).toNat / 2 ^ 40 < p24)

/-- The 16 bits stochastic rounding takes (R206): `sr` is the descriptor's sr_data code, `enc` the FP32 encoding
of the value that enters the conversion. -/
def srBits (d : Draw) (pos sr : Nat) (enc : W32) : Nat :=
  let data := if sr == 1 then enc.toNat % 256 else if sr == 2 then enc.toNat % 65536 else 0
  (phg d.key d.stream d.epoch (BitVec.ofNat 64 pos) (dataWord purpRound sr data)).toNat / 2 ^ 48

/-- The output linear index (R201). -/
def linIndex (h rows m cols n : Nat) : Nat := (h * rows + m) * cols + n

end Sys2Proof.Machine
end

