-- ==== Sys2Proof/Machine/Rfu.lean ====
section
/-!
DEFINITION. The Row Function Unit (R167 to R172): the correctly rounded elementary functions, the steps of a
program, and the statistics of a row.
-/

namespace Sys2Proof.Machine

/-! ### Correctly rounded functions (R169, R170)

A result that is no FP32 value is formed with many more bits than FP32 holds and a sticky bit below them, and
rounded once. -/

/-- Exact quotient bits with a sticky bit: 2^k / m as mag * 2^(-k-1). -/
def stickyDiv (k m : Nat) : Nat := let n := 1 <<< k; 2 * (n / m) + (if n % m == 0 then 0 else 1)

/-- 1/x (R169, R170). -/
def recipNum : Num → Num × Bool
  | .nan => (.nan, false)
  | .inf n => (numZero n, false)
  | .fin n m e =>
    if m == 0 then (fltMax n, true)
    else
      let k := m.log2 + 64
      fp32Sat (.fin n (stickyDiv k m) (-e - (k : Int) - 1))

/-- 1/sqrt(x) (R169, R170): RSQRT of a negative number is NaN, of a zero FLT_MAX of its sign. -/
def rsqrtNum : Num → Num × Bool
  | .nan => (.nan, false)
  | .inf n => if n then (.nan, false) else (numZero, false)
  | .fin n m e =>
    if m == 0 then (fltMax n, true)
    else if n then (.nan, false)
    else
      -- x = v * 2^f with f even; 1/sqrt(x) = sqrt(2^(2k) / v) * 2^(-f/2 - k)
      let odd := e % 2 != 0
      let v := if odd then 2 * m else m
      let f := if odd then e - 1 else e
      let k := v.log2 + 64
      let q := (1 <<< (2 * k)) / v
      let r := isqrt q
      let st := if r * r * v == 1 <<< (2 * k) then 0 else 1
      fp32Sat (.fin false (2 * r + st) (-(f / 2) - (k : Int) - 1))

/-- Guard bits of EXP2's evaluation (log 13). -/
def expBits : Nat := 192

/-- Multiply `acc` by 2^(bit/2^i) for the fraction bits of an exponent, most significant first: `root` is
2^(1/2^i) in units of 2^-expBits. -/
def exp2Frac : Nat → Nat → Nat → Nat → Nat
  | 0, _, _, acc => acc
  | n + 1, frac, root, acc =>
    let acc' := if frac.testBit n then (acc * root) >>> expBits else acc
    exp2Frac n frac (isqrt (root <<< expBits)) acc'

/-- 2^x (R169, R170): the integer part is an exponent, the fraction a product of square roots of 2. -/
def exp2Num : Num → Num × Bool
  | .nan => (.nan, false)
  | .inf n => if n then (numZero, false) else (.inf false, false)
  | .fin n m e =>
    if m == 0 || !magGe m e (-27) then (numPow2 0, false)
    else if magGe m e 9 then (if n then (numZero, false) else (fltMax false, true))
    else
      -- x in units of 2^-fb
      let fb : Nat := if e < 0 then (-e).toNat else 0
      let v := intAt n m e (-(fb : Int))
      let ip := v / ((1 <<< fb : Nat) : Int)
      let fr := (v % ((1 <<< fb : Nat) : Int)).toNat
      let mag := exp2Frac fb fr (isqrt (1 <<< (2 * expBits + 1))) (1 <<< expBits)
      let st := if fr == 0 then 0 else 1
      fp32Sat (.fin false (2 * mag + st) (ip - (expBits : Int) - 1))

/-! ### Composite functions (R169) -/

def one32 : Num := numPow2 0

/-- The constants of R169. -/
def rfL : Num := fp32Of 0x3FB8AA3B
def rfG1 : Num := fp32Of 0x40135761
def rfG2 : Num := fp32Of 0x3DD2D3E8

/-- Only the function's result can set SAT in a composite (R170). -/
def siluNum (x : Num) : Num × Bool :=
  let d := (fp32Add one32 (exp2Num (fp32Mul (numNeg x) rfL).1).1).1
  fp32Mul x (recipNum d).1

def geluNum (x : Num) : Num × Bool :=
  let t := (fp32Add rfG1 (fp32Mul rfG2 (fp32Mul x x).1).1).1
  let d := (fp32Add one32 (exp2Num (numNeg (fp32Mul x t).1)).1).1
  fp32Mul x (recipNum d).1

def reluNum : Num → Num
  | .nan => .nan
  | x => if numIsNeg x || numIsZero x then numZero else x

/-! ### Programs -/

/-- What a program's steps read: the constant a, the bias vector, keep_scale, and the Bernoulli bit of a column. -/
structure RfArgs where
  a : Num
  bias : Nat → Num
  keepScale : Num
  keep : Nat → Bool

/-- The codes of R168. -/
def rfCode (step : Nat) : Nat := step % 16
def rfArg (step : Nat) : Nat := step / 16 % 16

/-- One element-wise step on the element of column `n`. -/
def rfElem (g : RfArgs) (step n : Nat) (v : Num) : Num × TFlags :=
  let sat (x : Num × Bool) : Num × TFlags := (x.1, flagIf x.2 flSat)
  match rfCode step with
  | 1 =>
    let (w, s1) := fp32Mul v g.a
    if rfArg step % 2 == 1 then
      let (u, s2) := fp32Add w (g.bias n)
      (u, flagIf (s1 || s2) flSat)
    else (w, flagIf s1 flSat)
  | 2 => (reluNum v, 0)
  | 3 => sat (geluNum v)
  | 4 => sat (siluNum v)
  | 5 => sat (exp2Num v)
  | 6 => sat (recipNum v)
  | 7 =>
    let (u, s) := rsqrtNum v
    (u, flagIf s flSat ||| flagIf (numIsNan u && !numIsNan v) flNanSeen)
  | 8 => if g.keep n then sat (fp32Mul v g.keepScale) else (numZero, 0)
  | _ => (v, 0)

/-- The larger of two values (R172): NaN when either is, +0 above -0. -/
def maxNum (x y : Num) : Num :=
  if numIsNan x || numIsNan y then .nan
  else if numLt x y then y
  else if numLt y x then x
  else if numIsNeg x then y else x

def maxList : List Num → Num
  | [] => .inf true
  | x :: xs => xs.foldl maxNum x

/-- A balanced pairwise sum of depth `d` in FP32, saturating; absent leaves are +0. -/
def fp32Tree : Nat → List Num → Num × Bool
  | 0, ls => match ls with
    | [] => (numZero, false)
    | x :: _ => (x, false)
  | d + 1, ls =>
    match ls with
    | [] => (numZero, false)
    | _ =>
      let (l, s1) := fp32Tree d (ls.take (1 <<< d))
      let (r, s2) := fp32Tree d (ls.drop (1 <<< d))
      let (v, s3) := fp32Add l r
      (v, s1 || s2 || s3)

/-- A row of one column group in the RFU: the live values with their columns, the flags, and the statistics
recorded so far in program order. -/
structure RfRow where
  vals : List (Nat × Num)
  flags : TFlags
  stats : List Num

/-- One step on a row (R168). -/
def rfStep (g : RfArgs) (step : Nat) (r : RfRow) : RfRow :=
  match rfCode step with
  | 9 => { r with stats := r.stats ++ [maxList (r.vals.map (·.2))] }
  | 10 =>
    let (v, s) := fp32Tree 8 (r.vals.map (·.2))
    { r with stats := r.stats ++ [v], flags := r.flags ||| flagIf s flSat }
  | _ =>
    let out := r.vals.map (fun x => (x.1, rfElem g step x.1 x.2))
    { r with vals := out.map (fun x => (x.1, x.2.1)), flags := out.foldl (fun f x => f ||| x.2.2) r.flags }

/-- The steps of a program up to the first with code 0x0 (R167). -/
def rfSteps (prog : List Nat) : List Nat := prog.takeWhile (fun s => rfCode s != 0)

/-- Run a program on a row. SOFTMAX_ONLINE is no step of the RFU row by itself (R178): the caller runs it. -/
def rfRun (g : RfArgs) (prog : List Nat) (r : RfRow) : RfRow :=
  (rfSteps prog).foldl (fun r s => if rfCode s == 11 then r else rfStep g s r) r

/-- The statistics of a program: true for ROWSUM. -/
def statKinds (prog : List Nat) : List Bool :=
  (rfSteps prog).filterMap (fun s => if rfCode s == 9 then some false else if rfCode s == 10 then some true else none)

/-- Combine a statistic's column groups in ascending order (R172). -/
def statCombine (sum : Bool) (vs : List Num) : Num × TFlags :=
  if sum then
    vs.foldl (fun a v => let (x, s) := fp32Add a.1 v; (x, a.2 ||| flagIf s flSat)) (numZero, 0)
  else (maxList vs, 0)

/-- A descriptor's program as its steps: rf_prog or rf1_prog, and rf2_prog (R167). -/
def prog1 (d : List W64) : List Nat := (List.range 4).map (dRf d)
def prog2 (d : List W64) : List Nat := (List.range 4).map (dRf2 d)

/-- The program of the descriptor's output: rf2_prog in FUSED2, none in MGRAD. -/
def outProg (d : List W64) : List Nat :=
  if dOpcode d == 2 then prog2 d else if dOpcode d == 5 || dOpcode d == 8 then [] else prog1 d

end Sys2Proof.Machine
end

