-- ==== Sys2Proof/Machine/Tiles.lean ====
section
/-!
DEFINITION. A tile's operands at their logical positions: activations, weights in every layout, expansion, block
scales, spill lists and T-maps (R37 to R40, R69 to R77, R119 to R130, R147 to R153, R182, R183).
-/

namespace Sys2Proof.Machine

/-- What a descriptor's tile computes from: the descriptor that runs, its parameter record, the entries admission
read, the region it runs in, and the values it draws with (R304). -/
structure Job where
  d : List W64
  p : List W64
  ents : Tbl (List W64)
  r : Nat
  draw : Draw
  deriving DecidableEq, Repr

/-- The chosen variant with its size along shape_dim replaced by the shape value (R157). -/
def sizedDesc (d : Adm) : List W64 :=
  let v := runDesc d
  if dBucketed d.desc then
    match bDim d.desc with
    | 0 => setFld v 0x18 16 0 d.shapeV
    | 1 => setFld v 0x18 27 17 d.shapeV
    | _ => setFld v 0x18 48 28 d.shapeV
  else v

/-- The job of an admitted descriptor in region `r`. -/
def jobOf (d : Adm) (r : Nat) : Job :=
  { d := sizedDesc d, p := paramOf d.params (sizedDesc d), ents := d.entries, r := r,
    draw := { key := d.key, stream := drawStream d, epoch := d.epoch } }

def jent (j : Job) (i : Nat) : TEnt := tentOf (tget [] j.ents i)
def actEnt (j : Job) : TEnt := jent j (dAct j.d)
def wEnt (j : Job) : TEnt := jent j (dW j.d)
def outEnt (j : Job) : TEnt := jent j (dOut j.d)

/-- Bytes of a job's spaces. -/
def jbyte (ms : Mems) (j : Job) (t : TEnt) (a : Nat) : Byte := rdByte ms (tentSpace t j.r) a

/-! ### Sizes -/

/-- N1 of a FUSED2 (R237). -/
def n1Of (j : Job) : Nat := (wEnt j).dim1

/-- Columns, and the first column, of the product with the weight `w`: in FUSED2 the first product covers all of
W1, and n_org counts keys only (R178, R237). -/
def nCols (j : Job) : Nat := if dOpcode j.d == 2 then n1Of j else dNt j.d
def nFirst (j : Job) : Nat := if dOpcode j.d == 2 then 0 else dNorg j.d

/-- Weights used transposed (R130, R182). -/
def dgrad (j : Job) : Bool := dOpcode j.d == 6 && pDgrad j.p
def transposed (j : Job) : Bool := dOpcode j.d == 4 || dgrad j

/-- The slot layout that sets the pass mode: the T-map's for transposed SQ weights (R127). -/
def passLayout (j : Job) : Nat :=
  let w := wEnt j
  if transposed j && w.layout != 0 then w.tmapLayout else w.layout

/-- A product's pass mode (R39): activation format, stored weight format, format in the banks, slot budget. -/
structure Mode where
  act : Fmt
  w : Fmt
  bank : Fmt
  slots : Nat
  deriving DecidableEq, Repr

def modeOf (act w : Fmt) (layout : Nat) : Mode := { act := act, w := w, bank := bankFmt act w, slots := layoutSlots layout }
def jobMode (j : Job) : Mode := modeOf (tentFmt (actEnt j)) (tentFmt (wEnt j)) (passLayout j)

/-- Members per cell. -/
def muOf (m : Mode) : Nat := modeUnit m.act m.w
def slottedMode (m : Mode) : Bool := m.slots != 4
/-- Array cycles per activation row in a mode. -/
def rowCycles (m : Mode) : Nat := cyclesPerRow m.act m.w m.slots
def passLogK (m : Mode) : Nat := kPerPass m.act m.w m.slots

/-- The mode as the array's banks hold it. -/
def passModeOf (m : Mode) (scaled : Bool) : PassMode :=
  { act := (List.range 11).find? (fun c => fmtOfCode c == some m.act) |>.getD 0,
    wgt := (List.range 11).find? (fun c => fmtOfCode c == some m.bank) |>.getD 0,
    slots := m.slots, slotted := slottedMode m, scaled := scaled }

/-- CONV geometry (R183, R185). -/
def cvHin (j : Job) : Nat := pHin j.p
def cvC (j : Job) : Nat := pCin j.p
def cvInDil (j : Job) : Nat := if dgrad j then pInDil j.p else 1
def cvOut (size r pad0 pad1 dil stride inDil : Nat) : Int :=
  let n : Int := ((size : Int) - 1) * inDil + 1 + pad0 + pad1 - ((r : Int) - 1) * dil - 1
  if stride == 0 then 0 else n / (stride : Int) + 1
def cvHoutI (p : List W64) (inDil : Nat) : Int := cvOut (pHin p) (pFiltR p) (pGeom p 4) (pGeom p 5) (pGeom p 2) (pGeom p 0) inDil
def cvWoutI (p : List W64) (inDil : Nat) : Int := cvOut (pWin p) (pFiltS p) (pGeom p 6) (pGeom p 7) (pGeom p 3) (pGeom p 1) inDil
def cvHout (j : Job) : Nat := (cvHoutI j.p (cvInDil j)).toNat
def cvWout (j : Job) : Nat := (cvWoutI j.p (cvInDil j)).toNat

/-- Physical rows of `k` logical k of a product (R40, R120). In DGRAD with slotted weights every tap has its own
quads (R182). -/
def rowsOf (m : Mode) (tapC : Option Nat) (k : Nat) : Nat :=
  let mu := muOf m
  if !slottedMode m then ceilDiv k mu
  else
    match tapC with
    | none => ceilDiv k (4 * mu) * m.slots
    | some c => if c == 0 then 0 else (k / c * ceilDiv c (4 * mu) + ceilDiv (k % c) (4 * mu)) * m.slots

/-- The channel count of a tap where slot rows are cut per tap. -/
def tapOf (j : Job) : Option Nat := if dgrad j && (wEnt j).layout != 0 then some (cvC j) else none

def tileRows (j : Job) : Nat := rowsOf (jobMode j) (tapOf j) (dKt j.d)

/-- Canonical passes of the tile (R148). -/
def passesOf (j : Job) : Nat := ceilDiv (tileRows j) 256

/-- Piece passes per canonical pass (R90). -/
def piecesOf (m : Mode) : Nat := if m.w == .fp32 then 3 else 1

/-- Rows of a pass that the tile's K reaches. -/
def liveRows (total p : Nat) : Nat := min 256 (total - 256 * p)

/-- The tile's first physical row in the tensor's order of rows: k_org lies on a pass boundary (R147). -/
def firstRow (j : Job) : Nat := dKorg j.d / passLogK (jobMode j) * 256

/-- The logical k that the members of unit `pos` on row `row` of the tile carry; `none` lies outside the tile's
K range (R69, R150). -/
def rowMember (j : Job) (row pos i : Nat) : Option Nat :=
  let m := jobMode j
  let mu := muOf m
  let k0 := dKorg j.d
  let inTile (k : Nat) : Option Nat := if k0 ≤ k && k < k0 + dKt j.d then some k else none
  if !slottedMode m then inTile (k0 + mu * row + i)
  else
    let rho := firstRow j + row
    let q := rho / m.slots
    match tapOf j with
    | none => inTile ((4 * q + pos) * mu + i)
    | some c =>
      let per := ceilDiv c (4 * mu)
      let ch := (4 * (q % per) + pos) * mu + i
      if per == 0 || ch ≥ c then none else inTile (q / per * c + ch)

/-- Units on the bus of one physical row. -/
def unitsPerRow (m : Mode) : Nat := if slottedMode m then 4 else 1

/-- The members of every unit on the row word of a row. -/
def rowWord (j : Job) (row : Nat) : List (List (Option Nat)) :=
  (List.range (unitsPerRow (jobMode j))).map (fun pos => (List.range (muOf (jobMode j))).map (rowMember j row pos))

/-! ### Activations -/

/-- The value of a code, with INT8's 2^-6 where its tensor is block-scaled (R71). -/
def elemVal (t : TEnt) (code : Nat) : Num :=
  let v := decodeElem (tentFmt t) code
  if tentFmt t == .int8 && t.bscale then numScale v (-6) else v

/-- CONV's address generator (R183): the input element of output row `m` and logical `k`. Input row (b, iy) is
tensor row b * H_in + iy, element ix * C_in + c of it. -/
def convAt (j : Job) (m k : Nat) : Option (Nat × Nat) :=
  let ho := cvHout j
  let wo := cvWout j
  let c := cvC j
  let s := pFiltS j.p
  if ho == 0 || wo == 0 || c == 0 || s == 0 then none
  else
    let b := m / (ho * wo)
    let y := m % (ho * wo) / wo
    let x := m % wo
    let tap := k / c
    let iy : Int := (y * pGeom j.p 0 + tap / s * pGeom j.p 2 : Nat) - (pGeom j.p 4 : Int)
    let ix : Int := (x * pGeom j.p 1 + tap % s * pGeom j.p 3 : Nat) - (pGeom j.p 6 : Int)
    let dil : Int := cvInDil j
    if iy % dil != 0 || ix % dil != 0 then none
    else
      let iy := iy / dil
      let ix := ix / dil
      if 0 ≤ iy && iy < (pHin j.p : Int) && 0 ≤ ix && ix < (pWin j.p : Int) then
        some (b * pHin j.p + iy.toNat, ix.toNat * c + k % c)
      else none

/-- The activation of tensor row `m` and logical `k` (R152, R132, R183). -/
def actVal (ms : Mems) (j : Job) (h m k : Nat) : Num :=
  let t := actEnt j
  if dOpcode j.d == 5 then elemVal t (denseCode ms t j.r h k m)
  else if dOpcode j.d == 6 then
    match convAt j m k with
    | none => numZero
    | some (row, el) => elemVal t (denseCode ms t j.r h row el)
  else elemVal t (denseCode ms t j.r h m k)

/-- The K extent that an activation scale row covers (R72). -/
def actK (j : Job) : Nat :=
  if dOpcode j.d == 5 then (actEnt j).dim0
  else if dOpcode j.d == 6 then pFiltR j.p * pFiltS j.p * cvC j
  else (actEnt j).dim1

/-- The block-scale exponent of an operand; `none` is NaN (R70, R74). -/
def scaleExp (code : Nat) : Option Int := if code == 0xFF then none else some ((code : Int) - 127)

/-- s_a of tensor row `m` and logical `k` (R72, R73). -/
def actScale (ms : Mems) (j : Job) (h m k : Nat) : Option Int :=
  let t := actEnt j
  if t.bscale then scaleExp (scaleCode ms (jent j t.bscaleIndex) j.r h m (k / 32) (ceilDiv (actK j) 32)) else some 0

/-- s_w of a weight tensor at logical `k`, column `n`; `cols` is the number of output columns of the tensor. -/
def wScale (ms : Mems) (j : Job) (t : TEnt) (cols h k n : Nat) : Option Int :=
  if t.bscale then scaleExp (scaleCode ms (jent j t.bscaleIndex) j.r h (k / 32) n cols) else some 0

/-- Output columns of the weight tensor in the orientation in which it is used. -/
def wCols (j : Job) : Nat := if transposed j then (wEnt j).dim0 else (wEnt j).dim1

/-! ### Stored weights -/

/-- A slot as the loader sees it: its unit position, which members are active, and their codes. -/
structure Slot where
  idx : Nat
  lo : Bool
  hi : Bool
  codeLo : Nat
  codeHi : Nat
  deriving DecidableEq, Repr

/-- The code of member `i` of column `n` in a value plane (R122). -/
def planeCode (f : Fmt) (byteAt : Nat → Byte) (n i : Nat) : Nat :=
  match f with
  | .e3m2 => packedCode f byteAt (2 * n + i)
  | .e2m3 => packedCode f byteAt (2 * n + i)
  | .e2m1 => bits (byteAt n).toNat (4 * i + 3) (4 * i)
  | .int4 => bits (byteAt (n / 2)).toNat (4 * (n % 2) + 3) (4 * (n % 2))
  | .bf16 => leNat [byteAt (2 * n), byteAt (2 * n + 1)]
  | .fp16 => leNat [byteAt (2 * n), byteAt (2 * n + 1)]
  | _ => (byteAt n).toNat

/-- The head's base of an SQ region. -/
def headOff (t : TEnt) (h : Nat) : Nat := h * t.headStride

/-- The address of forward slot row `rho` of column group `g` (R122). -/
def slotRowAddr (t : TEnt) (h g rho : Nat) : Nat :=
  t.base + headOff t h + (g * slotRows t + rho) * slotRowBytes (tentFmt t)

/-- The forward slot of column `c` of group `g` in slot row `rho` (R120 to R122): positions beyond the tensor are
inactive. -/
def fwdSlot (ms : Mems) (t : TEnt) (r h g rho c : Nat) : Slot :=
  let f := tentFmt t
  let a := slotRowAddr t h g rho
  let sp := tentSpace t r
  let at_ (o : Nat) : Byte := rdByte ms sp (a + o)
  let nib := bits (at_ (slotValueBytes f + c / 2)).toNat (4 * (c % 2) + 3) (4 * (c % 2))
  let s := layoutSlots t.layout
  let idx := if s == 4 then rho % 4 else nib % 4
  let k := (4 * (rho / s) + idx) * unitSize f
  let ok (i : Nat) : Bool := decide (k + i < t.dim0 ∧ 256 * g + c < t.dim1)
  { idx := idx, lo := nib.testBit 2 && ok 0, hi := fmtPaired f && nib.testBit 3 && ok 1,
    codeLo := planeCode f at_ c 0, codeHi := if fmtPaired f then planeCode f at_ c 1 else 0 }

/-- The T-map byte of output column `kc` in transposed slot row `rho` (R128). -/
def tmapByte (ms : Mems) (t : TEnt) (r h kc rho : Nat) : Nat :=
  (rdByte ms (tentSpace t r)
    (t.spillBase + headOff t h + 64 * t.tmapOff + (kc / 256 * tmapRows t + rho) * 256 + kc % 256)).toNat

/-- The code stored at forward position (k, n), found in forward slot `slot` of k's quad. -/
def fwdCode (ms : Mems) (t : TEnt) (r h k n slot : Nat) : Nat :=
  let f := tentFmt t
  let q := k / (4 * unitSize f)
  let a := slotRowAddr t h (n / 256) (q * layoutSlots t.layout + slot)
  planeCode f (fun o => rdByte ms (tentSpace t r) (a + o)) (n % 256) (k % unitSize f)

/-- The transposed slot of output column `kc` in transposed slot row `rho` (R127, R128, R130). -/
def tSlot (ms : Mems) (t : TEnt) (r h kc rho : Nat) : Slot :=
  let f := tentFmt t
  let b := tmapByte ms t r h kc rho
  let s := layoutSlots t.tmapLayout
  let idx := if s == 4 then rho % 4 else b % 4
  let n := (4 * (rho / s) + idx) * unitSize f
  let ok (i : Nat) : Bool := decide (n + i < t.dim1 ∧ kc < t.dim0)
  let lo := b.testBit 2 && ok 0
  let hi := fmtPaired f && b.testBit 3 && ok 1
  { idx := idx, lo := lo, hi := hi, codeLo := if lo then fwdCode ms t r h kc n (bits b 5 4) else 0,
    codeHi := if hi then fwdCode ms t r h kc (n + 1) (bits b 7 6) else 0 }

/-- The forward coordinates of output column `n` and logical `k` of a transposed use (R130, R182): DGRAD flips
the taps. -/
def fwdK (j : Job) (k n : Nat) : Nat :=
  if dgrad j then
    let c := cvC j
    let taps := pFiltR j.p * pFiltS j.p
    let cf := if taps == 0 then 0 else (wEnt j).dim0 / taps
    (taps - 1 - (if c == 0 then 0 else k / c)) * cf + n
  else n
def fwdN (j : Job) (k : Nat) : Nat := if dgrad j then (if cvC j == 0 then 0 else k % cvC j) else k

/-- The slot of output column `n` on tile row `row` in a slotted or SQ4 layout. -/
def jobSlot (ms : Mems) (j : Job) (h row n : Nat) : Slot :=
  let t := wEnt j
  let m := jobMode j
  let rho := firstRow j + row
  if transposed j then
    match tapOf j with
    | none => tSlot ms t j.r h (fwdK j 0 n) rho
    | some c =>
      let per := ceilDiv c (4 * muOf m) * m.slots
      if per == 0 then { idx := 0, lo := false, hi := false, codeLo := 0, codeHi := 0 }
      else tSlot ms t j.r h (fwdK j (rho / per * c) n) (rho % per)
  else fwdSlot ms t j.r h (n / 256) rho (n % 256)

/-- The stored code at logical `k`, column `n`, or nothing where the position is inactive or forward-spilled, in a
layout of four slots: dense, or SQ4 whose slot j holds unit j (R119, R120). -/
def fullCode (ms : Mems) (j : Job) (h k n : Nat) : Option Nat :=
  let t := wEnt j
  let f := tentFmt t
  let u := unitSize f
  if t.layout == 0 then
    let (a, b) := if transposed j then (fwdK j k n, fwdN j k) else (k, n)
    let base := t.base + headOff t h + a * t.rowStride
    some (packedCode f (fun o => rdByte ms (tentSpace t j.r) (base + o)) b)
  else
    let sl := if transposed j then tSlot ms t j.r h (fwdK j k n) (fwdN j k / u)
              else fwdSlot ms t j.r h (n / 256) (k / u) (n % 256)
    let i := (if transposed j then fwdN j k else k) % u
    if i == 0 then (if sl.lo then some sl.codeLo else none) else (if sl.hi then some sl.codeHi else none)

/-! ### Expansion (R76, R77) -/

/-- The value v of R76 with its method: a LUT entry's code, or an integer difference and its scale. -/
def expandArgs (ms : Mems) (j : Job) (t : TEnt) (code n : Nat) : Nat ⊕ (Int × W32) :=
  let q := jent j t.qparam
  if t.expand == 1 then
    .inl (rdLe ms (tentSpace q j.r) (q.base + 2 * (code % 16)) 2)
  else
    let s := BitVec.ofNat 32 (rdLe ms (tentSpace q j.r) (q.base + 4 * n) 4)
    let z := signedOf 8 (jbyte ms j q (q.base + 4 * t.dim1 + n)).toNat
    .inr (signedOf (fmtBits (tentFmt t)) code - z, s)

/-- The code in the banks of a stored weight, and whether it saturated; `n` is the forward output channel. -/
def bankCode (ms : Mems) (j : Job) (t : TEnt) (bank : Fmt) (code n : Nat) : Nat × Bool :=
  if t.expand == 0 || bank == tentFmt t then (code, false)
  else
    match expandArgs ms j t code n with
    | .inl e => expandLut e bank
    | .inr (d, s) => expandScale d s bank

/-- The forward output channel of a weight at logical `k`, column `n`. -/
def chanOf (j : Job) (k n : Nat) : Nat := if transposed j then fwdN j k else n

/-! ### Cells -/

/-- The value kind of a format in the banks (R37). -/
def valueKind (bank : Fmt) : Nat :=
  match fmtBits bank with
  | 16 => 0
  | 8 => 1
  | 6 => 2
  | 4 => 3
  | _ => 0

/-- A cell of one or two member codes and its slot_index (R37, R38). -/
def mkCell (bank : Fmt) (idx lo hi : Nat) : BCell :=
  { value := BitVec.ofNat 16 (if fmtBits bank < 8 then lo + 256 * hi else lo),
    info := BitVec.ofNat 4 (idx + 4 * valueKind bank) }

/-- The code of a cell's member. -/
def cellCode (bank : Fmt) (c : BCell) (i : Nat) : Nat :=
  let v := c.value.toNat
  match fmtBits bank with
  | 6 => if i == 0 then v % 64 else v / 256 % 64
  | 4 => if i == 0 then v % 16 else v / 256 % 16
  | 8 => v % 256
  | _ => v

/-- The BF16 piece of an FP32 weight that a piece pass loads (R89, R90): w_lo, then w_hi. -/
def pieceCode (piece code : Nat) : Nat :=
  let x := decodeElem .fp32 code
  (convert .bf16 .nearest true 0 (if piece == 0 then bf16Lo x else bf16Hi x)).code

/-- The bank format of a piece pass. -/
def cellFmt (m : Mode) : Fmt := if m.w == .fp32 then .bf16 else m.bank

/-- The cell of column `n` on tile row `row` (R119 to R122, R150), and whether a weight saturated on the way. -/
def cellAt (ms : Mems) (j : Job) (h row n piece : Nat) : BCell × Bool :=
  let m := jobMode j
  let t := wEnt j
  let member (active : Bool) (k code : Nat) : Nat × Bool :=
    if !active then (0, false)
    else if m.w == .fp32 then (pieceCode piece code, false)
    else bankCode ms j t m.bank code (chanOf j k n)
  if !(nFirst j ≤ n && n < nFirst j + nCols j) then (mkCell (cellFmt m) 0 0 0, false)
  else if !slottedMode m then
    let one (i : Nat) : Nat × Bool :=
      match rowMember j row 0 i with
      | none => (0, false)
      | some k =>
        match fullCode ms j h k n with
        | none => (0, false)
        | some code => member true k code
    let lo := one 0
    let hi := if muOf m == 2 then one 1 else (0, false)
    (mkCell (cellFmt m) (if t.layout == 0 then 0 else (firstRow j + row) % 4) lo.1 hi.1, lo.2 || hi.2)
  else
    let sl := jobSlot ms j h row n
    let s0 := if (sl.lo || sl.hi) then sl.idx
      else
        let head := jobSlot ms j h (row - (firstRow j + row) % m.slots) n
        if head.lo || head.hi then head.idx else 0
    let one (act : Bool) (i code : Nat) : Nat × Bool :=
      match rowMember j row s0 i with
      | none => (0, false)
      | some k => member act k code
    let lo := one sl.lo 0 sl.codeLo
    let hi := if muOf m == 2 then one sl.hi 1 sl.codeHi else (0, false)
    (mkCell (cellFmt m) s0 lo.1 hi.1, lo.2 || hi.2)

/-- The value of a cell's member, with INT8's 2^-6 for a block-scaled weight (R71). -/
def cellVal (bank : Fmt) (wScaled : Bool) (c : BCell) (i : Nat) : Num :=
  let v := decodeElem bank (cellCode bank c i)
  if bank == .int8 && wScaled then numScale v (-6) else v

/-- A cell's term for a row word (R38, R39): it selects by slot_index in slotted modes, multiplies each member by
its own activation and adds the products exactly. -/
def cellTerm (bank : Fmt) (slotted wScaled : Bool) (c : BCell) (word : List (List Num)) : Num :=
  let sel := word.getD (if slotted then c.info.toNat % 4 else 0) []
  match sel with
  | [] => numZero
  | [a] => numMul a (cellVal bank wScaled c 0)
  | a :: b :: _ => numAdd (numMul a (cellVal bank wScaled c 0)) (numMul b (cellVal bank wScaled c 1))

/-- The row word of a row for activations `act` (R39, R69): +0 outside the tile's K; the BF16 piece of FP32
operands. -/
def wordWith (j : Job) (act : Nat → Num) (row : Nat) (hiPiece : Bool) : List (List Num) :=
  (rowWord j row).map (fun us => us.map (fun k =>
    match k with
    | none => numZero
    | some k => if (jobMode j).w == .fp32 then (if hiPiece then bf16Hi (act k) else bf16Lo (act k)) else act k))

/-! ### Pass sums -/

/-- The scale of the block that a row of a pass lies in, for activation row `m` and column `n` (R73, R74). -/
def scaleFactor : Option Int → Option Int → Num
  | some a, some w => numPow2 (a + w)
  | _, _ => .nan

/-- The first logical k of a row that lies in the tile. -/
def rowFirstK (j : Job) (row : Nat) : Option Nat := ((rowWord j row).flatMap (fun us => us)).findSome? (fun k => k)

/-- Operands with block scales. -/
def jobScaled (j : Job) : Bool := (actEnt j).bscale || (wEnt j).bscale

/-- An INT32 partial (R92). -/
def jobInt (j : Job) : Bool := intPartial (tentFmt (actEnt j)) (tentFmt (wEnt j)) (jobScaled j)

/-- The order of the piece passes: activation piece high or low, and weight piece (R90). -/
def pieceOf : Nat → Bool × Nat
  | 0 => (true, 0)
  | 1 => (false, 1)
  | _ => (true, 1)

/-- The pass sum of column `n` before the root conversion (R40, R67, R73), for activations `act` and their
block-scale exponents `sc`. -/
def treeWith (ms : Mems) (j : Job) (h : Nat) (act : Nat → Num) (sc : Nat → Option Int) (n p piece : Nat) : Num :=
  let md := jobMode j
  let live := liveRows (tileRows j) p
  let (ah, wp) := if md.w == .fp32 then pieceOf piece else (true, 0)
  let leaves := (List.range live).map (fun r =>
    cellTerm (cellFmt md) (slottedMode md) (wEnt j).bscale (cellAt ms j h (256 * p + r) n wp).1 (wordWith j act (256 * p + r) ah))
  if jobInt j then leaves.foldl numAdd numZero
  else
    let lvl := if jobScaled j then some (scaleLevel md.act md.w md.slots) else none
    let factor (i : Nat) : Num :=
      match rowFirstK j (256 * p + i * 2 ^ (lvl.getD 0)) with
      | none => numPow2 0
      | some k => scaleFactor (sc k) (wScale ms j (wEnt j) (wCols j) h k n)
    treeSum treeAdd lvl factor 8 0 leaves

/-- A tree's sum as the accumulate stage receives it (R75). -/
def rootOf (isInt : Bool) (x : Num) : Num × TFlags := if isInt then (x, 0) else rootConvert x

/-- The pass sum of tensor row `m` and column `n`. -/
def passSum (ms : Mems) (j : Job) (h m n p piece : Nat) : Num × TFlags :=
  rootOf (jobInt j) (treeWith ms j h (actVal ms j h m) (actScale ms j h m) n p piece)

/-- Some weight of the live columns and rows of a tile saturated during expansion (R77). -/
def loadSat (ms : Mems) (j : Job) (h n0 n1 p : Nat) : Bool :=
  (List.range (liveRows (tileRows j) p)).any (fun r =>
    (List.range (n1 - n0)).any (fun i => (cellAt ms j h (256 * p + r) (n0 + i) 0).2))

/-! ### Spill and T-overflow lists (R123 to R126, R129, R130) -/

/-- A list entry as the Side Path uses it: logical k, output column, stored code, forward channel, and whether it is
a T-overflow entry. -/
structure ZEntry where
  k : Nat
  n : Nat
  code : Nat
  chan : Nat
  tover : Bool
  deriving DecidableEq, Repr

/-- Raw entries of one directory range; nothing where a directory word breaks its bounds (R124). -/
def rangeRaw (ms : Mems) (sp : Space) (base g passes groups count p : Nat) : Option (List Nat) :=
  let word (i : Nat) : Nat := rdLe ms sp (base + 4 * i) 4
  let a := word (g * passes + p)
  let b := word (g * passes + p + 1)
  let last := word (groups * passes)
  if a ≤ b && b ≤ last && last ≤ count then
    some ((List.range (b - a)).map (fun i => rdLe ms sp (base + dirBytes groups passes + 8 * (a + i)) 8))
  else none

/-- Entries in non-decreasing order of a key. -/
def rising (f : Nat → Nat) : List Nat → Bool
  | [] => true
  | [_] => true
  | x :: y :: t => decide (f x ≤ f y) && rising f (y :: t)

def rawK (e : Nat) : Nat := bits e 39 16
def rawN (e : Nat) : Nat := bits e 63 40

/-- Slot rows per pass of an SQ layout: logical k of 256 slot rows. -/
def dirPassK (f : Fmt) (layout : Nat) : Nat := 256 / layoutSlots layout * 4 * unitSize f

/-- The forward spill entries of group `g` and pass `p` (R124). -/
def spillRange (ms : Mems) (t : TEnt) (r h g p : Nat) : Option (List Nat) :=
  let passes := ceilDiv (slotRows t) 256
  match rangeRaw ms (tentSpace t r) (t.spillBase + headOff t h) g passes (groups t.dim1) t.spillCount p with
  | none => none
  | some es =>
    if es.all (fun e => rawN e / 256 == g && rawK e / dirPassK (tentFmt t) t.layout == p) &&
        rising (fun e => rawK e * 2 ^ 24 + rawN e) es
    then some es else none

/-- The T-overflow entries of transposed group `g` and pass `p` (R129). -/
def toverRange (ms : Mems) (t : TEnt) (r h g p : Nat) : Option (List Nat) :=
  let passes := ceilDiv (tmapRows t) 256
  match rangeRaw ms (tentSpace t r) (t.spillBase + headOff t h + 64 * t.toverOff) g passes (groups t.dim0) t.toverCount p with
  | none => none
  | some es =>
    if es.all (fun e => rawK e / 256 == g && rawN e / dirPassK (tentFmt t) t.tmapLayout == p) &&
        rising (fun e => rawN e * 2 ^ 24 + rawK e) es
    then some es else none

/-- Every range of a directory, or nothing where one is out of order. -/
def allRanges (f : Nat → Nat → Option (List Nat)) (gs ps : Nat) : Option (List Nat) :=
  (List.range gs).foldl (fun acc g => (List.range ps).foldl (fun acc p =>
    match acc, f g p with
    | some a, some b => some (a ++ b)
    | _, _ => none) acc) (some [])

/-- The logical position of a forward entry (k, n) in the orientation in which the weight is used. -/
def useK (j : Job) (k n : Nat) : Nat :=
  if dgrad j then
    let taps := pFiltR j.p * pFiltS j.p
    let cf := if taps == 0 then 0 else (wEnt j).dim0 / taps
    (taps - 1 - (if cf == 0 then 0 else k / cf)) * cvC j + n
  else if transposed j then n else k
def useN (j : Job) (k n : Nat) : Nat :=
  if dgrad j then
    let taps := pFiltR j.p * pFiltS j.p
    let cf := if taps == 0 then 0 else (wEnt j).dim0 / taps
    if cf == 0 then 0 else k % cf
  else if transposed j then k else n

/-- A spill entry (R123): an INT4 code in the low bits, unused bits dropped. -/
def spillEntry (j : Job) (e : Nat) : ZEntry :=
  { k := useK j (rawK e) (rawN e), n := useN j (rawK e) (rawN e), code := e % 2 ^ fmtBits (tentFmt (wEnt j)) % 65536, chan := rawN e,
    tover := false }

/-- A T-overflow entry: its value comes from the forward slot row it names (R129). -/
def toverEntry (ms : Mems) (j : Job) (h e : Nat) : ZEntry :=
  { k := useK j (rawK e) (rawN e), n := useN j (rawK e) (rawN e),
    code := fwdCode ms (wEnt j) j.r h (rawK e) (rawN e) (e % 4), chan := rawN e, tover := true }

/-- The logical k range of a pass of the tile. -/
def passRange (j : Job) (p : Nat) : List Nat :=
  (List.range (liveRows (tileRows j) p)).flatMap (fun r => (rowWord j (256 * p + r)).flatMap (fun us => us.filterMap (fun k => k)))

/-- The list entries of group `g` (of 256 output columns) that lie in pass `p` and in the tile's columns, or
nothing where the tile must end with BAD_RSVD (R124). -/
def zEntries (ms : Mems) (j : Job) (h g p : Nat) : Option (List ZEntry) :=
  let t := wEnt j
  if t.layout == 0 then some []
  else
    let ks := passRange j p
    let lo := ks.foldl min (2 ^ 32)
    let hi := ks.foldl max 0
    let mine (z : ZEntry) : Bool :=
      decide (lo ≤ z.k ∧ z.k ≤ hi ∧ z.n / 256 = g ∧ nFirst j ≤ z.n ∧ z.n < nFirst j + nCols j) &&
        (if dgrad j then ks.contains z.k else true)
    if !transposed j then
      (spillRange ms t j.r h g (lo / dirPassK (tentFmt t) t.layout)).map (fun es => (es.map (spillEntry j)).filter mine)
    else
      match allRanges (spillRange ms t j.r h) (groups t.dim1) (ceilDiv (slotRows t) 256),
            allRanges (toverRange ms t j.r h) (groups t.dim0) (ceilDiv (tmapRows t) 256) with
      | some a, some b => some ((a.map (spillEntry j) ++ b.map (toverEntry ms j h)).filter mine)
      | _, _ => none

/-- The product of a list entry with activation row `m`, block scales included (R73, R125). -/
def zProduct (ms : Mems) (j : Job) (h m : Nat) (z : ZEntry) : Num × Bool :=
  let md := jobMode j
  let t := wEnt j
  let (c, sat) := bankCode ms j t md.bank z.code z.chan
  let w := decodeElem md.bank c
  let w := if md.bank == .int8 && t.bscale then numScale w (-6) else w
  let x := numMul (actVal ms j h m z.k) w
  (if jobScaled j then numMul x (scaleFactor (actScale ms j h m z.k) (wScale ms j t (wCols j) h z.k z.n)) else x, sat)

/-- z of an element: the exact sum of its products, nothing where it has none (R95). -/
def zSum (ms : Mems) (j : Job) (h m n : Nat) (es : List ZEntry) : Option Num :=
  match es.filter (fun z => z.n == n) with
  | [] => none
  | l => some (l.foldl (fun a z => numAdd a (zProduct ms j h m z).1) numZero)

end Sys2Proof.Machine
end

