-- ==== Sys2Proof/Machine/Drain.lean ====
section
/-!
DEFINITION. From pass sums to stored bytes: partial buffers (R93, R98 to R101, R149), an element's accumulation,
scales (R78), the row function, output conversion (R79 to R86, R106) and row statistics (R172).
-/

namespace Sys2Proof.Machine

/-! ### Buffers of partials -/

/-- Column groups of the tile (R148). -/
def tileGroups (j : Job) : Nat := groups (dNt j.d)

/-- Rows that the descriptor's partial buffers and wide regions hold (R149). -/
def partialRows (j : Job) : Nat := dHeads j.d * tileGroups j * dMt j.d

/-- The index of the partial row of sub-tile (h, c, g) and tile row m (R149). -/
def partialIdx (j : Job) (h g m : Nat) : Nat := (h * tileGroups j + g) * dMt j.d + m

/-- The pair of column `c` in a row of partials (R93). -/
def readPair (ms : Mems) (sp : Space) (row c : Nat) : Pair :=
  (BitVec.ofNat 32 (rdLe ms sp (row + 4 * c) 4), BitVec.ofNat 16 (rdLe ms sp (row + 0x400 + 2 * c) 2))

/-- Writes of the pairs of columns from `c0` upward. -/
def pairWrites (sp : Space) (row c0 : Nat) (ps : List Pair) : List MemWrite :=
  [{ sp := sp, addr := row + 4 * c0, bytes := ps.flatMap (fun p => leBytes 4 p.1.toNat) },
   { sp := sp, addr := row + 0x400 + 2 * c0, bytes := ps.flatMap (fun p => leBytes 2 p.2.toNat) }]

/-- The row address of partial row `i` of a buffer with a header (R99). -/
def bufRow (t : TEnt) (i : Nat) : Nat := t.base + 64 + 1536 * i

/-- The address of wide row `i` (R100). -/
def wideRow (f : WideFmt) (base i : Nat) : Nat := base + 256 * wideBytes f * i

def readWide (ms : Mems) (sp : Space) (f : WideFmt) (row c : Nat) : SVal :=
  wideValOf f (rdLe ms sp (row + wideBytes f * c) (wideBytes f))

def wideWrite (sp : Space) (f : WideFmt) (row c0 : Nat) (vs : List SVal) : MemWrite :=
  { sp := sp, addr := row + wideBytes f * c0, bytes := vs.flatMap (fun v => leBytes (wideBytes f) (wideValCode f v)) }

/-- The 64 B header of a partial buffer (R99). -/
structure PHead where
  total : Nat
  since : Nat
  flags : TFlags
  int32 : Bool
  wide : Nat
  det : Bool
  rows : Nat
  deriving DecidableEq, Repr

def readHead (ms : Mems) (sp : Space) (a : Nat) : PHead :=
  let w := rdLe ms sp (a + 8) 4
  { total := rdLe ms sp a 4, since := rdLe ms sp (a + 4) 4, flags := BitVec.ofNat 16 w, int32 := w.testBit 16,
    wide := bits w 18 17, det := w.testBit 19, rows := rdLe ms sp (a + 12) 4 }

def headBytes (x : PHead) : List Byte :=
  leBytes 4 x.total ++ leBytes 4 x.since ++
  leBytes 4 (x.flags.toNat + 2 ^ 16 * b2n x.int32 + 2 ^ 17 * x.wide + 2 ^ 19 * b2n x.det) ++ leBytes 4 x.rows ++
  List.replicate 48 0

/-- The header of the acc_in buffer, where the descriptor names one. -/
def accInHead (ms : Mems) (j : Job) : Option PHead :=
  if dAccIn j.d == 0 then none
  else let t := jent j (dAccIn j.d); some (readHead ms (tentSpace t j.r) t.base)

def jobWide (j : Job) : WideFmt := wideOf (dWideFmt j.d)

/-- The tile's partials are INT32 (R92): FUSED2's second product takes inter_fmt, which is never INT8 (R174). -/
def partInt (j : Job) : Bool := dOpcode j.d != 2 && jobInt j

/-- The acc_in header agrees with the descriptor (R99). -/
def headOk (ms : Mems) (j : Job) : Bool :=
  match accInHead ms j with
  | none => true
  | some x => x.int32 == partInt j && x.wide == dWideFmt j.d && x.det == dDet j.d

/-! ### An element's accumulation -/

/-- An element between passes: its pair, its wide value, and the flags it has raised. -/
structure ElemAcc where
  pair : Pair
  w : SVal
  fl : TFlags
  deriving DecidableEq, Repr

/-- β·c as the start value of an INT32 partial (R98). -/
def startInt (x : Num) : Pair × TFlags :=
  match x with
  | .nan => (pairZero, flNanSeen)
  | .inf n => ((if n then 0x80000000 else 0x7FFFFFFF, 0), flSat)
  | .fin n m e =>
    let q : Nat := if e ≥ 0 then m <<< e.toNat else rneShift m (-e).toNat
    let v : Int := if n then -(q : Int) else q
    if v > 0x7FFFFFFF then ((0x7FFFFFFF, 0), flSat)
    else if v < -0x80000000 then ((0x80000000, 0), flSat)
    else ((BitVec.ofInt 32 v, 0), 0)

/-- The start value b of an element (R98): +0, or β·c rounded once. DESIGN CHOICE (log 42): block scales of a C
operand have no array in R72, so bscale only gives an INT8 C its 2^-6 (R71). -/
def startVal (ms : Mems) (j : Job) (h m n : Nat) : Pair × TFlags :=
  if dC j.d == 0 || dOpcode j.d == 5 || dOpcode j.d == 2 then (pairZero, 0)
  else
    let t := jent j (dC j.d)
    let c := elemVal t (denseCode ms t j.r h (dMorg j.d + m) n)
    let x := numMul (fp32Of (dBeta j.d)) c
    if jobInt j then startInt x
    else
      let (v, sat) := fp32Sat x
      ((fp32Code v, 0), flagIf sat flSat ||| flagIf (numIsNan v) flNanSeen)

/-- The element before its first pass (R98, R112): from the start value, or from the acc_in buffer's pair and
wide value. `g` is the column group counted from the tile's first. -/
def startElem (ms : Mems) (j : Job) (h m g c : Nat) : ElemAcc :=
  if dAccIn j.d == 0 then
    let (p, f) := startVal ms j h m (nFirst j + 256 * g + c)
    if dDet j.d then { pair := pairZero, w := pairVal (partInt j) p, fl := f } else { pair := p, w := .num numZero, fl := f }
  else
    let t := jent j (dAccIn j.d)
    let i := partialIdx j h g m
    let p := readPair ms (tentSpace t j.r) (bufRow t i) c
    let w : SVal :=
      if pAccInWide j.p == 0 then .num numZero
      else let tw := jent j (pAccInWide j.p); readWide ms (tentSpace tw j.r) (jobWide j) (wideRow (jobWide j) tw.base i) c
    if dDet j.d then
      let (x, f) := wideAdd .x320 w (pairVal (partInt j) p)
      { pair := pairZero, w := x, fl := f }
    else { pair := p, w := w, fl := 0 }

/-- An element that is NaN, in its pair or its wide value. -/
def elemNan (int : Bool) (p : Pair) (w : SVal) : Bool := (!int && numIsNan (fp32Of p.1)) || w == .num .nan

/-- An element that is Inf. -/
def elemInf (int : Bool) (p : Pair) (w : SVal) : Bool :=
  !elemNan int p w && ((!int && numIsInf (fp32Of p.1)) || w == .num (.inf false) || w == .num (.inf true))

/-- The flags of a pass on the element it leaves (R88): a NaN raises no SAT or SCALE flag for itself. -/
def passFlags (nan : Bool) (f : TFlags) : TFlags := if nan then f &&& ~~~(flSat ||| flScaleOvf ||| flScaleUf) else f

/-- One pass entering accumulation (R94 to R97, R101, R105, R112): `int` says whether the product's partials are
INT32, and `n` is P with this pass counted. -/
def accElem (int : Bool) (j : Job) (n : Nat) (a : ElemAcc) (y : Num × TFlags) (z : Option Num) : ElemAcc :=
  let wide := jobWide j
  if dDet j.d then
    let (w, f) := detAdd a.w y.1 z
    { pair := pairZero, w := w, fl := a.fl ||| passFlags (elemNan int pairZero w) (y.2 ||| f) }
  else
    let (t, f1) := passTerm int y.1 z
    let (p, f2) := accStep int a.pair t
    let weak := flagIf (boundWeak (wide != .none) n) flBoundWeak
    if wide != .none && spillPass (dSpillInt j.d) true n then
      let (w, f3) := spillPair wide int a.w p
      { pair := pairZero, w := w, fl := a.fl ||| weak ||| passFlags (elemNan int pairZero w) (y.2 ||| f1 ||| f2 ||| f3) }
    else { pair := p, w := a.w, fl := a.fl ||| weak ||| passFlags (elemNan int p a.w) (y.2 ||| f1 ||| f2) }

/-- The flags an element leaves accumulation with: one that is Inf lies outside every bound and carries SAT (R108,
log 42). -/
def elemFlags (int : Bool) (a : ElemAcc) : TFlags := a.fl ||| flagIf (elemInf int a.pair a.w) flSat

/-- P after a pass (R101, R105). -/
def nextP (j : Job) (n : Nat) : Nat :=
  if jobWide j != .none && spillPass (dSpillInt j.d) true n then 0 else n

/-- The passes of the tile in order: canonical pass and piece (R90, R148). -/
def passList (j : Job) : List (Nat × Nat) :=
  (List.range (passesOf j)).flatMap (fun p => (List.range (piecesOf (jobMode j))).map (fun q => (p, q)))

/-- P before the tile's first pass: the acc_in buffer's passes since its last spill (R99, R107). -/
def startP (ms : Mems) (j : Job) : Nat :=
  match accInHead ms j with
  | none => 0
  | some x => x.since

/-- An element after every pass of the tile, and P. -/
def runElem (ms : Mems) (j : Job) (zs : Nat → List ZEntry) (h m g c : Nat) : ElemAcc × Nat :=
  let n := nFirst j + 256 * g + c
  (passList j).foldl (fun st pq =>
    let y := passSum ms j h (dMorg j.d + m) n pq.1 pq.2
    (accElem (jobInt j) j (st.2 + 1) st.1 y (zSum ms j h (dMorg j.d + m) n (zs pq.1)), nextP j (st.2 + 1)))
    (startElem ms j h m g c, startP ms j)

/-- Some of the tile's first `n` passes is a spill pass. -/
def anySpill (ms : Mems) (j : Job) (n : Nat) : Bool :=
  ((List.range n).foldl (fun (st : Nat × Bool) _ =>
    (nextP j (st.1 + 1), st.2 || (jobWide j != .none && spillPass (dSpillInt j.d) true (st.1 + 1)))) (startP ms j, false)).2

/-- P after the tile. -/
def endP (ms : Mems) (j : Job) : Nat := (passList j).foldl (fun n _ => nextP j (n + 1)) (startP ms j)

/-- The final value of an element of a product with INT32 partials or not (R106). -/
def elemFinal (int : Bool) (j : Job) (a : ElemAcc) : Num × TFlags := finalVal int (jobWide j) a.w a.pair

/-! ### Scales and conversion -/

def vecNum (ms : Mems) (j : Job) (i k : Nat) : Num := fp32Of (vecF32 ms (jent j i) j.r k)

/-- The scale factors of element (m, n) in their order: r[m], then c[n] (R78). -/
def scaleList (ms : Mems) (j : Job) (m n : Nat) : List Num :=
  (if pRowScale j.p == 0 then [] else [vecNum ms j (pRowScale j.p) m]) ++
  (if pChanScale j.p == 0 then [] else [vecNum ms j (pChanScale j.p) n])

/-- Multiply by scales, each step rounded to nearest and saturated (R78). -/
def applyScales (x : Num × TFlags) (ss : List Num) : Num × TFlags :=
  ss.foldl (fun a s => let (v, sat) := fp32Mul a.1 s; (v, a.2 ||| flagIf sat flSat ||| flagIf (numIsNan v) flNanSeen)) x

/-- Round a final value to FP32 (R68, R78, R169). -/
def toFp32 (x : Num) : Num × TFlags := let (v, sat) := fp32Sat x; (v, flagIf sat flSat ||| flagIf (numIsNan v) flNanSeen)

/-- The output format of a tile: the out entry's, or MGRAD's own output tensor's. -/
def outFmt (j : Job) : Fmt := tentFmt (outEnt j)

/-- The program that runs on the tile's output is not empty. -/
def hasProg (j : Job) : Bool := !(rfSteps (outProg j.d)).isEmpty

/-- What enters the row function or conversion: the final value through the drain scales (R78, R85). The last
scale step of an FP32 output without a program is left exact: its rounding is the selected mode's. -/
def drainVal (ms : Mems) (j : Job) (m n : Nat) (x : Num) : Num × TFlags :=
  let ss := scaleList ms j m n
  if ss.isEmpty then (if hasProg j then toFp32 x else (x, 0))
  else if outFmt j == .fp32 && !hasProg j && !dOutMx j.d then
    let (v, f) := applyScales (toFp32 x) ss.dropLast
    let y := numMul v (ss.getLast?.getD one32)
    (y, f ||| flagIf (numIsNan y) flNanSeen)
  else applyScales (toFp32 x) ss

/-- The tensor whose linear index an output element draws at (R201). -/
def outLin (j : Job) (h m n : Nat) : Nat := linIndex h (outEnt j).dim0 (dMorg j.d + m) (outEnt j).dim1 n

/-- The keep bit of DROPOUT in the output's program (R171). -/
def dropKeep (j : Job) (pos : Nat) : Bool := !bernoulli j.draw purpDropout pos (pDropP j.p)

/-- The tensor column of a tile column (R147; FUSED2's output starts at column 0, R178). -/
def outCol (j : Job) (n : Nat) : Nat := if dOpcode j.d == 2 then n else dNorg j.d + n

/-- The arguments of the output's program for tile row `m` of head `h`; columns count from the tile's first. -/
def outArgs (ms : Mems) (j : Job) (h m : Nat) : RfArgs :=
  { a := fp32Of (if dOpcode j.d == 2 then pRf2A j.p else pRfA j.p),
    bias := fun n => if pBias j.p == 0 then numZero else vecNum ms j (pBias j.p) n,
    keepScale := fp32Of (pKeepScale j.p),
    keep := fun n => dropKeep j (outLin j h m (outCol j n)) }
/-- The 16 random bits of an output element, from the FP32 encoding of what enters its conversion (R206). -/
def outBits (j : Job) (h m n : Nat) (x : Num) : Nat :=
  srBits j.draw (outLin j h m (outCol j n)) (dSrData j.d) (fp32Code (fp32Sat x).1)

/-- Convert one output element (R79 to R85). -/
def convertOut (j : Job) (h m n : Nat) (x : Num) : Conv :=
  let mode := rmodeOf (dRound j.d)
  if outFmt j == .fp32 && hasProg j then convert .fp32 .nearest (dNosat j.d) 0 x
  else convert (outFmt j) mode (dNosat j.d) (if mode == .stochastic then outBits j h m n x else 0) x

/-- floor(log2 v) of a finite nonzero magnitude. -/
def floorLog2 : Num → Int
  | .fin _ m e => (m.log2 : Int) + e
  | _ => 0

/-- emax of R86. -/
def mxEmax : Fmt → Int
  | .e4m3 => 8
  | .e5m2 => 15
  | .e3m2 => 4
  | .e2m3 => 2
  | .e2m1 => 2
  | _ => 0

/-- The scale code of an output block (R86). -/
def mxScale (f : Fmt) (vs : List Num) : Nat :=
  if vs.any (fun v => !numIsFinite v) then 0xFF
  else
    let amax := (vs.map numAbs).foldl maxNum numZero
    if numIsZero amax then 127
    else
      let e := floorLog2 amax - mxEmax f + 127
      if e < 0 then 0 else if e > 254 then 254 else e.toNat

/-- An element of a block with scale code E: always saturating (R86). -/
def mxElem (j : Job) (h m : Nat) (e : Nat) (x : Nat × Num) : Conv :=
  let f := outFmt j
  if e == 0xFF then ⟨0, flagIf (numIsNan x.2) flNanSeen⟩
  else
    let v := numScale x.2 (127 - (e : Int) + (if f == .int8 then 6 else 0))
    let mode := rmodeOf (dRound j.d)
    convert f mode false (if mode == .stochastic then outBits j h m x.1 x.2 else 0) v

/-- Cut a row into blocks of 32 columns. -/
def blocks32 : Nat → List (Nat × Num) → List (List (Nat × Num))
  | 0, _ => []
  | n + 1, xs => if xs.isEmpty then [] else xs.take 32 :: blocks32 n (xs.drop 32)

/-! ### Writing output rows -/

/-- The little-endian bit stream of codes of `w` bits (R63). -/
def packCodes (w : Nat) (cs : List Nat) : Nat := cs.foldr (fun c acc => c % 2 ^ w + acc * 2 ^ w) 0

/-- Bytes of codes that start at a byte boundary; bits behind the last code keep what memory holds. -/
def packInto (ms : Mems) (sp : Space) (a w : Nat) (cs : List Nat) : List Byte :=
  let n := cs.length * w
  let len := ceilDiv n 8
  let old := rdLe ms sp a len
  leBytes len (packCodes w cs + old / 2 ^ n * 2 ^ n)

/-- What a drained row does: writes, flags, and statistics of its column group in program order. -/
structure RowOut where
  writes : List MemWrite
  flags : TFlags
  stats : List Num

/-- The row write of output codes from tile column `n0` upward (R152, R153). -/
def outWrite (ms : Mems) (j : Job) (h m n0 : Nat) (codes : List Nat) : MemWrite :=
  let t := outEnt j
  let w := fmtBits (outFmt j)
  let a := rowBase t h (dMorg j.d + m) + outCol j n0 * w / 8
  { sp := tentSpace t j.r, addr := a, bytes := packInto ms (tentSpace t j.r) a w codes }

/-- The scale bytes of an out_mx row (R86). -/
def mxWrite (j : Job) (h m n0 : Nat) (es : List Nat) : MemWrite :=
  let t := outEnt j
  let s := jent j t.bscaleIndex
  { sp := tentSpace s j.r, addr := s.base + s.headStride * h + (dMorg j.d + m) * roundUp (ceilDiv t.dim1 32) 64 + outCol j n0 / 32,
    bytes := es.map (BitVec.ofNat 8) }

/-! ### MGRAD's output (R132) -/

/-- Replace item `i` of a list. -/
def setAt {α : Type} (l : List α) (i : Nat) (v : α) : List α := l.set i v

/-- The codes of a whole value plane, member by member, and the plane's bytes again. -/
def planeCodes (f : Fmt) (byteAt : Nat → Byte) : List Nat :=
  (List.range 256).flatMap (fun n => (List.range (unitSize f)).map (planeCode f byteAt n))

def planeBytes (f : Fmt) (cs : List Nat) : List Byte :=
  leBytes (slotValueBytes f) (packCodes (if f == .e2m1 then 4 else fmtBits f) cs)

/-- Rewrite slot row `rho` of the output for tensor row `k`: mask_ref's metadata, the codes of row k at its active
slots, and zero at inactive ones, in the columns `vals` gives codes for, and in the columns past the last one of the tensor. -/
def mgradSlotRow (ms : Mems) (j : Job) (h g rho k : Nat) (vals : List (Nat × Nat)) : MemWrite :=
  let t := outEnt j
  let mr := jent j (dC j.d)
  let f := tentFmt t
  let sp := tentSpace t j.r
  let a := slotRowAddr t h g rho
  let u := unitSize f
  let refNib (c : Nat) : Nat :=
    bits (rdByte ms (tentSpace mr j.r) (slotRowAddr mr h g rho + slotValueBytes (tentFmt mr) + c / 2)).toNat (4 * (c % 2) + 3) (4 * (c % 2))
  let past := if mr.dim1 % 256 != 0 && vals.any (fun x => x.1 + 1 == mr.dim1) then (List.range 256).filter (fun c => decide (mr.dim1 % 256 ≤ c)) else []
  let old := past.foldl (fun l c => (List.range u).foldl (fun l i => setAt l (c * u + i) 0) l) (planeCodes f (fun o => rdByte ms sp (a + o)))
  let cs := vals.foldl (fun l x =>
    let c := x.1 % 256
    let s := fwdSlot ms mr j.r h g rho c
    let k0 := (4 * (rho / layoutSlots mr.layout) + s.idx) * u
    (List.range u).foldl (fun l i =>
      let act := if i == 0 then s.lo else s.hi
      if !act then setAt l (c * u + i) 0 else if k0 + i == k then setAt l (c * u + i) x.2 else l) l) old
  let nib := (vals.map (fun (x : Nat × Nat) => x.1 % 256) ++ past).foldl (fun l c => setAt l c (refNib c))
    ((List.range 256).map (fun c => bits (rdByte ms sp (a + slotValueBytes f + c / 2)).toNat (4 * (c % 2) + 3) (4 * (c % 2))))
  { sp := sp, addr := a, bytes := planeBytes f cs ++ leBytes 128 (packCodes 4 nib) }

/-- The spill entries of mask_ref on tensor row `k`: copied with their new values, each to the same place (R132). -/
def mgradSpills (ms : Mems) (j : Job) (h g k : Nat) (vals : List (Nat × Nat)) : List MemWrite :=
  let t := outEnt j
  let mr := jent j (dC j.d)
  let ps := ceilDiv (slotRows mr) 256
  let gs := groups mr.dim1
  let p := k / dirPassK (tentFmt mr) mr.layout
  let word (i : Nat) : Nat := rdLe ms (tentSpace mr j.r) (mr.spillBase + headOff mr h + 4 * i) 4
  let a := word (g * ps + p)
  match spillRange ms mr j.r h g p with
  | none => []
  | some es =>
    let dir : List MemWrite := [g * ps + p, g * ps + p + 1, gs * ps].map (fun i =>
      { sp := tentSpace t j.r, addr := t.spillBase + headOff t h + 4 * i, bytes := leBytes 4 (word i) })
    dir ++ ((List.range es.length).zip es).filterMap (fun x =>
      match vals.find? (fun v => v.1 == rawN x.2) with
      | some v => if rawK x.2 == k then
          some { sp := tentSpace t j.r, addr := t.spillBase + headOff t h + dirBytes gs ps + 8 * (a + x.1),
                 bytes := leBytes 8 (v.2 + 2 ^ 16 * rawK x.2 + 2 ^ 40 * rawN x.2) }
        else none
      | none => none)

/-- Every write of an MGRAD row: all slot rows of its quad, then its spill entries. -/
def mgradWrites (ms : Mems) (j : Job) (h m g : Nat) (vals : List (Nat × Nat)) : List MemWrite :=
  let mr := jent j (dC j.d)
  let k := dMorg j.d + m
  let s := layoutSlots mr.layout
  let q := k / (4 * unitSize (tentFmt mr))
  (List.range s).map (fun i => mgradSlotRow ms j h g (q * s + i) k vals) ++ mgradSpills ms j h g k vals

/-- A position of MGRAD's row `k` that is active in mask_ref (R120, R132). -/
def refActive (ms : Mems) (j : Job) (h k n : Nat) : Bool :=
  let mr := jent j (dC j.d)
  let s := layoutSlots mr.layout
  let u := unitSize (tentFmt mr)
  let q := k / (4 * u)
  ((List.range s).any (fun i =>
    let sl := fwdSlot ms mr j.r h (n / 256) (q * s + i) (n % 256)
    (sl.lo && (4 * q + sl.idx) * u == k) || (sl.hi && (4 * q + sl.idx) * u + 1 == k))) ||
  (match spillRange ms mr j.r h (n / 256) (k / dirPassK (tentFmt mr) mr.layout) with
   | some es => es.any (fun e => rawK e == k && rawN e == n)
   | none => false)

/-- Drain one row of a column group: `vals` are its live tile columns and final values, with the flags they
raised (R78 to R87, R106, R132). DESIGN CHOICE (log 42): R132 converts MGRAD's positions by R78 to R84 alone, so
out_mx has no effect in its drain and writes no scale bytes. -/
def drainRow (ms : Mems) (j : Job) (h m g : Nat) (vals : List (Nat × Num)) : RowOut :=
  let scaled := vals.map (fun x => (x.1, drainVal ms j m x.1 x.2))
  let f0 := scaled.foldl (fun f x => f ||| x.2.2) (0 : TFlags)
  let row := rfRun (outArgs ms j h m) (outProg j.d) { vals := scaled.map (fun x => (x.1, x.2.1)), flags := f0, stats := [] }
  if dOpcode j.d == 5 then
    let act := row.vals.filter (fun x => refActive ms j h (dMorg j.d + m) (dNorg j.d + x.1))
    let cs := act.map (fun x => (x.1, convertOut j h m x.1 x.2))
    let all := row.vals.map (fun x => (dNorg j.d + x.1, ((cs.find? (fun y => y.1 == x.1)).map (fun y => y.2.code)).getD 0))
    { writes := mgradWrites ms j h m (dNorg j.d / 256 + g) all, flags := cs.foldl (fun f x => f ||| x.2.flags) row.flags, stats := [] }
  else if dOutMx j.d then
    let bs := (blocks32 8 row.vals).map (fun b =>
      let e := mxScale (outFmt j) (b.map (·.2))
      (e, b.map (mxElem j h m e)))
    let cs := bs.flatMap (·.2)
    { writes := [outWrite ms j h m (256 * g) (cs.map (·.code)), mxWrite j h m (256 * g) (bs.map (·.1))],
      flags := cs.foldl (fun f x => f ||| x.flags) row.flags, stats := row.stats }
  else
    let cs := row.vals.map (fun x => convertOut j h m x.1 x.2)
    { writes := [outWrite ms j h m (256 * g) (cs.map (·.code))],
      flags := cs.foldl (fun f x => f ||| x.flags) row.flags, stats := row.stats }

/-! ### Row statistics (R172) -/

/-- The statistic kinds of all of a descriptor's programs in order: true for ROWSUM. -/
def jobStats (d : List W64) : List Bool :=
  if dOpcode d == 2 then statKinds (prog1 d) ++ statKinds (prog2 d) else statKinds (outProg d)

/-- Combine the groups of a row: `per` lists each group's statistics, in ascending group order. -/
def combineStats (kinds : List Bool) (per : List (List Num)) : List Num × TFlags :=
  ((List.range kinds.length).zip kinds).foldl (fun acc k =>
    let (v, f) := statCombine k.2 (per.map (fun l => l.getD k.1 numZero))
    (acc.1 ++ [v], acc.2 ||| f)) ([], 0)

/-- The statistics of tile row `m` of head `h` as bytes in the row-stat vector. -/
def statWrite (j : Job) (h m : Nat) (vs : List Num) : List MemWrite :=
  if pRstat j.p == 0 || vs.isEmpty then []
  else
    let t := jent j (pRstat j.p)
    [{ sp := tentSpace t j.r, addr := t.base + t.headStride * h + 4 * vs.length * m,
       bytes := vs.flatMap (fun v => leBytes 4 (fp32Code v).toNat) }]

/-- Live columns of group `g`, counted from the tile's first column. -/
def liveCols (n g : Nat) : List Nat := (List.range (min 256 (n - 256 * g))).map (256 * g + ·)

end Sys2Proof.Machine
end

