-- ==== Sys2Proof/Machine/Compute.lean ====
section
/-!
DEFINITION. What a logical tile computes (R147 to R153, R159): the rows of GEMM, SPMM, TSPMM, MGRAD, CONV and GEMV, the
fused pair with its online softmax (R173 to R181), and FOLD (R110, R111).
-/

namespace Sys2Proof.Machine

/-! ### One row of one column group -/

/-- The writes of a row's pairs to the acc_out buffer, and of its wide values (R99, R100). -/
def partWrites (j : Job) (h m g : Nat) (wide : Bool) (accs : List ElemAcc) : List MemWrite :=
  let i := partialIdx j h g m
  (if dAccOut j.d == 0 then [] else
    let t := jent j (dAccOut j.d)
    pairWrites (tentSpace t j.r) (bufRow t i) 0 (accs.map (·.pair))) ++
  (if wide && jobWide j != .none then
    let t := jent j (dWide j.d)
    [wideWrite (tentSpace t j.r) (jobWide j) (wideRow (jobWide j) t.base i) 0 (accs.map (·.w))]
  else [])

/-- What leaves accumulation for a row of a group: partial buffers, and the drained output unless the descriptor
names acc_out (R99, R106). -/
def finishRow (ms : Mems) (j : Job) (h m g : Nat) (spilled : Bool) (accs : List (Nat × ElemAcc)) : RowOut :=
  let fl := accs.foldl (fun f a => f ||| elemFlags (partInt j) a.2) (0 : TFlags)
  let parts := partWrites j h m g (spilled || dAccOut j.d != 0) (accs.map (·.2))
  if dAccOut j.d != 0 then { writes := parts, flags := fl, stats := [] }
  else
    let fin := accs.map (fun a => (a.1, elemFinal (partInt j) j a.2))
    let out := drainRow ms j h m g (fin.map (fun x => (x.1, x.2.1)))
    { writes := parts ++ out.writes, flags := fin.foldl (fun f x => f ||| x.2.2) (fl ||| out.flags), stats := out.stats }

/-- The list entries of a group and pass of the tile; a tile that reaches here has them all in order. -/
def tileZ (ms : Mems) (j : Job) (h g p : Nat) : List ZEntry := (zEntries ms j h (nFirst j / 256 + g) p).getD []

/-- One row of one column group through every pass (R148). -/
def groupRow (ms : Mems) (j : Job) (h m g : Nat) : RowOut :=
  let accs := (liveCols (dNt j.d) g).map (fun n => (n, (runElem ms j (tileZ ms j h g) h m g (n - 256 * g)).1))
  finishRow ms j h m g (anySpill ms j (passList j).length) accs

/-! ### FUSED2 -/

/-- The lead's product: no partial buffers, and pairs without spills, but for DET, where its passes too add up
exactly (R112, R176, R177). -/
def leadJob (j : Job) : Job :=
  let d := setFld j.d 0x10 47 0 0
  { j with d := if dDet d then d else setFld (setFld d 0x28 5 4 0) 0x28 28 16 0 }

/-- The second product as a product of its own: the intermediate is a dense operand of inter_fmt in the place of
entry 0, and W2 the weight (R173, R174). -/
def followJob (j : Job) : Job :=
  let inter : List W64 := [0, BitVec.ofNat 64 (dInterFmt j.d * 2 ^ 32 + 2 ^ 43), 0, 0, 0, 0, 0, 0]
  let d := setFld (setFld (setFld (setFld j.d 0x00 7 0 1) 0x08 31 0 (dW2 j.d * 2 ^ 16)) 0x18 48 28 (n1Of j)) 0x20 63 32 0
  { j with d := d, ents := tset j.ents 0 inter }

def interFmt (j : Job) : Fmt := (fmtOfCode (dInterFmt j.d)).getD .bf16

/-- The last step of rf1_prog is SOFTMAX_ONLINE; and its causal bit (R168, R178). -/
def softStep (d : List W64) : Option Nat := (rfSteps (prog1 d)).find? (fun s => rfCode s == 11)
def isSoft (j : Job) : Bool := dOpcode j.d == 2 && (softStep j.d).isSome
def causal (j : Job) : Bool := (softStep j.d).any (fun s => rfArg s % 2 == 1)

/-- A row's softmax state: m, with EMPTY as -Inf, and l (R178, R181). -/
structure SoftRow where
  m : Num
  l : Num
  deriving DecidableEq, Repr

/-- The smallest integral value at or above a number. -/
def ceilNum : Num → Num
  | .fin n m e =>
    if e ≥ 0 then .fin n m e
    else
      let q := m >>> (-e).toNat
      let up := !n && q <<< (-e).toNat != m
      .fin (n && q != 0) (if up then q + 1 else q) 0
  | x => x

/-- A finite integral number as an integer. -/
def intPart : Num → Int
  | .fin n m e => intAt n m e 0
  | _ => 0

/-- Multiply an FP32 value by 2^d, rounding below the normal range to nearest, ties to even (R178, R179). -/
def ldexp32 (x : Num) (d : Int) : Num := (fp32Sat (numScale x d)).1

/-- One group of the online softmax (R178): the intermediate codes, the exponent d, the state, and the flags. -/
def softGroup (j : Job) (m : Nat) (xs : List (Nat × Num)) (st : SoftRow) : List Nat × Int × SoftRow × TFlags :=
  let q : Int := ((dMorg j.d + m : Nat) : Int) + pQoff j.p
  let ys := xs.map (fun x => if causal j && decide (q < ((dNorg j.d + x.1 : Nat) : Int)) then .inf true else x.2)
  let gm := maxList ys
  let m' := if gm == .inf true then st.m else maxNum st.m (ceilNum gm)
  let d : Int := if st.m == .inf true then 0 else
    match m' with
    | .fin _ _ _ => intPart st.m - intPart m'
    | _ => 0
  let ps := ys.map (fun y =>
    if m' == .inf true then { code := 0, flags := 0 }
    else convert (interFmt j) .nearest false 0 (exp2Num (fp32Add y (numNeg m')).1).1)
  let vals := ps.map (fun c => decodeElem (interFmt j) c.code)
  let (sum, s1) := fp32Tree 8 vals
  let (l', s2) := fp32Add (ldexp32 st.l d) sum
  (ps.map (·.code), d, { m := m', l := l' }, flagIf (s1 || s2) flSat ||| ps.foldl (fun f c => f ||| c.flags) (0 : TFlags))

/-- Rescale a pair by 2^d (R179). -/
def rescalePair (p : Pair) (d : Int) : Pair :=
  if p.2 == satMark || d == 0 then p
  else (fp32Code (ldexp32 (fp32Of p.1) d), bf16Rne (numScale (bf16Of p.2) d))

/-- Rescale a wide value by 2^d (R179): X320 shifts and rounds at bit 0. -/
def rescaleWide (f : WideFmt) (v : SVal) (d : Int) : SVal :=
  match v with
  | .sat n => .sat n
  | .num x =>
    if d == 0 then v
    else if f == .x320 then .num (detTerm (numScale x d) none)
    else .num (round64 (numScale x d))

def rescaleElem (j : Job) (a : ElemAcc) (d : Int) : ElemAcc :=
  { a with pair := rescalePair a.pair d, w := rescaleWide (jobWide j) a.w d }

/-- The lead's row function arguments (R171: DROPOUT draws in the intermediate's positions). -/
def leadArgs (ms : Mems) (j : Job) (h m : Nat) : RfArgs :=
  { a := fp32Of (pRfA j.p),
    bias := fun n => if pBias j.p == 0 then numZero else vecNum ms j (pBias j.p) n,
    keepScale := fp32Of (pKeepScale j.p),
    keep := fun n => dropKeep j (linIndex h (actEnt j).dim0 (dMorg j.d + m) (n1Of j) n) }

/-- The row state before and after a FUSED2 row, and the follower's elements, per W2 group. -/
structure FusedRow where
  soft : SoftRow
  accs : List (List (Nat × ElemAcc))
  p : Nat
  flags : TFlags
  stats : List (List Num)

/-- The row-state vector's element of a row (R181). -/
def readSoft (ms : Mems) (j : Job) (m : Nat) : SoftRow :=
  if pRsIn j.p == 0 then { m := .inf true, l := numZero }
  else
    let t := jent j (pRsIn j.p)
    { m := fp32Of (BitVec.ofNat 32 (rdLe ms (tentSpace t j.r) (t.base + 8 * m) 4)),
      l := fp32Of (BitVec.ofNat 32 (rdLe ms (tentSpace t j.r) (t.base + 8 * m + 4) 4)) }

def softWrite (j : Job) (m : Nat) (st : SoftRow) : List MemWrite :=
  if pRsOut j.p == 0 then []
  else
    let t := jent j (pRsOut j.p)
    [{ sp := tentSpace t j.r, addr := t.base + 8 * m, bytes := leBytes 4 (fp32Code st.m).toNat ++ leBytes 4 (fp32Code st.l).toNat }]

/-- What the lead makes of a row's final elements in a W1 group: the intermediate's codes, the exponent the partials are rescaled
by, the row state, flags, and statistics (R173, R178). -/
structure LeadOut where
  codes : List Nat
  shift : Int
  soft : SoftRow
  flags : TFlags
  stats : List Num

def leadOut (ms : Mems) (j : Job) (h m : Nat) (soft : SoftRow) (lead : List (Nat × ElemAcc)) : LeadOut :=
  let lj := leadJob j
  let vals := lead.map (fun a => let (x, f) := elemFinal (jobInt lj) lj a.2; let (v, f2) := toFp32 x; (a.1, v, elemFlags (jobInt lj) a.2 ||| f ||| f2))
  let row := rfRun (leadArgs ms j h m) (prog1 j.d) { vals := vals.map (fun x => (x.1, x.2.1)), flags := vals.foldl (fun f x => f ||| x.2.2) 0, stats := [] }
  if isSoft j then
    let (codes, d, st, f) := softGroup j m row.vals soft
    { codes := codes, shift := d, soft := st, flags := row.flags ||| f, stats := row.stats }
  else
    let cs := row.vals.map (fun x => convert (interFmt j) .nearest false 0 x.2)
    { codes := cs.map (·.code), shift := 0, soft := soft, flags := cs.foldl (fun f c => f ||| c.flags) row.flags, stats := row.stats }

/-- One element of the follower in pass `g1`: the partial is rescaled, unless the row starts in it, and the pass sum added
(R176, R179). `n` is P with this pass counted. -/
def followElem (j : Job) (g1 n : Nat) (d : Int) (a : ElemAcc) (y : Num × TFlags) : ElemAcc :=
  accElem false j n (if g1 == 0 && dAccIn j.d == 0 then a else rescaleElem j a d) y none

/-- One W1 group of a FUSED2 row: the lead's products and row function, then pass g1 of the second product for every
W2 group (R176, R178, R179). -/
def fusedGroup (ms : Mems) (j : Job) (h m : Nat) (st : FusedRow) (g1 : Nat) : FusedRow :=
  let lj := leadJob j
  let lead := (liveCols (n1Of j) g1).map (fun n => (n, (runElem ms lj (tileZ ms lj h g1) h m g1 (n - 256 * g1)).1))
  let out := leadOut ms j h m st.soft lead
  let fj := followJob j
  let act (k : Nat) : Num := decodeElem (interFmt j) (out.codes.getD (k - 256 * g1) 0)
  let accs := st.accs.map (fun grp => grp.map (fun a =>
    (a.1, followElem j g1 (st.p + 1) out.shift a.2 (rootOf false (treeWith ms fj h act (fun _ => some 0) a.1 g1 0)))))
  { soft := out.soft, accs := accs, p := nextP j (st.p + 1), flags := st.flags ||| out.flags, stats := st.stats ++ [out.stats] }

/-- The value an output element takes after the last pass of a softmax FUSED2 (R180): the drain scales, then recip(l);
a row with l = +0 is +0 in every element. -/
def normalise (ms : Mems) (j : Job) (m n : Nat) (soft : SoftRow) (x : Num) : Num × TFlags :=
  let (v, f) := applyScales (toFp32 x) (scaleList ms j m n)
  let (r, s1) := recipNum soft.l
  let (y, s2) := fp32Mul v r
  (y, f ||| flagIf (s1 || s2) flSat ||| flagIf (numIsNan y) flNanSeen)

/-- Drain a FUSED2 row of W2 group `g` (R180). -/
def fusedDrain (ms : Mems) (j : Job) (h m g : Nat) (soft : SoftRow) (vals : List (Nat × Num)) : RowOut :=
  if !isSoft j then drainRow ms j h m g vals
  else
    let empty := numIsZero soft.l
    let nv := vals.map (fun x => (x.1, if empty then (numZero, 0) else normalise ms j m x.1 soft x.2))
    let f0 := nv.foldl (fun f x => f ||| x.2.2) (0 : TFlags)
    let r0 : RfRow := { vals := nv.map (fun x => (x.1, x.2.1)), flags := f0, stats := [] }
    let row := if empty then { r0 with stats := (statKinds (prog2 j.d)).map (fun _ => numZero) } else rfRun (outArgs ms j h m) (prog2 j.d) r0
    -- the scales have been applied: conversion takes the row function's FP32 result
    if dOutMx j.d then
      let bs := (blocks32 8 row.vals).map (fun b =>
        let e := mxScale (outFmt j) (b.map (·.2))
        (e, b.map (mxElem j h m e)))
      let cs := bs.flatMap (·.2)
      { writes := [outWrite ms j h m (256 * g) (cs.map (·.code)), mxWrite j h m (256 * g) (bs.map (·.1))],
        flags := cs.foldl (fun f x => f ||| x.flags) row.flags, stats := row.stats }
    else
      let cs := row.vals.map (fun x => convertOut j h m x.1 x.2)
      { writes := [outWrite ms j h m (256 * g) (cs.map (·.code))], flags := cs.foldl (fun f x => f ||| x.flags) row.flags, stats := row.stats }

/-- A FUSED2 row behind its last pass, of `passes`: partial buffers, outputs, statistics and row state (R99, R172, R180, R181). -/
def fusedOut (ms : Mems) (j : Job) (h m passes : Nat) (fin : FusedRow) : List MemWrite × TFlags :=
  let outs := ((List.range (tileGroups j)).zip fin.accs).map (fun x =>
    let fl := x.2.foldl (fun f a => f ||| elemFlags false a.2) (0 : TFlags)
    let parts := partWrites j h m x.1 (anySpill ms j passes || dAccOut j.d != 0) (x.2.map (·.2))
    if dAccOut j.d != 0 then ({ writes := parts, flags := fl, stats := [] } : RowOut)
    else
      let fv := x.2.map (fun a => (a.1, elemFinal false j a.2))
      let out := fusedDrain ms j h m x.1 fin.soft (fv.map (fun y => (y.1, y.2.1)))
      { writes := parts ++ out.writes, flags := fv.foldl (fun f y => f ||| y.2.2) (fl ||| out.flags), stats := out.stats })
  let (s1, f1) := combineStats (statKinds (prog1 j.d)) fin.stats
  let (s2, f2) := combineStats (statKinds (prog2 j.d)) (outs.map (·.stats))
  (outs.flatMap (·.writes) ++ statWrite j h m (s1 ++ s2) ++ softWrite j m fin.soft,
   outs.foldl (fun f o => f ||| o.flags) (fin.flags ||| f1 ||| f2))

/-- One FUSED2 row from its first W1 group to its output. -/
def fusedTileRow (ms : Mems) (j : Job) (h m : Nat) : List MemWrite × TFlags :=
  let start : FusedRow :=
    { soft := readSoft ms j m,
      accs := (List.range (tileGroups j)).map (fun g => (liveCols (dNt j.d) g).map (fun n => (n, startElem ms j h m g (n - 256 * g)))),
      p := startP ms j, flags := 0, stats := [] }
  let n := if dKt j.d == 0 then 0 else groups (n1Of j)
  fusedOut ms j h m n ((List.range n).foldl (fusedGroup ms j h m) start)

/-! ### Tiles -/

/-- One tile row of every column group, with the row-stat vector (R172). -/
def tileRow (ms : Mems) (j : Job) (h m : Nat) : List MemWrite × TFlags :=
  if dOpcode j.d == 2 then fusedTileRow ms j h m
  else
    let per := (List.range (tileGroups j)).map (groupRow ms j h m)
    let (st, f) := combineStats (jobStats j.d) (per.map (·.stats))
    (per.flatMap (·.writes) ++ (if dAccOut j.d == 0 then statWrite j h m st else []), per.foldl (fun f o => f ||| o.flags) f)

/-- The header that an acc_out buffer receives (R99, R159). -/
def outHead (ms : Mems) (j : Job) (passes : Nat) (flags : TFlags) (rows : Nat) : PHead :=
  let x := accInHead ms j
  { total := (x.map (·.total)).getD 0 + passes, since := if passes == 0 then startP ms j else if dDet j.d then 0 else
      (if dOpcode j.d == 2 then (List.range passes).foldl (fun n _ => nextP j (n + 1)) (startP ms j) else endP ms j),
    flags := flags ||| (x.map (·.flags)).getD 0, int32 := partInt j, wide := dWideFmt j.d, det := dDet j.d, rows := rows }

/-- Passes that each element of the tile accumulates (R90, R105, R176). -/
def elemPasses (j : Job) : Nat :=
  if dKt j.d == 0 then 0
  else if dOpcode j.d == 2 then groups (n1Of j) else passesOf j * piecesOf (jobMode j)

/-- Flags that the tile's stationary loads and lists raise (R77, R125). -/
def loadFlags (ms : Mems) (j : Job) : TFlags :=
  let gs := groups (nCols j)
  (List.range (dHeads j.d)).foldl (fun f h => (List.range gs).foldl (fun f g =>
    (List.range (passesOf j)).foldl (fun f p =>
      let zs := tileZ ms j h g p
      let n0 := nFirst j + 256 * g
      f ||| flagIf (loadSat ms j h n0 (min (n0 + 256) (nFirst j + nCols j)) p) flSat ||| flagIf (zs.any (fun z => !z.tover)) flSpillUsed |||
        flagIf (zs.any (fun z => (bankCode ms j (wEnt j) (jobMode j).bank z.code z.chan).2)) flSat) f) f) (0 : TFlags)

/-- The spill list of MGRAD's mask_ref is out of order (R124, R132). -/
def refListsBad (ms : Mems) (j : Job) : Bool :=
  let t := jent j (dC j.d)
  dOpcode j.d == 5 && (List.range (dHeads j.d)).any (fun h =>
    (allRanges (spillRange ms t j.r h) (groups t.dim1) (ceilDiv (slotRows t) 256)).isNone)

/-- Some spill or T-overflow list that the tile reads is out of order (R124). -/
def listsBad (ms : Mems) (j : Job) : Bool :=
  refListsBad ms j || (List.range (dHeads j.d)).any (fun h => (List.range (groups (nCols j))).any (fun g =>
    (List.range (passesOf j)).any (fun p => (zEntries ms j h (nFirst j / 256 + g) p).isNone)))

/-- Rows of the band a sub-tile of the tile runs in (R153). DESIGN CHOICE (log 42): FUSED2 runs unbanded, for its sub-tile takes a
pair of whole arrays. -/
def packRows (j : Job) : Nat :=
  if dHeads j.d < 2 || dOpcode j.d == 2 || tileRows j > 128 then 256 else if tileRows j ≤ 64 then 64 else 128

/-- A column group, pass or band pass lies only partly inside the tile (R151). -/
def maskedEdge (j : Job) : Bool :=
  dKt j.d != 0 && dMt j.d != 0 && dNt j.d != 0 &&
  (dNt j.d % 256 != 0 || (dOpcode j.d == 2 && n1Of j % 256 != 0) ||
   dKt j.d % (packRows j * kPerRow (jobMode j).act (jobMode j).w (jobMode j).slots) != 0)

/-- The whole tile: every head and row, then the header of an acc_out buffer. `fl0` are the flags that its
admission and its route have given it. -/
def runTile (ms : Mems) (j : Job) (fl0 : TFlags) : Mems × TFlags :=
  if dMt j.d == 0 || dNt j.d == 0 then
    let fl := fl0 ||| ((accInHead ms j).map (·.flags)).getD 0
    if dAccOut j.d == 0 then (ms, fl)
    else
      let t := jent j (dAccOut j.d)
      (wrBytes ms (tentSpace t j.r) t.base (headBytes { outHead ms j 0 fl 0 with since := startP ms j }), fl)
  else
    let f0 := fl0 ||| if dKt j.d == 0 then 0 else loadFlags ms j ||| (if dOpcode j.d == 2 then loadFlags ms (followJob j) else 0) ||| flagIf (maskedEdge j) flMaskedEdge
    let f1 := f0 ||| ((accInHead ms j).map (·.flags)).getD 0
    let (ms1, fl) := (List.range (dHeads j.d)).foldl (fun st h => (List.range (dMt j.d)).foldl (fun (st : Mems × TFlags) m =>
      let (ws, f) := tileRow st.1 j h m
      (applyWrites st.1 ws, st.2 ||| f)) st) (ms, f1)
    if dAccOut j.d == 0 then (ms1, fl)
    else
      let t := jent j (dAccOut j.d)
      (wrBytes ms1 (tentSpace t j.r) t.base (headBytes (outHead ms j (elemPasses j) fl (partialRows j))), fl)

/-! ### FOLD (R110, R111, R240) -/

/-- FOLD's conversion as a job without operands. -/
def foldJob (j : Job) : Job := { j with d := setFld (foAsCompute j.d) 0x00 7 0 8, p := [] }

def foldRows (j : Job) : Nat := foHeads j.d * groups (foNt j.d) * foMt j.d

/-- The parts of a FOLD by number. -/
def foldParts (j : Job) : List Nat := List.range (foCount j.d)
def partEnt (j : Job) (i : Nat) : TEnt := jent j (foPart j.d i)
def partHead (ms : Mems) (j : Job) (i : Nat) : PHead := readHead ms (tentSpace (partEnt j i) j.r) (partEnt j i).base

/-- The index of the first part whose header breaks a condition of R110, else of an INT32 output over partials that are
not INT32 (R84). -/
def foldBad (ms : Mems) (j : Job) : Option Nat :=
  (((foldParts j).find? (fun i =>
    let x := partHead ms j i
    x.rows != foldRows j || x.int32 != (partHead ms j 0).int32 || x.wide == 3 || ((foPartWide j.d i == 0) != (x.wide == 0)))).map (foPart j.d)).orElse
  (fun _ => if foAccOut j.d == 0 && (jent j (foOut j.d)).fmtCode == 10 && !(partHead ms j 0).int32 then some (foOut j.d) else none)

/-- The first operand wide region that is too small, and the bytes missing (R110). -/
def foldShort (ms : Mems) (j : Job) : Option (Nat × Nat) :=
  (foldParts j).findSome? (fun i =>
    if foPartWide j.d i == 0 then none
    else
      let need := foldRows j * 256 * wideBytes (wideOf (partHead ms j i).wide)
      let have_ := (jent j (foPartWide j.d i)).alloc
      if have_ < need then some (foPartWide j.d i, need - have_) else none)

/-- Every value of an element in the parts: wide value, then pair (R110). -/
def foldVals (ms : Mems) (j : Job) (row c : Nat) : List SVal :=
  (foldParts j).flatMap (fun i =>
    let x := partHead ms j i
    let t := partEnt j i
    let w := wideOf x.wide
    let tw := jent j (foPartWide j.d i)
    (if x.wide == 0 then [] else [readWide ms (tentSpace tw j.r) w (wideRow w tw.base row) c]) ++
    [pairVal x.int32 (readPair ms (tentSpace t j.r) (bufRow t row) c)])

/-- One row of one group of a FOLD. -/
def foldRow (ms : Mems) (j : Job) (h g m : Nat) : List MemWrite × TFlags :=
  let fj := foldJob j
  let row := (h * groups (foNt j.d) + g) * foMt j.d + m
  let cols := liveCols (foNt j.d) g
  if foAccOut j.d == 0 then
    let vs := cols.map (fun n => (n, sumVals (foldVals ms j row (n - 256 * g))))
    let out := drainRow ms fj h m g (vs.map (fun x => (x.1, x.2.1)))
    (out.writes, vs.foldl (fun f x => f ||| x.2.2) out.flags)
  else
    let t := jent j (foAccOut j.d)
    let tw := jent j (foWideOut j.d)
    let vs := cols.map (fun n => foldWide (foldVals ms j row (n - 256 * g)))
    (pairWrites (tentSpace t j.r) (bufRow t row) 0 (vs.map (fun _ => pairZero)) ++
      [wideWrite (tentSpace tw j.r) .x320 (wideRow .x320 tw.base row) 0 (vs.map (·.1))],
     vs.foldl (fun f x => f ||| x.2) (0 : TFlags))

/-- The whole FOLD: rows, then the header of an X320 output (R110). DESIGN CHOICE (log 42): the header's int32 bit is
the parts' own, which all agree. -/
def runFold (ms : Mems) (j : Job) : Mems × TFlags :=
  let hf := (foldParts j).foldl (fun f i => f ||| (partHead ms j i).flags) (0 : TFlags)
  let (ms1, fl) := (List.range (foHeads j.d)).foldl (fun st h => (List.range (groups (foNt j.d))).foldl (fun st g =>
    (List.range (foMt j.d)).foldl (fun (st : Mems × TFlags) m =>
      let (ws, f) := foldRow st.1 j h g m
      (applyWrites st.1 ws, st.2 ||| f)) st) st) (ms, 0)
  if foAccOut j.d == 0 then (ms1, fl)
  else
    let t := jent j (foAccOut j.d)
    let hd : PHead :=
      { total := (foldParts j).foldl (fun n i => n + (partHead ms j i).total) 0, since := 0, flags := hf,
        int32 := (partHead ms j 0).int32, wide := 2, det := (foldParts j).all (fun i => (partHead ms j i).det), rows := foldRows j }
    (wrBytes ms1 (tentSpace t j.r) t.base (headBytes hd), fl)

end Sys2Proof.Machine
end

