-- ==== Sys2Proof/Machine/Footprint.lean ====
section
/-!
DEFINITION. The bytes a tile touches (R22, R160, R161, R186, R412), weight residency (R145, R161, R162), and the choice
of a region and of the Side Path (R190, R214, R253, R254).
-/

namespace Sys2Proof.Machine

/-! ### Footprints -/

/-- Bytes of a weight tensor's stored block scales over the tile (R72, R160). -/
def scaleFoot (j : Job) : Nat := if (wEnt j).bscale then ceilDiv (dKt j.d) 32 * roundUp (nCols j) 64 else 0

/-- Column groups of the stored slot rows that a transposed use reads over its K range: DGRAD's, of each tap (R160, R182). -/
def storedGroups (j : Job) : Nat :=
  match tapOf j with
  | none => groups (dKt j.d)
  | some c => if c == 0 then 0 else ceilDiv (dKt j.d) c * groups c

/-- The weight footprint of one head of a product (R160), over the tile's column groups and K range: a transposed use of a slotted
tensor holds the forward slot rows of those columns and groups, and the T-map rows. -/
def headFoot (j : Job) : Nat :=
  let t := wEnt j
  let f := tentFmt t
  let g := groups (nCols j)
  let spill := dirBytes (groups t.dim1) (ceilDiv (slotRows t) 256) + 8 * t.spillCount
  (if t.layout == 0 then dKt j.d * roundUp (packedBytes f (nCols j)) 64
   else if transposed j then
     storedGroups j * (ceilDiv (nCols j) (4 * unitSize f) * layoutSlots t.layout) * slotRowBytes f + spill +
       g * tileRows j * 256 + dirBytes (groups t.dim0) (ceilDiv (tmapRows t) 256) + 8 * t.toverCount
   else g * tileRows j * slotRowBytes f + spill) +
  scaleFoot j + (if t.expand == 1 then 64 else if t.expand == 2 then roundUp (5 * nCols j) 64 else 0)

/-- The footprint of one product's weights over its heads, and of a descriptor's (R160). -/
def productFoot (j : Job) : Nat := dHeads j.d * headFoot j
def weightFoot (j : Job) : Nat := productFoot j + (if dOpcode j.d == 2 then productFoot (followJob j) else 0)

/-- Rows of a chunk (R148). -/
def chunkRows (j : Job) : Nat := if dMchunk j.d == 0 then dMt j.d else dMchunk j.d
def chunksOf (j : Job) : Nat := if chunkRows j == 0 then 0 else ceilDiv (dMt j.d) (chunkRows j)

/-- Bytes of one CONV input window (R186). DESIGN CHOICE (log 46): where m_chunk is 0 and M_t is no multiple of W_out, R186 leaves the
quotient rows / W_out open; check 0x33 takes it rounded down, none where M_t is below W_out, and the staged window (`windowsOf`) holds every
row that the chunk's output rows read. -/
def windowBytes (j : Job) : Nat :=
  if dOpcode j.d != 6 || cvWout j == 0 then 0
  else
    let outRows := chunkRows j / cvWout j
    (if outRows == 0 then 0 else (outRows - 1) * pGeom j.p 0 + (pFiltR j.p - 1) * pGeom j.p 2 + 1) *
      packedBytes (tentFmt (actEnt j)) (pWin j.p * cvC j)

def windowsFoot (j : Job) : Nat := 4 * windowBytes j

/-- The tile runs without a residency copy (R162). -/
def streamed (resBytes : Nat) (j : Job) : Bool :=
  dAllowStream j.d && decide (resBytes < weightFoot j + windowsFoot j)

/-! ### What a tile reads and writes -/

/-- A range of bytes. -/
structure Span where
  sp : Space
  a : Nat
  n : Nat
  deriving DecidableEq, Repr

def entSpan (j : Job) (t : TEnt) (off n : Nat) : Span := { sp := tentSpace t j.r, a := t.base + off, n := n }

/-- One span for each row of a dense operand: rows `m0` to `m0 + m - 1` of every head, elements `k0` to `k0 + k - 1`. -/
def rowSpans (j : Job) (t : TEnt) (heads m0 m k0 k : Nat) : List Span :=
  if m == 0 || k == 0 then []
  else (List.range heads).flatMap (fun h => (List.range m).map (fun i =>
    let b := k0 * fmtBits (tentFmt t) / 8
    { sp := tentSpace t j.r, a := rowBase t h (m0 + i) + b, n := ceilDiv ((k0 + k) * fmtBits (tentFmt t)) 8 - b }))

/-- Spans of an activation scale array, or of an output's (R72, R86). -/
def actScaleSpans (j : Job) (t : TEnt) (heads m0 m cols k0 k : Nat) : List Span :=
  if !t.bscale || m == 0 || k == 0 then []
  else
    let s := jent j t.bscaleIndex
    (List.range heads).flatMap (fun h => (List.range m).map (fun i =>
      { sp := tentSpace s j.r, a := s.base + s.headStride * h + (m0 + i) * roundUp (ceilDiv cols 32) 64 + k0 / 32,
        n := ceilDiv (k0 + k) 32 - k0 / 32 }))

/-- Spans of a weight scale array (R72): rows of `cols` bytes. -/
def wScaleSpans (j : Job) (t : TEnt) (heads k0 k cols n0 n : Nat) : List Span :=
  if !t.bscale || k == 0 || n == 0 then []
  else
    let s := jent j t.bscaleIndex
    (List.range heads).flatMap (fun h => (List.range (ceilDiv (k0 + k) 32 - k0 / 32)).map (fun i =>
      { sp := tentSpace s j.r, a := s.base + s.headStride * h + (k0 / 32 + i) * roundUp cols 64 + n0, n := n }))

/-- Spans of a LUT or of a scale with zero point (R232). -/
def qparamSpans (j : Job) (t : TEnt) : List Span :=
  if t.expand == 0 then []
  else if t.expand == 1 then [entSpan j (jent j t.qparam) 0 32] else [entSpan j (jent j t.qparam) 0 (5 * t.dim1)]

/-- The spill region and the T-overflow region of a head with their directories (R124, R129). -/
def spillSpan (j : Job) (t : TEnt) (h : Nat) : Span :=
  { sp := tentSpace t j.r, a := t.spillBase + headOff t h, n := dirBytes (groups t.dim1) (ceilDiv (slotRows t) 256) + 8 * t.spillCount }
def toverSpan (j : Job) (t : TEnt) (h : Nat) : Span :=
  { sp := tentSpace t j.r, a := t.spillBase + headOff t h + 64 * t.toverOff,
    n := dirBytes (groups t.dim0) (ceilDiv (tmapRows t) 256) + 8 * t.toverCount }

/-- Spans of the weights of a product (R122, R128, R147). -/
def weightSpans (j : Job) : List Span :=
  let t := wEnt j
  let f := tentFmt t
  let heads := dHeads j.d
  let k := dKt j.d
  let n := nCols j
  if k == 0 || n == 0 then []
  else
    (if t.layout == 0 then
      (if transposed j then rowSpans j { t with batchRows := 0 } heads 0 t.dim0 0 t.dim1
       else rowSpans j { t with batchRows := 0 } heads (dKorg j.d) k (nFirst j) n)
     else (List.range heads).flatMap (fun h =>
      (if transposed j then
        [{ sp := tentSpace t j.r, a := slotRowAddr t h 0 0, n := groups t.dim1 * slotRows t * slotRowBytes f },
         { sp := tentSpace t j.r, a := t.spillBase + headOff t h + 64 * t.tmapOff, n := groups t.dim0 * tmapRows t * 256 }, toverSpan j t h]
       else (List.range (groups n)).map (fun g =>
        { sp := tentSpace t j.r, a := slotRowAddr t h (nFirst j / 256 + g) (firstRow j), n := tileRows j * slotRowBytes f })) ++
      [spillSpan j t h])) ++
    wScaleSpans j t heads (dKorg j.d) k (wCols j) (nFirst j) n ++ qparamSpans j t

/-- Spans of the activation operand (R152, R183). -/
def actSpans (j : Job) : List Span :=
  let t := actEnt j
  let heads := dHeads j.d
  if dKt j.d == 0 then []
  else if dOpcode j.d == 5 then rowSpans j t heads (dKorg j.d) (dKt j.d) (dMorg j.d) (dMt j.d)
  else if dOpcode j.d == 6 then rowSpans j t heads 0 t.dim0 0 t.dim1
  else rowSpans j t heads (dMorg j.d) (dMt j.d) (dKorg j.d) (dKt j.d)

/-- Whole partial buffers and wide regions (R99, R100). -/
def bufSpan (j : Job) (i rows : Nat) : List Span := if i == 0 then [] else [entSpan j (jent j i) 0 (64 + 1536 * rows)]
def wideSpan (j : Job) (i rows : Nat) (f : WideFmt) : List Span := if i == 0 then [] else [entSpan j (jent j i) 0 (256 * wideBytes f * rows)]

def vecSpan (j : Job) (i n : Nat) : List Span := if i == 0 || n == 0 then [] else [entSpan j (jent j i) 0 (4 * n)]

/-- Everything a compute tile reads. -/
def tileReads (j : Job) : List Span :=
  actSpans j ++ weightSpans j ++ (if dOpcode j.d == 2 then weightSpans (followJob j) else []) ++
  actScaleSpans j (actEnt j) (dHeads j.d) (dMorg j.d) (dMt j.d) (actK j) (dKorg j.d) (dKt j.d) ++
  (if dC j.d == 0 then [] else if dOpcode j.d == 5 then [] else rowSpans j (jent j (dC j.d)) (dHeads j.d) (dMorg j.d) (dMt j.d) (dNorg j.d) (dNt j.d)) ++
  bufSpan j (dAccIn j.d) (partialRows j) ++ wideSpan j (pAccInWide j.p) (partialRows j) (jobWide j) ++
  vecSpan j (pRowScale j.p) (dMt j.d) ++ vecSpan j (pChanScale j.p) (dNt j.d) ++ vecSpan j (pBias j.p) (nCols j) ++ vecSpan j (pRsIn j.p) (2 * dMt j.d)

/-- Spans of the output rows, or of MGRAD's slot rows and spill entries (R132, R152). -/
def outSpans (j : Job) : List Span :=
  let t := outEnt j
  if dOut j.d == 0 || dAccOut j.d != 0 then []
  else if dOpcode j.d == 5 then
    (List.range (dHeads j.d)).flatMap (fun h =>
      let s := layoutSlots t.layout
      let u := 4 * unitSize (tentFmt t)
      let q0 := dMorg j.d / u
      let q1 := ceilDiv (dMorg j.d + dMt j.d) u
      (List.range (tileGroups j)).map (fun g =>
        { sp := tentSpace t j.r, a := slotRowAddr t h (dNorg j.d / 256 + g) (q0 * s), n := (q1 - q0) * s * slotRowBytes (tentFmt t) }) ++
      [spillSpan j { t with spillCount := (jent j (dC j.d)).spillCount } h])
  else
    rowSpans j t (dHeads j.d) (dMorg j.d) (dMt j.d) (if dOpcode j.d == 2 then 0 else dNorg j.d) (dNt j.d) ++
    (if dOutMx j.d then actScaleSpans j t (dHeads j.d) (dMorg j.d) (dMt j.d) t.dim1 (if dOpcode j.d == 2 then 0 else dNorg j.d) (dNt j.d) else [])

/-- Spans of the row-stat vector (R172). -/
def statSpans (j : Job) : List Span :=
  if pRstat j.p == 0 || dMt j.d == 0 then []
  else (List.range (dHeads j.d)).map (fun h =>
    let t := jent j (pRstat j.p)
    entSpan j t (t.headStride * h) (4 * (jobStats j.d).length * dMt j.d))

/-- Everything a compute tile writes. -/
def tileWrites (j : Job) : List Span :=
  outSpans j ++ bufSpan j (dAccOut j.d) (partialRows j) ++ wideSpan j (dWide j.d) (partialRows j) (jobWide j) ++ statSpans j ++
  vecSpan j (pRsOut j.p) (2 * dMt j.d)

def foldReads (j : Job) : List Span :=
  (foldParts j).flatMap (fun i => [entSpan j (partEnt j i) 0 (64 + 1536 * foldRows j)])
def foldWrites (j : Job) : List Span :=
  outSpans (foldJob j) ++ bufSpan j (foAccOut j.d) (foldRows j) ++ wideSpan j (foWideOut j.d) (foldRows j) .x320

/-- Bytes of the spans that lie in memory. -/
def memBytes (l : List Span) : Nat := l.foldl (fun n x => if x.sp == .mem then n + x.n else n) 0

/-- The first trouble that reads, then writes, of memory meet (R308, R309, R334). -/
def spansAccess (s : State) (c : Nat) (reads writes : List Span) : Access :=
  match (reads.filter (·.sp == .mem)).findSome? (fun x => match memAccess s c x.a x.n with | .ok => none | e => some e) with
  | some e => e
  | none => ((writes.filter (·.sp == .mem)).findSome? (fun x => match memWriteAccess s c x.a x.n with | .ok => none | e => some e)).getD .ok

/-- An operand lies in the scratchpad of a named region that is not LIVE (R321). -/
def operandAbsent (s : State) (d : Adm) : Bool :=
  (idxAll d.params d.variants d.desc).any (fun i =>
    let t := tentOf (tget [] d.entries i)
    t.space == 2 && !isLive s .region t.region)

/-! ### Regions (R190, R214, R253, R254, R412) -/

/-- LIVE regions that hold a LIVE array of the mask. -/
def regionsOf (s : State) (mask : Nat) : List Nat :=
  [0, 1, 2, 3].filter (fun r => isLive s .region r && [0, 1, 2, 3].any (fun i => inMask mask (4 * r + i) && isLive s .array (4 * r + i)))

/-- LIVE regions that the mask names, whatever the state of its arrays: where units that are no array or Side Path
work (R110, R208). -/
def unitRegions (s : State) (mask : Nat) : List Nat :=
  [0, 1, 2, 3].filter (fun r => isLive s .region r && [0, 1, 2, 3].any (fun i => inMask mask (4 * r + i)))

/-- The space of an object read before a region is chosen (R412). -/
def objSpace (s : State) (c : Nat) (t : TEnt) : Option Space :=
  match t.space with
  | 0 => some .mem
  | 1 => ((regionsOf s (ceAffinity (getCtx s c).ent)).head?).map Space.spad
  | _ => if isLive s .region t.region then some (.spad t.region) else none

/-- Sub-tiles in a region's scoreboard (R253): bound ones, routed ones, and those that have been bound and wait to be bound again. -/
def boardOf (s : State) (r : Nat) : Nat :=
  [0, 1, 2, 3].foldl (fun n i => n + (getArr s (4 * r + i)).bound.length)
    ((getRgn s r).sideQ.length + ((getRgn s r).replayQ.filter (fun t => t.order != 0)).length)

/-- The estimated work bound to or queued in a region (R254). DESIGN CHOICE (log 46): R254 does not say whether a running sub-tile counts
whole or with what is left of it; it counts whole. -/
def regionWork (s : State) (r : Nat) : Nat :=
  let cost (l : List SubTile) : Nat := l.foldl (fun n t => n + t.cost) 0
  [0, 1, 2, 3].foldl (fun n i => n + cost (getArr s (4 * r + i)).bound) (cost ((getRgn s r).queue ++ (getRgn s r).sideQ ++ (getRgn s r).replayQ))

/-- A region holds a copy of the weight operand of the entry's generation (R145). -/
def hasCopy (s : State) (r c tensor : Nat) (gen : W32) : Bool :=
  (getRgn s r).resid.any (fun x => x.ctx == c && x.tensor == tensor && x.gen == gen)

/-- The first of a list that no other undercuts. -/
def minBy (f : Nat → Nat) : List Nat → Option Nat
  | [] => none
  | x :: xs =>
    match minBy f xs with
    | none => some x
    | some y => if f y < f x then some y else some x

/-- The region of a sub-tile (R254): by residency, then by work, then by number. -/
def chooseRegion (s : State) (c tensor : Nat) (gen : W32) (rs : List Nat) : Option Nat :=
  (rs.find? (fun r => hasCopy s r c tensor gen)).orElse (fun _ => minBy (regionWork s) rs)

/-- The tile draws random bits (R206, R171): an acc_out partial is not converted (R99). -/
def drawsBits (d : List W64) : Bool :=
  (dAccOut d == 0 && (dRound d == 1 || (rfSteps (outProg d)).any (fun x => rfCode x == 8))) || (dOpcode d == 2 && (rfSteps (prog1 d)).any (fun x => rfCode x == 8))

/-- Regions that may run a tile: with a live RNG lane when it draws bits (R214). -/
def laneRegions (s : State) (draws : Bool) (rs : List Nat) : List Nat := rs.filter (fun r => !draws || (getRgn s r).lanes != 0)

/-- The sub-tiles of a tile go to their region's Side Path (R159, R190, R198). -/
def sideRouted (s : State) (r : Nat) (j : Job) : Bool :=
  let m := dMt j.d
  dKt j.d != 0 && m != 0 && isLive s .side r && !s.regs.sideFallback &&
  (if dOpcode j.d == 7 then true else !dNoSide j.d && decide (m < s.regs.sideThreshold.toNat))

/-! ### Residency (R145, R161) -/

/-- A descriptor in flight reads the copy: it has begun and has no result. -/
def usesCopy (x : ResCopy) (d : Adm) : Bool :=
  let v := runDesc d
  d.total.isSome && d.result.isNone && opCompute (dOpcode v) && (dW v == x.tensor || (dOpcode v == 2 && dW2 v == x.tensor)) &&
    BitVec.ofNat 32 (genOf d x.tensor) == x.gen

/-- A tile in flight reads the copy. -/
def copyInUse (s : State) (x : ResCopy) : Bool := (getCtx s x.ctx).admitted.any (usesCopy x)

/-- Bytes of a context's residency area that its input windows hold in a region (R186). -/
def winUsed (x : Region) (c : Nat) : Nat := x.windows.foldl (fun n w => if w.ctx == c then n + w.bytes else n) 0

/-- Bytes of a context's residency area that its copies hold in a region. -/
def resUsed (l : List ResCopy) (c : Nat) : Nat := l.foldl (fun n x => if x.ctx == c then n + x.bytes else n) 0

/-- Evict copies of a context, least recently used first, until `need` bytes fit; nothing when they cannot. -/
def evictFor (inUse : ResCopy → Bool) (c cap need : Nat) : Nat → List ResCopy → Option (List ResCopy)
  | 0, l => if resUsed l c + need ≤ cap then some l else none
  | f + 1, l =>
    if resUsed l c + need ≤ cap then some l
    else
      let cand := l.filter (fun x => x.ctx == c && !inUse x)
      match cand with
      | [] => none
      | x :: xs =>
        let old := xs.foldl (fun a b => if b.stamp < a.stamp then b else a) x
        evictFor inUse c cap need f (l.filter (· != old))

def nextStamp (l : List ResCopy) : Nat := l.foldl (fun n x => max n (x.stamp + 1)) 0

/-- Bytes that the four windows of each CONV tile of a context that has work in the region, or of `ring` itself, take (R161, R186). -/
def flightWin (s : State) (r c : Nat) (ring : W32) : Nat :=
  (getCtx s c).admitted.foldl (fun n d =>
    if dOpcode d.desc == 6 && d.result.isNone && (d.ring == ring ||
        ((getRgn s r).queue ++ regionSubs s r).any (fun t => t.ctx == c && t.ring == d.ring)) then n + windowsFoot (jobOf d r)
    else n) 0

/-- Bytes of a context's residency area that copies may take in a region, beside the windows there and those its tiles need. -/
def copyRoom (s : State) (r c : Nat) (ring : W32) : Nat :=
  ceResBytes (getCtx s c).ent - max (winUsed (getRgn s r) c) (flightWin s r c ring)

/-- Evict copies until the windows of the context's tiles fit beside the others; nothing while they cannot (R161). -/
def roomForWindows (s : State) (r c : Nat) (ring : W32) (keep : ResCopy → Bool) : Option State :=
  let x := getRgn s r
  (evictFor (fun y => keep y || copyInUse s y) c (copyRoom s r c ring) 0 x.resid.length x.resid).map
    (fun l => setRgn s r { x with resid := l })

/-- Reads that a prefetch, or the preload of an array, still awaits are a descriptor's from now on, which has found its copy or its load
(R29, R265, R268). -/
def adoptReads (s : State) (r c : Nat) (ring : W32) (tensor : Nat) (gen : W32) (array : Option Nat) : State :=
  let own (o : Owner) : Owner := if o == .gambit c tensor gen array then .desc c ring else o
  let mine (q : PortReq) : PortReq := { q with owner := own q.owner }
  { s with
    mp := tmap (fun q x => if q / 4 == r then { x with
        rdQ := x.rdQ.map mine, rdOut := x.rdOut.map (fun e => (e.1, mine e.2)), held := x.held.map mine } else x) s.mp,
    xing := s.xing.map (fun x => if x.dst == 20 + r then { x with read := mine x.read } else x),
    rgns := tmap (fun _ x => { x with bankReqs := x.bankReqs.map (fun q => { q with owner := own q.owner }) }) s.rgns }

/-- The copy of a prefetch whose reads are still under way. -/
def prefetching (s : State) (r c tensor : Nat) (gen : W32) : Bool :=
  let mine (q : PortReq) : Bool := q.owner == .gambit c tensor gen none
  [4 * r, 4 * r + 1, 4 * r + 2, 4 * r + 3].any (fun q =>
    (getMp s q).rdQ.any mine || (getMp s q).rdOut.any (fun e => mine e.2) || (getMp s q).held.any mine) ||
  s.xing.any (fun x => x.dst == 20 + r && mine x.read)

/-- Renew a region's copy that a descriptor takes: a prefetch's reads become the descriptor's. -/
def renewCopy (s : State) (r c : Nat) (ring : W32) (tensor : Nat) (gen : W32) : State :=
  let x := getRgn s r
  let mine := prefetching s r c tensor gen
  adoptReads (setRgn s r { x with resid := x.resid.map (fun y =>
    if y.ctx == c && y.tensor == tensor && y.gen == gen then { y with stamp := nextStamp x.resid, ring := if mine then ring else y.ring } else y) })
    r c ring tensor gen none

/-- Make or renew a region's copy of a tensor for context `c`, named by the descriptor that has it fetched; nothing while too
little space is free beside the windows (R161, R186). -/
def takeCopy (s : State) (r c : Nat) (ring : W32) (tensor : Nat) (gen : W32) (bytes : Nat) : Option State :=
  let x := getRgn s r
  let fresh : ResCopy := { ctx := c, ring := ring, tensor := tensor, gen := gen, bytes := bytes, stamp := nextStamp x.resid }
  if hasCopy s r c tensor gen then
    (roomForWindows s r c ring (fun y => y.ctx == c && y.tensor == tensor && y.gen == gen)).map (fun t => renewCopy t r c ring tensor gen)
  else
    -- a copy of another generation is stale
    let kept := x.resid.filter (fun y => !(y.ctx == c && y.tensor == tensor && !copyInUse s y))
    (evictFor (copyInUse s) c (copyRoom s r c ring) bytes kept.length kept).map
      (fun l => setRgn s r { x with resid := l ++ [fresh] })

/-- A product's weight is read from memory into the region's copy, in the staging class (R27, R145). -/
def fetchCopy (s : State) (c : Nat) (ring : W32) (r : Nat) (j : Job) : State :=
  ((weightSpans j).filter (·.sp == .mem)).foldl (fun u x => queueReads u (.desc c ring) (ceAsid (getCtx s c).ent) r 1 x.a x.n) s

/-- The copy of one product's weight, unless the weight lies in scratchpad; `fetch` says whether a new one is read through the
ports. -/
def productCopy (s : State) (c : Nat) (ring : W32) (r : Nat) (fetch : Bool) (j : Job) : Option State :=
  if (wEnt j).space != 0 then some s
  else (takeCopy s r c ring (dW j.d) (wEnt j).gen (productFoot j)).map (fun s1 =>
    if fetch && !hasCopy s r c (dW j.d) (wEnt j).gen then fetchCopy s1 c ring r j else s1)

end Sys2Proof.Machine
end

