-- ==== Sys2Proof/Machine/Whole.lean ====
section
/-!
DEFINITION. The compute descriptors as whole operations: what is decided at dispatch (R156, R190, R214, R220, R254), then
the whole tile with its accounts and its result (log 8). GEMM, FUSED2, SPMM, TSPMM, MGRAD, CONV, GEMV, FOLD, BMASK.
-/

namespace Sys2Proof.Machine

/-- A descriptor goes on, or it has ended. -/
inductive Step1 where
  | go (s : State) (d : Adm)
  | stop (s : State)

/-- Go on with the next decision unless the descriptor has ended. -/
def Step1.next (x : Step1) (f : State → Adm → Step1) : Step1 :=
  match x with
  | .go s d => f s d
  | .stop s => .stop s

/-- The size of a variant along shape_dim (R239). -/
def bucketSize (dim : Nat) (v : List W64) : Nat :=
  match dim with
  | 0 => dMt v
  | 1 => dNt v
  | _ => dKt v

/-- The first variant whose bucket size is at least `v` (R156). -/
def pickVariant (dim v : Nat) (vs : List (List W64)) : Option Nat :=
  (List.range vs.length).find? (fun i => decide (v ≤ bucketSize dim (vs.getD i [])))

/-- The shape word where it lies. -/
def shapeTEnt (d : Adm) : TEnt := tentOf (tget [] d.entries (bShape d.desc))

/-- Bucket selection (R156, R157, R412): the shape word is read, and the variant and the value recorded. -/
def shapeStep (s : State) (c : Nat) (d : Adm) : Step1 :=
  if !dBucketed d.desc then .go s d
  else
    let t := shapeTEnt d
    let pick (s : State) (v : Nat) : Step1 :=
      match pickVariant (bDim d.desc) v d.variants with
      | none => .stop (finish s c d (plainResult .shapeNoBucket d.flags))
      | some i =>
        let f (e : Adm) : Adm := { e with variant := i, shapeV := v }
        .go (setAdm s c d.ring f) (f d)
    match objSpace s c t with
    | none => .stop (finish s c d (plainResult .arraysAbsent d.flags))
    | some .mem =>
      (match memAccess s c t.base 4 with
       | .xlate a => .stop (xlateFail s c d.ring a)
       | .poison a => .stop (poisonFail s ((carrier s c).getD 0) c d.ring a)
       | .ok => pick (chargeRd s c 4) (rdLe s.mems .mem t.base 4))
    | some (.spad r) => pick s (rdLe s.mems (.spad r) t.base 4)

/-- A tile that runs nowhere (R159). -/
def runsNowhere (j : Job) : Bool := dMt j.d == 0 || dNt j.d == 0

/-- The regions among `rs` that a descriptor may use, or its end (R214, R220, R321). -/
def regionsStep (s : State) (c : Nat) (d : Adm) (draws : Bool) (rs : List Nat) (f : List Nat → Step1) : Step1 :=
  if operandAbsent s d then .stop (endDesc s c d.ring .arraysAbsent)
  else if rs.isEmpty then .stop (absentDesc s c d.ring)
  else if (laneRegions s draws rs).isEmpty then .stop (endDesc s c d.ring .unrecoverable)
  else f (laneRegions s draws rs)

/-- The same for work on arrays or Side Paths. -/
def regionStep (s : State) (c : Nat) (d : Adm) (draws : Bool) (f : List Nat → Step1) : Step1 :=
  regionsStep s c d draws (regionsOf s (ceAffinity (getCtx s c).ent)) f

/-- The record of an acc_in header that does not agree (R99): check 0x03, the buffer's index, no shortfall. -/
def headMismatch (idx : Nat) (f : TFlags) : Result :=
  { plainResult .badRsvd f with checkId := 0x03, operand := BitVec.ofNat 16 idx }

/-- The tile's weight operand and its generation. -/
def wIndex (j : Job) : Nat := dW j.d

/-- A residency copy before the first pass (R145, R161, R162): none for a streamed tile, for weights that lie in
scratchpad, for a routed tile (R195), and for a tile that makes no pass. A CONV without a copy has its windows' room (R161). -/
def residencyStep (s : State) (c : Nat) (ring : W32) (r : Nat) (fetch : Bool) (j : Job) : Option State :=
  if dKt j.d == 0 || runsNowhere j || sideRouted s r j || streamed (ceResBytes (getCtx s c).ent) j then
    (if dOpcode j.d == 6 && dKt j.d != 0 && !runsNowhere j then roomForWindows s r c ring (fun _ => false) else some s)
  else
    (productCopy s c ring r fetch j).bind (fun s1 => if dOpcode j.d == 2 then productCopy s1 c ring r fetch (followJob j) else some s1)

/-- Array cycles of a sub-tile (R45, R176): max(c*M + 5, 257) for each pass. -/
def tileCycles (j : Job) : Nat :=
  let rows := chunkRows j
  let perPass := max (rowCycles (jobMode j) * rows + 5) 257
  if dKt j.d == 0 then 0
  else if dOpcode j.d == 2 then groups (n1Of j) * max (passesOf j) (tileGroups j) * perPass * chunksOf j * dHeads j.d
  else passesOf j * piecesOf (jobMode j) * perPass * chunksOf j * tileGroups j * dHeads j.d

/-- Logical MACs of a tile (R358). -/
def tileMacs (j : Job) : Nat :=
  if dOpcode j.d == 2 then dHeads j.d * dMt j.d * (n1Of j * dKt j.d + n1Of j * dNt j.d)
  else dHeads j.d * dMt j.d * dNt j.d * dKt j.d

/-- Passes that a tile's sub-tiles commit (R105, R358). -/
def tilePasses (j : Job) : Nat :=
  elemPasses j * chunksOf j * dHeads j.d * (if dOpcode j.d == 2 then 1 else tileGroups j)

/-- Spill and T-overflow products of a tile (R125). -/
def tileProducts (ms : Mems) (j : Job) : Nat :=
  dMt j.d * (List.range (dHeads j.d)).foldl (fun n h => (List.range (groups (nCols j))).foldl (fun n g =>
    (List.range (passesOf j)).foldl (fun n p => n + (tileZ ms j h g p).length) n) n) 0

/-- The two arrays of a pair are LIVE and in the mask (R173). -/
def pairLive (s : State) (mask a : Nat) : Bool := (liveArrays s mask).contains (a / 2 * 2) && (liveArrays s mask).contains (a / 2 * 2 + 1)

/-- Some pair of the mask is live (R173). -/
def anyPair (s : State) (mask : Nat) : Bool := [0, 2, 4, 6, 8, 10, 12, 14].any (pairLive s mask)

/-- Regions for a tile: for FUSED2 those with a live pair of the mask, while there is one (R173). -/
def pairRegions (s : State) (c : Nat) (j : Job) (rs : List Nat) : List Nat :=
  let mask := ceAffinity (getCtx s c).ent
  if dOpcode j.d == 2 && anyPair s mask then rs.filter (fun r => pairLive s mask (4 * r) || pairLive s mask (4 * r + 2)) else rs

/-- Charge a tile to its context and its region's counters (R125, R173, R198, R358). -/
def chargeTile (s : State) (c r : Nat) (j : Job) (side : Bool) (reads writes : List Span) : State :=
  let a := getAcct s c
  let s1 := setAcct s c { a with
    macOps := a.macOps + BitVec.ofNat 64 (tileMacs j),
    arrayCycles := if side then a.arrayCycles else a.arrayCycles + BitVec.ofNat 64 (tileCycles j),
    sideCycles := if side then a.sideCycles + BitVec.ofNat 64 (tilePasses j * chunkRows j * sideCyclesPerRow (jobMode j).act (jobMode j).w (jobMode j).slots)
      else a.sideCycles,
    rdBytes := a.rdBytes + BitVec.ofNat 64 (memBytes reads), wrBytes := a.wrBytes + BitVec.ofNat 64 (memBytes writes),
    passes := a.passes + BitVec.ofNat 64 (tilePasses j) }
  let prods := tileProducts s.mems j
  let s2 := if prods == 0 then s1 else if isLive s .side r || unitSt s .side r == .draining then addRgnCnt s1 r 7 prods else addRgnCnt s1 r 8 prods
  if dOpcode j.d == 2 && !side && !anyPair s (ceAffinity (getCtx s c).ent) && dKt j.d != 0 then addRgnCnt s2 r 11 (chunksOf j * dHeads j.d) else s2

/-- Flags that say how a tile ran (R162, R190). -/
def routeFlags (s : State) (c r : Nat) (j : Job) : TFlags :=
  flagIf (sideRouted s r j) flSideRouted ||| flagIf (dKt j.d != 0 && streamed (ceResBytes (getCtx s c).ent) j) flStreamed

/-- Every watched scratchpad line that a list of writes touches is read again (R285). -/
def wakeSpans (s : State) (l : List Span) : State :=
  l.foldl (fun t x =>
    match x.sp with
    | .mem => t
    | .spad r => if x.n == 0 then t else wakeWatch t r x.a x.n) s

/-- Run a whole tile in region `r` and complete its descriptor. -/
def runDescriptor (s : State) (c r : Nat) (d : Adm) : State :=
  let j := jobOf d r
  if !headOk s.mems j then finish s c d (headMismatch (dAccIn j.d) d.flags)
  else if runsNowhere j then
    let (ms, fl) := runTile s.mems j d.flags
    finish (wakeSpans { s with mems := ms } (tileWrites j)) c d (plainResult .ok fl)
  else
    match spansAccess s c (tileReads j) (tileWrites j) with
    | .xlate a => xlateFail s c d.ring a
    | .poison a => poisonFail s r c d.ring a
    | .ok =>
      if (dKt j.d != 0 || dOpcode j.d == 5) && listsBad s.mems j then endDesc s c d.ring .badRsvd
      else
        match residencyStep s c d.ring r false j with
        | none => addRgnCnt s r 6 1
        | some s1 =>
          let bucketEdge := dBucketed d.desc && decide (d.shapeV < bucketSize (bDim d.desc) (runDesc d)) && dKt j.d != 0
          let (ms, fl) := runTile s1.mems j (d.flags ||| routeFlags s c r j ||| flagIf bucketEdge flMaskedEdge)
          let s2 := chargeTile (wakeSpans { s1 with mems := ms } (tileWrites j)) c r j (sideRouted s r j) (tileReads j) (tileWrites j)
          finish s2 c d (plainResult .ok fl)

/-- The whole tile after bucket selection: in no region, or in the one R254 chooses. -/
def wholeStep (c : Nat) (s : State) (d : Adm) : Step1 :=
  if runsNowhere (jobOf d 0) then .stop (runDescriptor s c ((regionsOf s (ceAffinity (getCtx s c).ent)).headD 0) d)
  else regionStep s c d (drawsBits (sizedDesc d)) (fun rs =>
    match chooseRegion s c (wIndex (jobOf d 0)) (wEnt (jobOf d 0)).gen (pairRegions s c (jobOf d 0) rs) with
    | none => .stop s
    | some r => .stop (runDescriptor s c r d))

/-- The state a decision leaves. -/
def Step1.state : Step1 → State
  | .go s _ => s
  | .stop s => s

/-- A compute descriptor from its dispatch to its result. -/
def computeOp (s : State) (c : Nat) (d : Adm) : State := ((shapeStep s c d).next (wholeStep c)).state

/-- GEMM (R236, R237). -/
def execGemm (c : CtxId) (i : W32) (s : State) : Host.Outcome State Fault Refusal :=
  .next (descCommand s c.val i 0x01 (fun t d => computeOp t c.val d))

/-- SPMM (R126, R237). -/
def execSpmm (c : CtxId) (i : W32) (s : State) : Host.Outcome State Fault Refusal :=
  .next (descCommand s c.val i 0x03 (fun t d => computeOp t c.val d))

/-- TSPMM (R130). -/
def execTspmm (c : CtxId) (i : W32) (s : State) : Host.Outcome State Fault Refusal :=
  .next (descCommand s c.val i 0x04 (fun t d => computeOp t c.val d))

/-- MGRAD (R132). -/
def execMgrad (c : CtxId) (i : W32) (s : State) : Host.Outcome State Fault Refusal :=
  .next (descCommand s c.val i 0x05 (fun t d => computeOp t c.val d))

/-- CONV (R182, R183). -/
def execConv (c : CtxId) (i : W32) (s : State) : Host.Outcome State Fault Refusal :=
  .next (descCommand s c.val i 0x06 (fun t d => computeOp t c.val d))

/-- GEMV (R190, R237). -/
def execGemv (c : CtxId) (i : W32) (s : State) : Host.Outcome State Fault Refusal :=
  .next (descCommand s c.val i 0x07 (fun t d => computeOp t c.val d))

/-- FUSED2 (R173 to R181). -/
def execFused2 (c : CtxId) (i : W32) (s : State) : Host.Outcome State Fault Refusal :=
  .next (descCommand s c.val i 0x02 (fun t d => computeOp t c.val d))

/-! ### FOLD -/

/-- FOLD (R110, R240): headers first, then regions' sizes, then the sum. -/
def foldSum (s : State) (c r : Nat) (d : Adm) : State :=
  let j := jobOf d r
  match spansAccess s c (foldReads j) (foldWrites j) with
  | .xlate a => xlateFail s c d.ring a
  | .poison a => poisonFail s r c d.ring a
  | .ok =>
    match foldBad s.mems j with
    | some i => finish s c d { plainResult .badRsvd d.flags with checkId := 0x03, operand := BitVec.ofNat 16 i }
    | none =>
      match foldShort s.mems j with
      | some (i, n) => finish s c d { plainResult .admitSize d.flags with
          checkId := 0x30, operand := BitVec.ofNat 16 i, shortfall := BitVec.ofNat 32 (min n (2 ^ 32 - 1)) }
      | none =>
        let (ms, fl) := runFold s.mems j
        finish (chargeWr (chargeRd (wakeSpans { s with mems := ms } (foldWrites j)) c (memBytes (foldReads j))) c (memBytes (foldWrites j))) c d
          (plainResult .ok (d.flags ||| fl))

/-- FOLD and BMASK use no array (R110, R208): their regions are those of the mask. -/
def unitStep (s : State) (c : Nat) (d : Adm) (draws : Bool) (f : List Nat → Step1) : Step1 :=
  regionsStep s c d draws (unitRegions s (ceAffinity (getCtx s c).ent)) f

/-- FOLD draws only for an output with stochastic rounding (R99, R206). -/
def foldDraws (d : List W64) : Bool := fld d 0x30 1 0 == 1 && foAccOut d == 0

/-- Hashes that a requester of a class has asked for are still to come (R210). -/
def hashesDue (s : State) (r cls unit : Nat) (ring : W32) : Bool :=
  (getRgn s r).rngReqs.any (fun q => q.cls == cls && q.unit == unit && q.tag == ring.toNat)

/-- The requester number of a context's FOLD among the drains of class 0 of R210, behind the arrays. -/
def foldUnit (c : Nat) : Nat := 16 + c

/-- A FOLD takes a journal entry when it starts, which its record frees; while the journal is full it waits (R301, R302). One that draws
asks for its hashes first, in the class of the drains in which it runs (R110, R210). -/
def foldRun (s : State) (c r : Nat) (d : Adm) : State :=
  if d.emitted != 0 then (if hashesDue s r 0 (foldUnit c) d.ring then s else foldSum s c r d)
  else
    match freeJournal (getRgn s r) with
    | none => s
    | some k =>
      let s1 := putJournal s r k (foldJournal c d)
      let n := foHeads d.desc * foMt d.desc * foNt d.desc
      if foldDraws d.desc && n != 0 then askRng (setAdm s1 c d.ring (fun e => { e with emitted := 1 })) r 0 (foldUnit c) d.ring.toNat n
      else foldSum s1 c r d

def foldOp (s : State) (c : Nat) (d : Adm) : State :=
  (unitStep s c d (foldDraws d.desc) (fun rs => .stop (foldRun s c (rs.headD 0) d))).state

/-- FOLD: given again, once its hashes are granted, where it draws (R110, R210). -/
def execFold (c : CtxId) (i : W32) (s : State) : Host.Outcome State Fault Refusal :=
  .next (match findAdm (getCtx s c.val) i with
    | none => s
    | some d =>
      if dOpcode d.desc == 0x08 && dispatchable s c.val d && !writesOutstanding s c.val i && !readsOutstanding s c.val i then foldOp s c.val d
      else s)

end Sys2Proof.Machine
end

