-- ==== Sys2Proof/Machine/Legal.lean ====
section
/-!
DEFINITION. What admission looks at (R163, R164, R166, R412), and check 0x03: reserved fields, formats, pairs and
combinations of every descriptor layout (R233 to R243).
-/

namespace Sys2Proof.Machine

/-! ### What admission reads (R166, R412) -/

/-- Why a read of admission ends the descriptor. -/
inductive ReadStop where
  | xlate (a : Nat)
  | poison (a : Nat)
  | absent
  deriving DecidableEq, Repr

/-- The entries, parameter records and bucket variants read so far, and their bytes. -/
structure Look where
  ents : Tbl (List W64)
  params : Tbl (List W64)
  variants : List (List W64)
  bytes : Nat
  stop : Option ReadStop
  deriving DecidableEq, Repr

/-- An index that names a valid entry (R230). -/
def namedEnt (e : List W64) (ents : Tbl (List W64)) (i : Nat) : Option TEnt :=
  if i == 0 || decide (ceTtCount e ≤ i) || !thas ents i then none
  else if (tentOf (tget [] ents i)).valid then some (tentOf (tget [] ents i)) else none

/-- Read `n` words at an address of memory, or stop. -/
def lookMem (s : State) (c a n : Nat) (l : Look) (f : List W64 → Look → Look) : Look :=
  match memAccess s c a (8 * n) with
  | .xlate x => { l with stop := some (.xlate x) }
  | .poison x => { l with stop := some (.poison x) }
  | .ok => f (rdWords s.mems .mem a n) { l with bytes := l.bytes + 8 * n }

/-- Read the entry of an index, once. -/
def lookEntry (s : State) (c : Nat) (l : Look) (i : Nat) : Look :=
  let e := (getCtx s c).ent
  if l.stop.isSome || i == 0 || decide (ceTtCount e ≤ i) || thas l.ents i then l
  else lookMem s c (ceTtBase e + 64 * i) 8 l (fun ws l => { l with ents := tset l.ents i ws })

/-- Read `n` words of the object that an index names (R412). -/
def lookObject (s : State) (c : Nat) (l : Look) (i n : Nat) (f : List W64 → Look → Look) : Look :=
  if l.stop.isSome then l
  else
    match namedEnt (getCtx s c).ent l.ents i with
    | none => l
    | some t =>
      match objSpace s c t with
      | none => { l with stop := some .absent }
      | some .mem => lookMem s c t.base n l f
      | some (.spad r) => f (rdWords s.mems (.spad r) t.base n) l

/-- Read the parameter record of a descriptor (R238). -/
def lookParam (s : State) (c : Nat) (l : Look) (d : List W64) : Look :=
  if dAux d == 0 || thas l.params (dAux d) then l
  else lookObject s c l (dAux d) 8 (fun ws l => { l with params := tset l.params (dAux d) ws })

/-- Cut words into descriptors of 64 B. -/
def splitDescs : Nat → List W64 → List (List W64)
  | 0, _ => []
  | n + 1, ws => ws.take 8 :: splitDescs n (ws.drop 8)

/-- A bucket count admission can read (R239). -/
def bucketsOk (d : List W64) : Bool := decide (1 ≤ bCount d ∧ bCount d ≤ 8)

/-- Read a bucket table (R155). -/
def lookBuckets (s : State) (c : Nat) (l : Look) (d : List W64) : Look :=
  if !dBucketed d || !bucketsOk d then l
  else lookObject s c l (bIndex d) (8 * bCount d) (fun ws l => { l with variants := splitDescs (bCount d) ws })

/-- The compute descriptors a descriptor stands for. -/
def computeDescs (d : List W64) (variants : List (List W64)) : List (List W64) :=
  if !opCompute (dOpcode d) then [] else if dBucketed d then variants else [d]

/-- The indices that entries name in turn: block scales and expansion tables (R71, R76, R86). -/
def secondIdx (ents : Tbl (List W64)) (d : List W64) (variants : List (List W64)) : List Nat :=
  let t (i : Nat) : TEnt := tentOf (tget [] ents i)
  let scale (i : Nat) : List Nat := if (t i).bscale then [(t i).bscaleIndex] else []
  let weight (i : Nat) : List Nat := scale i ++ (if (t i).expand == 0 then [] else [(t i).qparam])
  (computeDescs d variants).flatMap (fun v => scale (dAct v) ++ weight (dW v) ++
    (if dOutMx v then [(t (dOut v)).bscaleIndex] else []) ++ (if dOpcode v == 2 then weight (dW2 v) else [])) ++
  (if dOpcode d == 8 && dOutMx (foAsCompute d) then [(t (foOut d)).bscaleIndex] else []) ++
  (if opMask (dOpcode d) then weight (mkTarget d) ++ (if dOpcode d == 0x11 then scale (mkSrc1 d) ++ scale (mkSrc2 d) else []) else [])

/-- Everything admission reads for a descriptor. -/
def lookAll (s : State) (c : Nat) (d : List W64) : Look :=
  let l0 : Look := { ents := [], params := [], variants := [], bytes := 0, stop := none }
  let l1 := (if opCompute (dOpcode d) && dBucketed d then [bIndex d, bShape d] else idxAll [] [] d ++
    (if dOpcode d == 0x28 then [feTensor d] else [])).foldl (lookEntry s c) l0
  let l2 := if opCompute (dOpcode d) then lookBuckets s c l1 d else l1
  let ds := computeDescs d l2.variants
  let l3 := (ds.flatMap (computeIdx [])).foldl (lookEntry s c) l2
  let l4 := ds.foldl (lookParam s c) l3
  let l5 := (ds.flatMap (computeIdx l4.params)).foldl (lookEntry s c) l4
  (secondIdx l5.ents d l5.variants).foldl (lookEntry s c) l5

/-! ### Rejections (R164) -/

/-- A rejection: status, check, operand, shortfall. -/
def rej (st : Status) (id operand short : Nat) : Result :=
  { status := st, flags := 0, checkId := BitVec.ofNat 8 id, operand := BitVec.ofNat 16 operand,
    shortfall := BitVec.ofNat 32 (min short 0xFFFFFFFF), result := 0 }

def noOperand : Nat := 0xFFFF
def invalidIdx : Nat := 0xFFFFFFFF

/-- An offence against check 0x03: the byte offset of the field, and the operand. -/
abbrev Offence := Nat × Nat

def offIf (b : Bool) (off : Nat) (idx : Nat := noOperand) : List Offence := if b then [(off, idx)] else []

/-- The offence that stands first in the descriptor. -/
def firstOffence : List Offence → Option Offence
  | [] => none
  | x :: xs =>
    match firstOffence xs with
    | none => some x
    | some y => if y.1 < x.1 then some y else some x

/-- Reserved fields that are not zero, by word offset and bits. -/
def rsvOffences (d : List W64) (l : List (Nat × Nat × Nat)) : List Offence :=
  l.flatMap (fun f => offIf (fld d f.1 f.2.1 f.2.2 != 0) (f.1 + f.2.2 / 8))

/-- Whole words that are reserved, from one offset on. -/
def rsvFrom (off : Nat) : List (Nat × Nat × Nat) :=
  ([0x08, 0x10, 0x18, 0x20, 0x28, 0x30, 0x38].filter (fun o => decide (off ≤ o))).map (fun o => (o, 63, 0))

/-! ### The header (R233 to R235) -/

/-- The class of an opcode, or nothing where F1 has no such opcode (R234). -/
def opClass (o : Nat) : Option Nat :=
  if o == 0 || o == 0x18 || o == 0x28 || o == 0x29 || o == 0x2A then some 0
  else if decide (1 ≤ o ∧ o ≤ 8) then some 1
  else if decide (0x10 ≤ o ∧ o ≤ 0x13) then some 2
  else if decide (0x20 ≤ o ∧ o ≤ 0x23) then some 3
  else if o == 0x30 then some 4 else none

/-- A header flag may stand on an opcode (R235); bits 26 to 31 are reserved. -/
def flagAllowed (bit o : Nat) : Bool :=
  match bit with
  | 16 => true
  | 17 => opCompute o
  | 18 => opCompute o
  | 19 => opCompute o
  | 20 => decide (1 ≤ o ∧ o ≤ 6)
  | 21 => decide (1 ≤ o ∧ o ≤ 8) || o == 0x11 || o == 0x13
  | 22 => opRemote o
  | 23 => opRemote o
  | 24 => o == 0x2A
  | 25 => o == 0x30
  | _ => false

def headerOffences (d : List W64) : List Offence :=
  offIf (opClass (dOpcode d) != some (dClass d)) 0x01 ++
  (List.range 16).flatMap (fun i => offIf (fbit d 0 (16 + i) && !flagAllowed (16 + i) (dOpcode d)) ((16 + i) / 8))

/-! ### Formats -/

/-- Formats that may carry block scales (R71). -/
def fmtScalable (f : Fmt) : Bool := f == .e4m3 || f == .e5m2 || f == .e3m2 || f == .e2m3 || f == .e2m1 || f == .int8

/-- Block scales attached to a format or to an expanded weight that carries none (R71). -/
def scaleBad (t : TEnt) : Bool := t.bscale && (!fmtScalable (tentFmt t) || t.expand != 0)

/-- Space code 0b11 of a named entry (R231). -/
def spaceOffence (e : List W64) (ents : Tbl (List W64)) (i off : Nat) : List Offence :=
  offIf ((namedEnt e ents i).any (fun t => t.space == 3)) off i

/-- A dense activation operand (R65, R71, R237). -/
def actBad (t : TEnt) : Bool := decide (t.fmtCode ≥ 9) || t.layout != 0 || scaleBad t

/-- The expansion a weight must name for an activation (R66, R76). -/
def expandOk (act : Option Fmt) (t : TEnt) : Bool :=
  match tentFmt t with
  | .int4 => t.expand == 1 || t.expand == 2
  | .int8 => act.isNone || t.expand == (if act == some .int8 then 0 else 2)
  | _ => t.expand == 0

/-- A weight operand for an activation format, in a layout that it may have (R65, R66, R71, R76, R119). -/
def weightBad (act : Option Fmt) (passLayout : Nat) (t : TEnt) : Bool :=
  decide (t.fmtCode ≥ 10) || (t.layout != 0 && t.fmtCode == 0) || !expandOk act t ||
  scaleBad t ||
  act.any (fun a => !pairLegal a (tentFmt t) || (fp8e2m1 a (tentFmt t) && (decide (t.layout ≥ 2) || decide (passLayout ≥ 2))))

/-- A step of a row function program: its code and selector (R168). `lead` is rf1_prog. -/
def stepOk (lead : Bool) (last : Bool) (step : Nat) : Bool :=
  match rfCode step with
  | 1 => decide (rfArg step ≤ 1)
  | 11 => lead && last && decide (rfArg step ≤ 1)
  | c => decide (c ≤ 10) && rfArg step == 0

/-- A legal program (R167, R168): the steps before the end, and the end's own selector. -/
def progOk (lead : Bool) (prog : List Nat) : Bool :=
  let n := (rfSteps prog).length
  (List.range n).all (fun i => stepOk lead (i + 1 == n) (prog.getD i 0)) && rfArg (prog.getD n 0) == 0 &&
  decide (((rfSteps prog).filter (fun s => rfCode s == 9)).length ≤ 1) && decide (((rfSteps prog).filter (fun s => rfCode s == 10)).length ≤ 1)

/-! ### Check 0x03 of the compute layout (R236 to R238) -/

/-- A job over the entries admission has read. -/
def lookJob (l : Look) (d : List W64) : Job :=
  { d := d, p := paramOf l.params d, ents := l.ents, r := 0, draw := { key := 0, stream := 0, epoch := 0 } }

def computeRsv (o : Nat) : List (Nat × Nat × Nat) :=
  [(0x18, 63, 62), (0x28, 15, 11), (0x28, 31, 29), (0x28, 63, 49)] ++ (if o == 2 then [(0x38, 47, 36)] else [(0x38, 63, 32)])

/-- A parameter record with a reserved or unused field set, or p24 out of range (R207, R238). -/
def paramBad (o : Nat) (p : List W64) : Bool :=
  fld p 0x10 63 57 != 0 || fld p 0x20 63 60 != 0 || fld p 0x28 63 36 != 0 || fld p 0x30 63 16 != 0 || fld p 0x38 63 0 != 0 ||
  decide (pDropP p > 2 ^ 24) ||
  (o != 2 && (pRf2A p != 0 || p.getD 3 0 != 0)) || (o != 6 && (p.getD 4 0 != 0 || fld p 0x28 35 0 != 0)) ||
  (o == 5 && (pBias p != 0 || pRstat p != 0 || p.getD 1 0 != 0 || fld p 0x10 56 32 != 0))

/-- The output operand (R65, R84, R132, R237). INT32 asks for an integer pair, which is tested where both operands are `named` (R230). -/
def outBad (j : Job) (o : Nat) (named : Bool) (ref : Option TEnt) (t : TEnt) : Bool :=
  if o == 5 then
    t.layout == 0 || decide (t.fmtCode == 0 ∨ t.fmtCode ≥ 9) ||
    ref.any (fun r => r.layout != t.layout || r.dim0 != t.dim0 || r.dim1 != t.dim1 || unitSize (tentFmt r) != unitSize (tentFmt t))
  else
    t.layout != 0 || t.fmtCode == 9 || decide (t.fmtCode ≥ 11) ||
    (t.fmtCode == 10 && !(o != 2 && (jobInt j || !named) && pRowScale j.p == 0 && pChanScale j.p == 0))

/-- Offences of a compute descriptor. -/
def computeOffences (e : List W64) (l : Look) (d : List W64) : List Offence :=
  let o := dOpcode d
  let j := lookJob l d
  let ent (i : Nat) : Option TEnt := namedEnt e l.ents i
  let x := ent (dAct d)
  let w := ent (dW d)
  let c := ent (dC d)
  let y := ent (dOut d)
  let w2 := ent (dW2 d)
  let p := j.p
  let paramRead := dAux d == 0 || thas l.params (dAux d)
  let actF := x.map tentFmt
  headerOffences d ++ rsvOffences d (computeRsv o) ++
  ([(dAct d, 0x08), (dW d, 0x0A), (dC d, 0x0C), (dOut d, 0x0E), (dAccIn d, 0x10), (dAccOut d, 0x12), (dWide d, 0x14), (dAux d, 0x16),
    (if o == 2 then dW2 d else 0, 0x3E), (pRowScale p, 0x16), (pChanScale p, 0x16), (pBias p, 0x16), (pRstat p, 0x16), (pRsIn p, 0x16),
    (pRsOut p, 0x16), (pAccInWide p, 0x16)].flatMap (fun f => spaceOffence e l.ents f.1 f.2)) ++
  offIf (dAct d == 0) 0x08 0 ++ offIf (x.any actBad) 0x08 (dAct d) ++
  offIf (dW d == 0) 0x0A 0 ++ offIf (w.any (weightBad actF (passLayout j))) 0x0A (dW d) ++
  offIf (w.any (fun t => (o == 5 && t.layout != 0) || (o == 4 && t.layout != 0 && t.tmapOff != 0 && t.tmapLayout == 0))) 0x0A (dW d) ++
  (if o == 5 then
    offIf (dC d == 0) 0x0C 0 ++ offIf (c.any (fun t => t.layout == 0 || decide (t.fmtCode == 0 ∨ t.fmtCode ≥ 10) || scaleBad t)) 0x0C (dC d)
   else if o == 2 then offIf (dC d != 0) 0x0C (dC d)
   else offIf (c.any actBad) 0x0C (dC d) ++ offIf (dC d != 0 && dAccIn d != 0) 0x0C (dC d)) ++
  offIf (dOut d == 0 && (o == 5 || dAccOut d == 0)) 0x0E 0 ++ offIf (y.any (outBad j o (x.isSome && w.isSome) (if o == 5 then c else none))) 0x0E (dOut d) ++
  offIf (dDet d && (dSpillInt d != 1 || dWideFmt d != 2 || dWide d == 0)) 0x02 ++
  offIf ((dWideFmt d == 0) != (dWide d == 0)) 0x14 (dWide d) ++
  offIf (o == 6 && dAux d == 0) 0x16 0 ++ offIf (dAux d != 0 && paramRead && paramBad o p) 0x16 (dAux d) ++
  offIf (paramRead && ((pAccInWide p != 0) != (dAccIn d != 0 && dWideFmt d != 0))) 0x16 (dAux d) ++
  offIf (dRound d == 3 || dWideFmt d == 3 || dSrData d == 3) 0x28 ++
  offIf (dOutMx d && y.any (fun t => !fmtScalable (tentFmt t))) 0x28 (dOut d) ++
  offIf (decide (dSpillInt d > 4096)) 0x2A ++
  offIf (if o == 5 then !(rfSteps (prog1 d)).isEmpty else !progOk (o == 2) (prog1 d)) 0x34 ++
  (if o != 2 then []
   else
    let f := (fmtOfCode (dInterFmt d))
    offIf (!progOk false (prog2 d)) 0x38 ++
    offIf (!(f == some .e4m3 || f == some .e5m2 || f == some .bf16 || f == some .fp16)) 0x3C ++
    offIf (dW2 d == 0) 0x3E 0 ++ offIf (w2.any (fun t => decide (t.layout ≥ 2) || weightBad f 0 t)) 0x3E (dW2 d))

/-! ### Check 0x03 of the other layouts (R239 to R243, R278, R279) -/

/-- The ring descriptor of a BUCKETED descriptor, and its variants' opcode, flags and rng_slot (R239). -/
def bucketOffences (e : List W64) (l : Look) (d : List W64) : List Offence :=
  headerOffences d ++ rsvOffences d ([(0x08, 35, 34), (0x08, 63, 40)] ++ rsvFrom 0x10) ++
  spaceOffence e l.ents (bIndex d) 0x08 ++ spaceOffence e l.ents (bShape d) 0x0A ++ offIf (bDim d == 3) 0x0C ++
  offIf (l.variants.any (fun v => dOpcode v != dOpcode d || dBucketed v || dIrq v || dRngStep v || dRngSlot v != dRngSlot (l.variants.getD 0 [])))
    0x08 (bIndex d)

def foldOffences (e : List W64) (l : Look) (d : List W64) : List Offence :=
  let f := foAsCompute d
  headerOffences d ++ rsvOffences d [(0x08, 63, 52), (0x30, 5, 4), (0x30, 15, 11), (0x30, 31, 16), (0x38, 63, 41)] ++
  spaceOffence e l.ents (foOut d) 0x08 ++ spaceOffence e l.ents (foAccOut d) 0x0A ++ spaceOffence e l.ents (foWideOut d) 0x0C ++
  offIf ((foOut d == 0) == (foAccOut d == 0)) 0x08 (foOut d) ++
  offIf ((namedEnt e l.ents (foOut d)).any (fun t => t.layout != 0 || t.fmtCode == 9 || decide (t.fmtCode ≥ 11))) 0x08 (foOut d) ++
  (List.range 8).flatMap (fun i =>
    spaceOffence e l.ents (foPart d i) (0x10 + 2 * i) ++ spaceOffence e l.ents (foPartWide d i) (0x20 + 2 * i) ++
    offIf (decide (foCount d ≤ i) && foPart d i != 0) (0x10 + 2 * i) (foPart d i) ++
    offIf (decide (foCount d ≤ i) && foPartWide d i != 0) (0x20 + 2 * i) (foPartWide d i)) ++
  offIf (dRound f == 3 || dSrData f == 3) 0x30 ++
  offIf (dOutMx f && (namedEnt e l.ents (foOut d)).any (fun t => !fmtScalable (tentFmt t))) 0x30 (foOut d)

/-- REGROW forms its gradient from A and B (R137, R241). -/
def mkFromAB (d : List W64) : Bool := dOpcode d == 0x11 && !mkMode d && mkSrc0 d == 0

def maskOffences (e : List W64) (l : Look) (d : List W64) : List Offence :=
  let o := dOpcode d
  let t := namedEnt e l.ents (mkTarget d)
  let src (i : Nat) : Option TEnt := namedEnt e l.ents i
  let tau := fp32Of (BitVec.ofNat 32 (mkSelect d))
  headerOffences d ++ rsvOffences d [(0x10, 63, 54), (0x18, 63, 48), (0x28, 63, 48), (0x30, 63, 53), (0x38, 63, 13)] ++
  spaceOffence e l.ents (mkTarget d) 0x08 ++ spaceOffence e l.ents (mkShadow d) 0x0A ++ spaceOffence e l.ents (mkSrc0 d) 0x28 ++
  spaceOffence e l.ents (mkSrc1 d) 0x2A ++ spaceOffence e l.ents (mkSrc2 d) 0x2C ++
  offIf (t.any (fun t => decide (t.fmtCode == 0 ∨ t.fmtCode ≥ 10) || scaleBad t)) 0x08 (mkTarget d) ++
  offIf (mkScope d == 3 || (o == 0x12 && mkMode d)) 0x16 ++
  offIf (o == 0x10 && !mkMode d && (numIsNan tau || (numIsNeg tau && !numIsZero tau))) 0x20 ++
  offIf (o == 0x11 && mkMode d && decide (mkSelect d > 2 ^ 24)) 0x20 ++
  offIf (o == 0x11 && !mkMode d && (src (mkSrc0 d)).any (fun g => g.layout != 0 || decide (g.fmtCode ≥ 10) || scaleBad g)) 0x28 (mkSrc0 d) ++
  offIf (o == 0x12 && (src (mkSrc1 d)).any (fun v => v.layout != 0 || decide (v.fmtCode ≥ 10) || scaleBad v)) 0x2A (mkSrc1 d) ++
  (if mkFromAB d then
    offIf ((src (mkSrc1 d)).any actBad) 0x2A (mkSrc1 d) ++
    offIf ((src (mkSrc2 d)).any (fun b => b.layout != 0 || weightBad ((src (mkSrc1 d)).map tentFmt) 0 b)) 0x2C (mkSrc2 d)
   else []) ++
  offIf (decide (mkHeads d ≥ 2) && t.any (fun t => t.headStride == 0)) 0x38 (mkTarget d)

/-- A 64-bit address of a remote operation with a reserved class or bit (R278). -/
def addrBad (a : W64) : Bool :=
  let cls := bits a.toNat 63 62
  decide (cls ≥ 2) || bits a.toNat 59 57 != 0 || (cls == 0 && bits a.toNat 61 60 != 0) || (cls == 1 && bits a.toNat 56 26 != 0)

def remoteOffences (d : List W64) : List Offence :=
  let o := dOpcode d
  headerOffences d ++
  (if o == 0x20 then rsvOffences d ([(0x18, 63, 9)] ++ rsvFrom 0x20) ++ offIf (addrBad (reA d)) 0x08 ++ offIf (addrBad (reB d)) 0x10
   else if o == 0x21 then
    rsvOffences d ([(0x18, 63, 13)] ++ rsvFrom 0x20) ++ offIf (addrBad (reA d)) 0x08 ++
    offIf (addrBad (reB d) || bits (reB d).toNat 63 62 != 1) 0x10
   else if o == 0x22 then rsvOffences d ([(0x20, 63, 3)] ++ rsvFrom 0x28) ++ offIf (addrBad (reA d)) 0x08 ++ offIf (decide (reOp d > 4)) 0x20
   else rsvOffences d ([(0x18, 31, 1)] ++ rsvFrom 0x20) ++ offIf (addrBad (reA d)) 0x08)

/-- Check 0x03 of one descriptor that is not the ring descriptor of a BUCKETED one. -/
def offencesOf (e : List W64) (l : Look) (d : List W64) : List Offence :=
  let o := dOpcode d
  if opCompute o then computeOffences e l d
  else if o == 8 then foldOffences e l d
  else if opMask o then maskOffences e l d
  else if o == 0x13 then
    headerOffences d ++ rsvOffences d ([(0x08, 31, 19), (0x08, 63, 57), (0x18, 63, 32)] ++ rsvFrom 0x20) ++
      spaceOffence e l.ents (bmOut d) 0x08 ++ offIf (decide (bmP24 d > 2 ^ 24)) 0x0C
  else if o == 0x18 then
    headerOffences d ++ rsvOffences d ([(0x08, 63, 20), (0x10, 63, 48)] ++ rsvFrom 0x18) ++ spaceOffence e l.ents (caW d) 0x08 ++
      offIf ((namedEnt e l.ents (caW d)).any (fun t => decide (t.fmtCode ≥ 10) || scaleBad t)) 0x08 (caW d)
  else if opRemote o then remoteOffences d
  else if o == 0x28 then headerOffences d ++ rsvOffences d ([(0x08, 63, 16)] ++ rsvFrom 0x10) ++ spaceOffence e l.ents (feTensor d) 0x08
  else if o == 0x30 then
    headerOffences d ++ rsvOffences d ([(0x08, 15, 4), (0x08, 63, 48), (0x10, 63, 21)] ++ rsvFrom 0x18) ++
      spaceOffence e l.ents (stSrc d) 0x0A ++ spaceOffence e l.ents (stDst d) 0x0C
  else headerOffences d ++ rsvOffences d (rsvFrom 0x08)

end Sys2Proof.Machine
end

