-- ==== Sys2Proof/Machine/Checks.lean ====
section
/-!
DEFINITION. The admission checks 0x10 to 0x35 (R165) of every descriptor, and the order in which a BUCKETED descriptor
and its variants are checked (R155).
-/

namespace Sys2Proof.Machine

/-! ### Extents of operands (R152, R153) -/

/-- One past the last byte, counted from the base, of rows `m0` to `m0 + m - 1` of a dense operand with elements up to `k1`. -/
def denseEnd (t : TEnt) (heads m0 m k1 : Nat) : Nat :=
  if m == 0 || k1 == 0 || heads == 0 then 0
  else
    let z := { t with base := 0 }
    let last := m0 + m - 1
    let cut := if t.batchRows == 0 then 0 else last / t.batchRows * t.batchRows
    let prev := if decide (m0 < cut) then cut - 1 else last
    max (rowBase z (heads - 1) last) (rowBase z (heads - 1) prev) + packedBytes (tentFmt t) k1

/-- One past the last byte of rows `0` to `rows - 1` of a byte array with rows of `cols` bytes, each padded to 64 B, up to column `n1`. -/
def arrayEnd (t : TEnt) (heads rows cols n1 : Nat) : Nat :=
  if rows == 0 || n1 == 0 || heads == 0 then 0 else t.headStride * (heads - 1) + (rows - 1) * roundUp cols 64 + n1

/-- The regions of a tensor: values, then spill region, T-map and T-overflow region of an SQ tensor (R122, R124, R128,
R129), each from its base in its first head. -/
def tensorRegions (t : TEnt) : List (Nat × Nat) :=
  if t.layout == 0 then [(t.base, t.alloc)]
  else
    [(t.base, groups t.dim1 * slotRows t * slotRowBytes (tentFmt t)),
     (t.spillBase, dirBytes (groups t.dim1) (ceilDiv (slotRows t) 256) + 8 * t.spillCap)] ++
    (if !hasTmap t then []
     else [(t.spillBase + 64 * t.tmapOff, groups t.dim0 * tmapRows t * 256),
           (t.spillBase + 64 * t.toverOff, dirBytes (groups t.dim0) (ceilDiv (tmapRows t) 256) + 8 * t.toverCap)])

/-! ### Operands -/

/-- An operand as checks 0x10, 0x21, 0x30 and 0x31 see it: its index, whether it must be named, whether an SQ layout
counts, its excess along the first offending axis, and the bytes its allocation lacks. -/
structure Opd where
  idx : Nat
  must : Bool
  sq : Bool
  heads : Nat
  excess : Nat
  lack : Nat
  deriving DecidableEq, Repr

/-- An operand of a descriptor: `ex` and `need` are asked only of a valid entry. -/
def mkOpd (e : List W64) (ents : Tbl (List W64)) (must sq : Bool) (heads i : Nat) (ex need : TEnt → Nat) : List Opd :=
  if i == 0 && !must then []
  else
    match namedEnt e ents i with
    | none => [{ idx := i, must := must, sq := sq, heads := heads, excess := invalidIdx, lack := 0 }]
    | some t => [{ idx := i, must := must, sq := sq, heads := heads, excess := ex t,
                   lack := if sq && t.layout != 0 then 0 else need t - t.alloc }]

/-- Excess of a range over a tensor's dimensions, rows first (R147). -/
def dimExcess (r c : Nat) (t : TEnt) : Nat := if decide (t.dim0 < r) then r - t.dim0 else c - t.dim1

/-- No dimension, or no allocation, applies (R232). -/
def noDims : TEnt → Nat := fun _ => 0

/-- An output scale array lies in a dense entry (R86). -/
def denseOnly (t : TEnt) : Nat := if t.layout == 0 then 0 else invalidIdx

/-- The block scales, and the LUT or scale with zero point, of a weight operand (R71, R72, R76). -/
def weightSeconds (e : List W64) (ents : Tbl (List W64)) (heads i korg k cols n1 : Nat) : List Opd :=
  match namedEnt e ents i with
  | none => []
  | some t =>
    (if t.bscale then mkOpd e ents true false heads t.bscaleIndex noDims (fun s => if k == 0 then 0 else arrayEnd s heads (ceilDiv (korg + k) 32) cols n1) else []) ++
    (if t.expand == 0 then [] else mkOpd e ents true false 1 t.qparam noDims (fun _ => if t.expand == 1 then 32 else 5 * t.dim1))

/-- The parameter record has been read, or none is named (R230). -/
def paramKnown (l : Look) (d : List W64) : Bool := dAux d == 0 || thas l.params (dAux d)

/-- The operands of a compute descriptor in field order. -/
def computeOpds (e : List W64) (l : Look) (d : List W64) : List Opd :=
  let o := dOpcode d
  let j := lookJob l d
  let p := j.p
  let h := dHeads d
  let m := dMt d
  let n := dNt d
  let k := dKt d
  let mEnd := dMorg d + m
  let nEnd := if o == 2 then n else dNorg d + n
  let kEnd := dKorg d + k
  let op := mkOpd e l.ents
  let taps := pFiltR p * pFiltS p
  let px := cvHout j * cvWout j
  let images := if px == 0 then 0 else ceilDiv mEnd px
  let act := mkOpd e l.ents true false h (dAct d)
    (if o == 5 then dimExcess kEnd mEnd else if o == 6 then dimExcess (images * pHin p) (pWin p * pCin p) else dimExcess mEnd kEnd)
    (fun t => if k == 0 then 0 else if o == 5 then denseEnd t h (dKorg d) k mEnd
      else if o == 6 then (if m == 0 then 0 else denseEnd t h 0 (images * pHin p) (pWin p * pCin p)) else denseEnd t h (dMorg d) m kEnd)
  let actScale := match namedEnt e l.ents (dAct d) with
    | some t => if t.bscale then op true false h t.bscaleIndex noDims (fun s =>
        if k == 0 || m == 0 then 0 else arrayEnd s h mEnd (ceilDiv (actK j) 32) (ceilDiv kEnd 32)) else []
    | none => []
  let w := mkOpd e l.ents true true h (dW d)
    (if o == 4 then (fun t => dimExcess nEnd kEnd t)
     else if o == 6 then (fun t =>
      if !paramKnown l d then 0
      else if pDgrad p then (if decide (taps * pCin p < kEnd) then kEnd - taps * pCin p else dimExcess (taps * nEnd) (pCin p) t)
      else (if decide (taps * pCin p < kEnd) then kEnd - taps * pCin p else dimExcess kEnd nEnd t))
     else if o == 2 then (fun t => dimExcess kEnd 0 t) else dimExcess kEnd nEnd)
    (fun t => if k == 0 then 0 else if transposed j then denseEnd { t with batchRows := 0 } h 0 t.dim0 t.dim1
      else denseEnd { t with batchRows := 0 } h (dKorg d) k (nFirst j + nCols j))
  let y := op (o == 5) (o == 5) h (dOut d)
    (fun t => if dOutMx d && !t.bscale then invalidIdx else dimExcess mEnd nEnd t)
    (fun t => if dAccOut d != 0 then 0 else denseEnd t h (dMorg d) m nEnd)
  let yRef := match namedEnt e l.ents (dOut d), namedEnt e l.ents (dC d) with
    | some t, some r => if o == 5 then y.map (fun x => { x with lack := 8 * (r.spillCount - t.spillCap) }) else y
    | _, _ => y
  let yScale := match namedEnt e l.ents (dOut d) with
    | some t => if dOutMx d && t.bscale then op true false h t.bscaleIndex denseOnly (fun s =>
        if m == 0 || n == 0 || dAccOut d != 0 then 0 else arrayEnd s h mEnd (ceilDiv t.dim1 32) (ceilDiv nEnd 32)) else []
    | none => []
  act ++ actScale ++ w ++ weightSeconds e l.ents h (dW d) (dKorg d) k (wCols j) (nFirst j + nCols j) ++
  (if o == 5 then op true true h (dC d) (dimExcess mEnd nEnd) (fun _ => 0)
   else op false false h (dC d) (dimExcess mEnd nEnd) (fun t => denseEnd t h (dMorg d) m nEnd)) ++
  yRef ++ yScale ++
  [dAccIn d, dAccOut d, dWide d].flatMap (fun i => op false false 1 i noDims (fun _ => 0)) ++
  op false false 1 (dAux d) noDims (fun _ => 64) ++
  op false false 1 (pRowScale p) noDims (fun _ => 4 * m) ++ op false false 1 (pChanScale p) noDims (fun _ => 4 * n) ++
  op false false 1 (pBias p) noDims (fun _ => 4 * nCols j) ++
  op false false h (pRstat p) noDims (fun t => if m == 0 || h == 0 then 0 else t.headStride * (h - 1) + 4 * (jobStats d).length * m) ++
  op false false 1 (pRsIn p) noDims (fun _ => 8 * m) ++ op false false 1 (pRsOut p) noDims (fun _ => 8 * m) ++
  op false false 1 (pAccInWide p) noDims (fun _ => 0) ++
  (if o != 2 then []
   else op true true h (dW2 d) (dimExcess (nCols j) n) (fun t => denseEnd { t with batchRows := 0 } h 0 (nCols j) n) ++
    weightSeconds e l.ents h (dW2 d) 0 (nCols j) (jent j (dW2 d)).dim1 n)

/-- The operands of a FOLD (R240). -/
def foldOpds (e : List W64) (l : Look) (d : List W64) : List Opd :=
  let f := foAsCompute d
  let op := mkOpd e l.ents
  let n := min (foCount d) 8
  let h := foHeads d
  let rows := h * groups (foNt d) * foMt d
  op false false h (foOut d) (fun t => if dOutMx f && !t.bscale then invalidIdx else dimExcess (foMt d) (foNt d) t)
    (fun t => denseEnd t h 0 (foMt d) (foNt d)) ++
  (match namedEnt e l.ents (foOut d) with
   | some t => if dOutMx f && t.bscale then op true false h t.bscaleIndex denseOnly (fun s =>
      if foMt d == 0 || foNt d == 0 then 0 else arrayEnd s h (foMt d) (ceilDiv t.dim1 32) (ceilDiv (foNt d) 32)) else []
   | none => []) ++
  op false false 1 (foAccOut d) noDims (fun _ => 0) ++ op false false 1 (foWideOut d) noDims (fun _ => 0) ++
  (List.range n).flatMap (fun i => op true false 1 (foPart d i) noDims (fun _ => 64 + 1536 * rows)) ++
  (List.range n).flatMap (fun i => op false false 1 (foPartWide d i) noDims (fun _ => 0))

/-! ### Mask operations (R133, R134, R413) -/

/-- The range of a mask operation over a target: k0, k1, n0, n1 (R134, R241). -/
structure MkRange where
  k0 : Nat
  k1 : Nat
  n0 : Nat
  n1 : Nat
  deriving DecidableEq, Repr

def mkRangeOf (d : List W64) (t : TEnt) : MkRange :=
  { k0 := mkK0 d, k1 := if mkK1 d == 0 then t.dim0 else mkK1 d, n0 := mkN0 d, n1 := if mkN1 d == 0 then t.dim1 else mkN1 d }

/-- Excess of a range beyond its target, or of an empty or inverted one (R134). -/
def rangeExcess (d : List W64) (t : TEnt) : Nat :=
  let r := mkRangeOf d t
  if decide (t.dim0 < r.k1) then r.k1 - t.dim0
  else if decide (r.k1 ≤ r.k0) then r.k0 - r.k1 + 1
  else if decide (t.dim1 < r.n1) then r.n1 - t.dim1
  else if decide (r.n1 ≤ r.n0) then r.n0 - r.n1 + 1 else 0

/-- The operands of a mask operation. -/
def maskOpds (e : List W64) (l : Look) (d : List W64) : List Opd :=
  let o := dOpcode d
  let op := mkOpd e l.ents
  let h := mkHeads d
  let t := tentOf (tget [] l.ents (mkTarget d))
  let r := mkRangeOf d t
  let actScale (i : Nat) : List Opd := match namedEnt e l.ents i with
    | some x => if x.bscale then op true false h x.bscaleIndex noDims (fun s => arrayEnd s h t.dim0 (ceilDiv x.dim0 32) (ceilDiv (mkTokens d) 32)) else []
    | none => []
  op true true h (mkTarget d) (rangeExcess d) (fun t => denseEnd t h 0 t.dim0 t.dim1) ++
  weightSeconds e l.ents h (mkTarget d) 0 t.dim0 t.dim1 t.dim1 ++
  op true true h (mkShadow d) noDims (fun _ => 0) ++
  (if o == 0x11 && !mkMode d && mkSrc0 d != 0 then
    op false false h (mkSrc0 d) (dimExcess t.dim0 t.dim1) (fun g => denseEnd g h 0 t.dim0 t.dim1)
   else if o == 0x12 then op false false h (mkSrc0 d) noDims (fun b => arrayEnd b h (r.k1 - r.k0) (ceilDiv (r.n1 - r.n0) 8) (roundUp (ceilDiv (r.n1 - r.n0) 8) 64))
   else op false false 1 (mkSrc0 d) noDims (fun _ => 0)) ++
  (if mkFromAB d then
    op true false h (mkSrc1 d) (dimExcess (mkTokens d) t.dim0) (fun a => denseEnd a h 0 (mkTokens d) t.dim0) ++ actScale (mkSrc1 d) ++
    op true false h (mkSrc2 d) (dimExcess (mkTokens d) t.dim1) (fun b => denseEnd b h 0 (mkTokens d) t.dim1) ++
    weightSeconds e l.ents h (mkSrc2 d) 0 (mkTokens d) ((namedEnt e l.ents (mkSrc2 d)).map (·.dim1) |>.getD 0) t.dim1
   else
    (if o == 0x12 then op false false h (mkSrc1 d) (dimExcess (r.k1 - r.k0) (r.n1 - r.n0)) (fun v => denseEnd v h 0 (r.k1 - r.k0) (r.n1 - r.n0))
     else op false false 1 (mkSrc1 d) noDims (fun _ => 0)) ++
    op false false 1 (mkSrc2 d) noDims (fun _ => 0))

/-- Two entries can share bytes of one space in some region (R231). -/
def sameSpace (a b : TEnt) : Bool :=
  if a.space == 0 || b.space == 0 then a.space == b.space
  else a.space == 1 || b.space == 1 || a.region == b.region

/-- Bytes in which two ranges overlap. -/
def overlap (a n b m : Nat) : Nat := min (a + n) (b + m) - max a b

/-- Insert a range by its first byte. -/
def insertSpan (x : Nat × Nat) : List (Nat × Nat) → List (Nat × Nat)
  | [] => [x]
  | y :: t => if x.1 ≤ y.1 then x :: y :: t else y :: insertSpan x t

/-- Bytes at or above `lo` that lie in some range of a sorted list of (first, one past last). -/
def spanBytes : Nat → List (Nat × Nat) → Nat
  | _, [] => 0
  | lo, (a, b) :: t => (b - max a lo) + spanBytes (max lo b) t

/-- A region of a tensor in each head: a dense tensor's allocation holds all its heads (R231). -/
def headRegions (heads : Nat) (t : TEnt) (x : Nat × Nat) : List (Nat × Nat) :=
  if t.layout == 0 then [x] else (List.range heads).map (fun i => (x.1 + i * t.headStride, x.2))

/-- Bytes in which a region of one tensor overlaps the regions of another, over all heads, each byte once (R133, R413). -/
def overlapBytes (heads : Nat) (s t : TEnt) (x : Nat × Nat) : Nat :=
  let ys := (tensorRegions t).flatMap (headRegions heads t)
  let os := (headRegions heads s x).flatMap (fun a => ys.filterMap (fun y =>
    if overlap a.1 a.2 y.1 y.2 == 0 then none else some (max a.1 y.1, min (a.1 + a.2) (y.1 + y.2))))
  spanBytes 0 (os.foldr insertSpan [])

/-- Bytes that a region lacks before another of them begins (R133): the regions in order, each as first byte and length. -/
def regionLack (xs : List (Nat × Nat)) : Nat :=
  ((List.range xs.length).findSome? (fun i => (List.range xs.length).findSome? (fun k =>
    let x := xs.getD i (0, 0)
    let y := xs.getD k (0, 0)
    if i != k && decide (x.1 ≤ y.1) && decide (y.1 < x.1 + x.2) && y.2 != 0 then some (x.1 + x.2 - y.1) else none))).getD 0

/-- Bytes that the shadow's value region, spill region, T-map and T-overflow region lack (R133). -/
def shadowLack (s : TEnt) : Nat := regionLack (tensorRegions s)

/-- Check 0x35 (R133): the shortfall, or nothing where the shadow fits. -/
def shadowFault (heads : Nat) (s t : TEnt) : Option Nat :=
  if s.fmtCode != t.fmtCode || s.dim0 != t.dim0 || s.dim1 != t.dim1 || s.layout == 0 then some invalidIdx
  else
    match (if sameSpace s t then (tensorRegions s).find? (fun x => overlapBytes heads s t x != 0) else none) with
    | some x => some (overlapBytes heads s t x)
    | none => if shadowLack s != 0 then some (shadowLack s) else none

/-! ### The checks by number (R165) -/

/-- The operands of a descriptor, in field order. -/
def opdsOf (e : List W64) (l : Look) (d : List W64) : List Opd :=
  let o := dOpcode d
  let op := mkOpd e l.ents
  if opCompute o then
    (if dBucketed d then op true false 1 (bIndex d) noDims (fun _ => 64 * bCount d) ++ op true false 1 (bShape d) noDims (fun _ => 4)
     else computeOpds e l d)
  else if o == 8 then foldOpds e l d
  else if opMask o then maskOpds e l d
  else if o == 0x13 then op true false 1 (bmOut d) noDims (fun _ => bmM d * roundUp (ceilDiv (bmN d) 8) 64)
  else if o == 0x18 then op true true 1 (caW d) noDims (fun _ => 0)
  else if o == 0x28 then op false true 1 (feTensor d) noDims (fun _ => 0)
  else if o == 0x30 then
    op true false 1 (stSrc d) noDims (fun _ => 1024 * stRows d) ++ op true false 1 (stDst d) noDims (fun _ => 1088 * stRows d)
  else []

/-- Check 0x10 of one operand: the base, then the spill base of an SQ tensor. -/
def alignOf (e : List W64) (l : Look) (x : Opd) : Nat :=
  match namedEnt e l.ents x.idx with
  | none => 0
  | some t => if t.base % 64 != 0 then t.base % 64 else if x.sq && t.layout != 0 then t.spillBase % 64 else 0

/-- Check 0x31 of one operand: bytes beyond the allocatable scratchpad. -/
def beyondOf (e : List W64) (l : Look) (x : Opd) : Nat :=
  match namedEnt e l.ents x.idx with
  | none => 0
  | some t =>
    if t.space == 0 then 0
    else (((if x.sq then tensorRegions t else [(t.base, t.alloc)]).map (fun y =>
      y.1 + y.2 + (if x.sq && t.layout != 0 then (x.heads - 1) * t.headStride else 0) - spadEnd)).find? (· != 0)).getD 0

/-- Distance of a value from a range. -/
def outside (v lo hi : Nat) : Nat := if decide (v < lo) then lo - v else v - hi

/-- The first value that lies outside its range. -/
def firstOutside (l : List (Nat × Nat × Nat × Nat)) : Option (Nat × Nat) :=
  (l.find? (fun x => outside x.2.1 x.2.2.1 x.2.2.2 != 0)).map (fun x => (x.1, outside x.2.1 x.2.2.1 x.2.2.2))

/-- A compute descriptor needs an accumulation slot (R115, R118, R159). -/
def needsSlot (d : List W64) : Bool := opCompute (dOpcode d) && dAccOut d == 0 && dMt d != 0 && dNt d != 0 && dKt d != 0

/-- Partial rows of a sub-tile (R115, R176). -/
def subRows (j : Job) : Nat := chunkRows j * (if dOpcode j.d == 2 then tileGroups j else 1)

/-- Values check 0x20 holds to a range: operand, value, least, greatest (R147, R165, R185, R190). -/
def countValues (l : Look) (d : List W64) : List (Nat × Nat × Nat × Nat) :=
  let o := dOpcode d
  if opCompute o then
    let j := lookJob l d
    let p := j.p
    [(noOperand, dMt d, 0, if o == 7 then 64 else 65536), (noOperand, dNt d, 0, 1024), (noOperand, dKt d, 0, 1048576),
     (noOperand, dHeads d, 1, 4096), (noOperand, dMchunk d, 0, dMt d)] ++
    (if o != 6 || !paramKnown l d then []
     else
      [(pHin p, 1, 65535), (pWin p, 1, 65535), (pCin p, 1, 65536), (pFiltR p, 1, 16), (pFiltS p, 1, 16), (pGeom p 0, 1, 8), (pGeom p 1, 1, 8),
       (pGeom p 2, 1, 8), (pGeom p 3, 1, 8), (pInDil p, 1, if pDgrad p then 8 else 1), (pFiltR p * pFiltS p * pCin p, 0, 1048576),
       (cvHout j, 1, 2 ^ 32), (cvWout j, 1, 2 ^ 32)].map (fun x => (dAux d, x)))
  else if o == 8 then [(noOperand, foMt d, 0, 65536), (noOperand, foNt d, 0, 1024), (noOperand, foHeads d, 1, 4096)]
  else if opMask o then
    [(noOperand, mkHeads d, 1, 4096)] ++ (if mkFromAB d then [(noOperand, mkTokens d, 1, 1048576)] else [])
  else if o == 0x20 then [(noOperand, reLen d, 1, 256)]
  else if o == 0x21 then [(noOperand, reLen d, 1, 4096)]
  else if o == 0x30 then [(noOperand, stRows d, 1, 1048576)]
  else []

/-- Bytes of a remote operation's scratchpad range beyond 49,024 KiB (R279); RREAD reads the journal range's summary view above
it too (R22, R282, R303). DESIGN CHOICE (log 46): R279 does not say from where the shortfall of such a source counts when it passes the end of
that view; it counts from 0x03000000, the end of the window. -/
def remoteBeyond (d : List W64) : Nat :=
  let n := if dOpcode d == 0x20 || dOpcode d == 0x21 then reLen d else 8
  let upTo (last : Nat) (a : W64) : Nat := match remoteSpace a with
    | .mem => 0
    | .spad _ => remoteAddr a + n - last
  let one := upTo spadEnd
  if dOpcode d == 0x21 then (if upTo 0x03000000 (reA d) != 0 then upTo 0x03000000 (reA d) else one (reB d))
  else if one (reA d) != 0 then one (reA d) else if dOpcode d == 0x20 || dOpcode d == 0x21 then one (reB d) else 0

/-- Check 0x11 (R147, R185): m_org, k_org, then m_chunk. -/
def originFault (e : List W64) (l : Look) (d : List W64) : Nat :=
  let j := lookJob l d
  let w := if dOpcode d == 6 then cvWout j else 0
  let md := fun (v m : Nat) => if m == 0 then 0 else v % m
  if md (dMorg d) w != 0 then md (dMorg d) w
  else if (namedEnt e l.ents (dAct d)).isSome && (namedEnt e l.ents (dW d)).isSome && md (dKorg d) (passLogK (jobMode j)) != 0 then
    md (dKorg d) (passLogK (jobMode j))
  else md (dMchunk d) w

/-- The first bucket size that does not rise (R154). -/
def bucketOrder (d : List W64) (vs : List (List W64)) : Option Nat :=
  (List.range vs.length).find? (fun i => decide (1 ≤ i) && decide (bucketSize (bDim d) (vs.getD i []) ≤ bucketSize (bDim d) (vs.getD (i - 1) [])))

/-- Bytes a buffer or region lacks. -/
def lackOf (e : List W64) (ents : Tbl (List W64)) (i need : Nat) : Option (Nat × Nat) :=
  match namedEnt e ents i with
  | none => none
  | some t => if decide (t.alloc < need) then some (i, need - t.alloc) else none

/-- Check 0x32 (R98, R100, R115, R118, R149, R176, R240). -/
def bufferFault (e : List W64) (l : Look) (d : List W64) : Option (Nat × Nat) :=
  let o := dOpcode d
  if o == 8 then
    let rows := foHeads d * groups (foNt d) * foMt d
    ((lackOf e l.ents (foAccOut d) (64 + 1536 * rows)).orElse (fun _ =>
      if foAccOut d != 0 && foWideOut d == 0 then some (0, 10240 * rows) else lackOf e l.ents (foWideOut d) (10240 * rows)))
  else
    let j := lookJob l d
    let rows := partialRows j
    let wide := rows * 256 * wideBytes (jobWide j)
    if needsSlot d && decide (ceAccRows e < subRows j) then some (noOperand, subRows j - ceAccRows e)
    else
      (lackOf e l.ents (dAccIn d) (64 + 1536 * rows)).orElse (fun _ =>
      (lackOf e l.ents (dAccOut d) (64 + 1536 * rows)).orElse (fun _ =>
      (if decide (1 ≤ dSpillInt d) && dWide d == 0 then some (0, 2048 * rows) else lackOf e l.ents (dWide d) wide).orElse (fun _ =>
      lackOf e l.ents (pAccInWide j.p) wide)))

/-- Check 0x33 (R161, R162, R186). -/
def footFault (e : List W64) (l : Look) (d : List W64) : Option (Nat × Nat) :=
  let j := lookJob l d
  let need := (if dAllowStream d then 0 else weightFoot j) + windowsFoot j
  if decide (ceResBytes e < need) then some (dW d, need - ceResBytes e) else none

/-- The first of a descriptor's operands that a function faults. -/
def firstOpd (l : List Opd) (f : Opd → Nat) : Option (Nat × Nat) := (l.find? (fun x => f x != 0)).map (fun x => (x.idx, f x))

/-- One check, by its number, of a descriptor; `ring` marks the ring descriptor of a BUCKETED one. -/
def checkAt (e : List W64) (agreed : Nat) (l : Look) (streamOk : Bool) (d : List W64) (id : Nat) : Option Result :=
  let o := dOpcode d
  let ring := opCompute o && dBucketed d
  let two (st : Status) (x : Option (Nat × Nat)) : Option Result := x.map (fun y => rej st id y.1 y.2)
  let one (st : Status) (n : Nat) : Option Result := if n == 0 then none else some (rej st id noOperand n)
  let compute := opCompute o && !ring
  match id with
  | 0x01 => if (opClass o).isNone || (o == 0x30 && !streamOk) then some (rej .badOpcode id noOperand 0) else none
  | 0x02 => if decide (agreed < dVersion d) then some (rej .badVersion id noOperand agreed) else none
  | 0x03 => (firstOffence (if ring then bucketOffences e l d else offencesOf e l d)).map (fun x => rej .badRsvd id x.2 x.1)
  | 0x10 =>
    if o == 0x22 || o == 0x23 then one .admitAlign ((reA d).toNat % 8)
    else two .admitAlign (firstOpd (opdsOf e l d) (alignOf e l))
  | 0x11 => if compute then one .admitAlign (originFault e l d) else none
  | 0x12 => if compute && dOutMx d then one .admitAlign (dNorg d % 32) else none
  | 0x20 => if ring then none else two .admitCount (firstOutside (countValues l d))
  | 0x21 => two .admitCount (firstOpd (opdsOf e l d) (·.excess))
  | 0x22 =>
    if ring then
      (if !bucketsOk d then some (rej .admitCount id noOperand (outside (bCount d) 1 8))
       else (bucketOrder d l.variants).map (fun i => rej .admitCount id (bIndex d) i))
    else if o == 8 then one .admitCount (outside (foCount d) 2 8) else none
  | 0x23 =>
    if compute && o == 2 then
      let j := lookJob l d
      let lim := if decide (fmtBits (interFmt j) ≤ 8) then 1024 else 512
      if decide (1024 < nCols j) then some (rej .admitCount id (dW d) (nCols j - 1024)) else one .admitCount (chunkRows j - lim)
    else none
  | 0x24 => if compute && needsSlot d && ceAccSlots e == 0 && ceBackSlots e == 0 then some (rej .admitCount id noOperand 0) else none
  | 0x25 =>
    if !opMask o then none
    else
      let g := (tentOf (tget [] l.ents (mkTarget d))).gen
      if g == mkGen d then none
      else if g == mkGen d + 1 then some { rej .ok id (mkTarget d) g.toNat with result := BitVec.ofNat 64 g.toNat }
      else some (rej .admitCount id (mkTarget d) g.toNat)
  | 0x30 => two .admitSize (firstOpd (opdsOf e l d) (·.lack))
  | 0x31 =>
    if opRemote o then one .admitSize (remoteBeyond d)
    else
      (two .admitSize (firstOpd (opdsOf e l d) (beyondOf e l))).orElse (fun _ =>
        if compute && needsSlot d && ceAccSlots e != 0 then one .admitSize (ceAccPool e + ceAccSlots e * (64 + 1536 * ceAccRows e) - spadEnd) else none)
  | 0x32 => if compute || o == 8 then two .admitSize (bufferFault e l d) else none
  | 0x33 => if compute then two .admitSize (footFault e l d) else none
  | 0x34 =>
    if compute && (o == 4 || (dgrad (lookJob l d) && (wEnt (lookJob l d)).layout != 0)) && (wEnt (lookJob l d)).tmapOff == 0 then
      some (rej .admitSize id (dW d) 0) else none
  | 0x35 =>
    if !opMask o then none
    else (shadowFault (mkHeads d) (tentOf (tget [] l.ents (mkShadow d))) (tentOf (tget [] l.ents (mkTarget d)))).map
      (fun n => rej .admitSize id (mkShadow d) n)
  | _ => none

/-- The checks in ascending order of their numbers (R165). -/
def checkIds : List Nat := [0x01, 0x02, 0x03, 0x10, 0x11, 0x12, 0x20, 0x21, 0x22, 0x23, 0x24, 0x25, 0x30, 0x31, 0x32, 0x33, 0x34, 0x35]

/-- The first failure: at each number the ring descriptor, then its variants (R155, R163). -/
def firstFailure (e : List W64) (agreed : Nat) (l : Look) (streamOk : Bool) (d : List W64) : Option Result :=
  checkIds.findSome? (fun id => (d :: (if dBucketed d then l.variants else [])).findSome? (fun v => checkAt e agreed l streamOk v id))

end Sys2Proof.Machine
end

