-- ==== Sys2Proof/Machine/Admission.lean ====
section
/-!
DEFINITION. Admission (R143, R163 to R166, R203, R204, R227, R244, R260).
-/

namespace Sys2Proof.Machine

/-! ### Holds -/

/-- An earlier FENCE, CTXSAVE or CTXLOAD has not completed (R244, R245); behind a CTXLOAD that read enable = 0 nothing is admitted, for
the context retires with its record. -/
def controlHeld (x : Context) : Bool :=
  x.admitted.any (fun d => (dOpcode d.desc == 0x28 || dOpcode d.desc == 0x29 || dOpcode d.desc == 0x2A) && d.result.isNone ||
    dOpcode d.desc == 0x2A && !ceEnable x.ent)

/-- An earlier mask operation whose target the descriptor names has neither committed nor failed (R143). -/
def maskHeld (s : State) (c : Nat) (desc : List W64) : Bool :=
  (getCtx s c).admitted.any (fun d => opMask (dOpcode d.desc) && d.result.isNone && d.mask.any (fun m => decide (m.phase < 5)) &&
    (let l := lookAll s c desc
     (idxAll l.params l.variants desc).contains (mkTarget d.desc) || (dOpcode desc == 0x28 && feTensor desc == mkTarget d.desc)))

/-! ### Random draws (R203, R204, R239) -/

/-- The RNG slot and the stream offset a descriptor names. -/
def drawSource (l : Look) (d : List W64) : Option (Nat × Nat) :=
  let o := dOpcode d
  let v := if dBucketed d then l.variants.getD 0 [] else d
  if opCompute o then some (dRngSlot v, dRngStream v)
  else if o == 8 then some (dRngSlot (foAsCompute d), dRngStream (foAsCompute d))
  else if opMask o then some (mkRngSlot d, mkStream d)
  else if o == 0x13 then some (bmSlot d, bmStream d)
  else none

def slotAt (x : Context) (i : Nat) : RngSlot := tget { key := 0, streamBase := 0, epoch := 0 } x.rng i

/-- RNG_STEP advances the slot's epoch in the admission step. -/
def stepSlot (x : Context) (d : List W64) (i : Nat) : Context :=
  if dRngStep d then { x with rng := tset x.rng i { slotAt x i with epoch := (slotAt x i).epoch + 1 } } else x

/-! ### The admitted descriptor -/

/-- A descriptor that has just been taken from the ring, with nothing read for it. -/
def bareAdm (ring : W32) (desc : List W64) : Adm :=
  { ring := ring, desc := desc, entries := [], params := [], variants := [], ent := [], key := 0, stream := 0, epoch := 0,
    emitted := 0, total := none, doneSubs := 0, absent := false, variant := 0, shapeV := 0, flags := 0, result := none, prior := none, copied := [],
    active := none, lastRead := 0, mask := none, stats := [] }

def freshMask : MaskOp :=
  { phase := 0, sweep := 0, region := 0, sieve := [], sel := [], promotions := 0, spillNeed := 0, toverNeed := 0, flags := 0, jent := none }

/-- The admission record (R304): what the descriptor keeps to its end. -/
def admitRecord (x : Context) (ring : W32) (desc : List W64) (l : Look) : Adm :=
  let a := { bareAdm ring desc with entries := l.ents, params := l.params, variants := l.variants, ent := x.ent,
                                    mask := if opMask (dOpcode desc) then some freshMask else none }
  match drawSource l desc with
  | none => a
  | some (i, off) =>
    let q := slotAt x i
    { a with key := q.key, stream := q.streamBase + BitVec.ofNat 32 off,
             epoch := if dOpcode desc == 0x11 && mkMode desc then mkGen desc else q.epoch }

/-- Tempo: the step a descriptor belongs to (R260). -/
def tempoAdmit (x : Context) (ring : W32) (now : Nat) : Context :=
  if ceTempoNs x.ent == 0 then x
  else if decide (now < x.tempo.fin) then { x with tempo := { x.tempo with openRings := x.tempo.openRings ++ [ring] } }
  else { x with tempo := { x.tempo with nextRings := x.tempo.nextRings ++ [ring] } }

/-- Every copy of a context's tensors leaves every region. -/
def dropCopies (s : State) (c : Nat) (tensors : List Nat) : State :=
  { s with rgns := tmap (fun _ r => { r with resid := r.resid.filter (fun y => !(y.ctx == c && tensors.contains y.tensor)) }) s.rgns }

/-- Tensors whose generation has wrapped to 0 since M1 last read it: all their copies are invalid (R145). -/
def dropWrapped (s : State) (c : Nat) (ents : Tbl (List W64)) : State :=
  let x := getCtx s c
  let wrapped := (ents.filter (fun e => (tentOf e.2).gen == 0 && tget 0 x.lastGens e.1 != 0)).map (·.1)
  dropCopies (setCtx s c { x with lastGens := ents.foldl (fun g e => tset g e.1 (tentOf e.2).gen) x.lastGens }) c wrapped

/-- The front of the fetched descriptors is taken. -/
def takeFetched (x : Context) : Context :=
  { x with fetched := x.fetched.drop 1, slotXlate := x.slotXlate.filter (fun i => !(x.fetched.take 1).any (fun f => f.1 == i)) }

/-- A descriptor that ends at admission: it awaits its record (R163, R164, R166). -/
def rejectWith (s : State) (c : Nat) (ring : W32) (desc : List W64) (res : Result) : State :=
  let x := takeFetched (getCtx s c)
  setCtx s c (finishIn { x with admitted := x.admitted ++ [bareAdm ring desc] } ring res)

/-- A descriptor that passes every check is admitted. -/
def admitWith (s : State) (c : Nat) (ring : W32) (desc : List W64) (l : Look) : State :=
  let x := takeFetched (getCtx s c)
  let y := { x with admitted := x.admitted ++ [admitRecord x ring desc l] }
  let z := match drawSource l desc with
    | none => y
    | some (i, _) => stepSlot y desc i
  dropWrapped (setCtx s c (tempoAdmit z ring s.time.t)) c l.ents

/-- The context holds maintenance ownership of an array (R59, R370). -/
def ownsArray (s : State) (c a : Nat) : Bool := s.mnt.streamCtx.toNat == c && s.mnt.streamArrays.toNat.testBit a

/-- A read of admission that failed (R166): logged when it was poisoned, at the context's host port (R324, R336). -/
def rejectRead (s : State) (c : Nat) (ring : W32) (desc : List W64) : ReadStop → State
  | .xlate a => rejectWith s c ring desc { plainResult .xlateFault with result := BitVec.ofNat 64 a }
  | .poison a =>
    rejectWith (logFault s { hostEntry s 0x15 ((hostPortFor s c).getD (c % 4)) a with ctx := BitVec.ofNat 12 c, ring := ring })
      c ring desc (plainResult .unrecoverable)
  | .absent => rejectWith s c ring desc (plainResult .arraysAbsent)

/-- An RWRITE with ACQUIRE that has ended with DUP_CLAIM and has no record yet ends what it would hold, new ones too (R287, R294). -/
def admitHeld (s : State) (c : Nat) (ring : W32) : State :=
  if (earlier (getCtx s c) ring).any (fun e => dOpcode e.desc == 0x20 && dAcquire e.desc && e.result.any (fun x => x.status == .dupClaim)) then
    endDesc s c ring .dupClaim
  else s

/-- Admit or reject one descriptor. Checks 0x01 and 0x02 of the ring descriptor come before the reads. -/
def admitOp (s : State) (c : Nat) (ring : W32) (desc : List W64) : State :=
  let x := getCtx s c
  let agreed := s.regs.agreed.toNat
  let streamOk := ownsArray s c (stArray desc)
  let l0 : Look := { ents := [], params := [], variants := [], bytes := 0, stop := none }
  let slot := slotAddr x.ent ring
  if desc.isEmpty then
    match xlateAt s.env (ceAsid x.ent) slot 64 with
    | some a => rejectRead s c ring desc (.xlate a)
    | none =>
      if x.slotXlate.contains ring then rejectRead s c ring desc (.xlate slot)
      else if poisonedAt s.env slot 64 then rejectRead s c ring desc (.poison slot)
      -- the host port has logged the poisoned read
      else rejectWith s c ring desc (plainResult .unrecoverable)
  else
    match (checkAt x.ent agreed l0 streamOk desc 0x01).orElse (fun _ => checkAt x.ent agreed l0 streamOk desc 0x02) with
    | some res => rejectWith s c ring desc res
    | none =>
      let l := lookAll s c desc
      let s1 := chargeRd s c l.bytes
      match l.stop with
      | some st => rejectRead s1 c ring desc st
      | none =>
        match firstFailure x.ent agreed l streamOk desc with
        | some res => rejectWith s1 c ring desc res
        | none => admitHeld (admitWith s1 c ring desc l) c ring

/-- The completion ring has no room: admission waits, and cq_wait is set (R227). -/
def waitRoom (s : State) (c : Nat) : State :=
  if (getCtx s c).cqWait then s else writeStatus (setCtx s c { getCtx s c with cqWait := true, cqRead := true }) c

/-- ADMISSION (R163). -/
def execAdmission (c : CtxId) (s : State) : Host.Outcome State Fault Refusal :=
  .next (let x := getCtx s c.val
    if takesWork x && running s && (hostPortFor s c.val).isSome then
      (match x.fetched with
       | [] => s
       | (ring, desc) :: _ =>
         if slotPending s c.val ring || controlHeld x || maskHeld s c.val desc then s
         else if !cqRoom x then waitRoom s c.val
         else admitOp s c.val ring desc)
    else s)

end Sys2Proof.Machine
end

