-- ==== Sys2Proof/Machine/Emit.lean ====
section
/-!
DEFINITION. The dispatcher: the engine controller's decision (R31), sub-tiles in fold order (R148, R250, R253, R254), and
Tempo's periods (R260, R261).
-/

namespace Sys2Proof.Machine

/-! ### Sub-tiles of a descriptor -/

/-- Sub-tiles per chunk: the column groups, or one for FUSED2 (R148, R176). -/
def groupsPerChunk (j : Job) : Nat := if dOpcode j.d == 2 then 1 else tileGroups j

def subCount (j : Job) : Nat := dHeads j.d * chunksOf j * groupsPerChunk j

/-- Rows of chunk `c` (R148). -/
def rowsOfChunk (j : Job) (c : Nat) : Nat := min (chunkRows j) (dMt j.d - c * chunkRows j)

/-- Estimated array cycles of a sub-tile of `rows` rows (R255, R176). -/
def subCost (j : Job) (rows : Nat) : Nat :=
  if dOpcode j.d == 2 then groups (n1Of j) * max (passesOf j) (tileGroups j) * (rows + 5) else elemPasses j * (rows + 5)

/-- Sub-tile `e` of a descriptor in the order of R148; its place in the order of dispatch is 0 until it binds. -/
def subAt (s : State) (c : Nat) (d : Adm) (j : Job) (e : Nat) (side : Bool) (order : Nat) : SubTile :=
  let g := groupsPerChunk j
  let ch := e / g % chunksOf j
  let rows := rowsOfChunk j ch
  { ctx := c, ring := d.ring, variant := d.variant, shapeV := d.shapeV, h := e / (g * chunksOf j), c := ch, g := e % g,
    m0 := ch * chunkRows j, rows := rows, passes := elemPasses j, cost := subCost j rows, prio := cePrio (getCtx s c).ent,
    side := side, array := none, home := none, band := 0, bandRows := packRows j, slot := none, jent := none, passesDone := 0, rowMark := 0,
    zPasses := 0, misses := 0, flags := 0, moved := false, entered := s.time.t, order := order,
    pos := 0, started := false, reread := false, hashRow := 0, fuse := Fuse.init }

/-- Sub-tiles of one run of heads that share an array in band mode (R153). -/
def samePack (t u : SubTile) : Bool :=
  t.bandRows != 256 && t.bandRows == u.bandRows && t.ctx == u.ctx && t.ring == u.ring && t.c == u.c && t.g == u.g &&
  t.h / (256 / t.bandRows) == u.h / (256 / u.bandRows)

/-- The next place in the order of dispatch (R117): one order for the engine, so that sub-tiles that move between regions keep it (R306). -/
def nextOrder (s : State) : Nat := (allSubs s).foldl (fun n t => max n (t.order + 1)) 1

/-! ### DISPATCH -/

/-- What a tile reads at its start: C, scales, bias, row state, and a streamed tile's LUT or zero points; not the weights, activations, pairs
and wide values, which its loads and rows read. -/
def stagedReads (s : State) (c : Nat) (j : Job) : List Span :=
  let later := actSpans j ++ weightSpans j ++ (if dOpcode j.d == 2 then weightSpans (followJob j) else []) ++
    bufSpan j (dAccIn j.d) (partialRows j) ++ wideSpan j (pAccInWide j.p) (partialRows j) (jobWide j)
  (tileReads j).filter (fun x => !later.contains x) ++ (if streamed (ceResBytes (getCtx s c).ent) j then qparamSpans j (wEnt j) else [])

/-- Ask for what a tile reads at its start, in the staging-operand class of the ports and the staging class of the banks (R23, R26,
R27, R335); the account is charged as the data returns (R358). -/
def stage (s : State) (c : Nat) (ring : W32) (j : Job) : State :=
  (stagedReads s c j).foldl (fun u x =>
    match x.sp with
    | .mem => queueReads u (.desc c ring) (ceAsid (getCtx s c).ent) j.r 1 x.a x.n
    | .spad q => (List.range (ceilDiv (x.a % 64 + x.n) 64)).foldl (fun v i => askBank v q 2 (x.a / 64 * 64 + 64 * i) .read (.desc c ring)) u) s

/-- What is decided and read before a descriptor's first sub-tile starts (R99, R124, R159, R254, R308): `d` has its
variant. A tile with no pass runs whole. -/
def beginTile (c : Nat) (s : State) (d : Adm) : Step1 :=
  let j0 := jobOf d 0
  if runsNowhere j0 || dKt j0.d == 0 then wholeStep c s d
  else regionStep s c d (drawsBits (sizedDesc d)) (fun rs =>
    match chooseRegion s c (wIndex j0) (wEnt j0).gen (pairRegions s c j0 rs) with
    | none => .stop s
    | some r =>
      let j := jobOf d r
      if !headOk s.mems j then .stop (finish s c d (headMismatch (dAccIn j.d) d.flags))
      else
        match spansAccess s c (tileReads j) (tileWrites j) with
        | .xlate a => .stop (xlateFail s c d.ring a)
        | .poison a => .stop (poisonFail s r c d.ring a)
        | .ok =>
          if listsBad s.mems j then .stop (endDesc s c d.ring .badRsvd)
          else
            let edge := maskedEdge j || (dBucketed d.desc && decide (d.shapeV < bucketSize (bDim d.desc) (runDesc d)))
            let f (e : Adm) : Adm := { e with
              total := some (subCount j),
              flags := e.flags ||| flagIf edge flMaskedEdge ||| ((accInHead s.mems j).map (·.flags)).getD 0 }
            .go (setAdm (stage s c d.ring j) c d.ring f) (f d))

/-- Send a routed sub-tile to the Side Path of region `r`, where it binds at once (R190, R192, R302). -/
def emitSide (s : State) (r : Nat) (d : Adm) (t : SubTile) : Option State :=
  match freeJournal (getRgn s r) with
  | none => none
  | some k =>
    let u := { t with jent := some k }
    let s1 := putJournal s r k (subJournal u d)
    some (setRgn s1 r { getRgn s1 r with sideQ := (getRgn s1 r).sideQ ++ [u] })

/-- Emit the next sub-tile of a descriptor that has begun (R148, R190, R253, R254). -/
def emitNext (c : Nat) (s : State) (d : Adm) : Step1 :=
  regionStep s c d (drawsBits (sizedDesc d)) (fun rs =>
    let t0 := subAt s c d (jobOf d 0) d.emitted false 0
    let open_ := (pairRegions s c (jobOf d 0) rs).filter (fun r => decide (boardOf s r < 1024))
    -- the heads of a run go where its first one waits (R153)
    match (open_.find? (fun r => (getRgn s r).queue.any (samePack t0))).orElse
        (fun _ => chooseRegion s c (wIndex (jobOf d 0)) (wEnt (jobOf d 0)).gen open_) with
    | none => .stop s
    | some r =>
      let j := jobOf d r
      match residencyStep s c d.ring r true j with
      | none => .stop (addRgnCnt s r 6 1)
      | some s1 =>
        let side := sideRouted s r j
        let t := subAt s1 c d j d.emitted side (if side then nextOrder s1 else 0)
        let done (s2 : State) : Step1 := .stop (setAdm s2 c d.ring (fun e => { e with
          emitted := e.emitted + 1, flags := e.flags ||| routeFlags s c r j }))
        if side then (match emitSide s1 r d t with
          | none => .stop s
          | some s2 => done s2)
        else done (setRgn s1 r { getRgn s1 r with queue := (getRgn s1 r).queue ++ [t] }))

/-- One dispatch decision for a context: the first descriptor in ring order that has sub-tiles left to emit. -/
def dispatchOne (s : State) (c : Nat) : State :=
  match (getCtx s c).admitted.find? (fun d => !emittedAll d) with
  | none => s
  | some d =>
    if !(opCompute (dOpcode d.desc) && dispatchable s c d && !specPends s c d) then s
    else if d.total.isSome then (emitNext c s d).state
    else (((shapeStep s c d).next (beginTile c)).next (emitNext c)).state

/-- The context has a dispatch decision to take. -/
def decides (s : State) (c : Nat) : Bool :=
  match (getCtx s c).admitted.find? (fun d => !emittedAll d) with
  | none => false
  | some d => opCompute (dOpcode d.desc) && dispatchable s c d && !specPends s c d

/-- DISPATCH (R250 to R254). `disagree` is how often the engine controller's two copies disagree on the decision within
1 ms: once, and both return to the checkpoint and repeat it; twice is a permanent controller fault (R31). -/
def execDispatch (c : CtxId) (disagree : Fin 3) (s : State) : Host.Outcome State Fault Refusal :=
  .next (if !decides s c.val then s
    else if disagree == 2 then boardFault (logFault s (flogBase s clsReplayable 10 0x0F 0 0)) 10 0x10 0 0
    else if disagree == 1 then dispatchOne (logFault s (flogBase s clsReplayable 10 0x0F 0 0)) c.val
    else dispatchOne s c.val)

/-! ### Tempo -/

/-- The current period has elapsed, its step is complete, and the next period begins (R260, R261). -/
def tempoNext (e : List W64) (t : Tempo) : Tempo :=
  let p := ceTempoNs e
  let late := t.late + (t.lastDone - t.fin)
  let start := max t.fin t.lastDone
  let cut := min (p / 2 ^ ceCatchup e) late
  { k := t.k + 1, start := start, fin := start + p - cut, late := late - cut, openRings := t.nextRings, lastDone := start, nextRings := [] }

/-- A step that ran late is counted in the context's account (R263). -/
def chargeLate (s : State) (c late : Nat) : State :=
  if late == 0 then s
  else setAcct s c { getAcct s c with lateSteps := (getAcct s c).lateSteps + 1, lateNs := (getAcct s c).lateNs + BitVec.ofNat 64 late }

def tempoEnd (s : State) (c : Nat) : State :=
  let x := getCtx s c
  if x.st == 1 && ceTempoNs x.ent != 0 && decide (x.tempo.fin ≤ s.time.t) && x.tempo.openRings.isEmpty then
    chargeLate (setCtx s c { x with tempo := tempoNext x.ent x.tempo }) c (x.tempo.lastDone - x.tempo.fin)
  else s

/-- TEMPO_PERIOD_END (R260, R261, R263). -/
def execTempoPeriodEnd (c : CtxId) (s : State) : Host.Outcome State Fault Refusal := .next (tempoEnd s c.val)

end Sys2Proof.Machine
end

