-- ==== Sys2Proof/Machine/Banks.lean ====
section
/-!
DEFINITION. Stationary blocks: keys (R265), the rows of a load with their check sums (R55), a result row computed from an
active bank (R40, R73, R75), its check (R56, R57), and stationary-bank faults (R18, R54).
-/

namespace Sys2Proof.Machine

/-! ### Keys -/

/-- The pass mode of a job as a number (R265). -/
def modeCode (j : Job) : Nat :=
  let m := passModeOf (jobMode j) (jobScaled j)
  m.act + 16 * m.wgt + 256 * m.slots + 4096 * b2n (transposed j)

/-- The key of pass `n` of sub-tile `t` (R265): the group and the pass count from the tensor's first. -/
def keyOf (j : Job) (t : SubTile) (n : Nat) : BlockKey :=
  { ctx := t.ctx, tensor := wIndex j, gen := (wEnt j).gen, group := nFirst j / 256 + t.g, head := t.h,
    pass := firstRow j / 256 * piecesOf (jobMode j) + n, mode := modeCode j }

/-- The canonical pass and the piece of pass `n` (R90). -/
def passOf (j : Job) (n : Nat) : Nat × Nat := (n / piecesOf (jobMode j), n % piecesOf (jobMode j))

/-- The first column of a sub-tile's group, and its live columns. -/
def subFirst (j : Job) (t : SubTile) : Nat := nFirst j + 256 * t.g
def subCols (j : Job) (t : SubTile) : Nat := min 256 (nCols j - 256 * t.g)

/-- The admitted descriptor and the job of a sub-tile in region `r`. -/
def subDesc (s : State) (t : SubTile) : Option Adm := findAdm (getCtx s t.ctx) t.ring
def subJob (s : State) (t : SubTile) (r : Nat) : Option (Adm × Job) := (subDesc s t).map (fun d => (d, jobOf d r))

/-! ### Loading a row -/

/-- A check sum of a row (R55): the column sum of one member at one selectable position, and whether it saturated. -/
def checkSum (j : Job) (scale : Nat → Num) (cells : List BCell) (pos m : Nat) : W32 × Bool :=
  let md := jobMode j
  let leaves := ((List.range cells.length).zip cells).map (fun x =>
    if slottedMode md && x.2.info.toNat % 4 != pos then numZero
    else numMul (cellVal (cellFmt md) (wEnt j).bscale x.2 m) (scale x.1))
  let sum := if jobInt j then leaves.foldl numAdd numZero else treeSum treeAdd none (fun _ => numPow2 0) 8 0 leaves
  let (v, sat) := fp32Sat sum
  (fp32Code v, sat)

/-- Block-scale code of logical `k` and column `n`, where the weight has scales (R72). -/
def wScaleCode (ms : Mems) (j : Job) (h k n : Nat) : Byte :=
  BitVec.ofNat 8 (scaleCode ms (jent j (wEnt j).bscaleIndex) j.r h (k / 32) n (wCols j))

/-- The factor that the block-scale store holds for a code (R74); a weight without scales has 1. -/
def storeScale (bs : List Byte) (i : Nat) : Option Int :=
  match bs with
  | [] => some 0
  | _ => scaleExp (bs.getD i 127).toNat

/-- The block-scale codes of the live columns of a row's block (R72). -/
def rowScales (ms : Mems) (j : Job) (h n0 cols row : Nat) : List Byte :=
  if !(wEnt j).bscale then []
  else
    match rowFirstK j row with
    | none => []
    | some k => (List.range cols).map (fun i => wScaleCode ms j h k (n0 + i))

/-- Physical row `row` of a load: the cells of the live columns from `n0` upward, the check cell and the row of the
check table (R44, R55, R119 to R122, R150). -/
def loadRow (ms : Mems) (j : Job) (h n0 cols row piece : Nat) : BankRow :=
  let md := jobMode j
  let cells := (List.range cols).map (fun i => (cellAt ms j h row (n0 + i) piece).1)
  let sc := rowScales ms j h n0 cols row
  let scale (i : Nat) : Num := match storeScale sc i with
    | none => .nan
    | some e => numPow2 e
  let sums := (List.range (unitsPerRow md)).flatMap (fun pos => (List.range (muOf md)).map (checkSum j scale cells pos))
  { cells := cells, checks := sums.map (·.1), sat := sums.any (·.2) }

def emptyRow : BankRow := { cells := [], checks := [], sat := false }
def zeroCell : BCell := { value := 0, info := 0 }

/-- Set item `i` of a list, with `d` in the items before it that the list lacks. -/
def setPad {α : Type} (d : α) (l : List α) (i : Nat) (v : α) : List α :=
  if i < l.length then l.set i v else l ++ List.replicate (i - l.length) d ++ [v]

/-- Physical rows of one scale block: the level of R73. -/
def blockRows (j : Job) : Nat := 2 ^ scaleLevel (jobMode j).act (jobMode j).w (jobMode j).slots

/-- Write a row, and its block's scales, into a bank set; the store holds them by the block's first row. -/
def putRow (b : Bank) (j : Job) (at_ : Nat) (row : BankRow) (sc : List Byte) : Bank :=
  { b with rows := setPad emptyRow b.rows at_ row,
           scales := if jobScaled j && at_ % blockRows j == 0 then setPad [] b.scales at_ sc else b.scales }

/-- Rows of a load: the whole array, or a band (R44, R50). -/
def loadRows (t : SubTile) : Nat := t.bandRows

/-- Row `i` of the load of pass `n` of a sub-tile goes into the shadow banks, at its band's place (R51). -/
def shadowPut (ms : Mems) (j : Job) (t : SubTile) (n i : Nat) (b : Bank) : Bank :=
  let (p, piece) := passOf j n
  let at_ := 64 * t.band + i
  if i < liveRows (tileRows j) p then
    putRow b j at_ (loadRow ms j t.h (subFirst j t) (subCols j t) (256 * p + i) piece)
      (rowScales ms j t.h (subFirst j t) (subCols j t) (256 * p + i))
  else { b with rows := setPad emptyRow b.rows at_ emptyRow }

/-! ### A result row -/

/-- The pass sum of live column `i` from an active bank whose rows begin at `off` (R40, R67, R73). -/
def bankTree (b : Bank) (off : Nat) (j : Job) (act : Nat → Num) (sc : Nat → Option Int) (i p piece : Nat) : Num :=
  let md := jobMode j
  let ah := if md.w == .fp32 then (pieceOf piece).1 else true
  let leaves := (List.range (liveRows (tileRows j) p)).map (fun r =>
    cellTerm (cellFmt md) (slottedMode md) (wEnt j).bscale ((b.rows.getD (off + r) emptyRow).cells.getD i zeroCell) (wordWith j act (256 * p + r) ah))
  if jobInt j then leaves.foldl numAdd numZero
  else
    let lvl := if jobScaled j then some (scaleLevel md.act md.w md.slots) else none
    let factor (q : Nat) : Num :=
      match rowFirstK j (256 * p + q * 2 ^ (lvl.getD 0)) with
      | none => numPow2 0
      | some k => scaleFactor (sc k) (storeScale (b.scales.getD (off + q * blockRows j) []) i)
    treeSum treeAdd lvl factor 8 0 leaves

/-- A product or sum of the check column, with saturation remembered (R56). -/
def ckMul (x y : Num × Bool) : Num × Bool := let (v, s) := fp32Mul x.1 y.1; (v, x.2 || y.2 || s)

/-- Some live cell of the row selects position `pos` (R56). -/
def selects (slotted : Bool) (row : BankRow) (pos : Nat) : Bool := !slotted || row.cells.any (fun c => c.info.toNat % 4 == pos)

/-- The depth of a tree over `n` leaves: 1, 2, 4 or 8 (R56). -/
def sumDepth (n : Nat) : Nat := if n ≤ 1 then 0 else if n ≤ 2 then 1 else if n ≤ 4 then 2 else 3

/-- The contribution of physical row `row` of the pass to y_check (R56). -/
def checkRow (b : Bank) (off : Nat) (j : Job) (act : Nat → Num) (sc : Nat → Option Int) (p r : Nat) (hiPiece : Bool) : Num × Bool :=
  let md := jobMode j
  let br := b.rows.getD (off + r) emptyRow
  let word := wordWith j act (256 * p + r) hiPiece
  let mu := muOf md
  let prods := (List.range word.length).flatMap (fun pos => (List.range mu).map (fun m =>
    if selects (slottedMode md) br pos then
      ckMul ((word.getD pos []).getD m numZero, false) (fp32Of (br.checks.getD (pos * mu + m) 0), false)
    else (numZero, false)))
  let sat := prods.any (·.2)
  let (v, s1) := fp32Tree (sumDepth prods.length) (prods.map (·.1))
  let (w, s2) := match rowFirstK j (256 * p + r) with
    | none => (v, false)
    | some k => match sc k with
      | none => (Num.nan, false)
      | some e => fp32Sat (numMul v (numPow2 e))
  (w, sat || s1 || s2)

/-- y_check of an activation row (R56), and whether it saturated. -/
def checkOf (b : Bank) (off : Nat) (j : Job) (act : Nat → Num) (sc : Nat → Option Int) (p piece : Nat) : Num × Bool :=
  let ah := if (jobMode j).w == .fp32 then (pieceOf piece).1 else true
  let rows := (List.range (liveRows (tileRows j) p)).map (fun r => checkRow b off j act sc p r ah)
  let (v, s) := fp32Tree 8 (rows.map (·.1))
  (v, s || rows.any (·.2))

/-- The exponent of the smallest normal of a format (R56). -/
def fmtNormal (f : Fmt) : Int :=
  match f with
  | .bf16 => -126
  | .fp32 => -126
  | .fp16 => -14
  | .e4m3 => -6
  | .e5m2 => -14
  | .e3m2 => -2
  | _ => 0

/-- The least sum of block-scale exponents in a row's pass (R56). -/
def leastScale (b : Bank) (off : Nat) (j : Job) (sc : Nat → Option Int) (cols p : Nat) : Int :=
  if !jobScaled j then 0
  else
    let rows := blockRows j
    let all := (List.range (ceilDiv (liveRows (tileRows j) p) rows)).flatMap (fun q =>
      match rowFirstK j (256 * p + q * rows) with
      | none => []
      | some k => (List.range cols).filterMap (fun i =>
        match sc k, storeScale (b.scales.getD (off + q * rows) []) i with
        | some a, some w => some (a + w)
        | _, _ => none))
    match all with
    | [] => 0
    | x :: xs => xs.foldl min x

/-- The exponent of F (R56). -/
def allowExp (b : Bank) (off : Nat) (j : Job) (sc : Nat → Option Int) (cols p : Nat) : Int :=
  let md := jobMode j
  let ea := if md.w == .fp32 then (-126 : Int) else fmtNormal md.act
  max (ea + fmtNormal (cellFmt md) + leastScale b off j sc cols p) (-149)

/-- The code of a pass sum: FP32, or INT32 (R60). -/
def sumCode (isInt : Bool) (y : Num) : W32 := if isInt then BitVec.ofInt 32 (intOf y) else fp32Code y
def sumNum (isInt : Bool) (w : W32) : Num := if isInt then numOfInt w.toInt else fp32Of w

/-- Bits that an upset flips in the sum of a column; column 256 is the check column (log 7). -/
def flips (upset : List (Nat × W32)) (i : Nat) : W32 := upset.foldl (fun m u => if u.1 == i then m ^^^ u.2 else m) 0

/-- The result row of the activations `act` with block scales `sc` in pass `n` of a sub-tile, from a bank (R40, R42, R56, R75). -/
def resultWith (b : Bank) (j : Job) (t : SubTile) (n row cycle : Nat) (act : Nat → Num) (sc : Nat → Option Int)
    (upset : List (Nat × W32)) : RowRes :=
  let (p, piece) := passOf j n
  let off := 64 * t.band
  let ys := (List.range (subCols j t)).map (fun i => rootOf (jobInt j) (bankTree b off j act sc i p piece))
  let (yc, csat) := checkOf b off j act sc p piece
  let fl := ys.foldl (fun f y => f ||| y.2) (0 : TFlags)
  { row := row, cycle := cycle, sums := ((List.range ys.length).zip ys).map (fun x => sumCode (jobInt j) x.2.1 ^^^ flips upset x.1),
    ycheck := fp32Code yc ^^^ flips upset 256, isInt := jobInt j, allow := allowExp b off j sc (subCols j t) p,
    skip := csat || fl &&& (flSat ||| flNanSeen) != 0 ||
      (List.range (liveRows (tileRows j) p)).any (fun r => (b.rows.getD (off + r) emptyRow).sat),
    accepted := false, flags := fl, cols := ys.map (·.2) }

/-- The result row of activation row `row` of a sub-tile's chunk. -/
def resultRow (ms : Mems) (b : Bank) (j : Job) (t : SubTile) (n row cycle : Nat) (upset : List (Nat × W32)) : RowRes :=
  resultWith b j t n row cycle (actVal ms j t.h (dMorg j.d + t.m0 + row)) (actScale ms j t.h (dMorg j.d + t.m0 + row)) upset

/-- What the check adder finds for a result row (R56, R57): nothing to compare, or whether the row is accepted. -/
def checkVerdict (x : RowRes) : Option Bool :=
  let ys := x.sums.map (fun w => if x.isInt then (fp32Sat (numOfInt w.toInt)).1 else fp32Of w)
  let yc := fp32Of x.ycheck
  let (sum, s1) := fp32Tree 8 ys
  let (mag, s2) := fp32Tree 8 (ys.map numAbs)
  let diff := numSub sum yc
  let bad (v : Num) : Bool := !numIsFinite v
  if x.skip || ys.any bad || bad yc || s1 || s2 || bad diff || (fp32Sat diff).2 then none
  else some (numLe (numAbs diff) (numAdd (numScale mag (-18)) (numPow2 x.allow)))

/-! ### Faults of a stationary bank (R18, R54) -/

/-- Fence the band of a sub-tile: the sub-tiles of that band, the waiting ones too, leave the array, the other bands continue (R18, R54).
They keep the array's number, and are replayed on another one where there is one. -/
def fenceBand (s : State) (a : Nat) (t : SubTile) : State :=
  let x := getArr s a
  let mine (u : SubTile) : Bool := u.bandRows != 256 && subBands u &&& subBands t != 0
  let s0 := leaveArray s a mine
  let y := getArr s0 a
  let s1 := setArr s0 a (if y.bound.all (fun u => u.bandRows == 256) then y else { y with bandFenced := y.bandFenced ||| subBands t })
  let r := getRgn s1 (a / 4)
  logFault (setRgn s1 (a / 4) { r with replayQ := r.replayQ ++ (x.bound.filter mine).map leaveFlags })
    { flogBase s clsArray 2 0x20 (4 * (a % 4) + t.band) (a / 4) with detail := BitVec.ofNat 32 a }

/-- What an RS check of a stationary bank finds in the rows of a sub-tile's block: a correction is counted, an
uncorrectable error fences the band that owns the rows, or the array (R18). -/
def bankFinding (s : State) (a : Nat) (t : SubTile) (rs : RsResult) : State :=
  match rs with
  | .clean => s
  | .corrected => logFault (addArrCnt s a 3 1) (flogBase s clsCorrectable 1 0x04 a (a / 4))
  | .uncorrectable =>
    if t.bandRows != 256 then
      fenceBand (logFault s { flogBase s clsArray 2 0x05 (4 * (a % 4) + t.band) (a / 4) with detail := BitVec.ofNat 32 a }) a t
    else fenceUnit (logFault s (flogBase s clsArray 1 0x05 a (a / 4))) .array a

end Sys2Proof.Machine
end

