-- ==== Sys2Proof/Machine/Feed.lean ====
section
/-!
DEFINITION. What the units of a region ask of its banks, memory ports and RNG unit (R23, R26, R27, R210): operand rows, stored
weight rows, preloads as jobs (R265, R267), and where partials lie (R115, R116).
-/

namespace Sys2Proof.Machine

/-! ### Requests to banks, RNG lanes and memory ports -/

/-- A request of a class of R23 for the bank of an operand's line, where it lies in scratchpad. -/
def askSpad (s : State) (sp : Space) (cls a : Nat) (act : BankAct) (o : Owner) : State :=
  match sp with
  | .mem => s
  | .spad r => askBank s r cls a act o

/-- The array and band of a sub-tile that makes an access (R308). -/
def placeOf (t : SubTile) : Option (Nat × Nat) := t.array.map (fun a => (a, t.band))

/-! ### Stored weight rows (R122, R128, R130, R162, R195) -/

/-- The lines that hold the elements of output column `n` of a dense weight in transposed use, for the k of a pass. -/
def columnLines (j : Job) (h p n : Nat) : List (Nat × Nat) :=
  let w := wEnt j
  ((passRange j p).map (fun k =>
    (w.base + headOff w h + fwdK j k n * w.rowStride + fwdN j k * fmtBits (tentFmt w) / 8) / 64 * 64)).eraseDups.map (fun a => (a, 64))

/-- The T-map row of a transposed slot row and the forward slot rows that it names (R128, R130). -/
def namedRows (ms : Mems) (j : Job) (t : SubTile) (row : Nat) : List (Nat × Nat) :=
  let w := wEnt j
  let f := tentFmt w
  let (kc0, rho) := match tapOf j with
    | none => (fwdK j 0 (subFirst j t), firstRow j + row)
    | some c =>
      let per := max 1 (ceilDiv c (4 * muOf (jobMode j)) * (jobMode j).slots)
      (fwdK j ((firstRow j + row) / per * c) (subFirst j t), (firstRow j + row) % per)
  let named := (List.range (subCols j t)).flatMap (fun i =>
    let kc := kc0 + i
    let b := tmapByte ms w j.r t.h kc rho
    let n := (4 * (rho / layoutSlots w.tmapLayout) + (if layoutSlots w.tmapLayout == 4 then rho % 4 else b % 4)) * unitSize f
    let at_ (m slot : Nat) : Nat := slotRowAddr w t.h (m / 256) (kc / (4 * unitSize f) * layoutSlots w.layout + slot)
    (if b.testBit 2 then [at_ n (bits b 5 4)] else []) ++ (if fmtPaired f && b.testBit 3 then [at_ (n + 1) (bits b 7 6)] else []))
  (w.spillBase + headOff w t.h + 64 * w.tmapOff + (kc0 / 256 * tmapRows w + rho) * 256, 256) ::
    named.eraseDups.map (fun a => (a, slotRowBytes f))

/-- The stored bytes that physical row `i` of a block is made from: a dense tensor's row, a slot row, or what a transposed use
reads. -/
def storedRows (ms : Mems) (j : Job) (t : SubTile) (n i : Nat) : List (Nat × Nat) :=
  let w := wEnt j
  let (p, _) := passOf j n
  if transposed j then
    (if w.layout != 0 then namedRows ms j t (256 * p + i) else if i < subCols j t then columnLines j t.h p (subFirst j t + i) else [])
  else if w.layout == 0 then
    (match rowFirstK j (256 * p + i) with
     | none => []
     | some k => [(w.base + headOff w t.h + k * w.rowStride + subFirst j t * fmtBits (tentFmt w) / 8, packedBytes (tentFmt w) (subCols j t))])
  else [(slotRowAddr w t.h (subFirst j t / 256) (firstRow j + 256 * p + i), slotRowBytes (tentFmt w))]

/-- The scale rows of the block whose first row is `i` (R72). -/
def scaleRows (j : Job) (t : SubTile) (n i : Nat) : List (Nat × Nat) :=
  let e := jent j (wEnt j).bscaleIndex
  if !(wEnt j).bscale || i % blockRows j != 0 then []
  else
    match rowFirstK j (256 * (passOf j n).1 + i) with
    | none => []
    | some k => [(e.base + e.headStride * t.h + k / 32 * roundUp (wCols j) 64 + subFirst j t, subCols j t)]

/-- Directory words and entries of the lists of a pass (R124, R126, R129). -/
def listRows (ms : Mems) (j : Job) (t : SubTile) (p : Nat) : List (Nat × Nat) :=
  let w := wEnt j
  if w.layout == 0 then []
  else if transposed j then
    let x := spillSpan j w t.h
    let y := toverSpan j w t.h
    (x.a, x.n) :: (if w.toverCount == 0 then [] else [(y.a, y.n)])
  else
    let base := w.spillBase + headOff w t.h
    let passes := ceilDiv (slotRows w) 256
    let lo := (passRange j p).foldl min (2 ^ 32)
    let i := (nFirst j / 256 + t.g) * passes + lo / dirPassK (tentFmt w) w.layout
    let word (k : Nat) : Nat := rdLe ms (tentSpace w j.r) (base + 4 * k) 4
    (base + 4 * i, 8) ::
      (if word i < word (i + 1) then [(base + dirBytes (groups w.dim1) passes + 8 * word i, 8 * (word (i + 1) - word i))] else [])

/-- Where a region's copy of a weight lies in its context's residency area: copies lie end to end (log 45). -/
def copyAt (s : State) (r c tensor : Nat) (gen : W32) : Nat :=
  let mine (y : ResCopy) : Bool := y.ctx == c && y.tensor == tensor && y.gen == gen
  ((getRgn s r).resid.takeWhile (fun y => !mine y)).foldl (fun n y => if y.ctx == c then n + y.bytes else n) (ceResBase (getCtx s c).ent)

/-- The lines that a range of bytes touches. -/
def linesOf (x : Nat × Nat) : List Nat := (List.range (ceilDiv (x.1 % 64 + x.2) 64)).map (fun i => x.1 / 64 * 64 + 64 * i)

/-- The lines of a region's copy that hold ranges of the weight: its byte at `a` lies at `a` modulo the copy's bytes (log 45). -/
def copyLines (s : State) (r : Nat) (j : Job) (t : SubTile) (l : List (Nat × Nat)) : List Nat :=
  match (getRgn s r).resid.find? (fun y => y.ctx == t.ctx && y.tensor == wIndex j && y.gen == (wEnt j).gen) with
  | none => []
  | some y => l.flatMap (fun x => (linesOf x).map (fun a => copyAt s r t.ctx (wIndex j) (wEnt j).gen + a % max 64 (y.bytes / 64 * 64)))

/-- The weight lies in memory, and no copy of it is resident. -/
def portRow (s : State) (r : Nat) (j : Job) (t : SubTile) : Bool :=
  tentSpace (wEnt j) j.r == .mem && !hasCopy s r t.ctx (wIndex j) (wEnt j).gen

/-- The space of the weight's block scales. -/
def scaleSpace (j : Job) : Space := tentSpace (jent j (wEnt j).bscaleIndex) j.r

/-- The ranges of memory that row `i` of a load is read from through the ports (R162, R195). -/
def rowPort (s : State) (r : Nat) (j : Job) (t : SubTile) (n i : Nat) : List (Nat × Nat) :=
  (if portRow s r j t then storedRows s.mems j t n i else []) ++
  (if scaleSpace j == .mem && (portRow s r j t || tentSpace (wEnt j) j.r != .mem) then scaleRows j t n i else [])

/-- The lines of scratchpad, with their regions, that row `i` of a load is read from: where the weight and its scales lie, or of the
copy. -/
def rowSpad (s : State) (r : Nat) (j : Job) (t : SubTile) (n i : Nat) : List (Nat × Nat) :=
  (match tentSpace (wEnt j) j.r with
   | .spad q => ((storedRows s.mems j t n i).flatMap linesOf).map (fun a => (q, a))
   | .mem => (copyLines s r j t (storedRows s.mems j t n i ++ (if scaleSpace j == .mem then scaleRows j t n i else []))).map (fun a => (r, a))) ++
  (match scaleSpace j with
   | .spad q => ((scaleRows j t n i).flatMap linesOf).map (fun a => (q, a))
   | .mem => [])

/-- A load reads row `i` for owner `o`: from scratchpad in a class of R23, through the ports in one of R27. -/
def readRow (s : State) (r bank port : Nat) (o : Owner) (j : Job) (t : SubTile) (n i : Nat) : State :=
  let s1 := (rowSpad s r j t n i).foldl (fun u x => askBank u x.1 bank x.2 .read o) s
  (rowPort s r j t n i).foldl (fun u x => queueReads u o (ceAsid (getCtx s t.ctx).ent) r port x.1 x.2 (placeOf t)) s1

/-- The lines of scratchpad that a pass's lists are read from. -/
def listSpad (s : State) (r : Nat) (j : Job) (t : SubTile) (p : Nat) : List (Nat × Nat) :=
  match tentSpace (wEnt j) j.r with
  | .spad q => ((listRows s.mems j t p).flatMap linesOf).map (fun a => (q, a))
  | .mem => (copyLines s r j t (listRows s.mems j t p)).map (fun a => (r, a))

/-- The Side Path reads a pass's lists (R126, R195): from scratchpad in the feed class, or from memory in class 0 of R27 (log 45). -/
def fetchLists (s : State) (r : Nat) (j : Job) (t : SubTile) (p : Nat) : State :=
  let s1 := (listSpad s r j t p).foldl (fun u x => askBank u x.1 1 x.2 .read (.desc t.ctx t.ring)) s
  if !portRow s r j t then s1
  else (listRows s.mems j t p).foldl (fun u x =>
    queueReads u (.desc t.ctx t.ring) (ceAsid (getCtx s t.ctx).ent) r 0 x.1 x.2 (placeOf t)) s1

/-- A read of an owner that touches a range waits on a port of the region, queued, sent or not yet delivered. -/
def readPending (s : State) (r : Nat) (o : Owner) (x : Nat × Nat) : Bool :=
  let mine (p : PortReq) : Bool := p.op == 0 && p.owner == o && decide (x.1 < p.addr + p.len ∧ p.addr < x.1 + x.2)
  [4 * r, 4 * r + 1, 4 * r + 2, 4 * r + 3].any (fun q =>
    (getMp s q).rdQ.any mine || (getMp s q).rdOut.any (fun e => mine e.2) || (getMp s q).held.any mine) ||
  s.xing.any (fun e => e.dst == 20 + r && mine e.read)

/-- A read of an owner of a line of scratchpad has not been granted. -/
def linePending (s : State) (o : Owner) (x : Nat × Nat) : Bool :=
  (getRgn s x.1).bankReqs.any (fun q => q.act == .read && q.owner == o && q.addr == x.2)

/-- The reads by which a region's copy of a weight is filled touch some of these ranges. -/
def copyPending (s : State) (r : Nat) (j : Job) (t : SubTile) (l : List (Nat × Nat)) : Bool :=
  match (getRgn s r).resid.find? (fun y => y.ctx == t.ctx && y.tensor == wIndex j && y.gen == (wEnt j).gen) with
  | none => false
  | some y => tentSpace (wEnt j) j.r == .mem &&
      l.any (fun x => readPending s r (.desc t.ctx y.ring) x || readPending s r (.gambit t.ctx (wIndex j) (wEnt j).gen none) x)

/-- Row `i` of a load that reads for owner `o` has arrived, and what the copy holds of it too (R29, R145, R162). -/
def rowHere (s : State) (r : Nat) (o : Owner) (j : Job) (t : SubTile) (n i : Nat) : Bool :=
  !(rowPort s r j t n i).any (readPending s r o) && !(rowSpad s r j t n i).any (linePending s o) &&
    !copyPending s r j t (storedRows s.mems j t n i ++ scaleRows j t n i)

/-- A pass's lists have arrived (R126). -/
def listsHere (s : State) (r : Nat) (j : Job) (t : SubTile) (p : Nat) : Bool :=
  !(listRows s.mems j t p).any (readPending s r (.desc t.ctx t.ring)) && !(listSpad s r j t p).any (linePending s (.desc t.ctx t.ring)) &&
    !copyPending s r j t (listRows s.mems j t p)

/-! ### Operand rows (R26, R27, R41) -/

/-- The 64 B line of the activation element of tensor row `m` and logical `k` (R41, R152, R183). -/
def elemLine (j : Job) (h m k : Nat) : Option Nat :=
  let e := actEnt j
  let at_ (row el : Nat) : Nat := (rowBase e h row + el * fmtBits (tentFmt e) / 8) / 64 * 64
  if dOpcode j.d == 5 then some (at_ k m)
  else if dOpcode j.d == 6 then (convAt j m k).map (fun x => at_ x.1 x.2)
  else some (at_ m k)

/-- The line that feeds physical row `r` of pass `p` for activation row `row` of a sub-tile (R41). -/
def rowLine (j : Job) (t : SubTile) (p row r : Nat) : Option Nat :=
  (rowFirstK j (256 * p + r)).bind (elemLine j t.h (dMorg j.d + t.m0 + row))

/-- The lines that a pass reads for one activation row. -/
def rowLines (j : Job) (t : SubTile) (p row : Nat) : List Nat :=
  ((List.range (liveRows (tileRows j) p)).filterMap (rowLine j t p row)).eraseDups

/-- A feed-class read of an operand: a request for the bank of each line, or through a port in a class of R27. -/
def readAt (s : State) (r cls : Nat) (sp : Space) (a n : Nat) (t : SubTile) : State :=
  match sp with
  | .spad q => (linesOf (a, n)).foldl (fun u x => askBank u q 1 x .read (.desc t.ctx t.ring)) s
  | .mem => queueReads s (.desc t.ctx t.ring) (ceAsid (getCtx s t.ctx).ent) r cls a n (placeOf t)

/-! ### Input windows (R186) -/

/-- The windows of a sub-tile's chunk, one for each image it touches: the input rows that its output rows read, padding left out
(R186). -/
def windowsOf (j : Job) (t : SubTile) : List Window :=
  let per := cvHout j * cvWout j
  let a := dMorg j.d + t.m0
  if per == 0 || cvWout j == 0 || t.rows == 0 then []
  else (List.range ((a + t.rows - 1) / per + 1 - a / per)).map (fun i =>
    let image := a / per + i
    let y0 := (max a (image * per) - image * per) / cvWout j
    let rows := ceilDiv (min (a + t.rows) ((image + 1) * per) - image * per) (cvWout j) - y0
    let dil : Int := cvInDil j
    let first : Int := (y0 * pGeom j.p 0 : Nat) - (pGeom j.p 4 : Int)
    let last : Int := first + ((rows - 1) * pGeom j.p 0 + (pFiltR j.p - 1) * pGeom j.p 2 : Nat)
    let lo := (max 0 ((first + dil - 1) / dil)).toNat
    let hi := min (pHin j.p) (max 0 (last / dil + 1)).toNat
    { ctx := t.ctx, ring := t.ring, chunk := t.c, head := t.h, image := image, lo := lo, hi := hi,
      bytes := (hi - lo) * packedBytes (tentFmt (actEnt j)) (pWin j.p * cvC j) })

/-- Two windows of the same chunk, head and image. -/
def sameWindow (v w : Window) : Bool := v.ctx == w.ctx && v.ring == w.ring && v.chunk == w.chunk && v.head == w.head && v.image == w.image

/-- The stored rows of a window from input row `lo` on. -/
def windowRows (j : Job) (w : Window) (lo : Nat) : List (Nat × Nat) :=
  let e := actEnt j
  (List.range (w.hi - lo)).map (fun i => (rowBase e w.head (w.image * pHin j.p + lo + i), packedBytes (tentFmt e) (pWin j.p * cvC j)))

/-- Where a window lies in its region's scratchpad: the windows of a context lie end to end behind its copies (log 45). -/
def windowBase (s : State) (r : Nat) (w : Window) : Nat :=
  let x := getRgn s r
  ceResBase (getCtx s w.ctx).ent + resUsed x.resid w.ctx +
    ((x.windows.takeWhile (· != w)).foldl (fun n v => if v.ctx == w.ctx then n + v.bytes else n) 0)

/-- Where input rows `lo` to `hi - 1` of a window lie, as one range. -/
def windowPart (s : State) (r : Nat) (w : Window) (lo hi : Nat) : Nat × Nat :=
  let per := w.bytes / max 1 (w.hi - w.lo)
  (windowBase s r w + (lo - w.lo) * per, (hi - lo) * per)

/-- The line of a CONV window from which a line of the operand is read (R184, R186). -/
def windowLine (s : State) (r : Nat) (j : Job) (t : SubTile) (a : Nat) : Nat :=
  ((windowsOf j t).findSome? (fun w =>
    let rows := windowRows j w w.lo
    (((List.range rows.length).zip rows).find? (fun x => decide (x.2.1 < a + 64 ∧ a < x.2.1 + x.2.2))).map (fun x =>
      (windowBase s r w + x.1 * x.2.2 + (a - x.2.1)) / 64 * 64))).getD (ceResBase (getCtx s t.ctx).ent)

/-! ### Preloads as jobs (R265, R267) -/

/-- A tensor-table entry of a context as it stands in memory. -/
def tableEntry (s : State) (c i : Nat) : List W64 := rdWords s.mems .mem (ceTtBase (getCtx s c).ent + 64 * i) 8

/-- The block a key names, as a job of one pass and a sub-tile of its one group, from entries that `look` gives: the
weight's, and the activation format of the key's pass mode. -/
def blockWith (look : Nat → List W64) (r : Nat) (k : BlockKey) : Job × SubTile × Nat :=
  let w := look k.tensor
  let t := tentOf w
  let tr := k.mode / 4096 == 1
  let act : List W64 := [0, BitVec.ofNat 64 (k.mode % 16 * 2 ^ 32 + 2 ^ 43), 0, 0, 0, 0, 0, 0]
  let ents := tset (tset (tset (tset [] t.bscaleIndex (look t.bscaleIndex)) t.qparam (look t.qparam)) k.tensor w) 0 act
  let cols := if tr then t.dim0 else t.dim1
  let ks := if tr then t.dim1 else t.dim0
  let d0 : List W64 := [BitVec.ofNat 64 (if tr then 4 else 1), BitVec.ofNat 64 (k.tensor * 2 ^ 16), 0, 0, 0, 0, 0, 0]
  let j0 : Job := { d := d0, p := [], ents := ents, r := r, draw := { key := 0, stream := 0, epoch := 0 } }
  let lk := passLogK (jobMode j0)
  let pieces := piecesOf (jobMode j0)
  let korg := k.pass / pieces * lk
  let d1 := setFld (setFld d0 0x18 27 17 (min 256 (cols - 256 * k.group))) 0x18 48 28 (min lk (ks - korg))
  let d2 := setFld (setFld (setFld d1 0x20 47 32 k.group) 0x20 63 48 (korg / 256)) 0x18 16 0 1
  ({ j0 with d := d2 },
   { ctx := k.ctx, ring := 0, variant := 0, shapeV := 0, h := k.head, c := 0, g := 0, m0 := 0, rows := 1, passes := pieces, cost := 0,
     prio := 0, side := false, array := none, home := none, band := 0, bandRows := 256, pos := 0, slot := none, jent := none, passesDone := 0, rowMark := 0,
     zPasses := 0, misses := 0, flags := 0, moved := false, entered := 0, order := 0, started := false, reread := false, hashRow := 0,
     fuse := Fuse.init },
   k.pass % pieces)

/-- The block of a key with the entries as they stand in its context's table (R267). -/
def blockJob (s : State) (r : Nat) (k : BlockKey) : Job × SubTile × Nat := blockWith (tableEntry s k.ctx) r k

/-- The bytes of memory that a key's block is stored in. -/
def blockReads (s : State) (r : Nat) (k : BlockKey) : List (Nat × Nat) :=
  let (j, t, n) := blockJob s r k
  (List.range (liveRows (tileRows j) (passOf j n).1)).flatMap (fun i =>
    (if (wEnt j).space == 0 then storedRows s.mems j t n i else []) ++ (if scaleSpace j == .mem then scaleRows j t n i else []))

/-- A preload may go on (R267): its entry reads without error, is valid and of the key's generation, and no read of the
block meets a translation error or poison. -/
def preloadOk (s : State) (r : Nat) (k : BlockKey) : Bool :=
  let w := tentOf (tableEntry s k.ctx k.tensor)
  memAccess s k.ctx (ceTtBase (getCtx s k.ctx).ent + 64 * k.tensor) 64 == .ok && w.valid && w.gen == k.gen &&
  (blockReads s r k).all (fun x => memAccess s k.ctx x.1 x.2 == .ok)

/-! ### Partials of a sub-tile (R93, R98, R101, R115) -/

/-- Where a sub-tile's slot begins. -/
def slotBase (s : State) (c : Nat) (sl : SlotRef) : Space × Nat :=
  let e := (getCtx s c).ent
  let size := 64 + 1536 * ceAccRows e
  if sl.backed then (.mem, ceBackBase e + size * sl.num) else (.spad sl.region, ceAccPool e + size * sl.num)

/-- The partial row of row `i` of a sub-tile's chunk: in its acc_out buffer, or in its slot, where FUSED2 has one row per W2
group and row (R176). DESIGN CHOICE (log 42): a slot's 64 B header is never written, for the spec gives its size alone. -/
def partialAt (s : State) (j : Job) (t : SubTile) (i : Nat) : Space × Nat :=
  if dAccOut j.d != 0 then
    let e := jent j (dAccOut j.d)
    (tentSpace e j.r, bufRow e (partialIdx j t.h t.g (t.m0 + i)))
  else
    match t.slot with
    | none => (.mem, 0)
    | some sl => ((slotBase s t.ctx sl).1, (slotBase s t.ctx sl).2 + 64 + 1536 * (if dOpcode j.d == 2 then t.g * t.rows + i else i))

/-- The list entries of pass `n` of a sub-tile (R126). -/
def subZ (ms : Mems) (j : Job) (t : SubTile) (n : Nat) : List ZEntry :=
  if (passOf j n).2 == 0 then tileZ ms j t.h t.g (passOf j n).1 else []

/-- P after `n` passes, and whether one of them was a spill pass (R101, R105). -/
def passesP (ms : Mems) (j : Job) (n : Nat) : Nat × Bool :=
  (List.range n).foldl (fun st _ =>
    (nextP j (st.1 + 1), st.2 || dDet j.d || (jobWide j != .none && spillPass (dSpillInt j.d) true (st.1 + 1)))) (startP ms j, false)

end Sys2Proof.Machine
end

