-- ==== Sys2Proof/Machine/Bind.lean ====
section
/-!
DEFINITION. The region scheduler: binding by class, Tempo and deficit-weighted round robin (R255 to R258, R262), band packing
(R50 to R53, R153), Gambit's preload at a binding (R264, R265), and accumulation slots (R115 to R117).
-/

namespace Sys2Proof.Machine

/-! ### Array positions and bands -/

/-- Positions that bound sub-tiles take: those in the bands of one array take one (R19, R255). -/
def packCount : List SubTile → Nat
  | [] => 0
  | t :: ts => (if ts.any (fun u => t.bandRows != 256 && u.bandRows != 256 && u.pos == t.pos) then 0 else 1) + packCount ts

/-- The band of a sub-tile in its run: the lowest head in band 0 (R153). -/
def bandOf (t : SubTile) : Nat := if t.bandRows == 256 then 0 else t.h % (256 / t.bandRows) * (t.bandRows / 64)

/-- A FUSED2 sub-tile. -/
def isFused (s : State) (t : SubTile) : Bool := (subDesc s t).any (fun d => dOpcode d.desc == 2)

/-- Positions taken on an array: its own sub-tiles, and FUSED2 sub-tiles whose follower it is (R173). -/
def positions (s : State) (a : Nat) : Nat :=
  packCount (getArr s a).bound + (followed s a).length

/-- An array that can take a sub-tile (R255): LIVE, with a free position, and none of the bands it needs fenced. -/
def canTake (s : State) (t : SubTile) (a : Nat) : Bool :=
  isLive s .array a && decide (positions s a < s.regs.qdepth.toNat) && (getArr s a).bandFenced &&& bandMask (bandOf t) t.bandRows == 0

/-- Arrays of region `r` in the sub-tile's affinity mask. -/
def maskArrays (s : State) (r : Nat) (t : SubTile) : List Nat :=
  (liveArrays s (ceAffinity (getCtx s t.ctx).ent)).filter (fun a => a / 4 == r)

/-- The array where the sub-tile's run of heads is bound with its band still free. -/
def packArray (s : State) (r : Nat) (t : SubTile) : Option Nat :=
  (maskArrays s r t).find? (fun a => (getArr s a).bound.any (samePack t) && !(getArr s a).bound.any (fun u => samePack t u && u.h == t.h) &&
    (getArr s a).bandFenced &&& bandMask (bandOf t) t.bandRows == 0)

/-- Arrays the sub-tile may bind to: FUSED2 takes an even array whose pair can take it, and runs solo only where no
pair of the mask is live (R173). -/
def bindArrays (s : State) (r : Nat) (t : SubTile) : List Nat :=
  match packArray s r t with
  | some a => [a]
  | none =>
    let can := (maskArrays s r t).filter (canTake s t)
    if !isFused s t then can
    else
      let mask := ceAffinity (getCtx s t.ctx).ent
      if anyPair s mask then can.filter (fun a => a % 2 == 0 && pairLive s mask a && canTake s t (a + 1))
      else can

/-! ### Bands of different tiles (R50 to R53) -/

/-- Two contexts may share an array's bands (R52). -/
def coResident (s : State) (c d : Nat) : Bool :=
  let ok (n : Nat) : Bool := ceCoResident (getCtx s n).ent && !ceGambitOff (getCtx s n).ent
  c == d || (ok c && ok d)

/-- Rows of the band in which a tile of one head can run beside others: its whole K fits one band pass (R52, R53). -/
def guestRows (j : Job) : Nat :=
  if dHeads j.d != 1 || dOpcode j.d == 2 || tileRows j > 128 then 256 else if tileRows j ≤ 64 then 64 else 128

/-- A layout has a band of a number of rows at `b` (R50); layout 0 is still free. -/
def layoutHas (lay : BitVec 3) (b rows : Nat) : Bool :=
  match lay.toNat with
  | 0 => true
  | 1 => rows == 128
  | 2 => if b < 2 then rows == 128 else rows == 64
  | 3 => if b < 2 then rows == 64 else rows == 128
  | _ => rows == 64

/-- The lowest band of a number of rows that is free beside a position's sub-tiles. -/
def freeBand (x : ArrayS) (l : List SubTile) (rows : Nat) : Option Nat :=
  let lay := if (seated x.bound).any (fun t => l.any (fun u => u.pos == t.pos)) then x.bandLayout else 0
  (if rows == 64 then [0, 1, 2, 3] else if rows == 128 then [0, 2] else []).find? (fun b =>
    layoutHas lay b rows && bandMask b rows &&& (bandsOf l ||| x.bandFenced) == 0)

/-- The sub-tiles of an array's last position, where they are in bands. -/
def lastPosition (x : ArrayS) : List SubTile :=
  match x.bound.getLast? with
  | none => []
  | some t => if t.bandRows == 256 then [] else x.bound.filter (fun u => u.bandRows != 256 && u.pos == t.pos)

/-- The place a sub-tile takes on array `a`: beside its run of heads, in a free band of the last position, or in a position
of its own (R50 to R53, R153). -/
def seatOn (s : State) (a : Nat) (j : Job) (t : SubTile) : SubTile :=
  let x := getArr s a
  match x.bound.find? (samePack t) with
  | some u => { t with pos := u.pos, band := bandOf t }
  | none =>
    let l := lastPosition x
    let rows := guestRows j
    match (if !l.isEmpty && t.bandRows == 256 && l.all (fun u => coResident s t.ctx u.ctx) then freeBand x l rows else none) with
    | some b => { t with pos := (l.head?.map (·.pos)).getD t.order, band := b, bandRows := rows }
    | none => { t with pos := t.order, band := bandOf t }

/-- Estimated work left of a bound sub-tile (R255). DESIGN CHOICE (log 46): R255 gives no figure for a running pass, which counts whole
until its last row, nor for an array whose bands run at the same time, whose costs add up. -/
def costLeft (t : SubTile) : Nat := t.cost / max 1 t.passes * (t.passes - t.passesDone)
def boundWork (l : List SubTile) : Nat := l.foldl (fun n t => n + costLeft t) 0

/-- The estimated end of an array's bound work, that of a follower included. -/
def boundEnd (s : State) (a : Nat) : Nat := boundWork (getArr s a).bound + boundWork (followed s a)

/-- The array of a binding: the earliest estimated end, then the lowest number (R255). -/
def bindArray (s : State) (r : Nat) (t : SubTile) : Option Nat := minBy (boundEnd s) (bindArrays s r t)

/-! ### Which sub-tile binds next -/

/-- The first waiting sub-tile of each context, in the order they entered the region, that an array can take. -/
def heads : List Nat → List SubTile → List SubTile
  | _, [] => []
  | seen, t :: ts => if seen.contains t.ctx then heads seen ts else t :: heads (t.ctx :: seen) ts

/-- Every head of a sub-tile's run has been emitted, so that the run can be packed (R153). -/
def runEmitted (s : State) (t : SubTile) : Bool :=
  t.bandRows == 256 ||
  match subDesc s t with
  | none => true
  | some d =>
    let j := jobOf d 0
    let last := min (dHeads j.d - 1) (t.h / (256 / t.bandRows) * (256 / t.bandRows) + (256 / t.bandRows - 1))
    emittedAll d || decide ((last * chunksOf j + t.c) * groupsPerChunk j + t.g < d.emitted)

/-- A region's RNG unit has a live lane, where the sub-tile draws bits (R214). -/
def laneHere (s : State) (r : Nat) (t : SubTile) : Bool :=
  (subDesc s t).all (fun d => !(laneRegions s (drawsBits (sizedDesc d)) [r]).isEmpty)

def candidates (s : State) (r : Nat) : List SubTile :=
  if isLive s .region r && (freeJournal (getRgn s r)).isSome && decide (boardOf s r < 1024) then
    (heads [] (getRgn s r).queue).filter (fun t => runEmitted s t && laneHere s r t && (bindArray s r t).isSome)
  else []

/-- The highest class of the candidates (R257). -/
def topClass (l : List SubTile) : Option Nat :=
  match l with
  | [] => none
  | t :: ts => some (ts.foldl (fun m u => max m u.prio) t.prio)

/-- The class that binds next: the first one relieved that can, while relief is on, else the highest (R257). -/
def bindClass (s : State) (r : Nat) (l : List SubTile) : Option Nat :=
  if s.regs.starveUs == 0 then topClass l
  else ((getRgn s r).relief.find? (fun k => l.any (fun t => t.prio == k))).orElse (fun _ => topClass l)

/-- A Tempo context's sub-tile that belongs to its current or late step (R260, R262). -/
def tempoDue (s : State) (t : SubTile) : Bool :=
  ceTempoNs (getCtx s t.ctx).ent != 0 && (getCtx s t.ctx).tempo.openRings.contains t.ring

/-- The Tempo choice: the earliest end of period, then the lower context number (R262). -/
def tempoPick (s : State) (l : List SubTile) : Option SubTile :=
  (l.filter (tempoDue s)).foldl (fun acc t =>
    match acc with
    | none => some t
    | some u =>
      let a := (getCtx s t.ctx).tempo.fin
      let b := (getCtx s u.ctx).tempo.fin
      if a < b || (a == b && t.ctx < u.ctx) then some t else acc) none

/-- The active contexts of a class, ascending. -/
def classMembers (s : State) (k : Nat) : List Nat :=
  (s.ctxs.filter (fun e => takesWork e.2 && cePrio e.2.ent == k)).map (·.1)

/-- The next context after `c`, wrapping. -/
def advance (members : List Nat) (c : Nat) : Nat := ((members.find? (fun x => decide (c < x))).orElse (fun _ => members.head?)).getD 0

/-- The context has a sub-tile waiting in some region. -/
def waitsAnywhere (s : State) (c : Nat) : Bool := s.rgns.any (fun e => e.2.queue.any (fun t => t.ctx == c))

/-- The deficit-weighted round robin of R258. -/
def dwrrPick (k : Nat) (members : List Nat) (l : List SubTile) : Nat → State → Option SubTile × State
  | 0, s => (none, s)
  | f + 1, s =>
    let c := tget 0 s.dwrr k
    let skip (s : State) : State :=
      { setCtx s c { getCtx s c with visited := false } with dwrr := tset s.dwrr k (advance members c) }
    if !members.contains c then dwrrPick k members l f { s with dwrr := tset s.dwrr k (advance members c) }
    else
      let x := getCtx s c
      let s1 := if x.visited then s
        else setCtx s c { x with deficit := x.deficit + (s.regs.quantum.toNat * ceWeight x.ent : Nat), visited := true }
      match l.find? (fun t => t.ctx == c) with
      | some t =>
        if (t.cost : Int) ≤ (getCtx s1 c).deficit then
          (some t, setCtx s1 c { getCtx s1 c with deficit := (getCtx s1 c).deficit - t.cost })
        else dwrrPick k members l f (skip s1)
      | none =>
        dwrrPick k members l f (skip (if waitsAnywhere s1 c then s1 else setCtx s1 c { getCtx s1 c with deficit := 0 }))

/-- Rounds that are enough for the dearest candidate to gather its deficit. -/
def dwrrFuel (s : State) (members : List Nat) (l : List SubTile) : Nat :=
  let worst := l.foldl (fun n t => max n (t.cost + ((getCtx s t.ctx).deficit.natAbs))) 0
  (worst / max 1 s.regs.quantum.toNat + 3) * (members.length + 1)

/-- The sub-tile that binds next, charged to its context's deficit (R257, R258, R262). -/
def pickNext (s : State) (r : Nat) : Option SubTile × State :=
  let l := candidates s r
  match bindClass s r l with
  | none => (none, s)
  | some k =>
    let l := l.filter (fun t => t.prio == k)
    match tempoPick s l with
    | some t => (some t, setCtx s t.ctx { getCtx s t.ctx with deficit := (getCtx s t.ctx).deficit - t.cost })
    | none =>
      let ms := classMembers s k
      dwrrPick k ms l (dwrrFuel s ms l) s

/-! ### The binding -/

/-- The shadow rows of a preload that becomes a sub-tile's load hold that tile's own columns and rows (R150, R265). -/
def adoptRows (ms : Mems) (j : Job) (t : SubTile) (n : Nat) (l : Load) (b : Bank) : Bank :=
  { (List.range l.nextRow).foldl (fun b i => shadowPut ms j t n i b) { b with rows := [], scales := [] } with
    mode := passModeOf (jobMode j) (jobScaled j), key := some l.key }

/-- A preload of array `a` meets the sub-tile that binds and loads pass `n` of job `j` first there (R264, R265): it becomes the
sub-tile's load, whose lists are read now (R126), or is abandoned. -/
def meetPreload (s : State) (a : Nat) (j : Job) (t : SubTile) (n : Nat) : State :=
  let x := getArr s a
  match x.loads.find? (·.preload) with
  | none => s
  | some l =>
    if l.key == keyOf j t n && t.bandRows == 256 then
      let s1 := addCnt (adoptReads (setArr (chargeRd s t.ctx l.bytes) a { x with
        loads := [{ l with preload := false, bytes := 0 }], shadow := adoptRows s.mems j t n l x.shadow })
        (a / 4) t.ctx t.ring l.key.tensor l.key.gen (some a)) 1 1
      if (passOf j n).2 == 0 then fetchLists s1 (a / 4) j t (passOf j n).1 else s1
    else addCnt (addCnt (setArr s a { x with loads := x.loads.filter (fun y => !y.preload) }) 2 1) 3 1

/-- The preloads of the arrays that a sub-tile takes meet it: a FUSED2 loads a W1 block first, and a pair's odd array a W2 block (R173,
R264). -/
def meetPreloads (s : State) (a : Nat) (j : Job) (t : SubTile) : State :=
  if dOpcode j.d != 2 then meetPreload s a j t t.passesDone
  else
    let s1 := meetPreload s a (leadJob j) { t with g := t.fuse.leadG } t.fuse.leadP
    if t.fuse.paired then meetPreload s1 (a + 1) (followJob j) { t with g := t.fuse.followG } t.passesDone else s1

/-- Insert by the order of dispatch behind the running sub-tile (R256, R306). -/
def insertOrder (t : SubTile) : List SubTile → List SubTile
  | [] => [t]
  | u :: us => if t.order < u.order then t :: u :: us else u :: insertOrder t us

/-- The bound list with one more sub-tile; a position that has begun stays at the head (R256). -/
def addBound (l : List SubTile) (t : SubTile) : List SubTile :=
  match l with
  | [] => [t]
  | h :: rest => if (seated l).any (·.started) then h :: insertOrder t rest else insertOrder t (h :: rest)

/-- Seat a sub-tile with a journal entry on array `a`; FUSED2 takes the pair, or runs solo (R173, R255). On another array than the one it
started on it carries FENCED_MOVE (R305). -/
def seatTo (s : State) (r a k : Nat) (t : SubTile) (d : Adm) (j : Job) : State :=
  let pair := isFused s t && pairLive s (ceAffinity (getCtx s t.ctx).ent) a && a % 2 == 0
  let v := seatOn s a j { t with order := if t.order == 0 then nextOrder s else t.order }
  let moved := t.home.any (fun h => h != a)
  let u := { v with array := some a, home := some (t.home.getD a), jent := some k, side := false, started := false, entered := (getArr s a).cycle,
                    moved := t.moved || moved, flags := t.flags ||| flagIf moved (flReplayed ||| flFencedMove),
                    fuse := { v.fuse with paired := pair } }
  let s1 := meetPreloads s a j u
  let s2 := setArr s1 a (withBound (getArr s1 a) (addBound (getArr s1 a).bound u))
  putJournal s2 r k (subJournal u d)

/-- Bind a sub-tile of region `r` to an array (R255, R302): it takes a journal entry. -/
def bindTo (s : State) (r a : Nat) (t : SubTile) (d : Adm) (j : Job) : State :=
  match freeJournal (getRgn s r) with
  | none => s
  | some k => seatTo (setRgn s r { getRgn s r with queue := (getRgn s r).queue.erase t }) r a k { t with order := 0 } d j

/-- The sub-tiles that bind with one: the others of its run of heads (R153). -/
def runMates (s : State) (r : Nat) (t : SubTile) : List SubTile := (getRgn s r).queue.filter (fun u => samePack t u && u.h != t.h)

/-- Bind the others of a run, each charged to the deficit, while journal entries are free (R153, R258, R302). -/
def bindMates (s : State) (r a : Nat) (d : Adm) (j : Job) (l : List SubTile) : State :=
  l.foldl (fun u m =>
    let x := getCtx u m.ctx
    if (freeJournal (getRgn u r)).isSome then bindTo (setCtx u m.ctx { x with deficit := x.deficit - m.cost }) r a m d j else u) s

/-- One binding in a region. -/
def bindOne (s : State) (r : Nat) : State :=
  let (pick, s1) := pickNext s r
  match pick with
  | none => s1
  | some t =>
    match bindArray s r t, subJob s t r with
    | some a, some (d, j) =>
      let x := getRgn s1 r
      let s2 := bindTo (setRgn s1 r { x with relief := x.relief.erase t.prio }) r a t d j
      bindMates s2 r a d j (runMates s2 r t)
    | _, _ => s1

/-- BIND_SUBTILE (R255 to R258, R262, R264, R302). `odd` is a region-control copy that disagrees on the update (R28). -/
def execBindSubtile (r : RgnId) (odd : Option (Fin 3)) (s : State) : Host.Outcome State Fault Refusal :=
  .next (if running s then (let t := regionVote s r.val odd; if isLive t .region r.val then bindOne t r.val else t) else s)

/-! ### Starvation relief (R257) -/

/-- When a waiting sub-tile's wait began: on entering the region, or with its class's last relief. -/
def waitFrom (x : Region) (t : SubTile) : Nat := max t.entered (tget 0 x.starveFrom t.prio)

/-- The oldest dispatchable sub-tile of a class below 7. -/
def oldestLow (s : State) (r : Nat) : Option SubTile :=
  ((candidates s r).filter (fun t => decide (t.prio < 7))).foldl (fun acc t =>
    match acc with
    | none => some t
    | some u => if waitFrom (getRgn s r) t < waitFrom (getRgn s r) u then some t else acc) none

def relieve (s : State) (r : Nat) : State :=
  if s.regs.starveUs == 0 then setRgn s r { getRgn s r with relief := [] }
  else
    match oldestLow s r with
    | none => s
    | some t =>
      let x := getRgn s r
      if decide (waitFrom x t + 1000 * s.regs.starveUs.toNat ≤ s.time.t) then
        setRgn s r { x with relief := x.relief ++ [t.prio], starveFrom := tset x.starveFrom t.prio s.time.t }
      else s

/-- STARVATION_RELIEF (R257). `odd` is a region-control copy that disagrees on the update (R28). -/
def execStarvationRelief (r : RgnId) (s : State) (odd : Option (Fin 3) := none) : Host.Outcome State Fault Refusal :=
  .next (if running s then relieve (regionVote s r.val odd) r.val else s)

/-! ### Accumulation slots (R115 to R117) -/

/-- Bound sub-tiles of a region that still need a slot, in order of dispatch. -/
def wantsSlot (s : State) (t : SubTile) : Bool := t.slot.isNone && (subDesc s t).any (fun d => needsSlot (runDesc d))

def slotQueue (s : State) (r : Nat) : List SubTile :=
  (([0, 1, 2, 3].flatMap (fun i => (getArr s (4 * r + i)).bound) ++ (getRgn s r).sideQ).filter (wantsSlot s)).foldl
    (fun l t => insertOrder t l) []

/-- The lowest free slot of a context in a region. -/
def freeSlotOf (s : State) (r c : Nat) : Option Nat :=
  (List.range (ceAccSlots (getCtx s c).ent)).find? (fun n => !(getRgn s r).slots.contains (c, n))

/-- The lowest free backing slot of a context: one of the first it does not hold. -/
def freeBacking (s : State) (c : Nat) : Option Nat :=
  let x := getCtx s c
  (List.range (min (ceBackSlots x.ent) (x.backing.length + 1))).find? (fun n => !x.backing.contains n)

/-- Change a bound or routed sub-tile. -/
def mapSub (s : State) (r : Nat) (t : SubTile) (f : SubTile → SubTile) : State :=
  let g (l : List SubTile) : List SubTile := l.map (fun u => if u == t then f u else u)
  match t.array with
  | some a => setArr s a { getArr s a with bound := g (getArr s a).bound }
  | none => setRgn s r { getRgn s r with sideQ := g (getRgn s r).sideQ }

/-- Write a sub-tile's journal record again. -/
def journalSub (s : State) (r : Nat) (t : SubTile) : State :=
  match t.jent, subDesc s t with
  | some k, some d => putJournal s r k (subJournal t d)
  | _, _ => s

/-- Give a sub-tile a slot, or a backing slot; false where its context has none free. -/
def giveSlot (s : State) (r : Nat) (t : SubTile) : Option State :=
  let put (s : State) (ref : SlotRef) : State :=
    let u := { t with slot := some ref }
    journalSub (mapSub s r t (fun _ => u)) r u
  match freeSlotOf s r t.ctx with
  | some n => some (put (setRgn s r { getRgn s r with slots := (getRgn s r).slots ++ [(t.ctx, n)] }) { backed := false, num := n, region := r })
  | none =>
    match freeBacking s t.ctx with
    | some n =>
      some (put (addRgnCnt (setCtx s t.ctx { getCtx s t.ctx with backing := (getCtx s t.ctx).backing ++ [n] }) r 4 1)
        { backed := true, num := n, region := r })
    | none => none

/-- Offer slots in order of dispatch: a context without a free slot holds its later sub-tiles too, and each round in
which a sub-tile is held counts as waiting (R116). -/
def assignFirst (s : State) (r : Nat) : List Nat → List SubTile → State
  | held, [] => if held.isEmpty then s else addRgnCnt s r 5 1
  | held, t :: ts =>
    if held.contains t.ctx then assignFirst s r held ts
    else
      match giveSlot s r t with
      | some s1 => if held.isEmpty then s1 else addRgnCnt s1 r 5 1
      | none => assignFirst s r (t.ctx :: held) ts

/-- SLOT_ASSIGN (R115, R116): the oldest sub-tile that can takes a slot. -/
def execSlotAssign (r : RgnId) (odd : Option (Fin 3)) (s : State) : Host.Outcome State Fault Refusal :=
  .next (if running s then
      (let t := regionVote s r.val odd
       if regionServes t r.val then assignFirst t r.val [] (slotQueue t r.val) else t)
    else s)

end Sys2Proof.Machine
end

