-- ==== Sys2Proof/Machine/Lanes.lean ====
section
/-!
DEFINITION. What an array runs: its lanes (R45, R51), the products of a FUSED2 sub-tile on a pair or solo (R173, R176), and
what its shadow bank is loaded with next (R44, R90, R264).
-/

namespace Sys2Proof.Machine

/-- An array works: it is LIVE, or drains, and its island runs. -/
def arrayRuns (s : State) (a : Nat) : Bool :=
  (unitSt s .array a == .live || unitSt s .array a == .draining) && !s.boot.off && (s.boot.pstate == 0 || s.boot.pstate == 1)

/-- A lane has a pass in progress. -/
def passOn (l : Lane) : Bool := !l.sent.isEmpty

/-- The array holds a confirmed speculation of this sub-tile. -/
def specOf (x : ArrayS) (t : SubTile) : Option SpecBuf :=
  x.spec.filter (fun b => b.confirmed && b.sub.ctx == t.ctx && b.sub.ring == t.ring && b.sub.h == t.h && b.sub.c == t.c && b.sub.g == t.g)

/-! ### Works -/

/-- What a pass of a sub-tile belongs to: its own product, or the first or second product of FUSED2. -/
inductive Role where
  | whole
  | lead
  | follow
  deriving DecidableEq, Repr

/-- A sub-tile's work on an array or a Side Path: the sub-tile as it is bound, its descriptor, the job of the product, and `e`,
the sub-tile as that product sees it, with its group, pass and row mark. -/
structure Work where
  t : SubTile
  d : Adm
  j : Job
  e : SubTile
  role : Role

/-- Passes of the first product for one W1 group (R176). -/
def leadPasses (j : Job) : Nat := passesOf j * piecesOf (jobMode j)

/-- The products of a FUSED2 sub-tile that a unit runs. -/
structure Roles where
  lead : Bool
  follow : Bool

/-- A FUSED2 sub-tile behind one more pass of a product (R176). -/
def fuseStep (j : Job) (t : SubTile) (follow : Bool) : SubTile :=
  let f := t.fuse
  if follow then
    (if f.followG + 1 < tileGroups j then { t with fuse := { f with followG := f.followG + 1, followRow := 0 } }
     else { t with passesDone := t.passesDone + 1, fuse := { f with followG := 0, followRow := 0 } })
  else if f.leadP + 1 < leadPasses (leadJob j) then { t with fuse := { f with leadP := f.leadP + 1, leadRow := 0 } }
  else { t with fuse := { f with leadG := f.leadG + 1, leadP := 0, leadRow := 0 } }

/-- The product whose pass comes next: a solo unit runs a W1 group's passes, then the second product's pass on it (R173). -/
def nextRole (u : Roles) (t : SubTile) : Option Role :=
  let more := decide (t.fuse.leadG < t.passes)
  if u.lead && u.follow then
    (if t.fuse.leadG ≤ t.passesDone then (if more then some .lead else none) else some .follow)
  else if u.lead then (if more then some .lead else none)
  else if u.follow && decide (t.passesDone < t.passes) then some .follow
  else none

/-- The work of a FUSED2 sub-tile in a product. -/
def fuseWork (d : Adm) (j : Job) (t : SubTile) (r : Role) : Work :=
  match r with
  | .follow => { t := t, d := d, j := followJob j, role := .follow, e := { t with g := t.fuse.followG, rowMark := t.fuse.followRow } }
  | _ => { t := t, d := d, j := leadJob j, role := .lead,
           e := { t with g := t.fuse.leadG, passesDone := t.fuse.leadP, passes := leadPasses (leadJob j), rowMark := t.fuse.leadRow,
                         zPasses := t.zPasses - t.fuse.leadG * leadPasses (leadJob j) } }

/-- The work of a sub-tile in region `r` on a unit with these roles. -/
def workIn (s : State) (r : Nat) (u : Roles) (t : SubTile) : Option Work :=
  match subJob s t r with
  | none => none
  | some (d, j) =>
    if dOpcode j.d == 2 then (nextRole u t).map (fuseWork d j t)
    else some { t := t, d := d, j := j, e := t, role := .whole }

/-- The job of the sub-tile's own descriptor. -/
def Work.tile (w : Work) (r : Nat) : Job := jobOf w.d r

/-- The pass runs on the bank of the pass before it: a_hi times w_hi follows a_lo times w_hi (R90). -/
def sameBank (j : Job) (n : Nat) : Bool := (jobMode j).w == .fp32 && n % 3 == 2

/-- The passes of a work that z has been delivered for, once it has for the running one (R126, R176). -/
def Work.zAfter (w : Work) : Nat :=
  (if w.role == .lead then w.t.fuse.leadG * leadPasses w.j else 0) + w.e.passesDone + 1

/-- The next pass of a product, behind `n`, that needs a load of its own. -/
def nextLoad (w : Work) (n : Nat) : Option Nat :=
  [n + 1, n + 2].find? (fun k => decide (k < w.e.passes) && !sameBank w.j k)

/-- The next load of a sub-tile behind the pass it runs (R44, R90, R176). -/
def Work.after (w : Work) (r : Nat) (u : Roles) : Option (Work × Nat) :=
  match w.role with
  | .whole => (nextLoad w w.e.passesDone).map (fun n => (w, n))
  | .lead =>
    (match nextLoad w w.e.passesDone with
     | some n => some (w, n)
     | none =>
       let t1 := { w.t with fuse := { w.t.fuse with leadG := w.t.fuse.leadG + 1, leadP := 0, leadRow := 0 } }
       (nextRole u t1).map (fun q => (fuseWork w.d (w.tile r) t1 q, (fuseWork w.d (w.tile r) t1 q).e.passesDone)))
  | .follow =>
    let t1 := fuseStep (w.tile r) w.t true
    (nextRole u t1).map (fun q => (fuseWork w.d (w.tile r) t1 q, (fuseWork w.d (w.tile r) t1 q).e.passesDone))

/-- The roles of array `a` for a sub-tile bound to it. -/
def homeRoles (t : SubTile) : Roles := { lead := true, follow := !t.fuse.paired }

/-- The FUSED2 sub-tile whose second product the odd array runs next: its own sub-tiles of earlier dispatch go first, unless
the second product has begun. -/
def followNow (s : State) (a : Nat) : Option SubTile :=
  match followed s a with
  | [] => none
  | t :: _ =>
    let begun := t.passesDone != 0 || t.fuse.followG != 0 || t.fuse.followRow != 0
    match (getArr s a).bound with
    | [] => some t
    | u :: _ => if u.started then none else if begun || passOn (getLane (getArr s a) 0) || t.order < u.order then some t else none

/-- The works that an array runs now: one for each of its bands that holds a sub-tile (R51). -/
def works (s : State) (a : Nat) : List (Work × Roles) :=
  match followNow s a with
  | some t => ((workIn s (a / 4) { lead := false, follow := true } t).map (fun w => (w, ({ lead := false, follow := true } : Roles)))).toList
  | none => (seated (getArr s a).bound).filterMap (fun t => (workIn s (a / 4) (homeRoles t) t).map (fun w => (w, homeRoles t)))

/-- The position behind the one that runs, with its roles: the array's own, or a FUSED2 sub-tile that it follows. -/
def waiting (s : State) (a : Nat) : List (SubTile × Roles) :=
  let bound := (getArr s a).bound
  let pair := followed s a
  let (own, fol) := match followNow s a with
    | some _ => (bound, pair.drop 1)
    | none => (bound.filter (fun u => !(seated bound).contains u), pair)
  let mine := (seated own).map (fun t => (t, homeRoles t))
  match fol.head? with
  | none => mine
  | some u => if own.head?.all (fun v => u.order < v.order) then [(u, { lead := false, follow := true })] else mine

/-- What the shadow bank is loaded with next (R44, R264): for each band its running sub-tile's next load; once none of them
has one, the first loads of the sub-tiles behind. -/
def loadTargets (s : State) (a : Nat) : List (Work × Nat) :=
  let x := getArr s a
  let ws := (works s a).filter (fun w => !(getCtx s w.1.t.ctx).aborting)
  let own := ws.filterMap (fun w =>
    if passOn (getLane x w.1.e.band) then w.1.after (a / 4) w.2
    else some (w.1, ((specOf x w.1.t).map (·.passes)).getD w.1.e.passesDone))
  if !own.isEmpty then own
  else (waiting s a).filterMap (fun q => (workIn s (a / 4) q.2 q.1).map (fun w =>
    (w, ((specOf x q.1).map (·.passes)).getD w.e.passesDone)))

/-- The sub-tile has the slot it needs, or needs none (R115, R116). -/
def slotReady (t : SubTile) (d : Adm) : Bool := t.slot.isSome || !needsSlot (runDesc d)

/-- The oldest skewed row is due before array cycle `n`: its delivery comes first (R46). -/
def delayDue (x : ArrayS) (n : Nat) : Bool :=
  match x.delay with
  | [] => false
  | q :: _ => decide (q.cycle + 512 < n)

/-- A band of an array, or the whole array, has this work's pass. -/
def laneOf (x : ArrayS) (w : Work) : Lane := getLane x w.e.band

/-! ### Link buffers (R175, R176) -/

/-- The array whose link buffer holds a FUSED2 sub-tile's intermediate: the follower's, or its own where it runs solo. -/
def linkArray (t : SubTile) : Option Nat := t.array.map (fun a => if t.fuse.paired then a + 1 else a)

/-- The link buffer of a sub-tile: its array's, or its region's Side Path's (R194). -/
def linkHalves (s : State) (r : Nat) (t : SubTile) : List LinkHalf :=
  match linkArray t with
  | some a => (getArr s a).link
  | none => (getRgn s r).sideLink

def setLink (s : State) (r : Nat) (t : SubTile) (l : List LinkHalf) : State :=
  match linkArray t with
  | some a => setArr s a { getArr s a with link := l }
  | none => setRgn s r { getRgn s r with sideLink := l }

/-- The half that holds a W1 group of the sub-tile. -/
def linkHalf (s : State) (r : Nat) (t : SubTile) (g : Nat) : Option LinkHalf :=
  (linkHalves s r t).find? (fun q => linkOf t q && q.group == g)

/-- A half for the lead's group: its own, or one of the two that is free; else the lead stalls (R176). -/
def linkRoom (s : State) (r : Nat) (t : SubTile) : Bool :=
  (linkHalf s r t t.fuse.leadG).isSome || decide ((linkHalves s r t).length < 2)

/-- The intermediate's row in the link buffer. -/
def linkRow (s : State) (r : Nat) (t : SubTile) (g row : Nat) : Option LinkRow :=
  (linkHalf s r t g).bind (fun q => q.rows.find? (fun x => x.row == row))

/-- Put a row of the lead's group into its half (R175, R178). -/
def linkPut (s : State) (r : Nat) (t : SubTile) (x : LinkRow) : State :=
  let l := linkHalves s r t
  let g := t.fuse.leadG
  if (linkHalf s r t g).isSome then
    setLink s r t (l.map (fun q => if linkOf t q && q.group == g then { q with rows := q.rows.filter (fun y => y.row != x.row) ++ [x] } else q))
  else setLink s r t (l ++ [{ ctx := t.ctx, ring := t.ring, h := t.h, c := t.c, group := g, rows := [x] }])

/-- The half of a pass that has been committed is free. -/
def linkFree (s : State) (r : Nat) (t : SubTile) (g : Nat) : State :=
  setLink s r t ((linkHalves s r t).filter (fun q => !(linkOf t q && q.group == g)))

/-- The activations that a work's row broadcasts: its operand's, or the intermediate's (R174, R176). -/
def workAct (s : State) (r : Nat) (w : Work) (row : Nat) : (Nat → Num) × (Nat → Option Int) :=
  let m := dMorg w.j.d + w.e.m0 + row
  match w.role with
  | .follow =>
    let codes := ((linkRow s r w.t w.t.passesDone row).map (·.codes)).getD []
    (fun k => decodeElem (interFmt (w.tile r)) (codes.getD (k - 256 * w.t.passesDone) 0), fun _ => some 0)
  | _ => (actVal s.mems w.j w.e.h m, actScale s.mems w.j w.e.h m)

/-- The result row of a work's row from a bank. -/
def workRow (s : State) (r : Nat) (b : Bank) (w : Work) (row cycle : Nat) (upset : List (Nat × W32)) : RowRes :=
  let (act, sc) := workAct s r w row
  resultWith b w.j w.e w.e.passesDone row cycle act sc upset

end Sys2Proof.Machine
end

