-- ==== Sys2Proof/Machine/Rows.lean ====
section
/-!
DEFINITION. An array's work up to its commit: the Castle (R45, R51, R90, R266, R272), shadow loads (R14 to R18, R44), the elastic
broadcast (R42, R47 to R49) and the check (R56 to R58).
-/

namespace Sys2Proof.Machine

/-- An event that counts toward an array's fencing threshold (R17, R58): the third within 1 ms fences it. -/
def countMiss (s : State) (a : Nat) : State :=
  let ts := addEvent (getArr s a).missTimes s.time.t
  let s1 := setArr s a { getArr s a with missTimes := ts }
  if reached 3 ts then fenceUnit s1 .array a else s1

/-- A row of partials of `cols` columns: in scratchpad always its 24 lines, in memory what is used of its two planes (R93). -/
def pairSpans (sp : Space) (a cols : Nat) : List (Space × Nat × Nat) :=
  match sp with
  | .spad _ => [(sp, a, 1536)]
  | .mem => [(sp, a, 4 * cols), (sp, a + 0x400, 2 * cols)]

/-- Partial rows and wide rows that pass `n` of a sub-tile reads for row `i` (R98, R101, R106, R107, R112): a pair row unless in DET or
behind a spill pass, and the wide row in a spill pass and in the last one; a softmax FUSED2 rescales it in every pass behind one (R179). -/
def partialReads (s : State) (j : Job) (t : SubTile) (n i : Nat) : List (Space × Nat × Nat) :=
  let k := partialIdx j t.h t.g (t.m0 + i)
  let wide (w : Nat) : List (Space × Nat × Nat) :=
    if w == 0 then [] else
      let e := jent j w
      [(tentSpace e j.r, wideRow (jobWide j) e.base k, wideBytes (jobWide j) * subCols j t)]
  let (p, spilled) := passesP s.mems j n
  let reads := dDet j.d || (isSoft j && spilled) || (jobWide j != .none && (spillPass (dSpillInt j.d) true (p + 1) || n + 1 == t.passes))
  (if n == 0 then
     (if dAccIn j.d == 0 then [] else pairSpans (tentSpace (jent j (dAccIn j.d)) j.r) (bufRow (jent j (dAccIn j.d)) k) (subCols j t))
   else if dDet j.d || (p == 0 && spilled) then []
   else pairSpans (partialAt s j t i).1 (partialAt s j t i).2 (subCols j t)) ++
  (if !reads then [] else if n != 0 && spilled then wide (dWide j.d) else wide (pAccInWide j.p))

/-- The partial rows that a work's row reads. The lead's are its accumulate stage's own (R176). -/
def workParts (s : State) (r : Nat) (w : Work) (row : Nat) : List (Space × Nat × Nat) :=
  match w.role with
  | .whole => partialReads s w.j w.e w.e.passesDone row
  | .lead => []
  | .follow => partialReads s (w.tile r) w.e w.t.passesDone row

/-! ### Gambit's history (R266, R269) -/

/-- The context allows Gambit. -/
def gambitOn (s : State) (c : Nat) : Bool := !ceGambitOff (getCtx s c).ent

/-- An entry of the history table after key `b` followed (R266). -/
def histNext (e : Option HistEntry) (b : BlockKey) : HistEntry :=
  match e with
  | none => { pred := b, conf := 1 }
  | some h =>
    if h.pred == b then { h with conf := conf2Up h.conf }
    else if conf2Down h.conf == 0 then { pred := b, conf := 1 } else { h with conf := conf2Down h.conf }

def histAt (s : State) (k : BlockKey) : Option HistEntry :=
  (s.gambit.hist.find? (fun e => e.1 == (Config.gambitHash k.ctx k.tensor k.group).val)).map (·.2)

/-- An array starts the first pass of a sub-tile with key `b` (R266, R269, R276): an update of the table consumes the array's hint. -/
def historyUpdate (s : State) (a : Nat) (b : BlockKey) : State :=
  let x := getArr s a
  let s1 := match x.lastKey with
    | none => s
    | some k =>
      if gambitOn s k.ctx && gambitOn s b.ctx then
        { s with gambit := { hist := tset s.gambit.hist (Config.gambitHash k.ctx k.tensor k.group).val (histNext (histAt s k) b),
                             hint := tdrop s.gambit.hint a } }
      else s
  setArr s1 a { x with lastKey := some b }

/-! ### The Castle -/

/-- Swap the rows of a band, or all, between two banks (R45, R51). -/
def swapRows (lo n : Nat) (a b : List BankRow) : List BankRow :=
  (List.range (max a.length (min b.length (lo + n)))).map (fun i => if lo ≤ i && i < lo + n then b.getD i emptyRow else a.getD i emptyRow)
def swapScales (lo n : Nat) (a b : List (List Byte)) : List (List Byte) :=
  (List.range (max a.length (min b.length (lo + n)))).map (fun i => if lo ≤ i && i < lo + n then b.getD i [] else a.getD i [])

def swapBank (lo n : Nat) (a b : Bank) : Bank :=
  if n == 256 then b
  else { b with rows := swapRows lo n a.rows b.rows, scales := swapScales lo n a.scales b.scales }

/-- The load of a work's band. -/
def loadFor (x : ArrayS) (w : Work) : Option Load := x.loads.find? (fun l => l.band == w.e.band && !l.preload)

/-- A pass of a work begins in array cycle `c` behind its row mark (R45). -/
def startLane (w : Work) (c : Nat) : Lane :=
  { castleReq := none, castled := c, sent := List.replicate w.e.bandRows (w.e.rowMark * rowCycles (jobMode w.j)),
    taken := List.replicate 257 w.e.rowMark, drain := List.replicate 257 0, results := [], asked := w.e.rowMark }

/-- The array cycle of the Castle: behind the cycle in which the last row was written (R15, R45). -/
def castleCycle (x : ArrayS) (w : Work) : Nat := max x.cycle (((loadFor x w).map (·.cycle)).getD 0)

/-- The Castle: the loaded block becomes active, and the pass starts in the next array cycle; other bands go on (R45, R51). -/
def castleSwap (x : ArrayS) (w : Work) : ArrayS :=
  let lo := 64 * w.e.band
  let y := castleCycle x w
  setLane { x with
    active := swapBank lo w.e.bandRows x.active x.shadow, shadow := swapBank lo w.e.bandRows x.shadow x.active,
    loads := x.loads.filter (fun l => l.preload || l.band != w.e.band),
    cycle := if w.e.bandRows == 256 then y + 1 else x.cycle } w.e.band (startLane w (y + 1))

/-- The lead's last pass on a W1 group puts its rows into a half of the link buffer (R175, R176). -/
def intoLink (w : Work) : Bool := w.role == .lead && w.e.passesDone + 1 == w.e.passes

/-- The descriptor has a read on some port, or one of a scratchpad line that is not granted. -/
def hasReads (s : State) (o : Owner) : Bool :=
  s.mp.any (fun e => e.2.rdQ.any (·.owner == o) || e.2.rdOut.any (fun q => q.2.owner == o) || e.2.held.any (·.owner == o)) ||
  s.xing.any (fun e => e.read.owner == o) || s.rgns.any (fun e => e.2.bankReqs.any (fun q => q.act == .read && q.owner == o))

/-- What the tile reads at its start has arrived: C, scales, bias, row state (R26). -/
def stagedHere (s : State) (r : Nat) (w : Work) : Bool :=
  let o : Owner := .desc w.t.ctx w.t.ring
  !hasReads s o || (stagedReads s w.t.ctx (w.tile r)).all (fun x =>
    match x.sp with
    | .mem => ! ([0, 1, 2, 3].any (fun q => readPending s q o (x.a, x.n)))
    | .spad q => !(linesOf (x.a, x.n)).any (fun a => linePending s o (q, a)))

/-- A Castle waits for nothing but its load: no pass in progress, a slot where it needs one, a half of the link buffer where it fills
one, no delivery due, what the tile reads at its start (R15, R46, R115, R176); a context that is being aborted starts no pass (R375). -/
def castleOpen (s : State) (a : Nat) (w : Work) : Bool :=
  !passOn (laneOf (getArr s a) w) && slotReady w.t w.d && (!intoLink w || linkRoom s (a / 4) w.t) &&
    !delayDue (getArr s a) (castleCycle (getArr s a) w + 1) && !(getCtx s w.t.ctx).aborting && stagedHere s (a / 4) w

/-- The load of the work's next pass is complete. -/
def loadDone (x : ArrayS) (w : Work) : Bool :=
  (loadFor x w).any (fun l => l.key == keyOf w.j w.e w.e.passesDone && decide (l.total ≤ l.nextRow))

/-- The work starts its sub-tile's first pass on the array: of a pair, the odd array starts the second product (R266). -/
def firstPass (w : Work) : Bool :=
  w.e.rowMark == 0 && w.e.passesDone == 0 && (match w.role with
    | .whole => true
    | .lead => w.e.g == 0
    | .follow => w.e.g == 0 && w.t.fuse.paired)

/-- The key of the pass 0 that a sub-tile has on this array (R265, R266). -/
def runKey (w : Work) : BlockKey := keyOf w.j (if w.role == .whole then w.e else { w.e with g := 0 }) 0

/-- The sub-tile that the array runs from now on is the one that its next update of the history comes behind, a replayed one too (R266). -/
def ranNow (s : State) (a : Nat) (w : Work) : State :=
  if firstPass w then historyUpdate s a (runKey w)
  else if w.role == .follow && !w.t.fuse.paired then s
  else setArr s a { getArr s a with lastKey := some (runKey w) }

/-- No band of the array is at work, so that an idle array cycle passes. -/
def allIdle (x : ArrayS) : Bool := !x.lanes.any (fun e => passOn e.2)

/-- An array cycle passes idle on the array, unless another band is at work. -/
def idleCycle (x : ArrayS) : ArrayS := if allIdle x then { x with cycle := x.cycle + 1 } else x

/-- The load comes from the transposer (R130). -/
def needsTsp (j : Job) : Bool := transposed j && (wEnt j).layout != 0

/-- A Castle that cannot take place yet: it is held for its load, which waits on the transposer perhaps (R15, R130), or the lead
waits for a half of the link buffer (R176). What the check of the waiting bank has found is kept (R16). -/
def castleWait (s : State) (a : Nat) (w : Work) (rs : RsResult) : State :=
  let x := getArr s a
  let l := laneOf x w
  if intoLink w && !linkRoom s (a / 4) w.t then addArrCnt (setArr s a (idleCycle x)) a 6 1
  else
    let s1 := setArr s a (setLane (idleCycle x) w.e.band { l with
      castleReq := some (l.castleReq.getD x.cycle), castleRs := if rs == .clean then l.castleRs else rs })
    if needsTsp w.j && x.tsp.isEmpty && allIdle x then addRgnCnt s1 (a / 4) 9 1 else s1

/-! ### SHADOW_LOAD_ROW -/

/-- REPLAYED on the sub-tile that waits for a load. -/
def markReplayed (s : State) (a : Nat) (t : SubTile) : State := mapSub s (a / 4) t (fun u => { u with flags := u.flags ||| flReplayed })

/-- Change a load of an array. -/
def mapLoad (x : ArrayS) (l : Load) (f : Load → Load) : ArrayS := { x with loads := x.loads.map (fun y => if y == l then f y else y) }

/-- The load bus broadcasts a row of a load: the first cycle in which it is free, from the load's start on (R44, R51); a row
that the transposer has kept a Castle waiting for comes no earlier than now. -/
def busCycle (x : ArrayS) (l : Load) (late : Bool) : Nat := max (max l.cycle x.bus) (if late then x.cycle else 0)

/-- A parity error at the bank port (R17): the row is broadcast again, which costs the load bus a cycle; a second one on the row
restarts the load. -/
def parityError (s : State) (a : Nat) (l : Load) (w : Option Work) : State :=
  let x := getArr s a
  let ts := addEvent x.parityTimes s.time.t
  let again := l.parity != 0
  let z := busCycle x l false
  let f (y : Load) : Load :=
    if again then { y with nextRow := 0, parity := 0, restarted := true, cycle := z + 1 } else { y with parity := 1, cycle := z + 1 }
  let s1 := logFault (setArr s a { mapLoad x l f with parityTimes := ts, tsp := if again then [] else x.tsp, bus := z + 1 })
    (flogBase s (if again then clsReplayable else clsCorrectable) 1 0x06 a (a / 4))
  let s2 := match w with
    | some w => if again then markReplayed s1 a w.t else s1
    | none => s1
  if reached 3 ts then countMiss s2 a else s2

/-- A preload is abandoned silently (R267, R274). -/
def dropPreload (s : State) (a : Nat) : State :=
  addCnt (setArr s a { getArr s a with loads := (getArr s a).loads.filter (fun y => !y.preload), tsp := [] }) 3 1

/-- One row of the load goes into the shadow banks (R14, R44), from the transposer's output where it passes through it
(R130); its codewords are checked (R16, R18). An ECC error on a preload abandons it silently (R267, R274). -/
def writeShadow (s : State) (a : Nat) (l : Load) (j : Job) (t : SubTile) (n : Nat) (rs : RsResult) : State :=
  let x := getArr s a
  let b := match (if needsTsp j then x.tsp.head? else none) with
    | some row => putRow x.shadow j (64 * t.band + l.nextRow) row
        (rowScales s.mems j t.h (subFirst j t) (subCols j t) (256 * (passOf j n).1 + l.nextRow))
    | none => shadowPut s.mems j t n l.nextRow x.shadow
  let z := busCycle x l (needsTsp j && (getLane x l.band).castleReq.isSome)
  let s1 := setArr s a { mapLoad x l (fun y => { y with nextRow := y.nextRow + 1, parity := 0, cycle := z + 1 }) with
    bus := z + 1, tsp := x.tsp.drop 1,
    shadow := { b with mode := passModeOf (jobMode j) (jobScaled j), key := some l.key } }
  if l.preload then
    (if rs == .clean then s1 else dropPreload s1 a)
  else bankFinding s1 a t rs

/-- A load that begins: from the array cycle behind the Castle that started the running pass, or from its sub-tile's binding
(R44, R265). -/
def freshLoad (x : ArrayS) (w : Work) (n : Nat) : Load :=
  { key := keyOf w.j w.e n, band := w.e.band, preload := false, nextRow := 0, total := loadRows w.e, parity := 0, restarted := false, bytes := 0,
    cycle := max (getLane x w.e.band).castled w.e.entered }

/-- The load of a work's pass is the one in progress. -/
def isLoad (l : Load) (w : Work × Nat) : Bool := !l.preload && l.band == w.1.e.band && l.key == keyOf w.1.j w.1.e w.2

/-- The first load in order of request that is not complete has the bus, and the transposer's rows (R51, R130). -/
def busLoad (l : List Load) : Option Load := l.find? (fun y => decide (y.nextRow < y.total))

/-- The owner of a load's reads. -/
def loadOwner (a : Nat) (l : Load) (t : SubTile) : Owner :=
  if l.preload then .gambit l.key.ctx l.key.tensor l.key.gen (some a) else .desc t.ctx t.ring

/-- Start one load: its rows are read from scratchpad or through the ports, lists included (R126, R162); the transposer keeps nothing
from another load (R130). -/
def startLoad (s : State) (a : Nat) (w : Work × Nat) : State :=
  let x := getArr s a
  let whole := w.1.e.bandRows == 256
  let s1 := setArr s a { x with
    loads := x.loads ++ [freshLoad x w.1 w.2], tsp := if (busLoad x.loads).isNone then [] else x.tsp,
    shadow := if whole then { x.shadow with rows := [], scales := [] } else x.shadow }
  let s2 := (List.range (liveRows (tileRows w.1.j) (passOf w.1.j w.2).1)).foldl (fun u i =>
    readRow u (a / 4) 2 1 (.desc w.1.t.ctx w.1.t.ring) w.1.j w.1.e w.2 i) s1
  if (passOf w.1.j w.2).2 == 0 then fetchLists s2 (a / 4) w.1.j w.1.e (passOf w.1.j w.2).1 else s2

/-- The loads that an array wants: what is loaded next is asked for in order, a preload gives way (R51, R264). -/
def syncLoads (s : State) (a : Nat) : State :=
  let x := getArr s a
  let ts := loadTargets s a
  let keep := x.loads.filter (fun l => if l.preload then ts.isEmpty else ts.any (isLoad l))
  let s1 := if !ts.isEmpty && x.loads.any (·.preload) then addCnt s 3 1 else s
  (ts.filter (fun w => !keep.any (fun l => isLoad l w))).foldl (fun u w => startLoad u a w)
    (setArr s1 a { x with loads := keep, tsp := if busLoad keep == busLoad x.loads then x.tsp else [] })

/-! ### The feed -/

/-- A CONV row takes the gather buffer, not the direct path (R184). -/
def gathered (j : Job) : Bool :=
  dOpcode j.d == 6 && !(cvC j * fmtBits (tentFmt (actEnt j)) % 512 == 0 && cvInDil j == 1)

/-- The gather buffer's place of a row of a band. -/
def gatherKey (band row : Nat) : Nat := 2 ^ 17 * band + row

/-- The input windows of a CONV sub-tile's chunk are in its region, and no read for them is under way (R186). -/
def windowHere (s : State) (r : Nat) (j : Job) (t : SubTile) : Bool :=
  dOpcode j.d != 6 || (windowsOf j t).all (fun w => (getRgn s r).windows.any (sameWindow w) &&
    !(windowRows j w w.lo).any (readPending s r (.desc t.ctx t.ring)))

/-- The lines of scratchpad that a work's activation row is read from, with the region that holds each: a CONV's from its window. The
second product of FUSED2 takes its activations from the link buffer (R41, R176, R186). -/
def actSpad (s : State) (r : Nat) (w : Work) (row : Nat) : List (Nat × Nat) :=
  let lines := rowLines w.j w.e (passOf w.j w.e.passesDone).1 row
  if w.role == .follow then []
  else
    match tentSpace (actEnt w.j) w.j.r with
    | .spad q => lines.map (fun a => (q, a))
    | .mem => if dOpcode w.j.d == 6 then lines.map (fun a => (r, windowLine s r w.j w.e a)) else []

/-- The spans of memory that it is read from. -/
def actPort (w : Work) (row : Nat) : List (Nat × Nat) :=
  if w.role == .follow || dOpcode w.j.d == 6 || tentSpace (actEnt w.j) w.j.r != .mem then []
  else (rowLines w.j w.e (passOf w.j w.e.passesDone).1 row).map (fun a => (a, 64))

/-- Ask for an activation row, of the banks in a class of R23 and of the ports in class 1 of R27. -/
def askActs (s : State) (r cls : Nat) (w : Work) (row : Nat) : State :=
  let s1 := (actSpad s r w row).foldl (fun u x => askBank u x.1 cls x.2 .read (.desc w.t.ctx w.t.ring)) s
  (actPort w row).foldl (fun u x => readAt u r 1 .mem x.1 x.2 w.t) s1

/-- Every read of an activation row has been granted, and has arrived (R23, R26, R288). -/
def actsHere (s : State) (r : Nat) (w : Work) (row : Nat) : Bool :=
  let o : Owner := .desc w.t.ctx w.t.ring
  !(actSpad s r w row).any (linePending s o) && !(actPort w row).any (readPending s r o)

/-- Ask for the partial rows that a work's row reads, the ports in class 2 (R25, R101). -/
def askParts (s : State) (r : Nat) (w : Work) (row : Nat) : State :=
  (workParts s r w row).foldl (fun u x => readAt u r 2 x.1 x.2.1 x.2.2 w.t) s

/-- The reads of the partial rows have been granted, and have arrived. -/
def partsHere (s : State) (r : Nat) (w : Work) (row : Nat) : Bool :=
  let o : Owner := .desc w.t.ctx w.t.ring
  (workParts s r w row).all (fun x =>
    match x.1 with
    | .mem => !readPending s r o x.2
    | .spad q => !(linesOf x.2).any (fun a => linePending s o (q, a)))

/-- The staging unit asks for the activation rows of a work that its physical rows may begin next: up to four ahead of the slowest column
tree (R47), once their windows stand; gathered rows are asked for by GATHER_ROW. -/
def askAhead (s : State) (a : Nat) (w : Work) : State :=
  let x := getArr s a
  let l := laneOf x w
  let n := min w.e.rows (l.taken.foldl min w.e.rows + 4)
  if gathered w.j || !windowHere s (a / 4) w.j w.e || n ≤ l.asked then s
  else ((List.range (n - l.asked)).map (l.asked + ·)).foldl (fun u i => askActs u (a / 4) 1 w i)
    (setArr s a (setLane x w.e.band { l with asked := n }))

/-- The running passes of an array ask for their next rows. -/
def feedAhead (s : State) (a : Nat) : State :=
  ((works s a).filter (fun w => passOn (laneOf (getArr s a) w.1))).foldl (fun u w => askAhead u a w.1) s

/-! ### The Castle takes place -/

/-- Perform a Castle; the array cycles for which it was held for its load count (R15, R45). `rs` is what the check of the bank that
becomes active finds (R16, R18). A band asks for its next load at once, so that loads are served in the order of request (R51), and the
pass for its first activation rows. -/
def castleDo (s : State) (a : Nat) (w : Work) (rs : RsResult) : State :=
  let x := getArr s a
  let s1 := setArr s a (castleSwap x w)
  let s2 := mapSub s1 (a / 4) w.t (fun u => { u with misses := 0, started := true })
  let waited := castleCycle x w - (laneOf x w).castleReq.getD x.cycle
  let s3 := bankFinding (ranNow (if waited == 0 then s2 else addArrCnt s2 a 0 waited) a w) a w.t rs
  let s4 := if w.e.bandRows == 256 then s3 else syncLoads s3 a
  feedAhead s4 a

/-- A Castle that is held for a load that has become complete (R15), with what the check of the bank found meanwhile (R16). -/
def heldCastle (s : State) (a : Nat) : State :=
  match (works s a).find? (fun w => (laneOf (getArr s a) w.1).castleReq.isSome && loadDone (getArr s a) w.1 && castleOpen s a w.1) with
  | none => s
  | some w => castleDo s a w.1 (laneOf (getArr s a) w.1).castleRs

/-! ### Rows of a load -/

/-- The load that has the bus, with what it loads: the first in order of request that is not complete (R51). -/
def currentLoad (s : State) (a : Nat) : State × Option (Load × Job × SubTile × Nat × Option Work) :=
  let s1 := syncLoads s a
  match busLoad (getArr s1 a).loads with
  | none => (s1, none)
  | some l =>
    match (loadTargets s1 a).find? (isLoad l) with
    | some w => (s1, some (l, w.1.j, w.1.e, w.2, some w.1))
    | none =>
      let (j, t, n) := blockJob s1 (a / 4) l.key
      (s1, some (l, j, t, n, none))

/-- The next row of the load that has the bus, once its data has arrived; with the last row, a held Castle takes place (R44, R45). Without a
load a held Castle is looked at alone. -/
def loadOne (s : State) (a : Nat) (parityBad : Bool) (rs : RsResult) : State :=
  match currentLoad s a with
  | (s1, none) => heldCastle s1 a
  | (s1, some (l, j, t, n, w)) =>
    if l.preload && !preloadOk s1 (a / 4) l.key then dropPreload s1 a
    else if needsTsp j && (getArr s1 a).tsp.isEmpty then s1
    else if !rowHere s1 (a / 4) (loadOwner a l t) j t n l.nextRow then s1
    else if parityBad then (if l.preload then dropPreload s1 a else parityError s1 a l w)
    else heldCastle (writeShadow s1 a l j t n rs) a

/-- SHADOW_LOAD_ROW (R44, R17, R18). `parityBad`: the bank port detects a parity error on the row; `rs`: what the check
of the stored codewords finds (log 7). -/
def execShadowLoadRow (a : ArrId) (parityBad : Bool) (rs : RsResult) (s : State) : Host.Outcome State Fault Refusal :=
  .next (if arrayRuns s a.val then loadOne s a.val parityBad rs else s)

/-! ### ROW_BROADCAST -/

/-- One array cycle of the elastic links of a lane (R47 to R49): array cycles that each physical row has sent, rows taken by the
column trees, drain entries. A row of `beats` array cycles enters its queue with its last one; `here` says which activation rows
have been staged. A blocked drain with all 8 entries takes none. -/
def elastic (beats rows off : Nat) (here : Nat → Bool) (dry blocked : List Nat) (x : Lane) : List Nat × List Nat × List Nat :=
  let low := x.taken.foldl min rows
  let sent := ((List.range x.sent.length).zip x.sent).map (fun p =>
    let n := p.2 / beats
    if dry.contains (off + p.1) || rows ≤ n || low + 4 ≤ n || !here n then p.2 else p.2 + 1)
  let full := sent.foldl (fun m k => min m (k / beats)) rows
  let took := ((List.range x.taken.length).zip (x.taken.zip x.drain)).map (fun p =>
    decide (p.2.1 < full) && (decide (p.2.2 < 8) || !blocked.contains p.1))
  let taken := (x.taken.zip took).map (fun p => p.1 + b2n p.2)
  let drain := ((List.range x.drain.length).zip (x.drain.zip took)).map (fun p =>
    let occ := p.2.1 + b2n p.2.2
    if blocked.contains p.1 then occ else occ - 1)
  (sent, taken, drain)

/-- Which activation rows of a work the staging unit, or the lead, has ready: asked for, granted and arrived (R23, R26, R176, R184, R186). -/
def actHere (s : State) (a : Nat) (w : Work) (row : Nat) : Bool :=
  match w.role with
  | .follow => (linkRow s (a / 4) w.t w.t.passesDone row).isSome
  | _ => (!intoLink w || linkRoom s (a / 4) w.t) && windowHere s (a / 4) w.j w.e &&
      (if gathered w.j then thas (getArr s a).gather (gatherKey w.e.band row) else decide (row < (laneOf (getArr s a) w).asked)) &&
      actsHere s (a / 4) w row

/-- Physical rows without data: those named, with every row fed from the same 64 B line (R41). -/
def dryRows (w : Work) (l : Lane) (dry : List Nat) : List Nat :=
  let off := 64 * w.e.band
  let at_ (i : Nat) : Nat := l.sent.getD i 0 / rowCycles (jobMode w.j)
  let line (i : Nat) : Option Nat := rowLine w.j w.e (passOf w.j w.e.passesDone).1 (at_ i) i
  if dry.isEmpty || w.role == .follow || gathered w.j then dry
  else ((List.range w.e.bandRows).filter (fun i => dry.any (fun d => decide (off ≤ d) &&
    (d == off + i || (at_ (d - off) == at_ i && (line i).isSome && line i == line (d - off)))))).map (off + ·)

/-- z of the pass has been delivered, or the pass has no list entries (R126). -/
def zReady (ms : Mems) (w : Work) : Bool :=
  w.role == .follow || decide (w.e.passesDone < w.e.zPasses) || (subZ ms w.j w.e w.e.passesDone).isEmpty

/-- What one array cycle showed: a row that did not move though work is left, a row that moved, work, a wait for the gather buffer,
a full link buffer. -/
structure CycleSeen where
  still : Bool
  moved : Bool
  work : Bool
  wait : Bool
  full : Bool

/-- One array cycle of a lane: its links move, and rows that every tree has taken give their results. A wait for z blocks every
column's drain (R126). A row that leaves for the drain asks for the partial rows it is added to. -/
def laneCycle (s : State) (a : Nat) (w : Work) (dry blocked : List Nat) (upset : List (Nat × W32)) : State × CycleSeen :=
  let x := getArr s a
  let l := laneOf x w
  let beats := rowCycles (jobMode w.j)
  let rows := w.e.rows
  let shut := if zReady s.mems w then blocked else List.range 257
  let (sent, taken, drain) := elastic beats rows (64 * w.e.band) (actHere s a w) (dryRows w l dry) shut l
  let lo := l.taken.foldl min rows
  let hi := taken.foldl min rows
  let news := (List.range (hi - lo)).map (fun i => workRow s (a / 4) x.active w (lo + i) x.cycle upset)
  let s1 := setArr s a { setLane x w.e.band { l with sent := sent, taken := taken, drain := drain, results := l.results ++ news } with
    gather := x.gather.filter (fun e => decide (e.1 / 2 ^ 17 ≠ w.e.band ∨ hi ≤ e.1 % 2 ^ 17)) }
  (news.foldl (fun u q => askParts u (a / 4) w q.row) s1,
   { still := (l.sent.zip sent).any (fun p => p.1 == p.2 && decide (p.1 < rows * beats)),
     moved := (l.sent.zip sent).any (fun p => p.1 != p.2),
     work := l.sent.any (fun k => decide (k < rows * beats)),
     full := intoLink w && !linkRoom s (a / 4) w.t && l.sent.any (fun k => decide (k < rows * beats)),
     wait := gathered w.j && l.sent.any (fun k => decide (k < rows * beats) && !thas x.gather (gatherKey w.e.band (k / beats))) })

/-- What the cycles of two bands saw. -/
def CycleSeen.or (c d : CycleSeen) : CycleSeen :=
  { still := c.still || d.still, moved := c.moved || d.moved, work := c.work || d.work, wait := c.wait || d.wait, full := c.full || d.full }

/-- The cycle of each of some works. -/
def lanesCycle (s : State) (a : Nat) (dry blocked : List Nat) (upset : List (Nat × W32)) : List Work → State × CycleSeen
  | [] => (s, { still := false, moved := false, work := false, wait := false, full := false })
  | w :: ws =>
    let (s1, c) := laneCycle s a w dry blocked upset
    let (s2, d) := lanesCycle s1 a dry blocked upset ws
    (s2, c.or d)

/-- A band waits for a load that the transposer has no row for (R130). -/
def tspWaits (s : State) (a : Nat) : Bool :=
  let x := getArr s a
  x.tsp.isEmpty && (works s a).any (fun w => (laneOf x w.1).castleReq.isSome && needsTsp w.1.j && !loadDone x w.1)

/-- The counters of an array cycle: busy, with a row still, with no row at all, waiting on the gather or a full link buffer, or another
band on the transposer (R130, R402, R405). -/
def countCycle (s : State) (a : Nat) (seen : CycleSeen) : State :=
  let sb := addArrCnt s a 7 1
  let s1 := if tspWaits s a then addRgnCnt sb (a / 4) 9 1 else sb
  let s2 := if seen.still then addArrCnt s1 a 1 1 else s1
  let s3 := if seen.wait then addRgnCnt s2 (a / 4) 15 1 else s2
  let s4 := if seen.full then addArrCnt s3 a 6 1 else s3
  if seen.work && !seen.moved then addArrCnt s4 a 2 1 else s4

/-- One array cycle of every band that has a pass (R47, R49, R51). -/
def broadcast (s : State) (a : Nat) (dry blocked : List Nat) (upset : List (Nat × W32)) : State :=
  let x := getArr s a
  let on := (works s a).filter (fun w => passOn (laneOf x w.1))
  if on.isEmpty || delayDue x (x.cycle + 1) then s
  else
    let (s1, seen) := lanesCycle s a dry blocked upset ((on.filter (fun w => decide ((laneOf x w.1).castled ≤ x.cycle))).map (·.1))
    feedAhead (countCycle (setArr s1 a { getArr s1 a with cycle := x.cycle + 1 }) a seen) a

/-- ROW_BROADCAST (R42, R47 to R49): one array cycle. `dry`: physical rows whose data is not present; `blocked`: column drains
whose write is not granted, column 256 the check column; `upset`: bits that a fault flips in column sums (log 7). -/
def execRowBroadcast (a : ArrId) (dry blocked : List Nat) (upset : List (Nat × W32)) (s : State) : Host.Outcome State Fault Refusal :=
  .next (if arrayRuns s a.val then broadcast s a.val dry blocked upset else s)

/-! ### ROW_CHECK -/

/-- The pass starts again at row `row` from the unchanged active bank (R58, R298). -/
def rewindLane (w : Work) (row : Nat) (l : Lane) : Lane :=
  { l with results := l.results.filter (fun q => decide (q.row < row)),
           sent := List.replicate w.e.bandRows (row * rowCycles (jobMode w.j)), taken := List.replicate 257 row, drain := List.replicate 257 0,
           asked := row }

/-- The rows behind `row` are discarded and broadcast again, with `miss` more mismatches counted; the tile carries REPLAYED. -/
def rewind (s : State) (a : Nat) (w : Work) (row miss : Nat) : State :=
  let x := getArr s a
  let s1 := addCnt s 13 ((laneOf x w).results.filter (fun q => decide (row ≤ q.row))).length
  mapSub (setArr s1 a (setLane (getArr s1 a) w.e.band (rewindLane w row (laneOf x w)))) (a / 4) w.t
    (fun u => { u with misses := u.misses + miss, flags := u.flags ||| flReplayed })

/-- The sub-tile leaves its array, whose number it keeps until it is bound again, for another one (R58, R306). -/
def moveAway (s : State) (t : SubTile) : State :=
  match t.array with
  | none => s
  | some a =>
    let s1 := leaveArray s a (fun u => u == t)
    let x := getRgn s1 (a / 4)
    setRgn s1 (a / 4) { x with replayQ := x.replayQ ++ [leaveFlags t] }

/-- A check mismatch (R58): counted, logged, and the row replayed, the sub-tile moved, or the array fenced. -/
def mismatch (s : State) (a : Nat) (w : Work) (row : Nat) : State :=
  let s1 := logFault (addArrCnt s a 4 1) { flogBase s clsReplayable 1 0x07 a (a / 4) with ctx := BitVec.ofNat 12 w.t.ctx, ring := w.t.ring }
  let others := (liveArrays s (ceAffinity (getCtx s w.t.ctx).ent)).filter (· != a)
  let lost := ((laneOf (getArr s a) w).results.filter (fun q => decide (row ≤ q.row))).length
  let s2 := if w.t.misses == 1 && !others.isEmpty then moveAway (addCnt s1 13 lost) w.t else rewind s1 a w row 1
  countMiss s2 a

/-- The first of an array's works that `f` finds something for. -/
def findWork {α : Type} (s : State) (a : Nat) (f : Work → Lane → Option α) : Option (Work × α) :=
  (works s a).findSome? (fun w => (f w.1 (laneOf (getArr s a) w.1)).map (fun v => (w.1, v)))

/-- The row of a work draws hashes when it leaves: in the last pass of a tile whose output draws, or in every last pass of a lead
whose program does (R171, R206, R210). How many per element: DROPOUT and a stochastic rounding take one each. -/
def rowDraws (r : Nat) (w : Work) : Nat :=
  let j := w.tile r
  let drop (l : List Nat) : Nat := b2n (l.any (fun x => rfCode x == 8))
  let out := if dAccOut j.d != 0 then 0 else b2n (dRound j.d == 1) + drop (rfSteps (outProg j.d))
  match w.role with
  | .whole => if w.e.passesDone + 1 == w.e.passes then out else 0
  | .lead => if intoLink w then drop (rfSteps (prog1 j.d)) else 0
  | .follow => if w.t.passesDone + 1 == w.t.passes then out else 0

/-- The tag of a row's hash requests. -/
def rowTag (w : Work) (row : Nat) : Nat := 2 ^ 17 * w.e.band + row

/-- Hashes of a row of an array are still to come: its drain waits (R210). -/
def hashPending (s : State) (a tag : Nat) : Bool := (getRgn s (a / 4)).rngReqs.any (fun q => q.cls == 0 && q.unit == a && q.tag == tag)

def checkOne (s : State) (a : Nat) : State :=
  match findWork s a (fun _ l => l.results.find? (fun q => !q.accepted)) with
  | none => s
  | some (w, q) =>
    let x := getArr s a
    let l := laneOf x w
    let at_ := max x.cycle (q.cycle + 4)
    if delayDue x at_ then s
    else
      let s1 := setArr s a { x with cycle := at_ }
      let accept (s : State) : State :=
        let y := getArr s a
        askRng (setArr s a (setLane y w.e.band { l with results := l.results.map (fun y => if y.row == q.row then { y with accepted := true } else y) }))
          (a / 4) 0 a (rowTag w q.row) (rowDraws (a / 4) w * q.sums.length)
      match checkVerdict q with
      | none => accept (addArrCnt s1 a 5 1)
      | some true => accept s1
      | some false => mismatch s1 a w q.row

/-- ROW_CHECK (R56 to R58): the oldest unchecked row, in the fourth cycle after its broadcast. -/
def execRowCheck (a : ArrId) (s : State) : Host.Outcome State Fault Refusal :=
  .next (if arrayRuns s a.val then checkOne s a.val else s)

end Sys2Proof.Machine
end

