-- ==== Sys2Proof/Machine/Commit.lean ====
section
/-!
DEFINITION. The commit of a row (R42, R43, R92 to R106, R115), of a FUSED2 pass (R176 to R181), and of a speculation (R272); the
end of a sub-tile; the Castle command (R45); and skewed delivery (R46).
-/

namespace Sys2Proof.Machine

/-! ### Elements before and after a pass -/

/-- An element as pass `n` of a sub-tile finds it: its start value, or what the passes before have left (R98, R101); a wide value that
no spill has reached yet is rescaled as the passes of a softmax FUSED2 were (R179). -/
def elemBefore (s : State) (j : Job) (t : SubTile) (n i c : Nat) : ElemAcc :=
  let ms := s.mems
  if n == 0 then startElem ms j t.h (t.m0 + i) t.g c
  else
    let (p, spilled) := passesP ms j n
    let (sp, a) := partialAt s j t i
    let w : SVal :=
      if jobWide j == .none then .num numZero
      else if spilled then
        let tw := jent j (dWide j.d)
        readWide ms (tentSpace tw j.r) (jobWide j) (wideRow (jobWide j) tw.base (partialIdx j t.h t.g (t.m0 + i))) c
      else t.fuse.shifts.foldl (fun w l => rescaleWide (jobWide j) w (l.getD i 0)) (startElem ms j t.h (t.m0 + i) t.g c).w
    { pair := if dDet j.d || (p == 0 && spilled) then pairZero else readPair ms sp a c, w := w, fl := 0 }

/-- z of a column as it arrives: `zup` flips bits of the sums that the Side Path forms, from column 257 on (log 7). -/
def zFlip (isInt : Bool) (zup : List (Nat × W32)) (i : Nat) (z : Option Num) : Option Num :=
  let m := flips zup (257 + i)
  if m == 0 then z else z.map (fun v => sumNum isInt (sumCode isInt v ^^^ m))

/-- A row's elements after pass `n`: tile columns with their accumulators. `before` gives them as the pass finds them. -/
def elemsAfter (s : State) (j : Job) (t : SubTile) (n : Nat) (x : RowRes) (before : Nat → ElemAcc) (zup : List (Nat × W32) := []) :
    List (Nat × ElemAcc) :=
  let p := (passesP s.mems j n).1 + 1
  let zs := subZ s.mems j t n
  let m := dMorg j.d + t.m0 + x.row
  ((List.range x.sums.length).zip x.sums).map (fun y =>
    (256 * t.g + y.1, accElem (partInt j) j p (before y.1) (sumNum x.isInt y.2, x.cols.getD y.1 0)
      (zFlip x.isInt zup y.1 (zSum s.mems j t.h m (nFirst j + 256 * t.g + y.1) zs))))

def commitElems (s : State) (j : Job) (t : SubTile) (n : Nat) (x : RowRes) (zup : List (Nat × W32) := []) : List (Nat × ElemAcc) :=
  elemsAfter s j t n x (elemBefore s j t n x.row) zup

/-- The partials of a pass that is not the last: pairs but in a spill pass, wide values in one (R101, R112), and, behind a softmax
FUSED2's first, in every pass, which rescales them (R179). -/
def passWrites (s : State) (j : Job) (t : SubTile) (n i : Nat) (accs : List ElemAcc) : List MemWrite :=
  let (p, spilled) := passesP s.mems j n
  let spill := dDet j.d || (jobWide j != .none && spillPass (dSpillInt j.d) true (p + 1))
  let (sp, a) := partialAt s j t i
  (if spill then [] else pairWrites sp a 0 (accs.map (·.pair))) ++
  (if spill || (isSoft j && spilled) then
    let tw := jent j (dWide j.d)
    [wideWrite (tentSpace tw j.r) (jobWide j) (wideRow (jobWide j) tw.base (partialIdx j t.h t.g (t.m0 + i))) 0 (accs.map (·.w))]
  else [])

/-! ### The drain (R23, R26, R27, R46, R115) -/

/-- The lines of scratchpad that writes touch: region, address, bytes. -/
def spadPieces (ws : List MemWrite) : List (Nat × Nat × List Byte) :=
  ws.flatMap (fun w =>
    match w.sp with
    | .mem => []
    | .spad q => (linePieces (w.bytes.length + 1) w.addr w.bytes).map (fun p => (q, p.1, p.2)))

/-- A write of memory goes through the region's ports in a class of R27 (log 28); one past 2^57 is a translation fault of the sub-tile
(R3, R308). -/
def drainMem (s : State) (r c : Nat) (ring : W32) (cls : Nat) (w : MemWrite) (sub : Option (Nat × Nat) := none) : State :=
  match w.sp with
  | .spad _ => s
  | .mem =>
    if 2 ^ 57 < w.addr + w.bytes.length then xlateFail s c ring (max w.addr (2 ^ 57)) sub
    else
      let s1 := chargeWr { s with mems := wrBytes s.mems .mem w.addr w.bytes } c w.bytes.length
      (pieces512 (w.bytes.length / 512 + 2) w.addr w.bytes.length).foldl (fun u p =>
        queuePort u c ring r 1 0 cls p.1 ((w.bytes.drop (p.1 - w.addr)).take p.2) sub) s1

/-- The journal record that a sub-tile's commit leaves: region, entry and record (R301). -/
def recordOf (s : State) (r : Nat) (t : SubTile) : Option (Nat × Nat × List W64) :=
  match t.jent, subDesc s t with
  | some k, some d => some (r, k, subJournal t d)
  | _, _ => none

/-- A record goes behind the one that stands in an entry: it is of the same sub-tile, and its passes and its row mark are further. -/
def markFits (old new : List W64) : Bool :=
  let w (l : List W64) (i : Nat) : Nat := (l.getD i 0).toNat
  let mark (l : List W64) : Nat × Nat := (w l 2 % 2 ^ 16, w l 2 / 2 ^ 16)
  w old 0 % 2 ^ 16 == w new 0 % 2 ^ 16 && w old 0 / 2 ^ 32 == w new 0 / 2 ^ 32 && w old 1 % 2 ^ 30 == w new 1 % 2 ^ 30 &&
    decide ((mark old).1 < (mark new).1 ∨ ((mark old).1 = (mark new).1 ∧ (mark old).2 < (mark new).2))

/-- The row mark moves with the drain grant of the row's write-back (R43). -/
def putMark (s : State) (m : Option (Nat × Nat × List W64)) : State :=
  match m with
  | none => s
  | some (r, k, ws) =>
    if thas (getRgn s r).journal k &&
        markFits (journalRecord (tget { a := [], b := [], lostA := false, lostB := false } (getRgn s r).journal k)) ws then putJournal s r k ws else s

/-- Drain a sub-tile's writes: each line of scratchpad asks its bank in the drain class and is written by its grant (R23); the grant of the
last one frees the slot `frees` (R115) and moves the row mark `mark` (R43). -/
def drainFree (s : State) (r c : Nat) (ring : W32) (cls : Nat) (frees : Option SlotRef) (ws : List MemWrite)
    (sub : Option (Nat × Nat) := none) (mark : Option (Nat × Nat × List W64) := none) : State :=
  let s1 := ws.foldl (fun t w => drainMem t r c ring cls w sub) s
  let ps := spadPieces ws
  let s2 := ps.dropLast.foldl (fun u p => askBank u p.1 0 p.2.1 (.write p.2.2) (.desc c ring)) s1
  match ps.getLast? with
  | none => putMark (freeSlot s2 c frees) mark
  | some p => askBankFor s2 p.1 0 p.2.1 (.write p.2.2) (.desc c ring) (frees.map (fun f => (c, f))) mark

def drainWrites (s : State) (r c : Nat) (ring : W32) (cls : Nat) (ws : List MemWrite)
    (sub : Option (Nat × Nat) := none) (mark : Option (Nat × Nat × List W64) := none) : State := drainFree s r c ring cls none ws sub mark

/-- A row of final output leaves through the drain, or into the delay line of a skewed context's array, while the journal keeps native
timing (R46); the last row of the sub-tile frees its slot. -/
def sendOut (s : State) (r : Nat) (t : SubTile) (x : RowRes) (skew : Option Nat) (done : Bool) (ws : List MemWrite)
    (mark : Option (Nat × Nat × List W64) := none) : State :=
  let frees := if done then t.slot else none
  match skew with
  | none => drainFree s r t.ctx t.ring 0 frees ws (placeOf t) mark
  | some a =>
    if ws.isEmpty then putMark (freeSlot s t.ctx frees) mark
    else setArr (putMark s mark) a { getArr (putMark s mark) a with delay := (getArr (putMark s mark) a).delay ++
      [{ ctx := t.ctx, ring := t.ring, row := x.row, cycle := x.cycle, writes := ws, frees := frees }] }

/-! ### The end of a sub-tile and of its descriptor -/

/-- Skewed output rows of the descriptor are still in a delay line (R46). -/
def delayed (s : State) (c : Nat) (ring : W32) : Bool := s.arrs.any (fun e => e.2.delay.any (fun q => q.ctx == c && q.ring == ring))

/-- The descriptor is done once all its sub-tiles are, and its rows have been delivered: an acc_out buffer gets its
header, and the descriptor completes (R46, R99, R228); with ARRAYS_ABSENT where some sub-tiles found no array (R254). -/
def endTile (s : State) (c : Nat) (ring : W32) (r : Nat) : State :=
  match findAdm (getCtx s c) ring with
  | none => s
  | some d =>
    if d.result.isSome || d.total != some d.doneSubs || delayed s c ring then s
    else if d.absent then finish s c d (plainResult .arraysAbsent d.flags)
    else
      let j := jobOf d r
      let s1 := if dAccOut j.d == 0 then s
        else
          let t := jent j (dAccOut j.d)
          drainWrites s r c ring 1 [{ sp := tentSpace t j.r, addr := t.base, bytes := headBytes (outHead s.mems j (elemPasses j) d.flags (partialRows j)) }]
      finish s1 c d (plainResult .ok d.flags)

/-- Take a sub-tile off its array or Side Path. -/
def removeSub (s : State) (r : Nat) (t : SubTile) : State :=
  match t.array with
  | some a => leaveArray s a (fun u => u == t)
  | none => setRgn s r { getRgn s r with sideQ := (getRgn s r).sideQ.erase t }

/-- No other sub-tile of the chunk is left: every group has been emitted, and none of the others is still there. -/
def chunkDone (s : State) (j : Job) (t : SubTile) : Bool :=
  !(allSubs s).any (fun u => u != t && ofDesc t.ctx t.ring u && u.h == t.h && u.c == t.c) &&
  (findAdm (getCtx s t.ctx) t.ring).all (fun d => decide ((t.h * chunksOf j + t.c + 1) * groupsPerChunk j ≤ d.emitted))

/-- A chunk's windows leave with its last column group to complete (R187). -/
def dropWindows (s : State) (j : Job) (t : SubTile) : State :=
  if !chunkDone s j t then s
  else { s with rgns := tmap (fun _ x =>
    { x with windows := x.windows.filter (fun w => !(w.ctx == t.ctx && w.ring == t.ring && w.chunk == t.c && w.head == t.h)) }) s.rgns }

/-- Arrays that a sub-tile has taken from its binding on: a pair, for a FUSED2 sub-tile that did not run solo (R173). -/
def arraysOf (t : SubTile) : Nat := if t.fuse.paired then 2 else 1

/-- A sub-tile's last row has been committed (R302, R358): its journal entry is free, and a FUSED2 sub-tile that ran solo counts
(R173). -/
def endSub (s : State) (r : Nat) (j : Job) (t : SubTile) : State :=
  let s1 := removeSub (dropWindows s j t) r t
  let s2 := match t.jent with
    | some k => dropJournal s1 r k
    | none => s1
  let a := getAcct s2 t.ctx
  let s3 := match t.array with
    | some n =>
      let cycles := arraysOf t * (((getArr s2 n).cycle - t.entered) * t.bandRows / 256)
      setAcct s2 t.ctx { a with arrayCycles := a.arrayCycles + BitVec.ofNat 64 cycles }
    | none => s2
  let s4 := if dOpcode j.d == 2 && !t.fuse.paired && !t.side then addRgnCnt s3 r 11 1 else s3
  let s5 := setAdm s4 t.ctx t.ring (fun d => { d with doneSubs := d.doneSubs + 1, flags := d.flags ||| t.flags })
  endTile s5 t.ctx t.ring r

/-! ### Row statistics (R172) -/

/-- The key of a first product's statistics of W1 group `g`, beside those of column groups. -/
def leadKey (g : Nat) : Nat := 2 ^ 16 + g

/-- Statistics of a row under a key, in place of earlier ones. -/
def putStats (s : State) (t : SubTile) (i key : Nat) (vs : List Num) : State :=
  setAdm s t.ctx t.ring (fun d => { d with stats :=
    (t.h, t.m0 + i, key, vs.map fp32Code) :: d.stats.filter (fun q => !(q.1 == t.h && q.2.1 == t.m0 + i && q.2.2.1 == key)) })

/-- A row's statistics under keys `lo` to `lo + n - 1`, once all are there. -/
def rowStats (d : Adm) (t : SubTile) (i lo n : Nat) : Option (List (List Num)) :=
  let mine := d.stats.filter (fun q => q.1 == t.h && q.2.1 == t.m0 + i && decide (lo ≤ q.2.2.1 ∧ q.2.2.1 < lo + n))
  if mine.length < n then none
  else some ((List.range n).map (fun g => ((mine.find? (fun q => q.2.2.1 == lo + g)).map (fun q => q.2.2.2.map fp32Of)).getD []))

/-- Write a row's statistics, and forget them. -/
def writeStats (s : State) (r : Nat) (j : Job) (t : SubTile) (i : Nat) (vals : List Num) (f : TFlags) : State :=
  let m := t.m0 + i
  let s1 := setAdm s t.ctx t.ring (fun d => { d with stats := d.stats.filter (fun q => !(q.1 == t.h && q.2.1 == m)), flags := d.flags ||| f })
  drainWrites s1 r t.ctx t.ring 0 (statWrite j t.h m vals) (placeOf t)

/-- Keep a group's statistics, and write the row's vector element once every group has delivered its own. -/
def keepStats (s : State) (r : Nat) (j : Job) (t : SubTile) (i : Nat) (vs : List Num) : State :=
  if (jobStats j.d).isEmpty || dAccOut j.d != 0 then s
  else
    let s1 := putStats s t i t.g vs
    match (findAdm (getCtx s1 t.ctx) t.ring).bind (fun d => rowStats d t i 0 (tileGroups j)) with
    | none => s1
    | some per => writeStats s1 r j t i (combineStats (jobStats j.d) per).1 (combineStats (jobStats j.d) per).2

/-! ### Committing a row of a whole product -/

/-- Logical MACs of a committed row in pass `n` (R358). -/
def rowMacs (j : Job) (t : SubTile) (n : Nat) : Nat :=
  if (passOf j n).2 == 0 then subCols j t * (passRange j (passOf j n).1).length else 0

/-- The flags a pass's block and lists raise (R77, R125). -/
def blockFlags (ms : Mems) (j : Job) (t : SubTile) (n : Nat) : TFlags :=
  let (p, _) := passOf j n
  let zs := subZ ms j t n
  let n0 := subFirst j t
  flagIf (loadSat ms j t.h n0 (n0 + subCols j t) p) flSat ||| flagIf (zs.any (fun z => !z.tover)) flSpillUsed |||
    flagIf (zs.any (fun z => (bankCode ms j (wEnt j) (jobMode j).bank z.code z.chan).2)) flSat

/-- The sub-tile after a row's commit: the mark moves, and the pass ends with its last row (R43). -/
def afterRow (t : SubTile) (row : Nat) (f : TFlags) : SubTile :=
  if row + 1 < t.rows then { t with rowMark := row + 1, flags := t.flags ||| f }
  else { t with passesDone := t.passesDone + 1, rowMark := 0, misses := 0, flags := t.flags ||| f }

/-- Charge committed MACs and passes to a context (R358). -/
def chargeCommit (s : State) (c macs passes : Nat) : State :=
  let a := getAcct s c
  setAcct s c { a with macOps := a.macOps + BitVec.ofNat 64 macs, passes := a.passes + BitVec.ofNat 64 passes }

/-- Memory with the writes that still wait for their bank, or in a delay line: what MGRAD adds a row's codes to (R132). -/
def pendMems (s : State) : Mems :=
  let asked := s.rgns.flatMap (fun e => e.2.bankReqs.filterMap (fun q =>
    match q.act with
    | .write bs => some { sp := Space.spad e.1, addr := q.addr, bytes := bs : MemWrite }
    | _ => none))
  (asked ++ s.arrs.flatMap (fun e => e.2.delay.flatMap (·.writes))).foldl (fun m w => wrBytes m w.sp w.addr w.bytes) s.mems

/-- What the commit of a row of a sub-tile puts out (R94 to R106): behind the last pass its output or its partial buffers, else the
partials of the pass. -/
def rowOut (s : State) (j : Job) (t : SubTile) (x : RowRes) (zup : List (Nat × W32) := []) : RowOut :=
  let accs := commitElems s j t t.passesDone x zup
  if t.passesDone + 1 == t.passes then
    finishRow (if dOpcode j.d == 5 then pendMems s else s.mems) j t.h (t.m0 + x.row) t.g (passesP s.mems j t.passes).2 accs
  else { writes := passWrites s j t t.passesDone x.row (accs.map (·.2)), flags := accs.foldl (fun f a => f ||| a.2.fl) 0, stats := [] }

/-- Commit a checked row of a sub-tile in region `r` (R42, R43, R94 to R106). With `skew` the output goes into an
array's delay line instead. -/
def commitRow (s : State) (r : Nat) (j : Job) (t : SubTile) (x : RowRes) (skew : Option Nat) (zup : List (Nat × W32) := []) : State :=
  let n := t.passesDone
  let last := n + 1 == t.passes
  let done := !decide (x.row + 1 < t.rows)
  let out := rowOut s j t x zup
  let f := out.flags ||| (if done then blockFlags s.mems j t n else 0)
  -- behind a last pass that drains, one wide row per row whose sub-tile has spilled is the only partial (R106)
  let nParts := if last && dAccOut j.d == 0 then
      (partWrites j t.h (t.m0 + x.row) t.g (passesP s.mems j t.passes).2 ((commitElems s j t n x zup).map (·.2))).length
    else out.writes.length
  let u := afterRow t x.row f
  let mark := recordOf s r u
  let s1 := drainWrites (mapSub s r t (fun _ => u)) r t.ctx t.ring 1 (out.writes.take nParts) (placeOf t) (if last then none else mark)
  let s2 := if last then sendOut s1 r t x skew done (out.writes.drop nParts) mark else s1
  let s3 := chargeCommit s2 t.ctx (rowMacs j t n) (b2n done)
  let s4 := if last then keepStats s3 r j u x.row out.stats else s3
  if last && done then endSub s4 r j u else s4

/-! ### FUSED2 (R176 to R181) -/

/-- An element as it is held between its steps, and back. -/
def keepElem (f : WideFmt) (a : ElemAcc) : PElem := { pair := a.pair, wide := wideValCode f a.w, fl := a.fl }
def keptElem (f : WideFmt) (p : PElem) : ElemAcc := { pair := p.pair, w := wideValOf f p.wide, fl := p.fl }

/-- A row's softmax state as its codes, and back (R181). -/
def softCode (x : SoftRow) : W32 × W32 := (fp32Code x.m, fp32Code x.l)
def softOf (x : W32 × W32) : SoftRow := { m := fp32Of x.1, l := fp32Of x.2 }

/-- The row state before the lead's group: the operand's, or what the group before has left (R178, R181). -/
def leadSoft (ms : Mems) (j : Job) (t : SubTile) (row : Nat) : SoftRow :=
  if t.fuse.leadG == 0 then readSoft ms j (t.m0 + row) else softOf (t.fuse.now.getD row (0, 0))

/-- The sub-tile behind a row of the lead: its pass goes on, or ends. -/
def afterLead (j : Job) (row : Nat) (f : TFlags) (t : SubTile) : SubTile :=
  let u := { t with fuse := { t.fuse with flags := t.fuse.flags ||| f } }
  if row + 1 < t.rows then { u with fuse := { u.fuse with leadRow := row + 1 } } else { fuseStep j u false with misses := 0 }

/-- A checked row of the lead: its elements go on, or, behind the group's last pass, the row of the intermediate goes into the
link buffer (R173, R175, R176, R178). -/
def leadCommit (s : State) (r : Nat) (w : Work) (x : RowRes) (zup : List (Nat × W32) := []) : State :=
  let j := w.tile r
  let (t, e, lj) := (w.t, w.e, w.j)
  let n := e.passesDone
  let accs := elemsAfter s lj e n x (fun c =>
    if n == 0 then startElem s.mems lj t.h (t.m0 + x.row) e.g c
    else keptElem (jobWide lj) ((tget [] t.fuse.part x.row).getD c { pair := pairZero, wide := 0, fl := 0 })) zup
  let f : TFlags := (if x.row + 1 < t.rows then 0 else blockFlags s.mems lj e n)
  if intoLink w then
    let out := leadOut s.mems j t.h (t.m0 + x.row) (leadSoft s.mems j t x.row) accs
    let u := afterLead j x.row (f ||| out.flags) { t with fuse := { t.fuse with
      part := tdrop t.fuse.part x.row, now := setPad (0, 0) t.fuse.now x.row (softCode out.soft) } }
    let s1 := linkPut s r t { row := x.row, codes := out.codes, shift := out.shift, soft := softCode out.soft }
    let s2 := mapSub s1 r t (fun _ => u)
    if (statKinds (prog1 j.d)).isEmpty then s2 else putStats s2 t x.row (leadKey e.g) out.stats
  else
    mapSub s r t (fun _ => afterLead j x.row f { t with fuse := { t.fuse with part := tset t.fuse.part x.row (accs.map (fun a => keepElem (jobWide lj) a.2)) } })

/-- The elements of a row and W2 group that a pass of the second product holds until it is committed. -/
def pendElems (j : Job) (t : SubTile) (g row : Nat) : List (Nat × ElemAcc) :=
  let l := tget [] t.fuse.pend (g * t.rows + row)
  ((List.range l.length).zip l).map (fun p => (256 * g + p.1, keptElem (jobWide j) p.2))

/-- What the commit of a pass of the second product writes for a row (R99, R177, R181): the partials of every W2 group, and behind the
last pass the row state. -/
def fusedWrites (s : State) (j : Job) (t : SubTile) (last : Bool) (row : Nat) (soft : SoftRow) : List MemWrite :=
  (List.range (tileGroups j)).flatMap (fun g =>
    let accs := (pendElems j t g row).map (·.2)
    if last then partWrites j t.h (t.m0 + row) g ((passesP s.mems j t.passes).2 || dAccOut j.d != 0) accs
    else passWrites s j { t with g := g } t.passesDone row accs) ++
  (if last then softWrite j (t.m0 + row) soft else [])

/-- The commit of a pass of the second product (R177): partials and row state of the whole chunk; the half that fed it is free. -/
def fusedCommit (s : State) (r : Nat) (j : Job) (t : SubTile) : State :=
  let g1 := t.passesDone
  let last := g1 + 1 == t.passes
  let soft := (List.range t.rows).map (fun i => ((linkRow s r t g1 i).map (·.soft)).getD (0, 0))
  let ws := (List.range t.rows).flatMap (fun i => fusedWrites s j t last i (softOf (soft.getD i (0, 0))))
  let u := { fuseStep j t true with
    misses := 0, flags := t.flags ||| t.fuse.flags,
    fuse := { (fuseStep j t true).fuse with
      soft := soft, pend := [], flags := 0,
      shifts := t.fuse.shifts ++ [(List.range t.rows).map (fun i => ((linkRow s r t g1 i).map (·.shift)).getD 0)] } }
  let cols := min 256 (n1Of j - 256 * g1)
  let s1 := drainWrites (mapSub (linkFree s r t g1) r t (fun _ => u)) r t.ctx t.ring 1 ws (placeOf t) (recordOf s r u)
  let s2 := chargeCommit s1 t.ctx (t.rows * cols * (dKt j.d + dNt j.d)) 1
  if last then endSub s2 r j u else s2

/-- The statistics of a FUSED2 row behind its last pass: the first product's, then the second's (R172). -/
def fusedStats (s : State) (r : Nat) (j : Job) (t : SubTile) (row g : Nat) (vs : List Num) : State :=
  if (jobStats j.d).isEmpty then s
  else
    let s1 := putStats s t row g vs
    match findAdm (getCtx s1 t.ctx) t.ring with
    | none => s1
    | some d =>
      let lead := if (statKinds (prog1 j.d)).isEmpty then [] else (rowStats d t row (leadKey 0) t.passes).getD []
      match rowStats d t row 0 (tileGroups j) with
      | none => s1
      | some per =>
        let (v1, f1) := combineStats (statKinds (prog1 j.d)) lead
        let (v2, f2) := combineStats (statKinds (prog2 j.d)) per
        writeStats s1 r j t row (v1 ++ v2) (f1 ||| f2)

/-- A checked row of the follower in pass g1 and W2 group g2 (R176, R179): its elements wait for the pass's commit; behind the last
pass its output leaves (R180). -/
def followCommit (s : State) (r : Nat) (w : Work) (x : RowRes) (skew : Option Nat) : State :=
  let j := w.tile r
  let (t, e) := (w.t, w.e)
  let g1 := t.passesDone
  let last := g1 + 1 == t.passes
  let done := !decide (x.row + 1 < t.rows)
  let (shift, soft) := match linkRow s r t g1 x.row with
    | some q => (q.shift, softOf q.soft)
    | none => (0, { m := .inf true, l := numZero })
  let p := (passesP s.mems j g1).1 + 1
  let accs := ((List.range x.sums.length).zip x.sums).map (fun y =>
    (256 * e.g + y.1, followElem j g1 p shift (elemBefore s j e g1 x.row y.1) (sumNum x.isInt y.2, x.cols.getD y.1 0)))
  let fin := accs.map (fun a => (a.1, elemFinal false j a.2))
  let out : RowOut :=
    if last && dAccOut j.d == 0 then fusedDrain s.mems j t.h (t.m0 + x.row) e.g soft (fin.map (fun y => (y.1, y.2.1)))
    else { writes := [], flags := 0, stats := [] }
  let fe := accs.foldl (fun f a => f ||| (if last then elemFlags false a.2 else a.2.fl)) out.flags
  let ff := if last && dAccOut j.d == 0 then fin.foldl (fun f y => f ||| y.2.2) fe else fe
  let f := ff ||| (if done then blockFlags s.mems w.j e g1 else 0)
  let s1 := if last && dAccOut j.d == 0 then sendOut s r t x skew (done && e.g + 1 == tileGroups j) out.writes else s
  let s2 := if last then fusedStats s1 r j t x.row e.g out.stats else s1
  let u := { t with fuse := { t.fuse with
    flags := t.fuse.flags ||| f,
    pend := tset t.fuse.pend (e.g * t.rows + x.row) (accs.map (fun a => keepElem (jobWide j) a.2)) } }
  if !done then mapSub s2 r t (fun _ => { u with fuse := { u.fuse with followRow := x.row + 1 } })
  else if e.g + 1 < tileGroups j then mapSub s2 r t (fun _ => fuseStep j u true)
  else fusedCommit (mapSub s2 r t (fun _ => u)) r j u

/-- Commit a checked row of a work. -/
def commitWork (s : State) (r : Nat) (w : Work) (x : RowRes) (skew : Option Nat) (zup : List (Nat × W32) := []) : State :=
  match w.role with
  | .whole => commitRow s r w.j w.t x skew zup
  | .lead => leadCommit s r w x zup
  | .follow => followCommit s r w x skew

/-! ### Speculation's commit (R272) -/

/-- Write the buffer's partials into the sub-tile's slot; its passes count as committed (R272). -/
def specCommit (s : State) (a : Nat) (j : Job) (t : SubTile) (b : SpecBuf) : State :=
  let r := a / 4
  let rows := (List.range b.pairs.length).zip b.pairs
  let s1 := rows.foldl (fun u p =>
    let (sp, addr) := partialAt u j t p.1
    drainWrites u r t.ctx t.ring 1 (pairWrites sp addr 0 p.2) (placeOf t)) s
  let u := { t with passesDone := b.passes, rowMark := 0, flags := t.flags ||| b.flags }
  let macs := (List.range b.passes).foldl (fun n i => n + rowMacs j t i * t.rows) 0
  let s2 := journalSub (mapSub (chargeCommit s1 t.ctx macs b.passes) r t (fun _ => u)) r u
  addCnt (setArr s2 a { getArr s2 a with spec := none }) 6 1

/-! ### PASS_CASTLE -/

/-- A band or array between two passes: a confirmed speculation to be committed, a Castle that may take place, or one that has to
wait. -/
def boundary (s : State) (a : Nat) (f : Work → Bool) : Option Work := ((works s a).find? (fun w => !passOn (laneOf (getArr s a) w.1) && f w.1)).map (·.1)

/-- At a pass boundary: commit a confirmed speculation, or discard one whose buffer has an uncorrectable error (R273), or swap the
banks, or wait (R15, R45, R176, R272). -/
def castleStep (s : State) (a : Nat) (rs : RsResult) : State :=
  let x := getArr s a
  match boundary s a (fun w => (specOf x w.t).isSome && castleOpen s a w) with
  | some w =>
    (match specOf x w.t with
     | some b =>
       if rs == .uncorrectable then addCnt (setArr s a { x with spec := none }) 7 1
       else historyUpdate (specCommit s a w.j w.t b) a (keyOf w.j w.t 0)
     | none => s)
  | none =>
    match boundary s a (fun w => castleOpen s a w && loadDone x w) with
    | some w => castleDo s a w rs
    | none =>
      match boundary s a (fun w => slotReady w.t w.d && !delayDue x (castleCycle x w + 1) && !(getCtx s w.t.ctx).aborting && stagedHere s (a / 4) w) with
      | some w => castleWait s a w rs
      | none => s

/-- PASS_CASTLE (R15, R16, R45). `rs` is what the check of the bank that becomes active finds, or of the speculative buffer that is
committed (log 7). -/
def execPassCastle (a : ArrId) (rs : RsResult) (s : State) : Host.Outcome State Fault Refusal :=
  .next (if arrayRuns s a.val then castleStep s a.val rs else s)

/-! ### Uncorrectable errors in an array's buffers (R298) -/

/-- The report of an uncorrectable error in a buffer of an array or a Side Path (R298, R324). -/
def bufferReport (s : State) (kind : BitVec 4) (unit rgn c : Nat) (ring : W32) : State :=
  logFault s { flogBase s clsReplayable kind 0x11 unit rgn with ctx := BitVec.ofNat 12 c, ring := ring }

/-- A drain, gather or partial-row buffer lost a row: rows after the journal row mark are discarded, and the pass is replayed
from the mark on the same array (R298). -/
def bufferLoss (s : State) (a : Nat) (w : Work) : State :=
  let s1 := rewind (bufferReport s 1 a (a / 4) w.t.ctx w.t.ring) a w w.e.rowMark 0
  setArr s1 a { getArr s1 a with gather := (getArr s1 a).gather.filter (fun e => e.1 / 2 ^ 17 != w.e.band) }

/-- The running lanes of a FUSED2 sub-tile are given up on an array. -/
def clearLane (s : State) (a : Nat) : State :=
  let x := getArr s a
  setArr s a { x with lanes := tdrop x.lanes 0, loads := x.loads.filter (·.preload) }

/-- The intermediate is lost (R177, R298): the sub-tile resumes at the W1 group behind its last committed pass. -/
def fusedResume (s : State) (r : Nat) (t : SubTile) : State :=
  let f := { (fuseResume t).fuse with paired := t.fuse.paired }
  let s1 := mapSub s r t (fun u => { u with fuse := f, flags := u.flags ||| flReplayed })
  let s2 := setLink s1 r t ((linkHalves s1 r t).filter (fun q => !linkOf t q))
  match t.array with
  | none => s2
  | some a => if t.fuse.paired then clearLane (clearLane s2 a) (a + 1) else clearLane s2 a

/-- An uncorrectable error that a commit finds: in the follower, of the link buffer its row came from (R177, R298); else of the drain
buffers, which fences an array in band mode (R54). -/
def drainLoss (s : State) (a : Nat) (w : Work) : State :=
  if w.role == .follow then fusedResume (bufferReport s 1 a (a / 4) w.t.ctx w.t.ring) (a / 4) w.t
  else if w.e.bandRows != 256 then fenceUnit (bufferReport s 1 a (a / 4) w.t.ctx w.t.ring) .array a
  else bufferLoss s a w

/-! ### ROW_COMMIT -/

/-- Every column's drain has released the row (R47). -/
def released (l : Lane) (row : Nat) : Bool := (l.taken.zip l.drain).all (fun p => decide (row < p.1 - p.2))

/-- Writes of a partial row still wait for their grants, or for their acknowledgement (R25). -/
def partialPending (s : State) (r : Nat) (w : Work) (row : Nat) : Bool :=
  (workParts s r w row).any (fun x =>
    match x.1 with
    | .mem =>
      let hit (q : PortReq) : Bool := q.op == 1 && decide (q.addr < x.2.1 + x.2.2 ∧ x.2.1 < q.addr + q.len)
      s.mp.any (fun e => e.2.wrQ.any hit || e.2.wrOut.any (fun q => hit q.2))
    | .spad q => (getRgn s q).bankReqs.any (fun b =>
        match b.act with
        | .write bs => decide (b.addr < x.2.1 + x.2.2 ∧ x.2.1 < b.addr + bs.length)
        | _ => false))

/-- The next row of a work that can be committed (R23, R42, R43, R115, R126, R210). DESIGN CHOICE (log 46): R214 leaves open what becomes of a
sub-tile that is bound when its region's last RNG lane retires; its rows go on waiting for their hashes. -/
def commitReady (s : State) (a : Nat) (w : Work) (l : Lane) : Option RowRes :=
  l.results.head?.filter (fun q => q.accepted && q.row == w.e.rowMark && released l q.row && slotReady w.t w.d && zReady s.mems w &&
    !hashPending s a (rowTag w q.row) && !partialPending s (a / 4) w q.row && partsHere s (a / 4) w q.row &&
    !delayDue (getArr s a) (max (getArr s a).cycle (q.cycle + 5)))

/-- A lane behind its pass's last row: it waits for a Castle, or goes on with the pass that runs on the same bank (R90), unless its context
is being aborted (R375). -/
def laneAfter (w : Work) (cycle : Nat) (stop : Bool) (l : Lane) : Lane :=
  if !stop && w.role != .follow && sameBank w.j (w.e.passesDone + 1) && decide (w.e.passesDone + 1 < w.e.passes) then
    { startLane { w with e := { w.e with rowMark := 0 } } (cycle + 1) with castled := l.castled }
  else { Lane.init with castled := l.castled }

/-- The array behind the commit of a lane's oldest row, in array cycle `at_`. -/
def afterCommit (x : ArrayS) (w : Work) (q : RowRes) (at_ : Nat) (stop : Bool) : ArrayS :=
  let l := laneOf x w
  if q.row + 1 < w.e.rows then setLane { x with cycle := at_ } w.e.band { l with results := l.results.drop 1 }
  else setLane { x with cycle := at_, gather := x.gather.filter (fun e => e.1 / 2 ^ 17 != w.e.band) } w.e.band (laneAfter w at_ stop l)

/-- The output of a skewed context goes into the array's delay line in its last pass (R46). -/
def skewOf (s : State) (a : Nat) (w : Work) : Option Nat :=
  if ceSkewed (getCtx s w.t.ctx).ent && w.role != .lead && w.t.passesDone + 1 == w.t.passes && dAccOut w.j.d == 0 then some a else none

def commitOne (s : State) (a : Nat) (rs : RsResult) : State :=
  match findWork s a (commitReady s a) with
  | none => s
  | some (w, q) =>
    if rs == .uncorrectable then drainLoss s a w
    else
      let x := getArr s a
      let s1 := commitWork (setArr s a (afterCommit x w q (max x.cycle (q.cycle + 5)) (getCtx s w.t.ctx).aborting)) (a / 4) w q (skewOf s a w)
      if q.row + 1 < w.e.rows then s1 else feedAhead (passEnded s1 w.t.ctx) a

/-- ROW_COMMIT (R42, R43, R298): the oldest accepted row is written back. `odd` is a region-control copy that disagrees on the
update (R28); `rs` is what the check of the drain buffers, or of a follower's link buffer, finds (log 7). -/
def execRowCommit (a : ArrId) (odd : Option (Fin 3)) (rs : RsResult) (s : State) : Host.Outcome State Fault Refusal :=
  .next (if arrayRuns s a.val then
      (let t := regionVote s (a.val / 4) odd
       if arrayRuns t a.val then commitOne t a.val rs else t)
    else s)

/-! ### SKEWED_DELIVERY -/

/-- An uncorrectable error in the delay line (R298): the pass that its descriptor runs on the array is replayed from the mark. -/
def delayLoss (s : State) (a : Nat) (q : DelayRow) : State :=
  match (works s a).find? (fun w => passOn (laneOf (getArr s a) w.1) && ofDesc q.ctx q.ring w.1.t) with
  | some w => bufferLoss s a w.1
  | none => bufferReport s 1 a (a / 4) q.ctx q.ring

/-- The oldest row of the delay line is delivered 512 cycles after its broadcast (R46). -/
def deliver (s : State) (a : Nat) (rs : RsResult) : State :=
  match (getArr s a).delay with
  | [] => s
  | q :: rest =>
    let s1 := if rs == .uncorrectable then delayLoss s a q else s
    let x := getArr s1 a
    let s2 := setArr s1 a { x with delay := rest, cycle := max x.cycle (q.cycle + 512) }
    endTile (drainFree s2 (a / 4) q.ctx q.ring 0 q.frees q.writes) q.ctx q.ring (a / 4)

/-- SKEWED_DELIVERY (R46, R298): rows that have been committed are delivered from an array that leaves service too. `rs` is what
the check of the delay line finds (log 7). -/
def execSkewedDelivery (a : ArrId) (rs : RsResult) (s : State) : Host.Outcome State Fault Refusal :=
  .next (if !s.boot.off && (s.boot.pstate == 0 || s.boot.pstate == 1) then deliver s a.val rs else s)

end Sys2Proof.Machine
end

