-- ==== Sys2Proof/Machine/Grants.lean ====
section
/-!
DEFINITION. The arbiters: scratchpad banks with their codes and spares (R21, R23, R24, R29, R297 to R300), memory ports (R26, R27,
R331, R332), and the RNG units with their lanes (R209, R210, R214).
-/

namespace Sys2Proof.Machine

/-! ### Class order and aging (R23, R24) -/

/-- One request goes before another: an aged one first, the longer waiting of two aged ones, then the class (R23, R24). DESIGN
CHOICE (log 44): of two of one class, neither aged, neither goes before the other, and `bestOf` takes the one that arrived first. -/
def goesBefore (now : Nat) (a b : Nat × Nat) : Bool :=
  let oldA := decide (a.2 + 1024 ≤ now)
  let oldB := decide (b.2 + 1024 ≤ now)
  if oldA && oldB then decide (a.2 < b.2 ∨ (a.2 = b.2 ∧ a.1 < b.1))
  else if oldA then true
  else if oldB then false
  else decide (a.1 < b.1)

/-- The request that is granted: the first that no other goes before. -/
def bestOf {α : Type} (now : Nat) (rank : α → Nat × Nat) : List α → Option α
  | [] => none
  | x :: xs =>
    match bestOf now rank xs with
    | none => some x
    | some y => if goesBefore now (rank y) (rank x) then some y else some x

/-! ### Restarting a sub-tile (R29, R307) -/

/-- The sub-tiles at work with the region that holds them: bound to its arrays, routed to its Side Path, or about to be bound
again. -/
def placed (s : State) : List (Nat × SubTile) :=
  s.arrs.flatMap (fun e => e.2.bound.map (fun t => (e.1 / 4, t))) ++ s.rgns.flatMap (fun e => (e.2.sideQ ++ e.2.replayQ).map (fun t => (e.1, t)))

/-- A sub-tile that restarts has its descriptor read again from the ring first (R29, R307). -/
def rereadSlot (s : State) (r : Nat) (t : SubTile) : State :=
  let x := getRgn s r
  let a := slotAddr (getCtx s t.ctx).ent t.ring
  let f (l : List SubTile) : List SubTile := l.map (fun u => if u == t then { u with reread := false } else u)
  match memAccess s t.ctx a 64 with
  | .xlate f => xlateFail s t.ctx t.ring f (placeOf t)
  | .poison f => poisonFail s r t.ctx t.ring f
  | .ok => askSlot (setRgn s r { x with replayQ := f x.replayQ, sideQ := f x.sideQ }) t.ctx t.ring

/-- A sub-tile that waits to be bound again restarts. -/
def restartQueued (s : State) (r : Nat) (t : SubTile) : State :=
  let x := getRgn s r
  setRgn s r { x with replayQ := x.replayQ.map (fun u => if u == t then restartSub t else u) }

/-- A bound sub-tile leaves its array, in band mode as a fault of its band (R54); it is as `leaveFlags` makes it, or as it was. -/
def leaveForRestart (s : State) (r a : Nat) (t : SubTile) : State × SubTile :=
  if t.bandRows != 256 && (seated (getArr s a).bound).contains t then (fenceBand s a t, leaveFlags { t with array := none })
  else
    let u := { t with array := none }
    let s1 := leaveArray s a (fun v => v == t)
    (setRgn s1 r { getRgn s1 r with replayQ := (getRgn s1 r).replayQ ++ [u] }, u)

/-- A sub-tile restarts from its first pass, its slot and journal entry freed (R29, R307): off its array, where it waits to be bound
again, or from the start on its Side Path. -/
def restartOne (s : State) (r : Nat) (t : SubTile) : State :=
  let s1 := freeSlot s t.ctx t.slot
  if (getRgn s r).sideQ.contains t then mapSub s1 r t (fun u => { restartSub u with jent := u.jent })
  else
    let s2 := match t.jent with
      | some k => dropJournal s1 r k
      | none => s1
    match t.array with
    | some a =>
      if (getArr s a).bound.contains t then
        let (s3, u) := leaveForRestart s2 r a t
        restartQueued s3 r u
      else restartQueued s2 r t
    | none => restartQueued s2 r t

/-! ### What an uncorrectable error hits (R29, R300) -/

/-- Partials that region `r` holds of a sub-tile that region `q` runs, as ranges of scratchpad: its slot, or the buffers in which
its descriptor accumulates. -/
def partialRanges (s : State) (r q : Nat) (t : SubTile) : List (Nat × Nat) :=
  match subDesc s t with
  | none => []
  | some d =>
    let j := jobOf d q
    let slot := match t.slot with
      | some sl => if !sl.backed && sl.region == r then [((slotBase s t.ctx sl).2, 64 + 1536 * ceAccRows (getCtx s t.ctx).ent)] else []
      | none => []
    let buf (i n : Nat) : List (Nat × Nat) :=
      if i == 0 then []
      else
        let e := jent j i
        if tentSpace e j.r == .spad r then [(e.base, n)] else []
    slot ++ buf (dAccOut j.d) (64 + 1536 * partialRows j) ++ buf (dWide j.d) (256 * wideBytes (jobWide j) * partialRows j)

def inRange (a : Nat) (x : Nat × Nat) : Bool := decide (x.1 ≤ a ∧ a < x.1 + x.2)

/-- Both copies of a journal record are lost (R29, R307): the sub-tile it describes restarts; a remote operation that had been issued ends
with UNRECOVERABLE, and one that had not is issued later, with its record written again. -/
def journalGone (s : State) (r k : Nat) : State :=
  let e := (tget { a := [], b := [], lostA := false, lostB := false } (getRgn s r).journal k).a
  let w := (e.getD 0 0).toNat
  let s1 := logFault s { flogBase s clsReplayable 6 0x0A 0 r with
    ctx := BitVec.ofNat 12 (bits w 15 4), ring := BitVec.ofNat 32 (bits w 63 32), addr := BitVec.ofNat 64 (0x02FE0000 + 128 * k) }
  if bits w 3 1 == 1 then
    (if (e.getD 1 0).getLsbD 0 then dropJournal (endDesc s1 (bits w 15 4) (BitVec.ofNat 32 (bits w 63 32)) .unrecoverable) r k
     else putJournal s1 r k e)
  else
    match (placed s).find? (fun x => x.1 == r && x.2.jent == some k) with
    | some x => restartOne s1 r x.2
    | none => dropJournal s1 r k

/-- One copy of a journal record is unreadable (R300): it is rewritten from the other, unless that is lost too. -/
def journalLost (s : State) (r k : Nat) (second : Bool) : State :=
  let x := getRgn s r
  if !thas x.journal k then s
  else
    let e := tget { a := [], b := [], lostA := false, lostB := false } x.journal k
    let f := if second then { e with lostB := true } else { e with lostA := true }
    if f.lostA && f.lostB then journalGone (setRgn s r { x with journal := tset x.journal k f }) r k
    else
      let good := if second then e.a else e.b
      let s1 := setRgn s r { x with journal := tset x.journal k { a := good, b := good, lostA := false, lostB := false } }
      logFault (addRgnCnt s1 r 3 1) { flogBase s clsReplayable 6 0x09 0 r with addr := BitVec.ofNat 64 (0x02FE0000 + 128 * k) }

/-- A residency copy is lost (R29): it is invalidated, and fetched again for a tile that is in flight with it. -/
def copyLost (s : State) (r : Nat) (y : ResCopy) : State :=
  match (getCtx s y.ctx).admitted.find? (usesCopy y) with
  | none => setRgn s r { getRgn s r with resid := (getRgn s r).resid.erase y }
  | some d =>
    let j := jobOf d r
    let x := getRgn s r
    fetchCopy (setRgn s r { x with resid := x.resid.map (fun z => if z == y then { z with ring := d.ring } else z) })
      y.ctx d.ring r (if dW j.d == y.tensor then j else followJob j)

/-- The copies and windows that a test of ranges hits are lost. The windows lie behind the copies (log 45). -/
def areaLost (s : State) (r : Nat) (hit : Nat × Nat → Bool) : State :=
  let x := getRgn s r
  let s1 := (x.resid.filter (fun y => hit (copyAt s r y.ctx y.tensor y.gen, y.bytes))).foldl (fun u y => copyLost u r y) s
  setRgn s1 r { getRgn s1 r with windows := x.windows.filter (fun w => !hit (windowBase s r w, w.bytes)) }

/-- Sub-tiles whose partials a test of ranges hits restart (R29). -/
def partialsLost (s : State) (r : Nat) (hit : Nat × Nat → Bool) : State :=
  ((placed s).filter (fun x => (partialRanges s r x.1 x.2).any hit)).foldl (fun u x => restartOne u x.1 x.2) s

/-- Contents at an address are lost (R29): a journal copy, a residency copy or a window, or partials. -/
def contentsLost (s : State) (r a : Nat) : State :=
  if decide (0x02FE0000 ≤ a) then journalLost s r ((a - 0x02FE0000) / 128) (decide (64 ≤ a % 128))
  else partialsLost (areaLost s r (inRange a)) r (inRange a)

/-! ### Banks -/

def bankOf (a : Nat) : Nat := a / 64 % 512

/-- A range has a line in a bank (R21). -/
def touchesBank (b : Nat) (x : Nat × Nat) : Bool := decide ((b + 512 - x.1 / 64 % 512) % 512 ≤ (x.1 + x.2 - 1) / 64 - x.1 / 64) && x.2 != 0

/-- A bank's former contents are handled as lost (R29): residency copies and windows in it, sub-tiles with partials in it,
and journal copies in it, which are rewritten from the others. -/
def bankLost (s : State) (r b : Nat) : State :=
  ((getRgn s r).journal.map (·.1)).foldl (fun u k =>
    let a := 0x02FE0000 + 128 * k
    if bankOf a == b then journalLost u r k false else if bankOf (a + 64) == b then journalLost u r k true else u)
    (partialsLost (areaLost s r (touchesBank b)) r (touchesBank b))

/-- The third uncorrectable access of a bank within 1 ms (R29): the bank is mapped onto a spare, or the region is fenced. -/
def spareBank (s : State) (r b : Nat) : State :=
  let x := getRgn s r
  if x.spares.length + x.badSpares < 4 then
    bankLost (logFault (setRgn s r { x with spares := x.spares ++ [b], bankTimes := tdrop x.bankTimes b })
      { flogBase s clsArray 5 0x03 0 r with detail := BitVec.ofNat 32 b }) r b
  else fenceUnit s .region r

/-- A read that finds an uncorrectable error (R29, R296, R297). -/
def bankUncorrectable (s : State) (r b : Nat) (q : BankReq) : State :=
  let x := getRgn s r
  let ts := addEvent (tget [] x.bankTimes b) s.time.t
  let s1 := addRgnCnt (setRgn s r { x with bankTimes := tset x.bankTimes b ts }) r 1 1
  let s2 := logFault s1 { flogBase s clsReplayable 5 0x02 0 r with detail := BitVec.ofNat 32 b, addr := BitVec.ofNat 64 q.addr }
  let s3 := contentsLost s2 r q.addr
  if reached 3 ts then spareBank s3 r b else s3

/-- A read whose error is corrected (R299): counted, logged, and written back in the maintenance class. -/
def bankCorrected (s : State) (r b : Nat) (q : BankReq) : State :=
  let s1 := logFault (addRgnCnt s r 0 1) { flogBase s clsCorrectable 5 0x01 0 r with detail := BitVec.ofNat 32 b, addr := BitVec.ofNat 64 q.addr }
  askBank s1 r 4 (q.addr / 64 * 64) (.write []) .maint

/-- What the code check of a read finds. -/
def readFinding (s : State) (r b : Nat) (q : BankReq) (rs : RsResult) : State :=
  match rs with
  | .clean => s
  | .corrected => bankCorrected s r b q
  | .uncorrectable => bankUncorrectable s r b q

/-- The answer of a window access, once all its lines have been granted (R289). -/
def windowDone (s : State) (p : Nat) : State :=
  if windowWaits s p then s
  else
    let x := getHp s p
    if x.wdata.isEmpty then respond s p .ok else setHp s p { x with resp := .data (x.wdata.flatMap (·.2)), wdata := [] }

/-- Insert a line that has been read by its offset. -/
def putLine (l : List (Nat × List Byte)) (a : Nat) (bs : List Byte) : List (Nat × List Byte) :=
  l.takeWhile (fun x => decide (x.1 < a)) ++ [(a, bs)] ++ l.dropWhile (fun x => decide (x.1 < a))

/-- Free values in place of bytes. -/
def freeBytes : Nat → State → List Byte × State
  | 0, s => ([], s)
  | n + 1, s =>
    let (f, t) := freeNext s
    let (bs, u) := freeBytes n t
    (BitVec.ofNat 8 f.toNat :: bs, u)

/-- A remote read of part of a line is granted: its bytes go to its source (R282, R289). What an uncorrectable line delivers is
open (log 28). -/
def fetchGrant (s : State) (r : Nat) (q : BankReq) (n : Nat) (bad : Bool) : State :=
  let (bs, t) := if bad then freeBytes n s else spadRead s r q.addr n
  match q.owner with
  | .desc c ring => copyLine t c ring q.addr bs
  | .host p => windowDone (setHp t p { getHp t p with wdata := putLine (getHp t p).wdata q.addr bs }) p
  | _ => t

/-- The second grant of an atomic (R284): its word changes, and its source has its answer (R289). -/
def atomicGrant (s : State) (r : Nat) (q : BankReq) (op : Nat) (x new : W64) : State :=
  match q.owner with
  | .desc c ring =>
    (match (findAdm (getCtx s c) ring).filter (fun d => d.result.isNone) with
     | some d => atomicStep s c r d
     | none => s)
  | .host p =>
    let (old, _, t) := spadAtomic s r q.addr op x new
    respond t p (.prior (atomicResult op old))
  | _ => s

/-- A write is granted: its bytes stand in the line, waking the watch entries (R285), the slot that it frees is free (R115), and the row mark of a
row's last write moves (R43). -/
def writeGrant (s : State) (r : Nat) (q : BankReq) (bs : List Byte) : State :=
  let s1 := writeWaking s { sp := .spad r, addr := q.addr, bytes := bs }
  let s2 := putMark (match q.frees with
    | some f => freeSlot s1 f.1 (some f.2)
    | none => s1) q.mark
  match q.owner with
  | .host p => windowDone s2 p
  | o => copyDone s2 o

/-- A granted request is performed (R23). An atomic takes two consecutive grants: its read, and its write (R284). DESIGN CHOICE (log 46):
R284 does not say what an atomic does whose line shows an uncorrectable error; it uses the word that stands there. -/
def performReq (s : State) (r b : Nat) (q : BankReq) (rs : RsResult) : State :=
  match q.act with
  | .read =>
    (match q.owner with
     -- an error on a preload abandons it silently (R267, R274)
     | .gambit c n g a => if rs == .clean then s else gambitAbandon s (4 * r) c n g a
     | _ => readFinding s r b q rs)
  | .write bs => writeGrant s r q bs
  | .fetch n => fetchGrant (readFinding (markIssued s q.owner) r b q rs) r q n (rs == .uncorrectable)
  | .atomic op x new held =>
    if held then atomicGrant s r q op x new
    else
      let t := readFinding (markIssued s q.owner) r b q rs
      let y := getRgn t r
      setRgn t r { y with bankReqs := { q with act := .atomic op x new true } :: y.bankReqs }

/-- The request of a bank that is granted: an atomic between its two grants, else by class and age (R23, R24, R284). -/
def nextReq (now : Nat) (l : List BankReq) : Option BankReq :=
  (l.find? (fun q => match q.act with
    | .atomic _ _ _ held => held
    | _ => false)).orElse (fun _ => bestOf now (fun (q : BankReq) => (q.cls, q.arrived)) l)

/-- The read that a running scrub asks of a bank: the bank's next line, in the maintenance class (R21, R377). -/
def scrubReq (x : Region) (b : Nat) : Option BankReq :=
  let k := tget (0, x.scrubFrom) x.scrub b
  if x.running.any (fun a => a.code == 0) && decide (k.1 < 1536) then
    some { cls := 4, addr := 64 * (512 * k.1 + b), act := .read, arrived := k.2, owner := .maint, frees := none }
  else none

/-- A request is granted: it leaves the queue, or it was the scrub's and the scrub asks for the bank's next line. -/
def takeReq (x : Region) (b now : Nat) (q : BankReq) : Region :=
  if x.bankReqs.contains q then { x with bankReqs := x.bankReqs.erase q }
  else { x with scrub := tset x.scrub b ((tget (0, 0) x.scrub b).1 + 1, now + 1) }

/-- One scratchpad cycle of a bank, the next one in which it has granted nothing: one grant, or none (R23, R24). -/
def bankGrant (s : State) (r b : Nat) (rs : RsResult) : State :=
  let x := getRgn s r
  let now := max x.scycle (tget 0 x.bankNext b)
  let y := { x with scycle := now, bankNext := tset x.bankNext b (now + 1) }
  match nextReq now (x.bankReqs.filter (fun q => bankOf q.addr == b) ++ (scrubReq x b).toList) with
  | none => setRgn s r y
  | some q => performReq (setRgn s r (takeReq y b now q)) r b q rs

/-- A region's islands run: it is in service, and the power state lets it work. -/
def regionRuns (s : State) (r : Nat) : Bool :=
  (unitSt s .region r == .live || unitSt s .region r == .draining) && !s.boot.off && (s.boot.pstate == 0 || s.boot.pstate == 1)

/-- BANK_GRANT (R23, R24, R29, R299). `odd` is a region-control copy that disagrees on the arbiter's update (R28); `rs`: what the codes of
the granted access find (log 7). -/
def execBankGrant (r : RgnId) (bank : Fin 512) (rs : RsResult) (s : State) (odd : Option (Fin 3) := none) : Host.Outcome State Fault Refusal :=
  .next (if regionRuns s r.val then
      (let t := regionVote s r.val odd
       if regionRuns t r.val then bankGrant t r.val bank.val rs else t)
    else s)

/-! ### Memory ports -/

/-- Write-data transfers of a request (R333). -/
def wdOf (q : PortReq) : Nat := if q.op == 0 then 0 else if q.op == 2 then 1 else ceilDiv q.len 256

/-- A free tag for a request: reads and atomics 0 to 2,047, writes 2,048 to 3,071 (R332); a read needs room in the port for its data, which
reads that wait for the crossing take (R331). -/
def tagFor (x : MemPort) (q : PortReq) : Option Nat :=
  let t := freeTag (if q.op == 1 then x.wrOut else x.rdOut) (if q.op == 1 then 2048 else 0)
  if decide (t < (if q.op == 1 then 3072 else 2048)) && (q.op != 0 || decide (x.rdOut.length + x.held.length < 2048)) then some t else none

/-- The port issues a request: M1 spends its credits and the tag is taken (R331). -/
def issueReq (x : MemPort) (q : PortReq) (tag : Nat) : MemPort :=
  let y := { x with credReq := x.credReq - 1, credWd := x.credWd - wdOf q }
  if q.op == 1 then { y with wrOut := tset y.wrOut tag q } else { y with rdOut := tset y.rdOut tag q }

/-- A correctable RS error on a port's data is counted (R399). -/
def portCe (s : State) (q : Nat) : State :=
  setMp s q { getMp s q with ce := if (getMp s q).ce == 0xFFFFFFFF then (getMp s q).ce else (getMp s q).ce + 1 }

/-- The side of a port that a grant serves behind it: the request has left. -/
def portSent (x : MemPort) (write : Bool) (p : PortReq) (tag : Nat) : MemPort :=
  issueReq (if write then { x with wrQ := x.wrQ.erase p } else { x with rdQ := x.rdQ.erase p }) p tag

/-- A request goes out. The check of its write data may count a correction, or an uncorrectable error, after which the request stays to be
issued again (R322, R399). -/
def portSend (s : State) (q : Nat) (write : Bool) (p : PortReq) (tag : Nat) (rs : RsResult) : State :=
  if wdOf p == 0 || rs == .clean then markIssued (setMp s q (portSent (getMp s q) write p tag)) p.owner
  else if rs == .corrected then portCe (markIssued (setMp s q (portSent (getMp s q) write p tag)) p.owner) q
  else portError s q p (fun t => t)

/-- One port cycle's grant of the read or the write side (R27): the request waits while no tag or credit is free. -/
def portGrant (s : State) (q : Nat) (write : Bool) (rs : RsResult) : State :=
  let x := getMp s q
  let s1 := setMp s q { x with cycle := x.cycle + 1 }
  match bestOf x.cycle (fun (p : PortReq) => (p.cls, p.arrived)) (if write then x.wrQ else x.rdQ) with
  | none => s1
  | some p =>
    match tagFor x p with
    | none => s1
    | some tag => if decide (1 ≤ x.credReq ∧ wdOf p ≤ x.credWd) then portSend s1 q write p tag rs else s1

/-- PORT_GRANT (R26, R27, R331, R332, R399). `rs` is what the check of the write data finds (log 7). -/
def execPortGrant (q : PortId) (write : Bool) (s : State) (rs : RsResult := .clean) : Host.Outcome State Fault Refusal :=
  .next (if (unitSt s .port q.val == .live || unitSt s .port q.val == .draining) && (getMp s q.val).up && !s.boot.off && !s.boot.gated then
      portGrant s q.val write rs
    else s)

/-! ### RNG units -/

/-- A lane's two pipelines differ (R214): the hash is computed again; the second time within 1 ms retires the lane. -/
def laneMismatch (s : State) (r l : Nat) : State :=
  let x := getRgn s r
  if !x.lanes.getLsbD l then s
  else
    let ts := addEvent (tget [] x.laneTimes l) s.time.t
    let s1 := setRgn s r { x with laneMis := if x.laneMis == 0xFFFF then x.laneMis else x.laneMis + 1, laneTimes := tset x.laneTimes l ts }
    if reached 2 ts then
      logFault (setRgn s1 r { getRgn s1 r with lanes := x.lanes &&& ~~~(BitVec.ofNat 32 (2 ^ l)) }) (flogBase s1 clsArray 7 0x0C l r)
    else s1

/-- Batches that the live lanes can serve in one cycle: one per 8 lanes (R210). -/
def batches (x : Region) : Nat := ((List.range 32).filter (fun l => x.lanes.getLsbD l)).length / 8

/-- Grant up to `n` requests; a rank places the arrays' drains by their rotation. -/
def grantMany (now : Nat) (rank : RngReq → Nat × Nat) : Nat → List RngReq → List RngReq
  | 0, l => l
  | n + 1, l =>
    match bestOf now rank l with
    | none => l
    | some q => grantMany now rank n (l.erase q)

/-- Requesters of a list of requests for hashes: an array's drain, a FOLD, the Side Path, a mask operation, a BMASK. -/
def requesters (l : List RngReq) : Nat := (l.map (fun q => (q.cls, q.unit))).eraseDups.length

/-- One region-control cycle of the RNG unit (R210): each requester that has requests left waits and counts. DESIGN CHOICE (log 46): R210
does not say how the drains rotate; each cycle begins with array `rcycle` mod 4, which may take all that the cycle grants. -/
def rngGrant (s : State) (r : Nat) (bad : List Nat) : State :=
  let s1 := bad.foldl (fun t l => laneMismatch t r l) s
  let x := getRgn s1 r
  -- class 0 rotates among the region's four arrays; the other classes follow in order
  let rank (q : RngReq) : Nat × Nat := (if q.cls == 0 then (q.unit + 4 - x.rcycle % 4) % 4 else 3 + q.cls, q.arrived)
  -- fewer than 8 live lanes still serve one batch, more slowly
  let left := grantMany x.rcycle rank (if x.lanes == 0 then 0 else max 1 (batches x)) x.rngReqs
  addRgnCnt (setRgn s1 r { x with rngReqs := left, rcycle := x.rcycle + 1 }) r 19 (requesters left)

/-- RNG_GRANT (R209, R210, R214). `badLanes`: lanes whose two pipelines differ in this cycle (log 7). -/
def execRngGrant (r : RgnId) (badLanes : List Nat) (s : State) : Host.Outcome State Fault Refusal :=
  .next (if regionRuns s r.val then rngGrant s r.val badLanes else s)

end Sys2Proof.Machine
end

