-- ==== Sys2Proof/Machine/Side.lean ====
section
/-!
DEFINITION. The Side Path (R188 to R198) and the Staging Unit's row work: transposer (R130), CONV gather (R184) and input
windows with their halos (R186, R187).
-/

namespace Sys2Proof.Machine

/-! ### The weight buffer (R195) -/

/-- A Side Path runs both products of a FUSED2 sub-tile, in the solo order (R194). -/
def sideRoles : Roles := { lead := true, follow := true }

/-- The routed sub-tile a Side Path runs: the first its region dispatched (R192). -/
def sideHead (s : State) (r : Nat) : Option Work :=
  match (getRgn s r).sideQ with
  | [] => none
  | t :: _ => workIn s r sideRoles t

/-- The pass whose block pass `n` of a work runs on (R90). -/
def blockPass (w : Work) (n : Nat) : Nat := if w.role != .follow && sameBank w.j n then n - 1 else n

/-- A half holds the block of pass `n` of a work. -/
def isHalf (w : Work) (n : Nat) (q : SideHalf) : Bool :=
  q.ctx == w.t.ctx && q.ring == w.t.ring && q.h == w.t.h && q.c == w.t.c && q.g == w.e.g && q.pass == n && q.second == (w.role == .follow)

def halfOf (x : Region) (w : Work) (n : Nat) : Option SideHalf := x.sideHalves.find? (isHalf w n)

/-- Bytes of the stored rows of a pass's block (R195). -/
def blockBytes (j : Job) (t : SubTile) (n : Nat) : Nat :=
  let (p, _) := passOf j n
  liveRows (tileRows j) p * (if (wEnt j).layout == 0 then packedBytes (tentFmt (wEnt j)) (subCols j t) else slotRowBytes (tentFmt (wEnt j)))

/-- The block of pass `n` comes from scratchpad in the feed class, or from the ports in the weight-stream class, with the pass's lists
(R124, R192, R195, R27). -/
def fetchBlock (s : State) (r : Nat) (j : Job) (t : SubTile) (n : Nat) : State :=
  let s1 := (List.range (liveRows (tileRows j) (passOf j n).1)).foldl (fun u i => readRow u r 1 0 (.desc t.ctx t.ring) j t n i) s
  if (passOf j n).2 == 0 then fetchLists s1 r j t (passOf j n).1 else s1

/-- The block of a pass and its lists have arrived. -/
def blockHere (s : State) (r : Nat) (j : Job) (t : SubTile) (n : Nat) : Bool :=
  (List.range (liveRows (tileRows j) (passOf j n).1)).all (fun i => rowHere s r (.desc t.ctx t.ring) j t n i) && listsHere s r j t (passOf j n).1

/-- The blocks a Side Path wants: the running pass's, then the next one's. -/
def sideWants (w : Work) (r : Nat) : List (Work × Nat) := (w, blockPass w w.e.passesDone) :: (w.after r sideRoles).toList

/-- Fill a free half with the running pass's block, or the next one's (R195). -/
def sideFill (s : State) (r : Nat) : State :=
  match sideHead s r with
  | none => s
  | some w =>
    let x := getRgn s r
    match (sideWants w r).find? (fun v => (halfOf x v.1 v.2).isNone) with
    | none => s
    | some (v, n) =>
      if decide (2 ≤ x.sideHalves.length) then s
      else
        let s1 := fetchBlock s r v.j v.e n
        setRgn s1 r { getRgn s1 r with sideHalves := x.sideHalves ++
          [{ ctx := v.t.ctx, ring := v.t.ring, h := v.t.h, c := v.t.c, g := v.e.g, pass := n, second := v.role == .follow, bytes := blockBytes v.j v.e n }] }

/-- A Side Path works: LIVE or draining, in a power state that lets it. -/
def sideRuns (s : State) (r : Nat) : Bool :=
  (unitSt s .side r == .live || unitSt s .side r == .draining) && !s.boot.off && (s.boot.pstate == 0 || s.boot.pstate == 1)

/-- SIDE_WEIGHT_FILL (R195). -/
def execSideWeightFill (r : RgnId) (s : State) : Host.Outcome State Fault Refusal :=
  .next (if sideRuns s r.val then sideFill s r.val else s)

/-! ### Dot rows (R188, R192, R197) -/

/-- The block of a pass as a bank: what the buffer's half holds, with the check-unit sums of R55. -/
def sideBank (ms : Mems) (j : Job) (t : SubTile) (n : Nat) : Bank :=
  (List.range (liveRows (tileRows j) (passOf j n).1)).foldl (fun b i => shadowPut ms j t n i b) Bank.init

/-- Side Path cycles of one dot row in a piece pass (R188). -/
def dotCycles (j : Job) : Nat := sideCyclesPerRow (jobMode j).act (jobMode j).w (jobMode j).slots

/-- Side Path cycles of spill products (R188): one MAC unit each for 2 cycles, 4 for a 16-bit weight. -/
def spillCycles (j : Job) (products : Nat) : Nat :=
  ceilDiv (products * (if fmtBits (jobMode j).bank == 16 then 4 else 2)) 65536

/-- Charge Side Path cycles to a context (R358). -/
def chargeSide (s : State) (c n : Nat) : State :=
  setAcct s c { getAcct s c with sideCycles := (getAcct s c).sideCycles + BitVec.ofNat 64 n }

/-- The work of a region's arrays that lacks the spill sums of its pass, with its array (R126). -/
def spillWork (s : State) (r : Nat) : List (Nat × Work) :=
  [4 * r, 4 * r + 1, 4 * r + 2, 4 * r + 3].flatMap (fun a => ((works s a).filter (fun w => !zReady s.mems w.1)).map (fun w => (a, w.1)))

/-- The directory range of the work's pass is ready. -/
def spillHere (s : State) (r : Nat) (w : Work) : Bool := listsHere s r w.j w.e (passOf w.j w.e.passesDone).1

/-- The next array work whose spill sums can be formed (R193). -/
def spillWaiting (s : State) (r : Nat) : Option Work := ((spillWork s r).find? (fun x => spillHere s r x.2)).map (·.2)

/-- Spill service comes before routed work: a range is ready, or an accumulate stage waits for z (R193). -/
def spillPends (s : State) (r : Nat) : Bool :=
  (spillWork s r).any (fun x => spillHere s r x.2 || (laneOf (getArr s x.1) x.2).results.head?.any (·.accepted))

/-! ### The check of spill sums (R195, R197) -/

/-- The weight of a list entry with its block scale (R73, R125). -/
def zWeight (ms : Mems) (j : Job) (h : Nat) (z : ZEntry) : Num :=
  let t := wEnt j
  let w := decodeElem (jobMode j).bank (bankCode ms j t (jobMode j).bank z.code z.chan).1
  let v := if (jobMode j).bank == .int8 && t.bscale then numScale w (-6) else w
  if jobScaled j then numMul v (scaleFactor (some 0) (wScale ms j t (wCols j) h z.k z.n)) else v

/-- The sum over the spill entries of a k's weights, times the activation of k, added up (R195, R197). -/
def zCheckSum (ms : Mems) (j : Job) (h m : Nat) (es : List ZEntry) : Num :=
  ((es.map (·.k)).eraseDups).foldl (fun a k =>
    let sum := (es.filter (fun z => z.k == k)).foldl (fun b z => numAdd b (zWeight ms j h z)) numZero
    let act := if jobScaled j then numMul (actVal ms j h m k) (scaleFactor (actScale ms j h m k) (some 0)) else actVal ms j h m k
    numAdd a (numMul act sum)) numZero

/-- The exponent of F of R56 for the entries of a pass. -/
def zAllow (ms : Mems) (j : Job) (h m : Nat) (es : List ZEntry) : Int :=
  let md := jobMode j
  let ex := if !jobScaled j then [] else es.filterMap (fun z =>
    match actScale ms j h m z.k, wScale ms j (wEnt j) (wCols j) h z.k z.n with
    | some a, some w => some (a + w)
    | _, _ => none)
  let least := match ex with
    | [] => 0
    | x :: xs => xs.foldl min x
  max ((if md.w == .fp32 then -126 else fmtNormal md.act) + fmtNormal (cellFmt md) + least) (-149)

/-- The check of a row's spill sums: accepted, a mismatch, or nothing to compare (R57, R197). DESIGN CHOICE (log 46): R195 and R197 give no
arithmetic for these sums; they are formed exactly. -/
def zVerdict (ms : Mems) (j : Job) (t : SubTile) (row : Nat) (es : List ZEntry) (zup : List (Nat × W32)) : Option Bool :=
  let m := dMorg j.d + t.m0 + row
  let zs := (List.range (subCols j t)).filterMap (fun i => zFlip (jobInt j) zup i (zSum ms j t.h m (subFirst j t + i) es))
  let diff := numSub (zs.foldl numAdd numZero) (zCheckSum ms j t.h m es)
  if zs.any (fun z => !numIsFinite z) || !numIsFinite diff then none
  else some (numLe (numAbs diff) (numAdd (numScale ((zs.map numAbs).foldl numAdd numZero) (-18)) (numPow2 (zAllow ms j t.h m es))))

/-! ### Mismatches and lost buffers -/

/-- What every mismatch of the check unit leaves in a region (R197, R324): its count, its time and its report. -/
def sideFinding (s : State) (r : Nat) (t : SubTile) : State :=
  let x := getRgn s r
  let s1 := addRgnCnt (setRgn s r { x with sideMissTimes := addEvent x.sideMissTimes s.time.t }) r 14 1
  logFault s1 { flogBase s clsReplayable 3 0x08 r r with ctx := BitVec.ofNat 12 t.ctx, ring := t.ring }

/-- Three mismatches within 1 ms fence the Side Path (R197). -/
def sideFence (s : State) (r : Nat) : State :=
  if reached 3 (getRgn s r).sideMissTimes then fenceUnit s .side r else s

/-- The sub-tile leaves the Side Path for an array (R197). -/
def leaveSide (s : State) (r : Nat) (t : SubTile) : State :=
  let x := getRgn s r
  setRgn s r { x with sideQ := x.sideQ.erase t, sideHalves := [], sideLink := x.sideLink.filter (fun q => !linkOf t q),
                      replayQ := x.replayQ ++ [leaveFlags { t with side := false }] }

/-- A mismatch on a dot row (R197): the row is replayed, the sub-tile moves to an array, or the Side Path is fenced. DESIGN CHOICE (log 46):
R197 names no outcome of a second mismatch in a pass while the affinity mask holds no LIVE array; the row is repeated on the Side Path. -/
def sideMismatch (s : State) (r : Nat) (t : SubTile) : State :=
  let s1 := addCnt (sideFinding s r t) 13 1
  let s2 :=
    if t.misses == 1 && !(liveArrays s (ceAffinity (getCtx s t.ctx).ent)).isEmpty then leaveSide s1 r t
    else mapSub s1 r t (fun u => { u with misses := u.misses + 1, flags := u.flags ||| flReplayed })
  sideFence s2 r

/-- A half of the weight buffer has an uncorrectable error (R298): it is empty until it is filled again. -/
def halfLoss (s : State) (r : Nat) (w : Work) (q : SideHalf) : State :=
  let s1 := bufferReport s 3 r r w.t.ctx w.t.ring
  setRgn s1 r { getRgn s1 r with sideHalves := (getRgn s1 r).sideHalves.erase q }

/-- An uncorrectable error in the link buffer that a follower's row comes from (R177, R298), else in the partial paths: the pass is replayed
from the row mark (R197, R298). -/
def sideLoss (s : State) (r : Nat) (w : Work) : State :=
  let s1 := bufferReport s 3 r r w.t.ctx w.t.ring
  if w.role == .follow then fusedResume s1 r w.t else mapSub s1 r w.t (fun u => { u with flags := u.flags ||| flReplayed })

/-- The tag of a dot row's hash requests: its product, the group and the row. -/
def sideTag (w : Work) (row : Nat) : Nat := 1 + 2 ^ 17 * (2 * w.e.g + b2n (w.role == .follow)) + row

/-- The row's hashes have been granted, or it draws none (R210). -/
def sideHashed (s : State) (r : Nat) (w : Work) : Bool :=
  let tag := sideTag w w.e.rowMark
  rowDraws r w == 0 || (w.t.hashRow == tag && !(getRgn s r).rngReqs.any (fun q => q.cls == 1 && q.tag == tag))

/-- Ask for the row's hashes, once. -/
def sideHash (s : State) (r : Nat) (w : Work) : State :=
  let tag := sideTag w w.e.rowMark
  if w.t.hashRow == tag then s
  else askRng (mapSub s r w.t (fun u => { u with hashRow := tag })) r 1 0 tag (rowDraws r w * subCols w.j w.e)

/-- The pass and the tag of a dot row's operands. -/
def feedTag (w : Work) : Nat × Nat := (w.e.passesDone, sideTag w w.e.rowMark)

/-- The reads of the row's operands have been granted, and have arrived (R23, R26, R288). -/
def sideFed (s : State) (r : Nat) (w : Work) : Bool :=
  w.t.fedRow == feedTag w && actsHere s r w w.e.rowMark && partsHere s r w w.e.rowMark

/-- Ask for the row's operands, once. -/
def sideFeed (s : State) (r : Nat) (w : Work) : State :=
  if w.t.fedRow == feedTag w then s
  else askParts (askActs (mapSub s r w.t (fun u => { u with fedRow := feedTag w })) r 1 w w.e.rowMark) r w w.e.rowMark

/-- What a dot row waits for, but for its block, its operands and its hashes (R26, R115, R126, R186, R193, R194). -/
def dotReady (s : State) (r : Nat) (w : Work) : Bool :=
  slotReady w.t w.d && !spillPends s r && stagedHere s r w && (!intoLink w || linkRoom s r w.t) && windowHere s r w.j w.e &&
  (w.role != .follow || (linkRow s r w.t w.t.passesDone w.e.rowMark).isSome) && !partialPending s r w w.e.rowMark

/-- The half behind a row: the pass's last row frees it, unless the next pass runs on the same block (R90, R195). -/
def freeHalf (w : Work) (x : Region) : Region :=
  let n := w.e.passesDone
  if w.e.rowMark + 1 < w.e.rows || (n + 1 < w.e.passes && blockPass w (n + 1) == blockPass w n) then x
  else { x with sideHalves := x.sideHalves.filter (fun q => !isHalf w (blockPass w n) q) }

/-- A dot row with its own spill products (R192): the checks of both accept it and it is committed and charged, or they find a mismatch
(R197, R358). -/
def dotGo (s : State) (r : Nat) (w : Work) (upset : List (Nat × W32)) : State :=
  let n := w.e.passesDone
  let row := w.e.rowMark
  let q := workRow s r (sideBank s.mems w.j { w.e with band := 0 } n) w row (getRgn s r).scycle (upset.filter (fun u => decide (u.1 < 257)))
  let zup := upset.filter (fun u => decide (257 ≤ u.1))
  let es := if w.role == .follow then [] else subZ s.mems w.j w.e n
  if checkVerdict q == some false || (!es.isEmpty && zVerdict s.mems w.j w.e row es zup == some false) then sideMismatch s r w.t
  else
    let s1 := chargeSide s w.t.ctx (dotCycles w.j + spillCycles w.j es.length)
    let s2 := if es.isEmpty then s1 else addRgnCnt s1 r 7 es.length
    let s3 := commitWork s2 r w q none zup
    let s4 := setRgn s3 r (freeHalf w (getRgn s3 r))
    if row + 1 < w.e.rows then s4 else passEnded s4 w.t.ctx

/-- One dot row: the next activation row of the running pass, checked and committed (R43, R188, R192, R197). A sub-tile that restarts has
its descriptor read again first (R29). -/
def dotRow (s : State) (r : Nat) (upset : List (Nat × W32)) (rs buf : RsResult) : State :=
  match sideHead s r with
  | none => s
  | some w =>
    if w.t.reread then rereadSlot s r w.t
    else if slotPending s w.t.ctx w.t.ring || !dotReady s r w then s
    else
      match halfOf (getRgn s r) w (blockPass w w.e.passesDone) with
      | none => addRgnCnt s r 13 (dotCycles w.j)
      | some b =>
        if !blockHere s r w.j w.e (blockPass w w.e.passesDone) then addRgnCnt s r 13 (dotCycles w.j)
        else if rs == .uncorrectable then halfLoss s r w b
        else if buf == .uncorrectable then sideLoss s r w
        else if !sideFed s r w then sideFeed s r w
        else if !sideHashed s r w then sideHash s r w
        else dotGo s r w upset

/-- SIDE_DOT_ROW (R188, R192, R197, R298). `upset`: bits that a fault flips in the dot units' sums, from column 257 on in the row's
spill sums; `rs`: what the check of the weight buffer finds, and `buf`: of a follower's link buffer, else of the partial paths (log 7). -/
def execSideDotRow (r : RgnId) (upset : List (Nat × W32)) (rs : RsResult) (s : State) (buf : RsResult := .clean) : Host.Outcome State Fault Refusal :=
  .next (if sideRuns s r.val then dotRow s r.val upset rs buf else s)

/-! ### Spill service (R126, R193, R198) -/

/-- Spill products that the Side Path forms for a context (R193, R358). -/
def sideProducts (s : State) (r c : Nat) (j : Job) (products : Nat) : State :=
  let s1 := chargeSide (addRgnCnt s r 7 products) c (spillCycles j products)
  if (getRgn s r).sideQ.isEmpty then s1 else addRgnCnt s1 r 12 (spillCycles j products)

/-- The sums of a pass are formed and delivered once its lists have arrived (R126, R193), by the Staging Unit where the Side Path is
out of service (R198). Where the check of one row's sums fails, that row's products are repeated, uncounted, and the array tile keeps
waiting (R197). -/
def spillService (s : State) (r : Nat) (bad : Bool) : State :=
  match spillWaiting s r with
  | none => s
  | some w =>
    let perRow := (subZ s.mems w.j w.e w.e.passesDone).length
    if sideRuns s r && bad then sideFence (sideFinding s r w.t) r
    else
      let s1 := mapSub s r w.t (fun u => { u with zPasses := w.zAfter })
      if sideRuns s r then sideProducts s1 r w.t.ctx w.j (perRow * w.t.rows) else addRgnCnt s1 r 8 (perRow * w.t.rows)

/-- SIDE_SPILL_SERVICE (R126, R193, R197, R198). `bad`: the check of one row's sums fails (log 7). -/
def execSideSpillService (r : RgnId) (bad : Bool) (s : State) : Host.Outcome State Fault Refusal :=
  .next (if regionRuns s r.val then spillService s r.val bad else s)

/-! ### The transposer (R130) -/

/-- Build the next transposed slot row of the load that an array waits for. -/
def transposeRow (s : State) (a : Nat) : State :=
  match currentLoad s a with
  | (s1, none) => s1
  | (s1, some (l, j, t, n, _)) =>
    let x := getArr s1 a
    let i := l.nextRow + x.tsp.length
    let (p, piece) := passOf j n
    if !needsTsp j || decide (l.total ≤ i) || !rowHere s1 (a / 4) (loadOwner a l t) j t n i then s1
    else
      let row := if i < liveRows (tileRows j) p then loadRow s1.mems j t.h (subFirst j t) (subCols j t) (256 * p + i) piece else emptyRow
      setArr s1 a { x with tsp := x.tsp ++ [row] }

/-- TRANSPOSER_ROW (R127, R128, R130). -/
def execTransposerRow (a : ArrId) (s : State) : Host.Outcome State Fault Refusal :=
  .next (if arrayRuns s a.val && regionRuns s (a.val / 4) then transposeRow s a.val else s)

/-! ### The gather buffer (R184) -/

/-- The activation row of a pass as packed codes: the elements its physical rows carry, in ascending logical k. -/
def gatherBytes (ms : Mems) (j : Job) (t : SubTile) (p row : Nat) : List Byte :=
  let e := actEnt j
  let w := fmtBits (tentFmt e)
  let cs := (passRange j p).map (fun k =>
    match convAt j (dMorg j.d + t.m0 + row) k with
    | none => 0
    | some (y, el) => denseCode ms e j.r t.h y el)
  leBytes (ceilDiv (cs.length * w) 8) (packCodes w cs)

/-- The row of a band that is gathered next. -/
def gatherNext (x : ArrayS) (w : Work) : Nat :=
  (x.gather.filter (fun e => e.1 / 2 ^ 17 == w.e.band)).foldl (fun n e => max n (e.1 % 2 ^ 17 + 1)) ((laneOf x w).taken.foldl min w.e.rows)

/-- Gather the next activation row of a running pass, while the 2 x 64 KiB have room: the Staging Unit's reads of its lines (R23), behind
which the row can be broadcast. -/
def gatherOne (s : State) (a : Nat) (rs : RsResult) : State :=
  let x := getArr s a
  let used := x.gather.foldl (fun n e => n + e.2.length) 0
  match (works s a).find? (fun w => gathered w.1.j && passOn (laneOf x w.1) && windowHere s (a / 4) w.1.j w.1.e && decide (gatherNext x w.1 < w.1.e.rows)) with
  | none => s
  | some (w, _) =>
    let next := gatherNext x w
    let bs := gatherBytes s.mems w.j w.e (passOf w.j w.e.passesDone).1 next
    if decide (131072 < used + bs.length) then s
    else if rs == .uncorrectable then bufferLoss s a w
    else askActs (setArr s a { x with gather := tset x.gather (gatherKey w.e.band next) bs }) (a / 4) 2 w next

/-- GATHER_ROW (R183, R184, R298). `rs` is what the check of the gather buffer finds (log 7). -/
def execGatherRow (a : ArrId) (rs : RsResult) (s : State) : Host.Outcome State Fault Refusal :=
  .next (if arrayRuns s a.val && regionRuns s (a.val / 4) then gatherOne s a.val rs else s)

/-! ### Input windows (R186, R187) -/

/-- The window of the chunk before, of the same image and descriptor, with the region that holds it: the region itself where it does. -/
def haloSource (s : State) (r : Nat) (w : Window) : Option (Window × Nat) :=
  let prev (x : Region) : Option Window := x.windows.find? (fun v => w.chunk != 0 && sameWindow { w with chunk := w.chunk - 1 } v && decide (w.lo < v.hi))
  match prev (getRgn s r) with
  | some v => some (v, r)
  | none => s.rgns.findSome? (fun e => (prev e.2).map (fun v => (v, e.1)))

/-- Rows that a window shares with the one of the chunk before (R187). -/
def haloRows (j : Job) (t : SubTile) (w : Window) : Nat :=
  if t.c == 0 then 0
  else
    match (windowsOf j { t with c := t.c - 1, m0 := t.m0 - chunkRows j, rows := chunkRows j }).find? (fun v => v.image == w.image) with
    | none => 0
    | some v => min v.hi w.hi - w.lo

/-- Input rows of a window are fetched from memory in the staging class of R27, or read where they lie in scratchpad. -/
def fetchWindow (s : State) (r : Nat) (j : Job) (t : SubTile) (w : Window) (lo : Nat) : State :=
  (windowRows j w lo).foldl (fun u x =>
    match tentSpace (actEnt j) j.r with
    | .mem => queueReads u (.desc t.ctx t.ring) (ceAsid (getCtx s t.ctx).ent) r 1 x.1 x.2 (placeOf t)
    | .spad q => (linesOf x).foldl (fun v a => askBank v q 2 a .read (.desc t.ctx t.ring)) u) s

/-- Halo rows `w.lo` to `hi - 1` are read from the window `v` of region `q` and written into the window `w` of region `r`, in the staging
class (R187, R23). -/
def copyHalo (s : State) (q r : Nat) (t : SubTile) (v w : Window) (hi : Nat) : State :=
  let o : Owner := .desc t.ctx t.ring
  let s1 := (linesOf (windowPart s q v w.lo hi)).foldl (fun u a => askBank u q 2 a .read o) s
  (linesOf (windowPart s r w w.lo hi)).foldl (fun u a => askBank u r 2 a (.write []) o) s1

/-- Stage one window, its halo from the best source (R187). -/
def stageWindow (s : State) (r : Nat) (j : Job) (t : SubTile) (w : Window) : State :=
  let s1 := setRgn s r { getRgn s r with windows := (getRgn s r).windows ++ [w] }
  match haloSource s r w with
  | some (v, q) =>
    let hi := min v.hi w.hi
    fetchWindow (copyHalo (addRgnCnt s1 r (if q == r then 16 else 17) (hi - w.lo)) q r t v w hi) r j t w hi
  | none =>
    let shared := haloRows j t w
    fetchWindow (if shared == 0 then s1 else addRgnCnt s1 r 18 shared) r j t w w.lo

/-- The windows of a sub-tile's chunk that its region lacks are staged, once copies have been evicted for them or room is free
(R161, R186). -/
def stageChunk (s : State) (r : Nat) (j : Job) (t : SubTile) : State :=
  let x := getRgn s r
  let held := x.windows.filter (fun v => (findAdm (getCtx s v.ctx) v.ring).isSome)
  let need := (windowsOf j t).filter (fun w => !held.any (sameWindow w))
  let cap := ceResBytes (getCtx s t.ctx).ent - winUsed { x with windows := held } t.ctx
  match evictFor (copyInUse s) t.ctx cap (need.foldl (fun n w => n + w.bytes) 0) x.resid.length x.resid with
  | none => addRgnCnt s r 6 1
  | some l => need.foldl (fun u w => stageWindow u r j t w) (setRgn s r { x with windows := held, resid := l })

/-- Stage for the first sub-tile that runs on the array, or on its region's Side Path (R196), and lacks its windows. -/
def stageOne (s : State) (a : Nat) : State :=
  let r := a / 4
  match (((works s a).map (·.1)) ++ (sideHead s r).toList).find? (fun w => dOpcode w.j.d == 6 && !(windowsOf w.j w.e).all (fun v => (getRgn s r).windows.any (sameWindow v))) with
  | none => s
  | some w => stageChunk s r w.j w.e

/-- STAGE_WINDOW (R186, R187). -/
def execStageWindow (a : ArrId) (s : State) : Host.Outcome State Fault Refusal :=
  .next (if (arrayRuns s a.val || sideRuns s (a.val / 4)) && regionRuns s (a.val / 4) then stageOne s a.val else s)

end Sys2Proof.Machine
end

