-- ==== Sys2Proof/Machine/Gambit.lean ====
section
/-!
DEFINITION. Gambit: preloads (R264, R267, R269), prefetches (R268), and speculation behind a WAITV (R270 to R275).
-/

namespace Sys2Proof.Machine

/-! ### GAMBIT_PRELOAD -/

/-- The block predicted for an array: a hint of R269, else the history table's, at confidence conf_min or above (R267). -/
def predicted (s : State) (a : Nat) : Option BlockKey :=
  match s.gambit.hint.find? (fun e => e.1 == a) with
  | some e => some e.2
  | none =>
    if !(works s a).any (fun w => w.1.t.started) then none
    else (((getArr s a).lastKey.bind (histAt s)).filter (fun h => decide (s.regs.confMin.toNat ≤ h.conf.toNat))).map (·.pred)

/-- The shadow bank is free for a preload (R264): nothing loads, and no sub-tile needs it: a running one is in its last
pass, and none is bound behind it. -/
def shadowFree (s : State) (a : Nat) : Bool := (getArr s a).loads.isEmpty && (loadTargets s a).isEmpty

/-- Gambit may work on this array for a predicted block (R267, R269, R276). -/
def preloadAllowed (s : State) (a : Nat) (k : BlockKey) : Bool :=
  takesWork (getCtx s k.ctx) && gambitOn s k.ctx && (works s a).all (fun w => gambitOn s w.1.t.ctx) &&
  inMask (ceAffinity (getCtx s k.ctx).ent) a

/-- Read the rows of a block predicted for array `a`: from scratchpad in the shadow-load class, or through the ports in the Gambit
prefetch class (R23, R27, R267). -/
def fetchPredicted (s : State) (a : Nat) (k : BlockKey) : State :=
  let (j, t, n) := blockJob s (a / 4) k
  (List.range (liveRows (tileRows j) (passOf j n).1)).foldl (fun u i =>
    readRow u (a / 4) 2 3 (.gambit k.ctx k.tensor k.gen (some a)) j t n i) s

/-- The bytes that `fetchPredicted` asks the ports for. -/
def fetchBytes (s : State) (a : Nat) (k : BlockKey) : Nat :=
  let (j, t, n) := blockJob s (a / 4) k
  ((List.range (liveRows (tileRows j) (passOf j n).1)).flatMap (rowPort s (a / 4) j t n)).foldl (fun m x => m + x.2) 0

/-- Start a preload of a predicted block; a hint is consumed by its use. -/
def preloadOne (s : State) (a : Nat) : State :=
  match predicted s a with
  | none => s
  | some k =>
    if shadowFree s a && preloadAllowed s a k && preloadOk s (a / 4) k then
      let s1 := { s with gambit := { s.gambit with hint := tdrop s.gambit.hint a } }
      let x := getArr s1 a
      addCnt (fetchPredicted (setArr s1 a { x with
        loads := [{ key := k, band := 0, preload := true, nextRow := 0, total := 256, parity := 0, restarted := false, cycle := x.cycle,
                    bytes := fetchBytes s1 a k }], tsp := [],
        shadow := { x.shadow with rows := [], scales := [] } }) a k) 0 1
    else s

/-- GAMBIT_PRELOAD (R267, R269). -/
def execGambitPreload (a : ArrId) (s : State) : Host.Outcome State Fault Refusal :=
  .next (if running s && isLive s .array a.val && s.regs.preloadEn then preloadOne s a.val else s)

/-! ### GAMBIT_PREFETCH -/

/-- A predicted weight as one tile of the whole tensor, as far as a tile reaches. -/
def tensorJob (s : State) (r : Nat) (k : BlockKey) : Job :=
  let (j, _, _) := blockJob s r k
  let w := jent j k.tensor
  let tr := transposed j
  let d1 := setFld (setFld j.d 0x18 27 17 (min (if tr then w.dim0 else w.dim1) 2047)) 0x18 48 28 (min (if tr then w.dim1 else w.dim0) 2097151)
  { j with d := setFld (setFld (setFld (setFld d1 0x20 47 32 0) 0x20 63 48 0) 0x18 61 49 (k.head + 1)) 0x18 16 0 1 }

/-- The predictions for context `c` that a region's running sub-tiles have in the table (R266, R268). -/
def regionPredictions (s : State) (r c : Nat) : List BlockKey :=
  [4 * r, 4 * r + 1, 4 * r + 2, 4 * r + 3].filterMap (fun a =>
    (predicted s a).filter (fun k => k.ctx == c && (works s a).all (fun w => gambitOn s w.1.t.ctx)))

/-- Copy a predicted weight into the context's residency area (R268). -/
def prefetchCopy (s : State) (r : Nat) (k : BlockKey) : State :=
  let j := tensorJob s r k
  let spans := (weightSpans j).filter (·.sp == .mem)
  if (jent j k.tensor).space != 0 || hasCopy s r k.ctx k.tensor k.gen ||
      !spans.all (fun x => memAccess s k.ctx x.a x.n == .ok) then s
  else
    match takeCopy s r k.ctx (0 : W32) k.tensor k.gen (weightFoot j) with
    | none => s
    | some s1 => addCnt (spans.foldl (fun u x => queueReads u (.gambit k.ctx k.tensor k.gen none) (ceAsid (getCtx s k.ctx).ent) r 3 x.a x.n) s1) 4 (weightFoot j)

/-- Prefetch the first prediction of a context that may be copied. -/
def prefetchOne (s : State) (r c : Nat) : State :=
  match (regionPredictions s r c).find? (fun k => preloadOk s r k && !hasCopy s r k.ctx k.tensor k.gen) with
  | none => s
  | some k => prefetchCopy s r k

/-- GAMBIT_PREFETCH (R268, R276). -/
def execGambitPrefetch (r : RgnId) (c : CtxId) (s : State) : Host.Outcome State Fault Refusal :=
  .next (if running s && isLive s .region r.val && s.regs.prefetchEn && takesWork (getCtx s c.val) && gambitOn s c.val then
      prefetchOne s r.val c.val
    else s)

/-! ### SPECULATIVE_PASS -/

/-- The descriptor is held by a WAITV and by nothing else (R270). -/
def heldByWait (s : State) (c : Nat) (d : Adm) : Bool :=
  let x := getCtx s c
  takesWork x && d.result.isNone && d.total.isNone && waitOpen x d.ring &&
  !(earlier x d.ring).any (fun e => opRemote (dOpcode e.desc) && dAcquire e.desc && dOpcode e.desc != 0x23) && !indexHeld x d &&
  (earlier x d.ring).all emittedAll && opCompute (dOpcode d.desc)

/-- Forms Gambit speculates on (R270): GEMM, SPMM, TSPMM, MGRAD, CONV, without det or acc_in, off the Side Path, with a
sub-tile of at most 512 rows. -/
def specForm (s : State) (r : Nat) (j : Job) : Bool :=
  [1, 3, 4, 5, 6].contains (dOpcode j.d) && !dDet j.d && dAccIn j.d == 0 && !sideRouted s r j && decide (rowsOfChunk j 0 ≤ 512)

/-- The shape word as it reads now: none where the descriptor has none; `some none` where the read fails. -/
def shapeNow (s : State) (c : Nat) (d : Adm) : Option (Option Nat) :=
  if !dBucketed d.desc then some none
  else
    let t := shapeTEnt d
    match objSpace s c t with
    | none => none
    | some .mem => if memAccess s c t.base 4 == .ok then some (some (rdLe s.mems .mem t.base 4)) else none
    | some (.spad r) => some (some (rdLe s.mems (.spad r) t.base 4))

/-- The descriptor with the variant its shape word selects (R156, R158). -/
def specShape (d : Adm) (v : Option Nat) : Option Adm :=
  match v with
  | none => some d
  | some v => (pickVariant (bDim d.desc) v d.variants).map (fun i => { d with variant := i, shapeV := v })

/-- Discard an array's speculation (R273). -/
def squash (s : State) (a : Nat) : State := addCnt (setArr s a { getArr s a with spec := none }) 7 1

/-- The tensor indices whose entries the speculative passes use: activation and weight, their scale arrays, the weight's LUT or
zero points, and C. -/
def specUses (j : Job) : List Nat :=
  let scale (e : TEnt) : List Nat := if e.bscale then [e.bscaleIndex] else []
  [dAct j.d, dW j.d] ++ scale (actEnt j) ++ scale (wEnt j) ++ (if (wEnt j).expand == 0 then [] else [(wEnt j).qparam]) ++
    (if dC j.d == 0 then [] else [dC j.d])

/-- The generations the speculative passes use: those of the admission record (R272, R304). -/
def specGens (j : Job) (d : Adm) : List (Nat × W32) :=
  (d.entries.filter (fun e => (specUses j).contains e.1)).map (fun e => (e.1, (tentOf e.2).gen))

/-- The scale bytes that pass `p` reads for an activation row (R72). -/
def specScales (j : Job) (t : SubTile) (p i : Nat) : List (Nat × Nat) :=
  let e := actEnt j
  let x := jent j e.bscaleIndex
  if !e.bscale then []
  else ((passRange j p).map (fun k =>
    (x.base + x.headStride * t.h + (dMorg j.d + t.m0 + i) * roundUp (ceilDiv (actK j) 32) 64 + k / 32, 1))).eraseDups

/-- The row of C that pass 0 reads for a result row (R98). -/
def specC (j : Job) (t : SubTile) (i : Nat) : List (Nat × Nat) :=
  let e := jent j (dC j.d)
  if dC j.d == 0 || dOpcode j.d == 5 then []
  else [(rowBase e t.h (dMorg j.d + t.m0 + i) + subFirst j t * fmtBits (tentFmt e) / 8, packedBytes (tentFmt e) (subCols j t))]

/-- The bytes of memory that speculative pass `n` reads. -/
def specReads (s : State) (r : Nat) (j : Job) (t : SubTile) (n : Nat) : List (Nat × Nat) :=
  let (p, piece) := passOf j n
  let inMem (e : TEnt) (l : List (Nat × Nat)) : List (Nat × Nat) := if tentSpace e j.r == .mem then l else []
  let rows := List.range t.rows
  rows.flatMap (fun i => inMem (actEnt j) ((rowLines j t p i).map (fun a => (a, 64))) ++
    inMem (jent j (actEnt j).bscaleIndex) (specScales j t p i) ++ (if n == 0 then inMem (jent j (dC j.d)) (specC j t i) else [])) ++
  (List.range (liveRows (tileRows j) p)).flatMap (rowPort s r j t n) ++
  (if portRow s r j t && piece == 0 then listRows s.mems j t p else []) ++
  (if hasCopy s r t.ctx (wIndex j) (wEnt j).gen then []
   else ((qparamSpans j (wEnt j)).filter (·.sp == .mem)).map (fun x => (x.a, x.n)))

/-- An element before a speculative pass: its start value, or the buffer's pair (R98, R271). -/
def specBefore (ms : Mems) (j : Job) (b : SpecBuf) (i c : Nat) : ElemAcc :=
  if b.passes == 0 then startElem ms j b.sub.h (b.sub.m0 + i) b.sub.g c
  else
    { pair := (b.pairs.getD i []).getD c pairZero,
      w := if jobWide j == .none then .num numZero else (startElem ms j b.sub.h (b.sub.m0 + i) b.sub.g c).w, fl := 0 }

/-- One row of a speculative pass: its elements, each with its own sum's flags (R88). -/
def specRow (ms : Mems) (j : Job) (b : SpecBuf) (bank : Bank) (i : Nat) : List ElemAcc :=
  let q := resultRow ms bank j b.sub b.passes i 0 []
  let zs := subZ ms j b.sub b.passes
  let m := dMorg j.d + b.sub.m0 + i
  ((List.range q.sums.length).zip q.sums).map (fun y =>
    accElem (partInt j) j (b.passes + 1) (specBefore ms j b i y.1) (sumNum q.isInt y.2, q.cols.getD y.1 0)
      (zSum ms j b.sub.h m (nFirst j + 256 * b.sub.g + y.1) zs))

/-- The buffer after one more pass: pairs and flags only (R271, R274). -/
def specAdvance (ms : Mems) (j : Job) (b : SpecBuf) : SpecBuf :=
  let bank := sideBank ms j b.sub b.passes
  let rows := (List.range b.sub.rows).map (specRow ms j b bank)
  let fl := rows.foldl (fun f x => x.foldl (fun f e => f ||| e.fl) f) b.flags
  { b with passes := b.passes + 1, pairs := rows.map (fun x => x.map (·.pair)), flags := fl ||| blockFlags ms j b.sub b.passes }

/-- The next pass stays within spec_passes, leaves the sub-tile a pass of its own, and spills nothing. -/
def specRoom (j : Job) (b : SpecBuf) : Bool :=
  decide (b.passes < b.limit) && decide (b.passes + 1 < b.sub.passes) &&
  !(jobWide j != .none && spillPass (dSpillInt j.d) true (b.passes + 1))

/-- Another array already holds the sub-tile. -/
def specElsewhere (s : State) (a c : Nat) (ring : W32) : Bool :=
  s.arrs.any (fun e => e.1 != a && e.2.spec.any (fun b => ofDesc c ring b.sub))

/-- A speculation that starts now, under the settings as they stand (R270, R271, R277). -/
def specStart (s : State) (a c : Nat) (d0 : Adm) : Option SpecBuf :=
  if !s.regs.specEn || (getArr s a).spec.isSome || specElsewhere s a c d0.ring then none
  else
    match shapeNow s c d0 with
    | none => none
    | some v => (specShape d0 v).bind (fun d =>
        let j := jobOf d (a / 4)
        if runsNowhere j || !specForm s (a / 4) j then none
        else some { sub := subAt s c d j 0 false 0, passes := 0, pairs := [], gens := specGens j d, shape := v, flags := 0, confirmed := false,
                    limit := s.regs.specPasses.toNat, conf := s.regs.confMin.toNat })

/-- The buffer that an array's next speculative pass continues, or begins (R271). -/
def specBuffer (s : State) (a c : Nat) (d0 : Adm) : Option SpecBuf :=
  (((getArr s a).spec.filter (fun b => ofDesc c d0.ring b.sub && !b.confirmed)).orElse (fun _ => specStart s a c d0)).filter
    (fun b => decide (b.conf ≤ (getCtx s c).waitConf.toNat))

/-- One speculative pass of the first sub-tile of a context's descriptor behind its WAITV. -/
def specPass (s : State) (a c : Nat) (rs : RsResult) : State :=
  match (getCtx s c).admitted.find? (fun d => heldByWait s c d) with
  | none => s
  | some d0 =>
    match (specBuffer s a c d0).bind (fun b => (specShape d0 b.shape).map (fun d => (b, d))) with
    | none => s
    | some (b, d) =>
      let j := jobOf d (a / 4)
      if !specRoom j b then s
      else if rs == .uncorrectable || (specReads s (a / 4) j b.sub b.passes).any (fun x => memAccess s c x.1 x.2 != .ok) then
        (if (getArr s a).spec.isSome then squash s a else s)
      else addCnt (setArr s a { getArr s a with spec := some (specAdvance s.mems j b) }) 5 1

/-- SPECULATIVE_PASS (R270, R271, R273, R274, R276): on an array of the context's mask with nothing bound. `rs` is what the checks of
the buffer and of the data read find (log 7). -/
def execSpeculativePass (a : ArrId) (c : CtxId) (rs : RsResult) (s : State) : Host.Outcome State Fault Refusal :=
  .next (if running s && isLive s .array a.val && (getArr s a.val).bound.isEmpty && (followed s a.val).isEmpty && gambitOn s c.val &&
      inMask (ceAffinity (getCtx s c.val).ent) a.val then specPass s a.val c.val rs
    else s)

/-! ### SPEC_CONFIRM -/

/-- Every entry the passes used still has its generation, and the shape word its value (R272). The entries are read again through a
host port (R336), without which the comparison waits. -/
def specHolds (s : State) (c : Nat) (d : Adm) (b : SpecBuf) : Bool :=
  b.gens.all (fun g => memAccess s c (ceTtBase (getCtx s c).ent + 64 * g.1) 64 == .ok && (tentOf (tableEntry s c g.1)).gen == g.2) &&
  shapeNow s c d == some b.shape

/-- The array can take the confirmed sub-tile now: a position, a journal entry and a place on the scoreboard (R253, R255). -/
def specCanBind (s : State) (a : Nat) (t : SubTile) : Bool :=
  canTake s t a && isLive s .region (a / 4) && (freeJournal (getRgn s (a / 4))).isSome && decide (boardOf s (a / 4) < 1024)

/-- Bind the confirmed sub-tile to the array that holds its buffer, charged to DWRR (R272). -/
def specBind (s : State) (a c : Nat) (b : SpecBuf) (d : Adm) : State :=
  let r := a / 4
  let j := jobOf d r
  match residencyStep s c d.ring r true j with
  | none => s
  | some s1 =>
    let t := { subAt s1 c d j 0 false (nextOrder s1) with rows := b.sub.rows }
    let s2 := setAdm s1 c d.ring (fun e => { e with emitted := 1, flags := e.flags ||| routeFlags s c r j })
    let s3 := setCtx s2 c { getCtx s2 c with deficit := (getCtx s2 c).deficit - t.cost }
    setArr (bindTo s3 r a t d j) a { getArr (bindTo s3 r a t d j) a with spec := some { b with confirmed := true } }

/-- The descriptor is begun as DISPATCH would begin it, and its first sub-tile bound. -/
def specDispatch (s : State) (a c : Nat) (b : SpecBuf) (d : Adm) : State :=
  match (shapeStep s c d).next (beginTile c) with
  | .stop s1 => if (findAdm (getCtx s1 c) d.ring).any (fun e => e.result.isSome) then squash s1 a else s1
  | .go s1 d1 => specBind s1 a c b d1

/-- The sub-tile can no longer run on the array: it is routed to a Side Path by now (R190, R191), or the region has no RNG lane for
it (R214). -/
def specUnfit (s : State) (a : Nat) (d : Adm) (b : SpecBuf) : Bool :=
  (specShape d b.shape).all (fun e => sideRouted s (a / 4) (jobOf e (a / 4)) || (laneRegions s (drawsBits (sizedDesc e)) [a / 4]).isEmpty)

/-- Confirm or squash the speculation an array holds for a context (R272, R273). -/
def confirmOne (s : State) (a c : Nat) (lost : Bool) : State :=
  match (getArr s a).spec with
  | none => s
  | some b =>
    if b.sub.ctx != c || b.confirmed then s
    else if lost then squash s a
    else
      match findAdm (getCtx s c) b.sub.ring with
      | none => squash s a
      | some d =>
        if d.result.isSome || d.total.isSome then squash s a
        else if waitHeld (getCtx s c) d.ring || (hostPortFor s c).isNone then s
        else if !specHolds s c d b || specUnfit s a d b then squash s a
        else if !(dispatchable s c d && specCanBind s a b.sub) then s
        else if (specShape d b.shape).any (fun e => (residencyStep s c e.ring (a / 4) true (jobOf e (a / 4))).isNone) then addRgnCnt s (a / 4) 6 1
        else specDispatch s a c b d

/-- SPEC_CONFIRM (R272, R273, R298). `lost` is an array whose speculative buffer has an uncorrectable error (log 7). -/
def execSpecConfirm (c : CtxId) (lost : Option ArrId) (s : State) : Host.Outcome State Fault Refusal :=
  .next (if running s then (List.range 16).foldl (fun t a => confirmOne t a c.val (lost.any (fun b => b.val == a))) s else s)

end Sys2Proof.Machine
end

