-- ==== Sys2Proof/Machine/Replay.lean ====
section
/-!
DEFINITION. Replaying sub-tiles that left their unit (R305 to R307, R320).
-/

namespace Sys2Proof.Machine

/-- The earlier of two places in the order of dispatch; a sub-tile that was never bound has none and comes last. -/
def replayRank (t : SubTile) : Nat × Nat := if t.order == 0 then (1, 0) else (0, t.order)

/-- The sub-tile of a region that is rebound next (R306). -/
def replayNext (x : Region) : Option SubTile :=
  x.replayQ.foldl (fun acc t =>
    match acc with
    | none => some t
    | some u =>
      let a := replayRank t
      let b := replayRank u
      if decide (a.1 < b.1 ∨ (a.1 = b.1 ∧ a.2 < b.2)) then some t else acc) none

/-- Arrays that a sub-tile may ever bind to under its mask: while a pair of it is live, FUSED2 takes a pair's even array (R173). -/
def homesOf (s : State) (t : SubTile) : List Nat :=
  let mask := ceAffinity (getCtx s t.ctx).ent
  (liveArrays s mask).filter (fun a => !(isFused s t && anyPair s mask) || (a % 2 == 0 && pairLive s mask a))

/-- Some of them is another one than it left. -/
def elsewhere (s : State) (t : SubTile) : Bool := (homesOf s t).any (fun a => t.array != some a)

/-- Arrays of region `r` that can take the sub-tile: others than the one it left, where there is another (R58, R306). -/
def replayArray (s : State) (r : Nat) (t : SubTile) : Option Nat :=
  minBy (boundEnd s) ((bindArrays s r t).filter (fun a => !elsewhere s t || t.array != some a))

/-- A region may run the sub-tile: it is LIVE, with an RNG lane where the sub-tile draws bits (R214). -/
def replayFits (s : State) (d : Adm) (q : Nat) : Bool :=
  isLive s .region q && !(laneRegions s (drawsBits (sizedDesc d)) [q]).isEmpty

/-- The region and array for a replay (R177, R306): the same region while it has a LIVE array in the mask, for FUSED2 a live pair while the
mask has one, else another. -/
def replayPlace (s : State) (r : Nat) (t : SubTile) (d : Adm) : Option (Nat × Nat) :=
  let mine := replayFits s d r && (homesOf s t).any (fun a => a / 4 == r && t.array != some a)
  if mine then (replayArray s r t).map (fun a => (r, a))
  else ((([0, 1, 2, 3].filter (· != r)) ++ [r]).filter (replayFits s d)).findSome? (fun q => (replayArray s q t).map (fun a => (q, a)))

/-- The journal entry a rebound sub-tile keeps in its region, or takes in another (R302). -/
def replayEntry (s : State) (r q : Nat) (t : SubTile) : Option Nat :=
  match t.jent with
  | some k => if q == r then some k else freeJournal (getRgn s q)
  | none => freeJournal (getRgn s q)

/-- Its old journal entry is free when the sub-tile goes to another region. -/
def leaveEntry (s : State) (r q : Nat) (t : SubTile) : State :=
  match t.jent with
  | some k => if q == r then s else dropJournal s r k
  | none => s

/-- As a sub-tile is bound again it takes the rows of its own run, whatever band it was a guest in (R53, R54). -/
def asOwn (j : Job) (t : SubTile) : SubTile := { t with bandRows := packRows j }

/-- Bind a replayed sub-tile to array `a` of region `q` at its place in the order of dispatch (R305, R306). -/
def rebind (s : State) (r q a k : Nat) (t : SubTile) (d : Adm) (j : Job) : State :=
  let x := getRgn s r
  let s1 := leaveEntry (setRgn s r { x with replayQ := x.replayQ.erase t }) r q t
  seatTo s1 q a k (asOwn j t) d j

/-- Other sub-tiles of the descriptor still work on units that run (R320). -/
def othersWork (s : State) (t : SubTile) : Bool :=
  s.arrs.any (fun e => arrayRuns s e.1 && e.2.bound.any (ofDesc t.ctx t.ring)) ||
  s.rgns.any (fun e => sideRuns s e.1 && e.2.sideQ.any (ofDesc t.ctx t.ring))

/-- A sub-tile whose descriptor has ended leaves the queue. -/
def forgetReplay (s : State) (r : Nat) (t : SubTile) : State :=
  setRgn s r { getRgn s r with replayQ := (getRgn s r).replayQ.erase t }

/-- A sub-tile that waits to be bound in a region that has no LIVE array or pair, or no RNG lane, for it any more (R214). -/
def stranded (s : State) (r : Nat) (t : SubTile) : Bool := !isLive s .region r || !(homesOf s t).any (fun a => a / 4 == r) || !laneHere s r t

/-- Such sub-tiles go to another region, behind those that left a unit. -/
def moveStranded (s : State) (r : Nat) : State :=
  let x := getRgn s r
  setRgn s r { x with queue := x.queue.filter (fun t => !stranded s r t), replayQ := x.replayQ ++ x.queue.filter (stranded s r) }

/-- The earliest sub-tile that left a unit of region `r` is bound again, or its descriptor ends (R305 to R307, R320). -/
def replayOne (s : State) (r : Nat) : State :=
  match replayNext (getRgn s r) with
  | none => s
  | some t =>
    match subDesc s t with
    | none => forgetReplay s r t
    | some d =>
      if !(regionsOf s (ceAffinity (getCtx s t.ctx).ent)).isEmpty &&
          (laneRegions s (drawsBits (sizedDesc d)) (regionsOf s (ceAffinity (getCtx s t.ctx).ent))).isEmpty then
        endDesc s t.ctx t.ring .unrecoverable
      else if (liveArrays s (ceAffinity (getCtx s t.ctx).ent)).isEmpty then
        (if othersWork s t then s else endDesc s t.ctx t.ring .arraysAbsent)
      else if t.reread then rereadSlot s r t
      else if slotPending s t.ctx t.ring then s
      else
        match replayPlace s r (asOwn (jobOf d r) t) d with
        | none => s
        | some (q, a) =>
          let j := jobOf d q
          match replayEntry s r q t, residencyStep s t.ctx t.ring q true j with
          | some k, some s1 => rebind s1 r q a k t d j
          | some _, none => addRgnCnt s q 6 1
          | none, _ => s

/-- SUBTILE_REPLAY (R305 to R307, R320): the earliest sub-tile that left a unit of region `r`. `odd` is a region-control copy that disagrees
on the update (R28). -/
def execSubtileReplay (r : RgnId) (s : State) (odd : Option (Fin 3) := none) : Host.Outcome State Fault Refusal :=
  .next (if running s then
      (let t := regionVote s r.val odd
       replayOne (moveStranded t r.val) r.val)
    else s)

end Sys2Proof.Machine
end

