-- ==== Sys2Proof/Machine/Sieve.lean ====
section
/-!
DEFINITION. What a mask operation selects (R120, R134 to R138, R413): positions of the target, magnitudes, PRUNE's and REGROW's
choices, the top-k sieve of the gradient, MASKSET's bitmap, and the codes of the new layout.
-/

namespace Sys2Proof.Machine

/-! ### The target as positions -/

def maskTgt (j : Job) : TEnt := jent j (mkTarget j.d)
def maskShadow (j : Job) : TEnt := jent j (mkShadow j.d)

/-- The codes that the forward slots of a quad hold for position (k, n) of an SQ tensor (R120, R122). -/
def slotCode (ms : Mems) (t : TEnt) (r h k n : Nat) : Option Nat :=
  let u := unitSize (tentFmt t)
  let q := k / (4 * u)
  let s := layoutSlots t.layout
  (List.range s).findSome? (fun i =>
    let sl := fwdSlot ms t r h (n / 256) (q * s + i) (n % 256)
    let k0 := (4 * q + sl.idx) * u
    if sl.lo && k0 == k then some sl.codeLo else if sl.hi && k0 + 1 == k then some sl.codeHi else none)

/-- The stored code at (k, n), or nothing where the position is inactive (R120). A dense tensor is active everywhere. -/
def storedAt (ms : Mems) (t : TEnt) (r h k n : Nat) : Option Nat :=
  if t.layout == 0 then some (denseCode ms { t with batchRows := 0 } r h k n)
  else
    match slotCode ms t r h k n with
    | some c => some c
    | none =>
      (((spillRange ms t r h (n / 256) (k / dirPassK (tentFmt t) t.layout)).getD []).find? (fun e => rawK e == k && rawN e == n)).map
        (fun e => e % 2 ^ fmtBits (tentFmt t))

/-- Every position of a head in the order of L = k * N + n (R134). -/
def headCodes (ms : Mems) (j : Job) (h : Nat) : List (Option Nat) :=
  let t := maskTgt j
  (List.range (t.dim0 * t.dim1)).map (fun l => storedAt ms t j.r h (l / t.dim1) (l % t.dim1))

/-- A spill list of the target is out of order (R124). -/
def targetListsBad (ms : Mems) (j : Job) : Bool :=
  let t := maskTgt j
  t.layout != 0 && (List.range (mkHeads j.d)).any (fun h =>
    (allRanges (spillRange ms t j.r h) (groups t.dim1) (ceilDiv (slotRows t) 256)).isNone)

/-- The positions of the scope units within the range (R134): the whole range, one k-row, or one n-column. -/
def scopeUnits (j : Job) : List (List Nat) :=
  let t := maskTgt j
  let r := mkRangeOf j.d t
  let ks := (List.range (r.k1 - r.k0)).map (· + r.k0)
  let ns := (List.range (r.n1 - r.n0)).map (· + r.n0)
  if mkScope j.d == 1 then ks.map (fun k => ns.map (fun n => k * t.dim1 + n))
  else if mkScope j.d == 2 then ns.map (fun n => ks.map (fun k => k * t.dim1 + n))
  else [ks.flatMap (fun k => ns.map (fun n => k * t.dim1 + n))]

/-! ### Order by magnitude (R134) -/

/-- The magnitude of a weight: of the value the array multiplies. -/
def maskMag (ms : Mems) (j : Job) (h l code : Nat) : Num :=
  let t := maskTgt j
  let k := l / t.dim1
  let n := l % t.dim1
  numAbs (
    if t.expand != 0 then
      (match expandArgs ms j t code n with
       | .inl e => decodeElem .fp16 e
       | .inr (d, s) => (expandValue d s).1)
    else
      match wScale ms j t t.dim1 h k n with
      | some e => numScale (elemVal t code) e
      | none => .nan)

/-- Magnitudes in order, NaN above +Inf. -/
def magLt (a b : Num) : Bool := !numIsNan a && (numIsNan b || numLt a b)

/-- Least magnitude first, then the lower L; or greatest first, then the lower L. -/
def leastFirst (a b : Num × Nat) : Bool := magLt a.1 b.1 || (!magLt b.1 a.1 && decide (a.2 < b.2))
def greatestFirst (a b : Num × Nat) : Bool := magLt b.1 a.1 || (!magLt a.1 b.1 && decide (a.2 < b.2))

/-- Insertion into a list that `before` orders. -/
def insertBy {α : Type} (before : α → α → Bool) (x : α) : List α → List α
  | [] => [x]
  | y :: ys => if before x y then x :: y :: ys else y :: insertBy before x ys

def sortBy {α : Type} (before : α → α → Bool) (l : List α) : List α := l.foldr (insertBy before) []

/-! ### PRUNE (R135) -/

/-- The active positions of a list with their magnitudes. -/
def activeMags (ms : Mems) (j : Job) (h : Nat) (codes : List (Option Nat)) (ls : List Nat) : List (Num × Nat) :=
  ls.filterMap (fun l => (codes.getD l none).map (fun c => (maskMag ms j h l c, l)))

/-- The positions of head `h` that PRUNE makes inactive. -/
def pruned (ms : Mems) (j : Job) (h : Nat) (codes : List (Option Nat)) : List Nat :=
  (scopeUnits j).flatMap (fun ls =>
    let act := activeMags ms j h codes ls
    if mkMode j.d then ((sortBy leastFirst act).take (mkSelect j.d)).map (·.2)
    else (act.filter (fun x => numLt x.1 (fp32Of (BitVec.ofNat 32 (mkSelect j.d))))).map (·.2))

/-! ### REGROW (R136, R137) -/

/-- Positions of head `h` that a Bernoulli REGROW activates. -/
def drawn (j : Job) (h : Nat) (codes : List (Option Nat)) : List Nat :=
  let t := maskTgt j
  (scopeUnits j).flatMap (fun ls => ls.filter (fun l =>
    (codes.getD l none).isNone && bernoulli j.draw purpRegrow (h * t.dim0 * t.dim1 + l) (mkSelect j.d)))

/-- The product of A and B at (k, n) as MGRAD forms it (R132, R137): one element of a tile of one column group. -/
def gradJob (j : Job) (k n cols : Nat) : Job :=
  let d0 : List W64 := [5, BitVec.ofNat 64 (mkSrc1 j.d + 2 ^ 16 * mkSrc2 j.d), 0, 0, 0, 0, 0, 0]
  let d1 := setFld (setFld (setFld (setFld d0 0x18 16 0 1) 0x18 27 17 (min 256 (cols - 256 * (n / 256)))) 0x18 48 28 (mkTokens j.d)) 0x18 61 49 1
  { j with d := setFld (setFld d1 0x20 31 0 k) 0x20 47 32 (n / 256), p := [] }

/-- g at position `l` of head `h` as FP32 (R137). DESIGN CHOICE (log 42): a stored gradient is taken by its element
codes, and block scales attached to it are not applied. -/
def gradAt (ms : Mems) (j : Job) (h l : Nat) : Num :=
  let t := maskTgt j
  let k := l / t.dim1
  let n := l % t.dim1
  if mkSrc0 j.d != 0 then
    let g := jent j (mkSrc0 j.d)
    (toFp32 (elemVal g (denseCode ms g j.r h k n))).1
  else
    let gj := gradJob j k n t.dim1
    (toFp32 (elemFinal (jobInt gj) gj (runElem ms gj (fun _ => []) h 0 0 (n % 256)).1).1).1

/-- |g| of a position as the bits of FP32. -/
def gradMag (ms : Mems) (j : Job) (h l : Nat) : Nat := (fp32Code (numAbs (gradAt ms j h l))).toNat

/-- Candidates of a scope unit: inactive positions whose gradient is no NaN. -/
def candidatesOf (ms : Mems) (j : Job) (h : Nat) (codes : List (Option Nat)) (ls : List Nat) : List Nat :=
  ls.filter (fun l => (codes.getD l none).isNone && !numIsNan (gradAt ms j h l))

/-- Some inactive position in the range has a NaN gradient. -/
def nanGradient (ms : Mems) (j : Job) (h : Nat) (codes : List (Option Nat)) : Bool :=
  (scopeUnits j).any (fun ls => ls.any (fun l => (codes.getD l none).isNone && numIsNan (gradAt ms j h l)))

/-- The bin of a candidate in a stage of the narrowing: bits of |g|, then of L with the lowest first. -/
def sieveKey (stage mag l : Nat) : Nat :=
  match stage with
  | 0 => bits mag 30 19
  | 1 => bits mag 18 7
  | 2 => bits mag 6 0
  | n => 4095 - bits l (47 - 12 * (n - 3)) (36 - 12 * (n - 3))

/-- The highest bin from which upward at least `left` candidates lie. -/
def boundaryBin (keys : List Nat) (left : Nat) : Option Nat :=
  (keys.filter (fun k => decide (left ≤ (keys.filter (fun q => decide (k ≤ q))).length))).foldl
    (fun m k => match m with
      | none => some k
      | some q => some (max q k)) none

/-- The Mask Unit's candidate buffer (R137). -/
def sieveCap : Nat := 131072

/-- Split a unit's candidates at the boundary bin of a stage. -/
def narrow (mag : Nat → Nat) (x : SieveUnit) : SieveUnit :=
  let key (l : Nat) : Nat := sieveKey x.stage (mag l) l
  match boundaryBin (x.bin.map key) x.left with
  | none => { x with acc := x.acc ++ x.bin, bin := [], left := 0, stage := x.stage + 1 }
  | some b =>
    let above := x.bin.filter (fun l => decide (b < key l))
    { x with acc := x.acc ++ above, bin := x.bin.filter (fun l => key l == b), left := x.left - above.length, stage := x.stage + 1 }

/-- One sweep of a unit: it narrows the bin, or takes the buffered candidates and chooses among them exactly. -/
def sieveStep (mag : Nat → Nat) (x : SieveUnit) : SieveUnit :=
  if x.fin then x
  else if x.stage == 0 || decide (sieveCap < x.bin.length) then narrow mag x
  else
    let best (a b : Nat) : Bool := decide (mag b < mag a ∨ (mag a = mag b ∧ a < b))
    { x with acc := x.acc ++ (sortBy best x.bin).take x.left, bin := [], left := 0, fin := true }

/-- The sieve before its first sweep: `count` positions are to be taken in each unit. -/
def sieveStart (ms : Mems) (j : Job) (h : Nat) (codes : List (Option Nat)) : List SieveUnit :=
  (scopeUnits j).map (fun ls =>
    { acc := [], bin := if mkSelect j.d == 0 then [] else candidatesOf ms j h codes ls, left := mkSelect j.d, stage := 0, fin := false })

/-! ### MASKSET (R138) -/

/-- The bitmap's bit for position `l` of the range, or the current mask without a bitmap. -/
def bitmapAt (ms : Mems) (j : Job) (h : Nat) (codes : List (Option Nat)) (l : Nat) : Bool :=
  let t := maskTgt j
  let r := mkRangeOf j.d t
  if mkSrc0 j.d == 0 then (codes.getD l none).isSome
  else
    let b := jent j (mkSrc0 j.d)
    let n := l % t.dim1 - r.n0
    let a := b.base + headOff b h + (l / t.dim1 - r.k0) * roundUp (ceilDiv (r.n1 - r.n0) 8) 64 + n / 8
    (rdByte ms (tentSpace b j.r) a).toNat.testBit (n % 8)

/-! ### The new active set -/

/-- Positions in the range. -/
def inRangeOf (j : Job) (l : Nat) : Bool :=
  let t := maskTgt j
  let r := mkRangeOf j.d t
  decide (r.k0 ≤ l / t.dim1 ∧ l / t.dim1 < r.k1 ∧ r.n0 ≤ l % t.dim1 ∧ l % t.dim1 < r.n1)

/-- The new mask of a head from its old codes: `off` become inactive, `on` active. -/
def newMask (codes : List (Option Nat)) (off on : List Nat) : List Bool :=
  ((List.range codes.length).zip codes).map (fun x => (x.2.isSome && !off.contains x.1) || on.contains x.1)

/-- The new mask of head `h` where no gradient is swept: PRUNE, Bernoulli REGROW, MASKSET. -/
def selectHead (ms : Mems) (j : Job) (h : Nat) : List Bool :=
  let codes := headCodes ms j h
  if dOpcode j.d == 0x10 then newMask codes (pruned ms j h codes) []
  else if dOpcode j.d == 0x11 then newMask codes [] (drawn j h codes)
  else ((List.range codes.length).zip codes).map (fun x => if inRangeOf j x.1 then bitmapAt ms j h codes x.1 else x.2.isSome)

/-- Promotions of a head: positions that become active (R136). -/
def promotionsOf (codes : List (Option Nat)) (mask : List Bool) : Nat :=
  ((codes.zip mask).filter (fun x => x.1.isNone && x.2)).length

/-! ### Codes of the new layout (R136, R138) -/

/-- Convert a value to the target's stored format: to nearest and saturating; a NaN without a code becomes +0. -/
def maskConv (f : Fmt) (x : Num) : Nat × TFlags :=
  if numIsNan x then
    (match fmtNan f with
     | some c => (c, 0)
     | none => (0, flNanSeen))
  else ((convertSat f x).code, flagIf ((convertSat f x).flags != 0) flSat)

/-- The code of a value tensor for position `l` of the range (R138). DESIGN CHOICE (log 42): its element codes are
converted, and block scales attached to it are not applied. -/
def valueAt (ms : Mems) (j : Job) (h l : Nat) : Nat × TFlags :=
  let t := maskTgt j
  let r := mkRangeOf j.d t
  let v := { jent j (mkSrc1 j.d) with batchRows := 0 }
  let c := denseCode ms v j.r h (l / t.dim1 - r.k0) (l % t.dim1 - r.n0)
  if v.fmtCode == t.fmtCode then (c, 0) else maskConv (tentFmt t) (decodeElem (tentFmt v) c)

/-- The code and flags of an active position of the new mask. -/
def newCode (ms : Mems) (j : Job) (h l : Nat) (old : Option Nat) : Nat × TFlags :=
  if dOpcode j.d == 0x12 && mkSrc1 j.d != 0 && inRangeOf j l then valueAt ms j h l
  else
    match old with
    | some c => (c, 0)
    | none => maskConv (tentFmt (maskTgt j)) (fp32Of (mkFill j.d))

/-- Codes of a head under its new mask, and the flags that writing them raises. -/
def newCodes (ms : Mems) (j : Job) (h : Nat) (mask : List Bool) : List (Option Nat) × TFlags :=
  let codes := headCodes ms j h
  let cs := ((List.range codes.length).zip (codes.zip mask)).map (fun x =>
    if x.2.2 then let (c, f) := newCode ms j h x.1 x.2.1; (some c, f) else ((none : Option Nat), (0 : TFlags)))
  (cs.map (·.1), cs.foldl (fun f x => f ||| x.2) 0)

end Sys2Proof.Machine
end

