-- ==== Sys2Proof/Machine/Layout.lean ====
section
/-!
DEFINITION. The layout a mask operation writes into the shadow (R119 to R124, R127 to R129, R139, R140): slot rows, spill list,
T-map and T-overflow list of a head.
-/

namespace Sys2Proof.Machine

/-- A quad unit of a column in the new layout: its position, and its members' codes where they are active. -/
structure LUnit where
  pos : Nat
  members : List (Option Nat)
  deriving DecidableEq, Repr

/-- A list entry of the new layout, by position. -/
structure LEntry where
  k : Nat
  n : Nat
  low : Nat
  deriving DecidableEq, Repr

/-- The units of quad `q` of a column: `codeAt` gives the codes along the axis that quads cut. -/
def quadUnits (u size : Nat) (codeAt : Nat → Option Nat) (q : Nat) : List LUnit :=
  (List.range 4).map (fun pos => { pos := pos, members := (List.range u).map (fun i =>
    let k := (4 * q + pos) * u + i
    if k < size then codeAt k else none) })

def LUnit.active (x : LUnit) : Bool := x.members.any (·.isSome)

/-- The units that fill the slots of a quad, by slot, and the units that find none (R120). With four slots, slot j holds
unit j. -/
def fillSlots (s : Nat) (us : List LUnit) : List (Option LUnit) × List LUnit :=
  if s == 4 then (us.map (fun x => if x.active then some x else none), [])
  else
    let act := us.filter (·.active)
    ((List.range s).map (fun i => act[i]?), act.drop s)

/-- The new code at (k, n) of a head. -/
def codeOfPos (t : TEnt) (codes : List (Option Nat)) (k n : Nat) : Option Nat := codes.getD (k * t.dim1 + n) none

/-- The forward quad `q` of column `n`: its slots and what spills (R120). -/
def fwdQuad (t : TEnt) (codes : List (Option Nat)) (n q : Nat) : List (Option LUnit) × List LUnit :=
  fillSlots (layoutSlots t.layout) (quadUnits (unitSize (tentFmt t)) t.dim0 (fun k => codeOfPos t codes k n) q)

/-- The spill entries of column `n`, in ascending k (R123). -/
def columnSpills (t : TEnt) (codes : List (Option Nat)) (n : Nat) : List LEntry :=
  let u := unitSize (tentFmt t)
  (List.range (quads (tentFmt t) t.dim0)).flatMap (fun q =>
    (fwdQuad t codes n q).2.flatMap (fun x => ((List.range u).zip x.members).filterMap (fun m =>
      m.2.map (fun c => { k := (4 * q + x.pos) * u + m.1, n := n, low := c }))))

/-- The forward slot that holds position (k, n), unless it is inactive or spilled. -/
def fwdSlotOf (t : TEnt) (codes : List (Option Nat)) (k n : Nat) : Option Nat :=
  let u := unitSize (tentFmt t)
  if (codeOfPos t codes k n).isNone then none
  else
    let slots := (fwdQuad t codes n (k / (4 * u))).1
    (List.range slots.length).find? (fun i => (slots.getD i none).any (fun x => x.pos == k / u % 4))

/-- The transposed quad `q` of output column `k` (R127): its members carry the forward slots of forward-slotted positions. -/
def transQuad (t : TEnt) (codes : List (Option Nat)) (k q : Nat) : List (Option LUnit) × List LUnit :=
  fillSlots (layoutSlots t.tmapLayout) (quadUnits (unitSize (tentFmt t)) t.dim1 (fun n => fwdSlotOf t codes k n) q)

/-- The T-overflow entries of output column `k`, in ascending n (R129). -/
def columnTovers (t : TEnt) (codes : List (Option Nat)) (k : Nat) : List LEntry :=
  let u := unitSize (tentFmt t)
  (List.range (quads (tentFmt t) t.dim1)).flatMap (fun q =>
    (transQuad t codes k q).2.flatMap (fun x => ((List.range u).zip x.members).filterMap (fun m =>
      m.2.map (fun c => { k := k, n := (4 * q + x.pos) * u + m.1, low := c }))))

/-! ### Lists and directories (R124, R129) -/

def entryBefore (minor : LEntry → Nat × Nat × Nat × Nat) (a b : LEntry) : Bool :=
  let x := minor a
  let y := minor b
  decide (x.1 < y.1 ∨ (x.1 = y.1 ∧ (x.2.1 < y.2.1 ∨ (x.2.1 = y.2.1 ∧ (x.2.2.1 < y.2.2.1 ∨ (x.2.2.1 = y.2.2.1 ∧ x.2.2.2 < y.2.2.2))))))

/-- Spill entries in the order g, p, k, n. -/
def spillRank (t : TEnt) (e : LEntry) : Nat × Nat × Nat × Nat := (e.n / 256, e.k / dirPassK (tentFmt t) t.layout, e.k, e.n)
def spillList (t : TEnt) (codes : List (Option Nat)) : List LEntry :=
  sortBy (entryBefore (spillRank t)) ((List.range t.dim1).flatMap (columnSpills t codes))

/-- T-overflow entries in the order g', p', n, k. -/
def toverRank (t : TEnt) (e : LEntry) : Nat × Nat × Nat × Nat := (e.k / 256, e.n / dirPassK (tentFmt t) t.tmapLayout, e.n, e.k)
def toverList (t : TEnt) (codes : List (Option Nat)) : List LEntry :=
  if !hasTmap t then [] else sortBy (entryBefore (toverRank t)) ((List.range t.dim0).flatMap (columnTovers t codes))

/-- The bytes of a directory with its entries behind it; padding takes open bits. -/
def listBytes (rank : LEntry → Nat × Nat × Nat × Nat) (gs ps : Nat) (es : List LEntry) (fill : Nat → Byte) : List Byte :=
  let word (i : Nat) : Nat := (es.filter (fun e => decide ((rank e).1 * ps + (rank e).2.1 < i))).length
  let dir := (List.range (gs * ps + 1)).flatMap (fun i => leBytes 4 (word i))
  dir ++ (List.range (dirBytes gs ps - dir.length)).map (fun i => fill (dir.length + i)) ++
    es.flatMap (fun e => leBytes 8 (e.low + 2 ^ 16 * e.k + 2 ^ 40 * e.n))

/-! ### Slot rows and the T-map (R122, R128) -/

/-- The value plane's codes and the metadata nibbles of slot row `rho` of group `g`; `fill` gives the open bits. -/
def newSlotRow (t : TEnt) (codes : List (Option Nat)) (g rho : Nat) (fill : Nat → Byte) : List Byte :=
  let f := tentFmt t
  let u := unitSize f
  let w := if f == .e2m1 then 4 else fmtBits f
  let s := layoutSlots t.layout
  let slot (c : Nat) : Option LUnit :=
    if 256 * g + c < t.dim1 then ((fwdQuad t codes (256 * g + c) (rho / s)).1).getD (rho % s) none else none
  let open_ (i bits : Nat) : Nat := (fill (2 * i)).toNat % 2 ^ bits + 256 * (fill (2 * i + 1)).toNat % 2 ^ bits
  let cs := (List.range 256).flatMap (fun c => (List.range u).map (fun i =>
    match slot c with
    | some x => (x.members.getD i none).getD (open_ (u * c + i) w % 2 ^ w)
    | none => open_ (u * c + i) w % 2 ^ w))
  let nibs := (List.range 256).map (fun c =>
    match slot c with
    | some x => x.pos + 4 * b2n (x.members.getD 0 none).isSome + 8 * b2n (x.members.getD 1 none).isSome
    | none => (fill (1024 + c)).toNat % 4)
  planeBytes f cs ++ leBytes 128 (packCodes 4 nibs)

/-- The T-map row `rho` of transposed group `g`: the open bits of a slot are its empty members' forward slots, and the
slot_index of an empty slot (R128). -/
def newTmapRow (t : TEnt) (codes : List (Option Nat)) (g rho : Nat) (fill : Nat → Byte) : List Byte :=
  let s := layoutSlots t.tmapLayout
  (List.range 256).map (fun c =>
    let slot := if 256 * g + c < t.dim0 then ((transQuad t codes (256 * g + c) (rho / s)).1).getD (rho % s) none else none
    let open_ := (fill c).toNat % (if unitSize (tentFmt t) == 2 then 256 else 64)
    match slot with
    | none => BitVec.ofNat 8 (open_ % 4 + 16 * (open_ / 16))
    | some x =>
      let lo := x.members.getD 0 none
      let hi := x.members.getD 1 none
      BitVec.ofNat 8 (x.pos + 4 * b2n lo.isSome + 8 * b2n hi.isSome + 16 * (lo.getD (open_ / 16 % 4)) +
        64 * (hi.getD (open_ / 64))))

/-! ### The whole shadow of a head -/

/-- Open bits of operation `op` in the row or list at an address. -/
def openAt (op a : Nat) (i : Nat) : Byte := Config.maskFill op a i

/-- Every write of a head of the new layout: slot rows, spill list, T-map, T-overflow list. -/
def layoutWrites (op : Nat) (j : Job) (h : Nat) (codes : List (Option Nat)) : List MemWrite :=
  let t := maskShadow j
  let sp := tentSpace t j.r
  let one (a : Nat) (f : (Nat → Byte) → List Byte) : MemWrite := { sp := sp, addr := a, bytes := f (openAt op a) }
  let sb := t.spillBase + headOff t h
  let rows := (List.range (groups t.dim1)).flatMap (fun g => (List.range (slotRows t)).map (fun rho =>
    one (slotRowAddr t h g rho) (newSlotRow t codes g rho)))
  let spills := one sb (listBytes (spillRank t) (groups t.dim1) (ceilDiv (slotRows t) 256) (spillList t codes))
  if !hasTmap t then rows ++ [spills]
  else
    rows ++ [spills] ++
    (List.range (groups t.dim0)).flatMap (fun g => (List.range (tmapRows t)).map (fun rho =>
      one (sb + 64 * t.tmapOff + (g * tmapRows t + rho) * 256) (newTmapRow t codes g rho))) ++
    [one (sb + 64 * t.toverOff) (listBytes (toverRank t) (groups t.dim0) (ceilDiv (tmapRows t) 256) (toverList t codes))]

/-- The regions of a shadow's head, values first: address and bytes (R133). -/
def shadowRanges (j : Job) (h : Nat) : List (Nat × Nat) :=
  let t := maskShadow j
  let sb := t.spillBase + headOff t h
  [(slotRowAddr t h 0 0, groups t.dim1 * slotRows t * slotRowBytes (tentFmt t)),
   (sb, dirBytes (groups t.dim1) (ceilDiv (slotRows t) 256) + 8 * t.spillCap)] ++
  (if !hasTmap t then []
   else [(sb + 64 * t.tmapOff, groups t.dim0 * tmapRows t * 256),
         (sb + 64 * t.toverOff, dirBytes (groups t.dim0) (ceilDiv (tmapRows t) 256) + 8 * t.toverCap)])

/-- A shadow that returns to the driver with undefined contents (R140). -/
def openWrites (op : Nat) (j : Job) : List MemWrite :=
  (List.range (mkHeads j.d)).flatMap (fun h => (shadowRanges j h).map (fun x =>
    { sp := tentSpace (maskShadow j) j.r, addr := x.1, bytes := (List.range x.2).map (openAt op x.1) }))

end Sys2Proof.Machine
end

