-- ==== Sys2Proof/Machine/Mask.lean ====
section
/-!
DEFINITION. Mask operations from their start to their record (R133 to R144, R301, R327, R413): PRUNE, REGROW, MASKSET, the
sweeps, the rebuild, the commit, the retirement, and the recovery of a commit in doubt.
-/

namespace Sys2Proof.Machine

/-! ### Shared pieces -/

/-- Heads of the operation. -/
def maskHeadList (j : Job) : List Nat := List.range (mkHeads j.d)

/-- Put an operation's progress into its descriptor, and into its journal record (R301). -/
def putMask (s : State) (c : Nat) (d : Adm) (m : MaskOp) : State :=
  let s1 := setAdm s c d.ring (fun e => { e with mask := some m })
  match m.jent with
  | some k => putJournal s1 m.region k (maskJournal c d m.phase m.sweep)
  | none => s1

/-- The ranges of the target that the operation reads (R122, R124). -/
def targetSpans (j : Job) : List Span :=
  let t := maskTgt j
  let heads := mkHeads j.d
  (if t.layout == 0 then rowSpans j { t with batchRows := 0 } heads 0 t.dim0 0 t.dim1
   else (maskHeadList j).flatMap (fun h =>
    [{ sp := tentSpace t j.r, a := slotRowAddr t h 0 0, n := groups t.dim1 * slotRows t * slotRowBytes (tentFmt t) }, spillSpan j t h])) ++
  wScaleSpans j t heads 0 t.dim0 t.dim1 0 t.dim1 ++ qparamSpans j t

/-- The bitmap and the value tensor, the stored gradient, or A and B with their scales (R137, R138). -/
def sourceSpans (j : Job) : List Span :=
  let t := maskTgt j
  let r := mkRangeOf j.d t
  let heads := mkHeads j.d
  if dOpcode j.d == 0x12 then
    (if mkSrc0 j.d == 0 then [] else (maskHeadList j).map (fun h =>
      entSpan j (jent j (mkSrc0 j.d)) (headOff (jent j (mkSrc0 j.d)) h) ((r.k1 - r.k0) * roundUp (ceilDiv (r.n1 - r.n0) 8) 64))) ++
    (if mkSrc1 j.d == 0 then [] else rowSpans j { jent j (mkSrc1 j.d) with batchRows := 0 } heads 0 (r.k1 - r.k0) 0 (r.n1 - r.n0))
  else if dOpcode j.d == 0x11 && !mkMode j.d then
    (if mkSrc0 j.d != 0 then rowSpans j (jent j (mkSrc0 j.d)) heads 0 t.dim0 0 t.dim1
     else
      let a := jent j (mkSrc1 j.d)
      let b := jent j (mkSrc2 j.d)
      rowSpans j a heads 0 (mkTokens j.d) 0 t.dim0 ++ actScaleSpans j a heads 0 t.dim0 a.dim0 0 (mkTokens j.d) ++
      rowSpans j { b with batchRows := 0 } heads 0 (mkTokens j.d) 0 t.dim1 ++
      wScaleSpans j b heads 0 (mkTokens j.d) b.dim1 0 t.dim1 ++ qparamSpans j b)
  else []

/-- Everything the operation writes. -/
def shadowSpans (j : Job) : List Span :=
  (maskHeadList j).flatMap (fun h => (shadowRanges j h).map (fun x => { sp := tentSpace (maskShadow j) j.r, a := x.1, n := x.2 }))

/-- The operation swept by a gradient (R137). -/
def sweeps (j : Job) : Bool := dOpcode j.d == 0x11 && !mkMode j.d

/-- An operation in a phase, whose Mask Unit is in service: one in a region that drains finishes (R317). -/
def maskIn (s : State) (c phase : Nat) : Option (Adm × MaskOp × Job) :=
  ((getCtx s c).admitted.find? (fun d => d.result.isNone && d.mask.any (fun m => m.phase == phase && regionServes s m.region))).bind
    (fun d => d.mask.map (fun m => (d, m, jobOf d m.region)))

/-! ### The start: PRUNE, REGROW, MASKSET -/

/-- The phases that follow admission: the sieve is set up for a gradient, else the new mask is selected (R133, R135, R136, R138). -/
def maskBegin (ms : Mems) (j : Job) (m : MaskOp) : MaskOp :=
  let heads := maskHeadList j
  if sweeps j then
    { m with
      phase := 1, sieve := heads.map (fun h => sieveStart ms j h (headCodes ms j h)),
      flags := m.flags ||| flagIf (heads.any (fun h => nanGradient ms j h (headCodes ms j h))) flNanSeen }
  else
    let sel := heads.map (selectHead ms j)
    { m with phase := 3, sel := sel,
             promotions := if dOpcode j.d != 0x11 then 0 else (heads.zip sel).foldl (fun n x => n + promotionsOf (headCodes ms j x.1) x.2) 0 }

/-- Start the operation on the Mask Unit of region `r`; it waits while the journal is full. -/
def maskRun (s : State) (c r : Nat) (d : Adm) : State :=
  let j := jobOf d r
  match spansAccess s c (targetSpans j ++ sourceSpans j) (shadowSpans j) with
  | .xlate a => xlateFail s c d.ring a
  | .poison a => poisonFail s r c d.ring a
  | .ok =>
    if targetListsBad s.mems j then endDesc s c d.ring .badRsvd
    else
      match freeJournal (getRgn s r) with
      | none => s
      | some k =>
        let m := maskBegin s.mems j { freshMask with region := r, jent := some k }
        let s1 := putMask (chargeRd s c (memBytes (targetSpans j ++ (if sweeps j then [] else sourceSpans j)))) c d m
        if dOpcode d.desc == 0x11 && mkMode d.desc then askRng s1 r 2 c d.ring.toNat ((scopeUnits j).flatMap (fun l => l)).length else s1

/-- A mask operation from its dispatch to its first phase (R139, R214, R321): the sweeps of a gradient use the arrays, every other one
runs on its Mask Unit alone and needs none (R220). -/
def maskOp (s : State) (c : Nat) (d : Adm) : State :=
  if dOpcode d.desc == 0x11 && !mkMode d.desc then (regionStep s c d false (fun rs => .stop (maskRun s c (rs.headD 0) d))).state
  else (unitStep s c d (dOpcode d.desc == 0x11) (fun rs => .stop (maskRun s c (rs.headD 0) d))).state

/-- PRUNE (R135). -/
def execPrune (c : CtxId) (i : W32) (s : State) : Host.Outcome State Fault Refusal :=
  .next (descCommand s c.val i 0x10 (fun t d => maskOp t c.val d))

/-- REGROW (R136). -/
def execRegrow (c : CtxId) (i : W32) (s : State) : Host.Outcome State Fault Refusal :=
  .next (descCommand s c.val i 0x11 (fun t d => maskOp t c.val d))

/-- MASKSET (R138). -/
def execMaskset (c : CtxId) (i : W32) (s : State) : Host.Outcome State Fault Refusal :=
  .next (descCommand s c.val i 0x12 (fun t d => maskOp t c.val d))

/-! ### MASK_SWEEP (R137) -/

/-- The operation after one more sweep; when every unit has chosen, the new mask is known. -/
def sweepOnce (ms : Mems) (j : Job) (m : MaskOp) : MaskOp :=
  let heads := maskHeadList j
  let sieve := (heads.zip m.sieve).map (fun x => x.2.map (sieveStep (gradMag ms j x.1)))
  let m1 := { m with sweep := m.sweep + 1, sieve := sieve }
  if sieve.all (fun us => us.all (·.fin)) then
    let sel := (heads.zip sieve).map (fun x => newMask (headCodes ms j x.1) [] (x.2.flatMap (·.acc)))
    { m1 with phase := 3, sel := sel, promotions := (heads.zip sel).foldl (fun n x => n + promotionsOf (headCodes ms j x.1) x.2) 0 }
  else m1

/-- A sweep over A and B is charged as the dense product it makes (R137, R358). -/
def chargeSweep (s : State) (c : Nat) (j : Job) : State :=
  if mkSrc0 j.d != 0 then s
  else
    let t := maskTgt j
    let g := gradJob j 0 0 t.dim1
    let md := jobMode g
    let passes := passesOf g * piecesOf md * groups t.dim1 * mkHeads j.d
    let a := getAcct s c
    setAcct s c { a with
      macOps := a.macOps + BitVec.ofNat 64 (mkHeads j.d * t.dim0 * t.dim1 * mkTokens j.d),
      arrayCycles := a.arrayCycles + BitVec.ofNat 64 (passes * max (rowCycles md * t.dim0 + 5) 257),
      passes := a.passes + BitVec.ofNat 64 passes }

def maskSweepOp (s : State) (c : Nat) : State :=
  match maskIn s c 1 with
  | none => s
  | some (d, m, j) =>
    if !(List.range 16).any (fun a => inMask (ceAffinity (getCtx s c).ent) a && arrayRuns s a) then endDesc s c d.ring .arraysAbsent
    else
      match spansAccess s c (sourceSpans j) [] with
      | .xlate a => xlateFail s c d.ring a
      | .poison a => poisonFail s m.region c d.ring a
      | .ok => putMask (chargeSweep (chargeRd s c (memBytes (sourceSpans j))) c j) c d (sweepOnce s.mems j m)

/-- MASK_SWEEP. -/
def execMaskSweep (c : CtxId) (s : State) : Host.Outcome State Fault Refusal :=
  .next (if running s then maskSweepOp s c.val else s)

/-! ### MASK_REBUILD (R139, R140) -/

/-- The largest number of entries among the heads (R413). -/
def largest (l : List Nat) : Nat := l.foldl max 0

/-- The codes of every head under the new mask, and their flags. -/
def maskCodes (ms : Mems) (j : Job) (m : MaskOp) : List (List (Option Nat)) × TFlags :=
  let per := (maskHeadList j).map (fun h => newCodes ms j h (m.sel.getD h []))
  (per.map (·.1), per.foldl (fun f x => f ||| x.2) 0)

def maskRebuildOp (s : State) (c : Nat) : State :=
  match maskIn s c 3 with
  | none => s
  | some (d, m, j) =>
    if hashesDue s m.region 2 c d.ring then s else
    let (codes, fl) := maskCodes s.mems j m
    let t := maskShadow j
    let spills := largest (codes.map (fun x => (spillList t x).length))
    let tovers := largest (codes.map (fun x => (toverList t x).length))
    let (_, s1) := freeNext s
    let full (n : Nat) : State :=
      finish (writesWaking s1 (openWrites s.freeCnt j)) c d
        { plainResult .spillFull (d.flags ||| m.flags ||| fl) with shortfall := BitVec.ofNat 32 n }
    if t.spillCap < spills then full spills
    else if hasTmap t && decide (t.toverCap < tovers) then full tovers
    else
      let ws := ((maskHeadList j).zip codes).flatMap (fun x => layoutWrites s.freeCnt j x.1 x.2)
      let n := ws.foldl (fun n w => if w.sp == .mem then n + w.bytes.length else n) 0
      putMask (chargeWr (writesWaking s1 ws) c n) c d
        { m with phase := 4, spillNeed := spills, toverNeed := tovers, flags := m.flags ||| fl }

/-- MASK_REBUILD. -/
def execMaskRebuild (c : CtxId) (s : State) : Host.Outcome State Fault Refusal :=
  .next (if running s then maskRebuildOp s c.val else s)

/-! ### MASK_COMMIT (R141, R336) -/

/-- The address of a target's tensor-table entry. -/
def entryAddr (s : State) (c i : Nat) : Nat := ceTtBase (getCtx s c).ent + 64 * i

/-- The entry that the commit writes: the shadow's, with the next generation and the counts of the new layout. -/
def committedEntry (w : List W64) (gen : W32) (spills tovers : Nat) : List W64 :=
  let a := setFld w 0x08 31 0 gen.toNat
  let b := setFld a 0x28 31 0 spills
  setFld b 0x30 31 0 tovers

/-- A commit that wraps the generation to 0 invalidates every copy of the target (R145). -/
def dropAtWrap (s : State) (c : Nat) (d : Adm) : State :=
  if mkGen d.desc + 1 == 0 then dropCopies s c [mkTarget d.desc] else s

def maskCommitOp (s : State) (c : Nat) : State :=
  match maskIn s c 4 with
  | none => s
  | some (d, m, _) =>
    let a := entryAddr s c (mkTarget d.desc)
    match memWriteAccess s c a 64 with
    | .xlate f => xlateFail s c d.ring f
    | _ =>
      let e := committedEntry (tget [] d.entries (mkShadow d.desc)) (mkGen d.desc + 1) m.spillNeed m.toverNeed
      putMask (addRgnCnt (hostWriteFor (dropAtWrap s c d) c (.desc c d.ring) a (wordBytes e)) m.region 10 m.promotions) c d { m with phase := 5 }

/-- MASK_COMMIT. -/
def execMaskCommit (c : CtxId) (s : State) : Host.Outcome State Fault Refusal :=
  .next (if running s && (hostPortFor s c.val).isSome then maskCommitOp s c.val else s)

/-! ### MASK_RETIRE (R142) -/

/-- A descriptor in flight that reads the target's old generation: an earlier one that names it and has no result. -/
def oldReaders (s : State) (c : Nat) (d : Adm) : Bool :=
  (earlier (getCtx s c) d.ring).any (fun e => e.result.isNone && (idxAll e.params e.variants e.desc).contains (mkTarget d.desc))

/-- A write to an address is still unacknowledged on some host port. -/
def commitOpen (s : State) (a : Nat) : Bool :=
  s.hp.any (fun p => p.2.initQ.any (fun q => q.op == 1 && q.addr == a) || p.2.initOut.any (fun q => q.2.op == 1 && q.2.addr == a))

/-- The result of an operation whose commit stands (R133). -/
def maskDone (d : Adm) (m : MaskOp) : Result :=
  { plainResult .ok (d.flags ||| m.flags) with result := (mkGen d.desc + 1).setWidth 64 }

def maskRetireOp (s : State) (c : Nat) : State :=
  match maskIn s c 5 with
  | none => s
  | some (d, m, _) =>
    if oldReaders s c d || commitOpen s (entryAddr s c (mkTarget d.desc)) then s else finish s c d (maskDone d m)

/-- MASK_RETIRE. -/
def execMaskRetire (c : CtxId) (s : State) : Host.Outcome State Fault Refusal :=
  .next (if running s then maskRetireOp s c.val else s)

/-! ### MASK_COMMIT_RECOVERY (R327) -/

/-- A mask operation whose Mask Unit has left service. -/
def maskLost (s : State) (c : Nat) : Option (Adm × MaskOp) :=
  ((getCtx s c).admitted.find? (fun d => d.result.isNone && d.mask.any (fun m => decide (1 ≤ m.phase) && !regionServes s m.region))).bind
    (fun d => d.mask.map (fun m => (d, m)))

/-- Another region's Mask Unit reads the target's entry back: the commit stands, or the operation runs again from
admission (R144, R327). -/
def recoverAt (s : State) (c r : Nat) (d : Adm) (m : MaskOp) : State :=
  let a := entryAddr s c (mkTarget d.desc)
  let s1 := chargeRd s c 64
  match memAccess s c a 64 with
  | .xlate f => xlateFail s c d.ring f
  | .poison f => poisonFail s r c d.ring f
  | .ok =>
    let gen := (tentOf (rdWords s.mems .mem a 8)).gen
    if gen == mkGen d.desc + 1 then putMask s1 c d { m with phase := 5, region := r, jent := none }
    else if gen == mkGen d.desc then setAdm s1 c d.ring (fun e => { e with mask := some freshMask, flags := e.flags ||| m.flags })
    else finish s1 c d { plainResult .admitCount (d.flags ||| m.flags) with
      checkId := 0x25, operand := BitVec.ofNat 16 (mkTarget d.desc), shortfall := gen }

def maskRecoverOp (s : State) (c : Nat) : State :=
  match maskLost s c with
  | none => s
  | some (d, m) =>
    match (unitRegions s (ceAffinity (getCtx s c).ent)).head? with
    | none => endDesc s c d.ring .arraysAbsent
    | some r => recoverAt s c r d m

/-- MASK_COMMIT_RECOVERY. -/
def execMaskCommitRecovery (c : CtxId) (s : State) : Host.Outcome State Fault Refusal :=
  .next (if running s && (hostPortFor s c.val).isSome then maskRecoverOp s c.val else s)

/-! ### BMASK (R208) -/

/-- Row `m` of the bitmap. -/
def bmaskRow (dr : Draw) (p24 m n : Nat) : List Byte :=
  leBytes (roundUp (ceilDiv n 8) 64) ((List.range n).foldr (fun i acc => b2n (bernoulli dr purpBmask (m * n + i) p24) + 2 * acc) 0)

/-- The writes of the bitmap. -/
def bmaskWrites (j : Job) : List MemWrite :=
  let t := jent j (bmOut j.d)
  (List.range (bmM j.d)).map (fun m =>
    { sp := tentSpace t j.r, addr := t.base + m * roundUp (ceilDiv (bmN j.d) 8) 64, bytes := bmaskRow j.draw (bmP24 j.d) m (bmN j.d) })

/-- The bitmap's writes leave in the drain class (R208). -/
def bmaskWrite (s : State) (c r : Nat) (d : Adm) : State :=
  let j := jobOf d r
  let t := jent j (bmOut j.d)
  match spansAccess s c [] [entSpan j t 0 (bmM j.d * roundUp (ceilDiv (bmN j.d) 8) 64)] with
  | .xlate a => xlateFail s c d.ring a
  | .poison a => poisonFail s r c d.ring a
  | .ok => finish (drainWrites s r c d.ring 0 (bmaskWrites j)) c d (plainResult .ok d.flags)

/-- BMASK asks the RNG unit of region `r` for its hashes, and writes its bitmap once it has them (R208, R210). -/
def bmaskRun (s : State) (c r : Nat) (d : Adm) : State :=
  let n := bmM d.desc * bmN d.desc
  if d.emitted == 0 && n != 0 then askRng (setAdm s c d.ring (fun e => { e with emitted := 1 })) r 3 c d.ring.toNat n
  else if hashesDue s r 3 c d.ring then s
  else bmaskWrite s c r d

/-- BMASK draws from the first region of the affinity mask, and needs no array. -/
def bmaskOp (s : State) (c : Nat) (d : Adm) : State :=
  (unitStep s c d true (fun rs => .stop (bmaskRun s c (rs.headD 0) d))).state

/-- BMASK (R208). -/
def execBmask (c : CtxId) (i : W32) (s : State) : Host.Outcome State Fault Refusal :=
  .next (match findAdm (getCtx s c.val) i with
    | none => s
    | some d =>
      if dOpcode d.desc == 0x13 && dispatchable s c.val d && !writesOutstanding s c.val i then bmaskOp s c.val d else s)

end Sys2Proof.Machine
end

