-- ==== Sys2Proof/Machine/Stream.lean ====
section
/-!
DEFINITION. The maintenance descriptors: CASTLE (R242, R269, R371) and STREAM (R59 to R61, R371).
-/

namespace Sys2Proof.Machine

/-! ### CASTLE -/

/-- The activation format of a CASTLE's pass mode: the weight's own where that pair is legal, else BF16 (log 30). -/
def castleAct (t : TEnt) : Nat := if pairLegal (tentFmt t) (tentFmt t) then t.fmtCode else
  ((List.range 11).find? (fun c => fmtOfCode c == some .bf16)).getD 0

/-- The job of the block that a CASTLE names, its sub-tile and its pass, with the block's key (R242, R265). -/
def castleBlock (c : Nat) (d : Adm) : (Job × SubTile × Nat) × BlockKey :=
  let look (i : Nat) : List W64 := tget [] d.entries i
  let t := tentOf (look (caW d.desc))
  let k : BlockKey := { ctx := c, tensor := caW d.desc, gen := t.gen, group := caGroup d.desc, head := 0, pass := caPass d.desc, mode := castleAct t }
  let b := blockWith look (caArray d.desc / 4) k
  (b, { k with mode := modeCode b.1 })

/-- The hint of R269: the prediction for the named array, at full confidence. -/
def castleHint (s : State) (c : Nat) (d : Adm) : State :=
  let a := caArray d.desc
  if gambitOn s c && inMask (ceAffinity (getCtx s c).ent) a then
    { s with gambit := { s.gambit with hint := tset s.gambit.hint a (castleBlock c d).2 } }
  else s

/-- The maintenance load: all 256 rows go into the shadow banks, which become active (R44, R45, R242). -/
def castleLoad (ms : Mems) (x : ArrayS) (b : Job × SubTile × Nat) (k : BlockKey) : ArrayS :=
  let (j, t, n) := b
  let full := (List.range 256).foldl (fun q i => shadowPut ms j t n i q)
    { x.shadow with rows := [], scales := [], mode := passModeOf (jobMode j) (jobScaled j), key := some k }
  { x with active := full, shadow := x.active, loads := [], lanes := [], cycle := x.cycle + 257 }

/-- Charge a maintenance descriptor's array cycles (R358, R405). -/
def chargeArray (s : State) (c a n : Nat) : State :=
  let s1 := addArrCnt s a 7 n
  setAcct s1 c { getAcct s1 c with arrayCycles := (getAcct s1 c).arrayCycles + BitVec.ofNat 64 n }

/-- CASTLE under maintenance ownership; a region that is not LIVE ends it (R371). -/
def castleMaint (s : State) (c : Nat) (d : Adm) : State :=
  let a := caArray d.desc
  let (b, k) := castleBlock c d
  if !isLive s .region (a / 4) || operandAbsent s d then endDesc s c d.ring .arraysAbsent
  else
    match spansAccess s c (weightSpans b.1) [] with
    | .xlate f => xlateFail s c d.ring f
    | .poison f => poisonFail s (a / 4) c d.ring f
    | .ok =>
      let s1 := setArr s a (castleLoad s.mems (getArr s a) b k)
      finish (chargeRd (chargeArray s1 c a 257) c (memBytes (weightSpans b.1))) c d (plainResult .ok d.flags)

def castleOp (s : State) (c : Nat) (d : Adm) : State :=
  if ownsArray s c (caArray d.desc) then castleMaint s c d else finish (castleHint s c d) c d (plainResult .ok d.flags)

/-- CASTLE. -/
def execCastle (c : CtxId) (i : W32) (s : State) : Host.Outcome State Fault Refusal :=
  .next (descCommand s c.val i 0x18 (fun t d => castleOp t c.val d))

/-! ### STREAM -/

/-- The format of the elements that an array multiplies in a pass mode: FP32 operands come to it in BF16 pieces (R89, R90). -/
def elemFmt (code : Nat) : Fmt :=
  match fmtOfCode code with
  | none => .bf16
  | some .fp32 => .bf16
  | some f => f
def bankAct (b : Bank) : Fmt := elemFmt b.mode.act
def bankWgt (b : Bank) : Fmt := elemFmt b.mode.wgt
def bankMu (b : Bank) : Nat := modeUnit (bankAct b) (bankWgt b)
def bankInt (b : Bank) : Bool := intPartial (bankAct b) (bankWgt b) b.mode.scaled

/-- The codes of the units on a row word (R38, R39): one unit in a dense mode, a quad in a slotted one. -/
def wordCodes (b : Bank) (w : Nat) : List (List Nat) :=
  let f := bankAct b
  let bitsOf := fmtBits f
  if !b.mode.slotted then
    (if bankMu b == 2 then [[w % 2 ^ bitsOf, w / 256 % 2 ^ bitsOf]] else [[w % 2 ^ bitsOf]])
  else (List.range 4).map (fun i =>
    if bankMu b == 2 then
      (let pair := w / 2 ^ (2 * bitsOf * i)
       [pair % 2 ^ bitsOf, pair / 2 ^ bitsOf % 2 ^ bitsOf])
    else [w / 2 ^ (bitsOf * i) % 2 ^ bitsOf])

def wordVals (b : Bank) (w : Nat) : List (List Num) := (wordCodes b w).map (fun l => l.map (decodeElem (bankAct b)))

/-- The row words of source row `i` (R60); a second beat has open bits. -/
def sourceWords (ms : Mems) (sp : Space) (base op i : Nat) : List Nat :=
  (List.range 256).map (fun r => rdLe ms sp (base + 1024 * i + 4 * r) 4 + 2 ^ 32 * (Config.secondBeat op i r).toNat)

def streamRowOf (b : Bank) (r : Nat) : BankRow := b.rows.getD r emptyRow

/-- Rows that share a block scale, and the block's scale for column `i` (R73). -/
def bankLevel (b : Bank) : Nat := scaleLevel (bankAct b) (bankWgt b) b.mode.slots
def bankScale (b : Bank) (q i : Nat) : Option Int := storeScale (b.scales.getD (q * 2 ^ bankLevel b) []) i

/-- The pass sum of column `i` (R40, R73, R75). DESIGN CHOICE (log 44): in a scaled bank the loaded weight's block scales apply within
y[n], which R60 calls the pass sum, though it says that STREAM bypasses scales. -/
def streamSum (b : Bank) (words : List Nat) (i : Nat) : Num × TFlags :=
  let leaves := ((List.range 256).zip words).map (fun x =>
    cellTerm (bankWgt b) b.mode.slotted b.mode.scaled ((streamRowOf b x.1).cells.getD i zeroCell) (wordVals b x.2))
  let sum := if bankInt b then leaves.foldl numAdd numZero
    else treeSum treeAdd (if b.mode.scaled then some (bankLevel b) else none) (fun q => scaleFactor (some 0) (bankScale b q i)) 8 0 leaves
  rootOf (bankInt b) sum

/-- The check column's term of a physical row (R56). -/
def streamCheckRow (b : Bank) (r w : Nat) : Num × Bool :=
  let br := streamRowOf b r
  let vals := wordVals b w
  let mu := bankMu b
  let prods := (List.range vals.length).flatMap (fun pos => (List.range mu).map (fun m =>
    if selects b.mode.slotted br pos then
      ckMul ((vals.getD pos []).getD m numZero, false) (fp32Of (br.checks.getD (pos * mu + m) 0), false)
    else (numZero, false)))
  let (v, s) := fp32Tree (sumDepth prods.length) (prods.map (·.1))
  (v, s || prods.any (·.2))

def streamCheck (b : Bank) (words : List Nat) : Num × Bool :=
  let rows := ((List.range 256).zip words).map (fun x => streamCheckRow b x.1 x.2)
  let (v, s) := fp32Tree 8 (rows.map (·.1))
  (v, s || rows.any (·.2))

/-- The exponent of F of R56 for a bank without activation scales. -/
def streamAllow (b : Bank) : Int :=
  let ex := if !b.mode.scaled then [0] else
    b.scales.flatMap (fun l => (List.range l.length).filterMap (storeScale l))
  let least := match ex with
    | [] => 0
    | x :: xs => xs.foldl min x
  max (fmtNormal (bankAct b) + fmtNormal (bankWgt b) + least) (-149)

/-- The result row of a source row before it is laid out (R56, R60). -/
def streamResult (b : Bank) (words : List Nat) : RowRes :=
  let ys := (List.range 256).map (streamSum b words)
  let (yc, csat) := streamCheck b words
  let fl := ys.foldl (fun f y => f ||| y.2) (0 : TFlags)
  { row := 0, cycle := 0, sums := ys.map (fun y => sumCode (bankInt b) y.1), ycheck := fp32Code yc, isInt := bankInt b, allow := streamAllow b,
    skip := csat || fl &&& (flSat ||| flNanSeen) != 0 || b.rows.any (·.sat), accepted := false,
    flags := fl ||| flagIf csat flSat }

/-- The status word of a result row (R60). -/
def streamStatus (x : RowRes) : Nat :=
  let nan := (!x.isInt && x.sums.any (fun w => numIsNan (fp32Of w))) || numIsNan (fp32Of x.ycheck)
  b2n (checkVerdict x == some false) + 2 * b2n nan + 4 * b2n (x.flags &&& flSat != 0)

/-- The 1,088 B of a result row (R60). -/
def streamBytes (x : RowRes) : List Byte :=
  x.sums.flatMap (fun w => leBytes 4 w.toNat) ++ leBytes 4 x.ycheck.toNat ++ leBytes 4 (streamStatus x) ++ List.replicate 56 0

/-- The writes of a STREAM. -/
def streamWrites (ms : Mems) (b : Bank) (j : Job) (op : Nat) : List MemWrite :=
  let src := jent j (stSrc j.d)
  let dst := jent j (stDst j.d)
  (List.range (stRows j.d)).map (fun i =>
    { sp := tentSpace dst j.r, addr := dst.base + 1088 * i, bytes := streamBytes (streamResult b (sourceWords ms (tentSpace src j.r) src.base op i)) })

/-- Array cycles of a STREAM: a pass of its rows, and the delivery of the last one in skewed timing (R45, R46). -/
def streamCycles (b : Bank) (d : List W64) : Nat :=
  cyclesPerRow (bankAct b) (bankWgt b) b.mode.slots * stRows d + (if dSkewed d then 512 else 5)

/-- STREAM for the owner of the array (R59, R371). -/
def streamMaint (s : State) (c : Nat) (d : Adm) : State :=
  let a := stArray d.desc
  let j := jobOf d (a / 4)
  let src := jent j (stSrc j.d)
  let dst := jent j (stDst j.d)
  let reads := [entSpan j src 0 (1024 * stRows j.d)]
  let writes := [entSpan j dst 0 (1088 * stRows j.d)]
  if !isLive s .region (a / 4) || operandAbsent s d then endDesc s c d.ring .arraysAbsent
  else
    match spansAccess s c reads writes with
    | .xlate f => xlateFail s c d.ring f
    | .poison f => poisonFail s (a / 4) c d.ring f
    | .ok =>
      let b := (getArr s a).active
      let (_, s1) := freeNext s
      let s2 := writesWaking s1 (streamWrites s.mems b j s.freeCnt)
      let n := streamCycles b d.desc
      let s3 := setArr s2 a { getArr s2 a with cycle := (getArr s2 a).cycle + n }
      finish (chargeWr (chargeRd (chargeArray s3 c a n) c (memBytes reads)) c (memBytes writes)) c d (plainResult .ok d.flags)

/-- Any other context's STREAM leaves the array untouched (R59). -/
def streamOp (s : State) (c : Nat) (d : Adm) : State :=
  if ownsArray s c (stArray d.desc) then streamMaint s c d
  else finish s c d { plainResult .badOpcode d.flags with checkId := 0x01 }

/-- STREAM. -/
def execStream (c : CtxId) (i : W32) (s : State) : Host.Outcome State Fault Refusal :=
  .next (descCommand s c.val i 0x30 (fun t d => streamOp t c.val d))

end Sys2Proof.Machine
end

