-- ==== Sys2Proof/Machine/Dispatch.lean ====
section
/-!
DEFINITION. The meaning of each command: one arm per constructor of `Instr`.
-/

namespace Sys2Proof.Machine

def exec (i : Instr) (s : State) : Host.Outcome State Fault Refusal :=
  match i with
  | .rstColdNAssert => Sys2Proof.Machine.execRstColdNAssert s
  | .coldBoot r => Sys2Proof.Machine.execColdBoot r s
  | .rstWarmNFall => Sys2Proof.Machine.execRstWarmNFall s
  | .resetWarm p => Sys2Proof.Machine.execResetWarm p s
  | .contextAbort p c => Sys2Proof.Machine.execContextAbort p c s
  | .arrayReset p a => Sys2Proof.Machine.execArrayReset p a s
  | .refclkLoss => Sys2Proof.Machine.execRefclkLoss s
  | .timestampSample x => Sys2Proof.Machine.execTimestampSample x s
  | .timestampStale => Sys2Proof.Machine.execTimestampStale s
  | .droopStretch i0 => Sys2Proof.Machine.execDroopStretch i0 s
  | .islandFault i0 => Sys2Proof.Machine.execIslandFault i0 s
  | .railsRemoved => Sys2Proof.Machine.execRailsRemoved s
  | .hostPortDown p => Sys2Proof.Machine.execHostPortDown p s
  | .hostPortUp p => Sys2Proof.Machine.execHostPortUp p s
  | .memoryPortDown q => Sys2Proof.Machine.execMemoryPortDown q s
  | .mainSideDown => Sys2Proof.Machine.execMainSideDown s
  | .mppCreditReturn port req wd => Sys2Proof.Machine.execMppCreditReturn port req wd s
  | .mppRdReceive port tag data rs poison => Sys2Proof.Machine.execMppRdReceive port tag data rs poison s
  | .mppRspReceive port tag status prior => Sys2Proof.Machine.execMppRspReceive port tag status prior s
  | .crossingTransfer src dst cycles => Sys2Proof.Machine.execCrossingTransfer src dst cycles s
  | .registerWrite p off size v => Sys2Proof.Machine.execRegisterWrite p off size v s
  | .hostSpeaksWrite p v => Sys2Proof.Machine.execHostSpeaksWrite p v s
  | .unitDisable p u => Sys2Proof.Machine.execUnitDisable p u s
  | .unitForceDisable p u => Sys2Proof.Machine.execUnitForceDisable p u s
  | .unitEnable p u => Sys2Proof.Machine.execUnitEnable p u s
  | .unitFence p u => Sys2Proof.Machine.execUnitFence p u s
  | .unitDrainDone u => Sys2Proof.Machine.execUnitDrainDone u s
  | .unitTestDone u r => Sys2Proof.Machine.execUnitTestDone u r s
  | .ownerAcquire p => Sys2Proof.Machine.execOwnerAcquire p s
  | .ownerRelease p => Sys2Proof.Machine.execOwnerRelease p s
  | .streamOwnerWrite p c arrays => Sys2Proof.Machine.execStreamOwnerWrite p c arrays s
  | .scratchpadScrub m r => Sys2Proof.Machine.execScratchpadScrub m r s
  | .arraySelfTest m a => Sys2Proof.Machine.execArraySelfTest m a s
  | .islandRecalibration m r => Sys2Proof.Machine.execIslandRecalibration m r s
  | .fuseShadowReload m r => Sys2Proof.Machine.execFuseShadowReload m r s
  | .rngSelfTest m r => Sys2Proof.Machine.execRngSelfTest m r s
  | .journalCompaction m r => Sys2Proof.Machine.execJournalCompaction m r s
  | .telemetrySnapshot m r => Sys2Proof.Machine.execTelemetrySnapshot m r s
  | .maintQueuedStart r odd => Sys2Proof.Machine.execMaintQueuedStart r s odd
  | .maintActivityEnd r act pass failLanes => Sys2Proof.Machine.execMaintActivityEnd r act pass failLanes s
  | .autoScrub r => Sys2Proof.Machine.execAutoScrub r s
  | .snapNow p => Sys2Proof.Machine.execSnapNow p s
  | .snapshotPeriod => Sys2Proof.Machine.execSnapshotPeriod s
  | .pstateRun p => Sys2Proof.Machine.execPstateRun p s
  | .pstateReducedClock p => Sys2Proof.Machine.execPstateReducedClock p s
  | .pstateRetention p => Sys2Proof.Machine.execPstateRetention p s
  | .retentionPortGate => Sys2Proof.Machine.execRetentionPortGate s
  | .idleEntry => Sys2Proof.Machine.execIdleEntry s
  | .powerControlInterval avgMw islandMw => Sys2Proof.Machine.execPowerControlInterval avgMw islandMw s
  | .thermalInterval temps => Sys2Proof.Machine.execThermalInterval temps s
  | .doorbellNotify p c => Sys2Proof.Machine.execDoorbellNotify p c s
  | .dbPoll => Sys2Proof.Machine.execDbPoll s
  | .contextActivation c => Sys2Proof.Machine.execContextActivation c s
  | .doorbellValue c w => Sys2Proof.Machine.execDoorbellValue c w s
  | .descriptorFetch c => Sys2Proof.Machine.execDescriptorFetch c s
  | .admission c => Sys2Proof.Machine.execAdmission c s
  | .cqHeadRead c v => Sys2Proof.Machine.execCqHeadRead c v s
  | .completionRecord c => Sys2Proof.Machine.execCompletionRecord c s
  | .dispatch c disagree => Sys2Proof.Machine.execDispatch c disagree s
  | .bindSubtile r odd => Sys2Proof.Machine.execBindSubtile r odd s
  | .starvationRelief r odd => Sys2Proof.Machine.execStarvationRelief r s odd
  | .tempoPeriodEnd c => Sys2Proof.Machine.execTempoPeriodEnd c s
  | .slotAssign r odd => Sys2Proof.Machine.execSlotAssign r odd s
  | .shadowLoadRow a parityBad rs => Sys2Proof.Machine.execShadowLoadRow a parityBad rs s
  | .passCastle a rs => Sys2Proof.Machine.execPassCastle a rs s
  | .rowBroadcast a dry blocked upset => Sys2Proof.Machine.execRowBroadcast a dry blocked upset s
  | .rowCheck a => Sys2Proof.Machine.execRowCheck a s
  | .rowCommit a odd rs => Sys2Proof.Machine.execRowCommit a odd rs s
  | .skewedDelivery a rs => Sys2Proof.Machine.execSkewedDelivery a rs s
  | .bankGrant r bank rs odd => Sys2Proof.Machine.execBankGrant r bank rs s odd
  | .portGrant q write rs => Sys2Proof.Machine.execPortGrant q write s rs
  | .rngGrant r badLanes => Sys2Proof.Machine.execRngGrant r badLanes s
  | .sideWeightFill r => Sys2Proof.Machine.execSideWeightFill r s
  | .sideDotRow r upset rs buf => Sys2Proof.Machine.execSideDotRow r upset rs s buf
  | .sideSpillService r bad => Sys2Proof.Machine.execSideSpillService r bad s
  | .transposerRow a => Sys2Proof.Machine.execTransposerRow a s
  | .gatherRow a rs => Sys2Proof.Machine.execGatherRow a rs s
  | .stageWindow a => Sys2Proof.Machine.execStageWindow a s
  | .gambitPreload a => Sys2Proof.Machine.execGambitPreload a s
  | .gambitPrefetch r c => Sys2Proof.Machine.execGambitPrefetch r c s
  | .speculativePass a c rs => Sys2Proof.Machine.execSpeculativePass a c rs s
  | .specConfirm c lost => Sys2Proof.Machine.execSpecConfirm c lost s
  | .subtileReplay r odd => Sys2Proof.Machine.execSubtileReplay r s odd
  | .maskSweep c => Sys2Proof.Machine.execMaskSweep c s
  | .maskRebuild c => Sys2Proof.Machine.execMaskRebuild c s
  | .maskCommit c => Sys2Proof.Machine.execMaskCommit c s
  | .maskRetire c => Sys2Proof.Machine.execMaskRetire c s
  | .maskCommitRecovery c => Sys2Proof.Machine.execMaskCommitRecovery c s
  | .waitvPoll c => Sys2Proof.Machine.execWaitvPoll c s
  | .waitvTimeout c => Sys2Proof.Machine.execWaitvTimeout c s
  | .windowRead p addr len space => Sys2Proof.Machine.execWindowRead p addr len s space
  | .windowWrite p addr data => Sys2Proof.Machine.execWindowWrite p addr data s
  | .windowAtomic p addr op operand new => Sys2Proof.Machine.execWindowAtomic p addr op operand new s
  | .nop c i0 => Sys2Proof.Machine.execNop c i0 s
  | .gemm c i0 => Sys2Proof.Machine.execGemm c i0 s
  | .fused2 c i0 => Sys2Proof.Machine.execFused2 c i0 s
  | .spmm c i0 => Sys2Proof.Machine.execSpmm c i0 s
  | .tspmm c i0 => Sys2Proof.Machine.execTspmm c i0 s
  | .mgrad c i0 => Sys2Proof.Machine.execMgrad c i0 s
  | .conv c i0 => Sys2Proof.Machine.execConv c i0 s
  | .gemv c i0 => Sys2Proof.Machine.execGemv c i0 s
  | .fold c i0 => Sys2Proof.Machine.execFold c i0 s
  | .prune c i0 => Sys2Proof.Machine.execPrune c i0 s
  | .regrow c i0 => Sys2Proof.Machine.execRegrow c i0 s
  | .maskset c i0 => Sys2Proof.Machine.execMaskset c i0 s
  | .bmask c i0 => Sys2Proof.Machine.execBmask c i0 s
  | .castle c i0 => Sys2Proof.Machine.execCastle c i0 s
  | .rwrite c i0 => Sys2Proof.Machine.execRwrite c i0 s
  | .rread c i0 => Sys2Proof.Machine.execRread c i0 s
  | .ratomicFetchAdd32 c i0 => Sys2Proof.Machine.execRatomicFetchAdd32 c i0 s
  | .ratomicFetchAdd64 c i0 => Sys2Proof.Machine.execRatomicFetchAdd64 c i0 s
  | .ratomicCas c i0 => Sys2Proof.Machine.execRatomicCas c i0 s
  | .ratomicMax c i0 => Sys2Proof.Machine.execRatomicMax c i0 s
  | .ratomicOr c i0 => Sys2Proof.Machine.execRatomicOr c i0 s
  | .waitv c i0 => Sys2Proof.Machine.execWaitv c i0 s
  | .fence c i0 => Sys2Proof.Machine.execFence c i0 s
  | .ctxsave c i0 => Sys2Proof.Machine.execCtxsave c i0 s
  | .ctxload c i0 => Sys2Proof.Machine.execCtxload c i0 s
  | .stream c i0 => Sys2Proof.Machine.execStream c i0 s
  | .entdaa addr => Sys2Proof.Machine.execEntdaa addr s
  | .setdasa addr => Sys2Proof.Machine.execSetdasa addr s
  | .setEndpointId eid => Sys2Proof.Machine.execSetEndpointId eid s
  | .spdmRequest req => Sys2Proof.Machine.execSpdmRequest req s
  | .faultNotifyRead => Sys2Proof.Machine.execFaultNotifyRead s
  | .getTelemetry sec h => Sys2Proof.Machine.execGetTelemetry sec s h
  | .readFaultLog idx bad h => Sys2Proof.Machine.execReadFaultLog idx bad s h
  | .readAccount c h => Sys2Proof.Machine.execReadAccount c s h
  | .readJournal r first h => Sys2Proof.Machine.execReadJournal r first s h
  | .readFuseView h => Sys2Proof.Machine.execReadFuseView s h
  | .unitRequest w h => Sys2Proof.Machine.execUnitRequest w s h
  | .warmReset h => Sys2Proof.Machine.execWarmReset s h
  | .maintRequest w h => Sys2Proof.Machine.execMaintRequest w s h
  | .ownership acquire h => Sys2Proof.Machine.execOwnership acquire s h
  | .setPowerCap w h => Sys2Proof.Machine.execSetPowerCap w s h
  | .testUnlock h => Sys2Proof.Machine.execTestUnlock s h
  | .tapInstruction ins => Sys2Proof.Machine.execTapInstruction ins s
  | .idcode => Sys2Proof.Machine.execIdcode s

end Sys2Proof.Machine
end

