-- ==== Sys2Proof/Machine/Tick.lean ====
section
/-!
DEFINITION. What a step does when no command waits: the timebase ticks (R350; log entry 5).
-/

namespace Sys2Proof.Machine

/-- The timebase runs: the rails are present, RST_COLD_N is high, and REFCLK runs or, after calibration, the
oscillators hold their last code (R34, R349, R354). -/
def timeRuns (s : State) : Bool := (s.time.refclk || s.time.calibrated) && !s.boot.off && !s.boot.resetAsserted

/-- One timebase cycle: T advances by 1 ns unless it is held (R350). -/
def tick (s : State) : State :=
  if timeRuns s && !s.time.held then { s with time := { s.time with t := s.time.t + 1 } } else s

end Sys2Proof.Machine
end

