-- ==== Sys2Proof/Safety.lean ====
section
/-!
DEFINITION. What a safe run means: the canonical form of memory, the invariant that every step keeps, and the
relation between the states before and after a command that holds whatever the command is.
-/

namespace Sys2Proof.Machine

/-- The canonical form of a list of cells: addresses strictly rise, and no listed byte is 0, which is what an
unlisted address reads as (log 3). -/
def Memory.wf : List Host.Cell → Bool
  | [] => true
  | (a, b) :: t => b != 0 && t.all (fun e => decide (a < e.1)) && Memory.wf t

/-- The canonical form of the scratchpads: region numbers strictly rise, and no listed region is all zeros. -/
def spadWf : Tbl (List Host.Cell) → Bool
  | [] => true
  | (r, m) :: t => !m.isEmpty && Memory.wf m && t.all (fun e => decide (r < e.1)) && spadWf t

/-- The canonical form of everything the commands act on: equal memories are equal data. -/
def Mems.wf (ms : Mems) : Bool := Memory.wf ms.host && spadWf ms.spad

/-- The invariant of the model: memory is in canonical form; the token's holder is nobody, the host or the management
controller (R366); the agreed version is M1's only version (R249); the fault log writes its entries in order, so
`next` is the number of entries written modulo 512 (R397). -/
structure Inv (s : State) : Prop where
  mem : s.mems.wf = true
  token : s.mnt.holder ≠ 3
  version : s.regs.agreed = 1
  log : s.flog.next.toNat = s.flog.written.toNat % 512

/-- What every command keeps: the integration's parameters, the licensee's memory map, the waiting commands, T never
decreasing (R350), free values never drawn twice (log 10), and the invariant. -/
structure Keeps (s t : State) : Prop where
  cfg : t.cfg = s.cfg
  env : t.env = s.env
  pending : t.pending = s.pending
  time : s.time.t ≤ t.time.t
  free : s.freeCnt ≤ t.freeCnt
  inv : Inv s → Inv t

/-! ### Words for the statements -/

/-- Only what a log entry changes differs: the log, the sideband's queue, the host ports that carry the fault interrupt,
and the 4 bytes it writes (R324, R325, R347, R398). -/
structure LogOnly (s t : State) : Prop where
  rest : t = { s with flog := t.flog, sbd := t.sbd, hp := t.hp, mems := t.mems }
  bytes : ∀ sp a, (sp ≠ .mem ∨ a < s.regs.irqAddr.toNat ∨ s.regs.irqAddr.toNat + 4 ≤ a) → rdByte t.mems sp a = rdByte s.mems sp a
  ports : ∀ p, (getHp t p).up = (getHp s p).up ∧ (getHp t p).dead = (getHp s p).dead ∧ (getHp t p).resp = (getHp s p).resp

/-- What warm reset leaves of a unit's state (R373). -/
def warmState (s : State) (k : UnitKind) (n : Nat) : UState :=
  match unitSt s k n with
  | .testing => (getUnit s.units k n).prior
  | .draining => .disabled
  | st => st

/-- A warm reset has cleared what R373 says is cleared: work, contexts, journal, ledger, Gambit, maintenance queues, setup
registers. -/
structure WarmCleared (s t : State) : Prop where
  ctxs : ∀ c, getCtx t c = Context.init
  regions : ∀ r, (getRgn t r).journal = [] ∧ (getRgn t r).queue = [] ∧ (getRgn t r).sideQ = [] ∧ (getRgn t r).replayQ = [] ∧
    (getRgn t r).slots = [] ∧ (getRgn t r).resid = [] ∧ (getRgn t r).running = [] ∧ (getRgn t r).queued = [] ∧
    (getRgn t r).cnt = (getRgn s r).cnt ∧ (getRgn t r).spares = (getRgn s r).spares ∧ (getRgn t r).lanes = (getRgn s r).lanes
  arrays : ∀ a, (getArr t a).bound = [] ∧ (getArr t a).spec = none ∧ (getArr t a).loads = [] ∧ (getArr t a).lanes = [] ∧
    (getArr t a).link = [] ∧ (getArr t a).cnt = (getArr s a).cnt
  ports : ∀ q, (getMp t q).rdQ = [] ∧ (getMp t q).wrQ = [] ∧ (getMp t q).held = [] ∧
    (getMp t q).rdOut = tmap (fun _ x => loseReq x) (getMp s q).rdOut ∧ (getMp t q).wrOut = tmap (fun _ x => loseReq x) (getMp s q).wrOut
  ledger : t.ledger = []
  gambit : t.gambit.hist = []
  regs : t.regs = Regs.reset
  owned : t.mnt.streamArrays = 0

/-- What a warm reset keeps: the token holder, the log, accounts and counters, the power cap, the fuse shadow, T and every byte
of memory and scratchpad (R373). -/
structure WarmKept (s t : State) : Prop where
  holder : t.mnt.holder = s.mnt.holder
  log : t.flog.entries = s.flog.entries ∧ t.flog.next = s.flog.next ∧ t.flog.written = s.flog.written
  accounts : t.tlm.acct = s.tlm.acct ∧ t.tlm.cnt = s.tlm.cnt
  power : t.pwr.cfg = s.pwr.cfg ∧ t.pwr.now = s.pwr.now
  fuse : t.boot.fuse = s.boot.fuse
  time : t.time = s.time
  mems : t.mems = s.mems

/-- A warm reset may run: the rails are there, M1 is out of cold reset and ready, and it is not in retention (R351, R374). -/
def WarmGo (s : State) : Prop :=
  s.boot.off = false ∧ s.boot.resetAsserted = false ∧ s.boot.phase ≠ 6 ∧ s.boot.ready = true ∧ s.boot.pstate ≠ 3

/-- No warm reset is in progress that the end of an awaited response or of a test could end (R374). -/
def Settled (s : State) : Prop := s.boot.phase ≠ 6 ∨ s.boot.ready = true

/-- A warm reset waits for the responses to requests that have left M1 (R374): ENG_STATUS.boot_phase reads 6. -/
structure WarmWaits (s t : State) : Prop where
  phase : t.boot.ready = false ∧ t.boot.phase = 6 ∧ t.boot.pstate = 0
  units : ∀ k n, unitSt t k n = warmState s k n
  cleared : WarmCleared s t
  kept : WarmKept s t

/-- A warm reset outside retention has run, with no response to wait for: M1 is ready in run, and each unit's state follows R373. -/
structure WarmDone (s t : State) : Prop where
  ready : t.boot.ready = true ∧ t.boot.phase = 5 ∧ t.boot.pstate = 0 ∧ t.boot.warmHeld = false
  units : ∀ k n, unitSt t k n = warmState s k n
  cleared : WarmCleared s t
  kept : WarmKept s t

/-- The host's request that needs the token and is made without it: ignored, and MNT_OWNER.refused is set (R366). -/
def RefusedWrite (s t : State) : Prop := t = { s with mnt := { s.mnt with refused := true }, hp := t.hp }

/-- The requests a host port's initiator side holds, outstanding and queued. -/
def initCount (s : State) (p : Nat) : Nat := (getHp s p).initOut.length + (getHp s p).initQ.length

/-- An entry of a class and source with an island's number stands at log index `j` (R312, R324). -/
def LogAt (t : State) (j : Nat) (cls : BitVec 3) (source : Byte) (detail : Nat) : Prop :=
  ∃ e, (j, e) ∈ t.flog.entries ∧ e.cls = cls ∧ e.source = source ∧ e.detail = BitVec.ofNat 32 detail

/-- A board-level fault has stopped dispatch: the log's entry has class 5, the main side is down, and a token that the host
held is free (R325, R367). -/
structure BoardDown (s t : State) (source : Byte) (detail : Nat) : Prop where
  stopped : t.boot.stopped = true
  main : t.mnt.mainDown = true
  token : t.mnt.holder = if s.mnt.holder = 1 then 0 else s.mnt.holder
  entry : LogAt t s.flog.next.toNat 5 source detail
  written : t.flog.written = s.flog.written + 1

/-- The activities that only occupy their region while they run, with the command that asks for each: scrub, recalibration,
fuse-shadow reload and the RNG self-test (R377). -/
def quietMaint (m : MaintFrom) (r : RgnId) : List (Fin 7 × Instr) :=
  [(0, .scratchpadScrub m r), (2, .islandRecalibration m r), (3, .fuseShadowReload m r), (4, .rngSelfTest m r)]

/-! ### Words for descriptors -/

/-- The descriptor of a command stands admitted at its ring index with the command's opcode, and may start: nothing holds it
(R250 to R252, R286, R287), it has not begun, and no speculation on it awaits its comparison (R272). -/
structure Starts (s : State) (c : CtxId) (i : W32) (op : Nat) (d : Adm) : Prop where
  found : findAdm (getCtx s c.val) i = some d
  opcode : dOpcode d.desc = op
  free : dispatchable s c.val d = true
  fresh : unstarted s c.val d = true
  clear : specPends s c.val d = false

/-- A descriptor of a context has a result, which its completion record will report (R226, R246). -/
def HasResult (t : State) (c : Nat) (ring : W32) (res : Result) : Prop :=
  ∃ e ∈ (getCtx t c).admitted, e.ring = ring ∧ e.result = some res

/-- Nothing of the machine outside the contexts, the accounts, the ports, the regions and the bytes differs, and no other context. -/
structure OnlyContext (s t : State) (c : Nat) : Prop where
  ctxs : ∀ e, e ≠ c → getCtx t e = getCtx s e
  units : t.units = s.units
  regs : t.regs = s.regs
  mnt : t.mnt = s.mnt
  boot : t.boot = s.boot
  time : t.time = s.time
  counters : t.tlm.cnt = s.tlm.cnt
  arrays : ∀ a, (getArr t a).active = (getArr s a).active ∧ (getArr t a).shadow = (getArr s a).shadow

/-- A request of class and arrival `g` is granted although one of class and arrival `q` waits (R23, R24): an aged request is
passed over only by one that has waited longer, or as long in a class no later; another only by an aged one or a class no later. -/
def GrantOrder (now : Nat) (g q : Nat × Nat) : Prop :=
  (q.2 + 1024 ≤ now → g.2 + 1024 ≤ now ∧ g.2 ≤ q.2 ∧ (g.2 = q.2 → g.1 ≤ q.1)) ∧
  (now < q.2 + 1024 → g.2 + 1024 ≤ now ∨ g.1 ≤ q.1)

/-- The record that journal entry `k` of region `r` holds (R300, R301). -/
def recordAt (s : State) (r k : Nat) : List W64 :=
  journalRecord (tget { a := [], b := [], lostA := false, lostB := false } (getRgn s r).journal k)

/-- The writes of memory lie below 2^57 (R3). -/
def Within (ws : List MemWrite) : Prop := ∀ w ∈ ws, w.sp = .mem → w.addr + w.bytes.length ≤ 2 ^ 57

/-- What the commit of a row may write beside its own bytes lies below 2^57: the row's statistics (R172), and behind the descriptor's
last row the header of its acc_out buffer (R99). -/
def SideWithin (j : Job) (t : SubTile) (row : Nat) : Prop :=
  (∀ per, Within (statWrite j t.h (t.m0 + row) (combineStats (jobStats j.d) per).1)) ∧
  (dAccOut j.d ≠ 0 → (jent j (dAccOut j.d)).base + 64 ≤ 2 ^ 57)

/-- No WAITV watches a scratchpad line that one of the spans lies in: a write of them has no other effect (R285). -/
def Unwatched (s : State) (l : List Span) : Prop :=
  ∀ x ∈ l, ∀ r, x.sp = .spad r → ∀ w ∈ (getRgn s r).watch, w.addr / 64 < x.a / 64 ∨ (x.a + x.n - 1) / 64 < w.addr / 64

/-- The tile of a compute descriptor runs: its shape is known, a region can take it, every check of its start accepts, and its
weights' residency copy is settled (R99, R145, R156, R214, R254, R308, R321); no WAITV watches what it writes. `s0` and `d0` have
the variant, `s1` the copy. -/
structure TileReady (s : State) (c r : Nat) (d : Adm) (s0 : State) (d0 : Adm) (s1 : State) : Prop where
  shape : shapeStep s c d = .go s0 d0
  tile : runsNowhere (jobOf d0 0) = false
  regions : regionsOf s0 (ceAffinity (getCtx s0 c).ent) ≠ []
  present : operandAbsent s0 d0 = false
  lanes : laneRegions s0 (drawsBits (sizedDesc d0)) (regionsOf s0 (ceAffinity (getCtx s0 c).ent)) ≠ []
  region : chooseRegion s0 c (wIndex (jobOf d0 0)) (wEnt (jobOf d0 0)).gen (pairRegions s0 c (jobOf d0 0)
    (laneRegions s0 (drawsBits (sizedDesc d0)) (regionsOf s0 (ceAffinity (getCtx s0 c).ent)))) = some r
  head : headOk s0.mems (jobOf d0 r) = true
  access : spansAccess s0 c (tileReads (jobOf d0 r)) (tileWrites (jobOf d0 r)) = .ok
  lists : (dKt (jobOf d0 r).d = 0 ∧ dOpcode (jobOf d0 r).d ≠ 5) ∨ listsBad s0.mems (jobOf d0 r) = false
  copy : residencyStep s0 c d.ring r false (jobOf d0 r) = some s1
  quiet : Unwatched s1 (tileWrites (jobOf d0 r))

/-- A tile has run: the bytes are those the tile's rows give, and the descriptor has its result, with OK or OK_FLAGS. -/
structure TileDone (s t : State) (c r : Nat) (d : Adm) (d0 : Adm) : Prop where
  bytes : ∃ fl, t.mems = (runTile s.mems (jobOf d0 r) fl).1 ∧ HasResult t c d.ring (plainResult .ok (runTile s.mems (jobOf d0 r) fl).2)
  macs : (getAcct t c).macOps = (getAcct s c).macOps + BitVec.ofNat 64 (tileMacs (jobOf d0 r))
  passes : (getAcct t c).passes = (getAcct s c).passes + BitVec.ofNat 64 (tilePasses (jobOf d0 r))
  kept : OnlyContext s t c

/-- The commands of the compute descriptors, with their opcodes (R236). -/
def computeCommands (c : CtxId) (i : W32) : List (Nat × Instr) :=
  [(0x01, .gemm c i), (0x02, .fused2 c i), (0x03, .spmm c i), (0x04, .tspmm c i), (0x05, .mgrad c i), (0x06, .conv c i), (0x07, .gemv c i)]

/-- The commands of the mask operations, with their opcodes (R241). -/
def maskCommands (c : CtxId) (i : W32) : List (Nat × Instr) := [(0x10, .prune c i), (0x11, .regrow c i), (0x12, .maskset c i)]

/-- The commands of the remote atomics, with their operation codes (R243, R283). -/
def atomicCommands (c : CtxId) (i : W32) : List (Nat × Instr) :=
  [(0, .ratomicFetchAdd32 c i), (1, .ratomicFetchAdd64 c i), (2, .ratomicCas c i), (3, .ratomicMax c i), (4, .ratomicOr c i)]

/-- The new value of an atomic's word (R283), by its operation code. -/
def AtomicValue (op : Nat) (old operand new v : W64) : Prop :=
  (op = 0 → v.toNat / 2 ^ 32 = old.toNat / 2 ^ 32 ∧ v.toNat % 2 ^ 32 = (old.toNat + operand.toNat) % 2 ^ 32) ∧
  (op = 1 → v = old + operand) ∧
  (op = 2 → v = if old = operand then new else old) ∧
  (op = 3 → v.toNat = max old.toNat operand.toNat) ∧
  (op = 4 → v = old ||| operand)

/-- What an atomic reports (R283): the prior word, of which operation 0 reports the low half. -/
def AtomicReport (op : Nat) (old r : W64) : Prop := r.toNat = if op = 0 then old.toNat % 2 ^ 32 else old.toNat

end Sys2Proof.Machine
end

