-- ==== Sys2Proof/Certificates/Slice0/Obligations.lean ====
section
/-!
DEFINITION. The statements about the Merba M1's model, for the provers. Each docstring names the rules of the spec it
formalises, or says that the clause is the model's choice and names its log entry.
-/

open Sys2Proof Sys2Proof.Machine

/-! ### The queue, the tick and what every command keeps -/

/-- With a command at the front of the queue, a step runs that command on the state with the queue's rest. -/
def Obligations.StepRunsFront : Prop :=
  ∀ (s : State) (c : Instr) (rest : List Instr), s.pending = c :: rest → step s = exec c { s with pending := rest }

/-- With no command waiting the timebase ticks: T advances by 1 ns where it runs and is not held, and nothing else changes.
That this is what an empty queue does is the model's choice (log 5); the timebase's cycle is R350's. -/
def Obligations.IdleStepTicks : Prop :=
  ∀ s : State, s.pending = [] → ∃ t, step s = .next t ∧ t = { s with time := { s.time with t := t.time.t } } ∧
    (t.time.t = s.time.t + 1 ↔
      ((s.time.refclk = true ∨ s.time.calibrated = true) ∧ s.boot.off = false ∧ s.boot.resetAsserted = false ∧ s.time.held = false)) ∧
    (t.time.t = s.time.t + 1 ∨ t.time.t = s.time.t)

/-- The invariant: memory and scratchpad keep their canonical form, the token's holder is legal (R366), the agreed version is
1 (R249), and the fault log's next index counts its entries (R397). Every step keeps it. -/
def Obligations.StepKeepsInvariant : Prop :=
  ∀ s t : State, Inv s → step s = .next t → Inv t

/-- The machine after reset meets the invariant. -/
def Obligations.ResetMeetsInvariant : Prop := Inv State.reset

/-- No command changes the integration's parameters, the licensee's memory map or the waiting commands; T never decreases
(R350), and no free value is drawn twice (log 10). -/
def Obligations.CommandsKeepSurroundings : Prop :=
  ∀ (c : Instr) (s t : State), exec c s = .next t →
    t.cfg = s.cfg ∧ t.env = s.env ∧ t.pending = s.pending ∧ s.time.t ≤ t.time.t ∧ s.freeCnt ≤ t.freeCnt

/-- Every command answers a next state in every state. Read data and responses under a tag that answers nothing outstanding, for which
the spec names no effect, change nothing, which is the model's choice (log 46); a response without an error answers a write or an atomic, one
with an error a read too (R333, R334). -/
def Obligations.EveryCommandRuns : Prop :=
  ∀ (c : Instr) (s : State), ∃ t, exec c s = .next t ∧
    (∀ q tag data rs p, c = .mppRdReceive (.mem q) tag data rs p →
      (∀ e ∈ (getMp s q.val).rdOut, ¬(e.1 = tag.toNat ∧ e.2.op = 0)) → t = s) ∧
    (∀ h tag data rs p, c = .mppRdReceive (.host h) tag data rs p →
      (∀ e ∈ (getHp s h.val).initOut, ¬(e.1 = tag.toNat ∧ e.2.op = 0)) → t = s) ∧
    (∀ q tag st pr, c = .mppRspReceive (.mem q) tag st pr →
      (∀ e ∈ (getMp s q.val).wrOut ++ (getMp s q.val).rdOut, ¬(e.1 = tag.toNat ∧ (e.2.op ≠ 0 ∨ st ≠ 0))) → t = s) ∧
    (∀ h tag st pr, c = .mppRspReceive (.host h) tag st pr →
      (∀ e ∈ (getHp s h.val).initOut, ¬(e.1 = tag.toNat ∧ (e.2.op ≠ 0 ∨ st ≠ 0))) → t = s)

/-- Logging an event: an event of another class than 1, or one that no open entry merges, takes the entry at `next` (R397);
a class 1 event within 1 ms of an entry of the same source at the same unit only counts there, up to 255 (R325). An entry of
class 3 or above raises an in-band interrupt with the byte 0xA5 and is queued for the management controller, up to 16 (R344, R347), and
nothing outside the log, the sideband's queue and the fault interrupt changes (R325, R398). -/
def Obligations.FaultLogRecordsEvents : Prop :=
  ∀ (s : State) (e : FlogEntry), LogOnly s (logFault s e) ∧
    ((e.cls ≠ 1 ∨ mergeAt s e = none) →
      (logFault s e).flog.next = s.flog.next + 1 ∧ (logFault s e).flog.written = s.flog.written + 1 ∧
      (∀ d, tget d (logFault s e).flog.entries s.flog.next.toNat = e) ∧
      (∀ d j, j ≠ s.flog.next.toNat → tget d (logFault s e).flog.entries j = tget d s.flog.entries j) ∧
      (3 ≤ e.cls.toNat → (logFault s e).sbd.ibi = some 0xA5) ∧
      (3 ≤ e.cls.toNat → s.sbd.queue.length < 16 → (logFault s e).sbd.queue = s.sbd.queue ++ [(e, false)]) ∧
      (3 ≤ e.cls.toNat → 16 ≤ s.sbd.queue.length →
        (logFault s e).sbd.ovf = true ∧ (logFault s e).sbd.queue.length = s.sbd.queue.length) ∧
      (e.cls.toNat < 3 → (logFault s e).sbd = s.sbd ∧ (logFault s e).mems = s.mems ∧ (logFault s e).hp = s.hp)) ∧
    (∀ j, e.cls = 1 → mergeAt s e = some j →
      (logFault s e).flog.next = s.flog.next ∧ (logFault s e).flog.written = s.flog.written ∧
      (logFault s e).sbd = s.sbd ∧ (logFault s e).mems = s.mems ∧ (logFault s e).hp = s.hp ∧
      ((tget e (logFault s e).flog.entries j).count.toNat = min 255 ((tget e s.flog.entries j).count.toNat + 1)))

/-! ### Resets and rails -/

/-- Cold reset and the loss of the rails leave the same machine whatever was going on: only the integration's parameters, the
inputs' levels, T, the licensee's memory and, without the rails, nothing of the scratchpads stay (R351, R354, R384, R32). -/
def Obligations.ColdResetForgets : Prop :=
  ∀ s : State,
    (∃ t, exec .rstColdNAssert s = .next t ∧ t.boot.resetAsserted = true ∧ t.boot.ready = false ∧ t.boot.phase = 0 ∧
      t.boot.off = s.boot.off ∧ t.mems = s.mems ∧ t.time.t = s.time.t ∧ t.regs = Regs.reset ∧ t.pwr = Pwr.reset ∧
      t.mnt.holder = 0 ∧ (∀ k n, unitSt t k n = .absent) ∧ (∀ c, getCtx t c = Context.init) ∧ (∀ r, getRgn t r = Region.init) ∧
      (∀ a, getArr t a = ArrayS.init) ∧ t.ledger = [] ∧ t.flog.entries = [] ∧ t.tlm.acct = [] ∧ t.tlm.cnt = [] ∧ t.sbd.queue = [] ∧
      (∀ q, (getMp t q).up = (getMp s q).up ∧ (getMp t q).credReq = 0 ∧ (getMp t q).rdOut = [] ∧ (getMp t q).wrOut = []) ∧
      (∀ p, (getHp t p).up = (getHp s p).up ∧ (getHp t p).dead = false ∧ (getHp t p).initOut = [])) ∧
    (∃ t u, exec .railsRemoved s = .next t ∧ exec .rstColdNAssert s = .next u ∧
      t = { u with boot := { u.boot with off := true }, mems := { s.mems with spad := [] } }) ∧
    (∀ s' : State, s'.cfg = s.cfg → s'.env = s.env → s'.mems = s.mems → s'.freeCnt = s.freeCnt → s'.pending = s.pending →
      s'.boot.off = s.boot.off → s'.time = s.time → s'.mp = s.mp → s'.hp = s.hp →
      exec .rstColdNAssert s' = exec .rstColdNAssert s)

/-- A warm reset by its three sources (R373, R374, R326): RST_WARM_N, ENG_RESET by a host that holds the token, WARM_RESET in a session
of the management controller that holds it. While a request that has left M1 has no response, boot_phase reads 6, and the response awaited
last sets ready; without one M1 is ready at once. A fall of RST_WARM_N before ready is held (R351), and one during a warm reset merges
into it; in retention a warm reset tests the units that were LIVE at its entry, and ready is set only once none of them is TESTING (R374). -/
def Obligations.WarmResetRuns : Prop :=
  (∀ (s : State) (p : HostId) (h : SbdHead), WarmGo s →
      (∃ t, exec .rstWarmNFall s = .next t ∧ (outstanding s = false → WarmDone s t) ∧ (outstanding s = true → WarmWaits s t)) ∧
      (hostAnswers s p.val = true → s.mnt.holder = 1 →
        ∃ t, exec (.resetWarm p) s = .next t ∧ (outstanding s = false → WarmDone (wake s) t) ∧
          (outstanding s = true → WarmWaits (wake s) t) ∧ (getHp t p.val).resp = .ok) ∧
      (sbdTakes s h = true → s.sbd.session = true → s.mnt.holder = 2 →
        ∃ t, exec (.warmReset h) s = .next t ∧ (outstanding s = false → WarmDone s t) ∧ (outstanding s = true → WarmWaits s t) ∧
          t.sbd.resp = .done 0x11 h.inst 0x00 [])) ∧
  (∀ (s : State) (q : PortId) (tag : BitVec 12) (r : PortReq) (prior : W64),
      s.boot.phase = 6 → s.boot.ready = false → retainedLeft s = false → s.boot.warmHeld = false → s.boot.heldNotify = [] →
      s.boot.heldSide = [] → s.pwr.nextTarget = none → r.op = 1 → r.owner = .lost → (getMp s q.val).wrOut = [(tag.toNat, r)] →
      (getMp s q.val).rdOut = [] → outstanding (setMp s q.val { getMp s q.val with wrOut := [] }) = false →
      exec (.mppRspReceive (.mem q) tag 0 prior) s =
        .next { setMp s q.val { getMp s q.val with wrOut := [] } with boot := { s.boot with ready := true, phase := 5, retained := [] } }) ∧
  (∀ s : State, s.boot.off = false → s.boot.resetAsserted = false →
      (s.boot.phase = 6 → exec .rstWarmNFall s = .next s) ∧
      (s.boot.phase ≠ 6 → s.boot.ready = false → exec .rstWarmNFall s = .next { s with boot := { s.boot with warmHeld := true } }) ∧
      (s.boot.phase ≠ 6 → s.boot.ready = true → s.boot.pstate = 3 → (∃ u ∈ s.boot.retained, warmState s u.kind u.unit.val = .live) →
        ∃ t, exec .rstWarmNFall s = .next t ∧ t.boot.ready = false ∧ t.boot.phase = 6 ∧ WarmCleared s t ∧ WarmKept s t ∧
          (∀ u ∈ s.boot.retained, warmState s u.kind u.unit.val = .live → unitSt t u.kind u.unit.val = .testing) ∧
          (∀ k n, (∀ u ∈ s.boot.retained, ¬(u.kind = k ∧ u.unit.val = n)) → unitSt t k n = warmState s k n)))

/-- Without the token a request does nothing: a register write is ignored and MNT_OWNER.refused is set; over the sideband it
completes with 0x02 (R366). -/
def Obligations.TokenGuardsRequests : Prop :=
  ∀ (s : State) (p : HostId) (h : SbdHead) (a : ArrId) (u : UnitSel) (r : RgnId) (c : CtxId) (m : BitVec 16) (w : W32),
    (hostAnswers s p.val = true → s.mnt.holder ≠ 1 →
      ∀ i ∈ [Instr.resetWarm p, .arrayReset p a, .unitDisable p u, .unitForceDisable p u, .unitEnable p u, .unitFence p u,
             .streamOwnerWrite p c m, .scratchpadScrub (.host p) r, .arraySelfTest (.host p) a, .islandRecalibration (.host p) r,
             .fuseShadowReload (.host p) r, .rngSelfTest (.host p) r, .journalCompaction (.host p) r, .telemetrySnapshot (.host p) r],
        ∃ t, exec i s = .next t ∧ RefusedWrite (wake s) t ∧ (getHp t p.val).resp = .ok) ∧
    (sbdTakes s h = true → s.sbd.session = true → s.mnt.holder ≠ 2 →
      ∀ x ∈ [((0x10 : Byte), Instr.unitRequest w h), (0x12, .maintRequest w h), (0x11, .warmReset h), (0x12, .scratchpadScrub (.mgmt h) r),
             (0x12, .arraySelfTest (.mgmt h) a), (0x12, .islandRecalibration (.mgmt h) r), (0x12, .fuseShadowReload (.mgmt h) r),
             (0x12, .rngSelfTest (.mgmt h) r), (0x12, .journalCompaction (.mgmt h) r), (0x12, .telemetrySnapshot (.mgmt h) r)],
        exec x.2 s = .next { s with sbd := { s.sbd with resp := .done x.1 h.inst 0x02 [] } })

/-- An array reset by a host with the token (R376): of a DISABLED or FENCED array it clears the banks, the delay line, the speculative
buffer, the elastic buffers, the link buffer and the counters, and leaves the array's state and its maintenance ownership; of any other
it sets MNT_OWNER.refused. Every other array keeps everything. -/
def Obligations.ArrayResetClears : Prop :=
  ∀ (s : State) (p : HostId) (a : ArrId), hostAnswers s p.val = true → s.mnt.holder = 1 →
    ∃ t, exec (.arrayReset p a) s = .next t ∧ (getHp t p.val).resp = .ok ∧
      t = { wake s with arrs := t.arrs, mnt := t.mnt, hp := t.hp } ∧
      (∀ b, b ≠ a.val → getArr t b = getArr s b) ∧
      (unitSt s .array a.val = .disabled ∨ unitSt s .array a.val = .fenced →
        t.mnt = s.mnt ∧ (getArr t a.val).active = Bank.init ∧ (getArr t a.val).shadow = Bank.init ∧
        (getArr t a.val).loads = [] ∧ (getArr t a.val).lanes = [] ∧ (getArr t a.val).delay = [] ∧ (getArr t a.val).spec = none ∧
        (getArr t a.val).link = [] ∧ (getArr t a.val).gather = [] ∧ (getArr t a.val).cnt = [] ∧ t.units = s.units) ∧
      (unitSt s .array a.val ≠ .disabled → unitSt s .array a.val ≠ .fenced →
        t.mnt = { s.mnt with refused := true } ∧ getArr t a.val = getArr s a.val)

/-- A context abort (R375): the active context fetches, admits and dispatches no more, its speculation is squashed, and its sub-tiles end
but for those in the middle of a pass; other contexts and units continue undisturbed. It needs no token (R366). Once no work and no
request of the context is left, its admitted descriptors have their records in ring order, and behind the last one its status is aborted.
That each record follows a COMPLETION_RECORD command is the model's choice (log 46). A context that is not active, or aborts already,
keeps everything. -/
def Obligations.ContextAbortEndsContext : Prop :=
  (∀ (s : State) (p : HostId) (c : CtxId), hostAnswers s p.val = true →
    ∃ t, exec (.contextAbort p c) s = .next t ∧ (getHp t p.val).resp = .ok ∧
      (∀ d, d ≠ c.val → getCtx t d = getCtx s d) ∧ t.units = s.units ∧ t.mnt = s.mnt ∧
      ((getCtx s c.val).st = 1 → (getCtx s c.val).aborting = false →
        takesWork (getCtx t c.val) = false ∧ (getCtx t c.val).fetched = [] ∧
        (getCtx t c.val).cqWritten = (getCtx s c.val).cqWritten ∧
        (getCtx t c.val).admitted.map (·.ring) = (getCtx s c.val).admitted.map (·.ring) ∧
        ((getCtx s c.val).admitted ≠ [] → (getCtx t c.val).aborting = true) ∧
        ((getCtx t c.val).aborting = false → (getCtx t c.val).st = 2) ∧
        (∀ a, ∀ u ∈ (getArr t a).bound, u.ctx = c.val → midPass s u = true) ∧
        (∀ a, ∀ u ∈ (getArr s a).bound, u.ctx ≠ c.val ∨ midPass s u = true → u ∈ (getArr t a).bound) ∧
        (∀ r, ∀ u ∈ (getRgn t r).queue, u.ctx ≠ c.val ∨ midPass s u = true) ∧
        (∀ a, a < 16 → ∀ b, (getArr t a).spec = some b → b.sub.ctx ≠ c.val)) ∧
      ((getCtx s c.val).st ≠ 1 ∨ (getCtx s c.val).aborting = true → t = { wake s with hp := t.hp })) ∧
  (∀ (s : State) (c : CtxId) (d : Adm) (ds : List Adm), (getCtx s c.val).st = 1 → (getCtx s c.val).aborting = true →
    recordsGo s = true → (hostPortFor s c.val).isSome = true → abortQuiet s c.val = true → (getCtx s c.val).admitted = d :: ds →
    ((d :: ds).map (·.ring)).Nodup →
    ∃ t, exec (.completionRecord c) s = .next t ∧ (∀ e, e ≠ c.val → getCtx t e = getCtx s e) ∧ t.units = s.units ∧
      (getCtx t c.val).cqWritten = (getCtx s c.val).cqWritten + 1 ∧ (getCtx t c.val).admitted = ds ∧
      (getCtx t c.val).aborting = !ds.isEmpty ∧ (getCtx t c.val).st = (if ds.isEmpty then 2 else 1) ∧
      (ds = [] → ∀ r, ∀ w ∈ (getRgn t r).watch, w.ctx ≠ c.val) ∧
      (let x := getCtx s c.val
       ceStatusBase x.ent = 0 → dIrq d.desc = false → recordAddr x.ent x.cqWritten + 32 ≤ 2 ^ 57 →
        rdBytes t.mems .mem (recordAddr x.ent x.cqWritten) 32 = recordBytes d.desc (abortResult d) (recordPhase x.ent x.cqWritten) s.time.t))

/-! ### Boot, clocks, islands -/

/-- A cold boot whose OTP array, clocks and banks are good brings M1 to ready: an array of the fuse map is LIVE, or FENCED where
its self-test failed, every other one ABSENT; failing banks lie on spares and the scratchpads are zero (R7, R362, R363). A boot whose report
ends with an earlier phase stands behind that phase, and the sideband answers from the end of phase 1 (R364). A boot that cannot
go on stops in its phase with a board-level fault and never reaches ready: an unreadable OTP array in phase 1, the timebase's, always-on
or engine-control island without a lock in phase 2, no array that is LIVE in phase 4 (R363). Without REFCLK calibration never completes
(R34). COLD_BOOT outside cold reset changes nothing once M1 is ready or has stopped, which is the model's choice (logs 6 and 46). -/
def Obligations.ColdBootReachesReadyOrStops : Prop :=
  (∀ (s : State) (r : BootReport), s.boot.resetAsserted = true → s.boot.ready = false → s.boot.fail = false → s.boot.stopped = false →
    s.boot.warmHeld = false → s.boot.heldNotify = [] → s.boot.heldSide = [] → s.pwr.nextTarget = none →
    r.otpOk = true → r.refclkOk = true → r.noLock = [] → (∀ n, (badOf r n).length ≤ 4) →
    ∀ fuse : BitVec 16, fuse = s.cfg.otp &&& BitVec.ofNat 16 (2 ^ (4 * s.cfg.regions) - 1) →
    (∃ a : ArrId, fuse.getLsbD a.val = true ∧ a.val / 4 < s.cfg.regions ∧ a ∉ r.failArrays) →
    (r.upto ≤ 3 → ∃ t, exec (.coldBoot r) s = .next t ∧ t.boot.ready = false ∧ t.boot.phase.toNat = r.upto + 1 ∧
      sidebandAnswers t = decide (1 ≤ r.upto)) ∧
    (4 ≤ r.upto → ∃ t, exec (.coldBoot r) s = .next t ∧ t.boot.ready = true ∧ t.boot.phase = 5 ∧ t.boot.fail = false ∧
      t.boot.resetAsserted = false ∧ t.boot.fuse = fuse ∧ t.boot.fuseData = s.cfg.otpData ∧ t.time.calibrated = true ∧
      t.time.t = s.time.t ∧ t.mems.spad = [] ∧ t.regs = s.regs ∧ t.mnt = s.mnt ∧ t.ctxs = s.ctxs ∧
      (∀ a : ArrId, unitSt t .array a.val =
        if fuse.getLsbD a.val = true ∧ a.val / 4 < s.cfg.regions then (if a ∈ r.failArrays then .fenced else .live) else .absent) ∧
      (∀ n : RgnId, let here := n.val < s.cfg.regions ∧ ∃ j, j < 4 ∧ fuse.getLsbD (4 * n.val + j) = true
        (here → unitSt t .region n.val = .live ∧ unitSt t .side n.val = .live ∧ (getRgn t n.val).spares = (sparesOf (badOf r n.val)).1) ∧
        (¬here → unitSt t .region n.val = .absent ∧ unitSt t .side n.val = .absent)) ∧
      (∀ i ∈ r.oneLock, (getIsl t i.val).standby = true))) ∧
  (∀ (s : State) (r : BootReport),
    (s.boot.resetAsserted = false → (s.boot.ready = true ∨ s.boot.fail = true ∨ 4 < s.boot.phase.toNat) →
      exec (.coldBoot r) s = .next s) ∧
    (s.boot.resetAsserted = true → s.boot.ready = false → s.boot.fail = false → s.boot.stopped = false →
      (r.otpOk = false → 1 ≤ r.upto → ∃ t, exec (.coldBoot r) s = .next t ∧ t.boot.ready = false ∧ t.boot.phase = 1 ∧
        t.boot.fail = true ∧ BoardDown s t 0x12 57) ∧
      (r.otpOk = true → r.refclkOk = false → 1 ≤ r.upto → ∃ t, exec (.coldBoot r) s = .next t ∧ t.boot.ready = false ∧
        t.boot.phase = 2 ∧ t.units = s.units ∧ t.time.calibrated = s.time.calibrated) ∧
      (r.otpOk = true → r.refclkOk = true → (⟨59, by decide⟩ : IslId) ∈ r.noLock → 2 ≤ r.upto →
        ∃ t, exec (.coldBoot r) s = .next t ∧ t.boot.ready = false ∧ t.boot.phase = 2 ∧ t.boot.fail = true ∧ BoardDown s t 0x12 59) ∧
      (r.otpOk = true → r.refclkOk = true → r.noLock = [] → s.cfg.otp = 0 → 4 ≤ r.upto →
        ∃ t, exec (.coldBoot r) s = .next t ∧ t.boot.ready = false ∧ t.boot.phase = 4 ∧ t.boot.fail = true ∧ t.boot.stopped = true ∧
          (∀ k n, unitSt t k n = .absent))))

/-- M1's time (R350): T takes a later sample, stops on an earlier one, which TLM counter 9 counts, and never decreases; a missing
toggle sets ts_stale, and T then goes on. A loss of REFCLK after calibration is a board-level fault with source 0x12 (R349); before calibration only the clock is gone.
A droop is counted for its island and in TLM counter 12, and changes nothing else (R353, R359). -/
def Obligations.TimeClocksAndDroops : Prop :=
  (∀ (s : State) (x : W64), s.boot.off = false → s.boot.resetAsserted = false →
      (s.time.t < x.toNat →
        exec (.timestampSample x) s = .next { s with time := { s.time with t := x.toNat, held := false, stale := false } }) ∧
      (x.toNat < s.time.t →
        ∃ t, exec (.timestampSample x) s = .next t ∧ t = { s with time := { s.time with held := true, stale := false }, tlm := t.tlm } ∧
          t.tlm.acct = s.tlm.acct ∧ t.tlm.seq = s.tlm.seq ∧ t.tlm.snapLeft = s.tlm.snapLeft ∧
          ∀ i, tget 0 t.tlm.cnt i = tget 0 s.tlm.cnt i + (if i = 9 then 1 else 0)) ∧
      (x.toNat = s.time.t → exec (.timestampSample x) s = .next { s with time := { s.time with stale := false } }) ∧
      exec .timestampStale s = .next { s with time := { s.time with stale := true, held := false } }) ∧
  (∀ (s : State) (i : IslId), s.boot.off = false → s.boot.resetAsserted = false →
      (s.time.calibrated = true → s.time.refclk = true →
        ∃ t, exec .refclkLoss s = .next t ∧ t.time = { s.time with refclk := false } ∧ BoardDown s t 0x12 59 ∧
          t = { s with time := t.time, boot := { s.boot with stopped := true }, mnt := t.mnt, flog := t.flog, sbd := t.sbd,
                       hp := t.hp, mems := t.mems }) ∧
      (s.time.calibrated = false → exec .refclkLoss s = .next { s with time := { s.time with refclk := false } }) ∧
      (∃ t, exec (.droopStretch i) s = .next t ∧ t = { s with isl := t.isl, tlm := t.tlm } ∧
        getIsl t i.val = { getIsl s i.val with droops := (getIsl s i.val).droops + 1 } ∧
        (∀ j, j ≠ i.val → getIsl t j = getIsl s j) ∧
        ∀ k, tget 0 t.tlm.cnt k = tget 0 s.tlm.cnt k + (if k = 12 then 1 else 0)))

/-- An island fault at run time is contained by the island's kind (R312): an array, Side Path or memory port is FENCED with class
3; a host port is down until cold reset; scratchpad, staging, region control, fabric and engine control go on with their
standby oscillator and class 1, and the second fault fences the region with class 4 or is board-level; timebase and always-on
are board-level; the test island's loss affects no work. -/
def Obligations.IslandFaultsAreContained : Prop :=
  ∀ (s : State) (i : IslId), s.boot.off = false → s.boot.resetAsserted = false → Settled s → islandRuns s i.val = true →
    (i.val < 16 → ∃ t, exec (.islandFault i) s = .next t ∧ unitSt t .array i.val = .fenced ∧ LogAt t s.flog.next.toNat 3 0x12 i.val) ∧
    (24 ≤ i.val → i.val < 28 →
      ∃ t, exec (.islandFault i) s = .next t ∧ unitSt t .side (i.val - 24) = .fenced ∧ LogAt t s.flog.next.toNat 3 0x12 i.val) ∧
    (36 ≤ i.val → i.val < 52 →
      ∃ t, exec (.islandFault i) s = .next t ∧ unitSt t .port (i.val - 36) = .fenced ∧ LogAt t s.flog.next.toNat 3 0x12 i.val) ∧
    (52 ≤ i.val → i.val < 56 →
      ∃ t, exec (.islandFault i) s = .next t ∧ (getHp t (i.val - 52)).dead = true ∧ LogAt t s.flog.next.toNat 3 0x12 i.val) ∧
    ((16 ≤ i.val ∧ i.val < 24) ∨ (28 ≤ i.val ∧ i.val < 36) ∨ i.val = 56 → (getIsl s i.val).standby = false →
      exec (.islandFault i) s = .next (logFault (setIsl s i.val { getIsl s i.val with standby := true }) (islandEntry s 1 i.val))) ∧
    ((16 ≤ i.val ∧ i.val < 24) ∨ (28 ≤ i.val ∧ i.val < 36) → (getIsl s i.val).standby = true →
      ∃ t, exec (.islandFault i) s = .next t ∧ unitSt t .region (i.val % 4) = .fenced ∧ LogAt t s.flog.next.toNat 4 0x12 i.val) ∧
    (i.val = 57 ∨ i.val = 59 ∨ (i.val = 56 ∧ (getIsl s i.val).standby = true) →
      ∃ t, exec (.islandFault i) s = .next t ∧ BoardDown s t 0x12 i.val) ∧
    (i.val = 58 →
      exec (.islandFault i) s = .next (logFault (setIsl s 58 { getIsl s 58 with out := true }) (islandEntry s 1 58)))

/-! ### Ports and crossings -/

/-- The up inputs (R342, R343, R367): a host port that goes down loses its target requests, those that wait for a bank too, and its
initiator requests go on through the next live port or wait, in order; a memory port that goes down is FENCED, and its requests join the
next port of its region with the age they have (R27); a host port that comes up carries traffic, a fault interrupt that was due goes out
(R398), and the main side is up unless dispatch is stopped; MAIN_SIDE_DOWN frees the host's token. Credits are added as they return,
and a host port's waiting request then goes out (R331); a transfer leaves a crossing in the order it was presented, 3 to 6 cycles of its
destination later, its item does not change, and the freed entry takes what the port holds (R35, R36). -/
def Obligations.PortsCreditsAndCrossings : Prop :=
  (∀ (s : State) (p : HostId) (q : PortId), Settled s →
      ((getHp s p.val).up = true → ∃ t, exec (.hostPortDown p) s = .next t ∧ t = { s with hp := t.hp, rgns := t.rgns } ∧
        (∀ r, getRgn t r = { getRgn s r with bankReqs := (getRgn s r).bankReqs.filter (fun e => e.owner != .host p.val) }) ∧
        (getHp t p.val).up = false ∧ (getHp t p.val).lastUp = s.time.t ∧ (getHp t p.val).resp = .none ∧
        (getHp t p.val).initOut = [] ∧ (∀ j, j ≠ p.val → (getHp t j).up = (getHp s j).up) ∧
        (nextHost s p.val = none → (getHp t p.val).initQ =
          ((getHp s p.val).initOut.map (·.2)).filter (fun r => r.owner != .lost) ++ (getHp s p.val).initQ) ∧
        (∀ j, nextHost s p.val = some j → j ≠ p.val → (getHp t p.val).initQ = [])) ∧
      ((getHp s p.val).up = false → ∃ t, exec (.hostPortUp p) s = .next t ∧
        t = { s with hp := t.hp, mnt := t.mnt, flog := t.flog, mems := t.mems } ∧
        (getHp t p.val).up = true ∧ (∀ j, j ≠ p.val → (getHp t j).up = (getHp s j).up) ∧
        t.mnt = { s.mnt with mainDown := s.boot.stopped } ∧
        (s.flog.irqMore = false → t.flog = s.flog ∧ t.mems = s.mems) ∧
        (s.flog.irqMore = true → s.flog.irqWait = false → s.regs.irqEn = true → (getHp s p.val).dead = false → t.flog.irqWait = true)) ∧
      ((unitSt s .port q.val = .absent ∨ unitSt s .port q.val = .fenced) →
        exec (.memoryPortDown q) s = .next (setMp s q.val { getMp s q.val with up := false })) ∧
      (unitSt s .port q.val ≠ .absent → ∃ t, exec (.memoryPortDown q) s = .next t ∧ unitSt t .port q.val = .fenced ∧
        (getMp t q.val).up = false) ∧
      (∀ j, unitSt s .port q.val = .live → nextPort s q.val = some j → j ≠ q.val →
        ∃ t, exec (.memoryPortDown q) s = .next t ∧
          t = { s with units := t.units, mp := t.mp, ctxs := t.ctxs, flog := t.flog, sbd := t.sbd, hp := t.hp, mems := t.mems } ∧
          (∀ k n, ¬(k = .port ∧ n = q.val) → unitSt t k n = unitSt s k n) ∧
          (getMp t q.val).rdQ = [] ∧ (getMp t q.val).wrQ = [] ∧ (getMp t q.val).rdOut = [] ∧ (getMp t q.val).wrOut = [] ∧
          (getMp t j).cycle = (getMp s j).cycle + (getMp s q.val).cycle ∧
          let moved := fun (r : PortReq) => { r with arrived := (getMp s j).cycle + r.arrived }
          (∀ r ∈ (getMp s q.val).rdQ, r.op = 0 → moved r ∈ (getMp t j).rdQ) ∧
          (∀ r ∈ (getMp s q.val).wrQ, r.op ≠ 0 → moved r ∈ (getMp t j).wrQ) ∧
          (∀ e ∈ (getMp s q.val).rdOut, e.2.op = 0 → e.2.owner ≠ .lost → moved e.2 ∈ (getMp t j).rdQ)) ∧
      ((∀ j, j < 4 → (getHp s j).up = false ∧ (getHp s j).lastUp + 1000000 ≤ s.time.t) →
        exec .mainSideDown s = .next { s with mnt := { s.mnt with mainDown := true, holder := if s.mnt.holder = 1 then 0 else s.mnt.holder } })) ∧
  (∀ (s : State) (q : PortId) (p : HostId) (req wd : BitVec 4) (src dst : IslId) (cycles : Nat),
      (∃ t, exec (.mppCreditReturn (.mem q) req wd) s = .next t ∧ t = { s with mp := t.mp } ∧
        (getMp t q.val).credReq = (getMp s q.val).credReq + req.toNat ∧ (getMp t q.val).credWd = (getMp s q.val).credWd + wd.toNat ∧
        ∀ j, j ≠ q.val → getMp t j = getMp s j) ∧
      (∃ t, exec (.mppCreditReturn (.host p) req wd) s = .next t ∧ t = { s with hp := t.hp } ∧
        initCount t p.val = initCount s p.val ∧
        ((getHp s p.val).initQ = [] → (getHp t p.val).credReq = (getHp s p.val).credReq + req.toNat ∧
          (getHp t p.val).credWd = (getHp s p.val).credWd + wd.toNat) ∧
        (∀ r, (getHp s p.val).initQ = [r] → hpLive s p.val = true → 1 ≤ req.toNat → hostWd r ≤ wd.toNat → (getHp t p.val).initQ = []) ∧
        ∀ j, j ≠ p.val → getHp t j = getHp s j) ∧
      (3 ≤ cycles → cycles ≤ 6 → src.val = 36 + q.val → dst.val = 20 + q.val / 4 →
        ∀ (before after : List Crossing) (x : Crossing), s.xing = before ++ x :: after →
        (∀ y ∈ before, ¬(y.src = src.val ∧ y.dst = dst.val)) → x.src = src.val → x.dst = dst.val →
        (∀ c ring, x.read.owner = .desc c ring → copying s c ring = none) →
        ((getMp s q.val).held = [] →
          exec (.crossingTransfer src dst cycles) s = .next { s with xing := before ++ after, xingOut := s.xingOut ++ [x] }) ∧
        (∀ r rest, (getMp s q.val).held = r :: rest → (s.xing.filter (portXing q.val)).length ≤ s.cfg.xingCap →
          exec (.crossingTransfer src dst cycles) s = .next { setMp s q.val { getMp s q.val with held := rest } with
            xing := before ++ after ++ [{ src := src.val, dst := dst.val, read := r }], xingOut := s.xingOut ++ [x] })))

/-- Read data (R322, R333, R399): good data of an operand read stands in memory from the byte lanes of its address on, but where M1 has a
write of the byte under way, is charged to its context, and goes on to the staging island; a full crossing holds it in the port, in order
(R35). A corrected codeword is counted; a first poisoned response is counted and logged and the read goes out once more on its port, a
second one ends its descriptor with UNRECOVERABLE (R309, R334); a first uncorrectable one goes out once more too, and counts towards the
port's fence (R322). -/
def Obligations.ReadDataArrives : Prop :=
  ∀ (s : State) (q : PortId) (tag : BitVec 12) (data : List Byte) (r : PortReq) (c : Nat) (ring : W32),
    (getMp s q.val).rdOut.find? (fun e => e.1 == tag.toNat && e.2.op == 0) = some (tag.toNat, r) → r.owner = .desc c ring →
    (∀ rs ∈ [RsResult.clean, .corrected], ∃ t, exec (.mppRdReceive (.mem q) tag data rs false) s = .next t ∧
        t = { s with mp := t.mp, mems := t.mems, tlm := t.tlm, xing := t.xing } ∧
        thas (getMp t q.val).rdOut tag.toNat = false ∧ (∀ j, j ≠ q.val → getMp t j = getMp s j) ∧
        (getMp t q.val).ce.toNat = (if rs = .corrected then min (2 ^ 32 - 1) ((getMp s q.val).ce.toNat + 1) else (getMp s q.val).ce.toNat) ∧
        (∀ k b, ((data.drop (r.addr % 512)).take r.len)[k]? = some b → writePends s (r.addr + k) = false →
          rdByte t.mems .mem (r.addr + k) = b) ∧
        (∀ sp a, (sp ≠ .mem ∨ a < r.addr ∨ r.addr + r.len ≤ a ∨ writePends s a = true) → rdByte t.mems sp a = rdByte s.mems sp a) ∧
        (getAcct t c).rdBytes = (getAcct s c).rdBytes + BitVec.ofNat 64 r.len ∧
        (xingFull s q.val = false → (getMp s q.val).held = [] →
          t.xing = s.xing ++ [{ src := 36 + q.val, dst := 20 + q.val / 4, read := r }] ∧ (getMp t q.val).held = []) ∧
        (xingFull s q.val = true ∨ (getMp s q.val).held ≠ [] →
          t.xing = s.xing ∧ (getMp t q.val).held = (getMp s q.val).held ++ [r])) ∧
    (r.retried = false →
      (∃ t, exec (.mppRdReceive (.mem q) tag data .clean true) s = .next t ∧
        (getMp t q.val).poison.toNat = min 65535 ((getMp s q.val).poison.toNat + 1) ∧
        (getMp t q.val).rdQ = { r with retried := true } :: (getMp s q.val).rdQ ∧ t.ctxs = s.ctxs ∧
        LogAt t s.flog.next.toNat 2 0x15 0) ∧
      (∀ p, reached 3 (addEvent (getMp s q.val).ueTimes s.time.t) = false →
        ∃ t, exec (.mppRdReceive (.mem q) tag data .uncorrectable p) s = .next t ∧
          (getMp t q.val).ue.toNat = min 65535 ((getMp s q.val).ue.toNat + 1) ∧
          (getMp t q.val).rdQ = { r with retried := true } :: (getMp s q.val).rdQ ∧ t.ctxs = s.ctxs ∧ t.units = s.units ∧
          LogAt t s.flog.next.toNat 2 0x0B 0)) ∧
    (r.retried = true → (∃ d ∈ (getCtx s c).admitted, d.ring = ring ∧ d.result = none) → ((getCtx s c).admitted.map (·.ring)).Nodup →
      ∃ t, exec (.mppRdReceive (.mem q) tag data .clean true) s = .next t ∧ LogAt t s.flog.next.toNat 2 0x15 0 ∧
        ∃ d ∈ (getCtx t c).admitted, d.ring = ring ∧ ∃ f, d.result = some (plainResult .unrecoverable f))

/-- Responses (R333 to R335, R283, R284): the acknowledgement of a write, but of a remote copy, ends it and changes nothing else; the response of an
atomic leaves the new value in memory and completes its descriptor with the prior value; a translation error of a write or a read ends
its descriptor with XLATE_FAULT and the address (R308, R334). -/
def Obligations.ResponsesEndRequests : Prop :=
  ∀ (s : State) (q : PortId) (tag : BitVec 12) (r : PortReq) (c : Nat) (ring : W32) (prior : W64),
    ((getMp s q.val).wrOut.find? (fun e => e.1 == tag.toNat) = some (tag.toNat, r) → r.op = 1 → r.owner ≠ .lost →
      (∀ e k, r.owner = .desc e k → copying s e k = none) →
      exec (.mppRspReceive (.mem q) tag 0 prior) s =
        .next (setMp s q.val { getMp s q.val with wrOut := tdrop (getMp s q.val).wrOut tag.toNat,
                                                  rdOut := tdrop (getMp s q.val).rdOut tag.toNat })) ∧
    ((getMp s q.val).wrOut.find? (fun e => e.1 == tag.toNat) = none →
      (getMp s q.val).rdOut.find? (fun e => e.1 == tag.toNat && e.2.op != 0) = some (tag.toNat, r) → r.op = 2 →
      r.owner = .desc c ring → ceLedger (getCtx s c).ent = false → (∃ d ∈ (getCtx s c).admitted, d.ring = ring ∧ d.result = none) →
      ((getCtx s c).admitted.map (·.ring)).Nodup →
      ∃ t, exec (.mppRspReceive (.mem q) tag 0 prior) s = .next t ∧
        rd64 t.mems .mem r.addr = atomicNew r.aop prior (BitVec.ofNat 64 (leNat (r.data.take 8)))
          (BitVec.ofNat 64 (leNat ((r.data.drop 8).take 8))) ∧
        (∀ sp a, (sp ≠ .mem ∨ a < r.addr ∨ r.addr + 8 ≤ a) → rdByte t.mems sp a = rdByte s.mems sp a) ∧
        (∃ d ∈ (getCtx t c).admitted, d.ring = ring ∧
          d.result = some { plainResult .ok with result := atomicResult r.aop prior }) ∧
        (∀ e, e ≠ c → getCtx t e = getCtx s e)) ∧
    (r.owner = .desc c ring → (∃ d ∈ (getCtx s c).admitted, d.ring = ring ∧ d.result = none) →
      ((getCtx s c).admitted.map (·.ring)).Nodup →
      (((getMp s q.val).wrOut.find? (fun e => e.1 == tag.toNat) = some (tag.toNat, r) ∧ r.op = 1) ∨
       ((getMp s q.val).wrOut.find? (fun e => e.1 == tag.toNat) = none ∧
        (getMp s q.val).rdOut.find? (fun e => e.1 == tag.toNat) = some (tag.toNat, r) ∧ r.op = 0)) →
      ∃ t, exec (.mppRspReceive (.mem q) tag 1 prior) s = .next t ∧ thas (getMp t q.val).rdOut tag.toNat = false ∧
        ∃ d ∈ (getCtx t c).admitted, d.ring = ring ∧ ∃ f, d.result = some { plainResult .xlateFault f with result := BitVec.ofNat 64 r.addr })

/-! ### Registers -/

/-- Register writes of 8 bytes (R386, R387, R392, R396): fields outside their range leave their value, read-only registers ignore
the write, and every other register and the memory stay. An access of another size or alignment, or where no register lies, is
answered ERR and changes nothing (R341). -/
def Obligations.RegisterWritesTakeEffect : Prop :=
  ∀ (s : State) (p : HostId) (v : W64), hostAnswers s p.val = true →
    let done := fun (g : Regs) (t : State) => t = { wake s with regs := g, hp := t.hp } ∧ (getHp t p.val).resp = .ok
    (∃ t, exec (.registerWrite p 0x38 8 v) s = .next t ∧
      done { s.regs with pollNs := v.setWidth 32, pollCur := if s.regs.pollCur = 0 then pollInterval (v.setWidth 32) else s.regs.pollCur } t) ∧
    (∃ t, exec (.registerWrite p 0x78 8 v) s = .next t ∧ done { s.regs with irqData := v.setWidth 32 } t) ∧
    (∃ t, exec (.registerWrite p 0x10000 8 v) s = .next t ∧ done { s.regs with engineAsid := v.setWidth 16 } t) ∧
    (∃ t, exec (.registerWrite p 0x38008 8 v) s = .next t ∧ done { s.regs with periodMs := v.setWidth 16 } t) ∧
    (∃ t, exec (.registerWrite p 0x40 8 v) s = .next t ∧
      done { s.regs with sideThreshold := (if 1 ≤ v.toNat % 32 ∧ v.toNat % 32 ≤ 16 then v.setWidth 5 else s.regs.sideThreshold),
                         sideFallback := v.getLsbD 8 } t) ∧
    (∃ t, exec (.registerWrite p 0x48 8 v) s = .next t ∧
      done { s.regs with quantum := (if v.toNat % 2 ^ 16 = 0 then s.regs.quantum else v.setWidth 16),
                         qdepth := (if 1 ≤ v.toNat / 2 ^ 16 % 8 ∧ v.toNat / 2 ^ 16 % 8 ≤ 4 then (v >>> 16).setWidth 3 else s.regs.qdepth),
                         starveUs := (v >>> 20).setWidth 12 } t) ∧
    (anyActive s = true → ∃ t, exec (.registerWrite p 0x30 8 v) s = .next t ∧ done s.regs t) ∧
    (anyActive s = false → ∃ t, exec (.registerWrite p 0x30 8 v) s = .next t ∧ t = { wake s with regs := t.regs, hp := t.hp } ∧
      t.regs.ctxBase.toNat = v.toNat % 2 ^ 57 / 4096 * 4096 ∧ (getHp t p.val).resp = .ok) ∧
    (∀ off ∈ [(0x00000 : BitVec 21), 0x10, 0x18, 0x20, 0x80, 0x20000, 0x30008, 0x30010, 0x30018, 0x30038, 0x38010],
      ∃ t, exec (.registerWrite p off 8 v) s = .next t ∧ done s.regs t) ∧
    (∀ (off : BitVec 21) (size : Nat), (size ≠ 4 ∧ size ≠ 8) ∨ off.toNat % size ≠ 0 ∨ readReg (wake s) (off.toNat / 8 * 8) = none →
      ∃ t, exec (.registerWrite p off size v) s = .next t ∧ t = { wake s with hp := t.hp } ∧ (getHp t p.val).resp = .err)

/-- The maintenance token (R368, R369): a free token goes to the first master that asks, a held one is refused to the other; while the
main side is down the management controller takes it from the host; a holder gives it back; a write that asks for both is ignored.
Nothing else changes. A write of a
descriptor version into ENG_HOST_SPEAKS sets ENG_AGREED to the smaller of it and 1; 0, and any write while a context is active, is
ignored (R249, R394). MNT_STREAM_OWNER written by the host with the token keeps in its mask only arrays that are DISABLED or FENCED
(R370). -/
def Obligations.TokenVersionAndOwnership : Prop :=
  (∀ (s : State) (p : HostId) (h : SbdHead) (v : W64),
      (hostAnswers s p.val = true →
        (∃ t, exec (.ownerAcquire p) s = .next t ∧ (getHp t p.val).resp = .ok ∧
          t = { wake s with mnt := { s.mnt with holder := if s.mnt.holder = 0 then 1 else s.mnt.holder }, hp := t.hp }) ∧
        (∃ t, exec (.ownerRelease p) s = .next t ∧ (getHp t p.val).resp = .ok ∧
          t = { wake s with mnt := { s.mnt with holder := if s.mnt.holder = 1 then 0 else s.mnt.holder }, hp := t.hp }) ∧
        (v.getLsbD 2 = true → v.getLsbD 3 = true → ∃ t, exec (.registerWrite p 0x30020 8 v) s = .next t ∧ t = { wake s with hp := t.hp })) ∧
      (sbdTakes s h = true → s.sbd.session = true →
        (s.mnt.holder = 0 ∨ s.mnt.holder = 2 ∨ s.mnt.mainDown = true →
          exec (.ownership true h) s = .next { s with mnt := { s.mnt with holder := 2 }, sbd := { s.sbd with resp := .done 0x13 h.inst 0x00 [] } }) ∧
        (s.mnt.holder = 1 → s.mnt.mainDown = false →
          exec (.ownership true h) s = .next { s with sbd := { s.sbd with resp := .done 0x13 h.inst 0x02 [] } }) ∧
        (s.mnt.holder = 2 →
          exec (.ownership false h) s = .next { s with mnt := { s.mnt with holder := 0 }, sbd := { s.sbd with resp := .done 0x13 h.inst 0x00 [] } }) ∧
        (s.mnt.holder ≠ 2 → exec (.ownership false h) s = .next { s with sbd := { s.sbd with resp := .done 0x13 h.inst 0x02 [] } }))) ∧
  ((∀ (s : State) (p : HostId) (v : BitVec 4), hostAnswers s p.val = true →
        (v ≠ 0 → anyActive s = false → ∃ t, exec (.hostSpeaksWrite p v) s = .next t ∧
          t = { wake s with regs := { s.regs with speaks := v, agreed := if v.toNat ≤ 1 then v else 1 }, hp := t.hp } ∧
          (getHp t p.val).resp = .ok) ∧
        ((v = 0 ∨ anyActive s = true) → ∃ t, exec (.hostSpeaksWrite p v) s = .next t ∧ t = { wake s with hp := t.hp } ∧
          (getHp t p.val).resp = .ok)) ∧
    (∀ (s : State) (p : HostId) (c : CtxId) (m : BitVec 16), hostAnswers s p.val = true → s.mnt.holder = 1 →
        ∃ t, exec (.streamOwnerWrite p c m) s = .next t ∧ (getHp t p.val).resp = .ok ∧
          t = { wake s with mnt := { s.mnt with streamCtx := t.mnt.streamCtx, streamArrays := t.mnt.streamArrays }, hp := t.hp } ∧
          t.mnt.streamCtx.toNat = c.val ∧
          ∀ a : ArrId, t.mnt.streamArrays.getLsbD a.val = true ↔
            (m.getLsbD a.val = true ∧ (unitSt s .array a.val = .disabled ∨ unitSt s .array a.val = .fenced))))

/-! ### Units -/

/-- Unit requests of a host that holds the token (R315, R317, R318, R319, R322, R323): a disable lets a LIVE unit drain; a disable with
force and a fence take it out of service at once; the last LIVE port takes its region with it; an enable tests a FENCED or DISABLED unit
of a LIVE region, an array's as an activity of its Maintenance Arbiter; a request for an ABSENT unit, or an enable under a region that is
not LIVE, is ignored and logged with source 0x24. -/
def Obligations.UnitRequestsChangeStates : Prop :=
  ∀ (s : State) (p : HostId) (u : UnitSel), hostAnswers s p.val = true → s.mnt.holder = 1 → Settled s →
    let n := u.unit.val
    let here := unitSt s u.kind n ≠ .absent ∧ regionOf u.kind n < s.cfg.regions
    let others := fun (t : State) => ∀ k m, ¬(k = u.kind ∧ m = n) → unitSt t k m = unitSt s k m
    let portLeft := u.kind ≠ .port ∨ unitSt s .region (n / 4) ≠ .live ∨ ∃ j, j < 4 ∧ n / 4 * 4 + j ≠ n ∧ unitSt s .port (n / 4 * 4 + j) = .live
    (¬here → ∀ i ∈ [Instr.unitDisable p u, .unitForceDisable p u, .unitEnable p u, .unitFence p u],
      ∃ t, exec i s = .next t ∧ (getHp t p.val).resp = .ok ∧
        t = { logFault (wake s) (unitEntry s 1 0x24 u.kind n) with hp := t.hp }) ∧
    (here → unitSt s u.kind n = .live → u.kind ≠ .region → portLeft → ∃ t, exec (.unitDisable p u) s = .next t ∧
      unitSt t u.kind n = .draining ∧ (getHp t p.val).resp = .ok ∧
      t = { wake s with units := t.units, arrs := t.arrs, tlm := t.tlm, hp := t.hp } ∧ others t) ∧
    (here → unitSt s u.kind n = .live → u.kind = .region → ∃ t, exec (.unitDisable p u) s = .next t ∧ unitSt t .region n = .draining ∧
      (getRgn t n).resid = [] ∧ (getRgn t n).watch = [] ∧ ∀ x ∈ unitsOf n, unitSt t x.1 x.2 = followRegion .draining (unitSt s x.1 x.2)) ∧
    (here → ¬portLeft → unitSt s .port n = .live → ∀ i ∈ [Instr.unitDisable p u, .unitForceDisable p u, .unitFence p u],
      ∃ t, exec i s = .next t ∧ unitSt t .region (n / 4) = .fenced ∧ unitSt t .port n = .fenced) ∧
    (here → unitSt s u.kind n ≠ .live → ∃ t, exec (.unitDisable p u) s = .next t ∧ t = { wake s with hp := t.hp }) ∧
    (here → unitSt s u.kind n ≠ .disabled → unitSt s u.kind n ≠ .fenced → portLeft → ∃ t, exec (.unitForceDisable p u) s = .next t ∧
      unitSt t u.kind n = .disabled ∧ (getHp t p.val).resp = .ok ∧
      (u.kind = .array → (getArr t n).bound = [] ∧ (getRgn t (n / 4)).replayQ.length =
        (getRgn s (n / 4)).replayQ.length + (getArr s n).bound.length + (followed s n).length ∧ t.ctxs = s.ctxs)) ∧
    (here → unitSt s u.kind n ≠ .fenced → ∃ t, exec (.unitFence p u) s = .next t ∧ unitSt t u.kind n = .fenced ∧
      (getHp t p.val).resp = .ok ∧ (u.kind = .array → LogAt t s.flog.next.toNat 3 0x20 0) ∧
      (u.kind = .array → (getArr t n).bound = [] ∧ others t)) ∧
    (here → u.kind ≠ .region → (unitSt s u.kind n = .fenced ∨ unitSt s u.kind n = .disabled) →
      unitSt s .region (regionOf u.kind n) = .live → ∃ t, exec (.unitEnable p u) s = .next t ∧ unitSt t u.kind n = .testing ∧
        (getHp t p.val).resp = .ok ∧ t = { wake s with units := t.units, mnt := t.mnt, rgns := t.rgns, hp := t.hp } ∧ others t ∧
        (u.kind ≠ .array → t.rgns = s.rgns) ∧
        (u.kind = .array → t.mnt.streamArrays.getLsbD n = false ∧ ((getRgn s (n / 4)).running = [] → (getRgn s (n / 4)).queued = [] →
          (getRgn t (n / 4)).running = [{ code := 1, array := u.unit }]))) ∧
    (here → u.kind ≠ .region → unitSt s .region (regionOf u.kind n) ≠ .live → ∃ t, exec (.unitEnable p u) s = .next t ∧
      (getHp t p.val).resp = .ok ∧ t = { logFault (wake s) (unitEntry s 1 0x24 u.kind n) with hp := t.hp }) ∧
    (here → u.kind = .region → (unitSt s .region n = .fenced ∨ unitSt s .region n = .disabled) → ∃ t, exec (.unitEnable p u) s = .next t ∧
      unitSt t .region n = .testing ∧ ∀ x ∈ unitsOf n, unitSt t x.1 x.2 = followRegion .testing (unitSt s x.1 x.2))

/-- A drained unit becomes DISABLED with a log entry of source 0x22, or goes to its self-test (R317, R381); a drained region drops its
residency copies (R321). A unit whose test passes becomes LIVE with source 0x21, one that fails FENCED with source 0x20 (R323); an array's
test runs as an activity of its region. A region that passes has its scratchpad zeroed and its failing banks on spares; with no port left
in service it is FENCED (R322). -/
def Obligations.DrainsAndTestsSettleUnits : Prop :=
  ∀ (s : State) (u : UnitSel) (r : TestReport),
    let n := u.unit.val
    (unitSt s u.kind n ≠ .draining ∨ drained s u.kind n = false → exec (.unitDrainDone u) s = .next s) ∧
    (unitSt s u.kind n = .draining → drained s u.kind n = true → (getUnit s.units u.kind n).forTest = false → u.kind ≠ .region →
      exec (.unitDrainDone u) s = .next (logFault (putUnit s u.kind n .disabled) (unitEntry s 1 0x22 u.kind n))) ∧
    (unitSt s u.kind n = .draining → drained s u.kind n = true → (getUnit s.units u.kind n).forTest = false → u.kind = .region →
      ∃ t, exec (.unitDrainDone u) s = .next t ∧ unitSt t .region n = .disabled ∧ (getRgn t n).resid = []) ∧
    (unitSt s u.kind n = .draining → drained s u.kind n = true → (getUnit s.units u.kind n).forTest = true →
      ∃ t, exec (.unitDrainDone u) s = .next t ∧ t = { s with units := t.units } ∧ unitSt t u.kind n = .testing ∧
        ∀ k m, ¬(k = u.kind ∧ m = n) → unitSt t k m = unitSt s k m) ∧
    (unitSt s u.kind n ≠ .testing ∨ testRuns s u.kind n = false → exec (.unitTestDone u r) s = .next s) ∧
    (unitSt s u.kind n = .testing → testRuns s u.kind n = true → u.kind ≠ .region → Settled s →
      ∃ t, exec (.unitTestDone u r) s = .next t ∧ unitSt t u.kind n = (if r.pass = true then .live else .fenced) ∧
        (∀ k m, ¬(k = u.kind ∧ m = n) → unitSt t k m = unitSt s k m) ∧
        (r.pass = false → LogAt t s.flog.next.toNat 3 0x20 0) ∧
        (u.kind = .array → ∀ a ∈ (getRgn t (n / 4)).running, ¬(a.code = 1 ∧ a.array.val = n)) ∧
        t = { s with units := t.units, arrs := t.arrs, rgns := t.rgns, mp := t.mp, flog := t.flog, sbd := t.sbd, hp := t.hp,
                     mems := t.mems }) ∧
    (unitSt s u.kind n = .testing → u.kind = .region → Settled s → r.pass = true → r.badBanks.length ≤ 4 →
      (∃ j, j < 4 ∧ unitSt s .port (4 * n + j) = .testing ∧ ∀ q ∈ r.failPorts, q.val ≠ 4 * n + j) →
      ∃ t, exec (.unitTestDone u r) s = .next t ∧ unitSt t .region n = .live ∧ (getRgn t n).spares = (sparesOf r.badBanks).1 ∧
        (∀ a, rdByte t.mems (.spad n) a = 0) ∧ (∀ m a, m ≠ n → rdByte t.mems (.spad m) a = rdByte s.mems (.spad m) a) ∧
        (∀ j, j < 4 → unitSt s .array (4 * n + j) = .testing →
          unitSt t .array (4 * n + j) = if r.failArrays.any (fun a => a.val == 4 * n + j) then .fenced else .live)) ∧
    (unitSt s u.kind n = .testing → u.kind = .region → Settled s → r.pass = true → r.badBanks.length ≤ 4 →
      (∀ j, j < 4 → unitSt s .port (4 * n + j) ≠ .live ∧ (unitSt s .port (4 * n + j) = .testing → ∃ q ∈ r.failPorts, q.val = 4 * n + j)) →
      ∃ t, exec (.unitTestDone u r) s = .next t ∧ unitSt t .region n = .fenced) ∧
    (unitSt s u.kind n = .testing → u.kind = .region → Settled s → (r.pass = false ∨ 4 < r.badBanks.length) →
      ∃ t, exec (.unitTestDone u r) s = .next t ∧ unitSt t .region n = .fenced ∧ LogAt t s.flog.next.toNat 4 0x20 0)

/-! ### Maintenance -/

/-- A maintenance request of either master for a region that takes one and where it may start at once (R377 to R380): the activity runs;
a scrub begins at the first line of every bank, the RNG self-test asks the region's unit for its vectors in class 4 of R210 (R215); the
journal's copies are rewritten by a compaction through the banks in the maintenance class, a LIVE array drains first for its self-test
(R381), a snapshot is written to snap_base (R360). The host has its answer, the management controller 0x00. -/
def Obligations.MaintenanceStarts : Prop :=
  ∀ (s : State) (m : MaintFrom) (r : RgnId) (a : ArrId),
    (∀ p, m = .host p → hostAnswers s p.val = true ∧ s.mnt.holder = 1) →
    (∀ h, m = .mgmt h → sbdTakes s h = true ∧ s.sbd.session = true ∧ s.mnt.holder = 2 ∧ s.boot.ready = true) →
    let told := fun (t : State) => (∀ p, m = .host p → (getHp t p.val).resp = .ok ∧ t.sbd = s.sbd) ∧
      (∀ h, m = .mgmt h → t.sbd = { s.sbd with resp := .done 0x12 h.inst 0x00 [] } ∧ t.hp = s.hp)
    (maintRegion s r.val = true → (getRgn s r.val).running = [] → (getRgn s r.val).queued = [] →
      (∀ x ∈ quietMaint m r, ∃ t, exec x.2 s = .next t ∧ t = { wake s with rgns := t.rgns, sbd := t.sbd, hp := t.hp } ∧ told t ∧
        getRgn t r.val = { getRgn s r.val with
          running := [{ code := x.1, array := 0 }], rngReqs := (getRgn t r.val).rngReqs,
          scrub := if x.1 = 0 then [] else (getRgn s r.val).scrub,
          scrubFrom := if x.1 = 0 then (getRgn s r.val).scycle else (getRgn s r.val).scrubFrom } ∧
        (x.1 ≠ 4 → (getRgn t r.val).rngReqs = (getRgn s r.val).rngReqs) ∧
        (x.1 = 4 → ∃ q, (getRgn t r.val).rngReqs = (getRgn s r.val).rngReqs ++ [q] ∧ q.cls = 4) ∧
        (∀ n, n ≠ r.val → getRgn t n = getRgn s n)) ∧
      (∃ t, exec (.journalCompaction m r) s = .next t ∧ t = { wake s with rgns := t.rgns, sbd := t.sbd, hp := t.hp } ∧ told t ∧
        (getRgn t r.val).running = [{ code := 5, array := 0 }] ∧
        (getRgn t r.val).bankReqs = (getRgn s r.val).bankReqs ++ compactReqs (getRgn s r.val) ∧
        (∀ j, journalSummary (getRgn t r.val) j = journalSummary (getRgn s r.val) j) ∧
        (∀ x ∈ (getRgn t r.val).journal, ¬(x.2.lostA = true ∧ x.2.lostB = true) → x.2.lostA = false ∧ x.2.lostB = false ∧ x.2.a = x.2.b) ∧
        (∀ n, n ≠ r.val → getRgn t n = getRgn s n)) ∧
      (s.regs.snapBase ≠ 0 → (∀ n, n < 4 → snapBusy s n = false) → xlateAt s.env s.regs.engineAsid s.regs.snapBase.toNat 0x41000 = none →
        ∃ t, exec (.telemetrySnapshot m r) s = .next t ∧ (getRgn t r.val).running = [{ code := 6, array := 0 }] ∧
          t.tlm = { s.tlm with seq := s.tlm.seq + 1, snapLeft := [] } ∧ rd64 t.mems .mem s.regs.snapBase.toNat = BitVec.ofNat 64 s.time.t)) ∧
    (maintRegion s (a.val / 4) = true → (getRgn s (a.val / 4)).running = [] → (getRgn s (a.val / 4)).queued = [] →
      ∃ t, exec (.arraySelfTest m a) s = .next t ∧ (getRgn t (a.val / 4)).running = [{ code := 1, array := a }] ∧
        (unitSt s .array a.val = .live → unitSt t .array a.val = .draining ∧ (getUnit t.units .array a.val).forTest = true) ∧
        ((unitSt s .array a.val = .disabled ∨ unitSt s .array a.val = .fenced) → unitSt s .region (a.val / 4) = .live →
          unitSt t .array a.val = .testing))

/-- A request that conflicts with a running activity is queued and DEFERRED, a request for the same activity merges (R379), and a region
that is ABSENT or DISABLED takes none (R382). Queued activities start when they are compatible, activities end once their work is over,
and the automatic ones begin (R377, R379, R381, R215, R360): a reload leaves the region's fuses as OTP has them, the RNG self-test retires
its failing lanes, the array's brings it into service or fences it. -/
def Obligations.MaintenanceQueuesAndRuns : Prop :=
  (∀ (s : State) (h : SbdHead) (r : RgnId) (b : MaintAct), sbdTakes s h = true → s.sbd.session = true → s.mnt.holder = 2 →
      s.boot.ready = true →
      (maintRegion s r.val = true → (getRgn s r.val).running = [b] → (getRgn s r.val).queued = [] → ∀ x ∈ quietMaint (.mgmt h) r,
        ¬compatible b { code := x.1, array := 0 } → x.1 ≠ b.code →
          ∃ t, exec x.2 s = .next t ∧ (getRgn t r.val).running = [b] ∧ (getRgn t r.val).queued = [(.mgmt, { code := x.1, array := 0 })] ∧
            t.sbd.resp = .done 0x12 h.inst 0x01 [] ∧ ∀ n, n ≠ r.val → getRgn t n = getRgn s n) ∧
      (maintRegion s r.val = true → ∀ x ∈ quietMaint (.mgmt h) r, (getRgn s r.val).running = [{ code := x.1, array := 0 }] →
        ∃ t, exec x.2 s = .next t ∧ (∀ n, getRgn t n = getRgn s n) ∧ t.sbd.resp = .done 0x12 h.inst 0x00 []) ∧
      (maintRegion s r.val = false → ∀ x ∈ quietMaint (.mgmt h) r,
        ∃ t, exec x.2 s = .next t ∧ (∀ n, getRgn t n = getRgn s n) ∧ t.sbd.resp = .done 0x12 h.inst 0x00 [])) ∧
  (∀ (s : State) (r : RgnId) (p : HostId) (a : MaintAct) (pass : Bool) (fail : W32),
      (∀ m q, (getRgn s r.val).running = [] → (getRgn s r.val).queued = (m, a) :: q →
        (a.code ∈ [2, 3] → exec (.maintQueuedStart r none) s =
          .next (setRgn s r.val { getRgn s r.val with running := [a], queued := q })) ∧
        (a.code = 0 → exec (.maintQueuedStart r none) s = .next (setRgn s r.val { getRgn s r.val with
          running := [a], queued := q, scrub := [], scrubFrom := (getRgn s r.val).scycle })) ∧
        (a.code = 4 → ∃ e, e.cls = 4 ∧ exec (.maintQueuedStart r none) s = .next (setRgn s r.val { getRgn s r.val with
          running := [a], queued := q, rngReqs := (getRgn s r.val).rngReqs ++ [e] }))) ∧
      ((getRgn s r.val).running = [a] → Settled s →
        (actBusy s r.val a = true → exec (.maintActivityEnd r a pass fail) s = .next s) ∧
        (actBusy s r.val a = false → a.code ∈ [0, 2, 5, 6] →
          exec (.maintActivityEnd r a pass fail) s = .next (setRgn s r.val { getRgn s r.val with running := [] })) ∧
        (a.code = 3 → ∃ t, exec (.maintActivityEnd r a pass fail) s = .next t ∧
          t = { setRgn s r.val { getRgn s r.val with running := [] } with boot := t.boot } ∧
          t.boot = { s.boot with fuse := t.boot.fuse, fuseData := s.cfg.otpData } ∧
          ∀ i, i < 16 → t.boot.fuse.getLsbD i = if i / 4 = r.val then s.cfg.otp.getLsbD i else s.boot.fuse.getLsbD i) ∧
        (a.code = 4 → (∀ q ∈ (getRgn s r.val).rngReqs, q.cls ≠ 4) → ∃ t, exec (.maintActivityEnd r a pass fail) s = .next t ∧
          getRgn t r.val = { getRgn s r.val with running := [], selfDone := true, selfPass := (fail &&& (getRgn s r.val).lanes == 0),
                                                 selfFailed := fail, lanes := (getRgn s r.val).lanes &&& ~~~fail }) ∧
        (a.code = 1 → unitSt s .array a.array.val = .testing →
          ∃ t, exec (.maintActivityEnd r a pass fail) s = .next t ∧ (getRgn t r.val).running = [] ∧
            unitSt t .array a.array.val = if pass = true then .live else .fenced)) ∧
      (s.boot.ready = true → maintRegion s r.val = true → (getRgn s r.val).running = [] → (getRgn s r.val).queued = [] →
        ∃ t, exec (.autoScrub r) s = .next t ∧ t = { wake s with rgns := t.rgns } ∧
          getRgn t r.val = { getRgn s r.val with running := [{ code := 0, array := 0 }], scrub := [], scrubFrom := (getRgn s r.val).scycle } ∧
          ∀ n, n ≠ r.val → getRgn t n = getRgn s n) ∧
      (s.regs.snapBase ≠ 0 → xlateAt s.env s.regs.engineAsid s.regs.snapBase.toNat 0x41000 = none →
        (∀ n : RgnId, (getRgn s n.val).running = [] ∧ (getRgn s n.val).queued = []) → (∃ n : RgnId, maintRegion s n.val = true) →
        (hostAnswers s p.val = true → ∃ t, exec (.snapNow p) s = .next t ∧ (getHp t p.val).resp = .ok ∧ t.tlm.seq = s.tlm.seq + 1 ∧
          rd64 t.mems .mem s.regs.snapBase.toNat = BitVec.ofNat 64 s.time.t) ∧
        (s.boot.ready = true → s.regs.periodMs ≠ 0 → ∃ t, exec .snapshotPeriod s = .next t ∧ t.tlm.seq = s.tlm.seq + 1 ∧
          rd64 t.mems .mem s.regs.snapBase.toNat = BitVec.ofNat 64 s.time.t)))

/-! ### Power -/

/-- Power states (R383 to R385): the host's target sets run or reduced-clock, whose arrays then step to their point; during a transition the
target written last waits for its end. Retention is entered only with no context active, no work and no maintenance, and refused
otherwise; in retention a target only waits for the warm reset that ends it, and the host ports are gated at the end. Idle is entered
from run with nothing to do. -/
def Obligations.PowerStatesFollowTargets : Prop :=
  ∀ (s : State) (p : HostId),
    (hostAnswers s p.val = true →
      (s.boot.pstate ≠ 3 → inTransition s = false →
        (∃ t, exec (.pstateRun p) s = .next t ∧ (getHp t p.val).resp = .ok ∧
          t.pwr = { s.pwr with target := 0, moving := decide ((wake s).boot.pstate = 1 ∧ s.pwr.rcPoint < s.pwr.capArray) } ∧
          t = { s with pwr := t.pwr, boot := { s.boot with pstate := 0 }, isl := t.isl, hp := t.hp }) ∧
        (∃ t, exec (.pstateReducedClock p) s = .next t ∧ (getHp t p.val).resp = .ok ∧
          t.pwr = { s.pwr with target := 1, rcPoint := min s.pwr.rcPoint s.pwr.capArray,
                               moving := decide (s.pwr.now.fFloor.toNat < min s.pwr.rcPoint s.pwr.capArray) } ∧
          t = { s with pwr := t.pwr, boot := { s.boot with pstate := 1 }, isl := t.isl, hp := t.hp }) ∧
        (retentionAllowed s = true → ∃ t, exec (.pstateRetention p) s = .next t ∧ (getHp t p.val).resp = .ok ∧
          t.boot.pstate = 3 ∧ t.pwr = { s.pwr with target := 2 } ∧ t.boot.retained = liveUnits s ∧ t.mems = s.mems ∧ t.units = s.units ∧
          t.rgns = s.rgns ∧ t.arrs = s.arrs ∧ t.ctxs = s.ctxs) ∧
        (retentionAllowed s = false → ∃ t, exec (.pstateRetention p) s = .next t ∧ (getHp t p.val).resp = .ok ∧
          t = { wake s with pwr := { s.pwr with retRefused := true }, hp := t.hp })) ∧
      (∀ x ∈ [((0 : BitVec 2), Instr.pstateRun p), (1, .pstateReducedClock p), (2, .pstateRetention p)],
        (s.boot.pstate ≠ 3 → inTransition s = true → ∃ t, exec x.2 s = .next t ∧ (getHp t p.val).resp = .ok ∧
          t = { wake s with pwr := { s.pwr with nextTarget := some x.1 }, hp := t.hp }) ∧
        (s.boot.pstate = 3 → x.1 ≠ 2 → ∃ t, exec x.2 s = .next t ∧ (getHp t p.val).resp = .ok ∧
          t = { s with pwr := { s.pwr with target := x.1 }, hp := t.hp }))) ∧
    (s.boot.pstate = 3 → ∃ t, exec .retentionPortGate s = .next t ∧ t = { s with boot := { s.boot with gated := true }, isl := t.isl } ∧
      (∀ j, hostAnswers t j = false) ∧ ∀ i, i < 60 → (getIsl t i).gated = (if i = 57 ∨ i = 59 then (getIsl s i).gated else true)) ∧
    (s.boot.ready = true → s.boot.pstate = 0 → s.pwr.autoIdle = true → s.pwr.moving = false → noWork s = true →
      ∃ t, exec .idleEntry s = .next t ∧ t = { s with boot := { s.boot with pstate := 2 }, isl := t.isl } ∧
        ∀ i, i < 16 → (getIsl t i).gated = true) ∧
    (s.boot.ready = true → s.boot.pstate = 0 → (s.pwr.autoIdle = false ∨ s.pwr.moving = true ∨ noWork s = false) →
      exec .idleEntry s = .next s)

/-- The power controller (R355, R383, R384, R401): a written configuration comes into force at the interval; an average above the cap
lowers one kind of island by 25 MHz, array islands first and not below f_floor; below 98 % of the cap one kind rises, in the reverse
order; the average is reported. In reduced-clock the arrays' limit steps by 25 MHz to f_floor, and a target that waited then takes
effect. A thermal site above t_throttle lowers the islands that draw on it by 25 MHz from the point they run at and raises its maximum
(R356, R357); 110 degrees stop dispatch and gate the arrays, once. -/
def Obligations.PowerAndThermalControl : Prop :=
  ∀ (s : State) (avg : Nat) (mw : List Nat) (ts : List Int), s.boot.off = false → s.boot.resetAsserted = false →
    let u := { s with pwr := { s.pwr with now := s.pwr.cfg } }
    let floor := s.pwr.cfg.fFloor.toNat
    let hot := fun (x : Int) => 16 * (s.pwr.cfg.tThrottle.toNat : Int) < x
    (s.boot.pstate ≠ 3 → s.pwr.nextTarget = none → floor ≤ s.pwr.capArray → s.pwr.capArray ≤ arrayTop u.pwr →
      ∃ t, exec (.powerControlInterval avg mw) s = .next t ∧ t = { s with pwr := t.pwr, tlm := t.tlm } ∧ t.pwr.avgMw = avg ∧
        t.pwr.now = s.pwr.cfg ∧ t.pwr.cfg = s.pwr.cfg ∧
        (1000 * capInForce u < avg → floor < s.pwr.capArray →
          t.pwr.capArray = max floor (s.pwr.capArray - 25) ∧ t.pwr.capSide = s.pwr.capSide ∧ t.pwr.capStaging = s.pwr.capStaging) ∧
        (1000 * capInForce u < avg → s.pwr.capArray = floor → 800 < s.pwr.capSide →
          t.pwr.capArray = s.pwr.capArray ∧ t.pwr.capSide = s.pwr.capSide - 25 ∧ t.pwr.capStaging = s.pwr.capStaging) ∧
        (100 * avg < 98000 * capInForce u → 1600 ≤ s.pwr.capStaging → 2000 ≤ s.pwr.capSide → s.pwr.capArray < arrayTop u.pwr →
          t.pwr.capArray = min (arrayTop u.pwr) (s.pwr.capArray + 25) ∧ t.pwr.capSide = s.pwr.capSide ∧
          t.pwr.capStaging = s.pwr.capStaging) ∧
        (98000 * capInForce u ≤ 100 * avg → avg ≤ 1000 * capInForce u →
          t.pwr.capArray = s.pwr.capArray ∧ t.pwr.capSide = s.pwr.capSide ∧ t.pwr.capStaging = s.pwr.capStaging) ∧
        (s.boot.pstate = 1 → floor ≤ s.pwr.rcPoint → t.pwr.rcPoint = max floor (s.pwr.rcPoint - 25))) ∧
    (s.boot.ready = true → s.boot.pstate = 1 → s.pwr.nextTarget = some 0 → floor ≤ s.pwr.rcPoint → s.pwr.rcPoint ≤ floor + 25 →
      ∃ t, exec (.powerControlInterval avg mw) s = .next t ∧ t.boot.pstate = 0 ∧ t.pwr.nextTarget = none ∧ t.pwr.target = 0) ∧
    (ts.length = 32 → (∀ x ∈ ts, x < 1760) ∨ s.pwr.tripped = true →
      ∃ t, exec (.thermalInterval ts) s = .next t ∧ t = { s with pwr := t.pwr, tlm := t.tlm } ∧
        (∀ k, k < 32 → tget 0 t.pwr.temps k = ts.getD k 0 ∧ tget 0 t.pwr.maxTemps k = max (tget 0 s.pwr.maxTemps k) (ts.getD k 0)) ∧
        (t.pwr.throttled = true ↔ ∃ x ∈ ts, hot x) ∧
        (∀ i, i < 60 → neverThrottled i = false → (∃ k ∈ sitesOf i, hot (ts.getD k 0)) →
          t.pwr.thermal.find? (fun e => e.1 == i) = some (i, max (islLow i) (islFreq s i - 25)))) ∧
    (ts.length = 32 → s.pwr.tripped = false → ∀ k, k < 32 → 1760 ≤ ts.getD k 0 → (∀ j, j < k → ts.getD j 0 < 1760) →
      ∃ t, exec (.thermalInterval ts) s = .next t ∧ t.pwr.tripped = true ∧ BoardDown s t 0x13 k ∧ ∀ i, i < 16 → (getIsl t i).gated = true)

/-! ### Doorbells, rings and admission -/

/-- Doorbell-notifies and the poll interval (R222, R227, R364, R396): before ready a notify is held, with the table's base at 0 it is
dropped; an active context's doorbell word is read, notifies during a read merge into one more, and cq_head_addr is read where admission
waits for room; an inactive context is to be activated, and one that aborts once its abort is over (the model's choice, log 46). The
interval that follows is poll_ns as it stands then. Activation reads the context's entry (R219, R217): with enable = 0 nothing happens, a
broken entry leaves state BAD_ENTRY, and a valid one makes the context active with every index at 0 and its RNG slots read from memory
(R202), which are charged to it (R358). -/
def Obligations.NotifiesReadDoorbellsOrActivate : Prop :=
  (∀ (s : State) (p : HostId) (c : CtxId),
    (hostAnswers s p.val = true →
      (s.boot.ready = false → ∃ t, exec (.doorbellNotify p c) s = .next t ∧ (getHp t p.val).resp = .ok ∧
        t = { s with boot := { s.boot with heldNotify := s.boot.heldNotify ++ [(p, c)] }, hp := t.hp }) ∧
      (s.boot.ready = true → s.regs.ctxBase = 0 → ∃ t, exec (.doorbellNotify p c) s = .next t ∧ (getHp t p.val).resp = .ok ∧
        t = { wake s with hp := t.hp }) ∧
      (s.boot.ready = true → s.regs.ctxBase ≠ 0 → waitPolled s c.val = false →
        ∃ t, exec (.doorbellNotify p c) s = .next t ∧ (getHp t p.val).resp = .ok ∧ t = { wake s with ctxs := t.ctxs, hp := t.hp } ∧
          (∀ d, d ≠ c.val → getCtx t d = getCtx s d) ∧
          let x := getCtx s c.val
          getCtx t c.val = (if x.st = 1 ∧ x.aborting = false then
              { x with dbRead := true, dbAgain := x.dbRead || x.dbAgain, cqRead := x.cqWait || x.cqRead }
            else { x with activating := true }))) ∧
    (s.regs.pollCur ≠ 0 → s.boot.ready = true →
      ∃ t, exec .dbPoll s = .next t ∧ t = { s with ctxs := t.ctxs, boot := t.boot, isl := t.isl, regs := t.regs } ∧
        t.regs = { s.regs with pollCur := pollInterval s.regs.pollNs } ∧
        ∀ d, let x := getCtx s d
          getCtx t d = (if x.st = 1 ∧ x.aborting = false then
              { x with dbRead := cePoll x.ent || x.dbRead, dbAgain := (cePoll x.ent && x.dbRead) || x.dbAgain, cqRead := x.cqWait || x.cqRead }
            else x))) ∧
  (∀ (s : State) (c : CtxId), (getCtx s c.val).activating = true → (getCtx s c.val).st ≠ 1 → running s = true → s.regs.ctxBase ≠ 0 →
    (hostPortFor s c.val).isSome = true → xlateAt s.env s.regs.engineAsid (s.regs.ctxBase.toNat + 256 * c.val) 256 = none →
    let e := rdWords s.mems .mem (s.regs.ctxBase.toNat + 256 * c.val) 32
    ∃ t, exec (.contextActivation c) s = .next t ∧ (∀ d, d ≠ c.val → getCtx t d = getCtx s d) ∧
      (ceEnable e = false → getCtx t c.val = { getCtx s c.val with activating := false } ∧ t.mems = s.mems) ∧
      (ceEnable e = true → ceValid e = false → (getCtx t c.val).st = 3 ∧ (getCtx t c.val).fetched = [] ∧ (getCtx t c.val).ent = e) ∧
      (ceEnable e = true → ceValid e = true → xlateAt s.env (ceAsid e) (ceRngBase e) 128 = none →
        (getCtx t c.val).st = 1 ∧ (getCtx t c.val).ent = e ∧ (getCtx t c.val).fetch = 0 ∧ (getCtx t c.val).retire = 0 ∧
        (getCtx t c.val).cqWritten = 0 ∧ (getCtx t c.val).admitted = [] ∧ (getCtx t c.val).dbRead = true ∧
        (getCtx t c.val).activating = false ∧ t.mems = s.mems ∧ (getAcct t c.val).rdBytes = (getAcct s c.val).rdBytes + 384 ∧
        (∀ j, j < 8 → (slotAt (getCtx t c.val) j).key = rd64 s.mems .mem (ceRngBase e + 16 * j) ∧
          (slotAt (getCtx t c.val) j).epoch.toNat = rdLe s.mems .mem (ceRngBase e + 16 * j + 12) 4) ∧
        (getCtx t c.val).tempo.start = s.time.t))

/-- The doorbell word: bits [31:0] are the producer index, bits [63:32] the epoch; a word with another epoch is ignored (R221), and so
is one that would put more than the ring's size between the retire and the producer index, which sets db_overrun (R224). -/
def Obligations.DoorbellValueRules : Prop :=
  ∀ (s : State) (c : CtxId) (w : W64), (getCtx s c.val).st = 1 → (getCtx s c.val).dbRead = true → (hostPortFor s c.val).isSome = true →
    let x := getCtx s c.val
    let prod : W32 := w.setWidth 32
    ∃ t, exec (.doorbellValue c w) s = .next t ∧ (∀ d, d ≠ c.val → getCtx t d = getCtx s d) ∧
      (getCtx t c.val).dbRead = x.dbAgain ∧ (getCtx t c.val).dbAgain = false ∧ (getCtx t c.val).fetch = x.fetch ∧
      (getCtx t c.val).admitted = x.admitted ∧ (getCtx t c.val).fetched = x.fetched ∧
      ((w >>> 32).toNat ≠ ceRingEpoch x.ent → (getCtx t c.val).producer = x.producer ∧ (getCtx t c.val).dbOverrun = x.dbOverrun) ∧
      ((w >>> 32).toNat = ceRingEpoch x.ent → 2 ^ ceSqLog2 x.ent < (prod - x.retire).toNat →
        (getCtx t c.val).producer = x.producer ∧ (getCtx t c.val).dbOverrun = true) ∧
      ((w >>> 32).toNat = ceRingEpoch x.ent → (prod - x.retire).toNat ≤ 2 ^ ceSqLog2 x.ent →
        (getCtx t c.val).producer = prod ∧ (getCtx t c.val).dbOverrun = false)

/-- A fetch takes up to 16 descriptors from the fetch index up to the producer index, descriptor i from slot i mod 2^sq_log2 (R223), by
reads of the context's host port (R30); the data of one is charged to the context (R358), and the descriptor is what the slot then
holds. While a read of cq_head_addr is due, its value updates the count of consumed records, and cq_wait says whether admission still
waits for room (R227). -/
def Obligations.FetchAndHeadReads : Prop :=
  ∀ (s : State) (c : CtxId) (v : W32), (getCtx s c.val).st = 1 → (hostPortFor s c.val).isSome = true →
    let x := getCtx s c.val
    (running s = true → x.aborting = false → (x.producer - x.fetch).toNat ≤ 2 ^ ceSqLog2 x.ent →
      ∃ t, exec (.descriptorFetch c) s = .next t ∧ t = { s with ctxs := t.ctxs, hp := t.hp } ∧
        (∀ d, d ≠ c.val → getCtx t d = getCtx s d) ∧
        (getCtx t c.val).fetch = x.fetch + BitVec.ofNat 32 (min 16 (x.producer - x.fetch).toNat) ∧
        (getCtx t c.val).fetched.length = x.fetched.length + min 16 (x.producer - x.fetch).toNat ∧
        (∀ k, k < min 16 (x.producer - x.fetch).toNat →
          (getCtx t c.val).fetched[x.fetched.length + k]? =
            some (x.fetch + BitVec.ofNat 32 k, readSlot s x.ent (x.fetch + BitVec.ofNat 32 k)) ∧
          (readSlot s x.ent (x.fetch + BitVec.ofNat 32 k) ≠ [] → slotPending t c.val (x.fetch + BitVec.ofNat 32 k) = true))) ∧
    (∀ (p : HostId) (tag : BitVec 12) (data : List Byte) (q : PortReq) (ring : W32),
      (getHp s p.val).initOut.find? (fun e => e.1 == tag.toNat && e.2.op == 0) = some (tag.toNat, q) → q.owner = .desc c.val ring →
      ∃ t, exec (.mppRdReceive (.host p) tag data .clean false) s = .next t ∧ thas (getHp t p.val).initOut tag.toNat = false ∧
        t = { s with ctxs := t.ctxs, hp := t.hp, mems := t.mems, tlm := t.tlm } ∧ (∀ d, d ≠ c.val → getCtx t d = getCtx s d) ∧
        (∀ k b, ((data.drop (q.addr % 64)).take q.len)[k]? = some b → writePends s (q.addr + k) = false →
          rdByte t.mems .mem (q.addr + k) = b) ∧
        (∀ f ∈ (getCtx t c.val).fetched, f.1 = ring → f.2 = rdWords t.mems .mem q.addr 8) ∧
        (getCtx t c.val).fetched.map (·.1) = x.fetched.map (·.1) ∧
        (getAcct t c.val).rdBytes = (getAcct s c.val).rdBytes + BitVec.ofNat 64 q.len) ∧
    (x.cqRead = false → exec (.cqHeadRead c v) s = .next s) ∧
    (x.cqRead = true →
      ∃ t, exec (.cqHeadRead c v) s = .next t ∧ (∀ d, d ≠ c.val → getCtx t d = getCtx s d) ∧ (getCtx t c.val).cqHead = v ∧
        (getCtx t c.val).admitted = x.admitted ∧ (getCtx t c.val).fetched = x.fetched ∧ (getCtx t c.val).cqRead = false ∧
        ((getCtx t c.val).cqWait = true ↔
          2 ^ ceCqLog2 x.ent ≤ (x.cqWritten + BitVec.ofNat 32 x.admitted.length - v).toNat))

/-- Admission (R163 to R166, R203, R227, R244, R143, R287, R294): a descriptor that passes every check is admitted with its tensor-table
entries and RNG draw; one that fails a check awaits a record with that check's status, and nothing else changes; without room in the
completion ring, before its slot has been read, or behind an unfinished FENCE or mask operation, it waits. One that an ACQUIRE with
DUP_CLAIM still holds ends with DUP_CLAIM. -/
def Obligations.AdmissionAdmitsOrRejects : Prop :=
  ∀ (s : State) (c : CtxId) (ring : W32) (desc : List W64) (rest : List (W32 × List W64)),
    let x := getCtx s c.val
    let ok := ownsArray s c.val (stArray desc)
    let agreed := s.regs.agreed.toNat
    let l := lookAll s c.val desc
    let l0 : Look := { ents := [], params := [], variants := [], bytes := 0, stop := none }
    x.st = 1 → x.aborting = false → running s = true → (hostPortFor s c.val).isSome = true → x.fetched = (ring, desc) :: rest →
    (slotPending s c.val ring = true ∨ controlHeld x = true ∨ maskHeld s c.val desc = true → exec (.admission c) s = .next s) ∧
    (slotPending s c.val ring = false → controlHeld x = false → maskHeld s c.val desc = false → cqRoom x = false →
      ∃ t, exec (.admission c) s = .next t ∧ (getCtx t c.val).cqWait = true ∧ (getCtx t c.val).fetched = x.fetched ∧
        (getCtx t c.val).admitted = x.admitted ∧ (x.cqWait = false → (getCtx t c.val).cqRead = true)) ∧
    (slotPending s c.val ring = false → controlHeld x = false → maskHeld s c.val desc = false → cqRoom x = true → desc ≠ [] →
      checkAt x.ent agreed l0 ok desc 0x01 = none → checkAt x.ent agreed l0 ok desc 0x02 = none → l.stop = none →
      (∀ d ∈ x.admitted, d.ring ≠ ring) →
      (firstFailure x.ent agreed l ok desc = none →
        (∀ d ∈ x.admitted, ∀ res, d.result = some res → res.status ≠ .dupClaim) →
        ∃ t d, exec (.admission c) s = .next t ∧ t = { s with ctxs := t.ctxs, tlm := t.tlm, rgns := t.rgns } ∧
          (getCtx t c.val).fetched = rest ∧ (getCtx t c.val).admitted = x.admitted ++ [d] ∧ d.ring = ring ∧ d.desc = desc ∧
          d.result = none ∧ d.entries = l.ents ∧ d.ent = x.ent ∧ (getCtx t c.val).doneQ = x.doneQ ∧
          (∀ e, e ≠ c.val → getCtx t e = getCtx s e) ∧
          (∀ i o, drawSource l desc = some (i, o) → d.key = (slotAt x i).key ∧ d.stream = (slotAt x i).streamBase + BitVec.ofNat 32 o ∧
            slotAt (getCtx t c.val) i = { slotAt x i with epoch := (slotAt x i).epoch + (if dRngStep desc then 1 else 0) })) ∧
      (firstFailure x.ent agreed l ok desc = none →
        (∃ d ∈ x.admitted, dOpcode d.desc = 0x20 ∧ dAcquire d.desc = true ∧ ∃ res, d.result = some res ∧ res.status = .dupClaim) →
        ∃ t, exec (.admission c) s = .next t ∧ (getCtx t c.val).fetched = rest ∧
          ∃ d ∈ (getCtx t c.val).admitted, d.ring = ring ∧ d.desc = desc ∧ ∃ f, d.result = some (plainResult .dupClaim f)) ∧
      (∀ res, firstFailure x.ent agreed l ok desc = some res →
        ∃ t d, exec (.admission c) s = .next t ∧ t = { s with ctxs := t.ctxs, tlm := t.tlm } ∧
          (getCtx t c.val).fetched = rest ∧ (getCtx t c.val).admitted = x.admitted ++ [d] ∧ d.ring = ring ∧ d.desc = desc ∧
          d.result = some res ∧ (getCtx t c.val).doneQ = x.doneQ ++ [ring] ∧ (getCtx t c.val).rng = x.rng ∧
          (∀ e, e ≠ c.val → getCtx t e = getCtx s e)))

/-- A completion record (R226, R228, R246): record j goes to cq_base + 32·(j mod 2^cq_log2), its phase bit 1 on even laps; it echoes seq
and opcode and carries status, flags and result; the descriptor then has its record. Bytes of memory outside the record, the
status line and the interrupt's word stay. -/
def Obligations.CompletionRecordsAreWritten : Prop :=
  ∀ (s : State) (c : CtxId) (d : Adm) (res : Result),
    let x := getCtx s c.val
    let a := ceCqBase x.ent + 32 * (x.cqWritten.toNat % 2 ^ ceCqLog2 x.ent)
    let b := recordBytes d.desc res (decide (x.cqWritten.toNat / 2 ^ ceCqLog2 x.ent % 2 = 0)) s.time.t
    let other := fun k => (ceStatusBase x.ent = 0 ∨ k < ceStatusBase x.ent ∨ ceStatusBase x.ent + 64 ≤ k) ∧
      (k < ceMsiAddr x.ent ∨ ceMsiAddr x.ent + 4 ≤ k)
    x.st = 1 → x.aborting = false → recordsGo s = true → (hostPortFor s c.val).isSome = true → nextRecord s c.val = some (d, res) →
    a + 32 ≤ 2 ^ 57 →
    ∃ t, exec (.completionRecord c) s = .next t ∧ b.length = 32 ∧
      (∀ k, k < 32 → other (a + k) → rdByte t.mems .mem (a + k) = b.getD k 0) ∧
      (∀ k, (k < a ∨ a + 32 ≤ k) → other k → rdByte t.mems .mem k = rdByte s.mems .mem k) ∧
      (∀ r k, rdByte t.mems (.spad r) k = rdByte s.mems (.spad r) k) ∧
      (getCtx t c.val).cqWritten = x.cqWritten + 1 ∧ (∀ e ∈ (getCtx t c.val).admitted, e.ring ≠ d.ring) ∧
      (∀ e ∈ x.admitted, e.ring ≠ d.ring → e ∈ (getCtx t c.val).admitted) ∧
      (getAcct t c.val).descriptors = (getAcct s c.val).descriptors + 1 ∧ (∀ e, e ≠ c.val → getCtx t e = getCtx s e) ∧
      t.units = s.units ∧ t.regs = s.regs ∧ t.mnt = s.mnt

/-! ### Dispatch, binding, slots, Tempo -/

/-- DISPATCH of a descriptor that has begun (R148, R153, R250, R253, R254): its next sub-tile in fold order enters the region R254
chooses, among those with room on their scoreboards, or the one where the heads of its run wait, and the descriptor has one more
emitted. One disagreement of the engine controller's copies repeats the decision and is logged; the second stops dispatch (R31). -/
def Obligations.DispatchEmitsInFoldOrder : Prop :=
  ∀ (s : State) (c : CtxId) (d : Adm) (r : Nat) (s1 : State),
    let x := getCtx s c.val
    let rs := regionsOf s (ceAffinity x.ent)
    let j := jobOf d r
    let near := (pairRegions s c.val (jobOf d 0) (laneRegions s (drawsBits (sizedDesc d)) rs)).filter (fun q => decide (boardOf s q < 1024))
    x.admitted.find? (fun e => !emittedAll e) = some d → opCompute (dOpcode d.desc) = true → dispatchable s c.val d = true →
    specPends s c.val d = false →
    (d.total.isSome = true → rs ≠ [] → operandAbsent s d = false → laneRegions s (drawsBits (sizedDesc d)) rs ≠ [] →
      (near.find? (fun q => (getRgn s q).queue.any (samePack (subAt s c.val d (jobOf d 0) d.emitted false 0)))).orElse
        (fun _ => chooseRegion s c.val (wIndex (jobOf d 0)) (wEnt (jobOf d 0)).gen near) = some r →
      residencyStep s c.val d.ring r true j = some s1 → sideRouted s r j = false → (x.admitted.map (·.ring)).Nodup →
      ∃ t u, exec (.dispatch c 0) s = .next t ∧ (getRgn t r).queue = (getRgn s1 r).queue ++ [u] ∧ u.ctx = c.val ∧ u.ring = d.ring ∧
        (u.h * chunksOf j + u.c) * groupsPerChunk j + u.g = d.emitted ∧ u.rows = min (chunkRows j) (dMt j.d - u.c * chunkRows j) ∧
        u.passesDone = 0 ∧ u.rowMark = 0 ∧ u.slot = none ∧ t.mems = s.mems ∧ t.units = s.units ∧
        (∃ e ∈ (getCtx t c.val).admitted, e.ring = d.ring ∧ e.emitted = d.emitted + 1 ∧ e.result = none) ∧
        (∀ e, e ≠ c.val → getCtx t e = getCtx s e)) ∧
    (∃ t, exec (.dispatch c 2) s = .next t ∧ t.boot.stopped = true ∧ t.mnt.mainDown = true ∧
      LogAt t s.flog.next.toNat 2 0x0F 0 ∧ LogAt t (s.flog.next + 1).toNat 5 0x10 0 ∧ t.ctxs = s.ctxs ∧ t.rgns = s.rgns)

/-- BIND_SUBTILE (R255 to R258, R262, R302): the sub-tile the scheduler picks leaves the region's queue for the array it chooses, which is
LIVE and in the affinity mask, and its journal entry holds its record (R301); the other head of its run binds with it (R153). -/
def Obligations.BindingTakesJournalEntry : Prop :=
  ∀ (s : State) (r : RgnId) (u : SubTile) (s1 : State) (a : Nat) (d : Adm) (j : Job) (k : Nat),
    running s = true → isLive s .region r.val = true → pickNext s r.val = (some u, s1) → bindArray s r.val u = some a →
    subJob s u r.val = some (d, j) → freeJournal (getRgn s r.val) = some k →
    isLive s .array a = true ∧ inMask (ceAffinity (getCtx s u.ctx).ent) a = true ∧ a / 4 = r.val ∧
    ∃ t v, exec (.bindSubtile r none) s = .next t ∧ v ∈ (getArr t a).bound ∧ v.ctx = u.ctx ∧ v.ring = u.ring ∧ v.h = u.h ∧ v.c = u.c ∧
      v.g = u.g ∧ v.array = some a ∧ v.jent = some k ∧ (∀ w ∈ (getArr s a).bound, w ∈ (getArr t a).bound) ∧
      (runMates s r.val u = [] → (getRgn t r.val).queue = (getRgn s r.val).queue.erase u) ∧
      (∀ m n, runMates s r.val u = [m] → n ≠ k → n < 1024 → thas (getRgn s r.val).journal n = false →
        (getRgn t r.val).queue = ((getRgn s r.val).queue.erase u).erase m ∧
        ∃ w ∈ (getArr t a).bound, w.ctx = m.ctx ∧ w.ring = m.ring ∧ w.h = m.h ∧ w.array = some a) ∧
      thas (getRgn s r.val).journal k = false ∧
      (∀ e, tget e (getRgn t r.val).journal k = { a := subJournal v d, b := subJournal v d, lostA := false, lostB := false }) ∧
      t.mems = s.mems ∧ t.units = s.units ∧
      (∀ n, n ≠ r.val → getRgn t n = { getRgn s n with bankReqs := (getRgn t n).bankReqs })

/-- Accumulation slots (R115, R116): the oldest sub-tile that needs one takes its context's lowest free slot in the region, a slot no
other sub-tile holds; the DWRR and starvation marks are untouched. Starvation relief (R257): the class of the oldest waiting
sub-tile below class 7 that has waited starve_us gets the next binding, and its wait starts again. A copy of region control that disagrees on an
update is outvoted by two others and logged, retired at its third disagreement within 1 ms; of two copies a disagreement fences the
region (R28). -/
def Obligations.SlotsAndRelief : Prop :=
  ∀ (s : State) (r : RgnId) (u : SubTile) (rest : List SubTile) (n : Nat), running s = true →
    (isLive s .region r.val = true → slotQueue s r.val = u :: rest → freeSlotOf s r.val u.ctx = some n →
      n < ceAccSlots (getCtx s u.ctx).ent ∧ (u.ctx, n) ∉ (getRgn s r.val).slots ∧
      ∃ t, exec (.slotAssign r none) s = .next t ∧ (getRgn t r.val).slots = (getRgn s r.val).slots ++ [(u.ctx, n)] ∧
        t.ctxs = s.ctxs ∧ t.mems = s.mems ∧ (getRgn t r.val).queue = (getRgn s r.val).queue ∧
        ((∃ a, u.array = some a ∧ u ∈ (getArr s a).bound) ∨ (u.array = none ∧ u ∈ (getRgn s r.val).sideQ) →
          ∃ v ∈ allSubs t, v = { u with slot := some { backed := false, num := n, region := r.val } })) ∧
    (isLive s .region r.val = true → slotQueue s r.val = [] → exec (.slotAssign r none) s = .next s) ∧
    (s.regs.starveUs ≠ 0 → oldestLow s r.val = some u →
      (waitFrom (getRgn s r.val) u + 1000 * s.regs.starveUs.toNat ≤ s.time.t →
        exec (.starvationRelief r none) s = .next (setRgn s r.val { getRgn s r.val with
          relief := (getRgn s r.val).relief ++ [u.prio], starveFrom := tset (getRgn s r.val).starveFrom u.prio s.time.t })) ∧
      (s.time.t < waitFrom (getRgn s r.val) u + 1000 * s.regs.starveUs.toNat → exec (.starvationRelief r none) s = .next s)) ∧
    (s.regs.starveUs = 0 → exec (.starvationRelief r none) s = .next (setRgn s r.val { getRgn s r.val with relief := [] })) ∧
    (∀ i : Fin 3, regionServes s r.val = true → (getRgn s r.val).queued = [] →
      let times := addEvent (tget [] (getRgn s r.val).ctlTimes i.val) s.time.t
      ((getRgn s r.val).ctlCopies = 3 → reached 3 times = false → exec (.maintQueuedStart r (some i)) s =
        .next (logFault (setRgn s r.val { getRgn s r.val with ctlTimes := tset (getRgn s r.val).ctlTimes i.val times })
          (flogBase s 1 8 0x0D i.val r.val))) ∧
      ((getRgn s r.val).ctlCopies = 3 → reached 3 times = true → ∃ t k, exec (.maintQueuedStart r (some i)) s = .next t ∧
        (getRgn t r.val).ctlCopies = 2 ∧ unitSt t .region r.val = unitSt s .region r.val ∧ LogAt t k 3 0x0E 0) ∧
      ((getRgn s r.val).ctlCopies ≠ 3 → ∃ t, exec (.maintQueuedStart r (some i)) s = .next t ∧ unitSt t .region r.val = .fenced ∧
        LogAt t s.flog.next.toNat 4 0x20 0))

/-- Tempo's periods (R261): the next period starts at max(E, C), its length is cut by min(F, D) with F = P / 2^catchup_shift, and the
cumulative lateness D, which starts at 0, follows; a step that has not completed is never cut short; a tempo_ns from 1 to 999 fails activation. A
late step is charged to the context's account (R263). -/
def Obligations.TempoPeriodsAdvance : Prop :=
  ∀ (s : State) (c : CtxId),
    let x := getCtx s c.val
    let p := ceTempoNs x.ent
    let late := x.tempo.lastDone - x.tempo.fin
    let d := x.tempo.late + late
    let cut := min (p / 2 ^ ceCatchup x.ent) d
    (x.st = 1 → p ≠ 0 → x.tempo.fin ≤ s.time.t → x.tempo.openRings = [] →
      ∃ t, exec (.tempoPeriodEnd c) s = .next t ∧ t = { s with ctxs := t.ctxs, tlm := t.tlm } ∧
        (∀ e, e ≠ c.val → getCtx t e = getCtx s e) ∧ (getCtx t c.val).tempo.k = x.tempo.k + 1 ∧
        (getCtx t c.val).tempo.start = max x.tempo.fin x.tempo.lastDone ∧
        (getCtx t c.val).tempo.fin = max x.tempo.fin x.tempo.lastDone + p - cut ∧ (getCtx t c.val).tempo.late = d - cut ∧
        (getCtx t c.val).tempo.openRings = x.tempo.nextRings ∧ (getCtx t c.val).admitted = x.admitted ∧
        (getAcct t c.val).lateNs = (getAcct s c.val).lateNs + BitVec.ofNat 64 late) ∧
    ((s.time.t < x.tempo.fin ∨ x.tempo.openRings ≠ []) → exec (.tempoPeriodEnd c) s = .next s) ∧
    (∀ e : List W64, (1 ≤ ceTempoNs e → ceTempoNs e < 1000 → ceValid e = false) ∧ (tempoStart e s.time.t).late = 0)

/-! ### Rows of an array -/

/-- A shadow load writes only the shadow bank, one row in fold order, over a bus of its own: no array cycle passes, and the active bank
stays (R14, R44); a parity error on a row is logged and the row is broadcast again (R17). A Castle at a pass boundary with its load
complete exchanges the banks behind the cycle of the last row, in one array cycle (R15, R45); before the load is complete it is held, it
takes place when the last row has been written, and ARRa_CASTLE_WAIT counts the array cycles it was held. Behind it the pass asks for its first
activation rows (R23). `s1` is `s` with the loads that begin. -/
def Obligations.ShadowLoadsAndCastles : Prop :=
  (∀ (s s1 : State) (a : ArrId) (l : Load) (j : Job) (u : SubTile) (n : Nat) (w : Work),
      let x := getArr s1 a.val
      arrayRuns s a.val = true → currentLoad s a.val = (s1, some (l, j, u, n, some w)) → needsTsp j = false →
      rowHere s1 (a.val / 4) (loadOwner a.val l u) j u n l.nextRow = true →
      ((∀ b, (getLane x b).castleReq = none) →
        ∃ t, exec (.shadowLoadRow a false .clean) s = .next t ∧
          (∃ m ∈ (getArr t a.val).loads, m = { l with nextRow := l.nextRow + 1, parity := 0, cycle := max l.cycle x.bus + 1 }) ∧
          (getArr t a.val).bus = max l.cycle x.bus + 1 ∧ (getArr t a.val).cycle = x.cycle ∧
          (getArr t a.val).active = x.active ∧ (getArr t a.val).shadow.key = some l.key ∧
          (getArr t a.val).shadow.rows = (shadowPut s1.mems j u n l.nextRow x.shadow).rows ∧
          (getArr t a.val).bound = x.bound ∧ t.mems = s1.mems ∧ t.ctxs = s1.ctxs ∧ t.rgns = s1.rgns ∧
          (∀ b, b ≠ a.val → getArr t b = getArr s1 b)) ∧
      (l.parity = 0 → x.parityTimes = [] → mergeAt s1 (flogBase s1 1 1 0x06 a.val (a.val / 4)) = none →
        ∃ t, exec (.shadowLoadRow a true .clean) s = .next t ∧
          (∃ m ∈ (getArr t a.val).loads, m = { l with parity := 1, cycle := max l.cycle x.bus + 1 }) ∧
          (getArr t a.val).cycle = x.cycle ∧ (getArr t a.val).active = x.active ∧ (getArr t a.val).shadow = x.shadow ∧
          LogAt t s1.flog.next.toNat 1 0x06 0)) ∧
  (∀ (s : State) (a : ArrId) (w : Work) (ro : Roles),
      let x := getArr s a.val
      let l0 := laneOf x w
      arrayRuns s a.val = true → works s a.val = [(w, ro)] → w.role = .whole → w.e.band = 0 → w.e.bandRows = 256 →
      w.t.array = some a.val → passOn l0 = false → slotReady w.t w.d = true → x.delay = [] → specOf x w.t = none →
      (getCtx s w.t.ctx).aborting = false → stagedHere s (a.val / 4) w = true →
      (∀ l, loadFor x w = some l → l.key = keyOf w.j w.e w.e.passesDone → l.total ≤ l.nextRow →
        ∃ t, exec (.passCastle a .clean) s = .next t ∧ (getArr t a.val).active = x.shadow ∧ (getArr t a.val).shadow = x.active ∧
          loadFor (getArr t a.val) w = none ∧ (getArr t a.val).cycle = max x.cycle l.cycle + 1 ∧
          (getLane (getArr t a.val) 0).castleReq = none ∧
          (getLane (getArr t a.val) 0).sent = List.replicate 256 (w.e.rowMark * rowCycles (jobMode w.j)) ∧
          tget 0 (getArr t a.val).cnt 0 = tget 0 x.cnt 0 + BitVec.ofNat 64 (max x.cycle l.cycle - l0.castleReq.getD x.cycle) ∧
          (∀ k, k ≠ 0 → tget 0 (getArr t a.val).cnt k = tget 0 x.cnt k) ∧
          t.mems = s.mems ∧ t.ctxs = s.ctxs ∧ (∀ r, getRgn t r = { getRgn s r with bankReqs := (getRgn t r).bankReqs }) ∧ (∀ b, b ≠ a.val → getArr t b = getArr s b)) ∧
      (loadDone x w = false → needsTsp w.j = false →
        ∃ t, exec (.passCastle a .clean) s = .next t ∧ (getArr t a.val).active = x.active ∧ (getArr t a.val).shadow = x.shadow ∧
          (getLane (getArr t a.val) 0).castleReq = some (l0.castleReq.getD x.cycle) ∧ (getArr t a.val).cnt = x.cnt ∧
          ((∀ e ∈ x.lanes, passOn e.2 = false) → (getArr t a.val).cycle = x.cycle + 1) ∧ t.mems = s.mems ∧ t.ctxs = s.ctxs)) ∧
  (∀ (s s1 : State) (a : ArrId) (l : Load) (j : Job) (u : SubTile) (n m : Nat) (w : Work) (ro : Roles),
      let x := getArr s1 a.val
      arrayRuns s a.val = true → currentLoad s a.val = (s1, some (l, j, u, n, some w)) → needsTsp j = false →
      rowHere s1 (a.val / 4) (loadOwner a.val l u) j u n l.nextRow = true → l.total = l.nextRow + 1 →
      works s1 a.val = [(w, ro)] → w.role = .whole → w.e.band = 0 → w.e.bandRows = 256 → w.t.array = some a.val →
      passOn (laneOf x w) = false → (laneOf x w).castleReq = some m → (laneOf x w).castleRs = .clean → slotReady w.t w.d = true →
      x.delay = [] → specOf x w.t = none → (getCtx s1 w.t.ctx).aborting = false → stagedHere s1 (a.val / 4) w = true →
      ∃ t, exec (.shadowLoadRow a false .clean) s = .next t ∧ (getArr t a.val).active.key = some l.key ∧
        (getArr t a.val).shadow = x.active ∧ (getLane (getArr t a.val) 0).castleReq = none ∧
        (getArr t a.val).cycle = max x.cycle (max l.cycle x.bus + 1) + 1 ∧
        tget 0 (getArr t a.val).cnt 0 = tget 0 x.cnt 0 + BitVec.ofNat 64 (max x.cycle (max l.cycle x.bus + 1) - m) ∧
        (getLane (getArr t a.val) 0).sent = List.replicate 256 (w.e.rowMark * rowCycles (jobMode w.j)))

/-- The elastic links in one ROW_BROADCAST, one array cycle (R42, R47 to R49): a physical row sends at most one activation row, none while
its data is not present, its reads have not all been granted and arrived (R23, R288), or a queue of it would pass 4 entries; a column tree takes a row that every physical row has sent, unless its
drain buffer holds 8 rows and is blocked; the rows that every column tree has taken give unchecked result rows of this cycle. Neither
bank, nor memory, nor another array changes. -/
def Obligations.BroadcastKeepsElasticBounds : Prop :=
  ∀ (s : State) (a : ArrId) (dry blocked : List Nat) (up : List (Nat × W32)) (w : Work) (ro : Roles),
    let x := getArr s a.val
    let l := laneOf x w
    let beats := rowCycles (jobMode w.j)
    let low := l.taken.foldl min w.e.rows
    arrayRuns s a.val = true → works s a.val = [(w, ro)] → passOn l = true → l.castled ≤ x.cycle → delayDue x (x.cycle + 1) = false →
    zReady s.mems w = true →
    ∃ t, exec (.rowBroadcast a dry blocked up) s = .next t ∧ (getArr t a.val).active = x.active ∧ (getArr t a.val).shadow = x.shadow ∧
      (getArr t a.val).cycle = x.cycle + 1 ∧ tget 0 (getArr t a.val).cnt 7 = tget 0 x.cnt 7 + 1 ∧
      (laneOf (getArr t a.val) w).sent.length = l.sent.length ∧
      (∀ k n m : Nat, l.sent[k]? = some n → (laneOf (getArr t a.val) w).sent[k]? = some m →
        (m = n ∨ m = n + 1) ∧ (64 * w.e.band + k ∈ dry → k < w.e.bandRows → m = n) ∧
        (m = n + 1 → n / beats < w.e.rows ∧ n / beats < low + 4 ∧ actHere s a.val w (n / beats) = true)) ∧
      (∀ k n m : Nat, l.taken[k]? = some n → (laneOf (getArr t a.val) w).taken[k]? = some m →
        (m = n ∨ m = n + 1) ∧ (m = n + 1 → n < w.e.rows ∧ ∀ y ∈ (laneOf (getArr t a.val) w).sent, n < y / beats) ∧
        (k ∈ blocked → l.drain[k]? = some 8 → m = n)) ∧
      (∀ k n m : Nat, l.drain[k]? = some n → (laneOf (getArr t a.val) w).drain[k]? = some m → (n ≤ 8 → m ≤ 8) ∧ (k ∈ blocked → n ≤ m)) ∧
      (∃ news, (laneOf (getArr t a.val) w).results = l.results ++ news ∧
        ∀ q ∈ news, q.accepted = false ∧ q.cycle = x.cycle ∧ low ≤ q.row ∧ q.row < w.e.rows) ∧
      t.mems = s.mems ∧ t.ctxs = s.ctxs ∧ t.units = s.units ∧ ∀ b, b ≠ a.val → getArr t b = getArr s b

/-- The check of a row (R42, R56 to R58, R210): a row whose sums agree, or cannot be compared, is accepted in the fourth cycle after its
broadcast, and asks for the random bits that its output draws; a mismatch is counted in ARRa and TLM counters, logged with source 0x07,
and the pass runs again from that row with the same bank. -/
def Obligations.RowChecksAcceptOrReplay : Prop :=
  ∀ (s : State) (a : ArrId) (w : Work) (ro : Roles) (q : RowRes),
    let x := getArr s a.val
    let l := laneOf x w
    let due := max x.cycle (q.cycle + 4)
    arrayRuns s a.val = true → works s a.val = [(w, ro)] → l.results.find? (fun y => !y.accepted) = some q → delayDue x due = false →
    (checkVerdict q ≠ some false →
      ∃ t, exec (.rowCheck a) s = .next t ∧ (getArr t a.val).cycle = due ∧ (getArr t a.val).active = x.active ∧
        (laneOf (getArr t a.val) w).results = l.results.map (fun y => if y.row == q.row then { y with accepted := true } else y) ∧
        (checkVerdict q = none → tget 0 (getArr t a.val).cnt 5 = tget 0 x.cnt 5 + 1) ∧
        (checkVerdict q ≠ none → (getArr t a.val).cnt = x.cnt) ∧
        (0 < rowDraws (a.val / 4) w → q.sums ≠ [] → hashPending t a.val (rowTag w q.row) = true) ∧
        t = { s with arrs := t.arrs, rgns := t.rgns } ∧ (∀ b, b ≠ a.val → getArr t b = getArr s b)) ∧
    (checkVerdict q = some false → w.role = .whole → w.t ∈ x.bound → w.t.array = some a.val → w.t.misses ≠ 1 → x.missTimes = [] →
      ∃ t, exec (.rowCheck a) s = .next t ∧ (getArr t a.val).active = x.active ∧
        (laneOf (getArr t a.val) w).results = l.results.filter (fun y => decide (y.row < q.row)) ∧
        (laneOf (getArr t a.val) w).sent = List.replicate w.e.bandRows (q.row * rowCycles (jobMode w.j)) ∧
        (∃ v ∈ (getArr t a.val).bound, v = { w.t with misses := w.t.misses + 1, flags := w.t.flags ||| flReplayed }) ∧
        tget 0 (getArr t a.val).cnt 4 = tget 0 x.cnt 4 + 1 ∧
        tget 0 t.tlm.cnt 13 = tget 0 s.tlm.cnt 13 + BitVec.ofNat 64 (l.results.filter (fun y => decide (q.row ≤ y.row))).length ∧
        LogAt t s.flog.next.toNat 2 0x07 0)

/-- A row's commit (R42, R43, R115, R302): in the fifth cycle after its broadcast the oldest accepted row is written back and the row
mark moves, in the journal with the grant of the write-back; the pass ends with its last row; with the last row of the last pass the
sub-tile leaves its array. An uncorrectable error in the drain buffers discards the rows behind the mark, and the pass runs again from
the mark with the same bank (R298); in band mode it fences the array (R54). -/
def Obligations.RowCommitsMoveTheMark : Prop :=
  ∀ (s : State) (a : ArrId) (w : Work) (ro : Roles) (rest : List SubTile) (q : RowRes) (rs : RsResult),
    let x := getArr s a.val
    let l := laneOf x w
    let out := rowOut s w.j w.t q
    arrayRuns s a.val = true → works s a.val = [(w, ro)] → w.role = .whole → x.bound = w.t :: rest → w.t.array = some a.val →
    (∀ v ∈ rest, ¬(v.ctx = w.t.ctx ∧ v.ring = w.t.ring ∧ v.h = w.t.h ∧ v.c = w.t.c ∧ v.g = w.t.g)) → commitReady s a.val w l = some q →
    (rs ≠ .uncorrectable → Within out.writes → SideWithin w.j w.t q.row → (getCtx s w.t.ctx).aborting = false →
      (q.row + 1 < w.t.rows → ∃ t v, exec (.rowCommit a none rs) s = .next t ∧ (getArr t a.val).bound = v :: rest ∧
        v.rowMark = q.row + 1 ∧ v.passesDone = w.t.passesDone ∧ v.ctx = w.t.ctx ∧ v.ring = w.t.ring ∧
        (laneOf (getArr t a.val) w).results = l.results.drop 1 ∧
        (getArr t a.val).cycle = max x.cycle (q.cycle + 5) ∧ (getArr t a.val).active = x.active ∧
        (w.t.passesDone + 1 ≠ w.t.passes → (∃ y ∈ out.writes, y.sp ≠ .mem ∧ y.bytes ≠ []) →
          ∀ r, (getRgn t r).journal = (getRgn s r).journal)) ∧
      (w.t.rows ≤ q.row + 1 → w.t.passesDone + 1 ≠ w.t.passes → ∃ t v, exec (.rowCommit a none rs) s = .next t ∧
        (getArr t a.val).bound = v :: rest ∧ v.rowMark = 0 ∧ v.passesDone = w.t.passesDone + 1 ∧
        (laneOf (getArr t a.val) w).results = [] ∧ (getAcct t w.t.ctx).passes = (getAcct s w.t.ctx).passes + 1) ∧
      (w.t.rows ≤ q.row + 1 → w.t.passesDone + 1 = w.t.passes → ∃ t, exec (.rowCommit a none rs) s = .next t ∧
        (getArr t a.val).bound = rest ∧ (laneOf (getArr t a.val) w).results = [])) ∧
    (rs = .uncorrectable → w.t.bandRows = 256 → ∃ t, exec (.rowCommit a none rs) s = .next t ∧
      (getArr t a.val).bound = { w.t with misses := w.t.misses + 0, flags := w.t.flags ||| flReplayed } :: rest ∧
      (laneOf (getArr t a.val) w).results = l.results.filter (fun y => decide (y.row < w.t.rowMark)) ∧
      (laneOf (getArr t a.val) w).sent = List.replicate 256 (w.t.rowMark * rowCycles (jobMode w.j)) ∧
      (getArr t a.val).active = x.active ∧ t.mems = s.mems ∧ t.ctxs = s.ctxs ∧ LogAt t s.flog.next.toNat 2 0x11 0) ∧
    (rs = .uncorrectable → w.t.bandRows ≠ 256 → ∃ t, exec (.rowCommit a none rs) s = .next t ∧ unitSt t .array a.val = .fenced ∧
      (getArr t a.val).bound = [] ∧ ∀ sp k, (sp ≠ .mem ∨ k < s.regs.irqAddr.toNat ∨ s.regs.irqAddr.toNat + 4 ≤ k) →
        rdByte t.mems sp k = rdByte s.mems sp k)

/-- FUSED2 by rows (R175 to R177): a row of the lead's last pass on a W1 group goes into the link buffer and nowhere else; while both of its
halves are taken the lead's Castle waits and ARRa_LINK_WAIT counts; a row of the follower before the last W1 group writes nothing until
the pass's last row of the last W2 group, whose commit counts the pass and frees the half that fed it. -/
def Obligations.FusedRowsUseLinkBuffers : Prop :=
  ∀ (s : State) (a : ArrId) (w : Work) (ro : Roles),
    let x := getArr s a.val
    let r := a.val / 4
    arrayRuns s a.val = true → works s a.val = [(w, ro)] → (getCtx s w.t.ctx).aborting = false →
    (∀ (q : RowRes) (rs : RsResult), rs ≠ .uncorrectable → commitReady s a.val w (laneOf x w) = some q → w.role = .lead → intoLink w = true →
      ∃ t y, exec (.rowCommit a none rs) s = .next t ∧ linkRow t r w.t w.t.fuse.leadG q.row = some y ∧ y.row = q.row ∧
        t.mems = s.mems ∧ t.mp = s.mp ∧ (∀ r, (getRgn t r).bankReqs = (getRgn s r).bankReqs)) ∧
    (∀ rs, passOn (laneOf x w) = false → intoLink w = true → linkRoom s r w.t = false → slotReady w.t w.d = true → x.delay = [] →
      stagedHere s r w = true →
      ∃ t, exec (.passCastle a rs) s = .next t ∧ (getArr t a.val).active = x.active ∧ (getArr t a.val).bound = x.bound ∧
        tget 0 (getArr t a.val).cnt 6 = tget 0 x.cnt 6 + 1 ∧ t.ctxs = s.ctxs ∧ t.mems = s.mems) ∧
    (∀ (q : RowRes) (rs : RsResult), rs ≠ .uncorrectable → commitReady s a.val w (laneOf x w) = some q → w.role = .follow →
      w.t.passesDone + 1 ≠ w.t.passes →
      (q.row + 1 < w.t.rows ∨ w.e.g + 1 < tileGroups (w.tile r) → ∃ t, exec (.rowCommit a none rs) s = .next t ∧
        t.mems = s.mems ∧ t.mp = s.mp ∧ (∀ r, (getRgn t r).bankReqs = (getRgn s r).bankReqs) ∧ t.tlm = s.tlm) ∧
      (w.t.rows ≤ q.row + 1 → tileGroups (w.tile r) ≤ w.e.g + 1 →
        (∀ (row : Nat) (fl : TFlags) (l : List PElem) (f : SoftRow), row < w.t.rows → l.length = q.sums.length →
          Within (fusedWrites s (w.tile r) { w.t with fuse := { w.t.fuse with
            flags := fl, pend := tset w.t.fuse.pend (w.e.g * w.t.rows + q.row) l } } false row f)) →
        ∃ t, exec (.rowCommit a none rs) s = .next t ∧
          linkHalf t r w.t w.t.passesDone = none ∧ (getAcct t w.t.ctx).passes = (getAcct s w.t.ctx).passes + 1))

/-- Skewed delivery (R46): the oldest row of the delay line is delivered 512 array cycles after its broadcast: its bytes of memory are
written in order, its lines of scratchpad ask for their banks in the drain class (R23), and it leaves the line. -/
def Obligations.SkewedRowsAreDelivered : Prop :=
  ∀ (s : State) (a : ArrId) (q : DelayRow) (rest : List DelayRow) (rs : RsResult), s.boot.off = false → (s.boot.pstate = 0 ∨ s.boot.pstate = 1) →
    (getArr s a.val).delay = q :: rest → (∀ d, findAdm (getCtx s q.ctx) q.ring = some d → dAccOut (jobOf d (a.val / 4)).d = 0) →
    Within q.writes →
    ∃ t, exec (.skewedDelivery a rs) s = .next t ∧ (getArr t a.val).delay = rest ∧
      (getArr t a.val).cycle = max (getArr s a.val).cycle (q.cycle + 512) ∧ (getArr t a.val).active = (getArr s a.val).active ∧
      t.mems = applyWrites s.mems (q.writes.filter (fun y => y.sp == .mem)) ∧
      (∀ p ∈ spadPieces q.writes, ∃ b ∈ (getRgn t p.1).bankReqs, b.cls = 0 ∧ b.addr = p.2.1 ∧ b.act = .write p.2.2) ∧
      (rs ≠ .uncorrectable → ∀ b, b ≠ a.val → getArr t b = getArr s b)

/-! ### Arbiters, Side Path, staging -/

/-- The arbiters of banks, memory ports and RNG units (R23, R24, R27, R209, R210): a cycle grants the request that R23's order, with R24's
aging, puts first, and a granted write takes effect then, with the row mark that it carries (R43); an atomic takes two consecutive grants
of its bank (R284), and a running scrub reads its next line where nothing else asks (R377). A port grant spends M1's credits and takes a
free tag of the kind's range (R331, R332); an RS error on its write data is counted (R399). A corrected error is counted, logged and
written back in the maintenance class (R299); a lane's second mismatch within 1 ms retires it (R214). -/
def Obligations.GrantsFollowClassAndAge : Prop :=
  (∀ (s : State) (r : RgnId) (b : Fin 512), regionRuns s r.val = true →
      let x := getRgn s r.val
      let now := max x.scycle (tget 0 x.bankNext b.val)
      let y := { x with scycle := now, bankNext := tset x.bankNext b.val (now + 1) }
      let all := x.bankReqs.filter (fun q => bankOf q.addr == b.val) ++ (scrubReq x b.val).toList
      (all = [] → exec (.bankGrant r b .clean none) s = .next (setRgn s r.val y)) ∧
      (∀ q, scrubReq x b.val = some q → all = [q] → q ∉ x.bankReqs → exec (.bankGrant r b .clean none) s =
        .next (setRgn s r.val { y with scrub := tset x.scrub b.val ((tget (0, 0) x.scrub b.val).1 + 1, now + 1) })) ∧
      (scrubReq x b.val = none → all ≠ [] → ∃ t g, exec (.bankGrant r b .clean none) s = .next t ∧ g ∈ all ∧
        ((∀ q ∈ all, ∀ op u v, q.act ≠ .atomic op u v true) → ∀ q ∈ all, GrantOrder now (g.cls, g.arrived) (q.cls, q.arrived)) ∧
        (∀ q ∈ all, ∀ op u v, q.act = .atomic op u v true → ∃ op u v, g.act = .atomic op u v true) ∧
        (g.act = .read → t = setRgn s r.val { y with bankReqs := x.bankReqs.erase g }) ∧
        (∀ bs, g.act = .write bs → (∀ k v, bs[k]? = some v → rdByte t.mems (.spad r.val) (g.addr + k) = v) ∧
          (∀ sp i, (sp ≠ .spad r.val ∨ i < g.addr ∨ g.addr + bs.length ≤ i) → rdByte t.mems sp i = rdByte s.mems sp i) ∧
          (∀ m k ws, g.mark = some (m, k, ws) → bits (ws.getD 0 0).toNat 3 1 = 0 → thas (getRgn s m).journal k = true →
            markFits (recordAt s m k) ws = true → recordAt t m k = ws)) ∧
        (∀ op u v, g.act = .atomic op u v false → t.mems = s.mems ∧
          (getRgn t r.val).bankReqs.head? = some { g with act := .atomic op u v true }))) ∧
  (∀ (s : State) (r : RgnId) (b : Fin 512) (g : BankReq), regionRuns s r.val = true → (getRgn s r.val).bankReqs = [g] →
      bankOf g.addr = b.val → g.act = .read → ofGambit g.owner = false → scrubReq (getRgn s r.val) b.val = none →
      (∀ e ∈ s.flog.entries, e.2.cls ≠ 1) →
      ∃ t u, exec (.bankGrant r b .corrected none) s = .next t ∧ (getRgn t r.val).bankReqs = [u] ∧ u.cls = 4 ∧ u.act = .write [] ∧
        u.addr = g.addr / 64 * 64 ∧ tget 0 (getRgn t r.val).cnt 0 = tget 0 (getRgn s r.val).cnt 0 + 1 ∧
        LogAt t s.flog.next.toNat 1 0x01 b.val ∧ t.mems = s.mems ∧ t.units = s.units) ∧
  (∀ (s : State) (q : PortId) (write : Bool), unitSt s .port q.val = .live ∨ unitSt s .port q.val = .draining →
      (getMp s q.val).up = true → s.boot.off = false → s.boot.gated = false →
      let x := getMp s q.val
      let l := if write then x.wrQ else x.rdQ
      (∃ t, exec (.portGrant q write .clean) s = .next t ∧ t = { s with mp := t.mp, rgns := t.rgns } ∧ (∀ n, n ≠ q.val → getMp t n = getMp s n) ∧
        (getMp t q.val).cycle = x.cycle + 1 ∧
        (x.credReq = 0 ∨ l = [] → getMp t q.val = { x with cycle := x.cycle + 1 }) ∧
        (1 ≤ x.credReq → l ≠ [] → (∀ g ∈ l, wdOf g ≤ x.credWd) → x.rdOut.length + x.held.length < 2048 → x.wrOut.length < 1024 →
          ∃ g ∈ l, ∃ tag : Nat, (∀ p ∈ l, GrantOrder x.cycle (g.cls, g.arrived) (p.cls, p.arrived)) ∧
            (getMp t q.val).credReq = x.credReq - 1 ∧ (getMp t q.val).credWd = x.credWd - wdOf g ∧
            (getMp t q.val).rdQ = (if write then x.rdQ else x.rdQ.erase g) ∧ (getMp t q.val).wrQ = (if write then x.wrQ.erase g else x.wrQ) ∧
            (g.op = 1 → 2048 ≤ tag ∧ tag < 3072 ∧ thas x.wrOut tag = false ∧ (getMp t q.val).rdOut = x.rdOut ∧
              (getMp t q.val).wrOut = tset x.wrOut tag g) ∧
            (g.op ≠ 1 → tag < 2048 ∧ thas x.rdOut tag = false ∧ (getMp t q.val).wrOut = x.wrOut ∧ (getMp t q.val).rdOut = tset x.rdOut tag g))) ∧
      (∀ g, l = [g] → wdOf g ≠ 0 → wdOf g ≤ x.credWd → 1 ≤ x.credReq → (tagFor x g).isSome = true →
        (x.ce ≠ 0xFFFFFFFF → ∃ t u, exec (.portGrant q write .clean) s = .next t ∧ exec (.portGrant q write .corrected) s = .next u ∧
          (getMp u q.val).ce = x.ce + 1 ∧ getMp u q.val = { getMp t q.val with ce := x.ce + 1 }) ∧
        (x.ue ≠ 0xFFFF → x.ueTimes = [] → ∃ t, exec (.portGrant q write .uncorrectable) s = .next t ∧ (getMp t q.val).ue = x.ue + 1 ∧
          (getMp t q.val).rdQ = x.rdQ ∧ (getMp t q.val).wrQ = x.wrQ ∧ (getMp t q.val).credReq = x.credReq ∧
          LogAt t s.flog.next.toNat 2 0x0B 0))) ∧
  (∀ (s : State) (r : RgnId), regionRuns s r.val = true →
      let x := getRgn s r.val
      ∃ t, exec (.rngGrant r []) s = .next t ∧ t = { s with rgns := t.rgns } ∧ (getRgn t r.val).rcycle = x.rcycle + 1 ∧
        (getRgn t r.val).rngReqs.Sublist x.rngReqs ∧
        (getRgn t r.val).rngReqs.length = x.rngReqs.length - (if x.lanes = 0 then 0 else max 1 (batches x)) ∧
        tget 0 (getRgn t r.val).cnt 19 = tget 0 x.cnt 19 + BitVec.ofNat 64 (requesters (getRgn t r.val).rngReqs) ∧
        ∀ n, n ≠ r.val → getRgn t n = getRgn s n) ∧
  (∀ (s : State) (r : RgnId) (n at_ : Nat), regionRuns s r.val = true → n < 32 → (getRgn s r.val).lanes.getLsbD n = true →
      tget [] (getRgn s r.val).laneTimes n = [at_] →
      ∃ t, exec (.rngGrant r [n]) s = .next t ∧
        (s.time.t ≤ at_ + 1000000 → (getRgn t r.val).lanes = (getRgn s r.val).lanes &&& ~~~(BitVec.ofNat 32 (2 ^ n)) ∧
          LogAt t s.flog.next.toNat 3 0x0C 0) ∧
        (at_ + 1000000 < s.time.t → (getRgn t r.val).lanes = (getRgn s r.val).lanes ∧ t.flog = s.flog))

/-- The Side Path (R188, R192, R193, R195, R126): a fill brings the running pass's block, else the next load's, into a free half; a dot row
needs its pass's block, waits otherwise, asks for its operands first, and commits the next activation row when they have arrived and the
check unit accepts it; spill service delivers
the sums an array waits for, by the Staging Unit where no Side Path works (R198). A failing spill check has one row's products repeated,
uncounted, while the array keeps waiting (R197); an uncorrectable error in the weight buffer empties that half, and one in the partial
paths has the pass replayed from the mark (R298); that an array's spill check fails is an operand (log 7). -/
def Obligations.SidePathFillsDotsAndSpills : Prop :=
  (∀ (s : State) (r : RgnId) (w : Work), sideRuns s r.val = true → sideHead s r.val = some w →
      let x := getRgn s r.val
      let n := blockPass w w.e.passesDone
      let filled := fun (v : Work) (k : Nat) (t : State) => t = { s with rgns := t.rgns, mp := t.mp } ∧ (getRgn t r.val).sideQ = x.sideQ ∧
        ∃ h, (getRgn t r.val).sideHalves = x.sideHalves ++ [h] ∧ h.ctx = v.t.ctx ∧ h.ring = v.t.ring ∧ h.pass = k ∧
          h.bytes = blockBytes v.j v.e k
      (x.sideHalves.length < 2 → halfOf x w n = none → ∃ t, exec (.sideWeightFill r) s = .next t ∧ filled w n t) ∧
      (∀ v k, x.sideHalves.length < 2 → (halfOf x w n).isSome = true → w.after r.val sideRoles = some (v, k) → halfOf x v k = none →
        ∃ t, exec (.sideWeightFill r) s = .next t ∧ filled v k t) ∧
      (2 ≤ x.sideHalves.length → exec (.sideWeightFill r) s = .next s)) ∧
  (∀ (s : State) (r : RgnId) (w : Work) (rest : List SubTile) (rs buf : RsResult), sideRuns s r.val = true →
      sideHead s r.val = some w → dotReady s r.val w = true → w.t.reread = false → slotPending s w.t.ctx w.t.ring = false →
      let n := blockPass w w.e.passesDone
      let es := subZ s.mems w.j w.e w.e.passesDone
      let q := workRow s r.val (sideBank s.mems w.j { w.e with band := 0 } w.e.passesDone) w w.e.rowMark (getRgn s r.val).scycle []
      let wait := addRgnCnt s r.val 13 (dotCycles w.j)
      (halfOf (getRgn s r.val) w n = none → exec (.sideDotRow r [] rs buf) s = .next wait) ∧
      (∀ h, halfOf (getRgn s r.val) w n = some h →
        (blockHere s r.val w.j w.e n = false → exec (.sideDotRow r [] rs buf) s = .next wait) ∧
        (blockHere s r.val w.j w.e n = true → rs = .uncorrectable →
          ∃ t, exec (.sideDotRow r [] rs buf) s = .next t ∧
            getRgn t r.val = { getRgn s r.val with sideHalves := (getRgn s r.val).sideHalves.erase h } ∧
            t.mems = s.mems ∧ t.ctxs = s.ctxs ∧ LogAt t s.flog.next.toNat 2 0x11 0) ∧
        (blockHere s r.val w.j w.e n = true → rs ≠ .uncorrectable → buf = .uncorrectable → w.role ≠ .follow →
          (getRgn s r.val).sideQ = w.t :: rest → w.t.array = none → w.t ∉ rest →
          ∃ t, exec (.sideDotRow r [] rs buf) s = .next t ∧ (getRgn t r.val).sideQ = { w.t with flags := w.t.flags ||| flReplayed } :: rest ∧
            (getRgn t r.val).sideHalves = (getRgn s r.val).sideHalves ∧ t.mems = s.mems ∧ t.ctxs = s.ctxs ∧
            LogAt t s.flog.next.toNat 2 0x11 0) ∧
        (blockHere s r.val w.j w.e n = true → rs ≠ .uncorrectable → buf ≠ .uncorrectable → sideFed s r.val w = false →
          ∃ t, exec (.sideDotRow r [] rs buf) s = .next t ∧ t.mems = s.mems ∧ t.ctxs = s.ctxs ∧ t.tlm = s.tlm ∧
            ((getRgn s r.val).sideQ = w.t :: rest → w.t.array = none → w.t ∉ rest →
              t.arrs = s.arrs ∧ (getRgn t r.val).sideQ = { w.t with fedRow := feedTag w } :: rest)) ∧
        (blockHere s r.val w.j w.e n = true → rs ≠ .uncorrectable → buf ≠ .uncorrectable → sideFed s r.val w = true → sideHashed s r.val w = false →
          ∃ t, exec (.sideDotRow r [] rs buf) s = .next t ∧ t.mems = s.mems ∧ t.ctxs = s.ctxs ∧ t.tlm = s.tlm) ∧
        (blockHere s r.val w.j w.e n = true → rs ≠ .uncorrectable → buf ≠ .uncorrectable → sideFed s r.val w = true → sideHashed s r.val w = true → w.role = .whole →
          (getRgn s r.val).sideQ = w.t :: rest → w.t.array = none → w.t ∉ rest → w.t.rowMark + 1 < w.t.rows →
          checkVerdict q ≠ some false → (es ≠ [] → zVerdict s.mems w.j w.e w.e.rowMark es [] ≠ some false) →
          Within (rowOut s w.j w.t q).writes → SideWithin w.j w.t w.t.rowMark →
          ∃ t v, exec (.sideDotRow r [] rs buf) s = .next t ∧ (getRgn t r.val).sideQ = v :: rest ∧ v.rowMark = w.t.rowMark + 1 ∧
            v.passesDone = w.t.passesDone ∧ v.ctx = w.t.ctx ∧ v.ring = w.t.ring ∧
            (getAcct t w.t.ctx).sideCycles = (getAcct s w.t.ctx).sideCycles +
              BitVec.ofNat 64 (dotCycles w.j + spillCycles w.j es.length)))) ∧
  (∀ (s : State) (r : RgnId) (a : Nat) (w : Work) (m : Bool), regionRuns s r.val = true → spillWaiting s r.val = some w →
      let perRow := (subZ s.mems w.j w.e w.e.passesDone).length
      ((sideRuns s r.val && m) = false → w.t.array = some a → w.t ∈ (getArr s a).bound →
        ∃ t, exec (.sideSpillService r m) s = .next t ∧ t = { s with rgns := t.rgns, arrs := t.arrs, tlm := t.tlm } ∧
          { w.t with zPasses := w.zAfter } ∈ (getArr t a).bound ∧ (∀ b, b ≠ a → getArr t b = getArr s b) ∧
          (sideRuns s r.val = true → tget 0 (getRgn t r.val).cnt 7 = tget 0 (getRgn s r.val).cnt 7 + BitVec.ofNat 64 (perRow * w.t.rows) ∧
            (getAcct t w.t.ctx).sideCycles = (getAcct s w.t.ctx).sideCycles + BitVec.ofNat 64 (spillCycles w.j (perRow * w.t.rows))) ∧
          (sideRuns s r.val = false → tget 0 (getRgn t r.val).cnt 8 = tget 0 (getRgn s r.val).cnt 8 + BitVec.ofNat 64 (perRow * w.t.rows) ∧
            t.tlm = s.tlm)) ∧
      (sideRuns s r.val = true → m = true → reached 3 (addEvent (getRgn s r.val).sideMissTimes s.time.t) = false →
        ∃ t, exec (.sideSpillService r m) s = .next t ∧ t.arrs = s.arrs ∧ t.ctxs = s.ctxs ∧ t.mems = s.mems ∧ t.units = s.units ∧
          tget 0 (getRgn t r.val).cnt 7 = tget 0 (getRgn s r.val).cnt 7 ∧
          tget 0 (getRgn t r.val).cnt 14 = tget 0 (getRgn s r.val).cnt 14 + 1))

/-- The Staging Unit's row work (R130, R184, R186, R187): the transposer appends one transposed slot row to what the waiting load will
take; a gather appends the next activation row; a running chunk's windows are staged, one for each image it touches, once copies have
left room for them. None of them writes a bank or an operand. An uncorrectable error in the gather buffer, which is an operand (log 7),
empties it, and the pass runs again from the mark (R298). -/
def Obligations.StagingBuildsRows : Prop :=
  ∀ (s : State) (a : ArrId), arrayRuns s a.val = true → regionRuns s (a.val / 4) = true →
    (∀ (s1 : State) (l : Load) (j : Job) (u : SubTile) (n : Nat) (v : Option Work), currentLoad s a.val = (s1, some (l, j, u, n, v)) →
      let i := l.nextRow + (getArr s1 a.val).tsp.length
      needsTsp j = true → i < l.total → rowHere s1 (a.val / 4) (loadOwner a.val l u) j u n i = true →
      ∃ row, exec (.transposerRow a) s = .next (setArr s1 a.val { getArr s1 a.val with tsp := (getArr s1 a.val).tsp ++ [row] }) ∧
        (liveRows (tileRows j) (passOf j n).1 ≤ i → row = emptyRow) ∧
        (getArr s1 a.val).active = (getArr s a.val).active ∧ s1.mems = s.mems ∧ s1.ctxs = s.ctxs) ∧
    (∀ (w : Work) (ro : Roles), works s a.val = [(w, ro)] →
      (let x := getArr s a.val
       let next := gatherNext x w
       let bs := gatherBytes s.mems w.j w.e (passOf w.j w.e.passesDone).1 next
       gathered w.j = true → passOn (laneOf x w) = true → windowHere s (a.val / 4) w.j w.e = true → next < w.e.rows →
       x.gather.foldl (fun n e => n + e.2.length) 0 + bs.length ≤ 131072 →
       (∀ rs, rs ≠ .uncorrectable → ∃ t, exec (.gatherRow a rs) s = .next t ∧ t = { s with arrs := t.arrs, rgns := t.rgns } ∧
         getArr t a.val = { x with gather := tset x.gather (gatherKey w.e.band next) bs } ∧ ∀ b, b ≠ a.val → getArr t b = getArr s b) ∧
       (w.t.array = some a.val → ∃ t, exec (.gatherRow a .uncorrectable) s = .next t ∧
         (∀ e ∈ (getArr t a.val).gather, e.1 / 2 ^ 17 ≠ w.e.band) ∧ (getArr t a.val).active = x.active ∧
         (laneOf (getArr t a.val) w).sent = List.replicate w.e.bandRows (w.e.rowMark * rowCycles (jobMode w.j)) ∧ t.mems = s.mems ∧
         LogAt t s.flog.next.toNat 2 0x11 0)) ∧
      (let x := getRgn s (a.val / 4)
       let held := x.windows.filter (fun v => (findAdm (getCtx s v.ctx) v.ring).isSome)
       let need := (windowsOf w.j w.e).filter (fun v => !held.any (sameWindow v))
       let cap := ceResBytes (getCtx s w.t.ctx).ent - winUsed { x with windows := held } w.t.ctx
       let fits := evictFor (copyInUse s) w.t.ctx cap (need.foldl (fun n v => n + v.bytes) 0) x.resid.length x.resid
       dOpcode w.j.d = 6 → (∃ v ∈ windowsOf w.j w.e, x.windows.any (sameWindow v) = false) →
       (fits = none → exec (.stageWindow a) s = .next (addRgnCnt s (a.val / 4) 6 1)) ∧
       (∀ l, fits = some l → ∃ t, exec (.stageWindow a) s = .next t ∧ t = { s with rgns := t.rgns, mp := t.mp } ∧
         (∀ v ∈ windowsOf w.j w.e, (getRgn t (a.val / 4)).windows.any (sameWindow v) = true) ∧
         (∀ y v, need = [y] → held = x.windows → haloSource s (a.val / 4) y = some (v, a.val / 4) →
           tget 0 (getRgn t (a.val / 4)).cnt 16 = tget 0 x.cnt 16 + BitVec.ofNat 64 (min v.hi y.hi - y.lo)))))

/-! ### Gambit -/

/-- Gambit's preloads and prefetches (R264, R267 to R269): a preload of a predicted block begins in a free shadow bank, consumes the hint,
and leaves the active bank and every operand; a prefetch makes a residency copy of the predicted weight. With their enables off
neither does anything. An ECC error on a preload's read abandons the preload, with no entry and no count but Gambit's (R274). -/
def Obligations.GambitPreloadsAndPrefetches : Prop :=
  (∀ (s : State) (a : ArrId) (k : BlockKey), running s = true → isLive s .array a.val = true →
      (s.regs.preloadEn = false → exec (.gambitPreload a) s = .next s) ∧
      (s.regs.preloadEn = true → predicted s a.val = some k → shadowFree s a.val = true → preloadAllowed s a.val k = true →
        preloadOk s (a.val / 4) k = true →
        ∃ t l, exec (.gambitPreload a) s = .next t ∧ t = { s with arrs := t.arrs, mp := t.mp, rgns := t.rgns, gambit := t.gambit, tlm := t.tlm } ∧
          (∀ n, getRgn t n = { getRgn s n with bankReqs := (getRgn t n).bankReqs }) ∧ (getArr t a.val).loads = [l] ∧ l.key = k ∧ l.preload = true ∧ l.nextRow = 0 ∧ l.total = 256 ∧
          (getArr t a.val).active = (getArr s a.val).active ∧ (getArr t a.val).bound = (getArr s a.val).bound ∧
          (getArr t a.val).shadow.rows = [] ∧ t.gambit.hist = s.gambit.hist ∧ t.gambit.hint = tdrop s.gambit.hint a.val ∧
          tget 0 t.tlm.cnt 0 = tget 0 s.tlm.cnt 0 + 1 ∧ ∀ b, b ≠ a.val → getArr t b = getArr s b)) ∧
  (∀ (s : State) (r : RgnId) (c : CtxId) (k : BlockKey) (s1 : State), running s = true → isLive s .region r.val = true →
      (getCtx s c.val).st = 1 → gambitOn s c.val = true →
      (s.regs.prefetchEn = false → exec (.gambitPrefetch r c) s = .next s) ∧
      (s.regs.prefetchEn = true →
        (regionPredictions s r.val c.val).find? (fun k => preloadOk s r.val k && !hasCopy s r.val k.ctx k.tensor k.gen) = some k →
        let j := tensorJob s r.val k
        (jent j k.tensor).space = 0 → (∀ x ∈ weightSpans j, x.sp = .mem → memAccess s k.ctx x.a x.n = .ok) →
        takeCopy s r.val k.ctx 0 k.tensor k.gen (weightFoot j) = some s1 →
        ∃ t, exec (.gambitPrefetch r c) s = .next t ∧ t = { s with rgns := t.rgns, mp := t.mp, tlm := t.tlm } ∧
          hasCopy t r.val k.ctx k.tensor k.gen = true ∧ k.ctx = c.val ∧
          tget 0 t.tlm.cnt 4 = tget 0 s.tlm.cnt 4 + BitVec.ofNat 64 (weightFoot j) ∧ ∀ n, n ≠ r.val → getRgn t n = getRgn s n)) ∧
  (∀ (s : State) (r : RgnId) (b : Fin 512) (g : BankReq) (c tensor a : Nat) (gen : W32) (rs : RsResult), rs ≠ .clean → regionRuns s r.val = true →
      (getRgn s r.val).bankReqs = [g] → bankOf g.addr = b.val → g.act = .read → g.owner = .gambit c tensor gen (some a) →
      scrubReq (getRgn s r.val) b.val = none →
      ∃ t, exec (.bankGrant r b rs none) s = .next t ∧ t.flog = s.flog ∧ (∀ n, (getRgn t n).cnt = (getRgn s n).cnt) ∧ t.units = s.units ∧
        (∀ l ∈ (getArr t a).loads, ¬(l.preload = true ∧ l.key.ctx = c ∧ l.key.tensor = tensor ∧ l.key.gen = gen)) ∧
        (∀ k, k ≠ 3 → tget 0 t.tlm.cnt k = tget 0 s.tlm.cnt k))

/-- Speculation behind a WAITV (R270 to R273, R277): a speculative pass changes the array's speculative buffer, which holds the settings it
began under, and nothing else but TLM counter 5; at the wait's end a comparison that fails discards the buffer, and one that holds
binds the sub-tile to the array that holds its buffer, charged to its context's deficit. While the WAITV holds, a confirmation changes
nothing. An uncorrectable error in the buffer, which is an operand (log 7), discards it. -/
def Obligations.SpeculationConfirmsOrSquashes : Prop :=
  (∀ (s : State) (a : ArrId) (c : CtxId) (d0 d : Adm) (v : Option Nat) (rs : RsResult), rs ≠ .uncorrectable → running s = true → isLive s .array a.val = true →
      s.regs.specEn = true → (getArr s a.val).bound = [] → followed s a.val = [] → gambitOn s c.val = true →
      inMask (ceAffinity (getCtx s c.val).ent) a.val = true → s.regs.confMin.toNat ≤ (getCtx s c.val).waitConf.toNat →
      (getCtx s c.val).admitted.find? (fun e => heldByWait s c.val e) = some d0 → (getArr s a.val).spec = none →
      shapeNow s c.val d0 = some v → specShape d0 v = some d →
      let j := jobOf d (a.val / 4)
      runsNowhere j = false → specForm s (a.val / 4) j = true → specElsewhere s a.val c.val d0.ring = false →
      0 < s.regs.specPasses.toNat → 1 < elemPasses j → (jobWide j = .none ∨ spillPass (dSpillInt j.d) true 1 = false) →
      (∀ x ∈ specReads s (a.val / 4) j (subAt s c.val d j 0 false 0) 0, memAccess s c.val x.1 x.2 = .ok) →
      ∃ t b, exec (.speculativePass a c rs) s = .next t ∧ t = { s with arrs := t.arrs, tlm := t.tlm } ∧
        getArr t a.val = { getArr s a.val with spec := some b } ∧ b.passes = 1 ∧ b.confirmed = false ∧ b.sub.ctx = c.val ∧
        b.sub.ring = d0.ring ∧ b.sub.h = 0 ∧ b.sub.c = 0 ∧ b.sub.g = 0 ∧ b.pairs.length = b.sub.rows ∧ b.shape = v ∧ b.gens = specGens j d ∧
        b.limit = s.regs.specPasses.toNat ∧ b.conf = s.regs.confMin.toNat ∧
        tget 0 t.tlm.cnt 5 = tget 0 s.tlm.cnt 5 + 1 ∧ t.tlm.acct = s.tlm.acct ∧ ∀ e, e ≠ a.val → getArr t e = getArr s e) ∧
  (∀ (s : State) (a : ArrId) (c : CtxId) (b : SpecBuf) (d : Adm) (lost : Option ArrId), running s = true → (getArr s a.val).spec = some b → b.sub.ctx = c.val →
      b.confirmed = false → (∀ e, e ≠ a.val → (getArr s e).spec = none) → (hostPortFor s c.val).isSome = true → findAdm (getCtx s c.val) b.sub.ring = some d →
      d.result = none → d.total = none →
      (lost ≠ some a → waitHeld (getCtx s c.val) d.ring = true → exec (.specConfirm c lost) s = .next s) ∧
      (lost = some a ∨ (waitHeld (getCtx s c.val) d.ring = false ∧ (specHolds s c.val d b = false ∨ specUnfit s a.val d b = true)) →
        ∃ t, exec (.specConfirm c lost) s = .next t ∧ t = { s with arrs := t.arrs, tlm := t.tlm } ∧
          getArr t a.val = { getArr s a.val with spec := none } ∧ tget 0 t.tlm.cnt 7 = tget 0 s.tlm.cnt 7 + 1) ∧
      (∀ (s1 s2 : State) (d1 : Adm), lost ≠ some a → waitHeld (getCtx s c.val) d.ring = false → specHolds s c.val d b = true →
        specUnfit s a.val d b = false → dispatchable s c.val d = true → specCanBind s a.val b.sub = true →
        (specShape d b.shape).any (fun e => (residencyStep s c.val e.ring (a.val / 4) true (jobOf e (a.val / 4))).isNone) = false →
        (shapeStep s c.val d).next (beginTile c.val) = .go s1 d1 →
        residencyStep s1 c.val d1.ring (a.val / 4) true (jobOf d1 (a.val / 4)) = some s2 →
        ∃ t v, exec (.specConfirm c lost) s = .next t ∧ (getArr t a.val).spec = some { b with confirmed := true } ∧
          v ∈ (getArr t a.val).bound ∧ v.ctx = c.val ∧ v.ring = d1.ring ∧ v.array = some a.val ∧
          (getCtx t c.val).deficit = (getCtx s c.val).deficit - v.cost ∧ t.mems = s.mems ∧
          ∃ e ∈ (getCtx t c.val).admitted, e.ring = d1.ring ∧ e.emitted = 1))

/-! ### Replay and mask operations -/

/-- SUBTILE_REPLAY (R29, R58, R305 to R307, R320): of the sub-tiles that left a unit, or that no LIVE array of their region can take any more,
the earliest in the order of dispatch is bound again, to a LIVE array of its context's mask, at its journal's passes and row mark; one
that restarts has its descriptor read again first; with no LIVE array left in the mask and no other sub-tile of its descriptor at work,
the descriptor ends with ARRAYS_ABSENT. -/
def Obligations.ReplaysRebindOrEnd : Prop :=
  ∀ (s : State) (r : RgnId) (u : SubTile) (d : Adm),
    let b := moveStranded s r.val
    let mask := ceAffinity (getCtx s u.ctx).ent
    running s = true → replayNext (getRgn b r.val) = some u → subDesc s u = some d →
    u ∈ (getRgn b r.val).replayQ ∧
    (∀ w ∈ (getRgn b r.val).replayQ, (replayRank u).1 < (replayRank w).1 ∨
      ((replayRank u).1 = (replayRank w).1 ∧ (replayRank u).2 ≤ (replayRank w).2)) ∧
    (regionsOf b mask ≠ [] → laneRegions b (drawsBits (sizedDesc d)) (regionsOf b mask) = [] → d.result = none →
      ∃ t res, exec (.subtileReplay r none) s = .next t ∧ HasResult t u.ctx u.ring res ∧ res.status = .unrecoverable) ∧
    (laneRegions b (drawsBits (sizedDesc d)) (regionsOf b mask) ≠ [] → u.reread = true →
      memAccess s u.ctx (slotAddr (getCtx s u.ctx).ent u.ring) 64 = .ok →
      ∃ t, exec (.subtileReplay r none) s = .next t ∧ slotPending t u.ctx u.ring = true ∧ t = { b with rgns := t.rgns, hp := t.hp }) ∧
    (∀ (q a k : Nat) (s1 : State), laneRegions b (drawsBits (sizedDesc d)) (regionsOf b mask) ≠ [] → u.reread = false →
      slotPending s u.ctx u.ring = false → replayPlace b r.val (asOwn (jobOf d r.val) u) d = some (q, a) → replayEntry b r.val q u = some k →
      residencyStep b u.ctx u.ring q true (jobOf d q) = some s1 →
      isLive s .array a = true ∧ isLive s .region q = true ∧ inMask mask a = true ∧ a / 4 = q ∧
      ∃ t v, exec (.subtileReplay r none) s = .next t ∧ v ∈ (getArr t a).bound ∧ v.ctx = u.ctx ∧ v.ring = u.ring ∧ v.h = u.h ∧ v.c = u.c ∧
        v.g = u.g ∧ v.passesDone = u.passesDone ∧ v.rowMark = u.rowMark ∧ v.array = some a ∧ v.jent = some k ∧
        (u.order ≠ 0 → v.order = u.order) ∧ (∀ w ∈ (getArr s a).bound, w ∈ (getArr t a).bound) ∧
        (getRgn t r.val).replayQ = (getRgn b r.val).replayQ.erase u ∧ t.mems = s.mems ∧ t.ctxs = s.ctxs ∧ t.units = s.units) ∧
    (liveArrays s mask = [] → othersWork b u = false → d.result = none →
      ∃ t res, exec (.subtileReplay r none) s = .next t ∧ HasResult t u.ctx u.ring res ∧ res.status = .arraysAbsent ∧
        (∀ w ∈ allSubs t, ¬(w.ctx = u.ctx ∧ w.ring = u.ring)))

/-- PRUNE, REGROW and MASKSET (R135 to R139, R301): the operation takes the Mask Unit of the first region it may use and a journal entry,
and is set up for its sweeps when it selects by a gradient, else has selected the new mask; the target, the shadow and every
other byte stay. An operation waits while the journal is full; a target whose lists are out of order ends with BAD_RSVD. -/
def Obligations.MaskOperationsStart : Prop :=
  ∀ (s : State) (c : CtxId) (i : W32) (d : Adm) (r : Nat) (rest : List Nat),
    ∀ p ∈ maskCommands c i, Starts s c i p.1 d →
      let draws := dOpcode d.desc == 0x11 && mkMode d.desc
      let mask := ceAffinity (getCtx s c.val).ent
      let rs := if dOpcode d.desc == 0x11 && !mkMode d.desc then regionsOf s mask else unitRegions s mask
      let j := jobOf d r
      rs ≠ [] → operandAbsent s d = false → laneRegions s draws rs = r :: rest →
      spansAccess s c.val (targetSpans j ++ sourceSpans j) (shadowSpans j) = .ok →
      (targetListsBad s.mems j = false → ∀ k, freeJournal (getRgn s r) = some k →
        ∃ t e m, exec p.2 s = .next t ∧ findAdm (getCtx t c.val) i = some e ∧ e.mask = some m ∧ e.result = none ∧ m.region = r ∧
          m.jent = some k ∧ m.phase = (if sweeps j then 1 else 3) ∧ m.sweep = 0 ∧ thas (getRgn t r).journal k = true ∧
          (sweeps j = false → m.sel = (maskHeadList j).map (selectHead s.mems j)) ∧
          t.mems = s.mems ∧ OnlyContext s t c.val) ∧
      (targetListsBad s.mems j = false → freeJournal (getRgn s r) = none → exec p.2 s = .next s) ∧
      (targetListsBad s.mems j = true → ∃ t res, exec p.2 s = .next t ∧ HasResult t c.val i res ∧ res.status = .badRsvd ∧ t.mems = s.mems)

/-- The later phases of a mask operation (R137, R139 to R144, R327): a sweep leaves memory and moves on once every unit has chosen; the
rebuild, once a Bernoulli REGROW has its hashes (R210), writes the shadow's layout, or ends with SPILL_FULL and the entries needed; the
commit is one write of the target's tensor-table entry, with the next generation; the record is due once no reader of the old generation
and no write of the entry is left; recovery reads the entry's generation back. -/
def Obligations.MaskPhasesAdvance : Prop :=
  ∀ (s : State) (c : CtxId) (d : Adm) (m : MaskOp) (j : Job), running s = true →
    (maskIn s c.val 1 = some (d, m, j) → (∃ a, a < 16 ∧ inMask (ceAffinity (getCtx s c.val).ent) a = true ∧ arrayRuns s a = true) → spansAccess s c.val (sourceSpans j) [] = .ok →
      ∃ t, exec (.maskSweep c) s = .next t ∧ t.mems = s.mems ∧ OnlyContext s t c.val ∧
        ∃ e ∈ (getCtx t c.val).admitted, e.ring = d.ring ∧ ∃ n, e.mask = some n ∧ n.sweep = m.sweep + 1 ∧ n.region = m.region ∧
          n.phase = (if n.sieve.all (fun us => us.all (·.fin)) then 3 else m.phase)) ∧
    (maskIn s c.val 3 = some (d, m, j) →
      let codes := (maskCodes s.mems j m).1
      let spills := largest (codes.map (fun x => (spillList (maskShadow j) x).length))
      let tovers := largest (codes.map (fun x => (toverList (maskShadow j) x).length))
      (hashesDue s m.region 2 c.val d.ring = true → exec (.maskRebuild c) s = .next s) ∧
      (hashesDue s m.region 2 c.val d.ring = false → spills ≤ (maskShadow j).spillCap →
        (hasTmap (maskShadow j) = false ∨ tovers ≤ (maskShadow j).toverCap) →
        ∃ t, exec (.maskRebuild c) s = .next t ∧ ((∀ r, (getRgn s r).watch = []) → OnlyContext s t c.val) ∧
          t.mems = applyWrites s.mems (((maskHeadList j).zip codes).flatMap (fun x => layoutWrites s.freeCnt j x.1 x.2)) ∧
          ∃ e ∈ (getCtx t c.val).admitted, e.ring = d.ring ∧ ∃ n, e.mask = some n ∧ n.phase = 4 ∧ n.spillNeed = spills ∧ n.toverNeed = tovers) ∧
      (hashesDue s m.region 2 c.val d.ring = false → (∀ r, (getRgn s r).watch = []) →
        ((maskShadow j).spillCap < spills → ∃ t res, exec (.maskRebuild c) s = .next t ∧ HasResult t c.val d.ring res ∧
          res.status = .spillFull ∧ res.shortfall = BitVec.ofNat 32 spills) ∧
        (spills ≤ (maskShadow j).spillCap → hasTmap (maskShadow j) = true → (maskShadow j).toverCap < tovers →
          ∃ t res, exec (.maskRebuild c) s = .next t ∧ HasResult t c.val d.ring res ∧
            res.status = .spillFull ∧ res.shortfall = BitVec.ofNat 32 tovers))) ∧
    (maskIn s c.val 4 = some (d, m, j) → (hostPortFor s c.val).isSome = true →
      let a := entryAddr s c.val (mkTarget d.desc)
      memWriteAccess s c.val a 64 = .ok → (tget [] d.entries (mkShadow d.desc)).length = 8 →
      ∃ t, exec (.maskCommit c) s = .next t ∧ OnlyContext s t c.val ∧
        rdBytes t.mems .mem a 64 = wordBytes (committedEntry (tget [] d.entries (mkShadow d.desc)) (mkGen d.desc + 1) m.spillNeed m.toverNeed) ∧
        (tentOf (rdWords t.mems .mem a 8)).gen = mkGen d.desc + 1 ∧
        (∀ sp x, (sp ≠ .mem ∨ x < a ∨ a + 64 ≤ x) → rdByte t.mems sp x = rdByte s.mems sp x) ∧
        ∃ e ∈ (getCtx t c.val).admitted, e.ring = d.ring ∧ ∃ n, e.mask = some n ∧ n.phase = 5) ∧
    (maskIn s c.val 5 = some (d, m, j) →
      ((oldReaders s c.val d = true ∨ commitOpen s (entryAddr s c.val (mkTarget d.desc)) = true) → exec (.maskRetire c) s = .next s) ∧
      (oldReaders s c.val d = false → commitOpen s (entryAddr s c.val (mkTarget d.desc)) = false →
        ∃ t res, exec (.maskRetire c) s = .next t ∧ t = { s with ctxs := t.ctxs } ∧ HasResult t c.val d.ring res ∧ res.checkId = 0 ∧
          res.result = (mkGen d.desc + 1).setWidth 64 ∧ (∀ e, e ≠ c.val → getCtx t e = getCtx s e))) ∧
    (∀ r rest, maskLost s c.val = some (d, m) → (hostPortFor s c.val).isSome = true →
      unitRegions s (ceAffinity (getCtx s c.val).ent) = r :: rest →
      let a := entryAddr s c.val (mkTarget d.desc)
      let gen := (tentOf (rdWords s.mems .mem a 8)).gen
      memAccess s c.val a 64 = .ok →
      ∃ t, exec (.maskCommitRecovery c) s = .next t ∧ t.mems = s.mems ∧ OnlyContext s t c.val ∧
        (gen = mkGen d.desc + 1 → ∃ e ∈ (getCtx t c.val).admitted, e.ring = d.ring ∧
          ∃ n, e.mask = some n ∧ n.phase = 5 ∧ n.region = r) ∧
        (gen = mkGen d.desc → ∃ e ∈ (getCtx t c.val).admitted, e.ring = d.ring ∧ ∃ n, e.mask = some n ∧ n.phase = 0) ∧
        (gen ≠ mkGen d.desc → gen ≠ mkGen d.desc + 1 → ∃ res, HasResult t c.val d.ring res ∧ res.status = .admitCount ∧
          res.checkId = 0x25 ∧ res.shortfall = gen))

/-! ### Waiting, the window, control -/

/-- WAITV (R252, R270, R285, R291, R302): activation takes a journal entry, waiting while the journal is full, and a watch entry for a
scratchpad address, and reads the value once; a read that meets the
comparison completes it with OK and the value, and raises the wait predictor; a poll reads again; after its timeout it, and every
descriptor it held, completes with WAIT_TIMEOUT, its result the last value read. -/
def Obligations.WaitsReadPollAndTimeOut : Prop :=
  (∀ (s : State) (c : CtxId) (i : W32) (d : Adm), Starts s c i 0x23 d →
      let a := reA d.desc
      let met (v : W64) := (wvEq d.desc = true ∧ v = reB d.desc) ∨ (wvEq d.desc = false ∧ (reB d.desc).toNat ≤ v.toNat)
      (∀ r, remoteRegion s c.val a = some r → freeJournal (getRgn s r) = none → exec (.waitv c i) s = .next s) ∧
      ((remoteSpace a = .mem → memAccess s c.val (remoteAddr a) 8 = .ok) → (∀ r, remoteSpace a = .spad r → isLive s .region r = true) →
        (∀ r, remoteRegion s c.val a = some r → (freeJournal (getRgn s r)).isSome = true) →
      ∃ t e v, exec (.waitv c i) s = .next t ∧ t.mems = s.mems ∧ OnlyContext s t c.val ∧ findAdm (getCtx t c.val) i = some e ∧
        e.active = some s.time.t ∧ e.lastRead = v ∧ v = remoteWord t a ∧
        (remoteSpace a = .mem ∨ remoteAddr a + 8 ≤ 0x02FE0000 → v = remoteWord s a) ∧
        (met v → e.result = some { plainResult .ok with result := v } ∧ (getCtx t c.val).waitConf = conf2Up (getCtx s c.val).waitConf) ∧
        (¬met v → e.result = none ∧ (getCtx t c.val).waitConf = (getCtx s c.val).waitConf ∧
          ∀ r, remoteSpace a = .spad r → (getRgn s r).watch.length < 64 → ∃ w ∈ (getRgn t r).watch, w.ctx = c.val ∧ w.addr = remoteAddr a))) ∧
  (∀ (s : State) (c : CtxId) (d : Adm), running s = true → activeWait (getCtx s c.val) = some d → remoteSpace (reA d.desc) = .mem →
      memAccess s c.val (remoteAddr (reA d.desc)) 8 = .ok →
      let v := remoteWord s (reA d.desc)
      ∃ t, exec (.waitvPoll c) s = .next t ∧ t.mems = s.mems ∧ OnlyContext s t c.val ∧
        (getAcct t c.val).rdBytes = (getAcct s c.val).rdBytes + 8 ∧
        (waitMet d.desc v = true → HasResult t c.val d.ring { plainResult .ok with result := v }) ∧
        (waitMet d.desc v = false → ∃ e ∈ (getCtx t c.val).admitted, e.ring = d.ring ∧ e.lastRead = v ∧ e.result = none)) ∧
  (∀ (s : State) (c : CtxId) (d : Adm) (t0 : Nat), running s = true → activeWait (getCtx s c.val) = some d → d.active = some t0 →
      (wvTimeout d.desc = 0 ∨ s.time.t < t0 + 1000 * wvTimeout d.desc → exec (.waitvTimeout c) s = .next s) ∧
      (wvTimeout d.desc ≠ 0 → t0 + 1000 * wvTimeout d.desc ≤ s.time.t →
        ∃ t, exec (.waitvTimeout c) s = .next t ∧ t.mems = s.mems ∧ (∀ e, e ≠ c.val → getCtx t e = getCtx s e) ∧
          HasResult t c.val d.ring { plainResult .waitTimeout with result := d.lastRead } ∧
          (getCtx t c.val).waitConf = conf2Down (getCtx s c.val).waitConf ∧
          (∀ e ∈ later (getCtx s c.val) d.ring, e.result = none → ∃ res, HasResult t c.val e.ring res ∧ res.status = .waitTimeout) ∧
          (∀ a, a < 16 → ∀ b, (getArr t a).spec = some b → b.sub.ctx ≠ c.val)))

/-- The scratchpad window of the host ports (R289): with win_en, an address in the window reaches the scratchpad of a LIVE region at its
offset below 0x0300_0000, by requests of the remote class for the banks of its lines (R23); every other access there, and a write or
atomic to the journal range, answers an error and changes nothing. With the last grant a read is answered with its bytes, a write changes
them alone, and an atomic returns the prior word and writes its new value. With space = 1 a read answers the register's bytes, or an
error where none lies (R341, R390). That a port takes one access at a time is the model's choice (log 28), and so is that the register
read is a form of the window's (log 46). -/
def Obligations.WindowReachesScratchpad : Prop :=
  (∀ (s : State) (p : HostId) (addr : BitVec 57) (len : Nat) (data : List Byte) (op : AtomicOp) (x y : W64), hostAnswers s p.val = true →
    let r := addr.toNat % 2 ^ 28 / 2 ^ 26
    let o := addr.toNat % 2 ^ 26
    let within (n : Nat) := s.regs.winEn = true ∧ addr.toNat / 2 ^ 28 = s.regs.winBase.toNat ∧ isLive s .region r = true ∧ o + n ≤ 0x03000000
    let asks (t : State) (l : List (Nat × BankAct)) := t = { wake s with hp := t.hp, rgns := t.rgns } ∧ (getHp t p.val).resp = .none ∧
      (getHp t p.val).wdata = [] ∧ ∀ q ∈ l, ∃ b ∈ (getRgn t r).bankReqs, b.cls = 3 ∧ b.addr = q.1 ∧ b.act = q.2 ∧ b.owner = .host p.val
    let refuses (t : State) := (getHp t p.val).resp = .err ∧ t = { wake s with hp := t.hp }
    (windowWaits s p.val = true → exec (.windowRead p addr len false) s = .next s ∧ exec (.windowWrite p addr data) s = .next s ∧
      exec (.windowAtomic p addr op x y) s = .next s) ∧
    (windowWaits s p.val = false → ∃ t u v, exec (.windowRead p addr len false) s = .next t ∧ exec (.windowWrite p addr data) s = .next u ∧
      exec (.windowAtomic p addr op x y) s = .next v ∧
      ((1 ≤ len ∧ len ≤ 64 ∧ within len) → asks t ((linePieces (len + 1) o (List.replicate len 0)).map (fun q => (q.1, .fetch q.2.length)))) ∧
      (¬(1 ≤ len ∧ len ≤ 64 ∧ within len) → refuses t) ∧
      ((1 ≤ data.length ∧ data.length ≤ 64 ∧ within data.length ∧ o + data.length ≤ 0x02FE0000) →
        asks u ((linePieces (data.length + 1) o data).map (fun q => (q.1, .write q.2)))) ∧
      (¬(1 ≤ data.length ∧ data.length ≤ 64 ∧ within data.length ∧ o + data.length ≤ 0x02FE0000) → refuses u) ∧
      ((within 8 ∧ o + 8 ≤ 0x02FE0000 ∧ o % 8 = 0) → asks v [(o, .atomic (atomicCode op) x y false)]) ∧
      (¬(within 8 ∧ o + 8 ≤ 0x02FE0000 ∧ o % 8 = 0) → refuses v))) ∧
  (∀ (s : State) (p : HostId) (addr : BitVec 57) (len : Nat), hostAnswers s p.val = true → windowWaits s p.val = false →
    let off := addr.toNat
    let reg := readReg (wake s) (off / 8 * 8)
    let legal := (len = 4 ∨ len = 8) ∧ off % len = 0 ∧ reg.isSome = true
    ∃ t, exec (.windowRead p addr len true) s = .next t ∧ t = { wake s with hp := t.hp } ∧ (¬legal → (getHp t p.val).resp = .err) ∧
      (legal → ∃ bs, (getHp t p.val).resp = .data bs ∧ bs.length = len ∧
        ∀ v, reg = some v → ∀ k b, bs[k]? = some b → b.toNat = v / 2 ^ (8 * (off % 8 + k)) % 256)) ∧
  (∀ (s : State) (r : RgnId) (b : Fin 512) (p : HostId) (g : BankReq), regionRuns s r.val = true → (getRgn s r.val).bankReqs = [g] →
    bankOf g.addr = b.val → g.owner = .host p.val → (∀ e ∈ s.rgns, e.1 ≠ r.val → ∀ q ∈ e.2.bankReqs, q.owner ≠ .host p.val) →
    (s.rgns.map (·.1)).Nodup → (getHp s p.val).wdata = [] → scrubReq (getRgn s r.val) b.val = none →
    ∃ t, exec (.bankGrant r b .clean none) s = .next t ∧
      (∀ n, g.act = .fetch n → ∃ bs, (getHp t p.val).resp = .data bs ∧ bs.length = n ∧ t.mems = s.mems ∧
        ((∀ k, k < n → inResidency s r.val (g.addr + k) = false) → bs = (List.range n).map (fun k => spadByte s r.val (g.addr + k)))) ∧
      (∀ bs, g.act = .write bs → (getHp t p.val).resp = .ok ∧ (∀ k v, bs[k]? = some v → rdByte t.mems (.spad r.val) (g.addr + k) = v) ∧
        ∀ sp k, (sp ≠ .spad r.val ∨ k < g.addr ∨ g.addr + bs.length ≤ k) → rdByte t.mems sp k = rdByte s.mems sp k) ∧
      (∀ op x y, g.act = .atomic op x y true → ∃ w, (getHp t p.val).resp = .prior w ∧
        AtomicReport op (rd64 s.mems (.spad r.val) g.addr) w ∧
        AtomicValue op (rd64 s.mems (.spad r.val) g.addr) x y (rd64 t.mems (.spad r.val) g.addr) ∧
        ∀ sp k, (sp ≠ .spad r.val ∨ k < g.addr ∨ g.addr + 8 ≤ k) → rdByte t.mems sp k = rdByte s.mems sp k))

/-- NOP, FENCE, CTXSAVE and CTXLOAD (R234, R244, R245, R328, R329): NOP completes; FENCE completes once no earlier descriptor it waits for is
without a record; CTXSAVE, alone in its context, writes the RNG slots and the save area with its header; CTXLOAD takes the entry and
the slots that it reads, but an affinity with absent arrays ends it with ARRAYS_ABSENT and keeps the former entry, and enable = 0 leaves
the context without an enabled entry, to retire with the record. -/
def Obligations.ControlDescriptorsComplete : Prop :=
  ∀ (s : State) (c : CtxId) (i : W32) (d : Adm),
    let x := getCtx s c.val
    (Starts s c i 0x00 d → ∃ t, exec (.nop c i) s = .next t ∧ t = { s with ctxs := t.ctxs } ∧ HasResult t c.val i (plainResult .ok) ∧
      ∀ e, e ≠ c.val → getCtx t e = getCtx s e) ∧
    (Starts s c i 0x28 d →
      (fenceWaits x d = true → exec (.fence c i) s = .next s) ∧
      (feTensor d.desc = 0 → (fenceWaits x d = true ↔ earlier x i ≠ [])) ∧
      (fenceWaits x d = false → ∃ t, exec (.fence c i) s = .next t ∧ t = { s with ctxs := t.ctxs } ∧ HasResult t c.val i (plainResult .ok) ∧
        ∀ e, e ≠ c.val → getCtx t e = getCtx s e)) ∧
    (Starts s c i 0x29 d → earlier x i = [] → (hostPortFor s c.val).isSome = true → saveFault s c.val = none →
      (ceRngBase x.ent + 128 ≤ ceSaveBase x.ent ∨ ceSaveBase x.ent + 4096 ≤ ceRngBase x.ent) →
      ∃ t, exec (.ctxsave c i) s = .next t ∧ HasResult t c.val i (plainResult .ok) ∧
        rdBytes t.mems .mem (ceRngBase x.ent) 128 = slotBytes x ∧ rdBytes t.mems .mem (ceSaveBase x.ent) 64 = saveHeader s c.val ∧
        (∀ sp k, (sp ≠ .mem ∨ ((k < ceRngBase x.ent ∨ ceRngBase x.ent + 128 ≤ k) ∧ (k < ceSaveBase x.ent ∨ ceSaveBase x.ent + 4096 ≤ k))) →
          rdByte t.mems sp k = rdByte s.mems sp k) ∧
        (getCtx t c.val).ent = x.ent ∧ (getCtx t c.val).rng = x.rng ∧ (∀ a, a < 16 → ∀ b, (getArr t a).spec = some b → b.sub.ctx ≠ c.val)) ∧
    (Starts s c i 0x2A d → earlier x i = [] → (hostPortFor s c.val).isSome = true →
      let e := rdWords s.mems .mem (s.regs.ctxBase.toNat + 256 * c.val) 32
      let hdr := (rd64 s.mems .mem (ceSaveBase e)).toNat
      xlateAt s.env s.regs.engineAsid (s.regs.ctxBase.toNat + 256 * c.val) 256 = none →
      (ceEnable e = false → ∃ t, exec (.ctxload c i) s = .next t ∧ HasResult t c.val i (plainResult .ok) ∧ OnlyContext s t c.val ∧
        ceEnable (getCtx t c.val).ent = false ∧ (getCtx t c.val).rng = x.rng ∧ t.mems = s.mems) ∧
      (ceEnable e = true → xlateAt s.env (ceAsid e) (ceRngBase e) 128 = none →
      xlateAt s.env (ceAsid e) (ceSaveBase e) (if bits hdr 0 0 = 1 then 4096 else 64) = none → ceValid e = true →
      (bits hdr 0 0 = 0 ∨ (bits hdr 7 4 = 1 ∧ bits hdr 15 8 = 1) →
        (absentArrays s (ceAffinity e) = [] → ∃ t, exec (.ctxload c i) s = .next t ∧ HasResult t c.val i (plainResult .ok) ∧
          (getCtx t c.val).ent = e ∧ (getCtx t c.val).rng = readSlots s.mems (ceRngBase e) ∧
          (getCtx t c.val).tempo = tempoStart e s.time.t ∧ t.mems = s.mems ∧ OnlyContext s t c.val) ∧
        (absentArrays s (ceAffinity e) ≠ [] → dRelaxAff d.desc = false → ∃ t, exec (.ctxload c i) s = .next t ∧
          HasResult t c.val i (plainResult .arraysAbsent) ∧ (getCtx t c.val).ent = x.ent ∧ (getCtx t c.val).rng = x.rng ∧ t.mems = s.mems)) ∧
      (bits hdr 0 0 = 1 → ¬(bits hdr 7 4 = 1 ∧ bits hdr 15 8 = 1) → ∃ t res, exec (.ctxload c i) s = .next t ∧ HasResult t c.val i res ∧
        res.status = .badVersion ∧ res.checkId = 0x02 ∧ (getCtx t c.val).ent = x.ent ∧ (getCtx t c.val).rng = x.rng)))

/-! ### Whole descriptors -/

/-- The compute descriptors (R126, R130, R132, R173, R182, R190, R236, R237): where the tile may run, the bytes it writes are those of its
rows, it completes with OK or, by its flags, OK_FLAGS, its account grows by its MACs and passes, and no other context, bank or
counter of the engine changes. That one command runs the whole tile is the model's choice (log 8). -/
def Obligations.ComputeDescriptorsRunTiles : Prop :=
  ∀ (s : State) (c : CtxId) (i : W32) (d : Adm) (r : Nat) (s0 : State) (d0 : Adm) (s1 : State),
    ∀ p ∈ computeCommands c i, Starts s c i p.1 d → TileReady s c.val r d s0 d0 s1 →
      ∃ t, exec p.2 s = .next t ∧ TileDone s t c.val r d d0

/-- FOLD and BMASK (R110, R208, R210, R302), which need no array: FOLD takes a journal entry and, where its output draws, asks for
its hashes in the drains' class; behind the grants it reads every header: parts that do not agree end it with BAD_RSVD at check 0x03, and
nothing is written; else it writes what the exact sum of its parts gives. BMASK asks the RNG unit for its bits; behind the grants it writes the Bernoulli bits of R207, each row padded to 64 B, in the drain class, and nothing else. -/
def Obligations.FoldAndBmaskComplete : Prop :=
  ∀ (s : State) (c : CtxId) (i : W32) (d : Adm) (r : Nat) (rest : List Nat),
    let rs := unitRegions s (ceAffinity (getCtx s c.val).ent)
    let j := jobOf d r
    rs ≠ [] → operandAbsent s d = false →
    (findAdm (getCtx s c.val) i = some d → dOpcode d.desc = 0x08 → dispatchable s c.val d = true → writesOutstanding s c.val i = false →
      readsOutstanding s c.val i = false → laneRegions s (foldDraws d.desc) rs = r :: rest →
      let waits := hashesDue s r 0 (foldUnit c.val) i
      let draws := foldDraws d.desc = true ∧ foHeads d.desc * foMt d.desc * foNt d.desc ≠ 0
      (d.emitted = 0 → freeJournal (getRgn s r) = none → exec (.fold c i) s = .next s) ∧
      (∀ k, d.emitted = 0 → freeJournal (getRgn s r) = some k → draws → ∃ t, exec (.fold c i) s = .next t ∧
        t = { s with ctxs := t.ctxs, rgns := t.rgns } ∧ hashesDue t r 0 (foldUnit c.val) i = true ∧ thas (getRgn t r).journal k = true ∧
        (∃ e, findAdm (getCtx t c.val) i = some e ∧ e.emitted = 1 ∧ e.result = none) ∧ ∀ e, e ≠ c.val → getCtx t e = getCtx s e) ∧
      (d.emitted ≠ 0 → waits = true → exec (.fold c i) s = .next s) ∧
      ((d.emitted = 0 ∧ (freeJournal (getRgn s r)).isSome = true ∧ ¬draws) ∨ (d.emitted ≠ 0 ∧ waits = false) →
        spansAccess s c.val (foldReads j) (foldWrites j) = .ok →
        (foldBad s.mems j = none → foldShort s.mems j = none → Unwatched s (foldWrites j) →
          ∃ t, exec (.fold c i) s = .next t ∧ t.mems = (runFold s.mems j).1 ∧
            HasResult t c.val i (plainResult .ok (d.flags ||| (runFold s.mems j).2)) ∧ OnlyContext s t c.val ∧
            (∀ k, d.emitted = 0 → freeJournal (getRgn s r) = some k → thas (getRgn t r).journal k = true)) ∧
        (∀ n, foldBad s.mems j = some n → ∃ t res, exec (.fold c i) s = .next t ∧ t = { s with ctxs := t.ctxs, rgns := t.rgns } ∧
          HasResult t c.val i res ∧ res.status = .badRsvd ∧ res.checkId = 0x03 ∧ res.operand = BitVec.ofNat 16 n))) ∧
    (findAdm (getCtx s c.val) i = some d → dOpcode d.desc = 0x13 → dispatchable s c.val d = true → writesOutstanding s c.val i = false →
      laneRegions s true rs = r :: rest →
      let o := jent j (bmOut j.d)
      let w := roundUp (ceilDiv (bmN j.d) 8) 64
      (d.emitted = 0 → bmM d.desc * bmN d.desc ≠ 0 → ∃ t, exec (.bmask c i) s = .next t ∧ t = { s with ctxs := t.ctxs, rgns := t.rgns } ∧
        hashesDue t r 3 c.val i = true ∧ (∃ e, findAdm (getCtx t c.val) i = some e ∧ e.emitted = 1 ∧ e.result = none) ∧
        ∀ e, e ≠ c.val → getCtx t e = getCtx s e) ∧
      (d.emitted ≠ 0 → hashesDue s r 3 c.val i = true → exec (.bmask c i) s = .next s) ∧
      (d.emitted ≠ 0 ∨ bmM d.desc * bmN d.desc = 0 → hashesDue s r 3 c.val i = false →
        spansAccess s c.val [] [entSpan j o 0 (bmM j.d * w)] = .ok →
        ∃ t, exec (.bmask c i) s = .next t ∧ HasResult t c.val i (plainResult .ok d.flags) ∧ OnlyContext s t c.val ∧
          (tentSpace o j.r = .mem →
            (∀ m n, m < bmM j.d → n < bmN j.d → (rdByte t.mems .mem (o.base + m * w + n / 8)).getLsbD (n % 8) =
              bernoulli j.draw purpBmask (m * bmN j.d + n) (bmP24 j.d)) ∧
            ∀ sp k, (sp ≠ .mem ∨ k < o.base ∨ o.base + bmM j.d * w ≤ k) → rdByte t.mems sp k = rdByte s.mems sp k) ∧
          (∀ q, tentSpace o j.r = .spad q → t.mems = s.mems ∧ ∀ m, m < bmM j.d → ∃ bs : List Byte, bs.length = w ∧
            (∀ n, n < bmN j.d → (bs.getD (n / 8) 0).getLsbD (n % 8) = bernoulli j.draw purpBmask (m * bmN j.d + n) (bmP24 j.d)) ∧
            ∀ y ∈ linePieces (w + 1) (o.base + m * w) bs, ∃ b ∈ (getRgn t q).bankReqs, b.cls = 0 ∧ b.addr = y.1 ∧ b.act = .write y.2)))

/-- CASTLE and STREAM (R44, R45, R59 to R61, R242, R269, R371): without maintenance ownership of the array, CASTLE only installs a hint and
completes with OK, and STREAM completes with BAD_OPCODE and leaves the array untouched; with it, CASTLE makes the named block active
in 257 array cycles, and STREAM writes one result row of 1,088 B for each source row with the active bank, which it keeps. -/
def Obligations.CastleAndStreamUseOwnedArrays : Prop :=
  ∀ (s : State) (c : CtxId) (i : W32) (d : Adm),
    (Starts s c i 0x18 d →
      let a := caArray d.desc
      (ownsArray s c.val a = false → ∃ t, exec (.castle c i) s = .next t ∧ t = { s with ctxs := t.ctxs, gambit := t.gambit } ∧
        HasResult t c.val i (plainResult .ok d.flags) ∧ t.gambit.hist = s.gambit.hist ∧
        (gambitOn s c.val = true → inMask (ceAffinity (getCtx s c.val).ent) a = true →
          ∃ k, t.gambit.hint = tset s.gambit.hint a k ∧ k.ctx = c.val ∧ k.tensor = caW d.desc ∧ k.group = caGroup d.desc ∧ k.pass = caPass d.desc) ∧
        ((gambitOn s c.val = false ∨ inMask (ceAffinity (getCtx s c.val).ent) a = false) → t.gambit = s.gambit)) ∧
      (ownsArray s c.val a = true → isLive s .region (a / 4) = true → operandAbsent s d = false →
        spansAccess s c.val (weightSpans (castleBlock c.val d).1.1) [] = .ok →
        ∃ t, exec (.castle c i) s = .next t ∧ HasResult t c.val i (plainResult .ok d.flags) ∧
          (getArr t a).active.key = some (castleBlock c.val d).2 ∧ (getArr t a).shadow = (getArr s a).active ∧ (getArr t a).loads = [] ∧
          (getArr t a).cycle = (getArr s a).cycle + 257 ∧ (∀ b, b ≠ a → getArr t b = getArr s b) ∧ t.mems = s.mems ∧ t.units = s.units ∧
          (getAcct t c.val).arrayCycles = (getAcct s c.val).arrayCycles + 257)) ∧
    (Starts s c i 0x30 d →
      let a := stArray d.desc
      let j := jobOf d (a / 4)
      let src := jent j (stSrc j.d)
      let dst := jent j (stDst j.d)
      (ownsArray s c.val a = false → ∃ t, exec (.stream c i) s = .next t ∧ t = { s with ctxs := t.ctxs } ∧
        HasResult t c.val i { plainResult .badOpcode d.flags with checkId := 0x01 }) ∧
      (ownsArray s c.val a = true → isLive s .region (a / 4) = true → operandAbsent s d = false →
        spansAccess s c.val [entSpan j src 0 (1024 * stRows j.d)] [entSpan j dst 0 (1088 * stRows j.d)] = .ok →
        (∀ q, tentSpace dst j.r = .spad q → (getRgn s q).watch = []) →
        ∃ t, exec (.stream c i) s = .next t ∧ HasResult t c.val i (plainResult .ok d.flags) ∧
          t.mems = applyWrites s.mems (streamWrites s.mems (getArr s a).active j s.freeCnt) ∧
          (getArr t a).active = (getArr s a).active ∧ (getArr t a).shadow = (getArr s a).shadow ∧
          (getArr t a).cycle = (getArr s a).cycle + streamCycles (getArr s a).active d.desc ∧ (∀ b, b ≠ a → getArr t b = getArr s b) ∧
          (∀ sp k, (sp ≠ tentSpace dst j.r ∨ k < dst.base ∨ dst.base + 1088 * stRows j.d ≤ k) → rdByte t.mems sp k = rdByte s.mems sp k) ∧
          t.units = s.units))

/-- RWRITE and RREAD start (R23, R26, R281, R282, R301, R302, R321): with a journal entry of their target region, without which they wait,
they read their source: requests of the remote class for the banks of its lines, or reads through the ports. To or from a region that is
not LIVE both end with ARRAYS_ABSENT. -/
def Obligations.RemoteCopiesStart : Prop :=
  ∀ (s : State) (c : CtxId) (i : W32) (d : Adm), ∀ p ∈ [((0x20 : Nat), Instr.rwrite c i), (0x21, .rread c i)], Starts s c i p.1 d →
    let src := copySrc d.desc
    let dst := copyDst d.desc
    let n := reLen d.desc
    (∀ q, remoteSpace src = .spad q → isLive s .region q = false →
      ∃ t, exec p.2 s = .next t ∧ HasResult t c.val i (plainResult .arraysAbsent) ∧ t.mems = s.mems) ∧
    (∀ r, srcAccess s c.val src n = .ok → remoteSpace dst = .spad r → isLive s .region r = false →
      ∃ t, exec p.2 s = .next t ∧ HasResult t c.val i (plainResult .arraysAbsent) ∧ t.mems = s.mems) ∧
    (∀ r, srcAccess s c.val src n = .ok → dstAccess s c.val dst n = .ok → remoteRegion s c.val dst = some r →
      (freeJournal (getRgn s r) = none → exec p.2 s = .next s) ∧
      (∀ k, freeJournal (getRgn s r) = some k → ∃ t, exec p.2 s = .next t ∧ t = { s with rgns := t.rgns, mp := t.mp } ∧
        thas (getRgn t r).journal k = true ∧
        (∀ q, remoteSpace src = .spad q → ∀ y ∈ linePieces (n + 1) (remoteAddr src) (List.replicate n 0),
          ∃ b ∈ (getRgn t q).bankReqs, b.cls = 3 ∧ b.addr = y.1 ∧ b.act = .fetch y.2.length ∧ b.owner = .desc c.val i) ∧
        (∀ m q, remoteSpace src = .mem → carrier s c.val = some m → ∀ y ∈ pieces512 (n / 512 + 2) (remoteAddr src) n, portFor s m y.1 = some q →
          ∃ b ∈ (getMp t q).rdQ, b.op = 0 ∧ b.addr = y.1 ∧ b.len = y.2 ∧ b.owner = .desc c.val i)))

/-- An RWRITE or RREAD behind its source's read (R23, R26, R35, R281, R282, R286, R293, R294): once the staging
island has them, the bytes go to its destination, lines of
scratchpad by requests of the remote class; a claim whose value the ledger holds for its address is not performed and completes with
DUP_CLAIM, with ACQUIRE for every descriptor it held too; a claim that is performed is entered. The last write's grant or
acknowledgement completes it. That memory holds the bytes from the request on is the model's choice (log 28). -/
def Obligations.RemoteCopiesAndClaims : Prop :=
  ∀ (s : State) (c : CtxId) (i : W32) (d : Adm), copying s c.val i = some d →
    let src := copySrc d.desc
    let dst := copyDst d.desc
    let n := reLen d.desc
    let asks (t : State) (r : Nat) (bs : List Byte) := ∀ y ∈ linePieces (n + 1) (remoteAddr dst) bs,
      ∃ b ∈ (getRgn t r).bankReqs, b.cls = 3 ∧ b.addr = y.1 ∧ b.act = .write y.2 ∧ b.owner = .desc c.val i
    (∀ (q : RgnId) (b : Fin 512) (g : BankReq), regionRuns s q.val = true → (getRgn s q.val).bankReqs = [g] → bankOf g.addr = b.val →
      remoteSpace src = .spad q.val → g.act = .fetch n → g.owner = .desc c.val i → g.addr = remoteAddr src → d.copied = [] →
      scrubReq (getRgn s q.val) b.val = none →
      ∃ t bs, exec (.bankGrant q b .clean none) s = .next t ∧ bs.length = n ∧
        (g.addr + n ≤ 0x02FE0000 → (∀ k, k < n → inResidency s q.val (g.addr + k) = false) →
          bs = (List.range n).map (fun k => spadByte s q.val (g.addr + k))) ∧
        (let v : W64 := BitVec.ofNat 64 (leNat bs)
         let claim := dOpcode d.desc = 0x20 ∧ isClaim s c.val d = true
         let dup := claim ∧ dupClaim s c.val d v = true
         (dup → t.mems = s.mems ∧ t.ledger = s.ledger ∧ HasResult t c.val i (plainResult .dupClaim) ∧
           (dAcquire d.desc = true → ∀ e ∈ later (getCtx s c.val) i, e.result = none →
             ∃ res, HasResult t c.val e.ring res ∧ res.status = .dupClaim)) ∧
         (∀ r, ¬dup → remoteSpace dst = .spad r → isLive s .region r = true → t.mems = s.mems ∧ asks t r bs) ∧
         (∀ m, ¬dup → remoteSpace dst = .mem → carrier s c.val = some m → rdBytes t.mems .mem (remoteAddr dst) n = bs ∧
           ∀ sp k, (sp ≠ .mem ∨ k < remoteAddr dst ∨ remoteAddr dst + n ≤ k) → rdByte t.mems sp k = rdByte s.mems sp k) ∧
         (¬dup → dstAccess s c.val dst n = .ok → (carrier s c.val).isSome = true →
           (claim → ∃ k ∈ t.ledger, k.sp = remoteSpace dst ∧ k.addr = remoteAddr dst ∧ k.value = v ∧ k.ctx = c.val ∧ k.seq = dSeq d.desc) ∧
           (¬claim → t.ledger = s.ledger)))) ∧
    (∀ (e f : IslId) (cycles r : Nat) (x : Crossing), dOpcode d.desc = 0x21 → 3 ≤ cycles ∧ cycles ≤ 6 →
      s.xing.find? (fun y => y.src == e.val && y.dst == f.val) = some x → x.read.owner = .desc c.val i → (getMp s (e.val - 36)).held = [] →
      remoteSpace src = .mem → remoteSpace dst = .spad r → isLive s .region r = true →
      (let u := { s with xing := s.xing.erase x }
       readsOutstanding u c.val i = false ∧ writesOutstanding u c.val i = false) →
      ∃ t, exec (.crossingTransfer e f cycles) s = .next t ∧ t.mems = s.mems ∧ asks t r (rdBytes s.mems .mem (remoteAddr src) n)) ∧
    (∀ (r : RgnId) (b : Fin 512) (g : BankReq) (bs : List Byte), regionRuns s r.val = true → (getRgn s r.val).bankReqs = [g] →
      bankOf g.addr = b.val → g.act = .write bs → g.owner = .desc c.val i → (getRgn s r.val).watch = [] →
      scrubReq (getRgn s r.val) b.val = none →
      (let u := setRgn s r.val { getRgn s r.val with bankReqs := [] }
       readsOutstanding u c.val i = false ∧ writesOutstanding u c.val i = false) →
      ∃ t, exec (.bankGrant r b .clean none) s = .next t ∧ HasResult t c.val i (plainResult .ok) ∧
        (∀ k v, bs[k]? = some v → rdByte t.mems (.spad r.val) (g.addr + k) = v) ∧
        ∀ sp k, (sp ≠ .spad r.val ∨ k < g.addr ∨ g.addr + bs.length ≤ k) → rdByte t.mems sp k = rdByte s.mems sp k) ∧
    (∀ (q : PortId) (tag : BitVec 12) (prior : W64) (x : PortReq),
      (getMp s q.val).wrOut.find? (fun e => e.1 == tag.toNat) = some (tag.toNat, x) → x.op = 1 → x.owner = .desc c.val i →
      (let u := setMp s q.val { getMp s q.val with wrOut := tdrop (getMp s q.val).wrOut tag.toNat }
       readsOutstanding u c.val i = false ∧ writesOutstanding u c.val i = false) →
      ∃ t, exec (.mppRspReceive (.mem q) tag 0 prior) s = .next t ∧ HasResult t c.val i (plainResult .ok) ∧ t.mems = s.mems)

/-- The remote atomics (R23, R283, R284, R291, R302): an RATOMIC takes a journal entry of its target region, waiting while there is none;
on a word of a LIVE region's scratchpad it asks for its bank in the remote class, and with the second of its two grants the new value is
R283's, the other bytes stay, and the descriptor completes with the prior value. On memory the request goes out on a port and the
licensee performs it. -/
def Obligations.RemoteAtomicsReturnPriorValue : Prop :=
  (∀ (s : State) (c : CtxId) (i : W32) (d : Adm), ∀ p ∈ atomicCommands c i, Starts s c i 0x22 d → reOp d.desc = p.1 →
    let a := remoteAddr (reA d.desc)
    (∀ r, remoteSpace (reA d.desc) = .spad r → isLive s .region r = false →
      ∃ t, exec p.2 s = .next t ∧ HasResult t c.val i (plainResult .arraysAbsent) ∧ t.mems = s.mems) ∧
    (∀ r, dstAccess s c.val (reA d.desc) 8 = .ok → remoteRegion s c.val (reA d.desc) = some r → freeJournal (getRgn s r) = none →
      exec p.2 s = .next s) ∧
    (∀ r k, remoteSpace (reA d.desc) = .spad r → isLive s .region r = true → freeJournal (getRgn s r) = some k →
      ∃ t u, exec p.2 s = .next t ∧ t = { s with rgns := t.rgns } ∧ u ∈ (getRgn t r).bankReqs ∧ u.cls = 3 ∧ u.addr = a ∧
        u.act = .atomic p.1 (reB d.desc) (reC d.desc) false ∧ u.owner = .desc c.val i ∧ thas (getRgn t r).journal k = true) ∧
    (∀ r q k, remoteSpace (reA d.desc) = .mem → memWriteAccess s c.val a 8 = .ok → carrier s c.val = some r → portFor s r a = some q →
      freeJournal (getRgn s r) = some k →
      ∃ t u, exec p.2 s = .next t ∧ t = { s with mp := t.mp, rgns := t.rgns } ∧ (getMp t q).wrQ = (getMp s q).wrQ ++ [u] ∧ u.op = 2 ∧
        u.aop = p.1 ∧ u.addr = a ∧ u.len = 8 ∧ u.owner = .desc c.val i ∧ thas (getRgn t r).journal k = true)) ∧
  (∀ (s : State) (c : CtxId) (i : W32) (d : Adm) (r : RgnId) (b : Fin 512) (g : BankReq) (op : Nat) (x y : W64), regionRuns s r.val = true →
    (getRgn s r.val).bankReqs = [g] → bankOf g.addr = b.val → g.act = .atomic op x y true → g.owner = .desc c.val i →
    findAdm (getCtx s c.val) i = some d → d.result = none → (getRgn s r.val).watch = [] →
    let a := remoteAddr (reA d.desc)
    ∃ t w, exec (.bankGrant r b .clean none) s = .next t ∧
      AtomicValue (reOp d.desc) (rd64 s.mems (.spad r.val) a) (reB d.desc) (reC d.desc) (rd64 t.mems (.spad r.val) a) ∧
      AtomicReport (reOp d.desc) (rd64 s.mems (.spad r.val) a) w ∧ HasResult t c.val i { plainResult .ok with result := w } ∧
      (∀ sp k, (sp ≠ .spad r.val ∨ k < a ∨ a + 8 ≤ k) → rdByte t.mems sp k = rdByte s.mems sp k) ∧
      (∀ e, e ≠ c.val → getCtx t e = getCtx s e) ∧ t.units = s.units)

/-! ### Sideband and test access -/

/-- The sideband port and the TAP (R344 to R348, R366, R400): addresses and endpoint; SPDM opens a session when the finish of a
key exchange authenticates both sides, and ends it; a notification leaves the queue, and the last one ends the in-band interrupt; the
commands without a session answer 0x00 with their words; the commands inside one answer 0x05 outside it and act on nothing; each answer
echoes the command and the instance byte. That a message with another enterprise number has no answer is the model's choice (log 46).
Before TEST_UNLOCK the TAP is in BYPASS; after it an intrusive instruction is refused, with status 0b01, while a unit is
LIVE. -/
def Obligations.SidebandAndTapAnswer : Prop :=
  (∀ (s : State) (a : BitVec 7) (e : BitVec 8) (q : SpdmReq) (h : SbdHead) (sec : TlmSection) (n : Fin 512) (c : CtxId) (r : RgnId)
      (f : Fin 1024) (w : W64), sidebandAnswers s = true →
      exec (.entdaa a) s = .next { s with sbd := { s.sbd with dynAddr := a } } ∧
      (s.cfg.staticAddr ≠ 0 → exec (.setdasa a) s = .next { s with sbd := { s.sbd with dynAddr := a } }) ∧
      (s.cfg.staticAddr = 0 → exec (.setdasa a) s = .next s) ∧
      exec (.setEndpointId e) s = .next { s with sbd := { s.sbd with eid := e } } ∧
      (∃ t, exec (.spdmRequest q) s = .next t ∧ t = { s with sbd := { s.sbd with session := t.sbd.session, kex := t.sbd.kex, resp := t.sbd.resp } } ∧
        t.sbd.session = (if q = .finishMutual true ∧ s.sbd.kex = true then true else if q = .endSession then false else s.sbd.session) ∧
        t.sbd.kex = (if q = .keyExchange then true else if q = .finishMutual true ∨ q = .finishMutual false then false else s.sbd.kex)) ∧
      (∀ x o rest, s.sbd.queue = (x, o) :: rest → exec .faultNotifyRead s = .next { s with sbd := { s.sbd with
        queue := rest, resp := .notify x o, ibi := if rest = [] then none else s.sbd.ibi } }) ∧
      (s.sbd.queue = [] → exec .faultNotifyRead s = .next s) ∧
      (h.pen ≠ sbdPen → ∀ i ∈ [Instr.getTelemetry sec h, .readFaultLog n [] h, .readAccount c h, .readJournal r f h, .readFuseView h,
          .unitRequest (w.setWidth 32) h, .warmReset h, .maintRequest (w.setWidth 32) h, .ownership true h, .ownership false h, .setPowerCap w h,
          .testUnlock h], exec i s = .next s) ∧
      (h.pen = sbdPen →
        exec (.getTelemetry sec h) s = .next (sbdDone s 0x01 h 0x00 (telemetryOf s sec)) ∧
        (∀ bad : List (Fin 512), exec (.readFaultLog n bad h) s = .next (sbdDone (flogCheck s (bad.map (·.val))) 0x02 h 0x00
          (flogFrom (flogCheck s (bad.map (·.val))) n.val))) ∧
        (s.mnt.mainDown = true → exec (.readAccount c h) s = .next (sbdDone s 0x03 h 0x04)) ∧
        (s.mnt.mainDown = false → exec (.readAccount c h) s = .next (sbdDone (wake s) 0x03 h 0x00 (wordsOf (acctBytes (getAcct s c.val))))) ∧
        (r.val < s.cfg.regions → exec (.readJournal r f h) s = .next (sbdDone (wake s) 0x04 h 0x00 (journalFrom (getRgn s r.val) f.val))) ∧
        (s.cfg.regions ≤ r.val → exec (.readJournal r f h) s = .next (sbdDone s 0x04 h 0x03)) ∧
        exec (.readFuseView h) s = .next (sbdDone s 0x05 h 0x00 [BitVec.ofNat 64 (fuseWord s)]) ∧
        (s.sbd.session = false → ∀ i ∈ [((0x10 : Byte), Instr.unitRequest (w.setWidth 32) h), (0x11, .warmReset h), (0x12, .maintRequest (w.setWidth 32) h),
            (0x13, .ownership true h), (0x13, .ownership false h), (0x14, .setPowerCap w h), (0x15, .testUnlock h)],
          exec i.2 s = .next (sbdDone s i.1 h 0x05)) ∧
        (s.sbd.session = true →
          (∃ t, exec (.setPowerCap w h) s = .next t ∧ t = { s with pwr := t.pwr, sbd := t.sbd } ∧ t.sbd.resp = .done 0x14 h.inst 0x00 [] ∧
            t.pwr.cfg.capW.toNat = (if 1 ≤ w.toNat % 1024 ∧ w.toNat % 1024 ≤ 99 then s.pwr.cfg.capW.toNat else w.toNat % 1024)) ∧
          exec (.testUnlock h) s = .next (sbdDone { s with tap := { s.tap with unlocked := true } } 0x15 h 0x00) ∧
          (s.mnt.holder = 2 → ∀ u : W32, let m := u.toNat
            (m / 64 % 4 = 3 → exec (.unitRequest u h) s = .next (sbdDone s 0x10 h 0x03)) ∧
            (m / 64 % 4 ≠ 3 → s.boot.ready = false → exec (.unitRequest u h) s =
              .next (sbdDone { s with boot := { s.boot with heldSide := s.boot.heldSide ++ [(false, u)] } } 0x10 h 0x01)) ∧
            (m / 64 % 4 ≠ 3 → s.boot.ready = true → exec (.unitRequest u h) s = .next (sbdDone (unitWord (wake s) .mgmt m) 0x10 h 0x00)) ∧
            (m % 8 = 7 → exec (.maintRequest u h) s = .next (sbdDone s 0x12 h 0x03)) ∧
            (m % 8 ≠ 7 → s.boot.ready = true → exec (.maintRequest u h) s =
              .next (sbdDone (maintWord s .mgmt m).1 0x12 h (if (maintWord s .mgmt m).2 then 0x01 else 0x00))))))) ∧
  (∀ (s : State) (ins : TapIns) (code : Nat), tapWorks s = true →
      (∃ t, exec .idcode s = .next t ∧ t = { s with tap := { s.tap with out := t.tap.out } } ∧ t.tap.out.toNat / 2 ^ 28 = 1 ∧
        t.tap.out.toNat / 2 ^ 12 % 2 ^ 16 = 0x0F01 ∧ t.tap.out.toNat % 2 = 1) ∧
      (∃ t, exec (.tapInstruction ins) s = .next t ∧ t = { s with tap := t.tap } ∧ t.tap.unlocked = s.tap.unlocked ∧
        (s.tap.unlocked = false → t.tap.ir = .bypass ∧ t.tap.status = s.tap.status) ∧
        (s.tap.unlocked = true → (ins = .isolate code ∨ ins = .drive code) →
          (anyLive s = true → t.tap.status = 1 ∧ t.tap.ir = s.tap.ir) ∧ (anyLive s = false → t.tap.status = 0 ∧ t.tap.ir = ins)) ∧
        (s.tap.unlocked = true → (ins = .bypass ∨ ins = .network code) → t.tap.ir = ins)))

/-! ### Numbers -/

/-- Codes and numbers (R10, R62, R64, R82, R106): in every element format a code that is no NaN is the encoding of the value it has, and
a conversion to nearest of a finite value gives its code back with no flag; FP32 saturation leaves every finite FP32 value; bytes of a
little-endian number read back as the number. -/
def Obligations.ElementCodesRoundTrip : Prop :=
  (∀ (f : Fmt) (code : Nat), code < 2 ^ fmtBits f → decodeElem f code ≠ .nan → encodeExact f (decodeElem f code) = code) ∧
  (∀ (f : Fmt) (code : Nat), code < 2 ^ fmtBits f → numIsFinite (decodeElem f code) = true →
    convert f .nearest false 0 (decodeElem f code) = { code := code, flags := 0 }) ∧
  (∀ w : W32, numIsFinite (fp32Of w) = true → (fp32Sat (fp32Of w)).2 = false) ∧
  (∀ (ms : Mems) (sp : Space) (a n v : Nat), v < 2 ^ (8 * n) → rdLe (wrLe ms sp a n v) sp a n = v)
end

