-- ==== Sys2Proof/Laws/Memory.lean ====
section
/-!
SUPPORT. Laws of memory: a byte written reads back, every other byte is left alone, and every operation keeps the
canonical form.
-/

namespace Sys2Proof.Machine

/-! ### Reading what was written -/

theorem rdCell_filter_ne (m : List Host.Cell) (a x : Nat) (h : x ≠ a) :
    rdCell (m.filter (fun e => e.1 != a)) x = rdCell m x := by
  induction m with
  | nil => rfl
  | cons e t ih =>
    obtain ⟨k, v⟩ := e
    by_cases hk : k = a
    · subst hk
      have : k ≠ x := fun h' => h h'.symm
      simp [rdCell, ih, this]
    · simp [rdCell, hk, ih]

theorem rdCell_filter_self (m : List Host.Cell) (a : Nat) : rdCell (m.filter (fun e => e.1 != a)) a = 0 := by
  induction m with
  | nil => rfl
  | cons e t ih =>
    obtain ⟨k, v⟩ := e
    by_cases hk : k = a
    · subst hk; simp [ih]
    · simp [rdCell, hk, ih]

theorem rdCell_putCell (m : List Host.Cell) (a x : Nat) (b : Byte) :
    rdCell (putCell m a b) x = if x = a then b else rdCell m x := by
  induction m with
  | nil =>
    by_cases h : x = a
    · simp [putCell, rdCell, h]
    · simp [putCell, rdCell, h, Ne.symm h]
  | cons e t ih =>
    obtain ⟨k, v⟩ := e
    simp only [putCell]
    split
    · by_cases h : x = a
      · simp [rdCell, h]
      · simp [rdCell, h, Ne.symm h]
    · split
      · rename_i h1 h2
        subst h2
        by_cases h : x = k
        · simp [rdCell, h]
        · simp [rdCell, h, Ne.symm h]
      · rename_i h1 h2
        simp only [rdCell, ih]
        by_cases h : k = x
        · subst h; simp [h2]
        · simp [h]

/-- One byte written: it reads back, and every other byte is as before. -/
theorem rdCell_wrCell (m : List Host.Cell) (a x : Nat) (b : Byte) :
    rdCell (wrCell m a b) x = if x = a then b else rdCell m x := by
  unfold wrCell
  by_cases hb : b = 0
  · by_cases h : x = a
    · subst h; simp [hb, rdCell_filter_self]
    · simp [hb, h, rdCell_filter_ne m a x h]
  · rw [if_neg hb, rdCell_putCell]

/-- Bytes written from `a` upward read back, and every byte outside them is as before. -/
theorem rdCell_wrCells (bs : List Byte) : ∀ (m : List Host.Cell) (a x : Nat),
    rdCell (wrCells m a bs) x = if a ≤ x ∧ x < a + bs.length then bs.getD (x - a) 0 else rdCell m x := by
  induction bs with
  | nil => intro m a x; simp [wrCells]
  | cons b bs ih =>
    intro m a x
    simp only [wrCells, ih, rdCell_wrCell, List.length_cons]
    by_cases h1 : a + 1 ≤ x ∧ x < a + 1 + bs.length
    · have h2 : a ≤ x ∧ x < a + (bs.length + 1) := by omega
      have h3 : x - a = (x - (a + 1)) + 1 := by omega
      rw [if_pos h1, if_pos h2, h3, List.getD_cons_succ]
    · rw [if_neg h1]
      by_cases h4 : x = a
      · subst h4
        rw [if_pos rfl, if_pos (by omega)]
        simp
      · rw [if_neg h4, if_neg (by omega)]

theorem rdCell_wrCells_outside (m : List Host.Cell) (a x : Nat) (bs : List Byte) (h : x < a ∨ a + bs.length ≤ x) :
    rdCell (wrCells m a bs) x = rdCell m x := by
  rw [rdCell_wrCells, if_neg (by omega)]

/-! ### Tables -/

theorem tget_tdrop {α : Type} (d : α) (t : Tbl α) (k n : Nat) :
    tget d (tdrop t k) n = if n = k then d else tget d t n := by
  unfold tdrop
  induction t with
  | nil => simp [tget]
  | cons e t ih =>
    obtain ⟨j, v⟩ := e
    by_cases hj : j = k
    · subst hj
      simp only [List.filter_cons, bne_self_eq_false, Bool.false_eq_true, if_false, ih]
      by_cases h : n = j
      · simp [h]
      · simp [tget, h, Ne.symm h]
    · have : (j != k) = true := by simp [hj]
      simp only [List.filter_cons, this, if_true, tget, ih]
      by_cases h : j = n
      · subst h; simp [hj]
      · simp [h]

theorem tget_tset {α : Type} (d : α) (t : Tbl α) (k n : Nat) (v : α) :
    tget d (tset t k v) n = if n = k then v else tget d t n := by
  induction t with
  | nil =>
    by_cases h : n = k
    · simp [tset, tget, h]
    · simp [tset, tget, h, Ne.symm h]
  | cons e t ih =>
    obtain ⟨j, w⟩ := e
    simp only [tset]
    split
    · by_cases h : n = k
      · simp [tget, h]
      · simp [tget, h, Ne.symm h]
    · split
      · rename_i h1 h2
        subst h2
        by_cases h : n = j
        · simp [tget, h]
        · simp [tget, h, Ne.symm h]
      · rename_i h1 h2
        simp only [tget, ih]
        by_cases h : j = n
        · subst h; simp [h2]
        · simp [h]

@[simp] theorem tget_tset_self {α : Type} (d : α) (t : Tbl α) (k : Nat) (v : α) : tget d (tset t k v) k = v := by
  simp [tget_tset]

theorem tget_tset_ne {α : Type} (d : α) (t : Tbl α) (k n : Nat) (v : α) (h : n ≠ k) :
    tget d (tset t k v) n = tget d t n := by
  simp [tget_tset, h]

/-! ### Spaces -/

theorem cellsOf_wrBytes (ms : Mems) (sp sp' : Space) (a : Nat) (bs : List Byte) :
    cellsOf (wrBytes ms sp a bs) sp' = if sp' = sp then wrCells (cellsOf ms sp) a bs else cellsOf ms sp' := by
  cases sp with
  | mem => cases sp' <;> simp [wrBytes, cellsOf]
  | spad r =>
    cases sp' with
    | mem => simp [wrBytes, cellsOf]
    | spad q =>
      simp only [wrBytes, cellsOf, setCells]
      split
      · rename_i h
        simp only [List.isEmpty_iff] at h
        by_cases hq : q = r
        · simp [hq, tget_tdrop, h]
        · simp [hq, tget_tdrop]
      · by_cases hq : q = r
        · simp [hq]
        · simp [hq, tget_tset]

/-- A write reads back where it went, and leaves every other byte of every space alone. -/
theorem rdByte_wrBytes (ms : Mems) (sp sp' : Space) (a x : Nat) (bs : List Byte) :
    rdByte (wrBytes ms sp a bs) sp' x =
      if sp' = sp ∧ a ≤ x ∧ x < a + bs.length then bs.getD (x - a) 0 else rdByte ms sp' x := by
  unfold rdByte
  rw [cellsOf_wrBytes]
  by_cases h : sp' = sp
  · subst h
    simp [rdCell_wrCells]
  · simp [h]

theorem rdByte_wrBytes_outside (ms : Mems) (sp sp' : Space) (a x : Nat) (bs : List Byte)
    (h : sp' ≠ sp ∨ x < a ∨ a + bs.length ≤ x) : rdByte (wrBytes ms sp a bs) sp' x = rdByte ms sp' x := by
  rw [rdByte_wrBytes, if_neg]
  rintro ⟨h1, h2, h3⟩
  rcases h with h | h | h
  · exact h h1
  · omega
  · omega

/-! ### The canonical form -/

theorem memory_wf_filter (m : List Host.Cell) (p : Host.Cell → Bool) (h : Memory.wf m = true) :
    Memory.wf (m.filter p) = true := by
  induction m with
  | nil => rfl
  | cons e t ih =>
    obtain ⟨a, b⟩ := e
    simp only [Memory.wf, Bool.and_eq_true, List.all_eq_true] at h
    by_cases hp : p (a, b) = true
    · simp only [List.filter_cons, hp, if_true, Memory.wf, Bool.and_eq_true, List.all_eq_true]
      exact ⟨⟨h.1.1, fun e he => h.1.2 e (List.mem_filter.mp he).1⟩, ih h.2⟩
    · simp only [List.filter_cons, hp]
      exact ih h.2

theorem mem_putCell (m : List Host.Cell) (a : Nat) (b : Byte) (e : Host.Cell) (h : e ∈ putCell m a b) :
    e = (a, b) ∨ e ∈ m := by
  induction m with
  | nil => simpa [putCell] using h
  | cons x t ih =>
    obtain ⟨k, v⟩ := x
    simp only [putCell] at h
    split at h
    · simpa using h
    · split at h
      · simp only [List.mem_cons] at h ⊢
        tauto
      · simp only [List.mem_cons] at h ⊢
        rcases h with h | h
        · exact .inr (.inl h)
        · rcases ih h with h | h
          · exact .inl h
          · exact .inr (.inr h)

theorem memory_wf_putCell (m : List Host.Cell) (a : Nat) (b : Byte) (hb : b ≠ 0) (h : Memory.wf m = true) :
    Memory.wf (putCell m a b) = true := by
  induction m with
  | nil => simpa [putCell, Memory.wf] using hb
  | cons e t ih =>
    obtain ⟨k, v⟩ := e
    have h0 := h
    simp only [Memory.wf, Bool.and_eq_true, List.all_eq_true, decide_eq_true_eq] at h
    simp only [putCell]
    split
    · rename_i hlt
      simp only [Memory.wf, Bool.and_eq_true, List.all_eq_true, decide_eq_true_eq, List.mem_cons]
      refine ⟨⟨by simpa using hb, ?_⟩, h⟩
      rintro e (rfl | he)
      · exact hlt
      · exact lt_trans hlt (h.1.2 e he)
    · split
      · rename_i h1 h2
        subst h2
        simp only [Memory.wf, Bool.and_eq_true, List.all_eq_true, decide_eq_true_eq]
        exact ⟨⟨by simpa using hb, h.1.2⟩, h.2⟩
      · rename_i h1 h2
        simp only [Memory.wf, Bool.and_eq_true, List.all_eq_true, decide_eq_true_eq]
        refine ⟨⟨h.1.1, fun e he => ?_⟩, ih h.2⟩
        rcases mem_putCell t a b e he with rfl | he
        · show k < a
          omega
        · exact h.1.2 e he

theorem memory_wf_wrCell (m : List Host.Cell) (a : Nat) (b : Byte) (h : Memory.wf m = true) :
    Memory.wf (wrCell m a b) = true := by
  unfold wrCell
  split
  · exact memory_wf_filter m _ h
  · exact memory_wf_putCell m a b ‹_› h

theorem memory_wf_wrCells (bs : List Byte) : ∀ (m : List Host.Cell) (a : Nat), Memory.wf m = true →
    Memory.wf (wrCells m a bs) = true := by
  induction bs with
  | nil => intro m a h; exact h
  | cons b bs ih => intro m a h; exact ih _ _ (memory_wf_wrCell m a b h)

theorem spadWf_filter (t : Tbl (List Host.Cell)) (p : Nat × List Host.Cell → Bool) (h : spadWf t = true) :
    spadWf (t.filter p) = true := by
  induction t with
  | nil => rfl
  | cons e t ih =>
    obtain ⟨r, m⟩ := e
    simp only [spadWf, Bool.and_eq_true, List.all_eq_true] at h
    by_cases hp : p (r, m) = true
    · simp only [List.filter_cons, hp, if_true, spadWf, Bool.and_eq_true, List.all_eq_true]
      exact ⟨⟨h.1.1, fun e he => h.1.2 e (List.mem_filter.mp he).1⟩, ih h.2⟩
    · simp only [List.filter_cons, hp]
      exact ih h.2

theorem mem_tset {α : Type} (t : Tbl α) (k : Nat) (v : α) (e : Nat × α) (h : e ∈ tset t k v) : e = (k, v) ∨ e ∈ t := by
  induction t with
  | nil => simpa [tset] using h
  | cons x t ih =>
    obtain ⟨j, w⟩ := x
    simp only [tset] at h
    split at h
    · simpa using h
    · split at h
      · simp only [List.mem_cons] at h ⊢
        tauto
      · simp only [List.mem_cons] at h ⊢
        rcases h with h | h
        · exact .inr (.inl h)
        · rcases ih h with h | h
          · exact .inl h
          · exact .inr (.inr h)

theorem spadWf_tset (t : Tbl (List Host.Cell)) (r : Nat) (m : List Host.Cell) (hm : Memory.wf m = true)
    (hn : m.isEmpty = false) (h : spadWf t = true) : spadWf (tset t r m) = true := by
  induction t with
  | nil => simp [tset, spadWf, hm, hn]
  | cons e t ih =>
    obtain ⟨k, v⟩ := e
    simp only [spadWf, Bool.and_eq_true, List.all_eq_true, decide_eq_true_eq] at h
    simp only [tset]
    split
    · rename_i hlt
      simp only [spadWf, Bool.and_eq_true, List.all_eq_true, decide_eq_true_eq, List.mem_cons]
      refine ⟨⟨⟨by simpa using hn, hm⟩, ?_⟩, h⟩
      rintro e (rfl | he)
      · exact hlt
      · exact lt_trans hlt (h.1.2 e he)
    · split
      · rename_i h1 h2
        subst h2
        simp only [spadWf, Bool.and_eq_true, List.all_eq_true, decide_eq_true_eq]
        exact ⟨⟨⟨by simpa using hn, hm⟩, h.1.2⟩, h.2⟩
      · rename_i h1 h2
        simp only [spadWf, Bool.and_eq_true, List.all_eq_true, decide_eq_true_eq]
        refine ⟨⟨h.1.1, fun e he => ?_⟩, ih h.2⟩
        rcases mem_tset t r m e he with rfl | he
        · show k < r
          omega
        · exact h.1.2 e he

theorem memory_wf_spad (t : Tbl (List Host.Cell)) (r : Nat) (h : spadWf t = true) : Memory.wf (tget [] t r) = true := by
  induction t with
  | nil => rfl
  | cons e t ih =>
    obtain ⟨k, v⟩ := e
    simp only [spadWf, Bool.and_eq_true] at h
    simp only [tget]
    split
    · exact h.1.1.2
    · exact ih h.2

theorem spadWf_setCells (t : Tbl (List Host.Cell)) (r : Nat) (m : List Host.Cell) (hm : Memory.wf m = true)
    (h : spadWf t = true) : spadWf (setCells t r m) = true := by
  unfold setCells
  split
  · exact spadWf_filter t _ h
  · exact spadWf_tset t r m hm (by simp_all) h

/-- Every write keeps the canonical form. -/
theorem mems_wf_wrBytes (ms : Mems) (sp : Space) (a : Nat) (bs : List Byte) (h : ms.wf = true) :
    (wrBytes ms sp a bs).wf = true := by
  simp only [Mems.wf, Bool.and_eq_true] at h ⊢
  cases sp with
  | mem => exact ⟨memory_wf_wrCells bs _ a h.1, h.2⟩
  | spad r => exact ⟨h.1, spadWf_setCells _ r _ (memory_wf_wrCells bs _ a (memory_wf_spad _ r h.2)) h.2⟩

theorem mems_wf_wrLe (ms : Mems) (sp : Space) (a n v : Nat) (h : ms.wf = true) : (wrLe ms sp a n v).wf = true :=
  mems_wf_wrBytes ms sp a _ h

theorem mems_wf_applyWrites (ws : List MemWrite) : ∀ ms : Mems, ms.wf = true → (applyWrites ms ws).wf = true := by
  unfold applyWrites
  induction ws with
  | nil => intro ms h; exact h
  | cons w ws ih => intro ms h; exact ih _ (mems_wf_wrBytes ms _ _ _ h)

theorem mems_wf_dropSpad (ms : Mems) (r : Nat) (h : ms.wf = true) : ({ ms with spad := tdrop ms.spad r } : Mems).wf = true := by
  simp only [Mems.wf, Bool.and_eq_true] at h ⊢
  exact ⟨h.1, spadWf_filter _ _ h.2⟩

theorem mems_wf_noSpad (ms : Mems) (h : ms.wf = true) : ({ ms with spad := [] } : Mems).wf = true := by
  simp only [Mems.wf, Bool.and_eq_true] at h ⊢
  exact ⟨h.1, rfl⟩

end Sys2Proof.Machine
end

