-- ==== Sys2Proof/Laws/State.lean ====
section
/-!
SUPPORT. What each update of the state changes, one lemma per field and update, and the parts it leaves alone.
-/

namespace Sys2Proof.Machine

/-! `setArr` -/

@[simp] theorem setArr_cfg (s : State) (a : Nat) (x : ArrayS) : (setArr s a x).cfg = s.cfg := rfl
@[simp] theorem setArr_boot (s : State) (a : Nat) (x : ArrayS) : (setArr s a x).boot = s.boot := rfl
@[simp] theorem setArr_time (s : State) (a : Nat) (x : ArrayS) : (setArr s a x).time = s.time := rfl
@[simp] theorem setArr_mems (s : State) (a : Nat) (x : ArrayS) : (setArr s a x).mems = s.mems := rfl
@[simp] theorem setArr_env (s : State) (a : Nat) (x : ArrayS) : (setArr s a x).env = s.env := rfl
@[simp] theorem setArr_regs (s : State) (a : Nat) (x : ArrayS) : (setArr s a x).regs = s.regs := rfl
@[simp] theorem setArr_pwr (s : State) (a : Nat) (x : ArrayS) : (setArr s a x).pwr = s.pwr := rfl
@[simp] theorem setArr_mnt (s : State) (a : Nat) (x : ArrayS) : (setArr s a x).mnt = s.mnt := rfl
@[simp] theorem setArr_units (s : State) (a : Nat) (x : ArrayS) : (setArr s a x).units = s.units := rfl
@[simp] theorem setArr_isl (s : State) (a : Nat) (x : ArrayS) : (setArr s a x).isl = s.isl := rfl
@[simp] theorem setArr_mp (s : State) (a : Nat) (x : ArrayS) : (setArr s a x).mp = s.mp := rfl
@[simp] theorem setArr_hp (s : State) (a : Nat) (x : ArrayS) : (setArr s a x).hp = s.hp := rfl
@[simp] theorem setArr_xing (s : State) (a : Nat) (x : ArrayS) : (setArr s a x).xing = s.xing := rfl
@[simp] theorem setArr_xingOut (s : State) (a : Nat) (x : ArrayS) : (setArr s a x).xingOut = s.xingOut := rfl
@[simp] theorem setArr_flog (s : State) (a : Nat) (x : ArrayS) : (setArr s a x).flog = s.flog := rfl
@[simp] theorem setArr_sbd (s : State) (a : Nat) (x : ArrayS) : (setArr s a x).sbd = s.sbd := rfl
@[simp] theorem setArr_tap (s : State) (a : Nat) (x : ArrayS) : (setArr s a x).tap = s.tap := rfl
@[simp] theorem setArr_tlm (s : State) (a : Nat) (x : ArrayS) : (setArr s a x).tlm = s.tlm := rfl
@[simp] theorem setArr_ledger (s : State) (a : Nat) (x : ArrayS) : (setArr s a x).ledger = s.ledger := rfl
@[simp] theorem setArr_gambit (s : State) (a : Nat) (x : ArrayS) : (setArr s a x).gambit = s.gambit := rfl
@[simp] theorem setArr_ctxs (s : State) (a : Nat) (x : ArrayS) : (setArr s a x).ctxs = s.ctxs := rfl
@[simp] theorem setArr_rgns (s : State) (a : Nat) (x : ArrayS) : (setArr s a x).rgns = s.rgns := rfl
@[simp] theorem setArr_dwrr (s : State) (a : Nat) (x : ArrayS) : (setArr s a x).dwrr = s.dwrr := rfl
@[simp] theorem setArr_freeCnt (s : State) (a : Nat) (x : ArrayS) : (setArr s a x).freeCnt = s.freeCnt := rfl
@[simp] theorem setArr_pending (s : State) (a : Nat) (x : ArrayS) : (setArr s a x).pending = s.pending := rfl

/-! `setRgn` -/

@[simp] theorem setRgn_cfg (s : State) (r : Nat) (x : Region) : (setRgn s r x).cfg = s.cfg := rfl
@[simp] theorem setRgn_boot (s : State) (r : Nat) (x : Region) : (setRgn s r x).boot = s.boot := rfl
@[simp] theorem setRgn_time (s : State) (r : Nat) (x : Region) : (setRgn s r x).time = s.time := rfl
@[simp] theorem setRgn_mems (s : State) (r : Nat) (x : Region) : (setRgn s r x).mems = s.mems := rfl
@[simp] theorem setRgn_env (s : State) (r : Nat) (x : Region) : (setRgn s r x).env = s.env := rfl
@[simp] theorem setRgn_regs (s : State) (r : Nat) (x : Region) : (setRgn s r x).regs = s.regs := rfl
@[simp] theorem setRgn_pwr (s : State) (r : Nat) (x : Region) : (setRgn s r x).pwr = s.pwr := rfl
@[simp] theorem setRgn_mnt (s : State) (r : Nat) (x : Region) : (setRgn s r x).mnt = s.mnt := rfl
@[simp] theorem setRgn_units (s : State) (r : Nat) (x : Region) : (setRgn s r x).units = s.units := rfl
@[simp] theorem setRgn_isl (s : State) (r : Nat) (x : Region) : (setRgn s r x).isl = s.isl := rfl
@[simp] theorem setRgn_mp (s : State) (r : Nat) (x : Region) : (setRgn s r x).mp = s.mp := rfl
@[simp] theorem setRgn_hp (s : State) (r : Nat) (x : Region) : (setRgn s r x).hp = s.hp := rfl
@[simp] theorem setRgn_xing (s : State) (r : Nat) (x : Region) : (setRgn s r x).xing = s.xing := rfl
@[simp] theorem setRgn_xingOut (s : State) (r : Nat) (x : Region) : (setRgn s r x).xingOut = s.xingOut := rfl
@[simp] theorem setRgn_flog (s : State) (r : Nat) (x : Region) : (setRgn s r x).flog = s.flog := rfl
@[simp] theorem setRgn_sbd (s : State) (r : Nat) (x : Region) : (setRgn s r x).sbd = s.sbd := rfl
@[simp] theorem setRgn_tap (s : State) (r : Nat) (x : Region) : (setRgn s r x).tap = s.tap := rfl
@[simp] theorem setRgn_tlm (s : State) (r : Nat) (x : Region) : (setRgn s r x).tlm = s.tlm := rfl
@[simp] theorem setRgn_ledger (s : State) (r : Nat) (x : Region) : (setRgn s r x).ledger = s.ledger := rfl
@[simp] theorem setRgn_gambit (s : State) (r : Nat) (x : Region) : (setRgn s r x).gambit = s.gambit := rfl
@[simp] theorem setRgn_ctxs (s : State) (r : Nat) (x : Region) : (setRgn s r x).ctxs = s.ctxs := rfl
@[simp] theorem setRgn_arrs (s : State) (r : Nat) (x : Region) : (setRgn s r x).arrs = s.arrs := rfl
@[simp] theorem setRgn_dwrr (s : State) (r : Nat) (x : Region) : (setRgn s r x).dwrr = s.dwrr := rfl
@[simp] theorem setRgn_freeCnt (s : State) (r : Nat) (x : Region) : (setRgn s r x).freeCnt = s.freeCnt := rfl
@[simp] theorem setRgn_pending (s : State) (r : Nat) (x : Region) : (setRgn s r x).pending = s.pending := rfl

/-! `setCtx` -/

@[simp] theorem setCtx_cfg (s : State) (c : Nat) (x : Context) : (setCtx s c x).cfg = s.cfg := rfl
@[simp] theorem setCtx_boot (s : State) (c : Nat) (x : Context) : (setCtx s c x).boot = s.boot := rfl
@[simp] theorem setCtx_time (s : State) (c : Nat) (x : Context) : (setCtx s c x).time = s.time := rfl
@[simp] theorem setCtx_mems (s : State) (c : Nat) (x : Context) : (setCtx s c x).mems = s.mems := rfl
@[simp] theorem setCtx_env (s : State) (c : Nat) (x : Context) : (setCtx s c x).env = s.env := rfl
@[simp] theorem setCtx_regs (s : State) (c : Nat) (x : Context) : (setCtx s c x).regs = s.regs := rfl
@[simp] theorem setCtx_pwr (s : State) (c : Nat) (x : Context) : (setCtx s c x).pwr = s.pwr := rfl
@[simp] theorem setCtx_mnt (s : State) (c : Nat) (x : Context) : (setCtx s c x).mnt = s.mnt := rfl
@[simp] theorem setCtx_units (s : State) (c : Nat) (x : Context) : (setCtx s c x).units = s.units := rfl
@[simp] theorem setCtx_isl (s : State) (c : Nat) (x : Context) : (setCtx s c x).isl = s.isl := rfl
@[simp] theorem setCtx_mp (s : State) (c : Nat) (x : Context) : (setCtx s c x).mp = s.mp := rfl
@[simp] theorem setCtx_hp (s : State) (c : Nat) (x : Context) : (setCtx s c x).hp = s.hp := rfl
@[simp] theorem setCtx_xing (s : State) (c : Nat) (x : Context) : (setCtx s c x).xing = s.xing := rfl
@[simp] theorem setCtx_xingOut (s : State) (c : Nat) (x : Context) : (setCtx s c x).xingOut = s.xingOut := rfl
@[simp] theorem setCtx_flog (s : State) (c : Nat) (x : Context) : (setCtx s c x).flog = s.flog := rfl
@[simp] theorem setCtx_sbd (s : State) (c : Nat) (x : Context) : (setCtx s c x).sbd = s.sbd := rfl
@[simp] theorem setCtx_tap (s : State) (c : Nat) (x : Context) : (setCtx s c x).tap = s.tap := rfl
@[simp] theorem setCtx_tlm (s : State) (c : Nat) (x : Context) : (setCtx s c x).tlm = s.tlm := rfl
@[simp] theorem setCtx_ledger (s : State) (c : Nat) (x : Context) : (setCtx s c x).ledger = s.ledger := rfl
@[simp] theorem setCtx_gambit (s : State) (c : Nat) (x : Context) : (setCtx s c x).gambit = s.gambit := rfl
@[simp] theorem setCtx_rgns (s : State) (c : Nat) (x : Context) : (setCtx s c x).rgns = s.rgns := rfl
@[simp] theorem setCtx_arrs (s : State) (c : Nat) (x : Context) : (setCtx s c x).arrs = s.arrs := rfl
@[simp] theorem setCtx_dwrr (s : State) (c : Nat) (x : Context) : (setCtx s c x).dwrr = s.dwrr := rfl
@[simp] theorem setCtx_freeCnt (s : State) (c : Nat) (x : Context) : (setCtx s c x).freeCnt = s.freeCnt := rfl
@[simp] theorem setCtx_pending (s : State) (c : Nat) (x : Context) : (setCtx s c x).pending = s.pending := rfl

/-! `setMp` -/

@[simp] theorem setMp_cfg (s : State) (q : Nat) (x : MemPort) : (setMp s q x).cfg = s.cfg := rfl
@[simp] theorem setMp_boot (s : State) (q : Nat) (x : MemPort) : (setMp s q x).boot = s.boot := rfl
@[simp] theorem setMp_time (s : State) (q : Nat) (x : MemPort) : (setMp s q x).time = s.time := rfl
@[simp] theorem setMp_mems (s : State) (q : Nat) (x : MemPort) : (setMp s q x).mems = s.mems := rfl
@[simp] theorem setMp_env (s : State) (q : Nat) (x : MemPort) : (setMp s q x).env = s.env := rfl
@[simp] theorem setMp_regs (s : State) (q : Nat) (x : MemPort) : (setMp s q x).regs = s.regs := rfl
@[simp] theorem setMp_pwr (s : State) (q : Nat) (x : MemPort) : (setMp s q x).pwr = s.pwr := rfl
@[simp] theorem setMp_mnt (s : State) (q : Nat) (x : MemPort) : (setMp s q x).mnt = s.mnt := rfl
@[simp] theorem setMp_units (s : State) (q : Nat) (x : MemPort) : (setMp s q x).units = s.units := rfl
@[simp] theorem setMp_isl (s : State) (q : Nat) (x : MemPort) : (setMp s q x).isl = s.isl := rfl
@[simp] theorem setMp_hp (s : State) (q : Nat) (x : MemPort) : (setMp s q x).hp = s.hp := rfl
@[simp] theorem setMp_xing (s : State) (q : Nat) (x : MemPort) : (setMp s q x).xing = s.xing := rfl
@[simp] theorem setMp_xingOut (s : State) (q : Nat) (x : MemPort) : (setMp s q x).xingOut = s.xingOut := rfl
@[simp] theorem setMp_flog (s : State) (q : Nat) (x : MemPort) : (setMp s q x).flog = s.flog := rfl
@[simp] theorem setMp_sbd (s : State) (q : Nat) (x : MemPort) : (setMp s q x).sbd = s.sbd := rfl
@[simp] theorem setMp_tap (s : State) (q : Nat) (x : MemPort) : (setMp s q x).tap = s.tap := rfl
@[simp] theorem setMp_tlm (s : State) (q : Nat) (x : MemPort) : (setMp s q x).tlm = s.tlm := rfl
@[simp] theorem setMp_ledger (s : State) (q : Nat) (x : MemPort) : (setMp s q x).ledger = s.ledger := rfl
@[simp] theorem setMp_gambit (s : State) (q : Nat) (x : MemPort) : (setMp s q x).gambit = s.gambit := rfl
@[simp] theorem setMp_ctxs (s : State) (q : Nat) (x : MemPort) : (setMp s q x).ctxs = s.ctxs := rfl
@[simp] theorem setMp_rgns (s : State) (q : Nat) (x : MemPort) : (setMp s q x).rgns = s.rgns := rfl
@[simp] theorem setMp_arrs (s : State) (q : Nat) (x : MemPort) : (setMp s q x).arrs = s.arrs := rfl
@[simp] theorem setMp_dwrr (s : State) (q : Nat) (x : MemPort) : (setMp s q x).dwrr = s.dwrr := rfl
@[simp] theorem setMp_freeCnt (s : State) (q : Nat) (x : MemPort) : (setMp s q x).freeCnt = s.freeCnt := rfl
@[simp] theorem setMp_pending (s : State) (q : Nat) (x : MemPort) : (setMp s q x).pending = s.pending := rfl

/-! `setHp` -/

@[simp] theorem setHp_cfg (s : State) (p : Nat) (x : HostPort) : (setHp s p x).cfg = s.cfg := rfl
@[simp] theorem setHp_boot (s : State) (p : Nat) (x : HostPort) : (setHp s p x).boot = s.boot := rfl
@[simp] theorem setHp_time (s : State) (p : Nat) (x : HostPort) : (setHp s p x).time = s.time := rfl
@[simp] theorem setHp_mems (s : State) (p : Nat) (x : HostPort) : (setHp s p x).mems = s.mems := rfl
@[simp] theorem setHp_env (s : State) (p : Nat) (x : HostPort) : (setHp s p x).env = s.env := rfl
@[simp] theorem setHp_regs (s : State) (p : Nat) (x : HostPort) : (setHp s p x).regs = s.regs := rfl
@[simp] theorem setHp_pwr (s : State) (p : Nat) (x : HostPort) : (setHp s p x).pwr = s.pwr := rfl
@[simp] theorem setHp_mnt (s : State) (p : Nat) (x : HostPort) : (setHp s p x).mnt = s.mnt := rfl
@[simp] theorem setHp_units (s : State) (p : Nat) (x : HostPort) : (setHp s p x).units = s.units := rfl
@[simp] theorem setHp_isl (s : State) (p : Nat) (x : HostPort) : (setHp s p x).isl = s.isl := rfl
@[simp] theorem setHp_mp (s : State) (p : Nat) (x : HostPort) : (setHp s p x).mp = s.mp := rfl
@[simp] theorem setHp_xing (s : State) (p : Nat) (x : HostPort) : (setHp s p x).xing = s.xing := rfl
@[simp] theorem setHp_xingOut (s : State) (p : Nat) (x : HostPort) : (setHp s p x).xingOut = s.xingOut := rfl
@[simp] theorem setHp_flog (s : State) (p : Nat) (x : HostPort) : (setHp s p x).flog = s.flog := rfl
@[simp] theorem setHp_sbd (s : State) (p : Nat) (x : HostPort) : (setHp s p x).sbd = s.sbd := rfl
@[simp] theorem setHp_tap (s : State) (p : Nat) (x : HostPort) : (setHp s p x).tap = s.tap := rfl
@[simp] theorem setHp_tlm (s : State) (p : Nat) (x : HostPort) : (setHp s p x).tlm = s.tlm := rfl
@[simp] theorem setHp_ledger (s : State) (p : Nat) (x : HostPort) : (setHp s p x).ledger = s.ledger := rfl
@[simp] theorem setHp_gambit (s : State) (p : Nat) (x : HostPort) : (setHp s p x).gambit = s.gambit := rfl
@[simp] theorem setHp_ctxs (s : State) (p : Nat) (x : HostPort) : (setHp s p x).ctxs = s.ctxs := rfl
@[simp] theorem setHp_rgns (s : State) (p : Nat) (x : HostPort) : (setHp s p x).rgns = s.rgns := rfl
@[simp] theorem setHp_arrs (s : State) (p : Nat) (x : HostPort) : (setHp s p x).arrs = s.arrs := rfl
@[simp] theorem setHp_dwrr (s : State) (p : Nat) (x : HostPort) : (setHp s p x).dwrr = s.dwrr := rfl
@[simp] theorem setHp_freeCnt (s : State) (p : Nat) (x : HostPort) : (setHp s p x).freeCnt = s.freeCnt := rfl
@[simp] theorem setHp_pending (s : State) (p : Nat) (x : HostPort) : (setHp s p x).pending = s.pending := rfl

/-! `setIsl` -/

@[simp] theorem setIsl_cfg (s : State) (i : Nat) (x : Island) : (setIsl s i x).cfg = s.cfg := rfl
@[simp] theorem setIsl_boot (s : State) (i : Nat) (x : Island) : (setIsl s i x).boot = s.boot := rfl
@[simp] theorem setIsl_time (s : State) (i : Nat) (x : Island) : (setIsl s i x).time = s.time := rfl
@[simp] theorem setIsl_mems (s : State) (i : Nat) (x : Island) : (setIsl s i x).mems = s.mems := rfl
@[simp] theorem setIsl_env (s : State) (i : Nat) (x : Island) : (setIsl s i x).env = s.env := rfl
@[simp] theorem setIsl_regs (s : State) (i : Nat) (x : Island) : (setIsl s i x).regs = s.regs := rfl
@[simp] theorem setIsl_pwr (s : State) (i : Nat) (x : Island) : (setIsl s i x).pwr = s.pwr := rfl
@[simp] theorem setIsl_mnt (s : State) (i : Nat) (x : Island) : (setIsl s i x).mnt = s.mnt := rfl
@[simp] theorem setIsl_units (s : State) (i : Nat) (x : Island) : (setIsl s i x).units = s.units := rfl
@[simp] theorem setIsl_mp (s : State) (i : Nat) (x : Island) : (setIsl s i x).mp = s.mp := rfl
@[simp] theorem setIsl_hp (s : State) (i : Nat) (x : Island) : (setIsl s i x).hp = s.hp := rfl
@[simp] theorem setIsl_xing (s : State) (i : Nat) (x : Island) : (setIsl s i x).xing = s.xing := rfl
@[simp] theorem setIsl_xingOut (s : State) (i : Nat) (x : Island) : (setIsl s i x).xingOut = s.xingOut := rfl
@[simp] theorem setIsl_flog (s : State) (i : Nat) (x : Island) : (setIsl s i x).flog = s.flog := rfl
@[simp] theorem setIsl_sbd (s : State) (i : Nat) (x : Island) : (setIsl s i x).sbd = s.sbd := rfl
@[simp] theorem setIsl_tap (s : State) (i : Nat) (x : Island) : (setIsl s i x).tap = s.tap := rfl
@[simp] theorem setIsl_tlm (s : State) (i : Nat) (x : Island) : (setIsl s i x).tlm = s.tlm := rfl
@[simp] theorem setIsl_ledger (s : State) (i : Nat) (x : Island) : (setIsl s i x).ledger = s.ledger := rfl
@[simp] theorem setIsl_gambit (s : State) (i : Nat) (x : Island) : (setIsl s i x).gambit = s.gambit := rfl
@[simp] theorem setIsl_ctxs (s : State) (i : Nat) (x : Island) : (setIsl s i x).ctxs = s.ctxs := rfl
@[simp] theorem setIsl_rgns (s : State) (i : Nat) (x : Island) : (setIsl s i x).rgns = s.rgns := rfl
@[simp] theorem setIsl_arrs (s : State) (i : Nat) (x : Island) : (setIsl s i x).arrs = s.arrs := rfl
@[simp] theorem setIsl_dwrr (s : State) (i : Nat) (x : Island) : (setIsl s i x).dwrr = s.dwrr := rfl
@[simp] theorem setIsl_freeCnt (s : State) (i : Nat) (x : Island) : (setIsl s i x).freeCnt = s.freeCnt := rfl
@[simp] theorem setIsl_pending (s : State) (i : Nat) (x : Island) : (setIsl s i x).pending = s.pending := rfl

/-! `setAcct` -/

@[simp] theorem setAcct_cfg (s : State) (c : Nat) (x : Acct) : (setAcct s c x).cfg = s.cfg := rfl
@[simp] theorem setAcct_boot (s : State) (c : Nat) (x : Acct) : (setAcct s c x).boot = s.boot := rfl
@[simp] theorem setAcct_time (s : State) (c : Nat) (x : Acct) : (setAcct s c x).time = s.time := rfl
@[simp] theorem setAcct_mems (s : State) (c : Nat) (x : Acct) : (setAcct s c x).mems = s.mems := rfl
@[simp] theorem setAcct_env (s : State) (c : Nat) (x : Acct) : (setAcct s c x).env = s.env := rfl
@[simp] theorem setAcct_regs (s : State) (c : Nat) (x : Acct) : (setAcct s c x).regs = s.regs := rfl
@[simp] theorem setAcct_pwr (s : State) (c : Nat) (x : Acct) : (setAcct s c x).pwr = s.pwr := rfl
@[simp] theorem setAcct_mnt (s : State) (c : Nat) (x : Acct) : (setAcct s c x).mnt = s.mnt := rfl
@[simp] theorem setAcct_units (s : State) (c : Nat) (x : Acct) : (setAcct s c x).units = s.units := rfl
@[simp] theorem setAcct_isl (s : State) (c : Nat) (x : Acct) : (setAcct s c x).isl = s.isl := rfl
@[simp] theorem setAcct_mp (s : State) (c : Nat) (x : Acct) : (setAcct s c x).mp = s.mp := rfl
@[simp] theorem setAcct_hp (s : State) (c : Nat) (x : Acct) : (setAcct s c x).hp = s.hp := rfl
@[simp] theorem setAcct_xing (s : State) (c : Nat) (x : Acct) : (setAcct s c x).xing = s.xing := rfl
@[simp] theorem setAcct_xingOut (s : State) (c : Nat) (x : Acct) : (setAcct s c x).xingOut = s.xingOut := rfl
@[simp] theorem setAcct_flog (s : State) (c : Nat) (x : Acct) : (setAcct s c x).flog = s.flog := rfl
@[simp] theorem setAcct_sbd (s : State) (c : Nat) (x : Acct) : (setAcct s c x).sbd = s.sbd := rfl
@[simp] theorem setAcct_tap (s : State) (c : Nat) (x : Acct) : (setAcct s c x).tap = s.tap := rfl
@[simp] theorem setAcct_ledger (s : State) (c : Nat) (x : Acct) : (setAcct s c x).ledger = s.ledger := rfl
@[simp] theorem setAcct_gambit (s : State) (c : Nat) (x : Acct) : (setAcct s c x).gambit = s.gambit := rfl
@[simp] theorem setAcct_ctxs (s : State) (c : Nat) (x : Acct) : (setAcct s c x).ctxs = s.ctxs := rfl
@[simp] theorem setAcct_rgns (s : State) (c : Nat) (x : Acct) : (setAcct s c x).rgns = s.rgns := rfl
@[simp] theorem setAcct_arrs (s : State) (c : Nat) (x : Acct) : (setAcct s c x).arrs = s.arrs := rfl
@[simp] theorem setAcct_dwrr (s : State) (c : Nat) (x : Acct) : (setAcct s c x).dwrr = s.dwrr := rfl
@[simp] theorem setAcct_freeCnt (s : State) (c : Nat) (x : Acct) : (setAcct s c x).freeCnt = s.freeCnt := rfl
@[simp] theorem setAcct_pending (s : State) (c : Nat) (x : Acct) : (setAcct s c x).pending = s.pending := rfl

/-! `putUnit` -/

@[simp] theorem putUnit_cfg (s : State) (k : UnitKind) (n : Nat) (u : UState) : (putUnit s k n u).cfg = s.cfg := rfl
@[simp] theorem putUnit_boot (s : State) (k : UnitKind) (n : Nat) (u : UState) : (putUnit s k n u).boot = s.boot := rfl
@[simp] theorem putUnit_time (s : State) (k : UnitKind) (n : Nat) (u : UState) : (putUnit s k n u).time = s.time := rfl
@[simp] theorem putUnit_mems (s : State) (k : UnitKind) (n : Nat) (u : UState) : (putUnit s k n u).mems = s.mems := rfl
@[simp] theorem putUnit_env (s : State) (k : UnitKind) (n : Nat) (u : UState) : (putUnit s k n u).env = s.env := rfl
@[simp] theorem putUnit_regs (s : State) (k : UnitKind) (n : Nat) (u : UState) : (putUnit s k n u).regs = s.regs := rfl
@[simp] theorem putUnit_pwr (s : State) (k : UnitKind) (n : Nat) (u : UState) : (putUnit s k n u).pwr = s.pwr := rfl
@[simp] theorem putUnit_mnt (s : State) (k : UnitKind) (n : Nat) (u : UState) : (putUnit s k n u).mnt = s.mnt := rfl
@[simp] theorem putUnit_isl (s : State) (k : UnitKind) (n : Nat) (u : UState) : (putUnit s k n u).isl = s.isl := rfl
@[simp] theorem putUnit_mp (s : State) (k : UnitKind) (n : Nat) (u : UState) : (putUnit s k n u).mp = s.mp := rfl
@[simp] theorem putUnit_hp (s : State) (k : UnitKind) (n : Nat) (u : UState) : (putUnit s k n u).hp = s.hp := rfl
@[simp] theorem putUnit_xing (s : State) (k : UnitKind) (n : Nat) (u : UState) : (putUnit s k n u).xing = s.xing := rfl
@[simp] theorem putUnit_xingOut (s : State) (k : UnitKind) (n : Nat) (u : UState) : (putUnit s k n u).xingOut = s.xingOut := rfl
@[simp] theorem putUnit_flog (s : State) (k : UnitKind) (n : Nat) (u : UState) : (putUnit s k n u).flog = s.flog := rfl
@[simp] theorem putUnit_sbd (s : State) (k : UnitKind) (n : Nat) (u : UState) : (putUnit s k n u).sbd = s.sbd := rfl
@[simp] theorem putUnit_tap (s : State) (k : UnitKind) (n : Nat) (u : UState) : (putUnit s k n u).tap = s.tap := rfl
@[simp] theorem putUnit_tlm (s : State) (k : UnitKind) (n : Nat) (u : UState) : (putUnit s k n u).tlm = s.tlm := rfl
@[simp] theorem putUnit_ledger (s : State) (k : UnitKind) (n : Nat) (u : UState) : (putUnit s k n u).ledger = s.ledger := rfl
@[simp] theorem putUnit_gambit (s : State) (k : UnitKind) (n : Nat) (u : UState) : (putUnit s k n u).gambit = s.gambit := rfl
@[simp] theorem putUnit_ctxs (s : State) (k : UnitKind) (n : Nat) (u : UState) : (putUnit s k n u).ctxs = s.ctxs := rfl
@[simp] theorem putUnit_rgns (s : State) (k : UnitKind) (n : Nat) (u : UState) : (putUnit s k n u).rgns = s.rgns := rfl
@[simp] theorem putUnit_arrs (s : State) (k : UnitKind) (n : Nat) (u : UState) : (putUnit s k n u).arrs = s.arrs := rfl
@[simp] theorem putUnit_dwrr (s : State) (k : UnitKind) (n : Nat) (u : UState) : (putUnit s k n u).dwrr = s.dwrr := rfl
@[simp] theorem putUnit_freeCnt (s : State) (k : UnitKind) (n : Nat) (u : UState) : (putUnit s k n u).freeCnt = s.freeCnt := rfl
@[simp] theorem putUnit_pending (s : State) (k : UnitKind) (n : Nat) (u : UState) : (putUnit s k n u).pending = s.pending := rfl

/-! `addCnt` -/

@[simp] theorem addCnt_cfg (s : State) (i n : Nat) : (addCnt s i n).cfg = s.cfg := rfl
@[simp] theorem addCnt_boot (s : State) (i n : Nat) : (addCnt s i n).boot = s.boot := rfl
@[simp] theorem addCnt_time (s : State) (i n : Nat) : (addCnt s i n).time = s.time := rfl
@[simp] theorem addCnt_mems (s : State) (i n : Nat) : (addCnt s i n).mems = s.mems := rfl
@[simp] theorem addCnt_env (s : State) (i n : Nat) : (addCnt s i n).env = s.env := rfl
@[simp] theorem addCnt_regs (s : State) (i n : Nat) : (addCnt s i n).regs = s.regs := rfl
@[simp] theorem addCnt_pwr (s : State) (i n : Nat) : (addCnt s i n).pwr = s.pwr := rfl
@[simp] theorem addCnt_mnt (s : State) (i n : Nat) : (addCnt s i n).mnt = s.mnt := rfl
@[simp] theorem addCnt_units (s : State) (i n : Nat) : (addCnt s i n).units = s.units := rfl
@[simp] theorem addCnt_isl (s : State) (i n : Nat) : (addCnt s i n).isl = s.isl := rfl
@[simp] theorem addCnt_mp (s : State) (i n : Nat) : (addCnt s i n).mp = s.mp := rfl
@[simp] theorem addCnt_hp (s : State) (i n : Nat) : (addCnt s i n).hp = s.hp := rfl
@[simp] theorem addCnt_xing (s : State) (i n : Nat) : (addCnt s i n).xing = s.xing := rfl
@[simp] theorem addCnt_xingOut (s : State) (i n : Nat) : (addCnt s i n).xingOut = s.xingOut := rfl
@[simp] theorem addCnt_flog (s : State) (i n : Nat) : (addCnt s i n).flog = s.flog := rfl
@[simp] theorem addCnt_sbd (s : State) (i n : Nat) : (addCnt s i n).sbd = s.sbd := rfl
@[simp] theorem addCnt_tap (s : State) (i n : Nat) : (addCnt s i n).tap = s.tap := rfl
@[simp] theorem addCnt_ledger (s : State) (i n : Nat) : (addCnt s i n).ledger = s.ledger := rfl
@[simp] theorem addCnt_gambit (s : State) (i n : Nat) : (addCnt s i n).gambit = s.gambit := rfl
@[simp] theorem addCnt_ctxs (s : State) (i n : Nat) : (addCnt s i n).ctxs = s.ctxs := rfl
@[simp] theorem addCnt_rgns (s : State) (i n : Nat) : (addCnt s i n).rgns = s.rgns := rfl
@[simp] theorem addCnt_arrs (s : State) (i n : Nat) : (addCnt s i n).arrs = s.arrs := rfl
@[simp] theorem addCnt_dwrr (s : State) (i n : Nat) : (addCnt s i n).dwrr = s.dwrr := rfl
@[simp] theorem addCnt_freeCnt (s : State) (i n : Nat) : (addCnt s i n).freeCnt = s.freeCnt := rfl
@[simp] theorem addCnt_pending (s : State) (i n : Nat) : (addCnt s i n).pending = s.pending := rfl

/-! `addRgnCnt` -/

@[simp] theorem addRgnCnt_cfg (s : State) (r i n : Nat) : (addRgnCnt s r i n).cfg = s.cfg := rfl
@[simp] theorem addRgnCnt_boot (s : State) (r i n : Nat) : (addRgnCnt s r i n).boot = s.boot := rfl
@[simp] theorem addRgnCnt_time (s : State) (r i n : Nat) : (addRgnCnt s r i n).time = s.time := rfl
@[simp] theorem addRgnCnt_mems (s : State) (r i n : Nat) : (addRgnCnt s r i n).mems = s.mems := rfl
@[simp] theorem addRgnCnt_env (s : State) (r i n : Nat) : (addRgnCnt s r i n).env = s.env := rfl
@[simp] theorem addRgnCnt_regs (s : State) (r i n : Nat) : (addRgnCnt s r i n).regs = s.regs := rfl
@[simp] theorem addRgnCnt_pwr (s : State) (r i n : Nat) : (addRgnCnt s r i n).pwr = s.pwr := rfl
@[simp] theorem addRgnCnt_mnt (s : State) (r i n : Nat) : (addRgnCnt s r i n).mnt = s.mnt := rfl
@[simp] theorem addRgnCnt_units (s : State) (r i n : Nat) : (addRgnCnt s r i n).units = s.units := rfl
@[simp] theorem addRgnCnt_isl (s : State) (r i n : Nat) : (addRgnCnt s r i n).isl = s.isl := rfl
@[simp] theorem addRgnCnt_mp (s : State) (r i n : Nat) : (addRgnCnt s r i n).mp = s.mp := rfl
@[simp] theorem addRgnCnt_hp (s : State) (r i n : Nat) : (addRgnCnt s r i n).hp = s.hp := rfl
@[simp] theorem addRgnCnt_xing (s : State) (r i n : Nat) : (addRgnCnt s r i n).xing = s.xing := rfl
@[simp] theorem addRgnCnt_xingOut (s : State) (r i n : Nat) : (addRgnCnt s r i n).xingOut = s.xingOut := rfl
@[simp] theorem addRgnCnt_flog (s : State) (r i n : Nat) : (addRgnCnt s r i n).flog = s.flog := rfl
@[simp] theorem addRgnCnt_sbd (s : State) (r i n : Nat) : (addRgnCnt s r i n).sbd = s.sbd := rfl
@[simp] theorem addRgnCnt_tap (s : State) (r i n : Nat) : (addRgnCnt s r i n).tap = s.tap := rfl
@[simp] theorem addRgnCnt_tlm (s : State) (r i n : Nat) : (addRgnCnt s r i n).tlm = s.tlm := rfl
@[simp] theorem addRgnCnt_ledger (s : State) (r i n : Nat) : (addRgnCnt s r i n).ledger = s.ledger := rfl
@[simp] theorem addRgnCnt_gambit (s : State) (r i n : Nat) : (addRgnCnt s r i n).gambit = s.gambit := rfl
@[simp] theorem addRgnCnt_ctxs (s : State) (r i n : Nat) : (addRgnCnt s r i n).ctxs = s.ctxs := rfl
@[simp] theorem addRgnCnt_arrs (s : State) (r i n : Nat) : (addRgnCnt s r i n).arrs = s.arrs := rfl
@[simp] theorem addRgnCnt_dwrr (s : State) (r i n : Nat) : (addRgnCnt s r i n).dwrr = s.dwrr := rfl
@[simp] theorem addRgnCnt_freeCnt (s : State) (r i n : Nat) : (addRgnCnt s r i n).freeCnt = s.freeCnt := rfl
@[simp] theorem addRgnCnt_pending (s : State) (r i n : Nat) : (addRgnCnt s r i n).pending = s.pending := rfl

/-! `addArrCnt` -/

@[simp] theorem addArrCnt_cfg (s : State) (a i n : Nat) : (addArrCnt s a i n).cfg = s.cfg := rfl
@[simp] theorem addArrCnt_boot (s : State) (a i n : Nat) : (addArrCnt s a i n).boot = s.boot := rfl
@[simp] theorem addArrCnt_time (s : State) (a i n : Nat) : (addArrCnt s a i n).time = s.time := rfl
@[simp] theorem addArrCnt_mems (s : State) (a i n : Nat) : (addArrCnt s a i n).mems = s.mems := rfl
@[simp] theorem addArrCnt_env (s : State) (a i n : Nat) : (addArrCnt s a i n).env = s.env := rfl
@[simp] theorem addArrCnt_regs (s : State) (a i n : Nat) : (addArrCnt s a i n).regs = s.regs := rfl
@[simp] theorem addArrCnt_pwr (s : State) (a i n : Nat) : (addArrCnt s a i n).pwr = s.pwr := rfl
@[simp] theorem addArrCnt_mnt (s : State) (a i n : Nat) : (addArrCnt s a i n).mnt = s.mnt := rfl
@[simp] theorem addArrCnt_units (s : State) (a i n : Nat) : (addArrCnt s a i n).units = s.units := rfl
@[simp] theorem addArrCnt_isl (s : State) (a i n : Nat) : (addArrCnt s a i n).isl = s.isl := rfl
@[simp] theorem addArrCnt_mp (s : State) (a i n : Nat) : (addArrCnt s a i n).mp = s.mp := rfl
@[simp] theorem addArrCnt_hp (s : State) (a i n : Nat) : (addArrCnt s a i n).hp = s.hp := rfl
@[simp] theorem addArrCnt_xing (s : State) (a i n : Nat) : (addArrCnt s a i n).xing = s.xing := rfl
@[simp] theorem addArrCnt_xingOut (s : State) (a i n : Nat) : (addArrCnt s a i n).xingOut = s.xingOut := rfl
@[simp] theorem addArrCnt_flog (s : State) (a i n : Nat) : (addArrCnt s a i n).flog = s.flog := rfl
@[simp] theorem addArrCnt_sbd (s : State) (a i n : Nat) : (addArrCnt s a i n).sbd = s.sbd := rfl
@[simp] theorem addArrCnt_tap (s : State) (a i n : Nat) : (addArrCnt s a i n).tap = s.tap := rfl
@[simp] theorem addArrCnt_tlm (s : State) (a i n : Nat) : (addArrCnt s a i n).tlm = s.tlm := rfl
@[simp] theorem addArrCnt_ledger (s : State) (a i n : Nat) : (addArrCnt s a i n).ledger = s.ledger := rfl
@[simp] theorem addArrCnt_gambit (s : State) (a i n : Nat) : (addArrCnt s a i n).gambit = s.gambit := rfl
@[simp] theorem addArrCnt_ctxs (s : State) (a i n : Nat) : (addArrCnt s a i n).ctxs = s.ctxs := rfl
@[simp] theorem addArrCnt_rgns (s : State) (a i n : Nat) : (addArrCnt s a i n).rgns = s.rgns := rfl
@[simp] theorem addArrCnt_dwrr (s : State) (a i n : Nat) : (addArrCnt s a i n).dwrr = s.dwrr := rfl
@[simp] theorem addArrCnt_freeCnt (s : State) (a i n : Nat) : (addArrCnt s a i n).freeCnt = s.freeCnt := rfl
@[simp] theorem addArrCnt_pending (s : State) (a i n : Nat) : (addArrCnt s a i n).pending = s.pending := rfl

/-! `respond` -/

@[simp] theorem respond_cfg (s : State) (p : Nat) (r : HostResp) : (respond s p r).cfg = s.cfg := rfl
@[simp] theorem respond_boot (s : State) (p : Nat) (r : HostResp) : (respond s p r).boot = s.boot := rfl
@[simp] theorem respond_time (s : State) (p : Nat) (r : HostResp) : (respond s p r).time = s.time := rfl
@[simp] theorem respond_mems (s : State) (p : Nat) (r : HostResp) : (respond s p r).mems = s.mems := rfl
@[simp] theorem respond_env (s : State) (p : Nat) (r : HostResp) : (respond s p r).env = s.env := rfl
@[simp] theorem respond_regs (s : State) (p : Nat) (r : HostResp) : (respond s p r).regs = s.regs := rfl
@[simp] theorem respond_pwr (s : State) (p : Nat) (r : HostResp) : (respond s p r).pwr = s.pwr := rfl
@[simp] theorem respond_mnt (s : State) (p : Nat) (r : HostResp) : (respond s p r).mnt = s.mnt := rfl
@[simp] theorem respond_units (s : State) (p : Nat) (r : HostResp) : (respond s p r).units = s.units := rfl
@[simp] theorem respond_isl (s : State) (p : Nat) (r : HostResp) : (respond s p r).isl = s.isl := rfl
@[simp] theorem respond_mp (s : State) (p : Nat) (r : HostResp) : (respond s p r).mp = s.mp := rfl
@[simp] theorem respond_xing (s : State) (p : Nat) (r : HostResp) : (respond s p r).xing = s.xing := rfl
@[simp] theorem respond_xingOut (s : State) (p : Nat) (r : HostResp) : (respond s p r).xingOut = s.xingOut := rfl
@[simp] theorem respond_flog (s : State) (p : Nat) (r : HostResp) : (respond s p r).flog = s.flog := rfl
@[simp] theorem respond_sbd (s : State) (p : Nat) (r : HostResp) : (respond s p r).sbd = s.sbd := rfl
@[simp] theorem respond_tap (s : State) (p : Nat) (r : HostResp) : (respond s p r).tap = s.tap := rfl
@[simp] theorem respond_tlm (s : State) (p : Nat) (r : HostResp) : (respond s p r).tlm = s.tlm := rfl
@[simp] theorem respond_ledger (s : State) (p : Nat) (r : HostResp) : (respond s p r).ledger = s.ledger := rfl
@[simp] theorem respond_gambit (s : State) (p : Nat) (r : HostResp) : (respond s p r).gambit = s.gambit := rfl
@[simp] theorem respond_ctxs (s : State) (p : Nat) (r : HostResp) : (respond s p r).ctxs = s.ctxs := rfl
@[simp] theorem respond_rgns (s : State) (p : Nat) (r : HostResp) : (respond s p r).rgns = s.rgns := rfl
@[simp] theorem respond_arrs (s : State) (p : Nat) (r : HostResp) : (respond s p r).arrs = s.arrs := rfl
@[simp] theorem respond_dwrr (s : State) (p : Nat) (r : HostResp) : (respond s p r).dwrr = s.dwrr := rfl
@[simp] theorem respond_freeCnt (s : State) (p : Nat) (r : HostResp) : (respond s p r).freeCnt = s.freeCnt := rfl
@[simp] theorem respond_pending (s : State) (p : Nat) (r : HostResp) : (respond s p r).pending = s.pending := rfl

/-! `sbdDone` -/

@[simp] theorem sbdDone_cfg (s : State) (cmd : Byte) (h : SbdHead) (c : Byte) (l : List W64) : (sbdDone s cmd h c l).cfg = s.cfg := rfl
@[simp] theorem sbdDone_boot (s : State) (cmd : Byte) (h : SbdHead) (c : Byte) (l : List W64) : (sbdDone s cmd h c l).boot = s.boot := rfl
@[simp] theorem sbdDone_time (s : State) (cmd : Byte) (h : SbdHead) (c : Byte) (l : List W64) : (sbdDone s cmd h c l).time = s.time := rfl
@[simp] theorem sbdDone_mems (s : State) (cmd : Byte) (h : SbdHead) (c : Byte) (l : List W64) : (sbdDone s cmd h c l).mems = s.mems := rfl
@[simp] theorem sbdDone_env (s : State) (cmd : Byte) (h : SbdHead) (c : Byte) (l : List W64) : (sbdDone s cmd h c l).env = s.env := rfl
@[simp] theorem sbdDone_regs (s : State) (cmd : Byte) (h : SbdHead) (c : Byte) (l : List W64) : (sbdDone s cmd h c l).regs = s.regs := rfl
@[simp] theorem sbdDone_pwr (s : State) (cmd : Byte) (h : SbdHead) (c : Byte) (l : List W64) : (sbdDone s cmd h c l).pwr = s.pwr := rfl
@[simp] theorem sbdDone_mnt (s : State) (cmd : Byte) (h : SbdHead) (c : Byte) (l : List W64) : (sbdDone s cmd h c l).mnt = s.mnt := rfl
@[simp] theorem sbdDone_units (s : State) (cmd : Byte) (h : SbdHead) (c : Byte) (l : List W64) : (sbdDone s cmd h c l).units = s.units := rfl
@[simp] theorem sbdDone_isl (s : State) (cmd : Byte) (h : SbdHead) (c : Byte) (l : List W64) : (sbdDone s cmd h c l).isl = s.isl := rfl
@[simp] theorem sbdDone_mp (s : State) (cmd : Byte) (h : SbdHead) (c : Byte) (l : List W64) : (sbdDone s cmd h c l).mp = s.mp := rfl
@[simp] theorem sbdDone_hp (s : State) (cmd : Byte) (h : SbdHead) (c : Byte) (l : List W64) : (sbdDone s cmd h c l).hp = s.hp := rfl
@[simp] theorem sbdDone_xing (s : State) (cmd : Byte) (h : SbdHead) (c : Byte) (l : List W64) : (sbdDone s cmd h c l).xing = s.xing := rfl
@[simp] theorem sbdDone_xingOut (s : State) (cmd : Byte) (h : SbdHead) (c : Byte) (l : List W64) : (sbdDone s cmd h c l).xingOut = s.xingOut := rfl
@[simp] theorem sbdDone_flog (s : State) (cmd : Byte) (h : SbdHead) (c : Byte) (l : List W64) : (sbdDone s cmd h c l).flog = s.flog := rfl
@[simp] theorem sbdDone_tap (s : State) (cmd : Byte) (h : SbdHead) (c : Byte) (l : List W64) : (sbdDone s cmd h c l).tap = s.tap := rfl
@[simp] theorem sbdDone_tlm (s : State) (cmd : Byte) (h : SbdHead) (c : Byte) (l : List W64) : (sbdDone s cmd h c l).tlm = s.tlm := rfl
@[simp] theorem sbdDone_ledger (s : State) (cmd : Byte) (h : SbdHead) (c : Byte) (l : List W64) : (sbdDone s cmd h c l).ledger = s.ledger := rfl
@[simp] theorem sbdDone_gambit (s : State) (cmd : Byte) (h : SbdHead) (c : Byte) (l : List W64) : (sbdDone s cmd h c l).gambit = s.gambit := rfl
@[simp] theorem sbdDone_ctxs (s : State) (cmd : Byte) (h : SbdHead) (c : Byte) (l : List W64) : (sbdDone s cmd h c l).ctxs = s.ctxs := rfl
@[simp] theorem sbdDone_rgns (s : State) (cmd : Byte) (h : SbdHead) (c : Byte) (l : List W64) : (sbdDone s cmd h c l).rgns = s.rgns := rfl
@[simp] theorem sbdDone_arrs (s : State) (cmd : Byte) (h : SbdHead) (c : Byte) (l : List W64) : (sbdDone s cmd h c l).arrs = s.arrs := rfl
@[simp] theorem sbdDone_dwrr (s : State) (cmd : Byte) (h : SbdHead) (c : Byte) (l : List W64) : (sbdDone s cmd h c l).dwrr = s.dwrr := rfl
@[simp] theorem sbdDone_freeCnt (s : State) (cmd : Byte) (h : SbdHead) (c : Byte) (l : List W64) : (sbdDone s cmd h c l).freeCnt = s.freeCnt := rfl
@[simp] theorem sbdDone_pending (s : State) (cmd : Byte) (h : SbdHead) (c : Byte) (l : List W64) : (sbdDone s cmd h c l).pending = s.pending := rfl

/-! The parts by number -/

@[simp] theorem getArr_setArr (s : State) (k : Nat) (x : ArrayS) : getArr (setArr s k x) k = x := by simp [getArr, setArr]
theorem getArr_setArr_ne (s : State) (k j : Nat) (x : ArrayS) (h : j ≠ k) : getArr (setArr s k x) j = getArr s j := by
  simp [getArr, setArr, tget_tset, h]
@[simp] theorem getRgn_setRgn (s : State) (k : Nat) (x : Region) : getRgn (setRgn s k x) k = x := by simp [getRgn, setRgn]
theorem getRgn_setRgn_ne (s : State) (k j : Nat) (x : Region) (h : j ≠ k) : getRgn (setRgn s k x) j = getRgn s j := by
  simp [getRgn, setRgn, tget_tset, h]
@[simp] theorem getCtx_setCtx (s : State) (k : Nat) (x : Context) : getCtx (setCtx s k x) k = x := by simp [getCtx, setCtx]
theorem getCtx_setCtx_ne (s : State) (k j : Nat) (x : Context) (h : j ≠ k) : getCtx (setCtx s k x) j = getCtx s j := by
  simp [getCtx, setCtx, tget_tset, h]
@[simp] theorem getMp_setMp (s : State) (k : Nat) (x : MemPort) : getMp (setMp s k x) k = x := by simp [getMp, setMp]
theorem getMp_setMp_ne (s : State) (k j : Nat) (x : MemPort) (h : j ≠ k) : getMp (setMp s k x) j = getMp s j := by
  simp [getMp, setMp, tget_tset, h]
@[simp] theorem getHp_setHp (s : State) (k : Nat) (x : HostPort) : getHp (setHp s k x) k = x := by simp [getHp, setHp]
theorem getHp_setHp_ne (s : State) (k j : Nat) (x : HostPort) (h : j ≠ k) : getHp (setHp s k x) j = getHp s j := by
  simp [getHp, setHp, tget_tset, h]
@[simp] theorem getIsl_setIsl (s : State) (k : Nat) (x : Island) : getIsl (setIsl s k x) k = x := by simp [getIsl, setIsl]
theorem getIsl_setIsl_ne (s : State) (k j : Nat) (x : Island) (h : j ≠ k) : getIsl (setIsl s k x) j = getIsl s j := by
  simp [getIsl, setIsl, tget_tset, h]
@[simp] theorem getAcct_setAcct (s : State) (k : Nat) (x : Acct) : getAcct (setAcct s k x) k = x := by simp [getAcct, setAcct]
theorem getAcct_setAcct_ne (s : State) (k j : Nat) (x : Acct) (h : j ≠ k) : getAcct (setAcct s k x) j = getAcct s j := by
  simp [getAcct, setAcct, tget_tset, h]

@[simp] theorem getRgn_setArr (s : State) (a : Nat) (x : ArrayS) (j : Nat) : getRgn (setArr s a x) j = getRgn s j := rfl
@[simp] theorem getCtx_setArr (s : State) (a : Nat) (x : ArrayS) (j : Nat) : getCtx (setArr s a x) j = getCtx s j := rfl
@[simp] theorem getMp_setArr (s : State) (a : Nat) (x : ArrayS) (j : Nat) : getMp (setArr s a x) j = getMp s j := rfl
@[simp] theorem getHp_setArr (s : State) (a : Nat) (x : ArrayS) (j : Nat) : getHp (setArr s a x) j = getHp s j := rfl
@[simp] theorem getIsl_setArr (s : State) (a : Nat) (x : ArrayS) (j : Nat) : getIsl (setArr s a x) j = getIsl s j := rfl
@[simp] theorem getAcct_setArr (s : State) (a : Nat) (x : ArrayS) (j : Nat) : getAcct (setArr s a x) j = getAcct s j := rfl
@[simp] theorem unitSt_setArr (s : State) (a : Nat) (x : ArrayS) (k' : UnitKind) (j : Nat) : unitSt (setArr s a x) k' j = unitSt s k' j := rfl
@[simp] theorem getArr_setRgn (s : State) (r : Nat) (x : Region) (j : Nat) : getArr (setRgn s r x) j = getArr s j := rfl
@[simp] theorem getCtx_setRgn (s : State) (r : Nat) (x : Region) (j : Nat) : getCtx (setRgn s r x) j = getCtx s j := rfl
@[simp] theorem getMp_setRgn (s : State) (r : Nat) (x : Region) (j : Nat) : getMp (setRgn s r x) j = getMp s j := rfl
@[simp] theorem getHp_setRgn (s : State) (r : Nat) (x : Region) (j : Nat) : getHp (setRgn s r x) j = getHp s j := rfl
@[simp] theorem getIsl_setRgn (s : State) (r : Nat) (x : Region) (j : Nat) : getIsl (setRgn s r x) j = getIsl s j := rfl
@[simp] theorem getAcct_setRgn (s : State) (r : Nat) (x : Region) (j : Nat) : getAcct (setRgn s r x) j = getAcct s j := rfl
@[simp] theorem unitSt_setRgn (s : State) (r : Nat) (x : Region) (k' : UnitKind) (j : Nat) : unitSt (setRgn s r x) k' j = unitSt s k' j := rfl
@[simp] theorem getArr_setCtx (s : State) (c : Nat) (x : Context) (j : Nat) : getArr (setCtx s c x) j = getArr s j := rfl
@[simp] theorem getRgn_setCtx (s : State) (c : Nat) (x : Context) (j : Nat) : getRgn (setCtx s c x) j = getRgn s j := rfl
@[simp] theorem getMp_setCtx (s : State) (c : Nat) (x : Context) (j : Nat) : getMp (setCtx s c x) j = getMp s j := rfl
@[simp] theorem getHp_setCtx (s : State) (c : Nat) (x : Context) (j : Nat) : getHp (setCtx s c x) j = getHp s j := rfl
@[simp] theorem getIsl_setCtx (s : State) (c : Nat) (x : Context) (j : Nat) : getIsl (setCtx s c x) j = getIsl s j := rfl
@[simp] theorem getAcct_setCtx (s : State) (c : Nat) (x : Context) (j : Nat) : getAcct (setCtx s c x) j = getAcct s j := rfl
@[simp] theorem unitSt_setCtx (s : State) (c : Nat) (x : Context) (k' : UnitKind) (j : Nat) : unitSt (setCtx s c x) k' j = unitSt s k' j := rfl
@[simp] theorem getArr_setMp (s : State) (q : Nat) (x : MemPort) (j : Nat) : getArr (setMp s q x) j = getArr s j := rfl
@[simp] theorem getRgn_setMp (s : State) (q : Nat) (x : MemPort) (j : Nat) : getRgn (setMp s q x) j = getRgn s j := rfl
@[simp] theorem getCtx_setMp (s : State) (q : Nat) (x : MemPort) (j : Nat) : getCtx (setMp s q x) j = getCtx s j := rfl
@[simp] theorem getHp_setMp (s : State) (q : Nat) (x : MemPort) (j : Nat) : getHp (setMp s q x) j = getHp s j := rfl
@[simp] theorem getIsl_setMp (s : State) (q : Nat) (x : MemPort) (j : Nat) : getIsl (setMp s q x) j = getIsl s j := rfl
@[simp] theorem getAcct_setMp (s : State) (q : Nat) (x : MemPort) (j : Nat) : getAcct (setMp s q x) j = getAcct s j := rfl
@[simp] theorem unitSt_setMp (s : State) (q : Nat) (x : MemPort) (k' : UnitKind) (j : Nat) : unitSt (setMp s q x) k' j = unitSt s k' j := rfl
@[simp] theorem getArr_setHp (s : State) (p : Nat) (x : HostPort) (j : Nat) : getArr (setHp s p x) j = getArr s j := rfl
@[simp] theorem getRgn_setHp (s : State) (p : Nat) (x : HostPort) (j : Nat) : getRgn (setHp s p x) j = getRgn s j := rfl
@[simp] theorem getCtx_setHp (s : State) (p : Nat) (x : HostPort) (j : Nat) : getCtx (setHp s p x) j = getCtx s j := rfl
@[simp] theorem getMp_setHp (s : State) (p : Nat) (x : HostPort) (j : Nat) : getMp (setHp s p x) j = getMp s j := rfl
@[simp] theorem getIsl_setHp (s : State) (p : Nat) (x : HostPort) (j : Nat) : getIsl (setHp s p x) j = getIsl s j := rfl
@[simp] theorem getAcct_setHp (s : State) (p : Nat) (x : HostPort) (j : Nat) : getAcct (setHp s p x) j = getAcct s j := rfl
@[simp] theorem unitSt_setHp (s : State) (p : Nat) (x : HostPort) (k' : UnitKind) (j : Nat) : unitSt (setHp s p x) k' j = unitSt s k' j := rfl
@[simp] theorem getArr_setIsl (s : State) (i : Nat) (x : Island) (j : Nat) : getArr (setIsl s i x) j = getArr s j := rfl
@[simp] theorem getRgn_setIsl (s : State) (i : Nat) (x : Island) (j : Nat) : getRgn (setIsl s i x) j = getRgn s j := rfl
@[simp] theorem getCtx_setIsl (s : State) (i : Nat) (x : Island) (j : Nat) : getCtx (setIsl s i x) j = getCtx s j := rfl
@[simp] theorem getMp_setIsl (s : State) (i : Nat) (x : Island) (j : Nat) : getMp (setIsl s i x) j = getMp s j := rfl
@[simp] theorem getHp_setIsl (s : State) (i : Nat) (x : Island) (j : Nat) : getHp (setIsl s i x) j = getHp s j := rfl
@[simp] theorem getAcct_setIsl (s : State) (i : Nat) (x : Island) (j : Nat) : getAcct (setIsl s i x) j = getAcct s j := rfl
@[simp] theorem unitSt_setIsl (s : State) (i : Nat) (x : Island) (k' : UnitKind) (j : Nat) : unitSt (setIsl s i x) k' j = unitSt s k' j := rfl
@[simp] theorem getArr_setAcct (s : State) (c : Nat) (x : Acct) (j : Nat) : getArr (setAcct s c x) j = getArr s j := rfl
@[simp] theorem getRgn_setAcct (s : State) (c : Nat) (x : Acct) (j : Nat) : getRgn (setAcct s c x) j = getRgn s j := rfl
@[simp] theorem getCtx_setAcct (s : State) (c : Nat) (x : Acct) (j : Nat) : getCtx (setAcct s c x) j = getCtx s j := rfl
@[simp] theorem getMp_setAcct (s : State) (c : Nat) (x : Acct) (j : Nat) : getMp (setAcct s c x) j = getMp s j := rfl
@[simp] theorem getHp_setAcct (s : State) (c : Nat) (x : Acct) (j : Nat) : getHp (setAcct s c x) j = getHp s j := rfl
@[simp] theorem getIsl_setAcct (s : State) (c : Nat) (x : Acct) (j : Nat) : getIsl (setAcct s c x) j = getIsl s j := rfl
@[simp] theorem unitSt_setAcct (s : State) (c : Nat) (x : Acct) (k' : UnitKind) (j : Nat) : unitSt (setAcct s c x) k' j = unitSt s k' j := rfl
@[simp] theorem getArr_putUnit (s : State) (k : UnitKind) (n : Nat) (u : UState) (j : Nat) : getArr (putUnit s k n u) j = getArr s j := rfl
@[simp] theorem getRgn_putUnit (s : State) (k : UnitKind) (n : Nat) (u : UState) (j : Nat) : getRgn (putUnit s k n u) j = getRgn s j := rfl
@[simp] theorem getCtx_putUnit (s : State) (k : UnitKind) (n : Nat) (u : UState) (j : Nat) : getCtx (putUnit s k n u) j = getCtx s j := rfl
@[simp] theorem getMp_putUnit (s : State) (k : UnitKind) (n : Nat) (u : UState) (j : Nat) : getMp (putUnit s k n u) j = getMp s j := rfl
@[simp] theorem getHp_putUnit (s : State) (k : UnitKind) (n : Nat) (u : UState) (j : Nat) : getHp (putUnit s k n u) j = getHp s j := rfl
@[simp] theorem getIsl_putUnit (s : State) (k : UnitKind) (n : Nat) (u : UState) (j : Nat) : getIsl (putUnit s k n u) j = getIsl s j := rfl
@[simp] theorem getAcct_putUnit (s : State) (k : UnitKind) (n : Nat) (u : UState) (j : Nat) : getAcct (putUnit s k n u) j = getAcct s j := rfl
@[simp] theorem getArr_addCnt (s : State) (i n : Nat) (j : Nat) : getArr (addCnt s i n) j = getArr s j := rfl
@[simp] theorem getRgn_addCnt (s : State) (i n : Nat) (j : Nat) : getRgn (addCnt s i n) j = getRgn s j := rfl
@[simp] theorem getCtx_addCnt (s : State) (i n : Nat) (j : Nat) : getCtx (addCnt s i n) j = getCtx s j := rfl
@[simp] theorem getMp_addCnt (s : State) (i n : Nat) (j : Nat) : getMp (addCnt s i n) j = getMp s j := rfl
@[simp] theorem getHp_addCnt (s : State) (i n : Nat) (j : Nat) : getHp (addCnt s i n) j = getHp s j := rfl
@[simp] theorem getIsl_addCnt (s : State) (i n : Nat) (j : Nat) : getIsl (addCnt s i n) j = getIsl s j := rfl
@[simp] theorem unitSt_addCnt (s : State) (i n : Nat) (k' : UnitKind) (j : Nat) : unitSt (addCnt s i n) k' j = unitSt s k' j := rfl
@[simp] theorem getArr_addRgnCnt (s : State) (r i n : Nat) (j : Nat) : getArr (addRgnCnt s r i n) j = getArr s j := rfl
@[simp] theorem getCtx_addRgnCnt (s : State) (r i n : Nat) (j : Nat) : getCtx (addRgnCnt s r i n) j = getCtx s j := rfl
@[simp] theorem getMp_addRgnCnt (s : State) (r i n : Nat) (j : Nat) : getMp (addRgnCnt s r i n) j = getMp s j := rfl
@[simp] theorem getHp_addRgnCnt (s : State) (r i n : Nat) (j : Nat) : getHp (addRgnCnt s r i n) j = getHp s j := rfl
@[simp] theorem getIsl_addRgnCnt (s : State) (r i n : Nat) (j : Nat) : getIsl (addRgnCnt s r i n) j = getIsl s j := rfl
@[simp] theorem getAcct_addRgnCnt (s : State) (r i n : Nat) (j : Nat) : getAcct (addRgnCnt s r i n) j = getAcct s j := rfl
@[simp] theorem unitSt_addRgnCnt (s : State) (r i n : Nat) (k' : UnitKind) (j : Nat) : unitSt (addRgnCnt s r i n) k' j = unitSt s k' j := rfl
@[simp] theorem getRgn_addArrCnt (s : State) (a i n : Nat) (j : Nat) : getRgn (addArrCnt s a i n) j = getRgn s j := rfl
@[simp] theorem getCtx_addArrCnt (s : State) (a i n : Nat) (j : Nat) : getCtx (addArrCnt s a i n) j = getCtx s j := rfl
@[simp] theorem getMp_addArrCnt (s : State) (a i n : Nat) (j : Nat) : getMp (addArrCnt s a i n) j = getMp s j := rfl
@[simp] theorem getHp_addArrCnt (s : State) (a i n : Nat) (j : Nat) : getHp (addArrCnt s a i n) j = getHp s j := rfl
@[simp] theorem getIsl_addArrCnt (s : State) (a i n : Nat) (j : Nat) : getIsl (addArrCnt s a i n) j = getIsl s j := rfl
@[simp] theorem getAcct_addArrCnt (s : State) (a i n : Nat) (j : Nat) : getAcct (addArrCnt s a i n) j = getAcct s j := rfl
@[simp] theorem unitSt_addArrCnt (s : State) (a i n : Nat) (k' : UnitKind) (j : Nat) : unitSt (addArrCnt s a i n) k' j = unitSt s k' j := rfl
@[simp] theorem getArr_respond (s : State) (p : Nat) (r : HostResp) (j : Nat) : getArr (respond s p r) j = getArr s j := rfl
@[simp] theorem getRgn_respond (s : State) (p : Nat) (r : HostResp) (j : Nat) : getRgn (respond s p r) j = getRgn s j := rfl
@[simp] theorem getCtx_respond (s : State) (p : Nat) (r : HostResp) (j : Nat) : getCtx (respond s p r) j = getCtx s j := rfl
@[simp] theorem getMp_respond (s : State) (p : Nat) (r : HostResp) (j : Nat) : getMp (respond s p r) j = getMp s j := rfl
@[simp] theorem getIsl_respond (s : State) (p : Nat) (r : HostResp) (j : Nat) : getIsl (respond s p r) j = getIsl s j := rfl
@[simp] theorem getAcct_respond (s : State) (p : Nat) (r : HostResp) (j : Nat) : getAcct (respond s p r) j = getAcct s j := rfl
@[simp] theorem unitSt_respond (s : State) (p : Nat) (r : HostResp) (k' : UnitKind) (j : Nat) : unitSt (respond s p r) k' j = unitSt s k' j := rfl
@[simp] theorem getArr_sbdDone (s : State) (cmd : Byte) (h : SbdHead) (c : Byte) (l : List W64) (j : Nat) : getArr (sbdDone s cmd h c l) j = getArr s j := rfl
@[simp] theorem getRgn_sbdDone (s : State) (cmd : Byte) (h : SbdHead) (c : Byte) (l : List W64) (j : Nat) : getRgn (sbdDone s cmd h c l) j = getRgn s j := rfl
@[simp] theorem getCtx_sbdDone (s : State) (cmd : Byte) (h : SbdHead) (c : Byte) (l : List W64) (j : Nat) : getCtx (sbdDone s cmd h c l) j = getCtx s j := rfl
@[simp] theorem getMp_sbdDone (s : State) (cmd : Byte) (h : SbdHead) (c : Byte) (l : List W64) (j : Nat) : getMp (sbdDone s cmd h c l) j = getMp s j := rfl
@[simp] theorem getHp_sbdDone (s : State) (cmd : Byte) (h : SbdHead) (c : Byte) (l : List W64) (j : Nat) : getHp (sbdDone s cmd h c l) j = getHp s j := rfl
@[simp] theorem getIsl_sbdDone (s : State) (cmd : Byte) (h : SbdHead) (c : Byte) (l : List W64) (j : Nat) : getIsl (sbdDone s cmd h c l) j = getIsl s j := rfl
@[simp] theorem getAcct_sbdDone (s : State) (cmd : Byte) (h : SbdHead) (c : Byte) (l : List W64) (j : Nat) : getAcct (sbdDone s cmd h c l) j = getAcct s j := rfl
@[simp] theorem unitSt_sbdDone (s : State) (cmd : Byte) (h : SbdHead) (c : Byte) (l : List W64) (k' : UnitKind) (j : Nat) : unitSt (sbdDone s cmd h c l) k' j = unitSt s k' j := rfl

theorem getUnit_setUnit (us : Units) (k k' : UnitKind) (n j : Nat) (u : MUnit) :
    getUnit (setUnit us k n u) k' j = if k' = k ∧ j = n then u else getUnit us k' j := by
  cases k <;> cases k' <;> simp [getUnit, setUnit, tget_tset]

theorem unitSt_putUnit (s : State) (k k' : UnitKind) (n j : Nat) (u : UState) :
    unitSt (putUnit s k n u) k' j = if k' = k ∧ j = n then u else unitSt s k' j := by
  unfold unitSt putUnit
  rw [getUnit_setUnit]
  split <;> rfl

@[simp] theorem unitSt_putUnit_self (s : State) (k : UnitKind) (n : Nat) (u : UState) : unitSt (putUnit s k n u) k n = u := by
  rw [unitSt_putUnit, if_pos ⟨rfl, rfl⟩]

/-! `setLane` -/

@[simp] theorem setLane_active (x : ArrayS) (b : Nat) (l : Lane) : (setLane x b l).active = x.active := rfl
@[simp] theorem setLane_shadow (x : ArrayS) (b : Nat) (l : Lane) : (setLane x b l).shadow = x.shadow := rfl
@[simp] theorem setLane_loads (x : ArrayS) (b : Nat) (l : Lane) : (setLane x b l).loads = x.loads := rfl
@[simp] theorem setLane_bus (x : ArrayS) (b : Nat) (l : Lane) : (setLane x b l).bus = x.bus := rfl
@[simp] theorem setLane_cycle (x : ArrayS) (b : Nat) (l : Lane) : (setLane x b l).cycle = x.cycle := rfl
@[simp] theorem setLane_delay (x : ArrayS) (b : Nat) (l : Lane) : (setLane x b l).delay = x.delay := rfl
@[simp] theorem setLane_bandLayout (x : ArrayS) (b : Nat) (l : Lane) : (setLane x b l).bandLayout = x.bandLayout := rfl
@[simp] theorem setLane_bandOcc (x : ArrayS) (b : Nat) (l : Lane) : (setLane x b l).bandOcc = x.bandOcc := rfl
@[simp] theorem setLane_bandFenced (x : ArrayS) (b : Nat) (l : Lane) : (setLane x b l).bandFenced = x.bandFenced := rfl
@[simp] theorem setLane_bandHold (x : ArrayS) (b : Nat) (l : Lane) : (setLane x b l).bandHold = x.bandHold := rfl
@[simp] theorem setLane_bound (x : ArrayS) (b : Nat) (l : Lane) : (setLane x b l).bound = x.bound := rfl
@[simp] theorem setLane_cnt (x : ArrayS) (b : Nat) (l : Lane) : (setLane x b l).cnt = x.cnt := rfl
@[simp] theorem setLane_missTimes (x : ArrayS) (b : Nat) (l : Lane) : (setLane x b l).missTimes = x.missTimes := rfl
@[simp] theorem setLane_parityTimes (x : ArrayS) (b : Nat) (l : Lane) : (setLane x b l).parityTimes = x.parityTimes := rfl
@[simp] theorem setLane_spec (x : ArrayS) (b : Nat) (l : Lane) : (setLane x b l).spec = x.spec := rfl
@[simp] theorem setLane_link (x : ArrayS) (b : Nat) (l : Lane) : (setLane x b l).link = x.link := rfl
@[simp] theorem setLane_gather (x : ArrayS) (b : Nat) (l : Lane) : (setLane x b l).gather = x.gather := rfl
@[simp] theorem setLane_tsp (x : ArrayS) (b : Nat) (l : Lane) : (setLane x b l).tsp = x.tsp := rfl
@[simp] theorem setLane_lastKey (x : ArrayS) (b : Nat) (l : Lane) : (setLane x b l).lastKey = x.lastKey := rfl
@[simp] theorem getLane_setLane (x : ArrayS) (b : Nat) (l : Lane) : getLane (setLane x b l) b = l := by simp [getLane, setLane]
theorem getLane_setLane_ne (x : ArrayS) (b c : Nat) (l : Lane) (h : c ≠ b) : getLane (setLane x b l) c = getLane x c := by
  simp [getLane, setLane, tget_tset, h]

end Sys2Proof.Machine
end

