-- ==== Sys2Proof/Laws/Ops.lean ====
section
/-!
SUPPORT. What the shared operations can do: the fault log and its reports, host-port requests, the wake from idle, answers, and
the completion of a descriptor. One lemma per operation says once what it leaves alone.
-/

namespace Sys2Proof.Machine

theorem ite_cases {α : Type} {p : Prop} [Decidable p] {a b : α} {q : α → Prop} (h : p → q a) (k : ¬p → q b) : q (if p then a else b) := by
  split
  · exact h ‹_›
  · exact k ‹_›

/-- Reading a table after a change of every listed entry. -/
theorem tget_tmap {α : Type} (d : α) (f : Nat → α → α) (t : Tbl α) (k : Nat) (h : f k d = d) :
    tget d (tmap f t) k = f k (tget d t k) := by
  induction t with
  | nil => simp [tget, tmap, h]
  | cons e t ih => simp only [tmap, List.map_cons, tget] at *; split <;> simp_all

/-! ### Host-port requests -/

/-- A request changes its host port's queues and credits alone. -/
theorem hostSend_eq (s : State) (p : Nat) (q : PortReq) :
    ∃ x, hostSend s p q = setHp s p x ∧ x.up = (getHp s p).up ∧ x.dead = (getHp s p).dead ∧ x.resp = (getHp s p).resp := by
  exact ite_cases (q := fun t => ∃ x, t = setHp s p x ∧ x.up = (getHp s p).up ∧ x.dead = (getHp s p).dead ∧ x.resp = (getHp s p).resp)
    (fun _ => ⟨_, rfl, rfl, rfl, rfl⟩) (fun _ => ⟨_, rfl, rfl, rfl, rfl⟩)

theorem hostSend_rest (s : State) (p : Nat) (q : PortReq) : hostSend s p q = { s with hp := (hostSend s p q).hp } := by
  obtain ⟨x, h, -⟩ := hostSend_eq s p q; rw [h]; rfl

theorem getHp_setHp_if (s : State) (p j : Nat) (x : HostPort) : getHp (setHp s p x) j = if j = p then x else getHp s j :=
  tget_tset _ _ _ _ _

theorem hostSend_levels (s : State) (p : Nat) (q : PortReq) (j : Nat) :
    (getHp (hostSend s p q) j).up = (getHp s j).up ∧ (getHp (hostSend s p q) j).dead = (getHp s j).dead ∧
    (getHp (hostSend s p q) j).resp = (getHp s j).resp := by
  obtain ⟨x, h, h1, h2, h3⟩ := hostSend_eq s p q
  rw [h, getHp_setHp_if]; split
  · subst_vars; exact ⟨h1, h2, h3⟩
  · exact ⟨rfl, rfl, rfl⟩

/-! ### The fault log -/

/-- The fault interrupt: the log's two interrupt marks change, and at most the word at irqAddr and a request of one port. -/
theorem faultIrq_cases (s : State) :
    (∃ f, f.entries = s.flog.entries ∧ f.next = s.flog.next ∧ f.written = s.flog.written ∧ faultIrq s = { s with flog := f }) ∨
    (∃ p q f, f.entries = s.flog.entries ∧ f.next = s.flog.next ∧ f.written = s.flog.written ∧ hostPortFor s 0 = some p ∧
      faultIrq s = hostSend { s with flog := f, mems := wrLe s.mems .mem s.regs.irqAddr.toNat 4 s.regs.irqData.toNat } p q) := by
  unfold faultIrq
  split
  · exact Or.inl ⟨s.flog, rfl, rfl, rfl, rfl⟩
  split
  · exact Or.inl ⟨{ s.flog with irqMore := true }, rfl, rfl, rfl, rfl⟩
  cases h : hostPortFor s 0 with
  | none => exact Or.inl ⟨{ s.flog with irqMore := true }, rfl, rfl, rfl, rfl⟩
  | some p => exact Or.inr ⟨p, _, { s.flog with irqWait := true, irqMore := false }, rfl, rfl, rfl, rfl, rfl⟩

theorem faultIrq_log (s : State) : (faultIrq s).flog.entries = s.flog.entries ∧ (faultIrq s).flog.next = s.flog.next ∧
    (faultIrq s).flog.written = s.flog.written ∧ (faultIrq s).sbd = s.sbd := by
  obtain ⟨f, h1, h2, h3, h⟩ | ⟨p, q, f, h1, h2, h3, -, h⟩ := faultIrq_cases s <;> rw [h]
  · exact ⟨h1, h2, h3, rfl⟩
  · rw [hostSend_rest]; exact ⟨h1, h2, h3, rfl⟩

theorem faultIrq_logOnly (s : State) : LogOnly s (faultIrq s) := by
  obtain ⟨f, -, -, -, h⟩ | ⟨p, q, f, -, -, -, -, h⟩ := faultIrq_cases s <;> rw [h]
  · exact ⟨rfl, fun _ _ _ => rfl, fun _ => ⟨rfl, rfl, rfl⟩⟩
  · refine ⟨by rw [hostSend_rest], fun sp a o => ?_, fun j => hostSend_levels _ p q j⟩
    rw [hostSend_rest]
    exact rdByte_wrBytes_outside _ _ _ _ _ _ (by simpa [leBytes] using o)

theorem LogOnly.trans {a b c : State} (h : LogOnly a b) (k : LogOnly b c) : LogOnly a c := by
  have e : b.regs = a.regs := by rw [h.rest]
  refine ⟨by rw [k.rest, h.rest], fun sp x o => ?_, fun p => ?_⟩
  · rw [k.bytes sp x (by rw [e]; exact o), h.bytes sp x o]
  · rw [(k.ports p).1, (k.ports p).2.1, (k.ports p).2.2]; exact h.ports p

/-- A fault-log entry leaves everything but the log and its reports alone. -/
theorem logFault_logOnly (s : State) (e : FlogEntry) : LogOnly s (logFault s e) := by
  have n : ∀ u x, LogOnly u (notifySideband u x) := by
    intro u x; unfold notifySideband
    split <;> exact ⟨rfl, fun _ _ _ => rfl, fun _ => ⟨rfl, rfl, rfl⟩⟩
  unfold logFault
  split
  · exact ⟨rfl, fun _ _ _ => rfl, fun _ => ⟨rfl, rfl, rfl⟩⟩
  · unfold logNew; dsimp only
    have b : ∀ f, LogOnly s { s with flog := f } := fun f => ⟨rfl, fun _ _ _ => rfl, fun _ => ⟨rfl, rfl, rfl⟩⟩
    split
    · exact (b _).trans ((n _ _).trans (faultIrq_logOnly _))
    · exact b _

/-! ### Requests of banks and ports -/

/-- A bank request, an RNG request and a journal write change their region's queues and journal alone. -/
theorem askBankFor_rest (s : State) (r cls a : Nat) (act : BankAct) (o : Owner) (f : Option (Nat × SlotRef)) :
    askBankFor s r cls a act o f = { s with rgns := (askBankFor s r cls a act o f).rgns } := rfl

theorem askBank_rest (s : State) (r cls a : Nat) (act : BankAct) (o : Owner) :
    askBank s r cls a act o = { s with rgns := (askBank s r cls a act o).rgns } := rfl

theorem askRng_rest (s : State) (r cls unit tag n : Nat) : askRng s r cls unit tag n = { s with rgns := (askRng s r cls unit tag n).rgns } := rfl

/-- A bank request stands at the end of its region's queue. -/
theorem askBank_reqs (s : State) (r cls a : Nat) (act : BankAct) (o : Owner) :
    (getRgn (askBank s r cls a act o) r).bankReqs = (getRgn s r).bankReqs ++
      [{ cls := cls, addr := a, act := act, arrived := (getRgn s r).scycle, owner := o, frees := none }] := by
  simp [askBank, askBankFor]

/-- A request of a memory port changes the ports' queues alone. -/
theorem queueRead_rest (s : State) (o : Owner) (asid : BitVec 16) (r cls a n : Nat) :
    ∃ m, queueRead s o asid r cls a n = { s with mp := m } := by
  unfold queueRead; split
  · exact ⟨s.mp, rfl⟩
  · exact ⟨_, rfl⟩

theorem queueOut_rest (s : State) (o : Owner) (asid : BitVec 16) (r op aop cls a : Nat) (bs : List Byte) :
    ∃ m, queueOut s o asid r op aop cls a bs = { s with mp := m } := by
  unfold queueOut; split
  · exact ⟨s.mp, rfl⟩
  · exact ⟨_, rfl⟩

/-- Operations that change memory ports alone, one after another. -/
theorem foldl_mp {α : Type} (f : State → α → State) (h : ∀ u x, ∃ m, f u x = { u with mp := m }) (l : List α) (s : State) :
    ∃ m, l.foldl f s = { s with mp := m } := by
  induction l generalizing s with
  | nil => exact ⟨s.mp, rfl⟩
  | cons x l ih =>
    obtain ⟨m, k⟩ := h s x
    obtain ⟨n, e⟩ := ih (f s x)
    exact ⟨n, by rw [List.foldl_cons, e, k]⟩

theorem queueReads_rest (s : State) (o : Owner) (asid : BitVec 16) (r cls a n : Nat) :
    ∃ m, queueReads s o asid r cls a n = { s with mp := m } := by
  unfold queueReads
  apply foldl_mp
  intro u x
  exact queueRead_rest u o asid r cls x.1 x.2

theorem queueSnapshot_rest (s : State) (r : Nat) (bs : List Byte) : ∃ m, queueSnapshot s r bs = { s with mp := m } := by
  unfold queueSnapshot
  apply foldl_mp
  intro u x
  exact queueOut_rest u .maint s.regs.engineAsid r 1 0 2 x.1 _

end Sys2Proof.Machine
end

