-- ==== Sys2Proof/Laws/Feed.lean ====
section
/-!
SUPPORT. What the requests of the feed can do: nothing but queue reads at banks and ports, and move the rows that lanes have asked for.
-/

namespace Sys2Proof.Machine

/-- From `s` to `t` nothing but reads were asked for: the requests of banks and of memory ports, and the rows that lanes have asked for. -/
structure Asks (s t : State) : Prop where
  rest : t = { s with arrs := t.arrs, rgns := t.rgns, mp := t.mp }
  rgn : ∀ r, getRgn t r = { getRgn s r with bankReqs := (getRgn t r).bankReqs }
  port : ∀ q, getMp t q = { getMp s q with rdQ := (getMp t q).rdQ }
  arr : ∀ a, getArr t a = { getArr s a with lanes := (getArr t a).lanes }
  lane : ∀ a b, getLane (getArr t a) b = { getLane (getArr s a) b with asked := (getLane (getArr t a) b).asked }

theorem Asks.refl (s : State) : Asks s s := ⟨rfl, fun _ => rfl, fun _ => rfl, fun _ => rfl, fun _ _ => rfl⟩

theorem Asks.trans {s t u : State} (h : Asks s t) (k : Asks t u) : Asks s u where
  rest := by rw [k.rest, h.rest]
  rgn r := by rw [k.rgn r, h.rgn r]
  port q := by rw [k.port q, h.port q]
  arr a := by rw [k.arr a, h.arr a]
  lane a b := by rw [k.lane a b, h.lane a b]

theorem Asks.foldl {α : Type} {l : List α} {f : State → α → State} (hf : ∀ t x, Asks t (f t x)) (s : State) : Asks s (l.foldl f s) := by
  induction l generalizing s with
  | nil => exact .refl s
  | cons x l ih => exact (hf s x).trans (ih _)

theorem asks_askBank (s : State) (r cls a : Nat) (act : BankAct) (o : Owner) : Asks s (askBank s r cls a act o) where
  rest := rfl
  rgn n := by
    by_cases h : n = r
    · subst h; simp [askBank, askBankFor]
    · simp [askBank, askBankFor, getRgn_setRgn_ne _ _ _ _ h]
  port _ := rfl
  arr _ := rfl
  lane _ _ := rfl

theorem asks_queueRead (s : State) (o : Owner) (asid : BitVec 16) (r cls a n : Nat) (u : Option (Nat × Nat)) :
    Asks s (queueRead s o asid r cls a n u) := by
  unfold queueRead
  split
  · exact .refl s
  · rename_i q _
    refine ⟨rfl, fun _ => rfl, fun p => ?_, fun _ => rfl, fun _ _ => rfl⟩
    by_cases h : p = q
    · subst h; simp
    · simp [getMp_setMp_ne _ _ _ _ h]

theorem asks_readAt (s : State) (r cls : Nat) (sp : Space) (a n : Nat) (t : SubTile) : Asks s (readAt s r cls sp a n t) := by
  unfold readAt
  split
  · exact .foldl (fun _ _ => asks_askBank ..) s
  · exact .foldl (fun _ _ => asks_queueRead ..) s

theorem asks_askActs (s : State) (r cls : Nat) (w : Work) (row : Nat) : Asks s (askActs s r cls w row) :=
  (Asks.foldl (fun _ _ => asks_askBank ..) s).trans (.foldl (fun _ _ => asks_readAt ..) _)

theorem asks_askParts (s : State) (r : Nat) (w : Work) (row : Nat) : Asks s (askParts s r w row) := .foldl (fun _ _ => asks_readAt ..) s

theorem asks_setAsked (s : State) (a b n : Nat) :
    Asks s (setArr s a (setLane (getArr s a) b { getLane (getArr s a) b with asked := n })) := by
  refine ⟨rfl, fun _ => rfl, fun _ => rfl, fun k => ?_, fun k c => ?_⟩ <;> by_cases h : k = a
  · subst h; simp [setLane]
  · simp [getArr_setArr_ne _ _ _ _ h]
  · subst h
    by_cases hc : c = b
    · subst hc; simp
    · simp [getLane_setLane_ne _ _ _ _ hc]
  · simp [getArr_setArr_ne _ _ _ _ h]

theorem asks_askAhead (s : State) (a : Nat) (w : Work) : Asks s (askAhead s a w) := by
  unfold askAhead
  dsimp only
  split
  · exact .refl s
  · exact (asks_setAsked s a _ _).trans (.foldl (fun _ _ => asks_askActs ..) _)

/-- The running passes of an array ask for rows, and do nothing else. -/
theorem asks_feedAhead (s : State) (a : Nat) : Asks s (feedAhead s a) := .foldl (fun _ _ => asks_askAhead ..) s

end Sys2Proof.Machine
end

