-- ==== Sys2Proof/Laws/Keeps.lean ====
section
/-!
SUPPORT. What every command keeps (`Keeps`): the relation's own laws, and how record updates and loops preserve it.
-/

namespace Sys2Proof.Machine

theorem Keeps.refl (s : State) : Keeps s s := ⟨rfl, rfl, rfl, le_refl _, le_refl _, id⟩

theorem Keeps.trans {a b c : State} (h : Keeps a b) (k : Keeps b c) : Keeps a c :=
  ⟨k.cfg.trans h.cfg, k.env.trans h.env, k.pending.trans h.pending, le_trans h.time k.time, le_trans h.free k.free,
   fun x => k.inv (h.inv x)⟩

section
variable {s0 s : State}

/-- An update of fields that the invariant does not speak of. -/
theorem keeps_mk (h : Keeps s0 s) {b p u i m q x y sb ta tl le g c r a d} :
    Keeps s0 ⟨s.cfg, b, s.time, s.mems, s.env, s.regs, p, s.mnt, u, i, m, q, x, y, s.flog, sb, ta, tl, le, g, c, r, a, d,
      s.freeCnt, s.pending⟩ :=
  ⟨h.cfg, h.env, h.pending, h.time, h.free, fun z => ⟨(h.inv z).mem, (h.inv z).token, (h.inv z).version, (h.inv z).log⟩⟩

/-- An update that also writes memory, the token, the setup registers, the log, T or the count of free values. -/
theorem keeps_lit (h : Keeps s0 s) {ti : Time} {ms : Mems} {rg : Regs} {mn : Maint} {fl : FaultLog} {f : Nat}
    (h1 : s.time.t ≤ ti.t) (h2 : s.freeCnt ≤ f) (h3 : s.mems.wf = true → ms.wf = true)
    (h4 : s.mnt.holder ≠ 3 → mn.holder ≠ 3) (h5 : s.regs.agreed = 1 → rg.agreed = 1)
    (h6 : s.flog.next.toNat = s.flog.written.toNat % 512 → fl.next.toNat = fl.written.toNat % 512)
    {b p u i m q x y sb ta tl le g c r a d} :
    Keeps s0 ⟨s.cfg, b, ti, ms, s.env, rg, p, mn, u, i, m, q, x, y, fl, sb, ta, tl, le, g, c, r, a, d, f, s.pending⟩ :=
  ⟨h.cfg, h.env, h.pending, le_trans h.time h1, le_trans h.free h2,
   fun z => ⟨h3 (h.inv z).mem, h4 (h.inv z).token, h5 (h.inv z).version, h6 (h.inv z).log⟩⟩

theorem keeps_of_fst {α : Type} {p : State × α} {t : State} {b : α} (e : p = (t, b)) (h : Keeps s0 p.1) : Keeps s0 t := by
  subst e; exact h

theorem keeps_of_snd {α : Type} {p : α × State} {t : State} {b : α} (e : p = (b, t)) (h : Keeps s0 p.2) : Keeps s0 t := by
  subst e; exact h

theorem keeps_ite {a b : State} {p : Prop} [Decidable p] (ha : Keeps s0 a) (hb : Keeps s0 b) :
    Keeps s0 (if p then a else b) := by
  split
  · exact ha
  · exact hb

theorem keeps_foldl {α : Type} {l : List α} {f : State → α → State} (hf : ∀ t x, Keeps s0 t → Keeps s0 (f t x))
    (h : Keeps s0 s) : Keeps s0 (l.foldl f s) := by
  induction l generalizing s with
  | nil => exact h
  | cons x l ih => exact ih (hf _ _ h)

end

end Sys2Proof.Machine
end

