-- ==== Sys2Proof/Laws/KeepsOps.lean ====
section
/-!
SUPPORT. `Keeps` for the shared operations, containment, records, telemetry, maintenance and resets.
-/

namespace Sys2Proof.Machine

theorem keeps_setArr {s0 s : State} {a : Nat} {x : ArrayS} (h : Keeps s0 s)  : Keeps s0 (setArr s a x) := by
  unfold setArr
  try dsimp only
  repeat' first | with_reducible (first | exact h | apply keeps_ite | assumption) | split | with_reducible apply keeps_mk

theorem keeps_setRgn {s0 s : State} {r : Nat} {x : Region} (h : Keeps s0 s)  : Keeps s0 (setRgn s r x) := by
  unfold setRgn
  try dsimp only
  repeat' first | with_reducible (first | exact h | apply keeps_ite | assumption) | split | with_reducible apply keeps_mk

theorem keeps_setCtx {s0 s : State} {c : Nat} {x : Context} (h : Keeps s0 s)  : Keeps s0 (setCtx s c x) := by
  unfold setCtx
  try dsimp only
  repeat' first | with_reducible (first | exact h | apply keeps_ite | assumption) | split | with_reducible apply keeps_mk

theorem keeps_setMp {s0 s : State} {q : Nat} {x : MemPort} (h : Keeps s0 s)  : Keeps s0 (setMp s q x) := by
  unfold setMp
  try dsimp only
  repeat' first | with_reducible (first | exact h | apply keeps_ite | assumption) | split | with_reducible apply keeps_mk

theorem keeps_setHp {s0 s : State} {p : Nat} {x : HostPort} (h : Keeps s0 s)  : Keeps s0 (setHp s p x) := by
  unfold setHp
  try dsimp only
  repeat' first | with_reducible (first | exact h | apply keeps_ite | assumption) | split | with_reducible apply keeps_mk

theorem keeps_setIsl {s0 s : State} {i : Nat} {x : Island} (h : Keeps s0 s)  : Keeps s0 (setIsl s i x) := by
  unfold setIsl
  try dsimp only
  repeat' first | with_reducible (first | exact h | apply keeps_ite | assumption) | split | with_reducible apply keeps_mk

theorem keeps_setAcct {s0 s : State} {c : Nat} {x : Acct} (h : Keeps s0 s)  : Keeps s0 (setAcct s c x) := by
  unfold setAcct
  try dsimp only
  repeat' first | with_reducible (first | exact h | apply keeps_ite | assumption) | split | with_reducible apply keeps_mk

theorem keeps_putUnit {s0 s : State} {k : UnitKind} {n : Nat} {st : UState} (h : Keeps s0 s)  : Keeps s0 (putUnit s k n st) := by
  unfold putUnit
  try dsimp only
  repeat' first | with_reducible (first | exact h | apply keeps_ite | assumption) | split | with_reducible apply keeps_mk

theorem keeps_addCnt {s0 s : State} {i : Nat} {n : Nat} (h : Keeps s0 s)  : Keeps s0 (addCnt s i n) := by
  unfold addCnt
  try dsimp only
  repeat' first | with_reducible (first | exact h | apply keeps_ite | assumption) | split | with_reducible apply keeps_mk

theorem keeps_addRgnCnt {s0 s : State} {r : Nat} {i : Nat} {n : Nat} (h : Keeps s0 s)  : Keeps s0 (addRgnCnt s r i n) := by
  unfold addRgnCnt
  try dsimp only
  repeat' first | with_reducible (first | exact h | apply keeps_setRgn)

theorem keeps_addArrCnt {s0 s : State} {a : Nat} {i : Nat} {n : Nat} (h : Keeps s0 s)  : Keeps s0 (addArrCnt s a i n) := by
  unfold addArrCnt
  try dsimp only
  repeat' first | with_reducible (first | exact h | apply keeps_setArr)

theorem keeps_freeNext {s0 s : State} (h : Keeps s0 s) : Keeps s0 (freeNext s).2 :=
  keeps_lit h (le_refl _) (Nat.le_succ _) id id id id

theorem keeps_hostSend {s0 s : State} {p : Nat} {q : PortReq} (h : Keeps s0 s)  : Keeps s0 (hostSend s p q) := by
  unfold hostSend
  try dsimp only
  repeat' first | with_reducible (first | exact h | apply keeps_setHp | apply keeps_ite)

theorem keeps_faultIrq {s0 s : State}  (h : Keeps s0 s)  : Keeps s0 (faultIrq s) := by
  unfold faultIrq
  try dsimp only
  repeat' first | with_reducible (first | exact h | apply keeps_hostSend | apply keeps_ite | assumption) | split | with_reducible apply keeps_mk | refine keeps_lit ?_ (by first | with_reducible exact le_refl _ | with_reducible exact Nat.le_succ _ | omega) (by first | with_reducible exact le_refl _ | with_reducible exact Nat.le_succ _) (by with_reducible first | exact id | exact mems_wf_wrBytes _ _ _ _ | exact mems_wf_wrLe _ _ _ _ _ | exact mems_wf_applyWrites _ _ | exact mems_wf_dropSpad _ _ | exact mems_wf_noSpad _) (by first | with_reducible exact id | exact fun _ => by decide | exact fun _ => rfl | simp) (by first | with_reducible exact id | exact fun _ => by decide | exact fun _ => rfl | simp) (by first | with_reducible exact id | exact fun _ => by decide | exact fun _ => rfl | simp)

theorem keeps_irqHeld {s0 s : State}  (h : Keeps s0 s)  : Keeps s0 (irqHeld s) := by
  unfold irqHeld
  try dsimp only
  repeat' first | with_reducible (first | exact h | apply keeps_faultIrq | apply keeps_ite)

theorem keeps_notifySideband {s0 s : State} {ee : FlogEntry} (h : Keeps s0 s)  : Keeps s0 (notifySideband s ee) := by
  unfold notifySideband
  try dsimp only
  repeat' first | with_reducible (first | exact h | apply keeps_ite | assumption) | (intro _; intros) | split | with_reducible apply keeps_mk

theorem log_next_succ {n : BitVec 9} {w : W32} (h : n.toNat = w.toNat % 512) : (n + 1).toNat = (w + 1).toNat % 512 := by
  have h1 := w.isLt
  have h2 : (1#9).toNat = 1 := rfl
  have h3 : (1#32).toNat = 1 := rfl
  rw [show (n + 1) = n + 1#9 from rfl, show (w + 1) = w + 1#32 from rfl, BitVec.toNat_add, BitVec.toNat_add, h2, h3, h]
  omega

theorem keeps_logNew {s0 s : State} {e : FlogEntry} (h : Keeps s0 s) : Keeps s0 (logNew s e) := by
  have h1 : Keeps s0 { s with
      flog := { s.flog with entries := tset s.flog.entries s.flog.next.toNat e, next := s.flog.next + 1,
                            written := s.flog.written + 1 } } :=
    keeps_lit h (le_refl _) (le_refl _) id id id log_next_succ
  unfold logNew
  dsimp only
  split
  · exact keeps_faultIrq (keeps_notifySideband h1)
  · exact h1

theorem keeps_logFault {s0 s : State} {ee : FlogEntry} (h : Keeps s0 s)  : Keeps s0 (logFault s ee) := by
  unfold logFault
  try dsimp only
  repeat' first | with_reducible (first | exact h | apply keeps_logNew | apply keeps_ite | assumption) | split | with_reducible apply keeps_mk | refine keeps_lit ?_ (by first | with_reducible exact le_refl _ | with_reducible exact Nat.le_succ _ | omega) (by first | with_reducible exact le_refl _ | with_reducible exact Nat.le_succ _) (by with_reducible first | exact id | exact mems_wf_wrBytes _ _ _ _ | exact mems_wf_wrLe _ _ _ _ _ | exact mems_wf_applyWrites _ _ | exact mems_wf_dropSpad _ _ | exact mems_wf_noSpad _) (by first | with_reducible exact id | exact fun _ => by decide | exact fun _ => rfl | simp) (by first | with_reducible exact id | exact fun _ => by decide | exact fun _ => rfl | simp) (by first | with_reducible exact id | exact fun _ => by decide | exact fun _ => rfl | simp)

theorem keeps_mainSideDown {s0 s : State} (h : Keeps s0 s) : Keeps s0 (mainSideDown s) := by
  refine keeps_lit h (le_refl _) (le_refl _) id (fun hk => ?_) id id
  dsimp only
  split
  · decide
  · exact hk

theorem keeps_boardFault {s0 s : State} {kind : BitVec 4} {source : Byte} {index : Nat} {detail : Nat} (h : Keeps s0 s)  : Keeps s0 (boardFault s kind source index detail) := by
  unfold boardFault
  try dsimp only
  repeat' first | with_reducible (first | exact h | apply keeps_logFault | apply keeps_mainSideDown | apply keeps_ite | assumption) | split | with_reducible apply keeps_mk

theorem keeps_wake {s0 s : State}  (h : Keeps s0 s)  : Keeps s0 (wake s) := by
  unfold wake
  try dsimp only
  repeat' first | with_reducible (first | exact h | apply keeps_ite | assumption) | (intro _; intros) | split | with_reducible apply keeps_mk

theorem keeps_respond {s0 s : State} {p : Nat} {r : HostResp} (h : Keeps s0 s)  : Keeps s0 (respond s p r) := by
  unfold respond
  try dsimp only
  repeat' first | with_reducible (first | exact h | apply keeps_setHp)

theorem keeps_sbdDone {s0 s : State} {cmd : Byte} {hh : SbdHead} {code : Byte} {payload : List W64} (h : Keeps s0 s)  : Keeps s0 (sbdDone s cmd hh code payload) := by
  unfold sbdDone
  try dsimp only
  repeat' first | with_reducible (first | exact h | apply keeps_ite | assumption) | split | with_reducible apply keeps_mk

theorem keeps_dropSpeculation {s0 s : State} {a : Nat} (h : Keeps s0 s)  : Keeps s0 (dropSpeculation s a) := by
  unfold dropSpeculation
  try dsimp only
  repeat' first | with_reducible (first | exact h | apply keeps_addCnt | apply keeps_setArr | apply keeps_ite)

theorem keeps_leaveArray {s0 s : State} {a : Nat} {f : SubTile → Bool} (h : Keeps s0 s)  : Keeps s0 (leaveArray s a f) := by
  unfold leaveArray
  try dsimp only
  repeat' first | with_reducible (first | exact h | apply keeps_setArr | apply keeps_ite)

theorem keeps_emptyArray {s0 s : State} {a : Nat} (h : Keeps s0 s)  : Keeps s0 (emptyArray s a) := by
  unfold emptyArray
  try dsimp only
  repeat' first | with_reducible (first | exact h | apply keeps_dropSpeculation | apply keeps_setRgn | apply keeps_leaveArray | apply keeps_setArr | apply keeps_ite)

theorem keeps_emptySide {s0 s : State} {r : Nat} (h : Keeps s0 s)  : Keeps s0 (emptySide s r) := by
  unfold emptySide
  try dsimp only
  repeat' first | with_reducible (first | exact h | apply keeps_setRgn)

theorem keeps_finishDesc {s0 s : State} {c : Nat} {ring : W32} {res : Result} (h : Keeps s0 s)  : Keeps s0 (finishDesc s c ring res) := by
  unfold finishDesc
  try dsimp only
  repeat' first | with_reducible (first | exact h | apply keeps_setCtx)

theorem keeps_loseAtomic {s0 s : State} {q : PortReq} (h : Keeps s0 s)  : Keeps s0 (loseAtomic s q) := by
  unfold loseAtomic
  try dsimp only
  repeat' first | with_reducible (first | exact h | apply keeps_finishDesc | apply keeps_ite | assumption) | split

theorem keeps_emptyPort {s0 s : State} {q : Nat} (h : Keeps s0 s)  : Keeps s0 (emptyPort s q) := by
  unfold emptyPort
  try dsimp only
  repeat' first | with_reducible (first | exact h | apply keeps_loseAtomic | apply keeps_setMp | apply keeps_ite | apply keeps_foldl | assumption) | (intro _; intros) | split

theorem keeps_failAtomics {s0 s : State} {reqs : List BankReq} (h : Keeps s0 s)  : Keeps s0 (failAtomics s reqs) := by
  unfold failAtomics
  try dsimp only
  repeat' first | with_reducible (first | exact h | apply keeps_finishDesc | apply keeps_ite | apply keeps_foldl | assumption) | (intro _; intros) | split

theorem keeps_freeSlot {s0 s : State} {c : Nat} {sl : Option SlotRef} (h : Keeps s0 s)  : Keeps s0 (freeSlot s c sl) := by
  unfold freeSlot
  try dsimp only
  repeat' first | with_reducible (first | exact h | apply keeps_setCtx | apply keeps_setRgn | apply keeps_ite | assumption) | split

theorem keeps_dropRequests {s0 s : State} {reqs : List BankReq} (h : Keeps s0 s)  : Keeps s0 (dropRequests s reqs) := by
  unfold dropRequests
  try dsimp only
  repeat' first | with_reducible (first | exact h | apply keeps_freeSlot | apply keeps_setHp | apply keeps_ite | apply keeps_foldl | assumption) | (intro _; intros) | split

theorem keeps_freeEntries {s0 s : State} {f : SubTile → Bool} (h : Keeps s0 s)  : Keeps s0 (freeEntries s f) := by
  unfold freeEntries
  try dsimp only
  repeat' first | with_reducible (first | exact h | apply keeps_ite | apply keeps_foldl | assumption) | (intro _; intros) | split | with_reducible apply keeps_mk

theorem keeps_dropSubs {s0 s : State} {f : SubTile → Bool} (h : Keeps s0 s)  : Keeps s0 (dropSubs s f) := by
  unfold dropSubs
  try dsimp only
  repeat' first | with_reducible (first | exact h | apply keeps_freeSlot | apply keeps_freeEntries | apply keeps_leaveArray | apply keeps_ite | apply keeps_foldl | assumption) | (intro _; intros) | split | with_reducible apply keeps_mk

theorem keeps_dropConfirmed {s0 s : State} {c : Nat} {ring : W32} (h : Keeps s0 s)  : Keeps s0 (dropConfirmed s c ring) := by
  unfold dropConfirmed
  try dsimp only
  repeat' first | with_reducible (first | exact h | apply keeps_ite | assumption) | (intro _; intros) | split | with_reducible apply keeps_mk

theorem keeps_endDesc {s0 s : State} {c : Nat} {ring : W32} {st : Status} {result : W64} (h : Keeps s0 s) :
    Keeps s0 (endDesc s c ring st result) := keeps_finishDesc (keeps_dropConfirmed (keeps_dropSubs h))

theorem keeps_absentDesc {s0 s : State} {c : Nat} {ring : W32} (h : Keeps s0 s)  : Keeps s0 (absentDesc s c ring) := by
  unfold absentDesc
  try dsimp only
  repeat' first | with_reducible (first | exact h | apply keeps_setCtx | apply keeps_endDesc | apply keeps_ite | assumption) | (intro _; intros) | split | with_reducible apply keeps_mk

theorem keeps_xlateFail {s0 s : State} {c : Nat} {ring : W32} {addr : Nat} {sub : Option (Nat × Nat)} (h : Keeps s0 s)  : Keeps s0 (xlateFail s c ring addr sub) := by
  unfold xlateFail
  try dsimp only
  repeat' first | with_reducible (first | exact h | apply keeps_setArr | apply keeps_endDesc | apply keeps_ite | assumption) | split

theorem keeps_leavePort {s0 s : State} {dest : Nat} {q : Nat} (h : Keeps s0 s)  : Keeps s0 (leavePort s dest q) := by
  unfold leavePort
  try dsimp only
  repeat' first | with_reducible (first | exact h | apply keeps_loseAtomic | apply keeps_setMp | apply keeps_ite | apply keeps_foldl | assumption) | (intro _; intros) | split

theorem keeps_leavePorts {s0 s : State} {r : Nat} (h : Keeps s0 s)  : Keeps s0 (leavePorts s r) := by
  unfold leavePorts
  try dsimp only
  repeat' first | with_reducible (first | exact h | apply keeps_emptyPort | apply keeps_leavePort | apply keeps_ite | apply keeps_foldl | assumption) | (intro _; intros) | split

theorem keeps_adoptPorts {s0 s : State} {r : Nat} (h : Keeps s0 s)  : Keeps s0 (adoptPorts s r) := by
  unfold adoptPorts
  try dsimp only
  repeat' first | with_reducible (first | exact h | apply keeps_leavePort | apply keeps_ite | apply keeps_foldl | assumption) | (intro _; intros)

theorem keeps_moveRemote {s0 s : State} {es : Tbl JEntry} {dest : Nat} (h : Keeps s0 s)  : Keeps s0 (moveRemote s es dest) := by
  unfold moveRemote
  try dsimp only
  repeat' first | with_reducible (first | exact h | apply keeps_setRgn | apply keeps_ite | apply keeps_foldl | assumption) | (intro _; intros) | split

theorem keeps_failOperands {s0 s : State} {r : Nat} (h : Keeps s0 s)  : Keeps s0 (failOperands s r) := by
  unfold failOperands
  try dsimp only
  repeat' first | with_reducible (first | exact h | apply keeps_endDesc | apply keeps_ite | apply keeps_foldl | assumption) | (intro _; intros)

theorem keeps_leaveLive {s0 s : State} {r : Nat} (h : Keeps s0 s)  : Keeps s0 (leaveLive s r) := by
  unfold leaveLive
  try dsimp only
  repeat' first | with_reducible (first | exact h | apply keeps_setRgn | apply keeps_dropRequests | apply keeps_failAtomics | apply keeps_failOperands | apply keeps_ite | assumption) | (intro _; intros) | split | with_reducible apply keeps_mk

theorem keeps_orphanSubs {s0 s : State} {r : Nat} (h : Keeps s0 s)  : Keeps s0 (orphanSubs s r) := by
  unfold orphanSubs
  try dsimp only
  repeat' first | with_reducible (first | exact h | apply keeps_setRgn | apply keeps_leaveArray | apply keeps_ite | apply keeps_foldl | assumption) | (intro _; intros) | split | with_reducible apply keeps_mk

theorem keeps_emptyRegion {s0 s : State} {r : Nat} {fenced : Bool} (h : Keeps s0 s)  : Keeps s0 (emptyRegion s r fenced) := by
  unfold emptyRegion
  try dsimp only
  repeat' first | with_reducible (first | exact h | apply keeps_emptyArray | apply keeps_leaveLive | apply keeps_emptySide | apply keeps_freeSlot | apply keeps_orphanSubs | apply keeps_setRgn | apply keeps_moveRemote | apply keeps_leavePorts | apply keeps_dropRequests | apply keeps_ite | apply keeps_foldl | assumption) | (intro _; intros) | split | with_reducible apply keeps_mk

theorem keeps_putRegion {s0 s : State} {r : Nat} {st : UState} (h : Keeps s0 s)  : Keeps s0 (putRegion s r st) := by
  unfold putRegion
  try dsimp only
  repeat' first | with_reducible (first | exact h | apply keeps_putUnit | apply keeps_ite | apply keeps_foldl | assumption) | (intro _; intros)

theorem keeps_endSelfTest {s0 s : State} {n : Nat} (h : Keeps s0 s)  : Keeps s0 (endSelfTest s n) := by
  unfold endSelfTest
  try dsimp only
  repeat' first | with_reducible (first | exact h | apply keeps_setRgn)

theorem keeps_takeOut {s0 s : State} {k : UnitKind} {n : Nat} {st : UState} (h : Keeps s0 s) : Keeps s0 (takeOut s k n st) := by
  cases k
  · exact keeps_ite (keeps_endSelfTest (keeps_putUnit (keeps_emptyArray h))) (keeps_putUnit (keeps_emptyArray h))
  · exact keeps_putUnit (keeps_emptySide h)
  · exact keeps_putRegion (keeps_emptyRegion h)
  · exact keeps_putUnit (keeps_emptyPort h)

theorem keeps_portsLeft {s0 s : State} {k : UnitKind} {n : Nat} (h : Keeps s0 s)  : Keeps s0 (portsLeft s k n) := by
  unfold portsLeft
  try dsimp only
  repeat' first | with_reducible (first | exact h | apply keeps_logFault | apply keeps_takeOut | apply keeps_ite)

theorem keeps_fenceQuiet {s0 s : State} {k : UnitKind} {n : Nat} (h : Keeps s0 s)  : Keeps s0 (fenceQuiet s k n) := by
  unfold fenceQuiet
  try dsimp only
  repeat' first | with_reducible (first | exact h | apply keeps_portsLeft | apply keeps_takeOut)

theorem keeps_fenceUnit {s0 s : State} {k : UnitKind} {n : Nat} (h : Keeps s0 s)  : Keeps s0 (fenceUnit s k n) := by
  unfold fenceUnit
  try dsimp only
  repeat' first | with_reducible (first | exact h | apply keeps_portsLeft | apply keeps_logFault | apply keeps_takeOut)

theorem keeps_logIgnored {s0 s : State} {k : UnitKind} {n : Nat} (h : Keeps s0 s)  : Keeps s0 (logIgnored s k n) := by
  unfold logIgnored
  try dsimp only
  repeat' first | with_reducible (first | exact h | apply keeps_logFault)

theorem keeps_dropOwned {s0 s : State} {k : UnitKind} {n : Nat} (h : Keeps s0 s)  : Keeps s0 (dropOwned s k n) := by
  unfold dropOwned
  try dsimp only
  repeat' first | with_reducible (first | exact h | apply keeps_ite | assumption) | split | with_reducible apply keeps_mk | refine keeps_lit ?_ (by first | with_reducible exact le_refl _ | with_reducible exact Nat.le_succ _ | omega) (by first | with_reducible exact le_refl _ | with_reducible exact Nat.le_succ _) (by with_reducible first | exact id | exact mems_wf_wrBytes _ _ _ _ | exact mems_wf_wrLe _ _ _ _ _ | exact mems_wf_applyWrites _ _ | exact mems_wf_dropSpad _ _ | exact mems_wf_noSpad _) (by first | with_reducible exact id | exact fun _ => by decide | exact fun _ => rfl | simp) (by first | with_reducible exact id | exact fun _ => by decide | exact fun _ => rfl | simp) (by first | with_reducible exact id | exact fun _ => by decide | exact fun _ => rfl | simp)

theorem keeps_disableUnit {s0 s : State} {k : UnitKind} {n : Nat} (h : Keeps s0 s)  : Keeps s0 (disableUnit s k n) := by
  unfold disableUnit
  try dsimp only
  repeat' first | with_reducible (first | exact h | apply keeps_putUnit | apply keeps_dropSpeculation | apply keeps_putRegion | apply keeps_leaveLive | apply keeps_portsLeft | apply keeps_ite | apply keeps_foldl | assumption) | (intro _; intros) | split

theorem keeps_forceDisableUnit {s0 s : State} {k : UnitKind} {n : Nat} (h : Keeps s0 s)  : Keeps s0 (forceDisableUnit s k n) := by
  unfold forceDisableUnit
  try dsimp only
  repeat' first | with_reducible (first | exact h | apply keeps_portsLeft | apply keeps_logFault | apply keeps_takeOut | apply keeps_ite | assumption) | split

theorem keeps_enableUnit {s0 s : State} {k : UnitKind} {n : Nat} (h : Keeps s0 s)  : Keeps s0 (enableUnit s k n) := by
  unfold enableUnit
  try dsimp only
  repeat' first | with_reducible (first | exact h | apply keeps_putRegion | apply keeps_dropOwned | apply keeps_logIgnored | apply keeps_putUnit | apply keeps_ite)

theorem keeps_unitReq {s0 s : State} {k : UnitKind} {n : Nat} {act : UnitAction} (h : Keeps s0 s)  : Keeps s0 (unitReq s k n act) := by
  unfold unitReq
  try dsimp only
  repeat' first | with_reducible (first | exact h | apply keeps_logIgnored | apply keeps_disableUnit | apply keeps_forceDisableUnit | apply keeps_enableUnit | apply keeps_fenceUnit | apply keeps_ite | assumption) | split

theorem keeps_drainDone {s0 s : State} {k : UnitKind} {n : Nat} (h : Keeps s0 s)  : Keeps s0 (drainDone s k n) := by
  unfold drainDone
  try dsimp only
  repeat' first | with_reducible (first | exact h | apply keeps_putRegion | apply keeps_emptyRegion | apply keeps_putUnit | apply keeps_logFault | apply keeps_ite | assumption) | split | with_reducible apply keeps_mk

theorem keeps_clearTimes {s0 s : State} {k : UnitKind} {n : Nat} (h : Keeps s0 s)  : Keeps s0 (clearTimes s k n) := by
  unfold clearTimes
  try dsimp only
  repeat' first | with_reducible (first | exact h | apply keeps_setArr | apply keeps_setRgn | apply keeps_setMp | apply keeps_ite | assumption) | split

theorem keeps_testOne {s0 s : State} {k : UnitKind} {n : Nat} {pass : Bool} (h : Keeps s0 s)  : Keeps s0 (testOne s k n pass) := by
  unfold testOne
  try dsimp only
  repeat' first | with_reducible (first | exact h | apply keeps_logFault | apply keeps_clearTimes | apply keeps_putUnit | apply keeps_ite)

theorem keeps_testRegion {s0 s : State} {n : Nat} {r : TestReport} (h : Keeps s0 s)  : Keeps s0 (testRegion s n r) := by
  unfold testRegion
  try dsimp only
  repeat' first | with_reducible (first | exact h | apply keeps_logFault | apply keeps_putRegion | apply keeps_putUnit | apply keeps_setRgn | apply keeps_testOne | apply keeps_portsLeft | apply keeps_adoptPorts | apply keeps_ite | apply keeps_foldl | assumption) | (intro _; intros) | split | with_reducible apply keeps_mk | refine keeps_lit ?_ (by first | with_reducible exact le_refl _ | with_reducible exact Nat.le_succ _ | omega) (by first | with_reducible exact le_refl _ | with_reducible exact Nat.le_succ _) (by with_reducible first | exact id | exact mems_wf_wrBytes _ _ _ _ | exact mems_wf_wrLe _ _ _ _ _ | exact mems_wf_applyWrites _ _ | exact mems_wf_dropSpad _ _ | exact mems_wf_noSpad _) (by first | with_reducible exact id | exact fun _ => by decide | exact fun _ => rfl | simp) (by first | with_reducible exact id | exact fun _ => by decide | exact fun _ => rfl | simp) (by first | with_reducible exact id | exact fun _ => by decide | exact fun _ => rfl | simp)

theorem keeps_chargeRd {s0 s : State} {c : Nat} {n : Nat} (h : Keeps s0 s)  : Keeps s0 (chargeRd s c n) := by
  unfold chargeRd
  try dsimp only
  repeat' first | with_reducible (first | exact h | apply keeps_setAcct)

theorem keeps_chargeWr {s0 s : State} {c : Nat} {n : Nat} (h : Keeps s0 s)  : Keeps s0 (chargeWr s c n) := by
  unfold chargeWr
  try dsimp only
  repeat' first | with_reducible (first | exact h | apply keeps_setAcct)

theorem keeps_hostIssue {s0 s : State} {c : Nat} {q : PortReq} (h : Keeps s0 s)  : Keeps s0 (hostIssue s c q) := by
  unfold hostIssue
  try dsimp only
  repeat' first | with_reducible (first | exact h | apply keeps_hostSend | apply keeps_setHp | apply keeps_ite | assumption) | split

theorem keeps_hostPut {s0 s : State} {c : Nat} {o : Owner} {a : Nat} {bs : List Byte} (h : Keeps s0 s)  : Keeps s0 (hostPut s c o a bs) := by
  unfold hostPut
  try dsimp only
  repeat' first | with_reducible (first | exact h | apply keeps_logFault | apply keeps_hostIssue | apply keeps_ite | assumption) | split | with_reducible apply keeps_mk | refine keeps_lit ?_ (by first | with_reducible exact le_refl _ | with_reducible exact Nat.le_succ _ | omega) (by first | with_reducible exact le_refl _ | with_reducible exact Nat.le_succ _) (by with_reducible first | exact id | exact mems_wf_wrBytes _ _ _ _ | exact mems_wf_wrLe _ _ _ _ _ | exact mems_wf_applyWrites _ _ | exact mems_wf_dropSpad _ _ | exact mems_wf_noSpad _) (by first | with_reducible exact id | exact fun _ => by decide | exact fun _ => rfl | simp) (by first | with_reducible exact id | exact fun _ => by decide | exact fun _ => rfl | simp) (by first | with_reducible exact id | exact fun _ => by decide | exact fun _ => rfl | simp)

theorem keeps_hostAsk {s0 s : State} {c : Nat} {asid : BitVec 16} {a : Nat} {n : Nat} (h : Keeps s0 s)  : Keeps s0 (hostAsk s c asid a n) := by
  unfold hostAsk
  try dsimp only
  repeat' first | with_reducible (first | exact h | apply keeps_hostIssue | apply keeps_ite | apply keeps_foldl | assumption) | (intro _; intros)

theorem keeps_hostWriteFor {s0 s : State} {c : Nat} {o : Owner} {a : Nat} {bs : List Byte} (h : Keeps s0 s)  : Keeps s0 (hostWriteFor s c o a bs) := by
  unfold hostWriteFor
  try dsimp only
  repeat' first | with_reducible (first | exact h | apply keeps_chargeWr | apply keeps_hostPut)

theorem keeps_hostWrite {s0 s : State} {c : Nat} {a : Nat} {bs : List Byte} (h : Keeps s0 s)  : Keeps s0 (hostWrite s c a bs) := by
  unfold hostWrite
  try dsimp only
  repeat' first | with_reducible (first | exact h | apply keeps_hostWriteFor)

theorem keeps_queueRead {s0 s : State} {o : Owner} {asid : BitVec 16} {r : Nat} {cls : Nat} {a : Nat} {n : Nat} {sub : Option (Nat × Nat)} (h : Keeps s0 s)  : Keeps s0 (queueRead s o asid r cls a n sub) := by
  unfold queueRead
  try dsimp only
  repeat' first | with_reducible (first | exact h | apply keeps_setMp | apply keeps_ite | assumption) | split

theorem keeps_queueOut {s0 s : State} {o : Owner} {asid : BitVec 16} {r : Nat} {op : Nat} {aop : Nat} {cls : Nat} {a : Nat} {bs : List Byte} {sub : Option (Nat × Nat)} (h : Keeps s0 s)  : Keeps s0 (queueOut s o asid r op aop cls a bs sub) := by
  unfold queueOut
  try dsimp only
  repeat' first | with_reducible (first | exact h | apply keeps_setMp | apply keeps_ite | assumption) | split

theorem keeps_queueReads {s0 s : State} {o : Owner} {asid : BitVec 16} {r : Nat} {cls : Nat} {a : Nat} {n : Nat} {sub : Option (Nat × Nat)} (h : Keeps s0 s)  : Keeps s0 (queueReads s o asid r cls a n sub) := by
  unfold queueReads
  try dsimp only
  repeat' first | with_reducible (first | exact h | apply keeps_queueRead | apply keeps_ite | apply keeps_foldl | assumption) | (intro _; intros)

theorem keeps_askRng {s0 s : State} {r : Nat} {cls : Nat} {unit : Nat} {tag : Nat} {count : Nat} (h : Keeps s0 s)  : Keeps s0 (askRng s r cls unit tag count) := by
  unfold askRng
  try dsimp only
  repeat' first | with_reducible (first | exact h | apply keeps_setRgn)

theorem keeps_writeStatus {s0 s : State} {c : Nat} (h : Keeps s0 s)  : Keeps s0 (writeStatus s c) := by
  unfold writeStatus
  try dsimp only
  repeat' first | with_reducible (first | exact h | apply keeps_hostPut | apply keeps_chargeWr | apply keeps_ite | assumption) | (intro _; intros) | split | with_reducible apply keeps_mk

theorem keeps_releaseBands {s0 s : State} {c : Nat} {ring : W32} (h : Keeps s0 s)  : Keeps s0 (releaseBands s c ring) := by
  unfold releaseBands
  try dsimp only
  repeat' first | with_reducible (first | exact h | apply keeps_ite | apply keeps_foldl | assumption) | (intro _; intros) | split | with_reducible apply keeps_mk

theorem keeps_askBankFor {s0 s : State} {r : Nat} {cls : Nat} {a : Nat} {act : BankAct} {o : Owner} {frees : Option (Nat × SlotRef)} {mark : Option (Nat × Nat × List W64)} (h : Keeps s0 s)  : Keeps s0 (askBankFor s r cls a act o frees mark) := by
  unfold askBankFor
  try dsimp only
  repeat' first | with_reducible (first | exact h | apply keeps_setRgn)

theorem keeps_askBank {s0 s : State} {r : Nat} {cls : Nat} {a : Nat} {act : BankAct} {o : Owner} (h : Keeps s0 s)  : Keeps s0 (askBank s r cls a act o) := by
  unfold askBank
  try dsimp only
  repeat' first | with_reducible (first | exact h | apply keeps_askBankFor)

theorem keeps_putJournal {s0 s : State} {r : Nat} {j : Nat} {ws : List W64} (h : Keeps s0 s)  : Keeps s0 (putJournal s r j ws) := by
  unfold putJournal
  try dsimp only
  repeat' first | with_reducible (first | exact h | apply keeps_setRgn | apply keeps_askBank)

theorem keeps_dropJournal {s0 s : State} {r : Nat} {j : Nat} (h : Keeps s0 s)  : Keeps s0 (dropJournal s r j) := by
  unfold dropJournal
  try dsimp only
  repeat' first | with_reducible (first | exact h | apply keeps_setRgn)

theorem keeps_markRemote {s0 s : State} {c : Nat} {ring : W32} {issued : Bool} {acked : Bool} (h : Keeps s0 s)  : Keeps s0 (markRemote s c ring issued acked) := by
  unfold markRemote
  try dsimp only
  repeat' first | with_reducible (first | exact h | apply keeps_putJournal | apply keeps_ite | apply keeps_foldl | assumption) | (intro _; intros) | split

theorem keeps_markIssued {s0 s : State} {o : Owner} (h : Keeps s0 s)  : Keeps s0 (markIssued s o) := by
  unfold markIssued
  try dsimp only
  repeat' first | with_reducible (first | exact h | apply keeps_markRemote | apply keeps_ite | assumption) | (intro _; intros) | split

theorem keeps_freeDescJournal {s0 s : State} {c : Nat} {ring : W32} (h : Keeps s0 s)  : Keeps s0 (freeDescJournal s c ring) := by
  unfold freeDescJournal
  try dsimp only
  repeat' first | with_reducible (first | exact h | apply keeps_ite | assumption) | (intro _; intros) | split | with_reducible apply keeps_mk

theorem keeps_recordIrq {s0 s : State} {c : Nat} {desc : List W64} (h : Keeps s0 s)  : Keeps s0 (recordIrq s c desc) := by
  unfold recordIrq
  try dsimp only
  repeat' first | with_reducible (first | exact h | apply keeps_hostWrite | apply keeps_ite)

theorem keeps_writeRecord {s0 s : State} {c : Nat} {ring : W32} {desc : List W64} {res : Result} (h : Keeps s0 s)  : Keeps s0 (writeRecord s c ring desc res) := by
  unfold writeRecord
  try dsimp only
  repeat' first | with_reducible (first | exact h | apply keeps_hostWrite | apply keeps_setCtx | apply keeps_setAcct | apply keeps_releaseBands | apply keeps_freeDescJournal | apply keeps_recordIrq | apply keeps_writeStatus)

theorem keeps_queueSnapshot {s0 s : State} {r : Nat} {bs : List Byte} (h : Keeps s0 s)  : Keeps s0 (queueSnapshot s r bs) := by
  unfold queueSnapshot
  try dsimp only
  repeat' first | with_reducible (first | exact h | apply keeps_queueOut | apply keeps_ite | apply keeps_foldl | assumption) | (intro _; intros)

theorem keeps_writeSnapshot {s0 s : State} {r : Nat} (h : Keeps s0 s)  : Keeps s0 (writeSnapshot s r) := by
  unfold writeSnapshot
  try dsimp only
  repeat' first | with_reducible (first | exact h | apply keeps_logFault | apply keeps_queueSnapshot | apply keeps_ite | assumption) | split | with_reducible apply keeps_mk | refine keeps_lit ?_ (by first | with_reducible exact le_refl _ | with_reducible exact Nat.le_succ _ | omega) (by first | with_reducible exact le_refl _ | with_reducible exact Nat.le_succ _) (by with_reducible first | exact id | exact mems_wf_wrBytes _ _ _ _ | exact mems_wf_wrLe _ _ _ _ _ | exact mems_wf_applyWrites _ _ | exact mems_wf_dropSpad _ _ | exact mems_wf_noSpad _) (by first | with_reducible exact id | exact fun _ => by decide | exact fun _ => rfl | simp) (by first | with_reducible exact id | exact fun _ => by decide | exact fun _ => rfl | simp) (by first | with_reducible exact id | exact fun _ => by decide | exact fun _ => rfl | simp)

theorem keeps_regionVote {s0 s : State} {r : Nat} {odd : Option (Fin 3)} (h : Keeps s0 s)  : Keeps s0 (regionVote s r odd) := by
  unfold regionVote
  try dsimp only
  repeat' first | with_reducible (first | exact h | apply keeps_logFault | apply keeps_setRgn | apply keeps_fenceUnit | apply keeps_ite | assumption) | split

theorem keeps_startSelfTest {s0 s : State} {a : Nat} (h : Keeps s0 s)  : Keeps s0 (startSelfTest s a) := by
  unfold startSelfTest
  try dsimp only
  repeat' first | with_reducible (first | exact h | apply keeps_disableUnit | apply keeps_enableUnit | apply keeps_ite | assumption) | split | with_reducible apply keeps_mk

theorem keeps_snapPart {s0 s : State} {r : Nat} (h : Keeps s0 s)  : Keeps s0 (snapPart s r) := by
  unfold snapPart
  try dsimp only
  repeat' first | with_reducible (first | exact h | apply keeps_writeSnapshot | apply keeps_ite | assumption) | split | with_reducible apply keeps_mk

theorem keeps_startAct {s0 s : State} {r : Nat} {a : MaintAct} (h : Keeps s0 s)  : Keeps s0 (startAct s r a) := by
  unfold startAct
  try dsimp only
  repeat' first | with_reducible (first | exact h | apply keeps_setRgn | apply keeps_startSelfTest | apply keeps_askRng | apply keeps_snapPart | apply keeps_ite | assumption) | (intro _; intros) | split

theorem keeps_requestAct {s0 s : State} {m : Master} {r : Nat} {a : MaintAct} (h : Keeps s0 s) :
    Keeps s0 (requestAct s m r a).1 := by
  unfold requestAct
  dsimp only
  repeat' split
  all_goals first | exact h | exact keeps_startAct h | exact keeps_setRgn h

theorem keeps_requestActs {s0 s : State} {m : Master} {named : List Nat} {a : MaintAct} (h : Keeps s0 s) :
    Keeps s0 (requestActs s m named a).1 := by
  have loop : ∀ (p : State × Bool), Keeps s0 p.1 →
      Keeps s0 (named.foldl (fun (acc : State × Bool) r =>
        let (t, d) := requestAct acc.1 m r a
        (t, acc.2 || d)) p).1 := by
    induction named with
    | nil => intro p hp; exact hp
    | cons r l ih => intro p hp; exact ih _ (keeps_requestAct hp)
  exact loop (s, false) h

theorem keeps_snapAct {s0 s : State} {m : Master} {named : List Nat} {a : MaintAct} (h : Keeps s0 s) :
    Keeps s0 (snapAct s m named a).1 := by
  unfold snapAct
  repeat' split
  · exact h
  · exact h
  · exact keeps_requestActs (keeps_mk h)

theorem keeps_maintWord {s0 s : State} {m : Master} {w : Nat} (h : Keeps s0 s) : Keeps s0 (maintWord s m w).1 := by
  unfold maintWord
  split
  · exact h
  · dsimp only
    split
    · exact keeps_snapAct (keeps_wake h)
    · exact keeps_requestActs (keeps_wake h)

theorem keeps_hostMaint {s0 s : State} {w : Nat} (h : Keeps s0 s)  : Keeps s0 (hostMaint s w) := by
  unfold hostMaint
  try dsimp only
  repeat' first | with_reducible (first | exact h | apply keeps_maintWord | refine keeps_of_fst (by assumption) ?_ | refine keeps_of_snd (by assumption) ?_ | apply keeps_ite | assumption) | split | with_reducible apply keeps_mk | refine keeps_lit ?_ (by first | with_reducible exact le_refl _ | with_reducible exact Nat.le_succ _ | omega) (by first | with_reducible exact le_refl _ | with_reducible exact Nat.le_succ _) (by with_reducible first | exact id | exact mems_wf_wrBytes _ _ _ _ | exact mems_wf_wrLe _ _ _ _ _ | exact mems_wf_applyWrites _ _ | exact mems_wf_dropSpad _ _ | exact mems_wf_noSpad _) (by first | with_reducible exact id | exact fun _ => by decide | exact fun _ => rfl | simp) (by first | with_reducible exact id | exact fun _ => by decide | exact fun _ => rfl | simp) (by first | with_reducible exact id | exact fun _ => by decide | exact fun _ => rfl | simp)

theorem keeps_sbdMaint {s0 s : State} {hh : SbdHead} {w : Nat} (h : Keeps s0 s)  : Keeps s0 (sbdMaint s hh w) := by
  unfold sbdMaint
  try dsimp only
  repeat' first | with_reducible (first | exact h | apply keeps_sbdDone | apply keeps_maintWord | refine keeps_of_fst (by assumption) ?_ | refine keeps_of_snd (by assumption) ?_ | apply keeps_ite | assumption) | split | with_reducible apply keeps_mk

theorem keeps_hostWord {s0 s : State} {p : Nat} {f : State → State} (h : Keeps s0 s) (hf : ∀ u , Keeps s0 u → Keeps s0 (f u )) : Keeps s0 (hostWord s p f) := by
  unfold hostWord
  try dsimp only
  repeat' first | with_reducible (first | exact h | apply keeps_respond | apply keeps_wake | apply hf | apply keeps_ite)

theorem keeps_maintCommand {s0 s : State} {m : MaintFrom} {r : Nat} {code : Fin 7} {a : ArrId} (h : Keeps s0 s)  : Keeps s0 (maintCommand s m r code a) := by
  unfold maintCommand
  try dsimp only
  repeat' first | with_reducible (first | exact h | apply keeps_hostWord | apply keeps_hostMaint | apply keeps_sbdMaint | apply keeps_ite | assumption) | (intro _; intros) | split

theorem keeps_unitAsk {s0 s : State} {m : Master} {k : UnitKind} {n : Nat} {act : UnitAction} (h : Keeps s0 s)  : Keeps s0 (unitAsk s m k n act) := by
  unfold unitAsk
  try dsimp only
  repeat' first | with_reducible (first | exact h | apply keeps_unitReq | apply keeps_requestAct | refine keeps_of_fst (by assumption) ?_ | refine keeps_of_snd (by assumption) ?_ | apply keeps_ite)

theorem keeps_unitWord {s0 s : State} {m : Master} {w : Nat} (h : Keeps s0 s)  : Keeps s0 (unitWord s m w) := by
  unfold unitWord
  try dsimp only
  repeat' first | with_reducible (first | exact h | apply keeps_unitAsk | apply keeps_ite | assumption) | split

theorem keeps_snapRequest {s0 s : State}  (h : Keeps s0 s)  : Keeps s0 (snapRequest s) := by
  unfold snapRequest
  try dsimp only
  repeat' first | with_reducible (first | exact h | apply keeps_maintWord)

theorem keeps_startQueued {s0 s : State} {r : Nat} (h : Keeps s0 s)  : Keeps s0 (startQueued s r) := by
  unfold startQueued
  try dsimp only
  repeat' first | with_reducible (first | exact h | apply keeps_startAct | apply keeps_setRgn | apply keeps_ite | assumption) | split

theorem keeps_rngTestEnd {s0 s : State} {r : Nat} {fail : W32} (h : Keeps s0 s)  : Keeps s0 (rngTestEnd s r fail) := by
  unfold rngTestEnd
  try dsimp only
  repeat' first | with_reducible (first | exact h | apply keeps_setRgn | apply keeps_logFault | apply keeps_ite | apply keeps_foldl | assumption) | (intro _; intros)

theorem keeps_reloadFuses {s0 s : State} {r : Nat} (h : Keeps s0 s)  : Keeps s0 (reloadFuses s r) := by
  unfold reloadFuses
  try dsimp only
  repeat' first | with_reducible (first | exact h | apply keeps_ite | assumption) | split | with_reducible apply keeps_mk

theorem keeps_endAct {s0 s : State} {r : Nat} {a : MaintAct} {pass : Bool} {fail : W32} (h : Keeps s0 s)  : Keeps s0 (endAct s r a pass fail) := by
  unfold endAct
  try dsimp only
  repeat' first | with_reducible (first | exact h | apply keeps_setRgn | apply keeps_testOne | apply keeps_reloadFuses | apply keeps_rngTestEnd | apply keeps_ite | assumption) | (intro _; intros) | split

theorem keeps_coldReset {s0 s : State}  (h : Keeps s0 s)  : Keeps s0 (coldReset s) := by
  unfold coldReset
  try dsimp only
  repeat' first | with_reducible (first | exact h | apply keeps_ite | assumption) | (intro _; intros) | split | with_reducible apply keeps_mk | refine keeps_lit ?_ (by first | with_reducible exact le_refl _ | with_reducible exact Nat.le_succ _ | omega) (by first | with_reducible exact le_refl _ | with_reducible exact Nat.le_succ _) (by with_reducible first | exact id | exact mems_wf_wrBytes _ _ _ _ | exact mems_wf_wrLe _ _ _ _ _ | exact mems_wf_applyWrites _ _ | exact mems_wf_dropSpad _ _ | exact mems_wf_noSpad _) (by first | with_reducible exact id | exact fun _ => by decide | exact fun _ => rfl | simp) (by first | with_reducible exact id | exact fun _ => by decide | exact fun _ => rfl | simp) (by first | with_reducible exact id | exact fun _ => by decide | exact fun _ => rfl | simp)

theorem keeps_warmClear {s0 s : State}  (h : Keeps s0 s)  : Keeps s0 (warmClear s) := by
  unfold warmClear
  try dsimp only
  repeat' first | with_reducible (first | exact h | apply keeps_ite | assumption) | (intro _; intros) | split | with_reducible apply keeps_mk | refine keeps_lit ?_ (by first | with_reducible exact le_refl _ | with_reducible exact Nat.le_succ _ | omega) (by first | with_reducible exact le_refl _ | with_reducible exact Nat.le_succ _) (by with_reducible first | exact id | exact mems_wf_wrBytes _ _ _ _ | exact mems_wf_wrLe _ _ _ _ _ | exact mems_wf_applyWrites _ _ | exact mems_wf_dropSpad _ _ | exact mems_wf_noSpad _) (by first | with_reducible exact id | exact fun _ => by decide | exact fun _ => rfl | simp) (by first | with_reducible exact id | exact fun _ => by decide | exact fun _ => rfl | simp) (by first | with_reducible exact id | exact fun _ => by decide | exact fun _ => rfl | simp)

theorem keeps_retainedTest {s0 s : State}  (h : Keeps s0 s)  : Keeps s0 (retainedTest s) := by
  unfold retainedTest
  try dsimp only
  repeat' first | with_reducible (first | exact h | apply keeps_putUnit | apply keeps_ite | apply keeps_foldl | assumption) | (intro _; intros)

theorem keeps_warmEnd {s0 s : State}  (h : Keeps s0 s)  : Keeps s0 (warmEnd s) := by
  unfold warmEnd
  try dsimp only
  repeat' first | with_reducible (first | exact h | apply keeps_ite | assumption) | split | with_reducible apply keeps_mk

theorem keeps_warmRun {s0 s : State}  (h : Keeps s0 s)  : Keeps s0 (warmRun s) := by
  unfold warmRun
  try dsimp only
  repeat' first | with_reducible (first | exact h | apply keeps_retainedTest | apply keeps_warmClear | apply keeps_warmEnd | apply keeps_ite | assumption) | split | with_reducible apply keeps_mk

theorem keeps_warmAsk {s0 s : State}  (h : Keeps s0 s)  : Keeps s0 (warmAsk s) := by
  unfold warmAsk
  try dsimp only
  repeat' first | with_reducible (first | exact h | apply keeps_warmRun | apply keeps_ite | assumption) | split | with_reducible apply keeps_mk

theorem keeps_tokenWrite {s0 s : State} {p : Nat} {f : State → State} (h : Keeps s0 s) (hf : ∀ u , Keeps s0 u → Keeps s0 (f u )) : Keeps s0 (tokenWrite s p f) := by
  unfold tokenWrite
  try dsimp only
  repeat' first | with_reducible (first | exact h | apply keeps_wake | apply keeps_respond | apply hf | apply keeps_ite | assumption) | (intro _; intros) | split | with_reducible apply keeps_mk | refine keeps_lit ?_ (by first | with_reducible exact le_refl _ | with_reducible exact Nat.le_succ _ | omega) (by first | with_reducible exact le_refl _ | with_reducible exact Nat.le_succ _) (by with_reducible first | exact id | exact mems_wf_wrBytes _ _ _ _ | exact mems_wf_wrLe _ _ _ _ _ | exact mems_wf_applyWrites _ _ | exact mems_wf_dropSpad _ _ | exact mems_wf_noSpad _) (by first | with_reducible exact id | exact fun _ => by decide | exact fun _ => rfl | simp) (by first | with_reducible exact id | exact fun _ => by decide | exact fun _ => rfl | simp) (by first | with_reducible exact id | exact fun _ => by decide | exact fun _ => rfl | simp)

theorem keeps_abortArray {s0 s : State} {c : Nat} {a : Nat} (h : Keeps s0 s)  : Keeps s0 (abortArray s c a) := by
  unfold abortArray
  try dsimp only
  repeat' first | with_reducible (first | exact h | apply keeps_addCnt | apply keeps_setArr | apply keeps_ite)

theorem keeps_keepFlags {s0 s : State} {c : Nat} {f : SubTile → Bool} (h : Keeps s0 s)  : Keeps s0 (keepFlags s c f) := by
  unfold keepFlags
  try dsimp only
  repeat' first | with_reducible (first | exact h | apply keeps_setCtx)

theorem keeps_abortIdle {s0 s : State} {c : Nat} (h : Keeps s0 s)  : Keeps s0 (abortIdle s c) := by
  unfold abortIdle
  try dsimp only
  repeat' first | with_reducible (first | exact h | apply keeps_dropSubs | apply keeps_keepFlags)

theorem keeps_passEnded {s0 s : State} {c : Nat} (h : Keeps s0 s)  : Keeps s0 (passEnded s c) := by
  unfold passEnded
  try dsimp only
  repeat' first | with_reducible (first | exact h | apply keeps_abortIdle | apply keeps_ite)

theorem keeps_abortEnd {s0 s : State} {c : Nat} (h : Keeps s0 s)  : Keeps s0 (abortEnd s c) := by
  unfold abortEnd
  try dsimp only
  repeat' first | with_reducible (first | exact h | apply keeps_writeStatus | apply keeps_setCtx | apply keeps_ite | assumption) | (intro _; intros) | split | with_reducible apply keeps_mk

theorem keeps_abortNext {s0 s : State} {c : Nat} (h : Keeps s0 s)  : Keeps s0 (abortNext s c) := by
  unfold abortNext
  try dsimp only
  repeat' first | with_reducible (first | exact h | apply keeps_abortIdle | apply keeps_abortEnd | apply keeps_writeRecord | apply keeps_ite | assumption) | split

theorem keeps_contextAbort {s0 s : State} {c : Nat} (h : Keeps s0 s)  : Keeps s0 (contextAbort s c) := by
  unfold contextAbort
  try dsimp only
  repeat' first | with_reducible (first | exact h | apply keeps_abortIdle | apply keeps_abortArray | apply keeps_setCtx | apply keeps_abortEnd | apply keeps_ite | apply keeps_foldl | assumption) | (intro _; intros)

theorem keeps_arrayReset {s0 s : State} {a : Nat} (h : Keeps s0 s)  : Keeps s0 (arrayReset s a) := by
  unfold arrayReset
  try dsimp only
  repeat' first | with_reducible (first | exact h | apply keeps_setArr | apply keeps_ite | assumption) | split | with_reducible apply keeps_mk | refine keeps_lit ?_ (by first | with_reducible exact le_refl _ | with_reducible exact Nat.le_succ _ | omega) (by first | with_reducible exact le_refl _ | with_reducible exact Nat.le_succ _) (by with_reducible first | exact id | exact mems_wf_wrBytes _ _ _ _ | exact mems_wf_wrLe _ _ _ _ _ | exact mems_wf_applyWrites _ _ | exact mems_wf_dropSpad _ _ | exact mems_wf_noSpad _) (by first | with_reducible exact id | exact fun _ => by decide | exact fun _ => rfl | simp) (by first | with_reducible exact id | exact fun _ => by decide | exact fun _ => rfl | simp) (by first | with_reducible exact id | exact fun _ => by decide | exact fun _ => rfl | simp)

theorem keeps_endWait {s0 s : State} {c : Nat} {d : Adm} {res : Result} (h : Keeps s0 s)  : Keeps s0 (endWait s c d res) := by
  unfold endWait
  try dsimp only
  repeat' first | with_reducible (first | exact h | apply keeps_finishDesc | apply keeps_ite | assumption) | (intro _; intros) | split | with_reducible apply keeps_mk

theorem keeps_waitValue {s0 s : State} {c : Nat} {d : Adm} {v : W64} (h : Keeps s0 s)  : Keeps s0 (waitValue s c d v) := by
  unfold waitValue
  try dsimp only
  repeat' first | with_reducible (first | exact h | apply keeps_setCtx | apply keeps_endWait | apply keeps_ite)

theorem keeps_waitvRead {s0 s : State} {c : Nat} (h : Keeps s0 s)  : Keeps s0 (waitvRead s c) := by
  unfold waitvRead
  try dsimp only
  repeat' first | with_reducible (first | exact h | apply keeps_waitValue | apply keeps_endWait | apply keeps_chargeRd | apply keeps_logFault | apply keeps_ite | assumption) | split

theorem keeps_wakeWatch {s0 s : State} {r : Nat} {a : Nat} {n : Nat} (h : Keeps s0 s)  : Keeps s0 (wakeWatch s r a n) := by
  unfold wakeWatch
  try dsimp only
  repeat' first | with_reducible (first | exact h | apply keeps_waitvRead | apply keeps_ite | apply keeps_foldl | assumption) | (intro _; intros)

theorem keeps_writeWaking {s0 s : State} {w : MemWrite} (h : Keeps s0 s)  : Keeps s0 (writeWaking s w) := by
  unfold writeWaking
  try dsimp only
  repeat' first | with_reducible (first | exact h | apply keeps_wakeWatch | apply keeps_ite | assumption) | split | with_reducible apply keeps_mk | refine keeps_lit ?_ (by first | with_reducible exact le_refl _ | with_reducible exact Nat.le_succ _ | omega) (by first | with_reducible exact le_refl _ | with_reducible exact Nat.le_succ _) (by with_reducible first | exact id | exact mems_wf_wrBytes _ _ _ _ | exact mems_wf_wrLe _ _ _ _ _ | exact mems_wf_applyWrites _ _ | exact mems_wf_dropSpad _ _ | exact mems_wf_noSpad _) (by first | with_reducible exact id | exact fun _ => by decide | exact fun _ => rfl | simp) (by first | with_reducible exact id | exact fun _ => by decide | exact fun _ => rfl | simp) (by first | with_reducible exact id | exact fun _ => by decide | exact fun _ => rfl | simp)

theorem keeps_writesWaking {s0 s : State} {ws : List MemWrite} (h : Keeps s0 s)  : Keeps s0 (writesWaking s ws) := by
  unfold writesWaking
  try dsimp only
  repeat' first | with_reducible (first | exact h | apply keeps_writeWaking | apply keeps_ite | apply keeps_foldl)

end Sys2Proof.Machine
end

