-- ==== Sys2Proof/Laws/KeepsPorts.lean ====
section
/-!
SUPPORT. `Keeps` for rings, ports, boot, power, registers, sideband and remote operations.
-/

namespace Sys2Proof.Machine

theorem keeps_notifyOp {s0 s : State} {c : Nat} (h : Keeps s0 s)  : Keeps s0 (notifyOp s c) := by
  unfold notifyOp
  try dsimp only
  repeat' first | with_reducible (first | exact h | apply keeps_setCtx | apply keeps_waitvRead | apply keeps_ite)

theorem keeps_notifyAt {s0 s : State} {p : HostId} {c : CtxId} (h : Keeps s0 s)  : Keeps s0 (notifyAt s p c) := by
  unfold notifyAt
  try dsimp only
  repeat' first | with_reducible (first | exact h | apply keeps_notifyOp | apply keeps_wake | apply keeps_ite | assumption) | split | with_reducible apply keeps_mk

theorem keeps_dbPoll {s0 s : State}  (h : Keeps s0 s)  : Keeps s0 (dbPoll s) := by
  unfold dbPoll
  try dsimp only
  repeat' first | with_reducible (first | exact h | apply keeps_wake | apply keeps_ite | assumption) | (intro _; intros) | split | with_reducible apply keeps_mk | refine keeps_lit ?_ (by first | with_reducible exact le_refl _ | with_reducible exact Nat.le_succ _ | omega) (by first | with_reducible exact le_refl _ | with_reducible exact Nat.le_succ _) (by with_reducible first | exact id | exact mems_wf_wrBytes _ _ _ _ | exact mems_wf_wrLe _ _ _ _ _ | exact mems_wf_applyWrites _ _ | exact mems_wf_dropSpad _ _ | exact mems_wf_noSpad _) (by first | with_reducible exact id | exact fun _ => by decide | exact fun _ => rfl | simp) (by first | with_reducible exact id | exact fun _ => by decide | exact fun _ => rfl | simp) (by first | with_reducible exact id | exact fun _ => by decide | exact fun _ => rfl | simp)

theorem keeps_activate {s0 s : State} {c : Nat} (h : Keeps s0 s)  : Keeps s0 (activate s c) := by
  unfold activate
  try dsimp only
  repeat' first | with_reducible (first | exact h | apply keeps_setCtx | apply keeps_writeStatus | apply keeps_chargeRd | apply keeps_hostAsk | apply keeps_ite)

theorem keeps_doorbellOp {s0 s : State} {c : Nat} {w : W64} (h : Keeps s0 s)  : Keeps s0 (doorbellOp s c w) := by
  unfold doorbellOp
  try dsimp only
  repeat' first | with_reducible (first | exact h | apply keeps_chargeRd | apply keeps_setCtx | apply keeps_writeStatus | apply keeps_ite | assumption) | split | with_reducible apply keeps_mk | refine keeps_lit ?_ (by first | with_reducible exact le_refl _ | with_reducible exact Nat.le_succ _ | omega) (by first | with_reducible exact le_refl _ | with_reducible exact Nat.le_succ _) (by with_reducible first | exact id | exact mems_wf_wrBytes _ _ _ _ | exact mems_wf_wrLe _ _ _ _ _ | exact mems_wf_applyWrites _ _ | exact mems_wf_dropSpad _ _ | exact mems_wf_noSpad _) (by first | with_reducible exact id | exact fun _ => by decide | exact fun _ => rfl | simp) (by first | with_reducible exact id | exact fun _ => by decide | exact fun _ => rfl | simp) (by first | with_reducible exact id | exact fun _ => by decide | exact fun _ => rfl | simp)

theorem keeps_askSlot {s0 s : State} {c : Nat} {i : W32} (h : Keeps s0 s)  : Keeps s0 (askSlot s c i) := by
  unfold askSlot
  try dsimp only
  repeat' first | with_reducible (first | exact h | apply keeps_hostIssue)

theorem keeps_slotArrived {s0 s : State} {c : Nat} {ring : W32} {words : List W64} (h : Keeps s0 s)  : Keeps s0 (slotArrived s c ring words) := by
  unfold slotArrived
  try dsimp only
  repeat' first | with_reducible (first | exact h | apply keeps_setCtx)

theorem keeps_fetchOp {s0 s : State} {c : Nat} (h : Keeps s0 s)  : Keeps s0 (fetchOp s c) := by
  unfold fetchOp
  try dsimp only
  repeat' first | with_reducible (first | exact h | apply keeps_askSlot | apply keeps_setCtx | apply keeps_ite | apply keeps_foldl | assumption) | (intro _; intros)

theorem keeps_cqHeadOp {s0 s : State} {c : Nat} {v : W32} (h : Keeps s0 s)  : Keeps s0 (cqHeadOp s c v) := by
  unfold cqHeadOp
  try dsimp only
  repeat' first | with_reducible (first | exact h | apply keeps_chargeRd | apply keeps_setCtx | apply keeps_writeStatus | apply keeps_ite | assumption) | split | with_reducible apply keeps_mk | refine keeps_lit ?_ (by first | with_reducible exact le_refl _ | with_reducible exact Nat.le_succ _ | omega) (by first | with_reducible exact le_refl _ | with_reducible exact Nat.le_succ _) (by with_reducible first | exact id | exact mems_wf_wrBytes _ _ _ _ | exact mems_wf_wrLe _ _ _ _ _ | exact mems_wf_applyWrites _ _ | exact mems_wf_dropSpad _ _ | exact mems_wf_noSpad _) (by first | with_reducible exact id | exact fun _ => by decide | exact fun _ => rfl | simp) (by first | with_reducible exact id | exact fun _ => by decide | exact fun _ => rfl | simp) (by first | with_reducible exact id | exact fun _ => by decide | exact fun _ => rfl | simp)

theorem keeps_retireAfterLoad {s0 s : State} {c : Nat} {d : Adm} (h : Keeps s0 s)  : Keeps s0 (retireAfterLoad s c d) := by
  unfold retireAfterLoad
  try dsimp only
  repeat' first | with_reducible (first | exact h | apply keeps_writeStatus | apply keeps_setCtx | apply keeps_ite)

theorem keeps_enterRetention {s0 s : State}  (h : Keeps s0 s)  : Keeps s0 (enterRetention s) := by
  unfold enterRetention
  try dsimp only
  repeat' first | with_reducible (first | exact h | apply keeps_ite | assumption) | split | with_reducible apply keeps_mk

theorem keeps_powerGo {s0 s : State} {t : Nat} (h : Keeps s0 s)  : Keeps s0 (powerGo s t) := by
  unfold powerGo
  try dsimp only
  repeat' first | with_reducible (first | exact h | apply keeps_enterRetention | apply keeps_ite | assumption) | split | with_reducible apply keeps_mk

theorem keeps_powerTarget {s0 s : State} {t : Nat} (h : Keeps s0 s)  : Keeps s0 (powerTarget s t) := by
  unfold powerTarget
  try dsimp only
  repeat' first | with_reducible (first | exact h | apply keeps_powerGo | apply keeps_ite | assumption) | split | with_reducible apply keeps_mk

theorem keeps_targetNext {s0 s : State}  (h : Keeps s0 s)  : Keeps s0 (targetNext s) := by
  unfold targetNext
  try dsimp only
  repeat' first | with_reducible (first | exact h | apply keeps_powerGo | apply keeps_ite | assumption) | split | with_reducible apply keeps_mk

theorem keeps_readyNow {s0 s : State}  (h : Keeps s0 s)  : Keeps s0 (readyNow s) := by
  unfold readyNow
  try dsimp only
  repeat' first | with_reducible (first | exact h | apply keeps_warmRun | apply keeps_notifyOp | apply keeps_targetNext | apply keeps_maintWord | apply keeps_unitWord | refine keeps_of_fst (by assumption) ?_ | refine keeps_of_snd (by assumption) ?_ | apply keeps_ite | apply keeps_foldl | assumption) | (intro _; intros) | split | with_reducible apply keeps_mk

theorem keeps_warmNext {s0 s : State}  (h : Keeps s0 s)  : Keeps s0 (warmNext s) := by
  unfold warmNext
  try dsimp only
  repeat' first | with_reducible (first | exact h | apply keeps_readyNow | apply keeps_ite | assumption) | split | with_reducible apply keeps_mk

theorem keeps_flushHost {s0 : State} (n : Nat) : ∀ {s : State} {p : Nat}, Keeps s0 s → Keeps s0 (flushHost n s p) := by
  induction n with
  | zero => intro s p h; exact h
  | succ n ih =>
    intro s p h
    unfold flushHost
    dsimp only
    split
    · exact h
    · repeat' split
      all_goals first | exact h | exact ih (keeps_setHp (keeps_hostSend (keeps_setHp h)))

theorem keeps_moveHost {s0 s : State} {p : Nat} (h : Keeps s0 s)  : Keeps s0 (moveHost s p) := by
  unfold moveHost
  try dsimp only
  repeat' first | with_reducible (first | exact h | apply keeps_setHp | apply keeps_hostSend | apply keeps_ite | apply keeps_foldl | assumption) | (intro _; intros) | split

theorem keeps_hostDown {s0 s : State} {p : Nat} (h : Keeps s0 s)  : Keeps s0 (hostDown s p) := by
  unfold hostDown
  try dsimp only
  repeat' first | with_reducible (first | exact h | apply keeps_moveHost | apply keeps_setHp | apply keeps_ite | assumption) | (intro _; intros) | split | with_reducible apply keeps_mk

theorem keeps_hostUp {s0 s : State} {p : Nat} (h : Keeps s0 s)  : Keeps s0 (hostUp s p) := by
  unfold hostUp
  try dsimp only
  repeat' first | with_reducible (first | exact h | apply keeps_setHp | apply keeps_irqHeld | apply keeps_flushHost | apply keeps_ite | apply keeps_foldl | assumption) | (intro _; intros) | split | with_reducible apply keeps_mk | refine keeps_lit ?_ (by first | with_reducible exact le_refl _ | with_reducible exact Nat.le_succ _ | omega) (by first | with_reducible exact le_refl _ | with_reducible exact Nat.le_succ _) (by with_reducible first | exact id | exact mems_wf_wrBytes _ _ _ _ | exact mems_wf_wrLe _ _ _ _ _ | exact mems_wf_applyWrites _ _ | exact mems_wf_dropSpad _ _ | exact mems_wf_noSpad _) (by first | with_reducible exact id | exact fun _ => by decide | exact fun _ => rfl | simp) (by first | with_reducible exact id | exact fun _ => by decide | exact fun _ => rfl | simp) (by first | with_reducible exact id | exact fun _ => by decide | exact fun _ => rfl | simp)

theorem keeps_memDown {s0 s : State} {q : Nat} (h : Keeps s0 s)  : Keeps s0 (memDown s q) := by
  unfold memDown
  try dsimp only
  repeat' first | with_reducible (first | exact h | apply keeps_setMp | apply keeps_fenceUnit | apply keeps_ite | assumption) | split

theorem keeps_creditReturn {s0 s : State} {port : PortRef} {req : Nat} {wd : Nat} (h : Keeps s0 s)  : Keeps s0 (creditReturn s port req wd) := by
  unfold creditReturn
  try dsimp only
  repeat' first | with_reducible (first | exact h | apply keeps_setMp | apply keeps_setHp | apply keeps_flushHost | apply keeps_ite | assumption) | split

theorem keeps_gambitAbandon {s0 s : State} {q : Nat} {c : Nat} {tensor : Nat} {gen : W32} {array : Option Nat} (h : Keeps s0 s)  : Keeps s0 (gambitAbandon s q c tensor gen array) := by
  unfold gambitAbandon
  try dsimp only
  repeat' first | with_reducible (first | exact h | apply keeps_addCnt | apply keeps_setArr | apply keeps_setRgn | apply keeps_ite | assumption) | (intro _; intros) | split

theorem keeps_reissue {s0 s : State} {q : Nat} {r : PortReq} (h : Keeps s0 s)  : Keeps s0 (reissue s q r) := by
  unfold reissue
  try dsimp only
  repeat' first | with_reducible (first | exact h | apply keeps_setMp)

theorem keeps_portError {s0 s : State} {q : Nat} {r : PortReq} {f : State → State} (h : Keeps s0 s) (hf : ∀ u , Keeps s0 u → Keeps s0 (f u )) : Keeps s0 (portError s q r f) := by
  unfold portError
  try dsimp only
  repeat' first | with_reducible (first | exact h | apply keeps_logFault | apply keeps_setMp | apply keeps_fenceUnit | apply hf | apply keeps_ite)

theorem keeps_rdUncorrectable {s0 s : State} {q : Nat} {r : PortReq} (h : Keeps s0 s)  : Keeps s0 (rdUncorrectable s q r) := by
  unfold rdUncorrectable
  try dsimp only
  repeat' first | with_reducible (first | exact h | apply keeps_gambitAbandon | apply keeps_portError | apply keeps_reissue | apply keeps_setMp | apply keeps_ite | assumption) | (intro _; intros) | split

theorem keeps_rdPoisoned {s0 s : State} {q : Nat} {r : PortReq} (h : Keeps s0 s)  : Keeps s0 (rdPoisoned s q r) := by
  unfold rdPoisoned
  try dsimp only
  repeat' first | with_reducible (first | exact h | apply keeps_setMp | apply keeps_gambitAbandon | apply keeps_logFault | apply keeps_endDesc | apply keeps_reissue | apply keeps_ite | assumption) | split

theorem mems_wf_takeData (s : State) (a : Nat) (bs : List Byte) (h : s.mems.wf = true) : (takeData s a bs).wf = true := by
  have loop : ∀ (l : List (Nat × Byte)) (m : Mems), m.wf = true →
      (l.foldl (fun m x => if writePends s (a + x.1) then m else wrBytes m .mem (a + x.1) [x.2]) m).wf = true := by
    intro l
    induction l with
    | nil => exact fun _ hm => hm
    | cons x l ih =>
      intro m hm
      refine ih _ ?_
      dsimp only
      split
      · exact hm
      · exact mems_wf_wrBytes _ _ _ _ hm
  exact loop _ _ h

theorem keeps_rdGood {s0 s : State} {lanes : Nat} {r : PortReq} {data : List Byte} (h : Keeps s0 s) : Keeps s0 (rdGood s lanes r data) := by
  have k : Keeps s0 { s with mems := takeData s r.addr ((data.drop (r.addr % lanes)).take r.len) } :=
    keeps_lit h (le_refl _) (le_refl _) (mems_wf_takeData s _ _) id id id
  unfold rdGood
  dsimp only
  split
  · exact keeps_chargeRd k
  · exact k

theorem keeps_present {s0 s : State} {q : Nat} {r : PortReq} (h : Keeps s0 s)  : Keeps s0 (present s q r) := by
  unfold present
  try dsimp only
  repeat' first | with_reducible (first | exact h | apply keeps_setMp | apply keeps_ite | assumption) | split | with_reducible apply keeps_mk

theorem keeps_presentHeld {s0 s : State} {q : Nat} (h : Keeps s0 s)  : Keeps s0 (presentHeld s q) := by
  unfold presentHeld
  try dsimp only
  repeat' first | with_reducible (first | exact h | apply keeps_setMp | apply keeps_ite | assumption) | split | with_reducible apply keeps_mk

theorem keeps_claimEnter {s0 s : State} {k : Claim} (h : Keeps s0 s)  : Keeps s0 (claimEnter s k) := by
  unfold claimEnter
  try dsimp only
  repeat' first | with_reducible (first | exact h | apply keeps_addCnt | apply keeps_ite | assumption) | (intro _; intros) | split | with_reducible apply keeps_mk

theorem keeps_claimAdd {s0 s : State} {c : Nat} {ring : W32} {a : W64} {op : Nat} {new : W64} (h : Keeps s0 s)  : Keeps s0 (claimAdd s c ring a op new) := by
  unfold claimAdd
  try dsimp only
  repeat' first | with_reducible (first | exact h | apply keeps_claimEnter | apply keeps_ite)

theorem keeps_setPrior {s0 s : State} {c : Nat} {ring : W32} {v : W64} (h : Keeps s0 s)  : Keeps s0 (setPrior s c ring v) := by
  unfold setPrior
  try dsimp only
  repeat' first | with_reducible (first | exact h | apply keeps_setCtx)

theorem keeps_atomicDone {s0 s : State} {r : PortReq} {prior : W64} (h : Keeps s0 s)  : Keeps s0 (atomicDone s r prior) := by
  unfold atomicDone
  try dsimp only
  repeat' first | with_reducible (first | exact h | apply keeps_setPrior | apply keeps_claimAdd | apply keeps_finishDesc | apply keeps_markRemote | apply keeps_ite | assumption) | split | with_reducible apply keeps_mk | refine keeps_lit ?_ (by first | with_reducible exact le_refl _ | with_reducible exact Nat.le_succ _ | omega) (by first | with_reducible exact le_refl _ | with_reducible exact Nat.le_succ _) (by with_reducible first | exact id | exact mems_wf_wrBytes _ _ _ _ | exact mems_wf_wrLe _ _ _ _ _ | exact mems_wf_applyWrites _ _ | exact mems_wf_dropSpad _ _ | exact mems_wf_noSpad _) (by first | with_reducible exact id | exact fun _ => by decide | exact fun _ => rfl | simp) (by first | with_reducible exact id | exact fun _ => by decide | exact fun _ => rfl | simp) (by first | with_reducible exact id | exact fun _ => by decide | exact fun _ => rfl | simp)

theorem keeps_rspError {s0 s : State} {q : Nat} {r : PortReq} (h : Keeps s0 s)  : Keeps s0 (rspError s q r) := by
  unfold rspError
  try dsimp only
  repeat' first | with_reducible (first | exact h | apply keeps_xlateFail | apply keeps_gambitAbandon | apply keeps_logFault | apply keeps_ite | assumption) | split

theorem keeps_irqAck {s0 s : State} {r : PortReq} (h : Keeps s0 s)  : Keeps s0 (irqAck s r) := by
  unfold irqAck
  try dsimp only
  repeat' first | with_reducible (first | exact h | apply keeps_faultIrq | apply keeps_ite | assumption) | split | with_reducible apply keeps_mk | refine keeps_lit ?_ (by first | with_reducible exact le_refl _ | with_reducible exact Nat.le_succ _ | omega) (by first | with_reducible exact le_refl _ | with_reducible exact Nat.le_succ _) (by with_reducible first | exact id | exact mems_wf_wrBytes _ _ _ _ | exact mems_wf_wrLe _ _ _ _ _ | exact mems_wf_applyWrites _ _ | exact mems_wf_dropSpad _ _ | exact mems_wf_noSpad _) (by first | with_reducible exact id | exact fun _ => by decide | exact fun _ => rfl | simp) (by first | with_reducible exact id | exact fun _ => by decide | exact fun _ => rfl | simp) (by first | with_reducible exact id | exact fun _ => by decide | exact fun _ => rfl | simp)

theorem keeps_bootFail {s0 s : State} {phase : Nat} {kind : BitVec 4} {source : Byte} {detail : Nat} (h : Keeps s0 s)  : Keeps s0 (bootFail s phase kind source detail) := by
  unfold bootFail
  try dsimp only
  repeat' first | with_reducible (first | exact h | apply keeps_boardFault | apply keeps_ite | assumption) | split | with_reducible apply keeps_mk

theorem keeps_bootIslands {s0 s : State} {r : BootReport} (h : Keeps s0 s)  : Keeps s0 (bootIslands s r) := by
  unfold bootIslands
  try dsimp only
  repeat' first | with_reducible (first | exact h | apply keeps_logFault | apply keeps_setIsl | apply keeps_ite | apply keeps_foldl | assumption) | (intro _; intros) | split | with_reducible apply keeps_mk

theorem keeps_bootBanks {s0 s : State} {r : BootReport} {n : Nat} (h : Keeps s0 s)  : Keeps s0 (bootBanks s r n) := by
  unfold bootBanks
  try dsimp only
  repeat' first | with_reducible (first | exact h | apply keeps_setRgn | apply keeps_logFault | apply keeps_putRegion | apply keeps_ite | apply keeps_foldl | assumption) | (intro _; intros)

theorem keeps_nextPhase {s0 s : State}  (h : Keeps s0 s)  : Keeps s0 (nextPhase s) := by
  unfold nextPhase
  try dsimp only
  repeat' first | with_reducible (first | exact h | apply keeps_ite | assumption) | split | with_reducible apply keeps_mk

theorem keeps_bootOtp {s0 s : State} {r : BootReport} (h : Keeps s0 s)  : Keeps s0 (bootOtp s r) := by
  unfold bootOtp
  try dsimp only
  repeat' first | with_reducible (first | exact h | apply keeps_bootFail | apply keeps_nextPhase | apply keeps_ite | assumption) | split | with_reducible apply keeps_mk

theorem keeps_bootCal {s0 s : State} {r : BootReport} (h : Keeps s0 s)  : Keeps s0 (bootCal s r) := by
  unfold bootCal
  try dsimp only
  repeat' first | with_reducible (first | exact h | apply keeps_bootFail | apply keeps_bootIslands | apply keeps_nextPhase | apply keeps_ite | assumption) | (intro _; intros) | split | with_reducible apply keeps_mk | refine keeps_lit ?_ (by first | with_reducible exact le_refl _ | with_reducible exact Nat.le_succ _ | omega) (by first | with_reducible exact le_refl _ | with_reducible exact Nat.le_succ _) (by with_reducible first | exact id | exact mems_wf_wrBytes _ _ _ _ | exact mems_wf_wrLe _ _ _ _ _ | exact mems_wf_applyWrites _ _ | exact mems_wf_dropSpad _ _ | exact mems_wf_noSpad _) (by first | with_reducible exact id | exact fun _ => by decide | exact fun _ => rfl | simp) (by first | with_reducible exact id | exact fun _ => by decide | exact fun _ => rfl | simp) (by first | with_reducible exact id | exact fun _ => by decide | exact fun _ => rfl | simp)

theorem keeps_bootPads {s0 s : State} {r : BootReport} (h : Keeps s0 s)  : Keeps s0 (bootPads s r) := by
  unfold bootPads
  try dsimp only
  repeat' first | with_reducible (first | exact h | apply keeps_nextPhase | apply keeps_bootBanks | apply keeps_ite | apply keeps_foldl | assumption) | (intro _; intros) | split | with_reducible apply keeps_mk | refine keeps_lit ?_ (by first | with_reducible exact le_refl _ | with_reducible exact Nat.le_succ _ | omega) (by first | with_reducible exact le_refl _ | with_reducible exact Nat.le_succ _) (by with_reducible first | exact id | exact mems_wf_wrBytes _ _ _ _ | exact mems_wf_wrLe _ _ _ _ _ | exact mems_wf_applyWrites _ _ | exact mems_wf_dropSpad _ _ | exact mems_wf_noSpad _) (by first | with_reducible exact id | exact fun _ => by decide | exact fun _ => rfl | simp) (by first | with_reducible exact id | exact fun _ => by decide | exact fun _ => rfl | simp) (by first | with_reducible exact id | exact fun _ => by decide | exact fun _ => rfl | simp)

theorem keeps_bootPass {s0 s : State} {r : BootReport} {k : UnitKind} {n : Nat} (h : Keeps s0 s)  : Keeps s0 (bootPass s r k n) := by
  unfold bootPass
  try dsimp only
  repeat' first | with_reducible (first | exact h | apply keeps_logFault | apply keeps_putUnit | apply keeps_ite)

theorem keeps_bootTest {s0 s : State} {r : BootReport} (h : Keeps s0 s)  : Keeps s0 (bootTest s r) := by
  unfold bootTest
  try dsimp only
  repeat' first | with_reducible (first | exact h | apply keeps_bootPass | apply keeps_readyNow | apply keeps_bootFail | apply keeps_ite | apply keeps_foldl | assumption) | (intro _; intros)

theorem keeps_bootPhase {s0 s : State} {r : BootReport} (h : Keeps s0 s)  : Keeps s0 (bootPhase s r) := by
  unfold bootPhase
  try dsimp only
  repeat' first | with_reducible (first | exact h | apply keeps_bootOtp | apply keeps_bootCal | apply keeps_bootPads | apply keeps_bootTest | apply keeps_ite | assumption) | split

theorem keeps_bootRun {s0 : State} {r : BootReport} (n : Nat) : ∀ {s : State}, Keeps s0 s → Keeps s0 (bootRun r n s) := by
  induction n with
  | zero => exact fun h => h
  | succ n ih =>
    intro s h
    unfold bootRun
    repeat' split
    all_goals first | exact h | exact ih (keeps_bootPhase h) | exact keeps_mk h

theorem keeps_coldBoot {s0 s : State} {r : BootReport} (h : Keeps s0 s) : Keeps s0 (coldBoot s r) := by
  have k : ∀ b, Keeps s0 { s with time := { s.time with refclk := r.refclkOk }, boot := b } :=
    fun b => keeps_lit (ti := { s.time with refclk := r.refclkOk }) h (le_refl _) (le_refl _) id id id id
  unfold coldBoot
  dsimp only
  repeat' split
  · exact keeps_bootRun 4 (k _)
  · exact h
  · exact keeps_bootRun 4 (k s.boot)

theorem keeps_refclkLoss {s0 s : State}  (h : Keeps s0 s)  : Keeps s0 (refclkLoss s) := by
  unfold refclkLoss
  try dsimp only
  repeat' first | with_reducible (first | exact h | apply keeps_boardFault | apply keeps_ite | assumption) | split | with_reducible apply keeps_mk | refine keeps_lit ?_ (by first | with_reducible exact le_refl _ | with_reducible exact Nat.le_succ _ | omega) (by first | with_reducible exact le_refl _ | with_reducible exact Nat.le_succ _) (by with_reducible first | exact id | exact mems_wf_wrBytes _ _ _ _ | exact mems_wf_wrLe _ _ _ _ _ | exact mems_wf_applyWrites _ _ | exact mems_wf_dropSpad _ _ | exact mems_wf_noSpad _) (by first | with_reducible exact id | exact fun _ => by decide | exact fun _ => rfl | simp) (by first | with_reducible exact id | exact fun _ => by decide | exact fun _ => rfl | simp) (by first | with_reducible exact id | exact fun _ => by decide | exact fun _ => rfl | simp)

theorem keeps_timestamp {s0 s : State} {x : W64} (h : Keeps s0 s) : Keeps s0 (timestamp s x) := by
  unfold timestamp
  dsimp only
  split
  · rename_i hx
    exact keeps_lit h (le_of_lt hx) (le_refl _) id id id id
  · split
    · exact keeps_addCnt (keeps_lit h (by exact le_refl _) (le_refl _) id id id id)
    · exact keeps_lit h (by exact le_refl _) (le_refl _) id id id id

theorem keeps_droop {s0 s : State} {i : Nat} (h : Keeps s0 s)  : Keeps s0 (droop s i) := by
  unfold droop
  try dsimp only
  repeat' first | with_reducible (first | exact h | apply keeps_addCnt | apply keeps_setIsl)

theorem keeps_loseUnit {s0 s : State} {k : UnitKind} {n : Nat} (h : Keeps s0 s)  : Keeps s0 (loseUnit s k n) := by
  unfold loseUnit
  try dsimp only
  repeat' first | with_reducible (first | exact h | apply keeps_fenceQuiet | apply keeps_ite | assumption) | split

theorem keeps_standbyFault {s0 s : State} {i : Nat} {second : State → State} (h : Keeps s0 s) (hsecond : ∀ u , Keeps s0 u → Keeps s0 (second u )) : Keeps s0 (standbyFault s i second) := by
  unfold standbyFault
  try dsimp only
  repeat' first | with_reducible (first | exact h | apply keeps_logFault | apply keeps_setIsl | apply hsecond | apply keeps_ite)

theorem keeps_islandFaultOp {s0 s : State} {i : Nat} (h : Keeps s0 s)  : Keeps s0 (islandFaultOp s i) := by
  unfold islandFaultOp
  try dsimp only
  repeat' first | with_reducible (first | exact h | apply keeps_setIsl | apply keeps_standbyFault | apply keeps_loseUnit | apply keeps_logFault | apply keeps_moveHost | apply keeps_setHp | apply keeps_boardFault | apply keeps_ite | assumption) | (intro _; intros) | split

theorem keeps_railsRemoved {s0 s : State}  (h : Keeps s0 s)  : Keeps s0 (railsRemoved s) := by
  unfold railsRemoved
  try dsimp only
  repeat' first | with_reducible (first | exact h | apply keeps_coldReset | apply keeps_ite | assumption) | split | with_reducible apply keeps_mk | refine keeps_lit ?_ (by first | with_reducible exact le_refl _ | with_reducible exact Nat.le_succ _ | omega) (by first | with_reducible exact le_refl _ | with_reducible exact Nat.le_succ _) (by with_reducible first | exact id | exact mems_wf_wrBytes _ _ _ _ | exact mems_wf_wrLe _ _ _ _ _ | exact mems_wf_applyWrites _ _ | exact mems_wf_dropSpad _ _ | exact mems_wf_noSpad _) (by first | with_reducible exact id | exact fun _ => by decide | exact fun _ => rfl | simp) (by first | with_reducible exact id | exact fun _ => by decide | exact fun _ => rfl | simp) (by first | with_reducible exact id | exact fun _ => by decide | exact fun _ => rfl | simp)

theorem keeps_pstateWrite {s0 s : State} {p : Nat} {t : Nat} (h : Keeps s0 s)  : Keeps s0 (pstateWrite s p t) := by
  unfold pstateWrite
  try dsimp only
  repeat' first | with_reducible (first | exact h | apply keeps_hostWord | apply keeps_powerTarget | apply keeps_ite | assumption) | (intro _; intros)

theorem keeps_gateIslands {s0 s : State} {f : Nat → Bool} (h : Keeps s0 s)  : Keeps s0 (gateIslands s f) := by
  unfold gateIslands
  try dsimp only
  repeat' first | with_reducible (first | exact h | apply keeps_setIsl | apply keeps_ite | apply keeps_foldl | assumption) | (intro _; intros)

theorem keeps_powerInterval {s0 s : State} {avg : Nat} {mw : List Nat} (h : Keeps s0 s)  : Keeps s0 (powerInterval s avg mw) := by
  unfold powerInterval
  try dsimp only
  repeat' first | with_reducible (first | exact h | apply keeps_targetNext | apply keeps_addCnt | apply keeps_ite | assumption) | (intro _; intros) | split | with_reducible apply keeps_mk

theorem keeps_thermalTrip {s0 s : State} {site : Nat} (h : Keeps s0 s)  : Keeps s0 (thermalTrip s site) := by
  unfold thermalTrip
  try dsimp only
  repeat' first | with_reducible (first | exact h | apply keeps_gateIslands | apply keeps_boardFault | apply keeps_ite | assumption) | (intro _; intros) | split | with_reducible apply keeps_mk

theorem keeps_thermalInterval {s0 s : State} {ts : List Int} (h : Keeps s0 s)  : Keeps s0 (thermalInterval s ts) := by
  unfold thermalInterval
  try dsimp only
  repeat' first | with_reducible (first | exact h | apply keeps_addCnt | apply keeps_thermalTrip | apply keeps_ite | assumption) | (intro _; intros) | split | with_reducible apply keeps_mk

theorem keeps_halves {s0 s : State} {l : List (Nat × Bool × W32)} (h : Keeps s0 s) :
    Keeps s0 { s with regs := { s.regs with halves := l } } :=
  ⟨h.cfg, h.env, h.pending, h.time, h.free, fun z => ⟨(h.inv z).mem, (h.inv z).token, (h.inv z).version, (h.inv z).log⟩⟩

theorem keeps_spanWord {s0 s : State} {off : Nat} {w : RegW} (h : Keeps s0 s) : Keeps s0 (spanWord s off w).2 := by
  unfold spanWord
  dsimp only
  split
  · exact keeps_halves h
  · split
    · exact keeps_halves h
    · exact keeps_halves (keeps_freeNext h)

theorem keeps_speaksWrite {s0 s : State} {v : BitVec 4} (h : Keeps s0 s) : Keeps s0 (speaksWrite s v) := by
  unfold speaksWrite
  split
  · exact h
  · rename_i hv
    refine keeps_lit h (le_refl _) (le_refl _) id id (fun _ => ?_) id
    have : v ≠ 0 := by
      intro h0
      simp [h0] at hv
    have h1 : ¬v.toNat < 1 := by
      intro h2
      exact this (BitVec.eq_of_toNat_eq (by simpa using h2))
    simp [h1]

theorem keeps_ownerAcquire {s0 s : State}  (h : Keeps s0 s)  : Keeps s0 (ownerAcquire s) := by
  unfold ownerAcquire
  try dsimp only
  repeat' first | with_reducible (first | exact h | apply keeps_ite | assumption) | split | with_reducible apply keeps_mk | refine keeps_lit ?_ (by first | with_reducible exact le_refl _ | with_reducible exact Nat.le_succ _ | omega) (by first | with_reducible exact le_refl _ | with_reducible exact Nat.le_succ _) (by with_reducible first | exact id | exact mems_wf_wrBytes _ _ _ _ | exact mems_wf_wrLe _ _ _ _ _ | exact mems_wf_applyWrites _ _ | exact mems_wf_dropSpad _ _ | exact mems_wf_noSpad _) (by first | with_reducible exact id | exact fun _ => by decide | exact fun _ => rfl | simp) (by first | with_reducible exact id | exact fun _ => by decide | exact fun _ => rfl | simp) (by first | with_reducible exact id | exact fun _ => by decide | exact fun _ => rfl | simp)

theorem keeps_ownerRelease {s0 s : State}  (h : Keeps s0 s)  : Keeps s0 (ownerRelease s) := by
  unfold ownerRelease
  try dsimp only
  repeat' first | with_reducible (first | exact h | apply keeps_ite | assumption) | split | with_reducible apply keeps_mk | refine keeps_lit ?_ (by first | with_reducible exact le_refl _ | with_reducible exact Nat.le_succ _ | omega) (by first | with_reducible exact le_refl _ | with_reducible exact Nat.le_succ _) (by with_reducible first | exact id | exact mems_wf_wrBytes _ _ _ _ | exact mems_wf_wrLe _ _ _ _ _ | exact mems_wf_applyWrites _ _ | exact mems_wf_dropSpad _ _ | exact mems_wf_noSpad _) (by first | with_reducible exact id | exact fun _ => by decide | exact fun _ => rfl | simp) (by first | with_reducible exact id | exact fun _ => by decide | exact fun _ => rfl | simp) (by first | with_reducible exact id | exact fun _ => by decide | exact fun _ => rfl | simp)

theorem keeps_streamOwner {s0 s : State} {c : BitVec 12} {arrays : BitVec 16} (h : Keeps s0 s)  : Keeps s0 (streamOwner s c arrays) := by
  unfold streamOwner
  try dsimp only
  repeat' first | with_reducible (first | exact h | apply keeps_ite | apply keeps_foldl | assumption) | (intro _; intros) | split | with_reducible apply keeps_mk | refine keeps_lit ?_ (by first | with_reducible exact le_refl _ | with_reducible exact Nat.le_succ _ | omega) (by first | with_reducible exact le_refl _ | with_reducible exact Nat.le_succ _) (by with_reducible first | exact id | exact mems_wf_wrBytes _ _ _ _ | exact mems_wf_wrLe _ _ _ _ _ | exact mems_wf_applyWrites _ _ | exact mems_wf_dropSpad _ _ | exact mems_wf_noSpad _) (by first | with_reducible exact id | exact fun _ => by decide | exact fun _ => rfl | simp) (by first | with_reducible exact id | exact fun _ => by decide | exact fun _ => rfl | simp) (by first | with_reducible exact id | exact fun _ => by decide | exact fun _ => rfl | simp)

theorem keeps_withToken {s0 s : State} {f : State → State} (h : Keeps s0 s) (hf : ∀ u , Keeps s0 u → Keeps s0 (f u )) : Keeps s0 (withToken s f) := by
  unfold withToken
  try dsimp only
  repeat' first | with_reducible (first | exact h | apply hf | apply keeps_ite | assumption) | (intro _; intros) | split | with_reducible apply keeps_mk | refine keeps_lit ?_ (by first | with_reducible exact le_refl _ | with_reducible exact Nat.le_succ _ | omega) (by first | with_reducible exact le_refl _ | with_reducible exact Nat.le_succ _) (by with_reducible first | exact id | exact mems_wf_wrBytes _ _ _ _ | exact mems_wf_wrLe _ _ _ _ _ | exact mems_wf_applyWrites _ _ | exact mems_wf_dropSpad _ _ | exact mems_wf_noSpad _) (by first | with_reducible exact id | exact fun _ => by decide | exact fun _ => rfl | simp) (by first | with_reducible exact id | exact fun _ => by decide | exact fun _ => rfl | simp) (by first | with_reducible exact id | exact fun _ => by decide | exact fun _ => rfl | simp)

theorem keeps_resetWrite {s0 s : State} {w : RegW} (h : Keeps s0 s)  : Keeps s0 (resetWrite s w) := by
  unfold resetWrite
  try dsimp only
  repeat' first | with_reducible (first | exact h | apply keeps_withToken | apply keeps_warmAsk | apply keeps_contextAbort | apply keeps_arrayReset | apply keeps_ite | assumption) | (intro _; intros) | split

theorem keeps_pollWrite {s0 s : State} {v : BitVec 32} (h : Keeps s0 s)  : Keeps s0 (pollWrite s v) := by
  unfold pollWrite
  try dsimp only
  repeat' first | with_reducible (first | exact h | apply keeps_ite | assumption) | split | with_reducible apply keeps_mk | refine keeps_lit ?_ (by first | with_reducible exact le_refl _ | with_reducible exact Nat.le_succ _ | omega) (by first | with_reducible exact le_refl _ | with_reducible exact Nat.le_succ _) (by with_reducible first | exact id | exact mems_wf_wrBytes _ _ _ _ | exact mems_wf_wrLe _ _ _ _ _ | exact mems_wf_applyWrites _ _ | exact mems_wf_dropSpad _ _ | exact mems_wf_noSpad _) (by first | with_reducible exact id | exact fun _ => by decide | exact fun _ => rfl | simp) (by first | with_reducible exact id | exact fun _ => by decide | exact fun _ => rfl | simp) (by first | with_reducible exact id | exact fun _ => by decide | exact fun _ => rfl | simp)

theorem keeps_writeEngine {s0 s : State} {off : Nat} {w : RegW} (h : Keeps s0 s)  : Keeps s0 (writeEngine s off w) := by
  unfold writeEngine
  try dsimp only
  repeat' first | with_reducible (first | exact h | apply keeps_speaksWrite | apply keeps_resetWrite | apply keeps_spanWord | apply keeps_pollWrite | apply keeps_powerTarget | apply keeps_withToken | apply keeps_warmNext | apply keeps_unitWord | apply keeps_ownerAcquire | apply keeps_ownerRelease | apply keeps_streamOwner | apply keeps_hostMaint | apply keeps_snapRequest | refine keeps_of_fst (by assumption) ?_ | refine keeps_of_snd (by assumption) ?_ | apply keeps_ite | assumption) | (intro _; intros) | split | with_reducible apply keeps_mk | refine keeps_lit ?_ (by first | with_reducible exact le_refl _ | with_reducible exact Nat.le_succ _ | omega) (by first | with_reducible exact le_refl _ | with_reducible exact Nat.le_succ _) (by with_reducible first | exact id | exact mems_wf_wrBytes _ _ _ _ | exact mems_wf_wrLe _ _ _ _ _ | exact mems_wf_applyWrites _ _ | exact mems_wf_dropSpad _ _ | exact mems_wf_noSpad _) (by first | with_reducible exact id | exact fun _ => by decide | exact fun _ => rfl | simp) (by first | with_reducible exact id | exact fun _ => by decide | exact fun _ => rfl | simp) (by first | with_reducible exact id | exact fun _ => by decide | exact fun _ => rfl | simp)

theorem keeps_registerRead {s0 s : State} {p : Nat} {off : Nat} {size : Nat} (h : Keeps s0 s)  : Keeps s0 (registerRead s p off size) := by
  unfold registerRead
  try dsimp only
  repeat' first | with_reducible (first | exact h | apply keeps_wake | apply keeps_respond | apply keeps_ite)

theorem keeps_registerWrite {s0 s : State} {p : Nat} {off : Nat} {size : Nat} {v : Nat} (h : Keeps s0 s)  : Keeps s0 (registerWrite s p off size v) := by
  unfold registerWrite
  try dsimp only
  repeat' first | with_reducible (first | exact h | apply keeps_wake | apply keeps_respond | apply keeps_writeEngine | apply keeps_ite)

theorem keeps_unitTestDone {s0 s : State} {k : UnitKind} {n : Nat} {r : TestReport} (h : Keeps s0 s)  : Keeps s0 (unitTestDone s k n r) := by
  unfold unitTestDone
  try dsimp only
  repeat' first | with_reducible (first | exact h | apply keeps_testRegion | apply keeps_testOne | apply keeps_warmNext | apply keeps_setRgn | apply keeps_ite)

theorem keeps_spdmOp {s0 s : State} {req : SpdmReq} (h : Keeps s0 s)  : Keeps s0 (spdmOp s req) := by
  unfold spdmOp
  try dsimp only
  repeat' first | with_reducible (first | exact h | apply keeps_ite | assumption) | split | with_reducible apply keeps_mk

theorem keeps_faultNotifyRead {s0 s : State}  (h : Keeps s0 s)  : Keeps s0 (faultNotifyRead s) := by
  unfold faultNotifyRead
  try dsimp only
  repeat' first | with_reducible (first | exact h | apply keeps_ite | assumption) | split | with_reducible apply keeps_mk

theorem keeps_flogCheck {s0 s : State} {bad : List Nat} (h : Keeps s0 s)  : Keeps s0 (flogCheck s bad) := by
  unfold flogCheck
  try dsimp only
  repeat' first | with_reducible (first | exact h | apply keeps_ite | assumption) | (intro _; intros) | split | with_reducible apply keeps_mk | refine keeps_lit ?_ (by first | with_reducible exact le_refl _ | with_reducible exact Nat.le_succ _ | omega) (by first | with_reducible exact le_refl _ | with_reducible exact Nat.le_succ _) (by with_reducible first | exact id | exact mems_wf_wrBytes _ _ _ _ | exact mems_wf_wrLe _ _ _ _ _ | exact mems_wf_applyWrites _ _ | exact mems_wf_dropSpad _ _ | exact mems_wf_noSpad _) (by first | with_reducible exact id | exact fun _ => by decide | exact fun _ => rfl | simp) (by first | with_reducible exact id | exact fun _ => by decide | exact fun _ => rfl | simp) (by first | with_reducible exact id | exact fun _ => by decide | exact fun _ => rfl | simp)

theorem keeps_inSession {s0 s : State} {cmd : Byte} {hh : SbdHead} {f : State → State} (h : Keeps s0 s) (hf : ∀ u , Keeps s0 u → Keeps s0 (f u )) : Keeps s0 (inSession s cmd hh f) := by
  unfold inSession
  try dsimp only
  repeat' first | with_reducible (first | exact h | apply keeps_sbdDone | apply hf | apply keeps_ite)

theorem keeps_inSessionToken {s0 s : State} {cmd : Byte} {hh : SbdHead} {f : State → State} (h : Keeps s0 s) (hf : ∀ u , Keeps s0 u → Keeps s0 (f u )) : Keeps s0 (inSessionToken s cmd hh f) := by
  unfold inSessionToken
  try dsimp only
  repeat' first | with_reducible (first | exact h | apply keeps_inSession | apply keeps_sbdDone | apply hf | apply keeps_ite | assumption) | (intro _; intros)

theorem keeps_sbdUnit {s0 s : State} {hh : SbdHead} {w : W32} (h : Keeps s0 s)  : Keeps s0 (sbdUnit s hh w) := by
  unfold sbdUnit
  try dsimp only
  repeat' first | with_reducible (first | exact h | apply keeps_inSessionToken | apply keeps_sbdDone | apply keeps_unitWord | apply keeps_wake | apply keeps_ite | assumption) | (intro _; intros) | split | with_reducible apply keeps_mk

theorem keeps_ownershipOp {s0 s : State} {hh : SbdHead} {acquire : Bool} (h : Keeps s0 s)  : Keeps s0 (ownershipOp s hh acquire) := by
  unfold ownershipOp
  try dsimp only
  repeat' first | with_reducible (first | exact h | apply keeps_sbdDone | apply keeps_ite | assumption) | split | with_reducible apply keeps_mk | refine keeps_lit ?_ (by first | with_reducible exact le_refl _ | with_reducible exact Nat.le_succ _ | omega) (by first | with_reducible exact le_refl _ | with_reducible exact Nat.le_succ _) (by with_reducible first | exact id | exact mems_wf_wrBytes _ _ _ _ | exact mems_wf_wrLe _ _ _ _ _ | exact mems_wf_applyWrites _ _ | exact mems_wf_dropSpad _ _ | exact mems_wf_noSpad _) (by first | with_reducible exact id | exact fun _ => by decide | exact fun _ => rfl | simp) (by first | with_reducible exact id | exact fun _ => by decide | exact fun _ => rfl | simp) (by first | with_reducible exact id | exact fun _ => by decide | exact fun _ => rfl | simp)

theorem keeps_tapIntrusive {s0 s : State} {ins : TapIns} {code : Nat} (h : Keeps s0 s)  : Keeps s0 (tapIntrusive s ins code) := by
  unfold tapIntrusive
  try dsimp only
  repeat' first | with_reducible (first | exact h | apply keeps_ite | assumption) | split | with_reducible apply keeps_mk

theorem keeps_tapOp {s0 s : State} {ins : TapIns} (h : Keeps s0 s)  : Keeps s0 (tapOp s ins) := by
  unfold tapOp
  try dsimp only
  repeat' first | with_reducible (first | exact h | apply keeps_tapIntrusive | apply keeps_ite | assumption) | split | with_reducible apply keeps_mk

theorem keeps_descCommand {s0 s : State} {c : Nat} {i : W32} {op : Nat} {f : State → Adm → State} (h : Keeps s0 s) (hf : ∀ u x0, Keeps s0 u → Keeps s0 (f u x0)) : Keeps s0 (descCommand s c i op f) := by
  unfold descCommand
  try dsimp only
  repeat' first | with_reducible (first | exact h | apply hf | apply keeps_ite | assumption) | (intro _; intros) | split

theorem keeps_finish {s0 s : State} {c : Nat} {d : Adm} {res : Result} (h : Keeps s0 s)  : Keeps s0 (finish s c d res) := by
  unfold finish
  try dsimp only
  repeat' first | with_reducible (first | exact h | apply keeps_finishDesc)

theorem keeps_setAdm {s0 s : State} {c : Nat} {ring : W32} {f : Adm → Adm} (h : Keeps s0 s)  : Keeps s0 (setAdm s c ring f) := by
  unfold setAdm
  try dsimp only
  repeat' first | with_reducible (first | exact h | apply keeps_setCtx)

theorem keeps_poisonFail {s0 s : State} {r : Nat} {c : Nat} {ring : W32} {addr : Nat} (h : Keeps s0 s)  : Keeps s0 (poisonFail s r c ring addr) := by
  unfold poisonFail
  try dsimp only
  repeat' first | with_reducible (first | exact h | apply keeps_endDesc | apply keeps_logFault)

theorem keeps_spadRead {s0 s : State} {r : Nat} (h : Keeps s0 s) (n : Nat) : ∀ a : Nat, Keeps s0 (spadRead s r a n).2 := by
  induction n with
  | zero => intro a; exact h
  | succ n ih =>
    intro a
    unfold spadRead
    dsimp only
    split
    · exact keeps_freeNext (ih _)
    · exact ih _

theorem keeps_queuePort {s0 s : State} {c : Nat} {ring : W32} {r : Nat} {op : Nat} {aop : Nat} {cls : Nat} {a : Nat} {bs : List Byte} {sub : Option (Nat × Nat)} (h : Keeps s0 s)  : Keeps s0 (queuePort s c ring r op aop cls a bs sub) := by
  unfold queuePort
  try dsimp only
  repeat' first | with_reducible (first | exact h | apply keeps_queueOut)

theorem keeps_remoteIssue {s0 s : State} {c : Nat} {d : Adm} {a : W64} {f : State → Nat → State} (h : Keeps s0 s) (hf : ∀ u x0, Keeps s0 u → Keeps s0 (f u x0)) : Keeps s0 (remoteIssue s c d a f) := by
  unfold remoteIssue
  try dsimp only
  repeat' first | with_reducible (first | exact h | apply keeps_finish | apply keeps_putJournal | apply hf | apply keeps_ite | assumption) | (intro _; intros) | split

theorem keeps_remoteFail {s0 s : State} {c : Nat} {d : Adm} {x : SrcRead} (h : Keeps s0 s) : Keeps s0 (remoteFail s c d x) := by
  cases x with
  | ok => exact h
  | xlate f => exact keeps_finish h
  | poison f => exact keeps_poisonFail h
  | absent => exact keeps_finish h

theorem keeps_copyReads {s0 s : State} {c : Nat} {r : Nat} {d : Adm} (h : Keeps s0 s)  : Keeps s0 (copyReads s c r d) := by
  unfold copyReads
  try dsimp only
  repeat' first | with_reducible (first | exact h | apply keeps_askBank | apply keeps_queueReads | apply keeps_ite | apply keeps_foldl | assumption) | (intro _; intros) | split

theorem keeps_copyOp {s0 s : State} {c : Nat} {d : Adm} (h : Keeps s0 s)  : Keeps s0 (copyOp s c d) := by
  unfold copyOp
  try dsimp only
  repeat' first | with_reducible (first | exact h | apply keeps_remoteIssue | apply keeps_copyReads | apply keeps_remoteFail | apply keeps_ite | assumption) | (intro _; intros) | split

theorem keeps_failLater {s0 s : State} {c : Nat} {ring : W32} {st : Status} (h : Keeps s0 s)  : Keeps s0 (failLater s c ring st) := by
  unfold failLater
  try dsimp only
  repeat' first | with_reducible (first | exact h | apply keeps_endDesc | apply keeps_ite | apply keeps_foldl | assumption) | (intro _; intros)

theorem keeps_enterClaim {s0 s : State} {k : Option Claim} (h : Keeps s0 s) : Keeps s0 (enterClaim s k) := by
  cases k with
  | none => exact h
  | some k => exact keeps_claimEnter h

theorem keeps_copyTo {s0 s : State} {c : Nat} {d : Adm} {bs : List Byte} {claim : Option Claim} (h : Keeps s0 s)  : Keeps s0 (copyTo s c d bs claim) := by
  unfold copyTo
  try dsimp only
  repeat' first | with_reducible (first | exact h | apply keeps_askBank | apply keeps_enterClaim | apply keeps_finish | apply keeps_queuePort | apply keeps_chargeWr | apply keeps_ite | apply keeps_foldl | assumption) | (intro _; intros) | split | with_reducible apply keeps_mk | refine keeps_lit ?_ (by first | with_reducible exact le_refl _ | with_reducible exact Nat.le_succ _ | omega) (by first | with_reducible exact le_refl _ | with_reducible exact Nat.le_succ _) (by with_reducible first | exact id | exact mems_wf_wrBytes _ _ _ _ | exact mems_wf_wrLe _ _ _ _ _ | exact mems_wf_applyWrites _ _ | exact mems_wf_dropSpad _ _ | exact mems_wf_noSpad _) (by first | with_reducible exact id | exact fun _ => by decide | exact fun _ => rfl | simp) (by first | with_reducible exact id | exact fun _ => by decide | exact fun _ => rfl | simp) (by first | with_reducible exact id | exact fun _ => by decide | exact fun _ => rfl | simp)

theorem keeps_copyGo {s0 s : State} {c : Nat} {d : Adm} {bs : List Byte} (h : Keeps s0 s)  : Keeps s0 (copyGo s c d bs) := by
  unfold copyGo
  try dsimp only
  repeat' first | with_reducible (first | exact h | apply keeps_finish | apply keeps_failLater | apply keeps_copyTo | apply keeps_ite)

theorem keeps_copyLine {s0 s : State} {c : Nat} {ring : W32} {a : Nat} {bs : List Byte} (h : Keeps s0 s)  : Keeps s0 (copyLine s c ring a bs) := by
  unfold copyLine
  try dsimp only
  repeat' first | with_reducible (first | exact h | apply keeps_setAdm | apply keeps_copyGo | apply keeps_ite | apply keeps_foldl | assumption) | (intro _; intros) | split

theorem keeps_copyRead {s0 s : State} {o : Owner} (h : Keeps s0 s)  : Keeps s0 (copyRead s o) := by
  unfold copyRead
  try dsimp only
  repeat' first | with_reducible (first | exact h | apply keeps_copyGo | apply keeps_ite | assumption) | split

theorem keeps_copyDone {s0 s : State} {o : Owner} (h : Keeps s0 s)  : Keeps s0 (copyDone s o) := by
  unfold copyDone
  try dsimp only
  repeat' first | with_reducible (first | exact h | apply keeps_finish | apply keeps_markRemote | apply keeps_ite | assumption) | split

theorem keeps_spadAtomic {s0 s : State} {r a op : Nat} {operand new : W64} (h : Keeps s0 s) :
    Keeps s0 (spadAtomic s r a op operand new).2.2 := by
  unfold spadAtomic
  dsimp only
  exact keeps_writeWaking h

theorem keeps_atomicStep {s0 s : State} {c : Nat} {r : Nat} {d : Adm} (h : Keeps s0 s)  : Keeps s0 (atomicStep s c r d) := by
  unfold atomicStep
  try dsimp only
  repeat' first | with_reducible (first | exact h | apply keeps_spadAtomic | apply keeps_markRemote | apply keeps_setPrior | apply keeps_claimAdd | apply keeps_finish)

theorem keeps_ratomicOp {s0 s : State} {c : Nat} {d : Adm} (h : Keeps s0 s)  : Keeps s0 (ratomicOp s c d) := by
  unfold ratomicOp
  try dsimp only
  repeat' first | with_reducible (first | exact h | apply keeps_remoteIssue | apply keeps_askBank | apply keeps_queuePort | apply keeps_remoteFail | apply keeps_ite | assumption) | (intro _; intros) | split

theorem keeps_ratomicCommand {s0 s : State} {c : Nat} {i : W32} {k : Nat} (h : Keeps s0 s)  : Keeps s0 (ratomicCommand s c i k) := by
  unfold ratomicCommand
  try dsimp only
  repeat' first | with_reducible (first | exact h | apply keeps_descCommand | apply keeps_ratomicOp | apply keeps_ite | assumption) | (intro _; intros)

theorem keeps_waitvOp {s0 s : State} {c : Nat} {d : Adm} (h : Keeps s0 s)  : Keeps s0 (waitvOp s c d) := by
  unfold waitvOp
  try dsimp only
  repeat' first | with_reducible (first | exact h | apply keeps_setAdm | apply keeps_waitvRead | apply keeps_putJournal | apply keeps_setRgn | apply keeps_ite | assumption) | (intro _; intros) | split

theorem keeps_squashCtx {s0 s : State} {c : Nat} {f : SpecBuf → Bool} (h : Keeps s0 s)  : Keeps s0 (squashCtx s c f) := by
  unfold squashCtx
  try dsimp only
  repeat' first | with_reducible (first | exact h | apply keeps_addCnt | apply keeps_setArr | apply keeps_ite | apply keeps_foldl | assumption) | (intro _; intros)

theorem keeps_waitTimeout {s0 s : State} {c : Nat} {d : Adm} (h : Keeps s0 s)  : Keeps s0 (waitTimeout s c d) := by
  unfold waitTimeout
  try dsimp only
  repeat' first | with_reducible (first | exact h | apply keeps_endWait | apply keeps_setCtx | apply keeps_failLater | apply keeps_squashCtx)

theorem keeps_windowAsk {s0 s : State} {p : Nat} {r : Nat} {reqs : List (Nat × BankAct)} (h : Keeps s0 s)  : Keeps s0 (windowAsk s p r reqs) := by
  unfold windowAsk
  try dsimp only
  repeat' first | with_reducible (first | exact h | apply keeps_askBank | apply keeps_setHp | apply keeps_ite | apply keeps_foldl | assumption) | (intro _; intros)

theorem keeps_windowRead {s0 s : State} {p : Nat} {addr : Nat} {len : Nat} (h : Keeps s0 s)  : Keeps s0 (windowRead s p addr len) := by
  unfold windowRead
  try dsimp only
  repeat' first | with_reducible (first | exact h | apply keeps_respond | apply keeps_windowAsk | apply keeps_ite | assumption) | (intro _; intros) | split

theorem keeps_windowWrite {s0 s : State} {p : Nat} {addr : Nat} {bs : List Byte} (h : Keeps s0 s)  : Keeps s0 (windowWrite s p addr bs) := by
  unfold windowWrite
  try dsimp only
  repeat' first | with_reducible (first | exact h | apply keeps_respond | apply keeps_windowAsk | apply keeps_ite | assumption) | (intro _; intros) | split

theorem keeps_windowAtomic {s0 s : State} {p : Nat} {addr : Nat} {op : AtomicOp} {operand : W64} {new : W64} (h : Keeps s0 s)  : Keeps s0 (windowAtomic s p addr op operand new) := by
  unfold windowAtomic
  try dsimp only
  repeat' first | with_reducible (first | exact h | apply keeps_respond | apply keeps_windowAsk | apply keeps_ite | assumption) | split

theorem keeps_hostReissue {s0 s : State} {p : Nat} {q : PortReq} (h : Keeps s0 s)  : Keeps s0 (hostReissue s p q) := by
  unfold hostReissue
  try dsimp only
  repeat' first | with_reducible (first | exact h | apply keeps_hostSend)

theorem keeps_hostGood {s0 s : State} {q : PortReq} {data : List Byte} (h : Keeps s0 s)  : Keeps s0 (hostGood s q data) := by
  unfold hostGood
  try dsimp only
  repeat' first | with_reducible (first | exact h | apply keeps_rdGood | apply keeps_slotArrived | apply keeps_ite | assumption) | split

theorem keeps_hostPoisoned {s0 s : State} {p : Nat} {q : PortReq} (h : Keeps s0 s)  : Keeps s0 (hostPoisoned s p q) := by
  unfold hostPoisoned
  try dsimp only
  repeat' first | with_reducible (first | exact h | apply keeps_logFault | apply keeps_hostReissue | apply keeps_endDesc | apply keeps_slotArrived | apply keeps_ite | assumption) | split

theorem keeps_slotFault {s0 s : State} {c : Nat} {ring : W32} (h : Keeps s0 s)  : Keeps s0 (slotFault s c ring) := by
  unfold slotFault
  try dsimp only
  repeat' first | with_reducible (first | exact h | apply keeps_slotArrived | apply keeps_setCtx)

theorem keeps_hostError {s0 s : State} {p : Nat} {q : PortReq} (h : Keeps s0 s)  : Keeps s0 (hostError s p q) := by
  unfold hostError
  try dsimp only
  repeat' first | with_reducible (first | exact h | apply keeps_slotFault | apply keeps_xlateFail | apply keeps_logFault | apply keeps_ite | assumption) | split

theorem keeps_rdReceive {s0 s : State} {q : Nat} {r : PortReq} {data : List Byte} {rs : RsResult} {poison : Bool} (h : Keeps s0 s)  : Keeps s0 (rdReceive s q r data rs poison) := by
  unfold rdReceive
  try dsimp only
  repeat' first | with_reducible (first | exact h | apply keeps_warmNext | apply keeps_rdUncorrectable | apply keeps_rdPoisoned | apply keeps_present | apply keeps_rdGood | apply keeps_ite)

theorem keeps_hostReceive {s0 s : State} {p : Nat} {r : PortReq} {data : List Byte} {rs : RsResult} {poison : Bool} (h : Keeps s0 s)  : Keeps s0 (hostReceive s p r data rs poison) := by
  unfold hostReceive
  try dsimp only
  repeat' first | with_reducible (first | exact h | apply keeps_warmNext | apply keeps_hostReissue | apply keeps_hostPoisoned | apply keeps_hostGood | apply keeps_ite)

theorem keeps_rspReceive {s0 s : State} {q : Nat} {r : PortReq} {status : BitVec 2} {prior : W64} (h : Keeps s0 s)  : Keeps s0 (rspReceive s q r status prior) := by
  unfold rspReceive
  try dsimp only
  repeat' first | with_reducible (first | exact h | apply keeps_warmNext | apply keeps_atomicDone | apply keeps_rspError | apply keeps_copyDone | apply keeps_ite)

theorem keeps_crossingDeliver {s0 s : State} {src : Nat} {dst : Nat} {cycles : Nat} (h : Keeps s0 s)  : Keeps s0 (crossingDeliver s src dst cycles) := by
  unfold crossingDeliver
  try dsimp only
  repeat' first | with_reducible (first | exact h | apply keeps_copyRead | apply keeps_presentHeld | apply keeps_ite | assumption) | (intro _; intros) | split | with_reducible apply keeps_mk

theorem keeps_ctxsaveOp {s0 s : State} {c : Nat} {d : Adm} (h : Keeps s0 s)  : Keeps s0 (ctxsaveOp s c d) := by
  unfold ctxsaveOp
  try dsimp only
  repeat' first | with_reducible (first | exact h | apply keeps_squashCtx | apply keeps_finish | apply keeps_hostWriteFor | apply keeps_freeNext | refine keeps_of_fst (by assumption) ?_ | refine keeps_of_snd (by assumption) ?_ | apply keeps_ite | apply keeps_foldl | assumption) | (intro _; intros) | split

theorem keeps_ctxloadOp {s0 s : State} {c : Nat} {d : Adm} (h : Keeps s0 s)  : Keeps s0 (ctxloadOp s c d) := by
  unfold ctxloadOp
  try dsimp only
  repeat' first | with_reducible (first | exact h | apply keeps_finish | apply keeps_hostAsk | apply keeps_chargeRd | apply keeps_setCtx | apply keeps_ite | assumption) | (intro _; intros) | split

end Sys2Proof.Machine
end

