-- ==== Sys2Proof/Laws/KeepsTiles.lean ====
section
/-!
SUPPORT. `Keeps` for whole tiles, admission and dispatch.
-/

namespace Sys2Proof.Machine

theorem mems_wf_pairFold {α : Type} (l : List α) (g : Mems × TFlags → α → Mems × TFlags)
    (hg : ∀ p x, p.1.wf = true → (g p x).1.wf = true) : ∀ p : Mems × TFlags, p.1.wf = true → (l.foldl g p).1.wf = true := by
  induction l with
  | nil => intro p h; exact h
  | cons x l ih => intro p h; exact ih _ (hg _ _ h)

theorem mems_wf_runTile {ms : Mems} {j : Job} {f : TFlags} (h : ms.wf = true) : (runTile ms j f).1.wf = true := by
  unfold runTile
  dsimp only
  split
  · split
    · exact h
    · exact mems_wf_wrBytes _ _ _ _ h
  · split
    · exact mems_wf_pairFold _ _ (fun p hh hp => mems_wf_pairFold _ _ (fun q m hq => mems_wf_applyWrites _ _ hq) p hp) _ h
    · exact mems_wf_wrBytes _ _ _ _
        (mems_wf_pairFold _ _ (fun p hh hp => mems_wf_pairFold _ _ (fun q m hq => mems_wf_applyWrites _ _ hq) p hp) _ h)

theorem mems_wf_runFold {ms : Mems} {j : Job} (h : ms.wf = true) : (runFold ms j).1.wf = true := by
  unfold runFold
  dsimp only
  split
  · exact mems_wf_pairFold _ _ (fun p x hp => mems_wf_pairFold _ _
      (fun p x hp => mems_wf_pairFold _ _ (fun q m hq => mems_wf_applyWrites _ _ hq) p hp) p hp) _ h
  · exact mems_wf_wrBytes _ _ _ _ (mems_wf_pairFold _ _ (fun p x hp => mems_wf_pairFold _ _
      (fun p x hp => mems_wf_pairFold _ _ (fun q m hq => mems_wf_applyWrites _ _ hq) p hp) p hp) _ h)

theorem keeps_adoptReads {s0 s : State} {r : Nat} {c : Nat} {ring : W32} {tensor : Nat} {gen : W32} {array : Option Nat} (h : Keeps s0 s)  : Keeps s0 (adoptReads s r c ring tensor gen array) := by
  unfold adoptReads
  try dsimp only
  repeat' first | with_reducible (first | exact h | apply keeps_ite | assumption) | (intro _; intros) | split | with_reducible apply keeps_mk

theorem keeps_renewCopy {s0 s : State} {r : Nat} {c : Nat} {ring : W32} {tensor : Nat} {gen : W32} (h : Keeps s0 s)  : Keeps s0 (renewCopy s r c ring tensor gen) := by
  unfold renewCopy
  try dsimp only
  repeat' first | with_reducible (first | exact h | apply keeps_adoptReads | apply keeps_setRgn)

theorem keeps_roomForWindows {s0 s t : State} {r c : Nat} {ring : W32} {keep : ResCopy → Bool} (h : Keeps s0 s)
    (e : roomForWindows s r c ring keep = some t) : Keeps s0 t := by
  unfold roomForWindows at e
  obtain ⟨l, -, rfl⟩ := Option.map_eq_some_iff.mp e
  exact keeps_setRgn h

theorem keeps_takeCopy {s0 s t : State} {r c tensor : Nat} {ring gen : W32} {bytes : Nat} (h : Keeps s0 s)
    (e : takeCopy s r c ring tensor gen bytes = some t) : Keeps s0 t := by
  unfold takeCopy at e
  dsimp only at e
  split at e
  · obtain ⟨u, hu, rfl⟩ := Option.map_eq_some_iff.mp e
    exact keeps_renewCopy (keeps_roomForWindows h hu)
  · obtain ⟨l, -, rfl⟩ := Option.map_eq_some_iff.mp e
    exact keeps_setRgn h

theorem keeps_fetchCopy {s0 s : State} {c : Nat} {ring : W32} {r : Nat} {j : Job} (h : Keeps s0 s)  : Keeps s0 (fetchCopy s c ring r j) := by
  unfold fetchCopy
  try dsimp only
  repeat' first | with_reducible (first | exact h | apply keeps_queueReads | apply keeps_ite | apply keeps_foldl | assumption) | (intro _; intros)

theorem keeps_productCopy {s0 s t : State} {c r : Nat} {ring : W32} {fetch : Bool} {j : Job} (h : Keeps s0 s)
    (e : productCopy s c ring r fetch j = some t) : Keeps s0 t := by
  unfold productCopy at e
  split at e
  · cases e; exact h
  · obtain ⟨u, hu, rfl⟩ := Option.map_eq_some_iff.mp e
    exact keeps_ite (keeps_fetchCopy (keeps_takeCopy h hu)) (keeps_takeCopy h hu)

theorem keeps_step1Next {s0 : State} {x : Step1} {f : State → Adm → Step1} (h : Keeps s0 x.state)
    (hf : ∀ u d, Keeps s0 u → Keeps s0 (f u d).state) : Keeps s0 (x.next f).state := by
  cases x with
  | go s d => exact hf _ _ h
  | stop s => exact h

theorem keeps_shapeStep {s0 s : State} {c : Nat} {d : Adm} (h : Keeps s0 s) : Keeps s0 (shapeStep s c d).state := by
  unfold shapeStep
  dsimp only
  repeat' split
  all_goals dsimp only [Step1.state]
  all_goals with_reducible first
    | exact h
    | exact keeps_finish h
    | exact keeps_xlateFail h
    | exact keeps_poisonFail h
    | exact keeps_setAdm h
    | exact keeps_finish (keeps_chargeRd h)
    | exact keeps_setAdm (keeps_chargeRd h)

theorem keeps_regionsStep {s0 s : State} {c : Nat} {d : Adm} {draws : Bool} {rs : List Nat} {f : List Nat → Step1} (h : Keeps s0 s)
    (hf : ∀ l, Keeps s0 (f l).state) : Keeps s0 (regionsStep s c d draws rs f).state := by
  unfold regionsStep
  repeat' split
  all_goals first | exact hf _ | exact keeps_endDesc h | exact keeps_absentDesc h

theorem keeps_regionStep {s0 s : State} {c : Nat} {d : Adm} {draws : Bool} {f : List Nat → Step1} (h : Keeps s0 s)
    (hf : ∀ l, Keeps s0 (f l).state) : Keeps s0 (regionStep s c d draws f).state := keeps_regionsStep h hf

theorem keeps_residencyStep {s0 s t : State} {c r : Nat} {ring : W32} {fetch : Bool} {j : Job} (h : Keeps s0 s)
    (e : residencyStep s c ring r fetch j = some t) : Keeps s0 t := by
  unfold residencyStep at e
  split at e
  · split at e
    · exact keeps_roomForWindows h e
    · cases e; exact h
  · obtain ⟨u, hu, e2⟩ := Option.bind_eq_some_iff.mp e
    split at e2
    · exact keeps_productCopy (keeps_productCopy h hu) e2
    · cases e2; exact keeps_productCopy h hu

theorem keeps_chargeTile {s0 s : State} {c : Nat} {r : Nat} {j : Job} {side : Bool} {reads : List Span} {writes : List Span} (h : Keeps s0 s)  : Keeps s0 (chargeTile s c r j side reads writes) := by
  unfold chargeTile
  try dsimp only
  repeat' first | with_reducible (first | exact h | apply keeps_setAcct | apply keeps_addRgnCnt | apply keeps_ite)

theorem keeps_wakeSpans {s0 s : State} {l : List Span} (h : Keeps s0 s)  : Keeps s0 (wakeSpans s l) := by
  unfold wakeSpans
  try dsimp only
  repeat' first | with_reducible (first | exact h | apply keeps_wakeWatch | apply keeps_ite | apply keeps_foldl | assumption) | (intro _; intros) | split

theorem keeps_mems {s0 s : State} {ms : Mems} (h : Keeps s0 s) (hm : s.mems.wf = true → ms.wf = true) :
    Keeps s0 { s with mems := ms } := keeps_lit h (le_refl _) (le_refl _) hm id id id

theorem keeps_runDescriptor {s0 s : State} {c r : Nat} {d : Adm} (h : Keeps s0 s) : Keeps s0 (runDescriptor s c r d) := by
  unfold runDescriptor
  dsimp only
  split
  · exact keeps_finish h
  split
  · exact keeps_finish (keeps_wakeSpans (keeps_mems h mems_wf_runTile))
  split
  · exact keeps_xlateFail h
  · exact keeps_poisonFail h
  split
  · exact keeps_endDesc h
  split
  · exact keeps_addRgnCnt h
  · exact keeps_finish (keeps_chargeTile (keeps_wakeSpans (keeps_mems (keeps_residencyStep h ‹_›) mems_wf_runTile)))

theorem keeps_wholeStep {s0 s : State} {c : Nat} {d : Adm} (h : Keeps s0 s) : Keeps s0 (wholeStep c s d).state := by
  unfold wholeStep
  split
  · exact keeps_runDescriptor h
  · refine keeps_regionStep h (fun l => ?_)
    split
    · exact h
    · exact keeps_runDescriptor h

theorem keeps_computeOp {s0 s : State} {c : Nat} {d : Adm} (h : Keeps s0 s) : Keeps s0 (computeOp s c d) :=
  keeps_step1Next (keeps_shapeStep h) (fun _ _ hu => keeps_wholeStep hu)

theorem keeps_foldSum {s0 s : State} {c r : Nat} {d : Adm} (h : Keeps s0 s) : Keeps s0 (foldSum s c r d) := by
  unfold foldSum
  dsimp only
  split
  · exact keeps_xlateFail h
  · exact keeps_poisonFail h
  split
  · exact keeps_finish h
  split
  · exact keeps_finish h
  · exact keeps_finish (keeps_chargeWr (keeps_chargeRd (keeps_wakeSpans (keeps_mems h mems_wf_runFold))))

theorem keeps_unitStep {s0 s : State} {c : Nat} {d : Adm} {draws : Bool} {f : List Nat → Step1} (h : Keeps s0 s)
    (hf : ∀ l, Keeps s0 (f l).state) : Keeps s0 (unitStep s c d draws f).state := keeps_regionsStep h hf

theorem keeps_foldRun {s0 s : State} {c : Nat} {r : Nat} {d : Adm} (h : Keeps s0 s)  : Keeps s0 (foldRun s c r d) := by
  unfold foldRun
  try dsimp only
  repeat' first | with_reducible (first | exact h | apply keeps_foldSum | apply keeps_putJournal | apply keeps_askRng | apply keeps_setAdm | apply keeps_ite | assumption) | (intro _; intros) | split

theorem keeps_foldOp {s0 s : State} {c : Nat} {d : Adm} (h : Keeps s0 s) : Keeps s0 (foldOp s c d) := by
  refine keeps_unitStep h (fun l => ?_)
  dsimp only [Step1.state]
  with_reducible exact keeps_foldRun h

theorem keeps_dropCopies {s0 s : State} {c : Nat} {tensors : List Nat} (h : Keeps s0 s)  : Keeps s0 (dropCopies s c tensors) := by
  unfold dropCopies
  try dsimp only
  repeat' first | with_reducible (first | exact h | apply keeps_ite | assumption) | (intro _; intros) | split | with_reducible apply keeps_mk

theorem keeps_dropWrapped {s0 s : State} {c : Nat} {ents : Tbl (List W64)} (h : Keeps s0 s)  : Keeps s0 (dropWrapped s c ents) := by
  unfold dropWrapped
  try dsimp only
  repeat' first | with_reducible (first | exact h | apply keeps_dropCopies | apply keeps_setCtx)

theorem keeps_rejectWith {s0 s : State} {c : Nat} {ring : W32} {desc : List W64} {res : Result} (h : Keeps s0 s)  : Keeps s0 (rejectWith s c ring desc res) := by
  unfold rejectWith
  try dsimp only
  repeat' first | with_reducible (first | exact h | apply keeps_setCtx)

theorem keeps_admitWith {s0 s : State} {c : Nat} {ring : W32} {desc : List W64} {l : Look} (h : Keeps s0 s)  : Keeps s0 (admitWith s c ring desc l) := by
  unfold admitWith
  try dsimp only
  repeat' first | with_reducible (first | exact h | apply keeps_dropWrapped | apply keeps_setCtx)

theorem keeps_rejectRead {s0 s : State} {c : Nat} {ring : W32} {desc : List W64} {x : ReadStop} (h : Keeps s0 s) :
    Keeps s0 (rejectRead s c ring desc x) := by
  cases x with
  | xlate a => exact keeps_rejectWith h
  | poison a => exact keeps_rejectWith (keeps_logFault h)
  | absent => exact keeps_rejectWith h

theorem keeps_admitHeld {s0 s : State} {c : Nat} {ring : W32} (h : Keeps s0 s)  : Keeps s0 (admitHeld s c ring) := by
  unfold admitHeld
  try dsimp only
  repeat' first | with_reducible (first | exact h | apply keeps_endDesc | apply keeps_ite)

theorem keeps_admitOp {s0 s : State} {c : Nat} {ring : W32} {desc : List W64} (h : Keeps s0 s)  : Keeps s0 (admitOp s c ring desc) := by
  unfold admitOp
  try dsimp only
  repeat' first | with_reducible (first | exact h | apply keeps_rejectRead | apply keeps_rejectWith | apply keeps_chargeRd | apply keeps_admitHeld | apply keeps_admitWith | apply keeps_ite | assumption) | (intro _; intros) | split

theorem keeps_waitRoom {s0 s : State} {c : Nat} (h : Keeps s0 s)  : Keeps s0 (waitRoom s c) := by
  unfold waitRoom
  try dsimp only
  repeat' first | with_reducible (first | exact h | apply keeps_writeStatus | apply keeps_setCtx | apply keeps_ite)

theorem keeps_stage {s0 s : State} {c : Nat} {ring : W32} {j : Job} (h : Keeps s0 s)  : Keeps s0 (stage s c ring j) := by
  unfold stage
  try dsimp only
  repeat' first | with_reducible (first | exact h | apply keeps_queueReads | apply keeps_askBank | apply keeps_ite | apply keeps_foldl | assumption) | (intro _; intros) | split

theorem keeps_beginTile {s0 s : State} {c : Nat} {d : Adm} (h : Keeps s0 s) : Keeps s0 (beginTile c s d).state := by
  unfold beginTile
  dsimp only
  split
  · exact keeps_wholeStep h
  · refine keeps_regionStep h (fun l => ?_)
    repeat' split
    all_goals dsimp only [Step1.state]
    all_goals with_reducible first
      | exact h
      | exact keeps_finish h
      | exact keeps_xlateFail h
      | exact keeps_poisonFail h
      | exact keeps_endDesc h
      | exact keeps_setAdm (keeps_stage h)

theorem keeps_emitSide {s0 s t : State} {r : Nat} {d : Adm} {u : SubTile} (h : Keeps s0 s)
    (e : emitSide s r d u = some t) : Keeps s0 t := by
  unfold emitSide at e
  split at e
  · cases e
  · cases e
    exact keeps_setRgn (keeps_putJournal h)

theorem keeps_emitNext {s0 s : State} {c : Nat} {d : Adm} (h : Keeps s0 s) : Keeps s0 (emitNext c s d).state := by
  unfold emitNext
  refine keeps_regionStep h (fun l => ?_)
  dsimp only
  split
  · exact h
  · split
    · exact keeps_addRgnCnt h
    · rename_i e
      have h1 := keeps_residencyStep h e
      split
      · split
        · exact h
        · rename_i e2
          exact keeps_setAdm (keeps_emitSide h1 e2)
      · exact keeps_setAdm (keeps_setRgn h1)

theorem keeps_dispatchOne {s0 s : State} {c : Nat} (h : Keeps s0 s) : Keeps s0 (dispatchOne s c) := by
  unfold dispatchOne
  split
  · exact h
  · split
    · exact h
    · split
      · exact keeps_emitNext h
      · exact keeps_step1Next (keeps_step1Next (keeps_shapeStep h) (fun _ _ hu => keeps_beginTile hu)) (fun _ _ hu => keeps_emitNext hu)

theorem keeps_chargeLate {s0 s : State} {c : Nat} {late : Nat} (h : Keeps s0 s)  : Keeps s0 (chargeLate s c late) := by
  unfold chargeLate
  try dsimp only
  repeat' first | with_reducible (first | exact h | apply keeps_setAcct | apply keeps_ite)

theorem keeps_tempoEnd {s0 s : State} {c : Nat} (h : Keeps s0 s)  : Keeps s0 (tempoEnd s c) := by
  unfold tempoEnd
  try dsimp only
  repeat' first | with_reducible (first | exact h | apply keeps_chargeLate | apply keeps_setCtx | apply keeps_ite)

end Sys2Proof.Machine
end

