-- ==== Sys2Proof/Laws/KeepsRows.lean ====
section
/-!
SUPPORT. `Keeps` for the arrays, the arbiters and the Side Path.
-/

namespace Sys2Proof.Machine

theorem keeps_fenceBand {s0 s : State} {a : Nat} {t : SubTile} (h : Keeps s0 s)  : Keeps s0 (fenceBand s a t) := by
  unfold fenceBand
  try dsimp only
  repeat' first | with_reducible (first | exact h | apply keeps_leaveArray | apply keeps_setArr | apply keeps_logFault | apply keeps_setRgn)

theorem keeps_bankFinding {s0 s : State} {a : Nat} {t : SubTile} {rs : RsResult} (h : Keeps s0 s)  : Keeps s0 (bankFinding s a t rs) := by
  unfold bankFinding
  try dsimp only
  repeat' first | with_reducible (first | exact h | apply keeps_logFault | apply keeps_addArrCnt | apply keeps_fenceBand | apply keeps_fenceUnit | apply keeps_ite | assumption) | split

theorem keeps_askSpad {s0 s : State} {sp : Space} {cls : Nat} {a : Nat} {act : BankAct} {o : Owner} (h : Keeps s0 s)  : Keeps s0 (askSpad s sp cls a act o) := by
  unfold askSpad
  try dsimp only
  repeat' first | with_reducible (first | exact h | apply keeps_askBank | apply keeps_ite | assumption) | split

theorem keeps_readRow {s0 s : State} {r : Nat} {bank : Nat} {port : Nat} {o : Owner} {j : Job} {t : SubTile} {n : Nat} {i : Nat} (h : Keeps s0 s)  : Keeps s0 (readRow s r bank port o j t n i) := by
  unfold readRow
  try dsimp only
  repeat' first | with_reducible (first | exact h | apply keeps_askBank | apply keeps_queueReads | apply keeps_ite | apply keeps_foldl | assumption) | (intro _; intros)

theorem keeps_fetchLists {s0 s : State} {r : Nat} {j : Job} {t : SubTile} {p : Nat} (h : Keeps s0 s)  : Keeps s0 (fetchLists s r j t p) := by
  unfold fetchLists
  try dsimp only
  repeat' first | with_reducible (first | exact h | apply keeps_askBank | apply keeps_queueReads | apply keeps_ite | apply keeps_foldl | assumption) | (intro _; intros)

theorem keeps_readAt {s0 s : State} {r : Nat} {cls : Nat} {sp : Space} {a : Nat} {n : Nat} {t : SubTile} (h : Keeps s0 s)  : Keeps s0 (readAt s r cls sp a n t) := by
  unfold readAt
  try dsimp only
  repeat' first | with_reducible (first | exact h | apply keeps_askBank | apply keeps_queueReads | apply keeps_ite | apply keeps_foldl | assumption) | (intro _; intros) | split

theorem keeps_dwrrPick {s0 : State} {k : Nat} {members : List Nat} {l : List SubTile} (f : Nat) :
    ∀ {s : State}, Keeps s0 s → Keeps s0 (dwrrPick k members l f s).2 := by
  induction f with
  | zero => intro s h; exact h
  | succ f ih =>
    intro s h
    unfold dwrrPick
    dsimp only
    repeat' split
    all_goals first
      | exact ih (keeps_mk h)
      | exact keeps_setCtx h
      | exact keeps_setCtx (keeps_setCtx h)
      | exact ih (keeps_mk (keeps_setCtx h))
      | exact ih (keeps_mk (keeps_setCtx (keeps_setCtx h)))
      | exact ih (keeps_mk (keeps_setCtx (keeps_setCtx (keeps_setCtx h))))

theorem keeps_pickNext {s0 s : State} {r : Nat} (h : Keeps s0 s) : Keeps s0 (pickNext s r).2 := by
  unfold pickNext
  dsimp only
  repeat' split
  all_goals first | exact h | exact keeps_setCtx h | exact keeps_dwrrPick _ h

theorem keeps_meetPreload {s0 s : State} {a : Nat} {j : Job} {t : SubTile} {n : Nat} (h : Keeps s0 s)  : Keeps s0 (meetPreload s a j t n) := by
  unfold meetPreload
  try dsimp only
  repeat' first | with_reducible (first | exact h | apply keeps_addCnt | apply keeps_adoptReads | apply keeps_setArr | apply keeps_chargeRd | apply keeps_fetchLists | apply keeps_ite | assumption) | (intro _; intros) | split

theorem keeps_meetPreloads {s0 s : State} {a : Nat} {j : Job} {t : SubTile} (h : Keeps s0 s)  : Keeps s0 (meetPreloads s a j t) := by
  unfold meetPreloads
  try dsimp only
  repeat' first | with_reducible (first | exact h | apply keeps_meetPreload | apply keeps_ite)

theorem keeps_seatTo {s0 s : State} {r : Nat} {a : Nat} {k : Nat} {t : SubTile} {d : Adm} {j : Job} (h : Keeps s0 s)  : Keeps s0 (seatTo s r a k t d j) := by
  unfold seatTo
  try dsimp only
  repeat' first | with_reducible (first | exact h | apply keeps_meetPreloads | apply keeps_setArr | apply keeps_putJournal)

theorem keeps_bindTo {s0 s : State} {r : Nat} {a : Nat} {t : SubTile} {d : Adm} {j : Job} (h : Keeps s0 s)  : Keeps s0 (bindTo s r a t d j) := by
  unfold bindTo
  try dsimp only
  repeat' first | with_reducible (first | exact h | apply keeps_seatTo | apply keeps_setRgn | apply keeps_ite | assumption) | split

theorem keeps_bindMates {s0 s : State} {r : Nat} {a : Nat} {d : Adm} {j : Job} {l : List SubTile} (h : Keeps s0 s)  : Keeps s0 (bindMates s r a d j l) := by
  unfold bindMates
  try dsimp only
  repeat' first | with_reducible (first | exact h | apply keeps_bindTo | apply keeps_setCtx | apply keeps_ite | apply keeps_foldl | assumption) | (intro _; intros)

theorem keeps_bindOne {s0 s : State} {r : Nat} (h : Keeps s0 s)  : Keeps s0 (bindOne s r) := by
  unfold bindOne
  try dsimp only
  repeat' first | with_reducible (first | exact h | apply keeps_pickNext | apply keeps_bindTo | apply keeps_setRgn | apply keeps_bindMates | refine keeps_of_fst (by assumption) ?_ | refine keeps_of_snd (by assumption) ?_ | apply keeps_ite | assumption) | split

theorem keeps_relieve {s0 s : State} {r : Nat} (h : Keeps s0 s)  : Keeps s0 (relieve s r) := by
  unfold relieve
  try dsimp only
  repeat' first | with_reducible (first | exact h | apply keeps_setRgn | apply keeps_ite | assumption) | split

theorem keeps_mapSub {s0 s : State} {r : Nat} {t : SubTile} {f : SubTile → SubTile} (h : Keeps s0 s)  : Keeps s0 (mapSub s r t f) := by
  unfold mapSub
  try dsimp only
  repeat' first | with_reducible (first | exact h | apply keeps_setArr | apply keeps_setRgn | apply keeps_ite | assumption) | (intro _; intros) | split

theorem keeps_journalSub {s0 s : State} {r : Nat} {t : SubTile} (h : Keeps s0 s)  : Keeps s0 (journalSub s r t) := by
  unfold journalSub
  try dsimp only
  repeat' first | with_reducible (first | exact h | apply keeps_putJournal | apply keeps_ite | assumption) | split

theorem keeps_giveSlot {s0 s t : State} {r : Nat} {u : SubTile} (h : Keeps s0 s) (e : giveSlot s r u = some t) :
    Keeps s0 t := by
  unfold giveSlot at e
  dsimp only at e
  repeat' split at e
  all_goals first
    | (cases e; exact keeps_journalSub (keeps_mapSub (keeps_setRgn h)))
    | (cases e; exact keeps_journalSub (keeps_mapSub (keeps_addRgnCnt (keeps_setCtx h))))
    | cases e

theorem keeps_assignFirst {s0 s : State} {r : Nat} (h : Keeps s0 s) (l : List SubTile) :
    ∀ held : List Nat, Keeps s0 (assignFirst s r held l) := by
  induction l with
  | nil =>
    intro held
    unfold assignFirst
    split
    · exact h
    · exact keeps_addRgnCnt h
  | cons t ts ih =>
    intro held
    unfold assignFirst
    split
    · exact ih _
    · split
      · exact keeps_ite (keeps_giveSlot h ‹_›) (keeps_addRgnCnt (keeps_giveSlot h ‹_›))
      · exact ih _

theorem keeps_setLink {s0 s : State} {r : Nat} {t : SubTile} {l : List LinkHalf} (h : Keeps s0 s)  : Keeps s0 (setLink s r t l) := by
  unfold setLink
  try dsimp only
  repeat' first | with_reducible (first | exact h | apply keeps_setArr | apply keeps_setRgn | apply keeps_ite | assumption) | split

theorem keeps_linkPut {s0 s : State} {r : Nat} {t : SubTile} {x : LinkRow} (h : Keeps s0 s)  : Keeps s0 (linkPut s r t x) := by
  unfold linkPut
  try dsimp only
  repeat' first | with_reducible (first | exact h | apply keeps_setLink | apply keeps_ite)

theorem keeps_linkFree {s0 s : State} {r : Nat} {t : SubTile} {g : Nat} (h : Keeps s0 s)  : Keeps s0 (linkFree s r t g) := by
  unfold linkFree
  try dsimp only
  repeat' first | with_reducible (first | exact h | apply keeps_setLink)

theorem keeps_countMiss {s0 s : State} {a : Nat} (h : Keeps s0 s)  : Keeps s0 (countMiss s a) := by
  unfold countMiss
  try dsimp only
  repeat' first | with_reducible (first | exact h | apply keeps_setArr | apply keeps_fenceUnit | apply keeps_ite)

theorem keeps_historyUpdate {s0 s : State} {a : Nat} {b : BlockKey} (h : Keeps s0 s)  : Keeps s0 (historyUpdate s a b) := by
  unfold historyUpdate
  try dsimp only
  repeat' first | with_reducible (first | exact h | apply keeps_setArr | apply keeps_ite | assumption) | split | with_reducible apply keeps_mk

theorem keeps_ranNow {s0 s : State} {a : Nat} {w : Work} (h : Keeps s0 s)  : Keeps s0 (ranNow s a w) := by
  unfold ranNow
  try dsimp only
  repeat' first | with_reducible (first | exact h | apply keeps_historyUpdate | apply keeps_setArr | apply keeps_ite)

theorem keeps_castleWait {s0 s : State} {a : Nat} {w : Work} {rs : RsResult} (h : Keeps s0 s)  : Keeps s0 (castleWait s a w rs) := by
  unfold castleWait
  try dsimp only
  repeat' first | with_reducible (first | exact h | apply keeps_addArrCnt | apply keeps_setArr | apply keeps_addRgnCnt | apply keeps_ite)

theorem keeps_markReplayed {s0 s : State} {a : Nat} {t : SubTile} (h : Keeps s0 s)  : Keeps s0 (markReplayed s a t) := by
  unfold markReplayed
  try dsimp only
  repeat' first | with_reducible (first | exact h | apply keeps_mapSub)

theorem keeps_parityError {s0 s : State} {a : Nat} {l : Load} {w : Option Work} (h : Keeps s0 s)  : Keeps s0 (parityError s a l w) := by
  unfold parityError
  try dsimp only
  repeat' first | with_reducible (first | exact h | apply keeps_logFault | apply keeps_setArr | apply keeps_markReplayed | apply keeps_countMiss | apply keeps_ite | assumption) | split

theorem keeps_dropPreload {s0 s : State} {a : Nat} (h : Keeps s0 s)  : Keeps s0 (dropPreload s a) := by
  unfold dropPreload
  try dsimp only
  repeat' first | with_reducible (first | exact h | apply keeps_addCnt | apply keeps_setArr)

theorem keeps_writeShadow {s0 s : State} {a : Nat} {l : Load} {j : Job} {t : SubTile} {n : Nat} {rs : RsResult} (h : Keeps s0 s)  : Keeps s0 (writeShadow s a l j t n rs) := by
  unfold writeShadow
  try dsimp only
  repeat' first | with_reducible (first | exact h | apply keeps_setArr | apply keeps_dropPreload | apply keeps_bankFinding | apply keeps_ite)

theorem keeps_startLoad {s0 s : State} {a : Nat} {w : Work × Nat} (h : Keeps s0 s)  : Keeps s0 (startLoad s a w) := by
  unfold startLoad
  try dsimp only
  repeat' first | with_reducible (first | exact h | apply keeps_setArr | apply keeps_readRow | apply keeps_fetchLists | apply keeps_ite | apply keeps_foldl | assumption) | (intro _; intros)

theorem keeps_syncLoads {s0 s : State} {a : Nat} (h : Keeps s0 s)  : Keeps s0 (syncLoads s a) := by
  unfold syncLoads
  try dsimp only
  repeat' first | with_reducible (first | exact h | apply keeps_addCnt | apply keeps_startLoad | apply keeps_setArr | apply keeps_ite | apply keeps_foldl | assumption) | (intro _; intros)

theorem keeps_askActs {s0 s : State} {r : Nat} {cls : Nat} {w : Work} {row : Nat} (h : Keeps s0 s)  : Keeps s0 (askActs s r cls w row) := by
  unfold askActs
  try dsimp only
  repeat' first | with_reducible (first | exact h | apply keeps_askBank | apply keeps_readAt | apply keeps_ite | apply keeps_foldl | assumption) | (intro _; intros) | split | with_reducible apply keeps_mk

theorem keeps_askParts {s0 s : State} {r : Nat} {w : Work} {row : Nat} (h : Keeps s0 s)  : Keeps s0 (askParts s r w row) := by
  unfold askParts
  try dsimp only
  repeat' first | with_reducible (first | exact h | apply keeps_readAt | apply keeps_ite | apply keeps_foldl | assumption) | (intro _; intros) | split | with_reducible apply keeps_mk

theorem keeps_askAhead {s0 s : State} {a : Nat} {w : Work} (h : Keeps s0 s)  : Keeps s0 (askAhead s a w) := by
  unfold askAhead
  try dsimp only
  repeat' first | with_reducible (first | exact h | apply keeps_askActs | apply keeps_setArr | apply keeps_ite | apply keeps_foldl | assumption) | (intro _; intros) | split | with_reducible apply keeps_mk

theorem keeps_feedAhead {s0 s : State} {a : Nat} (h : Keeps s0 s)  : Keeps s0 (feedAhead s a) := by
  unfold feedAhead
  try dsimp only
  repeat' first | with_reducible (first | exact h | apply keeps_askAhead | apply keeps_ite | apply keeps_foldl | assumption) | (intro _; intros) | split | with_reducible apply keeps_mk

theorem keeps_castleDo {s0 s : State} {a : Nat} {w : Work} {rs : RsResult} (h : Keeps s0 s)  : Keeps s0 (castleDo s a w rs) := by
  unfold castleDo
  try dsimp only
  repeat' first | with_reducible (first | exact h | apply keeps_setArr | apply keeps_mapSub | apply keeps_bankFinding | apply keeps_ranNow | apply keeps_addArrCnt | apply keeps_syncLoads | apply keeps_feedAhead | apply keeps_ite | assumption) | (intro _; intros) | split | with_reducible apply keeps_mk

theorem keeps_heldCastle {s0 s : State} {a : Nat} (h : Keeps s0 s)  : Keeps s0 (heldCastle s a) := by
  unfold heldCastle
  try dsimp only
  repeat' first | with_reducible (first | exact h | apply keeps_castleDo | apply keeps_ite | assumption) | (intro _; intros) | split

theorem keeps_currentLoad {s0 s : State} {a : Nat} (h : Keeps s0 s) : Keeps s0 (currentLoad s a).1 := by
  have h1 := keeps_syncLoads (a := a) h
  unfold currentLoad
  dsimp only
  repeat' split
  all_goals exact h1

theorem keeps_loadOne {s0 s : State} {a : Nat} {parityBad : Bool} {rs : RsResult} (h : Keeps s0 s)  : Keeps s0 (loadOne s a parityBad rs) := by
  unfold loadOne
  try dsimp only
  repeat' first | with_reducible (first | exact h | apply keeps_currentLoad | apply keeps_heldCastle | apply keeps_dropPreload | apply keeps_parityError | apply keeps_writeShadow | refine keeps_of_fst (by assumption) ?_ | refine keeps_of_snd (by assumption) ?_ | apply keeps_ite | assumption) | split

theorem keeps_laneCycle {s0 s : State} {a : Nat} {w : Work} {dry blocked : List Nat} {up : List (Nat × W32)} (h : Keeps s0 s) :
    Keeps s0 (laneCycle s a w dry blocked up).1 := by
  unfold laneCycle
  dsimp only
  exact keeps_foldl (fun _ _ hu => keeps_askParts hu) (keeps_setArr h)

theorem keeps_lanesCycle {s0 : State} {a : Nat} {dry blocked : List Nat} {up : List (Nat × W32)} (ws : List Work) :
    ∀ {s : State}, Keeps s0 s → Keeps s0 (lanesCycle s a dry blocked up ws).1 := by
  induction ws with
  | nil => intro s h; exact h
  | cons w ws ih => intro s h; exact ih (keeps_laneCycle h)

theorem keeps_countCycle {s0 s : State} {a : Nat} {seen : CycleSeen} (h : Keeps s0 s) : Keeps s0 (countCycle s a seen) := by
  unfold countCycle
  have hb := keeps_addArrCnt (a := a) (i := 7) (n := 1) h
  have h1 := keeps_ite (p := tspWaits s a = true) (keeps_addRgnCnt (r := a / 4) (i := 9) (n := 1) hb) hb
  have h2 := keeps_ite (p := seen.still = true) (keeps_addArrCnt (a := a) (i := 1) (n := 1) h1) h1
  have h3 := keeps_ite (p := seen.wait = true) (keeps_addRgnCnt (r := a / 4) (i := 15) (n := 1) h2) h2
  have h4 := keeps_ite (p := seen.full = true) (keeps_addArrCnt (a := a) (i := 6) (n := 1) h3) h3
  exact keeps_ite (keeps_addArrCnt h4) h4

theorem keeps_broadcast {s0 s : State} {a : Nat} {dry blocked : List Nat} {up : List (Nat × W32)} (h : Keeps s0 s) :
    Keeps s0 (broadcast s a dry blocked up) :=
  keeps_ite h (keeps_feedAhead (keeps_countCycle (keeps_setArr (keeps_lanesCycle _ h))))

theorem keeps_rewind {s0 s : State} {a : Nat} {w : Work} {row : Nat} {miss : Nat} (h : Keeps s0 s)  : Keeps s0 (rewind s a w row miss) := by
  unfold rewind
  try dsimp only
  repeat' first | with_reducible (first | exact h | apply keeps_addCnt | apply keeps_mapSub | apply keeps_setArr)

theorem keeps_moveAway {s0 s : State} {t : SubTile} (h : Keeps s0 s)  : Keeps s0 (moveAway s t) := by
  unfold moveAway
  try dsimp only
  repeat' first | with_reducible (first | exact h | apply keeps_leaveArray | apply keeps_setRgn | apply keeps_ite | assumption) | (intro _; intros) | split

theorem keeps_mismatch {s0 s : State} {a : Nat} {w : Work} {row : Nat} (h : Keeps s0 s)  : Keeps s0 (mismatch s a w row) := by
  unfold mismatch
  try dsimp only
  repeat' first | with_reducible (first | exact h | apply keeps_logFault | apply keeps_addArrCnt | apply keeps_moveAway | apply keeps_addCnt | apply keeps_rewind | apply keeps_countMiss | apply keeps_ite)

theorem keeps_checkOne {s0 s : State} {a : Nat} (h : Keeps s0 s)  : Keeps s0 (checkOne s a) := by
  unfold checkOne
  try dsimp only
  repeat' first | with_reducible (first | exact h | apply keeps_setArr | apply keeps_askRng | apply keeps_addArrCnt | apply keeps_mismatch | apply keeps_ite | assumption) | (intro _; intros) | split

theorem keeps_drainMem {s0 s : State} {r : Nat} {c : Nat} {ring : W32} {cls : Nat} {w : MemWrite} {sub : Option (Nat × Nat)} (h : Keeps s0 s)  : Keeps s0 (drainMem s r c ring cls w sub) := by
  unfold drainMem
  try dsimp only
  repeat' first | with_reducible (first | exact h | apply keeps_xlateFail | apply keeps_chargeWr | apply keeps_queuePort | apply keeps_ite | apply keeps_foldl | assumption) | (intro _; intros) | split | with_reducible apply keeps_mk | refine keeps_lit ?_ (by first | with_reducible exact le_refl _ | with_reducible exact Nat.le_succ _ | omega) (by first | with_reducible exact le_refl _ | with_reducible exact Nat.le_succ _) (by with_reducible first | exact id | exact mems_wf_wrBytes _ _ _ _ | exact mems_wf_wrLe _ _ _ _ _ | exact mems_wf_applyWrites _ _ | exact mems_wf_dropSpad _ _ | exact mems_wf_noSpad _) (by first | with_reducible exact id | exact fun _ => by decide | exact fun _ => rfl | simp) (by first | with_reducible exact id | exact fun _ => by decide | exact fun _ => rfl | simp) (by first | with_reducible exact id | exact fun _ => by decide | exact fun _ => rfl | simp)

theorem keeps_putMark {s0 s : State} {m : Option (Nat × Nat × List W64)} (h : Keeps s0 s)  : Keeps s0 (putMark s m) := by
  unfold putMark
  try dsimp only
  repeat' first | with_reducible (first | exact h | apply keeps_putJournal | apply keeps_ite | assumption) | split

theorem keeps_drainFree {s0 s : State} {r : Nat} {c : Nat} {ring : W32} {cls : Nat} {frees : Option SlotRef} {ws : List MemWrite} {sub : Option (Nat × Nat)} {mark : Option (Nat × Nat × List W64)} (h : Keeps s0 s)  : Keeps s0 (drainFree s r c ring cls frees ws sub mark) := by
  unfold drainFree
  try dsimp only
  repeat' first | with_reducible (first | exact h | apply keeps_drainMem | apply keeps_askBank | apply keeps_putMark | apply keeps_freeSlot | apply keeps_askBankFor | apply keeps_ite | apply keeps_foldl | assumption) | (intro _; intros) | split

theorem keeps_drainWrites {s0 s : State} {r : Nat} {c : Nat} {ring : W32} {cls : Nat} {ws : List MemWrite} {sub : Option (Nat × Nat)} {mark : Option (Nat × Nat × List W64)} (h : Keeps s0 s)  : Keeps s0 (drainWrites s r c ring cls ws sub mark) := by
  unfold drainWrites
  try dsimp only
  repeat' first | with_reducible (first | exact h | apply keeps_drainFree)

theorem keeps_sendOut {s0 s : State} {r : Nat} {t : SubTile} {x : RowRes} {skew : Option Nat} {done : Bool} {ws : List MemWrite} {mark : Option (Nat × Nat × List W64)} (h : Keeps s0 s)  : Keeps s0 (sendOut s r t x skew done ws mark) := by
  unfold sendOut
  try dsimp only
  repeat' first | with_reducible (first | exact h | apply keeps_drainFree | apply keeps_putMark | apply keeps_freeSlot | apply keeps_setArr | apply keeps_ite | assumption) | split

theorem keeps_endTile {s0 s : State} {c : Nat} {ring : W32} {r : Nat} (h : Keeps s0 s)  : Keeps s0 (endTile s c ring r) := by
  unfold endTile
  try dsimp only
  repeat' first | with_reducible (first | exact h | apply keeps_finish | apply keeps_drainWrites | apply keeps_ite | assumption) | split

theorem keeps_removeSub {s0 s : State} {r : Nat} {t : SubTile} (h : Keeps s0 s)  : Keeps s0 (removeSub s r t) := by
  unfold removeSub
  try dsimp only
  repeat' first | with_reducible (first | exact h | apply keeps_leaveArray | apply keeps_setRgn | apply keeps_ite | assumption) | (intro _; intros) | split

theorem keeps_dropWindows {s0 s : State} {j : Job} {t : SubTile} (h : Keeps s0 s)  : Keeps s0 (dropWindows s j t) := by
  unfold dropWindows
  try dsimp only
  repeat' first | with_reducible (first | exact h | apply keeps_ite | assumption) | (intro _; intros) | split | with_reducible apply keeps_mk

theorem keeps_endSub {s0 s : State} {r : Nat} {j : Job} {t : SubTile} (h : Keeps s0 s)  : Keeps s0 (endSub s r j t) := by
  unfold endSub
  try dsimp only
  repeat' first | with_reducible (first | exact h | apply keeps_removeSub | apply keeps_dropWindows | apply keeps_dropJournal | apply keeps_setAcct | apply keeps_addRgnCnt | apply keeps_setAdm | apply keeps_endTile | apply keeps_ite | assumption) | (intro _; intros) | split

theorem keeps_putStats {s0 s : State} {t : SubTile} {i : Nat} {key : Nat} {vs : List Num} (h : Keeps s0 s)  : Keeps s0 (putStats s t i key vs) := by
  unfold putStats
  try dsimp only
  repeat' first | with_reducible (first | exact h | apply keeps_setAdm)

theorem keeps_writeStats {s0 s : State} {r : Nat} {j : Job} {t : SubTile} {i : Nat} {vals : List Num} {f : TFlags} (h : Keeps s0 s)  : Keeps s0 (writeStats s r j t i vals f) := by
  unfold writeStats
  try dsimp only
  repeat' first | with_reducible (first | exact h | apply keeps_setAdm | apply keeps_drainWrites)

theorem keeps_keepStats {s0 s : State} {r : Nat} {j : Job} {t : SubTile} {i : Nat} {vs : List Num} (h : Keeps s0 s)  : Keeps s0 (keepStats s r j t i vs) := by
  unfold keepStats
  try dsimp only
  repeat' first | with_reducible (first | exact h | apply keeps_putStats | apply keeps_writeStats | apply keeps_ite | assumption) | (intro _; intros) | split

theorem keeps_chargeCommit {s0 s : State} {c : Nat} {macs : Nat} {passes : Nat} (h : Keeps s0 s)  : Keeps s0 (chargeCommit s c macs passes) := by
  unfold chargeCommit
  try dsimp only
  repeat' first | with_reducible (first | exact h | apply keeps_setAcct)

theorem keeps_commitRow {s0 s : State} {r : Nat} {j : Job} {t : SubTile} {x : RowRes} {skew : Option Nat} {zup : List (Nat × W32)} (h : Keeps s0 s)  : Keeps s0 (commitRow s r j t x skew zup) := by
  unfold commitRow
  try dsimp only
  repeat' first | with_reducible (first | exact h | apply keeps_drainWrites | apply keeps_mapSub | apply keeps_sendOut | apply keeps_chargeCommit | apply keeps_keepStats | apply keeps_endSub | apply keeps_ite)

theorem keeps_leadCommit {s0 s : State} {r : Nat} {w : Work} {x : RowRes} {zup : List (Nat × W32)} (h : Keeps s0 s)  : Keeps s0 (leadCommit s r w x zup) := by
  unfold leadCommit
  try dsimp only
  repeat' first | with_reducible (first | exact h | apply keeps_linkPut | apply keeps_mapSub | apply keeps_putStats | apply keeps_ite)

theorem keeps_fusedCommit {s0 s : State} {r : Nat} {j : Job} {t : SubTile} (h : Keeps s0 s)  : Keeps s0 (fusedCommit s r j t) := by
  unfold fusedCommit
  try dsimp only
  repeat' first | with_reducible (first | exact h | apply keeps_drainWrites | apply keeps_mapSub | apply keeps_linkFree | apply keeps_chargeCommit | apply keeps_endSub | apply keeps_ite)

theorem keeps_fusedStats {s0 s : State} {r : Nat} {j : Job} {t : SubTile} {row : Nat} {g : Nat} {vs : List Num} (h : Keeps s0 s)  : Keeps s0 (fusedStats s r j t row g vs) := by
  unfold fusedStats
  try dsimp only
  repeat' first | with_reducible (first | exact h | apply keeps_putStats | apply keeps_writeStats | apply keeps_ite | assumption) | split

theorem keeps_followCommit {s0 s : State} {r : Nat} {w : Work} {x : RowRes} {skew : Option Nat} (h : Keeps s0 s)  : Keeps s0 (followCommit s r w x skew) := by
  unfold followCommit
  try dsimp only
  repeat' first | with_reducible (first | exact h | apply keeps_sendOut | apply keeps_fusedStats | apply keeps_mapSub | apply keeps_fusedCommit | apply keeps_ite)

theorem keeps_commitWork {s0 s : State} {r : Nat} {w : Work} {x : RowRes} {skew : Option Nat} {zup : List (Nat × W32)} (h : Keeps s0 s)  : Keeps s0 (commitWork s r w x skew zup) := by
  unfold commitWork
  try dsimp only
  repeat' first | with_reducible (first | exact h | apply keeps_commitRow | apply keeps_leadCommit | apply keeps_followCommit | apply keeps_ite | assumption) | split

theorem keeps_specCommit {s0 s : State} {a : Nat} {j : Job} {t : SubTile} {b : SpecBuf} (h : Keeps s0 s)  : Keeps s0 (specCommit s a j t b) := by
  unfold specCommit
  try dsimp only
  repeat' first | with_reducible (first | exact h | apply keeps_drainWrites | apply keeps_journalSub | apply keeps_mapSub | apply keeps_chargeCommit | apply keeps_addCnt | apply keeps_setArr | apply keeps_ite | apply keeps_foldl | assumption) | (intro _; intros)

theorem keeps_castleStep {s0 s : State} {a : Nat} {rs : RsResult} (h : Keeps s0 s)  : Keeps s0 (castleStep s a rs) := by
  unfold castleStep
  try dsimp only
  repeat' first | with_reducible (first | exact h | apply keeps_addCnt | apply keeps_setArr | apply keeps_historyUpdate | apply keeps_specCommit | apply keeps_castleDo | apply keeps_castleWait | apply keeps_ite | assumption) | (intro _; intros) | split

theorem keeps_bufferReport {s0 s : State} {kind : BitVec 4} {unit : Nat} {rgn : Nat} {c : Nat} {ring : W32} (h : Keeps s0 s)  : Keeps s0 (bufferReport s kind unit rgn c ring) := by
  unfold bufferReport
  try dsimp only
  repeat' first | with_reducible (first | exact h | apply keeps_logFault)

theorem keeps_bufferLoss {s0 s : State} {a : Nat} {w : Work} (h : Keeps s0 s)  : Keeps s0 (bufferLoss s a w) := by
  unfold bufferLoss
  try dsimp only
  repeat' first | with_reducible (first | exact h | apply keeps_rewind | apply keeps_bufferReport | apply keeps_setArr)

theorem keeps_clearLane {s0 s : State} {a : Nat} (h : Keeps s0 s)  : Keeps s0 (clearLane s a) := by
  unfold clearLane
  try dsimp only
  repeat' first | with_reducible (first | exact h | apply keeps_setArr)

theorem keeps_fusedResume {s0 s : State} {r : Nat} {t : SubTile} (h : Keeps s0 s)  : Keeps s0 (fusedResume s r t) := by
  unfold fusedResume
  try dsimp only
  repeat' first | with_reducible (first | exact h | apply keeps_mapSub | apply keeps_setLink | apply keeps_clearLane | apply keeps_ite | assumption) | (intro _; intros) | split

theorem keeps_drainLoss {s0 s : State} {a : Nat} {w : Work} (h : Keeps s0 s)  : Keeps s0 (drainLoss s a w) := by
  unfold drainLoss
  try dsimp only
  repeat' first | with_reducible (first | exact h | apply keeps_fusedResume | apply keeps_bufferReport | apply keeps_fenceUnit | apply keeps_bufferLoss | apply keeps_ite)

theorem keeps_commitOne {s0 s : State} {a : Nat} {rs : RsResult} (h : Keeps s0 s)  : Keeps s0 (commitOne s a rs) := by
  unfold commitOne
  try dsimp only
  repeat' first | with_reducible (first | exact h | apply keeps_drainLoss | apply keeps_commitWork | apply keeps_setArr | apply keeps_feedAhead | apply keeps_passEnded | apply keeps_ite | assumption) | split | with_reducible apply keeps_mk

theorem keeps_delayLoss {s0 s : State} {a : Nat} {q : DelayRow} (h : Keeps s0 s)  : Keeps s0 (delayLoss s a q) := by
  unfold delayLoss
  try dsimp only
  repeat' first | with_reducible (first | exact h | apply keeps_bufferLoss | apply keeps_bufferReport | apply keeps_ite | assumption) | (intro _; intros) | split

theorem keeps_deliver {s0 s : State} {a : Nat} {rs : RsResult} (h : Keeps s0 s)  : Keeps s0 (deliver s a rs) := by
  unfold deliver
  try dsimp only
  repeat' first | with_reducible (first | exact h | apply keeps_delayLoss | apply keeps_setArr | apply keeps_endTile | apply keeps_drainFree | apply keeps_ite | assumption) | split

theorem keeps_rereadSlot {s0 s : State} {r : Nat} {t : SubTile} (h : Keeps s0 s)  : Keeps s0 (rereadSlot s r t) := by
  unfold rereadSlot
  try dsimp only
  repeat' first | with_reducible (first | exact h | apply keeps_xlateFail | apply keeps_poisonFail | apply keeps_askSlot | apply keeps_setRgn | apply keeps_ite | assumption) | (intro _; intros) | split

theorem keeps_restartQueued {s0 s : State} {r : Nat} {t : SubTile} (h : Keeps s0 s)  : Keeps s0 (restartQueued s r t) := by
  unfold restartQueued
  try dsimp only
  repeat' first | with_reducible (first | exact h | apply keeps_setRgn)

theorem keeps_leaveForRestart {s0 s : State} {r a : Nat} {t : SubTile} (h : Keeps s0 s) : Keeps s0 (leaveForRestart s r a t).1 := by
  unfold leaveForRestart
  split
  · exact keeps_fenceBand h
  · exact keeps_setRgn (keeps_leaveArray h)

theorem keeps_restartOne {s0 s : State} {r : Nat} {t : SubTile} (h : Keeps s0 s)  : Keeps s0 (restartOne s r t) := by
  unfold restartOne
  try dsimp only
  repeat' first | with_reducible (first | exact h | apply keeps_freeSlot | apply keeps_mapSub | apply keeps_dropJournal | apply keeps_leaveForRestart | apply keeps_restartQueued | refine keeps_of_fst (by assumption) ?_ | refine keeps_of_snd (by assumption) ?_ | apply keeps_ite | assumption) | (intro _; intros) | split

theorem keeps_journalGone {s0 s : State} {r : Nat} {k : Nat} (h : Keeps s0 s)  : Keeps s0 (journalGone s r k) := by
  unfold journalGone
  try dsimp only
  repeat' first | with_reducible (first | exact h | apply keeps_logFault | apply keeps_dropJournal | apply keeps_endDesc | apply keeps_putJournal | apply keeps_restartOne | apply keeps_ite | assumption) | (intro _; intros) | split

theorem keeps_journalLost {s0 s : State} {r : Nat} {k : Nat} {second : Bool} (h : Keeps s0 s)  : Keeps s0 (journalLost s r k second) := by
  unfold journalLost
  try dsimp only
  repeat' first | with_reducible (first | exact h | apply keeps_journalGone | apply keeps_setRgn | apply keeps_logFault | apply keeps_addRgnCnt | apply keeps_ite)

theorem keeps_copyLost {s0 s : State} {r : Nat} {y : ResCopy} (h : Keeps s0 s)  : Keeps s0 (copyLost s r y) := by
  unfold copyLost
  try dsimp only
  repeat' first | with_reducible (first | exact h | apply keeps_setRgn | apply keeps_fetchCopy | apply keeps_ite | assumption) | (intro _; intros) | split

theorem keeps_areaLost {s0 s : State} {r : Nat} {hit : Nat × Nat → Bool} (h : Keeps s0 s)  : Keeps s0 (areaLost s r hit) := by
  unfold areaLost
  try dsimp only
  repeat' first | with_reducible (first | exact h | apply keeps_copyLost | apply keeps_setRgn | apply keeps_ite | apply keeps_foldl | assumption) | (intro _; intros)

theorem keeps_partialsLost {s0 s : State} {r : Nat} {hit : Nat × Nat → Bool} (h : Keeps s0 s)  : Keeps s0 (partialsLost s r hit) := by
  unfold partialsLost
  try dsimp only
  repeat' first | with_reducible (first | exact h | apply keeps_restartOne | apply keeps_ite | apply keeps_foldl | assumption) | (intro _; intros)

theorem keeps_contentsLost {s0 s : State} {r : Nat} {a : Nat} (h : Keeps s0 s)  : Keeps s0 (contentsLost s r a) := by
  unfold contentsLost
  try dsimp only
  repeat' first | with_reducible (first | exact h | apply keeps_journalLost | apply keeps_partialsLost | apply keeps_areaLost | apply keeps_ite)

theorem keeps_bankLost {s0 s : State} {r : Nat} {b : Nat} (h : Keeps s0 s)  : Keeps s0 (bankLost s r b) := by
  unfold bankLost
  try dsimp only
  repeat' first | with_reducible (first | exact h | apply keeps_journalLost | apply keeps_partialsLost | apply keeps_areaLost | apply keeps_ite | apply keeps_foldl | assumption) | (intro _; intros)

theorem keeps_spareBank {s0 s : State} {r : Nat} {b : Nat} (h : Keeps s0 s)  : Keeps s0 (spareBank s r b) := by
  unfold spareBank
  try dsimp only
  repeat' first | with_reducible (first | exact h | apply keeps_bankLost | apply keeps_logFault | apply keeps_setRgn | apply keeps_fenceUnit | apply keeps_ite)

theorem keeps_bankUncorrectable {s0 s : State} {r : Nat} {b : Nat} {q : BankReq} (h : Keeps s0 s)  : Keeps s0 (bankUncorrectable s r b q) := by
  unfold bankUncorrectable
  try dsimp only
  repeat' first | with_reducible (first | exact h | apply keeps_addRgnCnt | apply keeps_setRgn | apply keeps_logFault | apply keeps_contentsLost | apply keeps_spareBank | apply keeps_ite)

theorem keeps_bankCorrected {s0 s : State} {r : Nat} {b : Nat} {q : BankReq} (h : Keeps s0 s)  : Keeps s0 (bankCorrected s r b q) := by
  unfold bankCorrected
  try dsimp only
  repeat' first | with_reducible (first | exact h | apply keeps_logFault | apply keeps_addRgnCnt | apply keeps_askBank)

theorem keeps_readFinding {s0 s : State} {r : Nat} {b : Nat} {q : BankReq} {rs : RsResult} (h : Keeps s0 s)  : Keeps s0 (readFinding s r b q rs) := by
  unfold readFinding
  try dsimp only
  repeat' first | with_reducible (first | exact h | apply keeps_bankCorrected | apply keeps_bankUncorrectable | apply keeps_ite | assumption) | split

theorem keeps_windowDone {s0 s : State} {p : Nat} (h : Keeps s0 s)  : Keeps s0 (windowDone s p) := by
  unfold windowDone
  try dsimp only
  repeat' first | with_reducible (first | exact h | apply keeps_respond | apply keeps_setHp | apply keeps_ite)

theorem keeps_freeBytes {s0 : State} (n : Nat) : ∀ {s : State}, Keeps s0 s → Keeps s0 (freeBytes n s).2 := by
  induction n with
  | zero => intro s h; exact h
  | succ n ih => intro s h; exact ih (keeps_freeNext h)

theorem keeps_fetchGrant {s0 s : State} {r : Nat} {q : BankReq} {n : Nat} {bad : Bool} (h : Keeps s0 s)  : Keeps s0 (fetchGrant s r q n bad) := by
  unfold fetchGrant
  try dsimp only
  repeat' first | with_reducible (first | exact h | apply keeps_freeBytes | apply keeps_spadRead | apply keeps_copyLine | apply keeps_windowDone | apply keeps_setHp | refine keeps_of_fst (by assumption) ?_ | refine keeps_of_snd (by assumption) ?_ | apply keeps_ite | assumption) | split

theorem keeps_atomicGrant {s0 s : State} {r : Nat} {q : BankReq} {op : Nat} {x : W64} {new : W64} (h : Keeps s0 s)  : Keeps s0 (atomicGrant s r q op x new) := by
  unfold atomicGrant
  try dsimp only
  repeat' first | with_reducible (first | exact h | apply keeps_atomicStep | apply keeps_spadAtomic | apply keeps_respond | refine keeps_of_fst (by assumption) ?_ | refine keeps_of_snd (by assumption) ?_ | apply keeps_ite | assumption) | (intro _; intros) | split

theorem keeps_writeGrant {s0 s : State} {r : Nat} {q : BankReq} {bs : List Byte} (h : Keeps s0 s)  : Keeps s0 (writeGrant s r q bs) := by
  unfold writeGrant
  try dsimp only
  repeat' first | with_reducible (first | exact h | apply keeps_writeWaking | apply keeps_putMark | apply keeps_freeSlot | apply keeps_windowDone | apply keeps_copyDone | apply keeps_ite | assumption) | split

theorem keeps_performReq {s0 s : State} {r : Nat} {b : Nat} {q : BankReq} {rs : RsResult} (h : Keeps s0 s)  : Keeps s0 (performReq s r b q rs) := by
  unfold performReq
  try dsimp only
  repeat' first | with_reducible (first | exact h | apply keeps_gambitAbandon | apply keeps_readFinding | apply keeps_writeGrant | apply keeps_fetchGrant | apply keeps_markIssued | apply keeps_atomicGrant | apply keeps_setRgn | apply keeps_ite | assumption) | split

theorem keeps_bankGrant {s0 s : State} {r : Nat} {b : Nat} {rs : RsResult} (h : Keeps s0 s)  : Keeps s0 (bankGrant s r b rs) := by
  unfold bankGrant
  try dsimp only
  repeat' first | with_reducible (first | exact h | apply keeps_setRgn | apply keeps_performReq | apply keeps_ite | assumption) | (intro _; intros) | split

theorem keeps_portCe {s0 s : State} {q : Nat} (h : Keeps s0 s)  : Keeps s0 (portCe s q) := by
  unfold portCe
  try dsimp only
  repeat' first | with_reducible (first | exact h | apply keeps_setMp)

theorem keeps_portSend {s0 s : State} {q : Nat} {write : Bool} {p : PortReq} {tag : Nat} {rs : RsResult} (h : Keeps s0 s)  : Keeps s0 (portSend s q write p tag rs) := by
  unfold portSend
  try dsimp only
  repeat' first | with_reducible (first | exact h | apply keeps_markIssued | apply keeps_setMp | apply keeps_portCe | apply keeps_portError | apply keeps_ite | assumption) | (intro _; intros)

theorem keeps_portGrant {s0 s : State} {q : Nat} {write : Bool} {rs : RsResult} (h : Keeps s0 s)  : Keeps s0 (portGrant s q write rs) := by
  unfold portGrant
  try dsimp only
  repeat' first | with_reducible (first | exact h | apply keeps_setMp | apply keeps_portSend | apply keeps_ite | assumption) | (intro _; intros) | split

theorem keeps_laneMismatch {s0 s : State} {r : Nat} {l : Nat} (h : Keeps s0 s)  : Keeps s0 (laneMismatch s r l) := by
  unfold laneMismatch
  try dsimp only
  repeat' first | with_reducible (first | exact h | apply keeps_setRgn | apply keeps_logFault | apply keeps_ite)

theorem keeps_rngGrant {s0 s : State} {r : Nat} {bad : List Nat} (h : Keeps s0 s)  : Keeps s0 (rngGrant s r bad) := by
  unfold rngGrant
  try dsimp only
  repeat' first | with_reducible (first | exact h | apply keeps_laneMismatch | apply keeps_addRgnCnt | apply keeps_setRgn | apply keeps_ite | apply keeps_foldl | assumption) | (intro _; intros)

theorem keeps_fetchBlock {s0 s : State} {r : Nat} {j : Job} {t : SubTile} {n : Nat} (h : Keeps s0 s)  : Keeps s0 (fetchBlock s r j t n) := by
  unfold fetchBlock
  try dsimp only
  repeat' first | with_reducible (first | exact h | apply keeps_readRow | apply keeps_fetchLists | apply keeps_ite | apply keeps_foldl | assumption) | (intro _; intros)

theorem keeps_sideFill {s0 s : State} {r : Nat} (h : Keeps s0 s)  : Keeps s0 (sideFill s r) := by
  unfold sideFill
  try dsimp only
  repeat' first | with_reducible (first | exact h | apply keeps_fetchBlock | apply keeps_setRgn | apply keeps_ite | assumption) | (intro _; intros) | split

theorem keeps_chargeSide {s0 s : State} {c : Nat} {n : Nat} (h : Keeps s0 s)  : Keeps s0 (chargeSide s c n) := by
  unfold chargeSide
  try dsimp only
  repeat' first | with_reducible (first | exact h | apply keeps_setAcct)

theorem keeps_sideFinding {s0 s : State} {r : Nat} {t : SubTile} (h : Keeps s0 s)  : Keeps s0 (sideFinding s r t) := by
  unfold sideFinding
  try dsimp only
  repeat' first | with_reducible (first | exact h | apply keeps_addRgnCnt | apply keeps_setRgn | apply keeps_logFault)

theorem keeps_sideFence {s0 s : State} {r : Nat} (h : Keeps s0 s)  : Keeps s0 (sideFence s r) := by
  unfold sideFence
  try dsimp only
  repeat' first | with_reducible (first | exact h | apply keeps_fenceUnit | apply keeps_ite)

theorem keeps_leaveSide {s0 s : State} {r : Nat} {t : SubTile} (h : Keeps s0 s)  : Keeps s0 (leaveSide s r t) := by
  unfold leaveSide
  try dsimp only
  repeat' first | with_reducible (first | exact h | apply keeps_setRgn)

theorem keeps_sideMismatch {s0 s : State} {r : Nat} {t : SubTile} (h : Keeps s0 s)  : Keeps s0 (sideMismatch s r t) := by
  unfold sideMismatch
  try dsimp only
  repeat' first | with_reducible (first | exact h | apply keeps_addCnt | apply keeps_sideFinding | apply keeps_leaveSide | apply keeps_mapSub | apply keeps_sideFence | apply keeps_ite)

theorem keeps_halfLoss {s0 s : State} {r : Nat} {w : Work} {q : SideHalf} (h : Keeps s0 s)  : Keeps s0 (halfLoss s r w q) := by
  unfold halfLoss
  try dsimp only
  repeat' first | with_reducible (first | exact h | apply keeps_bufferReport | apply keeps_setRgn)

theorem keeps_sideLoss {s0 s : State} {r : Nat} {w : Work} (h : Keeps s0 s)  : Keeps s0 (sideLoss s r w) := by
  unfold sideLoss
  try dsimp only
  repeat' first | with_reducible (first | exact h | apply keeps_bufferReport | apply keeps_fusedResume | apply keeps_mapSub | apply keeps_ite)

theorem keeps_sideHash {s0 s : State} {r : Nat} {w : Work} (h : Keeps s0 s)  : Keeps s0 (sideHash s r w) := by
  unfold sideHash
  try dsimp only
  repeat' first | with_reducible (first | exact h | apply keeps_askRng | apply keeps_mapSub | apply keeps_ite)

theorem keeps_sideFeed {s0 s : State} {r : Nat} {w : Work} (h : Keeps s0 s)  : Keeps s0 (sideFeed s r w) := by
  unfold sideFeed
  try dsimp only
  repeat' first | with_reducible (first | exact h | apply keeps_askParts | apply keeps_askActs | apply keeps_mapSub | apply keeps_ite | assumption) | (intro _; intros) | split | with_reducible apply keeps_mk

theorem keeps_dotGo {s0 s : State} {r : Nat} {w : Work} {upset : List (Nat × W32)} (h : Keeps s0 s)  : Keeps s0 (dotGo s r w upset) := by
  unfold dotGo
  try dsimp only
  repeat' first | with_reducible (first | exact h | apply keeps_sideMismatch | apply keeps_chargeSide | apply keeps_addRgnCnt | apply keeps_commitWork | apply keeps_setRgn | apply keeps_passEnded | apply keeps_ite) | (intro _; intros)

theorem keeps_dotRow {s0 s : State} {r : Nat} {upset : List (Nat × W32)} {rs : RsResult} {buf : RsResult} (h : Keeps s0 s)  : Keeps s0 (dotRow s r upset rs buf) := by
  unfold dotRow
  try dsimp only
  repeat' first | with_reducible (first | exact h | apply keeps_rereadSlot | apply keeps_addRgnCnt | apply keeps_halfLoss | apply keeps_sideLoss | apply keeps_sideFeed | apply keeps_sideHash | apply keeps_dotGo | apply keeps_ite | assumption) | split | with_reducible apply keeps_mk

theorem keeps_sideProducts {s0 s : State} {r : Nat} {c : Nat} {j : Job} {products : Nat} (h : Keeps s0 s)  : Keeps s0 (sideProducts s r c j products) := by
  unfold sideProducts
  try dsimp only
  repeat' first | with_reducible (first | exact h | apply keeps_chargeSide | apply keeps_addRgnCnt | apply keeps_ite)

theorem keeps_spillService {s0 s : State} {r : Nat} {bad : Bool} (h : Keeps s0 s)  : Keeps s0 (spillService s r bad) := by
  unfold spillService
  try dsimp only
  repeat' first | with_reducible (first | exact h | apply keeps_sideFence | apply keeps_sideFinding | apply keeps_mapSub | apply keeps_sideProducts | apply keeps_addRgnCnt | apply keeps_ite | assumption) | (intro _; intros) | split

theorem keeps_transposeRow {s0 s : State} {a : Nat} (h : Keeps s0 s)  : Keeps s0 (transposeRow s a) := by
  unfold transposeRow
  try dsimp only
  repeat' first | with_reducible (first | exact h | apply keeps_currentLoad | apply keeps_setArr | refine keeps_of_fst (by assumption) ?_ | refine keeps_of_snd (by assumption) ?_ | apply keeps_ite | assumption) | split

theorem keeps_gatherOne {s0 s : State} {a : Nat} {rs : RsResult} (h : Keeps s0 s)  : Keeps s0 (gatherOne s a rs) := by
  unfold gatherOne
  try dsimp only
  repeat' first | with_reducible (first | exact h | apply keeps_bufferLoss | apply keeps_askActs | apply keeps_setArr | apply keeps_ite | apply keeps_foldl | assumption) | (intro _; intros) | split

theorem keeps_fetchWindow {s0 s : State} {r : Nat} {j : Job} {t : SubTile} {w : Window} {lo : Nat} (h : Keeps s0 s)  : Keeps s0 (fetchWindow s r j t w lo) := by
  unfold fetchWindow
  try dsimp only
  repeat' first | with_reducible (first | exact h | apply keeps_queueReads | apply keeps_askBank | apply keeps_ite | apply keeps_foldl | assumption) | (intro _; intros) | split

theorem keeps_copyHalo {s0 s : State} {q : Nat} {r : Nat} {t : SubTile} {v : Window} {w : Window} {hi : Nat} (h : Keeps s0 s)  : Keeps s0 (copyHalo s q r t v w hi) := by
  unfold copyHalo
  try dsimp only
  repeat' first | with_reducible (first | exact h | apply keeps_askBank | apply keeps_ite | apply keeps_foldl | assumption) | (intro _; intros)

theorem keeps_stageWindow {s0 s : State} {r : Nat} {j : Job} {t : SubTile} {w : Window} (h : Keeps s0 s)  : Keeps s0 (stageWindow s r j t w) := by
  unfold stageWindow
  try dsimp only
  repeat' first | with_reducible (first | exact h | apply keeps_setRgn | apply keeps_fetchWindow | apply keeps_copyHalo | apply keeps_addRgnCnt | apply keeps_ite | assumption) | split

theorem keeps_stageChunk {s0 s : State} {r : Nat} {j : Job} {t : SubTile} (h : Keeps s0 s)  : Keeps s0 (stageChunk s r j t) := by
  unfold stageChunk
  try dsimp only
  repeat' first | with_reducible (first | exact h | apply keeps_addRgnCnt | apply keeps_stageWindow | apply keeps_setRgn | apply keeps_ite | apply keeps_foldl | assumption) | (intro _; intros) | split

theorem keeps_stageOne {s0 s : State} {a : Nat} (h : Keeps s0 s)  : Keeps s0 (stageOne s a) := by
  unfold stageOne
  try dsimp only
  repeat' first | with_reducible (first | exact h | apply keeps_stageChunk | apply keeps_ite | assumption) | (intro _; intros) | split

end Sys2Proof.Machine
end

