-- ==== Sys2Proof/Laws/KeepsMask.lean ====
section
/-!
SUPPORT. `Keeps` for Gambit, replay, mask operations and STREAM.
-/

namespace Sys2Proof.Machine

theorem keeps_fetchPredicted {s0 s : State} {a : Nat} {k : BlockKey} (h : Keeps s0 s)  : Keeps s0 (fetchPredicted s a k) := by
  unfold fetchPredicted
  try dsimp only
  repeat' first | with_reducible (first | exact h | apply keeps_readRow | apply keeps_ite | apply keeps_foldl | assumption) | (intro _; intros)

theorem keeps_preloadOne {s0 s : State} {a : Nat} (h : Keeps s0 s)  : Keeps s0 (preloadOne s a) := by
  unfold preloadOne
  try dsimp only
  repeat' first | with_reducible (first | exact h | apply keeps_addCnt | apply keeps_fetchPredicted | apply keeps_setArr | apply keeps_ite | assumption) | split | with_reducible apply keeps_mk

theorem keeps_prefetchCopy {s0 s : State} {r : Nat} {k : BlockKey} (h : Keeps s0 s)  : Keeps s0 (prefetchCopy s r k) := by
  unfold prefetchCopy
  try dsimp only
  repeat' first | with_reducible (first | exact h | apply keeps_addCnt | apply keeps_queueReads | refine keeps_takeCopy ?_ (by assumption) | apply keeps_ite | apply keeps_foldl | assumption) | (intro _; intros) | split

theorem keeps_prefetchOne {s0 s : State} {r : Nat} {c : Nat} (h : Keeps s0 s)  : Keeps s0 (prefetchOne s r c) := by
  unfold prefetchOne
  try dsimp only
  repeat' first | with_reducible (first | exact h | apply keeps_prefetchCopy | apply keeps_ite | assumption) | (intro _; intros) | split

theorem keeps_squash {s0 s : State} {a : Nat} (h : Keeps s0 s)  : Keeps s0 (squash s a) := by
  unfold squash
  try dsimp only
  repeat' first | with_reducible (first | exact h | apply keeps_addCnt | apply keeps_setArr)

theorem keeps_specPass {s0 s : State} {a : Nat} {c : Nat} {rs : RsResult} (h : Keeps s0 s)  : Keeps s0 (specPass s a c rs) := by
  unfold specPass
  try dsimp only
  repeat' first | with_reducible (first | exact h | apply keeps_squash | apply keeps_addCnt | apply keeps_setArr | apply keeps_ite | assumption) | (intro _; intros) | split

theorem keeps_specBind {s0 s : State} {a : Nat} {c : Nat} {b : SpecBuf} {d : Adm} (h : Keeps s0 s)  : Keeps s0 (specBind s a c b d) := by
  unfold specBind
  try dsimp only
  repeat' first | with_reducible (first | exact h | apply keeps_setAdm | apply keeps_setCtx | apply keeps_setArr | apply keeps_bindTo | refine keeps_residencyStep ?_ (by assumption) | apply keeps_ite | assumption) | (intro _; intros) | split

theorem keeps_specDispatch {s0 s : State} {a c : Nat} {b : SpecBuf} {d : Adm} (h : Keeps s0 s) :
    Keeps s0 (specDispatch s a c b d) := by
  have k : Keeps s0 ((shapeStep s c d).next (beginTile c)).state :=
    keeps_step1Next (keeps_shapeStep h) (fun _ _ hu => keeps_beginTile hu)
  unfold specDispatch
  split
  · rename_i e
    rw [e] at k
    split
    · exact keeps_squash k
    · exact k
  · rename_i e
    rw [e] at k
    exact keeps_specBind k

theorem keeps_confirmOne {s0 s : State} {a : Nat} {c : Nat} {lost : Bool} (h : Keeps s0 s)  : Keeps s0 (confirmOne s a c lost) := by
  unfold confirmOne
  try dsimp only
  repeat' first | with_reducible (first | exact h | apply keeps_squash | apply keeps_addRgnCnt | apply keeps_specDispatch | refine keeps_residencyStep ?_ (by assumption) | apply keeps_ite | assumption) | (intro _; intros) | split

theorem keeps_leaveEntry {s0 s : State} {r : Nat} {q : Nat} {t : SubTile} (h : Keeps s0 s)  : Keeps s0 (leaveEntry s r q t) := by
  unfold leaveEntry
  try dsimp only
  repeat' first | with_reducible (first | exact h | apply keeps_dropJournal | apply keeps_ite | assumption) | split

theorem keeps_rebind {s0 s : State} {r : Nat} {q : Nat} {a : Nat} {k : Nat} {t : SubTile} {d : Adm} {j : Job} (h : Keeps s0 s)  : Keeps s0 (rebind s r q a k t d j) := by
  unfold rebind
  try dsimp only
  repeat' first | with_reducible (first | exact h | apply keeps_leaveEntry | apply keeps_setRgn | apply keeps_seatTo)

theorem keeps_forgetReplay {s0 s : State} {r : Nat} {t : SubTile} (h : Keeps s0 s)  : Keeps s0 (forgetReplay s r t) := by
  unfold forgetReplay
  try dsimp only
  repeat' first | with_reducible (first | exact h | apply keeps_setRgn)

theorem keeps_moveStranded {s0 s : State} {r : Nat} (h : Keeps s0 s)  : Keeps s0 (moveStranded s r) := by
  unfold moveStranded
  try dsimp only
  repeat' first | with_reducible (first | exact h | apply keeps_setRgn)

theorem keeps_replayOne {s0 s : State} {r : Nat} (h : Keeps s0 s)  : Keeps s0 (replayOne s r) := by
  unfold replayOne
  try dsimp only
  repeat' first | with_reducible (first | exact h | apply keeps_forgetReplay | apply keeps_endDesc | apply keeps_rereadSlot | apply keeps_rebind | apply keeps_addRgnCnt | refine keeps_residencyStep ?_ (by assumption) | apply keeps_ite | assumption) | split

theorem keeps_putMask {s0 s : State} {c : Nat} {d : Adm} {m : MaskOp} (h : Keeps s0 s)  : Keeps s0 (putMask s c d m) := by
  unfold putMask
  try dsimp only
  repeat' first | with_reducible (first | exact h | apply keeps_setAdm | apply keeps_putJournal | apply keeps_ite | assumption) | (intro _; intros) | split

theorem keeps_maskRun {s0 s : State} {c : Nat} {r : Nat} {d : Adm} (h : Keeps s0 s)  : Keeps s0 (maskRun s c r d) := by
  unfold maskRun
  try dsimp only
  repeat' first | with_reducible (first | exact h | apply keeps_xlateFail | apply keeps_poisonFail | apply keeps_endDesc | apply keeps_putMask | apply keeps_chargeRd | apply keeps_askRng | apply keeps_ite | assumption) | (intro _; intros) | split

theorem keeps_maskOp {s0 s : State} {c : Nat} {d : Adm} (h : Keeps s0 s) : Keeps s0 (maskOp s c d) := by
  have k : ∀ l : List Nat, Keeps s0 (Step1.stop (maskRun s c (l.headD 0) d)).state := fun l => by
    dsimp only [Step1.state]
    with_reducible exact keeps_maskRun h
  exact keeps_ite (keeps_regionStep h k) (keeps_unitStep h k)

theorem keeps_chargeSweep {s0 s : State} {c : Nat} {j : Job} (h : Keeps s0 s)  : Keeps s0 (chargeSweep s c j) := by
  unfold chargeSweep
  try dsimp only
  repeat' first | with_reducible (first | exact h | apply keeps_setAcct | apply keeps_ite)

theorem keeps_maskSweepOp {s0 s : State} {c : Nat} (h : Keeps s0 s)  : Keeps s0 (maskSweepOp s c) := by
  unfold maskSweepOp
  try dsimp only
  repeat' first | with_reducible (first | exact h | apply keeps_endDesc | apply keeps_xlateFail | apply keeps_poisonFail | apply keeps_putMask | apply keeps_chargeSweep | apply keeps_chargeRd | apply keeps_ite | assumption) | (intro _; intros) | split

theorem keeps_maskRebuildOp {s0 s : State} {c : Nat} (h : Keeps s0 s)  : Keeps s0 (maskRebuildOp s c) := by
  unfold maskRebuildOp
  try dsimp only
  repeat' first | with_reducible (first | exact h | apply keeps_freeNext | apply keeps_finish | apply keeps_writesWaking | apply keeps_putMask | apply keeps_chargeWr | refine keeps_of_fst (by assumption) ?_ | refine keeps_of_snd (by assumption) ?_ | apply keeps_ite | apply keeps_foldl | assumption) | (intro _; intros) | split

theorem keeps_dropAtWrap {s0 s : State} {c : Nat} {d : Adm} (h : Keeps s0 s)  : Keeps s0 (dropAtWrap s c d) := by
  unfold dropAtWrap
  try dsimp only
  repeat' first | with_reducible (first | exact h | apply keeps_dropCopies | apply keeps_ite)

theorem keeps_maskCommitOp {s0 s : State} {c : Nat} (h : Keeps s0 s)  : Keeps s0 (maskCommitOp s c) := by
  unfold maskCommitOp
  try dsimp only
  repeat' first | with_reducible (first | exact h | apply keeps_xlateFail | apply keeps_putMask | apply keeps_addRgnCnt | apply keeps_hostWriteFor | apply keeps_dropAtWrap | apply keeps_ite | assumption) | split

theorem keeps_maskRetireOp {s0 s : State} {c : Nat} (h : Keeps s0 s)  : Keeps s0 (maskRetireOp s c) := by
  unfold maskRetireOp
  try dsimp only
  repeat' first | with_reducible (first | exact h | apply keeps_finish | apply keeps_ite | assumption) | split

theorem keeps_recoverAt {s0 s : State} {c : Nat} {r : Nat} {d : Adm} {m : MaskOp} (h : Keeps s0 s)  : Keeps s0 (recoverAt s c r d m) := by
  unfold recoverAt
  try dsimp only
  repeat' first | with_reducible (first | exact h | apply keeps_chargeRd | apply keeps_xlateFail | apply keeps_poisonFail | apply keeps_putMask | apply keeps_setAdm | apply keeps_finish | apply keeps_ite | assumption) | (intro _; intros) | split

theorem keeps_maskRecoverOp {s0 s : State} {c : Nat} (h : Keeps s0 s)  : Keeps s0 (maskRecoverOp s c) := by
  unfold maskRecoverOp
  try dsimp only
  repeat' first | with_reducible (first | exact h | apply keeps_endDesc | apply keeps_recoverAt | apply keeps_ite | assumption) | split

theorem keeps_bmaskWrite {s0 s : State} {c : Nat} {r : Nat} {d : Adm} (h : Keeps s0 s)  : Keeps s0 (bmaskWrite s c r d) := by
  unfold bmaskWrite
  try dsimp only
  repeat' first | with_reducible (first | exact h | apply keeps_xlateFail | apply keeps_poisonFail | apply keeps_finish | apply keeps_drainWrites | apply keeps_ite | assumption) | split

theorem keeps_bmaskRun {s0 s : State} {c : Nat} {r : Nat} {d : Adm} (h : Keeps s0 s)  : Keeps s0 (bmaskRun s c r d) := by
  unfold bmaskRun
  try dsimp only
  repeat' first | with_reducible (first | exact h | apply keeps_askRng | apply keeps_setAdm | apply keeps_bmaskWrite | apply keeps_ite)

theorem keeps_bmaskOp {s0 s : State} {c : Nat} {d : Adm} (h : Keeps s0 s) : Keeps s0 (bmaskOp s c d) := by
  refine keeps_unitStep h (fun l => ?_)
  dsimp only [Step1.state]
  with_reducible exact keeps_bmaskRun h

theorem keeps_castleHint {s0 s : State} {c : Nat} {d : Adm} (h : Keeps s0 s)  : Keeps s0 (castleHint s c d) := by
  unfold castleHint
  try dsimp only
  repeat' first | with_reducible (first | exact h | apply keeps_ite | assumption) | split | with_reducible apply keeps_mk

theorem keeps_chargeArray {s0 s : State} {c : Nat} {a : Nat} {n : Nat} (h : Keeps s0 s)  : Keeps s0 (chargeArray s c a n) := by
  unfold chargeArray
  try dsimp only
  repeat' first | with_reducible (first | exact h | apply keeps_addArrCnt | apply keeps_setAcct)

theorem keeps_castleMaint {s0 s : State} {c : Nat} {d : Adm} (h : Keeps s0 s)  : Keeps s0 (castleMaint s c d) := by
  unfold castleMaint
  try dsimp only
  repeat' first | with_reducible (first | exact h | apply keeps_endDesc | apply keeps_xlateFail | apply keeps_poisonFail | apply keeps_setArr | apply keeps_finish | apply keeps_chargeRd | apply keeps_chargeArray | apply keeps_ite | assumption) | split

theorem keeps_castleOp {s0 s : State} {c : Nat} {d : Adm} (h : Keeps s0 s)  : Keeps s0 (castleOp s c d) := by
  unfold castleOp
  try dsimp only
  repeat' first | with_reducible (first | exact h | apply keeps_castleMaint | apply keeps_finish | apply keeps_castleHint | apply keeps_ite)

theorem keeps_streamMaint {s0 s : State} {c : Nat} {d : Adm} (h : Keeps s0 s)  : Keeps s0 (streamMaint s c d) := by
  unfold streamMaint
  try dsimp only
  repeat' first | with_reducible (first | exact h | apply keeps_endDesc | apply keeps_xlateFail | apply keeps_poisonFail | apply keeps_freeNext | apply keeps_writesWaking | apply keeps_setArr | apply keeps_finish | apply keeps_chargeWr | apply keeps_chargeRd | apply keeps_chargeArray | refine keeps_of_fst (by assumption) ?_ | refine keeps_of_snd (by assumption) ?_ | apply keeps_ite | assumption) | split

theorem keeps_streamOp {s0 s : State} {c : Nat} {d : Adm} (h : Keeps s0 s)  : Keeps s0 (streamOp s c d) := by
  unfold streamOp
  try dsimp only
  repeat' first | with_reducible (first | exact h | apply keeps_streamMaint | apply keeps_finish | apply keeps_ite)

end Sys2Proof.Machine
end

