-- ==== Sys2Proof/Laws/KeepsExec.lean ====
section
/-!
SUPPORT. `Keeps` for every command.
-/

namespace Sys2Proof.Machine

theorem keeps_execScratchpadScrub {s t : State} {m : MaintFrom} {r : RgnId} (e : execScratchpadScrub m r s = .next t) : Keeps s t := by
  have h := Keeps.refl s
  unfold execScratchpadScrub at e
  cases e
  repeat' first | with_reducible (first | exact h | apply keeps_maintCommand)

theorem keeps_execArraySelfTest {s t : State} {m : MaintFrom} {a : ArrId} (e : execArraySelfTest m a s = .next t) : Keeps s t := by
  have h := Keeps.refl s
  unfold execArraySelfTest at e
  cases e
  repeat' first | with_reducible (first | exact h | apply keeps_maintCommand)

theorem keeps_execIslandRecalibration {s t : State} {m : MaintFrom} {r : RgnId} (e : execIslandRecalibration m r s = .next t) : Keeps s t := by
  have h := Keeps.refl s
  unfold execIslandRecalibration at e
  cases e
  repeat' first | with_reducible (first | exact h | apply keeps_maintCommand)

theorem keeps_execFuseShadowReload {s t : State} {m : MaintFrom} {r : RgnId} (e : execFuseShadowReload m r s = .next t) : Keeps s t := by
  have h := Keeps.refl s
  unfold execFuseShadowReload at e
  cases e
  repeat' first | with_reducible (first | exact h | apply keeps_maintCommand)

theorem keeps_execRngSelfTest {s t : State} {m : MaintFrom} {r : RgnId} (e : execRngSelfTest m r s = .next t) : Keeps s t := by
  have h := Keeps.refl s
  unfold execRngSelfTest at e
  cases e
  repeat' first | with_reducible (first | exact h | apply keeps_maintCommand)

theorem keeps_execJournalCompaction {s t : State} {m : MaintFrom} {r : RgnId} (e : execJournalCompaction m r s = .next t) : Keeps s t := by
  have h := Keeps.refl s
  unfold execJournalCompaction at e
  cases e
  repeat' first | with_reducible (first | exact h | apply keeps_maintCommand)

theorem keeps_execTelemetrySnapshot {s t : State} {m : MaintFrom} {r : RgnId} (e : execTelemetrySnapshot m r s = .next t) : Keeps s t := by
  have h := Keeps.refl s
  unfold execTelemetrySnapshot at e
  cases e
  repeat' first | with_reducible (first | exact h | apply keeps_maintCommand)

theorem keeps_execMaintQueuedStart {s t : State} {r : RgnId} {odd : Option (Fin 3)} (e : execMaintQueuedStart r s odd = .next t) : Keeps s t := by
  have h := Keeps.refl s
  unfold execMaintQueuedStart at e
  cases e
  repeat' first | with_reducible (first | exact h | apply keeps_startQueued | apply keeps_regionVote)

theorem keeps_execAutoScrub {s t : State} {r : RgnId} (e : execAutoScrub r s = .next t) : Keeps s t := by
  have h := Keeps.refl s
  unfold execAutoScrub at e
  cases e
  repeat' first | with_reducible (first | exact h | apply keeps_maintWord | refine keeps_of_fst (by assumption) ?_ | refine keeps_of_snd (by assumption) ?_ | apply keeps_ite)

theorem keeps_execSnapNow {s t : State} {p : HostId} (e : execSnapNow p s = .next t) : Keeps s t := by
  have h := Keeps.refl s
  unfold execSnapNow at e
  cases e
  repeat' first | with_reducible (first | exact h | apply keeps_hostWord | apply keeps_snapRequest)

theorem keeps_execSnapshotPeriod {s t : State}  (e : execSnapshotPeriod s = .next t) : Keeps s t := by
  have h := Keeps.refl s
  unfold execSnapshotPeriod at e
  cases e
  repeat' first | with_reducible (first | exact h | apply keeps_snapRequest | apply keeps_ite)

theorem keeps_execRstColdNAssert {s t : State}  (e : execRstColdNAssert s = .next t) : Keeps s t := by
  have h := Keeps.refl s
  unfold execRstColdNAssert at e
  cases e
  repeat' first | with_reducible (first | exact h | apply keeps_coldReset)

theorem keeps_execRstWarmNFall {s t : State}  (e : execRstWarmNFall s = .next t) : Keeps s t := by
  have h := Keeps.refl s
  unfold execRstWarmNFall at e
  cases e
  repeat' first | with_reducible (first | exact h | apply keeps_warmAsk)

theorem keeps_execResetWarm {s t : State} {p : HostId} (e : execResetWarm p s = .next t) : Keeps s t := by
  have h := Keeps.refl s
  unfold execResetWarm at e
  cases e
  repeat' first | with_reducible (first | exact h | apply keeps_tokenWrite | apply keeps_warmAsk)

theorem keeps_execContextAbort {s t : State} {p : HostId} {c : CtxId} (e : execContextAbort p c s = .next t) : Keeps s t := by
  have h := Keeps.refl s
  unfold execContextAbort at e
  cases e
  repeat' first | with_reducible (first | exact h | apply keeps_respond | apply keeps_contextAbort | apply keeps_wake | apply keeps_ite)

theorem keeps_execArrayReset {s t : State} {p : HostId} {a : ArrId} (e : execArrayReset p a s = .next t) : Keeps s t := by
  have h := Keeps.refl s
  unfold execArrayReset at e
  cases e
  repeat' first | with_reducible (first | exact h | apply keeps_tokenWrite | apply keeps_arrayReset | apply keeps_ite | assumption) | (intro _; intros)

theorem keeps_execDoorbellNotify {s t : State} {p : HostId} {c : CtxId} (e : execDoorbellNotify p c s = .next t) : Keeps s t := by
  have h := Keeps.refl s
  unfold execDoorbellNotify at e
  cases e
  repeat' first | with_reducible (first | exact h | apply keeps_respond | apply keeps_notifyAt | apply keeps_ite)

theorem keeps_execDbPoll {s t : State}  (e : execDbPoll s = .next t) : Keeps s t := by
  have h := Keeps.refl s
  unfold execDbPoll at e
  cases e
  repeat' first | with_reducible (first | exact h | apply keeps_dbPoll | apply keeps_ite)

theorem keeps_execContextActivation {s t : State} {c : CtxId} (e : execContextActivation c s = .next t) : Keeps s t := by
  have h := Keeps.refl s
  unfold execContextActivation at e
  cases e
  repeat' first | with_reducible (first | exact h | apply keeps_activate | apply keeps_ite)

theorem keeps_execDoorbellValue {s t : State} {c : CtxId} {w : W64} (e : execDoorbellValue c w s = .next t) : Keeps s t := by
  have h := Keeps.refl s
  unfold execDoorbellValue at e
  cases e
  repeat' first | with_reducible (first | exact h | apply keeps_doorbellOp | apply keeps_ite)

theorem keeps_execDescriptorFetch {s t : State} {c : CtxId} (e : execDescriptorFetch c s = .next t) : Keeps s t := by
  have h := Keeps.refl s
  unfold execDescriptorFetch at e
  cases e
  repeat' first | with_reducible (first | exact h | apply keeps_fetchOp | apply keeps_ite)

theorem keeps_execCqHeadRead {s t : State} {c : CtxId} {v : W32} (e : execCqHeadRead c v s = .next t) : Keeps s t := by
  have h := Keeps.refl s
  unfold execCqHeadRead at e
  cases e
  repeat' first | with_reducible (first | exact h | apply keeps_cqHeadOp | apply keeps_ite)

theorem keeps_execCompletionRecord {s t : State} {c : CtxId} (e : execCompletionRecord c s = .next t) : Keeps s t := by
  have h := Keeps.refl s
  unfold execCompletionRecord at e
  cases e
  repeat' first | with_reducible (first | exact h | apply keeps_abortNext | apply keeps_retireAfterLoad | apply keeps_writeRecord | apply keeps_ite | assumption) | split

theorem keeps_execHostPortDown {s t : State} {p : HostId} (e : execHostPortDown p s = .next t) : Keeps s t := by
  have h := Keeps.refl s
  unfold execHostPortDown at e
  cases e
  repeat' first | with_reducible (first | exact h | apply keeps_warmNext | apply keeps_hostDown)

theorem keeps_execHostPortUp {s t : State} {p : HostId} (e : execHostPortUp p s = .next t) : Keeps s t := by
  have h := Keeps.refl s
  unfold execHostPortUp at e
  cases e
  repeat' first | with_reducible (first | exact h | apply keeps_hostUp | apply keeps_ite)

theorem keeps_execMainSideDown {s t : State}  (e : execMainSideDown s = .next t) : Keeps s t := by
  have h := Keeps.refl s
  unfold execMainSideDown at e
  cases e
  repeat' first | with_reducible (first | exact h | apply keeps_mainSideDown | apply keeps_ite)

theorem keeps_execMemoryPortDown {s t : State} {q : PortId} (e : execMemoryPortDown q s = .next t) : Keeps s t := by
  have h := Keeps.refl s
  unfold execMemoryPortDown at e
  cases e
  repeat' first | with_reducible (first | exact h | apply keeps_warmNext | apply keeps_memDown)

theorem keeps_execMppCreditReturn {s t : State} {port : PortRef} {req : BitVec 4} {wd : BitVec 4} (e : execMppCreditReturn port req wd s = .next t) : Keeps s t := by
  have h := Keeps.refl s
  unfold execMppCreditReturn at e
  cases e
  repeat' first | with_reducible (first | exact h | apply keeps_creditReturn)

theorem keeps_execColdBoot {s t : State} {r : BootReport} (e : execColdBoot r s = .next t) : Keeps s t := by
  have h := Keeps.refl s
  unfold execColdBoot at e
  cases e
  repeat' first | with_reducible (first | exact h | apply keeps_coldBoot)

theorem keeps_execRefclkLoss {s t : State}  (e : execRefclkLoss s = .next t) : Keeps s t := by
  have h := Keeps.refl s
  unfold execRefclkLoss at e
  cases e
  repeat' first | with_reducible (first | exact h | apply keeps_refclkLoss)

theorem keeps_execTimestampSample {s t : State} {x : W64} (e : execTimestampSample x s = .next t) : Keeps s t := by
  have h := Keeps.refl s
  unfold execTimestampSample at e
  cases e
  repeat' first | with_reducible (first | exact h | apply keeps_timestamp | apply keeps_ite)

theorem keeps_execTimestampStale {s t : State}  (e : execTimestampStale s = .next t) : Keeps s t := by
  have h := Keeps.refl s
  unfold execTimestampStale at e
  cases e
  repeat' first | with_reducible (first | exact h | apply keeps_ite | assumption) | split | with_reducible apply keeps_mk | refine keeps_lit ?_ (by first | with_reducible exact le_refl _ | with_reducible exact Nat.le_succ _ | omega) (by first | with_reducible exact le_refl _ | with_reducible exact Nat.le_succ _) (by with_reducible first | exact id | exact mems_wf_wrBytes _ _ _ _ | exact mems_wf_wrLe _ _ _ _ _ | exact mems_wf_applyWrites _ _ | exact mems_wf_dropSpad _ _ | exact mems_wf_noSpad _) (by first | with_reducible exact id | exact fun _ => by decide | exact fun _ => rfl | simp) (by first | with_reducible exact id | exact fun _ => by decide | exact fun _ => rfl | simp) (by first | with_reducible exact id | exact fun _ => by decide | exact fun _ => rfl | simp)

theorem keeps_execDroopStretch {s t : State} {i : IslId} (e : execDroopStretch i s = .next t) : Keeps s t := by
  have h := Keeps.refl s
  unfold execDroopStretch at e
  cases e
  repeat' first | with_reducible (first | exact h | apply keeps_droop | apply keeps_ite)

theorem keeps_execIslandFault {s t : State} {i : IslId} (e : execIslandFault i s = .next t) : Keeps s t := by
  have h := Keeps.refl s
  unfold execIslandFault at e
  cases e
  repeat' first | with_reducible (first | exact h | apply keeps_warmNext | apply keeps_islandFaultOp | apply keeps_ite)

theorem keeps_execRailsRemoved {s t : State}  (e : execRailsRemoved s = .next t) : Keeps s t := by
  have h := Keeps.refl s
  unfold execRailsRemoved at e
  cases e
  repeat' first | with_reducible (first | exact h | apply keeps_railsRemoved)

theorem keeps_execPstateRun {s t : State} {p : HostId} (e : execPstateRun p s = .next t) : Keeps s t := by
  have h := Keeps.refl s
  unfold execPstateRun at e
  cases e
  repeat' first | with_reducible (first | exact h | apply keeps_pstateWrite)

theorem keeps_execPstateReducedClock {s t : State} {p : HostId} (e : execPstateReducedClock p s = .next t) : Keeps s t := by
  have h := Keeps.refl s
  unfold execPstateReducedClock at e
  cases e
  repeat' first | with_reducible (first | exact h | apply keeps_pstateWrite)

theorem keeps_execPstateRetention {s t : State} {p : HostId} (e : execPstateRetention p s = .next t) : Keeps s t := by
  have h := Keeps.refl s
  unfold execPstateRetention at e
  cases e
  repeat' first | with_reducible (first | exact h | apply keeps_pstateWrite)

theorem keeps_execRetentionPortGate {s t : State}  (e : execRetentionPortGate s = .next t) : Keeps s t := by
  have h := Keeps.refl s
  unfold execRetentionPortGate at e
  cases e
  repeat' first | with_reducible (first | exact h | apply keeps_gateIslands | apply keeps_ite | assumption) | (intro _; intros) | split | with_reducible apply keeps_mk

theorem keeps_execIdleEntry {s t : State}  (e : execIdleEntry s = .next t) : Keeps s t := by
  have h := Keeps.refl s
  unfold execIdleEntry at e
  cases e
  repeat' first | with_reducible (first | exact h | apply keeps_gateIslands | apply keeps_ite | assumption) | (intro _; intros) | split | with_reducible apply keeps_mk

theorem keeps_execPowerControlInterval {s t : State} {avgMw : Nat} {islandMw : List Nat} (e : execPowerControlInterval avgMw islandMw s = .next t) : Keeps s t := by
  have h := Keeps.refl s
  unfold execPowerControlInterval at e
  cases e
  repeat' first | with_reducible (first | exact h | apply keeps_powerInterval | apply keeps_ite)

theorem keeps_execThermalInterval {s t : State} {temps : List Int} (e : execThermalInterval temps s = .next t) : Keeps s t := by
  have h := Keeps.refl s
  unfold execThermalInterval at e
  cases e
  repeat' first | with_reducible (first | exact h | apply keeps_thermalInterval | apply keeps_ite)

theorem keeps_execRegisterWrite {s t : State} {p : HostId} {off : BitVec 21} {size : Nat} {v : W64} (e : execRegisterWrite p off size v s = .next t) : Keeps s t := by
  have h := Keeps.refl s
  unfold execRegisterWrite at e
  cases e
  repeat' first | with_reducible (first | exact h | apply keeps_registerWrite)

theorem keeps_execHostSpeaksWrite {s t : State} {p : HostId} {v : BitVec 4} (e : execHostSpeaksWrite p v s = .next t) : Keeps s t := by
  have h := Keeps.refl s
  unfold execHostSpeaksWrite at e
  cases e
  repeat' first | with_reducible (first | exact h | apply keeps_hostWord | apply keeps_speaksWrite | apply keeps_ite | assumption) | (intro _; intros)

theorem keeps_execUnitDisable {s t : State} {p : HostId} {u : UnitSel} (e : execUnitDisable p u s = .next t) : Keeps s t := by
  have h := Keeps.refl s
  unfold execUnitDisable at e
  cases e
  repeat' first | with_reducible (first | exact h | apply keeps_tokenWrite | apply keeps_warmNext | apply keeps_unitAsk | apply keeps_ite | assumption) | (intro _; intros)

theorem keeps_execUnitForceDisable {s t : State} {p : HostId} {u : UnitSel} (e : execUnitForceDisable p u s = .next t) : Keeps s t := by
  have h := Keeps.refl s
  unfold execUnitForceDisable at e
  cases e
  repeat' first | with_reducible (first | exact h | apply keeps_tokenWrite | apply keeps_warmNext | apply keeps_unitAsk | apply keeps_ite | assumption) | (intro _; intros)

theorem keeps_execUnitEnable {s t : State} {p : HostId} {u : UnitSel} (e : execUnitEnable p u s = .next t) : Keeps s t := by
  have h := Keeps.refl s
  unfold execUnitEnable at e
  cases e
  repeat' first | with_reducible (first | exact h | apply keeps_tokenWrite | apply keeps_warmNext | apply keeps_unitAsk | apply keeps_ite | assumption) | (intro _; intros)

theorem keeps_execUnitFence {s t : State} {p : HostId} {u : UnitSel} (e : execUnitFence p u s = .next t) : Keeps s t := by
  have h := Keeps.refl s
  unfold execUnitFence at e
  cases e
  repeat' first | with_reducible (first | exact h | apply keeps_tokenWrite | apply keeps_warmNext | apply keeps_unitAsk | apply keeps_ite | assumption) | (intro _; intros)

theorem keeps_execUnitDrainDone {s t : State} {u : UnitSel} (e : execUnitDrainDone u s = .next t) : Keeps s t := by
  have h := Keeps.refl s
  unfold execUnitDrainDone at e
  cases e
  repeat' first | with_reducible (first | exact h | apply keeps_drainDone)

theorem keeps_execMaintActivityEnd {s t : State} {r : RgnId} {act : MaintAct} {pass : Bool} {failLanes : W32} (e : execMaintActivityEnd r act pass failLanes s = .next t) : Keeps s t := by
  have h := Keeps.refl s
  unfold execMaintActivityEnd at e
  cases e
  repeat' first | with_reducible (first | exact h | apply keeps_warmNext | apply keeps_endAct)

theorem keeps_execUnitTestDone {s t : State} {u : UnitSel} {r : TestReport} (e : execUnitTestDone u r s = .next t) : Keeps s t := by
  have h := Keeps.refl s
  unfold execUnitTestDone at e
  cases e
  repeat' first | with_reducible (first | exact h | apply keeps_unitTestDone)

theorem keeps_execOwnerAcquire {s t : State} {p : HostId} (e : execOwnerAcquire p s = .next t) : Keeps s t := by
  have h := Keeps.refl s
  unfold execOwnerAcquire at e
  cases e
  repeat' first | with_reducible (first | exact h | apply keeps_hostWord | apply keeps_ownerAcquire)

theorem keeps_execOwnerRelease {s t : State} {p : HostId} (e : execOwnerRelease p s = .next t) : Keeps s t := by
  have h := Keeps.refl s
  unfold execOwnerRelease at e
  cases e
  repeat' first | with_reducible (first | exact h | apply keeps_hostWord | apply keeps_ownerRelease)

theorem keeps_execStreamOwnerWrite {s t : State} {p : HostId} {c : CtxId} {arrays : BitVec 16} (e : execStreamOwnerWrite p c arrays s = .next t) : Keeps s t := by
  have h := Keeps.refl s
  unfold execStreamOwnerWrite at e
  cases e
  repeat' first | with_reducible (first | exact h | apply keeps_tokenWrite | apply keeps_streamOwner | apply keeps_ite | assumption) | (intro _; intros)

theorem keeps_execEntdaa {s t : State} {addr : BitVec 7} (e : execEntdaa addr s = .next t) : Keeps s t := by
  have h := Keeps.refl s
  unfold execEntdaa at e
  cases e
  repeat' first | with_reducible (first | exact h | apply keeps_ite | assumption) | split | with_reducible apply keeps_mk

theorem keeps_execSetdasa {s t : State} {addr : BitVec 7} (e : execSetdasa addr s = .next t) : Keeps s t := by
  have h := Keeps.refl s
  unfold execSetdasa at e
  cases e
  repeat' first | with_reducible (first | exact h | apply keeps_ite | assumption) | split | with_reducible apply keeps_mk

theorem keeps_execSetEndpointId {s t : State} {eid : BitVec 8} (e : execSetEndpointId eid s = .next t) : Keeps s t := by
  have h := Keeps.refl s
  unfold execSetEndpointId at e
  cases e
  repeat' first | with_reducible (first | exact h | apply keeps_ite | assumption) | split | with_reducible apply keeps_mk

theorem keeps_execSpdmRequest {s t : State} {req : SpdmReq} (e : execSpdmRequest req s = .next t) : Keeps s t := by
  have h := Keeps.refl s
  unfold execSpdmRequest at e
  cases e
  repeat' first | with_reducible (first | exact h | apply keeps_spdmOp | apply keeps_ite)

theorem keeps_execFaultNotifyRead {s t : State}  (e : execFaultNotifyRead s = .next t) : Keeps s t := by
  have h := Keeps.refl s
  unfold execFaultNotifyRead at e
  cases e
  repeat' first | with_reducible (first | exact h | apply keeps_faultNotifyRead | apply keeps_ite)

theorem keeps_execGetTelemetry {s t : State} {sec : TlmSection} {hh : SbdHead} (e : execGetTelemetry sec s hh = .next t) : Keeps s t := by
  have h := Keeps.refl s
  unfold execGetTelemetry at e
  cases e
  repeat' first | with_reducible (first | exact h | apply keeps_sbdDone | apply keeps_ite)

theorem keeps_execReadFaultLog {s t : State} {idx : Fin 512} {bad : List (Fin 512)} {hh : SbdHead} (e : execReadFaultLog idx bad s hh = .next t) : Keeps s t := by
  have h := Keeps.refl s
  unfold execReadFaultLog at e
  cases e
  repeat' first | with_reducible (first | exact h | apply keeps_sbdDone | apply keeps_flogCheck | apply keeps_ite)

theorem keeps_execReadAccount {s t : State} {c : CtxId} {hh : SbdHead} (e : execReadAccount c s hh = .next t) : Keeps s t := by
  have h := Keeps.refl s
  unfold execReadAccount at e
  cases e
  repeat' first | with_reducible (first | exact h | apply keeps_sbdDone | apply keeps_wake | apply keeps_ite)

theorem keeps_execReadJournal {s t : State} {r : RgnId} {first : Fin 1024} {hh : SbdHead} (e : execReadJournal r first s hh = .next t) : Keeps s t := by
  have h := Keeps.refl s
  unfold execReadJournal at e
  cases e
  repeat' first | with_reducible (first | exact h | apply keeps_sbdDone | apply keeps_wake | apply keeps_ite)

theorem keeps_execReadFuseView {s t : State} {hh : SbdHead} (e : execReadFuseView s hh = .next t) : Keeps s t := by
  have h := Keeps.refl s
  unfold execReadFuseView at e
  cases e
  repeat' first | with_reducible (first | exact h | apply keeps_sbdDone | apply keeps_ite)

theorem keeps_execUnitRequest {s t : State} {w : W32} {hh : SbdHead} (e : execUnitRequest w s hh = .next t) : Keeps s t := by
  have h := Keeps.refl s
  unfold execUnitRequest at e
  cases e
  repeat' first | with_reducible (first | exact h | apply keeps_sbdUnit)

theorem keeps_execWarmReset {s t : State} {hh : SbdHead} (e : execWarmReset s hh = .next t) : Keeps s t := by
  have h := Keeps.refl s
  unfold execWarmReset at e
  cases e
  repeat' first | with_reducible (first | exact h | apply keeps_inSessionToken | apply keeps_sbdDone | apply keeps_warmAsk | apply keeps_ite | assumption) | (intro _; intros)

theorem keeps_execMaintRequest {s t : State} {w : W32} {hh : SbdHead} (e : execMaintRequest w s hh = .next t) : Keeps s t := by
  have h := Keeps.refl s
  unfold execMaintRequest at e
  cases e
  repeat' first | with_reducible (first | exact h | apply keeps_sbdMaint)

theorem keeps_execOwnership {s t : State} {acquire : Bool} {hh : SbdHead} (e : execOwnership acquire s hh = .next t) : Keeps s t := by
  have h := Keeps.refl s
  unfold execOwnership at e
  cases e
  repeat' first | with_reducible (first | exact h | apply keeps_inSession | apply keeps_ownershipOp | apply keeps_ite | assumption) | (intro _; intros)

theorem keeps_execSetPowerCap {s t : State} {w : W64} {hh : SbdHead} (e : execSetPowerCap w s hh = .next t) : Keeps s t := by
  have h := Keeps.refl s
  unfold execSetPowerCap at e
  cases e
  repeat' first | with_reducible (first | exact h | apply keeps_inSession | apply keeps_sbdDone | apply keeps_ite | assumption) | (intro _; intros) | split | with_reducible apply keeps_mk

theorem keeps_execTestUnlock {s t : State} {hh : SbdHead} (e : execTestUnlock s hh = .next t) : Keeps s t := by
  have h := Keeps.refl s
  unfold execTestUnlock at e
  cases e
  repeat' first | with_reducible (first | exact h | apply keeps_inSession | apply keeps_sbdDone | apply keeps_ite | assumption) | (intro _; intros) | split | with_reducible apply keeps_mk

theorem keeps_execTapInstruction {s t : State} {ins : TapIns} (e : execTapInstruction ins s = .next t) : Keeps s t := by
  have h := Keeps.refl s
  unfold execTapInstruction at e
  cases e
  repeat' first | with_reducible (first | exact h | apply keeps_tapOp | apply keeps_ite)

theorem keeps_execIdcode {s t : State}  (e : execIdcode s = .next t) : Keeps s t := by
  have h := Keeps.refl s
  unfold execIdcode at e
  cases e
  repeat' first | with_reducible (first | exact h | apply keeps_ite | assumption) | split | with_reducible apply keeps_mk

theorem keeps_execRwrite {s t : State} {c : CtxId} {i : W32} (e : execRwrite c i s = .next t) : Keeps s t := by
  have h := Keeps.refl s
  unfold execRwrite at e
  cases e
  repeat' first | with_reducible (first | exact h | apply keeps_descCommand | apply keeps_copyOp | apply keeps_ite | assumption) | (intro _; intros)

theorem keeps_execRread {s t : State} {c : CtxId} {i : W32} (e : execRread c i s = .next t) : Keeps s t := by
  have h := Keeps.refl s
  unfold execRread at e
  cases e
  repeat' first | with_reducible (first | exact h | apply keeps_descCommand | apply keeps_copyOp | apply keeps_ite | assumption) | (intro _; intros)

theorem keeps_execRatomicFetchAdd32 {s t : State} {c : CtxId} {i : W32} (e : execRatomicFetchAdd32 c i s = .next t) : Keeps s t := by
  have h := Keeps.refl s
  unfold execRatomicFetchAdd32 at e
  cases e
  repeat' first | with_reducible (first | exact h | apply keeps_ratomicCommand)

theorem keeps_execRatomicFetchAdd64 {s t : State} {c : CtxId} {i : W32} (e : execRatomicFetchAdd64 c i s = .next t) : Keeps s t := by
  have h := Keeps.refl s
  unfold execRatomicFetchAdd64 at e
  cases e
  repeat' first | with_reducible (first | exact h | apply keeps_ratomicCommand)

theorem keeps_execRatomicCas {s t : State} {c : CtxId} {i : W32} (e : execRatomicCas c i s = .next t) : Keeps s t := by
  have h := Keeps.refl s
  unfold execRatomicCas at e
  cases e
  repeat' first | with_reducible (first | exact h | apply keeps_ratomicCommand)

theorem keeps_execRatomicMax {s t : State} {c : CtxId} {i : W32} (e : execRatomicMax c i s = .next t) : Keeps s t := by
  have h := Keeps.refl s
  unfold execRatomicMax at e
  cases e
  repeat' first | with_reducible (first | exact h | apply keeps_ratomicCommand)

theorem keeps_execRatomicOr {s t : State} {c : CtxId} {i : W32} (e : execRatomicOr c i s = .next t) : Keeps s t := by
  have h := Keeps.refl s
  unfold execRatomicOr at e
  cases e
  repeat' first | with_reducible (first | exact h | apply keeps_ratomicCommand)

theorem keeps_execWaitv {s t : State} {c : CtxId} {i : W32} (e : execWaitv c i s = .next t) : Keeps s t := by
  have h := Keeps.refl s
  unfold execWaitv at e
  cases e
  repeat' first | with_reducible (first | exact h | apply keeps_descCommand | apply keeps_waitvOp | apply keeps_ite | assumption) | (intro _; intros)

theorem keeps_execWaitvPoll {s t : State} {c : CtxId} (e : execWaitvPoll c s = .next t) : Keeps s t := by
  have h := Keeps.refl s
  unfold execWaitvPoll at e
  cases e
  repeat' first | with_reducible (first | exact h | apply keeps_waitvRead | apply keeps_ite)

theorem keeps_execWaitvTimeout {s t : State} {c : CtxId} (e : execWaitvTimeout c s = .next t) : Keeps s t := by
  have h := Keeps.refl s
  unfold execWaitvTimeout at e
  cases e
  repeat' first | with_reducible (first | exact h | apply keeps_waitTimeout | apply keeps_ite | assumption) | split

theorem keeps_execWindowRead {s t : State} {p : HostId} {addr : BitVec 57} {len : Nat} {space : Bool} (e : execWindowRead p addr len s space = .next t) : Keeps s t := by
  have h := Keeps.refl s
  unfold execWindowRead at e
  cases e
  repeat' first | with_reducible (first | exact h | apply keeps_registerRead | apply keeps_windowRead | apply keeps_wake | apply keeps_ite)

theorem keeps_execWindowWrite {s t : State} {p : HostId} {addr : BitVec 57} {data : List Byte} (e : execWindowWrite p addr data s = .next t) : Keeps s t := by
  have h := Keeps.refl s
  unfold execWindowWrite at e
  cases e
  repeat' first | with_reducible (first | exact h | apply keeps_windowWrite | apply keeps_wake | apply keeps_ite)

theorem keeps_execWindowAtomic {s t : State} {p : HostId} {addr : BitVec 57} {op : AtomicOp} {operand : W64} {new : W64} (e : execWindowAtomic p addr op operand new s = .next t) : Keeps s t := by
  have h := Keeps.refl s
  unfold execWindowAtomic at e
  cases e
  repeat' first | with_reducible (first | exact h | apply keeps_windowAtomic | apply keeps_wake | apply keeps_ite)

theorem keeps_execMppRdReceive {s t : State} {port : PortRef} {tag : BitVec 12} {data : List Byte} {rs : RsResult} {poison : Bool}
    (e : execMppRdReceive port tag data rs poison s = .next t) : Keeps s t := by
  have h := Keeps.refl s
  unfold execMppRdReceive at e
  cases e
  split <;> split
  · exact h
  · exact keeps_rdReceive (keeps_setMp h)
  · exact h
  · exact keeps_hostReceive (keeps_setHp h)

theorem keeps_execMppRspReceive {s t : State} {port : PortRef} {tag : BitVec 12} {status : BitVec 2} {prior : W64}
    (e : execMppRspReceive port tag status prior s = .next t) : Keeps s t := by
  have h := Keeps.refl s
  unfold execMppRspReceive at e
  cases e
  split <;> dsimp only <;> split
  · exact h
  · exact keeps_rspReceive (keeps_setMp h)
  · exact h
  · exact keeps_ite (keeps_warmNext (keeps_setHp h)) (keeps_ite (keeps_hostError (keeps_setHp h)) (keeps_irqAck (keeps_setHp h)))

theorem keeps_execCrossingTransfer {s t : State} {src : IslId} {dst : IslId} {cycles : Nat} (e : execCrossingTransfer src dst cycles s = .next t) : Keeps s t := by
  have h := Keeps.refl s
  unfold execCrossingTransfer at e
  cases e
  repeat' first | with_reducible (first | exact h | apply keeps_crossingDeliver)

theorem keeps_execNop {s t : State} {c : CtxId} {i : W32} (e : execNop c i s = .next t) : Keeps s t := by
  have h := Keeps.refl s
  unfold execNop at e
  cases e
  repeat' first | with_reducible (first | exact h | apply keeps_descCommand | apply keeps_finish | apply keeps_ite | assumption) | (intro _; intros)

theorem keeps_execFence {s t : State} {c : CtxId} {i : W32} (e : execFence c i s = .next t) : Keeps s t := by
  have h := Keeps.refl s
  unfold execFence at e
  cases e
  repeat' first | with_reducible (first | exact h | apply keeps_descCommand | apply keeps_finish | apply keeps_ite | assumption) | (intro _; intros)

theorem keeps_execCtxsave {s t : State} {c : CtxId} {i : W32} (e : execCtxsave c i s = .next t) : Keeps s t := by
  have h := Keeps.refl s
  unfold execCtxsave at e
  cases e
  repeat' first | with_reducible (first | exact h | apply keeps_descCommand | apply keeps_ctxsaveOp | apply keeps_ite | assumption) | (intro _; intros)

theorem keeps_execCtxload {s t : State} {c : CtxId} {i : W32} (e : execCtxload c i s = .next t) : Keeps s t := by
  have h := Keeps.refl s
  unfold execCtxload at e
  cases e
  repeat' first | with_reducible (first | exact h | apply keeps_descCommand | apply keeps_ctxloadOp | apply keeps_ite | assumption) | (intro _; intros)

theorem keeps_execGemm {s t : State} {c : CtxId} {i : W32} (e : execGemm c i s = .next t) : Keeps s t := by
  have h := Keeps.refl s
  unfold execGemm at e
  cases e
  repeat' first | with_reducible (first | exact h | apply keeps_descCommand | apply keeps_computeOp | apply keeps_ite | assumption) | (intro _; intros)

theorem keeps_execSpmm {s t : State} {c : CtxId} {i : W32} (e : execSpmm c i s = .next t) : Keeps s t := by
  have h := Keeps.refl s
  unfold execSpmm at e
  cases e
  repeat' first | with_reducible (first | exact h | apply keeps_descCommand | apply keeps_computeOp | apply keeps_ite | assumption) | (intro _; intros)

theorem keeps_execTspmm {s t : State} {c : CtxId} {i : W32} (e : execTspmm c i s = .next t) : Keeps s t := by
  have h := Keeps.refl s
  unfold execTspmm at e
  cases e
  repeat' first | with_reducible (first | exact h | apply keeps_descCommand | apply keeps_computeOp | apply keeps_ite | assumption) | (intro _; intros)

theorem keeps_execMgrad {s t : State} {c : CtxId} {i : W32} (e : execMgrad c i s = .next t) : Keeps s t := by
  have h := Keeps.refl s
  unfold execMgrad at e
  cases e
  repeat' first | with_reducible (first | exact h | apply keeps_descCommand | apply keeps_computeOp | apply keeps_ite | assumption) | (intro _; intros)

theorem keeps_execConv {s t : State} {c : CtxId} {i : W32} (e : execConv c i s = .next t) : Keeps s t := by
  have h := Keeps.refl s
  unfold execConv at e
  cases e
  repeat' first | with_reducible (first | exact h | apply keeps_descCommand | apply keeps_computeOp | apply keeps_ite | assumption) | (intro _; intros)

theorem keeps_execGemv {s t : State} {c : CtxId} {i : W32} (e : execGemv c i s = .next t) : Keeps s t := by
  have h := Keeps.refl s
  unfold execGemv at e
  cases e
  repeat' first | with_reducible (first | exact h | apply keeps_descCommand | apply keeps_computeOp | apply keeps_ite | assumption) | (intro _; intros)

theorem keeps_execFused2 {s t : State} {c : CtxId} {i : W32} (e : execFused2 c i s = .next t) : Keeps s t := by
  have h := Keeps.refl s
  unfold execFused2 at e
  cases e
  repeat' first | with_reducible (first | exact h | apply keeps_descCommand | apply keeps_computeOp | apply keeps_ite | assumption) | (intro _; intros)

theorem keeps_execFold {s t : State} {c : CtxId} {i : W32} (e : execFold c i s = .next t) : Keeps s t := by
  have h := Keeps.refl s
  unfold execFold at e
  cases e
  repeat' first | with_reducible (first | exact h | apply keeps_foldOp | apply keeps_ite | assumption) | split

theorem keeps_execAdmission {s t : State} {c : CtxId} (e : execAdmission c s = .next t) : Keeps s t := by
  have h := Keeps.refl s
  unfold execAdmission at e
  cases e
  repeat' first | with_reducible (first | exact h | apply keeps_waitRoom | apply keeps_admitOp | apply keeps_ite | assumption) | split

theorem keeps_execDispatch {s t : State} {c : CtxId} {disagree : Fin 3} (e : execDispatch c disagree s = .next t) : Keeps s t := by
  have h := Keeps.refl s
  unfold execDispatch at e
  cases e
  repeat' first | with_reducible (first | exact h | apply keeps_boardFault | apply keeps_logFault | apply keeps_dispatchOne | apply keeps_ite)

theorem keeps_execTempoPeriodEnd {s t : State} {c : CtxId} (e : execTempoPeriodEnd c s = .next t) : Keeps s t := by
  have h := Keeps.refl s
  unfold execTempoPeriodEnd at e
  cases e
  repeat' first | with_reducible (first | exact h | apply keeps_tempoEnd)

theorem keeps_execBindSubtile {s t : State} {r : RgnId} {odd : Option (Fin 3)} (e : execBindSubtile r odd s = .next t) : Keeps s t := by
  have h := Keeps.refl s
  unfold execBindSubtile at e
  cases e
  repeat' first | with_reducible (first | exact h | apply keeps_regionVote | apply keeps_bindOne | apply keeps_ite)

theorem keeps_execStarvationRelief {s t : State} {r : RgnId} {odd : Option (Fin 3)} (e : execStarvationRelief r s odd = .next t) : Keeps s t := by
  have h := Keeps.refl s
  unfold execStarvationRelief at e
  cases e
  repeat' first | with_reducible (first | exact h | apply keeps_relieve | apply keeps_regionVote | apply keeps_ite)

theorem keeps_execSlotAssign {s t : State} {r : RgnId} {odd : Option (Fin 3)} (e : execSlotAssign r odd s = .next t) : Keeps s t := by
  have h := Keeps.refl s
  unfold execSlotAssign at e
  cases e
  repeat' first | with_reducible (first | exact h | apply keeps_regionVote | apply keeps_assignFirst | apply keeps_ite)

theorem keeps_execShadowLoadRow {s t : State} {a : ArrId} {parityBad : Bool} {rs : RsResult} (e : execShadowLoadRow a parityBad rs s = .next t) : Keeps s t := by
  have h := Keeps.refl s
  unfold execShadowLoadRow at e
  cases e
  repeat' first | with_reducible (first | exact h | apply keeps_loadOne | apply keeps_ite)

theorem keeps_execRowBroadcast {s t : State} {a : ArrId} {dry : List Nat} {blocked : List Nat} {upset : List (Nat × W32)} (e : execRowBroadcast a dry blocked upset s = .next t) : Keeps s t := by
  have h := Keeps.refl s
  unfold execRowBroadcast at e
  cases e
  repeat' first | with_reducible (first | exact h | apply keeps_broadcast | apply keeps_ite)

theorem keeps_execRowCheck {s t : State} {a : ArrId} (e : execRowCheck a s = .next t) : Keeps s t := by
  have h := Keeps.refl s
  unfold execRowCheck at e
  cases e
  repeat' first | with_reducible (first | exact h | apply keeps_checkOne | apply keeps_ite)

theorem keeps_execPassCastle {s t : State} {a : ArrId} {rs : RsResult} (e : execPassCastle a rs s = .next t) : Keeps s t := by
  have h := Keeps.refl s
  unfold execPassCastle at e
  cases e
  repeat' first | with_reducible (first | exact h | apply keeps_castleStep | apply keeps_ite)

theorem keeps_execRowCommit {s t : State} {a : ArrId} {odd : Option (Fin 3)} {rs : RsResult} (e : execRowCommit a odd rs s = .next t) : Keeps s t := by
  have h := Keeps.refl s
  unfold execRowCommit at e
  cases e
  repeat' first | with_reducible (first | exact h | apply keeps_regionVote | apply keeps_commitOne | apply keeps_ite)

theorem keeps_execSkewedDelivery {s t : State} {a : ArrId} {rs : RsResult} (e : execSkewedDelivery a rs s = .next t) : Keeps s t := by
  have h := Keeps.refl s
  unfold execSkewedDelivery at e
  cases e
  repeat' first | with_reducible (first | exact h | apply keeps_deliver | apply keeps_ite)

theorem keeps_execBankGrant {s t : State} {r : RgnId} {bank : Fin 512} {rs : RsResult} {odd : Option (Fin 3)} (e : execBankGrant r bank rs s odd = .next t) : Keeps s t := by
  have h := Keeps.refl s
  unfold execBankGrant at e
  cases e
  repeat' first | with_reducible (first | exact h | apply keeps_regionVote | apply keeps_bankGrant | apply keeps_ite)

theorem keeps_execPortGrant {s t : State} {q : PortId} {write : Bool} {rs : RsResult} (e : execPortGrant q write s rs = .next t) : Keeps s t := by
  have h := Keeps.refl s
  unfold execPortGrant at e
  cases e
  repeat' first | with_reducible (first | exact h | apply keeps_portGrant | apply keeps_ite)

theorem keeps_execRngGrant {s t : State} {r : RgnId} {badLanes : List Nat} (e : execRngGrant r badLanes s = .next t) : Keeps s t := by
  have h := Keeps.refl s
  unfold execRngGrant at e
  cases e
  repeat' first | with_reducible (first | exact h | apply keeps_rngGrant | apply keeps_ite)

theorem keeps_execSideWeightFill {s t : State} {r : RgnId} (e : execSideWeightFill r s = .next t) : Keeps s t := by
  have h := Keeps.refl s
  unfold execSideWeightFill at e
  cases e
  repeat' first | with_reducible (first | exact h | apply keeps_sideFill | apply keeps_ite)

theorem keeps_execSideDotRow {s t : State} {r : RgnId} {upset : List (Nat × W32)} {rs : RsResult} {buf : RsResult} (e : execSideDotRow r upset rs s buf = .next t) : Keeps s t := by
  have h := Keeps.refl s
  unfold execSideDotRow at e
  cases e
  repeat' first | with_reducible (first | exact h | apply keeps_dotRow | apply keeps_ite)

theorem keeps_execSideSpillService {s t : State} {r : RgnId} {bad : Bool} (e : execSideSpillService r bad s = .next t) : Keeps s t := by
  have h := Keeps.refl s
  unfold execSideSpillService at e
  cases e
  repeat' first | with_reducible (first | exact h | apply keeps_spillService | apply keeps_ite)

theorem keeps_execTransposerRow {s t : State} {a : ArrId} (e : execTransposerRow a s = .next t) : Keeps s t := by
  have h := Keeps.refl s
  unfold execTransposerRow at e
  cases e
  repeat' first | with_reducible (first | exact h | apply keeps_transposeRow | apply keeps_ite)

theorem keeps_execGatherRow {s t : State} {a : ArrId} {rs : RsResult} (e : execGatherRow a rs s = .next t) : Keeps s t := by
  have h := Keeps.refl s
  unfold execGatherRow at e
  cases e
  repeat' first | with_reducible (first | exact h | apply keeps_gatherOne | apply keeps_ite)

theorem keeps_execStageWindow {s t : State} {a : ArrId} (e : execStageWindow a s = .next t) : Keeps s t := by
  have h := Keeps.refl s
  unfold execStageWindow at e
  cases e
  repeat' first | with_reducible (first | exact h | apply keeps_stageOne | apply keeps_ite)

theorem keeps_execGambitPreload {s t : State} {a : ArrId} (e : execGambitPreload a s = .next t) : Keeps s t := by
  have h := Keeps.refl s
  unfold execGambitPreload at e
  cases e
  repeat' first | with_reducible (first | exact h | apply keeps_preloadOne | apply keeps_ite)

theorem keeps_execGambitPrefetch {s t : State} {r : RgnId} {c : CtxId} (e : execGambitPrefetch r c s = .next t) : Keeps s t := by
  have h := Keeps.refl s
  unfold execGambitPrefetch at e
  cases e
  repeat' first | with_reducible (first | exact h | apply keeps_prefetchOne | apply keeps_ite)

theorem keeps_execSpeculativePass {s t : State} {a : ArrId} {c : CtxId} {rs : RsResult} (e : execSpeculativePass a c rs s = .next t) : Keeps s t := by
  have h := Keeps.refl s
  unfold execSpeculativePass at e
  cases e
  repeat' first | with_reducible (first | exact h | apply keeps_specPass | apply keeps_ite)

theorem keeps_execSpecConfirm {s t : State} {c : CtxId} {lost : Option ArrId} (e : execSpecConfirm c lost s = .next t) : Keeps s t := by
  have h := Keeps.refl s
  unfold execSpecConfirm at e
  cases e
  repeat' first | with_reducible (first | exact h | apply keeps_confirmOne | apply keeps_ite | apply keeps_foldl | assumption) | (intro _; intros)

theorem keeps_execSubtileReplay {s t : State} {r : RgnId} {odd : Option (Fin 3)} (e : execSubtileReplay r s odd = .next t) : Keeps s t := by
  have h := Keeps.refl s
  unfold execSubtileReplay at e
  cases e
  repeat' first | with_reducible (first | exact h | apply keeps_regionVote | apply keeps_replayOne | apply keeps_moveStranded | apply keeps_ite)

theorem keeps_execPrune {s t : State} {c : CtxId} {i : W32} (e : execPrune c i s = .next t) : Keeps s t := by
  have h := Keeps.refl s
  unfold execPrune at e
  cases e
  repeat' first | with_reducible (first | exact h | apply keeps_descCommand | apply keeps_maskOp | apply keeps_ite | assumption) | (intro _; intros)

theorem keeps_execRegrow {s t : State} {c : CtxId} {i : W32} (e : execRegrow c i s = .next t) : Keeps s t := by
  have h := Keeps.refl s
  unfold execRegrow at e
  cases e
  repeat' first | with_reducible (first | exact h | apply keeps_descCommand | apply keeps_maskOp | apply keeps_ite | assumption) | (intro _; intros)

theorem keeps_execMaskset {s t : State} {c : CtxId} {i : W32} (e : execMaskset c i s = .next t) : Keeps s t := by
  have h := Keeps.refl s
  unfold execMaskset at e
  cases e
  repeat' first | with_reducible (first | exact h | apply keeps_descCommand | apply keeps_maskOp | apply keeps_ite | assumption) | (intro _; intros)

theorem keeps_execMaskSweep {s t : State} {c : CtxId} (e : execMaskSweep c s = .next t) : Keeps s t := by
  have h := Keeps.refl s
  unfold execMaskSweep at e
  cases e
  repeat' first | with_reducible (first | exact h | apply keeps_maskSweepOp | apply keeps_ite)

theorem keeps_execMaskRebuild {s t : State} {c : CtxId} (e : execMaskRebuild c s = .next t) : Keeps s t := by
  have h := Keeps.refl s
  unfold execMaskRebuild at e
  cases e
  repeat' first | with_reducible (first | exact h | apply keeps_maskRebuildOp | apply keeps_ite)

theorem keeps_execMaskCommit {s t : State} {c : CtxId} (e : execMaskCommit c s = .next t) : Keeps s t := by
  have h := Keeps.refl s
  unfold execMaskCommit at e
  cases e
  repeat' first | with_reducible (first | exact h | apply keeps_maskCommitOp | apply keeps_ite)

theorem keeps_execMaskRetire {s t : State} {c : CtxId} (e : execMaskRetire c s = .next t) : Keeps s t := by
  have h := Keeps.refl s
  unfold execMaskRetire at e
  cases e
  repeat' first | with_reducible (first | exact h | apply keeps_maskRetireOp | apply keeps_ite)

theorem keeps_execMaskCommitRecovery {s t : State} {c : CtxId} (e : execMaskCommitRecovery c s = .next t) : Keeps s t := by
  have h := Keeps.refl s
  unfold execMaskCommitRecovery at e
  cases e
  repeat' first | with_reducible (first | exact h | apply keeps_maskRecoverOp | apply keeps_ite)

theorem keeps_execBmask {s t : State} {c : CtxId} {i : W32} (e : execBmask c i s = .next t) : Keeps s t := by
  have h := Keeps.refl s
  unfold execBmask at e
  cases e
  repeat' first | with_reducible (first | exact h | apply keeps_bmaskOp | apply keeps_ite | assumption) | split

theorem keeps_execCastle {s t : State} {c : CtxId} {i : W32} (e : execCastle c i s = .next t) : Keeps s t := by
  have h := Keeps.refl s
  unfold execCastle at e
  cases e
  repeat' first | with_reducible (first | exact h | apply keeps_descCommand | apply keeps_castleOp | apply keeps_ite | assumption) | (intro _; intros)

theorem keeps_execStream {s t : State} {c : CtxId} {i : W32} (e : execStream c i s = .next t) : Keeps s t := by
  have h := Keeps.refl s
  unfold execStream at e
  cases e
  repeat' first | with_reducible (first | exact h | apply keeps_descCommand | apply keeps_streamOp | apply keeps_ite | assumption) | (intro _; intros)

end Sys2Proof.Machine
end

