-- ==== Sys2Proof/WellFormed.lean ====
section
/-!
DEFINITION. Which commands the spec's interfaces can carry. A command that is not well formed still has a meaning in
`exec` (an access that is answered ERR, a report whose extra items are ignored); this check says what an integration may send.
-/

namespace Sys2Proof

/-- A side path or a region is one of 4; arrays and ports are 16 (R7, R315). -/
def UnitSel.wellFormed (u : UnitSel) : Bool :=
  match u.kind with
  | .array => true
  | .port => true
  | .side => decide (u.unit.val < 4)
  | .region => decide (u.unit.val < 4)

/-- A scratchpad has 512 banks and 4 spares (R22, R362, R403). -/
def banksOk (l : List Nat) : Bool := l.all (fun b => decide (b < 516)) && decide l.Nodup

/-- What boot reports: banks that exist, and no island both without a lock and on one oscillator. -/
def BootReport.wellFormed (r : BootReport) : Bool :=
  [0, 1, 2, 3].all (fun n => banksOk ((r.badBanks.filter (fun b => b.1.val == n)).map (·.2))) && r.noLock.all (fun i => !r.oneLock.contains i)

/-- A register access is 4 or 8 naturally aligned bytes, and its value fits them (R341, R386). -/
def registerAccessOk (off size v : Nat) : Bool := (size == 4 || size == 8) && off % size == 0 && decide (v < 2 ^ (8 * size))

/-- The activity of an array lies in the array's region (R377, R381). -/
def MaintAct.fits (a : MaintAct) (r : RgnId) : Bool := a.code != 1 || a.array.val / 4 == r.val

/-- An array has 256 physical rows; its columns are numbered 0 to 255 and the check column is number 256 (R37, R46, R47). -/
def linesOk (n : Nat) (l : List Nat) : Bool := l.all (fun k => decide (k < n))

def Instr.wellFormed : Instr → Bool
  | .coldBoot r => r.wellFormed
  -- read data and window accesses carry 1 to 512 and 1 to 64 bytes (R332, R340)
  | .mppRdReceive _ _ data _ _ => decide (1 ≤ data.length ∧ data.length ≤ 512)
  | .windowRead _ addr len _ => decide (1 ≤ len ∧ len ≤ 64)
  | .windowWrite _ addr data => decide (1 ≤ data.length ∧ data.length ≤ 64)
  | .windowAtomic _ addr _ _ _ => decide (addr.toNat % 8 = 0)
  -- a crossing takes 3 to 6 cycles of its destination, and joins two islands (R35)
  | .crossingTransfer src dst cycles => decide (src ≠ dst ∧ 3 ≤ cycles ∧ cycles ≤ 6)
  | .registerWrite _ off size v => registerAccessOk off.toNat size v.toNat
  | .unitDisable _ u => u.wellFormed
  | .unitForceDisable _ u => u.wellFormed
  | .unitEnable _ u => u.wellFormed
  | .unitFence _ u => u.wellFormed
  | .unitDrainDone u => u.wellFormed
  | .unitTestDone u r => u.wellFormed && banksOk r.badBanks
  | .maintActivityEnd r act _ _ => act.fits r
  -- 60 islands and 32 thermal sites (R357)
  | .powerControlInterval _ islandMw => decide (islandMw.length = 60)
  | .thermalInterval temps => decide (temps.length = 32)
  | .rowBroadcast _ dry blocked upset => linesOk 256 dry && linesOk 257 blocked && linesOk 257 (upset.map (·.1))
  -- an RNG unit has 32 lanes (R209)
  | .rngGrant _ badLanes => badLanes.all (fun l => decide (l < 32))
  | .rstColdNAssert => true
  | .rstWarmNFall => true
  | .resetWarm _ => true
  | .contextAbort _ _ => true
  | .arrayReset _ _ => true
  | .refclkLoss => true
  | .timestampSample _ => true
  | .timestampStale => true
  | .droopStretch _ => true
  | .islandFault _ => true
  | .railsRemoved => true
  | .hostPortDown _ => true
  | .hostPortUp _ => true
  | .memoryPortDown _ => true
  | .mainSideDown => true
  | .mppCreditReturn _ _ _ => true
  | .mppRspReceive _ _ _ _ => true
  | .hostSpeaksWrite _ _ => true
  | .ownerAcquire _ => true
  | .ownerRelease _ => true
  | .streamOwnerWrite _ _ _ => true
  | .scratchpadScrub _ _ => true
  | .arraySelfTest _ _ => true
  | .islandRecalibration _ _ => true
  | .fuseShadowReload _ _ => true
  | .rngSelfTest _ _ => true
  | .journalCompaction _ _ => true
  | .telemetrySnapshot _ _ => true
  | .maintQueuedStart _ _ => true
  | .autoScrub _ => true
  | .snapNow _ => true
  | .snapshotPeriod => true
  | .pstateRun _ => true
  | .pstateReducedClock _ => true
  | .pstateRetention _ => true
  | .retentionPortGate => true
  | .idleEntry => true
  | .doorbellNotify _ _ => true
  | .dbPoll => true
  | .contextActivation _ => true
  | .doorbellValue _ _ => true
  | .descriptorFetch _ => true
  | .admission _ => true
  | .cqHeadRead _ _ => true
  | .completionRecord _ => true
  | .dispatch _ _ => true
  | .bindSubtile _ _ => true
  | .starvationRelief _ _ => true
  | .tempoPeriodEnd _ => true
  | .slotAssign _ _ => true
  | .shadowLoadRow _ _ _ => true
  | .passCastle _ _ => true
  | .rowCheck _ => true
  | .rowCommit _ _ _ => true
  | .skewedDelivery _ _ => true
  | .bankGrant _ _ _ _ => true
  | .portGrant _ _ _ => true
  | .sideWeightFill _ => true
  | .sideDotRow _ upset _ _ => linesOk 513 (upset.map (·.1))
  | .sideSpillService _ _ => true
  | .transposerRow _ => true
  | .gatherRow _ _ => true
  | .stageWindow _ => true
  | .gambitPreload _ => true
  | .gambitPrefetch _ _ => true
  | .speculativePass _ _ _ => true
  | .specConfirm _ _ => true
  | .subtileReplay _ _ => true
  | .maskSweep _ => true
  | .maskRebuild _ => true
  | .maskCommit _ => true
  | .maskRetire _ => true
  | .maskCommitRecovery _ => true
  | .waitvPoll _ => true
  | .waitvTimeout _ => true
  | .nop _ _ => true
  | .gemm _ _ => true
  | .fused2 _ _ => true
  | .spmm _ _ => true
  | .tspmm _ _ => true
  | .mgrad _ _ => true
  | .conv _ _ => true
  | .gemv _ _ => true
  | .fold _ _ => true
  | .prune _ _ => true
  | .regrow _ _ => true
  | .maskset _ _ => true
  | .bmask _ _ => true
  | .castle _ _ => true
  | .rwrite _ _ => true
  | .rread _ _ => true
  | .ratomicFetchAdd32 _ _ => true
  | .ratomicFetchAdd64 _ _ => true
  | .ratomicCas _ _ => true
  | .ratomicMax _ _ => true
  | .ratomicOr _ _ => true
  | .waitv _ _ => true
  | .fence _ _ => true
  | .ctxsave _ _ => true
  | .ctxload _ _ => true
  | .stream _ _ => true
  | .entdaa _ => true
  | .setdasa _ => true
  | .setEndpointId _ => true
  | .spdmRequest _ => true
  | .faultNotifyRead => true
  | .getTelemetry _ _ => true
  | .readFaultLog _ bad _ => bad.Nodup
  | .readAccount _ _ => true
  | .readJournal _ _ _ => true
  | .readFuseView _ => true
  | .unitRequest _ _ => true
  | .warmReset _ => true
  | .maintRequest _ _ => true
  | .ownership _ _ => true
  | .setPowerCap _ _ => true
  | .testUnlock _ => true
  | .tapInstruction _ => true
  | .idcode => true

end Sys2Proof
end

