-- ==== Sys2Proof/Tests/Slice0.lean ====
section
/-!
SUPPORT. Tests of the model: for each statement states and operands that meet its hypotheses, with what the command then
does there (`witness_…`), single commands against values worked out from the spec (`test_…`), and the ill-formed commands that
`Instr.wellFormed` refuses.
-/

namespace Sys2Proof.Tests

-- one theorem after another: each `decide +kernel` is a kernel evaluation of its own
set_option Elab.async false

open Sys2Proof Sys2Proof.Machine

/-! ### Helpers -/

/-- The command answers a next state of which `p` holds. -/
def run (i : Instr) (s : State) (p : State → Bool) : Bool :=
  match exec i s with
  | .next t => p t
  | _ => false

/-- The state after a command. -/
def after (i : Instr) (s : State) : State :=
  match exec i s with
  | .next t => t
  | _ => s

def unitIn (st : UState) : MUnit := { st := st, prior := .absent, forTest := false }

def allUnits (st : UState) : Units :=
  { array := (List.range 16).map (fun n => (n, unitIn st)), side := (List.range 4).map (fun n => (n, unitIn st)),
    region := (List.range 4).map (fun n => (n, unitIn st)), port := (List.range 16).map (fun n => (n, unitIn st)) }

def hostUp : HostPort := { HostPort.init with up := true, credReq := 4, credWd := 4 }

/-- A ready engine in run: every unit LIVE, four host ports and port 0 up with credits, the host holds the token, T at 5 ms. -/
def up : State :=
  { State.reset with
    boot := { State.reset.boot with resetAsserted := false, ready := true, phase := 5, fuse := 0xFFFF },
    time := { t := 5000000, held := false, stale := false, refclk := true, calibrated := true },
    units := allUnits .live,
    hp := [(0, hostUp), (1, hostUp), (2, hostUp), (3, hostUp)],
    mp := [(0, { MemPort.init with up := true, credReq := 4, credWd := 4 })],
    mnt := { State.reset.mnt with holder := 1 } }

/-- The same with a session in which the management controller holds the token. -/
def mgmt : State := { up with mnt := { up.mnt with holder := 2 }, sbd := { up.sbd with session := true } }

/-- The head of a vendor-defined message to M1, of instance 5. -/
def head : SbdHead := { pen := sbdPen, inst := 5 }

/-- A unit put into a state. -/
def inState (s : State) (k : UnitKind) (n : Nat) (st : UState) : State := { s with units := setUnit s.units k n (unitIn st) }

/-- A context-table entry: enabled, every array, rings of 16, completion ring at 0x1000, tensor table at 0x2000, two slots of 16
rows, residency 1 MiB from 0x100000, RNG slots at 0x3000, save area at 0x4000. -/
def entry : List W64 :=
  [0x0001FFFF00000001, 0x800, 0x10000, 0x1000, 0x900, 0, 0x404, 0x2000, 16, 0xA00, 7, 0, 0x0010000200000000, 0, 0,
   0x0010000000100000, 0x3000, 0x4000] ++ List.replicate 14 0

def admitted (ring : W32) (d : List W64) : Adm :=
  { ring := ring, desc := d, entries := [], params := [], variants := [], ent := entry, key := 0, stream := 0, epoch := 0,
    emitted := 0, total := none, doneSubs := 0, absent := false, variant := 0, shapeV := 0, flags := 0, result := none, prior := none, copied := [], active := none,
    lastRead := 0, mask := none, stats := [] }

def active (ds : List Adm) : Context := { Context.init with ent := entry, st := 1, admitted := ds }

/-- Context 0 active with admitted descriptors. -/
def withDescs (ds : List Adm) : State := { up with ctxs := [(0, active ds)] }

/-- A descriptor of an opcode with its next three words. -/
def word4 (op : Nat) (a b c : W64) (d : W64 := 0) : List W64 := [BitVec.ofNat 64 op, a, b, c, d, 0, 0, 0]

/-- The status that the record of ring index `i` in context 0 will carry. -/
def statusOf (t : State) (i : W32) : Option Status := ((findAdm (getCtx t 0) i).bind (·.result)).map (·.status)

/-- A dense tensor-table entry: base, format code, dimensions, row stride in 64 B, allocation, space; generation 7. -/
def tensor (base fmt d0 d1 stride alloc : Nat) (space : Nat := 0) : List W64 :=
  [BitVec.ofNat 64 (base + space * 2 ^ 57), BitVec.ofNat 64 (fmt * 2 ^ 32 + 2 ^ 43 + 7), BitVec.ofNat 64 (d0 + d1 * 2 ^ 32),
   BitVec.ofNat 64 stride, 0, BitVec.ofNat 64 alloc, 0, 0]

/-- A tile of M rows, one column and K = 1: E4M3 operands 1 and 2, FP32 output 3. -/
def tileDesc (op m : Nat) : List W64 :=
  [BitVec.ofNat 64 op, 0x0003000000020001, 0, BitVec.ofNat 64 (m + 2 ^ 17 + 2 ^ 28 + 2 ^ 49), 0, 0, 0, 0]

def tileEntries : Tbl (List W64) := [(1, tensor 0x8000 3 16 1 1 1024), (2, tensor 0x9000 3 1 1 1 64), (3, tensor 0xA000 0 16 1 1 1024)]

def tileAdm (op m : Nat) : Adm := { admitted 1 (tileDesc op m) with entries := tileEntries }

/-- Activations 1.0 and 2.0 (E4M3 0x38, 0x40), weight 1.5 (0x3C). -/
def tileBytes : Mems := { host := [(0x8000, 0x38), (0x8040, 0x40), (0x9000, 0x3C)], spad := [] }

/-- A read and a write of a descriptor on a port. -/
def readReq : PortReq :=
  { op := 0, addr := 0x8000, asid := 0, len := 2, cls := 1, aop := 0, data := [], owner := .desc 0 1, arrived := 0, retried := false }
def writeReq : PortReq := { readReq with op := 1, addr := 0xA000, data := [1, 2] }

/-! ### Queue, tick, invariant -/

theorem witness_StepRunsFront : ∃ c rest, ({ up with pending := [.idcode, .idcode] } : State).pending = c :: rest := ⟨_, _, rfl⟩

theorem witness_IdleStepTicks : up.pending = [] ∧
    (match step up with | .next t => t.time.t == 5000001 | _ => false) = true := by decide +kernel

theorem up_inv : Inv up := ⟨by decide +kernel, by decide +kernel, by decide +kernel, by decide +kernel⟩

theorem witness_StepKeepsInvariant : ∃ t, Inv up ∧ step up = .next t := ⟨_, up_inv, rfl⟩

theorem witness_CommandsKeepSurroundings : ∃ t, exec .refclkLoss up = .next t := ⟨_, rfl⟩

theorem witness_EveryCommandRuns :
    (∀ e ∈ (getMp up 0).rdOut, ¬(e.1 = (5 : BitVec 12).toNat ∧ e.2.op = 0)) ∧
    (∀ e ∈ (getHp up 0).initOut, ¬(e.1 = (5 : BitVec 12).toNat ∧ e.2.op = 0)) ∧
    (∀ e ∈ (getMp up 0).wrOut ++ (getMp up 0).rdOut, ¬(e.1 = (5 : BitVec 12).toNat ∧ (e.2.op ≠ 0 ∨ (0 : BitVec 3) ≠ 0))) ∧
    (∀ i ∈ [Instr.mppRdReceive (.mem 0) 5 [1] .clean false, .mppRdReceive (.host 0) 5 [1] .clean false, .mppRspReceive (.mem 0) 5 0 0,
      .mppRspReceive (.host 0) 5 1 0], run i up (fun t => decide (t = up)) = true) := by decide +kernel

def event (cls : BitVec 3) : FlogEntry := flogBase up cls 5 0x01 3 0

theorem witness_FaultLogRecordsEvents :
    (event 3).cls ≠ 1 ∧ mergeAt up (event 1) = none ∧ 3 ≤ (event 3).cls.toNat ∧ up.sbd.queue.length < 16 ∧
    mergeAt (logFault up (event 1)) (event 1) = some 0 ∧
    (tget (event 1) (logFault (logFault up (event 1)) (event 1)).flog.entries 0).count = 2 ∧
    16 ≤ ((List.range 17).foldl (fun s _ => logFault s (event 3)) up).sbd.queue.length ∧
    ((List.range 17).foldl (fun s _ => logFault s (event 3)) up).sbd.ovf = true := by decide +kernel

/-! ### Resets -/

/-- In retention array 0 was LIVE; it and its region are tested. -/
def retained : State :=
  { up with boot := { up.boot with pstate := 3, retained := [{ kind := .array, unit := 0 }] } }

theorem witness_WarmResetRuns :
    up.boot.off = false ∧ up.boot.resetAsserted = false ∧ up.boot.phase ≠ 6 ∧ up.boot.ready = true ∧ up.boot.pstate ≠ 3 ∧
    hostAnswers up 0 = true ∧ up.mnt.holder = 1 ∧ sbdTakes mgmt head = true ∧ mgmt.sbd.session = true ∧ mgmt.mnt.holder = 2 ∧
    mgmt.boot.ready = true ∧ mgmt.boot.pstate ≠ 3 ∧ mgmt.boot.phase ≠ 6 ∧
    retained.boot.ready = true ∧ retained.boot.pstate = 3 ∧ retained.boot.phase ≠ 6 ∧ warmState retained .array 0 = .live ∧
    run .rstWarmNFall retained (fun t => unitSt t .array 0 == .testing && !t.boot.ready) = true := by decide +kernel

/-- A write of a descriptor has left port 0 when the warm reset comes. -/
def writeOut : State :=
  { up with mp := [(0, { MemPort.init with up := true, wrOut := [(2048, writeReq)] })] }
def warmWaiting : State := after .rstWarmNFall writeOut

theorem witness_warmResetWaits :
    outstanding up = false ∧ outstanding writeOut = true ∧ writeOut.boot.ready = true ∧
    warmWaiting.boot.phase = 6 ∧ warmWaiting.boot.ready = false ∧ retainedLeft warmWaiting = false ∧ warmWaiting.boot.warmHeld = false ∧
    warmWaiting.boot.heldNotify = [] ∧ warmWaiting.boot.heldSide = [] ∧ warmWaiting.pwr.nextTarget = none ∧
    (getMp warmWaiting 0).wrOut.map (fun e => (e.1, e.2.op, e.2.owner)) = [((2048 : BitVec 12).toNat, 1, .lost)] ∧
    (getMp warmWaiting 0).rdOut = [] ∧ outstanding (setMp warmWaiting 0 { getMp warmWaiting 0 with wrOut := [] }) = false ∧
    run (.mppRspReceive (.mem 0) 2048 0 0) warmWaiting (fun t => t.boot.ready && t.boot.phase == 5) = true := by decide +kernel

theorem test_warmResetHeldBeforeReady :
    run .rstWarmNFall { up with boot := { up.boot with ready := false, phase := 4 } } (fun t => t.boot.warmHeld) = true := by decide +kernel

theorem witness_TokenGuardsRequests :
    hostAnswers mgmt 0 = true ∧ mgmt.mnt.holder ≠ 1 ∧ sbdTakes mgmt head = true ∧
    ({ mgmt with mnt := { mgmt.mnt with holder := 0 } } : State).mnt.holder ≠ 2 ∧ mgmt.sbd.session = true ∧
    run (.unitDisable 0 { kind := .array, unit := 0 }) mgmt (fun t => t.mnt.refused && unitSt t .array 0 == .live) = true := by
  decide +kernel

theorem witness_ArrayResetClears :
    hostAnswers up 0 = true ∧ up.mnt.holder = 1 ∧ unitSt (inState up .array 2 .disabled) .array 2 = .disabled ∧
    unitSt (inState up .array 2 .fenced) .array 2 = .fenced ∧ unitSt up .array 2 ≠ .disabled ∧ unitSt up .array 2 ≠ .fenced ∧
    run (.arrayReset 0 2) (setArr (inState up .array 2 .disabled) 2 { ArrayS.init with cnt := [(0, 9)], link := [{ ctx := 0, ring := 0, h := 0, c := 0, group := 0, rows := [] }] })
      (fun t => (getArr t 2).cnt.isEmpty && (getArr t 2).link.isEmpty) = true ∧
    run (.arrayReset 0 2) up (fun t => t.mnt.refused) = true := by decide +kernel

theorem witness_ContextAbortEndsContext :
    hostAnswers (withDescs [tileAdm 1 2]) 0 = true ∧ (getCtx (withDescs [tileAdm 1 2]) 0).st = 1 ∧ (getCtx (withDescs []) 1).st ≠ 1 ∧
    (getCtx (withDescs [tileAdm 1 2]) 0).aborting = false ∧
    run (.contextAbort 0 0) (withDescs [tileAdm 1 2]) (fun t => (getCtx t 0).st == 1 && (getCtx t 0).aborting && (getCtx t 0).cqWritten == 0) = true ∧
    run (.contextAbort 0 0) (withDescs []) (fun t => (getCtx t 0).st == 2) = true := by decide +kernel

def aborting : State := after (.contextAbort 0 0) (withDescs [tileAdm 1 2])

theorem witness_abortRecords :
    (getCtx aborting 0).st = 1 ∧ (getCtx aborting 0).aborting = true ∧ recordsGo aborting = true ∧ (hostPortFor aborting 0).isSome = true ∧
    abortQuiet aborting 0 = true ∧ (getCtx aborting 0).admitted.map (·.ring) = [1] ∧ ceStatusBase entry = 0 ∧ dIrq (tileDesc 1 2) = false ∧
    recordAddr entry 0 + 32 ≤ 2 ^ 57 ∧
    run (.completionRecord 0) aborting (fun t => (getCtx t 0).st == 2 && (getCtx t 0).cqWritten == 1 &&
      rdLe t.mems .mem 0x1004 2 == 0x140) = true := by decide +kernel

/-! ### Boot, clocks, islands -/

def goodBoot : BootReport :=
  { upto := 5, otpOk := true, refclkOk := true, noLock := [], oneLock := [], badBanks := [(0, 5)], failArrays := [1] }

theorem witness_ColdBootReachesReady :
    State.reset.boot.resetAsserted = true ∧ State.reset.boot.warmHeld = false ∧ State.reset.boot.heldNotify = [] ∧
    State.reset.boot.heldSide = [] ∧ State.reset.boot.ready = false ∧ State.reset.boot.fail = false ∧ State.reset.boot.stopped = false ∧
    State.reset.pwr.nextTarget = none ∧ (∀ n ∈ [0, 1, 2, 3], (badOf goodBoot n).length ≤ 4) ∧
    ((0xFFFF : BitVec 16) = State.reset.cfg.otp &&& BitVec.ofNat 16 (2 ^ (4 * State.reset.cfg.regions) - 1)) ∧
    (⟨0, by decide⟩ : ArrId) ∉ goodBoot.failArrays ∧
    run (.coldBoot { goodBoot with upto := 2 }) State.reset (fun t => !t.boot.ready && t.boot.phase == 3 && sidebandAnswers t) = true ∧
    run (.coldBoot goodBoot) State.reset (fun t => t.boot.ready && unitSt t .array 0 == .live && unitSt t .array 1 == .fenced &&
      (getRgn t 0).spares == [5]) = true := by decide +kernel

theorem witness_ColdBootStopsInItsPhase :
    State.reset.boot.resetAsserted = true ∧ State.reset.boot.ready = false ∧
    run (.coldBoot { goodBoot with otpOk := false }) State.reset (fun t => t.boot.phase == 1 && t.boot.stopped) = true ∧
    run (.coldBoot { goodBoot with refclkOk := false }) State.reset (fun t => t.boot.phase == 2) = true ∧
    run (.coldBoot { goodBoot with noLock := [59] }) State.reset (fun t => t.boot.phase == 2 && t.boot.stopped) = true ∧
    run (.coldBoot goodBoot) { State.reset with cfg := { State.reset.cfg with otp := 0 } } (fun t => t.boot.phase == 4 && t.boot.stopped) = true ∧
    up.boot.resetAsserted = false := by decide +kernel

theorem witness_TimeClocksAndDroops :
    up.boot.off = false ∧ up.boot.resetAsserted = false ∧ up.time.calibrated = true ∧ up.time.refclk = true ∧
    up.time.t < (5000001 : W64).toNat ∧ (4999999 : W64).toNat < up.time.t ∧ (5000000 : W64).toNat = up.time.t ∧
    ({ up with time := { up.time with calibrated := false } } : State).time.calibrated = false ∧
    run (.timestampSample 4999999) up (fun t => t.time.held && tget 0 t.tlm.cnt 9 == 1) = true ∧
    run .refclkLoss up (fun t => t.boot.stopped && t.mnt.mainDown && t.mnt.holder == 0) = true := by decide +kernel

def standby (i : Nat) : State := setIsl up i { Island.init with standby := true }

theorem witness_IslandFaultsAreContained :
    (∀ i ∈ [0, 15, 16, 23, 24, 27, 28, 35, 36, 51, 52, 55, 56, 57, 58, 59], islandRuns up i = true ∧ islandRuns (standby i) i = true) ∧
    (∀ i ∈ [0, 15], run (.islandFault (Fin.ofNat 60 i)) up (fun t => unitSt t .array i == .fenced) = true) ∧
    (∀ i ∈ [16, 23, 28, 35, 56], run (.islandFault (Fin.ofNat 60 i)) up (fun t => (getIsl t i).standby && unitSt t .region (i % 4) == .live) = true) ∧
    (∀ i ∈ [16, 23, 28, 35], run (.islandFault (Fin.ofNat 60 i)) (standby i) (fun t => unitSt t .region (i % 4) == .fenced) = true) ∧
    (∀ i ∈ [24, 27], run (.islandFault (Fin.ofNat 60 i)) up (fun t => unitSt t .side (i - 24) == .fenced) = true) ∧
    (∀ i ∈ [36, 51], run (.islandFault (Fin.ofNat 60 i)) up (fun t => unitSt t .port (i - 36) == .fenced) = true) ∧
    (∀ i ∈ [52, 55], run (.islandFault (Fin.ofNat 60 i)) up (fun t => (getHp t (i - 52)).dead) = true) ∧
    (∀ i ∈ [56, 57, 59], run (.islandFault (Fin.ofNat 60 i)) (standby i) (fun t => t.boot.stopped) = true) := by decide +kernel

/-! ### Ports -/

def atomicReq : PortReq := { readReq with op := 2, addr := 0xB000, len := 8, aop := 1, data := leBytes 8 3 }

def portWith (x : MemPort) : State := { withDescs [tileAdm 1 2] with mp := [(0, { x with up := true, credReq := 4, credWd := 4 })] }
def hostsDown : State := { up with hp := (List.range 4).map (fun p => (p, { hostUp with up := false, lastUp := 4000000 })) }
def item : Crossing := { src := 36, dst := 20, read := readReq }

/-- An item in the crossing of port 0, which holds back another read. -/
def crossed : State := { portWith { MemPort.init with held := [{ readReq with addr := 0x8080 }] } with xing := [{ item with src := 37 }, item] }

theorem witness_PortsCreditsAndCrossings :
    (getHp up 0).up = true ∧ (getHp hostsDown 0).up = false ∧ nextHost up 0 = some 1 ∧ unitSt (inState up .port 0 .absent) .port 0 = .absent ∧
    unitSt up .port 0 = .live ∧ nextPort up 0 = some 1 ∧ (∀ j, j < 4 → (getHp hostsDown j).up = false ∧ (getHp hostsDown j).lastUp + 1000000 ≤ 5000000) ∧
    nextHost { up with hp := [(0, hostUp)] } 0 = none ∧ hpLive up 0 = true ∧
    run (.memoryPortDown 0) (portWith { MemPort.init with rdQ := [readReq], rdOut := [(3, { readReq with addr := 0x8040 })] })
      (fun t => unitSt t .port 0 == .fenced && (getMp t 1).rdQ.length == 2) = true ∧
    run (.mppCreditReturn (.host 0) 1 1) { up with hp := [(0, { hostUp with credReq := 0, credWd := 0, initQ := [writeReq] })] }
      (fun t => (getHp t 0).initQ.isEmpty && (getHp t 0).initOut.length == 1) = true ∧
    copying crossed 0 1 = none ∧ (crossed.xing.filter (portXing 0)).length ≤ crossed.cfg.xingCap ∧
    run (.hostPortUp 0) { hostsDown with flog := { up.flog with irqMore := true }, regs := { up.regs with irqEn := true, irqAddr := 0x5000 } }
      (fun t => t.flog.irqWait && (getHp t 0).up) = true ∧
    run (.crossingTransfer 36 20 3) crossed (fun t => t.xingOut == [item] && t.xing.map (fun x => (x.src, x.read.addr)) == [(37, 0x8000), (36, 0x8080)] &&
      (getMp t 0).held.isEmpty) = true ∧
    run (.crossingTransfer 36 20 3) { crossed with mp := [] } (fun t => t.xingOut == [item] && t.xing.map (·.src) == [37]) = true := by decide +kernel

/-- The crossing from port 0's island to its region's is full. -/
def xingBusy : State :=
  { portWith { MemPort.init with rdOut := [(3, readReq)] } with xing := List.replicate 8 item }

theorem witness_ReadDataArrives :
    (getMp (portWith { MemPort.init with rdOut := [(3, readReq)] }) 0).rdOut.find? (fun e => e.1 == (3 : BitVec 12).toNat && e.2.op == 0) =
      some ((3 : BitVec 12).toNat, readReq) ∧ readReq.owner = .desc 0 1 ∧ readReq.retried = false ∧
    xingFull (portWith { MemPort.init with rdOut := [(3, readReq)] }) 0 = false ∧ copying (portWith { MemPort.init with rdOut := [(3, readReq)] }) 0 1 = none ∧
    xingFull xingBusy 0 = true ∧ writePends xingBusy 0x8001 = false ∧ reached 3 (addEvent [] up.time.t) = false ∧
    (∃ d ∈ (getCtx xingBusy 0).admitted, d.ring = 1 ∧ d.result = none) ∧ ((getCtx xingBusy 0).admitted.map (·.ring)).Nodup ∧
    run (.mppRdReceive (.mem 0) 3 [7, 8] .clean false) xingBusy (fun t => t.xing == xingBusy.xing && (getMp t 0).held == [readReq]) = true ∧
    run (.mppRdReceive (.mem 0) 3 [7, 8] .clean true) (portWith { MemPort.init with rdOut := [(3, { readReq with retried := true })] })
      (fun t => statusOf t 1 == some .unrecoverable && t.flog.written == 1) = true ∧
    run (.mppRdReceive (.mem 0) 3 [7, 8] .uncorrectable false) (portWith { MemPort.init with rdOut := [(3, readReq)] })
      (fun t => (getMp t 0).ue == 1 && (getMp t 0).rdQ.map (·.retried) == [true]) = true ∧
    run (.mppRdReceive (.mem 0) 3 [7, 8] .corrected false) (portWith { MemPort.init with rdOut := [(3, readReq)] })
      (fun t => rdByte t.mems .mem 0x8001 == 8 && (getMp t 0).ce == 1) = true ∧
    run (.mppRdReceive (.mem 0) 3 [7, 8] .clean true) (portWith { MemPort.init with rdOut := [(3, readReq)] })
      (fun t => rdByte t.mems .mem 0x8001 == 0 && (getMp t 0).rdQ.length == 1) = true := by decide +kernel

def readTag : State := portWith { MemPort.init with rdOut := [(3, readReq)] }
def writeTag : State := portWith { MemPort.init with wrOut := [(2048, writeReq)] }
def atomicTag : State := portWith { MemPort.init with rdOut := [(4, atomicReq)] }

theorem witness_ResponsesEndRequests :
    (getMp writeTag 0).wrOut.find? (fun e => e.1 == (2048 : BitVec 12).toNat) = some ((2048 : BitVec 12).toNat, writeReq) ∧
    writeReq.op = 1 ∧ writeReq.owner = .desc 0 1 ∧ copying writeTag 0 1 = none ∧
    (getMp atomicTag 0).wrOut.find? (fun e => e.1 == (4 : BitVec 12).toNat) = none ∧
    (getMp atomicTag 0).rdOut.find? (fun e => e.1 == (4 : BitVec 12).toNat && e.2.op == 2) = some ((4 : BitVec 12).toNat, atomicReq) ∧
    atomicReq.owner = .desc 0 1 ∧ ceLedger (getCtx atomicTag 0).ent = false ∧
    (∃ d ∈ (getCtx atomicTag 0).admitted, d.ring = 1 ∧ d.result = none) ∧ ((getCtx atomicTag 0).admitted.map (·.ring)).Nodup ∧
    (getMp readTag 0).wrOut.find? (fun e => e.1 == (3 : BitVec 12).toNat) = none ∧
    (getMp readTag 0).rdOut.find? (fun e => e.1 == (3 : BitVec 12).toNat) = some ((3 : BitVec 12).toNat, readReq) ∧
    run (.mppRspReceive (.mem 0) 3 1 0) readTag (fun t => statusOf t 1 == some .xlateFault) = true ∧
    run (.mppRspReceive (.mem 0) 4 0 5) atomicTag (fun t => rd64 t.mems .mem 0xB000 == 8) = true ∧
    run (.mppRspReceive (.mem 0) 2048 1 0) writeTag (fun t => statusOf t 1 == some .xlateFault) = true := by decide +kernel

/-! ### Registers, token, units -/

theorem witness_RegisterWritesTakeEffect :
    hostAnswers up 0 = true ∧ anyActive up = false ∧ anyActive (withDescs []) = true ∧
    ((3 : Nat) ≠ 4 ∧ (3 : Nat) ≠ 8) ∧ (0x3C : BitVec 21).toNat % 8 ≠ 0 ∧ readReg (wake up) ((0x1000 : BitVec 21).toNat / 8 * 8) = none ∧
    run (.registerWrite 0 0x40 8 0x111) up (fun t => t.regs.sideThreshold == 8 && t.regs.sideFallback) = true ∧
    run (.registerWrite 0 0x40 8 16) up (fun t => t.regs.sideThreshold == 16) = true ∧
    run (.registerWrite 0 0x30 8 0x5FFF) up (fun t => t.regs.ctxBase == 0x5000) = true ∧
    run (.registerWrite 0 0x3C 8 1) up (fun t => (getHp t 0).resp == .err) = true := by decide +kernel

theorem witness_TokenVersionAndOwnership :
    hostAnswers up 0 = true ∧ sidebandAnswers mgmt = true ∧ mgmt.sbd.session = true ∧ mgmt.mnt.holder = 2 ∧
    ({ mgmt with mnt := { mgmt.mnt with holder := 1 } } : State).mnt.holder = 1 ∧ mgmt.mnt.mainDown = false ∧ up.mnt.holder ≠ 2 ∧
    anyActive up = false ∧ (3 : BitVec 4) ≠ 0 ∧ up.mnt.holder = 1 ∧
    run (.hostSpeaksWrite 0 3) up (fun t => t.regs.speaks == 3 && t.regs.agreed == 1) = true ∧
    run (.streamOwnerWrite 0 7 0x6) (inState up .array 2 .fenced) (fun t => t.mnt.streamArrays == 4 && t.mnt.streamCtx == 7) = true ∧
    sbdTakes mgmt head = true ∧ run (.ownership true head) { mgmt with mnt := { mgmt.mnt with holder := 1, mainDown := true } } (fun t => t.mnt.holder == 2) = true := by
  decide +kernel

def arr0 : UnitSel := { kind := .array, unit := 0 }
def rgn1 : UnitSel := { kind := .region, unit := 1 }

/-- Port 0 is the only port in service of region 0. -/
def lastPort : State := [1, 2, 3].foldl (fun s j => inState s .port j .disabled) up

theorem witness_UnitRequestsChangeStates :
    hostAnswers up 0 = true ∧ up.mnt.holder = 1 ∧ unitSt (inState up .array 0 .absent) .array 0 = .absent ∧
    unitSt up .array 0 ≠ .absent ∧ regionOf .array 0 < up.cfg.regions ∧ unitSt up .array 0 = .live ∧
    unitSt (inState up .array 0 .testing) .array 0 ≠ .live ∧ unitSt (inState up .array 0 .disabled) .array 0 = .disabled ∧
    unitSt up .region (regionOf .array 0) = .live ∧ (up.boot.phase ≠ 6 ∨ up.boot.ready = true) ∧ (∀ j ∈ [1, 2, 3], unitSt lastPort .port j ≠ .live) ∧
    unitSt lastPort .port 0 = .live ∧
    run (.unitDisable 0 { kind := .port, unit := 0 }) lastPort (fun t => unitSt t .region 0 == .fenced) = true ∧
    run (.unitEnable 0 arr0) (inState (inState up .array 0 .disabled) .region 0 .disabled) (fun t => unitSt t .array 0 == .disabled && t.flog.written == 1) = true ∧
    run (.unitEnable 0 rgn1) (inState (inState up .region 1 .disabled) .array 4 .disabled) (fun t => unitSt t .region 1 == .testing) = true ∧
    run (.unitDisable 0 arr0) up (fun t => unitSt t .array 0 == .draining) = true ∧
    run (.unitForceDisable 0 rgn1) up (fun t => unitSt t .region 1 == .disabled && unitSt t .array 4 == .disabled) = true ∧
    run (.unitFence 0 arr0) up (fun t => unitSt t .array 0 == .fenced && t.flog.written == 1) = true ∧
    run (.unitEnable 0 arr0) (inState up .array 0 .disabled) (fun t => unitSt t .array 0 == .testing &&
      (getRgn t 0).running == [{ code := 1, array := 0 }]) = true := by decide +kernel

def report (pass : Bool) : TestReport := { pass := pass, badBanks := [7], failArrays := [1], failSide := false, failPorts := [] }

/-- Region 0 and its units in test. -/
def testing0 : State :=
  setRgn { up with units := (allUnits .testing) } 0 { Region.init with running := [{ code := 1, array := 0 }] }

theorem witness_DrainsAndTestsSettleUnits :
    unitSt up .array 0 ≠ .draining ∧ unitSt (inState up .array 0 .draining) .array 0 = .draining ∧
    drained (inState up .array 0 .draining) .array 0 = true ∧ (getUnit (inState up .array 0 .draining).units .array 0).forTest = false ∧
    unitSt up .array 0 ≠ .testing ∧ unitSt testing0 .array 0 = .testing ∧ testRuns testing0 .array 0 = true ∧ testRuns testing0 .array 1 = false ∧
    (testing0.boot.phase ≠ 6 ∨ testing0.boot.ready = true) ∧ unitSt testing0 .region 0 = .testing ∧ (∀ j ∈ [0, 1, 2, 3], unitSt testing0 .port j = .testing) ∧
    run (.unitTestDone { kind := .region, unit := 0 } { report true with failPorts := [0, 1, 2, 3] }) testing0 (fun t => unitSt t .region 0 == .fenced) = true ∧
    (report true).badBanks.length ≤ 4 ∧
    run (.unitDrainDone arr0) (inState up .array 0 .draining) (fun t => unitSt t .array 0 == .disabled) = true ∧
    run (.unitDrainDone arr0) { up with units := setUnit up.units .array 0 { st := .draining, prior := .live, forTest := true } }
      (fun t => unitSt t .array 0 == .testing) = true ∧
    run (.unitTestDone { kind := .region, unit := 0 } (report true)) testing0
      (fun t => unitSt t .region 0 == .live && unitSt t .array 0 == .live && unitSt t .array 1 == .fenced && (getRgn t 0).spares == [7]) = true ∧
    run (.unitTestDone { kind := .region, unit := 0 } (report false)) testing0 (fun t => unitSt t .region 0 == .fenced) = true ∧
    run (.unitTestDone arr0 (report false)) testing0 (fun t => unitSt t .array 0 == .fenced) = true := by decide +kernel

/-! ### Maintenance and power -/

def snap (s : State) : State := { s with regs := { s.regs with snapBase := 0x100000, periodMs := 1 } }
def scrubbing : State := setRgn mgmt 0 { Region.init with running := [{ code := 0, array := 0 }] }

theorem witness_MaintenanceStarts :
    hostAnswers up 0 = true ∧ up.mnt.holder = 1 ∧ sbdTakes mgmt head = true ∧ mgmt.sbd.session = true ∧ mgmt.mnt.holder = 2 ∧
    mgmt.boot.ready = true ∧ maintRegion up 0 = true ∧ maintRegion mgmt 0 = true ∧ (getRgn up 0).running = [] ∧ (getRgn up 0).queued = [] ∧
    (snap up).regs.snapBase ≠ 0 ∧ (∀ n ∈ [0, 1, 2, 3], snapBusy (snap up) n = false) ∧
    xlateAt (snap up).env (snap up).regs.engineAsid (snap up).regs.snapBase.toNat 0x41000 = none ∧
    run (.arraySelfTest (.host 0) 0) up (fun t => unitSt t .array 0 == .draining) = true ∧
    run (.arraySelfTest (.host 0) 0) (inState up .array 0 .fenced) (fun t => unitSt t .array 0 == .testing) = true ∧
    run (.journalCompaction (.mgmt head) 0) (setRgn mgmt 0 { Region.init with journal := [(3, { a := [1], b := [], lostA := false, lostB := true })] })
      (fun t => (getRgn t 0).journal == [(3, { a := [1], b := [1], lostA := false, lostB := false })]) = true := by decide +kernel

theorem witness_MaintenanceQueuesAndRuns :
    (getRgn scrubbing 0).running = [{ code := 0, array := 0 }] ∧ (getRgn scrubbing 0).queued = [] ∧ maintRegion scrubbing 0 = true ∧
    ¬compatible { code := 0, array := 0 } { code := 2, array := 0 } ∧ maintRegion (inState mgmt .region 0 .disabled) 0 = false ∧
    run (.islandRecalibration (.mgmt head) 0) scrubbing (fun t => (getRgn t 0).queued.length == 1 && t.sbd.resp == .done 0x12 5 0x01 []) = true ∧
    run (.maintQueuedStart 0 none) (setRgn up 0 { Region.init with queued := [(.host, { code := 3, array := 0 })] })
      (fun t => (getRgn t 0).running == [{ code := 3, array := 0 }]) = true ∧
    (up.boot.phase ≠ 6 ∨ up.boot.ready = true) ∧ actBusy scrubbing 0 { code := 0, array := 0 } = true ∧ actBusy up 0 { code := 2, array := 0 } = false ∧
    maintRegion up 0 = true ∧ (getRgn up 0).running = [] ∧
    run (.maintActivityEnd 0 { code := 4, array := 0 } true 0x8) (setRgn up 0 { Region.init with running := [{ code := 4, array := 0 }] })
      (fun t => (getRgn t 0).lanes == 0xFFFFFFF7 && !(getRgn t 0).selfPass) = true ∧
    run (.maintActivityEnd 0 { code := 1, array := 0 } false 0)
      (inState (setRgn up 0 { Region.init with running := [{ code := 1, array := 0 }] }) .array 0 .testing)
      (fun t => unitSt t .array 0 == .fenced) = true ∧
    run (.autoScrub 0) up (fun t => (getRgn t 0).running == [{ code := 0, array := 0 }]) = true ∧
    (∀ n : RgnId, maintRegion (snap up) n.val = true ∧ (getRgn (snap up) n.val).running = [] ∧ (getRgn (snap up) n.val).queued = []) ∧
    (snap up).regs.periodMs ≠ 0 := by decide +kernel

theorem witness_PowerStatesFollowTargets :
    hostAnswers up 0 = true ∧ up.boot.pstate ≠ 3 ∧ up.boot.ready = true ∧ retentionAllowed up = true ∧ retentionAllowed (withDescs []) = false ∧
    retained.boot.pstate = 3 ∧ up.boot.pstate = 0 ∧ up.pwr.autoIdle = true ∧ noWork up = true ∧ noWork (withDescs [tileAdm 1 2]) = false ∧
    run (.pstateRetention 0) up (fun t => t.boot.pstate == 3 && t.boot.retained.length == 36) = true ∧
    run .retentionPortGate retained (fun t => t.boot.gated && !hostAnswers t 0) = true ∧
    run .idleEntry up (fun t => t.boot.pstate == 2) = true := by decide +kernel

def arraysAt (mhz : Nat) : State := { up with pwr := { up.pwr with capArray := mhz } }
def temps (x : Int) : List Int := x :: List.replicate 31 400

theorem witness_PowerAndThermalControl :
    up.boot.off = false ∧ up.boot.pstate ≠ 3 ∧ up.pwr.cfg.fFloor.toNat ≤ up.pwr.capArray ∧ up.pwr.capArray ≤ arrayTop up.pwr ∧
    1000 * capInForce up < 650001 ∧ up.pwr.cfg.fFloor.toNat < up.pwr.capArray ∧ (arraysAt 400).pwr.capArray = (arraysAt 400).pwr.cfg.fFloor.toNat ∧
    800 < up.pwr.capSide ∧ 100 * 636999 < 98000 * capInForce up ∧ 98000 * capInForce up ≤ 100 * 650000 ∧ 650000 ≤ 1000 * capInForce up ∧
    (arraysAt 1500).pwr.capArray < arrayTop up.pwr ∧ 1600 ≤ up.pwr.capStaging ∧ 2000 ≤ up.pwr.capSide ∧
    (temps 1759).length = 32 ∧ (∀ x ∈ temps 1759, x < 1760) ∧ up.boot.stopped = false ∧
    run (.powerControlInterval 650001 []) up (fun t => t.pwr.capArray == 1575) = true ∧
    run (.powerControlInterval 650001 []) (arraysAt 400) (fun t => t.pwr.capSide == 1975) = true ∧
    run (.powerControlInterval 636999 []) (arraysAt 1500) (fun t => t.pwr.capArray == 1525) = true ∧
    run (.thermalInterval (temps 1521)) up (fun t => tget 0 t.pwr.thermal 0 == 1575 && tget 0 t.pwr.thermal 1 == 0 && t.pwr.throttled) = true ∧
    run (.thermalInterval (temps 1760)) up (fun t => t.boot.stopped) = true := by decide +kernel

/-! ### Doorbells, rings, admission, records -/

def based (s : State) : State := { s with regs := { s.regs with ctxBase := 0x40000 } }
def booting : State := { up with boot := { up.boot with ready := false, phase := 4 } }
/-- The entry in memory, where the context table has context 0. -/
def tableBytes : Mems := wrBytes { host := [], spad := [] } .mem 0x40000 (wordBytes entry)
def polled : State := { up with regs := { up.regs with pollNs := 5, pollCur := 1000 }, ctxs := [(0, { active [] with ent := setFld entry 0 4 4 1 })] }

theorem witness_NotifiesReadDoorbells :
    hostAnswers booting 0 = true ∧ booting.boot.ready = false ∧ hostAnswers up 0 = true ∧ up.boot.ready = true ∧ up.regs.ctxBase = 0 ∧
    (based up).regs.ctxBase ≠ 0 ∧ waitPolled (based up) 0 = false ∧ polled.regs.pollCur ≠ 0 ∧
    run (.doorbellNotify 0 0) booting (fun t => t.boot.heldNotify == [(0, 0)]) = true ∧
    run (.doorbellNotify 0 0) (based up) (fun t => (getCtx t 0).activating) = true ∧
    run (.doorbellNotify 0 0) (based (withDescs [])) (fun t => (getCtx t 0).dbRead) = true ∧
    run .dbPoll polled (fun t => (getCtx t 0).dbRead) = true := by decide +kernel

/-- A context to be activated, its entry in memory. -/
def activating (ms : Mems) : State := { based up with mems := ms, ctxs := [(0, { Context.init with activating := true })] }
def badBytes : Mems := wrBytes { host := [], spad := [] } .mem 0x40000 (wordBytes (setFld entry 0 55 48 0))

theorem witness_ActivationReadsEntry :
    (getCtx (activating tableBytes) 0).activating = true ∧ running (activating tableBytes) = true ∧
    (hostPortFor (activating tableBytes) 0).isSome = true ∧ xlateAt (activating tableBytes).env 0 0x40000 256 = none ∧
    ceEnable (rdWords tableBytes .mem 0x40000 32) = true ∧ ceValid (rdWords tableBytes .mem 0x40000 32) = true ∧
    xlateAt (activating tableBytes).env 0 0x3000 128 = none ∧ ceEnable (rdWords badBytes .mem 0x40000 32) = true ∧
    ceValid (rdWords badBytes .mem 0x40000 32) = false ∧ ceEnable (rdWords up.mems .mem 0x40000 32) = false ∧
    run (.contextActivation 0) (activating tableBytes) (fun t => (getCtx t 0).st == 1 && (getCtx t 0).ent == entry) = true ∧
    run (.contextActivation 0) (activating badBytes) (fun t => (getCtx t 0).st == 3) = true ∧
    run (.contextActivation 0) (activating up.mems) (fun t => (getCtx t 0).st == 0) = true := by decide +kernel

def ringing : State := { up with ctxs := [(0, { active [] with dbRead := true })] }

theorem witness_DoorbellValueRules :
    (getCtx ringing 0).st = 1 ∧ (getCtx ringing 0).dbRead = true ∧ (hostPortFor ringing 0).isSome = true ∧
    ((0x100000001 : W64) >>> 32).toNat ≠ ceRingEpoch entry ∧ ((17 : W64) >>> 32).toNat = ceRingEpoch entry ∧
    2 ^ ceSqLog2 entry < ((17 : W32) - (getCtx ringing 0).retire).toNat ∧ ((16 : W32) - (getCtx ringing 0).retire).toNat ≤ 2 ^ ceSqLog2 entry ∧
    run (.doorbellValue 0 16) ringing (fun t => (getCtx t 0).producer == 16) = true ∧
    run (.doorbellValue 0 17) ringing (fun t => (getCtx t 0).producer == 0 && (getCtx t 0).dbOverrun) = true ∧
    run (.doorbellValue 0 0x100000001) ringing (fun t => (getCtx t 0).producer == 0 && !(getCtx t 0).dbOverrun) = true := by decide +kernel

def produced : State := { up with ctxs := [(0, { active [] with producer := 2 })], mems := wrLe up.mems .mem 0x10040 8 0x28 }
def waitingCq : State := { up with ctxs := [(0, { active [] with cqWritten := 16, cqWait := true, cqRead := true })] }

/-- A FENCE in format version 1. -/
def fenceDesc : List W64 := word4 0x128 0 0 0
def slotRead : State := after (.descriptorFetch 0) produced

theorem witness_FetchAndHeadReads :
    (getCtx produced 0).st = 1 ∧ (hostPortFor produced 0).isSome = true ∧ running produced = true ∧
    ((getCtx produced 0).producer - (getCtx produced 0).fetch).toNat ≤ 2 ^ ceSqLog2 entry ∧ (getCtx waitingCq 0).cqWait = true ∧
    cqRoom (getCtx waitingCq 0) = false ∧
    run (.descriptorFetch 0) produced (fun t => (getCtx t 0).fetched.map (fun x => (x.1, dOpcode x.2)) == [(0, 0), (1, 0x28)]) = true ∧
    (getHp slotRead 0).initOut.map (fun e => (e.1, e.2.op, e.2.owner)) = [(0, 0, .desc 0 0), (1, 0, .desc 0 1)] ∧
    run (.mppRdReceive (.host 0) 1 (wordBytes fenceDesc) .clean false) slotRead (fun t => !slotPending t 0 1 && slotPending t 0 0 &&
      (getCtx t 0).fetched.map (fun x => dOpcode x.2) == [0, 0x28] && (getAcct t 0).rdBytes == 64) = true ∧
    run (.cqHeadRead 0 1) waitingCq (fun t => !(getCtx t 0).cqWait && (getCtx t 0).cqHead == 1) = true := by decide +kernel

def fetched (d : List W64) (x : Context) : State := { up with ctxs := [(0, { x with fetched := [(1, d)] })] }
/-- A FENCE of tensor 1, behind a MASKSET that writes it. -/
def fenceOne : List W64 := word4 0x28 1 0 0
def maskBusy : State :=
  fetched fenceOne (active [{ admitted 0 [0x12, 0x0000000700050001, 0, 0, 0, 0, 0, 0] with
    mask := some { phase := 1, sweep := 0, region := 0, sieve := [], sel := [], promotions := 0, spillNeed := 0, toverNeed := 0, flags := 0, jent := none } }])
/-- An opcode that the table does not have. -/
def badDesc : List W64 := word4 0x1FF 0 0 0

theorem witness_AdmissionAdmitsOrRejects :
    let s := fetched fenceDesc (active [])
    let l := lookAll s 0 fenceDesc
    let l0 : Look := { ents := [], params := [], variants := [], bytes := 0, stop := none }
    (getCtx s 0).st = 1 ∧ running s = true ∧ (hostPortFor s 0).isSome = true ∧ (getCtx s 0).fetched = [(1, fenceDesc)] ∧
    controlHeld (active [admitted 0 fenceDesc]) = true ∧ controlHeld (getCtx s 0) = false ∧ slotPending s 0 1 = false ∧ maskHeld s 0 fenceDesc = false ∧
    maskHeld maskBusy 0 fenceOne = true ∧ slotPending (after (.descriptorFetch 0) produced) 0 0 = true ∧
    cqRoom (getCtx waitingCq 0) = false ∧ cqRoom (getCtx s 0) = true ∧
    checkAt entry 1 l0 false fenceDesc 0x01 = none ∧ checkAt entry 1 l0 false fenceDesc 0x02 = none ∧ l.stop = none ∧
    firstFailure entry 1 l false fenceDesc = none ∧ ownsArray s 0 (stArray fenceDesc) = false ∧
    checkAt entry 1 l0 false (word4 0x128 0 1 0) 0x01 = none ∧ (firstFailure entry 1 l false (word4 0x128 0 1 0)).isSome = true ∧
    run (.admission 0) s (fun t => (getCtx t 0).admitted.map (·.ring) == [1]) = true ∧
    run (.admission 0) (fetched badDesc (active [])) (fun t => statusOf t 1 == some .badOpcode) = true ∧
    run (.admission 0) (fetched fenceDesc { active [] with cqWritten := 16 }) (fun t => (getCtx t 0).cqWait) = true := by decide +kernel

def doneNop : State := { up with ctxs := [(0, { active [{ admitted 1 (word4 0 0 0 0) with result := some (plainResult .ok) }] with doneQ := [1] })] }

theorem witness_CompletionRecordsAreWritten :
    (getCtx doneNop 0).st = 1 ∧ recordsGo doneNop = true ∧ (hostPortFor doneNop 0).isSome = true ∧
    (nextRecord doneNop 0).map (·.2) = some (plainResult .ok) ∧
    run (.completionRecord 0) doneNop (fun t => rdLe t.mems .mem 0x1004 4 == 0x100 && (getCtx t 0).cqWritten == 1 &&
      (getCtx t 0).admitted.isEmpty) = true := by decide +kernel

/-! ### Dispatch, binding, slots, Tempo -/

/-- A GEMM of `m` rows admitted at ring index 1, its operands in memory. -/
def tile (m : Nat) : State := { withDescs [tileAdm 1 m] with mems := tileBytes }
def begun : State := { withDescs [{ tileAdm 1 16 with total := some 1 }] with mems := tileBytes }
def job16 : Job := jobOf (tileAdm 1 16) 0

theorem witness_DispatchEmitsInFoldOrder :
    (getCtx begun 0).admitted.find? (fun e => !emittedAll e) = some { tileAdm 1 16 with total := some 1 } ∧
    opCompute (dOpcode (tileDesc 1 16)) = true ∧ dispatchable begun 0 { tileAdm 1 16 with total := some 1 } = true ∧
    regionsOf begun 0xFFFF = [0, 1, 2, 3] ∧ operandAbsent begun { tileAdm 1 16 with total := some 1 } = false ∧
    laneRegions begun (drawsBits (sizedDesc (tileAdm 1 16))) [0, 1, 2, 3] = [0, 1, 2, 3] ∧
    chooseRegion begun 0 2 7 ([0, 1, 2, 3].filter (fun q => decide (boardOf begun q < 1024))) = some 0 ∧
    specPends begun 0 { tileAdm 1 16 with total := some 1 } = false ∧ pairRegions begun 0 job16 [0, 1, 2, 3] = [0, 1, 2, 3] ∧
    (residencyStep begun 0 1 0 true job16).isSome = true ∧ sideRouted begun 0 job16 = false ∧
    run (.dispatch 0 0) begun (fun t => (getRgn t 0).queue.map (fun u => (u.ring, u.rows, u.h, u.c, u.g)) == [(1, 16, 0, 0, 0)]) = true ∧
    run (.dispatch 0 2) begun (fun t => t.boot.stopped && t.flog.written == 2) = true := by decide +kernel

/-- The one sub-tile of that GEMM, waiting in region 0. -/
def waiting : SubTile := { subAt (tile 16) 0 (tileAdm 1 16) job16 0 false 0 with entered := 0 }
def queued : State := setRgn begun 0 { Region.init with queue := [waiting] }

theorem witness_BindingTakesJournalEntry :
    running queued = true ∧ isLive queued .region 0 = true ∧ (pickNext queued 0).1 = some waiting ∧
    bindArray queued 0 waiting = some 0 ∧ (subJob queued waiting 0).isSome = true ∧ freeJournal (getRgn queued 0) = some 0 ∧
    runMates queued 0 waiting = [] ∧
    run (.bindSubtile 0 none) queued (fun t => (getArr t 0).bound.map (·.array) == [some 0] && thas (getRgn t 0).journal 0) = true := by
  decide +kernel

/-- Two heads of a run, of 128 bank rows each. -/
def head0 : SubTile := { waiting with bandRows := 128 }
def head1 : SubTile := { head0 with h := 1 }
def queuedRun : State :=
  let s : State := { withDescs [{ tileAdm 1 16 with total := some 1, emitted := 1 }] with mems := tileBytes }
  setRgn s 0 { Region.init with queue := [head0, head1] }

theorem witness_bindingOfARun :
    running queuedRun = true ∧ isLive queuedRun .region 0 = true ∧ (pickNext queuedRun 0).1 = some head0 ∧ bindArray queuedRun 0 head0 = some 0 ∧
    (subJob queuedRun head0 0).isSome = true ∧ freeJournal (getRgn queuedRun 0) = some 0 ∧ runMates queuedRun 0 head0 = [head1] ∧
    run (.bindSubtile 0 none) queuedRun (fun t => (getArr t 0).bound.map (fun u => (u.h, u.array, u.jent)) == [(0, some 0, some 0), (1, some 0, some 1)] &&
      (getRgn t 0).queue.isEmpty) = true := by decide +kernel

/-- The sub-tile bound to array 0, without and with its accumulation slot. -/
def bare : SubTile := { waiting with array := some 0, jent := some 0, order := 1 }
def held : SubTile := { bare with slot := some { backed := false, num := 0, region := 0 } }
def onArray (u : SubTile) (x : ArrayS) : State := setArr begun 0 { x with bound := [u] }

/-- Region control has `n` copies, of which copy 1 has disagreed twice. -/
def oddCopies (n : Nat) : State := setRgn up 0 { Region.init with ctlCopies := n, ctlTimes := [(1, [4900000, 4800000])] }

theorem witness_SlotsAndRelief :
    running (onArray bare ArrayS.init) = true ∧ slotQueue (onArray bare ArrayS.init) 0 = [bare] ∧
    freeSlotOf (onArray bare ArrayS.init) 0 0 = some 0 ∧ bare.array = some 0 ∧ bare ∈ (getArr (onArray bare ArrayS.init) 0).bound ∧
    slotQueue (onArray held ArrayS.init) 0 = [] ∧ queued.regs.starveUs ≠ 0 ∧ oldestLow queued 0 = some waiting ∧
    waitFrom (getRgn queued 0) waiting + 1000 * queued.regs.starveUs.toNat ≤ queued.time.t ∧
    ({ queued with regs := { queued.regs with starveUs := 0 } } : State).regs.starveUs = 0 ∧
    99999 < waitFrom (getRgn queued 0) waiting + 1000 * queued.regs.starveUs.toNat ∧
    regionServes up 0 = true ∧ (getRgn up 0).queued = [] ∧ (getRgn up 0).ctlCopies = 3 ∧ reached 3 (addEvent [] up.time.t) = false ∧
    reached 3 (addEvent (tget [] (getRgn (oddCopies 3) 0).ctlTimes 1) up.time.t) = true ∧ (getRgn (oddCopies 2) 0).ctlCopies ≠ 3 ∧
    run (.maintQueuedStart 0 (some 1)) up (fun t => t.flog.written == 1 && (getRgn t 0).ctlCopies == 3) = true ∧
    run (.maintQueuedStart 0 (some 1)) (oddCopies 3) (fun t => (getRgn t 0).ctlCopies == 2) = true ∧
    run (.maintQueuedStart 0 (some 1)) (oddCopies 2) (fun t => unitSt t .region 0 == .fenced) = true ∧
    run (.slotAssign 0 none) (onArray bare ArrayS.init) (fun t => (getRgn t 0).slots == [(0, 0)]) = true ∧
    run (.starvationRelief 0 none) queued (fun t => (getRgn t 0).relief == [0]) = true := by decide +kernel

/-- A context of period 1,000 ns whose step ended 300 ns late. -/
def late : State := { up with ctxs := [(0, { active [] with ent := setFld entry 0x58 31 0 1000, tempo := { Tempo.init with fin := 1000, lastDone := 1300 } })] }

theorem witness_TempoPeriodsAdvance :
    (getCtx late 0).st = 1 ∧ ceTempoNs (getCtx late 0).ent ≠ 0 ∧ (getCtx late 0).tempo.fin ≤ late.time.t ∧ (getCtx late 0).tempo.openRings = [] ∧
    1 ≤ ceTempoNs (setFld entry 0x58 31 0 999) ∧ ceTempoNs (setFld entry 0x58 31 0 999) < 1000 ∧
    -- F = 1000 / 4 = 250 of the 300 ns are made up: the period ends at 1,300 + 1,000 - 250, 50 ns remain
    run (.tempoPeriodEnd 0) late (fun t => (getCtx t 0).tempo.fin == 2050 && (getCtx t 0).tempo.late == 50) = true := by decide +kernel

/-! ### Rows -/

def freshLoad : Load :=
  { key := keyOf job16 held 0, band := 0, preload := false, nextRow := 0, total := 256, parity := 0, restarted := false, cycle := 0, bytes := 0 }
def loading : State := onArray held { ArrayS.init with loads := [freshLoad] }

/-- Array 0 runs one work alone, and it is of this kind. -/
def alone (s : State) (p : Work → Bool) : Bool :=
  match works s 0 with
  | [(w, _)] => p w
  | _ => false
def lane0 (t : State) : Lane := getLane (getArr t 0) 0
def aloneWhole (s : State) : Bool :=
  alone s (fun w => w.role == .whole && w.e.band == 0 && w.t.array == some 0 && slotReady w.t w.d && (specOf (getArr s 0) w.t).isNone)

theorem witness_shadowLoad :
    arrayRuns loading 0 = true ∧ (currentLoad loading 0).2.map (fun x => (x.1, x.2.2.1, x.2.2.2.1, x.2.2.2.2.isSome)) = some (freshLoad, held, 0, true) ∧
    needsTsp job16 = false ∧ rowHere (currentLoad loading 0).1 0 (loadOwner 0 freshLoad held) job16 held 0 0 = true ∧ (getArr loading 0).lanes = [] ∧ freshLoad.parity = 0 ∧
    (getArr (currentLoad loading 0).1 0).parityTimes = [] ∧ mergeAt (currentLoad loading 0).1 (flogBase (currentLoad loading 0).1 1 1 0x06 0 0) = none ∧
    run (.shadowLoadRow 0 false .clean) loading (fun t => (getArr t 0).loads.map (fun l => (l.nextRow, l.cycle)) == [(1, 1)] &&
      ((getArr t 0).shadow.rows.map (fun r => r.cells.map (·.value)) == [[0x3C]])) = true ∧
    run (.shadowLoadRow 0 true .clean) loading (fun t => (getArr t 0).loads.map (fun l => (l.nextRow, l.parity, l.cycle)) == [(0, 1, 1)]) = true := by
  decide +kernel

def slottedBank : Bank :=
  { shadowPut tileBytes job16 held 0 0 Bank.init with mode := passModeOf (jobMode job16) false, key := some freshLoad.key }
def fullLoad : Load := { freshLoad with nextRow := 256, cycle := 256 }
def loaded : State := onArray held { ArrayS.init with loads := [fullLoad], shadow := slottedBank }
/-- A Castle came in cycle 9; the last row is still to be written. -/
def castleHeld : State :=
  onArray held { ArrayS.init with loads := [{ fullLoad with nextRow := 255, cycle := 255 }], shadow := slottedBank, bus := 255,
                                  lanes := [(0, { Lane.init with castleReq := some 9 })], cycle := 12 }

theorem witness_passCastle :
    aloneWhole loaded = true ∧ aloneWhole loading = true ∧ aloneWhole castleHeld = true ∧
    (∀ s ∈ [loaded, loading, castleHeld], alone s (stagedHere s 0) = true ∧ (getCtx s 0).aborting = false ∧
      (lane0 s).castleRs = .clean ∧ arrayRuns s 0 = true ∧ passOn (lane0 s) = false ∧ (getArr s 0).delay = []) ∧ held.bandRows = 256 ∧
    alone loaded (fun w => loadFor (getArr loaded 0) w == some fullLoad && fullLoad.key == keyOf w.j w.e w.e.passesDone) = true ∧
    alone loading (fun w => !loadDone (getArr loading 0) w) = true ∧ (currentLoad castleHeld 0).2.map (fun x => x.1.nextRow) = some 255 ∧
    rowHere (currentLoad castleHeld 0).1 0 (loadOwner 0 freshLoad held) job16 held 0 255 = true ∧
    run (.passCastle 0 .clean) loaded (fun t => (getArr t 0).active.key == some freshLoad.key && (lane0 t).sent.length == 256 &&
      (getArr t 0).cycle == 257 && (getArr t 0).loads.all (·.preload)) = true ∧
    run (.passCastle 0 .clean) loading (fun t => (lane0 t).castleReq == some 0 && (getArr t 0).cycle == 1) = true ∧
    run (.shadowLoadRow 0 false .clean) castleHeld (fun t => (lane0 t).castleReq == none && (lane0 t).sent.length == 256 &&
      (getArr t 0).cycle == 257 && tget 0 (getArr t 0).cnt 0 == 247) = true := by
  decide +kernel

/-- The Castle has taken place, and the reads of the first four rows, which it asked for, have arrived. -/
def passing : State := { after (.passCastle 0 .clean) loaded with mp := [] }

theorem witness_BroadcastKeepsElasticBounds :
    arrayRuns passing 0 = true ∧ aloneWhole passing = true ∧ passOn (lane0 passing) = true ∧ (lane0 passing).castled ≤ (getArr passing 0).cycle ∧
    delayDue (getArr passing 0) ((getArr passing 0).cycle + 1) = false ∧ alone passing (zReady passing.mems) = true ∧
    run (.rowBroadcast 0 [] [] []) passing (fun t => (lane0 t).results.map (fun q => (q.row, q.sums)) == [(0, [0x3FC00000])]) = true ∧
    -- R23: a row whose reads are under way waits
    run (.rowBroadcast 0 [] [] []) (after (.passCastle 0 .clean) loaded) (fun t => (lane0 t).results.isEmpty && (lane0 t).asked == 4) = true ∧
    run (.rowBroadcast 0 [5] [] []) passing (fun t => (lane0 t).results.isEmpty && tget 0 (getArr t 0).cnt 1 == 1) = true := by
  decide +kernel

/-- Row 0 has been broadcast, without and with a flipped sign bit in column 0. -/
def rowSent (upset : List (Nat × W32)) : State := after (.rowBroadcast 0 [] [] upset) passing
def firstRow (s : State) (p : RowRes → Bool) : Bool := (lane0 s).results.head?.any p

theorem witness_RowChecksAcceptOrReplay :
    (∀ s ∈ [rowSent [], rowSent [(0, 0x80000000)]], aloneWhole s = true ∧ firstRow s (fun q => !q.accepted) = true ∧ (getArr s 0).missTimes = [] ∧
      alone s (fun w => w.t.misses == 0 && (getArr s 0).bound == [w.t]) = true ∧ (getArr s 0).delay = []) ∧
    firstRow (rowSent []) (fun q => checkVerdict q == some true) = true ∧ firstRow (rowSent [(0, 0x80000000)]) (fun q => checkVerdict q == some false) = true ∧
    run (.rowCheck 0) (rowSent []) (fun t => (lane0 t).results.all (·.accepted)) = true ∧
    run (.rowCheck 0) (rowSent [(0, 0x80000000)]) (fun t => (lane0 t).results.isEmpty && tget 0 (getArr t 0).cnt 4 == 1 &&
      (lane0 t).sent == List.replicate 256 0) = true := by decide +kernel

def rowChecked : State := after (.rowCheck 0) (rowSent [])
/-- The sub-tile `u` on array 0, its checked row with number `row` released. -/
def atRow (u : SubTile) (row : Nat) : State :=
  onArray u { getArr rowChecked 0 with lanes := [(0, { lane0 rowChecked with
    results := (lane0 rowChecked).results.map (fun q => { q with row := row }), taken := List.replicate 257 (row + 1), drain := List.replicate 257 0 })] }
/-- The mark is at the last row, in the only pass; in the first of two passes; a band of 128 rows. -/
def lastRow : State := atRow { held with rowMark := 15 } 15
def lastOfTwo : State := atRow { held with rowMark := 15, passes := 2 } 15
/-- The first row of the first of two passes, its partial in the slot's scratchpad. -/
def padPart : State := atRow { held with passes := 2 } 0
def inBand : State := atRow { held with bandRows := 128 } 0
/-- The commit of the row writes nothing at or above 2^57, and no statistics or accumulator output with it. -/
def commitWithin (s : State) : Bool :=
  alone s (fun w => (commitReady s 0 w (lane0 s)).any (fun q => (rowOut s w.j w.t q).writes.all (fun y =>
    y.sp != .mem || decide (y.addr + y.bytes.length ≤ 2 ^ 57))) && pRstat w.j.p == 0 && dAccOut w.j.d == 0)

theorem sideWithin_of (j : Job) (t : SubTile) (row : Nat) (h : pRstat j.p = 0) (g : dAccOut j.d = 0) : SideWithin j t row :=
  ⟨fun _ w hw => by simp [statWrite, h] at hw, fun k => absurd g k⟩

def commits (s : State) (row : Nat) : Bool :=
  arrayRuns s 0 && aloneWhole s && commitWithin s && !(getCtx s 0).aborting && alone s (fun w => (getArr s 0).bound == [w.t] && ((commitReady s 0 w (lane0 s)).map (·.row)) == some row)

theorem witness_RowCommitsMoveTheMark :
    commits rowChecked 0 = true ∧ commits lastRow 15 = true ∧ commits lastOfTwo 15 = true ∧ commits inBand 0 = true ∧
    alone padPart (fun w => w.t.passesDone + 1 != w.t.passes && (commitReady padPart 0 w (lane0 padPart)).any (fun q => q.row + 1 < w.t.rows &&
      (rowOut padPart w.j w.t q).writes.any (fun y => y.sp != .mem && !y.bytes.isEmpty))) = true ∧
    alone lastRow (fun w => w.t.passesDone + 1 == w.t.passes) = true ∧ alone lastOfTwo (fun w => w.t.passesDone + 1 != w.t.passes) = true ∧
    run (.rowCommit 0 none .clean) rowChecked (fun t => (getArr t 0).bound.map (·.rowMark) == [1] && rdLe t.mems .mem 0xA000 4 == 0x3FC00000) = true ∧
    run (.rowCommit 0 none .clean) lastRow (fun t => (getArr t 0).bound.isEmpty && statusOf t 1 == some .ok) = true ∧
    run (.rowCommit 0 none .clean) lastOfTwo (fun t => (getArr t 0).bound.map (fun u => (u.passesDone, u.rowMark)) == [(1, 0)]) = true ∧
    run (.rowCommit 0 none .uncorrectable) rowChecked (fun t => (lane0 t).results.isEmpty && (lane0 t).sent == List.replicate 256 0 &&
      (getArr t 0).bound.map (·.flags.toNat) == [held.flags.toNat ||| 128] && (tget none (t.flog.entries.map (fun e => (e.1, some e.2.source))) 0) == some 0x11) = true ∧
    run (.rowCommit 0 none .uncorrectable) inBand (fun t => unitSt t .array 0 == .fenced && (getArr t 0).bound.isEmpty) = true := by
  decide +kernel

/-- FUSED2 of 16 rows with 512 columns of W1: two W1 groups, the second product one column. -/
def fusedWide : Adm :=
  { admitted 1 [2, 0x0003000000020001, 0, BitVec.ofNat 64 (16 + 2 ^ 17 + 2 ^ 28 + 2 ^ 49), 0, 0, 0, 0x0004000300000000] with
    entries := [(1, tensor 0x8000 3 16 1 1 1024), (2, tensor 0x9000 3 1 512 8 512), (3, tensor 0xA000 0 16 1 1 1024), (4, tensor 0x10000 3 512 1 1 32768)],
    total := some 1 }
def fusedState : State := { withDescs [fusedWide] with mems := tileBytes }
def fusedSub : SubTile := { subAt fusedState 0 fusedWide (jobOf fusedWide 0) 0 false 1 with array := some 0, jent := some 0, slot := held.slot }
/-- The sub-tile on array 0 with a checked and released row, and a link buffer. -/
def fusedAt (u : SubTile) (row : Nat) (l : List LinkHalf) : State :=
  setArr fusedState 0 { ArrayS.init with
    bound := [u], link := l, cycle := 20,
    lanes := [(0, { Lane.init with
      sent := List.replicate 256 (row + 1), taken := List.replicate 257 (row + 1), drain := List.replicate 257 0
      results := [{ row := row, cycle := 9, sums := [0x3F800000], ycheck := 0, isInt := false, allow := 0, skip := true, accepted := true, flags := 0 }] })] }
def half (g rows : Nat) : LinkHalf :=
  { ctx := 0, ring := 1, h := 0, c := 0, group := g, rows := (List.range rows).map (fun i => { row := i, codes := [0x38], shift := 0, soft := (0, 0) }) }
/-- The lead at W1 group 0; both halves taken while it stands at group 2; the follower in its first pass, at a row. -/
def leading : State := fusedAt fusedSub 0 []
def linkFull : State := setArr (fusedAt fusedSub 0 [half 1 1, half 2 1]) 0 { getArr (fusedAt fusedSub 0 [half 1 1, half 2 1]) 0 with lanes := [] }
def following (row : Nat) : State := fusedAt { fusedSub with fuse := { fusedSub.fuse with leadG := 1, followRow := row } } row [half 0 16]
def fusedCommits (s : State) (r : Role) (p : Work → Bool) : Bool :=
  arrayRuns s 0 && alone s (fun w => w.role == r && p w && (commitReady s 0 w (lane0 s)).isSome)

/-- The partials of a pass before the last, with no spill pass and no softmax, lie in the sub-tile's scratchpad slot. -/
theorem passWrites_within (s : State) (j : Job) (t : SubTile) (n i : Nat) (accs : List ElemAcc) (sl : SlotRef) (ha : dAccOut j.d = 0)
    (hd : dDet j.d = false) (hw : jobWide j = .none) (hs : isSoft j = false) (ht : t.slot = some sl) (hb : sl.backed = false) :
    Within (passWrites s j t n i accs) := by
  intro w hm hsp
  simp [passWrites, hd, hw, hs, pairWrites, partialAt, ha, ht, slotBase, hb] at hm
  rcases hm with rfl | rfl <;> cases hsp

theorem fusedWrites_within (s : State) (j : Job) (t : SubTile) (row : Nat) (f : SoftRow) (sl : SlotRef) (ha : dAccOut j.d = 0)
    (hd : dDet j.d = false) (hw : jobWide j = .none) (hs : isSoft j = false) (ht : t.slot = some sl) (hb : sl.backed = false) :
    Within (fusedWrites s j t false row f) := by
  intro w hm
  simp only [fusedWrites, Bool.false_eq_true, if_false, List.append_nil, List.mem_flatMap] at hm
  obtain ⟨g, -, hg⟩ := hm
  exact passWrites_within s j { t with g := g } _ _ _ sl ha hd hw hs ht hb w hg

theorem following_slot : alone (following 15) (fun w => w.t.slot == some { backed := false, num := 0, region := 0 } && dAccOut (w.tile 0).d == 0 &&
    !dDet (w.tile 0).d && jobWide (w.tile 0) == .none && !isSoft (w.tile 0)) = true := by decide +kernel

theorem witness_FusedRowsUseLinkBuffers :
    fusedCommits leading .lead intoLink = true ∧ (∀ n ∈ [0, 15], fusedCommits (following n) .follow (fun w => w.t.passesDone + 1 != w.t.passes) = true) ∧
    alone linkFull (fun w => intoLink w && slotReady w.t w.d && !linkRoom linkFull 0 w.t && !passOn (laneOf (getArr linkFull 0) w)) = true ∧
    (∀ s ∈ [leading, linkFull, following 0, following 15], (getCtx s 0).aborting = false) ∧ alone linkFull (stagedHere linkFull 0) = true ∧
    fusedSub.rows = 16 ∧ fusedSub.passes = 2 ∧ tileGroups (jobOf fusedWide 0) = 1 ∧
    run (.rowCommit 0 none .clean) leading (fun t => (getArr t 0).link.map (fun q => (q.group, q.rows.map (·.row))) == [(0, [0])] &&
      (getArr t 0).bound.map (·.fuse.leadRow) == [1]) = true ∧
    run (.passCastle 0 .clean) linkFull (fun t => tget 0 (getArr t 0).cnt 6 == 1 && (getArr t 0).active == Bank.init) = true ∧
    run (.rowCommit 0 none .clean) (following 0) (fun t => (getRgn t 0).bankReqs.isEmpty && (getArr t 0).bound.map (·.fuse.followRow) == [1]) = true ∧
    run (.rowCommit 0 none .clean) (following 15) (fun t => (getArr t 0).link.isEmpty && (getArr t 0).bound.map (·.passesDone) == [1] &&
      (getAcct t 0).passes == 1) = true := by decide +kernel

def skewRow : DelayRow := { ctx := 0, ring := 1, row := 0, cycle := 3, writes := [{ sp := .spad 0, addr := 0x40, bytes := [1, 2] }, { sp := .mem, addr := 0xA000, bytes := [3] }], frees := none }

theorem witness_SkewedRowsAreDelivered :
    (getArr (onArray held { ArrayS.init with delay := [skewRow] }) 0).delay = [skewRow] ∧ dAccOut job16.d = 0 ∧
    up.boot.off = false ∧ up.boot.pstate = 0 ∧ (∀ y ∈ skewRow.writes, y.sp = .mem → y.addr + y.bytes.length ≤ 2 ^ 57) ∧
    run (.skewedDelivery 0 .uncorrectable) (onArray held { ArrayS.init with delay := [skewRow] })
      (fun t => rdByte t.mems .mem 0xA000 == 3 && (getArr t 0).cycle == 515 && (getArr t 0).delay.isEmpty &&
        (getRgn t 0).bankReqs.map (fun b => (b.cls, b.addr, b.act)) == [(0, 0x40, .write [1, 2])]) = true := by decide +kernel

/-! ### Arbiters, Side Path, staging -/

def bankReq (cls arrived : Nat) (act : BankAct) : BankReq := { cls := cls, addr := 0x140, act := act, arrived := arrived, owner := .maint, frees := none }
def banked (l : List BankReq) : State := setRgn up 0 { Region.init with bankReqs := l, scycle := 2000 }
def ported (l : List PortReq) : State := { up with mp := [(0, { MemPort.init with up := true, credReq := 1, credWd := 1, rdQ := l, wrQ := [writeReq] })] }
def rngReq (cls unit : Nat) : RngReq := { cls := cls, unit := unit, tag := 0, count := 1, arrived := 0 }
/-- Lane 3 of region 0 has differed once, at time `at_`. -/
def laneAt (at_ : Nat) : State := setRgn up 0 { Region.init with laneTimes := [(3, [at_])] }

def scrubbing0 : State := setRgn up 0 { Region.init with running := [{ code := 0, array := 0 }] }
/-- A row's last write-back waits, with the record that moves the mark from row 1 to row 2. -/
def markOld : List W64 := [0x10000, 0, 0x10000, 0, 0, 0, 0, 0]
def markNew : List W64 := [0x10000, 0, 0x20000, 0, 0, 0, 0, 0]
def marking : State :=
  setRgn up 0 { Region.init with
    bankReqs := [{ bankReq 0 0 (.write [7]) with mark := some (0, 0, markNew) }],
    journal := [(0, { a := markOld, b := markOld, lostA := false, lostB := false })] }

theorem witness_bankGrant :
    regionRuns (banked []) 0 = true ∧ bankOf 0x140 = 5 ∧
    -- R23: the lower class first; R24: a request that has waited 1,024 cycles before it
    run (.bankGrant 0 5 .clean none) (banked [bankReq 3 1999 .read, bankReq 1 1999 .read]) (fun t => (getRgn t 0).bankReqs == [bankReq 3 1999 .read]) = true ∧
    run (.bankGrant 0 5 .clean none) (banked [bankReq 3 976 .read, bankReq 1 977 .read]) (fun t => (getRgn t 0).bankReqs == [bankReq 1 977 .read]) = true ∧
    run (.bankGrant 0 6 .clean none) (banked [bankReq 3 0 .read]) (fun t => (getRgn t 0).scycle == 2000 && tget 0 (getRgn t 0).bankNext 6 == 2001) = true ∧
    run (.bankGrant 0 5 .clean none) (banked [bankReq 0 0 (.write [7, 8])]) (fun t => rdByte t.mems (.spad 0) 0x141 == 8 && (getRgn t 0).bankReqs.isEmpty) = true ∧
    -- R284: an atomic's second grant follows its first, whatever waits
    run (.bankGrant 0 5 .clean none) (banked [bankReq 3 1999 (.atomic 1 4 0 false), bankReq 4 1999 .read])
      (fun t => (getRgn t 0).bankReqs == [bankReq 3 1999 (.atomic 1 4 0 true), bankReq 4 1999 .read] && rd64 t.mems (.spad 0) 0x140 == 0) = true ∧
    run (.bankGrant 0 5 .clean none) (banked [{ bankReq 3 1999 (.atomic 1 4 0 true) with owner := .host 0 }, bankReq 0 0 .read])
      (fun t => (getRgn t 0).bankReqs == [bankReq 0 0 .read] && rd64 t.mems (.spad 0) 0x140 == 4) = true ∧
    (getRgn (banked [bankReq 1 0 .read]) 0).bankReqs = [bankReq 1 0 .read] ∧ (banked []).flog.entries = [] ∧ scrubReq (getRgn (banked []) 0) 5 = none ∧
    ofGambit (bankReq 1 0 .read).owner = false ∧
    -- a scrub's first line of bank 5, R377
    regionRuns scrubbing0 0 = true ∧ (scrubReq (getRgn scrubbing0 0) 5).map (fun q => (q.addr, q.cls)) = some (0x140, 4) ∧
    run (.bankGrant 0 5 .clean none) scrubbing0 (fun t => (tget (0, 0) (getRgn t 0).scrub 5) == (1, 1)) = true ∧
    -- R43: the row mark moves with the grant
    regionRuns marking 0 = true ∧ markFits (recordAt marking 0 0) markNew = true ∧ bits (markNew.getD 0 0).toNat 3 1 = 0 ∧ thas (getRgn marking 0).journal 0 = true ∧
    run (.bankGrant 0 5 .clean none) marking (fun t => recordAt t 0 0 == markNew) = true ∧
    run (.bankGrant 0 5 .corrected none) (banked [bankReq 1 0 .read]) (fun t => tget 0 (getRgn t 0).cnt 0 == 1 && t.flog.written == 1 &&
      (getRgn t 0).bankReqs.map (fun b => (b.cls, b.addr, b.act)) == [(4, 0x140, .write [])]) = true := by
  decide +kernel

theorem witness_portGrant :
    unitSt (ported [readReq]) .port 0 = .live ∧ (getMp (ported [readReq]) 0).up = true ∧ 1 ≤ (getMp (ported [readReq]) 0).credReq ∧
    (∀ g ∈ [readReq, writeReq], wdOf g ≤ 1) ∧ (getMp (portWith MemPort.init) 0).rdQ = [] ∧
    wdOf writeReq ≠ 0 ∧ (tagFor (getMp (ported []) 0) writeReq).isSome = true ∧ (getMp (ported []) 0).ueTimes = [] ∧
    run (.portGrant 0 true .corrected) (ported []) (fun t => (getMp t 0).ce == 1 && (getMp t 0).wrQ.isEmpty) = true ∧
    run (.portGrant 0 true .uncorrectable) (ported []) (fun t => (getMp t 0).ue == 1 && (getMp t 0).wrQ == [writeReq] && t.flog.written == 1) = true ∧
    run (.portGrant 0 false .clean) (ported [{ readReq with cls := 3 }, readReq]) (fun t => (getMp t 0).rdOut == [(0, readReq)] && (getMp t 0).credReq == 0) = true ∧
    run (.portGrant 0 true .clean) (ported []) (fun t => (getMp t 0).wrOut == [(2048, writeReq)] && (getMp t 0).credWd == 0) = true := by decide +kernel

theorem witness_rngGrant :
    regionRuns (laneAt 0) 0 = true ∧ (getRgn (laneAt 0) 0).lanes.getLsbD 3 = true ∧ tget [] (getRgn (laneAt 0) 0).laneTimes 3 = [0] ∧
    up.time.t ≤ 4000000 + 1000000 ∧ 3999999 + 1000000 < up.time.t ∧
    run (.rngGrant 0 [3]) (laneAt 4000000) (fun t => (getRgn t 0).lanes == 0xFFFFFFF7 && t.flog.written == 1) = true ∧
    run (.rngGrant 0 [3]) (laneAt 3999999) (fun t => (getRgn t 0).lanes == 0xFFFFFFFF && t.flog.written == 0) = true ∧
    -- R210: 32 live lanes serve four batches of eight in a cycle
    run (.rngGrant 0 []) (setRgn up 0 { Region.init with rngReqs := (List.range 5).map (rngReq 0) })
      (fun t => (getRgn t 0).rngReqs.length == 1 && tget 0 (getRgn t 0).cnt 19 == 1) = true := by decide +kernel

/-- The same GEMM with 2 rows, which region 0's Side Path runs. -/
def job2 : Job := jobOf (tileAdm 1 2) 0
def sideSub : SubTile := { subAt (tile 2) 0 (tileAdm 1 2) job2 0 false 0 with entered := 0, side := true, slot := some { backed := false, num := 0, region := 0 }, fedRow := (0, 1) }
def half0 : SideHalf := { ctx := 0, ring := 1, h := 0, c := 0, g := 0, pass := 0, second := false, bytes := 1 }
def sided (l : List SideHalf) : State := setRgn (tile 2) 0 { Region.init with sideQ := [sideSub], sideHalves := l }
/-- The operands of row 0 have not been asked for. -/
def unfed : State := setRgn (tile 2) 0 { Region.init with sideQ := [{ sideSub with fedRow := (0, 0) }], sideHalves := [half0] }
/-- Two passes: the running one's half is there, the next one's is not. -/
def sided2 : State := setRgn (tile 2) 0 { Region.init with sideQ := [{ sideSub with passes := 2 }], sideHalves := [half0] }

theorem witness_sidePath :
    (∀ s ∈ [sided [], sided [half0], sided [half0, half0], sided2], sideRuns s 0 = true ∧ (sideHead s 0).any (fun w =>
      dotReady s 0 w && !w.t.reread && !slotPending s w.t.ctx w.t.ring && blockHere s 0 w.j w.e 0 && sideFed s 0 w && sideHashed s 0 w && w.role == .whole && w.t.array == none && decide (w.t.rowMark + 1 < w.t.rows)) = true) ∧
    (sideHead (sided []) 0).any (fun w => blockPass w w.e.passesDone == 0 && halfOf (getRgn (sided []) 0) w 0 == none &&
      halfOf (getRgn (sided [half0]) 0) w 0 == some half0) = true ∧
    (sideHead sided2 0).any (fun w => (w.after 0 sideRoles).any (fun v => v.2 == 1 && halfOf (getRgn sided2 0) v.1 v.2 == none)) = true ∧
    (sideHead (sided [half0]) 0).any (fun w => (subZ tileBytes w.j w.e w.e.passesDone).isEmpty && pRstat w.j.p == 0 && dAccOut w.j.d == 0 &&
      (rowOut (sided [half0]) w.j w.t (workRow (sided [half0]) 0 (sideBank tileBytes w.j { w.e with band := 0 } 0) w 0 0 [])).writes.all (fun y =>
        y.sp != .mem || decide (y.addr + y.bytes.length ≤ 2 ^ 57)) &&
      checkVerdict (workRow (sided [half0]) 0 (sideBank tileBytes w.j { w.e with band := 0 } 0) w 0 0 []) != some false) = true ∧
    run (.sideWeightFill 0) (sided []) (fun t => (getRgn t 0).sideHalves == [half0]) = true ∧
    run (.sideWeightFill 0) sided2 (fun t => (getRgn t 0).sideHalves.map (·.pass) == [0, 1]) = true ∧
    run (.sideDotRow 0 [] .clean .clean) (sided []) (fun t => tget 0 (getRgn t 0).cnt 13 != 0 && (getRgn t 0).sideQ == [sideSub]) = true ∧
    run (.sideDotRow 0 [] .clean .clean) (sided [half0]) (fun t => (getRgn t 0).sideQ.map (·.rowMark) == [1] && rdLe t.mems .mem 0xA000 4 == 0x3FC00000) = true ∧
    (sideHead unfed 0).any (fun w => dotReady unfed 0 w && blockHere unfed 0 w.j w.e 0 && !sideFed unfed 0 w) = true ∧
    run (.sideDotRow 0 [] .clean .clean) unfed (fun t => (getRgn t 0).sideQ == [sideSub] && t.mp.any (fun q => !q.2.rdQ.isEmpty)) = true ∧
    run (.sideDotRow 0 [] .uncorrectable .clean) (sided [half0]) (fun t => (getRgn t 0).sideHalves.isEmpty && (getRgn t 0).sideQ == [sideSub] && t.flog.written == 1) = true ∧
    run (.sideDotRow 0 [] .clean .uncorrectable) (sided [half0]) (fun t => (getRgn t 0).sideHalves == [half0] &&
      (getRgn t 0).sideQ.map (fun u => (u.rowMark, u.flags)) == [(0, flReplayed)] && t.flog.written == 1) = true := by
  decide +kernel

/-- An SPMM of 16 rows, one column and K = 4 with an SQ2 weight whose member k = 2 is spilled. -/
def spilled : List W64 := [0x9000, 0x00000820_00000000 ||| 0x0000000300000000 ||| 7, 0x0000000100000004, 0xC000, 0, 0x0000000100000001, 0, 0]
def spmmAdm : Adm :=
  { admitted 1 [3, 0x0003000000020001, 0, BitVec.ofNat 64 (16 + 2 ^ 17 + 4 * 2 ^ 28 + 2 ^ 49), 0, 0, 0, 0] with
    entries := [(1, tensor 0x8000 3 16 4 1 1024), (2, spilled), (3, tensor 0xA000 0 16 1 1 1024)], total := some 1 }
def spmmBytes : Mems := { host := [(0x8002, 0x38), (0xC004, 1), (0xC040, 0x3C), (0xC042, 2)], spad := [] }
def spmmState : State := { withDescs [spmmAdm] with mems := spmmBytes }
def spmmSub : SubTile := { subAt spmmState 0 spmmAdm (jobOf spmmAdm 0) 0 false 1 with array := some 0, slot := held.slot }

theorem witness_spillService :
    regionRuns spmmState 0 = true ∧
    (spillWaiting (setArr spmmState 0 { ArrayS.init with bound := [spmmSub] }) 0).map (fun w => (w.t, w.t.array)) = some (spmmSub, some 0) ∧
    reached 3 (addEvent [] up.time.t) = false ∧
    sideRuns (inState spmmState .side 0 .fenced) 0 = false ∧
    run (.sideSpillService 0 true) (setArr spmmState 0 { ArrayS.init with bound := [spmmSub] })
      (fun t => (getArr t 0).bound == [spmmSub] && tget 0 (getRgn t 0).cnt 7 == 0 && tget 0 (getRgn t 0).cnt 14 == 1 && t.flog.written == 1) = true ∧
    run (.sideSpillService 0 false) (setArr spmmState 0 { ArrayS.init with bound := [spmmSub] })
      (fun t => (getArr t 0).bound.map (·.zPasses) == [1] && tget 0 (getRgn t 0).cnt 7 == 16) = true ∧
    run (.sideSpillService 0 true) (setArr (inState spmmState .side 0 .fenced) 0 { ArrayS.init with bound := [spmmSub] })
      (fun t => tget 0 (getRgn t 0).cnt 8 == 16) = true := by decide +kernel

/-- A TSPMM of an SQ4 weight (T-map SQ4): its rows come from the transposer; the reads of its load have returned. -/
def tspAdm : Adm :=
  { admitted 1 [4, 0x0003000000020001, 0, BitVec.ofNat 64 (16 + 4 * 2 ^ 17 + 2 ^ 28 + 2 ^ 49), 0, 0, 0, 0] with
    entries := [(1, tensor 0x8000 3 16 1 1 1024), (2, [0x9000, 0x0000089300000007, 0x0000000100000004, 0xC000, 0x0000000500000001, 0, 0, 0]),
      (3, tensor 0xA000 0 16 4 1 1024)], total := some 1 }
def tspState : State :=
  let s : State := { withDescs [tspAdm] with mems := tileBytes }
  { (currentLoad (setArr s 0 { ArrayS.init with bound := [{ subAt s 0 tspAdm (jobOf tspAdm 0) 0 false 1 with array := some 0 }] }) 0).1 with mp := s.mp }

/-- A CONV of one 4 x 4 image with one channel and a 1 x 1 filter. -/
def convAdm : Adm :=
  { admitted 1 [6, 0x0003000000020001, 0x0004000000000000, BitVec.ofNat 64 (16 + 2 ^ 17 + 2 ^ 28 + 2 ^ 49), 0, 0, 0, 0] with
    entries := [(1, tensor 0x8000 3 4 4 1 1024), (2, tensor 0x9000 3 1 1 1 64), (3, tensor 0xA000 0 16 1 1 1024)],
    params := [(4, [0, 0, 0, 0, BitVec.ofNat 64 (4 + 4 * 2 ^ 16 + 2 ^ 32 + 2 ^ 49 + 2 ^ 54), 0x1111, 0, 0])], total := some 1 }
def convState (x : ArrayS) (w : List Window) : State :=
  let s : State := { withDescs [convAdm] with mems := tileBytes }
  setRgn (setArr s 0 { x with bound := [{ subAt s 0 convAdm (jobOf convAdm 0) 0 false 1 with array := some 0 }] }) 0 { Region.init with windows := w }
def convWin : Window := { ctx := 0, ring := 1, chunk := 0, head := 0, image := 0, lo := 0, hi := 4, bytes := 16 }
def convPass : State := convState { ArrayS.init with lanes := [(0, { Lane.init with sent := [0], taken := [0] })] } [convWin]

theorem witness_staging :
    arrayRuns tspState 0 = true ∧ regionRuns tspState 0 = true ∧
    (currentLoad tspState 0).2.map (fun x => (needsTsp x.2.1, rowHere (currentLoad tspState 0).1 0 (loadOwner 0 x.1 x.2.2.1) x.2.1 x.2.2.1 x.2.2.2.1 0, x.1.nextRow)) =
      some (true, true, 0) ∧ (getArr (currentLoad tspState 0).1 0).tsp = [] ∧
    alone convPass (fun w => gathered w.j && passOn (laneOf (getArr convPass 0) w) && windowHere convPass 0 w.j w.e && w.e.rows == 16 &&
      gatherNext (getArr convPass 0) w == 0 && w.t.array == some 0 && windowsOf w.j w.e == [convWin]) = true ∧
    alone (convState ArrayS.init []) (fun w => (evictFor (copyInUse (convState ArrayS.init [])) 0 0x100000 16 0 []) == some [] && dOpcode w.j.d == 6) = true ∧
    evictFor (copyInUse (convState ArrayS.init [])) 0 0 16 0 [] = none ∧
    haloSource (convState ArrayS.init [{ convWin with chunk := 0, hi := 2 }]) 0 { convWin with chunk := 1, lo := 1 } =
      some ({ convWin with chunk := 0, hi := 2 }, 0) ∧
    run (.transposerRow 0) tspState (fun t => (getArr t 0).tsp.length == 1) = true ∧
    run (.gatherRow 0 .clean) convPass (fun t => (getArr t 0).gather == [(0, [0x38])]) = true ∧
    run (.gatherRow 0 .uncorrectable) convPass (fun t => (getArr t 0).gather.isEmpty && t.flog.written == 1) = true ∧
    run (.stageWindow 0) (convState ArrayS.init []) (fun t => (getRgn t 0).windows == [convWin]) = true := by decide +kernel

/-! ### Gambit -/

/-- The tensor table of context 0 with the tile's entries, in memory. -/
def tabled (ms : Mems) (es : Tbl (List W64)) : Mems := es.foldl (fun m e => wrBytes m .mem (0x2000 + 64 * e.1) (wordBytes e.2)) ms
/-- Array 0 has a hint for the tile's block, and nothing to do. -/
def predictedKey : BlockKey := keyOf job16 held 0
def hinted : State := { begun with mems := tabled tileBytes tileEntries, gambit := { hist := [], hint := [(0, predictedKey)] } }
def noGambit : State := { hinted with regs := { hinted.regs with preloadEn := false, prefetchEn := false } }

theorem witness_GambitPreloadsAndPrefetches :
    running hinted = true ∧ isLive hinted .array 0 = true ∧ noGambit.regs.preloadEn = false ∧ hinted.regs.preloadEn = true ∧
    predicted hinted 0 = some predictedKey ∧ shadowFree hinted 0 = true ∧ preloadAllowed hinted 0 predictedKey = true ∧
    preloadOk hinted 0 predictedKey = true ∧ noGambit.regs.prefetchEn = false ∧ gambitOn hinted 0 = true ∧
    (regionPredictions hinted 0 0).find? (fun k => preloadOk hinted 0 k && !hasCopy hinted 0 k.ctx k.tensor k.gen) = some predictedKey ∧
    (jent (tensorJob hinted 0 predictedKey) predictedKey.tensor).space = 0 ∧
    (∀ x ∈ weightSpans (tensorJob hinted 0 predictedKey), memAccess hinted 0 x.a x.n = .ok) ∧
    (takeCopy hinted 0 0 0 2 7 (weightFoot (tensorJob hinted 0 predictedKey))).isSome = true ∧
    run (.gambitPreload 0) hinted (fun t => (getArr t 0).loads.map (·.key) == [predictedKey] && t.gambit.hint.isEmpty) = true ∧
    run (.gambitPrefetch 0 0) hinted (fun t => (getRgn t 0).resid.map (fun x => (x.tensor, x.gen)) == [(2, 7)]) = true ∧
    run (.gambitPrefetch 0 0) noGambit (fun t => decide (t = noGambit)) = true := by decide +kernel

/-- A preload of array 0 reads bank 5. -/
def preloading : State :=
  let s := banked [{ bankReq 1 1999 .read with owner := .gambit 0 2 7 (some 0) }]
  setArr s 0 { ArrayS.init with loads := [{ freshLoad with preload := true }] }

theorem witness_gambitReadFails :
    regionRuns preloading 0 = true ∧ (getRgn preloading 0).bankReqs.map (fun g => (bankOf g.addr, g.act, g.owner)) = [(5, .read, .gambit 0 2 7 (some 0))] ∧
    scrubReq (getRgn preloading 0) 5 = none ∧ (getArr preloading 0).loads.map (fun l => (l.preload, l.key.ctx, l.key.tensor, l.key.gen)) = [(true, 0, 2, 7)] ∧
    run (.bankGrant 0 5 .uncorrectable none) preloading (fun t => (getArr t 0).loads.isEmpty && t.flog.written == 0 && tget 0 t.tlm.cnt 3 == 1) = true := by
  decide +kernel

/-- A GEMM of an FP32 weight, three piece passes, held by a WAITV before it. -/
def longAdm : Adm :=
  { admitted 1 [1, 0x0003000000020001, 0, BitVec.ofNat 64 (1 + 2 ^ 17 + 2 ^ 28 + 2 ^ 49), 0, 0, 0, 0] with
    entries := [(1, tensor 0x8000 3 1 1 1 64), (2, tensor 0x9000 0 1 1 1 64), (3, tensor 0x20000 0 1 1 1 1024)] }
def waitAdm (v : W64) (ctl : W64 := 0) : Adm := admitted 0 (word4 0x23 0x5000 v ctl)
def specCtx (w : Adm) : Context := { active [w, longAdm] with waitConf := 2 }
def specState : State :=
  { up with mems := tabled tileBytes longAdm.entries, regs := { up.regs with sideThreshold := 0 }, ctxs := [(0, specCtx (waitAdm 9))] }
def specDone : State := after (.speculativePass 0 0 .clean) specState
/-- The wait has ended, with its record; with an unchanged table, and with another generation in it. -/
def waitOver : State := { specDone with ctxs := [(0, { active [longAdm] with waitConf := 2 })] }
def staleSpec : State := { waitOver with mems := wrLe waitOver.mems .mem 0x2088 4 8 }
def specBuf : SpecBuf := ((getArr specDone 0).spec).getD
  { sub := held, passes := 0, pairs := [], gens := [], shape := none, flags := 0, confirmed := true, limit := 0, conf := 0 }

theorem witness_speculativePass :
    running specState = true ∧ (getArr specState 0).bound = [] ∧ inMask (ceAffinity entry) 0 = true ∧
    specState.regs.confMin.toNat ≤ (getCtx specState 0).waitConf.toNat ∧
    (getCtx specState 0).admitted.find? (fun e => heldByWait specState 0 e) = some longAdm ∧ (getArr specState 0).spec = none ∧
    shapeNow specState 0 longAdm = some none ∧ specShape longAdm none = some longAdm ∧ runsNowhere (jobOf longAdm 0) = false ∧
    specForm specState 0 (jobOf longAdm 0) = true ∧ specElsewhere specState 0 0 1 = false ∧ 0 < specState.regs.specPasses.toNat ∧
    1 < elemPasses (jobOf longAdm 0) ∧ jobWide (jobOf longAdm 0) = .none ∧ followed specState 0 = [] ∧
    (specReads specState 0 (jobOf longAdm 0) (subAt specState 0 longAdm (jobOf longAdm 0) 0 false 0) 0).all (fun x => memAccess specState 0 x.1 x.2 == .ok) = true ∧
    specBuf.limit = specState.regs.specPasses.toNat ∧
    (getArr specDone 0).spec = some specBuf ∧ specBuf.passes = 1 ∧ specBuf.pairs.length = 1 ∧ tget 0 specDone.tlm.cnt 5 = 1 := by
  decide +kernel

theorem witness_specConfirm :
    specBuf.sub.ctx = 0 ∧ specBuf.confirmed = false ∧ findAdm (getCtx specDone 0) specBuf.sub.ring = some longAdm ∧ longAdm.result = none ∧
    longAdm.total = none ∧ waitHeld (getCtx specDone 0) 1 = true ∧ waitHeld (getCtx waitOver 0) 1 = false ∧ specHolds waitOver 0 longAdm specBuf = true ∧
    specHolds staleSpec 0 longAdm specBuf = false ∧ specUnfit waitOver 0 longAdm specBuf = false ∧ dispatchable waitOver 0 longAdm = true ∧ specCanBind waitOver 0 specBuf.sub = true ∧
    (specShape longAdm specBuf.shape).any (fun e => (residencyStep waitOver 0 e.ring 0 true (jobOf e 0)).isNone) = false ∧
    (match (shapeStep waitOver 0 longAdm).next (beginTile 0) with
     | .go s1 d1 => (residencyStep s1 0 d1.ring 0 true (jobOf d1 0)).isSome && d1.ring == 1
     | .stop _ => false) = true ∧
    (∀ e ∈ specDone.arrs, e.1 = 0) ∧ (hostPortFor waitOver 0).isSome = true ∧ running waitOver = true ∧
    run (.specConfirm 0 none) waitOver (fun t => (getArr t 0).bound.map (fun u => (u.ring, u.array)) == [(1, some 0)] &&
      (getArr t 0).spec.map (·.confirmed) == some true) = true ∧
    run (.specConfirm 0 none) staleSpec (fun t => (getArr t 0).spec.isNone && tget 0 t.tlm.cnt 7 == 1) = true ∧
    run (.specConfirm 0 (some 0)) specDone (fun t => (getArr t 0).spec.isNone && tget 0 t.tlm.cnt 7 == 1) = true ∧
    run (.specConfirm 0 none) specDone (fun t => (getArr t 0).spec == some specBuf) = true := by decide +kernel

/-! ### Replay, mask operations -/

/-- The sub-tile left array 1 after 5 rows of its pass. -/
def strayed : SubTile := { bare with array := some 1, rowMark := 5 }
def replaying : State := setRgn begun 0 { Region.init with replayQ := [{ strayed with order := 2, jent := some 1 }, strayed], journal := [(0, { a := [], b := [], lostA := false, lostB := false })] }
def noArrays : State := { replaying with units := { replaying.units with array := [] } }

/-- The earlier of two sub-tiles restarts: its descriptor is read again first. -/
def rereading : State := setRgn replaying 0 { getRgn replaying 0 with replayQ := [{ strayed with reread := true }] }

/-- Its descriptor rounds stochastically, and the only region that works has no lane left. -/
def laneless : State :=
  let d : Adm := { tileAdm 1 16 with desc := (tileDesc 1 16).set 5 1, total := some 1 }
  let s : State := [1, 2, 3].foldl (fun s r => inState s .region r .fenced) { withDescs [d] with mems := tileBytes }
  setRgn s 0 { getRgn replaying 0 with lanes := 0 }

theorem witness_ReplaysRebindOrEnd :
    running replaying = true ∧ replayNext (getRgn (moveStranded replaying 0) 0) = some strayed ∧ (subDesc replaying strayed).isSome = true ∧
    regionsOf (moveStranded replaying 0) (ceAffinity entry) = [0, 1, 2, 3] ∧ slotPending replaying 0 1 = false ∧
    (subDesc replaying strayed).any (fun d => laneRegions (moveStranded replaying 0) (drawsBits (sizedDesc d)) [0, 1, 2, 3] == [0, 1, 2, 3] &&
      replayPlace (moveStranded replaying 0) 0 (asOwn (jobOf d 0) strayed) d == some (0, 0) && (residencyStep (moveStranded replaying 0) 0 1 0 true (jobOf d 0)).isSome) = true ∧
    replayEntry (moveStranded replaying 0) 0 0 strayed = some 0 ∧
    replayNext (getRgn (moveStranded rereading 0) 0) = some { strayed with reread := true } ∧ memAccess rereading 0 (slotAddr entry 1) 64 = .ok ∧
    regionsOf (moveStranded laneless 0) (ceAffinity entry) = [0] ∧ replayNext (getRgn (moveStranded laneless 0) 0) = some strayed ∧
    (subDesc laneless strayed).any (fun d => drawsBits (sizedDesc d) && laneRegions (moveStranded laneless 0) true [0] == [] && d.result.isNone) = true ∧
    run (.subtileReplay 0 none) laneless (fun t => statusOf t 1 == some .unrecoverable) = true ∧
    liveArrays noArrays (ceAffinity entry) = [] ∧ othersWork (moveStranded noArrays 0) strayed = false ∧
    run (.subtileReplay 0 none) replaying (fun t => (getArr t 0).bound.map (fun u => (u.rowMark, u.array)) == [(5, some 0)]) = true ∧
    run (.subtileReplay 0 none) rereading (fun t => slotPending t 0 1 && (getRgn t 0).replayQ.map (·.reread) == [false]) = true ∧
    run (.subtileReplay 0 none) noArrays (fun t => statusOf t 1 == some .arraysAbsent && (allSubs t).isEmpty) = true := by decide +kernel

/-- A mask operation: target 2, shadow 5, generation 7. -/
def maskAdm (op : Nat) (mode sel src : W64) (target : List W64) : Adm :=
  { admitted 1 [BitVec.ofNat 64 op, 0x0000000700050002, mode <<< 50, 0, sel, src, 0, 0] with
    entries := [(2, target), (5, [0xD000, 0x0000082300000007, 0x0000000100000004, 0xE000, 0, 0x0000000400000000, 0, 0]), (6, tensor 0xB000 0 4 1 1 1024)] }
/-- A dense column 1.0, 2.0, 1.5, 4.0. -/
def denseCol : List W64 := tensor 0x9000 3 4 1 1 256
def colBytes : Mems := { host := [(0x9000, 0x38), (0x9040, 0x40), (0x9080, 0x3C), (0x90C0, 0x48)], spad := [] }
/-- PRUNE of the two least. -/
def pruneAdm : Adm := maskAdm 0x10 1 2 0 denseCol
/-- REGROW of one position by a stored gradient, of a column that has k = 2 alone, spilled; the gradient is greatest at k = 3. -/
def regrowAdm : Adm := maskAdm 0x11 0 1 6 spilled
def regrowBytes : Mems := wrLe spmmBytes .mem 0xB0C0 4 0x40000000
/-- MASKSET that keeps the mask. -/
def masksetAdm : Adm := maskAdm 0x12 0 0 0 denseCol
def masked (d : Adm) (ms : Mems) : State := { withDescs [d] with mems := ms }

/-- Every hypothesis of the statement about the start of mask operations, in region 0. -/
def maskHyps (op : Nat) (d : Adm) (ms : Mems) : Bool :=
  let s := masked d ms
  findAdm (getCtx s 0) 1 == some d && dOpcode d.desc == op && dispatchable s 0 d && unstarted s 0 d &&
  !specPends s 0 d && unitRegions s (ceAffinity entry) == [0, 1, 2, 3] && regionsOf s (ceAffinity entry) == [0, 1, 2, 3] && !operandAbsent s d && laneRegions s false [0, 1, 2, 3] == [0, 1, 2, 3] &&
  spansAccess s 0 (targetSpans (jobOf d 0) ++ sourceSpans (jobOf d 0)) (shadowSpans (jobOf d 0)) == .ok &&
  !targetListsBad ms (jobOf d 0) && (freeJournal (getRgn s 0)).isSome

def maskIs (p : MaskOp → Bool) (t : State) : Bool := (findAdm (getCtx t 0) 1).any (fun e => e.mask.any p)

theorem witness_MaskOperationsStart :
    maskHyps 0x10 pruneAdm colBytes = true ∧ maskHyps 0x11 regrowAdm regrowBytes = true ∧ maskHyps 0x12 masksetAdm colBytes = true ∧
    targetListsBad (wrLe regrowBytes .mem 0xC040 8 0x0001000000000000) (jobOf regrowAdm 0) = true ∧
    run (.prune 0 1) (masked pruneAdm colBytes) (maskIs (fun m => m.phase == 3 && m.sel == [[false, true, false, true]])) = true ∧
    run (.regrow 0 1) (masked regrowAdm regrowBytes) (maskIs (fun m => m.phase == 1)) = true ∧
    run (.maskset 0 1) (masked masksetAdm colBytes) (maskIs (fun m => m.sel == [[true, true, true, true]])) = true := by decide +kernel

def swept : State := after (.regrow 0 1) (masked regrowAdm regrowBytes)
def rebuilding : State := after (.prune 0 1) (masked pruneAdm colBytes)
/-- The rebuild is done (what it wrote does not matter here). -/
def committing : State := setAdm rebuilding 0 1 (fun e => { e with mask := e.mask.map (fun m => { m with phase := 4 }) })
def retiring : State := after (.maskCommit 0) committing
def acked : State := { retiring with hp := [(0, hostUp)] }
/-- A column with all four positions active does not fit SQ1 with a spill capacity of 1. -/
def fullAdm : Adm := { masksetAdm with entries := tset masksetAdm.entries 5 [0xD000, 0x0000083300000007, 0x0000000100000004, 0xE000, 0, 0x0000000100000000, 0, 0] }
def lost (gen : Nat) : State :=
  { inState retiring .region 0 .fenced with mems := wrLe retiring.mems .mem 0x2088 4 gen }

theorem witness_maskPhases :
    (maskIn swept 0 1).isSome = true ∧ inMask (ceAffinity entry) 0 = true ∧ arrayRuns swept 0 = true ∧ spansAccess swept 0 (sourceSpans (jobOf regrowAdm 0)) [] = .ok ∧
    (maskIn rebuilding 0 3).isSome = true ∧ (maskIn committing 0 4).map (fun x => (x.2.1.spillNeed, x.2.1.toverNeed)) = some (0, 0) ∧
    memWriteAccess committing 0 0x2080 64 = .ok ∧ (tget [] pruneAdm.entries 5).length = 8 ∧ (maskIn retiring 0 5).isSome = true ∧
    commitOpen retiring 0x2080 = true ∧ oldReaders acked 0 pruneAdm = false ∧ commitOpen acked 0x2080 = false ∧
    run (.maskSweep 0) swept (maskIs (fun m => m.sweep == 1 && m.phase == 1)) = true ∧
    run (.maskSweep 0) (after (.maskSweep 0) swept) (maskIs (fun m => m.phase == 3 && m.sel == [[false, false, true, true]])) = true ∧
    -- SQ2 of the column's codes at k = 1 and k = 3: slot 0 holds unit 1, slot 1 unit 3; nibbles 5 and 7
    ([0, 1].map (fun rho => newSlotRow (maskShadow (jobOf pruneAdm 0)) [none, some 0x40, none, some 0x48] 0 rho (fun _ => 0))).map
      (fun row => (row.getD 0 0, row.getD 256 0)) = [(0x40, 0x05), (0x48, 0x07)] ∧
    (maskCodes colBytes (jobOf pruneAdm 0) { freshMask with sel := [[false, true, false, true]] }).1 = [[none, some 0x40, none, some 0x48]] ∧
    (match exec (.maskRebuild 0) rebuilding with | .next t => maskIs (fun m => m.phase == 4 && m.spillNeed == 0) t | _ => false) = true ∧
    run (.maskRebuild 0) (after (.maskset 0 1) (masked fullAdm colBytes)) (fun t => statusOf t 1 == some .spillFull) = true := by decide +kernel

/-- A 4 x 4 matrix with every position active fits SQ4, but not an SQ1 T-map without T-overflow entries. -/
def toverShadow : List W64 := [0xD000, 0x000008D300000007, 0x0000000400000004, 0xE000, 0x0000006400000004, 0, 0, 0]
def toverAdm : Adm := { masksetAdm with entries := tset (tset masksetAdm.entries 2 (tensor 0x9000 3 4 4 1 256)) 5 toverShadow }
def toverState : State := after (.maskset 0 1) (masked toverAdm colBytes)
/-- Hashes of a Bernoulli REGROW are still to come. -/
def hashing : State := setRgn rebuilding 0 { getRgn rebuilding 0 with rngReqs := [{ cls := 2, unit := 0, tag := 1, count := 8, arrived := 0 }] }

theorem witness_maskRebuildWaitsAndEnds :
    (maskIn toverState 0 3).isSome = true ∧ hasTmap (maskShadow (jobOf toverAdm 0)) = true ∧ (maskShadow (jobOf toverAdm 0)).toverCap = 0 ∧
    (maskShadow (jobOf toverAdm 0)).spillCap = 0 ∧ hashesDue toverState 0 2 0 1 = false ∧ (maskIn hashing 0 3).isSome = true ∧ hashesDue hashing 0 2 0 1 = true ∧
    run (.maskRebuild 0) toverState (fun t => ((findAdm (getCtx t 0) 1).bind (·.result)).map (fun q => (q.status, q.shortfall)) == some (.spillFull, 12)) = true ∧
    run (.maskRebuild 0) hashing (fun t => decide (t = hashing)) = true := by decide +kernel

theorem witness_maskCommitAndRecovery :
    run (.maskCommit 0) committing (fun t => rdLe t.mems .mem 0x2088 4 == 8) = true ∧
    run (.maskRetire 0) retiring (fun t => decide (t = retiring)) = true ∧
    run (.maskRetire 0) acked (fun t => ((findAdm (getCtx t 0) 1).bind (·.result)).map (·.result) == some 8) = true ∧
    (maskLost (lost 8) 0).isSome = true ∧ unitRegions (lost 8) (ceAffinity entry) = [1, 2, 3] ∧ memAccess (lost 8) 0 0x2080 64 = .ok ∧
    run (.maskCommitRecovery 0) (lost 8) (maskIs (fun m => m.phase == 5 && m.region == 1)) = true ∧
    run (.maskCommitRecovery 0) (lost 7) (maskIs (fun m => m.phase == 0)) = true ∧
    run (.maskCommitRecovery 0) (lost 9) (fun t => statusOf t 1 == some .admitCount) = true := by decide +kernel

/-! ### Waiting, the window, control -/

/-- The descriptor may start as its command: the hypotheses of `Starts`. -/
def startsAs (s : State) (i : W32) (op : Nat) (d : Adm) : Bool :=
  findAdm (getCtx s 0) i == some d && dOpcode d.desc == op && dispatchable s 0 d && unstarted s 0 d && !specPends s 0 d

/-- A WAITV of memory address 0x5000, of the word of region 0's scratchpad at 0x40, that is to reach 9. -/
def waitMem : Adm := admitted 1 (word4 0x23 0x5000 9 (5 <<< 32))
def waitPad : Adm := admitted 1 (word4 0x23 0x4000000000000040 9 0)
def nine (d : Adm) : State := { withDescs [d] with mems := wrLe (wrLe up.mems .mem 0x5000 8 9) (.spad 0) 0x40 8 9 }
/-- The wait is active since 4,995,000 ns with a timeout of 5 us, a NOP held behind it. -/
def heldNop : Adm := admitted 2 (word4 0 0 0 0)
def waitOn (since : Nat) (ms : Mems) : State := { withDescs [{ waitMem with active := some since, lastRead := 4 }, heldNop] with mems := ms }

theorem witness_WaitsReadPollAndTimeOut :
    startsAs (nine waitMem) 1 0x23 waitMem = true ∧ startsAs (withDescs [waitPad]) 1 0x23 waitPad = true ∧
    remoteSpace (reA waitMem.desc) = .mem ∧ memAccess (nine waitMem) 0 0x5000 8 = .ok ∧ remoteSpace (reA waitPad.desc) = .spad 0 ∧
    remoteRegion (withDescs [waitPad]) 0 (reA waitPad.desc) = some 0 ∧ (freeJournal (getRgn (withDescs [waitPad]) 0)).isSome = true ∧
    isLive up .region 0 = true ∧ (activeWait (getCtx (waitOn 0 up.mems) 0)).map (·.ring) = some 1 ∧ wvTimeout waitMem.desc = 5 ∧
    (4995000 : Nat) + 1000 * 5 ≤ up.time.t ∧ up.time.t < 4995001 + 1000 * 5 ∧
    run (.waitv 0 1) (nine waitMem) (fun t => statusOf t 1 == some .ok && (getCtx t 0).waitConf == 1) = true ∧
    run (.waitv 0 1) (withDescs [waitPad]) (fun t => (getRgn t 0).watch == [{ ctx := 0, addr := 0x40 }] && statusOf t 1 == none) = true ∧
    run (.waitvPoll 0) (waitOn 0 (nine waitMem).mems) (fun t => statusOf t 1 == some .ok) = true ∧
    run (.waitvPoll 0) (waitOn 0 up.mems) (fun t => statusOf t 1 == none && (getAcct t 0).rdBytes == 8) = true ∧
    run (.waitvTimeout 0) (waitOn 4995001 up.mems) (fun t => statusOf t 1 == none) = true ∧
    run (.waitvTimeout 0) (waitOn 4995000 up.mems) (fun t => statusOf t 1 == some .waitTimeout && statusOf t 2 == some .waitTimeout) = true := by
  decide +kernel

/-- The window at 0x50000000; the last word of region 1's scratchpad below the journal range holds 7. -/
def windowed : State :=
  { up with regs := { up.regs with winEn := true, winBase := 5 }, mems := wrLe up.mems (.spad 1) 0x02FDFFF8 8 7 }
def atPad (o : Nat) : BitVec 57 := BitVec.ofNat 57 (0x54000000 + o)

/-- After the access, the grants of its line's bank, 511 of region 1 (an atomic takes two). -/
def granted (n : Nat) (i : Instr) : State := (List.range n).foldl (fun s _ => after (.bankGrant 1 511 .clean none) s) (after i windowed)

theorem witness_WindowReachesScratchpad :
    hostAnswers windowed 0 = true ∧ windowed.regs.winEn = true ∧ isLive windowed .region 1 = true ∧ (atPad 0x02FDFFF8).toNat % 2 ^ 26 + 8 = 0x02FE0000 ∧
    windowWaits windowed 0 = false ∧ windowWaits (granted 0 (.windowRead 0 (atPad 0x02FDFFF8) 2 false)) 0 = true ∧ bankOf 0x02FDFFF8 = 511 ∧
    (∀ s ∈ [granted 0 (.windowRead 0 (atPad 0x02FDFFF8) 2 false), granted 0 (.windowWrite 0 (atPad 0x02FDFFFE) [1, 2]), granted 1 (.windowAtomic 0 (atPad 0x02FDFFF8) .max 9 0)],
      regionRuns s 1 = true ∧ (getRgn s 1).bankReqs.length = 1 ∧ s.rgns.length = 1 ∧ (getHp s 0).wdata = []) ∧
    inResidency windowed 1 0x02FDFFF8 = false ∧ scrubReq (getRgn windowed 1) 511 = none ∧
    -- R341: the fault-log registers are read as registers, and an offset without one answers ERR
    (readReg (wake windowed) 0x30008).isSome = true ∧ readReg (wake windowed) 0x1000 = none ∧
    run (.windowRead 0 0x48 4 true) windowed (fun t => match (getHp t 0).resp with | .data bs => bs.length == 4 | _ => false) = true ∧
    run (.windowRead 0 0x1000 8 true) windowed (fun t => (getHp t 0).resp == .err) = true ∧
    (granted 1 (.windowRead 0 (atPad 0x02FDFFF8) 2 false) |> fun t => (getHp t 0).resp) = .data [7, 0] ∧
    run (.windowRead 0 (atPad 0x02FFFFFF) 2 false) windowed (fun t => (getHp t 0).resp == .err) = true ∧
    run (.windowRead 0 (atPad 0) 65 false) windowed (fun t => (getHp t 0).resp == .err) = true ∧
    (granted 1 (.windowWrite 0 (atPad 0x02FDFFFE) [1, 2]) |> fun t => rdByte t.mems (.spad 1) 0x02FDFFFF) = 2 ∧
    run (.windowWrite 0 (atPad 0x02FDFFFF) [1, 2]) windowed (fun t => (getHp t 0).resp == .err && decide (t.mems = windowed.mems)) = true ∧
    (granted 2 (.windowAtomic 0 (atPad 0x02FDFFF8) .max 9 0) |> fun t => ((getHp t 0).resp, rd64 t.mems (.spad 1) 0x02FDFFF8)) = (.prior 7, 9) ∧
    run (.windowAtomic 0 (atPad 0x02FDFFF4) .max 9 0) windowed (fun t => (getHp t 0).resp == .err) = true ∧
    run (.windowAtomic 0 (atPad 0) .add32 9 0) up (fun t => (getHp t 0).resp == .err) = true := by decide +kernel

def nopAdm : Adm := admitted 1 (word4 0 0 0 0)
def fenceAdm : Adm := admitted 1 (word4 0x28 0 0 0)
def saveAdm : Adm := admitted 1 (word4 0x29 0 0 0)
def loadAdm : Adm := admitted 1 (word4 0x2A 0 0 0)
/-- Context 0 with a CTXLOAD, another entry for it in its table, a header in that entry's save area. -/
def reloading (h : Nat) : State :=
  based { withDescs [loadAdm] with mems := wrLe (wrBytes up.mems .mem 0x40000 (wordBytes (setFld entry 0x00 55 48 3))) .mem 0x4000 8 h }

def disabling : State := { reloading 0 with mems := wrBytes up.mems .mem 0x40000 (wordBytes (setFld entry 0x00 0 0 0)) }

theorem witness_ControlDescriptorsComplete :
    startsAs disabling 1 0x2A loadAdm = true ∧ ceEnable (rdWords disabling.mems .mem 0x40000 32) = false ∧ ceEnable (rdWords (reloading 0).mems .mem 0x40000 32) = true ∧
    run (.ctxload 0 1) disabling (fun t => statusOf t 1 == some .ok && !ceEnable (getCtx t 0).ent) = true ∧
    startsAs (withDescs [nopAdm]) 1 0x00 nopAdm = true ∧ startsAs (withDescs [fenceAdm]) 1 0x28 fenceAdm = true ∧
    startsAs (withDescs [{ heldNop with ring := 0 }, fenceAdm]) 1 0x28 fenceAdm = true ∧
    fenceWaits (active [{ heldNop with ring := 0 }, fenceAdm]) fenceAdm = true ∧ fenceWaits (active [fenceAdm]) fenceAdm = false ∧
    startsAs (withDescs [saveAdm]) 1 0x29 saveAdm = true ∧ earlier (active [saveAdm]) 1 = [] ∧ (hostPortFor (withDescs [saveAdm]) 0).isSome = true ∧
    saveFault (withDescs [saveAdm]) 0 = none ∧ ceRngBase entry + 128 ≤ ceSaveBase entry ∧
    startsAs (reloading 0) 1 0x2A loadAdm = true ∧ ceValid (rdWords (reloading 0).mems .mem 0x40000 32) = true ∧
    absentArrays (reloading 0) 0xFFFF = [] ∧ absentArrays (inState (reloading 0) .array 3 .absent) 0xFFFF = [3] ∧ dRelaxAff loadAdm.desc = false ∧
    run (.nop 0 1) (withDescs [nopAdm]) (fun t => statusOf t 1 == some .ok) = true ∧
    run (.fence 0 1) (withDescs [{ heldNop with ring := 0 }, fenceAdm]) (fun t => statusOf t 1 == none) = true ∧
    run (.fence 0 1) (withDescs [fenceAdm]) (fun t => statusOf t 1 == some .ok) = true ∧
    run (.ctxsave 0 1) (withDescs [saveAdm]) (fun t => statusOf t 1 == some .ok) = true ∧
    run (.ctxload 0 1) (reloading 0x111) (fun t => statusOf t 1 == some .ok && ceWeight (getCtx t 0).ent == 3) = true ∧
    run (.ctxload 0 1) (reloading 0x211) (fun t => statusOf t 1 == some .badVersion && ceWeight (getCtx t 0).ent == 1) = true ∧
    run (.ctxload 0 1) (inState (reloading 0x111) .array 3 .absent) (fun t => statusOf t 1 == some .arraysAbsent && ceWeight (getCtx t 0).ent == 1) = true := by
  decide +kernel

/-! ### Whole descriptors -/

/-- The hypotheses of `TileReady`, in region 0, for a descriptor whose shape is settled. -/
def tileReadyAt (s : State) (d : Adm) : Bool :=
  let j := jobOf d 0
  let rs := regionsOf s (ceAffinity (getCtx s 0).ent)
  let ls := laneRegions s (drawsBits (sizedDesc d)) rs
  !dBucketed d.desc && !runsNowhere j && !rs.isEmpty && !operandAbsent s d && !ls.isEmpty && chooseRegion s 0 (wIndex j) (wEnt j).gen (pairRegions s 0 j ls) == some 0 &&
  headOk s.mems j && spansAccess s 0 (tileReads j) (tileWrites j) == .ok && ((dKt j.d == 0 && dOpcode j.d != 5) || !listsBad s.mems j) && (residencyStep s 0 d.ring 0 false j).isSome && s.rgns.all (fun e => e.2.watch.isEmpty)

def ready (op : Nat) (d : Adm) (s : State) : Bool := startsAs s 1 op d && tileReadyAt s d
/-- A command runs the tile to OK, and the first output is an FP32 code. -/
def gives (i : Instr) (s : State) (code : Nat) : Bool := run i s (fun t => statusOf t 1 != none && rdLe t.mems .mem 0xA000 4 == code)

/-- SPMM, TSPMM, MGRAD, CONV, GEMV and FUSED2 tiles that have not begun. -/
def spmm0 : Adm := { spmmAdm with total := none }
def tsp0 : Adm := { tspAdm with total := none }
def conv0 : Adm := { convAdm with total := none }
/-- Aᵀ·B of one token, one row and one column, at the positions of an SQ1 mask of one active position. -/
def sq1 (base spill : W64) : List W64 := [base, 0x0000083300000007, 0x0000000100000001, spill, 0, 0, 0, 0]
def mgrad0 : Adm :=
  { admitted 1 [5, 0x0003000400020001, 0, BitVec.ofNat 64 (1 + 2 ^ 17 + 2 ^ 28 + 2 ^ 49), 0, 0, 0, 0] with
    entries := [(1, tensor 0x8000 3 1 1 1 64), (2, tensor 0x9000 3 1 1 1 64), (3, sq1 0xA000 0xC000), (4, sq1 0xB000 0xC100)] }
def mgradBytes : Mems := { tileBytes with host := tileBytes.host ++ [(0xB100, 0x04)] }
def gemv0 : Adm := tileAdm 7 1
def fused0 : Adm :=
  { admitted 1 [2, 0x0003000000020001, 0, BitVec.ofNat 64 (16 + 2 ^ 17 + 2 ^ 28 + 2 ^ 49), 0, 0, 0, 0x0004000300000000] with
    entries := tset tileEntries 4 (tensor 0x9000 3 1 1 1 64) }
def holding (d : Adm) (ms : Mems) : State := { withDescs [d] with mems := ms }
/-- SQ4: slot 0 of quad 0 holds unit 0 (0x3C), its meta nibble is active; the T-map row names slot 0 of column 0. -/
def tspBytes : Mems := { host := [(0x8000, 0x38), (0x9000, 0x3C), (0x9100, 0x04), (0xC040, 0x04)], spad := [] }

theorem tile_writes_memory : ∀ x ∈ tileWrites (jobOf (tileAdm 1 16) 0), x.sp = .mem := by decide +kernel

theorem witness_TileReady : TileReady (tile 16) 0 0 (tileAdm 1 16) (tile 16) (tileAdm 1 16)
    ((residencyStep (tile 16) 0 1 0 false job16).getD (tile 16)) :=
  ⟨rfl, by decide +kernel, by decide +kernel, by decide +kernel, by decide +kernel, by decide +kernel, by decide +kernel, by decide +kernel,
   by decide +kernel, by decide +kernel, fun x hx _ hr => absurd (hr.symm.trans (tile_writes_memory x hx)) Space.noConfusion⟩

theorem witness_ComputeDescriptorsRunTiles :
    ready 0x01 (tileAdm 1 16) (tile 16) = true ∧ ready 0x03 spmm0 (holding spmm0 spmmBytes) = true ∧ ready 0x04 tsp0 (holding tsp0 tspBytes) = true ∧
    ready 0x05 mgrad0 (holding mgrad0 mgradBytes) = true ∧ ready 0x06 conv0 (holding conv0 tileBytes) = true ∧
    ready 0x07 gemv0 (holding gemv0 tileBytes) = true ∧ ready 0x02 fused0 (holding fused0 tileBytes) = true := by
  decide +kernel

/-- 1.0 · 1.5 = 1.5, and the spilled member's 1.0 · 1.5. -/
theorem test_tiles :
    gives (.gemm 0 1) (tile 16) 0x3FC00000 = true ∧ gives (.spmm 0 1) (holding spmm0 spmmBytes) 0x3FC00000 = true ∧ gives (.tspmm 0 1) (holding tsp0 tspBytes) 0x3FC00000 = true ∧
    gives (.mgrad 0 1) (holding mgrad0 mgradBytes) 0x3C = true ∧ gives (.conv 0 1) (holding conv0 tileBytes) 0x3FC00000 = true ∧
    gives (.gemv 0 1) (holding gemv0 tileBytes) 0x3FC00000 = true := by decide +kernel

/-- (1.0 · 1.5) · 1.5 = 2.25, the intermediate in E4M3. -/
theorem test_fused2 : gives (.fused2 0 1) (holding fused0 tileBytes) 0x40100000 = true := by decide +kernel

/-- Parts 5 (1.5) and 6 (2.5) with rows of one partial, folded into FP32 output 3. -/
def foldAdm : Adm :=
  { admitted 1 [8, 0x0002000000000003, 0x0000000000060005, 0, 0, 0, 0, BitVec.ofNat 64 (1 + 2 ^ 17 + 2 ^ 28)] with
    entries := [(3, tensor 0xA000 0 1 1 1 64), (5, tensor 0xB000 0 1 1 1 4096), (6, tensor 0xC000 0 1 1 1 4096)] }
def partBytes (rows : Nat) : Mems :=
  wrLe (wrLe (wrLe (wrLe up.mems .mem 0xB00C 4 1) .mem 0xB040 4 0x3FC00000) .mem 0xC00C 4 rows) .mem 0xC040 4 0x40200000
def bmaskAdm (out : List W64) : Adm :=
  { admitted 1 [0x13, 0x0040000000000003, 0x0000000A00000002, 0, 0, 0, 0, 0] with entries := [(3, out)], key := 5 }

/-- A BMASK of 2 x 10 bits, from memory or region 0's scratchpad; its hashes asked for; and, behind their grants, to be written. -/
def bmaskTo (space : Nat) : Adm := bmaskAdm (tensor 0xA000 8 2 64 1 128 space)
def bmask0 (space : Nat) : State := holding (bmaskTo space) up.mems
def bmaskAsked (space : Nat) : State := after (.bmask 0 1) (bmask0 space)
def bmaskHashed (space : Nat) : State := after (.rngGrant 0 []) (bmaskAsked space)

def foldRound : Adm := { foldAdm with desc := foldAdm.desc.set 6 1 }
def foldDrawn : State := holding foldRound (partBytes 1)
def foldHashed : State := after (.rngGrant 0 []) (after (.fold 0 1) foldDrawn)

theorem witness_FoldAndBmaskComplete :
    startsAs (holding foldAdm (partBytes 1)) 1 0x08 foldAdm = true ∧ unitRegions up (ceAffinity entry) = [0, 1, 2, 3] ∧
    operandAbsent (holding foldAdm (partBytes 1)) foldAdm = false ∧ laneRegions up false [0, 1, 2, 3] = [0, 1, 2, 3] ∧ laneRegions up true [0, 1, 2, 3] = [0, 1, 2, 3] ∧
    freeJournal (getRgn up 0) = some 0 ∧ foldDraws foldAdm.desc = false ∧
    writesOutstanding (holding foldAdm (partBytes 1)) 0 1 = false ∧ readsOutstanding (holding foldAdm (partBytes 1)) 0 1 = false ∧
    -- with stochastic rounding it asks for its hashes first
    findAdm (getCtx foldDrawn 0) 1 = some foldRound ∧ dispatchable foldDrawn 0 foldRound = true ∧ foldDraws foldRound.desc = true ∧
    foHeads foldRound.desc * foMt foldRound.desc * foNt foldRound.desc ≠ 0 ∧ laneRegions foldDrawn true [0, 1, 2, 3] = [0, 1, 2, 3] ∧
    hashesDue (after (.fold 0 1) foldDrawn) 0 0 (foldUnit 0) 1 = true ∧ hashesDue foldHashed 0 0 (foldUnit 0) 1 = false ∧
    (findAdm (getCtx foldHashed 0) 1).map (·.emitted) = some 1 ∧ writesOutstanding foldHashed 0 1 = false ∧ readsOutstanding foldHashed 0 1 = false ∧
    run (.fold 0 1) (after (.fold 0 1) foldDrawn) (fun t => decide (t = after (.fold 0 1) foldDrawn)) = true ∧
    run (.fold 0 1) foldHashed (fun t => statusOf t 1 != none) = true ∧
    spansAccess (holding foldAdm (partBytes 1)) 0 (foldReads (jobOf foldAdm 0)) (foldWrites (jobOf foldAdm 0)) = .ok ∧
    foldBad (partBytes 1) (jobOf foldAdm 0) = none ∧ foldShort (partBytes 1) (jobOf foldAdm 0) = none ∧ foldBad (partBytes 2) (jobOf foldAdm 0) = some 6 ∧
    (∀ n ∈ [0, 2], findAdm (getCtx (bmask0 n) 0) 1 = some (bmaskTo n) ∧ dispatchable (bmask0 n) 0 (bmaskTo n) = true ∧
      writesOutstanding (bmask0 n) 0 1 = false ∧ operandAbsent (bmask0 n) (bmaskTo n) = false ∧
      hashesDue (bmaskAsked n) 0 3 0 1 = true ∧ hashesDue (bmaskHashed n) 0 3 0 1 = false ∧
      (findAdm (getCtx (bmaskHashed n) 0) 1).map (·.emitted) = some 1 ∧
      spansAccess (bmaskHashed n) 0 [] [entSpan (jobOf (bmaskTo n) 0) (tentOf (tget [] (bmaskTo n).entries 3)) 0 128] = .ok) ∧
    -- 1.5 + 2.5 = 4.0
    gives (.fold 0 1) (holding foldAdm (partBytes 1)) 0x40800000 = true ∧
    run (.fold 0 1) (holding foldAdm (partBytes 2)) (fun t => statusOf t 1 == some .badRsvd) = true ∧
    run (.bmask 0 1) (bmaskHashed 0) (fun t => statusOf t 1 == some .ok) = true ∧
    run (.bmask 0 1) (bmaskHashed 2) (fun t => statusOf t 1 == some .ok && (getRgn t 0).bankReqs.map (fun b => (b.cls, b.addr)) == [(0, 0xA000), (0, 0xA040)]) = true := by
  decide +kernel

/-! ### CASTLE and STREAM -/

/-- CASTLE of weight 2's first block on array 2, and STREAM of one row over array 2 from 5 to 6. -/
def castleAdm : Adm := { admitted 1 (word4 0x18 0x20002 0 0) with entries := tileEntries }
def streamAdm : Adm :=
  { admitted 1 (word4 0x30 0x0000000600050002 1 0) with entries := [(5, tensor 0xB000 0 1 256 16 1024), (6, tensor 0xC000 0 1 272 17 2048)] }
/-- Context 0 owns array 2. -/
def owning (d : Adm) (b : Bank) : State :=
  setArr { holding d tileBytes with mnt := { up.mnt with streamArrays := 4 } } 2 { ArrayS.init with active := b }

theorem witness_CastleAndStreamUseOwnedArrays :
    startsAs (holding castleAdm tileBytes) 1 0x18 castleAdm = true ∧ caArray castleAdm.desc = 2 ∧ ownsArray (withDescs []) 0 2 = false ∧
    ownsArray (owning castleAdm Bank.init) 0 2 = true ∧ gambitOn (withDescs []) 0 = true ∧ inMask (ceAffinity entry) 2 = true ∧
    isLive (owning castleAdm Bank.init) .region 0 = true ∧ operandAbsent (owning castleAdm Bank.init) castleAdm = false ∧
    spansAccess (owning castleAdm Bank.init) 0 (weightSpans (castleBlock 0 castleAdm).1.1) [] = .ok ∧
    startsAs (owning streamAdm slottedBank) 1 0x30 streamAdm = true ∧ operandAbsent (owning streamAdm slottedBank) streamAdm = false ∧
    spansAccess (owning streamAdm slottedBank) 0 [entSpan (jobOf streamAdm 0) (tentOf (tensor 0xB000 0 1 256 16 1024)) 0 1024]
      [entSpan (jobOf streamAdm 0) (tentOf (tensor 0xC000 0 1 272 17 2048)) 0 1088] = .ok ∧
    run (.castle 0 1) (holding castleAdm tileBytes) (fun t => statusOf t 1 == some .ok && t.gambit.hint.map (·.1) == [2]) = true ∧
    run (.castle 0 1) (owning castleAdm Bank.init) (fun t => statusOf t 1 == some .ok && (getArr t 2).cycle == 257 &&
      ((getArr t 2).active.rows.head?).map (fun q => q.cells.map (·.value)) == some [0x3C]) = true ∧
    run (.stream 0 1) (holding streamAdm tileBytes) (fun t => statusOf t 1 == some .badOpcode) = true := by decide +kernel

/-- Word 0x40 (E4M3 2.0) on row 0 of a bank that holds 1.5 there: the first sum is 3.0. -/
theorem test_streamSum : sumCode false (streamSum slottedBank (0x40 :: List.replicate 255 0) 0).1 = 0x40400000 := by decide +kernel

/-! ### Remote operations -/

/-- RWRITE of 8 B from region 1's scratchpad at 0x80 to region 0's at 0x40, RREAD of 16 B of memory into region 0. -/
def writeAdm (ctl : Nat) : Adm := admitted 1 (word4 (0x20 + ctl) 0x4000000000000040 0x5000000000000080 8)
def readAdm : Adm := admitted 1 (word4 0x21 0x5000 0x4000000000000040 16)
def ledgered (d : List Adm) (l : List Claim) : State :=
  { up with ctxs := [(0, { active d with ent := setFld entry 0 6 6 1 })], ledger := l, mems := wrLe (wrLe up.mems (.spad 1) 0x80 8 9) .mem 0x5000 8 6 }
def claim9 : Claim := { sp := .spad 0, addr := 0x40, value := 9, ctx := 1, seq := 3 }

/-- RWRITE to memory at 0x6000; a region with every journal entry taken. -/
def toMemory : Adm := admitted 1 (word4 0x20 0x6000 0x5000000000000080 8)
def fullJournal : Region :=
  { Region.init with journal := (List.range 1024).map (fun k => (k, { a := [], b := [], lostA := false, lostB := false })) }

theorem thas_of_mem (e : JEntry) (l : List Nat) (k : Nat) (h : k ∈ l) : thas (l.map (fun n => (n, e))) k = true := by
  induction l with
  | nil => cases h
  | cons n t ih => rcases List.mem_cons.mp h with rfl | h <;> simp [thas, *]

theorem witness_fullJournal : freeJournal fullJournal = none := by
  simp only [freeJournal, fullJournal, List.find?_eq_none]
  intro k hk
  simp [thas_of_mem _ _ _ hk]

theorem witness_RemoteCopiesStart :
    startsAs (ledgered [writeAdm 0] []) 1 0x20 (writeAdm 0) = true ∧ copyDst (writeAdm 0).desc = reA (writeAdm 0).desc ∧
    remoteSpace (copyDst (writeAdm 0).desc) = .spad 0 ∧ remoteSpace (copySrc (writeAdm 0).desc) = .spad 1 ∧
    srcAccess (ledgered [writeAdm 0] []) 0 (copySrc (writeAdm 0).desc) 8 = .ok ∧ dstAccess (ledgered [writeAdm 0] []) 0 (copyDst (writeAdm 0).desc) 8 = .ok ∧
    remoteRegion (ledgered [writeAdm 0] []) 0 (copyDst (writeAdm 0).desc) = some 0 ∧ freeJournal (getRgn up 0) = some 0 ∧
    isLive (inState up .region 0 .fenced) .region 0 = false ∧
    startsAs (ledgered [readAdm] []) 1 0x21 readAdm = true ∧ remoteSpace (copySrc readAdm.desc) = .mem ∧ carrier up 0 = some 0 ∧
    pieces512 2 0x5000 16 = [(0x5000, 16)] ∧ (portFor up 0 0x5000).isSome = true ∧ srcAccess (ledgered [readAdm] []) 0 (copySrc readAdm.desc) 16 = .ok ∧
    run (.rwrite 0 1) (ledgered [writeAdm 0] []) (fun t => (getRgn t 1).bankReqs.map (fun b => (b.cls, b.addr, b.act)) == [(3, 0x80, .fetch 8)] &&
      thas (getRgn t 0).journal 0) = true ∧
    run (.rwrite 0 1) (inState (ledgered [writeAdm 0] []) .region 0 .fenced) (fun t => statusOf t 1 == some .arraysAbsent) = true ∧
    run (.rwrite 0 1) (inState (ledgered [writeAdm 0] []) .region 1 .fenced) (fun t => statusOf t 1 == some .arraysAbsent) = true ∧
    run (.rread 0 1) (ledgered [readAdm] []) (fun t => t.mp.map (fun e => e.2.rdQ.map (fun q => (q.addr, q.len))) == [[], [(0x5000, 16)]] ||
      t.mp.any (fun e => e.2.rdQ.map (fun q => (q.addr, q.len)) == [(0x5000, 16)])) = true ∧
    run (.rread 0 1) (inState (ledgered [readAdm] []) .region 0 .fenced) (fun t => statusOf t 1 == some .arraysAbsent) = true := by decide +kernel

/-- A region's bank requests, but those of other classes (the journal entry's writes), which are granted elsewhere. -/
def remoteOnly (s : State) (r : Nat) : State := setRgn s r { getRgn s r with bankReqs := (getRgn s r).bankReqs.filter (·.cls == 3) }

/-- The RWRITE behind its start, then behind the grant of its source's bank, 2 of region 1. -/
def reading (d : Adm) (more : List Adm) (l : List Claim) : State := after (.rwrite 0 1) (ledgered (d :: more) l)
def copied (d : Adm) (more : List Adm) (l : List Claim) : State := remoteOnly (after (.bankGrant 1 2 .clean none) (reading d more l)) 0
/-- The RREAD behind the read data of its source, under tag 0 of the port that carries it. -/
def readPort : PortId := match portFor up 0 0x5000 with | some q => Fin.ofNat 16 q | none => 0
def readOut : State := setMp (remoteOnly (after (.rread 0 1) (ledgered [readAdm] [])) 0) readPort.val
  { getMp (after (.rread 0 1) (ledgered [readAdm] [])) readPort.val with rdQ := [], rdOut := (getMp (after (.rread 0 1) (ledgered [readAdm] [])) readPort.val).rdQ.map (fun q => (0, q)) }
/-- Its data is in the crossing. -/
def readCrosses : State := after (.mppRdReceive (.mem readPort) 0 (List.replicate (0x5000 % 512) 0 ++ leBytes 16 6) .clean false) readOut
/-- The write of the copy in memory, sent under tag 2,048. -/
def writePort : PortId := match portFor up 0 0x6000 with | some q => Fin.ofNat 16 q | none => 0
def writeAsked : State := setMp (copied toMemory [] []) writePort.val
  { getMp (copied toMemory [] []) writePort.val with wrQ := [], wrOut := (getMp (copied toMemory [] []) writePort.val).wrQ.map (fun q => (2048, q)) }

theorem witness_RemoteCopiesAndClaims :
    (copying (reading (writeAdm 0) [] []) 0 1).map (·.copied) = some [] ∧ (getRgn (reading (writeAdm 0) [] []) 1).bankReqs.length = 1 ∧ bankOf 0x80 = 2 ∧
    (∀ k, k < 8 → inResidency (reading (writeAdm 0) [] []) 1 (0x80 + k) = false) ∧ regionRuns (reading (writeAdm 0) [] []) 1 = true ∧
    isClaim (ledgered [] [claim9]) 0 (writeAdm 0) = true ∧ dupClaim (ledgered [] [claim9]) 0 (writeAdm 0) 9 = true ∧
    isClaim (withDescs []) 0 (writeAdm 0) = false ∧ dAcquire (writeAdm 0x800000).desc = true ∧
    (later (active [writeAdm 0x800000, heldNop]) 1).map (·.ring) = [2] ∧
    (copying readOut 0 1).isSome = true ∧ (getMp readOut readPort.val).rdOut.length = 1 ∧ xingFull readOut readPort.val = false ∧
    (copying (copied (writeAdm 0) [] []) 0 1).isSome = true ∧ (getRgn (copied (writeAdm 0) [] []) 0).bankReqs.length = 1 ∧
    (getMp writeAsked writePort.val).wrOut.length = 1 ∧ (copying writeAsked 0 1).isSome = true ∧
    (copied (writeAdm 0) [] []).ledger.map (fun k => (k.addr, k.value)) = [(0x40, 9)] ∧
    (getRgn (copied (writeAdm 0) [] []) 0).bankReqs.map (fun b => (b.cls, b.addr, b.act)) = [(3, 0x40, .write (leBytes 8 9))] ∧
    run (.bankGrant 0 1 .clean none) (copied (writeAdm 0) [] []) (fun t => rd64 t.mems (.spad 0) 0x40 == 9 && statusOf t 1 == some .ok) = true ∧
    run (.bankGrant 1 2 .clean none) (reading (writeAdm 0x800000) [heldNop] [claim9]) (fun t => statusOf t 1 == some .dupClaim && statusOf t 2 == some .dupClaim &&
      rd64 t.mems (.spad 0) 0x40 == 0) = true ∧
    (readCrosses.xing.find? (fun y => y.src == 36 + readPort.val && y.dst == 20 + readPort.val / 4)).map (·.read.owner) = some (.desc 0 1) ∧
    (getMp readCrosses readPort.val).held = [] ∧ (copying readCrosses 0 1).isSome = true ∧ dOpcode readAdm.desc = 0x21 ∧
    (let u := { readCrosses with xing := [] }
     readCrosses.xing.length = 1 ∧ readsOutstanding u 0 1 = false ∧ writesOutstanding u 0 1 = false) ∧ (getAcct readCrosses 0).rdBytes = 16 ∧
    run (.crossingTransfer (Fin.ofNat 60 (36 + readPort.val)) (Fin.ofNat 60 (20 + readPort.val / 4)) 3) readCrosses (fun t =>
      (getRgn t 0).bankReqs.map (fun b => (b.cls, b.addr, b.act)) == [(3, 0x40, .write (leBytes 16 6))]) = true ∧
    run (.mppRspReceive (.mem writePort) 2048 0 0) writeAsked (fun t => rd64 t.mems .mem 0x6000 == 9 && statusOf t 1 == some .ok) = true := by decide +kernel

/-- RATOMIC of operation `op` on region 0's word at 0x40, or on memory at 0x5000. -/
def atomicAdm (op : Nat) (a : W64 := 0x4000000000000040) : Adm := admitted 1 (word4 0x22 a 0xFFFFFFFF 5 (BitVec.ofNat 64 op))
def padWord (d : Adm) : State := { withDescs [d] with mems := wrLe up.mems (.spad 0) 0x40 8 0x100000002 }
/-- The command of operation `op`, with the two grants of its bank, returns the prior value and leaves `v`. -/
def returns (i : Instr) (op : Nat) (prior v : W64) : Bool :=
  let s := remoteOnly (after i (padWord (atomicAdm op))) 0
  let u := remoteOnly (after (.bankGrant 0 1 .clean none) s) 0
  startsAs (padWord (atomicAdm op)) 1 0x22 (atomicAdm op) && reOp (atomicAdm op).desc == op &&
  (getRgn s 0).bankReqs.map (fun b => (b.cls, b.addr)) == [(3, 0x40)] && (getRgn u 0).bankReqs.length == 1 && rd64 u.mems (.spad 0) 0x40 == 0x100000002 &&
  run (.bankGrant 0 1 .clean none) u (fun t => rd64 t.mems (.spad 0) 0x40 == v && (((findAdm (getCtx t 0) 1).bind (·.result)).map (·.result)) == some prior)
def onMemory : State := withDescs [atomicAdm 3 0x5000]

theorem witness_RemoteAtomicsReturnPriorValue :
    returns (.ratomicFetchAdd32 0 1) 0 2 0x100000001 = true ∧ returns (.ratomicFetchAdd64 0 1) 1 0x100000002 0x200000001 = true ∧
    returns (.ratomicCas 0 1) 2 0x100000002 0x100000002 = true ∧ returns (.ratomicMax 0 1) 3 0x100000002 0x100000002 = true ∧
    returns (.ratomicOr 0 1) 4 0x100000002 0x1FFFFFFFF = true ∧
    run (.ratomicMax 0 1) (inState (padWord (atomicAdm 3)) .region 0 .fenced) (fun t => statusOf t 1 == some .arraysAbsent) = true ∧
    startsAs onMemory 1 0x22 (atomicAdm 3 0x5000) = true ∧ memWriteAccess onMemory 0 0x5000 8 = .ok ∧ carrier onMemory 0 = some 0 ∧
    (portFor onMemory 0 0x5000).isSome = true ∧ freeJournal (getRgn onMemory 0) = some 0 ∧
    run (.ratomicMax 0 1) onMemory (fun t => statusOf t 1 == none && thas (getRgn t 0).journal 0 &&
      (t.mp.flatMap (fun e => e.2.wrQ)).map (fun u => (u.op, u.aop, u.addr)) == [(2, 3, 0x5000)]) = true := by decide +kernel

/-! ### Sideband, TAP, numbers -/

def asleep : State := { mgmt with sbd := { mgmt.sbd with session := false } }
def noted : State := { mgmt with sbd := { mgmt.sbd with queue := [(event 3, false)], ibi := some 0xA5 } }
def unlocked (s : State) : State := { s with tap := { s.tap with unlocked := true } }

theorem witness_sideband :
    sidebandAnswers mgmt = true ∧ { mgmt with cfg := { mgmt.cfg with staticAddr := 9 } }.cfg.staticAddr ≠ 0 ∧ mgmt.cfg.staticAddr = 0 ∧
    noted.sbd.queue = [(event 3, false)] ∧ mgmt.sbd.queue = [] ∧ mgmt.mnt.mainDown = false ∧ { mgmt with mnt := { mgmt.mnt with mainDown := true } }.mnt.mainDown = true ∧
    (0 : Nat) < mgmt.cfg.regions ∧ asleep.sbd.session = false ∧ mgmt.sbd.session = true ∧ mgmt.mnt.holder = 2 ∧ booting.boot.ready = false ∧
    sbdTakes mgmt head = true ∧ ({ head with pen := 0 } : SbdHead).pen ≠ sbdPen ∧
    run (.unitRequest 0 { head with pen := 0 }) mgmt (fun t => decide (t = mgmt)) = true ∧
    run (.spdmRequest (.finishMutual true)) (after (.spdmRequest .keyExchange) asleep) (fun t => t.sbd.session && !t.sbd.kex) = true ∧
    run (.spdmRequest (.finishMutual true)) asleep (fun t => !t.sbd.session) = true ∧
    run (.setPowerCap 99 head) mgmt (fun t => t.pwr.cfg.capW == mgmt.pwr.cfg.capW) = true ∧
    run (.setPowerCap 100 head) mgmt (fun t => t.pwr.cfg.capW == 100) = true ∧
    run (.unitRequest 0 head) mgmt (fun t => unitSt t .array 0 != .live && t.sbd.resp == .done 0x10 5 0 []) = true ∧
    run (.unitRequest 0xC0 head) mgmt (fun t => t.sbd.resp == .done 0x10 5 3 []) = true ∧
    run (.unitRequest 0 head) asleep (fun t => unitSt t .array 0 == .live && t.sbd.resp == .done 0x10 5 5 []) = true ∧
    run (.maintRequest 7 head) mgmt (fun t => t.sbd.resp == .done 0x12 5 3 []) = true ∧
    run (.maintRequest 0x10 head) mgmt (fun t => !(getRgn t 0).running.isEmpty) = true ∧
    run (.ownership false head) mgmt (fun t => t.mnt.holder == 0) = true ∧
    run .faultNotifyRead noted (fun t => t.sbd.resp == .notify (event 3) false && t.sbd.queue.isEmpty && t.sbd.ibi == none) = true := by decide +kernel

theorem witness_tap :
    tapWorks up = true ∧ up.tap.unlocked = false ∧ (unlocked up).tap.unlocked = true ∧ anyLive up = true ∧ anyLive (unlocked { up with units := allUnits .fenced }) = false ∧
    run (.testUnlock head) mgmt (fun t => t.tap.unlocked) = true ∧
    run (.tapInstruction (.network 4)) up (fun t => t.tap.ir == .bypass) = true ∧
    run (.tapInstruction (.isolate 2)) (unlocked up) (fun t => t.tap.status == 1 && t.tap.ir == .bypass) = true ∧
    run (.tapInstruction (.isolate 2)) (unlocked { up with units := allUnits .fenced }) (fun t => t.tap.status == 0 && t.tap.ir == .isolate 2) = true ∧
    (match exec .idcode up with | .next _ => true | _ => false) = true := by
  decide +kernel

/-- E4M3 0x7E is 448, its greatest; INT4 0x8 is -8. -/
theorem witness_ElementCodesRoundTrip :
    decodeElem .e4m3 0x7E ≠ .nan ∧ encodeExact .e4m3 (decodeElem .e4m3 0x7E) = 0x7E ∧ (convert .e4m3 .nearest false 0 (decodeElem .e4m3 0x7E)).flags = 0 ∧
    encodeExact .int4 (decodeElem .int4 0x8) = 0x8 ∧ encodeExact .fp32 (decodeElem .fp32 0x00000001) = 1 ∧ decodeElem .e4m3 0x7F = .nan ∧
    numIsFinite (fp32Of 0x7F7FFFFF) = true ∧ (fp32Sat (fp32Of 0x7F7FFFFF)).2 = false ∧ (0xFFFF : Nat) < 2 ^ (8 * 2) ∧
    rdLe (wrLe up.mems .mem 0x10 2 0xFFFF) .mem 0x10 2 = 0xFFFF := by decide +kernel

/-! ### Commands that no interface carries, and words -/

theorem test_wellFormedRefuses : ([
    -- a bank number 516; an island without a lock that is also on one oscillator
    .coldBoot { goodBoot with badBanks := [(0, 516)] }, .coldBoot { goodBoot with noLock := [3], oneLock := [3] },
    .unitTestDone { kind := .array, unit := 0 } { pass := true, badBanks := [516], failArrays := [], failSide := false, failPorts := [] },
    -- read data of no byte and of 513; window accesses of 0 and 65 bytes, and an atomic off its word
    .mppRdReceive (.mem 0) 0 [] .clean false, .mppRdReceive (.mem 0) 0 (List.replicate 513 0) .clean false,
    .windowRead 0 0 0 false, .windowRead 0 0 65 false, .windowWrite 0 0 [], .windowWrite 0 0 (List.replicate 65 0), .windowAtomic 0 4 .or 0 0,
    -- a crossing from an island to itself, in 2 cycles, in 7
    .crossingTransfer 3 3 4, .crossingTransfer 1 2 2, .crossingTransfer 1 2 7,
    -- a register write of 2 bytes, off its alignment, of a value too wide
    .registerWrite 0 0 2 0, .registerWrite 0 4 8 0, .registerWrite 0 0 4 0x100000000,
    -- side path 4, region 4
    .unitDisable 0 { kind := .side, unit := 4 }, .unitForceDisable 0 { kind := .region, unit := 4 }, .unitEnable 0 { kind := .side, unit := 15 },
    .unitFence 0 { kind := .region, unit := 4 }, .unitDrainDone { kind := .side, unit := 4 },
    -- the self-test of array 4 in region 0
    .maintActivityEnd 0 { code := 1, array := 4 } true 0,
    .powerControlInterval 0 [], .thermalInterval [], .rowBroadcast 0 [256] [] [], .rowBroadcast 0 [] [257] [], .rowBroadcast 0 [] [] [(257, 1)],
    .sideDotRow 0 [(513, 1)] .clean .clean, .rngGrant 0 [32]] : List Instr).all (fun i => !i.wellFormed) = true := by decide +kernel

theorem test_wellFormedAccepts : ([
    .coldBoot goodBoot, .mppRdReceive (.mem 0) 0 (List.replicate 512 0) .clean false, .windowRead 0 0 64 false, .windowAtomic 0 8 .or 0 0, .crossingTransfer 1 2 6,
    .registerWrite 0 4 4 0xFFFFFFFF, .unitDisable 0 { kind := .array, unit := 15 }, .rowBroadcast 0 [255] [256] [(256, 1)], .rngGrant 0 [31]] :
      List Instr).all (·.wellFormed) = true := by decide +kernel

/-- No row of the table gives bits. -/
theorem test_decodeTableWord (n w : Nat) : decodeTableWord n w = none ∧ ∀ s : State, s.withFetchWord n w = s := ⟨rfl, fun _ => rfl⟩

end Sys2Proof.Tests
end

section
/-!
PROOFS. Bank grants that move a row mark (R43), where the tables of the state are not canonical.

R43's mark is written by the grant, and the end of an RREAD then marks the journal records of that RREAD as acknowledged (R291).
`markRemote` finds those records by reading the tables entry by entry, while `recordAt` reads the first entry of a number. A journal that
lists one number twice tells the two apart: the mark goes into the first entry, the second one names the RREAD, and the acknowledgement
goes into the first entry again. `tset`, `tdrop` and `tmap` list no number anew that stands in a table, so that reset leads to no such
journal; the statement is about every state.
-/

namespace Sys2Proof.Machine

/-- An RREAD admitted at ring index 1. -/
def lastRread : Adm := bareAdm 1 [0x21, 0, 0, 0, 0, 0, 0, 0]

/-- A compute record of context 0, ring index 1, with a number of committed rows (R301). -/
def computeRecord (rows : Nat) : List W64 := [journalWord0 0 0 0 1, 0, BitVec.ofNat 64 (2 ^ 16 * rows), 0, 0, 0, 0, 0]

/-- The RREAD's last write, at offset 0 of region 0, with a row mark in journal entry 0. -/
def markingWrite : BankReq :=
  { cls := 0, addr := 0, act := .write [7], arrived := 0, owner := .desc 0 1, frees := none, mark := some (0, 0, computeRecord 1) }

/-- A journal entry whose two copies hold one record (R300). -/
def bothCopies (ws : List W64) : JEntry := { a := ws, b := ws, lostA := false, lostB := false }

/-- Region 0 is LIVE in a ready engine, and its journal lists entry 0 twice: the sub-tile's record, and behind it the RREAD's. -/
def repeatedEntry : State :=
  { State.reset with
    boot := { State.reset.boot with resetAsserted := false, ready := true, phase := 5 }
    units := setUnit State.reset.units .region 0 { MUnit.init with st := .live }
    ctxs := [(0, { Context.init with st := 1, admitted := [lastRread] })]
    rgns := [(0, { Region.init with
      bankReqs := [markingWrite]
      journal := [(0, bothCopies (computeRecord 0)), (0, bothCopies (remoteJournal 0 lastRread true false))] })] }

/-- The state meets every premise of R43's clause: region 0 runs, entry 0 is listed, and the mark is a compute record further on. -/
theorem repeatedEntry_marks : regionRuns repeatedEntry 0 = true ∧ scrubReq (getRgn repeatedEntry 0) 0 = none ∧
    (getRgn repeatedEntry 0).bankReqs = [markingWrite] ∧ bits ((computeRecord 1).getD 0 0).toNat 3 1 = 0 ∧
    thas (getRgn repeatedEntry 0).journal 0 = true ∧ markFits (recordAt repeatedEntry 0 0) (computeRecord 1) = true := by
  decide +kernel

/-- The grant of the write leaves the RREAD's acknowledged record in entry 0. -/
theorem recordAt_bankGrant_repeatedEntry :
    recordAt (bankGrant repeatedEntry 0 0 .clean) 0 0 = remoteJournal 0 lastRread true true := by
  decide +kernel

/-- That record is a remote operation's, not the sub-tile's. -/
theorem remoteJournal_ne_computeRecord : remoteJournal 0 lastRread true true ≠ computeRecord 1 := by
  decide +kernel

/-- A running region's BANK_GRANT in which no copy of region control disagrees is one cycle of the bank. -/
theorem exec_bankGrant_of_runs {s : State} {r : RgnId} (b : Fin 512) (rs : RsResult) (h : regionRuns s r.val = true) :
    exec (.bankGrant r b rs none) s = .next (bankGrant s r.val b.val rs) := by
  show execBankGrant r b rs s none = _
  simp [execBankGrant, regionVote, h]

end Sys2Proof.Machine

open Sys2Proof Sys2Proof.Machine

/-- Refutes O42: where a region's journal lists one number twice, the grant of an RREAD's last write does not leave the record that the
request carries as its row mark (R43). In `repeatedEntry` the RREAD's acknowledged record takes the place of the mark, because the second
entry of that number is the RREAD's. -/
theorem not_grantsFollowClassAndAge : ¬ Obligations.GrantsFollowClassAndAge := by
  unfold Obligations.GrantsFollowClassAndAge
  rintro ⟨hbanks, -⟩
  obtain ⟨hruns, hscrub, hreqs, hkind, hlisted, hfits⟩ := repeatedEntry_marks
  have hall : (getRgn repeatedEntry 0).bankReqs.filter (fun q => bankOf q.addr == 0) ++ (scrubReq (getRgn repeatedEntry 0) 0).toList =
      [markingWrite] := by rw [hreqs, hscrub]; rfl
  obtain ⟨-, -, hgrant⟩ := hbanks repeatedEntry 0 0 hruns
  obtain ⟨t, g, hexec, hg, -, -, -, hwrite, -⟩ := hgrant hscrub (hall.trans_ne (List.cons_ne_nil _ _))
  obtain rfl : g = markingWrite := List.mem_singleton.mp (hall ▸ hg)
  obtain ⟨-, -, hmark⟩ := hwrite [7] rfl
  have hrecord : recordAt t 0 0 = computeRecord 1 := hmark 0 0 (computeRecord 1) rfl hkind hlisted hfits
  obtain rfl : bankGrant repeatedEntry 0 0 .clean = t := Host.Outcome.next.inj ((exec_bankGrant_of_runs (r := 0) 0 .clean hruns).symm.trans hexec)
  exact remoteJournal_ne_computeRecord (recordAt_bankGrant_repeatedEntry.symm.trans hrecord)

end

section
/-!
PROOFS. The doorbell word (R221, R224): its two halves, what a value does to its context, and that the status line it may rewrite (R229)
leaves every context alone.
-/

namespace Sys2Proof.Machine

/-! ### What a status line leaves alone -/

/-- A host-port request of a context changes the host ports alone, so that no context changes. -/
@[simp] theorem hostIssue_ctxs (s : State) (c : Nat) (q : PortReq) : (hostIssue s c q).ctxs = s.ctxs := by
  unfold hostIssue
  split
  · rw [hostSend_rest]
  · rfl

@[simp] theorem logFault_ctxs (s : State) (e : FlogEntry) : (logFault s e).ctxs = s.ctxs := by
  rw [(logFault_logOnly s e).rest]

@[simp] theorem hostPut_ctxs (s : State) (c : Nat) (o : Owner) (a : Nat) (bs : List Byte) : (hostPut s c o a bs).ctxs = s.ctxs := by
  unfold hostPut
  split <;> simp

@[simp] theorem chargeRd_ctxs (s : State) (c n : Nat) : (chargeRd s c n).ctxs = s.ctxs := rfl

@[simp] theorem chargeWr_ctxs (s : State) (c n : Nat) : (chargeWr s c n).ctxs = s.ctxs := rfl

/-- The status line of a context is written from it, and no context changes (R229). -/
@[simp] theorem writeStatus_ctxs (s : State) (c : Nat) : (writeStatus s c).ctxs = s.ctxs := by
  unfold writeStatus
  dsimp only
  split
  · rfl
  · split <;> simp

/-! ### The halves of the doorbell word (R221) -/

theorem bits_high_half (w : W64) : bits w.toNat 63 32 = (w >>> 32).toNat := by
  rw [bits, BitVec.toNat_ushiftRight, Nat.mod_eq_of_lt]
  have := (w >>> 32).isLt
  rw [Nat.shiftRight_eq_div_pow]
  omega

theorem ofNat_bits_low_half (w : W64) : BitVec.ofNat 32 (bits w.toNat 31 0) = w.setWidth 32 := by
  apply BitVec.eq_of_toNat_eq
  simp [bits]

/-! ### A doorbell value against the context -/

/-- R223's `doorbell`, on the word's halves. -/
theorem doorbell_eq_halves (x : Context) (w : W64) : doorbell x w =
    if (w >>> 32).toNat = ceRingEpoch x.ent then
      if 2 ^ ceSqLog2 x.ent < (w.setWidth 32 - x.retire).toNat then { x with dbOverrun := true }
      else { x with dbOverrun := false, producer := w.setWidth 32 }
    else x := by
  simp only [doorbell, bits_high_half, ofNat_bits_low_half, bne_iff_ne, ite_not, decide_eq_true_eq, gt_iff_lt]

theorem doorbell_of_other_epoch {x : Context} {w : W64} (h : (w >>> 32).toNat ≠ ceRingEpoch x.ent) : doorbell x w = x := by
  rw [doorbell_eq_halves, if_neg h]

theorem doorbell_of_overrun {x : Context} {w : W64} (h : (w >>> 32).toNat = ceRingEpoch x.ent)
    (hover : 2 ^ ceSqLog2 x.ent < (w.setWidth 32 - x.retire).toNat) : doorbell x w = { x with dbOverrun := true } := by
  rw [doorbell_eq_halves, if_pos h, if_pos hover]

theorem doorbell_of_room {x : Context} {w : W64} (h : (w >>> 32).toNat = ceRingEpoch x.ent)
    (hroom : (w.setWidth 32 - x.retire).toNat ≤ 2 ^ ceSqLog2 x.ent) :
    doorbell x w = { x with dbOverrun := false, producer := w.setWidth 32 } := by
  rw [doorbell_eq_halves, if_pos h, if_neg hroom.not_gt]

/-- A doorbell value changes the producer index and db_overrun alone. -/
theorem doorbell_rest (x : Context) (w : W64) :
    doorbell x w = { x with producer := (doorbell x w).producer, dbOverrun := (doorbell x w).dbOverrun } := by
  rw [doorbell_eq_halves]
  split
  · split <;> rfl
  · rfl

@[simp] theorem doorbell_fetch (x : Context) (w : W64) : (doorbell x w).fetch = x.fetch := by rw [doorbell_rest]
@[simp] theorem doorbell_admitted (x : Context) (w : W64) : (doorbell x w).admitted = x.admitted := by rw [doorbell_rest]
@[simp] theorem doorbell_fetched (x : Context) (w : W64) : (doorbell x w).fetched = x.fetched := by rw [doorbell_rest]

/-! ### The command -/

/-- Of all the contexts, the word's return changes its own alone. -/
theorem doorbellOp_ctxs (s : State) (c : Nat) (w : W64) : (doorbellOp s c w).ctxs =
    (setCtx s c { doorbell (getCtx s c) w with dbRead := (getCtx s c).dbAgain, dbAgain := false }).ctxs := by
  unfold doorbellOp
  dsimp only
  split
  · rw [writeStatus_ctxs]; rfl
  · rfl

theorem getCtx_doorbellOp (s : State) (c : Nat) (w : W64) : getCtx (doorbellOp s c w) c =
    { doorbell (getCtx s c) w with dbRead := (getCtx s c).dbAgain, dbAgain := false } := by
  rw [getCtx, doorbellOp_ctxs]
  exact getCtx_setCtx ..

theorem getCtx_doorbellOp_ne (s : State) {c d : Nat} (w : W64) (h : d ≠ c) : getCtx (doorbellOp s c w) d = getCtx s d := by
  rw [getCtx, doorbellOp_ctxs]
  exact getCtx_setCtx_ne s c d _ h

/-- The word of an active context returns where its read is outstanding and a host port carries it. -/
theorem exec_doorbellValue_of_read {s : State} {c : CtxId} (w : W64) (hst : (getCtx s c.val).st = 1)
    (hread : (getCtx s c.val).dbRead = true) (hport : (hostPortFor s c.val).isSome = true) :
    exec (.doorbellValue c w) s = .next (doorbellOp s c.val w) := by
  show execDoorbellValue c w s = _
  simp [execDoorbellValue, hst, hread, hport]

end Sys2Proof.Machine

open Sys2Proof Sys2Proof.Machine

/-- Settles O28: the state after the word is `doorbellOp`, whose context is `doorbell` of the one before, and the three clauses are the
three branches of `doorbell` (R221, R224). -/
theorem doorbellValueRules : Obligations.DoorbellValueRules := by
  unfold Obligations.DoorbellValueRules
  intro s c w hst hread hport x prod
  refine ⟨doorbellOp s c.val w, exec_doorbellValue_of_read w hst hread hport, fun d hd => getCtx_doorbellOp_ne s w hd, ?_⟩
  rw [getCtx_doorbellOp]
  refine ⟨rfl, rfl, doorbell_fetch x w, doorbell_admitted x w, doorbell_fetched x w, ?_, ?_, ?_⟩
  · intro hepoch
    rw [doorbell_of_other_epoch hepoch]
    exact ⟨rfl, rfl⟩
  · intro hepoch hover
    rw [doorbell_of_overrun hepoch hover]
    exact ⟨rfl, rfl⟩
  · intro hepoch hroom
    rw [doorbell_of_room hepoch hroom]
    exact ⟨rfl, rfl⟩

end

section
/-!
PROOFS. Tempo's period end (R260, R261, R263): the condition under which the next period begins, the context and the account it changes,
and the range of tempo_ns that an activation accepts.
-/

namespace Sys2Proof.Machine

/-! ### The charge of a late step (R263) -/

/-- A step that was not late is charged 0 ns, which leaves the account's sum as it is. -/
theorem getAcct_chargeLate_lateNs (s : State) (c late : Nat) :
    (getAcct (chargeLate s c late) c).lateNs = (getAcct s c).lateNs + BitVec.ofNat 64 late := by
  unfold chargeLate
  split
  case isTrue h => simp [eq_of_beq h]
  case isFalse => rw [getAcct_setAcct]

/-- The charge is telemetry alone. -/
theorem chargeLate_rest (s : State) (c late : Nat) : chargeLate s c late = { s with tlm := (chargeLate s c late).tlm } := by
  unfold chargeLate
  split <;> rfl

@[simp] theorem getCtx_chargeLate (s : State) (c late d : Nat) : getCtx (chargeLate s c late) d = getCtx s d := by
  rw [chargeLate_rest]
  rfl

/-! ### When a period ends -/

/-- A period ends when its time has elapsed and every descriptor of its step has its record (R260, R261). -/
theorem tempoEnd_of_complete {s : State} {c : Nat} (hst : (getCtx s c).st = 1) (htempo : ceTempoNs (getCtx s c).ent ≠ 0)
    (hfin : (getCtx s c).tempo.fin ≤ s.time.t) (hopen : (getCtx s c).tempo.openRings = []) :
    tempoEnd s c = chargeLate (setCtx s c { getCtx s c with tempo := tempoNext (getCtx s c).ent (getCtx s c).tempo }) c
      ((getCtx s c).tempo.lastDone - (getCtx s c).tempo.fin) := by
  simp [tempoEnd, hst, htempo, hfin, hopen]

/-- Whatever a period's end does, it changes contexts and telemetry alone. -/
theorem tempoEnd_rest (s : State) (c : Nat) : tempoEnd s c = { s with ctxs := (tempoEnd s c).ctxs, tlm := (tempoEnd s c).tlm } := by
  unfold tempoEnd
  dsimp only
  split
  · rw [chargeLate_rest]
    rfl
  · rfl

theorem getCtx_tempoEnd_ne (s : State) {c d : Nat} (h : d ≠ c) : getCtx (tempoEnd s c) d = getCtx s d := by
  unfold tempoEnd
  dsimp only
  split
  · rw [getCtx_chargeLate, getCtx_setCtx_ne s _ _ _ h]
  · rfl

/-- Before its end, or while a descriptor of its step has no record, the period stays as it is: no step is cut short (R261). -/
theorem tempoEnd_of_unfinished {s : State} {c : Nat}
    (h : s.time.t < (getCtx s c).tempo.fin ∨ (getCtx s c).tempo.openRings ≠ []) : tempoEnd s c = s := by
  refine if_neg ?_
  simp only [Bool.and_eq_true, decide_eq_true_eq, List.isEmpty_iff]
  rintro ⟨⟨-, hfin⟩, hopen⟩
  exact h.elim (not_lt_of_ge hfin) (fun hne => hne hopen)

/-! ### The entry (R261) -/

theorem ceValid_eq_false_of_short_tempo {e : List W64} (hpos : 1 ≤ ceTempoNs e) (hshort : ceTempoNs e < 1000) : ceValid e = false := by
  have hrange : (ceTempoNs e == 0 || decide (1000 ≤ ceTempoNs e)) = false := by simp; omega
  simp [ceValid, ceInRange, hrange]

end Sys2Proof.Machine

open Sys2Proof Sys2Proof.Machine

/-- Settles O35: a complete step ends in `tempoNext`'s period, which holds R261's sums as they stand, with its lateness charged; any other
step leaves the state as it is. -/
theorem tempoPeriodsAdvance : Obligations.TempoPeriodsAdvance := by
  unfold Obligations.TempoPeriodsAdvance
  intro s c x p late d cut
  refine ⟨fun hst htempo hfin hopen => ?_, fun h => congrArg Host.Outcome.next (tempoEnd_of_unfinished h),
    fun e => ⟨ceValid_eq_false_of_short_tempo, rfl⟩⟩
  have hend := tempoEnd_of_complete hst htempo hfin hopen
  have hctx : getCtx (tempoEnd s c.val) c.val = { x with tempo := tempoNext x.ent x.tempo } := by
    rw [hend, getCtx_chargeLate, getCtx_setCtx]
  have hacct : (getAcct (tempoEnd s c.val) c.val).lateNs = (getAcct s c.val).lateNs + BitVec.ofNat 64 late := by
    rw [hend, getAcct_chargeLate_lateNs, getAcct_setCtx]
  refine ⟨tempoEnd s c.val, rfl, tempoEnd_rest s c.val, fun e he => getCtx_tempoEnd_ne s he, ?_⟩
  rw [hctx]
  exact ⟨rfl, rfl, rfl, rfl, rfl, rfl, hacct⟩

end

section
/-!
PROOFS. An array reset (R376): what a request with the token becomes, what a wake from idle leaves alone (R384), and the two answers of the
reset.
-/

namespace Sys2Proof.Machine

/-! ### A request with the token -/

/-- A wake from idle changes the boot record and the islands' gating alone (R384). -/
theorem wake_rest (s : State) : wake s = { s with boot := (wake s).boot, isl := (wake s).isl } := by
  unfold wake
  split <;> rfl

@[simp] theorem wake_mnt (s : State) : (wake s).mnt = s.mnt := by rw [wake_rest]
@[simp] theorem wake_units (s : State) : (wake s).units = s.units := by rw [wake_rest]
@[simp] theorem wake_arrs (s : State) : (wake s).arrs = s.arrs := by rw [wake_rest]
@[simp] theorem getArr_wake (s : State) (a : Nat) : getArr (wake s) a = getArr s a := by rw [getArr, wake_arrs, getArr]
@[simp] theorem unitSt_wake (s : State) (k : UnitKind) (n : Nat) : unitSt (wake s) k n = unitSt s k n := by
  rw [unitSt, wake_units, unitSt]

@[simp] theorem getHp_respond_resp (s : State) (p : Nat) (r : HostResp) : (getHp (respond s p r) p).resp = r := by simp [respond]

/-- With the token the write has its effect on the woken machine, and the port answers (R366, R384). -/
theorem tokenWrite_of_token {s : State} {p : Nat} (f : State → State) (hans : hostAnswers s p = true) (htok : s.mnt.holder = 1) :
    tokenWrite s p f = respond (f (wake s)) p .ok := by
  simp [tokenWrite, holds, hans, htok]

/-! ### The reset (R376) -/

/-- An array as its reset leaves it: as new, but for the times of its mismatches and parity errors. -/
def clearedArray (x : ArrayS) : ArrayS := { ArrayS.init with missTimes := x.missTimes, parityTimes := x.parityTimes }

theorem arrayReset_of_disabled_or_fenced {s : State} {a : Nat} (h : unitSt s .array a = .disabled ∨ unitSt s .array a = .fenced) :
    arrayReset s a = setArr s a (clearedArray (getArr s a)) := by
  rcases h with h | h <;> rw [arrayReset, h] <;> rfl

theorem arrayReset_of_other {s : State} {a : Nat} (hdis : unitSt s .array a ≠ .disabled) (hfen : unitSt s .array a ≠ .fenced) :
    arrayReset s a = { s with mnt := { s.mnt with refused := true } } := by
  unfold arrayReset
  split
  case h_1 h => exact absurd h hdis
  case h_2 h => exact absurd h hfen
  case h_3 => rfl

theorem arrayReset_rest (s : State) (a : Nat) :
    arrayReset s a = { s with arrs := (arrayReset s a).arrs, mnt := (arrayReset s a).mnt } := by
  unfold arrayReset
  split <;> rfl

theorem getArr_arrayReset_ne (s : State) {a b : Nat} (h : b ≠ a) : getArr (arrayReset s a) b = getArr s b := by
  unfold arrayReset
  split
  case h_1 | h_2 => exact getArr_setArr_ne _ _ _ _ h
  case h_3 => rfl

theorem exec_arrayReset_of_token {s : State} {p : HostId} (a : ArrId) (hans : hostAnswers s p.val = true) (htok : s.mnt.holder = 1) :
    exec (.arrayReset p a) s = .next (respond (arrayReset (wake s) a.val) p.val .ok) :=
  congrArg Host.Outcome.next (tokenWrite_of_token _ hans htok)

end Sys2Proof.Machine

open Sys2Proof Sys2Proof.Machine

/-- Settles O11: the request is `arrayReset` of the woken machine, which puts `clearedArray` in the array's place where it is DISABLED or
FENCED, and sets the refusal mark where it is neither (R376). -/
theorem arrayResetClears : Obligations.ArrayResetClears := by
  unfold Obligations.ArrayResetClears
  intro s p a hans htok
  refine ⟨respond (arrayReset (wake s) a.val) p.val .ok, exec_arrayReset_of_token a hans htok, getHp_respond_resp _ _ _, ?_,
    fun b hb => ?_, fun hclear => ?_, fun hdis hfen => ?_⟩
  · rw [arrayReset_rest]
    rfl
  · rw [getArr_respond, getArr_arrayReset_ne _ hb, getArr_wake]
  · rw [arrayReset_of_disabled_or_fenced (by rwa [unitSt_wake])]
    simp [clearedArray, ArrayS.init]
  · rw [arrayReset_of_other (by rwa [unitSt_wake]) (by rwa [unitSt_wake]), respond_mnt, getArr_respond, wake_mnt]
    exact ⟨rfl, getArr_wake s a.val⟩

end

section
/-!
PROOFS. The queue and the tick; what every command keeps; that every command answers a next state, and what discards data and responses
that answer nothing.
-/

namespace Sys2Proof.Machine

/-! ### What every command keeps -/

/-- One command's law for each constructor of `Instr`. -/
theorem keeps_exec : ∀ {i : Instr} {s t : State}, exec i s = .next t → Keeps s t
  | .rstColdNAssert, _, _, e => keeps_execRstColdNAssert e
  | .coldBoot .., _, _, e => keeps_execColdBoot e
  | .rstWarmNFall, _, _, e => keeps_execRstWarmNFall e
  | .resetWarm .., _, _, e => keeps_execResetWarm e
  | .contextAbort .., _, _, e => keeps_execContextAbort e
  | .arrayReset .., _, _, e => keeps_execArrayReset e
  | .refclkLoss, _, _, e => keeps_execRefclkLoss e
  | .timestampSample .., _, _, e => keeps_execTimestampSample e
  | .timestampStale, _, _, e => keeps_execTimestampStale e
  | .droopStretch .., _, _, e => keeps_execDroopStretch e
  | .islandFault .., _, _, e => keeps_execIslandFault e
  | .railsRemoved, _, _, e => keeps_execRailsRemoved e
  | .hostPortDown .., _, _, e => keeps_execHostPortDown e
  | .hostPortUp .., _, _, e => keeps_execHostPortUp e
  | .memoryPortDown .., _, _, e => keeps_execMemoryPortDown e
  | .mainSideDown, _, _, e => keeps_execMainSideDown e
  | .mppCreditReturn .., _, _, e => keeps_execMppCreditReturn e
  | .mppRdReceive .., _, _, e => keeps_execMppRdReceive e
  | .mppRspReceive .., _, _, e => keeps_execMppRspReceive e
  | .crossingTransfer .., _, _, e => keeps_execCrossingTransfer e
  | .registerWrite .., _, _, e => keeps_execRegisterWrite e
  | .hostSpeaksWrite .., _, _, e => keeps_execHostSpeaksWrite e
  | .unitDisable .., _, _, e => keeps_execUnitDisable e
  | .unitForceDisable .., _, _, e => keeps_execUnitForceDisable e
  | .unitEnable .., _, _, e => keeps_execUnitEnable e
  | .unitFence .., _, _, e => keeps_execUnitFence e
  | .unitDrainDone .., _, _, e => keeps_execUnitDrainDone e
  | .unitTestDone .., _, _, e => keeps_execUnitTestDone e
  | .ownerAcquire .., _, _, e => keeps_execOwnerAcquire e
  | .ownerRelease .., _, _, e => keeps_execOwnerRelease e
  | .streamOwnerWrite .., _, _, e => keeps_execStreamOwnerWrite e
  | .scratchpadScrub .., _, _, e => keeps_execScratchpadScrub e
  | .arraySelfTest .., _, _, e => keeps_execArraySelfTest e
  | .islandRecalibration .., _, _, e => keeps_execIslandRecalibration e
  | .fuseShadowReload .., _, _, e => keeps_execFuseShadowReload e
  | .rngSelfTest .., _, _, e => keeps_execRngSelfTest e
  | .journalCompaction .., _, _, e => keeps_execJournalCompaction e
  | .telemetrySnapshot .., _, _, e => keeps_execTelemetrySnapshot e
  | .maintQueuedStart .., _, _, e => keeps_execMaintQueuedStart e
  | .maintActivityEnd .., _, _, e => keeps_execMaintActivityEnd e
  | .autoScrub .., _, _, e => keeps_execAutoScrub e
  | .snapNow .., _, _, e => keeps_execSnapNow e
  | .snapshotPeriod, _, _, e => keeps_execSnapshotPeriod e
  | .pstateRun .., _, _, e => keeps_execPstateRun e
  | .pstateReducedClock .., _, _, e => keeps_execPstateReducedClock e
  | .pstateRetention .., _, _, e => keeps_execPstateRetention e
  | .retentionPortGate, _, _, e => keeps_execRetentionPortGate e
  | .idleEntry, _, _, e => keeps_execIdleEntry e
  | .powerControlInterval .., _, _, e => keeps_execPowerControlInterval e
  | .thermalInterval .., _, _, e => keeps_execThermalInterval e
  | .doorbellNotify .., _, _, e => keeps_execDoorbellNotify e
  | .dbPoll, _, _, e => keeps_execDbPoll e
  | .contextActivation .., _, _, e => keeps_execContextActivation e
  | .doorbellValue .., _, _, e => keeps_execDoorbellValue e
  | .descriptorFetch .., _, _, e => keeps_execDescriptorFetch e
  | .admission .., _, _, e => keeps_execAdmission e
  | .cqHeadRead .., _, _, e => keeps_execCqHeadRead e
  | .completionRecord .., _, _, e => keeps_execCompletionRecord e
  | .dispatch .., _, _, e => keeps_execDispatch e
  | .bindSubtile .., _, _, e => keeps_execBindSubtile e
  | .starvationRelief .., _, _, e => keeps_execStarvationRelief e
  | .tempoPeriodEnd .., _, _, e => keeps_execTempoPeriodEnd e
  | .slotAssign .., _, _, e => keeps_execSlotAssign e
  | .shadowLoadRow .., _, _, e => keeps_execShadowLoadRow e
  | .passCastle .., _, _, e => keeps_execPassCastle e
  | .rowBroadcast .., _, _, e => keeps_execRowBroadcast e
  | .rowCheck .., _, _, e => keeps_execRowCheck e
  | .rowCommit .., _, _, e => keeps_execRowCommit e
  | .skewedDelivery .., _, _, e => keeps_execSkewedDelivery e
  | .bankGrant .., _, _, e => keeps_execBankGrant e
  | .portGrant .., _, _, e => keeps_execPortGrant e
  | .rngGrant .., _, _, e => keeps_execRngGrant e
  | .sideWeightFill .., _, _, e => keeps_execSideWeightFill e
  | .sideDotRow .., _, _, e => keeps_execSideDotRow e
  | .sideSpillService .., _, _, e => keeps_execSideSpillService e
  | .transposerRow .., _, _, e => keeps_execTransposerRow e
  | .gatherRow .., _, _, e => keeps_execGatherRow e
  | .stageWindow .., _, _, e => keeps_execStageWindow e
  | .gambitPreload .., _, _, e => keeps_execGambitPreload e
  | .gambitPrefetch .., _, _, e => keeps_execGambitPrefetch e
  | .speculativePass .., _, _, e => keeps_execSpeculativePass e
  | .specConfirm .., _, _, e => keeps_execSpecConfirm e
  | .subtileReplay .., _, _, e => keeps_execSubtileReplay e
  | .maskSweep .., _, _, e => keeps_execMaskSweep e
  | .maskRebuild .., _, _, e => keeps_execMaskRebuild e
  | .maskCommit .., _, _, e => keeps_execMaskCommit e
  | .maskRetire .., _, _, e => keeps_execMaskRetire e
  | .maskCommitRecovery .., _, _, e => keeps_execMaskCommitRecovery e
  | .waitvPoll .., _, _, e => keeps_execWaitvPoll e
  | .waitvTimeout .., _, _, e => keeps_execWaitvTimeout e
  | .windowRead .., _, _, e => keeps_execWindowRead e
  | .windowWrite .., _, _, e => keeps_execWindowWrite e
  | .windowAtomic .., _, _, e => keeps_execWindowAtomic e
  | .nop .., _, _, e => keeps_execNop e
  | .gemm .., _, _, e => keeps_execGemm e
  | .fused2 .., _, _, e => keeps_execFused2 e
  | .spmm .., _, _, e => keeps_execSpmm e
  | .tspmm .., _, _, e => keeps_execTspmm e
  | .mgrad .., _, _, e => keeps_execMgrad e
  | .conv .., _, _, e => keeps_execConv e
  | .gemv .., _, _, e => keeps_execGemv e
  | .fold .., _, _, e => keeps_execFold e
  | .prune .., _, _, e => keeps_execPrune e
  | .regrow .., _, _, e => keeps_execRegrow e
  | .maskset .., _, _, e => keeps_execMaskset e
  | .bmask .., _, _, e => keeps_execBmask e
  | .castle .., _, _, e => keeps_execCastle e
  | .rwrite .., _, _, e => keeps_execRwrite e
  | .rread .., _, _, e => keeps_execRread e
  | .ratomicFetchAdd32 .., _, _, e => keeps_execRatomicFetchAdd32 e
  | .ratomicFetchAdd64 .., _, _, e => keeps_execRatomicFetchAdd64 e
  | .ratomicCas .., _, _, e => keeps_execRatomicCas e
  | .ratomicMax .., _, _, e => keeps_execRatomicMax e
  | .ratomicOr .., _, _, e => keeps_execRatomicOr e
  | .waitv .., _, _, e => keeps_execWaitv e
  | .fence .., _, _, e => keeps_execFence e
  | .ctxsave .., _, _, e => keeps_execCtxsave e
  | .ctxload .., _, _, e => keeps_execCtxload e
  | .stream .., _, _, e => keeps_execStream e
  | .entdaa .., _, _, e => keeps_execEntdaa e
  | .setdasa .., _, _, e => keeps_execSetdasa e
  | .setEndpointId .., _, _, e => keeps_execSetEndpointId e
  | .spdmRequest .., _, _, e => keeps_execSpdmRequest e
  | .faultNotifyRead, _, _, e => keeps_execFaultNotifyRead e
  | .getTelemetry .., _, _, e => keeps_execGetTelemetry e
  | .readFaultLog .., _, _, e => keeps_execReadFaultLog e
  | .readAccount .., _, _, e => keeps_execReadAccount e
  | .readJournal .., _, _, e => keeps_execReadJournal e
  | .readFuseView .., _, _, e => keeps_execReadFuseView e
  | .unitRequest .., _, _, e => keeps_execUnitRequest e
  | .warmReset .., _, _, e => keeps_execWarmReset e
  | .maintRequest .., _, _, e => keeps_execMaintRequest e
  | .ownership .., _, _, e => keeps_execOwnership e
  | .setPowerCap .., _, _, e => keeps_execSetPowerCap e
  | .testUnlock .., _, _, e => keeps_execTestUnlock e
  | .tapInstruction .., _, _, e => keeps_execTapInstruction e
  | .idcode, _, _, e => keeps_execIdcode e

/-! ### The tick (R350) -/

theorem tick_of_timeRuns {s : State} (h : timeRuns s = true) (hheld : s.time.held = false) :
    tick s = { s with time := { s.time with t := s.time.t + 1 } } := by
  simp [tick, h, hheld]

theorem tick_of_stopped {s : State} (h : ¬(timeRuns s = true ∧ s.time.held = false)) : tick s = s := by
  unfold tick
  rw [if_neg (by simpa using h)]

theorem timeRuns_iff (s : State) : timeRuns s = true ↔
    (s.time.refclk = true ∨ s.time.calibrated = true) ∧ s.boot.off = false ∧ s.boot.resetAsserted = false := by
  simp [timeRuns, and_assoc]

/-- A tick changes T alone, so it keeps the invariant. -/
theorem inv_tick {s : State} (h : Inv s) : Inv (tick s) := by
  unfold tick
  split
  · exact ⟨h.mem, h.token, h.version, h.log⟩
  · exact h

/-! ### Data and responses that answer nothing (log 46) -/

theorem find?_eq_none_of_forall_not {l : Tbl PortReq} {tag : Nat} {p : PortReq → Bool} {q : PortReq → Prop}
    (hp : ∀ r, p r = true → q r) (h : ∀ e ∈ l, ¬(e.1 = tag ∧ q e.2)) : l.find? (fun e => e.1 == tag && p e.2) = none := by
  rw [List.find?_eq_none]
  intro e he hfound
  obtain ⟨htag, hq⟩ := Bool.and_eq_true_iff.mp hfound
  exact h e he ⟨eq_of_beq htag, hp e.2 hq⟩

/-- No read of a table stands outstanding under a tag. -/
theorem find?_read_eq_none {l : Tbl PortReq} {tag : Nat} (h : ∀ e ∈ l, ¬(e.1 = tag ∧ e.2.op = 0)) :
    l.find? (fun e => e.1 == tag && e.2.op == 0) = none :=
  find?_eq_none_of_forall_not (p := fun r => r.op == 0) (fun _ => eq_of_beq) h

theorem answered_eq_none {l : Tbl PortReq} {tag : Nat} {st : BitVec 2} (h : ∀ e ∈ l, ¬(e.1 = tag ∧ (e.2.op ≠ 0 ∨ st ≠ 0))) :
    answered l tag st = none := by
  unfold answered
  rw [find?_eq_none_of_forall_not (p := fun r => r.op != 0 || st != 0) (q := fun r => r.op ≠ 0 ∨ st ≠ 0) (by simp) h]
  rfl

/-- Every command answers a next state: no arm stops or is refused. -/
theorem exec_next (i : Instr) (s : State) : ∃ t, exec i s = .next t := by
  cases i <;> exact ⟨_, rfl⟩

theorem exec_mppRdReceive_mem_unasked {s : State} {q : PortId} {tag : BitVec 12} (data : List Byte) (rs : RsResult) (p : Bool)
    (h : ∀ e ∈ (getMp s q.val).rdOut, ¬(e.1 = tag.toNat ∧ e.2.op = 0)) : exec (.mppRdReceive (.mem q) tag data rs p) s = .next s := by
  show execMppRdReceive (.mem q) tag data rs p s = _
  simp [execMppRdReceive, find?_read_eq_none h]

theorem exec_mppRdReceive_host_unasked {s : State} {p : HostId} {tag : BitVec 12} (data : List Byte) (rs : RsResult) (poison : Bool)
    (h : ∀ e ∈ (getHp s p.val).initOut, ¬(e.1 = tag.toNat ∧ e.2.op = 0)) :
    exec (.mppRdReceive (.host p) tag data rs poison) s = .next s := by
  show execMppRdReceive (.host p) tag data rs poison s = _
  simp [execMppRdReceive, find?_read_eq_none h]

theorem exec_mppRspReceive_mem_unasked {s : State} {q : PortId} {tag : BitVec 12} {st : BitVec 2} (prior : W64)
    (h : ∀ e ∈ (getMp s q.val).wrOut ++ (getMp s q.val).rdOut, ¬(e.1 = tag.toNat ∧ (e.2.op ≠ 0 ∨ st ≠ 0))) :
    exec (.mppRspReceive (.mem q) tag st prior) s = .next s := by
  show execMppRspReceive (.mem q) tag st prior s = _
  simp [execMppRspReceive, answered_eq_none h]

theorem exec_mppRspReceive_host_unasked {s : State} {p : HostId} {tag : BitVec 12} {st : BitVec 2} (prior : W64)
    (h : ∀ e ∈ (getHp s p.val).initOut, ¬(e.1 = tag.toNat ∧ (e.2.op ≠ 0 ∨ st ≠ 0))) :
    exec (.mppRspReceive (.host p) tag st prior) s = .next s := by
  show execMppRspReceive (.host p) tag st prior s = _
  simp [execMppRspReceive, answered_eq_none h]

end Sys2Proof.Machine

open Sys2Proof Sys2Proof.Machine

/-- Settles O3: a command keeps the invariant by `keeps_exec`, whose state before differs from the step's in the queue alone; without a
command the tick keeps it. -/
theorem stepKeepsInvariant : Obligations.StepKeepsInvariant := by
  unfold Obligations.StepKeepsInvariant
  intro s t hinv hstep
  unfold step at hstep
  split at hstep
  · cases hstep
    exact inv_tick hinv
  · exact (keeps_exec hstep).inv ⟨hinv.mem, hinv.token, hinv.version, hinv.log⟩

/-- Settles O5: five of the parts of `Keeps`. -/
theorem commandsKeepSurroundings : Obligations.CommandsKeepSurroundings := by
  unfold Obligations.CommandsKeepSurroundings
  intro c s t hexec
  have hkeeps := keeps_exec hexec
  exact ⟨hkeeps.cfg, hkeeps.env, hkeeps.pending, hkeeps.time, hkeeps.free⟩

/-- Settles O6: no arm of `exec` stops, and a table without the tag answers no request. -/
theorem everyCommandRuns : Obligations.EveryCommandRuns := by
  unfold Obligations.EveryCommandRuns
  intro c s
  obtain ⟨t, hexec⟩ := exec_next c s
  have same {i : Instr} (hi : c = i) (hkeep : exec i s = .next s) : t = s := by
    rw [hi, hkeep] at hexec
    exact (Host.Outcome.next.inj hexec).symm
  exact ⟨t, hexec, fun _ _ data rs p hc h => same hc (exec_mppRdReceive_mem_unasked data rs p h),
    fun _ _ data rs p hc h => same hc (exec_mppRdReceive_host_unasked data rs p h),
    fun _ _ _ pr hc h => same hc (exec_mppRspReceive_mem_unasked pr h),
    fun _ _ _ pr hc h => same hc (exec_mppRspReceive_host_unasked pr h)⟩

/-- Settles O1. -/
theorem stepRunsFront : Obligations.StepRunsFront := by
  unfold Obligations.StepRunsFront
  intro s c rest hpending
  rw [step, hpending]

/-- Settles O2: the two branches of `tick`. -/
theorem idleStepTicks : Obligations.IdleStepTicks := by
  unfold Obligations.IdleStepTicks
  intro s hpending
  refine ⟨tick s, by rw [step, hpending], ?_⟩
  by_cases hgo : timeRuns s = true ∧ s.time.held = false
  · have hruns := (timeRuns_iff s).mp hgo.1
    rw [tick_of_timeRuns hgo.1 hgo.2]
    exact ⟨rfl, iff_of_true rfl ⟨hruns.1, hruns.2.1, hruns.2.2, hgo.2⟩, .inl rfl⟩
  · rw [tick_of_stopped hgo]
    refine ⟨rfl, iff_of_false (Nat.ne_of_lt (Nat.lt_succ_self _)) ?_, .inr rfl⟩
    rintro ⟨hclk, hoff, hreset, hheld⟩
    exact hgo ⟨(timeRuns_iff s).mpr ⟨hclk, hoff, hreset⟩, hheld⟩

/-- Settles O4: each part of the invariant is a fact about the one state. -/
theorem resetMeetsInvariant : Obligations.ResetMeetsInvariant := by
  unfold Obligations.ResetMeetsInvariant
  exact ⟨by decide, by decide, by decide, by decide⟩

end

section
/-!
PROOFS. The fault log (R324, R325, R347, R397): an event merges or takes the entry at `next`, and what an entry of its own writes and reports.
-/

namespace Sys2Proof.Machine

/-! ### Merging and new entries (R325) -/

theorem logFault_of_merge {s : State} {e : FlogEntry} {j : Nat} (hcls : e.cls = 1) (h : mergeAt s e = some j) :
    logFault s e = { s with flog := { s.flog with entries := tset s.flog.entries j { tget e s.flog.entries j with
      count := if (tget e s.flog.entries j).count == 255 then 255 else (tget e s.flog.entries j).count + 1 } } } := by
  simp [logFault, clsCorrectable, hcls, h]

theorem logFault_of_new {s : State} {e : FlogEntry} (h : e.cls ≠ 1 ∨ mergeAt s e = none) : logFault s e = logNew s e := by
  rcases h with h | h
  · unfold logFault
    rw [if_neg (by simpa [clsCorrectable] using h)]
  · simp [logFault, h]

/-- The count of merged events stops at 255. -/
theorem toNat_count_next (x : Byte) : (if x == 255 then (255 : Byte) else x + 1).toNat = min 255 (x.toNat + 1) := by
  have hx := x.isLt
  by_cases h : x = 255
  · subst h; rfl
  · have hne : x.toNat ≠ 255 := fun e => h (BitVec.eq_of_toNat_eq e)
    simp only [beq_iff_eq, h, if_false]
    rw [BitVec.toNat_add_of_lt] <;> simp <;> omega

/-! ### The entry at `next` (R397) -/

/-- The log with an entry written at `next`. -/
def FaultLog.put (f : FaultLog) (e : FlogEntry) : FaultLog :=
  { f with entries := tset f.entries f.next.toNat e, next := f.next + 1, written := f.written + 1 }

theorem logNew_of_unreported {s : State} {e : FlogEntry} (h : e.cls.toNat < 3) : logNew s e = { s with flog := s.flog.put e } := by
  simp [logNew, FaultLog.put, Nat.not_le.mpr h]

theorem logNew_of_reported {s : State} {e : FlogEntry} (h : 3 ≤ e.cls.toNat) :
    logNew s e = faultIrq (notifySideband { s with flog := s.flog.put e } e) := by
  simp [logNew, FaultLog.put, h]

@[simp] theorem notifySideband_flog (s : State) (e : FlogEntry) : (notifySideband s e).flog = s.flog := by
  unfold notifySideband
  split <;> rfl

/-- Whether the entry is reported or not, the log holds it at the former `next`. -/
theorem logNew_flog (s : State) (e : FlogEntry) : (logNew s e).flog.entries = (s.flog.put e).entries ∧
    (logNew s e).flog.next = s.flog.next + 1 ∧ (logNew s e).flog.written = s.flog.written + 1 := by
  rcases Nat.lt_or_ge e.cls.toNat 3 with h | h
  · rw [logNew_of_unreported h]
    exact ⟨rfl, rfl, rfl⟩
  · rw [logNew_of_reported h]
    obtain ⟨hentries, hnext, hwritten, -⟩ := faultIrq_log (notifySideband { s with flog := s.flog.put e } e)
    exact ⟨by rw [hentries, notifySideband_flog], by rw [hnext, notifySideband_flog]; rfl, by rw [hwritten, notifySideband_flog]; rfl⟩

/-! ### The sideband's queue (R347) -/

theorem logNew_sbd_of_reported {s : State} {e : FlogEntry} (h : 3 ≤ e.cls.toNat) : (logNew s e).sbd = (notifySideband s e).sbd := by
  rw [logNew_of_reported h, (faultIrq_log _).2.2.2]
  unfold notifySideband
  split <;> rfl

theorem notifySideband_ibi (s : State) (e : FlogEntry) : (notifySideband s e).sbd.ibi = some 0xA5 := by
  unfold notifySideband
  split <;> rfl

theorem notifySideband_queue_of_room {s : State} {e : FlogEntry} (h : s.sbd.queue.length < 16) :
    (notifySideband s e).sbd.queue = s.sbd.queue ++ [(e, false)] := by
  simp [notifySideband, h]

theorem notifySideband_of_full {s : State} {e : FlogEntry} (h : 16 ≤ s.sbd.queue.length) :
    (notifySideband s e).sbd.ovf = true ∧ (notifySideband s e).sbd.queue.length = s.sbd.queue.length := by
  have hne : s.sbd.queue ≠ [] := fun e => by simp [e] at h
  rw [notifySideband, if_neg h.not_gt]
  refine ⟨rfl, ?_⟩
  simp [List.getLast?_eq_getLast_of_ne_nil hne]
  omega

end Sys2Proof.Machine

open Sys2Proof Sys2Proof.Machine

/-- Settles O7: a merge counts in its entry, and any other event is `logNew`, which writes at `next` and reports from class 3 on. -/
theorem faultLogRecordsEvents : Obligations.FaultLogRecordsEvents := by
  unfold Obligations.FaultLogRecordsEvents
  intro s e
  refine ⟨logFault_logOnly s e, fun hnew => ?_, fun j hcls hmerge => ?_⟩
  · rw [logFault_of_new hnew]
    obtain ⟨hentries, hnext, hwritten⟩ := logNew_flog s e
    rw [hentries]
    refine ⟨hnext, hwritten, fun d => tget_tset_self .., fun d j hj => tget_tset_ne _ _ _ _ _ hj, fun h3 => ?_, fun h3 hroom => ?_,
      fun h3 hfull => ?_, fun h3 => ?_⟩
    · rw [logNew_sbd_of_reported h3, notifySideband_ibi]
    · rw [logNew_sbd_of_reported h3, notifySideband_queue_of_room hroom]
    · rw [logNew_sbd_of_reported h3]
      exact notifySideband_of_full hfull
    · rw [logNew_of_unreported h3]
      exact ⟨rfl, rfl, rfl⟩
  · rw [logFault_of_merge hcls hmerge]
    refine ⟨rfl, rfl, rfl, rfl, rfl, ?_⟩
    rw [tget_tset_self]
    exact toNat_count_next _

end

section
/-!
PROOFS. Cold reset (R351, R354) and warm reset (R373, R374): what each leaves of every part of the state, and how a warm reset ends or waits.
-/

namespace Sys2Proof.Machine

/-! ### Cold reset -/

theorem getMp_coldReset (s : State) (q : Nat) :
    getMp (coldReset s) q = { MemPort.init with up := (getMp s q).up, cycle := (getMp s q).cycle } :=
  tget_tmap MemPort.init (fun _ x => { MemPort.init with up := x.up, cycle := x.cycle }) s.mp q rfl

theorem getHp_coldReset (s : State) (p : Nat) :
    getHp (coldReset s) p = { HostPort.init with up := (getHp s p).up, lastUp := (getHp s p).lastUp } :=
  tget_tmap HostPort.init (fun _ x => { HostPort.init with up := x.up, lastUp := x.lastUp }) s.hp p rfl

theorem unitSt_coldReset (s : State) (k : UnitKind) (n : Nat) : unitSt (coldReset s) k n = .absent := by
  cases k <;> rfl

/-! ### What a warm reset clears and keeps (R373) -/

theorem getUnit_warmUnits (us : Units) (k : UnitKind) (n : Nat) : getUnit (warmUnits us) k n = warmUnit (getUnit us k n) := by
  cases k <;> exact tget_tmap MUnit.init (fun _ u => warmUnit u) _ n rfl

theorem warmUnit_st (s : State) (k : UnitKind) (n : Nat) : (warmUnit (getUnit s.units k n)).st = warmState s k n := by
  unfold warmState unitSt warmUnit
  split <;> simp_all

theorem unitSt_warmClear (s : State) (k : UnitKind) (n : Nat) : unitSt (warmClear s) k n = warmState s k n := by
  rw [unitSt, warmClear, getUnit_warmUnits, warmUnit_st]

theorem getRgn_warmClear (s : State) (r : Nat) : getRgn (warmClear s) r = warmRegion (getRgn s r) :=
  tget_tmap Region.init (fun _ x => warmRegion x) s.rgns r rfl

theorem getArr_warmClear (s : State) (a : Nat) :
    getArr (warmClear s) a = if s.boot.pstate == 3 then retainArray (getArr s a) else warmArray (getArr s a) := by
  refine tget_tmap ArrayS.init (fun _ x => if s.boot.pstate == 3 then retainArray x else warmArray x) s.arrs a ?_
  split <;> rfl

/-- A memory port after a warm reset: what has not left M1 is dropped, and the responses to the rest are discarded. -/
def warmPort (q : MemPort) : MemPort :=
  { q with rdQ := [], wrQ := [], held := [], rdOut := tmap (fun _ r => loseReq r) q.rdOut, wrOut := tmap (fun _ r => loseReq r) q.wrOut }

theorem getMp_warmClear (s : State) (q : Nat) : getMp (warmClear s) q = warmPort (getMp s q) :=
  tget_tmap MemPort.init (fun _ x => warmPort x) s.mp q rfl

/-- `WarmCleared` speaks of the parts that `warmClear` alone has put. -/
theorem warmCleared_of_parts {s t : State} (hctxs : t.ctxs = (warmClear s).ctxs) (hrgns : t.rgns = (warmClear s).rgns)
    (harrs : t.arrs = (warmClear s).arrs) (hmp : t.mp = (warmClear s).mp) (hledger : t.ledger = []) (hgambit : t.gambit.hist = [])
    (hregs : t.regs = Regs.reset) (howned : t.mnt.streamArrays = 0) : WarmCleared s t where
  ctxs c := by rw [getCtx, hctxs]; rfl
  regions r := by
    rw [getRgn, hrgns, ← getRgn, getRgn_warmClear]
    exact ⟨rfl, rfl, rfl, rfl, rfl, rfl, rfl, rfl, rfl, rfl, rfl⟩
  arrays a := by
    rw [getArr, harrs, ← getArr, getArr_warmClear]
    split <;> exact ⟨rfl, rfl, rfl, rfl, rfl, rfl⟩
  ports q := by
    rw [getMp, hmp, ← getMp, getMp_warmClear]
    exact ⟨rfl, rfl, rfl, rfl, rfl⟩
  ledger := hledger
  gambit := hgambit
  regs := hregs
  owned := howned

/-- From `s` to `t` a warm reset has cleared what R373 clears, and nothing but the boot record and the units differs from `warmClear`. -/
def Warmed (s t : State) : Prop := t = { warmClear s with boot := t.boot, units := t.units } ∧ t.boot.fuse = s.boot.fuse

theorem Warmed.cleared {s t : State} (h : Warmed s t) : WarmCleared s t := by
  rw [h.1]
  exact warmCleared_of_parts rfl rfl rfl rfl rfl rfl rfl rfl

theorem Warmed.kept {s t : State} (h : Warmed s t) : WarmKept s t := by
  rw [h.1]
  exact ⟨rfl, ⟨rfl, rfl, rfl⟩, ⟨rfl, rfl⟩, ⟨rfl, rfl⟩, h.2, rfl, rfl⟩

/-- Neither a host port's answer nor the sideband's is any of what R373 clears or keeps. -/
theorem WarmCleared.congr {s t u : State} (h : WarmCleared s t) (hu : u = { t with hp := u.hp, sbd := u.sbd }) : WarmCleared s u := by
  rw [hu]
  exact ⟨h.ctxs, h.regions, h.arrays, h.ports, h.ledger, h.gambit, h.regs, h.owned⟩

theorem WarmKept.congr {s t u : State} (h : WarmKept s t) (hu : u = { t with hp := u.hp, sbd := u.sbd }) : WarmKept s u := by
  rw [hu]
  exact ⟨h.holder, h.log, h.accounts, h.power, h.fuse, h.time, h.mems⟩

theorem WarmDone.congr {s t u : State} (h : WarmDone s t) (hu : u = { t with hp := u.hp, sbd := u.sbd }) : WarmDone s u :=
  ⟨by rw [hu]; exact h.ready, by rw [hu]; exact h.units, h.cleared.congr hu, h.kept.congr hu⟩

theorem WarmWaits.congr {s t u : State} (h : WarmWaits s t) (hu : u = { t with hp := u.hp, sbd := u.sbd }) : WarmWaits s u :=
  ⟨by rw [hu]; exact h.phase, by rw [hu]; exact h.units, h.cleared.congr hu, h.kept.congr hu⟩

/-! ### Responses awaited (R374) -/

theorem tmap_isEmpty {α : Type} (f : Nat → α → α) (t : Tbl α) : (tmap f t).isEmpty = t.isEmpty := by
  cases t <;> rfl

/-- A warm reset leaves what has left M1 outstanding. -/
theorem outstanding_warmClear (s : State) : outstanding (warmClear s) = outstanding s := by
  simp only [outstanding, warmClear, tmap, List.any_map, Function.comp_def]
  simp

theorem outstanding_congr {s t : State} (hmp : t.mp = s.mp) (hhp : t.hp = s.hp) : outstanding t = outstanding s := by
  rw [outstanding, hmp, hhp, outstanding]

@[simp] theorem outstanding_wake (s : State) : outstanding (wake s) = outstanding s :=
  outstanding_congr (by rw [wake_rest]) (by rw [wake_rest])

/-! ### A warm reset outside retention -/

/-- The state a warm reset outside retention has cleared, with no unit to be tested. -/
def warmBare (s : State) : State := { warmClear s with boot := { (warmClear s).boot with retained := [] } }

theorem warmOver_warmBare (s : State) : warmOver (warmBare s) = !outstanding s := by
  rw [warmOver, show retainedLeft (warmBare s) = false from rfl,
    show outstanding (warmBare s) = outstanding (warmClear s) from rfl, outstanding_warmClear]
  rfl

theorem warmRun_of_awake {s : State} (h : s.boot.pstate ≠ 3) : warmRun s =
    if outstanding s then { warmBare s with boot := { (warmBare s).boot with ready := false, phase := 6 } } else warmEnd (warmBare s) := by
  have hp : (s.boot.pstate == 3) = false := beq_false_of_ne h
  rw [warmRun, hp]
  show (if warmOver (warmBare s) then _ else _) = _
  rw [warmOver_warmBare]
  cases outstanding s <;> rfl

theorem warmAsk_of_ready {s : State} (hoff : s.boot.off = false) (hphase : s.boot.phase ≠ 6) (hready : s.boot.ready = true) :
    warmAsk s = warmRun s := by
  have h6 : (s.boot.phase == 6) = false := beq_false_of_ne hphase
  simp only [warmAsk, hoff, h6, hready]
  rfl

theorem warmDone_warmAsk {s : State} (h : WarmGo s) (hout : outstanding s = false) : WarmDone s (warmAsk s) := by
  obtain ⟨hoff, -, hphase, hready, hp⟩ := h
  rw [warmAsk_of_ready hoff hphase hready, warmRun_of_awake hp, hout]
  have hw : Warmed s (warmEnd (warmBare s)) := ⟨rfl, rfl⟩
  exact ⟨⟨rfl, rfl, rfl, rfl⟩, unitSt_warmClear s, hw.cleared, hw.kept⟩

theorem warmWaits_warmAsk {s : State} (h : WarmGo s) (hout : outstanding s = true) : WarmWaits s (warmAsk s) := by
  obtain ⟨hoff, -, hphase, hready, hp⟩ := h
  rw [warmAsk_of_ready hoff hphase hready, warmRun_of_awake hp, hout]
  have hw : Warmed s { warmBare s with boot := { (warmBare s).boot with ready := false, phase := 6 } } := ⟨rfl, rfl⟩
  exact ⟨⟨rfl, rfl, rfl⟩, unitSt_warmClear s, hw.cleared, hw.kept⟩

theorem wake_boot (s : State) : (wake s).boot = { s.boot with pstate := (wake s).boot.pstate } := by
  unfold wake
  split <;> rfl

theorem warmGo_wake {s : State} (h : WarmGo s) : WarmGo (wake s) := by
  obtain ⟨hoff, hreset, hphase, hready, hp⟩ := h
  refine ⟨by rw [wake_boot]; exact hoff, by rw [wake_boot]; exact hreset, by rw [wake_boot]; exact hphase, by rw [wake_boot]; exact hready, ?_⟩
  unfold wake
  split
  · dsimp only
    split <;> decide
  · exact hp

/-! ### The warm reset that ends retention (R374) -/

/-- The step of `retainedTest`. -/
def testOfRetained (t : State) (u : UnitSel) : State :=
  if unitSt t u.kind u.unit.val == .live then putUnit t u.kind u.unit.val .testing else t

theorem testOfRetained_rest (t : State) (u : UnitSel) : testOfRetained t u = { t with units := (testOfRetained t u).units } := by
  unfold testOfRetained
  split <;> rfl

theorem foldl_testOfRetained_rest (l : List UnitSel) (s : State) :
    l.foldl testOfRetained s = { s with units := (l.foldl testOfRetained s).units } := by
  induction l generalizing s with
  | nil => rfl
  | cons u l ih => rw [List.foldl_cons, ih, testOfRetained_rest]

/-- Of a unit's state, what is left where the unit is to be tested: TESTING for LIVE. -/
def testedState (tested : Prop) [Decidable tested] (st : UState) : UState := if tested ∧ st = .live then .testing else st

theorem testedState_of_not {p : Prop} [Decidable p] (h : ¬p) (st : UState) : testedState p st = st := if_neg fun hp => h hp.1

theorem testedState_live {p : Prop} [Decidable p] (h : p) : testedState p .live = .testing := if_pos ⟨h, rfl⟩

theorem testedState_idem (p : Prop) [Decidable p] {q : Prop} [Decidable q] (hq : q) (st : UState) :
    testedState p (testedState q st) = testedState q st := by
  by_cases hst : st = .live
  · subst hst
    rw [testedState_live hq]
    exact if_neg (by simp)
  · simp [testedState, hst]

theorem unitSt_testOfRetained (t : State) (u : UnitSel) (k : UnitKind) (n : Nat) :
    unitSt (testOfRetained t u) k n = testedState (u.kind = k ∧ u.unit.val = n) (unitSt t k n) := by
  unfold testOfRetained testedState
  by_cases hu : u.kind = k ∧ u.unit.val = n
  · obtain ⟨rfl, rfl⟩ := hu
    by_cases hl : unitSt t u.kind u.unit.val = .live <;> simp [hl]
  · simp only [hu, false_and, if_false]
    refine ite_cases (q := fun x => unitSt x k n = unitSt t k n) (fun _ => ?_) (fun _ => rfl)
    rw [unitSt_putUnit, if_neg (fun h => hu ⟨h.1.symm, h.2.symm⟩)]

/-- Of the units to be tested each one that is LIVE is TESTING afterwards; every other unit keeps its state. -/
theorem unitSt_foldl_testOfRetained (l : List UnitSel) (s : State) (k : UnitKind) (n : Nat) :
    unitSt (l.foldl testOfRetained s) k n = testedState (∃ u ∈ l, u.kind = k ∧ u.unit.val = n) (unitSt s k n) := by
  induction l generalizing s with
  | nil => exact (testedState_of_not (by simp) _).symm
  | cons u l ih =>
    rw [List.foldl_cons, ih, unitSt_testOfRetained]
    by_cases hu : u.kind = k ∧ u.unit.val = n
    · rw [testedState_idem _ hu]
      simp [testedState, hu]
    · rw [testedState_of_not hu]
      simp [testedState, hu]

theorem retainedTest_eq (s : State) : retainedTest s = s.boot.retained.foldl testOfRetained s := rfl

/-- A warm reset of retention with a unit to be tested waits in phase 6. -/
theorem warmRun_of_retention {s : State} (hp : s.boot.pstate = 3) (hleft : retainedLeft (retainedTest (warmClear s)) = true) :
    warmRun s = { retainedTest (warmClear s) with boot := { (warmClear s).boot with ready := false, phase := 6 } } := by
  have hboot : (retainedTest (warmClear s)).boot = (warmClear s).boot := by rw [retainedTest_eq, foldl_testOfRetained_rest]
  have hover : warmOver (retainedTest (warmClear s)) = false := by rw [warmOver, hleft]; rfl
  have hrun : warmRun s = if warmOver (retainedTest (warmClear s)) then warmEnd (retainedTest (warmClear s)) else
      { retainedTest (warmClear s) with boot := { (retainedTest (warmClear s)).boot with ready := false, phase := 6 } } := by
    simp only [warmRun, hp]
    rfl
  rw [hrun, hover, hboot]
  rfl

theorem unitSt_retainedTest (s : State) (k : UnitKind) (n : Nat) : unitSt (retainedTest (warmClear s)) k n =
    testedState (∃ u ∈ s.boot.retained, u.kind = k ∧ u.unit.val = n) (warmState s k n) := by
  rw [retainedTest_eq, unitSt_foldl_testOfRetained, unitSt_warmClear]
  rfl

theorem warmed_retention (s : State) :
    Warmed s { retainedTest (warmClear s) with boot := { (warmClear s).boot with ready := false, phase := 6 } } := by
  rw [retainedTest_eq, foldl_testOfRetained_rest]
  exact ⟨rfl, rfl⟩

/-! ### The response awaited last (R374) -/

theorem targetNext_of_none {s : State} (h : s.pwr.nextTarget = none) : targetNext s = s := by
  rw [targetNext, h]

/-- With nothing held and no target waiting, ready is all that is set. -/
theorem readyNow_of_nothing_held {s : State} (hheld : s.boot.warmHeld = false) (hnotify : s.boot.heldNotify = [])
    (hside : s.boot.heldSide = []) (htarget : s.pwr.nextTarget = none) :
    readyNow s = { s with boot := { s.boot with ready := true, phase := 5 } } := by
  have h : readyNow s = targetNext { s with boot := { s.boot with ready := true, phase := 5, heldNotify := [], heldSide := [] } } := by
    simp [readyNow, hheld, hnotify, hside]
  rw [h, targetNext_of_none (by exact htarget)]
  simp only [hnotify, hside]

/-- The acknowledgement of the one write that port `q` has outstanding, which nobody waits for. -/
theorem exec_mppRspReceive_of_lost_write {s : State} {q : PortId} {tag : BitVec 12} {r : PortReq} (prior : W64) (hop : r.op = 1)
    (howner : r.owner = .lost) (hwr : (getMp s q.val).wrOut = [(tag.toNat, r)]) (hrd : (getMp s q.val).rdOut = []) :
    exec (.mppRspReceive (.mem q) tag 0 prior) s = .next (warmNext (setMp s q.val { getMp s q.val with wrOut := [] })) := by
  show execMppRspReceive (.mem q) tag 0 prior s = _
  simp [execMppRspReceive, answered, hwr, hrd, hop, rspReceive, howner, tdrop]

theorem warmNext_of_over {s : State} (hphase : s.boot.phase = 6) (hready : s.boot.ready = false) (hover : warmOver s = true) :
    warmNext s = readyNow { s with boot := { s.boot with retained := [] } } := by
  simp [warmNext, hphase, hready, hover]

/-! ### The three sources of a warm reset -/

theorem exec_resetWarm_of_token {s : State} {p : HostId} (hans : hostAnswers s p.val = true) (htok : s.mnt.holder = 1) :
    exec (.resetWarm p) s = .next (respond (warmAsk (wake s)) p.val .ok) :=
  congrArg Host.Outcome.next (tokenWrite_of_token _ hans htok)

/-- With the token in a session the management controller's warm reset is the same, and completes with 0x00. -/
theorem exec_warmReset_of_token {s : State} {h : SbdHead} (htakes : sbdTakes s h = true) (hsession : s.sbd.session = true)
    (htok : s.mnt.holder = 2) : exec (.warmReset h) s = .next (sbdDone (warmAsk s) 0x11 h 0x00) := by
  show execWarmReset s h = _
  simp [execWarmReset, inSessionToken, inSession, htakes, hsession, holds, htok]

/-- In retention, with a unit to be tested: the units that were LIVE at its entry are TESTING, and ready is not set. -/
theorem warmAsk_of_retention {s : State} (hoff : s.boot.off = false) (hphase : s.boot.phase ≠ 6) (hready : s.boot.ready = true)
    (hp : s.boot.pstate = 3) (hlive : ∃ u ∈ s.boot.retained, warmState s u.kind u.unit.val = .live) :
    warmAsk s = { retainedTest (warmClear s) with boot := { (warmClear s).boot with ready := false, phase := 6 } } := by
  rw [warmAsk_of_ready hoff hphase hready]
  refine warmRun_of_retention hp ?_
  obtain ⟨u, hu, hst⟩ := hlive
  have hboot : (retainedTest (warmClear s)).boot = (warmClear s).boot := by rw [retainedTest_eq, foldl_testOfRetained_rest]
  rw [retainedLeft, hboot, List.any_eq_true]
  refine ⟨u, hu, ?_⟩
  rw [unitSt_retainedTest, hst, testedState_live ⟨u, hu, rfl, rfl⟩]
  rfl

end Sys2Proof.Machine

open Sys2Proof Sys2Proof.Machine

/-- Settles O8: both are `coldReset`, which reads nothing of the state but the parts the statement lists. -/
theorem coldResetForgets : Obligations.ColdResetForgets := by
  unfold Obligations.ColdResetForgets
  intro s
  refine ⟨⟨coldReset s, rfl, rfl, rfl, rfl, rfl, rfl, rfl, rfl, rfl, rfl, unitSt_coldReset s, fun _ => rfl, fun _ => rfl, fun _ => rfl,
    rfl, rfl, rfl, rfl, rfl, fun q => ?_, fun p => ?_⟩, ⟨railsRemoved s, coldReset s, rfl, rfl, rfl⟩, ?_⟩
  · rw [getMp_coldReset]
    exact ⟨rfl, rfl, rfl, rfl⟩
  · rw [getHp_coldReset]
    exact ⟨rfl, rfl, rfl⟩
  · intro s' hcfg henv hmems hfree hpending hoff htime hmp hhp
    show Host.Outcome.next (coldReset s') = .next (coldReset s)
    rw [coldReset, hcfg, henv, hmems, hfree, hpending, hoff, htime, hmp, hhp, coldReset]

/-- Settles O9: the three sources run `warmAsk`, which outside retention ends at once or waits, and in retention waits for its tests; the
response awaited last sets ready by `readyNow`. -/
theorem warmResetRuns : Obligations.WarmResetRuns := by
  unfold Obligations.WarmResetRuns
  refine ⟨fun s p h hgo => ⟨?_, fun hans htok => ?_, fun htakes hsession htok => ?_⟩, ?_, fun s hoff hreset => ⟨fun hphase => ?_,
    fun hphase hready => ?_, fun hphase hready hp hlive => ?_⟩⟩
  · exact ⟨warmAsk s, rfl, warmDone_warmAsk hgo, warmWaits_warmAsk hgo⟩
  · refine ⟨_, exec_resetWarm_of_token hans htok, fun hout => ?_, fun hout => ?_, getHp_respond_resp ..⟩
    · exact (warmDone_warmAsk (warmGo_wake hgo) ((outstanding_wake s).trans hout)).congr rfl
    · exact (warmWaits_warmAsk (warmGo_wake hgo) ((outstanding_wake s).trans hout)).congr rfl
  · refine ⟨_, exec_warmReset_of_token htakes hsession htok, fun hout => ?_, fun hout => ?_, rfl⟩
    · exact (warmDone_warmAsk hgo hout).congr rfl
    · exact (warmWaits_warmAsk hgo hout).congr rfl
  · intro s q tag r prior hphase hready hleft hheld hnotify hside htarget hop howner hwr hrd hout
    have hover : warmOver (setMp s q.val { getMp s q.val with wrOut := [] }) = true := by
      rw [warmOver, hout, show retainedLeft (setMp s q.val _) = retainedLeft s from rfl, hleft]
      rfl
    rw [exec_mppRspReceive_of_lost_write prior hop howner hwr hrd, warmNext_of_over (by exact hphase) (by exact hready) hover,
      readyNow_of_nothing_held (by exact hheld) (by exact hnotify) (by exact hside) (by exact htarget)]
    rfl
  · show Host.Outcome.next (warmAsk s) = _
    simp [warmAsk, hphase]
  · show Host.Outcome.next (warmAsk s) = _
    have h6 : (s.boot.phase == 6) = false := beq_false_of_ne hphase
    simp only [warmAsk, hoff, h6, hready]
    rfl
  · have hwarm := warmAsk_of_retention hoff hphase hready hp hlive
    refine ⟨warmAsk s, rfl, by rw [hwarm], by rw [hwarm], by rw [hwarm]; exact (warmed_retention s).cleared,
      by rw [hwarm]; exact (warmed_retention s).kept, fun u hu hst => ?_, fun k n hnone => ?_⟩
    · rw [hwarm]
      refine (unitSt_retainedTest ..).trans ?_
      rw [hst, testedState_live ⟨u, hu, rfl, rfl⟩]
    · rw [hwarm]
      refine (unitSt_retainedTest ..).trans (testedState_of_not ?_ _)
      rintro ⟨u, hu, hk⟩
      exact hnone u hu hk

end

section
/-!
PROOFS. Requests of the two masters: the guard of the maintenance token (R366), the token, the agreed version and STREAM ownership (R249,
R368 to R370), and register writes (R341, R386, R387).
-/

namespace Sys2Proof.Machine

/-! ### A host's write -/

/-- A write that needs no token has its effect on the woken machine, and the port answers (R341, R384). -/
theorem hostWord_of_answers {s : State} {p : Nat} (f : State → State) (hans : hostAnswers s p = true) :
    hostWord s p f = respond (f (wake s)) p .ok := by
  simp [hostWord, hans]

theorem holds_host_of_ne {s : State} (h : s.mnt.holder ≠ 1) : holds s .host = false := beq_false_of_ne h

theorem holds_mgmt_of_ne {s : State} (h : s.mnt.holder ≠ 2) : holds s .mgmt = false := beq_false_of_ne h

/-- The woken machine with a host's request ignored and marked (R366). -/
def refusedAt (s : State) (p : Nat) : State :=
  respond { wake s with mnt := { (wake s).mnt with refused := true } } p .ok

theorem tokenWrite_of_no_token {s : State} {p : Nat} (f : State → State) (hans : hostAnswers s p = true) (htok : s.mnt.holder ≠ 1) :
    tokenWrite s p f = refusedAt s p := by
  have hholds : holds (wake s) .host = false := holds_host_of_ne (by rwa [wake_mnt])
  simp [tokenWrite, hholds, hans, refusedAt]

theorem maintCommand_host_of_no_token {s : State} {p : HostId} (r : Nat) (code : Fin 7) (a : ArrId) (hans : hostAnswers s p.val = true)
    (htok : s.mnt.holder ≠ 1) : maintCommand s (.host p) r code a = refusedAt s p.val := by
  have hholds : holds (wake s) .host = false := holds_host_of_ne (by rwa [wake_mnt])
  simp [maintCommand, hostWord_of_answers _ hans, hostMaint, hholds, refusedAt]

theorem refusedWrite_refusedAt (s : State) (p : Nat) : RefusedWrite (wake s) (refusedAt s p) ∧ (getHp (refusedAt s p) p).resp = .ok :=
  ⟨rfl, getHp_respond_resp ..⟩

/-! ### A session's command -/

theorem inSession_of_session {s : State} {h : SbdHead} (cmd : Byte) (f : State → State) (htakes : sbdTakes s h = true)
    (hsession : s.sbd.session = true) : inSession s cmd h f = f s := by
  simp [inSession, htakes, hsession]

theorem inSessionToken_of_no_token {s : State} {h : SbdHead} (cmd : Byte) (f : State → State) (htakes : sbdTakes s h = true)
    (hsession : s.sbd.session = true) (htok : s.mnt.holder ≠ 2) : inSessionToken s cmd h f = sbdDone s cmd h 0x02 := by
  simp [inSessionToken, inSession_of_session _ _ htakes hsession, holds_mgmt_of_ne htok]

theorem sbdMaint_of_no_token {s : State} {h : SbdHead} (w : Nat) (htakes : sbdTakes s h = true) (hsession : s.sbd.session = true)
    (htok : s.mnt.holder ≠ 2) : sbdMaint s h w = sbdDone s 0x12 h 0x02 := by
  simp [sbdMaint, htakes, hsession, holds_mgmt_of_ne htok]

/-! ### The token (R368, R369) -/

theorem ownerAcquire_eq (s : State) :
    ownerAcquire s = { s with mnt := { s.mnt with holder := if s.mnt.holder = 0 then 1 else s.mnt.holder } } := by
  unfold ownerAcquire
  split <;> simp_all

theorem ownerRelease_eq (s : State) :
    ownerRelease s = { s with mnt := { s.mnt with holder := if s.mnt.holder = 1 then 0 else s.mnt.holder } } := by
  unfold ownerRelease
  split <;> simp_all

theorem exec_ownership {s : State} {h : SbdHead} (acquire : Bool) (htakes : sbdTakes s h = true) (hsession : s.sbd.session = true) :
    exec (.ownership acquire h) s = .next (ownershipOp s h acquire) :=
  congrArg Host.Outcome.next (inSession_of_session 0x13 _ htakes hsession)

/-! ### The agreed version (R249, R394) -/

theorem anyActive_wake (s : State) : anyActive (wake s) = anyActive s := by rw [anyActive, wake_rest, anyActive]

theorem speaksWrite_of_idle {s : State} {v : BitVec 4} (hv : v ≠ 0) (hidle : anyActive s = false) :
    speaksWrite s v = { s with regs := { s.regs with speaks := v, agreed := if v.toNat ≤ 1 then v else 1 } } := by
  have hagreed : (if v.toNat < 1 then v else 1) = if v.toNat ≤ 1 then v else 1 := by
    by_cases h1 : v.toNat = 1
    · obtain rfl : v = 1 := BitVec.eq_of_toNat_eq h1
      rfl
    · simp only [Nat.le_iff_lt_or_eq, h1, or_false]
  have hgo : (v == 0 || anyActive s) = false := by rw [beq_false_of_ne hv, hidle]; rfl
  simp only [speaksWrite, hgo, hagreed]
  rfl

theorem speaksWrite_of_ignored {s : State} {v : BitVec 4} (h : v = 0 ∨ anyActive s = true) : speaksWrite s v = s := by
  unfold speaksWrite
  rw [if_pos (by simpa using h)]

/-! ### STREAM ownership (R370) -/

theorem getLsbD_ofNat_bit {a b : Nat} (hb : b < 16) :
    (BitVec.ofNat 16 (1 <<< a)).getLsbD b = decide (b = a) := by
  rw [BitVec.getLsbD_ofNat, Nat.one_shiftLeft, Nat.testBit_two_pow, decide_eq_true hb, Bool.true_and]
  simp [eq_comm]

/-- A mask put together bit by bit from the numbers of a list that meet `p`. -/
theorem getLsbD_foldl_bits (p : Nat → Bool) (l : List Nat) (m : BitVec 16) {b : Nat} (hb : b < 16) :
    (l.foldl (fun m a => if p a then m ||| BitVec.ofNat 16 (1 <<< a) else m) m).getLsbD b =
      (m.getLsbD b || l.any (fun a => b == a && p a)) := by
  induction l generalizing m with
  | nil => simp
  | cons a l ih =>
    rw [List.foldl_cons, ih, List.any_cons, ← Bool.or_assoc]
    congr 1
    by_cases hp : p a
    · simp [hp, getLsbD_ofNat_bit hb, Bool.beq_eq_decide_eq]
    · simp [hp]

theorem streamOwner_rest (s : State) (c : BitVec 12) (m : BitVec 16) : streamOwner s c m =
    { s with mnt := { s.mnt with streamCtx := c, streamArrays := (streamOwner s c m).mnt.streamArrays } } := rfl

theorem getLsbD_streamOwner (s : State) (c : BitVec 12) (m : BitVec 16) {a : Nat} (ha : a < 16) :
    (streamOwner s c m).mnt.streamArrays.getLsbD a = true ↔
      m.getLsbD a = true ∧ (unitSt s .array a = .disabled ∨ unitSt s .array a = .fenced) := by
  show BitVec.getLsbD (List.foldl _ _ _) a = true ↔ _
  rw [getLsbD_foldl_bits _ _ 0 ha]
  simp [ha]

/-! ### Register writes (R341, R386) -/

/-- An 8 B write at an engine register has that register's effect on the woken machine. -/
theorem exec_registerWrite_of_legal {s u : State} {p : HostId} {off : BitVec 21} {v : W64} (hans : hostAnswers s p.val = true)
    (hlegal : accessLegal (wake s) off.toNat 8 = true) (hoff : off.toNat < 0x40000)
    (hu : writeEngine (wake s) (off.toNat / 8 * 8) (regW8 v.toNat) = u) :
    exec (.registerWrite p off 8 v) s = .next (respond u p.val .ok) := by
  show Host.Outcome.next (registerWrite s p.val off.toNat 8 v.toNat) = _
  simp [registerWrite, hans, hlegal, hoff, regWrite, hu]

theorem registerWrite_of_illegal {s : State} {p off size v : Nat} (hans : hostAnswers s p = true)
    (hillegal : accessLegal (wake s) off size = false) : registerWrite s p off size v = respond (wake s) p .err := by
  simp [registerWrite, hans, hillegal]

theorem accessLegal_eq_false {s : State} {off size : Nat}
    (h : (size ≠ 4 ∧ size ≠ 8) ∨ off % size ≠ 0 ∨ readReg s (off / 8 * 8) = none) : accessLegal s off size = false := by
  rcases h with ⟨h4, h8⟩ | hmod | hnone
  · simp [accessLegal, h4, h8]
  · simp [accessLegal, hmod]
  · simp [accessLegal, hnone]

/-- A field's value after an 8 B write is the field of what was written. -/
@[simp] theorem field_regW8 (v hi lo old : Nat) : (regW8 v).field hi lo old = bits v hi lo := by
  simp [RegW.field, RegW.covers, regW8]

@[simp] theorem one_regW8 (v i : Nat) : (regW8 v).one i = (bits v i i == 1) := by
  simp [RegW.one, RegW.covers, regW8]

@[simp] theorem spanWord_regW8 (s : State) (off v : Nat) : spanWord s off (regW8 v) =
    (v, { s with regs := { s.regs with halves := s.regs.halves.filter (fun h => h.1 != off) } }) := rfl

theorem bits_self_eq_one (v : W64) (i : Nat) : (bits v.toNat i i == 1) = v.getLsbD i := by
  rw [bits, Nat.add_sub_cancel_left, Nat.shiftRight_eq_div_pow, BitVec.getLsbD, Nat.testBit_eq_decide_div_mod_eq]
  rfl

theorem ofNat_bits_setWidth (v : W64) (hi lo n : Nat) (hn : hi + 1 - lo = n) :
    BitVec.ofNat n (bits v.toNat hi lo) = (v >>> lo).setWidth n := by
  apply BitVec.eq_of_toNat_eq
  rw [bits, hn, BitVec.toNat_ofNat, Nat.mod_mod, BitVec.toNat_setWidth, BitVec.toNat_ushiftRight]

theorem ofNat_bits_low (v : W64) (hi n : Nat) (hn : hi + 1 = n) : BitVec.ofNat n (bits v.toNat hi 0) = v.setWidth n := by
  rw [ofNat_bits_setWidth v hi 0 n (by omega)]
  simp

theorem bits_low (v : W64) (hi : Nat) : bits v.toNat hi 0 = v.toNat % 2 ^ (hi + 1) := by simp [bits]

/-! The engine registers that an 8 B write changes, one by one (R392). -/

theorem writeEngine_pollNs (s : State) (v : W64) : writeEngine s 0x38 (regW8 v.toNat) = { s with regs := { s.regs with
    pollNs := v.setWidth 32, pollCur := if s.regs.pollCur = 0 then pollInterval (v.setWidth 32) else s.regs.pollCur } } := by
  show pollWrite s (BitVec.ofNat 32 ((regW8 v.toNat).field 31 0 s.regs.pollNs.toNat)) = _
  rw [field_regW8, ofNat_bits_low _ _ _ rfl, pollWrite]
  simp

theorem writeEngine_irqData (s : State) (v : W64) :
    writeEngine s 0x78 (regW8 v.toNat) = { s with regs := { s.regs with irqData := v.setWidth 32 } } := by
  show ({ s with regs := { s.regs with irqData := BitVec.ofNat 32 ((regW8 v.toNat).field 31 0 s.regs.irqData.toNat) } } : State) = _
  rw [field_regW8, ofNat_bits_low _ _ _ rfl]

theorem writeEngine_engineAsid (s : State) (v : W64) :
    writeEngine s 0x10000 (regW8 v.toNat) = { s with regs := { s.regs with engineAsid := v.setWidth 16 } } := by
  show ({ s with regs := { s.regs with engineAsid := BitVec.ofNat 16 ((regW8 v.toNat).field 15 0 s.regs.engineAsid.toNat) } } : State) = _
  rw [field_regW8, ofNat_bits_low _ _ _ rfl]

theorem writeEngine_periodMs (s : State) (v : W64) :
    writeEngine s 0x38008 (regW8 v.toNat) = { s with regs := { s.regs with periodMs := v.setWidth 16 } } := by
  show ({ s with regs := { s.regs with periodMs := BitVec.ofNat 16 ((regW8 v.toNat).field 15 0 s.regs.periodMs.toNat) } } : State) = _
  rw [field_regW8, ofNat_bits_low _ _ _ rfl]

theorem writeEngine_side (s : State) (v : W64) : writeEngine s 0x40 (regW8 v.toNat) = { s with regs := { s.regs with
    sideThreshold := (if 1 ≤ v.toNat % 32 ∧ v.toNat % 32 ≤ 16 then v.setWidth 5 else s.regs.sideThreshold),
    sideFallback := v.getLsbD 8 } } := by
  have hth : bits v.toNat 4 0 = v.toNat % 32 := bits_low v 4
  have hof : BitVec.ofNat 5 (v.toNat % 32) = v.setWidth 5 := hth ▸ ofNat_bits_low v 4 5 rfl
  show ({ s with regs := { s.regs with
    sideThreshold := if decide (1 ≤ (regW8 v.toNat).field 4 0 s.regs.sideThreshold.toNat ∧
        (regW8 v.toNat).field 4 0 s.regs.sideThreshold.toNat ≤ 16) = true
      then BitVec.ofNat 5 ((regW8 v.toNat).field 4 0 s.regs.sideThreshold.toNat) else s.regs.sideThreshold,
    sideFallback := (regW8 v.toNat).field 8 8 (b2n s.regs.sideFallback) == 1 } } : State) = _
  simp only [field_regW8, bits_self_eq_one, hth, hof, decide_eq_true_eq]

theorem writeEngine_quantum (s : State) (v : W64) : writeEngine s 0x48 (regW8 v.toNat) = { s with regs := { s.regs with
    quantum := (if v.toNat % 2 ^ 16 = 0 then s.regs.quantum else v.setWidth 16),
    qdepth := (if 1 ≤ v.toNat / 2 ^ 16 % 8 ∧ v.toNat / 2 ^ 16 % 8 ≤ 4 then (v >>> 16).setWidth 3 else s.regs.qdepth),
    starveUs := (v >>> 20).setWidth 12 } } := by
  have hq : bits v.toNat 15 0 = v.toNat % 2 ^ 16 := bits_low v 15
  have hd : bits v.toNat 18 16 = v.toNat / 2 ^ 16 % 8 := by rw [bits, Nat.shiftRight_eq_div_pow]; rfl
  have hqof : BitVec.ofNat 16 (v.toNat % 2 ^ 16) = v.setWidth 16 := hq ▸ ofNat_bits_low v 15 16 rfl
  have hdof : BitVec.ofNat 3 (v.toNat / 2 ^ 16 % 8) = (v >>> 16).setWidth 3 := hd ▸ ofNat_bits_setWidth v 18 16 3 rfl
  show ({ s with regs := { s.regs with
    quantum := if (regW8 v.toNat).field 15 0 s.regs.quantum.toNat == 0 then s.regs.quantum
      else BitVec.ofNat 16 ((regW8 v.toNat).field 15 0 s.regs.quantum.toNat),
    qdepth := if decide (1 ≤ (regW8 v.toNat).field 18 16 s.regs.qdepth.toNat ∧ (regW8 v.toNat).field 18 16 s.regs.qdepth.toNat ≤ 4) = true
      then BitVec.ofNat 3 ((regW8 v.toNat).field 18 16 s.regs.qdepth.toNat) else s.regs.qdepth,
    starveUs := BitVec.ofNat 12 ((regW8 v.toNat).field 31 20 s.regs.starveUs.toNat) } } : State) = _
  simp only [field_regW8, ofNat_bits_setWidth v 31 20 12 rfl, hq, hd, hqof, hdof, decide_eq_true_eq, beq_iff_eq]

theorem writeEngine_ctxBase_of_active {s : State} (w : RegW) (h : anyActive s = true) : writeEngine s 0x30 w = s := by
  show (if anyActive s = true then s else _) = s
  rw [if_pos h]

theorem writeEngine_ctxBase_of_idle {s : State} (v : Nat) (h : anyActive s = false) : writeEngine s 0x30 (regW8 v) =
    { s with regs := { s.regs with halves := s.regs.halves.filter (fun x => x.1 != 0x30), ctxBase := BitVec.ofNat 57 (v / 4096 * 4096) } } := by
  show (if anyActive s = true then s else _) = _
  rw [if_neg (by simp [h])]
  rfl

end Sys2Proof.Machine

open Sys2Proof Sys2Proof.Machine

/-- Settles O10: every one of the requests is guarded by `tokenWrite`, `hostMaint`, `inSessionToken` or `sbdMaint`. -/
theorem tokenGuardsRequests : Obligations.TokenGuardsRequests := by
  unfold Obligations.TokenGuardsRequests
  intro s p h a u r c m w
  refine ⟨fun hans htok => ?_, fun htakes hsession htok => ?_⟩
  · have hword (f : State → State) : Host.Outcome.next (φ := Fault) (ρ := Refusal) (tokenWrite s p.val f) = .next (refusedAt s p.val) :=
      congrArg _ (tokenWrite_of_no_token f hans htok)
    have hmaint (n : Nat) (code : Fin 7) (b : ArrId) :
        Host.Outcome.next (φ := Fault) (ρ := Refusal) (maintCommand s (.host p) n code b) = .next (refusedAt s p.val) :=
      congrArg _ (maintCommand_host_of_no_token n code b hans htok)
    simp only [List.forall_mem_cons, List.not_mem_nil, false_imp_iff, implies_true, and_true]
    exact ⟨⟨_, hword _, refusedWrite_refusedAt ..⟩, ⟨_, hword _, refusedWrite_refusedAt ..⟩, ⟨_, hword _, refusedWrite_refusedAt ..⟩,
      ⟨_, hword _, refusedWrite_refusedAt ..⟩, ⟨_, hword _, refusedWrite_refusedAt ..⟩, ⟨_, hword _, refusedWrite_refusedAt ..⟩,
      ⟨_, hword _, refusedWrite_refusedAt ..⟩, ⟨_, hmaint .., refusedWrite_refusedAt ..⟩, ⟨_, hmaint .., refusedWrite_refusedAt ..⟩,
      ⟨_, hmaint .., refusedWrite_refusedAt ..⟩, ⟨_, hmaint .., refusedWrite_refusedAt ..⟩, ⟨_, hmaint .., refusedWrite_refusedAt ..⟩,
      ⟨_, hmaint .., refusedWrite_refusedAt ..⟩, ⟨_, hmaint .., refusedWrite_refusedAt ..⟩⟩
  · have hasked (cmd : Byte) (f : State → State) := inSessionToken_of_no_token cmd f htakes hsession htok
    have hmaint (n : Nat) := sbdMaint_of_no_token n htakes hsession htok
    simp only [List.forall_mem_cons, List.not_mem_nil, false_imp_iff, implies_true, and_true]
    exact ⟨congrArg _ (hasked ..), congrArg _ (hmaint _), congrArg _ (hasked ..), congrArg _ (hmaint _), congrArg _ (hmaint _),
      congrArg _ (hmaint _), congrArg _ (hmaint _), congrArg _ (hmaint _), congrArg _ (hmaint _), congrArg _ (hmaint _)⟩

/-- Settles O20: each write is one operation on the woken machine, and each operation is the two or three cases the statement names. -/
theorem tokenVersionAndOwnership : Obligations.TokenVersionAndOwnership := by
  unfold Obligations.TokenVersionAndOwnership
  refine ⟨fun s p h v => ⟨fun hans => ⟨?_, ?_, fun hacq hrel => ?_⟩, fun htakes hsession => ⟨fun hfree => ?_, fun hheld hup => ?_,
    fun hheld => ?_, fun hother => ?_⟩⟩, fun s p v hans => ⟨fun hv hidle => ?_, fun hignored => ?_⟩, fun s p c m hans htok => ?_⟩
  · refine ⟨_, congrArg Host.Outcome.next (hostWord_of_answers ownerAcquire hans), getHp_respond_resp .., ?_⟩
    rw [ownerAcquire_eq, wake_mnt]
    rfl
  · refine ⟨_, congrArg Host.Outcome.next (hostWord_of_answers ownerRelease hans), getHp_respond_resp .., ?_⟩
    rw [ownerRelease_eq, wake_mnt]
    rfl
  · have hboth : writeEngine (wake s) 0x30020 (regW8 v.toNat) = wake s := by
      show (if ((regW8 v.toNat).one 2 && (regW8 v.toNat).one 3) = true then _ else _) = _
      rw [one_regW8, one_regW8, bits_self_eq_one, bits_self_eq_one, hacq, hrel]
      rfl
    exact ⟨_, exec_registerWrite_of_legal hans rfl (by decide) hboth, rfl⟩
  · rw [exec_ownership true htakes hsession, ownershipOp, if_pos rfl, if_pos (by simpa [or_assoc] using hfree)]
    rfl
  · rw [exec_ownership true htakes hsession, ownershipOp, if_pos rfl, if_neg (by simp [hheld, hup])]
    rfl
  · rw [exec_ownership false htakes hsession, ownershipOp, if_neg (by decide), if_pos (by simp [hheld])]
    rfl
  · rw [exec_ownership false htakes hsession, ownershipOp, if_neg (by decide), if_neg (by simpa using hother)]
    rfl
  · refine ⟨_, congrArg Host.Outcome.next (hostWord_of_answers (fun t => speaksWrite t v) hans), ?_, getHp_respond_resp ..⟩
    rw [speaksWrite_of_idle hv ((anyActive_wake s).trans hidle), show (wake s).regs = s.regs by rw [wake_rest]]
    rfl
  · refine ⟨_, congrArg Host.Outcome.next (hostWord_of_answers (fun t => speaksWrite t v) hans), ?_, getHp_respond_resp ..⟩
    rw [speaksWrite_of_ignored (hignored.imp_right (anyActive_wake s).trans)]
    rfl
  · refine ⟨_, congrArg Host.Outcome.next (tokenWrite_of_token (fun t => streamOwner t (BitVec.ofNat 12 c.val) m) hans htok), getHp_respond_resp .., ?_, ?_,
      fun a => ?_⟩
    · rw [streamOwner_rest, wake_mnt]
      rfl
    · exact Nat.mod_eq_of_lt c.isLt
    · rw [respond_mnt, getLsbD_streamOwner _ _ _ a.isLt, unitSt_wake]

/-- Settles O19: a legal write is `writeEngine` of the woken machine, and the fields of an 8 B write are those of its value. -/
theorem registerWritesTakeEffect : Obligations.RegisterWritesTakeEffect := by
  unfold Obligations.RegisterWritesTakeEffect
  intro s p v hans done
  have hregs : (wake s).regs = s.regs := by rw [wake_rest]
  have hdone {off : BitVec 21} {g : Regs} (hlegal : accessLegal (wake s) off.toNat 8 = true) (hoff : off.toNat < 0x40000)
      (hu : writeEngine (wake s) (off.toNat / 8 * 8) (regW8 v.toNat) = { wake s with regs := g }) :
      ∃ t, exec (.registerWrite p off 8 v) s = .next t ∧ done g t :=
    ⟨_, exec_registerWrite_of_legal hans hlegal hoff hu, rfl, getHp_respond_resp ..⟩
  refine ⟨hdone rfl (by decide) (hregs ▸ writeEngine_pollNs _ v), hdone rfl (by decide) (hregs ▸ writeEngine_irqData _ v),
    hdone rfl (by decide) (hregs ▸ writeEngine_engineAsid _ v), hdone rfl (by decide) (hregs ▸ writeEngine_periodMs _ v),
    hdone rfl (by decide) (hregs ▸ writeEngine_side _ v), hdone rfl (by decide) (hregs ▸ writeEngine_quantum _ v),
    fun hactive => hdone rfl (by decide) ?_, fun hidle => ?_, ?_, fun off size hbad => ?_⟩
  · rw [← hregs]
    exact writeEngine_ctxBase_of_active _ ((anyActive_wake s).trans hactive)
  · refine ⟨_, exec_registerWrite_of_legal hans rfl (by decide) (writeEngine_ctxBase_of_idle _ ((anyActive_wake s).trans hidle)), rfl, ?_,
      getHp_respond_resp ..⟩
    show (BitVec.ofNat 57 (v.toNat / 4096 * 4096)).toNat = _
    rw [BitVec.toNat_ofNat]
    omega
  · simp only [List.forall_mem_cons, List.not_mem_nil, false_imp_iff, implies_true, and_true]
    rw [← hregs]
    exact ⟨hdone rfl (by decide) rfl, hdone rfl (by decide) rfl, hdone rfl (by decide) rfl, hdone rfl (by decide) rfl,
      hdone rfl (by decide) rfl, hdone rfl (by decide) rfl, hdone rfl (by decide) rfl, hdone rfl (by decide) rfl,
      hdone rfl (by decide) rfl, hdone rfl (by decide) rfl, hdone rfl (by decide) rfl⟩
  · exact ⟨_, congrArg Host.Outcome.next (registerWrite_of_illegal hans (accessLegal_eq_false hbad)), rfl, getHp_respond_resp ..⟩

end

section
/-!
PROOFS. The sideband port and test access (R344 to R348, R366, R400): what each command answers, and what it changes.
-/

namespace Sys2Proof.Machine

/-! ### Vendor messages (R346) -/

theorem sbdTakes_of_pen {s : State} {h : SbdHead} (hans : sidebandAnswers s = true) (hpen : h.pen = sbdPen) : sbdTakes s h = true := by
  simp [sbdTakes, hans, hpen]

theorem sbdTakes_of_other_pen (s : State) {h : SbdHead} (hpen : h.pen ≠ sbdPen) : sbdTakes s h = false := by
  rw [sbdTakes, beq_false_of_ne hpen, Bool.and_false]

theorem inSession_of_untaken {s : State} {h : SbdHead} (cmd : Byte) (f : State → State) (h0 : sbdTakes s h = false) :
    inSession s cmd h f = s := by
  simp [inSession, h0]

theorem inSession_of_no_session {s : State} {h : SbdHead} (cmd : Byte) (f : State → State) (htakes : sbdTakes s h = true)
    (hsession : s.sbd.session = false) : inSession s cmd h f = sbdDone s cmd h 0x05 := by
  simp [inSession, htakes, hsession]

theorem inSessionToken_of_untaken {s : State} {h : SbdHead} (cmd : Byte) (f : State → State) (h0 : sbdTakes s h = false) :
    inSessionToken s cmd h f = s :=
  inSession_of_untaken cmd _ h0

theorem inSessionToken_of_no_session {s : State} {h : SbdHead} (cmd : Byte) (f : State → State) (htakes : sbdTakes s h = true)
    (hsession : s.sbd.session = false) : inSessionToken s cmd h f = sbdDone s cmd h 0x05 :=
  inSession_of_no_session cmd _ htakes hsession

theorem sbdMaint_of_untaken {s : State} {h : SbdHead} (w : Nat) (h0 : sbdTakes s h = false) : sbdMaint s h w = s := by
  simp [sbdMaint, h0]

theorem sbdMaint_of_no_session {s : State} {h : SbdHead} (w : Nat) (htakes : sbdTakes s h = true) (hsession : s.sbd.session = false) :
    sbdMaint s h w = sbdDone s 0x12 h 0x05 := by
  simp [sbdMaint, htakes, hsession]

theorem holds_mgmt_of_eq {s : State} (h : s.mnt.holder = 2) : holds s .mgmt = true := by simp [holds, h]

theorem inSessionToken_of_token {s : State} {h : SbdHead} (cmd : Byte) (f : State → State) (htakes : sbdTakes s h = true)
    (hsession : s.sbd.session = true) (htok : s.mnt.holder = 2) : inSessionToken s cmd h f = f s := by
  simp [inSessionToken, inSession_of_session _ _ htakes hsession, holds_mgmt_of_eq htok]

/-- With the token in a session, outside code 7, a MAINT_REQUEST is its word's; before ready it is held (R364). -/
theorem sbdMaint_of_token {s : State} {h : SbdHead} {w : Nat} (htakes : sbdTakes s h = true) (hsession : s.sbd.session = true)
    (htok : s.mnt.holder = 2) (hcode : bits w 2 0 ≠ 7) (hready : s.boot.ready = true) :
    sbdMaint s h w = sbdDone (maintWord s .mgmt w).1 0x12 h (if (maintWord s .mgmt w).2 then 0x01 else 0x00) := by
  simp [sbdMaint, htakes, hsession, holds_mgmt_of_eq htok, hcode, hready]

theorem sbdMaint_of_code_7 {s : State} {h : SbdHead} {w : Nat} (htakes : sbdTakes s h = true) (hsession : s.sbd.session = true)
    (htok : s.mnt.holder = 2) (hcode : bits w 2 0 = 7) : sbdMaint s h w = sbdDone s 0x12 h 0x03 := by
  simp [sbdMaint, htakes, hsession, holds_mgmt_of_eq htok, hcode]

/-! ### The action of a unit request (R315) -/

theorem unitActionOf_isNone_iff (w : Nat) : (unitActionOf w).isNone = true ↔ w / 64 % 4 = 3 := by
  have hbits : bits w 7 6 = w / 64 % 4 := by rw [bits, Nat.shiftRight_eq_div_pow]; rfl
  have hlt : w / 64 % 4 < 4 := Nat.mod_lt _ (by decide)
  unfold unitActionOf
  rw [hbits]
  split
  case h_1 h => simp [h]
  case h_2 h => simp [h]
  case h_3 h => simp [h]
  case h_4 h0 h1 h2 =>
    have h3 : w / 64 % 4 = 3 := by
      generalize w / 64 % 4 = a at *
      have : a ≠ 0 ∧ a ≠ 1 ∧ a ≠ 2 := ⟨h0, h1, h2⟩
      omega
    simp [h3]

theorem bits_code (w : Nat) : bits w 2 0 = w % 8 := by simp [bits]

/-! ### SPDM (R345, R400) -/

/-- A session opens with an authentic finish of a key exchange, and ends at the master's word; the exchange ends with its finish. -/
theorem spdmOp_eq (s : State) (q : SpdmReq) :
    spdmOp s q = { s with sbd := { s.sbd with session := (spdmOp s q).sbd.session, kex := (spdmOp s q).sbd.kex, resp := (spdmOp s q).sbd.resp } } ∧
    (spdmOp s q).sbd.session = (if q = .finishMutual true ∧ s.sbd.kex = true then true else if q = .endSession then false else s.sbd.session) ∧
    (spdmOp s q).sbd.kex = (if q = .keyExchange then true else if q = .finishMutual true ∨ q = .finishMutual false then false else s.sbd.kex) := by
  cases q with
  | certificate | challenge | measurements | keyExchange => exact ⟨rfl, by simp [spdmOp], by simp [spdmOp]⟩
  | finishMutual authentic => cases authentic <;> cases hk : s.sbd.kex <;> simp [spdmOp, hk]
  | endSession => cases hs : s.sbd.session <;> simp [spdmOp, hs]

/-! ### The power cap (R355) -/

theorem capW_pwrCfgWrite (p : Pwr) (w : W64) : (pwrCfgWrite p (regW8 w.toNat)).cfg.capW.toNat =
    if 1 ≤ w.toNat % 1024 ∧ w.toNat % 1024 ≤ 99 then p.cfg.capW.toNat else w.toNat % 1024 := by
  have hcap : bits w.toNat 9 0 = w.toNat % 1024 := bits_low w 9
  show (if decide (1 ≤ (regW8 w.toNat).field 9 0 p.cfg.capW.toNat ∧ (regW8 w.toNat).field 9 0 p.cfg.capW.toNat ≤ 99) = true
    then p.cfg.capW else BitVec.ofNat 10 ((regW8 w.toNat).field 9 0 p.cfg.capW.toNat)).toNat = _
  simp only [field_regW8, hcap, decide_eq_true_eq]
  split
  · rfl
  · rw [BitVec.toNat_ofNat, Nat.mod_mod]

/-! ### The TAP (R348) -/

theorem idcodeWord_fields : idcodeWord.toNat / 2 ^ 28 = 1 ∧ idcodeWord.toNat / 2 ^ 12 % 2 ^ 16 = 0x0F01 ∧ idcodeWord.toNat % 2 = 1 := by
  have hm := Config.manufacturer.isLt
  rw [idcodeWord, BitVec.toNat_ofNat]
  omega

theorem tapOp_of_locked {s : State} (ins : TapIns) (h : s.tap.unlocked = false) :
    tapOp s ins = { s with tap := { s.tap with ir := .bypass, out := 0 } } := by
  simp [tapOp, h]

theorem tapIntrusive_tap (s : State) (ins : TapIns) (code : Nat) :
    ∃ x : Tap, tapIntrusive s ins code = { s with tap := x } ∧ x.unlocked = s.tap.unlocked := by
  unfold tapIntrusive
  split <;> exact ⟨_, rfl, rfl⟩

/-- An instruction changes the TAP alone, and does not lock it. -/
theorem tapOp_tap (s : State) (ins : TapIns) : ∃ x : Tap, tapOp s ins = { s with tap := x } ∧ x.unlocked = s.tap.unlocked := by
  unfold tapOp
  split
  · exact ⟨_, rfl, rfl⟩
  · cases ins with
    | bypass => exact ⟨_, rfl, rfl⟩
    | isolate code => exact tapIntrusive_tap s _ code
    | drive code => exact tapIntrusive_tap s _ code
    | network code => exact ⟨_, rfl, rfl⟩

theorem tapOp_of_intrusive {s : State} {ins : TapIns} {code : Nat} (h : s.tap.unlocked = true)
    (hins : ins = .isolate code ∨ ins = .drive code) : tapOp s ins = tapIntrusive s ins code := by
  rcases hins with rfl | rfl <;> simp [tapOp, h]

theorem tapOp_ir_of_open {s : State} {ins : TapIns} {code : Nat} (h : s.tap.unlocked = true)
    (hins : ins = .bypass ∨ ins = .network code) : (tapOp s ins).tap.ir = ins := by
  rcases hins with rfl | rfl <;> simp [tapOp, h]

theorem exec_tapInstruction {s : State} (ins : TapIns) (h : tapWorks s = true) : exec (.tapInstruction ins) s = .next (tapOp s ins) :=
  congrArg Host.Outcome.next (if_pos h)

/-! ### Commands that the port answers -/

theorem exec_setdasa {s : State} (a : BitVec 7) (hans : sidebandAnswers s = true) : exec (.setdasa a) s =
    .next (if s.cfg.staticAddr ≠ 0 then { s with sbd := { s.sbd with dynAddr := a } } else s) := by
  show execSetdasa a s = _
  simp [execSetdasa, hans]

theorem faultNotifyRead_of_queued {s : State} {x : FlogEntry} {o : Bool} {rest : List (FlogEntry × Bool)} (h : s.sbd.queue = (x, o) :: rest) :
    faultNotifyRead s = { s with sbd := { s.sbd with queue := rest, resp := .notify x o, ibi := if rest = [] then none else s.sbd.ibi } } := by
  rw [faultNotifyRead, h]
  simp only [List.isEmpty_iff]

theorem faultNotifyRead_of_empty {s : State} (h : s.sbd.queue = []) : faultNotifyRead s = s := by
  rw [faultNotifyRead, h]

/-- A message with another enterprise number has no answer. -/
theorem exec_vendor_of_other_pen {s : State} {h : SbdHead} (hpen : h.pen ≠ sbdPen) (sec : TlmSection) (n : Fin 512) (c : CtxId) (r : RgnId)
    (f : Fin 1024) (w : W64) : ∀ i ∈ [Instr.getTelemetry sec h, .readFaultLog n [] h, .readAccount c h, .readJournal r f h, .readFuseView h,
      .unitRequest (w.setWidth 32) h, .warmReset h, .maintRequest (w.setWidth 32) h, .ownership true h, .ownership false h, .setPowerCap w h,
      .testUnlock h], exec i s = .next s := by
  have h0 := sbdTakes_of_other_pen s hpen
  have hin (cmd : Byte) (g : State → State) : Host.Outcome.next (φ := Fault) (ρ := Refusal) (inSession s cmd h g) = .next s :=
    congrArg _ (inSession_of_untaken cmd g h0)
  have hfree (a : State) : Host.Outcome.next (φ := Fault) (ρ := Refusal) (if sbdTakes s h then a else s) = .next s :=
    congrArg _ (if_neg (by simp [h0]))
  have hwake (a : State) : Host.Outcome.next (φ := Fault) (ρ := Refusal) (if !sbdTakes s h then s else a) = .next s :=
    congrArg _ (if_pos (by simp [h0]))
  simp only [List.forall_mem_cons, List.not_mem_nil, false_imp_iff, implies_true, and_true]
  exact ⟨hfree _, hfree _, hwake _, hwake _, hfree _, congrArg Host.Outcome.next (inSessionToken_of_untaken 0x10 _ h0),
    congrArg Host.Outcome.next (inSessionToken_of_untaken 0x11 _ h0), congrArg Host.Outcome.next (sbdMaint_of_untaken _ h0),
    hin .., hin .., hin .., hin ..⟩

/-- Outside a session its commands complete with 0x05 and act on nothing. -/
theorem exec_vendor_of_no_session {s : State} {h : SbdHead} (htakes : sbdTakes s h = true) (hsession : s.sbd.session = false) (w : W64) :
    ∀ i ∈ [((0x10 : Byte), Instr.unitRequest (w.setWidth 32) h), (0x11, .warmReset h), (0x12, .maintRequest (w.setWidth 32) h),
        (0x13, .ownership true h), (0x13, .ownership false h), (0x14, .setPowerCap w h), (0x15, .testUnlock h)],
      exec i.2 s = .next (sbdDone s i.1 h 0x05) := by
  have hin (cmd : Byte) (g : State → State) :
      Host.Outcome.next (φ := Fault) (ρ := Refusal) (inSession s cmd h g) = .next (sbdDone s cmd h 0x05) :=
    congrArg _ (inSession_of_no_session cmd g htakes hsession)
  simp only [List.forall_mem_cons, List.not_mem_nil, false_imp_iff, implies_true, and_true]
  exact ⟨congrArg Host.Outcome.next (inSessionToken_of_no_session 0x10 _ htakes hsession),
    congrArg Host.Outcome.next (inSessionToken_of_no_session 0x11 _ htakes hsession),
    congrArg Host.Outcome.next (sbdMaint_of_no_session _ htakes hsession), hin .., hin .., hin .., hin ..⟩

/-- UNIT_REQUEST with the token: an action that exists is held before ready, and takes effect after it (R315, R364). -/
theorem exec_unitRequest_of_token {s : State} {h : SbdHead} (u : W32) (htakes : sbdTakes s h = true) (hsession : s.sbd.session = true)
    (htok : s.mnt.holder = 2) : exec (.unitRequest u h) s = .next (
      if (unitActionOf u.toNat).isNone then sbdDone s 0x10 h 0x03
      else if !s.boot.ready then sbdDone { s with boot := { s.boot with heldSide := s.boot.heldSide ++ [(false, u)] } } 0x10 h 0x01
      else sbdDone (unitWord (wake s) .mgmt u.toNat) 0x10 h 0x00) :=
  congrArg Host.Outcome.next (inSessionToken_of_token 0x10 _ htakes hsession htok)

end Sys2Proof.Machine

open Sys2Proof Sys2Proof.Machine

/-- Settles O59: each command is one test of the port, the enterprise number, the session or the token around one operation. -/
theorem sidebandAndTapAnswer : Obligations.SidebandAndTapAnswer := by
  unfold Obligations.SidebandAndTapAnswer
  refine ⟨fun s a e q h sec n c r f w hans => ⟨congrArg Host.Outcome.next (if_pos hans), fun hstatic => ?_, fun hstatic => ?_,
    congrArg Host.Outcome.next (if_pos hans), ⟨spdmOp s q, congrArg Host.Outcome.next (if_pos hans), spdmOp_eq s q⟩, fun x o rest hqueue => ?_,
    fun hqueue => ?_, fun hpen => exec_vendor_of_other_pen hpen sec n c r f w, fun hpen => ?_⟩, fun s ins code hworks => ⟨?_, ?_⟩⟩
  · rw [exec_setdasa a hans, if_pos hstatic]
  · rw [exec_setdasa a hans, if_neg (not_not.mpr hstatic)]
  · exact (congrArg Host.Outcome.next (if_pos hans)).trans (congrArg Host.Outcome.next (faultNotifyRead_of_queued hqueue))
  · exact (congrArg Host.Outcome.next (if_pos hans)).trans (congrArg Host.Outcome.next (faultNotifyRead_of_empty hqueue))
  · have htakes := sbdTakes_of_pen hans hpen
    refine ⟨congrArg Host.Outcome.next (if_pos htakes), fun bad => congrArg Host.Outcome.next (if_pos htakes), fun hdown => ?_, fun hup => ?_,
      fun hr => ?_, fun hr => ?_, congrArg Host.Outcome.next (if_pos htakes), fun hsession => exec_vendor_of_no_session htakes hsession w,
      fun hsession => ⟨?_, congrArg Host.Outcome.next (inSession_of_session 0x15 _ htakes hsession), fun htok u => ⟨fun hact => ?_,
        fun hact hready => ?_, fun hact hready => ?_, fun hcode => ?_, fun hcode hready => ?_⟩⟩⟩
    · show execReadAccount c s h = _
      simp [execReadAccount, htakes, hdown]
    · show execReadAccount c s h = _
      simp [execReadAccount, htakes, hup]
    · show execReadJournal r f s h = _
      simp [execReadJournal, htakes, configured, hr]
    · show execReadJournal r f s h = _
      simp [execReadJournal, htakes, configured, hr.not_gt]
    · exact ⟨_, congrArg Host.Outcome.next (inSession_of_session 0x14 _ htakes hsession), rfl, rfl, capW_pwrCfgWrite s.pwr w⟩
    · rw [exec_unitRequest_of_token u htakes hsession htok, if_pos ((unitActionOf_isNone_iff _).mpr hact)]
    · rw [exec_unitRequest_of_token u htakes hsession htok, if_neg (mt (unitActionOf_isNone_iff _).mp hact), if_pos (by simp [hready])]
    · rw [exec_unitRequest_of_token u htakes hsession htok, if_neg (mt (unitActionOf_isNone_iff _).mp hact), if_neg (by simp [hready])]
    · exact congrArg Host.Outcome.next (sbdMaint_of_code_7 htakes hsession htok ((bits_code _).trans hcode))
    · exact congrArg Host.Outcome.next (sbdMaint_of_token htakes hsession htok (by rwa [bits_code]) hready)
  · exact ⟨_, congrArg Host.Outcome.next (if_pos hworks), rfl, idcodeWord_fields⟩
  · obtain ⟨x, hrest, hunlocked⟩ := tapOp_tap s ins
    refine ⟨tapOp s ins, exec_tapInstruction ins hworks, by rw [hrest], by rw [hrest]; exact hunlocked, fun hlocked => ?_, fun hopen hins => ⟨fun hlive => ?_, fun hlive => ?_⟩,
      fun hopen hins => tapOp_ir_of_open hopen hins⟩
    · rw [tapOp_of_locked ins hlocked]
      exact ⟨rfl, rfl⟩
    · rw [tapOp_of_intrusive hopen hins, tapIntrusive, if_pos hlive]
      exact ⟨rfl, rfl⟩
    · rw [tapOp_of_intrusive hopen hins, tapIntrusive, if_neg (by simp [hlive])]
      exact ⟨rfl, rfl⟩

end

section
/-!
PROOFS. Element codes (R62, R64, R82): a finite code's value lies on its format's grid below the virtual next code, so that rounding leaves
it and its code is the one it came from; and the bytes of a little-endian number (R10).
-/

namespace Sys2Proof.Machine

/-! ### The fields of a float code (R62) -/

def codeNeg (f : Fmt) (code : Nat) : Bool := (code >>> (fmtBits f - 1)) % 2 == 1
def codeFrac (f : Fmt) (code : Nat) : Nat := code % 2 ^ fmtMant f
def fmtExpBits (f : Fmt) : Nat := fmtBits f - 1 - fmtMant f
def codeExp (f : Fmt) (code : Nat) : Nat := (code >>> fmtMant f) % 2 ^ fmtExpBits f

theorem fmtBits_float {f : Fmt} (hf : fmtIsInt f = false) : fmtBits f - 1 = fmtExpBits f + fmtMant f ∧ fmtBits f = fmtBits f - 1 + 1 := by
  cases f with
  | fp32 | bf16 | fp16 | e4m3 | e5m2 | e3m2 | e2m3 | e2m1 => exact ⟨rfl, rfl⟩
  | int8 | int4 | int32 => cases hf

theorem codeFrac_lt (f : Fmt) (code : Nat) : codeFrac f code < 2 ^ fmtMant f := Nat.mod_lt _ (Nat.two_pow_pos _)

theorem codeExp_lt (f : Fmt) (code : Nat) : codeExp f code < 2 ^ fmtExpBits f := Nat.mod_lt _ (Nat.two_pow_pos _)

/-- A code is put together from its three fields. -/
theorem code_eq_fields {f : Fmt} {code : Nat} (hf : fmtIsInt f = false) (h : code < 2 ^ fmtBits f) :
    signBit f (codeNeg f code) + codeExp f code * 2 ^ fmtMant f + codeFrac f code = code := by
  obtain ⟨hsplit, hbits⟩ := fmtBits_float hf
  rw [hbits, Nat.pow_succ] at h
  have htop : code / 2 ^ (fmtBits f - 1) < 2 := Nat.div_lt_of_lt_mul h
  have hsign : signBit f (codeNeg f code) = 2 ^ (fmtBits f - 1) * (code / 2 ^ (fmtBits f - 1)) := by
    rw [signBit, codeNeg, Nat.shiftRight_eq_div_pow]
    obtain h0 | h1 : code / 2 ^ (fmtBits f - 1) = 0 ∨ code / 2 ^ (fmtBits f - 1) = 1 := Nat.le_one_iff_eq_zero_or_eq_one.mp (Nat.le_of_lt_succ htop)
    · rw [h0]; rfl
    · rw [h1, Nat.mul_one]; rfl
  have hexp : code / 2 ^ fmtMant f = 2 ^ fmtExpBits f * (code / 2 ^ (fmtBits f - 1)) + codeExp f code := by
    rw [codeExp, Nat.shiftRight_eq_div_pow, hsplit, Nat.add_comm (fmtExpBits f), Nat.pow_add, ← Nat.div_div_eq_div_mul, Nat.div_add_mod]
  have hcode : 2 ^ fmtMant f * (code / 2 ^ fmtMant f) + codeFrac f code = code := Nat.div_add_mod _ _
  calc signBit f (codeNeg f code) + codeExp f code * 2 ^ fmtMant f + codeFrac f code
      = 2 ^ fmtMant f * (code / 2 ^ fmtMant f) + codeFrac f code := by rw [hsign, hexp, hsplit, Nat.pow_add]; ring
    _ = code := hcode

/-! ### Finite values -/

/-- The largest exponent field of a finite value (R62). -/
def finiteExpMax (f : Fmt) : Nat := 2 ^ fmtExpBits f - (if fmtHasInf f then 2 else 1)

/-- What `decodeElem` gives for a finite float code: a subnormal or a normal number, which is not past the largest one. -/
theorem decodeElem_finite {f : Fmt} {code : Nat} (hf : fmtIsInt f = false) (h : numIsFinite (decodeElem f code) = true) :
    codeExp f code ≤ finiteExpMax f ∧ (f = .e4m3 → codeExp f code = 15 → codeFrac f code ≠ 7) ∧
    decodeElem f code = if codeExp f code = 0 then .fin (codeNeg f code) (codeFrac f code) (fmtEmin f)
      else .fin (codeNeg f code) (codeFrac f code + 2 ^ fmtMant f) (fmtEmin f + (codeExp f code : Int) - 1) := by
  have hdec : decodeElem f code =
      if (fmtHasInf f && codeExp f code == 2 ^ fmtExpBits f - 1) = true then
        if (codeFrac f code == 0) = true then .inf (codeNeg f code) else .nan
      else if (f == .e4m3 && codeExp f code == 2 ^ fmtExpBits f - 1 && codeFrac f code == 7) = true then .nan
      else if (codeExp f code == 0) = true then .fin (codeNeg f code) (codeFrac f code) (fmtEmin f)
      else .fin (codeNeg f code) (codeFrac f code + 2 ^ fmtMant f) (fmtEmin f + (codeExp f code : Int) - 1) := by
    rw [decodeElem, if_neg (by simp [hf])]
    rfl
  have hlt := codeExp_lt f code
  rw [hdec] at h ⊢
  by_cases hinf : (fmtHasInf f && codeExp f code == 2 ^ fmtExpBits f - 1) = true
  · rw [if_pos hinf] at h
    split at h <;> cases h
  · rw [if_neg hinf] at h ⊢
    by_cases hnan : (f == .e4m3 && codeExp f code == 2 ^ fmtExpBits f - 1 && codeFrac f code == 7) = true
    · rw [if_pos hnan] at h
      cases h
    · rw [if_neg hnan]
      refine ⟨?_, ?_, by simp only [beq_iff_eq]⟩
      · unfold finiteExpMax
        cases hi : fmtHasInf f
        · simp; omega
        · simp [hi] at hinf ⊢; omega
      · rintro rfl htop hfrac
        exact hnan (by rw [htop, hfrac]; rfl)

/-- A finite value of a float format with a code: rounding to the format leaves it, its code is that one, and it lies below the virtual
next code (R83). -/
structure OnGrid (f : Fmt) (neg : Bool) (m : Nat) (e : Int) (code : Nat) : Prop where
  round : roundMag (fmtMant f + 1) (fmtEmin f) m e = (m, e)
  encode : codeMag f neg m e = code
  below : e ≤ (fmtMax f).2
  top : e = (fmtMax f).2 → m ≤ (fmtMax f).1
  width : m < 2 ^ (fmtMant f + 1)

theorem roundMag_subnormal {p : Nat} {emin : Int} {m : Nat} (h : m < 2 ^ p) : roundMag (p + 1) emin m emin = (m, emin) := by
  rcases Nat.eq_zero_or_pos m with rfl | hpos
  · rfl
  · have hlog : m.log2 < p := (Nat.log2_lt hpos.ne').mpr h
    have hq : quantum (p + 1) emin m emin = emin := by
      rw [quantum, if_pos]
      omega
    rw [roundMag, if_neg (by simpa using hpos.ne'), hq]
    simp

theorem roundMag_normal {p : Nat} {emin e : Int} {m : Nat} (hlo : 2 ^ p ≤ m) (hhi : m < 2 ^ (p + 1)) (he : emin ≤ e) :
    roundMag (p + 1) emin m e = (m, e) := by
  have hpos : m ≠ 0 := (Nat.lt_of_lt_of_le (Nat.two_pow_pos p) hlo).ne'
  have hlog : m.log2 = p := (Nat.log2_eq_iff hpos).mpr ⟨hlo, hhi⟩
  have hq : quantum (p + 1) emin m e = e := by
    rw [quantum, hlog]
    have htop : (p : Int) + e - (((p + 1 : Nat) : Int) - 1) = e := by push_cast; ring
    rw [htop, if_neg (by omega)]
  rw [roundMag, if_neg (by simpa using hpos), hq]
  simp

/-- The largest finite value: its exponent is the largest field's, and below it every mantissa is finite but E4M3's NaN. -/
theorem fmtMax_float {f : Fmt} (hf : fmtIsInt f = false) : (fmtMax f).2 = fmtEmin f + (finiteExpMax f : Int) - 1 ∧ 0 < finiteExpMax f ∧
    (fmtMax f).1 + 1 = (if f = .e4m3 then 15 else 2 ^ (fmtMant f + 1)) := by
  cases f with
  | fp32 | bf16 | fp16 | e4m3 | e5m2 | e3m2 | e2m3 | e2m1 => exact ⟨by decide, by decide, by decide⟩
  | int8 | int4 | int32 => cases hf

theorem onGrid_of_finite {f : Fmt} {code : Nat} (hf : fmtIsInt f = false) (hlt : code < 2 ^ fmtBits f)
    (h : numIsFinite (decodeElem f code) = true) : ∃ neg m e, decodeElem f code = .fin neg m e ∧ OnGrid f neg m e code := by
  obtain ⟨hmax, hnan, hdec⟩ := decodeElem_finite hf h
  obtain ⟨hexp, hpos, hmant⟩ := fmtMax_float hf
  have hcode := code_eq_fields hf hlt
  have hfrac := codeFrac_lt f code
  have hpow : 2 ^ (fmtMant f + 1) = 2 ^ fmtMant f + 2 ^ fmtMant f := by rw [Nat.pow_succ]; omega
  by_cases h0 : codeExp f code = 0
  · rw [if_pos h0] at hdec
    rw [h0, Nat.zero_mul, Nat.add_zero] at hcode
    refine ⟨_, _, _, hdec, roundMag_subnormal hfrac, ?_, by omega, fun he => ?_, by omega⟩
    · simpa [codeMag] using hcode
    · have h1 : finiteExpMax f = 1 := by omega
      split at hmant
      case isTrue he4 => subst he4; cases h1
      case isFalse => omega
  · rw [if_neg h0] at hdec
    refine ⟨_, _, _, hdec, roundMag_normal (by omega) (by omega) (by omega), ?_, by omega, fun he => ?_, by omega⟩
    · have hshift : (fmtEmin f + (codeExp f code : Int) - 1 - fmtEmin f).toNat = codeExp f code - 1 := by omega
      rw [codeMag, hshift, Nat.shiftLeft_eq]
      calc signBit f (codeNeg f code) + (codeExp f code - 1) * 2 ^ fmtMant f + (codeFrac f code + 2 ^ fmtMant f)
          = signBit f (codeNeg f code) + (codeExp f code - 1 + 1) * 2 ^ fmtMant f + codeFrac f code := by ring
        _ = code := by rw [Nat.sub_add_cancel (Nat.pos_of_ne_zero h0), hcode]
    · have h1 : codeExp f code = finiteExpMax f := by omega
      split at hmant
      case isTrue he4 =>
        subst he4
        have := hnan rfl h1
        have h16 : 2 ^ fmtMant .e4m3 = 8 := rfl
        omega
      case isFalse => omega

/-- A value of the grid lies below the virtual next code. -/
theorem atLeast_next_eq_false {f : Fmt} {neg : Bool} {m : Nat} {e : Int} {code : Nat} (hf : fmtIsInt f = false) (h : OnGrid f neg m e code) :
    atLeast m e ((fmtMax f).1 + 1) (fmtMax f).2 = false := by
  obtain ⟨-, -, hmant⟩ := fmtMax_float hf
  have hwide : m < 2 * ((fmtMax f).1 + 1) := by
    have := h.width
    split at hmant
    case isTrue he4 => subst he4; have h16 : 2 ^ (fmtMant .e4m3 + 1) = 16 := rfl; omega
    case isFalse => omega
  rw [atLeast, if_pos h.below]
  simp only [sub_self, Int.toNat_zero, decide_eq_false_iff_not, not_le, ge_iff_le, Nat.shiftLeft_eq]
  rcases h.below.eq_or_lt with heq | hlt
  · rw [heq, sub_self, Int.toNat_zero, Nat.pow_zero]
    have := h.top heq
    omega
  · obtain ⟨k, hk⟩ : ∃ k, ((fmtMax f).2 - e).toNat = k + 1 := ⟨((fmtMax f).2 - e).toNat - 1, by omega⟩
    rw [hk, Nat.pow_succ]
    have h2k := Nat.two_pow_pos k
    nlinarith

/-- A conversion to nearest gives a value of the grid its code, with no flag. -/
theorem convert_of_onGrid {f : Fmt} {neg : Bool} {m : Nat} {e : Int} {code : Nat} (hf : fmtIsInt f = false) (h : OnGrid f neg m e code) :
    convert f .nearest false 0 (.fin neg m e) = { code := code, flags := 0 } := by
  have hnext := atLeast_next_eq_false hf h
  have hround := h.round
  have hcode := h.encode
  rcases Nat.eq_zero_or_pos m with rfl | hpos
  · have he : e = fmtEmin f := (Prod.ext_iff.mp hround).2.symm
    simp only [convert, hf, Bool.false_and, Bool.false_eq_true, if_false, hnext, BEq.rfl, if_true, Conv.mk.injEq, and_true]
    simpa [codeMag, he] using hcode
  · have hm : (m == 0) = false := beq_false_of_ne hpos.ne'
    have hq : quantum (fmtMant f + 1) (fmtEmin f) m e = e := by
      rw [roundMag, hm] at hround
      simp only [Bool.false_eq_true, if_false] at hround
      split at hround
      · exact (Prod.ext_iff.mp hround).2
      · exact (Prod.ext_iff.mp hround).2
    simp only [convert, hf, Bool.false_and, Bool.false_eq_true, if_false, hnext, hm, hq, le_refl, if_true, sub_self, Int.toNat_zero,
      Nat.shiftLeft_zero, hcode]

/-! ### Infinities -/

/-- An infinity of a format has the code it was read from. -/
theorem encodeExact_inf {f : Fmt} {code : Nat} {neg : Bool} (hf : fmtIsInt f = false) (hlt : code < 2 ^ fmtBits f)
    (h : decodeElem f code = .inf neg) : encodeExact f (.inf neg) = code := by
  have hcode := code_eq_fields hf hlt
  rw [decodeElem, if_neg (by simp [hf])] at h
  dsimp only at h
  split at h
  case isTrue htop =>
    obtain ⟨hinf, hexp⟩ := Bool.and_eq_true_iff.mp htop
    split at h
    case isTrue hfrac =>
      have hneg : codeNeg f code = neg := Num.inf.inj h
      have hexp' : codeExp f code = 2 ^ fmtExpBits f - 1 := eq_of_beq hexp
      have hfrac' : codeFrac f code = 0 := eq_of_beq hfrac
      rw [hneg, hexp', hfrac', Nat.add_zero] at hcode
      rw [encodeExact, if_pos hinf, codeInf, Nat.shiftLeft_eq]
      exact hcode
    case isFalse => cases h
  case isFalse =>
    split at h
    · cases h
    · split at h <;> cases h

/-! ### Integers -/

theorem fmtBits_int {f : Fmt} (hf : fmtIsInt f = true) : 2 ^ (fmtBits f) = 2 * ((fmtMax f).1 + 1) ∧ (fmtMax f).2 = 0 := by
  cases f with
  | int8 | int4 | int32 => exact ⟨by decide, rfl⟩
  | fp32 | bf16 | fp16 | e4m3 | e5m2 | e3m2 | e2m3 | e2m1 => cases hf

theorem codeOf_signedOf {w code : Nat} (h : code < 2 ^ w) : codeOf w (signedOf w code) = code := by
  rw [codeOf, signedOf, Nat.mod_eq_of_lt h]
  split
  · rw [Int.emod_eq_of_lt (by omega) (by omega), Int.toNat_natCast]
  · rw [Int.sub_emod_right, Int.emod_eq_of_lt (by omega) (by omega), Int.toNat_natCast]

theorem signed_natAbs (i : Int) : (if decide (i < 0) = true then -(i.natAbs : Int) else (i.natAbs : Int)) = i := by
  simp only [decide_eq_true_eq]
  split <;> omega

theorem intAt_numOfInt (i : Int) : intAt (decide (i < 0)) i.natAbs 0 0 = i := by
  rw [intAt]
  simpa using signed_natAbs i

/-- The integer of a code lies between the virtual next codes (R79). -/
theorem signedOf_bounds {f : Fmt} {code : Nat} (hf : fmtIsInt f = true) (h : code < 2 ^ fmtBits f) :
    -((fmtMax f).1 + 1 : Int) ≤ signedOf (fmtBits f) code ∧ signedOf (fmtBits f) code ≤ (fmtMax f).1 := by
  have hmax := (fmtBits_int hf).1
  rw [signedOf, Nat.mod_eq_of_lt h]
  split <;> omega

theorem decodeElem_int {f : Fmt} (code : Nat) (hf : fmtIsInt f = true) : decodeElem f code = numOfInt (signedOf (fmtBits f) code) := if_pos hf

theorem encodeExact_int {f : Fmt} {code : Nat} (hf : fmtIsInt f = true) (h : code < 2 ^ fmtBits f) :
    encodeExact f (numOfInt (signedOf (fmtBits f) code)) = code := by
  have hval : encodeExact f (numOfInt (signedOf (fmtBits f) code)) = codeOf (fmtBits f) (intAt (decide (signedOf (fmtBits f) code < 0))
      (signedOf (fmtBits f) code).natAbs 0 0 / 1) := by
    rw [numOfInt, encodeExact, if_pos hf]
    rfl
  rw [hval, Int.ediv_one, intAt_numOfInt, codeOf_signedOf h]

theorem convert_int {f : Fmt} {code : Nat} (hf : fmtIsInt f = true) (h : code < 2 ^ fmtBits f) :
    convert f .nearest false 0 (numOfInt (signedOf (fmtBits f) code)) = { code := code, flags := 0 } := by
  have hcode := codeOf_signedOf h
  have hbounds := signedOf_bounds hf h
  have hexp := (fmtBits_int hf).2
  generalize signedOf (fmtBits f) code = i at hcode hbounds ⊢
  have hnext : atLeast i.natAbs 0 ((fmtMax f).1 + (if (true && decide (i < 0)) = true then 2 else 1)) 0 = false := by
    rw [Bool.true_and, atLeast]
    simp only [le_refl, if_true, sub_self, Int.toNat_zero, Nat.shiftLeft_zero, decide_eq_true_eq, decide_eq_false_iff_not]
    split <;> omega
  by_cases hzero : i = 0
  · subst hzero
    simp only [numOfInt, convert, hexp, hnext, hf]
    exact congrArg (Conv.mk · 0) hcode
  · have hm : (i.natAbs == 0) = false := beq_false_of_ne (by omega)
    simp only [numOfInt, convert, hexp, hnext, hf, hm, Bool.false_eq_true, if_false, if_true, le_refl, sub_self, Int.toNat_zero,
      Nat.shiftLeft_zero]
    rw [signed_natAbs, hcode]

/-! ### FP32 saturation (R94) -/

theorem magGe_eq_false_of_fp32 {neg : Bool} {m : Nat} {e : Int} {code : Nat} (h : OnGrid .fp32 neg m e code) : magGe m e 128 = false := by
  have hlog : m ≠ 0 → m.log2 < 24 := fun hm => (Nat.log2_lt hm).mpr h.width
  have hbelow : e ≤ 104 := h.below
  rw [magGe]
  simp only [Bool.and_eq_false_imp, bne_iff_ne, decide_eq_false_iff_not]
  intro hm
  have := hlog hm
  omega

theorem fp32Sat_of_onGrid {neg : Bool} {m : Nat} {e : Int} {code : Nat} (h : OnGrid .fp32 neg m e code) :
    (fp32Sat (.fin neg m e)).2 = false := by
  have hround : roundMag 24 (-149) m e = (m, e) := h.round
  rw [fp32Sat, hround]
  dsimp only
  rw [if_neg (by simp [magGe_eq_false_of_fp32 h])]

/-! ### Little-endian numbers (R10) -/

@[simp] theorem length_leBytes (n v : Nat) : (leBytes n v).length = n := by
  induction n generalizing v with
  | zero => rfl
  | succ n ih => rw [leBytes, List.length_cons, ih]

theorem leNat_leBytes {n v : Nat} (h : v < 2 ^ (8 * n)) : leNat (leBytes n v) = v := by
  induction n generalizing v with
  | zero => rw [Nat.mul_zero, Nat.pow_zero, Nat.lt_one_iff] at h; rw [h]; rfl
  | succ n ih =>
    have hdiv : v / 256 < 2 ^ (8 * n) := by
      apply Nat.div_lt_of_lt_mul
      rwa [show (256 : Nat) = 2 ^ 8 from rfl, ← Nat.pow_add, Nat.add_comm, ← Nat.mul_succ]
    rw [leBytes, leNat, ih hdiv, BitVec.toNat_ofNat]
    exact Nat.mod_add_div v 256

/-- Bytes that have just been written read back, whatever stands around them. -/
theorem rdBytes_of_getD {ms : Mems} {sp : Space} (bs : List Byte) (a : Nat) (h : ∀ k, k < bs.length → rdByte ms sp (a + k) = bs.getD k 0) :
    rdBytes ms sp a bs.length = bs := by
  induction bs generalizing a with
  | nil => rfl
  | cons b bs ih =>
    rw [List.length_cons, rdBytes]
    congr 1
    · exact h 0 (by simp)
    · refine ih (a + 1) (fun k hk => ?_)
      rw [Nat.add_assoc, Nat.add_comm 1 k]
      exact h (k + 1) (by simpa using hk)

theorem rdBytes_wrBytes (ms : Mems) (sp : Space) (a : Nat) (bs : List Byte) : rdBytes (wrBytes ms sp a bs) sp a bs.length = bs := by
  refine rdBytes_of_getD bs a (fun k hk => ?_)
  rw [rdByte_wrBytes, if_pos ⟨rfl, by omega, by omega⟩, Nat.add_sub_cancel_left]

theorem rdLe_wrLe (ms : Mems) (sp : Space) (a : Nat) {n v : Nat} (h : v < 2 ^ (8 * n)) : rdLe (wrLe ms sp a n v) sp a n = v := by
  have hbytes := rdBytes_wrBytes ms sp a (leBytes n v)
  rw [length_leBytes] at hbytes
  rw [rdLe, wrLe, hbytes, leNat_leBytes h]

theorem decodeElem_num_cases {f : Fmt} {code : Nat} (h : decodeElem f code ≠ .nan) :
    numIsFinite (decodeElem f code) = true ∨ ∃ neg, decodeElem f code = .inf neg := by
  cases hd : decodeElem f code with
  | nan => exact absurd hd h
  | inf neg => exact .inr ⟨neg, rfl⟩
  | fin neg m e => exact .inl rfl

end Sys2Proof.Machine

open Sys2Proof Sys2Proof.Machine

/-- Settles O60: an integer code is its two's complement value, a finite float value lies on its format's grid, and an infinity has one
code. -/
theorem elementCodesRoundTrip : Obligations.ElementCodesRoundTrip := by
  unfold Obligations.ElementCodesRoundTrip
  refine ⟨fun f code hlt hnan => ?_, fun f code hlt hfin => ?_, fun w hfin => ?_, fun ms sp a n v hv => rdLe_wrLe ms sp a hv⟩
  · cases hf : fmtIsInt f with
    | true => rw [decodeElem_int code hf, encodeExact_int hf hlt]
    | false =>
      rcases decodeElem_num_cases hnan with hfin | ⟨neg, hinf⟩
      · obtain ⟨neg, m, e, hdec, hgrid⟩ := onGrid_of_finite hf hlt hfin
        rw [hdec, encodeExact, if_neg (by simp [hf]), hgrid.round]
        exact hgrid.encode
      · rw [hinf, encodeExact_inf hf hlt hinf]
  · cases hf : fmtIsInt f with
    | true => rw [decodeElem_int code hf, convert_int hf hlt]
    | false =>
      obtain ⟨neg, m, e, hdec, hgrid⟩ := onGrid_of_finite hf hlt hfin
      rw [hdec, convert_of_onGrid hf hgrid]
  · obtain ⟨neg, m, e, hdec, hgrid⟩ := onGrid_of_finite (f := .fp32) rfl w.isLt hfin
    rw [fp32Of, hdec, fp32Sat_of_onGrid hgrid]

end

section
/-!
PROOFS. What moves work from one unit to another changes only the contexts, the regions, the arrays, the ports and telemetry: units,
memory, the log and every register stay.
-/

namespace Sys2Proof.Machine

/-! ### Only the places of work differ -/

/-- Nothing outside the contexts, regions, arrays, ports and telemetry differs, and the memory ports' up inputs do not. -/
structure WorkOnly (s t : State) : Prop where
  rest : t = { s with ctxs := t.ctxs, rgns := t.rgns, arrs := t.arrs, mp := t.mp, hp := t.hp, tlm := t.tlm }
  up : ∀ q, (getMp t q).up = (getMp s q).up

theorem getMp_setMp_if (s : State) (q j : Nat) (x : MemPort) : getMp (setMp s q x) j = if j = q then x else getMp s j :=
  tget_tset _ _ _ _ _

namespace WorkOnly

theorem refl (s : State) : WorkOnly s s := ⟨rfl, fun _ => rfl⟩

theorem trans {s t u : State} (h : WorkOnly s t) (k : WorkOnly t u) : WorkOnly s u :=
  ⟨by rw [k.rest, h.rest], fun q => (k.up q).trans (h.up q)⟩

variable {s t : State}

theorem units (h : WorkOnly s t) : t.units = s.units := by rw [h.rest]
theorem flog (h : WorkOnly s t) : t.flog = s.flog := by rw [h.rest]
theorem unitSt (h : WorkOnly s t) (k : UnitKind) (n : Nat) : unitSt t k n = Machine.unitSt s k n := by
  rw [Machine.unitSt, h.units, Machine.unitSt]

/-! Each step may follow steps that change only work. -/

theorem setArr (h : WorkOnly s t) (a : Nat) (x : ArrayS) : WorkOnly s (setArr t a x) := h.trans ⟨rfl, fun _ => rfl⟩
theorem setRgn (h : WorkOnly s t) (r : Nat) (x : Region) : WorkOnly s (setRgn t r x) := h.trans ⟨rfl, fun _ => rfl⟩
theorem setCtx (h : WorkOnly s t) (c : Nat) (x : Context) : WorkOnly s (setCtx t c x) := h.trans ⟨rfl, fun _ => rfl⟩
theorem setMp (h : WorkOnly s t) (q : Nat) (x : MemPort) (hx : x.up = (getMp t q).up) : WorkOnly s (setMp t q x) := by
  refine h.trans ⟨rfl, fun j => ?_⟩
  rw [getMp_setMp_if]
  split
  · rw [hx, ‹j = q›]
  · rfl
theorem setHp (h : WorkOnly s t) (p : Nat) (x : HostPort) : WorkOnly s (setHp t p x) := h.trans ⟨rfl, fun _ => rfl⟩
theorem addCnt (h : WorkOnly s t) (i n : Nat) : WorkOnly s (addCnt t i n) := h.trans ⟨rfl, fun _ => rfl⟩

theorem ite {p : Prop} [Decidable p] {u : State} (h : WorkOnly s t) (k : WorkOnly s u) : WorkOnly s (if p then t else u) := by
  split
  · exact h
  · exact k

theorem foldl {α : Type} {f : State → α → State} (h : WorkOnly s t) (l : List α) (hf : ∀ u x, WorkOnly s u → WorkOnly s (f u x)) :
    WorkOnly s (l.foldl f t) := by
  induction l generalizing t with
  | nil => exact h
  | cons x l ih => exact ih (hf t x h)

/-! ### The operations on work -/

theorem finishDesc (h : WorkOnly s t) (c : Nat) (ring : W32) (res : Result) : WorkOnly s (finishDesc t c ring res) := h.setCtx _ _

theorem freeSlot (h : WorkOnly s t) (c : Nat) (sl : Option SlotRef) : WorkOnly s (freeSlot t c sl) := by
  cases sl with
  | none => exact h
  | some r => exact (h.setCtx _ _).ite (h.setRgn _ _)

theorem leaveArray (h : WorkOnly s t) (a : Nat) (f : SubTile → Bool) : WorkOnly s (leaveArray t a f) :=
  (h.setArr _ _).ite ((h.setArr _ _).setArr _ _)

theorem dropSpeculation (h : WorkOnly s t) (a : Nat) : WorkOnly s (dropSpeculation t a) :=
  have h1 := (h.addCnt 7 1).ite h
  ((h1.addCnt 3 1).ite h1).setArr _ _

theorem emptyArray (h : WorkOnly s t) (a : Nat) : WorkOnly s (emptyArray t a) :=
  have h2 := (h.dropSpeculation a).setRgn _ _
  ((h2.ite (h2.leaveArray _ _)).leaveArray _ _).setArr _ _

theorem emptySide (h : WorkOnly s t) (r : Nat) : WorkOnly s (emptySide t r) := h.setRgn _ _

theorem loseAtomic (h : WorkOnly s t) (q : PortReq) : WorkOnly s (loseAtomic t q) := by
  unfold Machine.loseAtomic
  split
  · exact (h.finishDesc _ _ _).ite h
  · exact h

theorem emptyPort (h : WorkOnly s t) (q : Nat) : WorkOnly s (emptyPort t q) := by
  have h1 := (refl t).foldl (((getMp t q).rdOut ++ (getMp t q).wrOut).map (·.2)) fun u x hu => hu.loseAtomic x
  have h2 (x : MemPort) (hx : x.up = (getMp t q).up) := h1.setMp q x (hx.trans (h1.up q).symm)
  refine h.trans ?_
  unfold Machine.emptyPort
  dsimp only
  split
  · exact h2 _ rfl
  next j _ => exact WorkOnly.setMp (h2 _ (by rfl)) j _ ((h1.up j).trans ((h2 _ (by rfl)).up j).symm)

theorem leavePort (h : WorkOnly s t) (dest q : Nat) : WorkOnly s (leavePort t dest q) := by
  have h1 := (refl t).foldl (((getMp t q).rdOut ++ (getMp t q).wrOut).map (·.2)) fun u x hu => hu.loseAtomic x
  refine h.trans (WorkOnly.foldl (h1.setMp q _ (by exact (h1.up q).symm)) _ fun u x hu => ?_)
  split
  · exact hu
  · exact hu.setMp _ _ rfl

theorem leavePorts (h : WorkOnly s t) (r : Nat) : WorkOnly s (leavePorts t r) := by
  unfold Machine.leavePorts
  split
  · exact h.foldl _ fun u x hu => hu.emptyPort x
  · exact h.foldl _ fun u x hu => hu.leavePort _ x

theorem adoptPorts (h : WorkOnly s t) (r : Nat) : WorkOnly s (adoptPorts t r) :=
  h.foldl _ fun _ x hu => hu.leavePort _ x

theorem freeEntries (h : WorkOnly s t) (f : SubTile → Bool) : WorkOnly s (freeEntries t f) := h.trans ⟨rfl, fun _ => rfl⟩

theorem dropSubs (h : WorkOnly s t) (f : SubTile → Bool) : WorkOnly s (dropSubs t f) := by
  have h1 := (h.freeEntries f).foldl (allSubs t) (f := fun u x => if f x then Machine.freeSlot u x.ctx x.slot else u)
    fun u x hu => (hu.freeSlot _ _).ite hu
  exact (h1.foldl _ fun u e hu => hu.leaveArray e.1 f).trans ⟨rfl, fun _ => rfl⟩

theorem dropConfirmed (h : WorkOnly s t) (c : Nat) (ring : W32) : WorkOnly s (dropConfirmed t c ring) := h.trans ⟨rfl, fun _ => rfl⟩

theorem endDesc (h : WorkOnly s t) (c : Nat) (ring : W32) (st : Status) (result : W64) : WorkOnly s (endDesc t c ring st result) :=
  ((h.dropSubs _).dropConfirmed c ring).finishDesc _ _ _

theorem failAtomics (h : WorkOnly s t) (reqs : List BankReq) : WorkOnly s (failAtomics t reqs) := by
  refine h.foldl _ fun u q hu => ?_
  split
  · exact hu.finishDesc _ _ _
  · exact hu

theorem dropRequests (h : WorkOnly s t) (reqs : List BankReq) : WorkOnly s (dropRequests t reqs) := by
  refine h.foldl _ fun u q hu => ?_
  have answered {v : State} (hv : WorkOnly s v) : WorkOnly s (match q.owner with
      | .host p => Machine.setHp v p { getHp v p with resp := .err, wdata := [] }
      | _ => v) := by
    split
    · exact hv.setHp _ _
    · exact hv
  cases q.frees with
  | none => exact answered hu
  | some f => exact answered (hu.freeSlot _ _)

theorem failOperands (h : WorkOnly s t) (r : Nat) : WorkOnly s (failOperands t r) :=
  h.foldl _ fun _ _ hu => hu.foldl _ fun _ _ hv => hv.endDesc _ _ _ _

/-- The contexts may be put anew behind such steps. -/
theorem withCtxs (h : WorkOnly s t) (cs : Tbl Context) : WorkOnly s { t with ctxs := cs } := h.trans ⟨rfl, fun _ => rfl⟩

theorem leaveLive (h : WorkOnly s t) (r : Nat) : WorkOnly s (leaveLive t r) :=
  failOperands (withCtxs (((h.setRgn _ _).failAtomics _).dropRequests _) _) r

theorem orphanSubs (h : WorkOnly s t) (r : Nat) : WorkOnly s (orphanSubs t r) :=
  ((h.foldl _ fun _ _ hu => hu.setRgn _ _).foldl _ fun _ _ hu => hu.leaveArray _ _).trans ⟨rfl, fun _ => rfl⟩

theorem moveRemote (h : WorkOnly s t) (es : Tbl JEntry) (dest : Nat) : WorkOnly s (moveRemote t es dest) := by
  refine h.foldl _ fun u e hu => ?_
  split
  · exact hu
  · exact hu.setRgn _ _

theorem emptyRegion (h : WorkOnly s t) (r : Nat) (fenced : Bool) : WorkOnly s (emptyRegion t r fenced) := by
  unfold Machine.emptyRegion
  have h2 := ((h.leaveLive r).foldl (fourOf r) fun u a hu => hu.emptyArray a).emptySide r
  have h3 := h2.foldl (getRgn (Machine.emptySide ((fourOf r).foldl Machine.emptyArray (Machine.leaveLive t r)) r) r).replayQ
    (f := fun u x => Machine.freeSlot u x.ctx x.slot) fun u x hu => hu.freeSlot _ _
  refine (WorkOnly.leavePorts (WorkOnly.dropRequests ?_ _) _).trans ⟨rfl, fun _ => rfl⟩
  have h4 := fun x => (h3.setRgn r x).orphanSubs r
  split
  · exact h4 _
  · exact (h4 _).moveRemote _ _

theorem endSelfTest (h : WorkOnly s t) (n : Nat) : WorkOnly s (endSelfTest t n) := h.setRgn _ _

end WorkOnly

end Sys2Proof.Machine

end

section
/-!
PROOFS. Entries of the log found again (R397); units taken out of service (R318, R322); time, REFCLK and droops (R349, R350, R353); island
faults (R312).
-/

namespace Sys2Proof.Machine

/-! ### Entries of the log -/

theorem mem_tset_self {α : Type} (t : Tbl α) (k : Nat) (v : α) : (k, v) ∈ tset t k v := by
  induction t with
  | nil => simp [tset]
  | cons x t ih =>
    simp only [tset]
    split
    · simp
    · split
      · simp
      · simp [ih]

theorem mem_tset_of_ne {α : Type} {t : Tbl α} {k : Nat} {v : α} {e : Nat × α} (h : e ∈ t) (hk : e.1 ≠ k) : e ∈ tset t k v := by
  induction t with
  | nil => simp at h
  | cons x t ih =>
    obtain ⟨j, w⟩ := x
    simp only [tset]
    split
    · simp only [List.mem_cons] at h ⊢
      exact .inr h
    · rcases List.mem_cons.mp h with rfl | h
      · rw [if_neg (by exact hk)]
        simp
      · split
        · simp [h]
        · simp [ih h]

/-- An event that merges into no entry stands in the log at the former `next`. -/
theorem logAt_logFault {s : State} {e : FlogEntry} {d : Nat} (hnew : e.cls ≠ 1 ∨ mergeAt s e = none) (hd : e.detail = BitVec.ofNat 32 d) :
    LogAt (logFault s e) s.flog.next.toNat e.cls e.source d := by
  rw [logFault_of_new hnew]
  exact ⟨e, by rw [(logNew_flog s e).1]; exact mem_tset_self .., rfl, rfl, hd⟩

theorem LogAt.congr {s t : State} {j d : Nat} {cls : BitVec 3} {source : Byte} (h : LogAt s j cls source d) (hf : t.flog = s.flog) :
    LogAt t j cls source d := by
  rw [LogAt, hf]
  exact h

/-- A later entry of another class than 1 leaves the entries below `next` alone. -/
theorem LogAt.logFault {s : State} {j d : Nat} {cls : BitVec 3} {source : Byte} (h : LogAt s j cls source d) {e : FlogEntry}
    (hcls : e.cls ≠ 1) (hj : j ≠ s.flog.next.toNat) : LogAt (logFault s e) j cls source d := by
  obtain ⟨x, hmem, hx⟩ := h
  rw [logFault_of_new (.inl hcls)]
  exact ⟨x, by rw [(logNew_flog s e).1]; exact mem_tset_of_ne hmem hj, hx⟩

theorem logFault_next {s : State} {e : FlogEntry} (hcls : e.cls ≠ 1) : (logFault s e).flog.next = s.flog.next + 1 := by
  rw [logFault_of_new (.inl hcls)]
  exact (logNew_flog s e).2.1

/-- The entry just written is not the one that comes next. -/
theorem toNat_ne_next (n : BitVec 9) : n.toNat ≠ (n + 1).toNat := by
  have hn := n.isLt
  rw [BitVec.toNat_add]
  simp only [BitVec.ofNat_eq_ofNat, BitVec.toNat_ofNat]
  omega

@[simp] theorem logFault_units (s : State) (e : FlogEntry) : (logFault s e).units = s.units := by rw [(logFault_logOnly s e).rest]
@[simp] theorem logFault_boot (s : State) (e : FlogEntry) : (logFault s e).boot = s.boot := by rw [(logFault_logOnly s e).rest]
@[simp] theorem logFault_mnt (s : State) (e : FlogEntry) : (logFault s e).mnt = s.mnt := by rw [(logFault_logOnly s e).rest]
@[simp] theorem logFault_mp (s : State) (e : FlogEntry) : (logFault s e).mp = s.mp := by rw [(logFault_logOnly s e).rest]
@[simp] theorem logFault_time (s : State) (e : FlogEntry) : (logFault s e).time = s.time := by rw [(logFault_logOnly s e).rest]

@[simp] theorem unitSt_logFault (s : State) (e : FlogEntry) (k : UnitKind) (n : Nat) : unitSt (logFault s e) k n = unitSt s k n := by
  rw [unitSt, logFault_units, unitSt]

/-! ### No warm reset ends -/

/-- A command that leaves the boot phase and ready alone ends no warm reset of a settled machine. -/
theorem warmNext_of_settled {s t : State} (h : Settled s) (hphase : t.boot.phase = s.boot.phase) (hready : t.boot.ready = s.boot.ready) :
    warmNext t = t := by
  unfold warmNext
  rw [if_neg]
  rw [hphase, hready]
  rcases h with h | h
  · rw [beq_false_of_ne h, Bool.false_and, Bool.false_and]
    exact Bool.false_ne_true
  · simp [h]

/-! ### Units of a region (R314) -/

/-- Following a region twice is following it once. -/
theorem followRegion_idem (st old : UState) : followRegion st (followRegion st old) = followRegion st old := by
  cases st <;> cases old <;> rfl

/-- One unit follows its region. -/
def followUnit (st : UState) (t : State) (u : UnitKind × Nat) : State :=
  if unitSt t u.1 u.2 == followRegion st (unitSt t u.1 u.2) then t else putUnit t u.1 u.2 (followRegion st (unitSt t u.1 u.2))

theorem putRegion_eq (s : State) (r : Nat) (st : UState) : putRegion s r st = (unitsOf r).foldl (followUnit st) (putUnit s .region r st) := rfl

theorem unitSt_followUnit (st : UState) (t : State) (u : UnitKind × Nat) (k : UnitKind) (n : Nat) :
    unitSt (followUnit st t u) k n = if (k, n) = u then followRegion st (unitSt t k n) else unitSt t k n := by
  obtain ⟨k', n'⟩ := u
  unfold followUnit
  by_cases hu : (k, n) = (k', n')
  · obtain ⟨rfl, rfl⟩ := Prod.mk.injEq .. ▸ hu
    by_cases hst : unitSt t k n = followRegion st (unitSt t k n)
    · rw [if_pos (by simpa using hst), if_pos rfl, ← hst]
    · rw [if_neg (by simpa using hst), if_pos rfl, unitSt_putUnit_self]
  · rw [if_neg hu]
    refine ite_cases (q := fun x => unitSt x k n = unitSt t k n) (fun _ => rfl) (fun _ => ?_)
    rw [unitSt_putUnit, if_neg (fun h => hu (Prod.ext h.1 h.2))]

theorem unitSt_foldl_followUnit (st : UState) (l : List (UnitKind × Nat)) (t : State) (k : UnitKind) (n : Nat) :
    unitSt (l.foldl (followUnit st) t) k n = if (k, n) ∈ l then followRegion st (unitSt t k n) else unitSt t k n := by
  induction l generalizing t with
  | nil => simp
  | cons u l ih =>
    rw [List.foldl_cons, ih, unitSt_followUnit]
    by_cases hu : (k, n) = u
    · simp [hu, followRegion_idem]
    · simp [hu]

/-- The region takes the state, and each of its units follows. -/
theorem unitSt_putRegion (s : State) (r : Nat) (st : UState) (k : UnitKind) (n : Nat) : unitSt (putRegion s r st) k n =
    if k = .region ∧ n = r then st else if (k, n) ∈ unitsOf r then followRegion st (unitSt s k n) else unitSt s k n := by
  rw [putRegion_eq, unitSt_foldl_followUnit, unitSt_putUnit]
  by_cases hr : k = .region ∧ n = r
  · obtain ⟨rfl, rfl⟩ := hr
    simp [unitsOf]
  · simp [hr]

theorem followUnit_rest (st : UState) (t : State) (u : UnitKind × Nat) :
    followUnit st t u = { t with units := (followUnit st t u).units } := by
  unfold followUnit
  split <;> rfl

/-! ### Units out of service (R318) -/

/-- Only work, units, their owners and the log with its reports differ. -/
def Contained (s t : State) : Prop :=
  t = { s with ctxs := t.ctxs, rgns := t.rgns, arrs := t.arrs, mp := t.mp, hp := t.hp, tlm := t.tlm, units := t.units, flog := t.flog,
               sbd := t.sbd, mems := t.mems, mnt := t.mnt }

namespace Contained

theorem refl (s : State) : Contained s s := rfl

theorem trans {s t u : State} (h : Contained s t) (k : Contained t u) : Contained s u := by
  unfold Contained at *
  rw [k, h]

theorem of_workOnly {s t : State} (h : WorkOnly s t) : Contained s t := by
  rw [h.rest]
  rfl

theorem of_logFault (s : State) (e : FlogEntry) : Contained s (logFault s e) := by
  rw [(logFault_logOnly s e).rest]
  rfl

theorem putUnit (s : State) (k : UnitKind) (n : Nat) (st : UState) : Contained s (putUnit s k n st) := rfl

theorem foldl_followUnit (st : UState) (l : List (UnitKind × Nat)) (s : State) : Contained s (l.foldl (followUnit st) s) := by
  induction l generalizing s with
  | nil => rfl
  | cons u l ih =>
    refine Contained.trans ?_ (ih _)
    rw [followUnit_rest]
    rfl

theorem putRegion (s : State) (r : Nat) (st : UState) : Contained s (putRegion s r st) :=
  (Contained.putUnit s .region r st).trans (foldl_followUnit st (unitsOf r) _)

variable {s t : State}

theorem boot (h : Contained s t) : t.boot = s.boot := by rw [h]
theorem isl (h : Contained s t) : t.isl = s.isl := by rw [h]
theorem time (h : Contained s t) : t.time = s.time := by rw [h]

end Contained

theorem takeOut_contained (s : State) (k : UnitKind) (n : Nat) (st : UState) : Contained s (takeOut s k n st) := by
  unfold takeOut
  cases k with
  | array =>
    have h : Contained s (putUnit (emptyArray s n) .array n st) :=
      (Contained.of_workOnly ((WorkOnly.refl s).emptyArray n)).trans rfl
    exact ite_cases (q := Contained s) (fun _ => h.trans (Contained.of_workOnly ((WorkOnly.refl _).endSelfTest n))) (fun _ => h)
  | side => exact (Contained.of_workOnly ((WorkOnly.refl s).emptySide n)).trans rfl
  | port => exact (Contained.of_workOnly ((WorkOnly.refl s).emptyPort n)).trans rfl
  | region => exact (Contained.of_workOnly ((WorkOnly.refl s).emptyRegion n _)).trans (Contained.putRegion _ _ _)

theorem takeOut_flog (s : State) (k : UnitKind) (n : Nat) (st : UState) : (takeOut s k n st).flog = s.flog := by
  unfold takeOut
  cases k with
  | array =>
    have h : (putUnit (emptyArray s n) .array n st).flog = s.flog := ((WorkOnly.refl s).emptyArray n).flog
    exact ite_cases (q := fun x : State => x.flog = s.flog) (fun _ => h) (fun _ => h)
  | side => rfl
  | port => exact ((WorkOnly.refl s).emptyPort n).flog
  | region =>
    show (putRegion _ n st).flog = _
    have hfold : ∀ (l : List (UnitKind × Nat)) (t : State), (l.foldl (followUnit st) t).flog = t.flog := by
      intro l
      induction l with
      | nil => exact fun _ => rfl
      | cons u l ih => exact fun t => by rw [List.foldl_cons, ih, followUnit_rest]
    rw [putRegion_eq, hfold]
    exact ((WorkOnly.refl s).emptyRegion n _).flog

theorem unitSt_takeOut_self (s : State) (k : UnitKind) (n : Nat) (st : UState) : unitSt (takeOut s k n st) k n = st := by
  unfold takeOut
  cases k with
  | array =>
    have h : unitSt (putUnit (emptyArray s n) .array n st) .array n = st := unitSt_putUnit_self ..
    exact ite_cases (q := fun x => unitSt x .array n = st) (fun _ => h) (fun _ => h)
  | side => exact unitSt_putUnit_self ..
  | port => exact unitSt_putUnit_self ..
  | region =>
    show unitSt (putRegion _ n st) .region n = st
    rw [unitSt_putRegion, if_pos ⟨rfl, rfl⟩]

/-- A FENCED unit of a region stays FENCED as its region is. -/
theorem unitSt_takeOut_region_of_fenced {s : State} {r : Nat} {k : UnitKind} {n : Nat} (h : unitSt s k n = .fenced) :
    unitSt (takeOut s .region r .fenced) k n = .fenced := by
  show unitSt (putRegion (emptyRegion s r _) r .fenced) k n = _
  rw [unitSt_putRegion, ((WorkOnly.refl s).emptyRegion r _).unitSt, h]
  split
  · rfl
  · split <;> rfl

/-- Where the last LIVE port leaves, the region goes with it and is logged; else nothing happens (R322). -/
theorem portsLeft_cases (s : State) (k : UnitKind) (n : Nat) : portsLeft s k n = s ∨
    portsLeft s k n = logFault (takeOut s .region (n / 4) .fenced) (unitEntry s clsRegion 0x20 .region (n / 4)) :=
  ite_cases (q := fun x => x = s ∨ x = logFault (takeOut s .region (n / 4) .fenced) (unitEntry s clsRegion 0x20 .region (n / 4)))
    (fun _ => .inr rfl) (fun _ => .inl rfl)

theorem portsLeft_contained (s : State) (k : UnitKind) (n : Nat) : Contained s (portsLeft s k n) := by
  rcases portsLeft_cases s k n with h | h <;> rw [h]
  · exact .refl s
  · exact (takeOut_contained ..).trans (.of_logFault ..)

theorem unitSt_portsLeft_of_fenced {s : State} {k : UnitKind} {n : Nat} {k' : UnitKind} {n' : Nat} (h : unitSt s k' n' = .fenced) :
    unitSt (portsLeft s k n) k' n' = .fenced := by
  rcases portsLeft_cases s k n with e | e <;> rw [e]
  · exact h
  · rw [unitSt_logFault, unitSt_takeOut_region_of_fenced h]

/-- The entry written last stays in the log while a region is fenced for want of a port. -/
theorem LogAt.portsLeft {s : State} {n : BitVec 9} {d : Nat} {cls : BitVec 3} {source : Byte} (h : LogAt s n.toNat cls source d)
    (hnext : s.flog.next = n + 1) (k : UnitKind) (m : Nat) : LogAt (portsLeft s k m) n.toNat cls source d := by
  rcases portsLeft_cases s k m with e | e <;> rw [e]
  · exact h
  · refine (h.congr (takeOut_flog ..)).logFault (by show (4 : BitVec 3) ≠ 1; decide) ?_
    rw [takeOut_flog, hnext]
    exact toNat_ne_next n

theorem fenceQuiet_contained (s : State) (k : UnitKind) (n : Nat) : Contained s (fenceQuiet s k n) :=
  (takeOut_contained ..).trans (portsLeft_contained ..)

/-! ### The loss of a unit's island (R312) -/

theorem loseUnit_cases {s : State} {k : UnitKind} {n : Nat} (h : unitSt s k n ≠ .absent) :
    (unitSt s k n = .fenced ∧ loseUnit s k n = s) ∨ loseUnit s k n = fenceQuiet s k n := by
  unfold loseUnit
  cases hst : unitSt s k n
  case absent => exact absurd hst h
  case fenced => exact .inl ⟨rfl, rfl⟩
  all_goals exact .inr rfl

theorem unitSt_loseUnit {s : State} {k : UnitKind} {n : Nat} (h : unitSt s k n ≠ .absent) : unitSt (loseUnit s k n) k n = .fenced := by
  rcases loseUnit_cases h with ⟨hst, e⟩ | e <;> rw [e]
  · exact hst
  · exact unitSt_portsLeft_of_fenced (unitSt_takeOut_self ..)

theorem loseUnit_contained {s : State} {k : UnitKind} {n : Nat} (h : unitSt s k n ≠ .absent) : Contained s (loseUnit s k n) := by
  rcases loseUnit_cases h with ⟨-, e⟩ | e <;> rw [e]
  · exact .refl s
  · exact fenceQuiet_contained ..

theorem LogAt.loseUnit {s : State} {n : BitVec 9} {d : Nat} {cls : BitVec 3} {source : Byte} (h : LogAt s n.toNat cls source d)
    (hnext : s.flog.next = n + 1) {k : UnitKind} {m : Nat} (hst : unitSt s k m ≠ .absent) :
    LogAt (loseUnit s k m) n.toNat cls source d := by
  rcases loseUnit_cases hst with ⟨-, e⟩ | e <;> rw [e]
  · exact h
  · exact LogAt.portsLeft (h.congr (takeOut_flog ..)) (by rw [takeOut_flog, hnext]) k m

end Sys2Proof.Machine

end

section
/-!
PROOFS. Board-level faults (R325, R367), time, REFCLK and droops (R349, R350, R353), and island faults by the island's kind (R312).
-/

namespace Sys2Proof.Machine

/-! ### Board-level faults -/

theorem boardFault_rest (s : State) (kind : BitVec 4) (source : Byte) (index d : Nat) :
    boardFault s kind source index d = { s with
      boot := { s.boot with stopped := true }
      mnt := (boardFault s kind source index d).mnt
      flog := (boardFault s kind source index d).flog
      sbd := (boardFault s kind source index d).sbd
      hp := (boardFault s kind source index d).hp
      mems := (boardFault s kind source index d).mems } := by
  unfold boardFault mainSideDown
  dsimp only
  rw [(logFault_logOnly s _).rest]

theorem boardDown_boardFault {s u : State} (hmnt : u.mnt = s.mnt) (hflog : u.flog = s.flog) (kind : BitVec 4) (source : Byte)
    (index d : Nat) : BoardDown s (boardFault u kind source index d) source d where
  stopped := rfl
  main := rfl
  token := by
    show (if (logFault u _).mnt.holder == 1 then 0 else (logFault u _).mnt.holder) = _
    rw [logFault_mnt, hmnt]
    exact if_congr beq_iff_eq rfl rfl
  entry := by
    refine LogAt.congr (s := logFault u _) ?_ rfl
    rw [← hflog]
    exact logAt_logFault (.inl (show (5 : BitVec 3) ≠ 1 by decide)) rfl
  written := by
    show (logFault u _).flog.written = _
    rw [logFault_of_new (.inl (show (5 : BitVec 3) ≠ 1 by decide)), (logNew_flog _ _).2.2, hflog]

/-! ### Time and droops -/

theorem powered_of_levels {s : State} (hoff : s.boot.off = false) (hreset : s.boot.resetAsserted = false) : powered s = true := by
  simp [powered, hoff, hreset]

/-- An earlier sample holds T, and TLM counter 9 counts it (R350). -/
theorem timestamp_of_earlier {s : State} {x : W64} (h : x.toNat < s.time.t) :
    timestamp s x = addCnt { s with time := { s.time with held := true, stale := false } } 9 1 := by
  rw [timestamp, if_neg (Nat.lt_asymm h), if_pos h]

theorem timestamp_of_later {s : State} {x : W64} (h : s.time.t < x.toNat) :
    timestamp s x = { s with time := { s.time with t := x.toNat, held := false, stale := false } } := if_pos h

theorem timestamp_of_equal {s : State} {x : W64} (h : x.toNat = s.time.t) :
    timestamp s x = { s with time := { s.time with stale := false } } := by
  rw [timestamp, if_neg (by omega), if_neg (by omega)]

theorem tget_cnt_addCnt (s : State) (i n k : Nat) :
    tget 0 (addCnt s i n).tlm.cnt k = tget 0 s.tlm.cnt k + (if k = i then BitVec.ofNat 64 n else 0) := by
  rw [show (addCnt s i n).tlm.cnt = tset s.tlm.cnt i (tget 0 s.tlm.cnt i + BitVec.ofNat 64 n) from rfl, tget_tset]
  by_cases h : k = i <;> simp [h]

/-! ### Island faults (R312) -/

theorem exec_islandFault_of_runs {s : State} {i : IslId} (hoff : s.boot.off = false) (hreset : s.boot.resetAsserted = false)
    (hruns : islandRuns s i.val = true) : exec (.islandFault i) s = .next (warmNext (islandFaultOp s i.val)) := by
  show execIslandFault i s = _
  simp [execIslandFault, powered_of_levels hoff hreset, hruns]

/-- The state in which the island's clock is lost. -/
def clockLost (s : State) (i : Nat) : State := setIsl s i { getIsl s i with out := true }

/-- The unit of the island is fenced, with one entry of its own before whatever follows from the fence. -/
theorem loseUnit_islandEntry {s : State} {i : Nat} {cls : BitVec 3} {k : UnitKind} {n : Nat} (hsettled : Settled s) (hcls : cls ≠ 1)
    (hst : unitSt s k n ≠ .absent) {t : State} (ht : t = loseUnit (logFault (clockLost s i) (islandEntry s cls i)) k n) :
    warmNext t = t ∧ unitSt t k n = .fenced ∧ LogAt t s.flog.next.toNat cls 0x12 i := by
  have hst' : unitSt (logFault (clockLost s i) (islandEntry s cls i)) k n ≠ .absent := by rwa [unitSt_logFault]
  have hboot : t.boot = s.boot := by
    rw [ht, (loseUnit_contained hst').boot, logFault_boot]
    rfl
  refine ⟨warmNext_of_settled hsettled (by rw [hboot]) (by rw [hboot]), by rw [ht, unitSt_loseUnit hst'], ?_⟩
  have hat : LogAt (logFault (clockLost s i) (islandEntry s cls i)) s.flog.next.toNat cls 0x12 i :=
    logAt_logFault (s := clockLost s i) (.inl hcls) rfl
  rw [ht]
  exact hat.loseUnit (logFault_next hcls) hst'

theorem islKind_array {i : Nat} (h : i < 16) : islKind i = .array i := by simp [islKind, h]

theorem islKind_side {i : Nat} (h : 24 ≤ i) (h' : i < 28) : islKind i = .side (i - 24) := by
  simp [islKind, h', show ¬ i < 16 by omega, show ¬ i < 20 by omega, show ¬ i < 24 by omega]

theorem islKind_memPort {i : Nat} (h : 36 ≤ i) (h' : i < 52) : islKind i = .memPort (i - 36) := by
  simp [islKind, h', show ¬ i < 16 by omega, show ¬ i < 20 by omega, show ¬ i < 24 by omega, show ¬ i < 28 by omega,
    show ¬ i < 32 by omega, show ¬ i < 36 by omega]

theorem islKind_hostPort {i : Nat} (h : 52 ≤ i) (h' : i < 56) : islKind i = .hostPort (i - 52) := by
  simp [islKind, h', show ¬ i < 16 by omega, show ¬ i < 20 by omega, show ¬ i < 24 by omega, show ¬ i < 28 by omega,
    show ¬ i < 32 by omega, show ¬ i < 36 by omega, show ¬ i < 52 by omega]

theorem islandFaultOp_hostPort {i : Nat} (h : 52 ≤ i) (h' : i < 56) (s : State) : islandFaultOp s i =
    moveHost (setHp (logFault (clockLost s i) (islandEntry s 3 i)) (i - 52)
      { getHp (logFault (clockLost s i) (islandEntry s 3 i)) (i - 52) with dead := true }) (i - 52) := by
  rw [islandFaultOp, islKind_hostPort h h']
  rfl

/-- An island that runs is of a unit that exists. -/
theorem ne_absent_of_runs {s : State} {i : Nat} {k : UnitKind} {n : Nat} (hruns : islandRuns s i = true)
    (h : islandRuns s i = (!(getIsl s i).out && unitSt s k n != .absent)) : unitSt s k n ≠ .absent := by
  rw [h] at hruns
  simp_all

/-- The islands of a region with a standby oscillator: scratchpad, staging, region control and fabric. -/
def OfRegion (i : Nat) : Prop := (16 ≤ i ∧ i < 24) ∨ (28 ≤ i ∧ i < 36)

theorem islKind_ofRegion {i : Nat} (h : OfRegion i) : islKind i = .scratchpad (i % 4) ∨ islKind i = .staging (i % 4) ∨
    islKind i = .regionControl (i % 4) ∨ islKind i = .fabric (i % 4) := by
  unfold OfRegion at h
  unfold islKind
  by_cases h1 : i < 20
  · simp [h1, show ¬ i < 16 by omega]
    omega
  by_cases h2 : i < 24
  · simp [h1, h2, show ¬ i < 16 by omega]
    omega
  by_cases h3 : i < 32
  · simp [h1, h2, h3, show ¬ i < 16 by omega, show ¬ i < 28 by omega]
    omega
  · simp [h1, h2, h3, show ¬ i < 16 by omega, show ¬ i < 28 by omega, show i < 36 by omega]
    omega

/-- A region's island goes on with its standby oscillator, and without one takes the region with it. -/
theorem islandFaultOp_ofRegion {s : State} {i : Nat} (h : OfRegion i) : islandFaultOp s i =
    standbyFault s i (fun t => loseUnit (logFault t (islandEntry t clsRegion i)) .region (i % 4)) := by
  rcases islKind_ofRegion h with e | e | e | e <;> rw [islandFaultOp, e]

theorem region_present_of_runs {s : State} {i : Nat} (h : OfRegion i) (hruns : islandRuns s i = true) :
    unitSt s .region (i % 4) ≠ .absent := by
  refine ne_absent_of_runs hruns ?_
  rcases islKind_ofRegion h with e | e | e | e <;> rw [islandRuns, e]

theorem islandFaultOp_engine (s : State) : islandFaultOp s 56 = standbyFault s 56 (fun t => boardFault t 12 0x12 0 56) := rfl

theorem standbyFault_first {s : State} {i : Nat} {f : State → State} (h : (getIsl s i).standby = false) :
    standbyFault s i f = logFault (setIsl s i { getIsl s i with standby := true }) (islandEntry s 1 i) := by
  simp [standbyFault, h, clsCorrectable]

theorem standbyFault_second {s : State} {i : Nat} {f : State → State} (h : (getIsl s i).standby = true) :
    standbyFault s i f = f (clockLost s i) := by
  simp [standbyFault, h, clockLost]

theorem foldl_hostSend_rest (j : Nat) (l : List PortReq) (s : State) :
    l.foldl (fun t q => hostSend t j q) s = { s with hp := (l.foldl (fun t q => hostSend t j q) s).hp } := by
  induction l generalizing s with
  | nil => rfl
  | cons q l ih => rw [List.foldl_cons, ih, hostSend_rest]

theorem foldl_hostSend_levels (j : Nat) (l : List PortReq) (s : State) (p : Nat) :
    (getHp (l.foldl (fun t q => hostSend t j q) s) p).up = (getHp s p).up ∧
    (getHp (l.foldl (fun t q => hostSend t j q) s) p).dead = (getHp s p).dead ∧
    (getHp (l.foldl (fun t q => hostSend t j q) s) p).resp = (getHp s p).resp := by
  induction l generalizing s with
  | nil => exact ⟨rfl, rfl, rfl⟩
  | cons q l ih =>
    obtain ⟨hup, hdead, hresp⟩ := ih (hostSend s j q)
    obtain ⟨hup', hdead', hresp'⟩ := hostSend_levels s j q p
    exact ⟨hup.trans hup', hdead.trans hdead', hresp.trans hresp'⟩

/-- The requests that port `p` hands over: what waits for a response, but for responses that would be discarded, and what waits. -/
def handedOver (s : State) (p : Nat) : List PortReq :=
  ((getHp s p).initOut.map (·.2)).filter (fun q => q.owner != .lost) ++ (getHp s p).initQ

/-- Port `p` holds nothing any more. -/
def portBare (s : State) (p : Nat) : State := setHp s p { getHp s p with initOut := [], initQ := [], resp := .none }

theorem moveHost_eq (s : State) (p : Nat) : moveHost s p = match nextHost (portBare s p) p with
    | some j => (handedOver s p).foldl (fun t q => hostSend t j q) (portBare s p)
    | none => setHp (portBare s p) p { getHp (portBare s p) p with initQ := handedOver s p } := rfl

theorem moveHost_rest (s : State) (p : Nat) : moveHost s p = { s with hp := (moveHost s p).hp } := by
  rw [moveHost_eq]
  split
  · rw [foldl_hostSend_rest]
    rfl
  · rfl

/-- The up and dead marks of every port stay as requests move. -/
theorem moveHost_marks (s : State) (p j : Nat) :
    (getHp (moveHost s p) j).up = (getHp s j).up ∧ (getHp (moveHost s p) j).dead = (getHp s j).dead := by
  have hbare : (getHp (portBare s p) j).up = (getHp s j).up ∧ (getHp (portBare s p) j).dead = (getHp s j).dead := by
    rw [portBare, getHp_setHp_if]
    split
    · subst_vars
      exact ⟨rfl, rfl⟩
    · exact ⟨rfl, rfl⟩
  rw [moveHost_eq]
  split
  · obtain ⟨hup, hdead, -⟩ := foldl_hostSend_levels _ (handedOver s p) (portBare s p) j
    exact ⟨hup.trans hbare.1, hdead.trans hbare.2⟩
  · rw [getHp_setHp_if]
    split
    · subst_vars
      exact hbare
    · exact hbare

end Sys2Proof.Machine

open Sys2Proof Sys2Proof.Machine

/-- Settles O14: a sample by its three cases, REFCLK's loss as a board-level fault once calibrated, and a droop as two counts. -/
theorem timeClocksAndDroops : Obligations.TimeClocksAndDroops := by
  unfold Obligations.TimeClocksAndDroops
  refine ⟨fun s x hoff hreset => ?_, fun s i hoff hreset => ?_⟩
  · have hpow := powered_of_levels hoff hreset
    have hsample : exec (.timestampSample x) s = .next (timestamp s x) := by
      show execTimestampSample x s = _
      simp [execTimestampSample, hpow]
    rw [hsample]
    refine ⟨fun h => by rw [timestamp_of_later h], fun h => ⟨_, rfl, ?_⟩, fun h => by rw [timestamp_of_equal h], ?_⟩
    · rw [timestamp_of_earlier h]
      exact ⟨rfl, rfl, rfl, rfl, fun k => tget_cnt_addCnt _ 9 1 k⟩
    · show execTimestampStale s = _
      simp [execTimestampStale, hpow]
  · have hpow := powered_of_levels hoff hreset
    refine ⟨fun hcal href => ?_, fun hcal => ?_, droop s i.val, ?_, rfl, ?_, fun j hj => ?_, fun k => tget_cnt_addCnt _ 12 1 k⟩
    · refine ⟨boardFault { s with time := { s.time with refclk := false } } 12 0x12 0 59, ?_, ?_, boardDown_boardFault (by rfl) (by rfl) 12 0x12 0 59, ?_⟩
      · show execRefclkLoss s = _
        simp [execRefclkLoss, refclkLoss, hpow, hcal, href]
      · rw [boardFault_rest]
      · rw [boardFault_rest]
    · show execRefclkLoss s = _
      simp [execRefclkLoss, refclkLoss, hcal]
    · show execDroopStretch i s = _
      simp [execDroopStretch, hpow]
    · exact getIsl_setIsl ..
    · exact getIsl_setIsl_ne _ _ _ _ hj

/-- Settles O15: the kind of the island says which unit its loss fences, whether a standby oscillator takes over, and whether the fault is
board-level. -/
theorem islandFaultsAreContained : Obligations.IslandFaultsAreContained := by
  unfold Obligations.IslandFaultsAreContained
  intro s i hoff hreset hsettled hruns
  have hexec {t : State} (ht : islandFaultOp s i.val = t) (hphase : t.boot.phase = s.boot.phase) (hready : t.boot.ready = s.boot.ready) :
      exec (.islandFault i) s = .next t := by
    rw [exec_islandFault_of_runs hoff hreset hruns, ht, warmNext_of_settled hsettled hphase hready]
  have hlost {k : UnitKind} {n : Nat} {cls : BitVec 3} (hcls : cls ≠ 1) (hst : unitSt s k n ≠ .absent)
      (hop : islandFaultOp s i.val = loseUnit (logFault (clockLost s i.val) (islandEntry s cls i.val)) k n) :
      ∃ t, exec (.islandFault i) s = .next t ∧ unitSt t k n = .fenced ∧ LogAt t s.flog.next.toNat cls 0x12 i.val := by
    obtain ⟨hwarm, hfenced, hat⟩ := loseUnit_islandEntry hsettled hcls hst hop
    exact ⟨_, by rw [exec_islandFault_of_runs hoff hreset hruns, hwarm], hfenced, hat⟩
  refine ⟨fun h => ?_, fun h h' => ?_, fun h h' => ?_, fun h h' => ?_, fun h hstandby => ?_, fun h hstandby => ?_, fun h => ?_, fun h => ?_⟩
  · refine hlost (by decide) ?_ (by rw [islandFaultOp, islKind_array h]; rfl)
    exact ne_absent_of_runs hruns (by rw [islandRuns, islKind_array h])
  · refine hlost (by decide) ?_ (by rw [islandFaultOp, islKind_side h h']; rfl)
    exact ne_absent_of_runs hruns (by rw [islandRuns, islKind_side h h'])
  · refine hlost (by decide) ?_ (by rw [islandFaultOp, islKind_memPort h h']; rfl)
    exact ne_absent_of_runs hruns (by rw [islandRuns, islKind_memPort h h'])
  · exact ⟨_, hexec (islandFaultOp_hostPort h h' s) (by rw [moveHost_rest]; simp [clockLost]) (by rw [moveHost_rest]; simp [clockLost]),
      (moveHost_marks _ _ _).2.trans (by rw [getHp_setHp_if, if_pos rfl]),
      LogAt.congr (logAt_logFault (s := clockLost s i.val) (.inl (show (3 : BitVec 3) ≠ 1 by decide)) rfl) (by rw [moveHost_rest])⟩
  · have hop : islandFaultOp s i.val = logFault (setIsl s i.val { getIsl s i.val with standby := true }) (islandEntry s 1 i.val) := by
      rcases or_assoc.mpr h with hr | h56
      · rw [islandFaultOp_ofRegion hr, standbyFault_first hstandby]
      · rw [h56] at hstandby ⊢
        rw [islandFaultOp_engine, standbyFault_first hstandby]
    exact hexec hop (by rw [logFault_boot]; rfl) (by rw [logFault_boot]; rfl)
  · refine hlost (cls := 4) (by decide) (region_present_of_runs h hruns) ?_
    rw [islandFaultOp_ofRegion h, standbyFault_second hstandby]
    rfl
  · have hop : islandFaultOp s i.val = boardFault (clockLost s i.val) 12 0x12 0 i.val := by
      rcases h with h | h | ⟨h, hstandby⟩
      · rw [h]; rfl
      · rw [h]; rfl
      · rw [h] at hstandby ⊢
        rw [islandFaultOp_engine, standbyFault_second hstandby]
    exact ⟨_, hexec hop (by rw [boardFault_rest]; rfl) (by rw [boardFault_rest]; rfl), boardDown_boardFault (by rfl) (by rfl) 12 0x12 0 i.val⟩
  · have hop : islandFaultOp s i.val = logFault (setIsl s 58 { getIsl s 58 with out := true }) (islandEntry s 1 58) := by rw [h]; rfl
    exact hexec hop (by rw [logFault_boot]; rfl) (by rw [logFault_boot]; rfl)

end

section
/-!
PROOFS. Host ports and memory ports that go down and come up (R342, R343), credits that return (R331), and crossings (R35).
-/

namespace Sys2Proof.Machine

/-! ### The initiator side of host ports -/

/-- Only the host ports differ, and none of their up inputs or island marks. -/
structure HostsOnly (s t : State) : Prop where
  rest : t = { s with hp := t.hp }
  marks : ∀ j, (getHp t j).up = (getHp s j).up ∧ (getHp t j).dead = (getHp s j).dead

namespace HostsOnly

theorem refl (s : State) : HostsOnly s s := ⟨rfl, fun _ => ⟨rfl, rfl⟩⟩

theorem trans {s t u : State} (h : HostsOnly s t) (k : HostsOnly t u) : HostsOnly s u :=
  ⟨by rw [k.rest, h.rest], fun j => ⟨(k.marks j).1.trans (h.marks j).1, (k.marks j).2.trans (h.marks j).2⟩⟩

theorem setHp (s : State) (p : Nat) {x : HostPort} (hup : x.up = (getHp s p).up) (hdead : x.dead = (getHp s p).dead) :
    HostsOnly s (setHp s p x) := by
  refine ⟨rfl, fun j => ?_⟩
  rw [getHp_setHp_if]
  split
  · rw [hup, hdead, ‹j = p›]
    exact ⟨rfl, rfl⟩
  · exact ⟨rfl, rfl⟩

theorem hostSend (s : State) (p : Nat) (q : PortReq) : HostsOnly s (hostSend s p q) :=
  ⟨hostSend_rest s p q, fun j => ⟨(hostSend_levels s p q j).1, (hostSend_levels s p q j).2.1⟩⟩

theorem foldl {α : Type} {f : State → α → State} (hf : ∀ u x, HostsOnly u (f u x)) (l : List α) (s : State) :
    HostsOnly s (l.foldl f s) := by
  induction l generalizing s with
  | nil => exact refl s
  | cons x l ih => exact (hf s x).trans (ih (f s x))

theorem hpLive {s t : State} (h : HostsOnly s t) (j : Nat) : hpLive t j = Machine.hpLive s j := by
  rw [Machine.hpLive, (h.marks j).1, (h.marks j).2, Machine.hpLive]

end HostsOnly

theorem nextHost_ne {s : State} {p j : Nat} (hp : p < 4) (h : nextHost s p = some j) : j ≠ p := by
  have hmem := List.mem_of_find?_eq_some h
  simp only [List.mem_cons, List.not_mem_nil, or_false] at hmem
  omega

/-- The next live port does not depend on the port itself. -/
theorem nextHost_congr {s t : State} {p : Nat} (hp : p < 4) (h : ∀ j, j ≠ p → hpLive t j = hpLive s j) :
    nextHost t p = nextHost s p := by
  unfold nextHost
  simp only [List.find?_cons, h _ (show (p + 1) % 4 ≠ p by omega), h _ (show (p + 2) % 4 ≠ p by omega),
    h _ (show (p + 3) % 4 ≠ p by omega), List.find?_nil]

theorem getHp_hostSend_ne (s : State) (p : Nat) (q : PortReq) {j : Nat} (hj : j ≠ p) : getHp (hostSend s p q) j = getHp s j := by
  obtain ⟨x, h, -⟩ := hostSend_eq s p q
  rw [h, getHp_setHp_if, if_neg hj]

theorem getHp_foldl_hostSend_ne (s : State) (p : Nat) (l : List PortReq) {j : Nat} (hj : j ≠ p) :
    getHp (l.foldl (fun t q => hostSend t p q) s) j = getHp s j := by
  induction l generalizing s with
  | nil => rfl
  | cons q l ih => rw [List.foldl_cons, ih, getHp_hostSend_ne _ _ _ hj]

/-- The port that has handed over holds nothing but, where no other port is live, what waits. -/
theorem getHp_moveHost_self {s : State} {p : Nat} (hp : p < 4) : getHp (moveHost s p) p = { getHp s p with
    resp := .none, initOut := [], initQ := match nextHost s p with
      | some _ => []
      | none => handedOver s p } := by
  have hnext : nextHost (portBare s p) p = nextHost s p := nextHost_congr hp fun j hj => by
    rw [hpLive, portBare, getHp_setHp_if, if_neg hj, hpLive]
  have hbare : getHp (portBare s p) p = { getHp s p with initOut := [], initQ := [], resp := .none } := by
    rw [portBare, getHp_setHp_if, if_pos rfl]
  rw [moveHost_eq, hnext]
  cases h : nextHost s p with
  | none => simp only [getHp_setHp_if, if_true, hbare]
  | some j => simp only [getHp_foldl_hostSend_ne _ _ _ (nextHost_ne hp h).symm, hbare]

/-! ### HOST_PORT_DOWN -/

/-- Port `p` with its up input low since now. -/
def portLow (s : State) (p : Nat) : State := setHp s p { getHp s p with up := false, lastUp := s.time.t, wdata := [] }

/-- The requests of a port's target side leave a region's queue. -/
def dropTarget (p : Nat) (x : Region) : Region := { x with bankReqs := x.bankReqs.filter (fun q => q.owner != .host p) }

theorem hostDown_of_up {s : State} {p : Nat} (h : (getHp s p).up = true) : hostDown s p =
    { moveHost (portLow s p) p with rgns := tmap (fun _ x => dropTarget p x) (moveHost (portLow s p) p).rgns } := by
  simp [hostDown, h, portLow, dropTarget]

theorem hostDown_rest {s : State} {p : Nat} (h : (getHp s p).up = true) :
    hostDown s p = { s with hp := (moveHost (portLow s p) p).hp, rgns := tmap (fun _ x => dropTarget p x) s.rgns } := by
  rw [hostDown_of_up h, moveHost_rest]
  rfl

theorem getHp_portLow_self (s : State) (p : Nat) :
    getHp (portLow s p) p = { getHp s p with up := false, lastUp := s.time.t, wdata := [] } := by
  rw [portLow, getHp_setHp_if, if_pos rfl]

theorem nextHost_portLow {s : State} {p : Nat} (hp : p < 4) : nextHost (portLow s p) p = nextHost s p :=
  nextHost_congr hp fun j hj => by rw [hpLive, portLow, getHp_setHp_if, if_neg hj, hpLive]

theorem handedOver_portLow (s : State) (p : Nat) : handedOver (portLow s p) p = handedOver s p := by
  rw [handedOver, getHp_portLow_self, handedOver]

/-! ### HOST_PORT_UP -/

/-- One queued request of a host port goes out: the first of the queue, with its credits. -/
def flushOne (s : State) (p : Nat) (q : PortReq) (rest : List PortReq) : State :=
  (fun t => setHp t p { getHp t p with initQ := rest }) (hostSend (setHp s p { getHp s p with initQ := [] }) p q)

/-- M1 holds the credits for a request of port `p`, which carries traffic. -/
def canSend (s : State) (p : Nat) (q : PortReq) : Bool :=
  (getHp s p).credReq ≥ 1 && (getHp s p).credWd ≥ hostWd q && hpLive s p

theorem flushHost_succ (n : Nat) (s : State) (p : Nat) : flushHost (n + 1) s p = match (getHp s p).initQ with
    | [] => s
    | q :: rest => if canSend s p q then flushHost n (flushOne s p q rest) p else s := rfl

theorem getHp_flushOne_self {s : State} {p : Nat} {q : PortReq} (rest : List PortReq) (h : canSend s p q = true) :
    getHp (flushOne s p q rest) p = { getHp s p with
      credReq := (getHp s p).credReq - 1
      credWd := (getHp s p).credWd - hostWd q
      initOut := (getHp s p).initOut ++ [(freeTag (getHp s p).initOut (if q.op == 0 then 0 else 2048), q)]
      initQ := rest } := by
  simp only [canSend, Bool.and_eq_true, decide_eq_true_eq] at h
  obtain ⟨⟨hreq, hwd⟩, -⟩ := h
  have hsend : hostSend (setHp s p { getHp s p with initQ := [] }) p q = setHp (setHp s p { getHp s p with initQ := [] }) p
      { getHp s p with initQ := [], credReq := (getHp s p).credReq - 1, credWd := (getHp s p).credWd - hostWd q,
                       initOut := (getHp s p).initOut ++ [(freeTag (getHp s p).initOut (if q.op == 0 then 0 else 2048), q)] } := by
    simp only [hostSend, getHp_setHp_if, if_true]
    rw [if_pos (by simp [hreq, hwd])]
  rw [flushOne, hsend]
  simp only [getHp_setHp_if, if_true]

theorem getHp_flushOne_ne (s : State) {p j : Nat} (q : PortReq) (rest : List PortReq) (hj : j ≠ p) :
    getHp (flushOne s p q rest) j = getHp s j := by
  simp only [flushOne, getHp_setHp_if, if_neg hj, getHp_hostSend_ne _ _ _ hj]

theorem flushOne_hostsOnly (s : State) (p : Nat) (q : PortReq) (rest : List PortReq) : HostsOnly s (flushOne s p q rest) :=
  ((HostsOnly.setHp s p (by rfl) (by rfl)).trans (HostsOnly.hostSend _ p q)).trans (HostsOnly.setHp _ p (by rfl) (by rfl))

/-- What a flush keeps, by what one request that goes out keeps. -/
theorem flushHost_induction {P : State → Prop} {p : Nat} (hstep : ∀ u q rest, P u → (getHp u p).initQ = q :: rest →
    canSend u p q = true → P (flushOne u p q rest)) (n : Nat) {s : State} (h : P s) : P (flushHost n s p) := by
  induction n generalizing s with
  | zero => exact h
  | succ n ih =>
    rw [flushHost_succ]
    split
    · exact h
    · next q rest hq =>
      split
      · exact ih (hstep s q rest h hq ‹_›)
      · exact h

theorem flushHost_hostsOnly (n : Nat) (s : State) (p : Nat) : HostsOnly s (flushHost n s p) :=
  flushHost_induction (P := HostsOnly s) (fun u q rest h _ _ => h.trans (flushOne_hostsOnly u p q rest)) n (.refl s)

theorem getHp_flushHost_ne (n : Nat) (s : State) {p j : Nat} (hj : j ≠ p) : getHp (flushHost n s p) j = getHp s j :=
  flushHost_induction (P := fun u => getHp u j = getHp s j) (fun u q rest h _ _ => (getHp_flushOne_ne u q rest hj).trans h) n rfl

/-- A flush loses no request and makes none. -/
theorem initCount_flushHost (n : Nat) (s : State) (p : Nat) : initCount (flushHost n s p) p = initCount s p := by
  refine flushHost_induction (P := fun u => initCount u p = initCount s p) (fun u q rest h hq hsend => ?_) n rfl
  rw [← h, initCount, getHp_flushOne_self rest hsend, initCount, hq]
  simp only [List.length_append, List.length_cons, List.length_nil]
  omega

/-- Port `p` carries traffic, and the main side is up unless dispatch is stopped. -/
def portHigh (s : State) (p : Nat) : State :=
  { setHp s p { getHp s p with up := true } with mnt := { s.mnt with mainDown := s.boot.stopped } }

/-- The ports other than `p` that do not carry traffic. -/
def heldPorts (s : State) (p : Nat) : List Nat := [0, 1, 2, 3].filter (fun j => j != p && !hpLive s j)

/-- What they hold joins port `p`. -/
def gatherAt (s : State) (p : Nat) : State :=
  (fun t => setHp t p { getHp t p with initQ := (getHp t p).initQ ++ (heldPorts s p).flatMap (fun j => (getHp s j).initQ) })
    ((heldPorts s p).foldl (fun t j => setHp t j { getHp t j with initQ := [] }) s)

theorem hostUp_eq (s : State) (p : Nat) : hostUp s p = if !hpLive (portHigh s p) p then portHigh s p else
    irqHeld (flushHost (getHp (gatherAt (portHigh s p) p) p).initQ.length (gatherAt (portHigh s p) p) p) := rfl

theorem gatherAt_hostsOnly (s : State) (p : Nat) : HostsOnly s (gatherAt s p) :=
  (HostsOnly.foldl (fun u j => HostsOnly.setHp u j (by rfl) (by rfl)) (heldPorts s p) s).trans (HostsOnly.setHp _ p (by rfl) (by rfl))

theorem irqHeld_logOnly (s : State) : LogOnly s (irqHeld s) :=
  ite_cases (q := LogOnly s) (fun _ => faultIrq_logOnly s) (fun _ => ⟨rfl, fun _ _ _ => rfl, fun _ => ⟨rfl, rfl, rfl⟩⟩)

theorem irqHeld_sbd (s : State) : (irqHeld s).sbd = s.sbd :=
  ite_cases (q := fun t : State => t.sbd = s.sbd) (fun _ => (faultIrq_log s).2.2.2) (fun _ => rfl)

theorem irqHeld_rest (s : State) : irqHeld s = { s with flog := (irqHeld s).flog, hp := (irqHeld s).hp, mems := (irqHeld s).mems } := by
  have h := (irqHeld_logOnly s).rest
  rwa [irqHeld_sbd] at h

theorem irqHeld_of_none_due {s : State} (h : s.flog.irqMore = false) : irqHeld s = s := by simp [irqHeld, h]

theorem hostPortFor_isSome {s : State} {p : Nat} (hp : p < 4) (h : hpLive s p = true) : ∃ j, hostPortFor s 0 = some j := by
  refine Option.isSome_iff_exists.mp (List.find?_isSome.mpr ⟨p, ?_, h⟩)
  simp only [Nat.zero_add, Nat.reduceMod, List.mem_cons, List.not_mem_nil, or_false]
  omega

/-- An interrupt that was due goes out as soon as a port carries traffic (R398). -/
theorem irqHeld_irqWait {s : State} {p : Nat} (hp : p < 4) (hlive : hpLive s p = true) (hmore : s.flog.irqMore = true)
    (hwait : s.flog.irqWait = false) (hen : s.regs.irqEn = true) : (irqHeld s).flog.irqWait = true := by
  obtain ⟨j, hj⟩ := hostPortFor_isSome hp hlive
  simp only [irqHeld, hmore, hwait, faultIrq, hen, hj]
  simp only [Bool.not_true, Bool.false_eq_true, if_false, Bool.not_false, Bool.and_self, if_true]
  rw [hostSend_rest]

/-- A host port that comes up: the state before its interrupt, which differs in host ports and the main side alone. -/
theorem hostUp_cases (s : State) (p : Nat) : (hpLive (portHigh s p) p = false ∧ hostUp s p = portHigh s p) ∨
    (hpLive (portHigh s p) p = true ∧ ∃ u, HostsOnly (portHigh s p) u ∧ hostUp s p = irqHeld u) := by
  rw [hostUp_eq]
  cases hlive : hpLive (portHigh s p) p with
  | false => exact .inl ⟨rfl, rfl⟩
  | true => exact .inr ⟨rfl, _, (gatherAt_hostsOnly _ p).trans (flushHost_hostsOnly _ _ p), rfl⟩

theorem portHigh_marks (s : State) (p j : Nat) : (getHp (portHigh s p) j).up = (if j = p then true else (getHp s j).up) ∧
    (getHp (portHigh s p) j).dead = (getHp s j).dead := by
  show (getHp (setHp s p _) j).up = _ ∧ (getHp (setHp s p _) j).dead = _
  rw [getHp_setHp_if]
  split
  · subst_vars
    exact ⟨rfl, rfl⟩
  · exact ⟨rfl, rfl⟩

theorem hostUp_rest (s : State) (p : Nat) : hostUp s p = { s with
    hp := (hostUp s p).hp, mnt := { s.mnt with mainDown := s.boot.stopped }, flog := (hostUp s p).flog, mems := (hostUp s p).mems } := by
  rcases hostUp_cases s p with ⟨-, h⟩ | ⟨-, u, hu, h⟩
  · rw [h]
    rfl
  · rw [h]
    have hrest := irqHeld_rest u
    generalize irqHeld u = t at hrest
    rw [hrest, hu.rest]
    rfl

theorem hostUp_up (s : State) (p j : Nat) : (getHp (hostUp s p) j).up = if j = p then true else (getHp s j).up := by
  rcases hostUp_cases s p with ⟨-, h⟩ | ⟨-, u, hu, h⟩
  · rw [h]
    exact (portHigh_marks s p j).1
  · rw [h, ((irqHeld_logOnly u).ports j).1, (hu.marks j).1]
    exact (portHigh_marks s p j).1

end Sys2Proof.Machine

end

section
/-!
PROOFS. Memory ports that go down (R343, R322, R27), the main side (R367), credits (R331) and crossings (R35).
-/

namespace Sys2Proof.Machine

/-! ### A fenced unit -/

theorem foldl_followUnit_mp (st : UState) (l : List (UnitKind × Nat)) (s : State) : (l.foldl (followUnit st) s).mp = s.mp := by
  induction l generalizing s with
  | nil => rfl
  | cons u l ih => rw [List.foldl_cons, ih, followUnit_rest]

/-- Taking a unit out of service moves no up input of a memory port. -/
theorem takeOut_up (s : State) (k : UnitKind) (n : Nat) (st : UState) (q : Nat) :
    (getMp (takeOut s k n st) q).up = (getMp s q).up := by
  unfold takeOut
  cases k with
  | array =>
    have h : (getMp (putUnit (emptyArray s n) .array n st) q).up = (getMp s q).up := ((WorkOnly.refl s).emptyArray n).up q
    exact ite_cases (q := fun x => (getMp x q).up = (getMp s q).up) (fun _ => h) (fun _ => h)
  | side => rfl
  | port => exact ((WorkOnly.refl s).emptyPort n).up q
  | region =>
    show (getMp (putRegion (emptyRegion s n _) n st) q).up = _
    rw [putRegion_eq, getMp, foldl_followUnit_mp]
    exact ((WorkOnly.refl s).emptyRegion n _).up q

theorem getMp_logFault (s : State) (e : FlogEntry) (q : Nat) : getMp (logFault s e) q = getMp s q := by
  rw [getMp, logFault_mp, getMp]

theorem portsLeft_up (s : State) (k : UnitKind) (n q : Nat) : (getMp (portsLeft s k n) q).up = (getMp s q).up := by
  rcases portsLeft_cases s k n with h | h <;> rw [h]
  rw [getMp_logFault, takeOut_up]

theorem fenceUnit_contained (s : State) (k : UnitKind) (n : Nat) : Contained s (fenceUnit s k n) :=
  ((takeOut_contained s k n .fenced).trans (.of_logFault ..)).trans (portsLeft_contained ..)

theorem unitSt_fenceUnit_self (s : State) (k : UnitKind) (n : Nat) : unitSt (fenceUnit s k n) k n = .fenced :=
  unitSt_portsLeft_of_fenced (by rw [unitSt_logFault, unitSt_takeOut_self])

theorem fenceUnit_up (s : State) (k : UnitKind) (n q : Nat) : (getMp (fenceUnit s k n) q).up = (getMp s q).up := by
  rw [fenceUnit, portsLeft_up, getMp_logFault, takeOut_up]

/-! ### A port whose requests join the next one (R322, R343) -/

theorem foldl_loseAtomic_rest (l : List PortReq) (s : State) : ∃ cs, l.foldl loseAtomic s = { s with ctxs := cs } := by
  induction l generalizing s with
  | nil => exact ⟨s.ctxs, rfl⟩
  | cons q l ih =>
    have hone : ∃ cs, loseAtomic s q = { s with ctxs := cs } := by
      unfold loseAtomic
      split
      · split
        · exact ⟨_, rfl⟩
        · exact ⟨s.ctxs, rfl⟩
      · exact ⟨s.ctxs, rfl⟩
    obtain ⟨cs, hcs⟩ := hone
    obtain ⟨cs', hcs'⟩ := ih (loseAtomic s q)
    exact ⟨cs', by rw [List.foldl_cons, hcs', hcs]⟩

theorem emptyPort_of_next {s : State} {q j : Nat} (h : nextPort s q = some j) : ∃ cs, emptyPort s q =
    setMp (setMp { s with ctxs := cs } q { getMp s q with rdQ := [], wrQ := [], rdOut := [], wrOut := [] }) j
      (joinPort (getMp s q).cycle (portAgain (getMp s q)) (getMp s j)) := by
  obtain ⟨cs, hcs⟩ := foldl_loseAtomic_rest (((getMp s q).rdOut ++ (getMp s q).wrOut).map (·.2)) s
  refine ⟨cs, ?_⟩
  rw [emptyPort, hcs, h]
  rfl

theorem nextPort_spec {s : State} {q j : Nat} (h : nextPort s q = some j) : portServes s j = true ∧ j / 4 = q / 4 := by
  refine ⟨List.find?_some h, ?_⟩
  have hmem := List.mem_of_find?_eq_some h
  simp only [List.mem_cons, List.not_mem_nil, or_false] at hmem
  omega

/-- While another port of its region serves, a port that leaves takes nothing with it. -/
theorem portsLeft_of_serving {s : State} {q j : Nat} (hj : portServes s j = true) (hrgn : j / 4 = q / 4) : portsLeft s .port q = s := by
  refine if_neg fun h => ?_
  simp only [beq_self_eq_true, Bool.true_and, Bool.and_eq_true, Bool.not_eq_true'] at h
  obtain ⟨hlive, hnone⟩ := h
  rw [portServes, hrgn, Bool.or_eq_true, Bool.and_eq_true] at hj
  rcases hj with hj | ⟨-, hdrain⟩
  · have hmem : j % 4 ∈ [0, 1, 2, 3] := by
      simp only [List.mem_cons, List.not_mem_nil, or_false]
      omega
    have hlast := List.any_eq_false.mp hnone (j % 4) hmem
    rw [show q / 4 * 4 + j % 4 = j by omega] at hlast
    exact hlast hj
  · rw [isLive, eq_of_beq hdrain] at hlive
    exact absurd hlive (by decide)

/-- Port `q` with its up input low. -/
def memLow (s : State) (q : Nat) : State := setMp s q { getMp s q with up := false }

/-- A unit that exists and is not FENCED is fenced with its up input. -/
theorem memDown_eq (s : State) (q : Nat) : memDown s q = match unitSt s .port q with
    | .absent => memLow s q
    | .fenced => memLow s q
    | _ => fenceUnit (memLow s q) .port q := rfl

theorem memDown_of_out {s : State} {q : Nat} (h : unitSt s .port q = .absent ∨ unitSt s .port q = .fenced) : memDown s q = memLow s q := by
  rcases h with h | h <;> rw [memDown_eq, h]

theorem memDown_of_in {s : State} {q : Nat} (h : unitSt s .port q ≠ .absent) (h' : unitSt s .port q ≠ .fenced) :
    memDown s q = fenceUnit (memLow s q) .port q := by
  rw [memDown_eq]
  cases hst : unitSt s .port q <;> simp_all

theorem memDown_boot (s : State) (q : Nat) : (memDown s q).boot = s.boot := by
  by_cases h : unitSt s .port q = .absent ∨ unitSt s .port q = .fenced
  · rw [memDown_of_out h]
    rfl
  · rw [memDown_of_in (fun e => h (.inl e)) (fun e => h (.inr e)), (fenceUnit_contained ..).boot]
    rfl

/-- The state in which a port's requests have joined port `j` and the port is FENCED, before its entry. -/
def movedPort (s : State) (q j : Nat) (cs : Tbl Context) : State :=
  putUnit (setMp (setMp { s with ctxs := cs } q { getMp s q with rdQ := [], wrQ := [], rdOut := [], wrOut := [] }) j
    (joinPort (getMp s q).cycle (portAgain (getMp s q)) (getMp s j))) .port q .fenced

theorem fenceUnit_of_next {s : State} {q j : Nat} (hne : j ≠ q) (h : nextPort s q = some j) :
    ∃ cs u, fenceUnit s .port q = logFault (movedPort s q j cs) u := by
  obtain ⟨cs, hcs⟩ := emptyPort_of_next h
  have hout : takeOut s .port q .fenced = movedPort s q j cs := by
    show putUnit (emptyPort s q) .port q .fenced = _
    rw [hcs, movedPort]
  refine ⟨cs, unitEntry s (fenceClass .port) 0x20 .port q, ?_⟩
  obtain ⟨hserve, hrgn⟩ := nextPort_spec h
  have hst : ∀ k n, ¬(k = .port ∧ n = q) → unitSt (logFault (movedPort s q j cs) (unitEntry s (fenceClass .port) 0x20 .port q)) k n =
      unitSt s k n := by
    intro k n hkn
    rw [unitSt_logFault, movedPort, unitSt_putUnit, if_neg hkn]
    rfl
  have hserve' : portServes (logFault (movedPort s q j cs) (unitEntry s (fenceClass .port) 0x20 .port q)) j = true := by
    rw [← hserve, portServes, portServes, isLive, isLive, hst .port j (fun e => hne e.2), hst .region (j / 4) (fun e => by cases e.1)]
  rw [fenceUnit, hout, portsLeft_of_serving hserve' hrgn]

/-! ### Credits (R331) -/

/-- Port `p` with the credits that it is given. -/
def credited (s : State) (p req wd : Nat) : State :=
  setHp s p { getHp s p with credReq := (getHp s p).credReq + req, credWd := (getHp s p).credWd + wd }

theorem getHp_credited_self (s : State) (p req wd : Nat) : getHp (credited s p req wd) p =
    { getHp s p with credReq := (getHp s p).credReq + req, credWd := (getHp s p).credWd + wd } := by
  rw [credited, getHp_setHp_if, if_pos rfl]

theorem exec_mppCreditReturn_mem (q : PortId) (req wd : BitVec 4) (s : State) : exec (.mppCreditReturn (.mem q) req wd) s =
    .next (setMp s q.val { getMp s q.val with up := true, credReq := (getMp s q.val).credReq + req.toNat,
                                              credWd := (getMp s q.val).credWd + wd.toNat }) := rfl

/-- The one request that waits goes out. -/
theorem initQ_flushHost_of_one {s : State} {p : Nat} {r : PortReq} (hq : (getHp s p).initQ = [r]) (hsend : canSend s p r = true) :
    (getHp (flushHost (getHp s p).initQ.length s p) p).initQ = [] := by
  rw [hq, List.length_singleton, flushHost_succ, hq]
  simp only [hsend, if_true]
  rw [flushHost, getHp_flushOne_self [] hsend]

theorem exec_mppCreditReturn_host (p : HostId) (req wd : BitVec 4) (s : State) : exec (.mppCreditReturn (.host p) req wd) s =
    .next (flushHost (getHp (credited s p.val req.toNat wd.toNat) p.val).initQ.length (credited s p.val req.toNat wd.toNat) p.val) := rfl

/-! ### Crossings (R35) -/

theorem find?_first {α : Type} {p : α → Bool} {before after : List α} {x : α} (hbefore : ∀ y ∈ before, p y = false) (hx : p x = true) :
    (before ++ x :: after).find? p = some x := by
  rw [List.find?_append, List.find?_eq_none.mpr fun y hy => by simp [hbefore y hy]]
  simp [hx]

theorem copyRead_of_none {s : State} {o : Owner} (h : ∀ c ring, o = .desc c ring → copying s c ring = none) : copyRead s o = s := by
  unfold copyRead
  split
  · rw [h _ _ rfl]
  · rfl

theorem presentHeld_of_empty {s : State} {q : Nat} (h : (getMp s q).held = []) : presentHeld s q = s := by
  rw [presentHeld, h]

theorem presentHeld_of_room {s : State} {q : Nat} {r : PortReq} {rest : List PortReq} (h : (getMp s q).held = r :: rest)
    (hroom : xingFull s q = false) : presentHeld s q =
      { setMp s q { getMp s q with held := rest } with xing := s.xing ++ [{ src := 36 + q, dst := 20 + q / 4, read := r }] } := by
  simp [presentHeld, h, hroom]

/-- The oldest transfer of a crossing leaves it, and its read's port presents what it holds. -/
theorem crossingDeliver_of_first {s : State} {src dst cycles : Nat} {before after : List Crossing} {x : Crossing} (h3 : 3 ≤ cycles)
    (h6 : cycles ≤ 6) (hxing : s.xing = before ++ x :: after) (hbefore : ∀ y ∈ before, ¬(y.src = src ∧ y.dst = dst))
    (hsrc : x.src = src) (hdst : x.dst = dst) : crossingDeliver s src dst cycles =
      copyRead (presentHeld { s with xing := before ++ after, xingOut := s.xingOut ++ [x] } (src - 36)) x.read.owner := by
  have hne : x ∉ before := fun hmem => hbefore x hmem ⟨hsrc, hdst⟩
  have hfind : s.xing.find? (fun x => x.src == src && x.dst == dst) = some x := by
    rw [hxing]
    exact find?_first (fun y hy => by simpa using hbefore y hy) (by simp [hsrc, hdst])
  have herase : s.xing.erase x = before ++ after := by
    rw [hxing, List.erase_append_right _ hne, List.erase_cons_head]
  simp only [crossingDeliver, h3, h6, and_self, decide_true, if_true, hfind, herase]

/-! ### The commands, from a settled machine -/

theorem exec_hostPortDown_of_up {s : State} {p : HostId} (hsettled : Settled s) (hup : (getHp s p.val).up = true) :
    exec (.hostPortDown p) s = .next (hostDown s p.val) := by
  have hrest := hostDown_rest hup
  exact congrArg Host.Outcome.next (warmNext_of_settled hsettled (by rw [hrest]) (by rw [hrest]))

theorem exec_memoryPortDown_of_settled {s : State} {q : PortId} (hsettled : Settled s) :
    exec (.memoryPortDown q) s = .next (memDown s q.val) :=
  congrArg Host.Outcome.next (warmNext_of_settled hsettled (by rw [memDown_boot]) (by rw [memDown_boot]))

theorem memDown_out_of_service {s : State} {q : Nat} (h : unitSt s .port q ≠ .absent) :
    unitSt (memDown s q) .port q = .fenced ∧ (getMp (memDown s q) q).up = false := by
  have hlow : (getMp (memLow s q) q).up = false := by rw [memLow, getMp_setMp_if, if_pos rfl]
  by_cases hf : unitSt s .port q = .fenced
  · rw [memDown_of_out (.inr hf)]
    exact ⟨hf, hlow⟩
  · rw [memDown_of_in h hf, unitSt_fenceUnit_self, fenceUnit_up]
    exact ⟨rfl, hlow⟩

theorem mem_joinPort_rdQ {r : PortReq} {rs : List PortReq} (cycle : Nat) (y : MemPort) (h : r ∈ rs) (hop : r.op = 0) :
    { r with arrived := y.cycle + r.arrived } ∈ (joinPort cycle rs y).rdQ := by
  refine List.mem_append_right _ (List.mem_filter.mpr ⟨List.mem_map_of_mem h, ?_⟩)
  simp [hop]

theorem mem_joinPort_wrQ {r : PortReq} {rs : List PortReq} (cycle : Nat) (y : MemPort) (h : r ∈ rs) (hop : r.op ≠ 0) :
    { r with arrived := y.cycle + r.arrived } ∈ (joinPort cycle rs y).wrQ := by
  refine List.mem_append_right _ (List.mem_filter.mpr ⟨List.mem_map_of_mem h, ?_⟩)
  simp [hop]

theorem noneUp_of_down {s : State} (h : ∀ j, j < 4 → (getHp s j).up = false ∧ (getHp s j).lastUp + 1000000 ≤ s.time.t) :
    noneUp s = true := by
  rw [noneUp, List.all_eq_true]
  intro j hj
  have hlt : j < 4 := by
    simp only [List.mem_cons, List.not_mem_nil, or_false] at hj
    omega
  simp [h j hlt]

end Sys2Proof.Machine

open Sys2Proof Sys2Proof.Machine

/-- Settles O16: a host port hands its requests over, a memory port's join the next one, credits let what waits go out, and a crossing
delivers its oldest transfer. -/
theorem portsCreditsAndCrossings : Obligations.PortsCreditsAndCrossings := by
  unfold Obligations.PortsCreditsAndCrossings
  refine ⟨fun s p q hsettled => ⟨fun hup => ?_, fun hdown => ?_, fun hst => ?_, fun hst => ?_, fun j hst hnext hne => ?_, fun h => ?_⟩,
    fun s q p req wd src dst cycles => ⟨?_, ?_, ?_⟩⟩
  · have hrest := hostDown_rest hup
    have hself : getHp (hostDown s p.val) p.val = getHp (moveHost (portLow s p.val) p.val) p.val := by rw [hrest]; rfl
    rw [getHp_moveHost_self p.isLt, getHp_portLow_self, nextHost_portLow p.isLt, handedOver_portLow] at hself
    refine ⟨_, exec_hostPortDown_of_up hsettled hup, by rw [hrest], fun r => ?_, by rw [hself], by rw [hself], by rw [hself], by rw [hself],
      fun j hj => ?_, fun hnone => ?_, fun j hj _ => ?_⟩
    · rw [hrest]
      exact tget_tmap Region.init (fun _ x => dropTarget p.val x) s.rgns r rfl
    · have hmark : (getHp (hostDown s p.val) j).up = (getHp (moveHost (portLow s p.val) p.val) j).up := by rw [hrest]; rfl
      rw [hmark, (moveHost_marks ..).1, portLow, getHp_setHp_if, if_neg hj]
    · rw [hself, hnone, handedOver]
    · rw [hself, hj]
  · have hexec : exec (.hostPortUp p) s = .next (hostUp s p.val) := by
      show execHostPortUp p s = _
      simp [execHostPortUp, hdown]
    have hrest := hostUp_rest s p.val
    refine ⟨_, hexec, ?_, by rw [hostUp_up, if_pos rfl], fun j hj => by rw [hostUp_up, if_neg hj], by rw [hrest], fun hmore => ?_,
      fun hmore hwait hen hdead => ?_⟩
    · rw [hrest]
    · rcases hostUp_cases s p.val with ⟨-, h⟩ | ⟨-, u, hu, h⟩ <;> rw [h]
      · exact ⟨rfl, rfl⟩
      · rw [irqHeld_of_none_due (by rw [hu.rest]; exact hmore), hu.rest]
        exact ⟨rfl, rfl⟩
    · have hlive : hpLive (portHigh s p.val) p.val = true := by
        rw [hpLive, (portHigh_marks ..).1, (portHigh_marks ..).2, hdead]
        simp
      rcases hostUp_cases s p.val with ⟨h, -⟩ | ⟨-, u, hu, h⟩
      · rw [hlive] at h
        exact absurd h (by decide)
      · rw [h]
        exact irqHeld_irqWait p.isLt ((hu.hpLive p.val).trans hlive) (by rw [hu.rest]; exact hmore) (by rw [hu.rest]; exact hwait)
          (by rw [hu.rest]; exact hen)
  · rw [exec_memoryPortDown_of_settled hsettled, memDown_of_out hst, memLow]
  · exact ⟨_, exec_memoryPortDown_of_settled hsettled, memDown_out_of_service hst⟩
  · have hlow : nextPort (memLow s q.val) q.val = some j := hnext
    obtain ⟨cs, u, hfence⟩ := fenceUnit_of_next hne hlow
    have hdown : memDown s q.val = logFault (movedPort (memLow s q.val) q.val j cs) u := by
      rw [memDown_of_in (by rw [hst]; decide) (by rw [hst]; decide), hfence]
    have hq : getMp (memDown s q.val) q.val =
        { getMp (memLow s q.val) q.val with rdQ := [], wrQ := [], rdOut := [], wrOut := [] } := by
      rw [hdown, getMp_logFault, movedPort]
      show getMp (setMp _ j _) q.val = _
      rw [getMp_setMp_if, if_neg hne.symm, getMp_setMp_if, if_pos rfl]
    have hlowq : getMp (memLow s q.val) q.val = { getMp s q.val with up := false } := by rw [memLow, getMp_setMp_if, if_pos rfl]
    have hlowj : getMp (memLow s q.val) j = getMp s j := by rw [memLow, getMp_setMp_if, if_neg hne]
    have hj : getMp (memDown s q.val) j =
        joinPort (getMp s q.val).cycle (portAgain (getMp (memLow s q.val) q.val)) (getMp s j) := by
      rw [hdown, getMp_logFault, movedPort]
      show getMp (setMp _ j _) j = _
      rw [getMp_setMp_if, if_pos rfl, hlowj, hlowq]
    refine ⟨_, exec_memoryPortDown_of_settled hsettled, ?_, fun k n hkn => ?_, by rw [hq], by rw [hq], by rw [hq], by rw [hq], by rw [hj]; rfl,
      fun r hr hop => ?_, fun r hr hop => ?_, fun e he hop hlost => ?_⟩
    · rw [hdown, (logFault_logOnly _ _).rest]
      rfl
    · rw [hdown, unitSt_logFault, movedPort, unitSt_putUnit, if_neg hkn]
      rfl
    · rw [hj, hlowq]
      exact mem_joinPort_rdQ _ _ (List.mem_append_left _ (List.mem_append_right _ hr)) hop
    · rw [hj, hlowq]
      exact mem_joinPort_wrQ _ _ (List.mem_append_right _ hr) hop
    · rw [hj, hlowq]
      refine mem_joinPort_rdQ _ _ (List.mem_append_left _ (List.mem_append_left _ (List.mem_filter.mpr ⟨?_, ?_⟩))) hop
      · exact List.mem_map_of_mem (List.mem_append_left _ he)
      · simp [hop, hlost]
  · show execMainSideDown s = _
    simp only [execMainSideDown, noneUp_of_down h, Bool.true_or, if_true, mainSideDown, beq_iff_eq]
  · exact ⟨_, exec_mppCreditReturn_mem q req wd s, rfl, by rw [getMp_setMp_if, if_pos rfl], by rw [getMp_setMp_if, if_pos rfl],
      fun j hj => by rw [getMp_setMp_if, if_neg hj]⟩
  · have hself := getHp_credited_self s p.val req.toNat wd.toNat
    refine ⟨_, exec_mppCreditReturn_host p req wd s, ?_, ?_, fun hnil => ?_, fun r hr hlive hreq hwd => ?_, fun j hj => ?_⟩
    · rw [(flushHost_hostsOnly ..).rest]
      rfl
    · rw [initCount_flushHost, initCount, hself, initCount]
    · rw [hself, hnil]
      exact ⟨by rw [show flushHost _ _ _ = credited s p.val req.toNat wd.toNat from rfl, hself], by
        rw [show flushHost _ _ _ = credited s p.val req.toNat wd.toNat from rfl, hself]⟩
    · refine initQ_flushHost_of_one (by rw [hself, hr]) ?_
      have hlive' : hpLive (credited s p.val req.toNat wd.toNat) p.val = true := by rw [hpLive, hself]; exact hlive
      simp only [canSend, hself, hlive', Bool.and_true, Bool.and_eq_true, decide_eq_true_eq]
      omega
    · rw [getHp_flushHost_ne _ _ hj, credited, getHp_setHp_if, if_neg hj]
  · intro h3 h6 hsrc hdst before after x hxing hbefore hxsrc hxdst hcopy
    have hport : portXing q.val x = true := by simp [portXing, hxsrc, hxdst, hsrc, hdst]
    have hexec : exec (.crossingTransfer src dst cycles) s =
        .next (copyRead (presentHeld { s with xing := before ++ after, xingOut := s.xingOut ++ [x] } q.val) x.read.owner) := by
      show Host.Outcome.next (crossingDeliver s src.val dst.val cycles) = _
      rw [crossingDeliver_of_first h3 h6 hxing hbefore hxsrc hxdst, hsrc, Nat.add_sub_cancel_left]
    refine ⟨fun hheld => ?_, fun r rest hheld hroom => ?_⟩
    · rw [hexec, presentHeld_of_empty (by exact hheld), copyRead_of_none (by exact hcopy)]
    · have hfull : xingFull { s with xing := before ++ after, xingOut := s.xingOut ++ [x] } q.val = false := by
        rw [hxing, List.filter_append, List.filter_cons_of_pos hport] at hroom
        simp only [xingFull, List.filter_append, List.length_append, List.length_cons, decide_eq_false_iff_not] at hroom ⊢
        omega
      rw [hexec, presentHeld_of_room (by exact hheld) hfull, copyRead_of_none (by exact hcopy), hsrc, hdst]
      rfl

end

section
/-!
PROOFS. Read data (R333, R309, R322) and responses (R283, R284, R334): what arrives for an outstanding request, and how a descriptor ends
early (R308).
-/

namespace Sys2Proof.Machine

/-! ### A descriptor ends early (R308, R309) -/

theorem getCtx_setCtx_if (s : State) (c e : Nat) (x : Context) : getCtx (setCtx s c x) e = if e = c then x else getCtx s e :=
  tget_tset _ _ _ _ _

/-- Sub-tiles and what they hold have left contexts, regions and arrays; of a context only its backing slots differ. -/
structure Dropped (s t : State) : Prop where
  rest : t = { s with ctxs := t.ctxs, rgns := t.rgns, arrs := t.arrs }
  ctx : ∀ c, getCtx t c = { getCtx s c with backing := (getCtx t c).backing }

namespace Dropped

theorem refl (s : State) : Dropped s s := ⟨rfl, fun _ => rfl⟩

theorem trans {s t u : State} (h : Dropped s t) (k : Dropped t u) : Dropped s u :=
  ⟨by rw [k.rest, h.rest], fun c => by rw [k.ctx, h.ctx]⟩

variable {s t : State}

theorem setRgn (h : Dropped s t) (r : Nat) (x : Region) : Dropped s (setRgn t r x) := h.trans ⟨rfl, fun _ => rfl⟩
theorem setArr (h : Dropped s t) (a : Nat) (x : ArrayS) : Dropped s (setArr t a x) := h.trans ⟨rfl, fun _ => rfl⟩

theorem setBacking (h : Dropped s t) (c : Nat) (l : List Nat) : Dropped s (setCtx t c { getCtx t c with backing := l }) := by
  refine h.trans ⟨rfl, fun e => ?_⟩
  rw [getCtx_setCtx_if]
  split
  · rw [‹e = c›]
  · rfl

theorem foldl {α : Type} {f : State → α → State} (h : Dropped s t) (l : List α) (hf : ∀ u x, Dropped s u → Dropped s (f u x)) :
    Dropped s (l.foldl f t) := by
  induction l generalizing t with
  | nil => exact h
  | cons x l ih => exact ih (hf t x h)

theorem freeSlot (h : Dropped s t) (c : Nat) (sl : Option SlotRef) : Dropped s (freeSlot t c sl) := by
  cases sl with
  | none => exact h
  | some r => exact ite_cases (q := Dropped s) (fun _ => h.setBacking c _) (fun _ => h.setRgn _ _)

theorem leaveArray (h : Dropped s t) (a : Nat) (f : SubTile → Bool) : Dropped s (leaveArray t a f) :=
  ite_cases (q := Dropped s) (fun _ => h.setArr _ _) (fun _ => (h.setArr _ _).setArr _ _)

theorem dropSubs (s : State) (f : SubTile → Bool) : Dropped s (dropSubs s f) := by
  have h0 : Dropped s (freeEntries s f) := ⟨rfl, fun _ => rfl⟩
  have h1 := h0.foldl (allSubs s) (f := fun u x => if f x then Machine.freeSlot u x.ctx x.slot else u) fun u x hu =>
    ite_cases (q := Dropped s) (fun _ => hu.freeSlot _ _) (fun _ => hu)
  exact (h1.foldl _ fun u e hu => hu.leaveArray e.1 f).trans ⟨rfl, fun _ => rfl⟩

theorem dropConfirmed (h : Dropped s t) (c : Nat) (ring : W32) : Dropped s (dropConfirmed t c ring) := h.trans ⟨rfl, fun _ => rfl⟩

end Dropped

/-- The descriptor of a ring index has no result yet. -/
def Unfinished (x : Context) (ring : W32) : Prop := ∃ d ∈ x.admitted, d.ring = ring ∧ d.result = none

theorem finishIn_result {x : Context} {ring : W32} (res : Result) (h : Unfinished x ring) :
    ∃ d ∈ (finishIn x ring res).admitted, d.ring = ring ∧ d.result = some res := by
  obtain ⟨d, hmem, hring, hres⟩ := h
  have hany : x.admitted.any (fun d => d.ring == ring && d.result.isNone) = true :=
    List.any_eq_true.mpr ⟨d, hmem, by simp [hring, hres]⟩
  rw [finishIn, if_pos hany]
  exact ⟨{ d with result := some res }, List.mem_map.mpr ⟨d, hmem, by simp [hring, hres]⟩, hring, rfl⟩

theorem finishDesc_result {s : State} {c : Nat} {ring : W32} (res : Result) (h : Unfinished (getCtx s c) ring) :
    HasResult (finishDesc s c ring res) c ring res := by
  rw [HasResult, finishDesc, getCtx_setCtx_if, if_pos rfl]
  exact finishIn_result res h

/-- A descriptor that ends early: contexts, regions and arrays differ, and the descriptor has the status as its result. -/
theorem endDesc_rest (s : State) (c : Nat) (ring : W32) (st : Status) (v : W64) : endDesc s c ring st v =
    { s with ctxs := (endDesc s c ring st v).ctxs, rgns := (endDesc s c ring st v).rgns, arrs := (endDesc s c ring st v).arrs } := by
  have h := ((Dropped.dropSubs s (ofDesc c ring)).dropConfirmed c ring).rest
  show setCtx (dropConfirmed (dropSubs s (ofDesc c ring)) c ring) c _ = _
  rw [h]
  rfl

theorem endDesc_result {s : State} {c : Nat} {ring : W32} (st : Status) (v : W64) (h : Unfinished (getCtx s c) ring) :
    HasResult (endDesc s c ring st v) c ring { plainResult st (admFlags s c ring) with result := v } := by
  have hdrop := (Dropped.dropSubs s (ofDesc c ring)).dropConfirmed c ring
  refine finishDesc_result _ ?_
  rw [hdrop.ctx]
  exact h

/-! ### Requests found by their tag (R333) -/

theorem thas_tdrop {α : Type} (t : Tbl α) (k : Nat) : thas (tdrop t k) k = false := by
  induction t with
  | nil => rfl
  | cons e t ih =>
    rw [tdrop, List.filter_cons]
    split
    · next hk => simp_all [thas, tdrop]
    · exact ih

/-- What a looser predicate finds first, a stricter one that it meets finds first too. -/
theorem find?_of_imp {α : Type} {p q : α → Bool} {l : List α} {x : α} (h : l.find? p = some x) (hq : q x = true)
    (himp : ∀ y, q y = true → p y = true) : l.find? q = some x := by
  induction l with
  | nil => simp at h
  | cons y l ih =>
    rw [List.find?_cons] at h ⊢
    cases hp : p y with
    | true =>
      rw [hp] at h
      rw [Option.some.inj h, hq]
    | false =>
      have hqy : q y = false := Bool.eq_false_of_not_eq_true fun hy => absurd (himp y hy) (by simp [hp])
      rw [hp] at h
      rw [hqy]
      exact ih h

/-- The port without the request of a tag. -/
def tagFree (x : MemPort) (tag : Nat) : MemPort := { x with wrOut := tdrop x.wrOut tag, rdOut := tdrop x.rdOut tag }

theorem exec_mppRspReceive_of_answered {s : State} {q : PortId} {tag : BitVec 12} {status : BitVec 2} {r : PortReq} (prior : W64)
    (h : answered ((getMp s q.val).wrOut ++ (getMp s q.val).rdOut) tag.toNat status = some r) :
    exec (.mppRspReceive (.mem q) tag status prior) s =
      .next (rspReceive (setMp s q.val (tagFree (getMp s q.val) tag.toNat)) q.val r status prior) := by
  show execMppRspReceive (.mem q) tag status prior s = _
  simp only [execMppRspReceive, h]
  rfl

theorem answered_of_write {w rd : Tbl PortReq} {tag : Nat} {r : PortReq} (status : BitVec 2)
    (h : w.find? (fun e => e.1 == tag) = some (tag, r)) (hop : r.op ≠ 0) : answered (w ++ rd) tag status = some r := by
  have hfind : w.find? (fun e => e.1 == tag && (e.2.op != 0 || status != 0)) = some (tag, r) :=
    find?_of_imp h (by simp [hop]) fun y hy => (Bool.and_eq_true _ _ ▸ hy).1
  rw [answered, List.find?_append, hfind]
  rfl

theorem answered_of_read {w rd : Tbl PortReq} {tag : Nat} {status : BitVec 2} {r : PortReq} (hw : w.find? (fun e => e.1 == tag) = none)
    (h : rd.find? (fun e => e.1 == tag && (e.2.op != 0 || status != 0)) = some (tag, r)) : answered (w ++ rd) tag status = some r := by
  have hnone : w.find? (fun e => e.1 == tag && (e.2.op != 0 || status != 0)) = none := by
    rw [List.find?_eq_none] at hw ⊢
    intro e he hp
    exact hw e he (Bool.and_eq_true _ _ ▸ hp).1
  rw [answered, List.find?_append, hnone, h]
  rfl

theorem exec_mppRdReceive_of_found {s : State} {q : PortId} {tag : BitVec 12} {r : PortReq}
    (h : (getMp s q.val).rdOut.find? (fun e => e.1 == tag.toNat && e.2.op == 0) = some (tag.toNat, r)) (data : List Byte) (rs : RsResult)
    (poison : Bool) : exec (.mppRdReceive (.mem q) tag data rs poison) s =
      .next (rdReceive (setMp s q.val (countCe { getMp s q.val with rdOut := tdrop (getMp s q.val).rdOut tag.toNat } rs r.owner))
        q.val r data rs poison) := by
  show execMppRdReceive (.mem q) tag data rs poison s = _
  simp only [execMppRdReceive, h]

/-! ### Bytes of read data (R322, R333) -/

/-- The fold of `takeData` from an offset on. -/
def takeFrom (pends : Nat → Bool) (a : Nat) (m : Mems) : Nat → List Byte → Mems
  | _, [] => m
  | k, b :: bs => takeFrom pends a (if pends (a + k) then m else wrBytes m .mem (a + k) [b]) (k + 1) bs

theorem foldl_range'_zip (pends : Nat → Bool) (a : Nat) (bs : List Byte) (k : Nat) (m : Mems) :
    ((List.range' k bs.length).zip bs).foldl (fun m x => if pends (a + x.1) then m else wrBytes m .mem (a + x.1) [x.2]) m =
      takeFrom pends a m k bs := by
  induction bs generalizing k m with
  | nil => rfl
  | cons b bs ih =>
    rw [List.length_cons, List.range'_succ, List.zip_cons_cons, List.foldl_cons, ih]
    rfl

theorem takeData_eq (s : State) (a : Nat) (bs : List Byte) : takeData s a bs = takeFrom (writePends s) a s.mems 0 bs := by
  rw [takeData, List.range_eq_range', foldl_range'_zip]

theorem rdByte_takeFrom (pends : Nat → Bool) (a : Nat) (bs : List Byte) (k : Nat) (m : Mems) (sp : Space) (x : Nat) :
    rdByte (takeFrom pends a m k bs) sp x =
      if sp = .mem ∧ a + k ≤ x ∧ x < a + k + bs.length ∧ pends x = false then bs.getD (x - (a + k)) 0 else rdByte m sp x := by
  induction bs generalizing k m with
  | nil =>
    rw [if_neg (by simp only [List.length_nil]; omega)]
    rfl
  | cons b bs ih =>
    have hone : rdByte (if pends (a + k) then m else wrBytes m .mem (a + k) [b]) sp x =
        if sp = .mem ∧ x = a + k ∧ pends x = false then b else rdByte m sp x := by
      by_cases hp : pends (a + k) = true
      · rw [if_pos hp, if_neg]
        rintro ⟨-, rfl, h⟩
        rw [h] at hp
        exact absurd hp (by decide)
      · rw [if_neg hp, rdByte_wrBytes]
        by_cases hx : x = a + k
        · subst hx
          simp [hp]
        · rw [if_neg (by simp only [List.length_singleton]; omega), if_neg (by tauto)]
    rw [takeFrom, ih, hone, List.length_cons]
    by_cases hx : x = a + k
    · subst hx
      rw [if_neg (by omega)]
      by_cases hp : sp = .mem ∧ pends (a + k) = false
      · rw [if_pos ⟨hp.1, rfl, hp.2⟩, if_pos ⟨hp.1, by omega, by omega, hp.2⟩, Nat.sub_self, List.getD_cons_zero]
      · rw [if_neg (by tauto), if_neg (by tauto)]
    · rw [if_neg (c := sp = .mem ∧ x = a + k ∧ pends x = false) (by tauto)]
      by_cases hin : sp = .mem ∧ a + k + 1 ≤ x ∧ x < a + k + 1 + bs.length ∧ pends x = false
      · obtain ⟨hsp, hlo, hhi, hp⟩ := hin
        rw [if_pos ⟨hsp, by omega, by omega, hp⟩, if_pos ⟨hsp, by omega, by omega, hp⟩,
          show x - (a + k) = x - (a + (k + 1)) + 1 by omega, List.getD_cons_succ]
      · rw [if_neg (by rintro ⟨h1, h2, h3, h4⟩; exact hin ⟨h1, by omega, by omega, h4⟩),
          if_neg (by rintro ⟨h1, h2, h3, h4⟩; exact hin ⟨h1, by omega, by omega, h4⟩)]

/-- Read data stands from its address on, but where a write is under way. -/
theorem rdByte_takeData (s : State) (a : Nat) (bs : List Byte) (sp : Space) (x : Nat) : rdByte (takeData s a bs) sp x =
    if sp = .mem ∧ a ≤ x ∧ x < a + bs.length ∧ writePends s x = false then bs.getD (x - a) 0 else rdByte s.mems sp x := by
  rw [takeData_eq, rdByte_takeFrom]
  rfl

/-! ### Writes under way (R322) -/

theorem any_of_tget {α : Type} {d : α} {f : α → Bool} {t : Tbl α} {k : Nat} (h : f (tget d t k) = true) (hd : f d = false) :
    t.any (fun e => f e.2) = true := by
  induction t with
  | nil => simp_all [tget]
  | cons e t ih =>
    obtain ⟨j, w⟩ := e
    rw [tget] at h
    rw [List.any_cons, Bool.or_eq_true]
    split at h
    · exact .inl h
    · exact .inr (ih h)

/-- An entry put in place of one that answers the same changes no answer about the table. -/
theorem any_tset {α : Type} {d : α} {f : α → Bool} (t : Tbl α) (k : Nat) {v : α} (h : f v = f (tget d t k)) (hd : f d = false) :
    (tset t k v).any (fun e => f e.2) = t.any (fun e => f e.2) := by
  induction t with
  | nil => simpa [tset, tget, hd] using h
  | cons e t ih =>
    obtain ⟨j, w⟩ := e
    rw [tset]
    by_cases hlt : k < j
    · rw [if_pos hlt, List.any_cons, h]
      cases hv : f (tget d ((j, w) :: t) k) with
      | false => rfl
      | true => rw [any_of_tget hv hd]; rfl
    · rw [if_neg hlt]
      rw [tget] at h
      by_cases hj : j = k
      · rw [if_pos hj] at h ⊢
        rw [List.any_cons, List.any_cons, h]
      · rw [if_neg hj] at h ⊢
        rw [List.any_cons, List.any_cons, ih h]

/-- A port's reads and counts say nothing about writes under way. -/
theorem writePends_setMp {s : State} {q : Nat} {x : MemPort} (hq : x.wrQ = (getMp s q).wrQ) (hout : x.wrOut = (getMp s q).wrOut) :
    writePends (setMp s q x) = writePends s := by
  funext a
  unfold writePends
  dsimp only
  have h := any_tset (d := MemPort.init) s.mp q (v := x)
    (f := fun y => y.wrQ.any (fun q => q.op == 1 && decide (q.addr ≤ a ∧ a < q.addr + q.len)) ||
      y.wrOut.any (fun e => e.2.op == 1 && decide (e.2.addr ≤ a ∧ a < e.2.addr + e.2.len))) (by rw [hq, hout]; rfl) rfl
  exact congrArg (· || _) h

end Sys2Proof.Machine

end

section
/-!
PROOFS. What data and responses at a memory port do: good data and the crossing behind it (R35, R333), poison and uncorrectable errors
(R309, R322), acknowledgements, atomics and translation errors (R283, R308, R334).
-/

namespace Sys2Proof.Machine

/-! ### Data presented to the crossing (R35) -/

theorem present_of_room {s : State} {q : Nat} (r : PortReq) (hfull : xingFull s q = false) (hheld : (getMp s q).held = []) :
    present s q r = { s with xing := s.xing ++ [{ src := 36 + q, dst := 20 + q / 4, read := r }] } := by
  simp [present, hfull, hheld]

theorem present_of_full {s : State} {q : Nat} (r : PortReq) (h : xingFull s q = true ∨ (getMp s q).held ≠ []) :
    present s q r = setMp s q { getMp s q with held := (getMp s q).held ++ [r] } := by
  refine if_pos ?_
  rcases h with h | h
  · simp [h]
  · simp [List.isEmpty_eq_false_iff.mpr h]

/-- Of the ports only the read's own one differs, by what it holds. -/
theorem present_keeps (s : State) (q : Nat) (r : PortReq) :
    present s q r = { s with mp := (present s q r).mp, xing := (present s q r).xing } ∧
    (getMp (present s q r) q = { getMp s q with held := (getMp (present s q r) q).held }) ∧
    ∀ j, j ≠ q → getMp (present s q r) j = getMp s j := by
  by_cases h : xingFull s q = true ∨ (getMp s q).held ≠ []
  · rw [present_of_full r h]
    refine ⟨rfl, ?_, fun j hj => by rw [getMp_setMp_if, if_neg hj]⟩
    rw [getMp_setMp_if, if_pos rfl]
  · have hroom : xingFull s q = false ∧ (getMp s q).held = [] := by simpa using h
    rw [present_of_room r hroom.1 hroom.2]
    exact ⟨rfl, rfl, fun _ _ => rfl⟩

/-! ### A port that has taken the data of a read (R333, R399) -/

/-- The port behind the arrival of a read's data. -/
def tookRead (x : MemPort) (tag : Nat) (rs : RsResult) (o : Owner) : MemPort := countCe { x with rdOut := tdrop x.rdOut tag } rs o

theorem tookRead_eq (x : MemPort) (tag : Nat) (rs : RsResult) (o : Owner) :
    tookRead x tag rs o = { x with rdOut := tdrop x.rdOut tag, ce := (tookRead x tag rs o).ce } := rfl

/-- The state in which it stands so. -/
def readTaken (s : State) (q tag : Nat) (rs : RsResult) (o : Owner) : State := setMp s q (tookRead (getMp s q) tag rs o)

theorem getMp_readTaken_self (s : State) (q tag : Nat) (rs : RsResult) (o : Owner) :
    getMp (readTaken s q tag rs o) q = tookRead (getMp s q) tag rs o := by
  rw [readTaken, getMp_setMp_if, if_pos rfl]

/-- Corrected codewords of a descriptor's read are counted, up to the counter's end. -/
theorem tookRead_ce (x : MemPort) (tag : Nat) {rs : RsResult} {c : Nat} {ring : W32} :
    (tookRead x tag rs (.desc c ring)).ce.toNat = if rs = .corrected then min (2 ^ 32 - 1) (x.ce.toNat + 1) else x.ce.toNat := by
  have hx := x.ce.isLt
  show (if _ then x.ce + 1 else x.ce : W32).toNat = _
  by_cases hrs : rs = .corrected
  · subst hrs
    by_cases hmax : x.ce = 0xFFFFFFFF
    · rw [hmax]
      rfl
    · have hne : x.ce.toNat ≠ 0xFFFFFFFF := fun e => hmax (BitVec.eq_of_toNat_eq e)
      have hce : (x.ce != 0xFFFFFFFF) = true := bne_iff_ne.mpr hmax
      rw [if_pos (by simp only [hce, ofGambit]; rfl), if_pos rfl, BitVec.toNat_add_of_lt] <;>
        simp only [BitVec.ofNat_eq_ofNat, BitVec.toNat_ofNat] <;> omega
  · have hbeq : (rs == RsResult.corrected) = false := beq_false_of_ne hrs
    rw [if_neg (by simp [hbeq]), if_neg hrs]

/-- A counter of 16 bits stops at its end. -/
theorem toNat_saturate (x : BitVec 16) : (if x == 0xFFFF then x else x + 1).toNat = min 65535 (x.toNat + 1) := by
  have hx := x.isLt
  by_cases h : x = 0xFFFF
  · rw [h]
    rfl
  · have hne : x.toNat ≠ 65535 := fun e => h (BitVec.eq_of_toNat_eq e)
    rw [if_neg (by rw [beq_false_of_ne h]; decide), BitVec.toNat_add_of_lt] <;>
      simp only [BitVec.ofNat_eq_ofNat, BitVec.toNat_ofNat] <;> omega

/-- A poisoned read of a descriptor is counted and logged. -/
def poisonLogged (s : State) (q : Nat) (r : PortReq) : State :=
  logFault (setMp s q { getMp s q with poison := if (getMp s q).poison == 0xFFFF then (getMp s q).poison else (getMp s q).poison + 1 })
    (portEntry s 0x15 q r)

theorem rdPoisoned_of_desc {s : State} {q : Nat} {r : PortReq} {c : Nat} {ring : W32} (h : r.owner = .desc c ring) :
    rdPoisoned s q r = if r.retried then endDesc (poisonLogged s q r) c ring .unrecoverable else reissue (poisonLogged s q r) q r := by
  simp only [rdPoisoned, h, ofGambit]
  rfl

theorem portEntry_fields (s : State) (source : Byte) (q : Nat) (r : PortReq) : (portEntry s source q r).cls = 2 ∧
    (portEntry s source q r).source = source ∧ (portEntry s source q r).detail = BitVec.ofNat 32 0 := by
  unfold portEntry
  split <;> exact ⟨rfl, rfl, rfl⟩

theorem logAt_portEntry {s : State} (u : State) (source : Byte) (q : Nat) (r : PortReq) :
    LogAt (logFault s (portEntry u source q r)) s.flog.next.toNat 2 source 0 := by
  obtain ⟨hcls, hsource, hdetail⟩ := portEntry_fields u source q r
  have h := logAt_logFault (s := s) (.inl (by rw [hcls]; decide)) hdetail
  rwa [hcls, hsource] at h

theorem logAt_poisonLogged (s : State) (q : Nat) (r : PortReq) : LogAt (poisonLogged s q r) s.flog.next.toNat 2 0x15 0 :=
  logAt_portEntry s 0x15 q r

/-- An uncorrectable error on a port is counted and logged. -/
def ueLogged (s : State) (q : Nat) (r : PortReq) : State :=
  logFault (setMp s q { getMp s q with
    ue := if (getMp s q).ue == 0xFFFF then (getMp s q).ue else (getMp s q).ue + 1
    ueTimes := addEvent (getMp s q).ueTimes s.time.t }) (portEntry s 0x0B q r)

theorem logAt_ueLogged (s : State) (q : Nat) (r : PortReq) : LogAt (ueLogged s q r) s.flog.next.toNat 2 0x0B 0 :=
  logAt_portEntry s 0x0B q r

/-- One that is not the third within 1 ms fences nothing. -/
theorem portError_of_few {s : State} {q : Nat} {r : PortReq} {f : State → State}
    (h : reached 3 (addEvent (getMp s q).ueTimes s.time.t) = false) : portError s q r f = f (ueLogged s q r) := by
  simp only [portError, h]
  rfl

theorem rdUncorrectable_of_first {s : State} {q : Nat} {r : PortReq} {c : Nat} {ring : W32} (howner : r.owner = .desc c ring)
    (hretried : r.retried = false) : rdUncorrectable s q r = portError s q r (fun t => reissue t q r) := by
  simp only [rdUncorrectable, howner, hretried]
  rfl

/-- Good data of a read has arrived for a context, before it goes on to the staging island. -/
def goodData (s : State) (r : PortReq) (c : Nat) (data : List Byte) : State :=
  chargeRd { s with mems := takeData s r.addr ((data.drop (r.addr % 512)).take r.len) } c r.len

/-- The state in which good data has arrived. -/
def goodRead (s : State) (q tag : Nat) (r : PortReq) (rs : RsResult) (c : Nat) (ring : W32) (data : List Byte) : State :=
  goodData (readTaken s q tag rs (.desc c ring)) r c data

theorem rdGood_of_desc {s : State} {r : PortReq} {c : Nat} {ring : W32} (lanes : Nat) (data : List Byte) (h : r.owner = .desc c ring) :
    rdGood s lanes r data = chargeRd { s with mems := takeData s r.addr ((data.drop (r.addr % lanes)).take r.len) } c r.len := by
  rw [rdGood, h]

/-- A translation error of an access may fence bands of the array whose sub-tile made it; then the descriptor ends (R308). -/
theorem xlateFail_eq (s : State) (c : Nat) (ring : W32) (a : Nat) (sub : Option (Nat × Nat)) : ∃ t,
    xlateFail s c ring a sub = endDesc t c ring .xlateFault (BitVec.ofNat 64 a) ∧ t.mp = s.mp ∧ getCtx t c = getCtx s c := by
  cases sub with
  | none => exact ⟨s, rfl, rfl, rfl⟩
  | some x => exact ⟨_, rfl, rfl, rfl⟩

/-! ### Atomics at memory (R283, R284) -/

theorem putJournal_rest (s : State) (r j : Nat) (ws : List W64) : putJournal s r j ws = { s with rgns := (putJournal s r j ws).rgns } := rfl

theorem markRemote_rest (s : State) (c : Nat) (ring : W32) (issued acked : Bool) :
    markRemote s c ring issued acked = { s with rgns := (markRemote s c ring issued acked).rgns } := by
  have hfold : ∀ (l : List (Nat × Nat)) (ws : List W64) (u : State),
      l.foldl (fun t k => putJournal t k.1 k.2 ws) u = { u with rgns := (l.foldl (fun t k => putJournal t k.1 k.2 ws) u).rgns } := by
    intro l ws
    induction l with
    | nil => exact fun _ => rfl
    | cons k l ih => exact fun u => by rw [List.foldl_cons, ih, putJournal_rest]
  unfold markRemote
  split
  · rfl
  · exact hfold _ _ s

/-- The memory of an atomic that the licensee has performed: its word holds the new value. -/
def atomicMems (s : State) (r : PortReq) (prior : W64) : Mems :=
  wrLe s.mems .mem r.addr 8 (atomicNew r.aop prior (BitVec.ofNat 64 (leNat (r.data.take 8)))
    (BitVec.ofNat 64 (leNat ((r.data.drop 8).take 8)))).toNat

theorem atomicDone_of_desc {s : State} {r : PortReq} {c : Nat} {ring : W32} (prior : W64) (howner : r.owner = .desc c ring)
    (hledger : ceLedger (getCtx s c).ent = false) : atomicDone s r prior =
      finishDesc (markRemote (setPrior { s with mems := atomicMems s r prior } c ring (atomicResult r.aop prior)) c ring true true) c ring
        { plainResult .ok with result := atomicResult r.aop prior } := by
  have hclaim : ∀ a v, claimAdd { s with mems := atomicMems s r prior } c ring a r.aop v = { s with mems := atomicMems s r prior } := by
    intro a v
    refine if_neg ?_
    rw [show getCtx { s with mems := atomicMems s r prior } c = getCtx s c from rfl, hledger, Bool.false_and]
    exact Bool.false_ne_true
  simp only [atomicDone, howner]
  rw [← hclaim]
  rfl

theorem rd64_wrLe (ms : Mems) (sp : Space) (a : Nat) (v : W64) : rd64 (wrLe ms sp a 8 v.toNat) sp a = v := by
  rw [rd64, rdLe_wrLe _ _ _ (by exact v.isLt), BitVec.ofNat_toNat, BitVec.setWidth_eq]

/-- The prior value is kept in the admission record, which has no result by that. -/
theorem unfinished_setPrior {s : State} {c : Nat} {ring : W32} (v : W64) (h : Unfinished (getCtx s c) ring) :
    Unfinished (getCtx (setPrior s c ring v) c) ring := by
  obtain ⟨d, hmem, hring, hres⟩ := h
  rw [setPrior, getCtx_setCtx_if, if_pos rfl]
  exact ⟨{ d with prior := some v }, List.mem_map.mpr ⟨d, hmem, by simp [hring]⟩, hring, hres⟩

theorem getCtx_finishDesc_ne (s : State) {c e : Nat} (ring : W32) (res : Result) (h : e ≠ c) :
    getCtx (finishDesc s c ring res) e = getCtx s e := by
  rw [finishDesc, getCtx_setCtx_if, if_neg h]

/-- The licensee's atomic: memory has the new value, the descriptor its result, and no other context differs. -/
theorem atomicDone_spec {s : State} {r : PortReq} {c : Nat} {ring : W32} (prior : W64) (howner : r.owner = .desc c ring)
    (hledger : ceLedger (getCtx s c).ent = false) (hunfinished : Unfinished (getCtx s c) ring) :
    (atomicDone s r prior).mems = atomicMems s r prior ∧
    HasResult (atomicDone s r prior) c ring { plainResult .ok with result := atomicResult r.aop prior } ∧
    ∀ e, e ≠ c → getCtx (atomicDone s r prior) e = getCtx s e := by
  rw [atomicDone_of_desc prior howner hledger, markRemote_rest]
  refine ⟨rfl, finishDesc_result _ (unfinished_setPrior (s := { s with mems := atomicMems s r prior }) _ hunfinished), fun e he => ?_⟩
  rw [getCtx_finishDesc_ne _ _ _ he]
  exact tget_tset_ne _ _ _ _ _ he

end Sys2Proof.Machine

open Sys2Proof Sys2Proof.Machine

/-- Settles O17: good data is `takeData`, charged and presented; poison and an uncorrectable error are logged, and the first of a request is
reissued. -/
theorem readDataArrives : Obligations.ReadDataArrives := by
  unfold Obligations.ReadDataArrives
  intro s q tag data r c ring hfound howner
  have hexec := exec_mppRdReceive_of_found hfound data
  have hnotLost : (r.owner == Owner.lost) = false := by rw [howner]; rfl
  have hport (rs : RsResult) := getMp_readTaken_self s q.val tag.toNat rs r.owner
  refine ⟨fun rs hrs => ?_, fun hretried => ⟨?_, fun p hfew => ?_⟩, fun hretried hunfinished _ => ?_⟩
  · have hne : (rs == RsResult.uncorrectable) = false := by
      simp only [List.mem_cons, List.not_mem_nil, or_false] at hrs
      rcases hrs with rfl | rfl <;> rfl
    have hport := hport rs
    rw [howner] at hport
    have hrun : exec (.mppRdReceive (.mem q) tag data rs false) s =
        .next (present (goodRead s q.val tag.toNat r rs c ring data) q.val r) := by
      rw [hexec, rdReceive, hnotLost, hne, rdGood_of_desc _ _ howner, howner]
      rfl
    obtain ⟨hrest, hq, hother⟩ := present_keeps (goodRead s q.val tag.toNat r rs c ring data) q.val r
    have hgood : getMp (goodRead s q.val tag.toNat r rs c ring data) q.val = tookRead (getMp s q.val) tag.toNat rs (.desc c ring) := hport
    have hmems : (present (goodRead s q.val tag.toNat r rs c ring data) q.val r).mems =
        takeData (readTaken s q.val tag.toNat rs (.desc c ring)) r.addr
          ((data.drop (r.addr % 512)).take r.len) := by rw [hrest]; rfl
    have hpends : writePends (readTaken s q.val tag.toNat rs (.desc c ring)) = writePends s :=
      writePends_setMp rfl rfl
    refine ⟨_, hrun, ?_, ?_, fun j hj => ?_, ?_, fun k b hb hp => ?_, fun sp a ha => ?_, ?_, fun hroom hheld => ?_, fun hfull => ?_⟩
    · rw [hrest]
      rfl
    · rw [hq, hgood]
      exact thas_tdrop _ _
    · rw [hother j hj]
      show getMp (setMp s q.val _) j = _
      rw [getMp_setMp_if, if_neg hj]
    · rw [hq, hgood]
      exact tookRead_ce _ _
    · obtain ⟨hk, hget⟩ := List.getElem?_eq_some_iff.mp hb
      rw [hmems, rdByte_takeData, hpends, if_pos ⟨rfl, by omega, by omega, hp⟩, Nat.add_sub_cancel_left, List.getD_eq_getElem _ _ hk, hget]
    · rw [hmems, rdByte_takeData, hpends, if_neg]
      · rfl
      · rintro ⟨hsp, hlo, hhi, hp⟩
        have hlen : ((data.drop (r.addr % 512)).take r.len).length ≤ r.len := List.length_take_le ..
        rcases ha with ha | ha | ha | ha
        · exact ha hsp
        · omega
        · omega
        · rw [ha] at hp
          exact absurd hp (by decide)
    · rw [show getAcct (present _ q.val r) c = getAcct (goodRead s q.val tag.toNat r rs c ring data) c by rw [hrest]; rfl]
      exact congrArg Acct.rdBytes (getAcct_setAcct ..)
    · rw [present_of_room r (by exact hroom) (by rw [hgood]; exact hheld)]
      exact ⟨rfl, by show (getMp (goodRead s q.val tag.toNat r rs c ring data) q.val).held = []; rw [hgood]; exact hheld⟩
    · rw [present_of_full r (by rw [hgood]; exact hfull)]
      refine ⟨rfl, ?_⟩
      rw [getMp_setMp_if, if_pos rfl, hgood]
      rfl
  · have hrun : exec (.mppRdReceive (.mem q) tag data .clean true) s =
        .next (reissue (poisonLogged (readTaken s q.val tag.toNat .clean r.owner) q.val r) q.val r) := by
      rw [hexec, rdReceive, hnotLost, rdPoisoned_of_desc howner, hretried]
      rfl
    have hq : getMp (poisonLogged (readTaken s q.val tag.toNat .clean r.owner) q.val r) q.val =
        { tookRead (getMp s q.val) tag.toNat .clean r.owner with
          poison := if (getMp s q.val).poison == 0xFFFF then (getMp s q.val).poison else (getMp s q.val).poison + 1 } := by
      rw [poisonLogged, getMp_logFault, getMp_setMp_if, if_pos rfl, hport]
      rfl
    refine ⟨_, hrun, ?_, ?_, logFault_ctxs .., (logAt_poisonLogged (readTaken s q.val tag.toNat .clean r.owner) q.val r).congr rfl⟩
    · rw [reissue, getMp_setMp_if, if_pos rfl, hq]
      exact toNat_saturate _
    · rw [reissue, getMp_setMp_if, if_pos rfl, hq]
      rfl
  · have hfew' : reached 3 (addEvent (getMp (readTaken s q.val tag.toNat .uncorrectable r.owner) q.val).ueTimes
        (readTaken s q.val tag.toNat .uncorrectable r.owner).time.t) = false := by
      rw [hport]
      exact hfew
    have hrun : exec (.mppRdReceive (.mem q) tag data .uncorrectable p) s =
        .next (reissue (ueLogged (readTaken s q.val tag.toNat .uncorrectable r.owner) q.val r) q.val r) := by
      rw [← portError_of_few hfew' (f := fun t => reissue t q.val r), ← rdUncorrectable_of_first howner hretried, hexec, rdReceive, hnotLost]
      rfl
    refine ⟨_, hrun, ?_, ?_, logFault_ctxs .., logFault_units .., (logAt_ueLogged (readTaken s q.val tag.toNat .uncorrectable r.owner) q.val r).congr rfl⟩
    · rw [reissue, getMp_setMp_if, if_pos rfl, ueLogged, getMp_logFault, getMp_setMp_if, if_pos rfl, hport]
      exact toNat_saturate _
    · rw [reissue, getMp_setMp_if, if_pos rfl, ueLogged, getMp_logFault, getMp_setMp_if, if_pos rfl, hport]
      rfl
  · have hrun : exec (.mppRdReceive (.mem q) tag data .clean true) s =
        .next (endDesc (poisonLogged (readTaken s q.val tag.toNat .clean r.owner) q.val r) c ring .unrecoverable) := by
      rw [hexec, rdReceive, hnotLost, rdPoisoned_of_desc howner, hretried]
      rfl
    have hctx : getCtx (poisonLogged (readTaken s q.val tag.toNat .clean r.owner) q.val r) c = getCtx s c := by
      rw [getCtx, poisonLogged, logFault_ctxs]
      rfl
    obtain ⟨d, hmem, hring, hres⟩ := endDesc_result (c := c) .unrecoverable 0 (by rw [hctx]; exact hunfinished)
    refine ⟨_, hrun, ?_, d, hmem, hring, _, hres⟩
    exact (logAt_poisonLogged (readTaken s q.val tag.toNat .clean r.owner) q.val r).congr ((WorkOnly.refl _).endDesc c ring .unrecoverable 0).flog

/-- Settles O18: an acknowledgement frees its tag, an atomic's response writes the new value and completes with the prior one, and a
translation error ends the descriptor. -/
theorem responsesEndRequests : Obligations.ResponsesEndRequests := by
  unfold Obligations.ResponsesEndRequests
  intro s q tag r c ring prior
  refine ⟨fun hwr hop hlost hcopy => ?_, fun hwr hrd hop howner hledger hunfinished _ => ?_, fun howner hunfinished _ h => ?_⟩
  · have hcopyDone : copyDone (setMp s q.val (tagFree (getMp s q.val) tag.toNat)) r.owner = setMp s q.val (tagFree (getMp s q.val) tag.toNat) := by
      unfold copyDone
      split
      · next e k ho => rw [show copying (setMp s q.val _) e k = none from hcopy e k ho]
      · rfl
    rw [exec_mppRspReceive_of_answered prior (answered_of_write 0 hwr (by rw [hop]; decide)), rspReceive, beq_false_of_ne hlost, hop,
      hcopyDone]
    rfl
  · have hlost : (r.owner == Owner.lost) = false := by rw [howner]; rfl
    have hrun : exec (.mppRspReceive (.mem q) tag 0 prior) s =
        .next (atomicDone (setMp s q.val (tagFree (getMp s q.val) tag.toNat)) r prior) := by
      rw [exec_mppRspReceive_of_answered prior (answered_of_read hwr (find?_of_imp hrd (by simp [hop]) (by simp))), rspReceive, hlost, hop]
      rfl
    obtain ⟨hmems, hresult, hother⟩ := atomicDone_spec (s := setMp s q.val (tagFree (getMp s q.val) tag.toNat)) prior howner hledger hunfinished
    refine ⟨_, hrun, ?_, fun sp a ha => ?_, hresult, hother⟩
    · rw [hmems]
      exact rd64_wrLe ..
    · rw [hmems]
      exact rdByte_wrBytes_outside _ _ _ _ _ _ (by simpa using ha)
  · have hans : answered ((getMp s q.val).wrOut ++ (getMp s q.val).rdOut) tag.toNat 1 = some r := by
      rcases h with ⟨hwr, hop⟩ | ⟨hwr, hrd, -⟩
      · exact answered_of_write 1 hwr (by rw [hop]; decide)
      · exact answered_of_read hwr (find?_of_imp hrd (by simp) (by simp))
    have hlost : (r.owner == Owner.lost) = false := by rw [howner]; rfl
    have hrun : exec (.mppRspReceive (.mem q) tag 1 prior) s =
        .next (xlateFail (setMp s q.val (tagFree (getMp s q.val) tag.toNat)) c ring r.addr r.sub) := by
      rw [exec_mppRspReceive_of_answered prior hans, rspReceive, hlost]
      simp only [rspError, howner]
      rfl
    obtain ⟨t, ht, hmp, hctx⟩ := xlateFail_eq (setMp s q.val (tagFree (getMp s q.val) tag.toNat)) c ring r.addr r.sub
    rw [ht] at hrun
    obtain ⟨d, hmem, hring, hres⟩ := endDesc_result (c := c) .xlateFault (BitVec.ofNat 64 r.addr) (s := t) (by rw [hctx]; exact hunfinished)
    refine ⟨_, hrun, ?_, d, hmem, hring, _, hres⟩
    rw [getMp, endDesc_rest, hmp]
    show thas (getMp (setMp s q.val _) q.val).rdOut _ = false
    rw [getMp_setMp_if, if_pos rfl]
    exact thas_tdrop _ _

end

section
/-!
PROOFS. Requests for units (R315 to R323): what each does to a unit, its region and its ports.
-/

namespace Sys2Proof.Machine

/-! ### Residency copies and watched lines of a region -/

/-- A projection that the change of an entry keeps, it keeps of the table. -/
theorem tget_tmap_proj {α β : Type} (d : α) (f : Nat → α → α) (g : α → β) (hg : ∀ j x, g (f j x) = g x) (t : Tbl α) (k : Nat) :
    g (tget d (tmap f t) k) = g (tget d t k) := by
  induction t with
  | nil => rfl
  | cons e t ih =>
    rw [tmap, List.map_cons, tget, tget]
    split
    · exact hg _ _
    · exact ih

theorem getRgn_setRgn_if (s : State) (r n : Nat) (x : Region) : getRgn (setRgn s r x) n = if n = r then x else getRgn s n :=
  tget_tset _ _ _ _ _

theorem getArr_setArr_if (s : State) (a n : Nat) (x : ArrayS) : getArr (setArr s a x) n = if n = a then x else getArr s n :=
  tget_tset _ _ _ _ _

/-- A region's residency copies, the lines that WAITV watches there, and the activities that wait. -/
def copiesOf (x : Region) : List ResCopy × List Watch × List (Master × MaintAct) := (x.resid, x.watch, x.queued)

/-- No region's residency copies, watched lines or waiting activities differ. -/
def CopiesKept (s t : State) : Prop := ∀ r, copiesOf (getRgn t r) = copiesOf (getRgn s r)

namespace CopiesKept

theorem refl (s : State) : CopiesKept s s := fun _ => rfl

variable {s t : State}

theorem trans {u : State} (h : CopiesKept s t) (k : CopiesKept t u) : CopiesKept s u := fun r => (k r).trans (h r)

theorem of_rgns (h : CopiesKept s t) {u : State} (hu : u.rgns = t.rgns) : CopiesKept s u := fun r => by
  rw [getRgn, hu]
  exact h r

theorem setRgn (h : CopiesKept s t) (r : Nat) (x : Region) (hx : copiesOf x = copiesOf (getRgn t r)) : CopiesKept s (setRgn t r x) := by
  refine h.trans fun n => ?_
  rw [getRgn_setRgn_if]
  split
  · rw [hx, ‹n = r›]
  · rfl

theorem tmap (h : CopiesKept s t) (f : Nat → Region → Region) (hf : ∀ j x, copiesOf (f j x) = copiesOf x) :
    CopiesKept s { t with rgns := tmap f t.rgns } :=
  h.trans fun n => tget_tmap_proj Region.init f copiesOf hf t.rgns n

theorem foldl {α : Type} {f : State → α → State} (h : CopiesKept s t) (l : List α) (hf : ∀ u x, CopiesKept s u → CopiesKept s (f u x)) :
    CopiesKept s (l.foldl f t) := by
  induction l generalizing t with
  | nil => exact h
  | cons x l ih => exact ih (hf t x h)

theorem freeSlot (h : CopiesKept s t) (c : Nat) (sl : Option SlotRef) : CopiesKept s (freeSlot t c sl) := by
  cases sl with
  | none => exact h
  | some r => exact ite_cases (q := CopiesKept s) (fun _ => h.of_rgns rfl) (fun _ => h.setRgn _ _ rfl)

theorem leaveArray (h : CopiesKept s t) (a : Nat) (f : SubTile → Bool) : CopiesKept s (leaveArray t a f) :=
  h.of_rgns (ite_cases (q := fun u : State => u.rgns = t.rgns) (fun _ => rfl) (fun _ => rfl))

theorem dropSubs (h : CopiesKept s t) (f : SubTile → Bool) : CopiesKept s (dropSubs t f) := by
  have h0 : CopiesKept s (freeEntries t f) := h.tmap _ fun _ _ => rfl
  have h1 := h0.foldl (allSubs t) (f := fun u x => if f x then Machine.freeSlot u x.ctx x.slot else u) fun u x hu =>
    ite_cases (q := CopiesKept s) (fun _ => hu.freeSlot _ _) (fun _ => hu)
  exact (h1.foldl _ fun u e hu => hu.leaveArray e.1 f).tmap _ fun _ _ => rfl

theorem endDesc (h : CopiesKept s t) (c : Nat) (ring : W32) (st : Status) (v : W64) : CopiesKept s (endDesc t c ring st v) :=
  (h.dropSubs (ofDesc c ring)).of_rgns rfl

theorem failOperands (h : CopiesKept s t) (r : Nat) : CopiesKept s (failOperands t r) :=
  h.foldl _ fun _ _ hu => hu.foldl _ fun _ _ hv => hv.endDesc _ _ _ _

theorem failAtomics (h : CopiesKept s t) (reqs : List BankReq) : CopiesKept s (failAtomics t reqs) := by
  refine h.foldl _ fun u q hu => ?_
  split
  · exact hu.of_rgns rfl
  · exact hu

theorem dropRequests (h : CopiesKept s t) (reqs : List BankReq) : CopiesKept s (dropRequests t reqs) := by
  refine h.foldl _ fun u q hu => ?_
  have answered {v : State} (hv : CopiesKept s v) : CopiesKept s (match q.owner with
      | .host p => setHp v p { getHp v p with resp := .err, wdata := [] }
      | _ => v) := by
    split
    · exact hv.of_rgns rfl
    · exact hv
  cases q.frees with
  | none => exact answered hu
  | some f => exact answered (hu.freeSlot _ _)

theorem dropSpeculation (h : CopiesKept s t) (a : Nat) : CopiesKept s (dropSpeculation t a) := by
  refine h.of_rgns ?_
  show (ite _ _ _ : State).rgns = _
  split <;> exact ite_cases (q := fun u : State => u.rgns = t.rgns) (fun _ => rfl) (fun _ => rfl)

theorem orphanSubs (h : CopiesKept s t) (r : Nat) : CopiesKept s (orphanSubs t r) :=
  CopiesKept.tmap (CopiesKept.foldl (CopiesKept.foldl h _ fun _ _ hu => CopiesKept.setRgn hu _ _ (by rfl)) _
    fun _ _ hu => hu.leaveArray _ _) _ fun _ _ => by rfl

theorem moveRemote (h : CopiesKept s t) (es : Tbl JEntry) (dest : Nat) : CopiesKept s (moveRemote t es dest) := by
  refine h.foldl _ fun u e hu => ?_
  split
  · exact hu
  · exact hu.setRgn _ _ rfl

/-- The records move only where another region takes them. -/
theorem moveTo (h : CopiesKept s t) (es : Tbl JEntry) (o : Option Nat) : CopiesKept s (match o with
    | none => t
    | some dest => Machine.moveRemote t es dest) := by
  cases o with
  | none => exact h
  | some dest => exact h.moveRemote es dest

theorem foldl_loseAtomic (h : CopiesKept s t) (l : List PortReq) : CopiesKept s (l.foldl loseAtomic t) := by
  obtain ⟨cs, hcs⟩ := foldl_loseAtomic_rest l t
  exact h.of_rgns (by rw [hcs])

theorem emptyPort (h : CopiesKept s t) (q : Nat) : CopiesKept s (emptyPort t q) := by
  have h1 := h.foldl_loseAtomic (((getMp t q).rdOut ++ (getMp t q).wrOut).map (·.2))
  unfold Machine.emptyPort
  dsimp only
  split
  · exact h1.of_rgns rfl
  · exact h1.of_rgns rfl

theorem leavePort (h : CopiesKept s t) (dest q : Nat) : CopiesKept s (leavePort t dest q) := by
  have h1 := h.foldl_loseAtomic (((getMp t q).rdOut ++ (getMp t q).wrOut).map (·.2))
  refine CopiesKept.foldl (h1.of_rgns (by rfl)) _ fun u x hu => ?_
  split
  · exact hu
  · exact hu.of_rgns rfl

theorem leavePorts (h : CopiesKept s t) (r : Nat) : CopiesKept s (leavePorts t r) := by
  unfold Machine.leavePorts
  split
  · exact h.foldl _ fun u x hu => hu.emptyPort x
  · exact h.foldl _ fun u x hu => hu.leavePort _ x

end CopiesKept

/-- A region that leaves LIVE has no residency copy and watches no line (R321). -/
theorem copiesOf_leaveLive (s : State) (r : Nat) : copiesOf (getRgn (leaveLive s r) r) = ([], [], (getRgn s r).queued) := by
  have h : CopiesKept (setRgn s r { getRgn s r with
      resid := [], watch := [], bankReqs := (getRgn s r).bankReqs.filter (fun q => !askedRemote s q) }) (leaveLive s r) :=
    CopiesKept.failOperands (CopiesKept.of_rgns (((CopiesKept.refl _).failAtomics _).dropRequests _) (by rfl)) r
  rw [h r, getRgn_setRgn_if, if_pos rfl]
  rfl

/-- A region that leaves service has no residency copy; its activities wait no longer where it is fenced (R379). -/
theorem copiesOf_emptyRegion (s : State) (r : Nat) (fenced : Bool) : (getRgn (emptyRegion s r fenced) r).resid = [] ∧
    (fenced = true → (getRgn (emptyRegion s r fenced) r).queued = []) := by
  have h : ∃ u x, x.resid = [] ∧ (fenced = true → x.queued = []) ∧ CopiesKept (setRgn u r x) (emptyRegion s r fenced) := by
    refine
    ⟨_, _, ?_, ?_, CopiesKept.of_rgns (CopiesKept.leavePorts (CopiesKept.dropRequests
      (CopiesKept.moveTo (CopiesKept.orphanSubs (CopiesKept.refl _) _) _ _) _) _) (by rfl)⟩
    · rfl
    · rintro rfl
      rfl
  obtain ⟨u, x, hresid, hqueued, hkept⟩ := h
  have hr := hkept r
  rw [getRgn_setRgn_if, if_pos rfl] at hr
  exact ⟨(congrArg Prod.fst hr).trans hresid, fun h => (congrArg (fun y => y.2.2) hr).trans (hqueued h)⟩

theorem resid_emptyRegion (s : State) (r : Nat) (fenced : Bool) : (getRgn (emptyRegion s r fenced) r).resid = [] :=
  (copiesOf_emptyRegion s r fenced).1

/-! ### The last LIVE port of a region (R322) -/

/-- The unit is no port, or its region is not LIVE, or another port of the region is LIVE. -/
def PortLeft (s : State) (k : UnitKind) (n : Nat) : Prop :=
  k ≠ .port ∨ unitSt s .region (n / 4) ≠ .live ∨ ∃ j, j < 4 ∧ n / 4 * 4 + j ≠ n ∧ unitSt s .port (n / 4 * 4 + j) = .live

/-- No other unit than the one of kind `k` and number `n` is in another state. -/
def OthersKept (s t : State) (k : UnitKind) (n : Nat) : Prop := ∀ k' m, ¬(k' = k ∧ m = n) → unitSt t k' m = unitSt s k' m

theorem PortLeft.of_others {s t : State} {k : UnitKind} {n : Nat} (h : PortLeft s k n) (ho : OthersKept s t k n) : PortLeft t k n := by
  rcases h with h | h | ⟨j, hj, hne, hlive⟩
  · exact .inl h
  · by_cases hk : k = .port
    · refine .inr (.inl ?_)
      rwa [ho .region (n / 4) (by rw [hk]; rintro ⟨h, -⟩; exact UnitKind.noConfusion h)]
    · exact .inl hk
  · by_cases hk : k = .port
    · refine .inr (.inr ⟨j, hj, hne, ?_⟩)
      rwa [ho .port _ (fun e => hne e.2)]
    · exact .inl hk

theorem portsLeft_of_left {s : State} {k : UnitKind} {n : Nat} (h : PortLeft s k n) : portsLeft s k n = s := by
  refine if_neg fun hc => ?_
  simp only [Bool.and_eq_true, beq_iff_eq, Bool.not_eq_true'] at hc
  obtain ⟨⟨hk, hlive⟩, hnone⟩ := hc
  rcases h with h | h | ⟨j, hj, -, hport⟩
  · exact h hk
  · exact h (eq_of_beq hlive)
  · have hmem : j ∈ [0, 1, 2, 3] := by
      simp only [List.mem_cons, List.not_mem_nil, or_false]
      omega
    exact List.any_eq_false.mp hnone j hmem (beq_iff_eq.mpr hport)

/-- With the last LIVE port gone the region is fenced, and the port with it. -/
theorem portsLeft_of_last {s : State} {n : Nat} (hlive : unitSt s .region (n / 4) = .live)
    (hnone : ∀ j, j < 4 → unitSt s .port (n / 4 * 4 + j) ≠ .live) :
    portsLeft s .port n = logFault (takeOut s .region (n / 4) .fenced) (unitEntry s clsRegion 0x20 .region (n / 4)) := by
  refine if_pos ?_
  simp only [beq_self_eq_true, Bool.true_and, Bool.and_eq_true, Bool.not_eq_true', List.any_eq_false]
  refine ⟨beq_iff_eq.mpr hlive, fun j hj => ?_⟩
  have hlt : j < 4 := by
    simp only [List.mem_cons, List.not_mem_nil, or_false] at hj
    omega
  exact fun h => hnone j hlt (eq_of_beq h)

/-- A region that is fenced fences each port that is there. -/
theorem unitSt_takeOut_region_port {s : State} {r n : Nat} (hn : n / 4 = r) (h : unitSt s .port n ≠ .absent) :
    unitSt (takeOut s .region r .fenced) .port n = .fenced := by
  show unitSt (putRegion (emptyRegion s r _) r .fenced) .port n = _
  have hmem : (UnitKind.port, n) ∈ unitsOf r := by
    simp only [unitsOf, List.mem_cons, Prod.mk.injEq, List.not_mem_nil, or_false, reduceCtorEq, false_and, false_or, true_and]
    omega
  rw [unitSt_putRegion, if_neg (by rintro ⟨h, -⟩; exact UnitKind.noConfusion h), if_pos hmem, ((WorkOnly.refl s).emptyRegion r _).unitSt]
  cases hst : unitSt s .port n
  case absent => exact absurd hst h
  all_goals rfl

/-! ### One unit's request (R315, R317, R318, R323) -/

theorem takeOut_others {s : State} {k : UnitKind} {n : Nat} (st : UState) (hk : k ≠ .region) : OthersKept s (takeOut s k n st) k n := by
  intro k' m hne
  unfold takeOut
  cases k with
  | array =>
    have h : unitSt (putUnit (emptyArray s n) .array n st) k' m = unitSt s k' m := by
      rw [unitSt_putUnit, if_neg hne, ((WorkOnly.refl s).emptyArray n).unitSt]
    exact ite_cases (q := fun x => unitSt x k' m = unitSt s k' m) (fun _ => h) (fun _ => h)
  | side =>
    show unitSt (putUnit (emptySide s n) .side n st) k' m = _
    rw [unitSt_putUnit, if_neg hne]
    rfl
  | port =>
    show unitSt (putUnit (emptyPort s n) .port n st) k' m = _
    rw [unitSt_putUnit, if_neg hne, ((WorkOnly.refl s).emptyPort n).unitSt]
  | region => exact absurd rfl hk

end Sys2Proof.Machine

end

section
/-!
PROOFS. Unit requests of the host that holds the token (R315 to R323), assembled from what each does to its unit.
-/

namespace Sys2Proof.Machine

/-! ### A request on the woken machine -/

theorem settled_wake {s : State} (h : Settled s) : Settled (wake s) := by
  unfold Settled
  rw [wake_boot]
  exact h

theorem wake_cfg (s : State) : (wake s).cfg = s.cfg := by rw [wake_rest]
theorem wake_rgns (s : State) : (wake s).rgns = s.rgns := by rw [wake_rest]
theorem wake_flog (s : State) : (wake s).flog = s.flog := by rw [wake_rest]
theorem wake_ctxs (s : State) : (wake s).ctxs = s.ctxs := by rw [wake_rest]
theorem getRgn_wake (s : State) (r : Nat) : getRgn (wake s) r = getRgn s r := by rw [getRgn, wake_rgns, getRgn]

/-- The host's command for a unit request. -/
def unitInstr (p : HostId) (u : UnitSel) : UnitAction → Instr
  | .disable => .unitDisable p u
  | .forceDisable => .unitForceDisable p u
  | .enable => .unitEnable p u
  | .fence => .unitFence p u

theorem exec_unitInstr {s t : State} {p : HostId} {u : UnitSel} (act : UnitAction) (hans : hostAnswers s p.val = true)
    (htok : s.mnt.holder = 1) (hsettled : Settled s) (ht : unitAsk (wake s) .host u.kind u.unit.val act = t)
    (hcontained : Contained (wake s) t) : exec (unitInstr p u act) s = .next (respond t p.val .ok) := by
  have hrun : exec (unitInstr p u act) s =
      .next (tokenWrite s p.val (fun t => warmNext (unitAsk t .host u.kind u.unit.val act))) := by
    cases act <;> rfl
  rw [hrun, tokenWrite_of_token _ hans htok, ht, warmNext_of_settled (settled_wake hsettled) (by rw [hcontained.boot]) (by rw [hcontained.boot])]

/-! ### Requests that are ignored -/

/-- A unit that exists on this configuration (R315). -/
def Here (s : State) (k : UnitKind) (n : Nat) : Prop := unitSt s k n ≠ .absent ∧ regionOf k n < s.cfg.regions

theorem unitReq_of_not_here {s : State} {k : UnitKind} {n : Nat} (h : ¬Here s k n) (act : UnitAction) :
    unitReq s k n act = logIgnored s k n := by
  refine if_pos ?_
  rw [Bool.or_eq_true, beq_iff_eq, Bool.not_eq_true', configured, decide_eq_false_iff_not]
  exact Classical.byContradiction fun hc => h ⟨fun e => hc (.inl e), Classical.byContradiction fun e => hc (.inr e)⟩

theorem unitReq_of_here {s : State} {k : UnitKind} {n : Nat} (h : Here s k n) (act : UnitAction) : unitReq s k n act = match act with
    | .disable => disableUnit s k n
    | .forceDisable => forceDisableUnit s k n
    | .enable => enableUnit s k n
    | .fence => if unitSt s k n == .fenced then s else fenceUnit s k n := by
  refine if_neg ?_
  rw [Bool.or_eq_true, beq_iff_eq, Bool.not_eq_true', configured, decide_eq_false_iff_not]
  exact fun hc => hc.elim h.1 (fun e => e h.2)

/-- Only an array that has just moved to TESTING asks its Maintenance Arbiter for its test. -/
theorem unitAsk_eq_unitReq {s : State} {m : Master} {k : UnitKind} {n : Nat} {act : UnitAction}
    (h : act ≠ .enable ∨ k ≠ .array ∨ unitSt (unitReq s k n act) k n ≠ .testing) : unitAsk s m k n act = unitReq s k n act := by
  refine if_neg fun hc => ?_
  simp only [Bool.and_eq_true, beq_iff_eq] at hc
  obtain ⟨⟨⟨hact, hk⟩, -⟩, ht⟩ := hc
  rcases h with h | h | h
  · exact h hact
  · exact h hk
  · exact h ht

theorem unitSt_logIgnored (s : State) (k k' : UnitKind) (n m : Nat) : unitSt (logIgnored s k n) k' m = unitSt s k' m := unitSt_logFault ..

theorem unitAsk_of_ignored {s : State} {m : Master} {k : UnitKind} {n : Nat} {act : UnitAction} (h : unitReq s k n act = logIgnored s k n) :
    unitAsk s m k n act = logIgnored s k n := by
  by_cases ht : unitSt s k n = .testing
  · have hbusy : (unitSt s k n != .testing) = false := by rw [ht]; rfl
    rw [← h]
    refine if_neg ?_
    rw [hbusy, Bool.and_false, Bool.false_and]
    exact Bool.false_ne_true
  · rw [unitAsk_eq_unitReq (.inr (.inr (by rwa [h, unitSt_logIgnored]))), h]

/-! ### Disable (R317) -/

theorem isLive_of_eq {s : State} {k : UnitKind} {n : Nat} (h : unitSt s k n = .live) : isLive s k n = true := by
  rw [isLive, h]
  rfl

theorem isLive_of_ne {s : State} {k : UnitKind} {n : Nat} (h : unitSt s k n ≠ .live) : isLive s k n = false := beq_false_of_ne h

theorem disableUnit_of_not_live {s : State} {k : UnitKind} {n : Nat} (h : unitSt s k n ≠ .live) : disableUnit s k n = s :=
  if_pos (by rw [isLive_of_ne h]; rfl)

/-- The request goes on where the unit is LIVE. -/
theorem not_isLive_of_eq {s : State} {k : UnitKind} {n : Nat} (h : unitSt s k n = .live) : ¬(!isLive s k n) = true := by
  rw [isLive_of_eq h]
  decide

theorem putUnit_others (s : State) (k : UnitKind) (n : Nat) (st : UState) : OthersKept s (putUnit s k n st) k n := by
  intro k' m hne
  rw [unitSt_putUnit, if_neg hne]

theorem dropSpeculation_rest (s : State) (a : Nat) :
    dropSpeculation s a = { s with arrs := (dropSpeculation s a).arrs, tlm := (dropSpeculation s a).tlm } := by
  unfold dropSpeculation
  dsimp only
  split <;> split <;> rfl

/-- A LIVE unit other than a region drains, and Gambit's work on it is dropped. -/
theorem disableUnit_of_live {s : State} {k : UnitKind} {n : Nat} (h : unitSt s k n = .live) (hk : k ≠ .region) (hleft : PortLeft s k n) :
    unitSt (disableUnit s k n) k n = .draining ∧ OthersKept s (disableUnit s k n) k n ∧
    disableUnit s k n = { s with units := (disableUnit s k n).units, arrs := (disableUnit s k n).arrs, tlm := (disableUnit s k n).tlm } := by
  have hports := portsLeft_of_left (hleft.of_others (putUnit_others s k n .draining))
  cases k with
  | array =>
    have harr : disableUnit s .array n = putUnit (dropSpeculation s n) .array n .draining := if_neg (not_isLive_of_eq h)
    rw [harr, dropSpeculation_rest]
    exact ⟨unitSt_putUnit_self .., putUnit_others _ .array n .draining, rfl⟩
  | side =>
    have hside : disableUnit s .side n = portsLeft (putUnit s .side n .draining) .side n := if_neg (not_isLive_of_eq h)
    rw [hside, hports]
    exact ⟨unitSt_putUnit_self .., putUnit_others s _ n .draining, rfl⟩
  | port =>
    have hport : disableUnit s .port n = portsLeft (putUnit s .port n .draining) .port n := if_neg (not_isLive_of_eq h)
    rw [hport, hports]
    exact ⟨unitSt_putUnit_self .., putUnit_others s _ n .draining, rfl⟩
  | region => exact absurd rfl hk

/-- A LIVE region drains with its units; its residency copies are gone and no line of it is watched any more (R321). -/
theorem disableUnit_region {s : State} {n : Nat} (h : unitSt s .region n = .live) :
    disableUnit s .region n = putRegion ((fourOf n).foldl dropSpeculation (leaveLive s n)) n .draining :=
  if_neg (not_isLive_of_eq h)

theorem leaveLive_drop_workOnly (s : State) (n : Nat) : WorkOnly s ((fourOf n).foldl dropSpeculation (leaveLive s n)) :=
  ((WorkOnly.refl s).leaveLive n).foldl _ fun _ a hu => hu.dropSpeculation a

theorem foldl_followUnit_rgns (st : UState) (l : List (UnitKind × Nat)) (s : State) : (l.foldl (followUnit st) s).rgns = s.rgns := by
  induction l generalizing s with
  | nil => rfl
  | cons u l ih => rw [List.foldl_cons, ih, followUnit_rest]

theorem getRgn_putRegion (s : State) (r n : Nat) (st : UState) : getRgn (putRegion s r st) n = getRgn s n := by
  rw [putRegion_eq, getRgn, foldl_followUnit_rgns]
  rfl

theorem copiesOf_disableUnit_region {s : State} {n : Nat} (h : unitSt s .region n = .live) :
    copiesOf (getRgn (disableUnit s .region n) n) = ([], [], (getRgn s n).queued) := by
  rw [disableUnit_region h, getRgn_putRegion, ← copiesOf_leaveLive s n]
  exact (CopiesKept.refl (leaveLive s n)).foldl (fourOf n) (fun u a hu => hu.dropSpeculation a) n

/-- The units of a region are no regions. -/
theorem unitsOf_kind {r : Nat} {x : UnitKind × Nat} (h : x ∈ unitsOf r) : ¬(x.1 = .region ∧ x.2 = r) := by
  simp only [unitsOf, List.mem_cons, List.not_mem_nil, or_false] at h
  rcases h with h | h | h | h | h | h | h | h | h <;> simp [h]

theorem unitSt_putRegion_mem {s : State} {r : Nat} {st : UState} {x : UnitKind × Nat} (h : x ∈ unitsOf r) :
    unitSt (putRegion s r st) x.1 x.2 = followRegion st (unitSt s x.1 x.2) := by
  rw [unitSt_putRegion, if_neg (unitsOf_kind h), if_pos h]

theorem unitSt_putRegion_self (s : State) (r : Nat) (st : UState) : unitSt (putRegion s r st) .region r = st := by
  rw [unitSt_putRegion, if_pos ⟨rfl, rfl⟩]

/-! ### Disable with force, and fence (R318, R319) -/

theorem forceDisableUnit_of_in {s : State} {k : UnitKind} {n : Nat} (h : unitSt s k n ≠ .fenced) (h' : unitSt s k n ≠ .disabled) :
    forceDisableUnit s k n = portsLeft (logFault (takeOut s k n .disabled) (unitEntry s clsCorrectable 0x22 k n)) k n := by
  unfold forceDisableUnit
  cases hst : unitSt s k n <;> simp_all

/-- A unit that leaves service at once, with its entry. -/
def outOfService (s : State) (k : UnitKind) (n : Nat) (st : UState) (e : FlogEntry) : State :=
  portsLeft (logFault (takeOut s k n st) e) k n

theorem outOfService_contained (s : State) (k : UnitKind) (n : Nat) (st : UState) (e : FlogEntry) :
    Contained s (outOfService s k n st e) :=
  ((takeOut_contained s k n st).trans (.of_logFault ..)).trans (portsLeft_contained ..)

theorem logTakeOut_others {s : State} {k : UnitKind} {n : Nat} (st : UState) (e : FlogEntry) (hk : k ≠ .region) :
    OthersKept s (logFault (takeOut s k n st) e) k n := fun k' m hne => by
  rw [unitSt_logFault, takeOut_others st hk k' m hne]

/-- With another port left, or for another unit, nothing follows. -/
theorem outOfService_of_left {s : State} {k : UnitKind} {n : Nat} (st : UState) (e : FlogEntry) (h : PortLeft s k n) :
    outOfService s k n st e = logFault (takeOut s k n st) e := by
  by_cases hk : k = .region
  · subst hk
    exact portsLeft_of_left (.inl (by decide))
  · exact portsLeft_of_left (h.of_others (logTakeOut_others st e hk))

/-- The last LIVE port of a LIVE region takes its region with it (R322). -/
theorem unitSt_portsLeft_of_last {s t : State} {n : Nat} (hleft : ¬PortLeft s .port n) (ho : OthersKept s t .port n)
    (hn : unitSt t .port n ≠ .live) (hin : unitSt t .port n ≠ .absent) :
    unitSt (portsLeft t .port n) .region (n / 4) = .fenced ∧ unitSt (portsLeft t .port n) .port n = .fenced := by
  have hrgn : unitSt t .region (n / 4) = .live := by
    rw [ho .region (n / 4) (by rintro ⟨h, -⟩; exact UnitKind.noConfusion h)]
    exact Classical.byContradiction fun e => hleft (.inr (.inl e))
  have hnone : ∀ j, j < 4 → unitSt t .port (n / 4 * 4 + j) ≠ .live := by
    intro j hj
    by_cases he : n / 4 * 4 + j = n
    · rwa [he]
    · rw [ho .port _ (fun e => he e.2)]
      exact fun e => hleft (.inr (.inr ⟨j, hj, he, e⟩))
  rw [portsLeft_of_last hrgn hnone, unitSt_logFault, unitSt_logFault]
  exact ⟨unitSt_takeOut_self .., unitSt_takeOut_region_port rfl hin⟩

theorem unitSt_outOfService_of_last {s : State} {n : Nat} {st : UState} (e : FlogEntry) (hleft : ¬PortLeft s .port n)
    (hst : st ≠ .live ∧ st ≠ .absent) : unitSt (outOfService s .port n st e) .region (n / 4) = .fenced ∧
      unitSt (outOfService s .port n st e) .port n = .fenced := by
  refine unitSt_portsLeft_of_last hleft (logTakeOut_others st e (by decide)) ?_ ?_ <;> rw [unitSt_logFault, unitSt_takeOut_self]
  · exact hst.1
  · exact hst.2

/-! ### An array that leaves service (R54, R306) -/

theorem bound_withBound (x : ArrayS) (l : List SubTile) : (withBound x l).bound = l := by
  unfold withBound
  dsimp only
  split <;> rfl

theorem bound_dropBound (f : SubTile → Bool) (x : ArrayS) : (dropBound f x).bound = x.bound.filter (fun t => !f t) := bound_withBound ..

theorem bound_leaveArray_self (s : State) (a : Nat) : (getArr (leaveArray s a (fun _ => true)) a).bound = [] := by
  have h : (getArr (setArr s a (dropBound (fun _ => true) (getArr s a))) a).bound = [] := by
    rw [getArr_setArr_if, if_pos rfl, bound_dropBound]
    simp
  refine ite_cases (q := fun u => (getArr u a).bound = []) (fun _ => h) (fun _ => ?_)
  rw [getArr_setArr_if, if_neg (by omega)]
  exact h

theorem leaveArray_rgns (s : State) (a : Nat) (f : SubTile → Bool) : (leaveArray s a f).rgns = s.rgns :=
  ite_cases (q := fun u : State => u.rgns = s.rgns) (fun _ => rfl) (fun _ => rfl)

theorem leaveArray_ctxs (s : State) (a : Nat) (f : SubTile → Bool) : (leaveArray s a f).ctxs = s.ctxs :=
  ite_cases (q := fun u : State => u.ctxs = s.ctxs) (fun _ => rfl) (fun _ => rfl)

theorem getArr_dropSpeculation_bound (s : State) (a b : Nat) : (getArr (dropSpeculation s a) b).bound = (getArr s b).bound := by
  have hset (u : State) (hu : u.arrs = s.arrs) : (getArr (setArr u a { getArr u a with
      spec := none, loads := (getArr s a).loads.filter (fun l => !l.preload) }) b).bound = (getArr s b).bound := by
    rw [getArr_setArr_if]
    split
    · rw [getArr, hu, ← getArr, ‹b = a›]
    · rw [getArr, hu, getArr]
  refine hset _ ?_
  split <;> split <;> rfl

/-- The sub-tiles of the array, and of the pair whose follower it is, wait to be bound again. -/
theorem emptyArray_spec (s : State) (a : Nat) : (getArr (emptyArray s a) a).bound = [] ∧ (emptyArray s a).ctxs = s.ctxs ∧
    (getRgn (emptyArray s a) (a / 4)).replayQ.length =
      (getRgn s (a / 4)).replayQ.length + (getArr s a).bound.length + (followed s a).length := by
  have hfollowed : followed (dropSpeculation s a) a = followed s a := by
    unfold followed
    rw [getArr_dropSpeculation_bound]
  have hrgns : (emptyArray s a).rgns = (setRgn (dropSpeculation s a) (a / 4) { getRgn (dropSpeculation s a) (a / 4) with
      replayQ := (getRgn (dropSpeculation s a) (a / 4)).replayQ ++
        ((getArr (dropSpeculation s a) a).bound ++ followed (dropSpeculation s a) a).map (fun t => leaveFlags { t with array := none }) }).rgns :=
    (leaveArray_rgns ..).trans (ite_cases (q := fun u : State => u.rgns = _) (fun _ => rfl) (fun _ => leaveArray_rgns ..))
  have hctxs : (emptyArray s a).ctxs = (dropSpeculation s a).ctxs :=
    (leaveArray_ctxs ..).trans (ite_cases (q := fun u : State => u.ctxs = _) (fun _ => rfl) (fun _ => leaveArray_ctxs ..))
  refine ⟨?_, by rw [hctxs, dropSpeculation_rest], ?_⟩
  · show (getArr (setArr _ a _) a).bound = []
    rw [getArr_setArr_if, if_pos rfl]
    exact bound_leaveArray_self ..
  · rw [getRgn, hrgns, ← getRgn, getRgn_setRgn_if, if_pos rfl]
    simp only [List.length_append, List.length_map, hfollowed, getArr_dropSpeculation_bound]
    rw [dropSpeculation_rest, Nat.add_assoc]
    rfl

end Sys2Proof.Machine

end

section
/-!
PROOFS. Enabling units (R323), requests to the Maintenance Arbiters (R377 to R379), and the unit requests settled.
-/

namespace Sys2Proof.Machine

/-! ### A Maintenance Arbiter takes a request (R379) -/

/-- A region takes the request and nothing runs or waits there. -/
theorem requestAct_of_free {s : State} {m : Master} {r : Nat} {a : MaintAct} (hrgn : maintRegion s r = true) (hfits : actFits r a = true)
    (hrunning : (getRgn s r).running = []) (hqueued : (getRgn s r).queued = []) : requestAct s m r a = (startAct s r a, false) := by
  have hbefore : queuedBefore s.mnt.mainDown (getRgn s r).queued m = [] := by
    rw [hqueued, queuedBefore]
    split <;> rfl
  simp only [requestAct, hrgn, hfits, hrunning, hqueued] at hbefore ⊢
  rw [hbefore]
  rfl

/-- The self-test of an array that is TESTING already only occupies its region. -/
theorem startAct_selfTest_of_testing {s : State} {r : Nat} {a : ArrId} (h : unitSt s .array a.val = .testing) :
    startAct s r { code := 1, array := a } =
      setRgn s r { getRgn s r with running := (getRgn s r).running ++ [{ code := 1, array := a }] } := by
  show startSelfTest (setRgn s r _) a.val = _
  have hst : unitSt (setRgn s r { getRgn s r with running := (getRgn s r).running ++ [{ code := 1, array := a }] }) .array a.val = .testing := h
  rw [startSelfTest, hst]

theorem requestAct_selfTest_rest {s : State} {m : Master} {r : Nat} {a : ArrId} (h : unitSt s .array a.val = .testing) :
    (requestAct s m r { code := 1, array := a }).1 = { s with rgns := (requestAct s m r { code := 1, array := a }).1.rgns } := by
  unfold requestAct
  rw [startAct_selfTest_of_testing h]
  dsimp only
  split
  · rfl
  · split
    · rfl
    · split
      · rfl
      · split <;> rfl

/-! ### Enable (R323) -/

theorem enableUnit_region {s : State} {n : Nat} (h : unitSt s .region n = .fenced ∨ unitSt s .region n = .disabled) :
    enableUnit s .region n = putRegion (dropOwned s .region n) n .testing :=
  if_pos (by rcases h with h | h <;> rw [h] <;> decide)

theorem enableUnit_under_other {s : State} {k : UnitKind} {n : Nat} (hk : k ≠ .region) (h : unitSt s .region (regionOf k n) ≠ .live) :
    enableUnit s k n = logIgnored s k n := by
  have hne : (k == .region) = false := beq_false_of_ne hk
  simp only [enableUnit, hne, isLive_of_ne h]
  rfl

theorem enableUnit_of_out {s : State} {k : UnitKind} {n : Nat} (hk : k ≠ .region) (hst : unitSt s k n = .fenced ∨ unitSt s k n = .disabled)
    (h : unitSt s .region (regionOf k n) = .live) : enableUnit s k n = putUnit (dropOwned s k n) k n .testing := by
  have hne : (k == .region) = false := beq_false_of_ne hk
  have hout : (unitSt s k n == .fenced || unitSt s k n == .disabled) = true := by
    rcases hst with hst | hst <;> rw [hst] <;> decide
  simp only [enableUnit, hne, isLive_of_eq h, hout]
  rfl

/-- An enabled array is in no STREAM ownership any more (R370). -/
theorem getLsbD_dropOwned_array (s : State) {n : Nat} (hn : n < 16) : (dropOwned s .array n).mnt.streamArrays.getLsbD n = false := by
  show (s.mnt.streamArrays &&& ~~~BitVec.ofNat 16 (1 <<< n)).getLsbD n = false
  rw [BitVec.getLsbD_and, BitVec.getLsbD_not, getLsbD_ofNat_bit hn]
  simp

theorem unitAsk_enable_array {s : State} {m : Master} {a : ArrId} (hreq : unitReq s .array a.val .enable = putUnit (dropOwned s .array a.val) .array a.val .testing)
    (hst : unitSt s .array a.val ≠ .testing) : unitAsk s m .array a.val .enable =
      (requestAct (putUnit (dropOwned s .array a.val) .array a.val .testing) m (a.val / 4) { code := 1, array := a }).1 := by
  have hself : unitSt (putUnit (dropOwned s .array a.val) .array a.val .testing) .array a.val = .testing := unitSt_putUnit_self ..
  have harr : Fin.ofNat 16 a.val = a := Fin.ext (Nat.mod_eq_of_lt a.isLt)
  have hne : (unitSt s .array a.val != .testing) = true := bne_iff_ne.mpr hst
  rw [← harr] at hself
  simp only [unitAsk, hreq, hne, harr] at hself ⊢
  rw [hself]
  rfl

/-- An enabled array is TESTING, out of STREAM ownership, and its test is an activity of its region. -/
theorem unitAsk_enable_array_spec {s : State} {m : Master} {a : ArrId}
    (hreq : unitReq s .array a.val .enable = putUnit (dropOwned s .array a.val) .array a.val .testing)
    (hst : unitSt s .array a.val ≠ .testing) :
    unitAsk s m .array a.val .enable = { s with
      units := (unitAsk s m .array a.val .enable).units, mnt := (unitAsk s m .array a.val .enable).mnt
      rgns := (unitAsk s m .array a.val .enable).rgns } ∧
    unitSt (unitAsk s m .array a.val .enable) .array a.val = .testing ∧
    OthersKept s (unitAsk s m .array a.val .enable) .array a.val ∧
    (unitAsk s m .array a.val .enable).mnt.streamArrays.getLsbD a.val = false ∧
    (maintRegion s (a.val / 4) = true → (getRgn s (a.val / 4)).running = [] → (getRgn s (a.val / 4)).queued = [] →
      (getRgn (unitAsk s m .array a.val .enable) (a.val / 4)).running = [{ code := 1, array := a }]) := by
  have htesting : unitSt (putUnit (dropOwned s .array a.val) .array a.val .testing) .array a.val = .testing := unitSt_putUnit_self ..
  have hrest := requestAct_selfTest_rest (m := m) (r := a.val / 4) htesting
  rw [unitAsk_enable_array hreq hst, hrest]
  refine ⟨rfl, htesting, putUnit_others (dropOwned s .array a.val) .array a.val .testing, getLsbD_dropOwned_array s a.isLt,
    fun hrgn hrunning hqueued => ?_⟩
  have hfits : actFits (a.val / 4) { code := 1, array := a } = true := by simp [actFits]
  have hrgn' : maintRegion (putUnit (dropOwned s .array a.val) .array a.val .testing) (a.val / 4) = true := by
    rw [maintRegion, unitSt_putUnit, if_neg (by rintro ⟨h, -⟩; exact UnitKind.noConfusion h)]
    exact hrgn
  rw [← hrest, requestAct_of_free hrgn' hfits hrunning hqueued, startAct_selfTest_of_testing htesting, getRgn_setRgn_if, if_pos rfl]
  show (getRgn s (a.val / 4)).running ++ _ = _
  rw [hrunning]
  rfl

/-! ### The word of a request, for a unit that exists -/

theorem unitAsk_disable {s : State} {m : Master} {k : UnitKind} {n : Nat} (h : Here s k n) : unitAsk s m k n .disable = disableUnit s k n := by
  rw [unitAsk_eq_unitReq (.inl (by decide)), unitReq_of_here h]

theorem unitAsk_forceDisable {s : State} {m : Master} {k : UnitKind} {n : Nat} (h : Here s k n) :
    unitAsk s m k n .forceDisable = forceDisableUnit s k n := by
  rw [unitAsk_eq_unitReq (.inl (by decide)), unitReq_of_here h]

theorem unitAsk_fence {s : State} {m : Master} {k : UnitKind} {n : Nat} (h : Here s k n) (hst : unitSt s k n ≠ .fenced) :
    unitAsk s m k n .fence = fenceUnit s k n := by
  rw [unitAsk_eq_unitReq (.inl (by decide)), unitReq_of_here h]
  exact if_neg (by rw [beq_false_of_ne hst]; decide)

theorem logIgnored_wake (s : State) (k : UnitKind) (n : Nat) :
    logIgnored (wake s) k n = logFault (wake s) (unitEntry s 1 0x24 k n) := by
  have he : unitEntry (wake s) clsCorrectable 0x24 k n = unitEntry s 1 0x24 k n := by
    rw [wake_rest]
    rfl
  rw [logIgnored, he]

theorem getArr_logFault (s : State) (e : FlogEntry) (a : Nat) : getArr (logFault s e) a = getArr s a := by
  rw [(logFault_logOnly s e).rest]
  rfl

theorem getRgn_logFault (s : State) (e : FlogEntry) (r : Nat) : getRgn (logFault s e) r = getRgn s r := by
  rw [(logFault_logOnly s e).rest]
  rfl

theorem followed_wake (s : State) (a : Nat) : followed (wake s) a = followed s a := by
  simp only [followed, getArr_wake]

theorem fenceUnit_array (s : State) (n : Nat) :
    fenceUnit s .array n = logFault (takeOut s .array n .fenced) (unitEntry s 3 0x20 .array n) :=
  portsLeft_of_left (.inl (by decide))

theorem getArr_endSelfTest (s : State) (n a : Nat) : getArr (endSelfTest s n) a = getArr s a := rfl

theorem endSelfTest_ctxs (s : State) (n : Nat) : (endSelfTest s n).ctxs = s.ctxs := rfl

theorem replayQ_endSelfTest (s : State) (n r : Nat) : (getRgn (endSelfTest s n) r).replayQ = (getRgn s r).replayQ := by
  rw [endSelfTest, getRgn_setRgn_if]
  split
  · rw [‹r = n / 4›]
  · rfl

/-- An array out of service: what was bound to it waits to be bound again. -/
theorem takeOut_array_spec (s : State) (n : Nat) (st : UState) : (getArr (takeOut s .array n st) n).bound = [] ∧
    (takeOut s .array n st).ctxs = s.ctxs ∧ (getRgn (takeOut s .array n st) (n / 4)).replayQ.length =
      (getRgn s (n / 4)).replayQ.length + (getArr s n).bound.length + (followed s n).length := by
  obtain ⟨hbound, hctxs, hreplay⟩ := emptyArray_spec s n
  have hput : (getArr (putUnit (emptyArray s n) .array n st) n).bound = [] ∧ (putUnit (emptyArray s n) .array n st).ctxs = s.ctxs ∧
      (getRgn (putUnit (emptyArray s n) .array n st) (n / 4)).replayQ.length =
        (getRgn s (n / 4)).replayQ.length + (getArr s n).bound.length + (followed s n).length := by
    rw [getArr_putUnit, getRgn_putUnit, putUnit_ctxs]
    exact ⟨hbound, hctxs, hreplay⟩
  show (getArr (ite _ _ _) n).bound = [] ∧ (ite _ _ _ : State).ctxs = s.ctxs ∧ (getRgn (ite _ _ _) (n / 4)).replayQ.length = _
  split
  · rw [getArr_endSelfTest, endSelfTest_ctxs, replayQ_endSelfTest]
    exact hput
  · exact hput

/-! ### All requests leave what a warm reset waits for alone -/

theorem enableUnit_contained (s : State) (k : UnitKind) (n : Nat) : Contained s (enableUnit s k n) := by
  refine ite_cases (q := Contained s) (fun _ => ?_) (fun _ => ?_)
  · exact ite_cases (q := Contained s) (fun _ => Contained.trans (t := dropOwned s k n) rfl (Contained.putRegion ..)) (fun _ => .refl s)
  · refine ite_cases (q := Contained s) (fun _ => .of_logFault ..) (fun _ => ?_)
    exact ite_cases (q := Contained s) (fun _ => rfl) (fun _ => .refl s)

end Sys2Proof.Machine

open Sys2Proof Sys2Proof.Machine

/-- Settles O21: each request by the case of its unit's state, its kind and, for a port, what is left of its region. -/
theorem unitRequestsChangeStates : Obligations.UnitRequestsChangeStates := by
  unfold Obligations.UnitRequestsChangeStates
  intro s p u hans htok hsettled n here others portLeft
  have hst (k : UnitKind) (m : Nat) : unitSt (wake s) k m = unitSt s k m := unitSt_wake s k m
  have hhere (h : here) : Here (wake s) u.kind n := by rwa [Here, hst, wake_cfg]
  have hleft (h : portLeft) : PortLeft (wake s) u.kind n := by
    unfold PortLeft
    simp only [hst]
    exact h
  have hothers {t : State} (h : OthersKept (wake s) t u.kind n) : others t := fun k m hne => by rw [h k m hne, hst]
  have hreply (t : State) : (getHp (respond t p.val .ok) p.val).resp = .ok := getHp_respond_resp ..
  refine ⟨fun h => ?_, fun h hlive hk hl => ?_, fun h hlive hk => ?_, fun h hl hlive => ?_, fun h hlive => ?_, fun h hd hf hl => ?_,
    fun h hf => ?_, fun h hk hout hrgn => ?_, fun h hk hrgn => ?_, fun h hk hout => ?_⟩
  · have hnot : ¬Here (wake s) u.kind n := by rwa [Here, hst, wake_cfg]
    have hrun (act : UnitAction) : ∃ t, exec (unitInstr p u act) s = .next t ∧ (getHp t p.val).resp = .ok ∧
        t = { logFault (wake s) (unitEntry s 1 0x24 u.kind n) with hp := t.hp } := by
      refine ⟨_, exec_unitInstr act hans htok hsettled (unitAsk_of_ignored (unitReq_of_not_here hnot act)) (.of_logFault ..), hreply _, ?_⟩
      rw [logIgnored_wake]
      rfl
    intro i hi
    simp only [List.mem_cons, List.not_mem_nil, or_false] at hi
    rcases hi with rfl | rfl | rfl | rfl
    · exact hrun .disable
    · exact hrun .forceDisable
    · exact hrun .enable
    · exact hrun .fence
  · obtain ⟨hdrain, hother, hrest⟩ := disableUnit_of_live (s := wake s) (by rwa [hst]) hk (hleft hl)
    refine ⟨_, exec_unitInstr .disable hans htok hsettled (unitAsk_disable (hhere h)) (by rw [Contained, hrest]), hdrain, hreply _, ?_,
      hothers hother⟩
    rw [hrest]
    rfl
  · rw [hk] at hlive
    have hlive' : unitSt (wake s) .region n = .live := by rwa [hst]
    have hask : unitAsk (wake s) .host u.kind n .disable = disableUnit (wake s) .region n := by rw [unitAsk_disable (hhere h), hk]
    have hwork := leaveLive_drop_workOnly (wake s) n
    have hcopies := copiesOf_disableUnit_region hlive'
    have hcontained : Contained (wake s) (disableUnit (wake s) .region n) := by
      rw [disableUnit_region hlive']
      exact (Contained.of_workOnly hwork).trans (Contained.putRegion ..)
    refine ⟨_, exec_unitInstr .disable hans htok hsettled hask hcontained, ?_, ?_, ?_, fun x hx => ?_⟩
    · rw [unitSt_respond, disableUnit_region hlive', unitSt_putRegion_self]
    · rw [getRgn_respond]
      exact congrArg Prod.fst hcopies
    · rw [getRgn_respond]
      exact congrArg (fun y => y.2.1) hcopies
    · rw [unitSt_respond, disableUnit_region hlive', unitSt_putRegion_mem hx, hwork.unitSt, hst]
  · have hk : u.kind = .port := Classical.byContradiction fun e => hl (.inl e)
    have hlast : ¬PortLeft (wake s) .port n := by
      unfold PortLeft
      simp only [hst]
      rintro (e | e)
      · exact e rfl
      · exact hl (.inr e)
    have hlive' : unitSt (wake s) .port n = .live := by rwa [hst]
    have hhere' := hhere h
    rw [hk] at hhere'
    intro i hi
    simp only [List.mem_cons, List.not_mem_nil, or_false] at hi
    rcases hi with rfl | rfl | rfl
    · have hask : unitAsk (wake s) .host u.kind n .disable = portsLeft (putUnit (wake s) .port n .draining) .port n := by
        rw [hk, unitAsk_disable hhere']
        exact if_neg (not_isLive_of_eq hlive')
      obtain ⟨hrgn, hport⟩ := unitSt_portsLeft_of_last hlast (putUnit_others (wake s) .port n .draining)
        (by rw [unitSt_putUnit_self]; decide) (by rw [unitSt_putUnit_self]; decide)
      exact ⟨_, exec_unitInstr .disable hans htok hsettled hask (Contained.trans (Contained.putUnit ..) (portsLeft_contained ..)),
        by rw [unitSt_respond, hrgn], by rw [unitSt_respond, hport]⟩
    · have hask : unitAsk (wake s) .host u.kind n .forceDisable =
          outOfService (wake s) .port n .disabled (unitEntry (wake s) clsCorrectable 0x22 .port n) := by
        rw [hk, unitAsk_forceDisable hhere', forceDisableUnit_of_in (by rw [hlive']; decide) (by rw [hlive']; decide), outOfService]
      obtain ⟨hrgn, hport⟩ := unitSt_outOfService_of_last (st := .disabled) (unitEntry (wake s) clsCorrectable 0x22 .port n) hlast (by decide)
      exact ⟨_, exec_unitInstr .forceDisable hans htok hsettled hask (outOfService_contained ..), by rw [unitSt_respond, hrgn],
        by rw [unitSt_respond, hport]⟩
    · have hask : unitAsk (wake s) .host u.kind n .fence =
          outOfService (wake s) .port n .fenced (unitEntry (wake s) (fenceClass .port) 0x20 .port n) := by
        rw [hk, unitAsk_fence hhere' (by rw [hlive']; decide), outOfService, fenceUnit]
      obtain ⟨hrgn, hport⟩ := unitSt_outOfService_of_last (st := .fenced) (unitEntry (wake s) (fenceClass .port) 0x20 .port n) hlast (by decide)
      exact ⟨_, exec_unitInstr .fence hans htok hsettled hask (outOfService_contained ..), by rw [unitSt_respond, hrgn],
        by rw [unitSt_respond, hport]⟩
  · have hask : unitAsk (wake s) .host u.kind n .disable = wake s := by
      rw [unitAsk_disable (hhere h), disableUnit_of_not_live (by rwa [hst])]
    exact ⟨_, exec_unitInstr .disable hans htok hsettled hask (.refl _), rfl⟩
  · have hask : unitAsk (wake s) .host u.kind n .forceDisable =
        logFault (takeOut (wake s) u.kind n .disabled) (unitEntry (wake s) clsCorrectable 0x22 u.kind n) := by
      rw [unitAsk_forceDisable (hhere h), forceDisableUnit_of_in (by rwa [hst]) (by rwa [hst])]
      exact outOfService_of_left .disabled _ (hleft hl)
    refine ⟨_, exec_unitInstr .forceDisable hans htok hsettled hask ((takeOut_contained ..).trans (.of_logFault ..)), ?_, hreply _, fun hk => ?_⟩
    · rw [unitSt_respond, unitSt_logFault, unitSt_takeOut_self]
    · obtain ⟨hbound, hctxs, hreplay⟩ := takeOut_array_spec (wake s) n .disabled
      rw [hk, getArr_respond, getArr_logFault, getRgn_respond, getRgn_logFault]
      refine ⟨hbound, ?_, ?_⟩
      · rw [hreplay, getRgn_wake, getArr_wake, followed_wake]
      · rw [respond_ctxs, logFault_ctxs, hctxs, wake_ctxs]
  · have hask : unitAsk (wake s) .host u.kind n .fence = fenceUnit (wake s) u.kind n := unitAsk_fence (hhere h) (by rwa [hst])
    refine ⟨_, exec_unitInstr .fence hans htok hsettled hask (fenceUnit_contained ..), by rw [unitSt_respond, unitSt_fenceUnit_self],
      hreply _, fun hk => ?_, fun hk => ?_⟩
    · rw [hk, fenceUnit_array]
      refine LogAt.congr (s := logFault (takeOut (wake s) .array n .fenced) (unitEntry (wake s) 3 0x20 .array n)) ?_ (respond_flog ..)
      have hat := logAt_logFault (s := takeOut (wake s) .array n .fenced) (e := unitEntry (wake s) 3 0x20 .array n) (d := 0)
        (.inl (show (3 : BitVec 3) ≠ 1 by decide)) rfl
      rwa [takeOut_flog, wake_flog] at hat
    · rw [hk] at hothers ⊢
      rw [fenceUnit_array, getArr_respond, getArr_logFault]
      exact ⟨(takeOut_array_spec ..).1, hothers (logTakeOut_others .fenced _ (by decide))⟩
  · have hout' : unitSt (wake s) u.kind n = .fenced ∨ unitSt (wake s) u.kind n = .disabled := by rwa [hst]
    have hreq : unitReq (wake s) u.kind n .enable = putUnit (dropOwned (wake s) u.kind n) u.kind n .testing := by
      rw [unitReq_of_here (hhere h)]
      exact enableUnit_of_out hk hout' (by rwa [hst])
    by_cases harr : u.kind = .array
    · rw [harr] at hreq hout' hothers hrgn
      have hst' : unitSt (wake s) .array n ≠ .testing := by rcases hout' with e | e <;> rw [e] <;> decide
      obtain ⟨hrest, htest, hother, howned, hruns⟩ := unitAsk_enable_array_spec (m := .host) hreq hst'
      have hlive : maintRegion (wake s) (n / 4) = true := by
        have hcfg := h.2
        rw [harr] at hcfg
        rw [maintRegion, hst, configured, wake_cfg, decide_eq_true (show n / 4 < s.cfg.regions from hcfg), show unitSt s .region (n / 4) = .live from hrgn]
        rfl
      refine ⟨_, exec_unitInstr .enable hans htok hsettled (congrArg (fun k => unitAsk (wake s) .host k n .enable) harr) (by rw [hrest]; rfl), ?_,
        hreply _, ?_, ?_, fun e => absurd harr e, fun _ => ⟨?_, fun hrun hqueued => ?_⟩⟩
      · rw [unitSt_respond, harr, htest]
      · rw [hrest]
        rfl
      · exact hothers hother
      · exact howned
      · rw [getRgn_respond]
        exact hruns hlive (by rw [getRgn_wake, hrun]) (by rw [getRgn_wake, hqueued])
    · have hask : unitAsk (wake s) .host u.kind n .enable = putUnit (dropOwned (wake s) u.kind n) u.kind n .testing := by
        rw [unitAsk_eq_unitReq (.inr (.inl harr)), hreq]
      refine ⟨_, exec_unitInstr .enable hans htok hsettled hask rfl, by rw [unitSt_respond, unitSt_putUnit_self], hreply _, rfl,
        hothers (putUnit_others (dropOwned (wake s) u.kind n) u.kind n .testing), fun _ => wake_rgns s, fun e => absurd e harr⟩
  · have hask : unitAsk (wake s) .host u.kind n .enable = logIgnored (wake s) u.kind n := by
      refine unitAsk_of_ignored ?_
      rw [unitReq_of_here (hhere h)]
      exact enableUnit_under_other hk (by rwa [hst])
    refine ⟨_, exec_unitInstr .enable hans htok hsettled hask (.of_logFault ..), hreply _, ?_⟩
    rw [logIgnored_wake]
    rfl
  · have hask : unitAsk (wake s) .host u.kind n .enable = putRegion (dropOwned (wake s) .region n) n .testing := by
      have hout' : unitSt (wake s) .region n = .fenced ∨ unitSt (wake s) .region n = .disabled := by rwa [hst]
      have hhere' := hhere h
      rw [hk] at hhere' ⊢
      rw [unitAsk_eq_unitReq (.inr (.inl (by decide))), unitReq_of_here hhere', ← enableUnit_region hout']
    refine ⟨_, exec_unitInstr .enable hans htok hsettled hask (Contained.trans (t := dropOwned (wake s) .region n) rfl (Contained.putRegion ..)),
      by rw [unitSt_respond, unitSt_putRegion_self], fun x hx => ?_⟩
    rw [unitSt_respond, unitSt_putRegion_mem hx, ← hst x.1 x.2]
    rfl

end

section
/-!
PROOFS. Units that have drained or been tested (R317, R321 to R323, R381).
-/

namespace Sys2Proof.Machine

/-! ### Drained units (R317) -/

theorem drainDone_of_busy {s : State} {k : UnitKind} {n : Nat} (h : unitSt s k n ≠ .draining ∨ drained s k n = false) :
    drainDone s k n = s := by
  refine if_pos ?_
  rcases h with h | h
  · rw [bne_iff_ne.mpr h]
    rfl
  · rw [h]
    simp

/-- The unit drains and has no work left. -/
theorem drained_guard {s : State} {k : UnitKind} {n : Nat} (h : unitSt s k n = .draining) (hd : drained s k n = true) :
    ¬(unitSt s k n != .draining || !drained s k n) = true := by
  rw [h, hd]
  decide

theorem drainDone_of_unit {s : State} {k : UnitKind} {n : Nat} (h : unitSt s k n = .draining) (hd : drained s k n = true)
    (hplain : (getUnit s.units k n).forTest = false) (hk : k ≠ .region) :
    drainDone s k n = logFault (putUnit s k n .disabled) (unitEntry s 1 0x22 k n) := by
  refine (if_neg (drained_guard h hd)).trans ((if_neg (by rw [hplain]; decide)).trans ?_)
  cases k with
  | region => exact absurd rfl hk
  | array => rfl
  | side => rfl
  | port => rfl

theorem drainDone_of_region {s : State} {n : Nat} (h : unitSt s .region n = .draining) (hd : drained s .region n = true)
    (hplain : (getUnit s.units .region n).forTest = false) :
    drainDone s .region n = logFault (putRegion (emptyRegion s n false) n .disabled) (unitEntry s 1 0x22 .region n) :=
  (if_neg (drained_guard h hd)).trans (if_neg (by rw [hplain]; decide))

theorem drainDone_of_forTest {s : State} {k : UnitKind} {n : Nat} (h : unitSt s k n = .draining) (hd : drained s k n = true)
    (htest : (getUnit s.units k n).forTest = true) :
    drainDone s k n = { s with units := setUnit s.units k n { st := .testing, prior := .live, forTest := true } } :=
  (if_neg (drained_guard h hd)).trans (if_pos htest)

/-! ### One unit's test (R323) -/

/-- What a test leaves of a unit's state. -/
def testedAs (pass : Bool) (st : UState) : UState := if st = .testing then (if pass then .live else .fenced) else st

theorem clearTimes_rest (s : State) (k : UnitKind) (n : Nat) :
    clearTimes s k n = { s with arrs := (clearTimes s k n).arrs, rgns := (clearTimes s k n).rgns, mp := (clearTimes s k n).mp } := by
  cases k <;> rfl

theorem clearTimes_running (s : State) (k : UnitKind) (n r : Nat) : (getRgn (clearTimes s k n) r).spares = (getRgn s r).spares := by
  have hset (x : Region) (hx : x.spares = (getRgn s n).spares) : (getRgn (setRgn s n x) r).spares = (getRgn s r).spares := by
    rw [getRgn_setRgn_if]
    split
    · rw [hx, ‹r = n›]
    · rfl
  cases k with
  | array => rfl
  | port => rfl
  | side => exact hset _ rfl
  | region => exact hset _ rfl

/-- A test's end: the unit's state and times, and the log. -/
theorem testOne_cases (s : State) (k : UnitKind) (n : Nat) (pass : Bool) :
    (unitSt s k n ≠ .testing ∧ testOne s k n pass = s) ∨
    (unitSt s k n = .testing ∧ pass = true ∧
      testOne s k n pass = logFault (clearTimes (putUnit s k n .live) k n) (unitEntry s clsCorrectable 0x21 k n)) ∨
    (unitSt s k n = .testing ∧ pass = false ∧
      testOne s k n pass = logFault (putUnit s k n .fenced) (unitEntry s (fenceClass k) 0x20 k n)) := by
  by_cases hst : unitSt s k n = .testing
  · have hguard : ¬(unitSt s k n != .testing) = true := by rw [hst]; decide
    cases pass with
    | true => exact .inr (.inl ⟨hst, rfl, by rw [testOne, if_neg hguard]; rfl⟩)
    | false => exact .inr (.inr ⟨hst, rfl, by rw [testOne, if_neg hguard]; rfl⟩)
  · exact .inl ⟨hst, if_pos (bne_iff_ne.mpr hst)⟩

theorem unitSt_clearTimes (s : State) (k k' : UnitKind) (n m : Nat) : unitSt (clearTimes s k n) k' m = unitSt s k' m := by
  rw [clearTimes_rest]
  rfl

theorem unitSt_testOne (s : State) (k : UnitKind) (n : Nat) (pass : Bool) (k' : UnitKind) (m : Nat) :
    unitSt (testOne s k n pass) k' m = if k' = k ∧ m = n then testedAs pass (unitSt s k' m) else unitSt s k' m := by
  by_cases hkm : k' = k ∧ m = n
  · obtain ⟨rfl, rfl⟩ := hkm
    rw [if_pos ⟨rfl, rfl⟩]
    rcases testOne_cases s k' m pass with ⟨hst, h⟩ | ⟨hst, rfl, h⟩ | ⟨hst, rfl, h⟩ <;> rw [h]
    · rw [testedAs, if_neg hst]
    · rw [unitSt_logFault, unitSt_clearTimes, unitSt_putUnit_self, hst]
      rfl
    · rw [unitSt_logFault, unitSt_putUnit_self, hst]
      rfl
  · rw [if_neg hkm]
    rcases testOne_cases s k n pass with ⟨-, h⟩ | ⟨-, -, h⟩ | ⟨-, -, h⟩ <;> rw [h]
    · rw [unitSt_logFault, unitSt_clearTimes, unitSt_putUnit, if_neg hkm]
    · rw [unitSt_logFault, unitSt_putUnit, if_neg hkm]

/-- What a test's end may change. -/
structure TestEnds (s t : State) : Prop where
  rest : t = { s with units := t.units, arrs := t.arrs, rgns := t.rgns, mp := t.mp, flog := t.flog, sbd := t.sbd, hp := t.hp, mems := t.mems }
  spad : ∀ r a, rdByte t.mems (.spad r) a = rdByte s.mems (.spad r) a
  spares : ∀ r, (getRgn t r).spares = (getRgn s r).spares

namespace TestEnds

theorem refl (s : State) : TestEnds s s := ⟨rfl, fun _ _ => rfl, fun _ => rfl⟩

theorem trans {s t u : State} (h : TestEnds s t) (k : TestEnds t u) : TestEnds s u :=
  ⟨by rw [k.rest, h.rest], fun r a => (k.spad r a).trans (h.spad r a), fun r => (k.spares r).trans (h.spares r)⟩

theorem logFault (s : State) (e : FlogEntry) : TestEnds s (logFault s e) := by
  refine ⟨?_, fun r a => (logFault_logOnly s e).bytes (.spad r) a (.inl (by simp)), fun r => by rw [getRgn_logFault]⟩
  rw [(logFault_logOnly s e).rest]

theorem clearTimes (s : State) (k : UnitKind) (n : Nat) : TestEnds s (clearTimes s k n) := by
  refine ⟨?_, fun r a => by rw [clearTimes_rest], fun r => clearTimes_running s k n r⟩
  rw [clearTimes_rest]

theorem testOne (s : State) (k : UnitKind) (n : Nat) (pass : Bool) : TestEnds s (testOne s k n pass) := by
  have hput (st : UState) : TestEnds s (putUnit s k n st) := ⟨rfl, fun _ _ => rfl, fun _ => rfl⟩
  rcases testOne_cases s k n pass with ⟨-, h⟩ | ⟨-, -, h⟩ | ⟨-, -, h⟩ <;> rw [h]
  · exact refl s
  · exact ((hput .live).trans (clearTimes _ k n)).trans (logFault _ _)
  · exact (hput .fenced).trans (logFault _ _)

theorem foldl {α : Type} {f : State → α → State} (hf : ∀ u x, TestEnds u (f u x)) (l : List α) (s : State) : TestEnds s (l.foldl f s) := by
  induction l generalizing s with
  | nil => exact refl s
  | cons x l ih => exact (hf s x).trans (ih (f s x))

end TestEnds

/-! ### A region's test (R322, R323) -/

/-- The verdict of a region's test on one of its units. -/
def unitPasses (r : TestReport) (u : UnitKind × Nat) : Bool :=
  match u.1 with
  | .array => !r.failArrays.any (fun a => a.val == u.2)
  | .side => !r.failSide
  | .port => !r.failPorts.any (fun q => q.val == u.2)
  | .region => true

/-- The region as its test leaves it: failing banks on spares, no journal. -/
def testedBanks (s : State) (n : Nat) (r : TestReport) : State :=
  setRgn { s with mems := { s.mems with spad := tdrop s.mems.spad n } } n
    { getRgn s n with spares := (sparesOf r.badBanks).1, badSpares := (sparesOf r.badBanks).2, journal := [] }

/-- The region is LIVE and each of its units tested. -/
def testedUnits (s : State) (n : Nat) (r : TestReport) : State :=
  (unitsOf n).foldl (fun t u => testOne t u.1 u.2 (unitPasses r u)) (testOne (testedBanks s n r) .region n true)

theorem testRegion_of_pass {s : State} {n : Nat} {r : TestReport} (h : unitSt s .region n = .testing) (hpass : r.pass = true)
    (hbanks : r.badBanks.length ≤ 4) : testRegion s n r = if isLive (portsLeft (testedUnits s n r) .port (4 * n)) .region n
      then adoptPorts (portsLeft (testedUnits s n r) .port (4 * n)) n else portsLeft (testedUnits s n r) .port (4 * n) := by
  have hguard : ¬(unitSt s .region n != .testing) = true := by rw [h]; decide
  have hfail : ¬(!r.pass || decide (r.badBanks.length > 4)) = true := by
    rw [hpass, decide_eq_false (by omega)]
    decide
  rw [testRegion, if_neg hguard, if_neg hfail]
  rfl

theorem testRegion_of_fail {s : State} {n : Nat} {r : TestReport} (h : unitSt s .region n = .testing)
    (hfail : r.pass = false ∨ 4 < r.badBanks.length) : testRegion s n r =
      logFault (putRegion (putUnit s .region n .fenced) n .fenced) (unitEntry s 4 0x20 .region n) := by
  have hguard : ¬(unitSt s .region n != .testing) = true := by rw [h]; decide
  have hfail' : (!r.pass || decide (r.badBanks.length > 4)) = true := by
    rcases hfail with hfail | hfail
    · rw [hfail]
      rfl
    · rw [decide_eq_true hfail, Bool.or_true]
  rw [testRegion, if_neg hguard, if_pos hfail']
  rfl

theorem testedAs_idem (pass : Bool) (st : UState) : testedAs pass (testedAs pass st) = testedAs pass st := by
  cases pass <;> cases st <;> rfl

theorem unitSt_foldl_testOne (r : TestReport) (l : List (UnitKind × Nat)) (t : State) (k : UnitKind) (m : Nat) :
    unitSt (l.foldl (fun t u => testOne t u.1 u.2 (unitPasses r u)) t) k m =
      if (k, m) ∈ l then testedAs (unitPasses r (k, m)) (unitSt t k m) else unitSt t k m := by
  induction l generalizing t with
  | nil => simp
  | cons u l ih =>
    obtain ⟨k', m'⟩ := u
    rw [List.foldl_cons, ih, unitSt_testOne]
    by_cases hu : k = k' ∧ m = m'
    · obtain ⟨rfl, rfl⟩ := hu
      simp [testedAs_idem]
    · rw [if_neg hu]
      simp [hu]

theorem unitSt_testedBanks (s : State) (n : Nat) (r : TestReport) (k : UnitKind) (m : Nat) : unitSt (testedBanks s n r) k m = unitSt s k m := rfl

theorem unitSt_testedUnits_region {s : State} {n : Nat} {r : TestReport} (h : unitSt s .region n = .testing) :
    unitSt (testedUnits s n r) .region n = .live := by
  have hmem : (UnitKind.region, n) ∉ unitsOf n := fun e => unitsOf_kind e ⟨rfl, rfl⟩
  rw [testedUnits, unitSt_foldl_testOne, if_neg hmem, unitSt_testOne, if_pos ⟨rfl, rfl⟩, unitSt_testedBanks, h]
  rfl

theorem unitSt_testedUnits_mem {s : State} {n : Nat} {r : TestReport} {x : UnitKind × Nat} (h : x ∈ unitsOf n) :
    unitSt (testedUnits s n r) x.1 x.2 = testedAs (unitPasses r x) (unitSt s x.1 x.2) := by
  rw [testedUnits, unitSt_foldl_testOne, if_pos h, unitSt_testOne, if_neg (unitsOf_kind h), unitSt_testedBanks]

theorem testedUnits_ends (s : State) (n : Nat) (r : TestReport) : TestEnds (testedBanks s n r) (testedUnits s n r) := by
  have hunits := TestEnds.foldl (f := fun t u => testOne t u.1 u.2 (unitPasses r u)) (fun t u => TestEnds.testOne t u.1 u.2 (unitPasses r u))
    (unitsOf n) (testOne (testedBanks s n r) .region n true)
  exact (TestEnds.testOne (testedBanks s n r) .region n true).trans hunits

theorem mem_unitsOf_port {n j : Nat} (hj : j < 4) : (UnitKind.port, 4 * n + j) ∈ unitsOf n := by
  simp only [unitsOf, List.mem_cons, Prod.mk.injEq, List.not_mem_nil, or_false, reduceCtorEq, false_and, false_or, true_and]
  omega

theorem mem_unitsOf_array {n j : Nat} (hj : j < 4) : (UnitKind.array, 4 * n + j) ∈ unitsOf n := by
  simp only [unitsOf, List.mem_cons, Prod.mk.injEq, List.not_mem_nil, or_false, reduceCtorEq, false_and, or_false, true_and]
  omega

/-- The contexts and the memory ports alone take part in a port's leaving. -/
theorem leavePort_rest (s : State) (dest q : Nat) : ∃ cs m, leavePort s dest q = { s with ctxs := cs, mp := m } := by
  obtain ⟨cs, hcs⟩ := foldl_loseAtomic_rest (((getMp s q).rdOut ++ (getMp s q).wrOut).map (·.2)) s
  have hmoves := foldl_mp (fun (u : State) (p : PortReq) => match portFor u dest p.addr with
    | none => u
    | some k => setMp u k (joinPort (getMp s q).cycle [p] (getMp u k))) (fun u p => by
      split
      · exact ⟨u.mp, rfl⟩
      · exact ⟨_, rfl⟩) ((portAgain (getMp s q)).filter (fun p => p.op != 0 || ofRemote s p.owner))
    (setMp { s with ctxs := cs } q { getMp s q with rdQ := [], wrQ := [], rdOut := [], wrOut := [] })
  obtain ⟨m, hm⟩ := hmoves
  refine ⟨cs, m, ?_⟩
  unfold leavePort
  dsimp only
  rw [hcs]
  exact hm

theorem adoptPorts_rest (s : State) (r : Nat) : ∃ cs m, adoptPorts s r = { s with ctxs := cs, mp := m } := by
  unfold adoptPorts
  induction ([0, 1, 2, 3].filter (fun q => q != r && !isLive s .region q && unitSt s .region q != .draining)).flatMap fourOf generalizing s with
  | nil => exact ⟨s.ctxs, s.mp, rfl⟩
  | cons q l ih =>
    obtain ⟨cs, m, h⟩ := leavePort_rest s r q
    obtain ⟨cs', m', h'⟩ := ih (leavePort s r q)
    exact ⟨cs', m', by rw [List.foldl_cons, h', h]⟩

end Sys2Proof.Machine

end

section
/-!
PROOFS. The ends of drains and of tests, settled (R317, R321 to R323, R381).
-/

namespace Sys2Proof.Machine

/-! ### UNIT_TEST_DONE -/

theorem unitTestDone_of_idle {s : State} {k : UnitKind} {n : Nat} {r : TestReport} (h : unitSt s k n ≠ .testing ∨ testRuns s k n = false) :
    unitTestDone s k n r = s := by
  refine if_pos ?_
  rcases h with h | h
  · rw [bne_iff_ne.mpr h]
    rfl
  · rw [h]
    simp

/-- The self-test of array `n` is no activity of its region any more. -/
def endArrayTest (s : State) (n : Nat) : State :=
  setRgn s (n / 4) { getRgn s (n / 4) with running := (getRgn s (n / 4)).running.filter (fun a => !(a.code == 1 && a.array.val == n)) }

theorem unitTestDone_region {s : State} {n : Nat} {r : TestReport} (h : unitSt s .region n = .testing) :
    unitTestDone s .region n r = warmNext (testRegion s n r) := by
  have hguard : ¬(unitSt s .region n != .testing || !testRuns s .region n) = true := by
    rw [h, show testRuns s .region n = true from rfl]
    decide
  exact if_neg hguard

theorem unitTestDone_array {s : State} {n : Nat} {r : TestReport} (h : unitSt s .array n = .testing) (hruns : testRuns s .array n = true) :
    unitTestDone s .array n r = warmNext (endArrayTest (testOne s .array n r.pass) n) := by
  have hguard : ¬(unitSt s .array n != .testing || !testRuns s .array n) = true := by
    rw [h, hruns]
    decide
  exact if_neg hguard

theorem unitTestDone_other {s : State} {k : UnitKind} {n : Nat} {r : TestReport} (h : unitSt s k n = .testing) (hk : k = .side ∨ k = .port) :
    unitTestDone s k n r = warmNext (testOne s k n r.pass) := by
  have hruns : testRuns s k n = true := by rcases hk with rfl | rfl <;> rfl
  have hguard : ¬(unitSt s k n != .testing || !testRuns s k n) = true := by
    rw [h, hruns]
    decide
  rcases hk with rfl | rfl
  · exact if_neg hguard
  · exact if_neg hguard

theorem TestEnds.endArrayTest (s : State) (n : Nat) : TestEnds s (endArrayTest s n) := by
  refine ⟨rfl, fun _ _ => rfl, fun r => ?_⟩
  rw [Machine.endArrayTest, getRgn_setRgn_if]
  split
  · rw [‹r = n / 4›]
  · rfl

theorem TestEnds.warmNext {s t : State} (h : TestEnds s t) (hsettled : Settled s) : warmNext t = t :=
  warmNext_of_settled hsettled (by rw [h.rest]) (by rw [h.rest])

/-- A unit that is no region: its state, its entry, and for an array the end of its activity. -/
theorem unitTestDone_unit {s : State} {k : UnitKind} {n : Nat} {r : TestReport} (h : unitSt s k n = .testing) (hruns : testRuns s k n = true)
    (hk : k ≠ .region) (hsettled : Settled s) : ∃ t, unitTestDone s k n r = t ∧ TestEnds s t ∧
      (∀ k' m, unitSt t k' m = unitSt (testOne s k n r.pass) k' m) ∧ t.flog = (testOne s k n r.pass).flog ∧
      (k = .array → t = endArrayTest (testOne s .array n r.pass) n) := by
  have hone := TestEnds.testOne s k n r.pass
  cases k with
  | region => exact absurd rfl hk
  | array =>
    have hends := hone.trans (TestEnds.endArrayTest _ n)
    rw [unitTestDone_array h hruns]
    exact ⟨_, hends.warmNext hsettled, hends, fun _ _ => rfl, rfl, fun _ => rfl⟩
  | side =>
    rw [unitTestDone_other h (.inl rfl)]
    exact ⟨_, hone.warmNext hsettled, hone, fun _ _ => rfl, rfl, nofun⟩
  | port =>
    rw [unitTestDone_other h (.inr rfl)]
    exact ⟨_, hone.warmNext hsettled, hone, fun _ _ => rfl, rfl, nofun⟩

theorem running_endArrayTest {s : State} {n : Nat} {a : MaintAct} (h : a ∈ (getRgn (endArrayTest s n) (n / 4)).running) :
    ¬(a.code = 1 ∧ a.array.val = n) := by
  rw [endArrayTest, getRgn_setRgn_if, if_pos rfl] at h
  have hfilter := (List.mem_filter.mp h).2
  rintro ⟨hcode, harr⟩
  rw [hcode, harr, beq_self_eq_true, beq_self_eq_true] at hfilter
  exact absurd hfilter (by decide)

/-- A failed test of a unit that is no region has its entry of class 3. -/
theorem logAt_testOne_of_fail {s : State} {k : UnitKind} {n : Nat} {r : TestReport} (h : unitSt s k n = .testing) (hk : k ≠ .region)
    (hfail : r.pass = false) : LogAt (testOne s k n r.pass) s.flog.next.toNat 3 0x20 0 := by
  have hcls : fenceClass k = 3 := if_neg (by rw [beq_false_of_ne hk]; decide)
  rcases testOne_cases s k n r.pass with ⟨hst, -⟩ | ⟨-, hpass, -⟩ | ⟨-, -, e⟩
  · exact absurd h hst
  · rw [hfail] at hpass
    exact absurd hpass (by decide)
  · rw [e, hcls]
    exact logAt_logFault (s := putUnit s k n .fenced) (e := unitEntry s 3 0x20 k n) (d := 0) (.inl (show (3 : BitVec 3) ≠ 1 by decide)) rfl

/-! ### A region's test -/

theorem testedUnits_boot (s : State) (n : Nat) (r : TestReport) : (testedUnits s n r).boot = s.boot := by
  rw [(testedUnits_ends s n r).rest]
  rfl

/-- A port of the region that passes keeps it in service. -/
theorem testRegion_with_port {s : State} {n : Nat} {r : TestReport} (h : unitSt s .region n = .testing) (hpass : r.pass = true)
    (hbanks : r.badBanks.length ≤ 4)
    (hport : ∃ j, j < 4 ∧ unitSt s .port (4 * n + j) = .testing ∧ ∀ q ∈ r.failPorts, q.val ≠ 4 * n + j) :
    testRegion s n r = adoptPorts (testedUnits s n r) n := by
  obtain ⟨j, hj, htesting, hgood⟩ := hport
  have hlive : unitSt (testedUnits s n r) .port (4 * n + j) = .live := by
    have hpasses : unitPasses r (.port, 4 * n + j) = true := by
      show (!r.failPorts.any (fun q => q.val == 4 * n + j)) = true
      rw [List.any_eq_false.mpr fun q hq => by simpa using hgood q hq]
      rfl
    rw [unitSt_testedUnits_mem (mem_unitsOf_port hj), hpasses, htesting]
    rfl
  have hserves : portServes (testedUnits s n r) (4 * n + j) = true := by rw [portServes, isLive_of_eq hlive]; rfl
  rw [testRegion_of_pass h hpass hbanks, portsLeft_of_serving hserves (by omega), if_pos (isLive_of_eq (unitSt_testedUnits_region h))]

/-- With no port left the region is fenced (R322). -/
theorem testRegion_without_port {s : State} {n : Nat} {r : TestReport} (h : unitSt s .region n = .testing) (hpass : r.pass = true)
    (hbanks : r.badBanks.length ≤ 4) (hports : ∀ j, j < 4 → unitSt s .port (4 * n + j) ≠ .live ∧
      (unitSt s .port (4 * n + j) = .testing → ∃ q ∈ r.failPorts, q.val = 4 * n + j)) :
    testRegion s n r = logFault (takeOut (testedUnits s n r) .region n .fenced) (unitEntry (testedUnits s n r) clsRegion 0x20 .region n) := by
  have hlive := unitSt_testedUnits_region (r := r) h
  have hnone : ∀ j, j < 4 → unitSt (testedUnits s n r) .port (4 * n / 4 * 4 + j) ≠ .live := by
    intro j hj
    obtain ⟨hnot, hfail⟩ := hports j hj
    rw [show 4 * n / 4 * 4 + j = 4 * n + j by omega, unitSt_testedUnits_mem (mem_unitsOf_port hj), testedAs]
    split
    · next ht =>
      obtain ⟨q, hq, hval⟩ := hfail ht
      have hpasses : unitPasses r (.port, 4 * n + j) = false := by
        show (!r.failPorts.any (fun q => q.val == 4 * n + j)) = false
        rw [List.any_eq_true.mpr ⟨q, hq, by simp [hval]⟩]
        rfl
      rw [hpasses]
      decide
    · exact hnot
  have hdiv : 4 * n / 4 = n := by omega
  have hleft := portsLeft_of_last (s := testedUnits s n r) (n := 4 * n) (by rw [hdiv]; exact hlive) hnone
  rw [hdiv] at hleft
  have hfenced : unitSt (portsLeft (testedUnits s n r) .port (4 * n)) .region n ≠ .live := by
    rw [hleft, unitSt_logFault, unitSt_takeOut_self]
    decide
  rw [testRegion_of_pass h hpass hbanks, if_neg (by rw [isLive_of_ne hfenced]; decide), hleft]

theorem rdByte_spad_testedBanks (s : State) (n : Nat) (r : TestReport) (m a : Nat) :
    rdByte (testedBanks s n r).mems (.spad m) a = if m = n then 0 else rdByte s.mems (.spad m) a := by
  show rdCell (tget [] (tdrop s.mems.spad n) m) a = _
  rw [tget_tdrop]
  split <;> rfl

theorem putRegion_flog (s : State) (r : Nat) (st : UState) : (putRegion s r st).flog = s.flog := by
  have hfold (l : List (UnitKind × Nat)) (t : State) : (l.foldl (followUnit st) t).flog = t.flog := by
    induction l generalizing t with
    | nil => rfl
    | cons u l ih => rw [List.foldl_cons, ih, followUnit_rest]
  rw [putRegion_eq, hfold]
  rfl

/-- What `adoptPorts` leaves of a state. -/
theorem adoptPorts_keeps (u : State) (n : Nat) : ∃ t, adoptPorts u n = t ∧ t.boot = u.boot ∧ t.mems = u.mems ∧
    (∀ k m, unitSt t k m = unitSt u k m) ∧ ∀ m, getRgn t m = getRgn u m := by
  obtain ⟨cs, m, h⟩ := adoptPorts_rest u n
  exact ⟨_, h, rfl, rfl, fun _ _ => rfl, fun _ => rfl⟩

/-- A region's test of a settled machine ends as `testRegion` leaves it. -/
theorem unitTestDone_region_settled {s : State} {n : Nat} {r : TestReport} (h : unitSt s .region n = .testing) (hsettled : Settled s)
    {t : State} (ht : testRegion s n r = t) (hboot : t.boot = s.boot) : unitTestDone s .region n r = t := by
  rw [unitTestDone_region h, ht]
  exact warmNext_of_settled hsettled (by rw [hboot]) (by rw [hboot])

end Sys2Proof.Machine

open Sys2Proof Sys2Proof.Machine

/-- Settles O22: a drain's end by `drainDone`, a unit's test by `testOne`, and a region's by its banks, its units and what is left of its
ports. -/
theorem drainsAndTestsSettleUnits : Obligations.DrainsAndTestsSettleUnits := by
  unfold Obligations.DrainsAndTestsSettleUnits
  intro s u r n
  have hdrain {t : State} (h : drainDone s u.kind n = t) : exec (.unitDrainDone u) s = .next t := congrArg Host.Outcome.next h
  have htest {t : State} (h : unitTestDone s u.kind n r = t) : exec (.unitTestDone u r) s = .next t := congrArg Host.Outcome.next h
  refine ⟨fun h => hdrain (drainDone_of_busy h), fun h hd hplain hk => hdrain (drainDone_of_unit h hd hplain hk), fun h hd hplain hk => ?_,
    fun h hd hfor => ?_, fun h => htest (unitTestDone_of_idle h), fun h hruns hk hsettled => ?_, fun h hk hsettled hpass hbanks hport => ?_,
    fun h hk hsettled hpass hbanks hports => ?_, fun h hk hsettled hfail => ?_⟩
  · rw [hk] at h hd hplain
    refine ⟨_, hdrain (by rw [hk, drainDone_of_region h hd hplain]), ?_, ?_⟩
    · rw [unitSt_logFault, unitSt_putRegion_self]
    · rw [getRgn_logFault, getRgn_putRegion, resid_emptyRegion]
  · refine ⟨_, hdrain (drainDone_of_forTest h hd hfor), rfl, ?_, fun k m hne => ?_⟩
    · exact congrArg MUnit.st ((getUnit_setUnit ..).trans (if_pos ⟨rfl, rfl⟩))
    · exact congrArg MUnit.st ((getUnit_setUnit ..).trans (if_neg hne))
  · obtain ⟨t, ht, hends, hst, hflog, harr⟩ := unitTestDone_unit (r := r) h hruns hk hsettled
    refine ⟨t, htest ht, ?_, fun k m hne => ?_, fun hfail => (logAt_testOne_of_fail h hk hfail).congr hflog, fun hk a ha => ?_, hends.rest⟩
    · rw [hst, unitSt_testOne, if_pos ⟨rfl, rfl⟩, h]
      rfl
    · rw [hst, unitSt_testOne, if_neg hne]
    · rw [harr hk] at ha
      exact running_endArrayTest ha
  · rw [hk] at h htest
    have hends := testedUnits_ends s n r
    obtain ⟨t, hadopt, hboot, hmems, hst, hrgn⟩ := adoptPorts_keeps (testedUnits s n r) n
    have hdone : testRegion s n r = t := (testRegion_with_port h hpass hbanks hport).trans hadopt
    refine ⟨t, htest (unitTestDone_region_settled h hsettled hdone (hboot.trans (testedUnits_boot s n r))), ?_, ?_, fun a => ?_,
      fun m' a hm => ?_, fun j hj ht => ?_⟩
    · rw [hst, unitSt_testedUnits_region h]
    · rw [hrgn, hends.spares, testedBanks, getRgn_setRgn_if, if_pos rfl]
    · rw [hmems, hends.spad, rdByte_spad_testedBanks, if_pos rfl]
    · rw [hmems, hends.spad, rdByte_spad_testedBanks, if_neg hm]
    · rw [hst, unitSt_testedUnits_mem (mem_unitsOf_array hj), ht]
      show (if (!r.failArrays.any (fun a => a.val == 4 * n + j)) = true then UState.live else .fenced) = _
      cases r.failArrays.any (fun a => a.val == 4 * n + j) <;> rfl
  · rw [hk] at h htest
    have hdone := testRegion_without_port h hpass hbanks hports
    refine ⟨_, htest (unitTestDone_region_settled h hsettled hdone ?_), ?_⟩
    · rw [logFault_boot, (takeOut_contained ..).boot, testedUnits_boot]
    · rw [unitSt_logFault, unitSt_takeOut_self]
  · rw [hk] at h htest
    have hat := logAt_logFault (s := putRegion (putUnit s .region n .fenced) n .fenced) (e := unitEntry s 4 0x20 .region n) (d := 0)
      (.inl (show (4 : BitVec 3) ≠ 1 by decide)) rfl
    have hflog : (putRegion (putUnit s .region n .fenced) n .fenced).flog = s.flog := putRegion_flog ..
    rw [hflog] at hat
    refine ⟨_, htest (unitTestDone_region_settled h hsettled (testRegion_of_fail h hfail) ?_), ?_, hat⟩
    · rw [logFault_boot, (Contained.putRegion ..).boot]
      rfl
    · rw [unitSt_logFault, unitSt_putRegion_self]

end

section
/-!
PROOFS. Requests to the Maintenance Arbiters (R377 to R380) and the activities they start.
-/

namespace Sys2Proof.Machine

/-! ### Tables and numbers -/

theorem tset_tset {α : Type} (t : Tbl α) (k : Nat) (v w : α) : tset (tset t k v) k w = tset t k w := by
  induction t with
  | nil => simp [tset]
  | cons e t ih =>
    obtain ⟨j, x⟩ := e
    simp only [tset]
    split
    · simp [tset]
    · split
      · simp [tset]
      · next hlt hne => simp [tset, hlt, hne, ih]

/-- Only the last write of a region's state counts. -/
theorem setRgn_setRgn (s : State) (r : Nat) (x y : Region) : setRgn (setRgn s r x) r y = setRgn s r y := by
  rw [setRgn, setRgn, setRgn, tset_tset]

theorem leBytes_mod (n v : Nat) : leBytes n (v % 2 ^ (8 * n)) = leBytes n v := by
  induction n generalizing v with
  | zero => rfl
  | succ n ih =>
    have hpow : 2 ^ (8 * (n + 1)) = 256 * 2 ^ (8 * n) := by rw [Nat.mul_succ, Nat.pow_add, Nat.mul_comm]
    rw [leBytes, leBytes, hpow, Nat.mod_mul_right_div_self, ih]
    congr 1
    refine BitVec.eq_of_toNat_eq ?_
    rw [BitVec.toNat_ofNat, BitVec.toNat_ofNat]
    exact Nat.mod_mul_right_mod v 256 _

theorem ofNat_leNat_leBytes (v : Nat) : BitVec.ofNat 64 (leNat (leBytes 8 v)) = BitVec.ofNat 64 v := by
  rw [← leBytes_mod, leNat_leBytes (Nat.mod_lt _ (by decide))]
  exact BitVec.eq_of_toNat_eq (by simp)

/-! ### The word of a request -/

theorem bits_actWord_code (r : Nat) (code : Fin 7) (a : ArrId) : bits (actWord r code a) 2 0 = code.val := by
  have hcode := code.isLt
  rw [bits_code, actWord]
  omega

theorem bits_actWord_array (r : RgnId) (code : Fin 7) (a : ArrId) : Fin.ofNat 16 (bits (actWord r.val code a) 11 8) = a := by
  have hcode := code.isLt
  have ha := a.isLt
  refine Fin.ext ?_
  rw [Fin.val_ofNat, bits, Nat.shiftRight_eq_div_pow, actWord]
  have hr : 2 ^ r.val ≤ 2 ^ 3 := Nat.pow_le_pow_right (by decide) (by omega)
  omega

theorem named_actWord (r : RgnId) (code : Fin 7) (a : ArrId) :
    [0, 1, 2, 3].filter (fun n => bits (actWord r.val code a) (4 + n) (4 + n) == 1) = [r.val] := by
  have hbit (n : Nat) (hn : n < 4) : bits (actWord r.val code a) (4 + n) (4 + n) = if n = r.val then 1 else 0 := by
    have hcode := code.isLt
    rw [bits, Nat.shiftRight_eq_div_pow, actWord]
    obtain ⟨r, hr⟩ := r
    interval_cases r <;> interval_cases n <;> simp <;> omega
  rw [List.filter_congr (q := fun n => decide (n = r.val)) fun n hn => ?_]
  · obtain ⟨r, hr⟩ := r
    interval_cases r <;> rfl
  · have hlt : n < 4 := by
      simp only [List.mem_cons, List.not_mem_nil, or_false] at hn
      omega
    rw [hbit n hlt]
    by_cases h : n = r.val <;> simp [h]

theorem requestActs_one (s : State) (m : Master) (r : Nat) (a : MaintAct) : requestActs s m [r] a = requestAct s m r a := by
  show ((requestAct s m r a).1, false || (requestAct s m r a).2) = _
  rw [Bool.false_or]

theorem maintWord_actWord (s : State) (m : Master) (r : RgnId) (code : Fin 7) (a : ArrId) : maintWord s m (actWord r.val code a) =
    if code = 6 then snapAct (wake s) m [r.val] { code := code, array := a } else requestAct (wake s) m r.val { code := code, array := a } := by
  have hcode : (if h : bits (actWord r.val code a) 2 0 < 7 then some (⟨bits (actWord r.val code a) 2 0, h⟩ : Fin 7) else none) = some code := by
    rw [dif_pos (by rw [bits_actWord_code]; exact code.isLt)]
    exact congrArg some (Fin.ext (bits_actWord_code ..))
  rw [maintWord, hcode]
  show (if (code == 6) = true then _ else _) = _
  rw [bits_actWord_array, named_actWord, requestActs_one]
  simp only [beq_iff_eq]

theorem wake_wake (s : State) : wake (wake s) = wake s := by
  have hp : ((wake s).boot.pstate == 2) = false := by
    unfold wake
    split
    · dsimp only
      split <;> decide
    · next h => exact Bool.eq_false_iff.mpr h
  rw [wake, hp]
  rfl

theorem maintWord_actWord_wake (s : State) (m : Master) (r : RgnId) (code : Fin 7) (a : ArrId) :
    maintWord (wake s) m (actWord r.val code a) = maintWord s m (actWord r.val code a) := by
  rw [maintWord_actWord, maintWord_actWord, wake_wake]

/-! ### Both masters (R379) -/

/-- The master of a request. -/
def masterOf : MaintFrom → Master
  | .host _ => .host
  | .mgmt _ => .mgmt

/-- The request's master holds the token and is answered. -/
structure MaintHeard (s : State) (m : MaintFrom) : Prop where
  host : ∀ p, m = .host p → hostAnswers s p.val = true ∧ s.mnt.holder = 1
  mgmt : ∀ h, m = .mgmt h → sbdTakes s h = true ∧ s.sbd.session = true ∧ s.mnt.holder = 2 ∧ s.boot.ready = true

/-- What a master is told: the host by the answer of its port, the management controller by the completion of its command. -/
def Told (s t : State) (m : MaintFrom) (code : Byte) : Prop :=
  (∀ p, m = .host p → (getHp t p.val).resp = .ok ∧ t.sbd = s.sbd) ∧
  (∀ h, m = .mgmt h → t.sbd = { s.sbd with resp := .done 0x12 h.inst code [] } ∧ t.hp = s.hp)

/-- A heard request is its word's, and then the answer. -/
theorem maintCommand_of_heard {s : State} {m : MaintFrom} {r : RgnId} {code : Fin 7} {a : ArrId} (h : MaintHeard s m) {u : State} {d : Bool}
    (hu : maintWord s (masterOf m) (actWord r.val code a) = (u, d)) : ∃ t, maintCommand s m r.val code a = t ∧
      t = { u with sbd := t.sbd, hp := t.hp } ∧ (u.hp = s.hp → u.sbd = s.sbd → Told s t m (if d then 0x01 else 0x00)) := by
  cases m with
  | host p =>
    obtain ⟨hans, htok⟩ := h.host p rfl
    have hholds : holds (wake s) .host = true := by
      rw [holds, wake_mnt, htok]
      rfl
    refine ⟨respond u p.val .ok, ?_, rfl, fun _ hsbd => ⟨fun q hq => ?_, nofun⟩⟩
    · rw [maintCommand, hostWord_of_answers _ hans, hostMaint, if_pos hholds, maintWord_actWord_wake, show maintWord s .host _ = _ from hu]
    · obtain rfl := MaintFrom.host.inj hq
      exact ⟨getHp_respond_resp .., hsbd⟩
  | mgmt q =>
    obtain ⟨htakes, hsession, htok, hready⟩ := h.mgmt q rfl
    have hcode : bits (actWord r.val code a) 2 0 ≠ 7 := by
      rw [bits_actWord_code]
      exact Nat.ne_of_lt code.isLt
    refine ⟨sbdDone u 0x12 q (if d then 0x01 else 0x00), ?_, rfl, fun hhp hsbd => ⟨nofun, fun q' hq => ?_⟩⟩
    · rw [maintCommand, sbdMaint_of_token htakes hsession htok hcode hready, show maintWord s .mgmt _ = _ from hu]
    · obtain rfl := MaintFrom.mgmt.inj hq
      exact ⟨by rw [← hsbd]; rfl, hhp⟩

/-! ### Activities that start -/

theorem startAct_scrub (s : State) (r : Nat) (a : ArrId) : startAct s r { code := 0, array := a } = setRgn s r { getRgn s r with
    running := (getRgn s r).running ++ [{ code := 0, array := a }], scrub := [], scrubFrom := (getRgn s r).scycle } := by
  show setRgn (setRgn s r _) r _ = _
  rw [setRgn_setRgn, getRgn_setRgn]

/-- Recalibration and the reload of fuses only occupy the region. -/
theorem startAct_plain {s : State} {r : Nat} {a : MaintAct} (h : a.code = 2 ∨ a.code = 3) :
    startAct s r a = setRgn s r { getRgn s r with running := (getRgn s r).running ++ [a] } := by
  obtain ⟨code, array⟩ := a
  rcases h with h | h
  · obtain rfl : code = 2 := h
    rfl
  · obtain rfl : code = 3 := h
    rfl

theorem startAct_rngTest (s : State) (r : Nat) (a : ArrId) : startAct s r { code := 4, array := a } = setRgn s r { getRgn s r with
    running := (getRgn s r).running ++ [{ code := 4, array := a }]
    rngReqs := (getRgn s r).rngReqs ++ [{ cls := 4, unit := r, tag := 0, count := 32, arrived := (getRgn s r).rcycle }] } := by
  show setRgn (setRgn s r _) r _ = _
  rw [setRgn_setRgn, getRgn_setRgn]
  rfl

theorem startAct_compaction (s : State) (r : Nat) (a : ArrId) : ∃ y, startAct s r { code := 5, array := a } = setRgn s r y ∧
    y.running = (getRgn s r).running ++ [{ code := 5, array := a }] ∧
    y.journal = tmap (fun _ e => compactEntry e) (getRgn s r).journal ∧ y.bankReqs = (getRgn s r).bankReqs ++ compactReqs (getRgn s r) := by
  refine ⟨_, setRgn_setRgn s r _ _, ?_⟩
  rw [getRgn_setRgn]
  exact ⟨rfl, rfl, rfl⟩

theorem journalRecord_compactEntry (e : JEntry) : journalRecord (compactEntry e) = journalRecord e := by
  unfold compactEntry
  split <;> rfl

theorem thas_tmap {α : Type} (f : Nat → α → α) (t : Tbl α) (k : Nat) : thas (tmap f t) k = thas t k := by
  induction t with
  | nil => rfl
  | cons e t ih =>
    show (e.1 == k || thas (tmap f t) k) = (e.1 == k || thas t k)
    rw [ih]

/-- Compaction leaves the records that readers see. -/
theorem journalSummary_compacted (x : Region) (j : Nat) (y : Region) (h : y.journal = tmap (fun _ e => compactEntry e) x.journal) :
    journalSummary y j = journalSummary x j := by
  have hrec : journalRecord (tget { a := [], b := [], lostA := false, lostB := false } y.journal j) =
      journalRecord (tget { a := [], b := [], lostA := false, lostB := false } x.journal j) := by
    rw [h, tget_tmap _ _ _ _ (by rfl), journalRecord_compactEntry]
  rw [journalSummary, journalSummary, hrec, h, thas_tmap]

/-- A compacted entry has two equal good copies, or none. -/
theorem copies_of_compacted {t : Tbl JEntry} {x : Nat × JEntry} (hx : x ∈ tmap (fun _ e => compactEntry e) t)
    (h : ¬(x.2.lostA = true ∧ x.2.lostB = true)) : x.2.lostA = false ∧ x.2.lostB = false ∧ x.2.a = x.2.b := by
  obtain ⟨y, -, rfl⟩ := List.mem_map.mp hx
  revert h
  show ¬((compactEntry y.2).lostA = true ∧ (compactEntry y.2).lostB = true) →
    (compactEntry y.2).lostA = false ∧ (compactEntry y.2).lostB = false ∧ (compactEntry y.2).a = (compactEntry y.2).b
  unfold compactEntry
  split
  · next hlost => exact fun h => absurd (Bool.and_eq_true_iff.mp hlost) h
  · exact fun _ => ⟨rfl, rfl, rfl⟩

/-! ### The array's self-test (R381) -/

theorem disableUnit_array_rest (s : State) (n : Nat) :
    disableUnit s .array n = { s with units := (disableUnit s .array n).units, arrs := (disableUnit s .array n).arrs, tlm := (disableUnit s .array n).tlm } := by
  by_cases h : unitSt s .array n = .live
  · exact (disableUnit_of_live h (by decide) (.inl (by decide))).2.2
  · rw [disableUnit_of_not_live h]

theorem getRgn_enableUnit_array (s : State) (n r : Nat) : getRgn (enableUnit s .array n) r = getRgn s r := by
  show getRgn (if !isLive s .region (regionOf .array n) then logIgnored s .array n else
    if unitSt s .array n == .fenced || unitSt s .array n == .disabled then putUnit (dropOwned s .array n) .array n .testing else s) r = _
  split
  · exact getRgn_logFault ..
  · split <;> rfl

theorem getRgn_startSelfTest (s : State) (n r : Nat) : getRgn (startSelfTest s n) r = getRgn s r := by
  unfold startSelfTest
  split
  · rw [disableUnit_array_rest]
    rfl
  · exact getRgn_enableUnit_array ..
  · exact getRgn_enableUnit_array ..
  · rfl

theorem startSelfTest_of_live {s : State} {n : Nat} (h : unitSt s .array n = .live) : unitSt (startSelfTest s n) .array n = .draining ∧
    (getUnit (startSelfTest s n).units .array n).forTest = true := by
  have hrun : startSelfTest s n = { disableUnit s .array n with
      units := setUnit (disableUnit s .array n).units .array n { st := .draining, prior := .live, forTest := true } } := by
    rw [startSelfTest, h]
  rw [hrun]
  have hunit : getUnit (setUnit (disableUnit s .array n).units .array n { st := .draining, prior := .live, forTest := true }) .array n =
      { st := .draining, prior := .live, forTest := true } := (getUnit_setUnit ..).trans (if_pos ⟨rfl, rfl⟩)
  exact ⟨congrArg MUnit.st hunit, congrArg MUnit.forTest hunit⟩

theorem startSelfTest_of_out {s : State} {n : Nat} (h : unitSt s .array n = .disabled ∨ unitSt s .array n = .fenced)
    (hrgn : unitSt s .region (n / 4) = .live) : unitSt (startSelfTest s n) .array n = .testing := by
  have hrun : startSelfTest s n = enableUnit s .array n := by
    rw [startSelfTest]
    rcases h with h | h <;> rw [h]
  rw [hrun, enableUnit_of_out (by decide) h.symm hrgn, unitSt_putUnit_self]

/-! ### The snapshot (R359, R360) -/

theorem rdByte_applyWrites_below (ws : List MemWrite) {x : Nat} (h : ∀ w ∈ ws, x < w.addr) (ms : Mems) (sp : Space) :
    rdByte (applyWrites ms ws) sp x = rdByte ms sp x := by
  induction ws generalizing ms with
  | nil => rfl
  | cons w ws ih =>
    show rdByte (applyWrites (wrBytes ms w.sp w.addr w.bytes) ws) sp x = _
    rw [ih (fun v hv => h v (List.mem_cons_of_mem _ hv)), rdByte_wrBytes_outside _ _ _ _ _ _ (.inr (.inl (h w List.mem_cons_self)))]

/-- The writes of a snapshot behind its first one: the zero gap and the accounting records. -/
def snapLater (s : State) : List MemWrite :=
  { sp := .mem, addr := s.regs.snapBase.toNat + 0x580, bytes := List.replicate 0xA80 0 } ::
  (List.range 4096).map (fun c => { sp := .mem, addr := s.regs.snapBase.toNat + 0x1000 + 64 * c, bytes := acctBytes (getAcct s c) })

theorem snapWrites_eq (s : State) : snapWrites s = { sp := .mem, addr := s.regs.snapBase.toNat
                                                     bytes := snapHeader s ++ islSection s ++ thermalSection s ++ counterSection s } :: snapLater s := by
  rw [snapWrites, snapLater]
  rfl

theorem snapLater_above {s : State} {w : MemWrite} (h : w ∈ snapLater s) : s.regs.snapBase.toNat + 0x580 ≤ w.addr := by
  rcases List.mem_cons.mp h with rfl | h
  · exact Nat.le_refl _
  · obtain ⟨c, -, rfl⟩ := List.mem_map.mp h
    dsimp only
    omega

theorem applyWrites_cons (ms : Mems) (w : MemWrite) (ws : List MemWrite) :
    applyWrites ms (w :: ws) = applyWrites (wrBytes ms w.sp w.addr w.bytes) ws := rfl

/-- The block begins with T. -/
theorem rd64_snapWrites (s : State) (ms : Mems) : rd64 (applyWrites ms (snapWrites s)) .mem s.regs.snapBase.toNat = BitVec.ofNat 64 s.time.t := by
  have hbytes : rdBytes (applyWrites ms (snapWrites s)) .mem s.regs.snapBase.toNat (leBytes 8 s.time.t).length = leBytes 8 s.time.t := by
    refine rdBytes_of_getD _ _ fun k hk => ?_
    have hlen : k < 8 := by rwa [length_leBytes] at hk
    have hbelow : ∀ w ∈ snapLater s, s.regs.snapBase.toNat + k < w.addr := fun w hw => by
      have habove := snapLater_above hw
      omega
    rw [snapWrites_eq, applyWrites_cons, rdByte_applyWrites_below _ hbelow, rdByte_wrBytes]
    dsimp only
    have hin : Space.mem = Space.mem ∧ s.regs.snapBase.toNat ≤ s.regs.snapBase.toNat + k ∧ s.regs.snapBase.toNat + k <
        s.regs.snapBase.toNat + (snapHeader s ++ islSection s ++ thermalSection s ++ counterSection s).length := by
      refine ⟨rfl, by omega, ?_⟩
      simp only [snapHeader, List.length_append, length_leBytes]
      omega
    rw [if_pos hin, Nat.add_sub_cancel_left, snapHeader]
    simp only [List.append_assoc]
    rw [List.getD_append _ _ _ _ hk]
  rw [length_leBytes] at hbytes
  rw [rd64, rdLe, hbytes, ofNat_leNat_leBytes]

/-- What a snapshot changes. -/
structure Snapped (s t : State) : Prop where
  rest : t = { s with mems := t.mems, tlm := t.tlm, pwr := t.pwr, mp := t.mp }
  tlm : t.tlm = { s.tlm with seq := s.tlm.seq + 1 }
  time : rd64 t.mems .mem s.regs.snapBase.toNat = BitVec.ofNat 64 s.time.t

/-- The machine with a snapshot's block in memory, before its writes are queued. -/
def snapTaken (s : State) (ms : Mems) : State :=
  { s with mems := ms, tlm := { s.tlm with seq := s.tlm.seq + 1 }, pwr := { s.pwr with maxTemps := s.pwr.temps } }

theorem snapped_snapTaken {s : State} {ms : Mems} (m : Tbl MemPort) (h : rd64 ms .mem s.regs.snapBase.toNat = BitVec.ofNat 64 s.time.t) :
    Snapped s { snapTaken s ms with mp := m } := ⟨rfl, rfl, h⟩

theorem writeSnapshot_of_reached {s : State} {r : Nat} (h : xlateAt s.env s.regs.engineAsid s.regs.snapBase.toNat 0x41000 = none) :
    writeSnapshot s r = queueSnapshot (snapTaken s (applyWrites s.mems (snapWrites s))) r ((snapWrites s).flatMap (·.bytes)) := by
  unfold writeSnapshot
  simp only [h]
  unfold snapTaken
  with_reducible rfl

theorem snapped_writeSnapshot {s : State} {r : Nat} (h : xlateAt s.env s.regs.engineAsid s.regs.snapBase.toNat 0x41000 = none) :
    Snapped s (writeSnapshot s r) := by
  obtain ⟨m, hm⟩ := queueSnapshot_rest (snapTaken s (applyWrites s.mems (snapWrites s))) r ((snapWrites s).flatMap (·.bytes))
  rw [writeSnapshot_of_reached h, hm]
  exact snapped_snapTaken m (rd64_snapWrites s s.mems)

theorem startAct_snapshot (s : State) (r : Nat) (a : ArrId) : startAct s r { code := 6, array := a } =
    snapPart (setRgn s r { getRgn s r with running := (getRgn s r).running ++ [{ code := 6, array := a }] }) r := rfl

/-- The part of the last region that owes one writes the block. -/
theorem snapPart_of_last {s : State} {r : Nat} (hbase : s.regs.snapBase ≠ 0) (hleft : s.tlm.snapLeft.filter (· != r) = []) :
    snapPart s r = writeSnapshot { s with tlm := { s.tlm with snapLeft := [] } } r := by
  have hb : (s.regs.snapBase == 0) = false := beq_false_of_ne hbase
  have hrun : snapPart s r = writeSnapshot { s with tlm := { s.tlm with snapLeft := s.tlm.snapLeft.filter (· != r) } } r :=
    (if_neg (by rw [hb]; decide)).trans (if_pos (by rw [hleft]; rfl))
  rw [hrun, hleft]

/-- The part of another region is only ticked off. -/
theorem snapPart_of_more {s : State} {r : Nat} (hleft : s.tlm.snapLeft.filter (· != r) ≠ []) :
    snapPart s r = { s with tlm := { s.tlm with snapLeft := s.tlm.snapLeft.filter (· != r) } } := by
  have he : (s.tlm.snapLeft.filter (· != r)).isEmpty = false := by rwa [List.isEmpty_eq_false_iff]
  refine ite_cases (q := fun t => t = _) (fun _ => rfl) (fun _ => if_neg ?_)
  rw [he]
  exact Bool.false_ne_true

theorem snapAct_of_free {s : State} {m : Master} {named : List Nat} {a : MaintAct} (hbase : s.regs.snapBase ≠ 0)
    (hfree : ∀ n, n < 4 → snapBusy s n = false) :
    snapAct s m named a = requestActs { s with tlm := { s.tlm with snapLeft := named.filter (maintRegion s) } } m named a := by
  have hb : (s.regs.snapBase == 0) = false := beq_false_of_ne hbase
  have hbusy : [0, 1, 2, 3].any (snapBusy s) = false := by
    rw [List.any_eq_false]
    intro n hn
    simp only [List.mem_cons, List.not_mem_nil, or_false] at hn
    rw [hfree n (by omega)]
    exact Bool.false_ne_true
  simp only [snapAct, hb, hbusy]
  rfl

end Sys2Proof.Machine

end

section
/-!
PROOFS. Maintenance requests start their activities (R377 to R381), settled.
-/

namespace Sys2Proof.Machine

theorem maintRegion_wake (s : State) (r : Nat) : maintRegion (wake s) r = maintRegion s r := by
  rw [maintRegion, configured, wake_cfg, unitSt_wake, maintRegion, configured]

theorem wake_hp (s : State) : (wake s).hp = s.hp := by rw [wake_rest]
theorem wake_sbd (s : State) : (wake s).sbd = s.sbd := by rw [wake_rest]

/-- The codes that run for the region as a whole fit every region. -/
theorem actFits_of_ne {r : Nat} {a : MaintAct} (h : a.code ≠ 1) : actFits r a = true := by
  rw [actFits, bne_iff_ne.mpr h]
  rfl

theorem actFits_array (a : ArrId) : actFits (a.val / 4) { code := 1, array := a } = true := by simp [actFits]

/-- Where nothing runs or waits, the request starts its activity. -/
theorem maintWord_of_free {s : State} {r : RgnId} {code : Fin 7} {a : ArrId} (m : Master) (hcode : code ≠ 6)
    (hfits : actFits r.val { code := code, array := a } = true) (hrgn : maintRegion s r.val = true) (hrunning : (getRgn s r.val).running = [])
    (hqueued : (getRgn s r.val).queued = []) :
    maintWord s m (actWord r.val code a) = (startAct (wake s) r.val { code := code, array := a }, false) := by
  rw [maintWord_actWord, if_neg hcode,
    requestAct_of_free (by rwa [maintRegion_wake]) hfits (by rwa [getRgn_wake]) (by rwa [getRgn_wake])]

/-- What the start of a scrub, a recalibration, a reload or an RNG self-test leaves of its region. -/
structure QuietStart (code : Fin 7) (x y : Region) : Prop where
  rest : y = { x with
    running := x.running ++ [{ code := code, array := 0 }], rngReqs := y.rngReqs, scrub := if code = 0 then [] else x.scrub
    scrubFrom := if code = 0 then x.scycle else x.scrubFrom }
  quiet : code ≠ 4 → y.rngReqs = x.rngReqs
  vectors : code = 4 → ∃ q, y.rngReqs = x.rngReqs ++ [q] ∧ q.cls = 4

theorem startAct_quiet {s : State} {r : Nat} {code : Fin 7} (h : code = 0 ∨ code = 2 ∨ code = 3 ∨ code = 4) :
    ∃ y, startAct s r { code := code, array := 0 } = setRgn s r y ∧ QuietStart code (getRgn s r) y := by
  rcases h with rfl | rfl | rfl | rfl
  · exact ⟨_, startAct_scrub s r 0, rfl, fun _ => rfl, fun h => absurd h (by decide)⟩
  · exact ⟨_, startAct_plain (.inl rfl), rfl, fun _ => rfl, fun h => absurd h (by decide)⟩
  · exact ⟨_, startAct_plain (.inr rfl), rfl, fun _ => rfl, fun h => absurd h (by decide)⟩
  · exact ⟨_, startAct_rngTest s r 0, rfl, fun h => absurd rfl h, fun _ => ⟨_, rfl, rfl⟩⟩

/-- The commands of `quietMaint` are requests for their codes. -/
theorem exec_quietMaint {m : MaintFrom} {r : RgnId} {x : Fin 7 × Instr} (hx : x ∈ quietMaint m r) (s : State) :
    exec x.2 s = .next (maintCommand s m r.val x.1 0) ∧ (x.1 = 0 ∨ x.1 = 2 ∨ x.1 = 3 ∨ x.1 = 4) := by
  simp only [quietMaint, List.mem_cons, List.not_mem_nil, or_false] at hx
  rcases hx with rfl | rfl | rfl | rfl
  · exact ⟨rfl, .inl rfl⟩
  · exact ⟨rfl, .inr (.inl rfl)⟩
  · exact ⟨rfl, .inr (.inr (.inl rfl))⟩
  · exact ⟨rfl, .inr (.inr (.inr rfl))⟩

/-- A snapshot's request of one free region writes the block. -/
theorem snapAct_one {s : State} {m : Master} {r : Nat} {a : ArrId} (hbase : s.regs.snapBase ≠ 0) (hfree : ∀ n, n < 4 → snapBusy s n = false)
    (hreach : xlateAt s.env s.regs.engineAsid s.regs.snapBase.toNat 0x41000 = none) (hrgn : maintRegion s r = true)
    (hrunning : (getRgn s r).running = []) (hqueued : (getRgn s r).queued = []) :
    ∃ u w, snapAct s m [r] { code := 6, array := a } = (w, false) ∧ Snapped u w ∧
      u = { s with rgns := u.rgns, tlm := { s.tlm with snapLeft := [] } } ∧ (getRgn u r).running = [{ code := 6, array := a }] := by
  have hone : [r].filter (maintRegion s) = [r] := by rw [List.filter_cons_of_pos hrgn, List.filter_nil]
  have hleft : [r].filter (fun n => n != r) = [] := by rw [List.filter_cons_of_neg (by simp), List.filter_nil]
  rw [snapAct_of_free hbase hfree, hone, requestActs_one,
    requestAct_of_free (by exact hrgn) (actFits_of_ne (by decide : (6 : Fin 7) ≠ 1)) (by exact hrunning) (by exact hqueued), startAct_snapshot,
    snapPart_of_last (by exact hbase) (by exact hleft)]
  refine ⟨_, _, rfl, snapped_writeSnapshot hreach, rfl, ?_⟩
  show (getRgn (setRgn _ r _) r).running = _
  rw [getRgn_setRgn]
  show (getRgn s r).running ++ _ = _
  rw [hrunning]
  rfl

end Sys2Proof.Machine

open Sys2Proof Sys2Proof.Machine

/-- Settles O23: a heard request runs its word, and the word starts the activity. -/
theorem maintenanceStarts : Obligations.MaintenanceStarts := by
  unfold Obligations.MaintenanceStarts
  intro s m r a hhost hmgmt told
  have hheard : MaintHeard s m := ⟨hhost, hmgmt⟩
  have hrun {c : Nat} {code : Fin 7} {b : ArrId} {i : Instr} (hi : exec i s = .next (maintCommand s m c code b)) {t : State}
      (ht : maintCommand s m c code b = t) : exec i s = .next t := by rw [hi, ht]
  refine ⟨fun hrgn hrunning hqueued => ⟨fun x hx => ?_, ?_, fun hbase hfree hreach => ?_⟩, fun hrgn hrunning hqueued => ?_⟩
  · obtain ⟨hexec, hcode⟩ := exec_quietMaint hx s
    have hne : x.1 ≠ 6 ∧ x.1 ≠ 1 := by rcases hcode with h | h | h | h <;> rw [h] <;> decide
    obtain ⟨y, hstart, hquiet⟩ := startAct_quiet (s := wake s) (r := r.val) hcode
    have hword := maintWord_of_free (a := 0) (masterOf m) hne.1 (actFits_of_ne hne.2) hrgn hrunning hqueued
    rw [hstart] at hword
    rw [getRgn_wake] at hquiet
    obtain ⟨t, ht, hrest, htold⟩ := maintCommand_of_heard hheard hword
    have hself : getRgn t r.val = y := by rw [hrest]; exact getRgn_setRgn ..
    refine ⟨t, hrun hexec ht, by rw [hrest]; rfl, htold (wake_hp s) (wake_sbd s), ?_, ?_, ?_, fun n hn => ?_⟩
    · rw [hself]
      have hrest' := hquiet.rest
      rwa [hrunning] at hrest'
    · rw [hself]
      exact hquiet.quiet
    · rw [hself]
      exact hquiet.vectors
    · rw [hrest]
      exact (getRgn_setRgn_ne _ _ _ _ hn).trans (getRgn_wake s n)
  · have hword := maintWord_of_free (a := 0) (masterOf m) (by decide : (5 : Fin 7) ≠ 6) (actFits_of_ne (by decide)) hrgn hrunning hqueued
    obtain ⟨y, hstart, hact, hjournal, hreqs⟩ := startAct_compaction (wake s) r.val 0
    rw [getRgn_wake] at hact hjournal hreqs
    rw [hstart] at hword
    obtain ⟨t, ht, hrest, htold⟩ := maintCommand_of_heard hheard hword
    have hself : getRgn t r.val = y := by rw [hrest]; exact getRgn_setRgn ..
    refine ⟨t, hrun rfl ht, by rw [hrest]; rfl, htold (wake_hp s) (wake_sbd s), ?_, ?_, fun j => ?_, fun x hx => ?_, fun n hn => ?_⟩
    · rw [hself, hact, hrunning]
      rfl
    · rw [hself, hreqs]
    · rw [hself]
      exact journalSummary_compacted _ j _ hjournal
    · rw [hself, hjournal] at hx
      exact copies_of_compacted hx
    · rw [hrest]
      exact (getRgn_setRgn_ne _ _ _ _ hn).trans (getRgn_wake s n)
  · have hregs : (wake s).regs = s.regs := by rw [wake_rest]
    have hbusy (n : Nat) (hn : n < 4) : snapBusy (wake s) n = false := by rw [snapBusy, getRgn_wake]; exact hfree n hn
    obtain ⟨u, w, hsnap, hsnapped, hu, hact⟩ := snapAct_one (s := wake s) (m := masterOf m) (r := r.val) (a := 0) (by rwa [hregs]) hbusy
      (by rw [wake_rest]; exact hreach) (by rw [maintRegion_wake]; exact hrgn) (by rw [getRgn_wake]; exact hrunning)
      (by rw [getRgn_wake]; exact hqueued)
    have hword : maintWord s (masterOf m) (actWord r.val 6 0) = (w, false) := by rw [maintWord_actWord, if_pos rfl, hsnap]
    obtain ⟨t, ht, hrest, -⟩ := maintCommand_of_heard hheard hword
    have hregs' : u.regs = s.regs := by rw [hu, hregs]
    have htime : u.time = s.time := by rw [hu, wake_rest]
    have htlm : u.tlm = { s.tlm with snapLeft := [] } := by rw [hu, wake_rest]
    have hrgns : w.rgns = u.rgns := by rw [hsnapped.rest]
    refine ⟨t, hrun rfl ht, ?_, ?_, ?_⟩
    · have hself : getRgn t r.val = getRgn u r.val := by rw [hrest, getRgn, getRgn, ← hrgns]
      rw [hself, hact]
    · rw [hrest, hsnapped.tlm, htlm]
    · have hmems := hsnapped.time
      rw [hregs', htime] at hmems
      rwa [hrest]
  · obtain ⟨q, hq⟩ : ∃ q : RgnId, q.val = a.val / 4 := ⟨⟨a.val / 4, by omega⟩, rfl⟩
    rw [← hq] at hrgn hrunning hqueued
    have hword := maintWord_of_free (a := a) (masterOf m) (by decide : (1 : Fin 7) ≠ 6) (by rw [hq]; exact actFits_array a) hrgn hrunning hqueued
    obtain ⟨t, ht, hrest, -⟩ := maintCommand_of_heard hheard hword
    have hst (k : UnitKind) (n : Nat) : unitSt (setRgn (wake s) q.val { getRgn (wake s) q.val with
        running := (getRgn (wake s) q.val).running ++ [{ code := 1, array := a }] }) k n = unitSt s k n := unitSt_wake s k n
    have hstart : startAct (wake s) q.val { code := 1, array := a } = startSelfTest (setRgn (wake s) q.val { getRgn (wake s) q.val with
        running := (getRgn (wake s) q.val).running ++ [{ code := 1, array := a }] }) a.val := rfl
    rw [hstart] at hrest
    refine ⟨t, hrun (c := q.val) (by rw [hq]; rfl) ht, ?_, fun hlive => ?_, fun hout hlive => ?_⟩
    · rw [hrest, ← hq]
      show (getRgn (startSelfTest _ a.val) q.val).running = _
      rw [getRgn_startSelfTest, getRgn_setRgn, getRgn_wake]
      show (getRgn s q.val).running ++ _ = _
      rw [hrunning]
      rfl
    · rw [hrest]
      exact startSelfTest_of_live (by rwa [hst])
    · rw [hrest]
      exact startSelfTest_of_out (by rwa [hst]) (by rwa [hst])

end

section
/-!
PROOFS. Maintenance requests queue, merge, start and end (R377 to R382), settled.
-/

namespace Sys2Proof.Machine

/-! ### A request that waits, merges or is not taken (R379, R382) -/

theorem compatible_comm (a b : MaintAct) : compatible a b = compatible b a := by
  unfold compatible
  dsimp only
  rw [Bool.and_comm (a.code == 1), bne_comm (a := a.array), Bool.or_comm]

theorem sameAct_self (a : MaintAct) : sameAct a a = true := by simp [sameAct]

theorem sameAct_of_ne {a b : MaintAct} (h : a.code ≠ b.code) : sameAct a b = false := by
  rw [sameAct, beq_false_of_ne h]
  rfl

/-- A request that conflicts with the one running activity waits. -/
theorem requestAct_of_conflict {s : State} {m : Master} {r : Nat} {a b : MaintAct} (hrgn : maintRegion s r = true) (hfits : actFits r a = true)
    (hrunning : (getRgn s r).running = [b]) (hqueued : (getRgn s r).queued = []) (hne : a.code ≠ b.code) (hconflict : compatible b a = false) :
    requestAct s m r a = (setRgn s r { getRgn s r with queued := [(m, a)] }, true) := by
  have hbefore : queuedBefore s.mnt.mainDown [] m = [] := by
    rw [queuedBefore]
    split <;> rfl
  have hstart : mayStart [b] [] a = false := by
    show (compatible a b && true && true) = false
    rw [compatible_comm, hconflict]
    rfl
  have hmerge : [b].any (sameAct a) = false := by
    show (sameAct a b || false) = false
    rw [sameAct_of_ne hne]
    rfl
  simp only [requestAct, hrgn, hfits, hrunning, hqueued, hmerge, queueAct, hbefore, List.map_nil, hstart]
  rfl

/-- A request for the activity that runs merges into it. -/
theorem requestAct_of_running {s : State} {m : Master} {r : Nat} {a : MaintAct} (hrgn : maintRegion s r = true) (hfits : actFits r a = true)
    (hrunning : (getRgn s r).running = [a]) : requestAct s m r a = (s, false) := by
  have hmerge : [a].any (sameAct a) = true := by
    show (sameAct a a || false) = true
    rw [sameAct_self]
    rfl
  simp only [requestAct, hrgn, hfits, hrunning, hmerge]
  rfl

theorem requestAct_of_no_region {s : State} {m : Master} {r : Nat} {a : MaintAct} (hrgn : maintRegion s r = false) :
    requestAct s m r a = (s, false) :=
  if_pos (by rw [hrgn]; rfl)

/-! ### Queued activities start (R379) -/

/-- The first of the queue starts where nothing runs. -/
theorem startQueued_of_idle {s : State} {r : Nat} {m : Master} {a : MaintAct} {q : List (Master × MaintAct)} (hrunning : (getRgn s r).running = [])
    (hqueued : (getRgn s r).queued = (m, a) :: q) : startQueued s r = startAct (setRgn s r { getRgn s r with queued := q }) r a := by
  have hpick : pickQueued [] [] ((m, a) :: q) = some (a, q) := if_pos rfl
  simp only [startQueued, hrunning, hqueued, hpick]

/-! ### Activities end -/

/-- The region without its one activity. -/
def endedRgn (s : State) (r : Nat) : State := setRgn s r { getRgn s r with running := [] }

/-- The activity's work is over: what its end does. -/
theorem endAct_of_over {s : State} {r : Nat} {a : MaintAct} (pass : Bool) (fail : W32) (hrunning : (getRgn s r).running = [a])
    (hbusy : actBusy s r a = false) : endAct s r a pass fail = match a.code.val with
      | 1 => testOne (endedRgn s r) .array a.array.val pass
      | 3 => reloadFuses (endedRgn s r) r
      | 4 => rngTestEnd (endedRgn s r) r fail
      | _ => endedRgn s r := by
  have hself : [a].any (sameAct a) = true := by
    show (sameAct a a || false) = true
    rw [sameAct_self]
    rfl
  have hleft : [a].filter (fun b => !sameAct a b) = [] := by
    rw [List.filter_cons_of_neg (by rw [sameAct_self]; decide), List.filter_nil]
  simp only [endAct, hrunning, hbusy, hself, hleft, endedRgn]
  rfl

theorem endAct_of_busy {s : State} {r : Nat} {a : MaintAct} (pass : Bool) (fail : W32) (hbusy : actBusy s r a = true) :
    endAct s r a pass fail = s :=
  if_pos (by rw [hbusy, Bool.or_true])

theorem endAct_plain {s : State} {r : Nat} {a : MaintAct} (pass : Bool) (fail : W32) (hrunning : (getRgn s r).running = [a])
    (hbusy : actBusy s r a = false) (hcode : a.code ∈ [0, 2, 5, 6]) : endAct s r a pass fail = endedRgn s r := by
  rw [endAct_of_over pass fail hrunning hbusy]
  simp only [List.mem_cons, List.not_mem_nil, or_false] at hcode
  rcases hcode with h | h | h | h <;> rw [h] <;> rfl

/-! ### The reload of the fuses (R377) -/

/-- Region `r` has the fuses of arrays 4r to 4r + 3. -/
theorem getLsbD_share (r i : Nat) (hi : i < 16) : (BitVec.ofNat 16 (15 <<< (4 * r))).getLsbD i = decide (i / 4 = r) := by
  rw [BitVec.getLsbD_ofNat, decide_eq_true hi, Bool.true_and, Nat.testBit_shiftLeft, show (15 : Nat) = 2 ^ 4 - 1 from rfl,
    Nat.testBit_two_pow_sub_one, ← Bool.decide_and]
  exact decide_eq_decide.mpr (by omega)

theorem fuse_reloadFuses (s : State) (r i : Nat) (hi : i < 16) : (reloadFuses s r).boot.fuse.getLsbD i =
    if i / 4 = r then s.cfg.otp.getLsbD i else s.boot.fuse.getLsbD i := by
  have hshare := getLsbD_share r i hi
  show ((s.boot.fuse &&& ~~~BitVec.ofNat 16 (15 <<< (4 * r))) ||| (s.cfg.otp &&& BitVec.ofNat 16 (15 <<< (4 * r)))).getLsbD i = _
  rw [BitVec.getLsbD_or, BitVec.getLsbD_and, BitVec.getLsbD_and, BitVec.getLsbD_not, hshare]
  by_cases h : i / 4 = r <;> simp [h, hi]

/-! ### The RNG unit's self-test (R215) -/

theorem getRgn_foldl_logFault {α : Type} (f : State → α → FlogEntry) (l : List α) (s : State) (r : Nat) :
    getRgn (l.foldl (fun t x => logFault t (f t x)) s) r = getRgn s r ∧ (l.foldl (fun t x => logFault t (f t x)) s).boot = s.boot := by
  induction l generalizing s with
  | nil => exact ⟨rfl, rfl⟩
  | cons x l ih =>
    obtain ⟨hrgn, hboot⟩ := ih (logFault s (f s x))
    exact ⟨hrgn.trans (getRgn_logFault ..), hboot.trans (logFault_boot ..)⟩

theorem rngTestEnd_spec (s : State) (r : Nat) (fail : W32) : (rngTestEnd s r fail).boot = s.boot ∧ getRgn (rngTestEnd s r fail) r =
    { getRgn s r with selfDone := true, selfPass := (fail &&& (getRgn s r).lanes == 0), selfFailed := fail,
                      lanes := (getRgn s r).lanes &&& ~~~fail } := by
  obtain ⟨hrgn, hboot⟩ := getRgn_foldl_logFault (fun t l => flogBase t clsArray 7 0x0C l r)
    ((List.range 32).filter (fun l => (fail &&& (getRgn s r).lanes).getLsbD l))
    (setRgn s r { getRgn s r with selfDone := true, selfPass := (fail &&& (getRgn s r).lanes == 0), selfFailed := fail,
                                  lanes := (getRgn s r).lanes &&& ~~~fail }) r
  exact ⟨hboot, hrgn.trans (getRgn_setRgn ..)⟩

/-! ### An array's test leaves its region -/

theorem testOne_array_rgns (s : State) (n : Nat) (pass : Bool) : (testOne s .array n pass).rgns = s.rgns := by
  rcases testOne_cases s .array n pass with ⟨-, h⟩ | ⟨-, -, h⟩ | ⟨-, -, h⟩
  · rw [h]
  · rw [h, (logFault_logOnly ..).rest]
    rfl
  · rw [h, (logFault_logOnly ..).rest]
    rfl

/-! ### Snapshots of every region (R360) -/

theorem requestActs_cons (s : State) (m : Master) (n : Nat) (l : List Nat) (a : MaintAct) :
    (requestActs s m (n :: l) a).1 = (requestActs (requestAct s m n a).1 m l a).1 := by
  have hfold (l : List Nat) : ∀ (u : State) (b c : Bool),
      (l.foldl (fun (acc : State × Bool) r => ((requestAct acc.1 m r a).1, acc.2 || (requestAct acc.1 m r a).2)) (u, b)).1 =
      (l.foldl (fun (acc : State × Bool) r => ((requestAct acc.1 m r a).1, acc.2 || (requestAct acc.1 m r a).2)) (u, c)).1 := by
    induction l with
    | nil => exact fun _ _ _ => rfl
    | cons r l ih => exact fun u b c => ih _ _ _
  exact hfold l _ _ _

/-- The activity of a snapshot. -/
def snapAsked : MaintAct := { code := 6, array := 0 }

/-- Regions that take no maintenance owe no part. -/
theorem requestActs_of_none {s : State} {m : Master} {a : MaintAct} {l : List Nat} (h : ∀ n ∈ l, maintRegion s n = false) :
    (requestActs s m l a).1 = s := by
  induction l with
  | nil => rfl
  | cons n l ih =>
    rw [requestActs_cons, requestAct_of_no_region (h n List.mem_cons_self)]
    exact ih fun k hk => h k (List.mem_cons_of_mem _ hk)

/-- A snapshot is due of the regions of `l` that take maintenance, and none of them does anything. -/
structure SnapDue (s : State) (l : List Nat) : Prop where
  base : s.regs.snapBase ≠ 0
  reach : xlateAt s.env s.regs.engineAsid s.regs.snapBase.toNat 0x41000 = none
  nodup : l.Nodup
  left : s.tlm.snapLeft = l.filter (maintRegion s)
  free : ∀ n ∈ l, (getRgn s n).running = [] ∧ (getRgn s n).queued = []

/-- The part of one region with others behind it: its activity runs, and the others' parts are left. -/
theorem requestAct_snap_of_more {s : State} {m : Master} {n : Nat} {l : List Nat} (h : SnapDue s (n :: l)) (hrgn : maintRegion s n = true)
    (hmore : l.filter (maintRegion s) ≠ []) : ∃ t, requestAct s m n snapAsked = (t, false) ∧ SnapDue t l ∧
      t = { s with rgns := t.rgns, tlm := { s.tlm with snapLeft := l.filter (maintRegion s) } } := by
  obtain ⟨hn, hl⟩ := List.nodup_cons.mp h.nodup
  obtain ⟨hrunning, hqueued⟩ := h.free n List.mem_cons_self
  have hleft : s.tlm.snapLeft.filter (· != n) = l.filter (maintRegion s) := by
    rw [h.left, List.filter_cons_of_pos hrgn, List.filter_cons_of_neg (by simp), List.filter_eq_self]
    intro k hk
    have hne : k ≠ n := fun e => hn (e ▸ (List.mem_filter.mp hk).1)
    simpa using hne
  have hfits : actFits n snapAsked = true := actFits_of_ne (by decide)
  rw [requestAct_of_free hrgn hfits hrunning hqueued, snapAsked, startAct_snapshot, snapPart_of_more (by exact hleft ▸ hmore)]
  refine ⟨_, rfl, ⟨h.base, h.reach, hl, hleft, fun k hk => ?_⟩, ?_⟩
  · have hne : k ≠ n := fun e => hn (e ▸ hk)
    have hself := getRgn_setRgn_ne s n k { getRgn s n with running := (getRgn s n).running ++ [{ code := 6, array := 0 }] } hne
    exact (congrArg (fun x : Region => x.running = [] ∧ x.queued = []) hself).mpr (h.free k (List.mem_cons_of_mem _ hk))
  · show _ = { s with rgns := _, tlm := { s.tlm with snapLeft := l.filter (maintRegion s) } }
    rw [← hleft]
    rfl

/-- The last region's part writes the block. -/
theorem requestAct_snap_of_last {s : State} {m : Master} {n : Nat} {l : List Nat} (h : SnapDue s (n :: l)) (hrgn : maintRegion s n = true)
    (hlast : l.filter (maintRegion s) = []) : ∃ u t, requestAct s m n snapAsked = (t, false) ∧ Snapped u t ∧
      u = { s with rgns := u.rgns, tlm := { s.tlm with snapLeft := [] } } := by
  obtain ⟨hrunning, hqueued⟩ := h.free n List.mem_cons_self
  have hleft : s.tlm.snapLeft.filter (· != n) = [] := by
    rw [h.left, List.filter_cons_of_pos hrgn, hlast, List.filter_cons_of_neg (by simp), List.filter_nil]
  have hfits : actFits n snapAsked = true := actFits_of_ne (by decide)
  rw [requestAct_of_free hrgn hfits hrunning hqueued, snapAsked, startAct_snapshot, snapPart_of_last (by exact h.base) (by exact hleft)]
  exact ⟨_, _, rfl, snapped_writeSnapshot h.reach, rfl⟩

/-- The regions of a snapshot take it in turn, and it is written once. -/
theorem requestActs_snapshot {s : State} {m : Master} {l : List Nat} (h : SnapDue s l) (hsome : l.filter (maintRegion s) ≠ []) :
    (requestActs s m l snapAsked).1.tlm.seq = s.tlm.seq + 1 ∧
    rd64 (requestActs s m l snapAsked).1.mems .mem s.regs.snapBase.toNat = BitVec.ofNat 64 s.time.t := by
  induction l generalizing s with
  | nil => exact absurd rfl hsome
  | cons n l ih =>
    rw [requestActs_cons]
    by_cases hrgn : maintRegion s n = true
    · by_cases hmore : l.filter (maintRegion s) = []
      · obtain ⟨u, t, ht, hsnapped, hu⟩ := requestAct_snap_of_last (m := m) h hrgn hmore
        have hnone (k : Nat) (hk : k ∈ l) : maintRegion t k = false := by
          have hs : maintRegion s k = false := Bool.eq_false_iff.mpr (List.filter_eq_nil_iff.mp hmore k hk)
          rw [hsnapped.rest, hu]
          exact hs
        have hregs : u.regs = s.regs := by rw [hu]
        have htime : u.time = s.time := by rw [hu]
        have htlm : u.tlm.seq = s.tlm.seq := by rw [hu]
        rw [ht, requestActs_of_none hnone, hsnapped.tlm, ← hregs, ← htime, ← htlm]
        exact ⟨rfl, hsnapped.time⟩
      · obtain ⟨t, ht, hdue, hrest⟩ := requestAct_snap_of_more (m := m) h hrgn hmore
        have hsame : maintRegion t = maintRegion s := by rw [hrest]; rfl
        have hregs : t.regs = s.regs := by rw [hrest]
        have htime : t.time = s.time := by rw [hrest]
        have hseq : t.tlm.seq = s.tlm.seq := by rw [hrest]
        rw [ht, ← hregs, ← htime, ← hseq]
        exact ih hdue (by rwa [hsame])
    · have hno : maintRegion s n = false := Bool.eq_false_iff.mpr hrgn
      rw [requestAct_of_no_region hno]
      have hleft := h.left
      rw [List.filter_cons_of_neg (by rw [hno]; decide)] at hleft hsome
      exact ih ⟨h.base, h.reach, (List.nodup_cons.mp h.nodup).2, hleft, fun k hk => h.free k (List.mem_cons_of_mem _ hk)⟩ hsome

/-- A snapshot request where nothing runs or waits. -/
theorem snapRequest_of_free {s : State} (hbase : s.regs.snapBase ≠ 0)
    (hreach : xlateAt s.env s.regs.engineAsid s.regs.snapBase.toNat 0x41000 = none)
    (hfree : ∀ n : RgnId, (getRgn s n.val).running = [] ∧ (getRgn s n.val).queued = []) (hsome : ∃ n : RgnId, maintRegion s n.val = true) :
    (snapRequest s).tlm.seq = s.tlm.seq + 1 ∧ rd64 (snapRequest s).mems .mem s.regs.snapBase.toNat = BitVec.ofNat 64 s.time.t := by
  have hregs : (wake s).regs = s.regs := by rw [wake_rest]
  have htime : (wake s).time = s.time := by rw [wake_rest]
  have htlm : (wake s).tlm = s.tlm := by rw [wake_rest]
  have hidle (n : Nat) (hn : n < 4) : (getRgn (wake s) n).running = [] ∧ (getRgn (wake s) n).queued = [] := by
    rw [getRgn_wake]
    exact hfree ⟨n, hn⟩
  have hmem (n : Nat) (hn : n ∈ [0, 1, 2, 3]) : n < 4 := by
    simp only [List.mem_cons, List.not_mem_nil, or_false] at hn
    omega
  have hbusy (n : Nat) (hn : n < 4) : snapBusy (wake s) n = false := by
    obtain ⟨hrunning, hqueued⟩ := hidle n hn
    rw [snapBusy, hrunning, hqueued]
    rfl
  have hrun : snapRequest s = (snapAct (wake s) .host [0, 1, 2, 3] snapAsked).1 := rfl
  have hdue : SnapDue { wake s with tlm := { (wake s).tlm with snapLeft := [0, 1, 2, 3].filter (maintRegion (wake s)) } } [0, 1, 2, 3] := by
    refine ⟨?_, ?_, by decide, rfl, fun n hn => hidle n (hmem n hn)⟩
    · show (wake s).regs.snapBase ≠ 0
      rw [hregs]
      exact hbase
    · show xlateAt (wake s).env (wake s).regs.engineAsid (wake s).regs.snapBase.toNat 0x41000 = none
      rw [wake_rest]
      exact hreach
  have hsome' : [0, 1, 2, 3].filter (maintRegion (wake s)) ≠ [] := by
    obtain ⟨n, hn⟩ := hsome
    refine List.ne_nil_of_mem (a := n.val) (List.mem_filter.mpr ⟨?_, by rw [maintRegion_wake, hn]⟩)
    have hlt := n.isLt
    simp only [List.mem_cons, List.not_mem_nil, or_false]
    omega
  rw [hrun, snapAct_of_free (by rw [hregs]; exact hbase) hbusy, ← hregs, ← htime, ← htlm]
  exact requestActs_snapshot hdue hsome'

end Sys2Proof.Machine

open Sys2Proof Sys2Proof.Machine

/-- Settles O24: a request by what runs and waits in its region, an activity by its code, and a snapshot by the regions that owe a
part. -/
theorem maintenanceQueuesAndRuns : Obligations.MaintenanceQueuesAndRuns := by
  unfold Obligations.MaintenanceQueuesAndRuns
  refine ⟨fun s h r b htakes hsession htok hready => ?_, fun s r p a pass fail => ⟨fun m q hrunning hqueued => ?_, fun hrunning hsettled => ?_,
    fun hready hrgn hrunning hqueued => ?_, fun hbase hreach hfree hsome => ?_⟩⟩
  · have hheard : MaintHeard s (.mgmt h) := ⟨nofun, fun q hq => MaintFrom.mgmt.inj hq ▸ ⟨htakes, hsession, htok, hready⟩⟩
    have hdone {x : Fin 7 × Instr} (hx : x ∈ quietMaint (.mgmt h) r) {u : State} {d : Bool}
        (hword : requestAct (wake s) .mgmt r.val { code := x.1, array := 0 } = (u, d)) (hhp : u.hp = s.hp) (hsbd : u.sbd = s.sbd) :
        ∃ t, exec x.2 s = .next t ∧ (∀ n, getRgn t n = getRgn u n) ∧ t.sbd.resp = .done 0x12 h.inst (if d then 0x01 else 0x00) [] := by
      obtain ⟨hexec, hcode⟩ := exec_quietMaint hx s
      have hne : x.1 ≠ 6 := by rcases hcode with h | h | h | h <;> rw [h] <;> decide
      obtain ⟨t, ht, hrest, htold⟩ := maintCommand_of_heard (m := .mgmt h) (r := r) (code := x.1) (a := 0) hheard (u := u) (d := d)
        (by rw [maintWord_actWord, if_neg hne]; exact hword)
      refine ⟨t, by rw [hexec, ht], fun n => by rw [hrest]; rfl, ?_⟩
      rw [((htold hhp hsbd).2 h rfl).1]
    have hfits {x : Fin 7 × Instr} (hx : x ∈ quietMaint (.mgmt h) r) : actFits r.val { code := x.1, array := 0 } = true := by
      refine actFits_of_ne ?_
      obtain ⟨-, hcode⟩ := exec_quietMaint hx s
      rcases hcode with h | h | h | h <;> rw [h] <;> decide
    refine ⟨fun hrgn hrunning hqueued x hx hconflict hne => ?_, fun hrgn x hx hrunning => ?_, fun hrgn x hx => ?_⟩
    · have hreq := requestAct_of_conflict (s := wake s) (m := .mgmt) (r := r.val) (b := b) (by rwa [maintRegion_wake]) (hfits hx)
        (by rwa [getRgn_wake]) (by rwa [getRgn_wake]) hne (Bool.eq_false_iff.mpr hconflict)
      obtain ⟨t, ht, hrgns, hresp⟩ := hdone hx hreq (wake_hp s) (wake_sbd s)
      refine ⟨t, ht, ?_, ?_, hresp, fun n hn => ?_⟩
      · rw [hrgns, getRgn_setRgn, getRgn_wake]
        exact hrunning
      · rw [hrgns, getRgn_setRgn]
      · rw [hrgns, getRgn_setRgn_ne _ _ _ _ hn, getRgn_wake]
    · have hreq := requestAct_of_running (s := wake s) (m := .mgmt) (r := r.val) (by rwa [maintRegion_wake]) (hfits hx) (by rwa [getRgn_wake])
      obtain ⟨t, ht, hrgns, hresp⟩ := hdone hx hreq (wake_hp s) (wake_sbd s)
      exact ⟨t, ht, fun n => by rw [hrgns, getRgn_wake], hresp⟩
    · have hreq := requestAct_of_no_region (s := wake s) (m := .mgmt) (r := r.val) (a := { code := x.1, array := 0 }) (by rwa [maintRegion_wake])
      obtain ⟨t, ht, hrgns, hresp⟩ := hdone hx hreq (wake_hp s) (wake_sbd s)
      exact ⟨t, ht, fun n => by rw [hrgns, getRgn_wake], hresp⟩
  · have hexec : exec (.maintQueuedStart r none) s = .next (startAct (setRgn s r.val { getRgn s r.val with queued := q }) r.val a) :=
      congrArg Host.Outcome.next (startQueued_of_idle hrunning hqueued)
    obtain ⟨code, array⟩ := a
    refine ⟨fun hcode => ?_, fun hcode => ?_, fun hcode => ?_⟩
    · simp only [List.mem_cons, List.not_mem_nil, or_false] at hcode
      rw [hexec, startAct_plain hcode, setRgn_setRgn, getRgn_setRgn]
      dsimp only
      rw [hrunning]
      rfl
    · obtain rfl : code = 0 := hcode
      rw [hexec, startAct_scrub, setRgn_setRgn, getRgn_setRgn]
      dsimp only
      rw [hrunning]
      rfl
    · obtain rfl : code = 4 := hcode
      refine ⟨{ cls := 4, unit := r.val, tag := 0, count := 32, arrived := (getRgn s r.val).rcycle }, rfl, ?_⟩
      rw [hexec, startAct_rngTest, setRgn_setRgn, getRgn_setRgn]
      dsimp only
      rw [hrunning]
      rfl
  · have hexec : exec (.maintActivityEnd r a pass fail) s = .next (warmNext (endAct s r.val a pass fail)) := rfl
    have hend {t : State} (ht : endAct s r.val a pass fail = t) (hphase : t.boot.phase = s.boot.phase) (hready : t.boot.ready = s.boot.ready) :
        exec (.maintActivityEnd r a pass fail) s = .next t := by rw [hexec, ht, warmNext_of_settled hsettled hphase hready]
    refine ⟨fun hbusy => hend (endAct_of_busy pass fail hbusy) rfl rfl,
      fun hbusy hcode => hend (endAct_plain pass fail hrunning hbusy hcode) rfl rfl, fun hcode => ?_, fun hcode hclear => ?_, fun hcode htesting => ?_⟩
    · have hbusy : actBusy s r.val a = false := by rw [actBusy, hcode]; rfl
      have hrun : endAct s r.val a pass fail = reloadFuses (endedRgn s r.val) r.val := by
        rw [endAct_of_over pass fail hrunning hbusy, hcode]
        rfl
      exact ⟨_, hend hrun rfl rfl, rfl, rfl, fun i hi => fuse_reloadFuses (endedRgn s r.val) r.val i hi⟩
    · have hbusy : actBusy s r.val a = false := by
        rw [actBusy, hcode]
        exact List.any_eq_false.mpr fun q hq => by simpa using hclear q hq
      have hrun : endAct s r.val a pass fail = rngTestEnd (endedRgn s r.val) r.val fail := by
        rw [endAct_of_over pass fail hrunning hbusy, hcode]
        rfl
      obtain ⟨hboot, hrgn⟩ := rngTestEnd_spec (endedRgn s r.val) r.val fail
      refine ⟨_, hend hrun (congrArg Boot.phase hboot) (congrArg Boot.ready hboot), ?_⟩
      rw [hrgn, endedRgn, getRgn_setRgn]
    · have hbusy : actBusy s r.val a = false := by
        rw [actBusy, hcode]
        show (unitSt s .array a.array.val == .draining) = false
        rw [htesting]
        rfl
      have hrun : endAct s r.val a pass fail = testOne (endedRgn s r.val) .array a.array.val pass := by
        rw [endAct_of_over pass fail hrunning hbusy, hcode]
        rfl
      have hboot : (testOne (endedRgn s r.val) .array a.array.val pass).boot = s.boot := by
        rw [(TestEnds.testOne ..).rest]
        rfl
      refine ⟨_, hend hrun (congrArg Boot.phase hboot) (congrArg Boot.ready hboot), ?_, ?_⟩
      · rw [getRgn, testOne_array_rgns, ← getRgn, endedRgn, getRgn_setRgn]
      · rw [unitSt_testOne, if_pos ⟨rfl, rfl⟩]
        show testedAs pass (unitSt s .array a.array.val) = _
        rw [htesting]
        rfl
  · have hword := maintWord_of_free (a := 0) .host (by decide : (0 : Fin 7) ≠ 6) (actFits_of_ne (by decide)) hrgn hrunning hqueued
    have hexec : exec (.autoScrub r) s = .next (maintWord s .host (actWord r.val 0 0)).1 := congrArg Host.Outcome.next (if_pos hready)
    rw [hword, startAct_scrub, getRgn_wake] at hexec
    refine ⟨_, hexec, rfl, ?_, fun n hn => ?_⟩
    · rw [getRgn_setRgn, hrunning]
      rfl
    · rw [getRgn_setRgn_ne _ _ _ _ hn, getRgn_wake]
  · refine ⟨fun hans => ?_, fun hready hperiod => ?_⟩
    · have hregs : (wake s).regs = s.regs := by rw [wake_rest]
      have htime : (wake s).time = s.time := by rw [wake_rest]
      have htlm : (wake s).tlm = s.tlm := by rw [wake_rest]
      obtain ⟨hseq, hmems⟩ := snapRequest_of_free (s := wake s) (by rw [hregs]; exact hbase) (by rw [wake_rest]; exact hreach)
        (fun n => by rw [getRgn_wake]; exact hfree n) (by obtain ⟨n, hn⟩ := hsome; exact ⟨n, by rw [maintRegion_wake]; exact hn⟩)
      rw [htlm] at hseq
      rw [hregs, htime] at hmems
      exact ⟨_, congrArg Host.Outcome.next (hostWord_of_answers snapRequest hans), getHp_respond_resp .., hseq, hmems⟩
    · have hexec : exec .snapshotPeriod s = .next (snapRequest s) :=
        congrArg Host.Outcome.next (if_pos (by rw [hready, bne_iff_ne.mpr hperiod]; rfl))
      exact ⟨_, hexec, snapRequest_of_free hbase hreach hfree hsome⟩

end

section
/-!
PROOFS. Power states (R383 to R385), the power controller and the thermal limit (R355, R356), settled.
-/

namespace Sys2Proof.Machine

/-! ### Gated islands -/

/-- The step of `gateIslands`. -/
def gateOne (s : State) (i : Nat) : State := setIsl s i { getIsl s i with gated := true }

theorem gateIslands_eq (s : State) (f : Nat → Bool) : gateIslands s f = ((List.range 60).filter f).foldl gateOne s := rfl

theorem foldl_gateOne_rest (l : List Nat) (s : State) : l.foldl gateOne s = { s with isl := (l.foldl gateOne s).isl } := by
  induction l generalizing s with
  | nil => rfl
  | cons i l ih =>
    rw [List.foldl_cons, ih]
    rfl

theorem gateIslands_rest (s : State) (f : Nat → Bool) : gateIslands s f = { s with isl := (gateIslands s f).isl } := foldl_gateOne_rest _ s

theorem gated_foldl_gateOne (l : List Nat) (s : State) (i : Nat) :
    (getIsl (l.foldl gateOne s) i).gated = if i ∈ l then true else (getIsl s i).gated := by
  induction l generalizing s with
  | nil => simp
  | cons j l ih =>
    rw [List.foldl_cons, ih]
    by_cases hj : i = j
    · subst hj
      simp [gateOne]
    · simp [gateOne, getIsl_setIsl_ne _ _ _ _ hj, hj]

theorem gated_gateIslands (s : State) {f : Nat → Bool} {i : Nat} (hi : i < 60) :
    (getIsl (gateIslands s f) i).gated = if f i then true else (getIsl s i).gated := by
  rw [gateIslands_eq, gated_foldl_gateOne]
  simp [hi]

/-! ### A target written by the host (R383 to R385) -/

theorem wake_pwr (s : State) : (wake s).pwr = s.pwr := by rw [wake_rest]

theorem wake_pstate_ne {s : State} (h : s.boot.pstate ≠ 3) : (wake s).boot.pstate ≠ 3 := by
  unfold wake
  split
  · dsimp only
    split <;> decide
  · exact h

theorem wake_of_retention {s : State} (h : s.boot.pstate = 3) : wake s = s := if_neg (by rw [h]; decide)

theorem inTransition_wake (s : State) : inTransition (wake s) = inTransition s := by rw [inTransition, wake_boot, wake_pwr, inTransition]

theorem exec_pstate_of_answers {s : State} {p : HostId} {i : Instr} {t : Nat} (hi : exec i s = .next (pstateWrite s p.val t))
    (hans : hostAnswers s p.val = true) : exec i s = .next (respond (powerTarget (wake s) t) p.val .ok) := by
  rw [hi, pstateWrite, hostWord_of_answers _ hans]

theorem powerTarget_of_go {s : State} {t : Nat} (h3 : t ≠ 3) (hp : s.boot.pstate ≠ 3) (hin : inTransition s = false) :
    powerTarget s t = powerGo s t := by
  rw [powerTarget, if_neg (by simpa using h3), if_neg (by simpa using hp), hin]
  rfl

theorem powerTarget_of_transition {s : State} {t : Nat} (h3 : t ≠ 3) (hp : s.boot.pstate ≠ 3) (hin : inTransition s = true) :
    powerTarget s t = { s with pwr := { s.pwr with nextTarget := some (BitVec.ofNat 2 t) } } := by
  rw [powerTarget, if_neg (by simpa using h3), if_neg (by simpa using hp), if_pos hin]

theorem powerTarget_of_retention {s : State} {t : Nat} (h3 : t ≠ 3) (h2 : t ≠ 2) (hp : s.boot.pstate = 3) :
    powerTarget s t = { s with pwr := { s.pwr with target := BitVec.ofNat 2 t } } := by
  rw [powerTarget, if_neg (by simpa using h3), if_pos (by rw [hp]; decide), if_neg (by simpa using h2)]

theorem retentionAllowed_wake (s : State) : retentionAllowed (wake s) = retentionAllowed s := by
  rw [wake_rest]
  rfl

theorem liveUnits_wake (s : State) : liveUnits (wake s) = liveUnits s := by
  rw [wake_rest]
  rfl

/-! ### The power controller (R355) -/

theorem controlStep_rest (p : Pwr) (avg cap : Nat) : controlStep p avg cap = { p with
    capArray := (controlStep p avg cap).capArray, capSide := (controlStep p avg cap).capSide, capStaging := (controlStep p avg cap).capStaging } := by
  have hdown : stepDown p = { p with capArray := (stepDown p).capArray, capSide := (stepDown p).capSide, capStaging := (stepDown p).capStaging } := by
    unfold stepDown
    split
    · rfl
    · split
      · rfl
      · split <;> rfl
  have hup : stepUp p = { p with capArray := (stepUp p).capArray, capSide := (stepUp p).capSide, capStaging := (stepUp p).capStaging } := by
    unfold stepUp
    split
    · rfl
    · split
      · rfl
      · split <;> rfl
  unfold controlStep
  split
  · rfl
  · split
    · rfl
    · split
      · exact hdown
      · split
        · exact hup
        · rfl

/-- Arrays that run in their range go by the average alone. -/
theorem controlStep_in_range {p : Pwr} {avg cap : Nat} (hfloor : p.now.fFloor.toNat ≤ p.capArray) (htop : p.capArray ≤ arrayTop p) :
    controlStep p avg cap = if avg > 1000 * cap then stepDown p else if 100 * avg < 98 * (1000 * cap) then stepUp p else p := by
  rw [controlStep, if_neg (Nat.not_lt.mpr htop), if_neg (Nat.not_lt.mpr hfloor)]

theorem stepReduced_rest (p : Pwr) (reduced : Bool) :
    stepReduced p reduced = { p with rcPoint := (stepReduced p reduced).rcPoint, moving := (stepReduced p reduced).moving } := by
  unfold stepReduced
  split
  · rfl
  · split <;> rfl

theorem stepReduced_down {p : Pwr} (h : p.now.fFloor.toNat ≤ p.rcPoint) : stepReduced p true =
    { p with rcPoint := max p.now.fFloor.toNat (p.rcPoint - 25)
             moving := p.moving && decide (p.now.fFloor.toNat < max p.now.fFloor.toNat (p.rcPoint - 25)) } := by
  simp only [stepReduced, if_neg (Nat.not_lt.mpr h)]
  rfl

/-- The power controller's state before an interval's target takes effect. -/
def intervalPwr (s : State) (avg : Nat) (mw : List Nat) : Pwr :=
  let u := { s with pwr := { s.pwr with now := s.pwr.cfg } }
  let p := controlStep u.pwr avg (capInForce u)
  { stepReduced p (s.boot.pstate == 1) with
    avgMw := avg, binding := capBinding p, islandMw := (List.range 60).map (fun i => (i, mw.getD i 0)) }

/-- The configuration in force, the points as the average moved them, and the reduced-clock limit. -/
theorem intervalPwr_spec (s : State) (avg : Nat) (mw : List Nat) :
    let u := { s with pwr := { s.pwr with now := s.pwr.cfg } }
    let p := controlStep u.pwr avg (capInForce u)
    (intervalPwr s avg mw).avgMw = avg ∧ (intervalPwr s avg mw).now = s.pwr.cfg ∧ (intervalPwr s avg mw).cfg = s.pwr.cfg ∧
    (intervalPwr s avg mw).nextTarget = s.pwr.nextTarget ∧ (intervalPwr s avg mw).capArray = p.capArray ∧
    (intervalPwr s avg mw).capSide = p.capSide ∧ (intervalPwr s avg mw).capStaging = p.capStaging ∧
    (intervalPwr s avg mw).rcPoint = (stepReduced p (s.boot.pstate == 1)).rcPoint ∧
    (intervalPwr s avg mw).moving = (stepReduced p (s.boot.pstate == 1)).moving := by
  intro u p
  have hctl : p = { u.pwr with capArray := p.capArray, capSide := p.capSide, capStaging := p.capStaging } := controlStep_rest ..
  have hred : stepReduced p (s.boot.pstate == 1) = { p with rcPoint := (stepReduced p (s.boot.pstate == 1)).rcPoint
                                                            moving := (stepReduced p (s.boot.pstate == 1)).moving } := stepReduced_rest ..
  have hint : intervalPwr s avg mw = { stepReduced p (s.boot.pstate == 1) with
      avgMw := avg, binding := capBinding p, islandMw := (List.range 60).map (fun i => (i, mw.getD i 0)) } := rfl
  have hnow : p.now = s.pwr.cfg := by rw [hctl]
  have hcfg : p.cfg = s.pwr.cfg := by rw [hctl]
  have hnext : p.nextTarget = s.pwr.nextTarget := by rw [hctl]
  rw [hint]
  refine ⟨rfl, ?_, ?_, ?_, ?_, ?_, ?_, rfl, rfl⟩
  · rw [hred]
    exact hnow
  · rw [hred]
    exact hcfg
  · rw [hred]
    exact hnext
  · rw [hred]
  · rw [hred]
  · rw [hred]

/-- The limit of reduced-clock moves towards f_floor. -/
theorem intervalPwr_reduced {s : State} (avg : Nat) (mw : List Nat) (hp : s.boot.pstate = 1) (hfloor : s.pwr.cfg.fFloor.toNat ≤ s.pwr.rcPoint) :
    (intervalPwr s avg mw).rcPoint = max s.pwr.cfg.fFloor.toNat (s.pwr.rcPoint - 25) ∧ (intervalPwr s avg mw).moving =
      (s.pwr.moving && decide (s.pwr.cfg.fFloor.toNat < max s.pwr.cfg.fFloor.toNat (s.pwr.rcPoint - 25))) := by
  obtain ⟨-, -, -, -, -, -, -, hrc, hmoving⟩ := intervalPwr_spec s avg mw
  have hctl := controlStep_rest { s.pwr with now := s.pwr.cfg } avg (capInForce { s with pwr := { s.pwr with now := s.pwr.cfg } })
  rw [hrc, hmoving, hp]
  show (stepReduced _ true).rcPoint = _ ∧ (stepReduced _ true).moving = _
  rw [hctl, stepReduced_down (by exact hfloor)]
  exact ⟨rfl, rfl⟩

theorem powerInterval_rest (s : State) (avg : Nat) (mw : List Nat) :
    ∃ m, powerInterval s avg mw = { targetNext { s with pwr := intervalPwr s avg mw } with tlm := m } :=
  ite_cases (q := fun t => ∃ m, t = { targetNext { s with pwr := intervalPwr s avg mw } with tlm := m }) (fun _ => ⟨_, rfl⟩) (fun _ => ⟨_, rfl⟩)

/-! ### The thermal limit (R356) -/

/-- The sites' temperatures of an interval. -/
def siteTemps (s : State) (ts : List Int) : Tbl Int := (List.range 32).map (fun k => (k, ts.getD k (tget 0 s.pwr.temps k)))

theorem tget_map_range {α : Type} (d : α) (f : Nat → α) (n k : Nat) : tget d ((List.range n).map (fun i => (i, f i))) k = if k < n then f k else d := by
  have hgen (l : List Nat) : tget d (l.map (fun i => (i, f i))) k = if k ∈ l then f k else d := by
    induction l with
    | nil => rfl
    | cons j l ih =>
      show (if j = k then f j else tget d (l.map (fun i => (i, f i))) k) = _
      rw [ih]
      by_cases h : j = k
      · simp [h]
      · simp [h, Ne.symm h]
  rw [hgen]
  simp

theorem tget_siteTemps {s : State} {ts : List Int} (h : ts.length = 32) (k : Nat) : tget 0 (siteTemps s ts) k = ts.getD k 0 := by
  rw [siteTemps, tget_map_range]
  split
  · next hk => rw [List.getD_eq_getElem _ _ (by omega), List.getD_eq_getElem _ _ (by omega)]
  · next hk => rw [List.getD_eq_default _ _ (by omega)]

/-- A site has some temperature exactly where the interval gives it. -/
theorem any_siteTemps {s : State} {ts : List Int} (h : ts.length = 32) (f : Int → Bool) :
    (siteTemps s ts).any (fun e => f e.2) = true ↔ ∃ x ∈ ts, f x = true := by
  rw [siteTemps, List.any_map, List.any_eq_true]
  constructor
  · rintro ⟨k, hk, hf⟩
    have hlt : k < ts.length := by rw [h]; exact List.mem_range.mp hk
    simp only [Function.comp_apply, List.getD_eq_getElem _ _ hlt] at hf
    exact ⟨_, List.getElem_mem hlt, hf⟩
  · rintro ⟨x, hx, hf⟩
    obtain ⟨k, hk, rfl⟩ := List.getElem_of_mem hx
    refine ⟨k, List.mem_range.mpr (by omega), ?_⟩
    simpa only [Function.comp_apply, List.getD_eq_getElem _ _ hk] using hf

/-- The first of the numbered entries that meets a condition. -/
theorem find?_siteTemps {s : State} {ts : List Int} {k : Nat} {f : Int → Bool} (h : ts.length = 32) (hk : k < 32) (hf : f (ts.getD k 0) = true)
    (hfirst : ∀ j, j < k → f (ts.getD j 0) = false) : (siteTemps s ts).find? (fun e => f e.2) = some (k, ts.getD k 0) := by
  have hget (j : Nat) (hj : j < 32) : ts.getD j (tget 0 s.pwr.temps j) = ts.getD j 0 := by
    rw [List.getD_eq_getElem _ _ (by omega), List.getD_eq_getElem _ _ (by omega)]
  have hsplit : List.range 32 = List.range k ++ (List.range' k (32 - k)) := by
    have happ := List.range'_append_1 (s := 0) (m := k) (n := 32 - k)
    rw [Nat.zero_add, Nat.add_sub_cancel' (Nat.le_of_lt hk)] at happ
    rw [List.range_eq_range', List.range_eq_range', happ]
  have hhead : List.range' k (32 - k) = k :: List.range' (k + 1) (31 - k) := by
    rw [show 32 - k = (31 - k) + 1 by omega, List.range'_succ]
  rw [siteTemps, hsplit, hhead, List.map_append, List.find?_append, List.map_cons, List.find?_eq_none.mpr]
  · rw [Option.none_or, List.find?_cons_of_pos (by rw [hget k hk]; exact hf), hget k hk]
  · intro e he
    obtain ⟨j, hj, rfl⟩ := List.mem_map.mp he
    have hlt := List.mem_range.mp hj
    rw [hget j (by omega), hfirst j hlt]
    exact Bool.false_ne_true

/-- One numbered entry at most for each number: an entry is found at its number. -/
theorem find?_flatMap_numbered {α : Type} {l : List Nat} {f : Nat → Option α} {i : Nat} {v : α} (hi : i ∈ l) (hf : f i = some v) :
    (l.flatMap (fun j => ((f j).map (fun x => (j, x))).toList)).find? (fun e => e.1 == i) = some (i, v) := by
  induction l with
  | nil => exact absurd hi (by simp)
  | cons j l ih =>
    rw [List.flatMap_cons, List.find?_append]
    by_cases h : j = i
    · subst h
      rw [hf]
      simp
    · have hskip : (((f j).map (fun x => (j, x))).toList).find? (fun e => e.1 == i) = none := by
        cases f j with
        | none => rfl
        | some x => simp [h]
      rw [hskip, Option.none_or]
      exact ih ((List.mem_cons.mp hi).resolve_left (Ne.symm h))

/-- The machine with the written threshold in force (R355, R356). -/
def thermalBase (s : State) : State := { s with pwr := { s.pwr with now := { s.pwr.now with tThrottle := s.pwr.cfg.tThrottle } } }

/-- The power state an interval's temperatures leave. -/
def thermalPwr (s : State) (ts : List Int) : Pwr :=
  { (thermalBase s).pwr with
    temps := siteTemps s ts
    maxTemps := (List.range 32).map (fun k => (k, max (tget 0 s.pwr.maxTemps k) (tget 0 (siteTemps s ts) k)))
    thermal := (List.range 60).flatMap (fun i => ((thermalStep (thermalBase s) (siteTemps s ts) i).map (fun f => (i, f))).toList)
    throttled := (siteTemps s ts).any (fun e => decide (e.2 > 16 * ((thermalBase s).pwr.now.tThrottle.toNat : Int))) }

/-- The machine behind an interval that trips nothing. -/
def thermalCool (s : State) (ts : List Int) : State :=
  if (thermalPwr s ts).throttled then addCnt { s with pwr := thermalPwr s ts } 11 10 else { s with pwr := thermalPwr s ts }

theorem thermalInterval_eq (s : State) (ts : List Int) : thermalInterval s ts =
    match (siteTemps s ts).find? (fun e => decide (e.2 ≥ 1760)) with
    | some e => if s.pwr.tripped then thermalCool s ts else thermalTrip (thermalCool s ts) e.1
    | none => thermalCool s ts := rfl

theorem thermalCool_rest (s : State) (ts : List Int) :
    thermalCool s ts = { s with pwr := thermalPwr s ts, tlm := (thermalCool s ts).tlm } := by
  unfold thermalCool
  split <;> rfl

/-- No site at 110 degrees, or a trip already: the limits alone. -/
theorem thermalInterval_of_cool {s : State} {ts : List Int} (h : ts.length = 32) (hcool : (∀ x ∈ ts, x < 1760) ∨ s.pwr.tripped = true) :
    thermalInterval s ts = thermalCool s ts := by
  rw [thermalInterval_eq]
  rcases hcool with hcool | hcool
  · have hnone : (siteTemps s ts).find? (fun e => decide (e.2 ≥ 1760)) = none := by
      have hany : ¬(siteTemps s ts).any (fun e => decide (e.2 ≥ 1760)) = true := by
        rw [any_siteTemps h (fun x => decide (x ≥ 1760))]
        rintro ⟨x, hx, hhot⟩
        exact absurd (hcool x hx) (by simpa using hhot)
      rw [List.find?_eq_none]
      intro e he hhot
      exact hany (List.any_eq_true.mpr ⟨e, he, hhot⟩)
    rw [hnone]
  · split
    · exact if_pos hcool
    · rfl

theorem thermalInterval_of_trip {s : State} {ts : List Int} {k : Nat} (h : ts.length = 32) (htripped : s.pwr.tripped = false) (hk : k < 32)
    (hhot : 1760 ≤ ts.getD k 0) (hfirst : ∀ j, j < k → ts.getD j 0 < 1760) : thermalInterval s ts = thermalTrip (thermalCool s ts) k := by
  have hfind : (siteTemps s ts).find? (fun e => decide (e.2 ≥ 1760)) = some (k, ts.getD k 0) :=
    find?_siteTemps (f := fun x => decide (x ≥ 1760)) h hk (by simpa using hhot) (fun j hj => by simpa using hfirst j hj)
  rw [thermalInterval_eq, hfind]
  exact if_neg (by rw [htripped]; decide)

theorem thermalStep_of_hot {s : State} {ts : List Int} {i : Nat} (h : ts.length = 32) (hthrottled : neverThrottled i = false)
    (hhot : ∃ k ∈ sitesOf i, 16 * (s.pwr.cfg.tThrottle.toNat : Int) < ts.getD k 0) :
    thermalStep (thermalBase s) (siteTemps s ts) i = some (max (islLow i) (islFreq s i - 25)) := by
  obtain ⟨k, hk, hx⟩ := hhot
  have hany : (sitesOf i).any (fun k => decide (tget 0 (siteTemps s ts) k > 16 * ((thermalBase s).pwr.now.tThrottle.toNat : Int))) = true := by
    rw [List.any_eq_true]
    refine ⟨k, hk, ?_⟩
    rw [tget_siteTemps h]
    exact decide_eq_true hx
  rw [thermalStep, if_neg (by rw [hthrottled]; decide), if_pos hany]
  rfl

theorem thermalTrip_pwr (s : State) (k : Nat) : (thermalTrip s k).pwr = { s.pwr with tripped := true } := by
  rw [thermalTrip, gateIslands_rest, boardFault_rest]

theorem BoardDown.of_gate {s t : State} {source : Byte} {d : Nat} (h : BoardDown s t source d) (f : Nat → Bool) :
    BoardDown s (gateIslands t f) source d := by
  rw [gateIslands_rest]
  exact ⟨h.stopped, h.main, h.token, h.entry, h.written⟩

theorem boardDown_thermalTrip {s u : State} (hmnt : u.mnt = s.mnt) (hflog : u.flog = s.flog) (k : Nat) :
    BoardDown s (thermalTrip u k) 0x13 k :=
  (boardDown_boardFault (u := { u with pwr := { u.pwr with tripped := true } }) hmnt hflog 12 0x13 0 k).of_gate (fun i => decide (i < 16))

end Sys2Proof.Machine

open Sys2Proof Sys2Proof.Machine

/-- Settles O25: a target by the state and whether a transition runs, and the gates by their islands. -/
theorem powerStatesFollowTargets : Obligations.PowerStatesFollowTargets := by
  unfold Obligations.PowerStatesFollowTargets
  intro s p
  have hresp (t : State) : (getHp (respond t p.val .ok) p.val).resp = .ok := getHp_respond_resp ..
  refine ⟨fun hans => ⟨fun hp hin => ?_, fun x hx => ?_⟩, fun hp => ?_, fun hready hp hauto hmoving hwork => ?_, fun hready hp hbusy => ?_⟩
  · have hp' := wake_pstate_ne hp
    have hin' : inTransition (wake s) = false := by rwa [inTransition_wake]
    have hrun := exec_pstate_of_answers (i := .pstateRun p) (t := 0) (by rfl) hans
    have hreduced := exec_pstate_of_answers (i := .pstateReducedClock p) (t := 1) (by rfl) hans
    have hretention := exec_pstate_of_answers (i := .pstateRetention p) (t := 2) (by rfl) hans
    rw [powerTarget_of_go (by decide) hp' hin'] at hrun hreduced hretention
    refine ⟨⟨_, hrun, hresp _, ?_, ?_⟩, ⟨_, hreduced, hresp _, ?_, ?_⟩, fun hallowed => ?_, fun hrefused => ?_⟩
    · show { (wake s).pwr with target := 0, moving := (wake s).boot.pstate == 1 && decide ((wake s).pwr.rcPoint < (wake s).pwr.capArray) } = _
      rw [wake_pwr, Bool.decide_and]
      rfl
    · unfold powerGo respond
      rw [wake_rest, wake_boot]
      rfl
    · show { (wake s).pwr with
          target := 1, rcPoint := min (wake s).pwr.rcPoint (wake s).pwr.capArray
          moving := decide ((wake s).pwr.now.fFloor.toNat < min (wake s).pwr.rcPoint (wake s).pwr.capArray) } = _
      rw [wake_pwr]
    · unfold powerGo respond
      rw [wake_rest, wake_boot]
      rfl
    · have henter : powerGo (wake s) 2 = { wake s with
          pwr := { (wake s).pwr with target := 2 }, boot := { (wake s).boot with pstate := 3, retained := liveUnits (wake s) } } :=
        if_pos (by rwa [retentionAllowed_wake])
      rw [henter, liveUnits_wake, wake_pwr] at hretention
      refine ⟨_, hretention, hresp _, rfl, rfl, rfl, ?_, ?_, ?_, ?_, ?_⟩
      all_goals
        rw [wake_rest]
        rfl
    · have henter : powerGo (wake s) 2 = { wake s with pwr := { (wake s).pwr with retRefused := true } } :=
        if_neg (by rw [retentionAllowed_wake, hrefused]; decide)
      rw [henter, wake_pwr] at hretention
      exact ⟨_, hretention, hresp _, rfl⟩
  · obtain ⟨t, hi, ht⟩ : ∃ t, exec x.2 s = .next (pstateWrite s p.val t) ∧ x.1 = BitVec.ofNat 2 t ∧ t ≠ 3 ∧ (x.1 ≠ 2 → t ≠ 2) := by
      simp only [List.mem_cons, List.not_mem_nil, or_false] at hx
      rcases hx with rfl | rfl | rfl
      · exact ⟨0, rfl, rfl, by decide, fun _ => by decide⟩
      · exact ⟨1, rfl, rfl, by decide, fun _ => by decide⟩
      · exact ⟨2, rfl, rfl, by decide, fun h => absurd rfl h⟩
    obtain ⟨hx1, h3, h2⟩ := ht
    have hexec := exec_pstate_of_answers hi hans
    refine ⟨fun hp hin => ?_, fun hp hx2 => ?_⟩
    · rw [powerTarget_of_transition h3 (wake_pstate_ne hp) (by rwa [inTransition_wake]), wake_pwr, ← hx1] at hexec
      exact ⟨_, hexec, hresp _, rfl⟩
    · rw [wake_of_retention hp, powerTarget_of_retention h3 (h2 hx2) hp, ← hx1] at hexec
      exact ⟨_, hexec, hresp _, rfl⟩
  · have hexec : exec .retentionPortGate s =
        .next (gateIslands { s with boot := { s.boot with gated := true } } (fun i => i != 57 && i != 59)) :=
      congrArg Host.Outcome.next (if_pos (by rw [hp]; decide))
    refine ⟨_, hexec, by rw [gateIslands_rest], fun j => ?_, fun i hi => ?_⟩
    · rw [gateIslands_rest]
      simp [hostAnswers]
    · rw [gated_gateIslands _ hi]
      by_cases h : i = 57 ∨ i = 59
      · rw [if_pos h, if_neg (by rcases h with rfl | rfl <;> decide)]
        rfl
      · rw [if_neg h, if_pos (by simpa [not_or] using h)]
  · have hexec : exec .idleEntry s =
        .next (gateIslands { s with boot := { s.boot with pstate := 2 } } (fun i => decide (i < 52) || i == 58)) :=
      congrArg Host.Outcome.next (if_pos (by rw [inTransition, hready, hp, hauto, hmoving, hwork]; decide))
    refine ⟨_, hexec, by rw [gateIslands_rest], fun i hi => ?_⟩
    rw [gated_gateIslands _ (by omega), if_pos (by rw [decide_eq_true (by omega : i < 52)]; rfl)]
  · refine congrArg Host.Outcome.next (if_neg ?_)
    rw [inTransition, hready, hp]
    rcases hbusy with h | h | h <;> simp [h]

/-- Settles O26: an interval's points by `controlStep` and `stepReduced`, and a site's limits by `thermalStep`. -/
theorem powerAndThermalControl : Obligations.PowerAndThermalControl := by
  unfold Obligations.PowerAndThermalControl
  intro s avg mw ts hoff hreset u floor hot
  have hpow := powered_of_levels hoff hreset
  have hinterval (hp : s.boot.pstate ≠ 3) : exec (.powerControlInterval avg mw) s = .next (powerInterval s avg mw) :=
    congrArg Host.Outcome.next (if_pos (by rw [hpow, bne_iff_ne.mpr hp]; rfl))
  have hthermal : exec (.thermalInterval ts) s = .next (thermalInterval s ts) := congrArg Host.Outcome.next (if_pos hpow)
  obtain ⟨m, hm⟩ := powerInterval_rest s avg mw
  obtain ⟨havg, hnow, hcfg, hnext, harray, hside, hstaging, -, -⟩ := intervalPwr_spec s avg mw
  refine ⟨fun hp hnone hfloor htop => ?_, fun hready hp hsome hfloor hclose => ?_, fun hlen hcool => ?_, fun hlen htripped k hk hhot hfirst => ?_⟩
  · rw [targetNext_of_none (hnext.trans hnone)] at hm
    have hctl := controlStep_in_range (p := u.pwr) (avg := avg) (cap := capInForce u) hfloor htop
    rw [hctl] at harray hside hstaging
    refine ⟨_, (hinterval hp).trans (congrArg Host.Outcome.next hm), rfl, havg, hnow, hcfg, fun habove hhigh => ?_, fun habove hlow hwide => ?_,
      fun hbelow hst hsd hlow => ?_, fun hlow hhigh => ?_, fun hp1 hrc => (intervalPwr_reduced avg mw hp1 hrc).1⟩
    · have hdown : stepDown u.pwr = { u.pwr with capArray := max floor (s.pwr.capArray - 25) } := if_pos hhigh
      rw [if_pos habove, hdown] at harray hside hstaging
      exact ⟨harray, hside, hstaging⟩
    · have hdown : stepDown u.pwr = { u.pwr with capSide := s.pwr.capSide - 25 } := by
        refine (if_neg ?_).trans (if_pos hwide)
        show ¬s.pwr.capArray > floor
        omega
      rw [if_pos habove, hdown] at harray hside hstaging
      exact ⟨harray, hside, hstaging⟩
    · have hup : stepUp u.pwr = { u.pwr with capArray := min (arrayTop u.pwr) (s.pwr.capArray + 25) } :=
        (if_neg (Nat.not_lt.mpr hst)).trans ((if_neg (Nat.not_lt.mpr hsd)).trans (if_pos hlow))
      rw [if_neg (by omega), if_pos (by omega), hup] at harray hside hstaging
      exact ⟨harray, hside, hstaging⟩
    · rw [if_neg (by omega), if_neg (by omega)] at harray hside hstaging
      exact ⟨harray, hside, hstaging⟩
  · have hstill : (intervalPwr s avg mw).moving = false := by
      rw [(intervalPwr_reduced avg mw hp hfloor).2, decide_eq_false (by omega), Bool.and_false]
    have hgo : targetNext { s with pwr := intervalPwr s avg mw } = powerGo { s with pwr := { intervalPwr s avg mw with nextTarget := none } } 0 := by
      have hin : inTransition { s with pwr := intervalPwr s avg mw } = false := by
        show (!s.boot.ready || (intervalPwr s avg mw).moving) = false
        rw [hready, hstill]
        rfl
      rw [targetNext, show ({ s with pwr := intervalPwr s avg mw } : State).pwr.nextTarget = some 0 from hnext.trans hsome, hin]
      rfl
    rw [hgo] at hm
    exact ⟨_, (hinterval (by rw [hp]; decide)).trans (congrArg Host.Outcome.next hm), rfl, rfl, rfl⟩
  · rw [thermalInterval_of_cool hlen hcool, thermalCool_rest] at hthermal
    refine ⟨_, hthermal, rfl, fun k hk => ⟨tget_siteTemps hlen k, ?_⟩, ?_, fun i hi hthrottled hsite => ?_⟩
    · refine (tget_map_range ..).trans ?_
      rw [if_pos hk, tget_siteTemps hlen]
    · show (siteTemps s ts).any (fun e => decide (e.2 > 16 * (s.pwr.cfg.tThrottle.toNat : Int))) = true ↔ _
      rw [any_siteTemps hlen (fun x => decide (x > 16 * (s.pwr.cfg.tThrottle.toNat : Int)))]
      simp only [decide_eq_true_eq, gt_iff_lt]
      exact Iff.rfl
    · exact find?_flatMap_numbered (List.mem_range.mpr hi) (thermalStep_of_hot hlen hthrottled hsite)
  · rw [thermalInterval_of_trip hlen htripped hk hhot hfirst] at hthermal
    have hmnt : (thermalCool s ts).mnt = s.mnt := by rw [thermalCool_rest]
    have hflog : (thermalCool s ts).flog = s.flog := by rw [thermalCool_rest]
    refine ⟨_, hthermal, ?_, boardDown_thermalTrip hmnt hflog k, fun i hi => ?_⟩
    · exact congrArg Pwr.tripped (thermalTrip_pwr ..)
    · rw [thermalTrip, gated_gateIslands _ (by omega), if_pos (decide_eq_true hi)]

end

section
/-!
PROOFS. Doorbell-notifies, the poll interval and activation (R219, R222, R227, R396), settled.
-/

namespace Sys2Proof.Machine

/-! ### Host-port requests change the host ports alone -/

theorem hostIssue_rest (s : State) (c : Nat) (q : PortReq) : hostIssue s c q = { s with hp := (hostIssue s c q).hp } := by
  unfold hostIssue
  split
  · exact hostSend_rest ..
  · rfl

theorem foldl_hostIssue_rest {α : Type} (c : Nat) (f : State → α → PortReq) (l : List α) (s : State) :
    l.foldl (fun t x => hostIssue t c (f t x)) s = { s with hp := (l.foldl (fun t x => hostIssue t c (f t x)) s).hp } := by
  induction l generalizing s with
  | nil => rfl
  | cons x l ih => rw [List.foldl_cons, ih, hostIssue_rest]

theorem hostAsk_rest (s : State) (c : Nat) (asid : BitVec 16) (a n : Nat) : ∃ h, hostAsk s c asid a n = { s with hp := h } :=
  ⟨_, foldl_hostIssue_rest c _ _ s⟩

/-! ### Little-endian words in memory -/

theorem length_rdBytes (ms : Mems) (sp : Space) (a n : Nat) : (rdBytes ms sp a n).length = n := by
  induction n generalizing a with
  | zero => rfl
  | succ n ih => rw [rdBytes, List.length_cons, ih]

theorem leNat_lt (bs : List Byte) : leNat bs < 2 ^ (8 * bs.length) := by
  induction bs with
  | nil => decide
  | cons b bs ih =>
    have hb := b.isLt
    rw [leNat, List.length_cons, Nat.mul_succ, Nat.pow_add]
    omega

theorem rdLe_lt (ms : Mems) (sp : Space) (a n : Nat) : rdLe ms sp a n < 2 ^ (8 * n) := by
  have h := leNat_lt (rdBytes ms sp a n)
  rwa [length_rdBytes] at h

/-! ### Notifies (R222, R364) -/

theorem takesWork_iff (x : Context) : takesWork x = true ↔ x.st = 1 ∧ x.aborting = false := by simp [takesWork]

theorem askDoorbell_eq (x : Context) : askDoorbell x = { x with dbRead := true, dbAgain := x.dbRead || x.dbAgain } := by
  unfold askDoorbell
  by_cases h : x.dbRead = true
  · rw [if_pos h]
    exact congrArg₂ (fun a b => { x with dbRead := a, dbAgain := b }) h (show true = (x.dbRead || x.dbAgain) by rw [h]; rfl)
  · rw [if_neg h]
    exact congrArg (fun b => { x with dbRead := true, dbAgain := b })
      (show x.dbAgain = (x.dbRead || x.dbAgain) by rw [Bool.eq_false_iff.mpr h]; rfl)

theorem askHead_eq (x : Context) : askHead x = { x with cqRead := x.cqWait || x.cqRead } := by
  unfold askHead
  by_cases h : x.cqWait = true
  · rw [if_pos h]
    exact congrArg (fun b => { x with cqRead := b }) (show true = (x.cqWait || x.cqRead) by rw [h]; rfl)
  · rw [if_neg h]
    exact congrArg (fun b => { x with cqRead := b }) (show x.cqRead = (x.cqWait || x.cqRead) by rw [Bool.eq_false_iff.mpr h]; rfl)

/-- The context behind a notify that reads its doorbell word. -/
theorem askHead_askDoorbell (x : Context) : askHead (askDoorbell x) =
    { x with dbRead := true, dbAgain := x.dbRead || x.dbAgain, cqRead := x.cqWait || x.cqRead } := by
  rw [askHead_eq, askDoorbell_eq]

/-- The context behind the poll interval. -/
theorem polled_eq (x : Context) : askHead (if cePoll x.ent then askDoorbell x else x) =
    { x with dbRead := cePoll x.ent || x.dbRead, dbAgain := (cePoll x.ent && x.dbRead) || x.dbAgain, cqRead := x.cqWait || x.cqRead } := by
  cases hp : cePoll x.ent with
  | true => exact askHead_askDoorbell x
  | false => exact askHead_eq x

theorem getCtx_wake (s : State) (c : Nat) : getCtx (wake s) c = getCtx s c := by rw [getCtx, wake_ctxs, getCtx]

theorem waitPolled_congr {s t : State} {c : Nat} (hwait : activeWait (getCtx t c) = activeWait (getCtx s c)) (hrgns : t.rgns = s.rgns) :
    waitPolled t c = waitPolled s c := by
  unfold waitPolled getRgn
  rw [hwait, hrgns]

/-- A notify outside a polled wait: its context is asked to read, or to be activated. -/
theorem notifyOp_eq {s : State} {c : Nat} (hbase : s.regs.ctxBase ≠ 0) (hpolled : waitPolled s c = false) :
    notifyOp s c = setCtx s c (if takesWork (getCtx s c) then askHead (askDoorbell (getCtx s c)) else { getCtx s c with activating := true }) := by
  rw [notifyOp, if_neg (by simpa using hbase)]
  dsimp only
  split
  · have hsame : waitPolled (setCtx s c (askHead (askDoorbell (getCtx s c)))) c = waitPolled s c :=
      waitPolled_congr (by rw [getCtx_setCtx, askHead_askDoorbell]; rfl) rfl
    rw [hsame, hpolled]
    exact if_neg (by decide)
  · rfl

theorem exec_doorbellNotify_of_answers {s : State} {p : HostId} (c : CtxId) (hans : hostAnswers s p.val = true) :
    exec (.doorbellNotify p c) s = .next (respond (notifyAt s p c) p.val .ok) :=
  congrArg Host.Outcome.next (if_pos hans)

/-! ### The poll interval (R396) -/

/-- The machine that polls: woken where some context has a word to be read. -/
def pollWoken (s : State) : State :=
  if s.ctxs.any (fun e => takesWork e.2 && (cePoll e.2.ent || e.2.cqWait)) then wake s else s

theorem pollWoken_rest (s : State) : pollWoken s = { s with boot := (pollWoken s).boot, isl := (pollWoken s).isl } := by
  unfold pollWoken
  split
  · rw [wake_rest]
  · rfl

/-- What the poll interval asks of a context. -/
def pollCtx (x : Context) : Context := if takesWork x then askHead (if cePoll x.ent then askDoorbell x else x) else x

theorem dbPoll_eq (s : State) : dbPoll s = { pollWoken s with
    regs := { (pollWoken s).regs with pollCur := pollInterval (pollWoken s).regs.pollNs }
    ctxs := tmap (fun _ x => pollCtx x) (pollWoken s).ctxs } := rfl

/-! ### Activation (R219) -/

/-- The RNG slots of a block in memory (R202). -/
theorem readSlots_spec (ms : Mems) (base : Nat) {j : Nat} (hj : j < 8) (x : Context) (hx : x.rng = readSlots ms base) :
    (slotAt x j).key = rd64 ms .mem (base + 16 * j) ∧ (slotAt x j).epoch.toNat = rdLe ms .mem (base + 16 * j + 12) 4 := by
  have hslot : slotAt x j = { key := rd64 ms .mem (base + 16 * j), streamBase := BitVec.ofNat 32 (rdLe ms .mem (base + 16 * j + 8) 4),
                              epoch := BitVec.ofNat 32 (rdLe ms .mem (base + 16 * j + 12) 4) } := by
    rw [slotAt, hx, readSlots]
    exact (tget_map_range ..).trans (if_pos hj)
  rw [hslot]
  exact ⟨rfl, (BitVec.toNat_ofNat ..).trans (Nat.mod_eq_of_lt (rdLe_lt ..))⟩

/-- The entry of a context in the table. -/
def entryAt (s : State) (c : Nat) : List W64 := rdWords s.mems .mem (s.regs.ctxBase.toNat + 256 * c) 32

theorem activate_of_disabled {s : State} {c : Nat}
    (hreach : xlateAt s.env s.regs.engineAsid (s.regs.ctxBase.toNat + 256 * c) 256 = none) (henable : ceEnable (entryAt s c) = false) :
    activate s c = setCtx s c { getCtx s c with activating := false } :=
  (if_neg (by rw [hreach]; decide)).trans (if_pos (by rw [Bool.not_eq_true']; exact henable))

/-- The entry is read, and says that the context is enabled. -/
theorem activate_of_enabled {s : State} {c : Nat}
    (hreach : xlateAt s.env s.regs.engineAsid (s.regs.ctxBase.toNat + 256 * c) 256 = none) (henable : ceEnable (entryAt s c) = true) :
    activate s c =
      if !ceValid (entryAt s c) then
        if ceStatusBase (entryAt s c) % 64 == 0 then
          writeStatus (setCtx s c { Context.init with ent := entryAt s c, st := 3, waitConf := (getCtx s c).waitConf }) c
        else setCtx s c { Context.init with ent := entryAt s c, st := 3, waitConf := (getCtx s c).waitConf }
      else if (xlateAt s.env (ceAsid (entryAt s c)) (ceRngBase (entryAt s c)) 128).isSome then setCtx s c { getCtx s c with activating := false }
      else chargeRd (setCtx (hostAsk (hostAsk s c s.regs.engineAsid (s.regs.ctxBase.toNat + 256 * c) 256) c (ceAsid (entryAt s c))
        (ceRngBase (entryAt s c)) 128) c (activated (getCtx s c) (entryAt s c) (readSlots s.mems (ceRngBase (entryAt s c))) s.time.t)) c 384 := by
  refine (if_neg (by rw [hreach]; decide)).trans (if_neg ?_)
  show ¬(!ceEnable (entryAt s c)) = true
  rw [henable]
  decide

/-- A broken entry leaves the context in state BAD_ENTRY. -/
theorem activate_of_broken {s : State} {c : Nat} (hreach : xlateAt s.env s.regs.engineAsid (s.regs.ctxBase.toNat + 256 * c) 256 = none)
    (henable : ceEnable (entryAt s c) = true) (hbad : ceValid (entryAt s c) = false) : (activate s c).ctxs =
      (setCtx s c { Context.init with ent := entryAt s c, st := 3, waitConf := (getCtx s c).waitConf }).ctxs := by
  rw [activate_of_enabled hreach henable, if_pos (by rw [hbad]; rfl)]
  split
  · exact writeStatus_ctxs ..
  · rfl

/-- A valid entry makes the context active; its reads are charged. -/
theorem activate_of_valid {s : State} {c : Nat} (hreach : xlateAt s.env s.regs.engineAsid (s.regs.ctxBase.toNat + 256 * c) 256 = none)
    (henable : ceEnable (entryAt s c) = true) (hvalid : ceValid (entryAt s c) = true)
    (hslots : xlateAt s.env (ceAsid (entryAt s c)) (ceRngBase (entryAt s c)) 128 = none) :
    ∃ h, activate s c = chargeRd (setCtx { s with hp := h } c
      (activated (getCtx s c) (entryAt s c) (readSlots s.mems (ceRngBase (entryAt s c))) s.time.t)) c 384 := by
  obtain ⟨h1, e1⟩ := hostAsk_rest s c s.regs.engineAsid (s.regs.ctxBase.toNat + 256 * c) 256
  obtain ⟨h2, e2⟩ := hostAsk_rest { s with hp := h1 } c (ceAsid (entryAt s c)) (ceRngBase (entryAt s c)) 128
  rw [activate_of_enabled hreach henable, if_neg (by rw [hvalid]; decide), if_neg (by rw [hslots]; decide), e1, e2]
  exact ⟨h2, rfl⟩

end Sys2Proof.Machine

open Sys2Proof Sys2Proof.Machine

/-- Settles O27: a notify by `notifyOp`, the interval by `pollCtx`, and activation by what the entry says. -/
theorem notifiesReadDoorbellsOrActivate : Obligations.NotifiesReadDoorbellsOrActivate := by
  unfold Obligations.NotifiesReadDoorbellsOrActivate
  refine ⟨fun s p c => ⟨fun hans => ?_, fun hpoll hready => ?_⟩, fun s c hact hst hrunning hbase hport hreach => ?_⟩
  · have hexec := exec_doorbellNotify_of_answers c hans
    have hresp (t : State) : (getHp (respond t p.val .ok) p.val).resp = .ok := getHp_respond_resp ..
    have hnow (h : s.boot.ready = true) : notifyAt s p c = notifyOp (wake s) c.val := if_neg (by rw [h]; decide)
    refine ⟨fun hready => ?_, fun hready hbase => ?_, fun hready hbase hpolled => ?_⟩
    · rw [show notifyAt s p c = { s with boot := { s.boot with heldNotify := s.boot.heldNotify ++ [(p, c)] } } from
        if_pos (by rw [hready]; rfl)] at hexec
      exact ⟨_, hexec, hresp _, rfl⟩
    · rw [hnow hready, show notifyOp (wake s) c.val = wake s from if_pos (by rw [wake_rest]; simpa using hbase)] at hexec
      exact ⟨_, hexec, hresp _, rfl⟩
    · have hpolled' : waitPolled (wake s) c.val = false :=
        (waitPolled_congr (by rw [getCtx_wake]) (wake_rgns s)).trans hpolled
      rw [hnow hready, notifyOp_eq (by rw [wake_rest]; exact hbase) hpolled', getCtx_wake] at hexec
      refine ⟨_, hexec, hresp _, rfl, fun d hd => ?_, ?_⟩
      · rw [getCtx_respond, getCtx_setCtx_ne _ _ _ _ hd, getCtx_wake]
      · rw [getCtx_respond, getCtx_setCtx, askHead_askDoorbell]
        exact if_congr (takesWork_iff _) rfl rfl
  · have hexec : exec .dbPoll s = .next (dbPoll s) := congrArg Host.Outcome.next (if_neg (by rw [beq_false_of_ne hpoll, hready]; decide))
    rw [dbPoll_eq, pollWoken_rest] at hexec
    refine ⟨_, hexec, rfl, rfl, fun d => ?_⟩
    refine (tget_tmap Context.init (fun _ x => pollCtx x) s.ctxs d rfl).trans ?_
    show pollCtx (getCtx s d) = _
    rw [pollCtx, polled_eq]
    exact if_congr (takesWork_iff _) rfl rfl
  · intro e
    have hexec : exec (.contextActivation c) s = .next (activate s c.val) := by
      refine congrArg Host.Outcome.next (if_pos ?_)
      rw [hact, hrunning, hport, bne_iff_ne.mpr hst, bne_iff_ne.mpr hbase]
      rfl
    by_cases henable : ceEnable e = true
    · by_cases hvalid : ceValid e = true
      · by_cases hslots : xlateAt s.env (ceAsid e) (ceRngBase e) 128 = none
        · obtain ⟨h, hdone⟩ := activate_of_valid hreach henable hvalid hslots
          rw [hdone] at hexec
          have hctx := getCtx_setCtx { s with hp := h } c.val (activated (getCtx s c.val) e (readSlots s.mems (ceRngBase e)) s.time.t)
          refine ⟨_, hexec, fun d hd => getCtx_setCtx_ne { s with hp := h } _ _ _ hd, fun h0 => ?_, fun _ h0 => ?_, fun _ _ _ => ?_⟩
          · rw [henable] at h0
            exact absurd h0 (by decide)
          · rw [hvalid] at h0
            exact absurd h0 (by decide)
          · refine ⟨congrArg Context.st hctx, congrArg Context.ent hctx, congrArg Context.fetch hctx, congrArg Context.retire hctx,
              congrArg Context.cqWritten hctx, congrArg Context.admitted hctx, congrArg Context.dbRead hctx, congrArg Context.activating hctx, rfl,
              congrArg Acct.rdBytes (getAcct_setAcct ..), fun j hj => readSlots_spec _ _ hj _ (congrArg Context.rng hctx),
              congrArg (fun x : Context => x.tempo.start) hctx⟩
        · have hrun := activate_of_enabled hreach henable
          have hsome : (xlateAt s.env (ceAsid (entryAt s c.val)) (ceRngBase (entryAt s c.val)) 128).isSome = true := Option.isSome_iff_ne_none.mpr hslots
          rw [if_neg (by rw [show ceValid (entryAt s c.val) = true from hvalid]; decide), if_pos hsome] at hrun
          rw [hrun] at hexec
          refine ⟨_, hexec, fun d hd => getCtx_setCtx_ne _ _ _ _ hd, fun h0 => ?_, fun _ h0 => ?_, fun _ _ h0 => absurd h0 hslots⟩
          · rw [henable] at h0
            exact absurd h0 (by decide)
          · rw [hvalid] at h0
            exact absurd h0 (by decide)
      · have hbad : ceValid e = false := Bool.eq_false_iff.mpr hvalid
        have hctxs := activate_of_broken hreach henable hbad
        refine ⟨_, hexec, fun d hd => ?_, fun h0 => ?_, fun _ _ => ?_, fun _ h0 => absurd h0 hvalid⟩
        · rw [getCtx, hctxs]
          exact getCtx_setCtx_ne _ _ _ _ hd
        · rw [henable] at h0
          exact absurd h0 (by decide)
        · rw [getCtx, hctxs]
          have hctx := getCtx_setCtx s c.val { Context.init with ent := e, st := 3, waitConf := (getCtx s c.val).waitConf }
          exact ⟨congrArg Context.st hctx, congrArg Context.fetched hctx, congrArg Context.ent hctx⟩
    · have hoff : ceEnable e = false := Bool.eq_false_iff.mpr henable
      rw [activate_of_disabled hreach hoff] at hexec
      exact ⟨_, hexec, fun d hd => getCtx_setCtx_ne _ _ _ _ hd, fun _ => ⟨getCtx_setCtx .., rfl⟩, fun h0 => absurd h0 henable,
        fun h0 => absurd h0 henable⟩

end

section
/-!
PROOFS. Descriptor fetches, their slots' data and reads of cq_head_addr (R223, R227, R340), settled.
-/

namespace Sys2Proof.Machine

/-! ### Requests that stand at the host ports -/

/-- A request of a kind stands queued or outstanding at a host port. -/
def standsAt (f : PortReq → Bool) (x : HostPort) : Bool := x.initQ.any f || x.initOut.any (fun e => f e.2)

theorem slotPending_eq (s : State) (c : Nat) (ring : W32) :
    slotPending s c ring = s.hp.any (fun p => standsAt (fun q => q.op == 0 && q.owner == .desc c ring) p.2) := rfl

theorem standsAt_init (f : PortReq → Bool) : standsAt f HostPort.init = false := rfl

/-- A port's record answers for a request where it stands there. -/
theorem any_setHp {s : State} {p : Nat} {x : HostPort} {f : PortReq → Bool} (h : standsAt f x = true) :
    (setHp s p x).hp.any (fun e => standsAt f e.2) = true :=
  List.any_eq_true.mpr ⟨(p, x), mem_tset_self .., h⟩

/-- A port that keeps its requests keeps every request that stands at a port. -/
theorem any_setHp_of_kept {s : State} {p : Nat} {x : HostPort} {f : PortReq → Bool} (hkept : standsAt f (getHp s p) = true → standsAt f x = true)
    (h : s.hp.any (fun e => standsAt f e.2) = true) : (setHp s p x).hp.any (fun e => standsAt f e.2) = true := by
  by_cases hx : standsAt f x = true
  · exact any_setHp hx
  · have hold : standsAt f (getHp s p) = false := Bool.eq_false_iff.mpr fun e => hx (hkept e)
    have hsame : standsAt f x = standsAt f (tget HostPort.init s.hp p) := (Bool.eq_false_iff.mpr hx).trans hold.symm
    exact (any_tset (d := HostPort.init) s.hp p hsame (standsAt_init f)).trans h

/-- Conversely: a port that has lost requests only brings none. -/
theorem any_of_setHp {s : State} {p : Nat} {x : HostPort} {f : PortReq → Bool} (hlost : standsAt f x = true → standsAt f (getHp s p) = true)
    (h : (setHp s p x).hp.any (fun e => standsAt f e.2) = true) : s.hp.any (fun e => standsAt f e.2) = true := by
  by_cases hold : standsAt f (getHp s p) = true
  · exact any_of_tget hold (standsAt_init f)
  · have hx : standsAt f x = false := Bool.eq_false_iff.mpr fun e => hold (hlost e)
    have hsame : standsAt f x = standsAt f (tget HostPort.init s.hp p) := hx.trans (Bool.eq_false_iff.mpr hold).symm
    exact (any_tset (d := HostPort.init) s.hp p hsame (standsAt_init f)).symm.trans h

theorem standsAt_hostSend (s : State) (p : Nat) (q : PortReq) : ∃ x, hostSend s p q = setHp s p x ∧
    (∀ f, standsAt f (getHp s p) = true → standsAt f x = true) ∧ ∀ f, f q = true → standsAt f x = true := by
  by_cases h : ((getHp s p).credReq ≥ 1 && (getHp s p).credWd ≥ hostWd q && (getHp s p).initQ.isEmpty) = true
  · refine ⟨_, if_pos h, fun f h => ?_, fun f h => ?_⟩
    · simp only [standsAt, Bool.or_eq_true, List.any_append] at h ⊢
      exact h.imp id .inl
    · simp [standsAt, h]
  · refine ⟨_, if_neg h, fun f h => ?_, fun f h => ?_⟩
    · simp only [standsAt, Bool.or_eq_true, List.any_append] at h ⊢
      exact h.imp .inl id
    · simp [standsAt, h]

/-- A request of a context stands at a port, and every other one stays. -/
theorem standsAt_hostIssue (s : State) (c : Nat) (q : PortReq) (f : PortReq → Bool) :
    (s.hp.any (fun e => standsAt f e.2) = true → (hostIssue s c q).hp.any (fun e => standsAt f e.2) = true) ∧
    (f q = true → (hostIssue s c q).hp.any (fun e => standsAt f e.2) = true) := by
  unfold hostIssue
  split
  · next p _ =>
    obtain ⟨x, hx, hkept, hnew⟩ := standsAt_hostSend s p q
    rw [hx]
    exact ⟨any_setHp_of_kept (hkept f), fun h => any_setHp (hnew f h)⟩
  · refine ⟨any_setHp_of_kept fun h => ?_, fun h => any_setHp ?_⟩
    · simp only [standsAt, Bool.or_eq_true, List.any_append] at h ⊢
      exact h.imp .inl id
    · simp [standsAt, h]

/-! ### The fetch (R223) -/

theorem askSlot_rest (s : State) (c : Nat) (i : W32) : askSlot s c i = { s with hp := (askSlot s c i).hp } := hostIssue_rest ..

theorem slotPending_askSlot (s : State) (c : Nat) (i ring : W32) :
    (slotPending s c ring = true → slotPending (askSlot s c i) c ring = true) ∧ slotPending (askSlot s c i) c i = true := by
  simp only [slotPending_eq]
  refine ⟨(standsAt_hostIssue ..).1, (standsAt_hostIssue ..).2 ?_⟩
  simp

/-- The slots that a fetch asks for, one after another. -/
def askSlots (s : State) (c : Nat) (asked : W32 → Bool) (l : List W32) : State :=
  l.foldl (fun t i => if asked i then askSlot t c i else t) s

theorem askSlots_rest (s : State) (c : Nat) (asked : W32 → Bool) (l : List W32) :
    askSlots s c asked l = { s with hp := (askSlots s c asked l).hp } := by
  unfold askSlots
  induction l generalizing s with
  | nil => rfl
  | cons i l ih =>
    rw [List.foldl_cons, ih]
    split
    · rw [askSlot_rest]
    · rfl

theorem slotPending_askSlots {c : Nat} {asked : W32 → Bool} {l : List W32} {ring : W32} (s : State)
    (h : slotPending s c ring = true ∨ (ring ∈ l ∧ asked ring = true)) : slotPending (askSlots s c asked l) c ring = true := by
  unfold askSlots
  induction l generalizing s with
  | nil => exact h.elim id fun e => absurd e.1 (by simp)
  | cons i l ih =>
    rw [List.foldl_cons]
    refine ih _ ?_
    rcases h with h | ⟨hmem, hasked⟩
    · refine .inl ?_
      split
      · exact (slotPending_askSlot s c i ring).1 h
      · exact h
    · rcases List.mem_cons.mp hmem with rfl | hmem
      · rw [if_pos hasked]
        exact .inl (slotPending_askSlot s c ring ring).2
      · exact .inr ⟨hmem, hasked⟩

theorem fetchCount_of_fits {x : Context} (h : (x.producer - x.fetch).toNat ≤ 2 ^ ceSqLog2 x.ent) :
    fetchCount x = min 16 (x.producer - x.fetch).toNat := if_neg (Nat.not_lt.mpr h)

/-- The indices that a fetch takes. -/
def fetchRings (x : Context) (n : Nat) : List W32 := (List.range n).map (fun k => x.fetch + BitVec.ofNat 32 k)

/-- The context behind a fetch of `n` descriptors. -/
def fetchedCtx (s : State) (x : Context) (n : Nat) : Context :=
  { x with fetched := x.fetched ++ (fetchRings x n).map (fun i => (i, readSlot s x.ent i)), fetch := x.fetch + BitVec.ofNat 32 n }

theorem fetchOp_eq (s : State) (c : Nat) : fetchOp s c =
    askSlots (setCtx s c (fetchedCtx s (getCtx s c) (fetchCount (getCtx s c)))) c (fun i => !(readSlot s (getCtx s c).ent i).isEmpty)
      (fetchRings (getCtx s c) (fetchCount (getCtx s c))) := by
  unfold fetchOp askSlots
  dsimp only
  congr 1
  funext t i
  by_cases h : (readSlot s (getCtx s c).ent i).isEmpty = true
  · rw [if_pos h, if_neg (by rw [h]; decide)]
  · rw [if_neg h, if_pos (by rw [Bool.eq_false_iff.mpr h]; rfl)]

theorem fetched_fetchedCtx (s : State) (x : Context) {n k : Nat} (hk : k < n) : (fetchedCtx s x n).fetched[x.fetched.length + k]? =
    some (x.fetch + BitVec.ofNat 32 k, readSlot s x.ent (x.fetch + BitVec.ofNat 32 k)) := by
  show (x.fetched ++ _)[x.fetched.length + k]? = _
  rw [List.getElem?_append_right (Nat.le_add_right ..), Nat.add_sub_cancel_left, fetchRings, List.map_map, List.getElem?_map,
    List.getElem?_range hk]
  rfl

/-! ### Data of a slot (R223, R340) -/

/-- The host port without the request of a tag. -/
def hostTagFree (s : State) (p tag : Nat) : State := setHp s p { getHp s p with initOut := tdrop (getHp s p).initOut tag }

theorem exec_mppRdReceive_host {s : State} {p : HostId} {tag : BitVec 12} {q : PortReq} {c : Nat} {ring : W32}
    (h : (getHp s p.val).initOut.find? (fun e => e.1 == tag.toNat && e.2.op == 0) = some (tag.toNat, q)) (howner : q.owner = .desc c ring)
    (data : List Byte) : exec (.mppRdReceive (.host p) tag data .clean false) s =
      .next (slotArrived (rdGood (hostTagFree s p.val tag.toNat) 64 q data) c ring
        (rdWords (rdGood (hostTagFree s p.val tag.toNat) 64 q data).mems .mem q.addr 8)) := by
  have hgood : hostReceive (hostTagFree s p.val tag.toNat) p.val q data .clean false = hostGood (hostTagFree s p.val tag.toNat) q data := by
    have hlost : (q.owner == .lost) = false := by rw [howner]; rfl
    rw [hostReceive, hlost]
    rfl
  show execMppRdReceive (.host p) tag data .clean false s = _
  simp only [execMppRdReceive, h]
  rw [show setHp s p.val _ = hostTagFree s p.val tag.toNat from rfl, hgood, hostGood]
  simp only [howner]

/-- A write under way without the request of a tag was under way with it. -/
theorem writePends_hostTagFree {s : State} {p tag a : Nat} (h : writePends s a = false) : writePends (hostTagFree s p tag) a = false := by
  rw [writePends, Bool.or_eq_false_iff] at h ⊢
  refine ⟨h.1, Bool.eq_false_iff.mpr fun e => ?_⟩
  have hhit := any_of_setHp (s := s) (p := p) (x := { getHp s p with initOut := tdrop (getHp s p).initOut tag })
    (f := fun q => q.op == 1 && decide (q.addr ≤ a ∧ a < q.addr + q.len)) (fun hx => ?_) e
  · exact absurd (h.2.symm.trans hhit) (by decide)
  · simp only [standsAt, Bool.or_eq_true] at hx ⊢
    refine hx.imp id fun hany => ?_
    obtain ⟨x, hmem, hx⟩ := List.any_eq_true.mp hany
    exact List.any_eq_true.mpr ⟨x, (List.mem_filter.mp hmem).1, hx⟩

theorem rdGood_desc {s : State} {q : PortReq} {c : Nat} {ring : W32} (howner : q.owner = .desc c ring) (lanes : Nat) (data : List Byte) :
    rdGood s lanes q data = chargeRd { s with mems := takeData s q.addr ((data.drop (q.addr % lanes)).take q.len) } c q.len := by
  simp only [rdGood, howner]

/-! ### The read of cq_head_addr (R227) -/

theorem cqHeadOp_ctxs (s : State) (c : Nat) (v : W32) : (cqHeadOp s c v).ctxs = (setCtx s c
    { getCtx s c with cqHead := v, cqRead := false, cqWait := !cqRoom { getCtx s c with cqHead := v, cqRead := false } }).ctxs := by
  unfold cqHeadOp
  dsimp only
  split
  · rw [writeStatus_ctxs]
    rfl
  · rfl

end Sys2Proof.Machine

open Sys2Proof Sys2Proof.Machine

/-- Settles O29: a fetch by `askSlots` behind `fetchedCtx`, data by `slotArrived`, and a head read by `cqHeadOp`. -/
theorem fetchAndHeadReads : Obligations.FetchAndHeadReads := by
  unfold Obligations.FetchAndHeadReads
  intro s c v hst hport x
  refine ⟨fun hrunning habort hfits => ?_, fun p tag data q ring hfind howner => ?_, fun hread => ?_, fun hread => ?_⟩
  · have hexec : exec (.descriptorFetch c) s = .next (fetchOp s c.val) := by
      refine congrArg Host.Outcome.next (if_pos ?_)
      rw [(takesWork_iff _).mpr ⟨hst, habort⟩, hrunning, hport]
      rfl
    rw [fetchOp_eq, fetchCount_of_fits hfits] at hexec
    have hrest := askSlots_rest (setCtx s c.val (fetchedCtx s x (min 16 (x.producer - x.fetch).toNat))) c.val
      (fun i => !(readSlot s x.ent i).isEmpty) (fetchRings x (min 16 (x.producer - x.fetch).toNat))
    have hctx (d : Nat) : getCtx (askSlots (setCtx s c.val (fetchedCtx s x (min 16 (x.producer - x.fetch).toNat))) c.val
        (fun i => !(readSlot s x.ent i).isEmpty) (fetchRings x (min 16 (x.producer - x.fetch).toNat))) d =
        getCtx (setCtx s c.val (fetchedCtx s x (min 16 (x.producer - x.fetch).toNat))) d := by rw [hrest]; rfl
    refine ⟨_, hexec, ?_, fun d hd => ?_, ?_, ?_, fun k hk => ⟨?_, fun hread => slotPending_askSlots _ (.inr ⟨?_, ?_⟩)⟩⟩
    · rw [hrest]
      rfl
    · rw [hctx, getCtx_setCtx_ne _ _ _ _ hd]
    · rw [hctx, getCtx_setCtx]
      rfl
    · rw [hctx, getCtx_setCtx]
      show (x.fetched ++ _).length = _
      rw [List.length_append, List.length_map, fetchRings, List.length_map, List.length_range]
    · rw [hctx, getCtx_setCtx]
      exact fetched_fetchedCtx s x hk
    · exact List.mem_map.mpr ⟨k, List.mem_range.mpr hk, rfl⟩
    · rw [Bool.not_eq_true', List.isEmpty_eq_false_iff]
      exact hread
  · have hexec := exec_mppRdReceive_host hfind howner data
    have hmem (k : Nat) (b : Byte) (hk : ((data.drop (q.addr % 64)).take q.len)[k]? = some b) (hpends : writePends s (q.addr + k) = false) :
        rdByte (takeData (hostTagFree s p.val tag.toNat) q.addr ((data.drop (q.addr % 64)).take q.len)) .mem (q.addr + k) = b := by
      obtain ⟨hlt, hget⟩ := List.getElem?_eq_some_iff.mp hk
      rw [rdByte_takeData, if_pos ⟨rfl, by omega, by omega, writePends_hostTagFree hpends⟩, Nat.add_sub_cancel_left,
        List.getD_eq_getElem _ _ hlt, hget]
    rw [rdGood_desc howner] at hexec
    refine ⟨_, hexec, ?_, rfl, fun d hd => ?_, hmem, fun f hf hring => ?_, ?_, ?_⟩
    · show thas (getHp (setHp s p.val _) p.val).initOut tag.toNat = false
      rw [getHp_setHp]
      exact thas_tdrop ..
    · exact getCtx_setCtx_ne _ _ _ _ hd
    · rw [slotArrived, getCtx_setCtx] at hf
      obtain ⟨g, -, rfl⟩ := List.mem_map.mp hf
      by_cases hg : (g.1 == ring) = true
      · rw [if_pos hg]
        rfl
      · rw [if_neg hg] at hring
        exact absurd (beq_iff_eq.mpr hring) hg
    · rw [slotArrived, getCtx_setCtx]
      show (x.fetched.map _).map _ = _
      rw [List.map_map]
      refine List.map_congr_left fun g _ => ?_
      show (if g.1 == ring then (ring, _) else g).1 = g.1
      split
      · next hg => exact (beq_iff_eq.mp hg).symm
      · rfl
    · exact congrArg Acct.rdBytes (getAcct_setAcct ..)
  · refine congrArg Host.Outcome.next (if_neg ?_)
    rw [show (getCtx s c.val).cqRead = false from hread, Bool.and_false, Bool.false_and]
    exact Bool.false_ne_true
  · have hexec : exec (.cqHeadRead c v) s = .next (cqHeadOp s c.val v) := by
      refine congrArg Host.Outcome.next (if_pos ?_)
      rw [hst, show (getCtx s c.val).cqRead = true from hread, hport]
      rfl
    refine ⟨_, hexec, fun d hd => ?_, ?_⟩
    · rw [getCtx, cqHeadOp_ctxs]
      exact getCtx_setCtx_ne _ _ _ _ hd
    · rw [getCtx, cqHeadOp_ctxs, show tget Context.init (setCtx s c.val _).ctxs c.val = _ from getCtx_setCtx ..]
      refine ⟨rfl, rfl, rfl, rfl, ?_⟩
      simp only [cqRoom, Bool.not_eq_true', decide_eq_false_iff_not, Nat.not_lt]
      exact Iff.rfl

end

section
/-!
PROOFS. Writes through the host ports (R30, R334), status lines (R229), completion records (R226, R228) settled.
-/

namespace Sys2Proof.Machine

/-! ### Events of class 2 -/

/-- An event of class 2 has its entry and is reported nowhere (R325). -/
theorem logFault_of_replayable {s : State} {e : FlogEntry} (h : e.cls = 2) : logFault s e = { s with flog := (logFault s e).flog } := by
  rw [logFault_of_new (.inl (by rw [h]; decide)), logNew_of_unreported (by rw [h]; decide)]

/-! ### What a write through the host ports may change -/

/-- Only bytes of memory that meet `P` have been written, requests stand at the host ports, and bytes have been charged. -/
structure Wrote (s t : State) (P : Nat → Prop) : Prop where
  rest : t = { s with mems := t.mems, hp := t.hp, flog := t.flog, tlm := t.tlm }
  accts : ∀ e, getAcct t e = { getAcct s e with wrBytes := (getAcct t e).wrBytes }
  bytes : ∀ sp x, (sp = .mem → ¬P x) → rdByte t.mems sp x = rdByte s.mems sp x

namespace Wrote

variable {s t u : State} {P Q : Nat → Prop}

theorem refl (s : State) (P : Nat → Prop) : Wrote s s P := ⟨rfl, fun _ => rfl, fun _ _ _ => rfl⟩

theorem trans (h : Wrote s t P) (k : Wrote t u P) : Wrote s u P :=
  ⟨by rw [k.rest, h.rest], fun e => by rw [k.accts, h.accts], fun sp x hx => (k.bytes sp x hx).trans (h.bytes sp x hx)⟩

theorem mono (h : Wrote s t P) (hPQ : ∀ x, P x → Q x) : Wrote s t Q :=
  ⟨h.rest, h.accts, fun sp x hx => h.bytes sp x fun e hP => hx e (hPQ x hP)⟩

theorem ctxs (h : Wrote s t P) : t.ctxs = s.ctxs := by rw [h.rest]
theorem getCtx (h : Wrote s t P) (c : Nat) : getCtx t c = getCtx s c := by rw [Machine.getCtx, h.ctxs, Machine.getCtx]
theorem units (h : Wrote s t P) : t.units = s.units := by rw [h.rest]
theorem regs (h : Wrote s t P) : t.regs = s.regs := by rw [h.rest]
theorem mnt (h : Wrote s t P) : t.mnt = s.mnt := by rw [h.rest]
theorem rgns (h : Wrote s t P) : t.rgns = s.rgns := by rw [h.rest]
theorem arrs (h : Wrote s t P) : t.arrs = s.arrs := by rw [h.rest]

/-- The account's other fields. -/
theorem descriptors (h : Wrote s t P) (e : Nat) : (getAcct t e).descriptors = (getAcct s e).descriptors := by rw [h.accts]

theorem chargeWr (s : State) (c n : Nat) : Wrote s (chargeWr s c n) P := by
  refine ⟨rfl, fun e => ?_, fun _ _ _ => rfl⟩
  by_cases h : e = c
  · subst h
    rw [Machine.chargeWr, getAcct_setAcct]
  · rw [Machine.chargeWr, getAcct_setAcct_ne _ _ _ _ h]

theorem hostIssue (s : State) (c : Nat) (q : PortReq) : Wrote s (hostIssue s c q) P := by
  rw [hostIssue_rest]
  exact ⟨rfl, fun _ => rfl, fun _ _ _ => rfl⟩

end Wrote

/-- The bytes of a range. -/
def byteRange (a n x : Nat) : Prop := a ≤ x ∧ x < a + n

theorem hostPut_of_fits {s : State} {c : Nat} {o : Owner} {a : Nat} {bs : List Byte} (h : a + bs.length ≤ 2 ^ 57) :
    (hostPut s c o a bs).mems = wrBytes s.mems .mem a bs := by
  rw [hostPut, if_neg (Nat.not_lt.mpr h), hostIssue_rest]

theorem wrote_hostPut (s : State) (c : Nat) (o : Owner) (a : Nat) (bs : List Byte) :
    Wrote s (hostPut s c o a bs) (byteRange a bs.length) := by
  unfold hostPut
  split
  · rw [logFault_of_replayable (by rfl)]
    exact ⟨rfl, fun _ => rfl, fun _ _ _ => rfl⟩
  · refine Wrote.trans (t := { s with mems := wrBytes s.mems .mem a bs }) ⟨rfl, fun _ => rfl, fun sp x hx => ?_⟩ (Wrote.hostIssue _ _ _)
    rw [rdByte_wrBytes, if_neg]
    rintro ⟨hsp, hlo, hhi⟩
    exact hx hsp ⟨hlo, hhi⟩

theorem wrote_hostWrite (s : State) (c a : Nat) (bs : List Byte) : Wrote s (hostWrite s c a bs) (byteRange a bs.length) :=
  (wrote_hostPut s c .engine a bs).trans (Wrote.chargeWr _ _ _)

theorem hostWrite_mems_of_fits {s : State} {c a : Nat} {bs : List Byte} (h : a + bs.length ≤ 2 ^ 57) :
    (hostWrite s c a bs).mems = wrBytes s.mems .mem a bs := hostPut_of_fits h

/-! ### Status lines (R229) -/

/-- The bytes of the status line that an entry names. -/
def statusRange (e : List W64) (x : Nat) : Prop := ceStatusBase e ≠ 0 ∧ byteRange (ceStatusBase e) 64 x

theorem length_statusBytes (x : Context) (t : Nat) : (statusBytes x t).length = 64 := by simp [statusBytes]

theorem wrote_writeStatus (s : State) (c : Nat) : Wrote s (writeStatus s c) (statusRange (getCtx s c).ent) := by
  unfold writeStatus
  dsimp only
  split
  · exact Wrote.refl s _
  · next hbase =>
    have hne : ceStatusBase (getCtx s c).ent ≠ 0 := by simpa using hbase
    have hput (h : Tbl HostPort) : Wrote s (hostPut { s with hp := h } c .engine (ceStatusBase (getCtx s c).ent)
        (statusBytes (getCtx s c) s.time.t)) (statusRange (getCtx s c).ent) := by
      have hdrop : Wrote s { s with hp := h } (statusRange (getCtx s c).ent) := ⟨rfl, fun _ => rfl, fun _ _ _ => rfl⟩
      refine hdrop.trans ((wrote_hostPut { s with hp := h } ..).mono fun x hx => ?_)
      rw [length_statusBytes] at hx
      exact ⟨hne, hx⟩
    split
    · exact hput _
    · exact (hput _).trans (Wrote.chargeWr _ _ _)

/-! ### A record (R226, R228) -/

theorem length_recordBytes (desc : List W64) (res : Result) (phase : Bool) (t : Nat) : (recordBytes desc res phase t).length = 32 := by
  simp [recordBytes]

/-- The interrupt's word. -/
def irqRange (e : List W64) (x : Nat) : Prop := byteRange (ceMsiAddr e) 4 x

theorem wrote_recordIrq (s : State) (c : Nat) (desc : List W64) : Wrote s (recordIrq s c desc) (irqRange (getCtx s c).ent) := by
  unfold recordIrq
  dsimp only
  split
  · refine (wrote_hostWrite s c _ _).mono fun x hx => ?_
    rwa [length_leBytes] at hx
  · exact Wrote.refl s _

/-- The machine with a record's descriptor retired, before the status line follows. -/
def retired (s : State) (c : Nat) (ring : W32) (now : Nat) : State :=
  let s2 := setCtx s c (afterRecord (getCtx s c) ring now)
  releaseBands (freeDescJournal (setAcct s2 c { getAcct s2 c with descriptors := (getAcct s2 c).descriptors + 1 }) c ring) c ring

theorem retired_rest (s : State) (c : Nat) (ring : W32) (now : Nat) : retired s c ring now = { s with
    ctxs := (retired s c ring now).ctxs, tlm := (retired s c ring now).tlm, rgns := (retired s c ring now).rgns, arrs := (retired s c ring now).arrs } := rfl

theorem retired_mems (s : State) (c : Nat) (ring : W32) (now : Nat) : (retired s c ring now).mems = s.mems := rfl

theorem getCtx_retired (s : State) (c : Nat) (ring : W32) (now e : Nat) :
    getCtx (retired s c ring now) e = if e = c then afterRecord (getCtx s c) ring now else getCtx s e :=
  getCtx_setCtx_if s c e _

theorem descriptors_retired (s : State) (c : Nat) (ring : W32) (now : Nat) :
    (getAcct (retired s c ring now) c).descriptors = (getAcct s c).descriptors + 1 :=
  congrArg Acct.descriptors (getAcct_setAcct (setCtx s c _) c _)

/-- The record's own write. -/
def recorded (s : State) (c : Nat) (desc : List W64) (res : Result) : State :=
  hostWrite s c (recordAddr (getCtx s c).ent (getCtx s c).cqWritten)
    (recordBytes desc res (recordPhase (getCtx s c).ent (getCtx s c).cqWritten) s.time.t)

theorem writeRecord_eq (s : State) (c : Nat) (ring : W32) (desc : List W64) (res : Result) :
    writeRecord s c ring desc res = recordIrq (writeStatus (retired (recorded s c desc res) c ring s.time.t) c) c desc := rfl

theorem wrote_retireAfterLoad (s : State) (c : Nat) (d : Adm) : ∃ u, Wrote u (retireAfterLoad s c d) (statusRange (getCtx s c).ent) ∧
    (u = s ∨ u = setCtx s c { getCtx s c with st := 0, fetched := [], slotXlate := [], dbRead := false, dbAgain := false }) := by
  unfold retireAfterLoad
  split
  · have h := wrote_writeStatus (setCtx s c { getCtx s c with st := 0, fetched := [], slotXlate := [], dbRead := false, dbAgain := false }) c
    rw [getCtx_setCtx] at h
    exact ⟨_, h, .inr rfl⟩
  · exact ⟨s, Wrote.refl s _, .inl rfl⟩

/-- The bytes that follow a record: the status line's and the interrupt's. -/
def afterRange (e : List W64) (x : Nat) : Prop := statusRange e x ∨ irqRange e x

/-- A record, and everything that follows it. -/
structure RecordDone (s t : State) (c : Nat) (ring : W32) (desc : List W64) (res : Result) : Prop where
  bytes : ∀ sp x, (sp = .mem → ¬afterRange (getCtx s c).ent x) → rdByte t.mems sp x = rdByte (recorded s c desc res).mems sp x
  written : (getCtx t c).cqWritten = (getCtx s c).cqWritten + 1
  admitted : (getCtx t c).admitted = (getCtx s c).admitted.filter (fun d => d.ring != ring)
  others : ∀ e, e ≠ c → getCtx t e = getCtx s e
  descriptors : (getAcct t c).descriptors = (getAcct s c).descriptors + 1
  kept : t.units = s.units ∧ t.regs = s.regs ∧ t.mnt = s.mnt

theorem recordDone_writeRecord (s : State) (c : Nat) (ring : W32) (desc : List W64) (res : Result) :
    RecordDone s (writeRecord s c ring desc res) c ring desc res ∧ (getCtx (writeRecord s c ring desc res) c).ent = (getCtx s c).ent := by
  have hrec : Wrote s (recorded s c desc res) _ := wrote_hostWrite ..
  have hself : getCtx (retired (recorded s c desc res) c ring s.time.t) c = afterRecord (getCtx s c) ring s.time.t := by
    rw [getCtx_retired, if_pos rfl, hrec.getCtx]
  have hent : (getCtx (retired (recorded s c desc res) c ring s.time.t) c).ent = (getCtx s c).ent := by rw [hself]; rfl
  have hstatus := wrote_writeStatus (retired (recorded s c desc res) c ring s.time.t) c
  have hirq := wrote_recordIrq (writeStatus (retired (recorded s c desc res) c ring s.time.t) c) c desc
  rw [hstatus.getCtx, hent] at hirq
  rw [hent] at hstatus
  have hafter := (hstatus.mono (Q := afterRange (getCtx s c).ent) fun x => .inl).trans (hirq.mono fun x => .inr)
  rw [writeRecord_eq]
  refine ⟨⟨fun sp x hx => ?_, ?_, ?_, fun e he => ?_, ?_, ?_, ?_, ?_⟩, ?_⟩
  · rw [hafter.bytes sp x hx, retired_mems]
  · rw [hafter.getCtx, hself]
    rfl
  · rw [hafter.getCtx, hself]
    rfl
  · rw [hafter.getCtx, getCtx_retired, if_neg he, hrec.getCtx]
  · rw [hafter.descriptors, descriptors_retired, hrec.descriptors]
  · rw [hafter.units, retired_rest, hrec.units]
  · rw [hafter.regs, retired_rest, hrec.regs]
  · rw [hafter.mnt, retired_rest, hrec.mnt]
  · rw [hafter.getCtx, hent]

theorem RecordDone.retireAfterLoad {s t : State} {c : Nat} {ring : W32} {desc : List W64} {res : Result} (h : RecordDone s t c ring desc res)
    (hent : (getCtx t c).ent = (getCtx s c).ent) (d : Adm) : RecordDone s (retireAfterLoad t c d) c ring desc res := by
  obtain ⟨u, hu, hor⟩ := wrote_retireAfterLoad t c d
  rw [hent] at hu
  have hctx : (getCtx u c).cqWritten = (getCtx t c).cqWritten ∧ (getCtx u c).admitted = (getCtx t c).admitted := by
    rcases hor with rfl | rfl
    · exact ⟨rfl, rfl⟩
    · rw [getCtx_setCtx]
      exact ⟨rfl, rfl⟩
  have hrest : u = { t with ctxs := u.ctxs } := by rcases hor with rfl | rfl <;> rfl
  obtain ⟨hunits, hregs, hmnt⟩ := h.kept
  refine ⟨fun sp x hx => ?_, ?_, ?_, fun e he => ?_, ?_, ?_, ?_, ?_⟩
  · rw [hu.bytes sp x (fun hsp hst => hx hsp (.inl hst)), ← h.bytes sp x hx, hrest]
  · rw [hu.getCtx, hctx.1, h.written]
  · rw [hu.getCtx, hctx.2, h.admitted]
  · rw [hu.getCtx, ← h.others e he]
    rcases hor with rfl | rfl
    · rfl
    · exact getCtx_setCtx_ne _ _ _ _ he
  · rw [hu.descriptors, ← h.descriptors, hrest]
    rfl
  · rw [hu.units, hrest, hunits]
  · rw [hu.regs, hrest, hregs]
  · rw [hu.mnt, hrest, hmnt]

/-- The next record is of an admitted descriptor with a result. -/
theorem exec_completionRecord_of_next {s : State} {c : CtxId} {d : Adm} {res : Result} (hst : (getCtx s c.val).st = 1)
    (habort : (getCtx s c.val).aborting = false) (hgo : recordsGo s = true) (hport : (hostPortFor s c.val).isSome = true)
    (hnext : nextRecord s c.val = some (d, res)) :
    exec (.completionRecord c) s = .next (retireAfterLoad (writeRecord s c.val d.ring d.desc res) c.val d) := by
  refine congrArg Host.Outcome.next ((if_pos ?_).trans ((if_neg (by rw [habort]; decide)).trans ?_))
  · rw [hst, hgo, hport]
    rfl
  · rw [hnext]

end Sys2Proof.Machine

open Sys2Proof Sys2Proof.Machine

/-- Settles O31: the record is `recorded`'s write, and what follows it writes the status line and the interrupt's word alone. -/
theorem completionRecordsAreWritten : Obligations.CompletionRecordsAreWritten := by
  unfold Obligations.CompletionRecordsAreWritten
  intro s c d res x a b other hst habort hgo hport hnext hfits
  obtain ⟨hrec, hent⟩ := recordDone_writeRecord s c.val d.ring d.desc res
  have hdone := hrec.retireAfterLoad hent d
  have hlen : b.length = 32 := length_recordBytes ..
  have hmems : (recorded s c.val d.desc res).mems = wrBytes s.mems .mem a b := hostWrite_mems_of_fits (by
    rw [length_recordBytes]
    exact hfits)
  have hother (k : Nat) (hk : other k) : ¬afterRange x.ent k := by
    obtain ⟨hstatus, hirq⟩ := hk
    rintro (⟨hne, hlo, hhi⟩ | ⟨hlo, hhi⟩)
    · rcases hstatus with h | h | h
      · exact hne h
      · omega
      · omega
    · omega
  refine ⟨_, exec_completionRecord_of_next hst habort hgo hport hnext, hlen, fun k hk hk' => ?_, fun k hk hk' => ?_, fun r k => ?_, hdone.written,
    fun e he => ?_, fun e he hne => ?_, hdone.descriptors, hdone.others, hdone.kept⟩
  · rw [hdone.bytes .mem (a + k) (fun _ => hother _ hk'), hmems, rdByte_wrBytes, if_pos ⟨rfl, by omega, by omega⟩, Nat.add_sub_cancel_left]
  · rw [hdone.bytes .mem k (fun _ => hother _ hk'), hmems, rdByte_wrBytes, if_neg (by omega)]
  · rw [hdone.bytes (.spad r) k (fun h => nomatch h), hmems, rdByte_wrBytes, if_neg (fun h => nomatch h.1)]
  · rw [hdone.admitted] at he
    exact bne_iff_ne.mp (List.mem_filter.mp he).2
  · rw [hdone.admitted]
    exact List.mem_filter.mpr ⟨he, bne_iff_ne.mpr hne⟩

end

section
/-!
PROOFS. Admission (R143, R163 to R166, R203, R227, R287, R294), settled.
-/

namespace Sys2Proof.Machine

/-! ### The last of the admitted descriptors -/

/-- The result of a descriptor that stands last, and whose ring index no other has. -/
theorem finishIn_last {x : Context} {l : List Adm} {d : Adm} {ring : W32} (res : Result) (hadm : x.admitted = l ++ [d])
    (hothers : ∀ e ∈ l, e.ring ≠ ring) (hring : d.ring = ring) (hnone : d.result = none) :
    finishIn x ring res = { x with admitted := l ++ [{ d with result := some res }], doneQ := x.doneQ ++ [ring] } := by
  have hany : x.admitted.any (fun e => e.ring == ring && e.result.isNone) = true :=
    List.any_eq_true.mpr ⟨d, by rw [hadm]; simp, by simp [hring, hnone]⟩
  have hmap : x.admitted.map (fun e => if e.ring == ring && e.result.isNone then { e with result := some res } else e) =
      l ++ [{ d with result := some res }] := by
    rw [hadm, List.map_append]
    congr 1
    · refine (List.map_congr_left fun e he => ?_).trans (List.map_id _)
      exact if_neg (by simp [hothers e he])
    · simp [hring, hnone]
  rw [finishIn, if_pos hany, hmap]

/-- Every descriptor admitted before the last one is earlier than it. -/
theorem earlier_last {x : Context} {l : List Adm} {d : Adm} {ring : W32} (hadm : x.admitted = l ++ [d]) (hothers : ∀ e ∈ l, e.ring ≠ ring)
    (hring : d.ring = ring) : earlier x ring = l := by
  rw [earlier, hadm, List.takeWhile_append_of_pos fun e he => by simpa using hothers e he]
  simp [hring]

/-! ### Admission's reads of the ring (R163) -/

/-- The context takes work, and its first fetched descriptor is looked at. -/
theorem exec_admission_of_front {s : State} {c : CtxId} {ring : W32} {desc : List W64} {rest : List (W32 × List W64)}
    (hst : (getCtx s c.val).st = 1) (habort : (getCtx s c.val).aborting = false) (hrunning : running s = true)
    (hport : (hostPortFor s c.val).isSome = true) (hfront : (getCtx s c.val).fetched = (ring, desc) :: rest) :
    exec (.admission c) s = .next (if slotPending s c.val ring || controlHeld (getCtx s c.val) || maskHeld s c.val desc then s
      else if !cqRoom (getCtx s c.val) then waitRoom s c.val else admitOp s c.val ring desc) := by
  refine congrArg Host.Outcome.next ((if_pos ?_).trans ?_)
  · rw [(takesWork_iff _).mpr ⟨hst, habort⟩, hrunning, hport]
    rfl
  · rw [hfront]

/-- Admission that waits for room has asked for cq_head_addr. -/
theorem getCtx_waitRoom (s : State) (c : Nat) : (getCtx (waitRoom s c) c).cqWait = true ∧
    (getCtx (waitRoom s c) c).fetched = (getCtx s c).fetched ∧ (getCtx (waitRoom s c) c).admitted = (getCtx s c).admitted ∧
    ((getCtx s c).cqWait = false → (getCtx (waitRoom s c) c).cqRead = true) := by
  unfold waitRoom
  split
  · next h => exact ⟨h, rfl, rfl, fun h0 => absurd (h0.symm.trans h) (by decide)⟩
  · rw [(wrote_writeStatus ..).getCtx, getCtx_setCtx]
    exact ⟨rfl, rfl, rfl, fun _ => rfl⟩

/-! ### A descriptor that fails a check (R163, R164) -/

theorem takeFetched_rest (x : Context) :
    takeFetched x = { x with fetched := x.fetched.drop 1, slotXlate := (takeFetched x).slotXlate } := rfl

theorem getCtx_chargeRd (s : State) (c n e : Nat) : getCtx (chargeRd s c n) e = getCtx s e := rfl

theorem rejectWith_spec {s : State} {c : Nat} {ring : W32} (desc : List W64) (res : Result) (hothers : ∀ d ∈ (getCtx s c).admitted, d.ring ≠ ring) :
    rejectWith s c ring desc res = { s with ctxs := (rejectWith s c ring desc res).ctxs } ∧
    (∀ e, e ≠ c → getCtx (rejectWith s c ring desc res) e = getCtx s e) ∧ getCtx (rejectWith s c ring desc res) c =
      { takeFetched (getCtx s c) with admitted := (getCtx s c).admitted ++ [{ bareAdm ring desc with result := some res }]
                                      doneQ := (getCtx s c).doneQ ++ [ring] } := by
  refine ⟨rfl, fun e he => getCtx_setCtx_ne _ _ _ _ he, (getCtx_setCtx ..).trans ?_⟩
  exact finishIn_last (x := { takeFetched (getCtx s c) with admitted := (getCtx s c).admitted ++ [bareAdm ring desc] }) res rfl hothers rfl rfl

/-! ### A descriptor that is admitted (R203, R204) -/

theorem tempoAdmit_rest (x : Context) (ring : W32) (now : Nat) : tempoAdmit x ring now = { x with tempo := (tempoAdmit x ring now).tempo } := by
  unfold tempoAdmit
  split
  · rfl
  · split <;> rfl

theorem stepSlot_rest (x : Context) (d : List W64) (i : Nat) : stepSlot x d i = { x with rng := (stepSlot x d i).rng } := by
  unfold stepSlot
  split <;> rfl

theorem slotAt_stepSlot (x : Context) (d : List W64) (i : Nat) :
    slotAt (stepSlot x d i) i = { slotAt x i with epoch := (slotAt x i).epoch + (if dRngStep d then 1 else 0) } := by
  unfold stepSlot
  split
  · exact tget_tset_self ..
  · exact congrArg (fun e => { slotAt x i with epoch := e }) (BitVec.add_zero _).symm

/-- The slot that a descriptor draws from takes its step. -/
def drawnCtx (x : Context) (l : Look) (desc : List W64) : Context :=
  match drawSource l desc with
  | none => x
  | some (i, _) => stepSlot x desc i

theorem drawnCtx_rest (x : Context) (l : Look) (desc : List W64) : drawnCtx x l desc = { x with rng := (drawnCtx x l desc).rng } := by
  unfold drawnCtx
  split
  · rfl
  · exact stepSlot_rest ..

/-- An admitted descriptor before its RNG draw: what it carries of the entries that admission read. -/
def undrawn (x : Context) (ring : W32) (desc : List W64) (l : Look) : Adm :=
  { bareAdm ring desc with entries := l.ents, params := l.params, variants := l.variants, ent := x.ent
                           mask := if opMask (dOpcode desc) then some freshMask else none }

theorem admitRecord_eq (x : Context) (ring : W32) (desc : List W64) (l : Look) : admitRecord x ring desc l =
    match drawSource l desc with
    | none => undrawn x ring desc l
    | some (i, o) => { undrawn x ring desc l with
        key := (slotAt x i).key
        stream := (slotAt x i).streamBase + BitVec.ofNat 32 o
        epoch := if dOpcode desc == 0x11 && mkMode desc then mkGen desc else (slotAt x i).epoch } := rfl

theorem admitRecord_rest (x : Context) (ring : W32) (desc : List W64) (l : Look) : (admitRecord x ring desc l).ring = ring ∧
    (admitRecord x ring desc l).desc = desc ∧ (admitRecord x ring desc l).result = none ∧ (admitRecord x ring desc l).entries = l.ents ∧
    (admitRecord x ring desc l).ent = x.ent := by
  rw [admitRecord_eq]
  split
  · exact ⟨rfl, rfl, rfl, rfl, rfl⟩
  · exact ⟨rfl, rfl, rfl, rfl, rfl⟩

theorem admitRecord_draw {x : Context} {l : Look} {desc : List W64} {i o : Nat} (ring : W32) (h : drawSource l desc = some (i, o)) :
    (admitRecord x ring desc l).key = (slotAt x i).key ∧ (admitRecord x ring desc l).stream = (slotAt x i).streamBase + BitVec.ofNat 32 o := by
  rw [admitRecord_eq, h]
  exact ⟨rfl, rfl⟩

/-- The context of an admitted descriptor, before Tempo's step takes it. -/
def admittedCtx (x : Context) (ring : W32) (desc : List W64) (l : Look) : Context :=
  drawnCtx { takeFetched x with admitted := x.admitted ++ [admitRecord (takeFetched x) ring desc l] } l desc

theorem admitWith_eq (s : State) (c : Nat) (ring : W32) (desc : List W64) (l : Look) : admitWith s c ring desc l =
    dropWrapped (setCtx s c (tempoAdmit (admittedCtx (getCtx s c) ring desc l) ring s.time.t)) c l.ents := rfl

theorem dropWrapped_rest (s : State) (c : Nat) (ents : Tbl (List W64)) :
    dropWrapped s c ents = { s with ctxs := (dropWrapped s c ents).ctxs, rgns := (dropWrapped s c ents).rgns } := rfl

theorem getCtx_dropWrapped (s : State) (c : Nat) (ents : Tbl (List W64)) (e : Nat) :
    getCtx (dropWrapped s c ents) e = { getCtx s e with lastGens := (getCtx (dropWrapped s c ents) e).lastGens } := by
  have h : getCtx (dropWrapped s c ents) e =
      if e = c then { getCtx s c with lastGens := ents.foldl (fun g e => tset g e.1 (tentOf e.2).gen) (getCtx s c).lastGens } else getCtx s e :=
    getCtx_setCtx_if s c e _
  rw [h]
  split
  · rw [‹e = c›]
  · rfl

/-- The context behind an admission; Tempo's step and the generations seen aside, it is `admittedCtx`. -/
theorem admitWith_spec (s : State) (c : Nat) (ring : W32) (desc : List W64) (l : Look) :
    admitWith s c ring desc l = { s with ctxs := (admitWith s c ring desc l).ctxs, rgns := (admitWith s c ring desc l).rgns } ∧
    (∀ e, e ≠ c → getCtx (admitWith s c ring desc l) e = getCtx s e) ∧ getCtx (admitWith s c ring desc l) c =
      { admittedCtx (getCtx s c) ring desc l with tempo := (getCtx (admitWith s c ring desc l) c).tempo
                                                  lastGens := (getCtx (admitWith s c ring desc l) c).lastGens } := by
  rw [admitWith_eq]
  refine ⟨?_, fun e he => ?_, ?_⟩
  · rw [dropWrapped_rest]
    rfl
  · have h : getCtx (dropWrapped (setCtx s c (tempoAdmit (admittedCtx (getCtx s c) ring desc l) ring s.time.t)) c l.ents) e =
        getCtx (setCtx s c (tempoAdmit (admittedCtx (getCtx s c) ring desc l) ring s.time.t)) e := getCtx_setCtx_ne _ _ _ _ he
    rw [h, getCtx_setCtx_ne _ _ _ _ he]
  · rw [getCtx_dropWrapped, getCtx_setCtx, tempoAdmit_rest]

theorem admittedCtx_rest (x : Context) (ring : W32) (desc : List W64) (l : Look) : admittedCtx x ring desc l = { takeFetched x with
    admitted := x.admitted ++ [admitRecord (takeFetched x) ring desc l], rng := (admittedCtx x ring desc l).rng } := by
  rw [admittedCtx, drawnCtx_rest]

theorem slotAt_admittedCtx {x : Context} {l : Look} {desc : List W64} {i o : Nat} (ring : W32) (h : drawSource l desc = some (i, o)) :
    slotAt (admittedCtx x ring desc l) i = { slotAt x i with epoch := (slotAt x i).epoch + (if dRngStep desc then 1 else 0) } := by
  simp only [admittedCtx, drawnCtx, h]
  exact slotAt_stepSlot ..

/-! ### A descriptor that an ACQUIRE holds (R287, R294) -/

theorem admitHeld_of_none {s : State} {c : Nat} {ring : W32}
    (h : ∀ d ∈ earlier (getCtx s c) ring, ∀ res, d.result = some res → res.status ≠ .dupClaim) : admitHeld s c ring = s := by
  refine if_neg ?_
  rw [List.any_eq_true]
  rintro ⟨d, hmem, hd⟩
  cases hres : d.result with
  | none => simp [hres] at hd
  | some res =>
    have hne := h d hmem res hres
    simp [hres, hne] at hd

theorem admitHeld_of_dup {s : State} {c : Nat} {ring : W32} (h : ∃ d ∈ earlier (getCtx s c) ring, dOpcode d.desc = 0x20 ∧ dAcquire d.desc = true ∧
    ∃ res, d.result = some res ∧ res.status = .dupClaim) : admitHeld s c ring = endDesc s c ring .dupClaim := by
  refine if_pos ?_
  obtain ⟨d, hmem, hop, hacq, res, hres, hst⟩ := h
  exact List.any_eq_true.mpr ⟨d, hmem, by simp [hop, hacq, hres, hst]⟩

/-- The last descriptor ends early. -/
theorem endDesc_last {s : State} {c : Nat} {l : List Adm} {d : Adm} {ring : W32} (st : Status) (hadm : (getCtx s c).admitted = l ++ [d])
    (hothers : ∀ e ∈ l, e.ring ≠ ring) (hring : d.ring = ring) (hnone : d.result = none) : (getCtx (endDesc s c ring st) c).fetched =
      (getCtx s c).fetched ∧ (getCtx (endDesc s c ring st) c).admitted = l ++ [{ d with result := some (plainResult st (admFlags s c ring)) }] := by
  have hdrop := (Dropped.dropSubs s (ofDesc c ring)).dropConfirmed c ring
  have hctx := hdrop.ctx c
  have hrun : getCtx (endDesc s c ring st) c = finishIn (getCtx (dropConfirmed (dropSubs s (ofDesc c ring)) c ring) c) ring
      (plainResult st (admFlags s c ring)) := getCtx_setCtx ..
  rw [hrun, finishIn_last _ (by rw [hctx]; exact hadm) hothers hring hnone]
  exact ⟨by rw [hctx], rfl⟩

/-! ### The checks (R163, R165) -/

/-- The look of a descriptor that has read nothing yet. -/
def noLook : Look := { ents := [], params := [], variants := [], bytes := 0, stop := none }

/-- A descriptor that passes checks 0x01 and 0x02 and whose reads succeed is rejected by its first failed check or admitted. -/
theorem admitOp_of_read {s : State} {c : Nat} {ring : W32} {desc : List W64} (hdesc : desc ≠ [])
    (h1 : checkAt (getCtx s c).ent s.regs.agreed.toNat noLook (ownsArray s c (stArray desc)) desc 0x01 = none)
    (h2 : checkAt (getCtx s c).ent s.regs.agreed.toNat noLook (ownsArray s c (stArray desc)) desc 0x02 = none)
    (hstop : (lookAll s c desc).stop = none) : admitOp s c ring desc =
      match firstFailure (getCtx s c).ent s.regs.agreed.toNat (lookAll s c desc) (ownsArray s c (stArray desc)) desc with
      | some res => rejectWith (chargeRd s c (lookAll s c desc).bytes) c ring desc res
      | none => admitHeld (admitWith (chargeRd s c (lookAll s c desc).bytes) c ring desc (lookAll s c desc)) c ring := by
  have hempty : desc.isEmpty = false := by rwa [List.isEmpty_eq_false_iff]
  rw [noLook] at h1 h2
  simp only [admitOp, hempty, h1, h2, hstop]
  rfl

end Sys2Proof.Machine

open Sys2Proof Sys2Proof.Machine

/-- Settles O30: the descriptor waits, is rejected by `rejectWith`, or is admitted by `admitWith`. -/
theorem admissionAdmitsOrRejects : Obligations.AdmissionAdmitsOrRejects := by
  unfold Obligations.AdmissionAdmitsOrRejects
  intro s c ring desc rest x ok agreed l l0 hst habort hrunning hport hfront
  have hexec := exec_admission_of_front hst habort hrunning hport hfront
  have hgo (hslot : slotPending s c.val ring = false) (hcontrol : controlHeld x = false) (hmask : maskHeld s c.val desc = false) :
      exec (.admission c) s = .next (if !cqRoom x then waitRoom s c.val else admitOp s c.val ring desc) := by
    rw [hexec, hslot, show controlHeld (getCtx s c.val) = false from hcontrol, hmask]
    rfl
  refine ⟨fun hheld => ?_, fun hslot hcontrol hmask hroom => ?_, fun hslot hcontrol hmask hroom hdesc h1 h2 hstop hfresh => ?_⟩
  · rw [hexec, if_pos]
    rcases hheld with h | h | h
    · rw [h]
      rfl
    · rw [show controlHeld (getCtx s c.val) = true from h, Bool.or_true, Bool.true_or]
    · rw [h, Bool.or_true]
  · rw [hgo hslot hcontrol hmask, hroom]
    exact ⟨_, rfl, getCtx_waitRoom s c.val⟩
  · have hrun : exec (.admission c) s = .next (admitOp s c.val ring desc) := by
      rw [hgo hslot hcontrol hmask, hroom]
      rfl
    rw [admitOp_of_read hdesc h1 h2 hstop] at hrun
    obtain ⟨hrest, hothers, hctx⟩ := admitWith_spec (chargeRd s c.val l.bytes) c.val ring desc l
    have hself : (getCtx (admitWith (chargeRd s c.val l.bytes) c.val ring desc l) c.val).admitted =
        x.admitted ++ [admitRecord (takeFetched x) ring desc l] := by rw [hctx, admittedCtx_rest]; rfl
    have hfetched : (getCtx (admitWith (chargeRd s c.val l.bytes) c.val ring desc l) c.val).fetched = rest := by
      rw [hctx, admittedCtx_rest]
      exact congrArg (List.drop 1) hfront
    obtain ⟨hring, hdesc', hnone, hents, hent⟩ := admitRecord_rest (takeFetched x) ring desc l
    refine ⟨fun hpass hclear => ?_, fun hpass hdup => ?_, fun res hfail => ?_⟩
    · rw [show firstFailure (getCtx s c.val).ent s.regs.agreed.toNat (lookAll s c.val desc) (ownsArray s c.val (stArray desc)) desc = none from hpass]
        at hrun
      have hheld := admitHeld_of_none (s := admitWith (chargeRd s c.val l.bytes) c.val ring desc l) (c := c.val) (ring := ring)
        (by rw [earlier_last hself hfresh hring]; exact hclear)
      refine ⟨_, admitRecord (takeFetched x) ring desc l, hrun.trans (congrArg Host.Outcome.next hheld), ?_, hfetched, hself, hring, hdesc', hnone,
        hents, hent, ?_, hothers, fun i o hdraw => ?_⟩
      · rw [hrest]
        rfl
      · rw [hctx, admittedCtx_rest]
        rfl
      · obtain ⟨hkey, hstream⟩ := admitRecord_draw (x := takeFetched x) ring hdraw
        refine ⟨hkey, hstream, ?_⟩
        rw [hctx]
        exact slotAt_admittedCtx ring hdraw
    · rw [show firstFailure (getCtx s c.val).ent s.regs.agreed.toNat (lookAll s c.val desc) (ownsArray s c.val (stArray desc)) desc = none from hpass]
        at hrun
      have hheld := admitHeld_of_dup (s := admitWith (chargeRd s c.val l.bytes) c.val ring desc l) (c := c.val) (ring := ring)
        (by rw [earlier_last hself hfresh hring]; exact hdup)
      obtain ⟨hfetched', hadm⟩ := endDesc_last .dupClaim hself hfresh hring hnone
      refine ⟨_, hrun.trans (congrArg Host.Outcome.next hheld), hfetched'.trans hfetched, { admitRecord (takeFetched x) ring desc l with
        result := some (plainResult .dupClaim (admFlags (admitWith (chargeRd s c.val l.bytes) c.val ring desc l) c.val ring)) }, ?_,
        hring, hdesc', _, rfl⟩
      rw [hadm]
      exact List.mem_append_right _ (List.mem_singleton.mpr rfl)
    · rw [show firstFailure (getCtx s c.val).ent s.regs.agreed.toNat (lookAll s c.val desc) (ownsArray s c.val (stArray desc)) desc = some res
        from hfail] at hrun
      obtain ⟨hrest', hothers', hctx'⟩ := rejectWith_spec (s := chargeRd s c.val l.bytes) (c := c.val) desc res hfresh
      refine ⟨rejectWith (chargeRd s c.val l.bytes) c.val ring desc res, { bareAdm ring desc with result := some res }, hrun, ?_, ?_, ?_, rfl, rfl, rfl, ?_, ?_, hothers'⟩
      · rw [hrest']
        rfl
      · rw [hctx']
        exact congrArg (List.drop 1) hfront
      · rw [hctx']
        rfl
      · rw [hctx']
        rfl
      · rw [hctx']
        rfl

end

section
/-!
PROOFS. Residency copies (R145, R161), the dispatcher's decision (R31, R148, R250, R254) settled.
-/

namespace Sys2Proof.Machine

/-! ### What residency copies change (R145, R161) -/

/-- Only regions, ports' reads and reads in crossings changed. -/
def ReadsAsked (s t : State) : Prop := t = { s with mp := t.mp, xing := t.xing, rgns := t.rgns }

namespace ReadsAsked
variable {s t u : State}

theorem refl (s : State) : ReadsAsked s s := rfl

theorem trans (h : ReadsAsked s t) (k : ReadsAsked t u) : ReadsAsked s u := by
  unfold ReadsAsked at h k ⊢
  rw [k, h]

theorem setRgn (s : State) (r : Nat) (x : Region) : ReadsAsked s (setRgn s r x) := rfl

theorem of_queueReads (s : State) (o : Owner) (asid : BitVec 16) (r cls a n : Nat) : ReadsAsked s (queueReads s o asid r cls a n) := by
  obtain ⟨m, hm⟩ := queueReads_rest s o asid r cls a n
  rw [hm]
  rfl

theorem mems (h : ReadsAsked s t) : t.mems = s.mems := by rw [h]
theorem units (h : ReadsAsked s t) : t.units = s.units := by rw [h]
theorem ctxs (h : ReadsAsked s t) : t.ctxs = s.ctxs := by rw [h]
theorem getCtx (h : ReadsAsked s t) (c : Nat) : getCtx t c = getCtx s c := by rw [Machine.getCtx, h.ctxs, Machine.getCtx]

end ReadsAsked

theorem roomForWindows_asks {s t : State} {r c : Nat} {ring : W32} {keep : ResCopy → Bool} (h : roomForWindows s r c ring keep = some t) :
    ReadsAsked s t := by
  obtain ⟨l, -, rfl⟩ := Option.map_eq_some_iff.mp h
  rfl

theorem renewCopy_asks (s : State) (r c : Nat) (ring : W32) (tensor : Nat) (gen : W32) : ReadsAsked s (renewCopy s r c ring tensor gen) := rfl

theorem takeCopy_asks {s t : State} {r c : Nat} {ring : W32} {tensor : Nat} {gen : W32} {bytes : Nat}
    (h : takeCopy s r c ring tensor gen bytes = some t) : ReadsAsked s t := by
  simp only [takeCopy] at h
  split at h
  · obtain ⟨u, hu, rfl⟩ := Option.map_eq_some_iff.mp h
    exact (roomForWindows_asks hu).trans (renewCopy_asks ..)
  · obtain ⟨l, -, rfl⟩ := Option.map_eq_some_iff.mp h
    rfl

theorem fetchCopy_asks (s : State) (c : Nat) (ring : W32) (r : Nat) (j : Job) : ReadsAsked s (fetchCopy s c ring r j) := by
  suffices h : ∀ (l : List Span) (o : Owner) (asid : BitVec 16) (t : State), ReadsAsked s t →
      ReadsAsked s (l.foldl (fun u x => queueReads u o asid r 1 x.a x.n) t) from h _ _ _ s (.refl s)
  intro l o asid
  induction l with
  | nil => exact fun t h => h
  | cons x l ih => exact fun t h => ih _ (h.trans (.of_queueReads ..))

theorem productCopy_asks {s t : State} {c r : Nat} {ring : W32} {fetch : Bool} {j : Job} (h : productCopy s c ring r fetch j = some t) :
    ReadsAsked s t := by
  unfold productCopy at h
  split at h
  · cases h
    exact .refl s
  · obtain ⟨u, hu, rfl⟩ := Option.map_eq_some_iff.mp h
    split
    · exact (takeCopy_asks hu).trans (fetchCopy_asks ..)
    · exact takeCopy_asks hu

theorem residencyStep_asks {s t : State} {c r : Nat} {ring : W32} {fetch : Bool} {j : Job} (h : residencyStep s c ring r fetch j = some t) :
    ReadsAsked s t := by
  unfold residencyStep at h
  split at h
  · split at h
    · exact roomForWindows_asks h
    · cases h
      exact .refl s
  · obtain ⟨u, hu, h⟩ := Option.bind_eq_some_iff.mp h
    split at h
    · exact (productCopy_asks hu).trans (productCopy_asks h)
    · cases h
      exact productCopy_asks hu

/-! ### The sub-tile that goes out next -/

@[simp] theorem logFault_rgns (s : State) (e : FlogEntry) : (logFault s e).rgns = s.rgns := by rw [(logFault_logOnly s e).rest]

/-- The descriptor behind one more emission. -/
def emittedOne (s : State) (c r : Nat) (j : Job) (e : Adm) : Adm :=
  { e with emitted := e.emitted + 1, flags := e.flags ||| routeFlags s c r j }

/-- A sub-tile joins the queue of the region chosen for it. -/
theorem emitNext_of_chosen {s s1 : State} {c r : Nat} {d : Adm} (habsent : operandAbsent s d = false)
    (hrs : (regionsOf s (ceAffinity (getCtx s c).ent)).isEmpty = false)
    (hlanes : (laneRegions s (drawsBits (sizedDesc d)) (regionsOf s (ceAffinity (getCtx s c).ent))).isEmpty = false)
    (hchoose : ((((pairRegions s c (jobOf d 0) (laneRegions s (drawsBits (sizedDesc d)) (regionsOf s (ceAffinity (getCtx s c).ent)))).filter
        (fun r => decide (boardOf s r < 1024))).find?
          (fun q => (getRgn s q).queue.any (samePack (subAt s c d (jobOf d 0) d.emitted false 0)))).orElse
      (fun _ => chooseRegion s c (wIndex (jobOf d 0)) (wEnt (jobOf d 0)).gen
        ((pairRegions s c (jobOf d 0) (laneRegions s (drawsBits (sizedDesc d)) (regionsOf s (ceAffinity (getCtx s c).ent)))).filter
          (fun r => decide (boardOf s r < 1024))))) = some r)
    (hcopy : residencyStep s c d.ring r true (jobOf d r) = some s1) (hside : sideRouted s r (jobOf d r) = false) :
    (emitNext c s d).state = setAdm (setRgn s1 r { getRgn s1 r with
      queue := (getRgn s1 r).queue ++ [subAt s1 c d (jobOf d r) d.emitted false 0] }) c d.ring (emittedOne s c r (jobOf d r)) := by
  simp only [emitNext, regionStep, regionsStep, habsent, hrs, hlanes, hchoose, hcopy, hside, Bool.false_eq_true, if_false]
  rfl

/-- A sub-tile's place in its descriptor: head, chunk and group count it up in fold order (R148). -/
theorem subAt_place (s : State) (c : Nat) (d : Adm) (j : Job) (e : Nat) (side : Bool) (order : Nat) :
    ((subAt s c d j e side order).h * chunksOf j + (subAt s c d j e side order).c) * groupsPerChunk j + (subAt s c d j e side order).g = e := by
  show (e / (groupsPerChunk j * chunksOf j) * chunksOf j + e / groupsPerChunk j % chunksOf j) * groupsPerChunk j + e % groupsPerChunk j = e
  rw [← Nat.div_div_eq_div_mul, Nat.div_add_mod', Nat.div_add_mod']

/-- A change of a descriptor whose ring index it keeps is found among the admitted ones. -/
theorem mem_admitted_setAdm {s : State} {c : Nat} {d : Adm} {f : Adm → Adm} (h : d ∈ (getCtx s c).admitted) :
    f d ∈ (getCtx (setAdm s c d.ring f) c).admitted := by
  rw [setAdm, getCtx_setCtx]
  exact List.mem_map.mpr ⟨d, h, if_pos (beq_self_eq_true d.ring)⟩

theorem getCtx_setAdm_ne {s : State} {c e : Nat} (ring : W32) (f : Adm → Adm) (h : e ≠ c) : getCtx (setAdm s c ring f) e = getCtx s e :=
  getCtx_setCtx_ne _ _ _ _ h

theorem result_none_of_not_emittedAll {d : Adm} (h : emittedAll d = false) : d.result = none := by
  unfold emittedAll at h
  exact Option.isSome_eq_false_iff.mp (Bool.or_eq_false_iff.mp h).1 |> Option.isNone_iff_eq_none.mp

/-- A context whose first unfinished descriptor may be dispatched has a decision to take. -/
theorem decides_of_first {s : State} {c : Nat} {d : Adm} (hfirst : (getCtx s c).admitted.find? (fun e => !emittedAll e) = some d)
    (hop : opCompute (dOpcode d.desc) = true) (hdisp : dispatchable s c d = true) (hspec : specPends s c d = false) : decides s c = true := by
  simp only [decides, hfirst, hop, hdisp, hspec]
  rfl

theorem dispatchOne_of_begun {s : State} {c : Nat} {d : Adm} (hfirst : (getCtx s c).admitted.find? (fun e => !emittedAll e) = some d)
    (hop : opCompute (dOpcode d.desc) = true) (hdisp : dispatchable s c d = true) (hspec : specPends s c d = false)
    (hbegun : d.total.isSome = true) : dispatchOne s c = (emitNext c s d).state := by
  simp only [dispatchOne, hfirst, hop, hdisp, hspec, hbegun, Bool.not_false, Bool.and_self, Bool.not_true, Bool.false_eq_true, if_false, if_true]

end Sys2Proof.Machine

open Sys2Proof Sys2Proof.Machine

/-- Settles O32: a descriptor that has begun emits `emitNext`'s sub-tile, whose place counts up in fold order; the second disagreement is a
board-level fault behind its own entry. -/
theorem dispatchEmitsInFoldOrder : Obligations.DispatchEmitsInFoldOrder := by
  intro s c d r s1 x rs j near hfirst hop hdisp hspec
  have hdec : decides s c.val = true := decides_of_first hfirst hop hdisp hspec
  refine ⟨fun hbegun hrs habsent hlanes hchoose hcopy hside _ => ?_, ?_⟩
  · have hexec : exec (.dispatch c 0) s = .next (dispatchOne s c.val) := by
      show Host.Outcome.next (if !decides s c.val then s else dispatchOne s c.val) = _
      rw [hdec]
      rfl
    rw [dispatchOne_of_begun hfirst hop hdisp hspec hbegun, emitNext_of_chosen habsent (List.isEmpty_eq_false_iff.mpr hrs)
      (List.isEmpty_eq_false_iff.mpr hlanes) hchoose hcopy hside] at hexec
    have hasks := residencyStep_asks hcopy
    have hmem : d ∈ (getCtx s c.val).admitted := List.mem_of_find?_eq_some hfirst
    have hnone : d.result = none := result_none_of_not_emittedAll (by simpa using List.find?_some hfirst)
    refine ⟨_, subAt s1 c.val d j d.emitted false 0, hexec, congrArg Region.queue (getRgn_setRgn s1 r _), rfl, rfl,
      subAt_place .., rfl, rfl, rfl, rfl, ?_, ?_, ⟨emittedOne s c.val r j d, ?_, rfl, rfl, hnone⟩, fun e he => ?_⟩
    · exact hasks.mems
    · exact hasks.units
    · refine mem_admitted_setAdm ?_
      rw [getCtx_setRgn, hasks.getCtx]
      exact hmem
    · rw [getCtx_setAdm_ne _ _ he, getCtx_setRgn, hasks.getCtx]
  · have hexec : exec (.dispatch c 2) s = .next (boardFault (logFault s (flogBase s clsReplayable 10 0x0F 0 0)) 10 0x10 0 0) := by
      show Host.Outcome.next (if !decides s c.val then s else _) = _
      rw [hdec]
      rfl
    have hlog : LogAt (logFault s (flogBase s clsReplayable 10 0x0F 0 0)) s.flog.next.toNat 2 0x0F 0 :=
      logAt_logFault (.inl (show (2 : BitVec 3) ≠ 1 by decide)) rfl
    have hnext : (logFault s (flogBase s clsReplayable 10 0x0F 0 0)).flog.next = s.flog.next + 1 :=
      logFault_next (show (2 : BitVec 3) ≠ 1 by decide)
    have hdown := boardDown_boardFault (s := logFault s (flogBase s clsReplayable 10 0x0F 0 0)) rfl rfl 10 0x10 0 0
    refine ⟨_, hexec, hdown.stopped, hdown.main, ?_, ?_, ?_, ?_⟩
    · refine LogAt.congr (hlog.logFault (e := { flogBase (logFault s (flogBase s clsReplayable 10 0x0F 0 0)) clsBoard 10 0x10 0 0 with
        detail := BitVec.ofNat 32 0 }) (show (5 : BitVec 3) ≠ 1 by decide) ?_) rfl
      rw [hnext]
      exact toNat_ne_next _
    · rw [← hnext]
      exact hdown.entry
    · rw [boardFault_rest]
      exact logFault_ctxs ..
    · rw [boardFault_rest]
      exact logFault_rgns ..

end

section
/-!
PROOFS. Bindings (R153, R255 to R258, R264, R302) settled.
-/

namespace Sys2Proof.Machine

/-! ### Tables -/

theorem thas_tset {α : Type} (t : Tbl α) (k n : Nat) (v : α) : thas (tset t k v) n = (k == n || thas t n) := by
  induction t with
  | nil => rfl
  | cons e t ih =>
    obtain ⟨j, w⟩ := e
    unfold tset
    split
    · rfl
    · split
      · subst j
        cases hk : k == n <;> simp [thas, hk]
      · rw [thas, ih, thas, Bool.or_left_comm]

/-! ### What meets a binding on its array (R264, R265) -/

theorem getRgn_mapReqs (s : State) (f : BankReq → BankReq) (n : Nat) :
    getRgn { s with rgns := tmap (fun _ x => { x with bankReqs := x.bankReqs.map f }) s.rgns } n =
      { getRgn s n with bankReqs := (getRgn s n).bankReqs.map f } :=
  tget_tmap Region.init (fun _ x => { x with bankReqs := x.bankReqs.map f }) s.rgns n rfl

/-- Nothing but counters, reads and loads changed: no sub-tile left or joined an array, and a region's bank requests alone differ. -/
structure Met (s t : State) : Prop where
  rest : t = { s with mp := t.mp, xing := t.xing, tlm := t.tlm, rgns := t.rgns, arrs := t.arrs }
  rgn : ∀ n, getRgn t n = { getRgn s n with bankReqs := (getRgn t n).bankReqs }
  bound : ∀ a, (getArr t a).bound = (getArr s a).bound

namespace Met
variable {s t u : State}

theorem refl (s : State) : Met s s := ⟨rfl, fun _ => rfl, fun _ => rfl⟩

theorem trans (h : Met s t) (k : Met t u) : Met s u :=
  ⟨by rw [k.rest, h.rest], fun n => by rw [k.rgn n, h.rgn n], fun a => (k.bound a).trans (h.bound a)⟩

theorem of_asks (h : Asks s t) : Met s t :=
  ⟨by rw [h.rest], h.rgn, fun a => by rw [h.arr a]⟩

theorem setArr (s : State) (a : Nat) (x : ArrayS) (hx : x.bound = (getArr s a).bound) : Met s (setArr s a x) :=
  ⟨rfl, fun _ => rfl, fun b => by
    rw [getArr_setArr_if]
    split
    · rw [hx, ‹b = a›]
    · rfl⟩

theorem addCnt (s : State) (i n : Nat) : Met s (addCnt s i n) := ⟨rfl, fun _ => rfl, fun _ => rfl⟩

theorem chargeRd (s : State) (c n : Nat) : Met s (chargeRd s c n) := ⟨rfl, fun _ => rfl, fun _ => rfl⟩

theorem adoptReads (s : State) (r c : Nat) (ring : W32) (tensor : Nat) (gen : W32) (array : Option Nat) :
    Met s (adoptReads s r c ring tensor gen array) := by
  refine ⟨rfl, fun n => ?_, fun _ => rfl⟩
  rw [show getRgn (Machine.adoptReads s r c ring tensor gen array) n = _ from getRgn_mapReqs s _ n]

end Met

theorem asks_fetchLists (s : State) (r : Nat) (j : Job) (t : SubTile) (p : Nat) : Asks s (fetchLists s r j t p) := by
  have h := Asks.foldl (l := listSpad s r j t p) (f := fun u x => askBank u x.1 1 x.2 .read (.desc t.ctx t.ring)) (fun _ _ => asks_askBank ..) s
  unfold fetchLists
  dsimp only
  split
  · exact h
  · exact h.trans (.foldl (fun _ _ => .foldl (fun _ _ => asks_queueRead ..) _) _)

/-- A preload that becomes the sub-tile's load: it is charged, and its reads are the descriptor's. -/
def preloadTaken (s : State) (a : Nat) (j : Job) (t : SubTile) (n : Nat) (l : Load) : State :=
  addCnt (adoptReads (setArr (chargeRd s t.ctx l.bytes) a { getArr s a with
    loads := [{ l with preload := false, bytes := 0 }], shadow := adoptRows s.mems j t n l (getArr s a).shadow })
    (a / 4) t.ctx t.ring l.key.tensor l.key.gen (some a)) 1 1

theorem met_preloadTaken (s : State) (a : Nat) (j : Job) (t : SubTile) (n : Nat) (l : Load) : Met s (preloadTaken s a j t n l) :=
  (((Met.chargeRd s t.ctx l.bytes).trans (.setArr _ a _ (by rfl))).trans (.adoptReads ..)).trans (.addCnt ..)

theorem met_meetPreload (s : State) (a : Nat) (j : Job) (t : SubTile) (n : Nat) : Met s (meetPreload s a j t n) := by
  unfold meetPreload
  dsimp only
  split
  · exact .refl s
  · rename_i l _
    split
    · have h := met_preloadTaken s a j t n l
      split
      · exact h.trans (.of_asks (asks_fetchLists ..))
      · exact h
    · exact ((Met.setArr s a _ (by rfl)).trans (.addCnt ..)).trans (.addCnt ..)

theorem met_meetPreloads (s : State) (a : Nat) (j : Job) (t : SubTile) : Met s (meetPreloads s a j t) := by
  unfold meetPreloads
  dsimp only
  split
  · exact met_meetPreload ..
  · split
    · exact (met_meetPreload ..).trans (met_meetPreload ..)
    · exact met_meetPreload ..

/-! ### The bound list (R256) -/

theorem mem_insertOrder (t u : SubTile) (l : List SubTile) : u ∈ insertOrder t l ↔ u = t ∨ u ∈ l := by
  induction l with
  | nil => simp [insertOrder]
  | cons x l ih =>
    unfold insertOrder
    split
    · exact List.mem_cons
    · rw [List.mem_cons, ih, List.mem_cons]
      exact or_left_comm

theorem mem_addBound (l : List SubTile) (t u : SubTile) : u ∈ addBound l t ↔ u = t ∨ u ∈ l := by
  cases l with
  | nil => exact List.mem_singleton.trans (by simp)
  | cons h rest =>
    unfold addBound
    dsimp only
    split
    · rw [List.mem_cons, mem_insertOrder, List.mem_cons]
      exact or_left_comm
    · exact mem_insertOrder ..

/-! ### One sub-tile seated (R173, R255, R302) -/

/-- Behind bindings in region `r`: sub-tiles stay bound, entries of the journal stay as they are, other regions are as before but for
requests at their banks. -/
structure Binding (s t : State) (r : Nat) : Prop where
  rest : t = { s with ctxs := t.ctxs, mp := t.mp, xing := t.xing, tlm := t.tlm, rgns := t.rgns, arrs := t.arrs, dwrr := t.dwrr }
  others : ∀ n, n ≠ r → getRgn t n = { getRgn s n with bankReqs := (getRgn t n).bankReqs }
  bound : ∀ a, ∀ w ∈ (getArr s a).bound, w ∈ (getArr t a).bound
  journal : ∀ n, thas (getRgn s r).journal n = true → thas (getRgn t r).journal n = true ∧
    ∀ e, tget e (getRgn t r).journal n = tget e (getRgn s r).journal n

namespace Binding
variable {s t u : State} {r : Nat}

theorem mems (h : Binding s t r) : t.mems = s.mems := by rw [h.rest]
theorem units (h : Binding s t r) : t.units = s.units := by rw [h.rest]

theorem refl (s : State) (r : Nat) : Binding s s r := ⟨rfl, fun _ _ => rfl, fun _ _ h => h, fun _ h => ⟨h, fun _ => rfl⟩⟩

theorem trans (h : Binding s t r) (k : Binding t u r) : Binding s u r where
  rest := by rw [k.rest, h.rest]
  others n hn := by rw [k.others n hn, h.others n hn]
  bound a w hw := k.bound a w (h.bound a w hw)
  journal n hn := by
    obtain ⟨hhas, hget⟩ := h.journal n hn
    exact ⟨(k.journal n hhas).1, fun e => ((k.journal n hhas).2 e).trans (hget e)⟩

theorem setCtx (s : State) (r c : Nat) (x : Context) : Binding s (setCtx s c x) r :=
  ⟨rfl, fun _ _ => rfl, fun _ _ h => h, fun _ h => ⟨h, fun _ => rfl⟩⟩

theorem setRgn (s : State) (r : Nat) (x : Region) (hx : x.journal = (getRgn s r).journal) : Binding s (setRgn s r x) r where
  rest := rfl
  others n hn := by rw [getRgn_setRgn_ne _ _ _ _ hn]
  bound _ _ h := h
  journal n h := by
    rw [getRgn_setRgn, hx]
    exact ⟨h, fun _ => rfl⟩

end Binding

/-- A sub-tile as it is seated on array `a` with journal entry `k`. -/
def seatedSub (s : State) (a k : Nat) (t : SubTile) (j : Job) : SubTile :=
  let v := seatOn s a j { t with order := if t.order == 0 then nextOrder s else t.order }
  let moved := t.home.any (fun h => h != a)
  { v with array := some a, home := some (t.home.getD a), jent := some k, side := false, started := false, entered := (getArr s a).cycle
           moved := t.moved || moved, flags := t.flags ||| flagIf moved (flReplayed ||| flFencedMove)
           fuse := { v.fuse with paired := isFused s t && pairLive s (ceAffinity (getCtx s t.ctx).ent) a && a % 2 == 0 } }

theorem seatOn_place (s : State) (a : Nat) (j : Job) (t : SubTile) : (seatOn s a j t).ctx = t.ctx ∧ (seatOn s a j t).ring = t.ring ∧
    (seatOn s a j t).h = t.h ∧ (seatOn s a j t).c = t.c ∧ (seatOn s a j t).g = t.g := by
  unfold seatOn
  dsimp only
  split
  · exact ⟨rfl, rfl, rfl, rfl, rfl⟩
  · split
    · exact ⟨rfl, rfl, rfl, rfl, rfl⟩
    · exact ⟨rfl, rfl, rfl, rfl, rfl⟩

theorem seatedSub_place (s : State) (a k : Nat) (t : SubTile) (j : Job) : (seatedSub s a k t j).ctx = t.ctx ∧
    (seatedSub s a k t j).ring = t.ring ∧ (seatedSub s a k t j).h = t.h ∧ (seatedSub s a k t j).c = t.c ∧ (seatedSub s a k t j).g = t.g ∧
    (seatedSub s a k t j).array = some a ∧ (seatedSub s a k t j).jent = some k := by
  obtain ⟨hctx, hring, hh, hc, hg⟩ := seatOn_place s a j { t with order := if t.order == 0 then nextOrder s else t.order }
  exact ⟨hctx, hring, hh, hc, hg, rfl, rfl⟩

/-- A sub-tile joins an array. -/
def joinArray (s : State) (a : Nat) (u : SubTile) : State := setArr s a (withBound (getArr s a) (addBound (getArr s a).bound u))

theorem mem_joinArray (s : State) (a : Nat) (u : SubTile) : u ∈ (getArr (joinArray s a u) a).bound ∧
    ∀ b, ∀ w ∈ (getArr s b).bound, w ∈ (getArr (joinArray s a u) b).bound := by
  refine ⟨?_, fun b w hw => ?_⟩
  · rw [joinArray, getArr_setArr, bound_withBound]
    exact (mem_addBound ..).mpr (.inl rfl)
  · rw [joinArray, getArr_setArr_if]
    split
    · rw [bound_withBound, ← ‹b = a›]
      exact (mem_addBound ..).mpr (.inr hw)
    · exact hw

theorem seatTo_eq (s : State) (r a k : Nat) (t : SubTile) (d : Adm) (j : Job) : seatTo s r a k t d j =
    putJournal (joinArray (meetPreloads s a j (seatedSub s a k t j)) a (seatedSub s a k t j)) r k (subJournal (seatedSub s a k t j) d) := rfl

/-- A journal entry with both copies good. -/
def goodEntry (ws : List W64) : JEntry := { a := ws, b := ws, lostA := false, lostB := false }

/-- An entry of a region's journal is written through its banks (R300). -/
theorem getRgn_putJournal (s : State) (r k : Nat) (ws : List W64) (n : Nat) : getRgn (putJournal s r k ws) n =
    if n = r then { getRgn s r with journal := tset (getRgn s r).journal k (goodEntry ws), bankReqs := (getRgn (putJournal s r k ws) r).bankReqs }
    else getRgn s n := by
  have h : Asks (setRgn s r { getRgn s r with journal := tset (getRgn s r).journal k (goodEntry ws) }) (putJournal s r k ws) :=
    (asks_askBank ..).trans (asks_askBank ..)
  split
  · subst n
    rw [h.rgn r, getRgn_setRgn]
  · rename_i hn
    have hne : ∀ (u : State) (x y : Nat), getRgn (askBank u r 0 x (.write []) .engine) n = getRgn u n := fun u x _ =>
      getRgn_setRgn_ne _ _ _ _ hn
    rw [putJournal, hne _ _ 0, hne _ _ 0, getRgn_setRgn_ne _ _ _ _ hn]

/-- The sub-tile seated, its journal entry and what stays of region `r`. -/
structure Seated (s t : State) (r a k : Nat) (v : SubTile) (d : Adm) : Prop where
  frame : Binding s t r
  mem : v ∈ (getArr t a).bound
  queue : (getRgn t r).queue = (getRgn s r).queue
  journal : (getRgn t r).journal = tset (getRgn s r).journal k (goodEntry (subJournal v d))

theorem seated_of_met {s u : State} (hmet : Met s u) (r a k : Nat) (v : SubTile) (d : Adm) (hfree : thas (getRgn s r).journal k = false) :
    Seated s (putJournal (joinArray u a v) r k (subJournal v d)) r a k v d := by
  obtain ⟨hmem, hkept⟩ := mem_joinArray u a v
  have hrgn (n : Nat) : getRgn (joinArray u a v) n = getRgn u n := rfl
  have hself := getRgn_putJournal (joinArray u a v) r k (subJournal v d) r
  rw [if_pos rfl, hrgn] at hself
  have hjournal : (getRgn (putJournal (joinArray u a v) r k (subJournal v d)) r).journal =
      tset (getRgn s r).journal k (goodEntry (subJournal v d)) := by
    rw [hself, hmet.rgn r]
  refine ⟨⟨?_, fun n hn => ?_, fun b w hw => ?_, fun n hn => ?_⟩, hmem, ?_, hjournal⟩
  · rw [putJournal_rest, joinArray, setArr, hmet.rest]
  · rw [getRgn_putJournal, if_neg hn, hrgn]
    exact hmet.rgn n
  · exact hkept b w (by rw [hmet.bound]; exact hw)
  · have hne : n ≠ k := by
      rintro rfl
      exact Bool.false_ne_true (hfree.symm.trans hn)
    rw [hjournal]
    exact ⟨by rw [thas_tset, hn, Bool.or_true], fun e => tget_tset_ne _ _ _ _ _ hne⟩
  · rw [hself, hmet.rgn r]

theorem seated_seatTo (s : State) (r a k : Nat) (t : SubTile) (d : Adm) (j : Job) (hfree : thas (getRgn s r).journal k = false) :
    Seated s (seatTo s r a k t d j) r a k (seatedSub s a k t j) d := by
  rw [seatTo_eq]
  exact seated_of_met (met_meetPreloads ..) r a k _ d hfree

/-! ### A binding takes a journal entry (R302) -/

theorem freeJournal_free {x : Region} {k : Nat} (h : freeJournal x = some k) : thas x.journal k = false := by
  simpa using List.find?_some h

theorem freeJournal_of_free {x : Region} {n : Nat} (hn : n < 1024) (h : thas x.journal n = false) : (freeJournal x).isSome = true := by
  refine List.find?_isSome.mpr ⟨n, List.mem_range.mpr hn, ?_⟩
  rw [h]
  rfl

/-- The state in which a binding seats a sub-tile: it has left the region's queue. -/
def unqueued (s : State) (r : Nat) (t : SubTile) : State := setRgn s r { getRgn s r with queue := (getRgn s r).queue.erase t }

theorem bindTo_of_free {s : State} {r k : Nat} (a : Nat) (t : SubTile) (d : Adm) (j : Job) (h : freeJournal (getRgn s r) = some k) :
    bindTo s r a t d j = seatTo (unqueued s r t) r a k { t with order := 0 } d j := by
  unfold bindTo unqueued
  rw [h]

/-- A sub-tile is bound: it stands on its array with a journal entry that was free, and has left the queue. -/
theorem bindTo_seats {s : State} {r k : Nat} (a : Nat) (t : SubTile) (d : Adm) (j : Job) (h : freeJournal (getRgn s r) = some k) :
    ∃ v, Binding s (bindTo s r a t d j) r ∧ v ∈ (getArr (bindTo s r a t d j) a).bound ∧ v.ctx = t.ctx ∧ v.ring = t.ring ∧ v.h = t.h ∧
      v.c = t.c ∧ v.g = t.g ∧ v.array = some a ∧ v.jent = some k ∧ (getRgn (bindTo s r a t d j) r).queue = (getRgn s r).queue.erase t ∧
      (getRgn (bindTo s r a t d j) r).journal = tset (getRgn s r).journal k (goodEntry (subJournal v d)) := by
  have hrgn : getRgn (unqueued s r t) r = { getRgn s r with queue := (getRgn s r).queue.erase t } := getRgn_setRgn ..
  have hseat := seated_seatTo (unqueued s r t) r a k { t with order := 0 } d j (by rw [hrgn]; exact freeJournal_free h)
  obtain ⟨hctx, hring, hh, hc, hg, harr, hjent⟩ := seatedSub_place (unqueued s r t) a k { t with order := 0 } j
  rw [bindTo_of_free a t d j h]
  refine ⟨_, (Binding.setRgn s r _ (by rfl)).trans hseat.frame, hseat.mem, hctx, hring, hh, hc, hg, harr, hjent, ?_, ?_⟩
  · rw [hseat.queue, hrgn]
  · rw [hseat.journal, hrgn]

/-- The other sub-tiles of a run bind behind the first one, or wait for a journal entry. -/
def mateStep (r a : Nat) (d : Adm) (j : Job) (u : State) (m : SubTile) : State :=
  if (freeJournal (getRgn u r)).isSome then
    bindTo (setCtx u m.ctx { getCtx u m.ctx with deficit := (getCtx u m.ctx).deficit - m.cost }) r a m d j
  else u

theorem bindMates_eq (s : State) (r a : Nat) (d : Adm) (j : Job) (l : List SubTile) : bindMates s r a d j l = l.foldl (mateStep r a d j) s := rfl

/-- While an entry is free a mate binds, on the same array. -/
theorem mateStep_seats {u : State} {r i : Nat} (a : Nat) (d : Adm) (j : Job) (m : SubTile) (h : freeJournal (getRgn u r) = some i) :
    (getRgn (mateStep r a d j u m) r).queue = (getRgn u r).queue.erase m ∧
      ∃ w ∈ (getArr (mateStep r a d j u m) a).bound, w.ctx = m.ctx ∧ w.ring = m.ring ∧ w.h = m.h ∧ w.array = some a := by
  have hsome : (freeJournal (getRgn u r)).isSome = true := by rw [h]; rfl
  rw [mateStep, if_pos hsome]
  obtain ⟨w, -, hmem, hctx, hring, hh, -, -, harr, -, hqueue, -⟩ :=
    bindTo_seats (s := setCtx u m.ctx { getCtx u m.ctx with deficit := (getCtx u m.ctx).deficit - m.cost }) a m d j h
  exact ⟨hqueue, w, hmem, hctx, hring, hh, harr⟩

theorem binding_mateStep (r a : Nat) (d : Adm) (j : Job) (u : State) (m : SubTile) : Binding u (mateStep r a d j u m) r := by
  unfold mateStep
  split
  · rename_i h
    obtain ⟨k, hk⟩ := Option.isSome_iff_exists.mp h
    obtain ⟨v, hframe, -⟩ := bindTo_seats (s := setCtx u m.ctx { getCtx u m.ctx with deficit := (getCtx u m.ctx).deficit - m.cost }) a m d j hk
    exact (Binding.setCtx u r m.ctx _).trans hframe
  · exact .refl u r

theorem binding_bindMates (s : State) (r a : Nat) (d : Adm) (j : Job) (l : List SubTile) : Binding s (bindMates s r a d j l) r := by
  rw [bindMates_eq]
  induction l generalizing s with
  | nil => exact .refl s r
  | cons m l ih =>
    rw [List.foldl_cons]
    exact (binding_mateStep r a d j s m).trans (ih _)

/-! ### Which sub-tile binds (R257, R258, R262) -/

/-- Only contexts' accounts of the round robin and whose turn it is changed. -/
def Charged (s t : State) : Prop := t = { s with ctxs := t.ctxs, dwrr := t.dwrr }

theorem Charged.trans {s t u : State} (h : Charged s t) (k : Charged t u) : Charged s u := by
  unfold Charged at h k ⊢
  rw [k, h]

theorem charged_dwrrPick (k : Nat) (members : List Nat) (l : List SubTile) (f : Nat) (s : State) : Charged s (dwrrPick k members l f s).2 := by
  induction f generalizing s with
  | zero => rfl
  | succ f ih =>
    have again {u : State} (h : Charged s u) : Charged s (dwrrPick k members l f u).2 := h.trans (ih u)
    have visit (x : Context) : Charged s (if (getCtx s (tget 0 s.dwrr k)).visited then s else setCtx s (tget 0 s.dwrr k) x) :=
      ite_cases (q := Charged s) (fun _ => rfl) (fun _ => rfl)
    unfold dwrrPick
    refine ite_cases (q := fun p : Option SubTile × State => Charged s p.2) (fun _ => again rfl) (fun _ => ?_)
    dsimp only
    split
    · refine ite_cases (q := fun p : Option SubTile × State => Charged s p.2) (fun _ => ?_) (fun _ => again ?_)
      · exact (visit _).trans rfl
      · exact (visit _).trans rfl
    · refine again (Charged.trans (t := ite _ _ _) ?_ rfl)
      exact ite_cases (q := Charged s) (fun _ => visit _) (fun _ => (visit _).trans rfl)

/-- The choice of the next sub-tile changes the round robin's accounts alone. -/
theorem charged_pickNext (s : State) (r : Nat) : Charged s (pickNext s r).2 := by
  unfold pickNext
  dsimp only
  split
  · rfl
  · split
    · rfl
    · exact charged_dwrrPick ..

theorem mem_of_minBy {f : Nat → Nat} {l : List Nat} {a : Nat} (h : minBy f l = some a) : a ∈ l := by
  induction l generalizing a with
  | nil => exact absurd h (by simp [minBy])
  | cons x l ih =>
    unfold minBy at h
    split at h
    · cases h
      exact List.mem_cons_self
    · rename_i y hy
      split at h <;> cases h
      · exact List.mem_cons_of_mem _ (ih hy)
      · exact List.mem_cons_self

theorem bindArrays_sub {s : State} {r : Nat} {t : SubTile} {a : Nat} (h : a ∈ bindArrays s r t) : a ∈ maskArrays s r t := by
  unfold bindArrays at h
  split at h
  · rename_i b hb
    obtain rfl := List.mem_singleton.mp h
    exact List.mem_of_find?_eq_some hb
  · dsimp only at h
    split at h
    · exact (List.mem_filter.mp h).1
    · split at h
      · exact (List.mem_filter.mp (List.mem_filter.mp h).1).1
      · exact (List.mem_filter.mp h).1

/-- A binding goes to a LIVE array of the region in the context's mask. -/
theorem bindArray_spec {s : State} {r : Nat} {t : SubTile} {a : Nat} (h : bindArray s r t = some a) :
    isLive s .array a = true ∧ inMask (ceAffinity (getCtx s t.ctx).ent) a = true ∧ a / 4 = r := by
  obtain ⟨hmem, hrgn⟩ := List.mem_filter.mp (bindArrays_sub (mem_of_minBy h))
  obtain ⟨-, hlive⟩ := List.mem_filter.mp hmem
  rw [Bool.and_eq_true] at hlive
  exact ⟨hlive.2, hlive.1, eq_of_beq hrgn⟩

/-- The state in which the picked sub-tile binds: its class's relief is used up. -/
def relieved (s : State) (r : Nat) (t : SubTile) : State := setRgn s r { getRgn s r with relief := (getRgn s r).relief.erase t.prio }

theorem bindOne_of_pick {s s1 : State} {r a : Nat} {u : SubTile} {d : Adm} {j : Job} (hpick : pickNext s r = (some u, s1))
    (harr : bindArray s r u = some a) (hjob : subJob s u r = some (d, j)) : bindOne s r =
      bindMates (bindTo (relieved s1 r u) r a u d j) r a d j (runMates (bindTo (relieved s1 r u) r a u d j) r u) := by
  simp only [bindOne, hpick, harr, hjob]
  rfl

/-- A sub-tile is no mate of its own. -/
theorem filter_mates_erase (u : SubTile) (l : List SubTile) :
    (l.erase u).filter (fun x => samePack u x && x.h != u.h) = l.filter (fun x => samePack u x && x.h != u.h) := by
  induction l with
  | nil => rfl
  | cons x l ih =>
    by_cases hx : x = u
    · subst x
      simp
    · rw [List.erase_cons_tail (by simpa using hx), List.filter_cons, List.filter_cons, ih]

end Sys2Proof.Machine

open Sys2Proof Sys2Proof.Machine

/-- Settles O33: `bindTo` seats the picked sub-tile with the lowest free journal entry, and what binds behind it keeps the entry and the
bound sub-tiles (`Binding`). -/
theorem bindingTakesJournalEntry : Obligations.BindingTakesJournalEntry := by
  intro s r u s1 a d j k hrun hlive hpick harr hjob hfree
  obtain ⟨halive, hmask, hrgn⟩ := bindArray_spec harr
  have hs1 : s1 = { s with ctxs := s1.ctxs, dwrr := s1.dwrr } := by
    have h := charged_pickNext s r.val
    rw [hpick] at h
    exact h
  have hpicked : Binding s s1 r.val := by
    rw [hs1]
    exact ⟨rfl, fun _ _ => rfl, fun _ _ h => h, fun _ h => ⟨h, fun _ => rfl⟩⟩
  have hsame : getRgn s1 r.val = getRgn s r.val := by
    rw [hs1]
    rfl
  have hrel : getRgn (relieved s1 r.val u) r.val = { getRgn s r.val with relief := (getRgn s r.val).relief.erase u.prio } := by
    rw [relieved, getRgn_setRgn, hsame]
  obtain ⟨v, hframe, hmem, hctx, hring, hh, hc, hg, hva, hjent, hqueue, hjournal⟩ :=
    bindTo_seats (s := relieved s1 r.val u) a u d j (by rw [hrel]; exact hfree)
  rw [hrel] at hqueue hjournal
  have hexec : exec (.bindSubtile r none) s = .next (bindOne s r.val) := by
    show Host.Outcome.next (if running s then if isLive s .region r.val then bindOne s r.val else s else s) = _
    rw [hrun, hlive]
    rfl
  have hmates : runMates (bindTo (relieved s1 r.val u) r.val a u d j) r.val u = runMates s r.val u := by
    rw [runMates, hqueue]
    exact filter_mates_erase ..
  rw [bindOne_of_pick hpick harr hjob, hmates] at hexec
  have hbehind := binding_bindMates (bindTo (relieved s1 r.val u) r.val a u d j) r.val a d j (runMates s r.val u)
  have hall : Binding s _ r.val := ((hpicked.trans (.setRgn s1 r.val _ (by rfl))).trans hframe).trans hbehind
  have hhas : thas (getRgn (bindTo (relieved s1 r.val u) r.val a u d j) r.val).journal k = true := by
    rw [hjournal, thas_tset, beq_self_eq_true, Bool.true_or]
  refine ⟨halive, hmask, hrgn, _, v, hexec, hbehind.bound a v hmem, hctx, hring, hh, hc, hg, hva, hjent, hall.bound a, fun hnone => ?_,
    fun m n hone hnk hn hnfree => ?_, freeJournal_free hfree, fun e => ?_, ?_, ?_, hall.others⟩
  · rw [hnone, bindMates_eq, List.foldl_nil]
    exact hqueue
  · have hnfree' : thas (getRgn (bindTo (relieved s1 r.val u) r.val a u d j) r.val).journal n = false := by
      rw [hjournal, thas_tset, hnfree, beq_false_of_ne (Ne.symm hnk)]
      rfl
    obtain ⟨i, hi⟩ := Option.isSome_iff_exists.mp (freeJournal_of_free hn hnfree')
    rw [hone, bindMates_eq, List.foldl_cons, List.foldl_nil, ← hqueue]
    exact mateStep_seats a d j m hi
  · rw [(hbehind.journal k hhas).2 e, hjournal, tget_tset_self]
    rfl
  · exact hall.mems
  · exact hall.units

end

section
/-!
PROOFS. Accumulation slots (R115, R116), starvation relief (R257) and the vote of region control (R28) settled.
-/

namespace Sys2Proof.Machine

/-! ### Sub-tiles the engine holds -/

theorem mem_allSubs_of_bound {s : State} {a : Nat} {x : ArrayS} {v : SubTile} (h : (a, x) ∈ s.arrs) (hv : v ∈ x.bound) : v ∈ allSubs s :=
  List.mem_append_left _ (List.mem_flatMap.mpr ⟨(a, x), h, hv⟩)

theorem mem_of_thas {α : Type} {d : α} {t : Tbl α} {k : Nat} (h : thas t k = true) : (k, tget d t k) ∈ t := by
  induction t with
  | nil => exact absurd h Bool.false_ne_true
  | cons e t ih =>
    obtain ⟨j, w⟩ := e
    unfold tget
    split
    · rw [‹j = k›]
      exact List.mem_cons_self
    · rename_i hj
      rw [thas, beq_false_of_ne hj, Bool.false_or] at h
      exact List.mem_cons_of_mem _ (ih h)

theorem mem_allSubs_of_sideQ {s : State} {r : Nat} {v : SubTile} (hr : thas s.rgns r = true) (hv : v ∈ (getRgn s r).sideQ) : v ∈ allSubs s :=
  List.mem_append_right _ (List.mem_flatMap.mpr ⟨(r, getRgn s r), mem_of_thas hr, List.mem_append_left _ (List.mem_append_right _ hv)⟩)

theorem thas_setRgn (s : State) (r : Nat) (x : Region) : thas (setRgn s r x).rgns r = true := by
  rw [setRgn, thas_tset, beq_self_eq_true, Bool.true_or]

/-! ### A slot is given (R115) -/

theorem freeSlotOf_spec {s : State} {r c n : Nat} (h : freeSlotOf s r c = some n) :
    n < ceAccSlots (getCtx s c).ent ∧ (c, n) ∉ (getRgn s r).slots := by
  refine ⟨List.mem_range.mp (List.mem_of_find?_eq_some h), fun hmem => ?_⟩
  have hfree := List.find?_some h
  rw [List.contains_iff_mem.mpr hmem] at hfree
  exact Bool.false_ne_true hfree

/-- A journal record written again changes the journal and asks for its banks, or nothing where the sub-tile has no entry. -/
theorem journalSub_rest (s : State) (r : Nat) (t : SubTile) : journalSub s r t = { s with rgns := (journalSub s r t).rgns } := by
  unfold journalSub
  split
  · rw [putJournal_rest]
  · rfl

theorem getRgn_journalSub (s : State) (r : Nat) (t : SubTile) : getRgn (journalSub s r t) r = { getRgn s r with
    journal := (getRgn (journalSub s r t) r).journal, bankReqs := (getRgn (journalSub s r t) r).bankReqs } := by
  unfold journalSub
  split
  · rw [getRgn_putJournal, if_pos rfl]
  · rfl

theorem thas_journalSub {s : State} {r : Nat} (t : SubTile) (h : thas s.rgns r = true) : thas (journalSub s r t).rgns r = true := by
  unfold journalSub
  split
  · exact thas_setRgn ..
  · exact h

/-- A sub-tile with a slot. -/
def slotted (t : SubTile) (ref : SlotRef) : SubTile := { t with slot := some ref }

/-- A region with one more slot taken. -/
def slotTaken (s : State) (r c n : Nat) : State := setRgn s r { getRgn s r with slots := (getRgn s r).slots ++ [(c, n)] }

/-- The state behind the slot that a sub-tile takes. -/
def slotGiven (s : State) (r : Nat) (t : SubTile) (n : Nat) : State :=
  let u := slotted t { backed := false, num := n, region := r }
  journalSub (mapSub (slotTaken s r t.ctx n) r t (fun _ => u)) r u

theorem giveSlot_of_free {s : State} {r n : Nat} {t : SubTile} (h : freeSlotOf s r t.ctx = some n) :
    giveSlot s r t = some (slotGiven s r t n) := by
  unfold giveSlot slotGiven
  rw [h]
  rfl

/-- The first sub-tile of the queue takes its free slot. -/
theorem assignFirst_of_free {s : State} {r n : Nat} {u : SubTile} {rest : List SubTile} (h : freeSlotOf s r u.ctx = some n) :
    assignFirst s r [] (u :: rest) = slotGiven s r u n := by
  simp only [assignFirst, giveSlot_of_free h]
  rfl

theorem mapSub_rest (s : State) (r : Nat) (t : SubTile) (f : SubTile → SubTile) :
    mapSub s r t f = { s with rgns := (mapSub s r t f).rgns, arrs := (mapSub s r t f).arrs } := by
  unfold mapSub
  dsimp only
  split
  · rfl
  · rfl

theorem getRgn_mapSub (s : State) (r : Nat) (t : SubTile) (f : SubTile → SubTile) :
    getRgn (mapSub s r t f) r = { getRgn s r with sideQ := (getRgn (mapSub s r t f) r).sideQ } := by
  unfold mapSub
  dsimp only
  split
  · rfl
  · rw [getRgn_setRgn]

theorem slotGiven_rest (s : State) (r : Nat) (t : SubTile) (n : Nat) :
    slotGiven s r t n = { s with rgns := (slotGiven s r t n).rgns, arrs := (slotGiven s r t n).arrs } := by
  unfold slotGiven
  dsimp only
  rw [journalSub_rest, mapSub_rest]
  rfl

theorem getRgn_slotGiven (s : State) (r : Nat) (t : SubTile) (n : Nat) :
    (getRgn (slotGiven s r t n) r).slots = (getRgn s r).slots ++ [(t.ctx, n)] ∧ (getRgn (slotGiven s r t n) r).queue = (getRgn s r).queue := by
  unfold slotGiven
  dsimp only
  rw [getRgn_journalSub, getRgn_mapSub, slotTaken, getRgn_setRgn]
  exact ⟨rfl, rfl⟩

theorem mem_map_slotted {l : List SubTile} {t : SubTile} (v : SubTile) (h : t ∈ l) : v ∈ l.map (fun u => if u == t then v else u) :=
  List.mem_map.mpr ⟨t, h, if_pos (beq_self_eq_true t)⟩

/-- A bound or routed sub-tile holds the slot behind its assignment. -/
theorem mem_allSubs_slotGiven {s : State} {r n : Nat} {t : SubTile}
    (h : (∃ a, t.array = some a ∧ t ∈ (getArr s a).bound) ∨ (t.array = none ∧ t ∈ (getRgn s r).sideQ)) :
    slotted t { backed := false, num := n, region := r } ∈ allSubs (slotGiven s r t n) := by
  unfold slotGiven
  dsimp only
  generalize slotted t { backed := false, num := n, region := r } = v
  rcases h with ⟨a, ha, hmem⟩ | ⟨ha, hmem⟩
  · rw [journalSub_rest, mapSub, ha]
    exact mem_allSubs_of_bound (mem_tset_self _ a _) (mem_map_slotted v hmem)
  · rw [mapSub, ha]
    refine mem_allSubs_of_sideQ (thas_journalSub _ (thas_setRgn ..)) ?_
    rw [getRgn_journalSub, getRgn_setRgn, slotTaken, getRgn_setRgn]
    exact mem_map_slotted v hmem

/-! ### The vote of region control (R28) -/

/-- A disagreement counted for a copy. -/
def disagreed (s : State) (r i : Nat) (times : List Nat) : State :=
  setRgn s r { getRgn s r with ctlTimes := tset (getRgn s r).ctlTimes i times }

theorem startQueued_of_none {s : State} {r : Nat} (h : (getRgn s r).queued = []) : startQueued s r = s := by
  simp only [startQueued, h, pickQueued]

theorem regionVote_outvoted {s : State} {r : Nat} {i : Fin 3} (hserves : regionServes s r = true) (hcopies : (getRgn s r).ctlCopies = 3)
    (hfew : reached 3 (addEvent (tget [] (getRgn s r).ctlTimes i.val) s.time.t) = false) :
    regionVote s r (some i) = logFault (disagreed s r i.val (addEvent (tget [] (getRgn s r).ctlTimes i.val) s.time.t))
      (flogBase s 1 8 0x0D i.val r) := by
  refine (if_neg (by rw [hserves]; exact Bool.false_ne_true)).trans ((if_pos (beq_iff_eq.mpr hcopies)).trans (if_neg ?_))
  show ¬reached 3 (addEvent (tget [] (getRgn s r).ctlTimes i.val) s.time.t) = true
  rw [hfew]
  exact Bool.false_ne_true

/-- A copy retires at its third disagreement. -/
def retiredCopy (s : State) (r : Nat) : State := setRgn s r { getRgn s r with ctlCopies := 2, ctlTimes := [] }

theorem regionVote_retired {s : State} {r : Nat} {i : Fin 3} (hserves : regionServes s r = true) (hcopies : (getRgn s r).ctlCopies = 3)
    (hmany : reached 3 (addEvent (tget [] (getRgn s r).ctlTimes i.val) s.time.t) = true) :
    ∃ u e, u.units = s.units ∧ getRgn u r = { getRgn s r with ctlTimes := (getRgn u r).ctlTimes } ∧ e.cls = 3 ∧ e.source = 0x0E ∧
      e.detail = 0 ∧ regionVote s r (some i) = logFault (retiredCopy u r) e := by
  refine ⟨logFault (disagreed s r i.val (addEvent (tget [] (getRgn s r).ctlTimes i.val) s.time.t)) (flogBase s 1 8 0x0D i.val r),
    flogBase (logFault (disagreed s r i.val (addEvent (tget [] (getRgn s r).ctlTimes i.val) s.time.t)) (flogBase s 1 8 0x0D i.val r))
      clsArray 8 0x0E i.val r, ?_, ?_, rfl, rfl, rfl, ?_⟩
  · exact logFault_units ..
  · rw [getRgn_logFault, disagreed, getRgn_setRgn]
  · exact (if_neg (by rw [hserves]; exact Bool.false_ne_true)).trans ((if_pos (beq_iff_eq.mpr hcopies)).trans (if_pos hmany))

theorem regionVote_fences {s : State} {r : Nat} {i : Fin 3} (hserves : regionServes s r = true) (hcopies : (getRgn s r).ctlCopies ≠ 3) :
    regionVote s r (some i) = fenceUnit s .region r := by
  exact (if_neg (by rw [hserves]; exact Bool.false_ne_true)).trans (if_neg (fun h => hcopies (beq_iff_eq.mp h)))

theorem fenceUnit_region (s : State) (r : Nat) :
    fenceUnit s .region r = logFault (takeOut s .region r .fenced) (unitEntry s clsRegion 0x20 .region r) :=
  portsLeft_of_left (.inl (by decide))

/-- A fenced region has no activity that waits (R379). -/
theorem queued_fenceUnit (s : State) (r : Nat) : (getRgn (fenceUnit s .region r) r).queued = [] := by
  rw [fenceUnit_region, getRgn_logFault]
  show (getRgn (putRegion (emptyRegion s r true) r .fenced) r).queued = []
  rw [getRgn_putRegion]
  exact (copiesOf_emptyRegion s r true).2 rfl

theorem logAt_fenceUnit_region (s : State) (r : Nat) : LogAt (fenceUnit s .region r) s.flog.next.toNat 4 0x20 0 := by
  rw [fenceUnit_region, ← takeOut_flog s .region r .fenced]
  exact logAt_logFault (.inl (show (4 : BitVec 3) ≠ 1 by decide)) rfl

/-! ### Starvation relief (R257) -/

/-- A class is relieved: it binds next, and its wait starts again. -/
def reliefGiven (s : State) (r : Nat) (u : SubTile) : State := setRgn s r { getRgn s r with
  relief := (getRgn s r).relief ++ [u.prio], starveFrom := tset (getRgn s r).starveFrom u.prio s.time.t }

theorem relieve_of_low {s : State} {r : Nat} {u : SubTile} (hon : s.regs.starveUs ≠ 0) (hlow : oldestLow s r = some u) :
    relieve s r = if waitFrom (getRgn s r) u + 1000 * s.regs.starveUs.toNat ≤ s.time.t then reliefGiven s r u else s := by
  simp only [relieve, beq_false_of_ne hon, hlow, decide_eq_true_eq]
  rfl

theorem relieve_off {s : State} {r : Nat} (hoff : s.regs.starveUs = 0) : relieve s r = setRgn s r { getRgn s r with relief := [] } := by
  simp only [relieve, hoff, beq_self_eq_true, if_true]

end Sys2Proof.Machine

open Sys2Proof Sys2Proof.Machine

/-- Settles O34: the first sub-tile of `slotQueue` takes its context's lowest free slot; relief and the vote by their cases. -/
theorem slotsAndRelief : Obligations.SlotsAndRelief := by
  intro s r u rest n hrun
  have hassign (hlive : isLive s .region r.val = true) : exec (.slotAssign r none) s = .next (assignFirst s r.val [] (slotQueue s r.val)) := by
    have hserves : regionServes s r.val = true := Bool.or_eq_true_iff.mpr (.inl hlive)
    show Host.Outcome.next (if running s then if regionServes s r.val then assignFirst s r.val [] (slotQueue s r.val) else s else s) = _
    rw [hrun, hserves]
    rfl
  have hrelief : exec (.starvationRelief r none) s = .next (relieve s r.val) := by
    show Host.Outcome.next (if running s then relieve s r.val else s) = _
    rw [hrun]
    rfl
  refine ⟨fun hlive hqueue hfree => ?_, fun hlive hqueue => ?_, fun hon hlow => ⟨fun hdue => ?_, fun hearly => ?_⟩, fun hoff => ?_,
    fun i hserves hqueued => ?_⟩
  · obtain ⟨hlt, hnew⟩ := freeSlotOf_spec hfree
    obtain ⟨hslots, hq⟩ := getRgn_slotGiven s r.val u n
    have hrest := slotGiven_rest s r.val u n
    refine ⟨hlt, hnew, slotGiven s r.val u n, ?_, hslots, ?_, ?_, hq, fun h => ⟨_, mem_allSubs_slotGiven h, rfl⟩⟩
    · rw [hassign hlive, hqueue, assignFirst_of_free hfree]
    · rw [hrest]
    · rw [hrest]
  · rw [hassign hlive, hqueue]
    rfl
  · rw [hrelief, relieve_of_low hon hlow, if_pos hdue]
    rfl
  · rw [hrelief, relieve_of_low hon hlow, if_neg (Nat.not_le.mpr hearly)]
  · rw [hrelief, relieve_off hoff]
  · have hexec : exec (.maintQueuedStart r (some i)) s = .next (startQueued (regionVote s r.val (some i)) r.val) := rfl
    refine ⟨fun hcopies hfew => ?_, fun hcopies hmany => ?_, fun hcopies => ?_⟩
    · rw [hexec, regionVote_outvoted hserves hcopies hfew, startQueued_of_none]
      · rfl
      · rw [getRgn_logFault, disagreed, getRgn_setRgn]
        exact hqueued
    · obtain ⟨v, e, hunits, hrgn, hcls, hsource, hdetail, hvote⟩ := regionVote_retired hserves hcopies hmany
      have hself : getRgn (logFault (retiredCopy v r.val) e) r.val = { getRgn v r.val with ctlCopies := 2, ctlTimes := [] } := by
        rw [getRgn_logFault, retiredCopy, getRgn_setRgn]
      refine ⟨logFault (retiredCopy v r.val) e, v.flog.next.toNat, ?_, by rw [hself], ?_, ?_⟩
      · rw [hexec, hvote, startQueued_of_none]
        rw [hself, hrgn]
        exact hqueued
      · rw [unitSt_logFault, unitSt, unitSt, ← hunits]
        rfl
      · have hlog := logAt_logFault (s := retiredCopy v r.val) (e := e) (d := 0) (.inl (by rw [hcls]; decide)) hdetail
        rw [hcls, hsource] at hlog
        exact hlog
    · refine ⟨fenceUnit s .region r.val, ?_, unitSt_fenceUnit_self .., logAt_fenceUnit_region ..⟩
      rw [hexec, regionVote_fences hserves hcopies, startQueued_of_none (queued_fenceUnit ..)]

end

section
/-!
PROOFS. Sub-tiles that end without completing; context abort (R375) settled.
-/

namespace Sys2Proof.Machine

/-! ### What sub-tiles that end leave behind -/

theorem getCtx_freeSlot_ne {s : State} {c e : Nat} (sl : Option SlotRef) (h : e ≠ c) : getCtx (freeSlot s c sl) e = getCtx s e := by
  cases sl with
  | none => rfl
  | some r => exact ite_cases (q := fun u : State => getCtx u e = getCtx s e) (fun _ => getCtx_setCtx_ne _ _ _ _ h) (fun _ => rfl)

theorem freeSlot_arrs (s : State) (c : Nat) (sl : Option SlotRef) : (freeSlot s c sl).arrs = s.arrs := by
  cases sl with
  | none => rfl
  | some r => exact ite_cases (q := fun u : State => u.arrs = s.arrs) (fun _ => rfl) (fun _ => rfl)

theorem getRgn_freeSlot_queue (s : State) (c : Nat) (sl : Option SlotRef) (n : Nat) :
    (getRgn (freeSlot s c sl) n).queue = (getRgn s n).queue := by
  cases sl with
  | none => rfl
  | some r =>
    refine ite_cases (q := fun u : State => (getRgn u n).queue = (getRgn s n).queue) (fun _ => rfl) (fun _ => ?_)
    rw [getRgn_setRgn_if]
    split
    · rw [‹n = r.region›]
    · rfl

/-- A property of the state that freeing slots keeps holds behind freeing those of the sub-tiles that `f` names. -/
theorem foldl_freeSlot {q : State → Prop} (f : SubTile → Bool) (l : List SubTile) {s : State}
    (hq : ∀ u x, f x = true → q u → q (freeSlot u x.ctx x.slot)) (h : q s) :
    q (l.foldl (fun t u => if f u then freeSlot t u.ctx u.slot else t) s) := by
  induction l generalizing s with
  | nil => exact h
  | cons x l ih =>
    rw [List.foldl_cons]
    exact ih (ite_cases (q := q) (fun hf => hq s x hf h) (fun _ => h))

theorem dropFollowed_kept (gone : List SubTile) (x : ArrayS) : (dropFollowed gone x).bound = x.bound ∧ (dropFollowed gone x).spec = x.spec ∧
    (dropFollowed gone x).delay = x.delay := by
  unfold dropFollowed
  dsimp only
  split
  · exact ⟨rfl, rfl, rfl⟩
  · exact ⟨rfl, rfl, rfl⟩

theorem withBound_kept (x : ArrayS) (l : List SubTile) : (withBound x l).spec = x.spec ∧ (withBound x l).delay = x.delay := by
  unfold withBound
  dsimp only
  split
  · exact ⟨rfl, rfl⟩
  · exact ⟨rfl, rfl⟩

theorem dropBound_kept (f : SubTile → Bool) (x : ArrayS) : (dropBound f x).spec = x.spec ∧ (dropBound f x).delay = x.delay :=
  withBound_kept x (x.bound.filter (fun t => !f t))

/-- A property of arrays that losing sub-tiles keeps holds of every array behind `leaveArray`. -/
theorem getArr_leaveArray {q : Nat → ArrayS → Prop} {s : State} {f : SubTile → Bool} (h : ∀ n, q n (getArr s n))
    (hdrop : ∀ n x, q n x → q n (dropBound f x)) (hfollow : ∀ n g x, q n x → q n (dropFollowed g x)) (a n : Nat) :
    q n (getArr (leaveArray s a f) n) := by
  have h1 (m : Nat) : q m (getArr (setArr s a (dropBound f (getArr s a))) m) := by
    rw [getArr_setArr_if]
    split
    · rw [‹m = a›]
      exact hdrop a _ (h a)
    · exact h m
  refine ite_cases (q := fun u : State => q n (getArr u n)) (fun _ => h1 n) (fun _ => ?_)
  rw [getArr_setArr_if]
  split
  · rw [‹n = a + 1›]
    exact hfollow _ _ _ (h1 _)
  · exact h1 n

theorem bound_leaveArray (s : State) (a : Nat) (f : SubTile → Bool) (n : Nat) :
    (getArr (leaveArray s a f) n).bound = if n = a then (getArr s n).bound.filter (fun t => !f t) else (getArr s n).bound := by
  have h1 (m : Nat) : (getArr (setArr s a (dropBound f (getArr s a))) m).bound =
      if m = a then (getArr s m).bound.filter (fun t => !f t) else (getArr s m).bound := by
    rw [getArr_setArr_if]
    split
    · rw [bound_dropBound, ‹m = a›]
    · rfl
  refine ite_cases (q := fun u : State => (getArr u n).bound = _) (fun _ => h1 n) (fun _ => ?_)
  rw [← h1 n, getArr_setArr_if]
  split
  · rw [(dropFollowed_kept _ _).1, ‹n = a + 1›]
  · rfl

theorem bound_foldl_leaveArray (f : SubTile → Bool) (l : List (Nat × ArrayS)) (s : State) (n : Nat) :
    (getArr (l.foldl (fun t e => leaveArray t e.1 f) s) n).bound =
      if thas l n then (getArr s n).bound.filter (fun t => !f t) else (getArr s n).bound := by
  induction l generalizing s with
  | nil => rfl
  | cons e l ih =>
    rw [List.foldl_cons, ih, bound_leaveArray]
    obtain ⟨k, x⟩ := e
    by_cases hk : n = k
    · subst n
      rw [if_pos rfl, thas, beq_self_eq_true, Bool.true_or, if_pos rfl, List.filter_filter]
      simp only [Bool.and_self, ite_self]
    · rw [if_neg hk, thas, beq_false_of_ne (Ne.symm hk), Bool.false_or]

/-- An array that no entry lists holds nothing. -/
theorem tget_of_not_thas {α : Type} {d : α} {t : Tbl α} {k : Nat} (h : thas t k = false) : tget d t k = d := by
  induction t with
  | nil => rfl
  | cons e t ih =>
    obtain ⟨j, w⟩ := e
    rw [thas, Bool.or_eq_false_iff] at h
    rw [tget, if_neg (fun hj => by simp [hj] at h), ih h.2]

/-- The state in which sub-tiles leave the arrays: their slots and journal entries are free. -/
def slotsFreed (s : State) (f : SubTile → Bool) : State :=
  (allSubs s).foldl (fun t u => if f u then freeSlot t u.ctx u.slot else t) (freeEntries s f)

/-- The sub-tiles have left the arrays too. -/
def arraysLeft (s : State) (f : SubTile → Bool) : State :=
  (slotsFreed s f).arrs.foldl (fun t e => leaveArray t e.1 f) (slotsFreed s f)

theorem dropSubs_eq (s : State) (f : SubTile → Bool) :
    dropSubs s f = { arraysLeft s f with rgns := tmap (fun _ x => dropQueued f x) (arraysLeft s f).rgns } := rfl

theorem slotsFreed_arrs (s : State) (f : SubTile → Bool) : (slotsFreed s f).arrs = s.arrs :=
  foldl_freeSlot (q := fun u => u.arrs = s.arrs) f (allSubs s) (fun u x _ hu => (freeSlot_arrs u x.ctx x.slot).trans hu) rfl

/-- The sub-tiles that `f` names have left every array. -/
theorem bound_dropSubs (s : State) (f : SubTile → Bool) (n : Nat) :
    (getArr (dropSubs s f) n).bound = (getArr s n).bound.filter (fun t => !f t) := by
  have hsame : getArr (slotsFreed s f) n = getArr s n := by rw [getArr, slotsFreed_arrs, getArr]
  show (getArr (arraysLeft s f) n).bound = _
  rw [arraysLeft, bound_foldl_leaveArray, hsame]
  split
  · rfl
  · rename_i hn
    have hnone : getArr s n = ArrayS.init := tget_of_not_thas (by rw [← slotsFreed_arrs s f]; exact Bool.not_eq_true _ ▸ hn)
    rw [hnone]
    rfl

theorem spec_dropSubs (s : State) (f : SubTile → Bool) (n : Nat) : (getArr (dropSubs s f) n).spec = (getArr s n).spec := by
  have hsame (m : Nat) : (getArr (slotsFreed s f) m).spec = (getArr s m).spec := by rw [getArr, slotsFreed_arrs, getArr]
  have hfold (l : List (Nat × ArrayS)) (t : State) (ht : ∀ m, (getArr t m).spec = (getArr s m).spec) (m : Nat) :
      (getArr (l.foldl (fun t e => leaveArray t e.1 f) t) m).spec = (getArr s m).spec := by
    induction l generalizing t with
    | nil => exact ht m
    | cons e l ih =>
      refine ih _ fun k => ?_
      exact getArr_leaveArray (q := fun k x => x.spec = (getArr s k).spec) ht (fun _ x hx => (dropBound_kept f x).1.trans hx)
        (fun _ g x hx => (dropFollowed_kept g x).2.1.trans hx) e.1 k
  exact hfold _ _ hsame n

theorem arraysLeft_kept (s : State) (f : SubTile → Bool) :
    (arraysLeft s f).rgns = (slotsFreed s f).rgns ∧ (arraysLeft s f).ctxs = (slotsFreed s f).ctxs := by
  suffices h : ∀ (l : List (Nat × ArrayS)) (t : State), (l.foldl (fun t e => leaveArray t e.1 f) t).rgns = t.rgns ∧
      (l.foldl (fun t e => leaveArray t e.1 f) t).ctxs = t.ctxs from h _ _
  intro l
  induction l with
  | nil => exact fun _ => ⟨rfl, rfl⟩
  | cons e l ih =>
    intro t
    obtain ⟨hrgns, hctxs⟩ := ih (leaveArray t e.1 f)
    exact ⟨hrgns.trans (leaveArray_rgns ..), hctxs.trans (leaveArray_ctxs ..)⟩

/-- The sub-tiles that `f` names have left every queue. -/
theorem queue_dropSubs (s : State) (f : SubTile → Bool) (r : Nat) :
    (getRgn (dropSubs s f) r).queue = (getRgn s r).queue.filter (fun t => !f t) := by
  have hget : getRgn (dropSubs s f) r = dropQueued f (getRgn (arraysLeft s f) r) :=
    tget_tmap Region.init (fun _ x => dropQueued f x) (arraysLeft s f).rgns r rfl
  have hentries : (getRgn (freeEntries s f) r).queue = (getRgn s r).queue :=
    tget_tmap_proj Region.init (fun r x => { x with journal := ((regionSubs s r).filter f).foldl dropEntry x.journal }) (·.queue)
      (fun _ _ => rfl) s.rgns r
  have hslots : (getRgn (slotsFreed s f) r).queue = (getRgn s r).queue :=
    foldl_freeSlot (q := fun u => (getRgn u r).queue = (getRgn s r).queue) f (allSubs s)
      (fun u x _ hu => (getRgn_freeSlot_queue u x.ctx x.slot r).trans hu) hentries
  rw [hget]
  show (getRgn (arraysLeft s f) r).queue.filter _ = _
  rw [getRgn, (arraysLeft_kept s f).1, ← getRgn, hslots]

/-- No other context than those of the sub-tiles that end is touched. -/
theorem getCtx_dropSubs_ne {s : State} {f : SubTile → Bool} {c e : Nat} (hf : ∀ u, f u = true → u.ctx = c) (h : e ≠ c) :
    getCtx (dropSubs s f) e = getCtx s e := by
  have hslots : getCtx (slotsFreed s f) e = getCtx s e :=
    foldl_freeSlot (q := fun u => getCtx u e = getCtx s e) f (allSubs s)
      (fun u x hx hu => (getCtx_freeSlot_ne x.slot (by rw [hf x hx]; exact h)).trans hu) rfl
  show getCtx (arraysLeft s f) e = _
  rw [getCtx, (arraysLeft_kept s f).2]
  exact hslots

/-! ### The call of an abort (R375 steps 1 and 2) -/

/-- A sub-tile that an abort of the context ends at once. -/
def idleOf (s : State) (c : Nat) (t : SubTile) : Bool := t.ctx == c && !midPass s t

theorem abortIdle_eq (s : State) (c : Nat) : abortIdle s c = dropSubs (keepFlags s c (idleOf s c)) (idleOf s c) := rfl

theorem idleOf_false_iff {s : State} {c : Nat} {u : SubTile} : idleOf s c u = false ↔ (u.ctx ≠ c ∨ midPass s u = true) := by
  rw [idleOf, Bool.and_eq_false_iff, beq_eq_false_iff_ne, Bool.not_eq_false']

theorem midPass_congr {s t : State} (hbound : ∀ a, (getArr t a).bound = (getArr s a).bound) (hlanes : ∀ a, (getArr t a).lanes = (getArr s a).lanes)
    (u : SubTile) : midPass t u = midPass s u := by
  have hlane (a b : Nat) : getLane (getArr t a) b = getLane (getArr s a) b := by rw [getLane, hlanes, getLane]
  unfold midPass followed
  simp only [hbound, hlane]

/-- The abort's own changes of the context's record. -/
def abortedCtx (x : Context) : Context :=
  { x with aborting := true, fetched := [], slotXlate := [], activating := false, dbRead := false, dbAgain := false, cqRead := false }

theorem abortArray_spec (s : State) (c a : Nat) : abortArray s c a = { s with tlm := (abortArray s c a).tlm, arrs := (abortArray s c a).arrs } ∧
    (∀ n, (getArr (abortArray s c a) n).bound = (getArr s n).bound ∧ (getArr (abortArray s c a) n).lanes = (getArr s n).lanes) ∧
    (∀ n, (getArr (abortArray s c a) n).spec = if n = a ∧ (getArr s a).spec.any (fun b => b.sub.ctx == c) = true then none else (getArr s n).spec) := by
  have hget (n : Nat) : getArr (abortArray s c a) n = if n = a then { getArr s a with
      spec := if (getArr s a).spec.any (fun b => b.sub.ctx == c) then none else (getArr s a).spec
      loads := (getArr s a).loads.filter (fun l => l.key.ctx != c) } else getArr s n := by
    unfold abortArray
    dsimp only
    rw [getArr_setArr_if]
    refine if_congr Iff.rfl rfl ?_
    refine ite_cases (q := fun u : State => getArr u n = getArr s n) (fun _ => ?_) (fun _ => ?_)
    · exact ite_cases (q := fun u : State => getArr (addCnt u 3 1) n = getArr s n) (fun _ => rfl) (fun _ => rfl)
    · exact ite_cases (q := fun u : State => getArr u n = getArr s n) (fun _ => rfl) (fun _ => rfl)
  refine ⟨?_, fun n => ?_, fun n => ?_⟩
  · unfold abortArray
    dsimp only
    split
    · split
      · rfl
      · rfl
    · split
      · rfl
      · rfl
  · rw [hget]
    split
    · rw [‹n = a›]
      exact ⟨rfl, rfl⟩
    · exact ⟨rfl, rfl⟩
  · rw [hget]
    by_cases hn : n = a
    · subst n
      rw [if_pos rfl]
      refine if_congr ?_ rfl rfl
      exact (and_iff_right rfl).symm
    · rw [if_neg hn, if_neg (fun h => hn h.1)]

/-- The speculation of the context on the arrays of a list is squashed; nothing but speculation and loads differs. -/
structure SpecAborted (s t : State) (c : Nat) (l : List Nat) : Prop where
  rest : t = { s with tlm := t.tlm, arrs := t.arrs }
  bound : ∀ n, (getArr t n).bound = (getArr s n).bound
  lanes : ∀ n, (getArr t n).lanes = (getArr s n).lanes
  spec : ∀ n ∈ l, ∀ b, (getArr t n).spec = some b → b.sub.ctx ≠ c
  less : ∀ n b, (getArr t n).spec = some b → (getArr s n).spec = some b

namespace SpecAborted
variable {s t : State} {c : Nat} {l : List Nat}

theorem ctxs (h : SpecAborted s t c l) : t.ctxs = s.ctxs := by rw [h.rest]
theorem rgns (h : SpecAborted s t c l) : t.rgns = s.rgns := by rw [h.rest]
theorem units (h : SpecAborted s t c l) : t.units = s.units := by rw [h.rest]
theorem mnt (h : SpecAborted s t c l) : t.mnt = s.mnt := by rw [h.rest]

end SpecAborted

theorem specAborted_foldl (c : Nat) (l : List Nat) (s : State) : SpecAborted s (l.foldl (fun t a => abortArray t c a) s) c l := by
  induction l generalizing s with
  | nil => exact ⟨rfl, fun _ => rfl, fun _ => rfl, fun n h => absurd h List.not_mem_nil, fun _ _ h => h⟩
  | cons a l ih =>
    obtain ⟨hrest, hkept, hspec⟩ := abortArray_spec s c a
    have h := ih (abortArray s c a)
    rw [List.foldl_cons]
    refine ⟨by rw [h.rest, hrest], fun n => (h.bound n).trans (hkept n).1, fun n => (h.lanes n).trans (hkept n).2, fun n hn b hb => ?_,
      fun n b hb => ?_⟩
    · rcases List.mem_cons.mp hn with rfl | hn
      · have hb1 := h.less n b hb
        rw [hspec] at hb1
        split at hb1
        · exact nomatch hb1
        · rename_i hno
          intro hctx
          exact hno ⟨rfl, by rw [hb1]; exact beq_iff_eq.mpr hctx⟩
      · exact h.spec n hn b hb
    · have hb1 := h.less n b hb
      rw [hspec] at hb1
      split at hb1
      · exact nomatch hb1
      · exact hb1

/-- The machine as the context's sub-tiles end. -/
def abortReady (s : State) (c : Nat) : State :=
  (List.range 16).foldl (fun t a => abortArray t c a) (setCtx s c (abortedCtx (getCtx s c)))

theorem abortReady_spec (s : State) (c : Nat) : SpecAborted (setCtx s c (abortedCtx (getCtx s c))) (abortReady s c) c (List.range 16) :=
  specAborted_foldl ..

theorem keepFlags_rest (s : State) (c : Nat) (f : SubTile → Bool) : keepFlags s c f = { s with ctxs := (keepFlags s c f).ctxs } := rfl

theorem getCtx_keepFlags_ne {s : State} {c e : Nat} (f : SubTile → Bool) (h : e ≠ c) : getCtx (keepFlags s c f) e = getCtx s e :=
  getCtx_setCtx_ne _ _ _ _ h

theorem getCtx_keepFlags (s : State) (c : Nat) (f : SubTile → Bool) :
    getCtx (keepFlags s c f) c = { getCtx s c with admitted := (getCtx (keepFlags s c f) c).admitted } := by
  have h : getCtx (keepFlags s c f) c = _ := getCtx_setCtx s c _
  rw [h]

theorem rings_keepFlags (s : State) (c : Nat) (f : SubTile → Bool) :
    (getCtx (keepFlags s c f) c).admitted.map (·.ring) = (getCtx s c).admitted.map (·.ring) := by
  have h : getCtx (keepFlags s c f) c = _ := getCtx_setCtx s c _
  rw [h]
  exact List.map_map

/-- Behind `abortIdle`: of the context only its descriptors' flags and its backing slots differ. -/
theorem getCtx_abortIdle (s : State) (c : Nat) : getCtx (abortIdle s c) c = { getCtx s c with
      admitted := (getCtx (abortIdle s c) c).admitted, backing := (getCtx (abortIdle s c) c).backing } ∧
    (getCtx (abortIdle s c) c).admitted.map (·.ring) = (getCtx s c).admitted.map (·.ring) ∧
    (∀ e, e ≠ c → getCtx (abortIdle s c) e = getCtx s e) := by
  have hdrop := (Dropped.dropSubs (keepFlags s c (idleOf s c)) (idleOf s c)).ctx c
  rw [abortIdle_eq]
  refine ⟨?_, ?_, fun e he => ?_⟩
  · rw [hdrop, getCtx_keepFlags]
  · rw [hdrop]
    exact rings_keepFlags ..
  · have hctx (u : SubTile) (hu : idleOf s c u = true) : u.ctx = c := eq_of_beq (Bool.and_eq_true_iff.mp hu).1
    rw [getCtx_dropSubs_ne hctx he, getCtx_keepFlags_ne _ he]

theorem abortIdle_rest (s : State) (c : Nat) : abortIdle s c = { s with
    ctxs := (abortIdle s c).ctxs, rgns := (abortIdle s c).rgns, arrs := (abortIdle s c).arrs } := by
  rw [abortIdle_eq, (Dropped.dropSubs _ _).rest, keepFlags_rest]

/-- The machine behind the call of an abort, before one that has nothing left to do is over. -/
def abortCalled (s : State) (c : Nat) : State := abortIdle (abortReady s c) c

/-- What a call of an abort does, whether it is over at once or not. -/
structure AbortCalled (s t : State) (c : Nat) : Prop where
  others : ∀ e, e ≠ c → getCtx t e = getCtx s e
  units : t.units = s.units
  mnt : t.mnt = s.mnt
  ends : ((getCtx t c).aborting = true) ∨ ((getCtx t c).aborting = false ∧ (getCtx t c).st = 2 ∧ (getCtx t c).admitted = [])
  fetched : (getCtx t c).fetched = []
  written : (getCtx t c).cqWritten = (getCtx s c).cqWritten
  rings : (getCtx t c).admitted.map (·.ring) = (getCtx s c).admitted.map (·.ring)
  bound : ∀ n, (getArr t n).bound = (getArr s n).bound.filter (fun u => !idleOf s c u)
  queue : ∀ r, (getRgn t r).queue = (getRgn s r).queue.filter (fun u => !idleOf s c u)
  spec : ∀ n, n < 16 → ∀ b, (getArr t n).spec = some b → b.sub.ctx ≠ c

theorem abortCalled_of {s t : State} {c : Nat} (hready : SpecAborted (setCtx s c (abortedCtx (getCtx s c))) t c (List.range 16)) :
    AbortCalled s (abortIdle t c) c ∧ (getCtx (abortIdle t c) c).aborting = true := by
  have hctx (e : Nat) : getCtx t e = if e = c then abortedCtx (getCtx s c) else getCtx s e := by
    rw [getCtx, hready.ctxs]
    exact getCtx_setCtx_if ..
  have hself := hctx c
  rw [if_pos rfl] at hself
  obtain ⟨hown, hrings, hothers⟩ := getCtx_abortIdle t c
  have hidle (u : SubTile) : idleOf t c u = idleOf s c u := by
    rw [idleOf, midPass_congr hready.bound hready.lanes]
    rfl
  have habort : (getCtx (abortIdle t c) c).aborting = true := by rw [hown, hself]; rfl
  refine ⟨⟨fun e he => ?_, ?_, ?_, .inl habort, ?_, ?_, ?_, fun n => ?_, fun r => ?_, fun n hn b hb => ?_⟩, habort⟩
  · rw [hothers e he, hctx, if_neg he]
  · rw [abortIdle_rest, hready.units]
    rfl
  · rw [abortIdle_rest, hready.mnt]
    rfl
  · rw [hown, hself]
    rfl
  · rw [hown, hself]
    rfl
  · rw [hrings, hself]
    rfl
  · rw [abortIdle_eq, bound_dropSubs]
    show (getArr t n).bound.filter _ = _
    rw [hready.bound]
    simp only [hidle]
    rfl
  · rw [abortIdle_eq, queue_dropSubs]
    show (getRgn t r).queue.filter _ = _
    rw [getRgn, hready.rgns]
    simp only [hidle]
    rfl
  · rw [abortIdle_eq, spec_dropSubs] at hb
    exact hready.spec n (List.mem_range.mpr hn) b hb

theorem abortCalled_spec (s : State) (c : Nat) : AbortCalled s (abortCalled s c) c ∧ (getCtx (abortCalled s c) c).aborting = true :=
  abortCalled_of (abortReady_spec s c)

/-! ### The end of an abort (R375 step 4) -/

/-- The context is aborted, and what regions held for it is free. -/
def abortOver (s : State) (c : Nat) : State :=
  setCtx { s with rgns := tmap (fun _ y => abortRegion c y) s.rgns } c { getCtx s c with st := 2, aborting := false, doneQ := [], backing := [] }

theorem abortEnd_eq (s : State) (c : Nat) : abortEnd s c = writeStatus (abortOver s c) c := rfl

theorem getCtx_abortOver (s : State) (c : Nat) :
    getCtx (abortOver s c) c = { getCtx s c with st := 2, aborting := false, doneQ := [], backing := [] } := getCtx_setCtx ..

/-- The status line is written behind the end. -/
theorem wrote_abortEnd (s : State) (c : Nat) : Wrote (abortOver s c) (abortEnd s c) (statusRange (getCtx s c).ent) := by
  have h := wrote_writeStatus (abortOver s c) c
  rw [getCtx_abortOver] at h
  exact h

theorem AbortCalled.abortEnd {s t : State} {c : Nat} (h : AbortCalled s t c) (hnone : (getCtx t c).admitted = []) :
    AbortCalled s (abortEnd t c) c := by
  have hw := wrote_abortEnd t c
  have hself : getCtx (Machine.abortEnd t c) c = { getCtx t c with st := 2, aborting := false, doneQ := [], backing := [] } := by
    rw [hw.getCtx, getCtx_abortOver]
  have harr (n : Nat) : getArr (Machine.abortEnd t c) n = getArr t n := by rw [getArr, hw.arrs]; rfl
  refine ⟨fun e he => ?_, hw.units.trans h.units, hw.mnt.trans h.mnt, .inr ?_, ?_, ?_, ?_, fun n => ?_, fun r => ?_, fun n hn b hb => ?_⟩
  · rw [hw.getCtx, ← h.others e he]
    exact getCtx_setCtx_ne _ _ _ _ he
  · rw [hself]
    exact ⟨rfl, rfl, hnone⟩
  · rw [hself]
    exact h.fetched
  · rw [hself]
    exact h.written
  · rw [hself]
    exact h.rings
  · rw [harr, h.bound]
  · rw [getRgn, hw.rgns, ← h.queue r]
    exact tget_tmap_proj Region.init (fun _ y => abortRegion c y) (·.queue) (fun _ _ => rfl) t.rgns r
  · rw [harr] at hb
    exact h.spec n hn b hb

/-- An active context's abort is called, and is over at once where it has nothing left to do. -/
theorem contextAbort_of_active {s : State} {c : Nat} (hst : (getCtx s c).st = 1) (habort : (getCtx s c).aborting = false) :
    AbortCalled s (contextAbort s c) c := by
  obtain ⟨hcalled, -⟩ := abortCalled_spec s c
  have heq : contextAbort s c = if (getCtx (abortCalled s c) c).admitted.isEmpty && abortQuiet (abortCalled s c) c then
      abortEnd (abortCalled s c) c else abortCalled s c := by
    refine if_neg ?_
    rw [hst, habort]
    decide
  rw [heq]
  refine ite_cases (q := fun u => AbortCalled s u c) (fun h => ?_) (fun _ => hcalled)
  exact hcalled.abortEnd (List.isEmpty_iff.mp (Bool.and_eq_true_iff.mp h).1)

theorem contextAbort_of_inactive {s : State} {c : Nat} (h : (getCtx s c).st ≠ 1 ∨ (getCtx s c).aborting = true) : contextAbort s c = s := by
  refine if_pos ?_
  rcases h with h | h
  · rw [bne_iff_ne.mpr h, Bool.true_or]
  · rw [h, Bool.or_true]

end Sys2Proof.Machine
end

section
/-!
PROOFS. The records of an aborting context (R375 step 4) settled.
-/

namespace Sys2Proof.Machine

/-! ### A quiet context stays quiet -/

theorem mem_tset_cases {α : Type} {t : Tbl α} {k : Nat} {v : α} {e : Nat × α} (h : e ∈ tset t k v) : e = (k, v) ∨ e ∈ t := by
  induction t with
  | nil => exact .inl (List.mem_singleton.mp h)
  | cons x t ih =>
    unfold tset at h
    split at h
    · exact List.mem_cons.mp h
    · split at h
      · exact (List.mem_cons.mp h).imp id (List.mem_cons_of_mem _)
      · rcases List.mem_cons.mp h with h | h
        · exact .inr (h ▸ List.mem_cons_self)
        · exact (ih h).imp id (List.mem_cons_of_mem _)

theorem tget_cases {α : Type} (d : α) (t : Tbl α) (k : Nat) : tget d t k = d ∨ (k, tget d t k) ∈ t := by
  cases h : thas t k with
  | false => exact .inl (tget_of_not_thas h)
  | true => exact .inr (mem_of_thas h)

/-- An array has work of the context: a bound sub-tile, or rows not yet delivered. -/
def arrBusy (c : Nat) (x : ArrayS) : Bool := x.bound.any (ofCtx c) || x.delay.any (fun q => q.ctx == c)

/-- A bank request for a descriptor of the context. -/
def bankReqOf (c : Nat) (q : BankReq) : Bool :=
  match q.owner with
  | .desc d _ => d == c
  | _ => false

/-- A region has work of the context, or a request of it at its banks. -/
def rgnBusy (c : Nat) (x : Region) : Bool := (x.queue ++ x.sideQ ++ x.replayQ).any (ofCtx c) || x.bankReqs.any (bankReqOf c)

/-- No request of the context waits or is outstanding at a port. -/
def portsQuiet (s : State) (c : Nat) : Bool :=
  !(inFlight s).any (reqOf c) && !s.mp.any (fun q => (q.2.rdQ ++ q.2.wrQ ++ (q.2.rdOut ++ q.2.wrOut).map (·.2)).any (reqOf c)) &&
  !s.hp.any (fun p => (p.2.initQ ++ p.2.initOut.map (·.2)).any (reqOf c))

/-- No array and no region has work of the context. -/
structure NoWork (s : State) (c : Nat) : Prop where
  arrs : ∀ e ∈ s.arrs, arrBusy c e.2 = false
  rgns : ∀ e ∈ s.rgns, rgnBusy c e.2 = false

theorem any_allSubs (s : State) (f : SubTile → Bool) : (allSubs s).any f =
    (s.arrs.any (fun e => e.2.bound.any f) || s.rgns.any (fun e => (e.2.queue ++ e.2.sideQ ++ e.2.replayQ).any f)) := by
  rw [allSubs, List.any_append, List.any_flatMap, List.any_flatMap]

theorem any_or {α : Type} (l : List α) (p q : α → Bool) : l.any (fun x => p x || q x) = (l.any p || l.any q) := by
  induction l with
  | nil => rfl
  | cons x l ih =>
    rw [List.any_cons, ih, List.any_cons, List.any_cons, Bool.or_assoc, Bool.or_assoc, Bool.or_left_comm (q x)]

theorem abortQuiet_iff (s : State) (c : Nat) : abortQuiet s c = true ↔ NoWork s c ∧ portsQuiet s c = true := by
  have harrs : s.arrs.any (fun e => arrBusy c e.2) =
      (s.arrs.any (fun e => e.2.bound.any (ofCtx c)) || s.arrs.any (fun e => e.2.delay.any (fun q => q.ctx == c))) := any_or ..
  have hrgns : s.rgns.any (fun e => rgnBusy c e.2) = (s.rgns.any (fun e => (e.2.queue ++ e.2.sideQ ++ e.2.replayQ).any (ofCtx c)) ||
      s.rgns.any (fun e => e.2.bankReqs.any (bankReqOf c))) := any_or ..
  have hwork : NoWork s c ↔ (s.arrs.any (fun e => arrBusy c e.2) || s.rgns.any (fun e => rgnBusy c e.2)) = false := by
    rw [Bool.or_eq_false_iff, List.any_eq_false, List.any_eq_false]
    simp only [Bool.not_eq_true]
    exact ⟨fun h => ⟨h.arrs, h.rgns⟩, fun h => ⟨h.1, h.2⟩⟩
  have hquiet : abortQuiet s c = (!(allSubs s).any (ofCtx c) && !s.arrs.any (fun e => e.2.delay.any (fun q => q.ctx == c)) &&
      !(inFlight s).any (reqOf c) && !s.mp.any (fun q => (q.2.rdQ ++ q.2.wrQ ++ (q.2.rdOut ++ q.2.wrOut).map (·.2)).any (reqOf c)) &&
      !s.hp.any (fun p => (p.2.initQ ++ p.2.initOut.map (·.2)).any (reqOf c)) &&
      !s.rgns.any (fun e => e.2.bankReqs.any (bankReqOf c))) := rfl
  rw [hwork, harrs, hrgns, hquiet, any_allSubs, portsQuiet]
  simp only [Bool.and_eq_true, Bool.not_eq_true', Bool.or_eq_false_iff]
  tauto

theorem any_filter_false {α : Type} {p q : α → Bool} {l : List α} (h : l.any p = false) : (l.filter q).any p = false := by
  rw [List.any_eq_false] at h ⊢
  exact fun x hx => h x (List.mem_filter.mp hx).1

theorem arrBusy_dropBound {c : Nat} {x : ArrayS} (f : SubTile → Bool) (h : arrBusy c x = false) : arrBusy c (dropBound f x) = false := by
  obtain ⟨hbound, hdelay⟩ := Bool.or_eq_false_iff.mp h
  rw [arrBusy, bound_dropBound, (dropBound_kept f x).2, hdelay, any_filter_false hbound]
  rfl

theorem arrBusy_dropFollowed {c : Nat} {x : ArrayS} (g : List SubTile) (h : arrBusy c x = false) : arrBusy c (dropFollowed g x) = false := by
  obtain ⟨hbound, -, hdelay⟩ := dropFollowed_kept g x
  rw [arrBusy, hbound, hdelay]
  exact h

theorem rgnBusy_dropQueued {c : Nat} {x : Region} (f : SubTile → Bool) (h : rgnBusy c x = false) : rgnBusy c (dropQueued f x) = false := by
  obtain ⟨hsubs, hreqs⟩ := Bool.or_eq_false_iff.mp h
  rw [List.any_append, List.any_append, Bool.or_eq_false_iff, Bool.or_eq_false_iff] at hsubs
  obtain ⟨⟨hqueue, hside⟩, hreplay⟩ := hsubs
  refine Bool.or_eq_false_iff.mpr ⟨?_, hreqs⟩
  show (x.queue.filter _ ++ x.sideQ.filter _ ++ x.replayQ.filter _).any _ = false
  rw [List.any_append, List.any_append, any_filter_false hqueue, any_filter_false hside, any_filter_false hreplay]
  rfl

namespace NoWork
variable {s : State} {c : Nat}

theorem arr (h : NoWork s c) (a : Nat) : arrBusy c (getArr s a) = false := by
  rcases tget_cases ArrayS.init s.arrs a with h0 | h0
  · rw [getArr, h0]
    rfl
  · exact h.arrs _ h0

theorem rgn (h : NoWork s c) (r : Nat) : rgnBusy c (getRgn s r) = false := by
  rcases tget_cases Region.init s.rgns r with h0 | h0
  · rw [getRgn, h0]
    rfl
  · exact h.rgns _ h0

theorem setArr (h : NoWork s c) (a : Nat) {x : ArrayS} (hx : arrBusy c x = false) : NoWork (setArr s a x) c where
  arrs e he := by
    rcases mem_tset_cases he with rfl | he
    · exact hx
    · exact h.arrs e he
  rgns := h.rgns

theorem setRgn (h : NoWork s c) (r : Nat) {x : Region} (hx : rgnBusy c x = false) : NoWork (setRgn s r x) c where
  arrs := h.arrs
  rgns e he := by
    rcases mem_tset_cases he with rfl | he
    · exact hx
    · exact h.rgns e he

theorem of_same {t : State} (h : NoWork s c) (harrs : t.arrs = s.arrs) (hrgns : t.rgns = s.rgns) : NoWork t c :=
  ⟨fun e he => h.arrs e (harrs ▸ he), fun e he => h.rgns e (hrgns ▸ he)⟩

theorem tmap (h : NoWork s c) (f : Nat → Region → Region) (hf : ∀ n x, rgnBusy c x = false → rgnBusy c (f n x) = false) :
    NoWork { s with rgns := tmap f s.rgns } c where
  arrs := h.arrs
  rgns e he := by
    obtain ⟨y, hy, rfl⟩ := List.mem_map.mp he
    exact hf _ _ (h.rgns y hy)

theorem freeSlot (h : NoWork s c) (d : Nat) (sl : Option SlotRef) : NoWork (freeSlot s d sl) c := by
  cases sl with
  | none => exact h
  | some r => exact ite_cases (q := fun u => NoWork u c) (fun _ => h.of_same rfl rfl) (fun _ => h.setRgn _ (h.rgn _))

theorem leaveArray (h : NoWork s c) (a : Nat) (f : SubTile → Bool) : NoWork (leaveArray s a f) c := by
  have h1 := h.setArr a (arrBusy_dropBound f (h.arr a))
  exact ite_cases (q := fun u => NoWork u c) (fun _ => h1) (fun _ => h1.setArr _ (arrBusy_dropFollowed _ (h1.arr _)))

theorem dropSubs (h : NoWork s c) (f : SubTile → Bool) : NoWork (dropSubs s f) c := by
  have h0 : NoWork (freeEntries s f) c := h.tmap _ (fun _ _ hx => hx)
  have h1 : NoWork (slotsFreed s f) c := foldl_freeSlot (q := fun u => NoWork u c) f (allSubs s) (fun u x _ hu => hu.freeSlot x.ctx x.slot) h0
  have hfold (l : List (Nat × ArrayS)) (t : State) (ht : NoWork t c) : NoWork (l.foldl (fun t e => Machine.leaveArray t e.1 f) t) c := by
    induction l generalizing t with
    | nil => exact ht
    | cons e l ih => exact ih _ (ht.leaveArray e.1 f)
  rw [dropSubs_eq]
  exact (hfold _ _ h1).tmap _ (fun _ _ hx => rgnBusy_dropQueued f hx)

end NoWork

/-- What a quiet context's abort does at a record command leaves it quiet. -/
theorem abortQuiet_abortIdle {s : State} {c : Nat} (h : abortQuiet s c = true) : abortQuiet (abortIdle s c) c = true := by
  obtain ⟨hwork, hports⟩ := (abortQuiet_iff s c).mp h
  refine (abortQuiet_iff _ c).mpr ⟨?_, ?_⟩
  · rw [abortIdle_eq]
    exact NoWork.dropSubs (hwork.of_same (by rfl) (by rfl)) (idleOf s c)
  · rw [portsQuiet, inFlight, abortIdle_rest]
    exact hports

/-- A quiet context's descriptors gather no more flags. -/
theorem admitted_abortIdle_of_quiet {s : State} {c : Nat} (h : abortQuiet s c = true) :
    (getCtx (abortIdle s c) c).admitted = (getCtx s c).admitted := by
  have hnone : (allSubs s).filter (fun t => t.ctx == c && idleOf s c t) = [] := by
    rw [List.filter_eq_nil_iff]
    intro u hu hc
    have hany : (allSubs s).any (ofCtx c) = true := List.any_eq_true.mpr ⟨u, hu, (Bool.and_eq_true_iff.mp hc).1⟩
    have hq : abortQuiet s c = false := by rw [abortQuiet, hany]; rfl
    exact Bool.false_ne_true (hq.symm.trans h)
  have hkeep : getCtx (keepFlags s c (idleOf s c)) c = _ := getCtx_setCtx s c _
  rw [abortIdle_eq, (Dropped.dropSubs _ _).ctx c, hkeep, hnone]
  exact List.map_id _

/-! ### A record of an aborting context -/

/-- The context behind a record is `afterRecord`'s. -/
theorem getCtx_writeRecord (s : State) (c : Nat) (ring : W32) (desc : List W64) (res : Result) :
    getCtx (writeRecord s c ring desc res) c = afterRecord (getCtx s c) ring s.time.t := by
  have hrec : Wrote s (recorded s c desc res) _ := wrote_hostWrite ..
  rw [writeRecord_eq, (wrote_recordIrq _ c desc).getCtx, (wrote_writeStatus _ c).getCtx, getCtx_retired, if_pos rfl, hrec.getCtx]

/-- An abort whose context is quiet writes the next descriptor's record, and is over behind the last one. -/
theorem abortNext_of_quiet {s : State} {c : Nat} {d : Adm} {ds : List Adm} (hquiet : abortQuiet s c = true)
    (hadm : (getCtx s c).admitted = d :: ds) : abortNext s c =
      if ds.isEmpty then abortEnd (writeRecord (abortIdle s c) c d.ring d.desc (abortResult d)) c
      else writeRecord (abortIdle s c) c d.ring d.desc (abortResult d) := by
  have hadm' : (getCtx (abortIdle s c) c).admitted = d :: ds := (admitted_abortIdle_of_quiet hquiet).trans hadm
  simp only [abortNext, abortQuiet_abortIdle hquiet, hadm']
  rfl

/-- The ring index of the first descriptor is no other's. -/
theorem filter_ring_ne {d : Adm} {ds : List Adm} (h : ((d :: ds).map (·.ring)).Nodup) : (d :: ds).filter (fun e => e.ring != d.ring) = ds := by
  rw [List.filter_cons_of_neg (by simp), List.filter_eq_self]
  intro e he
  rw [List.map_cons, List.nodup_cons] at h
  exact bne_iff_ne.mpr (fun hr => h.1 (hr ▸ List.mem_map_of_mem he))

/-- A region that an abort has left watches nothing for the context. -/
theorem watch_abortEnd (s : State) (c r : Nat) : ∀ w ∈ (getRgn (abortEnd s c) r).watch, w.ctx ≠ c := by
  intro w hw
  have hget : getRgn (abortEnd s c) r = abortRegion c (getRgn s r) := by
    rw [getRgn, (wrote_abortEnd s c).rgns]
    exact tget_tmap Region.init (fun _ y => abortRegion c y) s.rgns r rfl
  rw [hget] at hw
  exact bne_iff_ne.mp (List.mem_filter.mp hw).2

theorem recordIrq_of_off (s : State) (c : Nat) {desc : List W64} (h : dIrq desc = false) : recordIrq s c desc = s := by
  unfold recordIrq
  rw [h]
  rfl

theorem writeStatus_of_no_base {s : State} {c : Nat} (h : ceStatusBase (getCtx s c).ent = 0) : writeStatus s c = s := by
  unfold writeStatus
  dsimp only
  rw [if_pos (beq_iff_eq.mpr h)]

/-- A record alone is written where neither a status line nor an interrupt follows it. -/
theorem mems_writeRecord {s : State} {c : Nat} {ring : W32} {desc : List W64} {res : Result} (hbase : ceStatusBase (getCtx s c).ent = 0)
    (hirq : dIrq desc = false) : (writeRecord s c ring desc res).mems = (recorded s c desc res).mems := by
  have hrec : Wrote s (recorded s c desc res) _ := wrote_hostWrite ..
  rw [writeRecord_eq, recordIrq_of_off _ c hirq, writeStatus_of_no_base, retired_mems]
  rw [getCtx_retired, if_pos rfl, hrec.getCtx]
  exact hbase

theorem mems_abortEnd {s : State} {c : Nat} (h : ceStatusBase (getCtx s c).ent = 0) : (abortEnd s c).mems = s.mems := by
  rw [abortEnd_eq, writeStatus_of_no_base (by rw [getCtx_abortOver]; exact h)]
  rfl

end Sys2Proof.Machine

open Sys2Proof Sys2Proof.Machine

/-- The record command of an aborting context that is quiet. -/
theorem abortRecord_of_quiet {s : State} {c : CtxId} {d : Adm} {ds : List Adm} (hst : (getCtx s c.val).st = 1)
    (habort : (getCtx s c.val).aborting = true) (hgo : recordsGo s = true) (hport : (hostPortFor s c.val).isSome = true)
    (hquiet : abortQuiet s c.val = true) (hadm : (getCtx s c.val).admitted = d :: ds) (hnodup : ((d :: ds).map (·.ring)).Nodup) :
    ∃ t, exec (.completionRecord c) s = .next t ∧ (∀ e, e ≠ c.val → getCtx t e = getCtx s e) ∧ t.units = s.units ∧
      (getCtx t c.val).cqWritten = (getCtx s c.val).cqWritten + 1 ∧ (getCtx t c.val).admitted = ds ∧
      (getCtx t c.val).aborting = !ds.isEmpty ∧ (getCtx t c.val).st = (if ds.isEmpty then 2 else 1) ∧
      (ds = [] → ∀ r, ∀ w ∈ (getRgn t r).watch, w.ctx ≠ c.val) ∧
      (ceStatusBase (getCtx s c.val).ent = 0 → dIrq d.desc = false →
        t.mems = (recorded (abortIdle s c.val) c.val d.desc (abortResult d)).mems) := by
  obtain ⟨hown, -, hothers⟩ := getCtx_abortIdle s c.val
  have hadm' : (getCtx (abortIdle s c.val) c.val).admitted = d :: ds := (admitted_abortIdle_of_quiet hquiet).trans hadm
  obtain ⟨hrec, -⟩ := recordDone_writeRecord (abortIdle s c.val) c.val d.ring d.desc (abortResult d)
  have hafter := getCtx_writeRecord (abortIdle s c.val) c.val d.ring d.desc (abortResult d)
  have hleft : (getCtx (writeRecord (abortIdle s c.val) c.val d.ring d.desc (abortResult d)) c.val).admitted = ds := by
    rw [hrec.admitted, hadm', filter_ring_ne hnodup]
  have hwritten : (getCtx (writeRecord (abortIdle s c.val) c.val d.ring d.desc (abortResult d)) c.val).cqWritten =
      (getCtx s c.val).cqWritten + 1 := by rw [hrec.written, hown]
  have hunits : (writeRecord (abortIdle s c.val) c.val d.ring d.desc (abortResult d)).units = s.units := by
    rw [hrec.kept.1, abortIdle_rest]
  have hbase (h : ceStatusBase (getCtx s c.val).ent = 0) : ceStatusBase (getCtx (abortIdle s c.val) c.val).ent = 0 := by rw [hown]; exact h
  have hexec : exec (.completionRecord c) s = .next (abortNext s c.val) := by
    refine congrArg Host.Outcome.next ((if_pos ?_).trans (if_pos habort))
    rw [hst, hgo, hport]
    rfl
  rw [abortNext_of_quiet hquiet hadm] at hexec
  cases hds : ds.isEmpty with
  | true =>
    rw [hds, if_pos rfl] at hexec
    have hw := wrote_abortEnd (writeRecord (abortIdle s c.val) c.val d.ring d.desc (abortResult d)) c.val
    have hself := hw.getCtx c.val
    rw [getCtx_abortOver] at hself
    refine ⟨_, hexec, fun e he => ?_, hw.units.trans hunits, ?_, ?_, ?_, ?_, fun _ r => watch_abortEnd _ c.val r, fun h0 hirq => ?_⟩
    · rw [hw.getCtx, ← hothers e he, ← hrec.others e he]
      exact getCtx_setCtx_ne _ _ _ _ he
    · rw [hself]
      exact hwritten
    · rw [hself]
      exact hleft
    · rw [hself]
      rfl
    · rw [hself]
      rfl
    · rw [mems_abortEnd (by rw [hafter]; exact hbase h0), mems_writeRecord (hbase h0) hirq]
  | false =>
    rw [hds, if_neg Bool.false_ne_true] at hexec
    refine ⟨_, hexec, fun e he => (hrec.others e he).trans (hothers e he), hunits, hwritten, hleft, ?_, ?_, fun hnil => ?_, fun h0 hirq => ?_⟩
    · rw [hafter, hown]
      exact habort
    · rw [hafter, hown]
      exact hst
    · rw [hnil] at hds
      exact nomatch hds
    · exact mems_writeRecord (hbase h0) hirq

/-- Settles O12: the call ends the context's idle sub-tiles (`AbortCalled`), and a quiet context's record command writes the first descriptor's
record and ends the abort behind the last one. -/
theorem contextAbortEndsContext : Obligations.ContextAbortEndsContext := by
  refine ⟨fun s p c hans => ?_, fun s c d ds hst habort hgo hport hquiet hadm hnodup => ?_⟩
  · have hexec : exec (.contextAbort p c) s = .next (respond (contextAbort (wake s) c.val) p.val .ok) := by
      show Host.Outcome.next (if hostAnswers s p.val then respond (contextAbort (wake s) c.val) p.val .ok else s) = _
      rw [hans]
      rfl
    have hctx : getCtx (wake s) c.val = getCtx s c.val := getCtx_wake ..
    have harr (a : Nat) : getArr (wake s) a = getArr s a := by rw [getArr, wake_rest]; rfl
    by_cases hact : (getCtx s c.val).st = 1 ∧ (getCtx s c.val).aborting = false
    · obtain ⟨hst, habort⟩ := hact
      have h : AbortCalled (wake s) (contextAbort (wake s) c.val) c.val :=
        contextAbort_of_active (by rw [hctx]; exact hst) (by rw [hctx]; exact habort)
      have hidle (u : SubTile) : idleOf (wake s) c.val u = idleOf s c.val u := by
        rw [idleOf, midPass_congr (s := s) (fun a => by rw [harr]) (fun a => by rw [harr])]
        rfl
      refine ⟨_, hexec, getHp_respond_resp .., fun e he => ?_, ?_, ?_, fun _ _ => ?_, fun hne => ?_⟩
      · rw [getCtx_respond, h.others e he, getCtx_wake]
      · rw [respond_units, h.units, wake_rest]
      · rw [respond_mnt, h.mnt, wake_mnt]
      · simp only [getCtx_respond, getArr_respond, getRgn_respond]
        refine ⟨?_, h.fetched, h.written.trans (by rw [hctx]), h.rings.trans (by rw [hctx]), fun hne => ?_, fun hend => ?_, fun a u hu hc => ?_,
          fun a u hu hkeep => ?_, fun r u hu => ?_, h.spec⟩
        · rcases h.ends with he | ⟨-, he, -⟩
          · rw [takesWork, he, Bool.not_true, Bool.and_false]
          · rw [takesWork, he]
            rfl
        · rcases h.ends with he | ⟨-, -, he⟩
          · exact he
          · have hrings := h.rings
            rw [he, hctx] at hrings
            exact absurd (List.map_eq_nil_iff.mp hrings.symm) hne
        · rcases h.ends with he | ⟨-, he, -⟩
          · exact absurd (he.symm.trans hend) (by decide)
          · exact he
        · rw [h.bound] at hu
          have hkeep := (List.mem_filter.mp hu).2
          rw [Bool.not_eq_true', hidle, idleOf_false_iff] at hkeep
          exact hkeep.resolve_left (fun hn => hn hc)
        · rw [h.bound, harr]
          refine List.mem_filter.mpr ⟨hu, ?_⟩
          rw [Bool.not_eq_true', hidle]
          exact idleOf_false_iff.mpr hkeep
        · rw [h.queue] at hu
          have hkeep := (List.mem_filter.mp hu).2
          rw [Bool.not_eq_true', hidle] at hkeep
          exact idleOf_false_iff.mp hkeep
      · rcases hne with hne | hne
        · exact absurd hst hne
        · exact absurd (habort.symm.trans hne) (by decide)
    · have hinactive : (getCtx s c.val).st ≠ 1 ∨ (getCtx s c.val).aborting = true := by
        by_cases hst : (getCtx s c.val).st = 1
        · exact .inr (Bool.of_not_eq_false fun h => hact ⟨hst, h⟩)
        · exact .inl hst
      rw [contextAbort_of_inactive (by rw [hctx]; exact hinactive)] at hexec
      refine ⟨_, hexec, getHp_respond_resp .., fun e he => ?_, ?_, ?_, fun hst habort => absurd ⟨hst, habort⟩ hact, fun _ => rfl⟩
      · rw [getCtx_respond, getCtx_wake]
      · rw [respond_units, wake_rest]
      · rw [respond_mnt, wake_mnt]
  · obtain ⟨t, hexec, hothers, hunits, hwritten, hleft, haborting, hstate, hwatch, hmems⟩ :=
      abortRecord_of_quiet hst habort hgo hport hquiet hadm hnodup
    refine ⟨t, hexec, hothers, hunits, hwritten, hleft, haborting, hstate, hwatch, fun hbase hirq hfits => ?_⟩
    obtain ⟨hown, -⟩ := getCtx_abortIdle s c.val
    have hmems' : (recorded (abortIdle s c.val) c.val d.desc (abortResult d)).mems = _ := hostWrite_mems_of_fits (by
      rw [length_recordBytes, hown]
      exact hfits)
    rw [hmems hbase hirq, hmems', hown, abortIdle_rest]
    have hlen := length_recordBytes d.desc (abortResult d) (recordPhase (getCtx s c.val).ent (getCtx s c.val).cqWritten) s.time.t
    rw [← hlen]
    exact rdBytes_wrBytes ..

end

section
/-!
PROOFS. Cold boot by its phases (R7, R34, R362 to R364) settled.
-/

namespace Sys2Proof.Machine

/-! ### What boot's logs and units leave alone -/

theorem faultIrq_spad (s : State) : (faultIrq s).mems.spad = s.mems.spad := by
  unfold faultIrq
  split
  · rfl
  · split
    · rfl
    · split
      · rfl
      · rw [hostSend_rest]
        rfl

theorem notifySideband_mems (s : State) (e : FlogEntry) : (notifySideband s e).mems = s.mems := by
  unfold notifySideband
  split
  · rfl
  · rfl

/-- A log entry, with the interrupt it may raise, writes no scratchpad. -/
theorem logFault_spad (s : State) (e : FlogEntry) : (logFault s e).mems.spad = s.mems.spad := by
  by_cases hmerge : e.cls = 1 ∧ ∃ j, mergeAt s e = some j
  · obtain ⟨hcls, j, hj⟩ := hmerge
    rw [logFault_of_merge hcls hj]
  · have hnew : e.cls ≠ 1 ∨ mergeAt s e = none := by
      by_cases hcls : e.cls = 1
      · exact .inr (Option.eq_none_iff_forall_ne_some.mpr fun j hj => hmerge ⟨hcls, j, hj⟩)
      · exact .inl hcls
    rw [logFault_of_new hnew]
    by_cases hrep : 3 ≤ e.cls.toNat
    · rw [logNew_of_reported hrep, faultIrq_spad, notifySideband_mems]
    · rw [logNew_of_unreported (Nat.not_le.mp hrep)]

/-- Only units, islands, regions, the log and what an entry raises differ; no scratchpad does. -/
structure BootKept (s t : State) : Prop where
  rest : t = { s with units := t.units, isl := t.isl, rgns := t.rgns, hp := t.hp, flog := t.flog, sbd := t.sbd, mems := t.mems }
  spad : t.mems.spad = s.mems.spad

namespace BootKept
variable {s t u : State}

theorem refl (s : State) : BootKept s s := ⟨rfl, rfl⟩

theorem trans (h : BootKept s t) (k : BootKept t u) : BootKept s u := ⟨by rw [k.rest, h.rest], k.spad.trans h.spad⟩

theorem logFault (s : State) (e : FlogEntry) : BootKept s (logFault s e) :=
  ⟨by rw [(logFault_logOnly s e).rest], logFault_spad s e⟩

theorem setIsl (s : State) (i : Nat) (x : Island) : BootKept s (setIsl s i x) := ⟨rfl, rfl⟩
theorem setRgn (s : State) (r : Nat) (x : Region) : BootKept s (setRgn s r x) := ⟨rfl, rfl⟩
theorem putUnit (s : State) (k : UnitKind) (n : Nat) (st : UState) : BootKept s (putUnit s k n st) := ⟨rfl, rfl⟩

theorem foldl {α : Type} {f : State → α → State} (l : List α) (s : State) (hf : ∀ u x, BootKept u (f u x)) : BootKept s (l.foldl f s) := by
  induction l generalizing s with
  | nil => exact .refl s
  | cons x l ih => exact (hf s x).trans (ih _)

theorem boot (h : BootKept s t) : t.boot = s.boot := by rw [h.rest]
theorem time (h : BootKept s t) : t.time = s.time := by rw [h.rest]
theorem cfg (h : BootKept s t) : t.cfg = s.cfg := by rw [h.rest]
theorem regs (h : BootKept s t) : t.regs = s.regs := by rw [h.rest]
theorem mnt (h : BootKept s t) : t.mnt = s.mnt := by rw [h.rest]
theorem ctxs (h : BootKept s t) : t.ctxs = s.ctxs := by rw [h.rest]
theorem pwr (h : BootKept s t) : t.pwr = s.pwr := by rw [h.rest]

end BootKept

theorem getIsl_logFault (s : State) (e : FlogEntry) (i : Nat) : getIsl (logFault s e) i = getIsl s i := by
  rw [getIsl, (logFault_logOnly s e).rest]
  rfl

/-- A run of log entries changes no unit, island or region. -/
theorem foldl_logFault_kept {α : Type} (e : State → α → FlogEntry) (l : List α) (s : State) :
    BootKept s (l.foldl (fun t x => logFault t (e t x)) s) ∧ (l.foldl (fun t x => logFault t (e t x)) s).units = s.units ∧
      (∀ i, getIsl (l.foldl (fun t x => logFault t (e t x)) s) i = getIsl s i) ∧
      (∀ n, getRgn (l.foldl (fun t x => logFault t (e t x)) s) n = getRgn s n) := by
  induction l generalizing s with
  | nil => exact ⟨.refl s, rfl, fun _ => rfl, fun _ => rfl⟩
  | cons x l ih =>
    obtain ⟨hkept, hunits, hisl, hrgn⟩ := ih (logFault s (e s x))
    rw [List.foldl_cons]
    exact ⟨(BootKept.logFault s _).trans hkept, hunits.trans (logFault_units ..), fun i => (hisl i).trans (getIsl_logFault ..),
      fun n => (hrgn n).trans (getRgn_logFault ..)⟩

/-! ### Phase 2: the islands (R362, R363) -/

/-- An island without a standby oscillator is logged and runs on. -/
def lockOne (t : State) (i : IslId) : State :=
  logFault (setIsl t i.val { getIsl t i.val with standby := true }) (islandEntry t clsCorrectable i.val)

theorem standby_lockOne (t : State) (i : IslId) (j : Nat) :
    (getIsl (lockOne t i) j).standby = if j = i.val then true else (getIsl t j).standby := by
  rw [lockOne, getIsl_logFault]
  split
  · rw [‹j = i.val›, getIsl_setIsl]
  · rw [getIsl_setIsl_ne _ _ _ _ ‹_›]

theorem standby_foldl_lockOne (l : List IslId) (t : State) (j : Nat) :
    (getIsl (l.foldl lockOne t) j).standby = if j ∈ l.map (·.val) then true else (getIsl t j).standby := by
  induction l generalizing t with
  | nil => rfl
  | cons i l ih =>
    rw [List.foldl_cons, ih, standby_lockOne, List.map_cons]
    by_cases hi : j = i.val
    · simp [hi]
    · simp [hi]

/-- The islands' phase where each locks on an oscillator at least: those on one are logged. -/
theorem bootIslands_spec {s : State} {r : BootReport} (hlock : r.noLock = []) : BootKept s (bootIslands s r) ∧
    (bootIslands s r).units = s.units ∧ (∀ i ∈ r.oneLock, (getIsl (bootIslands s r) i.val).standby = true) := by
  have heq : bootIslands s r = r.oneLock.foldl lockOne s := by
    simp only [bootIslands, hlock, List.foldl_nil]
    rfl
  rw [heq]
  refine ⟨.foldl _ _ fun u i => (BootKept.setIsl ..).trans (.logFault ..), ?_, fun i hi => ?_⟩
  · have hunits (l : List IslId) (t : State) : (l.foldl lockOne t).units = t.units := by
      induction l generalizing t with
      | nil => rfl
      | cons i l ih => exact (ih _).trans (logFault_units ..)
    exact hunits _ s
  · rw [standby_foldl_lockOne, if_pos (List.mem_map_of_mem hi)]

/-! ### Phase 3: the banks (R362, R403) -/

/-- A region whose banks lie on spares. -/
def sparedRgn (s : State) (r : BootReport) (n : Nat) : State :=
  setRgn s n { getRgn s n with spares := (sparesOf (badOf r n)).1, badSpares := (sparesOf (badOf r n)).2 }

theorem bootBanks_spec {s : State} {r : BootReport} {n : Nat} (hfew : (badOf r n).length ≤ 4) : BootKept s (bootBanks s r n) ∧
    (bootBanks s r n).units = s.units ∧ (∀ i, getIsl (bootBanks s r n) i = getIsl s i) ∧
    (∀ m, getRgn (bootBanks s r n) m = getRgn (sparedRgn s r n) m) := by
  have heq : bootBanks s r n = ((badOf r n).take 4).foldl
      (fun t b => logFault t { flogBase t clsArray 5 0x02 0 n with detail := BitVec.ofNat 32 b }) (sparedRgn s r n) :=
    if_neg (Nat.not_lt.mpr hfew)
  obtain ⟨hkept, hunits, hisl, hrgn⟩ := foldl_logFault_kept (fun t b => { flogBase t clsArray 5 0x02 0 n with detail := BitVec.ofNat 32 b })
    ((badOf r n).take 4) (sparedRgn s r n)
  rw [heq]
  exact ⟨(BootKept.setRgn s n _).trans hkept, hunits, hisl, hrgn⟩

/-- The banks of a region that is in test are marched. -/
def marchBanks (r : BootReport) (t : State) (n : Nat) : State := if unitSt t .region n == .testing then bootBanks t r n else t

theorem bootPads_eq (s : State) (r : BootReport) :
    bootPads s r = nextPhase ((List.range s.cfg.regions).foldl (marchBanks r) { s with mems := { s.mems with spad := [] } }) := rfl

/-- The march of the banks: units and islands stay; a region in test has its failing banks on spares. -/
structure Marched (r : BootReport) (s t : State) (l : List Nat) : Prop where
  kept : BootKept s t
  units : t.units = s.units
  isl : ∀ i, getIsl t i = getIsl s i
  spares : ∀ n ∈ l, unitSt s .region n = .testing → (getRgn t n).spares = (sparesOf (badOf r n)).1
  others : ∀ n, n ∉ l → getRgn t n = getRgn s n

theorem marchBanks_spec {r : BootReport} (hfew : ∀ n, (badOf r n).length ≤ 4) (s : State) (n : Nat) : Marched r s (marchBanks r s n) [n] := by
  unfold marchBanks
  split
  · obtain ⟨hkept, hunits, hisl, hrgn⟩ := bootBanks_spec (s := s) (hfew n)
    refine ⟨hkept, hunits, hisl, fun m hm _ => ?_, fun m hm => ?_⟩
    · rw [List.mem_singleton.mp hm, hrgn, sparedRgn, getRgn_setRgn]
    · rw [hrgn, sparedRgn, getRgn_setRgn_ne _ _ _ _ (fun h => hm (List.mem_singleton.mpr h))]
  · rename_i hno
    exact ⟨.refl s, rfl, fun _ => rfl, fun m hm hst => absurd (List.mem_singleton.mp hm ▸ beq_iff_eq.mpr hst) hno, fun _ _ => rfl⟩

theorem foldl_marchBanks {r : BootReport} (hfew : ∀ n, (badOf r n).length ≤ 4) (l : List Nat) (s : State) :
    Marched r s (l.foldl (marchBanks r) s) l := by
  induction l generalizing s with
  | nil => exact ⟨.refl s, rfl, fun _ => rfl, fun n h => absurd h List.not_mem_nil, fun _ _ => rfl⟩
  | cons n l ih =>
    have h1 := marchBanks_spec hfew s n
    have h2 := ih (marchBanks r s n)
    rw [List.foldl_cons]
    refine ⟨h1.kept.trans h2.kept, h2.units.trans h1.units, fun i => (h2.isl i).trans (h1.isl i), fun m hm hst => ?_, fun m hm => ?_⟩
    · by_cases hml : m ∈ l
      · exact h2.spares m hml (by rw [unitSt, h1.units]; exact hst)
      · rw [h2.others m hml]
        exact h1.spares m (List.mem_singleton.mpr ((List.mem_cons.mp hm).resolve_right hml)) hst
    · rw [List.mem_cons, not_or] at hm
      rw [h2.others m hm.2, h1.others m (fun h => hm.1 (List.mem_singleton.mp h))]

/-- Where no region is in test no bank is marched. -/
theorem foldl_marchBanks_of_none {r : BootReport} {s : State} (h : ∀ n, unitSt s .region n ≠ .testing) (l : List Nat) :
    l.foldl (marchBanks r) s = s := by
  induction l with
  | nil => rfl
  | cons n l ih =>
    rw [List.foldl_cons, marchBanks, if_neg (fun hc => h n (beq_iff_eq.mp hc)), ih]

/-! ### Phase 4: the units (R362, R363) -/

/-- The state of a unit behind its self-test. -/
def bootPassed (r : BootReport) (u : UnitKind × Nat) (st : UState) : UState :=
  if st ≠ .testing then st else if u.1 = .array ∧ ∃ x ∈ r.failArrays, x.val = u.2 then .fenced else .live

theorem bootPassed_idem (r : BootReport) (u : UnitKind × Nat) (st : UState) : bootPassed r u (bootPassed r u st) = bootPassed r u st := by
  have hne : bootPassed r u st ≠ .testing := by
    unfold bootPassed
    split
    · assumption
    · split <;> exact UState.noConfusion
  rw [bootPassed, if_pos hne]

def bootPassOf (r : BootReport) (t : State) (u : UnitKind × Nat) : State := bootPass t r u.1 u.2

theorem unitSt_bootPassOf (r : BootReport) (t : State) (u : UnitKind × Nat) (k : UnitKind) (n : Nat) :
    unitSt (bootPassOf r t u) k n = if (k, n) = u then bootPassed r u (unitSt t k n) else unitSt t k n := by
  obtain ⟨k', n'⟩ := u
  have hput (st : UState) : unitSt (putUnit t k' n' st) k n = if (k, n) = (k', n') then st else unitSt t k n := by
    rw [unitSt_putUnit]
    exact if_congr Prod.mk_inj.symm rfl rfl
  unfold bootPassOf bootPass
  dsimp only
  by_cases hst : unitSt t k' n' = .testing
  · rw [if_neg (by rw [hst]; decide)]
    have hfail : (k' == .array && r.failArrays.any (fun x => x.val == n')) = true ↔ k' = .array ∧ ∃ x ∈ r.failArrays, x.val = n' := by
      rw [Bool.and_eq_true, beq_iff_eq, List.any_eq_true]
      simp only [beq_iff_eq]
    by_cases hf : k' = .array ∧ ∃ x ∈ r.failArrays, x.val = n'
    · rw [if_pos (hfail.mpr hf), unitSt_logFault, hput]
      split
      · obtain ⟨rfl, rfl⟩ := Prod.mk_inj.mp ‹(k, n) = (k', n')›
        rw [bootPassed, if_neg (fun h => h hst), if_pos hf]
      · rfl
    · rw [if_neg (fun h => hf (hfail.mp h)), hput]
      split
      · obtain ⟨rfl, rfl⟩ := Prod.mk_inj.mp ‹(k, n) = (k', n')›
        rw [bootPassed, if_neg (fun h => h hst), if_neg hf]
      · rfl
  · rw [if_pos (bne_iff_ne.mpr hst)]
    split
    · obtain ⟨rfl, rfl⟩ := Prod.mk_inj.mp ‹(k, n) = (k', n')›
      rw [bootPassed, if_pos hst]
    · rfl

theorem bootPassOf_spec (r : BootReport) (t : State) (u : UnitKind × Nat) : BootKept t (bootPassOf r t u) ∧
    (∀ i, getIsl (bootPassOf r t u) i = getIsl t i) ∧ (∀ n, getRgn (bootPassOf r t u) n = getRgn t n) := by
  unfold bootPassOf bootPass
  split
  · exact ⟨.refl t, fun _ => rfl, fun _ => rfl⟩
  · split
    · exact ⟨(BootKept.putUnit ..).trans (.logFault ..), fun i => getIsl_logFault .., fun n => getRgn_logFault ..⟩
    · exact ⟨.putUnit .., fun _ => rfl, fun _ => rfl⟩

theorem foldl_bootPassOf (r : BootReport) (l : List (UnitKind × Nat)) (t : State) : BootKept t (l.foldl (bootPassOf r) t) ∧
    (∀ i, getIsl (l.foldl (bootPassOf r) t) i = getIsl t i) ∧ (∀ n, getRgn (l.foldl (bootPassOf r) t) n = getRgn t n) ∧
    (∀ k n, unitSt (l.foldl (bootPassOf r) t) k n = if (k, n) ∈ l then bootPassed r (k, n) (unitSt t k n) else unitSt t k n) := by
  induction l generalizing t with
  | nil => exact ⟨.refl t, fun _ => rfl, fun _ => rfl, fun _ _ => rfl⟩
  | cons u l ih =>
    obtain ⟨hkept, hisl, hrgn⟩ := bootPassOf_spec r t u
    obtain ⟨hkept', hisl', hrgn', hunit'⟩ := ih (bootPassOf r t u)
    rw [List.foldl_cons]
    refine ⟨hkept.trans hkept', fun i => (hisl' i).trans (hisl i), fun n => (hrgn' n).trans (hrgn n), fun k n => ?_⟩
    rw [hunit', unitSt_bootPassOf]
    by_cases hu : (k, n) = u
    · subst hu
      simp [bootPassed_idem]
    · simp [hu]

/-- The units in the order in which boot tests them. -/
def bootOrder : List (UnitKind × Nat) := [0, 1, 2, 3].flatMap (fun n => (.region, n) :: unitsOf n)

/-- The machine behind the self-tests. -/
def bootTested (s : State) (r : BootReport) : State := bootOrder.foldl (bootPassOf r) s

theorem bootTest_eq (s : State) (r : BootReport) : bootTest s r =
    if (List.range 16).any (fun a => isLive (bootTested s r) .array a) then readyNow (bootTested s r)
    else bootFail (bootTested s r) 4 1 0x20 0 := by
  have h : bootTested s r = [0, 1, 2, 3].foldl (fun t n => (unitsOf n).foldl (bootPassOf r) (bootPassOf r t (.region, n))) s := by
    simp only [bootTested, bootOrder, List.foldl_flatMap, List.foldl_cons]
  rw [h]
  rfl

theorem array_mem_bootOrder : ∀ a : Fin 16, (UnitKind.array, a.val) ∈ bootOrder := by decide
theorem region_mem_bootOrder : ∀ n : Fin 4, (UnitKind.region, n.val) ∈ bootOrder ∧ (UnitKind.side, n.val) ∈ bootOrder := by decide

/-! ### The units as calibration leaves them (R314, R363) -/

theorem regionDead_of_locked {r : BootReport} (h : r.noLock = []) (n : Nat) : regionDead r n = false := by
  rw [regionDead, h]
  rfl

/-- Every unit of the fuse map is in test, every other one is ABSENT. -/
theorem unitSt_bootUnits {s : State} {r : BootReport} (h : r.noLock = []) (t : State) (ht : t.units = bootUnits s r) :
    (∀ a, a < 16 → unitSt t .array a = if s.boot.fuse.getLsbD a && regionPresent s s.boot.fuse (a / 4) then .testing else .absent) ∧
    (∀ n, n < 4 → unitSt t .region n = (if regionPresent s s.boot.fuse n then .testing else .absent) ∧
      unitSt t .side n = (if regionPresent s s.boot.fuse n then .testing else .absent)) := by
  have hstate (p : Bool) : (bootUnit p false).st = if p then .testing else .absent := by cases p <;> rfl
  have hlost (i : Nat) : hasIsl r.noLock i = false := by rw [hasIsl, h]; rfl
  refine ⟨fun a ha => ?_, fun n hn => ⟨?_, ?_⟩⟩
  · rw [unitSt, ht]
    refine (congrArg MUnit.st (tget_map_range MUnit.init _ 16 a)).trans ?_
    rw [if_pos ha, regionDead_of_locked h, hlost, ← hstate]
    rfl
  · rw [unitSt, ht]
    refine (congrArg MUnit.st (tget_map_range MUnit.init _ 4 n)).trans ?_
    rw [if_pos hn, regionDead_of_locked h, ← hstate]
  · rw [unitSt, ht]
    refine (congrArg MUnit.st (tget_map_range MUnit.init _ 4 n)).trans ?_
    rw [if_pos hn, regionDead_of_locked h, hlost, ← hstate]
    rfl

/-- Without an array in the fuse map every unit is ABSENT. -/
theorem unitSt_bootUnits_of_none {s : State} {r : BootReport} (h : s.boot.fuse = 0) (t : State) (ht : t.units = bootUnits s r) (k : UnitKind)
    (n : Nat) : unitSt t k n = .absent := by
  have hpresent (m : Nat) : regionPresent s s.boot.fuse m = false := by
    rw [regionPresent, h]
    simp
  have habsent (l : Bool) : (bootUnit false l).st = .absent := rfl
  have hget (m : Nat) (f : Nat → MUnit) (hf : ∀ i, (f i).st = .absent) : (tget MUnit.init ((List.range m).map (fun i => (i, f i))) n).st = .absent := by
    rw [tget_map_range]
    split
    · exact hf n
    · rfl
  rw [unitSt, ht]
  cases k with
  | array => exact hget 16 _ (fun i => by rw [h]; simp [bootUnit])
  | side => exact hget 4 _ (fun i => by rw [hpresent, habsent])
  | region => exact hget 4 _ (fun i => by rw [hpresent, habsent])
  | port => exact hget 16 _ (fun i => by rw [hpresent, habsent])

end Sys2Proof.Machine
end

section
/-!
PROOFS. A cold boot from its start to ready, or to the phase in which it stops (R34, R362 to R364) settled.
-/

namespace Sys2Proof.Machine

/-! ### Boot runs phase by phase -/

/-- The machine as the first phase begins. -/
def bootBegun (s : State) (r : BootReport) : State :=
  { s with time := { s.time with refclk := r.refclkOk }, boot := { s.boot with resetAsserted := false, off := false, phase := 1 } }

theorem coldBoot_of_reset {s : State} {r : BootReport} (h : s.boot.resetAsserted = true) : coldBoot s r = bootRun r 4 (bootBegun s r) := if_pos h

theorem coldBoot_of_over {s : State} {r : BootReport} (h : s.boot.resetAsserted = false)
    (hover : s.boot.ready = true ∨ s.boot.fail = true ∨ 4 < s.boot.phase.toNat) : coldBoot s r = s := by
  refine (if_neg (by rw [h]; exact Bool.false_ne_true)).trans (if_pos ?_)
  rw [Bool.or_eq_true, Bool.or_eq_true, decide_eq_true_eq, or_assoc]
  exact hover

/-- Boot has neither ended nor stopped. -/
structure Booting (s : State) (p : Nat) : Prop where
  ready : s.boot.ready = false
  fail : s.boot.fail = false
  stopped : s.boot.stopped = false
  phase : s.boot.phase.toNat = p

theorem bootRun_go {s : State} {r : BootReport} {p : Nat} (h : Booting s p) (hp : p ≤ r.upto) (n : Nat) :
    bootRun r (n + 1) s = bootRun r n (bootPhase s r) := by
  obtain ⟨hready, hfail, hstopped, rfl⟩ := h
  rw [bootRun, hready, hfail, hstopped, if_neg (by decide), if_neg (by decide), if_neg (Nat.not_lt.mpr hp)]

theorem bootRun_wait {s : State} {r : BootReport} {p : Nat} (h : Booting s p) (hp : r.upto < p) (n : Nat) : bootRun r n s = s := by
  obtain ⟨hready, hfail, hstopped, rfl⟩ := h
  cases n with
  | zero => rfl
  | succ n => rw [bootRun, hready, hfail, hstopped, if_neg (by decide), if_neg (by decide), if_pos hp]

theorem bootRun_of_failed {s : State} {r : BootReport} (h : s.boot.fail = true) (n : Nat) : bootRun r n s = s := by
  cases n with
  | zero => rfl
  | succ n => rw [bootRun, h, Bool.or_true, if_pos rfl]

/-- A phase that does not end stands where it is. -/
theorem bootRun_of_stuck {s : State} {r : BootReport} {p : Nat} (h : Booting s p) (hstuck : bootPhase s r = s) (n : Nat) : bootRun r n s = s := by
  induction n with
  | zero => rfl
  | succ n ih =>
    rcases Nat.lt_or_ge r.upto p with hp | hp
    · exact bootRun_wait h hp _
    · rw [bootRun_go h hp, hstuck, ih]

section
variable {s : State} {r : BootReport}

theorem bootPhase_otp (h : Booting s 1) : bootPhase s r = bootOtp s r := by
  rw [bootPhase, h.phase]
  rfl
theorem bootPhase_cal (h : Booting s 2) : bootPhase s r = bootCal s r := by
  rw [bootPhase, h.phase]
  rfl
theorem bootPhase_pads (h : Booting s 3) : bootPhase s r = bootPads s r := by
  rw [bootPhase, h.phase]
  rfl
theorem bootPhase_test (h : Booting s 4) : bootPhase s r = bootTest s r := by
  rw [bootPhase, h.phase]
  rfl

end

theorem booting_begun {s : State} (r : BootReport) (hready : s.boot.ready = false) (hfail : s.boot.fail = false) (hstopped : s.boot.stopped = false) :
    Booting (bootBegun s r) 1 := ⟨hready, hfail, hstopped, rfl⟩

/-! ### The phases of a boot that goes on -/

/-- The arrays that the OTP map and the configuration leave (R4, R7). -/
def fuseMap (s : State) : BitVec 16 := s.cfg.otp &&& BitVec.ofNat 16 (2 ^ (4 * s.cfg.regions) - 1)

/-- The machine behind phase 1. -/
def otpRead (s : State) : State := { s with boot := { s.boot with fuse := fuseMap s, fuseData := s.cfg.otpData, phase := 2 } }

/-- The machine as the islands lock. -/
def calibrating (s : State) (r : BootReport) : State := { s with time := { s.time with calibrated := true }, units := bootUnits s r }

/-- The machine without a byte in a scratchpad. -/
def padsZeroed (s : State) : State := { s with mems := { s.mems with spad := [] } }

theorem nextPhase_phase (s : State) : (nextPhase s).boot.phase = s.boot.phase + 1 := rfl

theorem phase_next {b : BitVec 3} {p : Nat} (h : b.toNat = p) (hp : p < 7) : (b + 1).toNat = p + 1 := by
  rw [BitVec.toNat_add]
  simp only [BitVec.ofNat_eq_ofNat, BitVec.toNat_ofNat]
  omega

theorem bootOtp_of_ok {s : State} {r : BootReport} (hotp : r.otpOk = true) (h : Booting s 1) : bootOtp s r = otpRead s ∧ Booting (otpRead s) 2 := by
  have hphase : s.boot.phase + 1 = 2 := BitVec.eq_of_toNat_eq (phase_next h.phase (by decide))
  refine ⟨?_, h.ready, h.fail, h.stopped, rfl⟩
  rw [bootOtp, hotp, if_neg (by decide), nextPhase, otpRead, ← hphase]
  rfl

theorem bootCal_of_locked {s : State} {r : BootReport} (href : r.refclkOk = true) (hlock : r.noLock = []) (h : Booting s 2) :
    bootCal s r = nextPhase (bootIslands (calibrating s r) r) ∧ Booting (nextPhase (bootIslands (calibrating s r) r)) 3 := by
  have hlost (i : Nat) : hasIsl r.noLock i = false := by rw [hasIsl, hlock]; rfl
  have hboot := (bootIslands_spec (s := calibrating s r) hlock).1.boot
  refine ⟨?_, ?_, ?_, ?_, ?_⟩
  · simp only [bootCal, href, hlost]
    rfl
  · exact (congrArg Boot.ready hboot).trans h.ready
  · exact (congrArg Boot.fail hboot).trans h.fail
  · exact (congrArg Boot.stopped hboot).trans h.stopped
  · rw [nextPhase_phase, hboot]
    exact phase_next h.phase (by decide)

/-- The march of the banks, as phase 3 runs it. -/
def marched (s : State) (r : BootReport) : State := (List.range s.cfg.regions).foldl (marchBanks r) (padsZeroed s)

theorem bootPads_of {s : State} {r : BootReport} (hkept : BootKept (padsZeroed s) (marched s r)) (h : Booting s 3) :
    bootPads s r = nextPhase (marched s r) ∧ Booting (nextPhase (marched s r)) 4 := by
  have hboot : (marched s r).boot = s.boot := hkept.boot
  refine ⟨rfl, ?_, ?_, ?_, ?_⟩
  · exact (congrArg Boot.ready hboot).trans h.ready
  · exact (congrArg Boot.fail hboot).trans h.fail
  · exact (congrArg Boot.stopped hboot).trans h.stopped
  · rw [nextPhase_phase, hboot]
    exact phase_next h.phase (by decide)

/-! ### Boot up to phase 4 -/

/-- The machines as phases 3 and 4 begin, where every island locks. -/
def bootAt3 (s : State) (r : BootReport) : State := nextPhase (bootIslands (calibrating (otpRead (bootBegun s r)) r) r)
def bootAt4 (s : State) (r : BootReport) : State := nextPhase (marched (bootAt3 s r) r)

/-- A boot whose OTP array and clocks are good. -/
structure GoodClocks (s : State) (r : BootReport) : Prop where
  ready : s.boot.ready = false
  fail : s.boot.fail = false
  stopped : s.boot.stopped = false
  otp : r.otpOk = true
  ref : r.refclkOk = true
  lock : r.noLock = []

theorem GoodClocks.run {s : State} {r : BootReport} (h : GoodClocks s r)
    (hkept : BootKept (padsZeroed (bootAt3 s r)) (marched (bootAt3 s r) r)) :
    Booting (bootBegun s r) 1 ∧ Booting (otpRead (bootBegun s r)) 2 ∧ Booting (bootAt3 s r) 3 ∧ Booting (bootAt4 s r) 4 ∧
      bootPhase (bootBegun s r) r = otpRead (bootBegun s r) ∧ bootPhase (otpRead (bootBegun s r)) r = bootAt3 s r ∧
      bootPhase (bootAt3 s r) r = bootAt4 s r := by
  have h1 := booting_begun r h.ready h.fail h.stopped
  obtain ⟨he1, h2⟩ := bootOtp_of_ok h.otp h1
  obtain ⟨he2, h3⟩ := bootCal_of_locked h.ref h.lock h2
  obtain ⟨he3, h4⟩ := bootPads_of hkept h3
  exact ⟨h1, h2, h3, h4, (bootPhase_otp h1).trans he1, (bootPhase_cal h2).trans he2, (bootPhase_pads h3).trans he3⟩

/-- The whole boot: phase 4 ends it. -/
theorem coldBoot_to_test {s : State} {r : BootReport} (hreset : s.boot.resetAsserted = true) (h : GoodClocks s r)
    (hkept : BootKept (padsZeroed (bootAt3 s r)) (marched (bootAt3 s r) r)) (hupto : 4 ≤ r.upto) :
    coldBoot s r = bootTest (bootAt4 s r) r := by
  obtain ⟨h1, h2, h3, h4, he1, he2, he3⟩ := h.run hkept
  rw [coldBoot_of_reset hreset, bootRun_go h1 (by omega), he1, bootRun_go h2 (by omega), he2, bootRun_go h3 (by omega), he3,
    bootRun_go h4 hupto, bootPhase_test h4]
  rfl

/-- A boot whose report ends earlier stands behind the phase it names. -/
theorem coldBoot_early {s : State} {r : BootReport} (hreset : s.boot.resetAsserted = true) (h : GoodClocks s r)
    (hkept : BootKept (padsZeroed (bootAt3 s r)) (marched (bootAt3 s r) r)) (hupto : r.upto ≤ 3) :
    Booting (coldBoot s r) (r.upto + 1) ∧ ∃ u ∈ [bootBegun s r, otpRead (bootBegun s r), bootAt3 s r, bootAt4 s r], coldBoot s r = u := by
  obtain ⟨h1, h2, h3, h4, he1, he2, he3⟩ := h.run hkept
  rw [coldBoot_of_reset hreset]
  obtain h0 | h0 | h0 | h0 : r.upto = 0 ∨ r.upto = 1 ∨ r.upto = 2 ∨ r.upto = 3 := by omega
  · rw [bootRun_wait h1 (by omega), h0]
    exact ⟨h1, _, List.mem_cons_self, rfl⟩
  · rw [bootRun_go h1 (by omega), he1, bootRun_wait h2 (by omega), h0]
    exact ⟨h2, _, by simp, rfl⟩
  · rw [bootRun_go h1 (by omega), he1, bootRun_go h2 (by omega), he2, bootRun_wait h3 (by omega), h0]
    exact ⟨h3, _, by simp, rfl⟩
  · rw [bootRun_go h1 (by omega), he1, bootRun_go h2 (by omega), he2, bootRun_go h3 (by omega), he3, bootRun_wait h4 (by omega), h0]
    exact ⟨h4, _, by simp, rfl⟩

theorem bootAt3_kept {s : State} {r : BootReport} (h : GoodClocks s r) :
    BootKept (nextPhase (calibrating (otpRead (bootBegun s r)) r)) (bootAt3 s r) ∧
      (bootAt3 s r).units = bootUnits (otpRead (bootBegun s r)) r ∧ (∀ i ∈ r.oneLock, (getIsl (bootAt3 s r) i.val).standby = true) := by
  obtain ⟨hkept, hunits, hisl⟩ := bootIslands_spec (s := calibrating (otpRead (bootBegun s r)) r) h.lock
  refine ⟨⟨?_, hkept.spad⟩, hunits, hisl⟩
  rw [bootAt3, nextPhase, hkept.rest]
  rfl

/-- As phase 4 begins: what boot has set, and that it changed nothing else but units, islands, regions and the log. -/
structure AtTest (s t : State) (r : BootReport) : Prop where
  boot : t.boot = { s.boot with resetAsserted := false, off := false, fuse := fuseMap s, fuseData := s.cfg.otpData, phase := 4 }
  time : t.time = { s.time with refclk := r.refclkOk, calibrated := true }
  regs : t.regs = s.regs
  mnt : t.mnt = s.mnt
  ctxs : t.ctxs = s.ctxs
  pwr : t.pwr = s.pwr
  spad : t.mems.spad = []

theorem BootKept.atTest {s t u : State} {r : BootReport} (h : AtTest s t r) (k : BootKept t u) : AtTest s u r :=
  ⟨k.boot.trans h.boot, k.time.trans h.time, k.regs.trans h.regs, k.mnt.trans h.mnt, k.ctxs.trans h.ctxs, k.pwr.trans h.pwr, k.spad.trans h.spad⟩

theorem bootAt4_spec {s : State} {r : BootReport} (h : GoodClocks s r)
    (hkept : BootKept (padsZeroed (bootAt3 s r)) (marched (bootAt3 s r) r)) : AtTest s (bootAt4 s r) r := by
  obtain ⟨h3, -⟩ := bootAt3_kept h
  refine ⟨?_, hkept.time.trans h3.time, hkept.regs.trans h3.regs, hkept.mnt.trans h3.mnt, hkept.ctxs.trans h3.ctxs, hkept.pwr.trans h3.pwr,
    hkept.spad⟩
  rw [bootAt4, nextPhase, show (marched (bootAt3 s r) r).boot = _ from hkept.boot.trans h3.boot]
  rfl

/-- Ready, with phase 5. -/
def readied (u : State) : State := { u with boot := { u.boot with ready := true, phase := 5 } }

theorem unitSt_readied (u : State) (k : UnitKind) (n : Nat) : unitSt (readied u) k n = unitSt u k n := rfl
theorem getRgn_readied (u : State) (n : Nat) : getRgn (readied u) n = getRgn u n := rfl
theorem getIsl_readied (u : State) (i : Nat) : getIsl (readied u) i = getIsl u i := rfl

theorem AtTest.readied {s u : State} {r : BootReport} (h : AtTest s u r) (hfail : s.boot.fail = false) : (readied u).boot.ready = true ∧
    (readied u).boot.phase = 5 ∧ (readied u).boot.fail = false ∧ (readied u).boot.resetAsserted = false ∧ (readied u).boot.fuse = fuseMap s ∧
    (readied u).boot.fuseData = s.cfg.otpData ∧ (readied u).time.calibrated = true ∧ (readied u).time.t = s.time.t ∧
    (readied u).mems.spad = [] ∧ (readied u).regs = s.regs ∧ (readied u).mnt = s.mnt ∧ (readied u).ctxs = s.ctxs :=
  ⟨rfl, rfl, (congrArg Boot.fail h.boot).trans hfail, congrArg Boot.resetAsserted h.boot, congrArg Boot.fuse h.boot, congrArg Boot.fuseData h.boot,
    congrArg Time.calibrated h.time, (show u.time.t = s.time.t by rw [h.time]), h.spad, h.regs, h.mnt, h.ctxs⟩

/-! ### Boots that stop (R34, R363) -/

theorem coldBoot_without_otp {s : State} {r : BootReport} (hreset : s.boot.resetAsserted = true) (hready : s.boot.ready = false)
    (hfail : s.boot.fail = false) (hstopped : s.boot.stopped = false) (hotp : r.otpOk = false) (hupto : 1 ≤ r.upto) :
    coldBoot s r = bootFail (bootBegun s r) 1 12 0x12 57 := by
  have h1 := booting_begun r hready hfail hstopped
  have hphase : bootOtp (bootBegun s r) r = bootFail (bootBegun s r) 1 12 0x12 57 := by
    rw [bootOtp, hotp]
    rfl
  rw [coldBoot_of_reset hreset, bootRun_go h1 hupto, bootPhase_otp h1, hphase, bootRun_of_failed rfl]

theorem coldBoot_without_refclk {s : State} {r : BootReport} (hreset : s.boot.resetAsserted = true) (hready : s.boot.ready = false)
    (hfail : s.boot.fail = false) (hstopped : s.boot.stopped = false) (hotp : r.otpOk = true) (href : r.refclkOk = false) (hupto : 1 ≤ r.upto) :
    coldBoot s r = otpRead (bootBegun s r) := by
  have h1 := booting_begun r hready hfail hstopped
  obtain ⟨he1, h2⟩ := bootOtp_of_ok hotp h1
  have hstuck : bootPhase (otpRead (bootBegun s r)) r = otpRead (bootBegun s r) := by
    rw [bootPhase_cal h2, bootCal, href]
    rfl
  rw [coldBoot_of_reset hreset, bootRun_go h1 hupto, bootPhase_otp h1, he1, bootRun_of_stuck h2 hstuck]

theorem coldBoot_without_timebase {s : State} {r : BootReport} (hreset : s.boot.resetAsserted = true) (hready : s.boot.ready = false)
    (hfail : s.boot.fail = false) (hstopped : s.boot.stopped = false) (hotp : r.otpOk = true) (href : r.refclkOk = true)
    (hlost : (⟨59, by decide⟩ : IslId) ∈ r.noLock) (hupto : 2 ≤ r.upto) :
    coldBoot s r = bootFail (otpRead (bootBegun s r)) 2 12 0x12 59 := by
  have h1 := booting_begun r hready hfail hstopped
  obtain ⟨he1, h2⟩ := bootOtp_of_ok hotp h1
  have hisl : hasIsl r.noLock 59 = true := List.any_eq_true.mpr ⟨_, hlost, rfl⟩
  have hcal : bootCal (otpRead (bootBegun s r)) r = bootFail (otpRead (bootBegun s r)) 2 12 0x12 59 := by
    rw [bootCal, href, hisl]
    rfl
  rw [coldBoot_of_reset hreset, bootRun_go h1 (by omega), bootPhase_otp h1, he1, bootRun_go h2 hupto, bootPhase_cal h2, hcal,
    bootRun_of_failed rfl]

/-- A boot that fails is a board-level fault whose phase stands. -/
theorem boardDown_bootFail {s u : State} (hmnt : u.mnt = s.mnt) (hflog : u.flog = s.flog) (phase : Nat) (kind : BitVec 4) (source : Byte) (d : Nat) :
    BoardDown s (bootFail u phase kind source d) source d where
  stopped := rfl
  main := (boardDown_boardFault hmnt hflog kind source 0 d).main
  token := (boardDown_boardFault hmnt hflog kind source 0 d).token
  entry := (boardDown_boardFault hmnt hflog kind source 0 d).entry
  written := (boardDown_boardFault hmnt hflog kind source 0 d).written

theorem bootFail_spec (s : State) (phase : Nat) (kind : BitVec 4) (source : Byte) (d : Nat) :
    (bootFail s phase kind source d).boot = { s.boot with stopped := true, phase := BitVec.ofNat 3 phase, fail := true } ∧
    (bootFail s phase kind source d).units = s.units := by
  refine ⟨?_, ?_⟩
  · rw [bootFail, boardFault_rest]
  · rw [bootFail, boardFault_rest]

/-! ### The units as boot ends -/

theorem regionPresent_iff (s : State) (n : Nat) : regionPresent (otpRead s) (otpRead s).boot.fuse n = true ↔
    n < s.cfg.regions ∧ ∃ j, j < 4 ∧ (fuseMap s).getLsbD (4 * n + j) = true := by
  show (decide (n < s.cfg.regions) && [0, 1, 2, 3].any (fun j => (fuseMap s).getLsbD (4 * n + j))) = true ↔ _
  rw [Bool.and_eq_true, decide_eq_true_eq, List.any_eq_true]
  refine and_congr_right fun _ => exists_congr fun j => and_congr_left fun _ => ?_
  simp only [List.mem_cons, List.not_mem_nil, or_false]
  omega

/-- The states of the units that phase 4 tests. -/
theorem unitSt_bootTested {s t : State} {r : BootReport} (hlock : r.noLock = []) (ht : t.units = bootUnits (otpRead s) r) :
    (∀ a : ArrId, unitSt (bootTested t r) .array a.val =
      if (fuseMap s).getLsbD a.val = true ∧ a.val / 4 < s.cfg.regions then (if a ∈ r.failArrays then .fenced else .live) else .absent) ∧
    (∀ n : RgnId, let here := n.val < s.cfg.regions ∧ ∃ j, j < 4 ∧ (fuseMap s).getLsbD (4 * n.val + j) = true
      (here → unitSt (bootTested t r) .region n.val = .live ∧ unitSt (bootTested t r) .side n.val = .live ∧ unitSt t .region n.val = .testing) ∧
      (¬here → unitSt (bootTested t r) .region n.val = .absent ∧ unitSt (bootTested t r) .side n.val = .absent)) := by
  obtain ⟨harr, hrgn⟩ := unitSt_bootUnits hlock t ht
  obtain ⟨-, -, -, hpass⟩ := foldl_bootPassOf r bootOrder t
  have hother (k : UnitKind) (n : Nat) (hk : k ≠ .array) : bootPassed r (k, n) .testing = .live := by
    rw [bootPassed, if_neg (fun h => h rfl), if_neg (fun h => hk h.1)]
  have habsent (u : UnitKind × Nat) : bootPassed r u .absent = .absent := if_pos UState.noConfusion
  refine ⟨fun a => ?_, fun n => ?_⟩
  · have hfail : (∃ x ∈ r.failArrays, x.val = a.val) ↔ a ∈ r.failArrays :=
      ⟨fun ⟨x, hx, he⟩ => Fin.ext he ▸ hx, fun h => ⟨a, h, rfl⟩⟩
    have hcond : ((otpRead s).boot.fuse.getLsbD a.val && regionPresent (otpRead s) (otpRead s).boot.fuse (a.val / 4)) = true ↔
        (fuseMap s).getLsbD a.val = true ∧ a.val / 4 < s.cfg.regions := by
      rw [Bool.and_eq_true, regionPresent_iff]
      refine and_congr_right fun hbit => ⟨And.left, fun h => ⟨h, a.val % 4, Nat.mod_lt _ (by decide), ?_⟩⟩
      rw [Nat.div_add_mod]
      exact hbit
    rw [bootTested, hpass, if_pos (array_mem_bootOrder a), harr a.val a.isLt]
    by_cases hc : (fuseMap s).getLsbD a.val = true ∧ a.val / 4 < s.cfg.regions
    · rw [if_pos (hcond.mpr hc), if_pos hc, bootPassed, if_neg (fun h => h rfl)]
      exact if_congr ((and_iff_right rfl).trans hfail) rfl rfl
    · rw [if_neg (fun h => hc (hcond.mp h)), if_neg hc, habsent]
  · obtain ⟨hr, hs⟩ := hrgn n.val n.isLt
    obtain ⟨hmr, hms⟩ := region_mem_bootOrder n
    refine ⟨fun hhere => ?_, fun hno => ?_⟩
    · rw [if_pos ((regionPresent_iff s n.val).mpr hhere)] at hr hs
      rw [bootTested, hpass, hpass, if_pos hmr, if_pos hms, hr, hs]
      exact ⟨hother _ _ (by decide), hother _ _ (by decide), rfl⟩
    · rw [if_neg (fun h => hno ((regionPresent_iff s n.val).mp h))] at hr hs
      rw [bootTested, hpass, hpass, if_pos hmr, if_pos hms, hr, hs]
      exact ⟨habsent _, habsent _⟩

end Sys2Proof.Machine

open Sys2Proof Sys2Proof.Machine

/-- Settles O13: `bootAt4` is the machine as phase 4 begins, which `bootTest` brings to ready where an array is LIVE; each boot that stops ends
in its phase's `bootFail`. -/
theorem coldBootReachesReadyOrStops : Obligations.ColdBootReachesReadyOrStops := by
  refine ⟨fun s r hreset hready hfail hstopped hwarm hnotify hside htarget hotp href hlock hfew fuse hfuse hlive => ?_, fun s r =>
    ⟨fun hreset hover => congrArg Host.Outcome.next (coldBoot_of_over hreset hover), fun hreset hready hfail hstopped =>
      ⟨fun hotp hupto => ?_, fun hotp href hupto => ?_, fun hotp href hlost hupto => ?_, fun hotp href hlock hnone hupto => ?_⟩⟩⟩
  · obtain rfl : fuse = fuseMap s := hfuse
    have h : GoodClocks s r := ⟨hready, hfail, hstopped, hotp, href, hlock⟩
    have hmarch := foldl_marchBanks hfew (List.range (bootAt3 s r).cfg.regions) (padsZeroed (bootAt3 s r))
    obtain ⟨h3, hunits3, hstandby⟩ := bootAt3_kept h
    refine ⟨fun hupto => ?_, fun hupto => ?_⟩
    · obtain ⟨hboot, u, hu, heq⟩ := coldBoot_early hreset h hmarch.kept hupto
      have hlevels : u.boot.resetAsserted = false ∧ u.boot.off = false := by
        simp only [List.mem_cons, List.not_mem_nil, or_false] at hu
        rcases hu with rfl | rfl | rfl | rfl
        · exact ⟨rfl, rfl⟩
        · exact ⟨rfl, rfl⟩
        · rw [h3.boot]
          exact ⟨rfl, rfl⟩
        · rw [(bootAt4_spec h hmarch.kept).boot]
          exact ⟨rfl, rfl⟩
      refine ⟨coldBoot s r, rfl, hboot.ready, hboot.phase, ?_⟩
      rw [sidebandAnswers, hboot.phase, heq, hlevels.1, hlevels.2]
      exact decide_eq_decide.mpr (by omega)
    · have hat := bootAt4_spec h hmarch.kept
      have hunits4 : (bootAt4 s r).units = bootUnits (otpRead (bootBegun s r)) r := hmarch.units.trans hunits3
      obtain ⟨harr, hrgn⟩ := unitSt_bootTested hlock hunits4
      obtain ⟨hpassed, hisl, hregion, -⟩ := foldl_bootPassOf r bootOrder (bootAt4 s r)
      have hend : AtTest s (bootTested (bootAt4 s r) r) r := hpassed.atTest hat
      have hany : (List.range 16).any (fun a => isLive (bootTested (bootAt4 s r) r) .array a) = true := by
        obtain ⟨a, hbit, hconf, hok⟩ := hlive
        refine List.any_eq_true.mpr ⟨a.val, List.mem_range.mpr a.isLt, isLive_of_eq ?_⟩
        rw [harr a, if_pos ⟨hbit, hconf⟩, if_neg hok]
      have hdone : coldBoot s r = readied (bootTested (bootAt4 s r) r) := by
        rw [coldBoot_to_test hreset h hmarch.kept hupto, bootTest_eq, if_pos hany, readyNow_of_nothing_held, readied]
        · rw [hend.boot]
          exact hwarm
        · rw [hend.boot]
          exact hnotify
        · rw [hend.boot]
          exact hside
        · rw [hend.pwr]
          exact htarget
      obtain ⟨h1, h2, h3', h4, h5, h6, h7, h8, h9, h10, h11, h12⟩ := hend.readied hfail
      refine ⟨readied (bootTested (bootAt4 s r) r), congrArg Host.Outcome.next hdone, h1, h2, h3', h4, h5, h6, h7, h8, h9, h10, h11, h12,
        fun a => ?_, fun n => ⟨fun hp => ?_, fun hno => ?_⟩, fun i hi => ?_⟩
      · rw [unitSt_readied]
        exact harr a
      · obtain ⟨hl, hs, htest⟩ := (hrgn n).1 hp
        rw [unitSt_readied, unitSt_readied, getRgn_readied]
        refine ⟨hl, hs, ?_⟩
        rw [bootTested, hregion]
        refine hmarch.spares n.val (List.mem_range.mpr ?_) ?_
        · rw [h3.cfg]
          exact hp.1
        · rw [unitSt, hmarch.units.symm]
          exact htest
      · rw [unitSt_readied, unitSt_readied]
        exact (hrgn n).2 hno
      · rw [getIsl_readied, bootTested, hisl]
        exact (congrArg Island.standby (hmarch.isl i.val)).trans (hstandby i hi)
  · have hboot := (bootFail_spec (bootBegun s r) 1 12 0x12 57).1
    refine ⟨_, congrArg Host.Outcome.next (coldBoot_without_otp hreset hready hfail hstopped hotp hupto), ?_, ?_, ?_,
      boardDown_bootFail (by rfl) (by rfl) 1 12 0x12 57⟩
    · rw [hboot]
      exact hready
    · rw [hboot]
      rfl
    · rw [hboot]
  · refine ⟨_, congrArg Host.Outcome.next (coldBoot_without_refclk hreset hready hfail hstopped hotp href hupto), hready, rfl, rfl, rfl⟩
  · have hboot := (bootFail_spec (otpRead (bootBegun s r)) 2 12 0x12 59).1
    refine ⟨_, congrArg Host.Outcome.next (coldBoot_without_timebase hreset hready hfail hstopped hotp href hlost hupto), ?_, ?_, ?_,
      boardDown_bootFail (by rfl) (by rfl) 2 12 0x12 59⟩
    · rw [hboot]
      exact hready
    · rw [hboot]
      rfl
    · rw [hboot]
  · have h : GoodClocks s r := ⟨hready, hfail, hstopped, hotp, href, hlock⟩
    obtain ⟨h3, hunits3, -⟩ := bootAt3_kept h
    have hfuse : fuseMap (bootBegun s r) = 0 := by
      show s.cfg.otp &&& _ = 0
      rw [hnone]
      exact BitVec.zero_and
    have hmarch : marched (bootAt3 s r) r = padsZeroed (bootAt3 s r) := foldl_marchBanks_of_none (fun n hst => by
      have habs := unitSt_bootUnits_of_none (s := otpRead (bootBegun s r)) hfuse (padsZeroed (bootAt3 s r)) hunits3 .region n
      exact absurd (habs.symm.trans hst) (by decide)) _
    have hkept : BootKept (padsZeroed (bootAt3 s r)) (marched (bootAt3 s r) r) := by rw [hmarch]; exact .refl _
    have hunits4 : (bootAt4 s r).units = bootUnits (otpRead (bootBegun s r)) r := (congrArg State.units hmarch).trans hunits3
    obtain ⟨hpassed, -, -, hpass⟩ := foldl_bootPassOf r bootOrder (bootAt4 s r)
    have habsent (k : UnitKind) (n : Nat) : unitSt (bootTested (bootAt4 s r) r) k n = .absent := by
      rw [bootTested, hpass, unitSt_bootUnits_of_none (s := otpRead (bootBegun s r)) hfuse (bootAt4 s r) hunits4]
      split
      · exact if_pos UState.noConfusion
      · rfl
    have hnolive : ¬(List.range 16).any (fun a => isLive (bootTested (bootAt4 s r) r) .array a) = true := by
      rw [List.any_eq_true]
      rintro ⟨a, -, ha⟩
      rw [isLive, habsent] at ha
      exact Bool.false_ne_true ha
    have hend : AtTest s (bootTested (bootAt4 s r) r) r := hpassed.atTest (bootAt4_spec h hkept)
    have hdone : coldBoot s r = bootFail (bootTested (bootAt4 s r) r) 4 1 0x20 0 := by
      rw [coldBoot_to_test hreset h hkept hupto, bootTest_eq, if_neg hnolive]
    obtain ⟨hboot, hunits⟩ := bootFail_spec (bootTested (bootAt4 s r) r) 4 1 0x20 0
    refine ⟨_, congrArg Host.Outcome.next hdone, ?_, ?_, ?_, ?_, fun k n => ?_⟩
    · rw [hboot, hend.boot]
      exact hready
    · rw [hboot]
      rfl
    · rw [hboot]
    · rw [hboot]
    · rw [unitSt, hunits]
      exact habsent k n

end

section
/-!
PROOFS. A WAITV's timeout (R252, R270, R273) and CTXSAVE (R245) where a context's speculation has been confirmed.

Speculation that a WAITV's comparison has confirmed is no longer speculative: its buffer is the bound sub-tile's (R272), and what squashes
speculation (R273) leaves it. Both statements name every buffer of the context, a confirmed one too.
-/

namespace Sys2Proof.Machine

/-- A GEMM admitted at ring index 0, whose sub-tile was confirmed behind an earlier WAITV. -/
def confirmedGemm : Adm := bareAdm 0 [0x01, 0, 0, 0, 0, 0, 0, 0]

/-- The buffer of its sub-tile. -/
def confirmedBuf : SpecBuf :=
  { sub := subAt State.reset 0 confirmedGemm (jobOf confirmedGemm 0) 0 false 1
    passes := 0, pairs := [], gens := [], shape := none, flags := 0, confirmed := true, limit := 1, conf := 0 }

/-- An active WAITV of memory address 0x5000 at ring index 1 with a timeout of 5 us. -/
def lateWait : Adm := { bareAdm 1 [0x23, 0x5000, 9, 5 <<< 32, 0, 0, 0, 0] with active := some 0 }

/-- A ready engine whose array 0 holds the confirmed buffer, with admitted descriptors of context 0. -/
def confirmedState (now : Nat) (ds : List Adm) : State :=
  { State.reset with
    boot := { State.reset.boot with resetAsserted := false, ready := true, phase := 5 }
    time := { State.reset.time with t := now }
    hp := [(0, { HostPort.init with up := true })]
    ctxs := [(0, { Context.init with st := 1, admitted := ds })]
    arrs := [(0, { ArrayS.init with spec := some confirmedBuf })] }

/-- The WAITV is active and its 5 us are over. -/
theorem confirmedState_expired : running (confirmedState 5000 [confirmedGemm, lateWait]) = true ∧
    activeWait (getCtx (confirmedState 5000 [confirmedGemm, lateWait]) 0) = some lateWait ∧ wvTimeout lateWait.desc = 5 := by
  decide +kernel

/-- The timeout leaves the confirmed buffer where it is. -/
theorem spec_waitTimeout_confirmedState :
    (getArr (waitTimeout (confirmedState 5000 [confirmedGemm, lateWait]) 0 lateWait) 0).spec = some confirmedBuf := by
  decide +kernel

/-- An active WAITV whose timeout has elapsed times out. -/
theorem exec_waitvTimeout_of_expired {s : State} {c : CtxId} {d : Adm} (hrun : running s = true) (hactive : activeWait (getCtx s c.val) = some d)
    (hover : waitExpired s d = true) : exec (.waitvTimeout c) s = .next (waitTimeout s c.val d) := by
  show Host.Outcome.next (match activeWait (getCtx s c.val) with
    | none => s
    | some d => if running s && waitExpired s d then waitTimeout s c.val d else s) = _
  simp only [hactive, hrun, hover, Bool.and_self, if_true]

/-! ### CTXSAVE -/

/-- A CTXSAVE admitted at ring index 0. -/
def firstSave : Adm := bareAdm 0 [0x29, 0, 0, 0, 0, 0, 0, 0]

/-- Its RNG slots lie at 0, its save area at 0x1000. -/
def savingEntry : List W64 := (List.replicate 32 0).set 17 0x1000

def savingState : State :=
  { confirmedState 0 [] with ctxs := [(0, { Context.init with ent := savingEntry, st := 1, admitted := [firstSave] })] }

theorem savingState_saves : findAdm (getCtx savingState 0) 0 = some firstSave ∧ dOpcode firstSave.desc = 0x29 ∧
    dispatchable savingState 0 firstSave = true ∧ unstarted savingState 0 firstSave = true ∧ specPends savingState 0 firstSave = false ∧
    earlier (getCtx savingState 0) 0 = [] ∧ (hostPortFor savingState 0).isSome = true ∧ saveFault savingState 0 = none ∧
    ceRngBase savingEntry + 128 ≤ ceSaveBase savingEntry := by
  decide +kernel

/-- What a context's speculation loses in a squash is what is not confirmed. -/
theorem squashCtx_savingState : squashCtx savingState 0 (fun _ => true) = savingState := by
  decide +kernel

theorem hostIssue_arrs (s : State) (c : Nat) (q : PortReq) : (hostIssue s c q).arrs = s.arrs := by rw [hostIssue_rest]

theorem foldl_hostWriteFor_arrs (c : Nat) (o : Owner) (l : List (Nat × List Byte)) (s : State) :
    (l.foldl (fun t p => hostWriteFor t c o p.1 p.2) s).arrs = s.arrs := by
  induction l generalizing s with
  | nil => rfl
  | cons p l ih =>
    rw [List.foldl_cons, ih]
    exact ((Wrote.chargeWr (P := fun _ => True) _ c p.2.length).trans (.refl _ _)).arrs.trans
      ((wrote_hostPut s c o p.1 p.2).arrs)

/-- CTXSAVE's writes and its completion: the slots' pieces `l`, the save area's pieces `m`. -/
def writtenBy (s : State) (c : Nat) (d : Adm) (l m : List (Nat × List Byte)) : State :=
  finish (freeNext (m.foldl (fun t p => hostWriteFor t c (.desc c d.ring) p.1 p.2)
    (l.foldl (fun t p => hostWriteFor t c (.desc c d.ring) p.1 p.2) s))).2 c d (plainResult .ok)

/-- They change no array. -/
theorem writtenBy_arrs (s : State) (c : Nat) (d : Adm) (l m : List (Nat × List Byte)) : (writtenBy s c d l m).arrs = s.arrs :=
  (foldl_hostWriteFor_arrs c _ m _).trans (foldl_hostWriteFor_arrs c _ l s)

/-- CTXSAVE behind its squash, by the page that is missing. -/
def savedOn (s : State) (c : Nat) (d : Adm) : Option Nat → State
  | some a => finish s c d { plainResult .xlateFault with result := BitVec.ofNat 64 a }
  | none => writtenBy s c d (linePieces 2 (ceRngBase (getCtx s c).ent) (slotBytes (getCtx s c)))
      (linePieces 65 (ceSaveBase (getCtx s c).ent) (saveArea s c))

theorem ctxsaveOp_eq (s : State) (c : Nat) (d : Adm) :
    ctxsaveOp s c d = savedOn (squashCtx s c (fun _ => true)) c d (saveFault (squashCtx s c (fun _ => true)) c) := by
  delta ctxsaveOp
  dsimp only
  generalize saveFault _ _ = page
  cases page with
  | some a => rfl
  | none => rfl

/-- It changes no array. -/
theorem savedOn_arrs (s : State) (c : Nat) (d : Adm) (page : Option Nat) : (savedOn s c d page).arrs = s.arrs := by
  cases page with
  | some a => rfl
  | none => exact writtenBy_arrs ..

end Sys2Proof.Machine

open Sys2Proof Sys2Proof.Machine

/-- Refutes O50: in `confirmedState` a GEMM before the WAITV runs on its confirmed buffer (R272), which the WAITV's timeout does not squash. -/
theorem not_waitsReadPollAndTimeOut : ¬ Obligations.WaitsReadPollAndTimeOut := by
  unfold Obligations.WaitsReadPollAndTimeOut
  rintro ⟨-, -, htimeout⟩
  obtain ⟨hrun, hactive, hlimit⟩ := confirmedState_expired
  have hover : waitExpired (confirmedState 5000 [confirmedGemm, lateWait]) lateWait = true := by
    rw [waitExpired, hlimit]
    rfl
  obtain ⟨-, hend⟩ := htimeout (confirmedState 5000 [confirmedGemm, lateWait]) 0 lateWait 0 hrun hactive rfl
  obtain ⟨t, hexec, -, -, -, -, -, hspec⟩ := hend (by rw [hlimit]; decide) (by rw [hlimit]; exact Nat.le_refl 5000)
  obtain rfl := Host.Outcome.next.inj ((exec_waitvTimeout_of_expired (c := 0) hrun hactive hover).symm.trans hexec)
  exact hspec 0 (by decide) confirmedBuf spec_waitTimeout_confirmedState rfl

/-- Refutes O52: in `savingState` the context has a confirmed buffer on array 0, which CTXSAVE's squash leaves (R273). -/
theorem not_controlDescriptorsComplete : ¬ Obligations.ControlDescriptorsComplete := by
  unfold Obligations.ControlDescriptorsComplete
  intro h
  obtain ⟨hfound, hop, hfree, hfresh, hclear, halone, hport, hfault, hbase⟩ := savingState_saves
  obtain ⟨-, -, hsave, -⟩ := h savingState 0 0 firstSave
  obtain ⟨t, hexec, -, -, -, -, -, -, hspec⟩ := hsave ⟨hfound, hop, hfree, hfresh, hclear⟩ halone hport hfault (.inl hbase)
  have hruns : exec (.ctxsave 0 0) savingState = .next (ctxsaveOp savingState 0 firstSave) := by
    have hring : earlier (getCtx savingState 0) firstSave.ring = [] := halone
    show Host.Outcome.next (descCommand savingState 0 0 0x29 (fun t d => if alone t 0 d then ctxsaveOp t 0 d else t)) = _
    simp only [descCommand, hfound, hop, hfree, hfresh, hclear, alone, hring, hport]
    rfl
  obtain rfl := Host.Outcome.next.inj (hruns.symm.trans hexec)
  refine hspec 0 (by decide) confirmedBuf ?_ rfl
  rw [getArr, ctxsaveOp_eq, savedOn_arrs, squashCtx_savingState]
  rfl

end

section
/-!
PROOFS. Two statements, about Gambit's prefetch (R268) and about a Castle that is held for its load (R15, R44), each refuted by a state it
does not exclude.

R268's clause names an active context, and one that is being aborted (R375) is active as well, though it has no prefetch any more. In the
other state an array's queue holds two loads of one block: the Castle takes the first, and SHADOW_LOAD_ROW completes the second.
-/

namespace Sys2Proof.Machine

/-- A dense 1 x 1 E4M3 weight at 0x9000, of generation 7. -/
def unitWeight : List W64 := [0x9000, 0x0000080300000007, 0x0000000100000001, 1, 0, 64, 0, 0]

/-- A context-table entry with its tensor table at 0x2000 and 1 MiB of residency from 0x100000. -/
def copyingEntry : List W64 := ((List.replicate 32 0).set 7 0x2000).set 15 0x0010000000100000

/-- The block of that weight, at tensor index 2. -/
def unitKey : BlockKey := { ctx := 0, tensor := 2, gen := 7, group := 0, head := 0, pass := 0, mode := 3 }

/-- A ready engine with region 0 in service and context 0, as `x` describes it. -/
def servingState (x : Context) : State :=
  { State.reset with
    boot := { State.reset.boot with resetAsserted := false, ready := true, phase := 5 }
    units := setUnit (setUnit State.reset.units .region 0 { MUnit.init with st := .live }) .array 0 { MUnit.init with st := .live }
    ctxs := [(0, x)] }

/-! ### A prefetch for a context that is being aborted -/

/-- Context 0 is active and aborts; array 0 has a hint for its weight. -/
def abortingPrefetch : State :=
  { servingState { Context.init with ent := copyingEntry, st := 1, aborting := true } with
    mems := wrBytes State.reset.mems .mem 0x2080 (wordBytes unitWeight)
    gambit := { hist := [], hint := [(0, unitKey)] } }

theorem abortingPrefetch_predicts : running abortingPrefetch = true ∧ isLive abortingPrefetch .region 0 = true ∧
    (getCtx abortingPrefetch 0).st = 1 ∧ gambitOn abortingPrefetch 0 = true ∧ abortingPrefetch.regs.prefetchEn = true ∧
    (regionPredictions abortingPrefetch 0 0).find? (fun k => preloadOk abortingPrefetch 0 k && !hasCopy abortingPrefetch 0 k.ctx k.tensor k.gen) =
      some unitKey ∧
    (jent (tensorJob abortingPrefetch 0 unitKey) unitKey.tensor).space = 0 ∧
    (∀ x ∈ weightSpans (tensorJob abortingPrefetch 0 unitKey), x.sp = .mem → memAccess abortingPrefetch unitKey.ctx x.a x.n = .ok) ∧
    (takeCopy abortingPrefetch 0 0 0 2 7 (weightFoot (tensorJob abortingPrefetch 0 unitKey))).isSome = true := by
  decide +kernel

/-! ### Two loads of one block -/

/-- A GEMM of 16 rows, one column and K = 1. -/
def smallGemm : Adm :=
  { bareAdm 1 [1, 0x0003000000020001, 0, BitVec.ofNat 64 (16 + 2 ^ 17 + 2 ^ 28 + 2 ^ 49), 0, 0, 0, 0] with
    entries := [(1, [0x8000, 0x0000080300000007, 0x0000000100000010, 1, 0, 1024, 0, 0]), (2, unitWeight),
      (3, [0xA000, 0x0000080000000007, 0x0000000100000010, 1, 0, 1024, 0, 0])]
    total := some 1 }

/-- Its sub-tile, on array 0. -/
def gemmSub : SubTile := { subAt State.reset 0 smallGemm (jobOf smallGemm 0) 0 false 1 with array := some 0, slot := some { backed := false, region := 0, num := 0 } }

def gemmWork : Work := { t := gemmSub, d := smallGemm, j := jobOf smallGemm 0, e := gemmSub, role := .whole }

/-- A load of its block, of which `rows` rows have been written, the last of them in cycle `cycle`. -/
def gemmLoad (rows cycle : Nat) : Load :=
  { key := keyOf (jobOf smallGemm 0) gemmSub 0, band := 0, preload := false, nextRow := rows, total := 256, parity := 0, restarted := false,
    cycle := cycle, bytes := 0 }

/-- A Castle is held since cycle 9, and the block's load stands twice in the queue: complete since cycle 0, and with one row to come. -/
def twoLoads : State :=
  { servingState { Context.init with ent := copyingEntry, st := 1, admitted := [smallGemm] } with
    arrs := [(0, { ArrayS.init with
      bound := [gemmSub], loads := [gemmLoad 256 0, gemmLoad 255 255], bus := 255
      lanes := [(0, { Lane.init with castleReq := some 9 })] })] }

theorem works_twoLoads : works (currentLoad twoLoads 0).1 0 = [(gemmWork, homeRoles gemmSub)] := by
  rfl

theorem currentLoad_twoLoads : currentLoad twoLoads 0 =
    ((currentLoad twoLoads 0).1, some (gemmLoad 255 255, jobOf smallGemm 0, gemmSub, 0, some gemmWork)) := by
  rfl

/-- The state meets every premise of the held Castle's clause. -/
theorem twoLoads_held : arrayRuns twoLoads 0 = true ∧ needsTsp (jobOf smallGemm 0) = false ∧
    rowHere (currentLoad twoLoads 0).1 0 (loadOwner 0 (gemmLoad 255 255) gemmSub) (jobOf smallGemm 0) gemmSub 0 255 = true ∧
    (let x := getArr (currentLoad twoLoads 0).1 0
     passOn (laneOf x gemmWork) = false ∧ (laneOf x gemmWork).castleReq = some 9 ∧ (laneOf x gemmWork).castleRs = .clean ∧ x.delay = [] ∧
       (specOf x gemmSub).isNone = true ∧ x.cycle = 0 ∧ x.bus = 255) ∧
    slotReady gemmSub smallGemm = true ∧ gemmSub.bandRows = 256 ∧ (getCtx (currentLoad twoLoads 0).1 0).aborting = false ∧
    stagedHere (currentLoad twoLoads 0).1 0 gemmWork = true := by
  decide +kernel

/-- The Castle takes place behind cycle 0, the complete load's, and not behind the last row, which is written in cycle 255. -/
theorem cycle_shadowLoadRow_twoLoads : ∃ t, exec (.shadowLoadRow 0 false .clean) twoLoads = .next t ∧ (getArr t 0).cycle = 1 :=
  ⟨_, rfl, by decide +kernel⟩

end Sys2Proof.Machine

open Sys2Proof Sys2Proof.Machine

/-- Refutes O45: in `abortingPrefetch` the context is active but being aborted, and GAMBIT_PREFETCH copies nothing for it. -/
theorem not_gambitPreloadsAndPrefetches : ¬ Obligations.GambitPreloadsAndPrefetches := by
  unfold Obligations.GambitPreloadsAndPrefetches
  rintro ⟨-, hprefetch, -⟩
  obtain ⟨hrun, hlive, hactive, hon, hen, hfind, hspace, haccess, hroom⟩ := abortingPrefetch_predicts
  obtain ⟨s1, hs1⟩ := Option.isSome_iff_exists.mp hroom
  obtain ⟨t, hexec, -, hcopy, -⟩ := (hprefetch abortingPrefetch 0 0 unitKey s1 hrun hlive hactive hon).2 hen hfind hspace haccess hs1
  have hstays : exec (.gambitPrefetch 0 0) abortingPrefetch = .next abortingPrefetch := by
    show Host.Outcome.next (if running abortingPrefetch && isLive abortingPrefetch .region 0 && abortingPrefetch.regs.prefetchEn &&
      takesWork (getCtx abortingPrefetch 0) && gambitOn abortingPrefetch 0 then prefetchOne abortingPrefetch 0 0 else abortingPrefetch) = _
    rw [hrun, hlive, hen, hon]
    rfl
  obtain rfl := Host.Outcome.next.inj (hstays.symm.trans hexec)
  exact absurd hcopy (by decide +kernel)

/-- Refutes O36: in `twoLoads` the held Castle finds the complete load, and takes place before the row that SHADOW_LOAD_ROW writes. -/
theorem not_shadowLoadsAndCastles : ¬ Obligations.ShadowLoadsAndCastles := by
  unfold Obligations.ShadowLoadsAndCastles
  rintro ⟨-, -, h⟩
  obtain ⟨hruns, htsp, hrow, ⟨hpass, hreq, hclean, hdelay, hspec, hcycle, hbus⟩, hslot, hband, habort, hstaged⟩ := twoLoads_held
  obtain ⟨t, hexec, -, -, -, hcyc, -⟩ := h twoLoads _ 0 _ _ _ _ 9 gemmWork (homeRoles gemmSub) hruns currentLoad_twoLoads htsp hrow rfl
    works_twoLoads rfl rfl hband rfl hpass hreq hclean hslot hdelay (Option.isNone_iff_eq_none.mp hspec) habort hstaged
  obtain ⟨u, hu, hone⟩ := cycle_shadowLoadRow_twoLoads
  obtain rfl := Host.Outcome.next.inj (hu.symm.trans hexec)
  have hlate : (getArr u 0).cycle =
      max (getArr (currentLoad twoLoads 0).1 0).cycle (max 255 (getArr (currentLoad twoLoads 0).1 0).bus + 1) + 1 := hcyc
  rw [hone, hcycle, hbus] at hlate
  exact absurd hlate (by decide)

end

section
/-!
PROOFS. What a descriptor command does where its descriptor may start, what the end of one leaves unchanged, and whole compute tiles
(R126, R156, R254, R358) settled.
-/

namespace Sys2Proof.Machine

/-! ### A descriptor that may start -/

namespace Starts
variable {s : State} {c : CtxId} {i : W32} {op : Nat} {d : Adm}

theorem runs (h : Starts s c i op d) (f : State → Adm → State) : descCommand s c.val i op f = f s d := by
  rw [descCommand, h.found]
  exact if_pos (by rw [h.opcode, h.free, h.fresh, h.clear, beq_self_eq_true]; rfl)

theorem mem (h : Starts s c i op d) : d ∈ (getCtx s c.val).admitted := List.mem_of_find?_eq_some h.found

theorem ring (h : Starts s c i op d) : d.ring = i := by
  have hfound : (d.ring == i) = true := List.find?_some (p := fun e : Adm => e.ring == i) h.found
  exact eq_of_beq hfound

theorem result_none (h : Starts s c i op d) : d.result = none := by
  have hfree := h.free
  simp only [dispatchable, Bool.and_eq_true] at hfree
  obtain ⟨⟨⟨⟨⟨⟨⟨-, hnone⟩, -⟩, -⟩, -⟩, -⟩, -⟩, -⟩ := hfree
  exact Option.isNone_iff_eq_none.mp hnone

theorem unfinished (h : Starts s c i op d) : Unfinished (getCtx s c.val) d.ring := ⟨d, h.mem, rfl, h.result_none⟩

end Starts

/-! ### What descriptors change -/

/-- A descriptor's end, or a change of an admitted descriptor, leaves everything but its context. -/
theorem finish_rest (s : State) (c : Nat) (d : Adm) (res : Result) : finish s c d res = { s with ctxs := (finish s c d res).ctxs } := rfl

theorem getCtx_finish_ne {s : State} {c e : Nat} (d : Adm) (res : Result) (h : e ≠ c) : getCtx (finish s c d res) e = getCtx s e :=
  getCtx_finishDesc_ne _ _ _ h

theorem finish_result {s : State} {c : Nat} {d : Adm} (res : Result) (h : Unfinished (getCtx s c) d.ring) :
    HasResult (finish s c d res) c d.ring res := finishDesc_result res h

theorem unfinished_setAdm {s : State} {c : Nat} {ring k : W32} {f : Adm → Adm} (hring : ∀ e, (f e).ring = e.ring)
    (hres : ∀ e, (f e).result = e.result) (h : Unfinished (getCtx s c) k) : Unfinished (getCtx (setAdm s c ring f) c) k := by
  obtain ⟨d, hmem, hk, hnone⟩ := h
  rw [setAdm, getCtx_setCtx]
  refine ⟨if d.ring == ring then f d else d, List.mem_map.mpr ⟨d, hmem, rfl⟩, ?_, ?_⟩
  · split
    · rw [hring, hk]
    · exact hk
  · split
    · rw [hres, hnone]
    · exact hnone

namespace OnlyContext
variable {s t u : State} {c : Nat}

theorem refl (s : State) (c : Nat) : OnlyContext s s c := ⟨fun _ _ => rfl, rfl, rfl, rfl, rfl, rfl, rfl, fun _ => ⟨rfl, rfl⟩⟩

theorem trans (h : OnlyContext s t c) (k : OnlyContext t u c) : OnlyContext s u c where
  ctxs e he := (k.ctxs e he).trans (h.ctxs e he)
  units := k.units.trans h.units
  regs := k.regs.trans h.regs
  mnt := k.mnt.trans h.mnt
  boot := k.boot.trans h.boot
  time := k.time.trans h.time
  counters := k.counters.trans h.counters
  arrays a := ⟨(k.arrays a).1.trans (h.arrays a).1, (k.arrays a).2.trans (h.arrays a).2⟩

/-- A change of contexts, accounts, ports, regions, crossings, bytes, the ledger or the counter of free values. -/
theorem of_rest (hctxs : ∀ e, e ≠ c → getCtx t e = getCtx s e) (hcnt : t.tlm.cnt = s.tlm.cnt)
    (h : t = { s with mems := t.mems, tlm := t.tlm, ctxs := t.ctxs, rgns := t.rgns, mp := t.mp, hp := t.hp, xing := t.xing, flog := t.flog,
                      ledger := t.ledger, freeCnt := t.freeCnt }) : OnlyContext s t c where
  ctxs := hctxs
  units := by rw [h]
  regs := by rw [h]
  mnt := by rw [h]
  boot := by rw [h]
  time := by rw [h]
  counters := hcnt
  arrays a := by
    have harrs : t.arrs = s.arrs := by rw [h]
    rw [getArr, harrs]
    exact ⟨rfl, rfl⟩

theorem of_asks (h : ReadsAsked s t) (c : Nat) : OnlyContext s t c :=
  of_rest (fun e _ => h.getCtx e) (by rw [h]) (by rw [h])

theorem finish (s : State) (c : Nat) (d : Adm) (res : Result) : OnlyContext s (finish s c d res) c :=
  of_rest (fun _ he => getCtx_finish_ne d res he) rfl rfl

theorem setAdm (s : State) (c : Nat) (ring : W32) (f : Adm → Adm) : OnlyContext s (setAdm s c ring f) c :=
  of_rest (fun _ he => getCtx_setAdm_ne ring f he) rfl rfl

theorem setAcct (s : State) (c e : Nat) (x : Acct) : OnlyContext s (setAcct s e x) c := of_rest (fun _ _ => rfl) rfl rfl

theorem setRgn (s : State) (c r : Nat) (x : Region) : OnlyContext s (setRgn s r x) c := of_rest (fun _ _ => rfl) rfl rfl

theorem mems (s : State) (c : Nat) (ms : Mems) : OnlyContext s { s with mems := ms } c := of_rest (fun _ _ => rfl) rfl rfl

theorem freeCnt (s : State) (c n : Nat) : OnlyContext s { s with freeCnt := n } c := of_rest (fun _ _ => rfl) rfl rfl

end OnlyContext

/-! ### Watched lines that no write touches (R285) -/

theorem wakeWatch_of_unwatched {s : State} {r a n : Nat}
    (h : ∀ w ∈ (getRgn s r).watch, w.addr / 64 < a / 64 ∨ (a + n - 1) / 64 < w.addr / 64) : wakeWatch s r a n = s := by
  have hnone : (getRgn s r).watch.filter (fun w => decide (a / 64 ≤ w.addr / 64 ∧ w.addr / 64 ≤ (a + n - 1) / 64)) = [] :=
    List.filter_eq_nil_iff.mpr fun w hw => by
      have := h w hw
      simp only [decide_eq_true_eq]
      omega
  rw [wakeWatch, hnone]
  rfl

theorem wakeSpans_of_unwatched {s : State} {l : List Span} (h : Unwatched s l) : wakeSpans s l = s := by
  unfold wakeSpans
  induction l with
  | nil => rfl
  | cons x l ih =>
    have htail := ih fun y hy => h y (List.mem_cons_of_mem _ hy)
    rw [List.foldl_cons]
    cases hsp : x.sp with
    | mem => exact htail
    | spad r =>
      dsimp only
      split
      · exact htail
      · rw [wakeWatch_of_unwatched fun w hw => h x List.mem_cons_self r hsp w hw]
        exact htail

/-! ### Bucket selection (R156, R157) -/

/-- The descriptor goes on with the variant of its shape: one context and one account's read bytes differ. -/
structure Shaped (s : State) (c : Nat) (d : Adm) (t : State) (e : Adm) : Prop where
  rest : t = { s with ctxs := t.ctxs, tlm := t.tlm }
  counters : t.tlm.cnt = s.tlm.cnt
  others : ∀ k, k ≠ c → getCtx t k = getCtx s k
  accts : ∀ k, getAcct t k = { getAcct s k with rdBytes := (getAcct t k).rdBytes }
  unfinished : ∀ ring, Unfinished (getCtx s c) ring → Unfinished (getCtx t c) ring
  ring : e.ring = d.ring

theorem getAcct_chargeRd (s : State) (c n k : Nat) :
    getAcct (chargeRd s c n) k = { getAcct s k with rdBytes := (getAcct (chargeRd s c n) k).rdBytes } := by
  by_cases h : k = c
  · subst h
    rw [chargeRd, getAcct_setAcct]
  · rw [chargeRd, getAcct_setAcct_ne _ _ _ _ h]

theorem shaped_of_go {s t : State} {c : Nat} {d e : Adm} (h : shapeStep s c d = .go t e) : Shaped s c d t e := by
  have hpick : ∀ u v, Shaped s c d u d → (match pickVariant (bDim d.desc) v d.variants with
      | none => Step1.stop (finish u c d (plainResult .shapeNoBucket d.flags))
      | some i => .go (setAdm u c d.ring (fun e => { e with variant := i, shapeV := v })) { d with variant := i, shapeV := v }) = .go t e →
      Shaped s c d t e := by
    intro u v hu hgo
    split at hgo
    · cases hgo
    · injection hgo with ht he
      subst ht he
      refine ⟨?_, hu.counters, fun k hk => (getCtx_setAdm_ne _ _ hk).trans (hu.others k hk), hu.accts,
        fun ring hring => unfinished_setAdm (fun _ => rfl) (fun _ => rfl) (hu.unfinished ring hring), rfl⟩
      show setAdm u c d.ring _ = _
      rw [hu.rest]
      rfl
  have hself : Shaped s c d s d := ⟨rfl, rfl, fun _ _ => rfl, fun _ => rfl, fun _ hring => hring, rfl⟩
  have hread : Shaped s c d (chargeRd s c 4) d := ⟨rfl, rfl, fun _ _ => rfl, getAcct_chargeRd s c 4, fun _ hring => hring, rfl⟩
  simp only [shapeStep] at h
  split at h
  · injection h with ht he
    subst ht he
    exact hself
  · split at h
    · cases h
    · split at h
      · cases h
      · cases h
      · exact hpick _ _ hread h
    · exact hpick _ _ hself h

/-! ### A whole tile -/

/-- The account behind a tile (R358). -/
def tileAcct (a : Acct) (j : Job) (side : Bool) (reads writes : List Span) : Acct :=
  { a with
    macOps := a.macOps + BitVec.ofNat 64 (tileMacs j)
    arrayCycles := if side then a.arrayCycles else a.arrayCycles + BitVec.ofNat 64 (tileCycles j)
    sideCycles := if side then a.sideCycles + BitVec.ofNat 64 (tilePasses j * chunkRows j * sideCyclesPerRow (jobMode j).act (jobMode j).w (jobMode j).slots)
      else a.sideCycles
    rdBytes := a.rdBytes + BitVec.ofNat 64 (memBytes reads)
    wrBytes := a.wrBytes + BitVec.ofNat 64 (memBytes writes)
    passes := a.passes + BitVec.ofNat 64 (tilePasses j) }

/-- A tile is charged to its context, and to counters of its region. -/
theorem chargeTile_eq (s : State) (c r : Nat) (j : Job) (side : Bool) (reads writes : List Span) :
    ∃ g, chargeTile s c r j side reads writes = { setAcct s c (tileAcct (getAcct s c) j side reads writes) with rgns := g } := by
  have hcount : ∀ t : State, ∀ n, (∃ g, t = { setAcct s c (tileAcct (getAcct s c) j side reads writes) with rgns := g }) →
      ∀ i, ∃ g, addRgnCnt t r i n = { setAcct s c (tileAcct (getAcct s c) j side reads writes) with rgns := g } := by
    rintro t n ⟨g, rfl⟩ i
    exact ⟨_, rfl⟩
  have hself : ∃ g, setAcct s c (tileAcct (getAcct s c) j side reads writes) =
      { setAcct s c (tileAcct (getAcct s c) j side reads writes) with rgns := g } := ⟨_, rfl⟩
  have hproducts : ∃ g, (if tileProducts s.mems j == 0 then setAcct s c (tileAcct (getAcct s c) j side reads writes)
      else if isLive s .side r || unitSt s .side r == .draining then
        addRgnCnt (setAcct s c (tileAcct (getAcct s c) j side reads writes)) r 7 (tileProducts s.mems j)
      else addRgnCnt (setAcct s c (tileAcct (getAcct s c) j side reads writes)) r 8 (tileProducts s.mems j)) =
      { setAcct s c (tileAcct (getAcct s c) j side reads writes) with rgns := g } := by
    split
    · exact hself
    · split
      · exact hcount _ _ hself 7
      · exact hcount _ _ hself 8
  show ∃ g, (if dOpcode j.d == 2 && !side && !anyPair s (ceAffinity (getCtx s c).ent) && dKt j.d != 0 then
    addRgnCnt _ r 11 (chunksOf j * dHeads j.d) else _) = _
  split
  · exact hcount _ _ hproducts 11
  · exact hproducts

/-- A tile that its region can run, runs: the state, and the flags of its result. -/
theorem runDescriptor_of_ready {s s1 : State} {c r : Nat} {d : Adm} (hhead : headOk s.mems (jobOf d r) = true)
    (htile : runsNowhere (jobOf d r) = false) (haccess : spansAccess s c (tileReads (jobOf d r)) (tileWrites (jobOf d r)) = .ok)
    (hlists : ((dKt (jobOf d r).d != 0 || dOpcode (jobOf d r).d == 5) && listsBad s.mems (jobOf d r)) = false)
    (hcopy : residencyStep s c d.ring r false (jobOf d r) = some s1) (hquiet : Unwatched s1 (tileWrites (jobOf d r))) :
    ∃ fl side, runDescriptor s c r d = finish (chargeTile { s1 with mems := (runTile s1.mems (jobOf d r) fl).1 } c r (jobOf d r) side
      (tileReads (jobOf d r)) (tileWrites (jobOf d r))) c d (plainResult .ok (runTile s1.mems (jobOf d r) fl).2) := by
  have hwake : ∀ ms, wakeSpans { s1 with mems := ms } (tileWrites (jobOf d r)) = { s1 with mems := ms } :=
    fun ms => wakeSpans_of_unwatched hquiet
  unfold runDescriptor
  dsimp only
  rw [hhead, htile, haccess, hlists, hcopy]
  dsimp only
  rw [hwake]
  exact ⟨_, _, rfl⟩

theorem computeOp_of_ready {s s0 s1 : State} {c r : Nat} {d d0 : Adm} (h : TileReady s c r d s0 d0 s1) (hring : d0.ring = d.ring) :
    ∃ fl side, computeOp s c d = finish (chargeTile { s1 with mems := (runTile s1.mems (jobOf d0 r) fl).1 } c r (jobOf d0 r) side
      (tileReads (jobOf d0 r)) (tileWrites (jobOf d0 r))) c d0 (plainResult .ok (runTile s1.mems (jobOf d0 r) fl).2) := by
  have hlists : ((dKt (jobOf d0 r).d != 0 || dOpcode (jobOf d0 r).d == 5) && listsBad s0.mems (jobOf d0 r)) = false := by
    obtain ⟨hk, hop⟩ | hgood := h.lists
    · rw [hk, beq_false_of_ne hop]
      rfl
    · rw [hgood, Bool.and_false]
  have hrun := runDescriptor_of_ready h.head h.tile h.access hlists (by rw [hring]; exact h.copy) h.quiet
  have hregions : (regionsOf s0 (ceAffinity (getCtx s0 c).ent)).isEmpty = false := by
    rw [Bool.eq_false_iff]
    exact fun hempty => h.regions (List.isEmpty_iff.mp hempty)
  have hlanes : (laneRegions s0 (drawsBits (sizedDesc d0)) (regionsOf s0 (ceAffinity (getCtx s0 c).ent))).isEmpty = false := by
    rw [Bool.eq_false_iff]
    exact fun hempty => h.lanes (List.isEmpty_iff.mp hempty)
  have hop : computeOp s c d = runDescriptor s0 c r d0 := by
    simp only [computeOp, h.shape, Step1.next, wholeStep, h.tile, regionStep, regionsStep, h.present, hregions, hlanes, h.region,
      Bool.false_eq_true, if_false, Step1.state]
  rw [hop]
  exact hrun

/-- The commands of the compute descriptors run their descriptors' tiles. -/
theorem exec_compute {c : CtxId} {i : W32} {p : Nat × Instr} (h : p ∈ computeCommands c i) (s : State) :
    exec p.2 s = .next (descCommand s c.val i p.1 (fun t d => computeOp t c.val d)) := by
  simp only [computeCommands, List.mem_cons, List.not_mem_nil, or_false] at h
  obtain rfl | rfl | rfl | rfl | rfl | rfl | rfl := h
  · rfl
  · rfl
  · rfl
  · rfl
  · rfl
  · rfl
  · rfl

theorem tileDone_of_ready {s s0 s1 : State} {c r : Nat} {d d0 : Adm} (h : TileReady s c r d s0 d0 s1) (hopen : Unfinished (getCtx s c) d.ring) :
    TileDone s (computeOp s c d) c r d d0 := by
  have hshaped := shaped_of_go h.shape
  have hasks := residencyStep_asks h.copy
  obtain ⟨fl, side, hop⟩ := computeOp_of_ready h hshaped.ring
  obtain ⟨g, hcharge⟩ := chargeTile_eq { s1 with mems := (runTile s1.mems (jobOf d0 r) fl).1 } c r (jobOf d0 r) side
    (tileReads (jobOf d0 r)) (tileWrites (jobOf d0 r))
  have hmems : s1.mems = s.mems := hasks.mems.trans (by rw [hshaped.rest])
  have hacct : ∀ k, getAcct s1 k = getAcct s0 k := fun k => by rw [getAcct, hasks]; rfl
  rw [hop, hcharge, hmems]
  refine ⟨⟨fl, rfl, ?_⟩, ?_, ?_, ?_⟩
  · rw [← hshaped.ring]
    refine finish_result _ ?_
    rw [hshaped.ring]
    have hctx : getCtx s1 c = getCtx s0 c := hasks.getCtx c
    show Unfinished (getCtx s1 c) d.ring
    rw [hctx]
    exact hshaped.unfinished _ hopen
  · show (getAcct (setAcct _ c _) c).macOps = _
    rw [getAcct_setAcct]
    show (getAcct s1 c).macOps + _ = _
    rw [hacct, hshaped.accts]
  · show (getAcct (setAcct _ c _) c).passes = _
    rw [getAcct_setAcct]
    show (getAcct s1 c).passes + _ = _
    rw [hacct, hshaped.accts]
  · refine OnlyContext.trans ?_ (.finish _ c d0 _)
    refine OnlyContext.of_rest (fun e he => ?_) ?_ ?_
    · exact (hasks.getCtx e).trans (hshaped.others e he)
    · show s1.tlm.cnt = _
      rw [hasks]
      exact hshaped.counters
    · rw [hasks, hshaped.rest]
      rfl

end Sys2Proof.Machine

open Sys2Proof Sys2Proof.Machine

/-- Settles O53: behind the choice of its variant, its region and its copy the tile is run whole, charged, and the descriptor finished. -/
theorem computeDescriptorsRunTiles : Obligations.ComputeDescriptorsRunTiles := by
  unfold Obligations.ComputeDescriptorsRunTiles
  intro s c i d r s0 d0 s1 p hp hstarts hready
  refine ⟨computeOp s c.val d, ?_, tileDone_of_ready hready hstarts.unfinished⟩
  rw [exec_compute hp, hstarts.runs]

end

section
/-!
PROOFS. CASTLE and STREAM (R59 to R61, R242, R269, R371) settled.
-/

namespace Sys2Proof.Machine

/-! ### Writes in order -/

theorem rdByte_applyWrites_outside {ws : List MemWrite} {sp : Space} {x : Nat}
    (h : ∀ w ∈ ws, sp ≠ w.sp ∨ x < w.addr ∨ w.addr + w.bytes.length ≤ x) (ms : Mems) : rdByte (applyWrites ms ws) sp x = rdByte ms sp x := by
  induction ws generalizing ms with
  | nil => rfl
  | cons w ws ih =>
    rw [applyWrites_cons, ih fun v hv => h v (List.mem_cons_of_mem _ hv), rdByte_wrBytes_outside _ _ _ _ _ _ (h w List.mem_cons_self)]

/-- Writes to lines that no WAITV watches do nothing else (R285). -/
theorem writeWaking_of_unwatched {s : State} {w : MemWrite} (h : ∀ r, w.sp = .spad r → (getRgn s r).watch = []) :
    writeWaking s w = { s with mems := wrBytes s.mems w.sp w.addr w.bytes } := by
  simp only [writeWaking]
  split
  next hsp => rw [hsp]
  next r hsp =>
    split
    · rw [hsp]
    · rw [wakeWatch_of_unwatched, hsp]
      intro v hv
      have hnone : (getRgn s r).watch = [] := h r hsp
      have hv : v ∈ (getRgn s r).watch := hv
      rw [hnone] at hv
      exact absurd hv List.not_mem_nil

theorem writesWaking_of_unwatched {ws : List MemWrite} : ∀ {s : State}, (∀ w ∈ ws, ∀ r, w.sp = .spad r → (getRgn s r).watch = []) →
    writesWaking s ws = { s with mems := applyWrites s.mems ws } := by
  induction ws with
  | nil => exact fun _ => rfl
  | cons w ws ih =>
    intro s h
    show writesWaking (writeWaking s w) ws = _
    rw [writeWaking_of_unwatched (h w List.mem_cons_self)]
    exact ih (s := { s with mems := wrBytes s.mems w.sp w.addr w.bytes }) fun v hv => h v (List.mem_cons_of_mem _ hv)

/-! ### Accounts of a maintenance descriptor (R358) -/

theorem getAcct_chargeRd_arrayCycles (s : State) (c n k : Nat) : (getAcct (chargeRd s c n) k).arrayCycles = (getAcct s k).arrayCycles := by
  rw [getAcct_chargeRd]

theorem getAcct_chargeArray (s : State) (c a n : Nat) :
    (getAcct (chargeArray s c a n) c).arrayCycles = (getAcct s c).arrayCycles + BitVec.ofNat 64 n := by
  rw [chargeArray, getAcct_setAcct]
  rfl

/-- Of the arrays a charge changes one's counters. -/
theorem getArr_chargeArray (s : State) (c a n b : Nat) :
    getArr (chargeArray s c a n) b = { getArr s b with cnt := (getArr (chargeArray s c a n) b).cnt } := by
  show getArr (addArrCnt s a 7 n) b = { getArr s b with cnt := (getArr (addArrCnt s a 7 n) b).cnt }
  rw [addArrCnt, getArr_setArr_if]
  split
  next h => rw [h]
  next => rfl

theorem getArr_chargeArray_ne {s : State} {c a n b : Nat} (h : b ≠ a) : getArr (chargeArray s c a n) b = getArr s b := by
  show getArr (addArrCnt s a 7 n) b = _
  rw [addArrCnt, getArr_setArr_if, if_neg h]

/-- The machine behind the `n` array cycles of a maintenance descriptor that leaves its array `a` as `x`. -/
def maintained (s : State) (c a n rd : Nat) (x : ArrayS) : State := chargeRd (chargeArray (setArr s a x) c a n) c rd

section
variable (s : State) (c a n rd : Nat) (x : ArrayS)

theorem maintained_rest : maintained s c a n rd x = { s with
    arrs := (maintained s c a n rd x).arrs, tlm := (maintained s c a n rd x).tlm } := rfl

theorem maintained_ctxs : (maintained s c a n rd x).ctxs = s.ctxs := by rw [maintained_rest]

theorem getArr_maintained : getArr (maintained s c a n rd x) a = { x with cnt := (getArr (maintained s c a n rd x) a).cnt } := by
  have h := getArr_chargeArray (setArr s a x) c a n a
  rw [getArr_setArr] at h
  exact h

theorem getArr_maintained_ne {b : Nat} (h : b ≠ a) : getArr (maintained s c a n rd x) b = getArr s b := by
  have hcharge := getArr_chargeArray_ne (s := setArr s a x) (c := c) (n := n) h
  rw [getArr_setArr_ne _ _ _ _ h] at hcharge
  exact hcharge

theorem arrayCycles_maintained :
    (getAcct (maintained s c a n rd x) c).arrayCycles = (getAcct s c).arrayCycles + BitVec.ofNat 64 n := by
  rw [maintained, getAcct_chargeRd_arrayCycles, getAcct_chargeArray]
  rfl

end

/-- A descriptor that completes behind its charges. -/
theorem result_behind {s t : State} {c : Nat} {d : Adm} (res : Result) (hctxs : t.ctxs = s.ctxs) (h : Unfinished (getCtx s c) d.ring) :
    HasResult (finish t c d res) c d.ring res := by
  refine finish_result res ?_
  rw [getCtx, hctxs]
  exact h

/-! ### CASTLE (R242, R269) -/

theorem shadowPut_key (ms : Mems) (j : Job) (t : SubTile) (n i : Nat) (b : Bank) : (shadowPut ms j t n i b).key = b.key := by
  simp only [shadowPut]
  split
  · rfl
  · rfl

theorem foldl_shadowPut_key (ms : Mems) (j : Job) (t : SubTile) (n : Nat) (l : List Nat) (b : Bank) :
    (l.foldl (fun q i => shadowPut ms j t n i q) b).key = b.key := by
  induction l generalizing b with
  | nil => rfl
  | cons i l ih => rw [List.foldl_cons, ih, shadowPut_key]

theorem castleLoad_key (ms : Mems) (x : ArrayS) (b : Job × SubTile × Nat) (k : BlockKey) : (castleLoad ms x b k).active.key = some k :=
  foldl_shadowPut_key ..

theorem castleLoad_shadow (ms : Mems) (x : ArrayS) (b : Job × SubTile × Nat) (k : BlockKey) : (castleLoad ms x b k).shadow = x.active := by
  simp only [castleLoad]

theorem castleLoad_loads (ms : Mems) (x : ArrayS) (b : Job × SubTile × Nat) (k : BlockKey) : (castleLoad ms x b k).loads = [] := by
  simp only [castleLoad]

theorem castleLoad_cycle (ms : Mems) (x : ArrayS) (b : Job × SubTile × Nat) (k : BlockKey) : (castleLoad ms x b k).cycle = x.cycle + 257 := by
  simp only [castleLoad]

/-- A bank loaded whole becomes active, in 257 array cycles. -/
theorem castled_array {s t : State} {a : Nat} {b : Job × SubTile × Nat} {k : BlockKey}
    (h : getArr t a = { castleLoad s.mems (getArr s a) b k with cnt := (getArr t a).cnt }) :
    (getArr t a).active.key = some k ∧ (getArr t a).shadow = (getArr s a).active ∧ (getArr t a).loads = [] ∧
      (getArr t a).cycle = (getArr s a).cycle + 257 := by
  have hkey := castleLoad_key s.mems (getArr s a) b k
  have hshadow := castleLoad_shadow s.mems (getArr s a) b k
  have hloads := castleLoad_loads s.mems (getArr s a) b k
  have hcycle := castleLoad_cycle s.mems (getArr s a) b k
  generalize castleLoad s.mems (getArr s a) b k = x at *
  rw [h]
  exact ⟨hkey, hshadow, hloads, hcycle⟩

theorem castleOp_of_unowned {s : State} {c : Nat} {d : Adm} (h : ownsArray s c (caArray d.desc) = false) :
    castleOp s c d = finish (castleHint s c d) c d (plainResult .ok d.flags) :=
  if_neg (by rw [h]; exact Bool.false_ne_true)

/-- The hint names the block that the CASTLE names. -/
theorem castleHint_of_allowed {s : State} {c : Nat} {d : Adm} (hon : gambitOn s c = true)
    (hmask : inMask (ceAffinity (getCtx s c).ent) (caArray d.desc) = true) : castleHint s c d =
      { s with gambit := { s.gambit with hint := tset s.gambit.hint (caArray d.desc) (castleBlock c d).2 } } :=
  if_pos (by rw [hon, hmask]; rfl)

theorem castleHint_of_refused {s : State} {c : Nat} {d : Adm}
    (h : gambitOn s c = false ∨ inMask (ceAffinity (getCtx s c).ent) (caArray d.desc) = false) : castleHint s c d = s :=
  if_neg (by
    obtain h | h := h
    · rw [h]
      exact Bool.false_ne_true
    · rw [h, Bool.and_false]
      exact Bool.false_ne_true)

theorem castleHint_rest (s : State) (c : Nat) (d : Adm) : castleHint s c d = { s with gambit := (castleHint s c d).gambit } ∧
    (castleHint s c d).gambit.hist = s.gambit.hist := by
  unfold castleHint
  dsimp only
  split
  · exact ⟨rfl, rfl⟩
  · exact ⟨rfl, rfl⟩

/-- The array behind a maintenance CASTLE. -/
theorem castleOp_of_owned {s : State} {c : Nat} {d : Adm} (hown : ownsArray s c (caArray d.desc) = true)
    (hlive : isLive s .region (caArray d.desc / 4) = true) (hhere : operandAbsent s d = false)
    (hread : spansAccess s c (weightSpans (castleBlock c d).1.1) [] = .ok) :
    ∃ t, castleOp s c d = finish t c d (plainResult .ok d.flags) ∧ t = { s with arrs := t.arrs, tlm := t.tlm } ∧
      ((getArr t (caArray d.desc)).active.key = some (castleBlock c d).2 ∧
        (getArr t (caArray d.desc)).shadow = (getArr s (caArray d.desc)).active ∧ (getArr t (caArray d.desc)).loads = [] ∧
        (getArr t (caArray d.desc)).cycle = (getArr s (caArray d.desc)).cycle + 257) ∧
      (∀ b, b ≠ caArray d.desc → getArr t b = getArr s b) ∧
      (getAcct t c).arrayCycles = (getAcct s c).arrayCycles + 257 := by
  refine ⟨maintained s c (caArray d.desc) 257 (memBytes (weightSpans (castleBlock c d).1.1))
    (castleLoad s.mems (getArr s (caArray d.desc)) (castleBlock c d).1 (castleBlock c d).2), ?_, maintained_rest ..,
    castled_array (getArr_maintained ..), fun b hb => getArr_maintained_ne _ _ _ _ _ _ hb, arrayCycles_maintained ..⟩
  rw [castleOp, if_pos hown]
  simp only [maintained, castleMaint, hlive, hhere, hread, Bool.not_true, Bool.or_self, Bool.false_eq_true, if_false]

/-! ### STREAM (R59, R60) -/

theorem length_flatMap_leBytes (l : List W32) : (l.flatMap (fun w => leBytes 4 w.toNat)).length = 4 * l.length := by
  induction l with
  | nil => rfl
  | cons w l ih =>
    rw [List.flatMap_cons, List.length_append, length_leBytes, ih, List.length_cons]
    omega

/-- A result row of 256 sums is 1,088 B. -/
theorem length_streamBytes {x : RowRes} (h : x.sums.length = 256) : (streamBytes x).length = 1088 := by
  rw [streamBytes]
  simp only [List.length_append, length_flatMap_leBytes, length_leBytes, h, List.length_replicate]

theorem length_streamResult_sums (b : Bank) (words : List Nat) : (streamResult b words).sums.length = 256 := by
  show (((List.range 256).map (streamSum b words)).map _).length = 256
  rw [List.length_map, List.length_map, List.length_range]

/-- A STREAM's writes lie in the destination's rows. -/
theorem streamWrites_within {ms : Mems} {b : Bank} {j : Job} {op : Nat} {w : MemWrite} (h : w ∈ streamWrites ms b j op) :
    w.sp = tentSpace (jent j (stDst j.d)) j.r ∧ (jent j (stDst j.d)).base ≤ w.addr ∧
      w.addr + w.bytes.length ≤ (jent j (stDst j.d)).base + 1088 * stRows j.d := by
  obtain ⟨i, hi, rfl⟩ := List.mem_map.mp h
  have hrow : i < stRows j.d := List.mem_range.mp hi
  refine ⟨rfl, Nat.le_add_right _ _, ?_⟩
  show (jent j (stDst j.d)).base + 1088 * i + (streamBytes _).length ≤ _
  rw [length_streamBytes (length_streamResult_sums ..)]
  omega

theorem streamOp_of_unowned {s : State} {c : Nat} {d : Adm} (h : ownsArray s c (stArray d.desc) = false) :
    streamOp s c d = finish s c d { plainResult .badOpcode d.flags with checkId := 0x01 } :=
  if_neg (by rw [h]; exact Bool.false_ne_true)

/-- Memory and the counter of free values behind a STREAM's rows. -/
def streamedRows (s : State) (d : Adm) : State :=
  { s with
    mems := applyWrites s.mems (streamWrites s.mems (getArr s (stArray d.desc)).active (jobOf d (stArray d.desc / 4)) s.freeCnt)
    freeCnt := s.freeCnt + 1 }

theorem chargeWr_rest (u : State) (c n : Nat) : chargeWr u c n = { u with tlm := (chargeWr u c n).tlm } := rfl

theorem getArr_chargeWr (u : State) (c n b : Nat) : getArr (chargeWr u c n) b = getArr u b := rfl

/-- What the array cycles and the writes of a maintenance descriptor leave behind. -/
theorem chargedRows (u : State) (c a n rd wr : Nat) (x : ArrayS) : ∃ t, chargeWr (maintained u c a n rd x) c wr = t ∧
    t = { u with arrs := t.arrs, tlm := t.tlm } ∧ getArr t a = { x with cnt := (getArr t a).cnt } ∧ ∀ b, b ≠ a → getArr t b = getArr u b := by
  have hrest := maintained_rest u c a n rd x
  have harray := getArr_maintained u c a n rd x
  have hothers : ∀ b, b ≠ a → getArr (maintained u c a n rd x) b = getArr u b := fun b hb => getArr_maintained_ne u c a n rd x hb
  generalize maintained u c a n rd x = v at *
  refine ⟨chargeWr v c wr, rfl, ?_, harray, hothers⟩
  rw [chargeWr_rest v, hrest]

/-- The span of memory that a STREAM reads. -/
def streamReads (d : Adm) : List Span :=
  let j := jobOf d (stArray d.desc / 4)
  [entSpan j (jent j (stSrc j.d)) 0 (1024 * stRows j.d)]

/-- The span of memory that a STREAM's rows go to. -/
def streamTargets (d : Adm) : List Span :=
  let j := jobOf d (stArray d.desc / 4)
  [entSpan j (jent j (stDst j.d)) 0 (1088 * stRows j.d)]

/-- A STREAM's array: the cycles of its rows have passed. -/
def streamedArray (s : State) (d : Adm) : ArrayS :=
  { getArr s (stArray d.desc) with
    cycle := (getArr s (stArray d.desc)).cycle + streamCycles (getArr s (stArray d.desc)).active d.desc }

theorem streamOp_eq {s : State} {c : Nat} {d : Adm} (hown : ownsArray s c (stArray d.desc) = true)
    (hlive : isLive s .region (stArray d.desc / 4) = true) (hhere : operandAbsent s d = false)
    (haccess : spansAccess s c (streamReads d) (streamTargets d) = .ok)
    (hrows : writesWaking { s with freeCnt := s.freeCnt + 1 }
      (streamWrites s.mems (getArr s (stArray d.desc)).active (jobOf d (stArray d.desc / 4)) s.freeCnt) = streamedRows s d) :
    streamOp s c d = finish (chargeWr (maintained (streamedRows s d) c (stArray d.desc) (streamCycles (getArr s (stArray d.desc)).active d.desc)
      (memBytes (streamReads d)) (streamedArray s d)) c (memBytes (streamTargets d))) c d (plainResult .ok d.flags) := by
  have haccess : spansAccess s c [entSpan (jobOf d (stArray d.desc / 4)) (jent (jobOf d (stArray d.desc / 4)) (stSrc (jobOf d (stArray d.desc / 4)).d)) 0
      (1024 * stRows (jobOf d (stArray d.desc / 4)).d)]
    [entSpan (jobOf d (stArray d.desc / 4)) (jent (jobOf d (stArray d.desc / 4)) (stDst (jobOf d (stArray d.desc / 4)).d)) 0
      (1088 * stRows (jobOf d (stArray d.desc / 4)).d)] = .ok := haccess
  rw [streamOp, if_pos hown]
  simp only [streamMaint, hlive, hhere, haccess, Bool.not_true, Bool.or_self, Bool.false_eq_true, if_false, freeNext, hrows]
  rfl

theorem streamOp_of_owned {s : State} {c : Nat} {d : Adm} (hown : ownsArray s c (stArray d.desc) = true)
    (hlive : isLive s .region (stArray d.desc / 4) = true) (hhere : operandAbsent s d = false)
    (haccess : spansAccess s c (streamReads d) (streamTargets d) = .ok)
    (hwatch : ∀ q, tentSpace (jent (jobOf d (stArray d.desc / 4)) (stDst (jobOf d (stArray d.desc / 4)).d)) (jobOf d (stArray d.desc / 4)).r = .spad q →
      (getRgn s q).watch = []) :
    ∃ t, streamOp s c d = finish t c d (plainResult .ok d.flags) ∧ t = { streamedRows s d with arrs := t.arrs, tlm := t.tlm } ∧
      getArr t (stArray d.desc) = { streamedArray s d with cnt := (getArr t (stArray d.desc)).cnt } ∧
      ∀ b, b ≠ stArray d.desc → getArr t b = getArr s b := by
  have hrows : writesWaking { s with freeCnt := s.freeCnt + 1 }
      (streamWrites s.mems (getArr s (stArray d.desc)).active (jobOf d (stArray d.desc / 4)) s.freeCnt) = streamedRows s d :=
    writesWaking_of_unwatched fun w hw r hr => hwatch r ((streamWrites_within hw).1.symm.trans hr)
  rw [streamOp_eq hown hlive hhere haccess hrows]
  obtain ⟨t, ht, hrest, harray, hothers⟩ := chargedRows (streamedRows s d) c (stArray d.desc)
    (streamCycles (getArr s (stArray d.desc)).active d.desc) (memBytes (streamReads d)) (memBytes (streamTargets d)) (streamedArray s d)
  exact ⟨t, by rw [ht], hrest, harray, hothers⟩

end Sys2Proof.Machine

open Sys2Proof Sys2Proof.Machine

/-- Settles O55: both commands act on an owned array and complete with OK; without it a CASTLE leaves a hint, and a STREAM nothing. -/
theorem castleAndStreamUseOwnedArrays : Obligations.CastleAndStreamUseOwnedArrays := by
  unfold Obligations.CastleAndStreamUseOwnedArrays
  intro s c i d
  have hcastle : exec (.castle c i) s = .next (descCommand s c.val i 0x18 (fun t d => castleOp t c.val d)) := rfl
  have hstream : exec (.stream c i) s = .next (descCommand s c.val i 0x30 (fun t d => streamOp t c.val d)) := rfl
  refine ⟨fun hstarts => ⟨fun hown => ?_, fun hown hlive hhere hread => ?_⟩, fun hstarts => ⟨fun hown => ?_, fun hown hlive hhere haccess hwatch => ?_⟩⟩
  · obtain ⟨hrest, hhist⟩ := castleHint_rest s c.val d
    refine ⟨finish (castleHint s c.val d) c.val d (plainResult .ok d.flags),
      hcastle.trans (congrArg _ ((hstarts.runs _).trans (castleOp_of_unowned hown))), ?_, ?_, hhist, fun hon hmask => ?_, fun hoff => ?_⟩
    · rw [finish_rest, hrest]
    · rw [← hstarts.ring]
      refine finish_result _ ?_
      rw [hrest]
      exact hstarts.unfinished
    · refine ⟨(castleBlock c.val d).2, ?_, rfl, rfl, rfl, rfl⟩
      show (castleHint s c.val d).gambit.hint = _
      rw [castleHint_of_allowed hon hmask]
    · show (castleHint s c.val d).gambit = _
      rw [castleHint_of_refused hoff]
  · obtain ⟨t, hexec, hrest, ⟨hkey, hshadow, hloads, hcycle⟩, hothers, hcharge⟩ := castleOp_of_owned hown hlive hhere hread
    have hctxs : t.ctxs = s.ctxs := by rw [hrest]
    refine ⟨_, hcastle.trans (congrArg _ ((hstarts.runs _).trans hexec)), ?_, hkey, hshadow, hloads, hcycle, hothers,
      by rw [finish_rest, hrest], by rw [finish_rest, hrest], hcharge⟩
    rw [← hstarts.ring]
    exact result_behind _ hctxs hstarts.unfinished
  · refine ⟨_, hstream.trans (congrArg _ ((hstarts.runs _).trans (streamOp_of_unowned hown))), rfl, ?_⟩
    rw [← hstarts.ring]
    exact finish_result _ hstarts.unfinished
  · obtain ⟨t, hexec, hrest, harray, hothers⟩ := streamOp_of_owned hown hlive hhere haccess hwatch
    have hmems : (finish t c.val d (plainResult .ok d.flags)).mems = (streamedRows s d).mems := by rw [finish_rest, hrest]
    have harrays : ∀ b, getArr (finish t c.val d (plainResult .ok d.flags)) b = getArr t b := fun _ => rfl
    have hctxs : t.ctxs = s.ctxs := by rw [hrest]; rfl
    refine ⟨_, hstream.trans (congrArg _ ((hstarts.runs _).trans hexec)), ?_, hmems, ?_, ?_, ?_, fun b hb => hothers b hb, fun sp k hout => ?_,
      by rw [finish_rest, hrest]; rfl⟩
    · rw [← hstarts.ring]
      exact result_behind _ hctxs hstarts.unfinished
    · rw [harrays, harray, streamedArray]
    · rw [harrays, harray, streamedArray]
    · rw [harrays, harray, streamedArray]
    · rw [hmems]
      refine rdByte_applyWrites_outside (fun w hw => ?_) s.mems
      obtain ⟨hsp, hlo, hhi⟩ := streamWrites_within hw
      rw [hsp]
      obtain h | h | h := hout
      · exact .inl h
      · exact .inr (.inl (lt_of_lt_of_le h hlo))
      · exact .inr (.inr (hhi.trans h))

end

section
/-!
PROOFS. The drain (R23, R26, R43, R115): its writes of memory, its requests of banks, and what it leaves unchanged.
-/

namespace Sys2Proof.Machine

/-! ### Requests of banks -/

/-- Only requests of banks were added. -/
structure BanksAsked (s t : State) : Prop where
  rest : t = { s with rgns := t.rgns }
  rgn : ∀ r, getRgn t r = { getRgn s r with bankReqs := (getRgn t r).bankReqs }
  kept : ∀ r, ∀ b ∈ (getRgn s r).bankReqs, b ∈ (getRgn t r).bankReqs

namespace BanksAsked
variable {s t u : State}

theorem refl (s : State) : BanksAsked s s := ⟨rfl, fun _ => rfl, fun _ _ hb => hb⟩

theorem trans (h : BanksAsked s t) (k : BanksAsked t u) : BanksAsked s u where
  rest := by rw [k.rest, h.rest]
  rgn r := by rw [k.rgn, h.rgn]
  kept r b hb := k.kept r b (h.kept r b hb)

theorem askBankFor (s : State) (r cls a : Nat) (act : BankAct) (o : Owner) (frees : Option (Nat × SlotRef))
    (mark : Option (Nat × Nat × List W64)) : BanksAsked s (askBankFor s r cls a act o frees mark) where
  rest := rfl
  rgn n := by
    rw [Machine.askBankFor, getRgn_setRgn_if]
    split
    next h => rw [h]
    next => rfl
  kept n b hb := by
    rw [Machine.askBankFor, getRgn_setRgn_if]
    split
    next h =>
      rw [h] at hb
      exact List.mem_append_left _ hb
    next => exact hb

theorem askBank (s : State) (r cls a : Nat) (act : BankAct) (o : Owner) : BanksAsked s (askBank s r cls a act o) := askBankFor ..

/-- Requests one after another. -/
theorem foldl {α : Type} {f : State → α → State} (h : ∀ u x, BanksAsked u (f u x)) (l : List α) (s : State) : BanksAsked s (l.foldl f s) := by
  induction l generalizing s with
  | nil => exact refl s
  | cons x l ih =>
    rw [List.foldl_cons]
    exact (h s x).trans (ih _)

theorem ctxs (h : BanksAsked s t) : t.ctxs = s.ctxs := by rw [h.rest]
theorem mems (h : BanksAsked s t) : t.mems = s.mems := by rw [h.rest]

end BanksAsked

/-- A request of a class for an address stands in a region's queue. -/
def AskedFor (s : State) (r cls a : Nat) (act : BankAct) : Prop := ∃ b ∈ (getRgn s r).bankReqs, b.cls = cls ∧ b.addr = a ∧ b.act = act

/-- It is of an owner. -/
def AskedBy (s : State) (r cls a : Nat) (act : BankAct) (o : Owner) : Prop :=
  ∃ b ∈ (getRgn s r).bankReqs, b.cls = cls ∧ b.addr = a ∧ b.act = act ∧ b.owner = o

namespace AskedBy
variable {s t : State} {r cls a : Nat} {act : BankAct} {o : Owner}

theorem mono (h : BanksAsked s t) (hs : AskedBy s r cls a act o) : AskedBy t r cls a act o := by
  obtain ⟨b, hb, hrest⟩ := hs
  exact ⟨b, h.kept r b hb, hrest⟩

theorem asked (h : AskedBy s r cls a act o) : AskedFor s r cls a act := by
  obtain ⟨b, hb, hcls, haddr, hact, -⟩ := h
  exact ⟨b, hb, hcls, haddr, hact⟩

end AskedBy

theorem askedBy_askBankFor (s : State) (r cls a : Nat) (act : BankAct) (o : Owner) (frees : Option (Nat × SlotRef))
    (mark : Option (Nat × Nat × List W64)) : AskedBy (askBankFor s r cls a act o frees mark) r cls a act o := by
  rw [AskedBy, askBankFor, getRgn_setRgn]
  exact ⟨_, List.mem_append_right _ List.mem_cons_self, rfl, rfl, rfl, rfl⟩

/-- Each of a list of requests stands in its queue. -/
theorem askedBy_foldl {α : Type} {f : State → α → State} {rg cls ad : α → Nat} {act : α → BankAct} {o : Owner}
    (hf : ∀ u x, f u x = askBank u (rg x) (cls x) (ad x) (act x) o) {l : List α} {x : α} (hx : x ∈ l) (s : State) :
    AskedBy (l.foldl f s) (rg x) (cls x) (ad x) (act x) o := by
  have hasks : ∀ u y, BanksAsked u (f u y) := fun u y => by
    rw [hf]
    exact .askBank ..
  induction l generalizing s with
  | nil => exact absurd hx List.not_mem_nil
  | cons y l ih =>
    rw [List.foldl_cons]
    rcases List.mem_cons.mp hx with rfl | hx
    · refine AskedBy.mono (.foldl hasks l _) ?_
      rw [hf]
      exact askedBy_askBankFor ..
    · exact ih hx _

/-! ### What drains change -/

/-- Only bytes, bytes charged, requests, journal entries and slots differ. -/
structure Drains (s t : State) : Prop where
  rest : t = { s with mems := t.mems, tlm := t.tlm, ctxs := t.ctxs, rgns := t.rgns, mp := t.mp }
  counters : t.tlm.cnt = s.tlm.cnt
  acct : ∀ c, getAcct t c = { getAcct s c with wrBytes := (getAcct t c).wrBytes }
  ctx : ∀ c, getCtx t c = { getCtx s c with backing := (getCtx t c).backing }
  rgn : ∀ r, getRgn t r = { getRgn s r with bankReqs := (getRgn t r).bankReqs, journal := (getRgn t r).journal, slots := (getRgn t r).slots }
  kept : ∀ r, ∀ b ∈ (getRgn s r).bankReqs, b ∈ (getRgn t r).bankReqs

namespace Drains
variable {s t u : State}

theorem refl (s : State) : Drains s s := ⟨rfl, rfl, fun _ => rfl, fun _ => rfl, fun _ => rfl, fun _ _ hb => hb⟩

theorem trans (h : Drains s t) (k : Drains t u) : Drains s u where
  rest := by rw [k.rest, h.rest]
  counters := k.counters.trans h.counters
  acct c := by rw [k.acct, h.acct]
  ctx c := by rw [k.ctx, h.ctx]
  rgn r := by rw [k.rgn, h.rgn]
  kept r b hb := k.kept r b (h.kept r b hb)

theorem of_asked (h : BanksAsked s t) : Drains s t where
  rest := by rw [h.rest]
  counters := by rw [h.rest]
  acct c := by
    have htlm : t.tlm = s.tlm := by rw [h.rest]
    rw [getAcct, htlm]
    rfl
  ctx c := by
    rw [getCtx, h.ctxs]
    rfl
  rgn r := by rw [h.rgn]
  kept := h.kept

theorem arrs (h : Drains s t) : t.arrs = s.arrs := by rw [h.rest]
theorem getArr (h : Drains s t) (a : Nat) : getArr t a = getArr s a := by rw [Machine.getArr, h.arrs, Machine.getArr]
theorem sideQ (h : Drains s t) (r : Nat) : (getRgn t r).sideQ = (getRgn s r).sideQ := by rw [h.rgn]
theorem findAdm (h : Drains s t) (c : Nat) (ring : W32) : findAdm (getCtx t c) ring = findAdm (getCtx s c) ring := by rw [h.ctx, Machine.findAdm, Machine.findAdm]

theorem freeSlot (s : State) (c : Nat) (sl : Option SlotRef) : Drains s (freeSlot s c sl) := by
  cases sl with
  | none => exact refl s
  | some f =>
    simp only [Machine.freeSlot]
    split
    · refine ⟨rfl, rfl, fun _ => rfl, fun e => ?_, fun _ => rfl, fun _ _ hb => hb⟩
      rw [getCtx_setCtx_if]
      split
      next h => rw [h]
      next => rfl
    · refine ⟨rfl, rfl, fun _ => rfl, fun _ => rfl, fun n => ?_, fun n b hb => ?_⟩
      · rw [getRgn_setRgn_if]
        split
        next h => rw [h]
        next => rfl
      · rw [getRgn_setRgn_if]
        split
        next h =>
          rw [h] at hb
          exact hb
        next => exact hb

/-- A journal entry is written. -/
theorem putJournal (s : State) (r k : Nat) (ws : List W64) : Drains s (putJournal s r k ws) := by
  have hentry : Drains s (setRgn s r { getRgn s r with
      journal := tset (getRgn s r).journal k { a := ws, b := ws, lostA := false, lostB := false } }) := by
    refine ⟨rfl, rfl, fun _ => rfl, fun _ => rfl, fun n => ?_, fun n b hb => ?_⟩
    · rw [getRgn_setRgn_if]
      split
      next h => rw [h]
      next => rfl
    · rw [getRgn_setRgn_if]
      split
      next h =>
        rw [h] at hb
        exact hb
      next => exact hb
  exact hentry.trans (.of_asked ((BanksAsked.askBank ..).trans (.askBank ..)))

theorem putMark (s : State) (m : Option (Nat × Nat × List W64)) : Drains s (putMark s m) := by
  unfold Machine.putMark
  split
  · exact refl s
  · split
    · exact putJournal ..
    · exact refl s

end Drains

theorem putMark_rest (s : State) (m : Option (Nat × Nat × List W64)) : putMark s m = { s with rgns := (putMark s m).rgns } := by
  unfold putMark
  split
  · rfl
  · split
    · exact putJournal_rest ..
    · rfl

/-! ### Writes of memory -/

theorem applyWrites_append (ms : Mems) (l k : List MemWrite) : applyWrites ms (l ++ k) = applyWrites (applyWrites ms l) k := List.foldl_append

theorem queuePort_mp (s : State) (c : Nat) (ring : W32) (r op aop cls a : Nat) (bs : List Byte) (sub : Option (Nat × Nat)) :
    ∃ m, queuePort s c ring r op aop cls a bs sub = { s with mp := m } := by
  unfold queuePort queueOut
  split
  · exact ⟨s.mp, rfl⟩
  · exact ⟨_, rfl⟩

/-- A write of memory is performed, charged, and queued at the region's ports. -/
theorem drainMem_of_mem {s : State} {r c : Nat} {ring : W32} {cls : Nat} {w : MemWrite} {sub : Option (Nat × Nat)} (hsp : w.sp = .mem)
    (hin : w.addr + w.bytes.length ≤ 2 ^ 57) : ∃ m, drainMem s r c ring cls w sub =
      { chargeWr { s with mems := wrBytes s.mems .mem w.addr w.bytes } c w.bytes.length with mp := m } := by
  unfold drainMem
  rw [hsp]
  dsimp only
  rw [if_neg (Nat.not_lt.mpr hin)]
  exact foldl_mp _ (fun u p => queuePort_mp ..) ..

theorem drainMem_of_spad {s : State} {r c q : Nat} {ring : W32} {cls : Nat} {w : MemWrite} {sub : Option (Nat × Nat)} (hsp : w.sp = .spad q) :
    drainMem s r c ring cls w sub = s := by
  unfold drainMem
  rw [hsp]

/-- The memory writes of a drain behind each other. -/
def drainMems (s : State) (r c : Nat) (ring : W32) (cls : Nat) (ws : List MemWrite) (sub : Option (Nat × Nat)) : State :=
  ws.foldl (fun t w => drainMem t r c ring cls w sub) s

section
variable {r c : Nat} {ring : W32} {cls : Nat} {sub : Option (Nat × Nat)}

/-- One write of memory: the bytes stand there, and the context is charged for them. -/
theorem drainMem_drains {w : MemWrite} (s : State) (h : w.sp = .mem → w.addr + w.bytes.length ≤ 2 ^ 57) :
    Drains s (drainMem s r c ring cls w sub) ∧ (drainMem s r c ring cls w sub).ctxs = s.ctxs ∧
      (drainMem s r c ring cls w sub).rgns = s.rgns ∧
      (drainMem s r c ring cls w sub).mems = applyWrites s.mems ([w].filter (fun y => y.sp == .mem)) := by
  cases hsp : w.sp with
  | spad q =>
    rw [drainMem_of_spad hsp, List.filter_cons_of_neg (by rw [hsp]; exact Bool.false_ne_true)]
    exact ⟨.refl s, rfl, rfl, rfl⟩
  | mem =>
    obtain ⟨m, hm⟩ := drainMem_of_mem (s := s) (r := r) (c := c) (ring := ring) (cls := cls) (sub := sub) hsp (h hsp)
    rw [hm, List.filter_cons_of_pos (by rw [hsp]; rfl)]
    refine ⟨⟨rfl, rfl, fun e => ?_, fun _ => rfl, fun _ => rfl, fun _ _ hb => hb⟩, rfl, rfl, ?_⟩
    · show getAcct (chargeWr { s with mems := wrBytes s.mems .mem w.addr w.bytes } c w.bytes.length) e = { getAcct s e with
        wrBytes := (getAcct (chargeWr { s with mems := wrBytes s.mems .mem w.addr w.bytes } c w.bytes.length) e).wrBytes }
      by_cases he : e = c
      · rw [he, chargeWr, getAcct_setAcct]
        rfl
      · rw [chargeWr, getAcct_setAcct_ne _ _ _ _ he]
        rfl
    · show wrBytes s.mems .mem w.addr w.bytes = wrBytes s.mems w.sp w.addr w.bytes
      rw [hsp]

theorem drainMems_drains {ws : List MemWrite} (h : Within ws) (s : State) :
    Drains s (drainMems s r c ring cls ws sub) ∧ (drainMems s r c ring cls ws sub).ctxs = s.ctxs ∧
      (drainMems s r c ring cls ws sub).rgns = s.rgns ∧
      (drainMems s r c ring cls ws sub).mems = applyWrites s.mems (ws.filter (fun y => y.sp == .mem)) := by
  induction ws generalizing s with
  | nil => exact ⟨.refl s, rfl, rfl, rfl⟩
  | cons w ws ih =>
    obtain ⟨hone, hctxs, hrgns, hmems⟩ := drainMem_drains (r := r) (c := c) (ring := ring) (cls := cls) (sub := sub) s (h w List.mem_cons_self)
    obtain ⟨hall, hctxs2, hrgns2, hmems2⟩ := ih (fun v hv => h v (List.mem_cons_of_mem _ hv)) (drainMem s r c ring cls w sub)
    have hcons : drainMems s r c ring cls (w :: ws) sub = drainMems (drainMem s r c ring cls w sub) r c ring cls ws sub := rfl
    rw [hcons]
    refine ⟨hone.trans hall, hctxs2.trans hctxs, hrgns2.trans hrgns, hmems2.trans ?_⟩
    rw [hmems, ← applyWrites_append, ← List.filter_append, List.singleton_append]

end

/-! ### The drain of a row's writes -/

/-- The lines of scratchpad but the last one ask for their banks. -/
def askLines (s : State) (c : Nat) (ring : W32) (ps : List (Nat × Nat × List Byte)) : State :=
  ps.foldl (fun u p => askBank u p.1 0 p.2.1 (.write p.2.2) (.desc c ring)) s

theorem askLines_asked (s : State) (c : Nat) (ring : W32) (ps : List (Nat × Nat × List Byte)) : BanksAsked s (askLines s c ring ps) :=
  .foldl (fun _ _ => .askBank ..) ps s

/-- What a drain does last: its last line's grant frees a slot and moves the mark, or both happen at once where no line is written. -/
def drainLast (s : State) (c : Nat) (ring : W32) (frees : Option SlotRef) (mark : Option (Nat × Nat × List W64))
    (p : Option (Nat × Nat × List Byte)) : State :=
  match p with
  | none => putMark (freeSlot s c frees) mark
  | some p => askBankFor s p.1 0 p.2.1 (.write p.2.2) (.desc c ring) (frees.map (fun f => (c, f))) mark

theorem drainFree_eq (s : State) (r c : Nat) (ring : W32) (cls : Nat) (frees : Option SlotRef) (ws : List MemWrite)
    (sub : Option (Nat × Nat)) (mark : Option (Nat × Nat × List W64)) : drainFree s r c ring cls frees ws sub mark =
    drainLast (askLines (drainMems s r c ring cls ws sub) c ring (spadPieces ws).dropLast) c ring frees mark (spadPieces ws).getLast? := rfl

theorem drainLast_drains (s : State) (c : Nat) (ring : W32) (frees : Option SlotRef) (mark : Option (Nat × Nat × List W64))
    (p : Option (Nat × Nat × List Byte)) : Drains s (drainLast s c ring frees mark p) := by
  cases p with
  | none => exact (Drains.freeSlot ..).trans (.putMark ..)
  | some p => exact .of_asked (.askBankFor ..)

theorem freeSlot_mems (s : State) (c : Nat) (sl : Option SlotRef) : (freeSlot s c sl).mems = s.mems := by
  cases sl with
  | none => rfl
  | some f =>
    simp only [freeSlot]
    split
    · rfl
    · rfl

theorem drainLast_mems (s : State) (c : Nat) (ring : W32) (frees : Option SlotRef) (mark : Option (Nat × Nat × List W64))
    (p : Option (Nat × Nat × List Byte)) : (drainLast s c ring frees mark p).mems = s.mems := by
  cases p with
  | none =>
    show (putMark (freeSlot s c frees) mark).mems = _
    rw [putMark_rest]
    exact freeSlot_mems ..
  | some p => rfl

theorem drainLast_ctxs (s : State) (c : Nat) (ring : W32) (mark : Option (Nat × Nat × List W64)) (p : Option (Nat × Nat × List Byte)) :
    (drainLast s c ring none mark p).ctxs = s.ctxs := by
  cases p with
  | none =>
    show (putMark s mark).ctxs = _
    rw [putMark_rest]
  | some p => rfl

section
variable {r c : Nat} {ring : W32} {cls : Nat} {frees : Option SlotRef} {ws : List MemWrite} {sub : Option (Nat × Nat)}
  {mark : Option (Nat × Nat × List W64)}

theorem drainFree_drains (h : Within ws) (s : State) : Drains s (drainFree s r c ring cls frees ws sub mark) := by
  rw [drainFree_eq]
  exact (drainMems_drains h s).1.trans ((Drains.of_asked (askLines_asked ..)).trans (drainLast_drains ..))

theorem drainFree_mems (h : Within ws) (s : State) :
    (drainFree s r c ring cls frees ws sub mark).mems = applyWrites s.mems (ws.filter (fun y => y.sp == .mem)) := by
  obtain ⟨-, -, -, hmems⟩ := drainMems_drains (r := r) (c := c) (ring := ring) (cls := cls) (sub := sub) h s
  rw [drainFree_eq, drainLast_mems, (askLines_asked ..).mems, hmems]

/-- Without a slot to free no context changes. -/
theorem drainWrites_ctxs (h : Within ws) (s : State) : (drainWrites s r c ring cls ws sub mark).ctxs = s.ctxs := by
  obtain ⟨-, hctxs, -, -⟩ := drainMems_drains (r := r) (c := c) (ring := ring) (cls := cls) (sub := sub) h s
  rw [drainWrites, drainFree_eq, drainLast_ctxs, (askLines_asked ..).ctxs, hctxs]

/-- Every line of scratchpad that is written asks for its bank in the drain class (R23). -/
theorem drainFree_asked (s : State) {p : Nat × Nat × List Byte} (hp : p ∈ spadPieces ws) :
    AskedFor (drainFree s r c ring cls frees ws sub mark) p.1 0 p.2.1 (.write p.2.2) := by
  rw [drainFree_eq]
  obtain hnil | ⟨l, q, hl⟩ := List.eq_nil_or_concat (spadPieces ws)
  · rw [hnil] at hp
    exact absurd hp List.not_mem_nil
  · rw [hl, List.concat_eq_append, List.getLast?_concat, List.dropLast_concat]
    rw [hl, List.concat_eq_append] at hp
    rcases List.mem_append.mp hp with hp | hp
    · exact (AskedBy.mono (.askBankFor ..) (askedBy_foldl (fun _ _ => rfl) hp _)).asked
    · rw [List.mem_singleton.mp hp]
      exact (askedBy_askBankFor ..).asked

/-- No journal entry moves before the grant of the last line, where there is one (R43). -/
theorem drainFree_journal (h : Within ws) (hmark : mark = none ∨ spadPieces ws ≠ []) (s : State) (n : Nat) :
    (getRgn (drainFree s r c ring cls none ws sub mark) n).journal = (getRgn s n).journal := by
  obtain ⟨-, -, hrgns, -⟩ := drainMems_drains (r := r) (c := c) (ring := ring) (cls := cls) (sub := sub) h s
  have hlines : (getRgn (askLines (drainMems s r c ring cls ws sub) c ring (spadPieces ws).dropLast) n).journal = (getRgn s n).journal := by
    rw [(askLines_asked ..).rgn, getRgn, hrgns]
    rfl
  rw [drainFree_eq, ← hlines]
  cases hlast : (spadPieces ws).getLast? with
  | none =>
    rcases hmark with rfl | hne
    · rfl
    · exact absurd (List.getLast?_eq_none_iff.mp hlast) hne
  | some p =>
    show (getRgn (askBankFor _ _ _ _ _ _ _ _) n).journal = _
    rw [(BanksAsked.askBankFor ..).rgn]

end

end Sys2Proof.Machine

end

section
/-!
PROOFS. Buffers that lose a row (R298), and skewed delivery (R46) settled.
-/

namespace Sys2Proof.Machine

/-! ### The pass runs again from its mark (R58, R298) -/

/-- A sub-tile that runs again from its mark, with `n` more mismatches. -/
def replayedSub (n : Nat) (u : SubTile) : SubTile := { u with misses := u.misses + n, flags := u.flags ||| flReplayed }

/-- The list of sub-tiles behind a change of one of them. -/
def mapped (t : SubTile) (f : SubTile → SubTile) (l : List SubTile) : List SubTile := l.map (fun u => if u == t then f u else u)

theorem mapped_cons_self {t : SubTile} {l : List SubTile} (f : SubTile → SubTile) (h : t ∉ l) : mapped t f (t :: l) = f t :: l := by
  rw [mapped, List.map_cons, if_pos (beq_self_eq_true t)]
  congr 1
  calc l.map (fun u => if u == t then f u else u) = l.map id :=
        List.map_congr_left fun u hu => if_neg fun (e : (u == t) = true) => h (eq_of_beq e ▸ hu)
    _ = l := List.map_id l

theorem getArr_mapSub (s : State) (r : Nat) (t : SubTile) (f : SubTile → SubTile) (b : Nat) : getArr (mapSub s r t f) b =
    if t.array = some b then { getArr s b with bound := mapped t f (getArr s b).bound } else getArr s b := by
  unfold mapSub
  dsimp only
  split
  next a ha =>
    rw [getArr_setArr_if, ha]
    by_cases h : b = a
    · rw [if_pos h, if_pos (by rw [h]), h]
      rfl
    · rw [if_neg h, if_neg fun e => h (Option.some.inj e).symm]
  next hnone =>
    rw [hnone, if_neg fun e => nomatch e]
    rfl

section
variable (s : State) (a : Nat) (w : Work) (row miss : Nat)

/-- The lanes behind a pass that starts again at row `row`, with the rows counted that are lost. -/
def rewound : State :=
  setArr (addCnt s 13 ((laneOf (getArr s a) w).results.filter (fun q => decide (row ≤ q.row))).length) a
    (setLane (getArr s a) w.e.band (rewindLane w row (laneOf (getArr s a) w)))

theorem rewind_eq : rewind s a w row miss = mapSub (rewound s a w row) (a / 4) w.t (replayedSub miss) := rfl

theorem getArr_rewound (b : Nat) : getArr (rewound s a w row) b =
    if b = a then setLane (getArr s a) w.e.band (rewindLane w row (laneOf (getArr s a) w)) else getArr s b := getArr_setArr_if ..

theorem rewind_rest : rewind s a w row miss = { s with
    rgns := (rewind s a w row miss).rgns, arrs := (rewind s a w row miss).arrs, tlm := (rewind s a w row miss).tlm } := by
  rw [rewind_eq, mapSub_rest]
  rfl

/-- An array keeps all but its lanes and what is said of the sub-tile. -/
theorem getArr_rewind (b : Nat) : getArr (rewind s a w row miss) b = { getArr s b with
    bound := (getArr (rewind s a w row miss) b).bound, lanes := (getArr (rewind s a w row miss) b).lanes } := by
  have hlane : getArr (rewound s a w row) b = { getArr s b with lanes := (getArr (rewound s a w row) b).lanes } := by
    rw [getArr_rewound]
    split
    next h =>
      rw [h]
      rfl
    next => rfl
  rw [rewind_eq, getArr_mapSub]
  split
  · rw [hlane]
  · rw [hlane]

/-- The array of the sub-tile: its lane goes back to the mark, and the sub-tile carries REPLAYED. -/
theorem getArr_rewind_self (h : w.t.array = some a) : getArr (rewind s a w row miss) a =
    { setLane (getArr s a) w.e.band (rewindLane w row (laneOf (getArr s a) w)) with
      bound := mapped w.t (replayedSub miss) (getArr s a).bound } := by
  rw [rewind_eq, getArr_mapSub, if_pos h, getArr_rewound, if_pos rfl]
  rfl

end

/-! ### Buffers that lose a row (R298) -/

theorem bufferReport_rest (s : State) (kind : BitVec 4) (unit rgn c : Nat) (ring : W32) :
    bufferReport s kind unit rgn c ring = { s with flog := (bufferReport s kind unit rgn c ring).flog } := logFault_of_replayable rfl

theorem logAt_bufferReport (s : State) (kind : BitVec 4) (unit rgn c : Nat) (ring : W32) :
    LogAt (bufferReport s kind unit rgn c ring) s.flog.next.toNat 2 0x11 0 := logAt_logFault (.inl (show (2 : BitVec 3) ≠ 1 by decide)) rfl

theorem getArr_bufferReport (s : State) (kind : BitVec 4) (unit rgn c : Nat) (ring : W32) (b : Nat) :
    getArr (bufferReport s kind unit rgn c ring) b = getArr s b := by rw [bufferReport_rest]; rfl

section
variable (s : State) (a : Nat) (w : Work)

/-- The report of a lost row, and the pass that runs again from its mark. -/
def rewoundReport : State := rewind (bufferReport s 1 a (a / 4) w.t.ctx w.t.ring) a w w.e.rowMark 0

theorem rewoundReport_rest : rewoundReport s a w = { s with rgns := (rewoundReport s a w).rgns, arrs := (rewoundReport s a w).arrs,
                                                            tlm := (rewoundReport s a w).tlm, flog := (rewoundReport s a w).flog } := by
  rw [rewoundReport, rewind_rest, bufferReport_rest]

theorem bufferLoss_eq : bufferLoss s a w = setArr (rewoundReport s a w) a { getArr (rewoundReport s a w) a with
    gather := (getArr (rewoundReport s a w) a).gather.filter (fun e => e.1 / 2 ^ 17 != w.e.band) } := rfl

theorem bufferLoss_rest : bufferLoss s a w = { s with rgns := (bufferLoss s a w).rgns, arrs := (bufferLoss s a w).arrs,
                                                      tlm := (bufferLoss s a w).tlm, flog := (bufferLoss s a w).flog } := by
  rw [bufferLoss_eq, rewoundReport_rest]
  rfl

theorem logAt_bufferLoss : LogAt (bufferLoss s a w) s.flog.next.toNat 2 0x11 0 := by
  refine (logAt_bufferReport s 1 a (a / 4) w.t.ctx w.t.ring).congr ?_
  show (rewoundReport s a w).flog = _
  rw [rewoundReport, rewind_rest]

/-- An array keeps all but its lanes, its gather buffer and what is said of the sub-tile. -/
theorem getArr_bufferLoss (b : Nat) : getArr (bufferLoss s a w) b = { getArr s b with
    bound := (getArr (bufferLoss s a w) b).bound, lanes := (getArr (bufferLoss s a w) b).lanes
    gather := (getArr (bufferLoss s a w) b).gather } := by
  have hkept : getArr (rewoundReport s a w) b = { getArr s b with
      bound := (getArr (rewoundReport s a w) b).bound, lanes := (getArr (rewoundReport s a w) b).lanes } := by
    rw [rewoundReport, getArr_rewind, getArr_bufferReport]
  rw [bufferLoss_eq, getArr_setArr_if]
  split
  next h =>
    subst h
    rw [hkept]
  next => rw [hkept]

/-- The array whose sub-tile lost the row. -/
theorem getArr_bufferLoss_self (h : w.t.array = some a) : getArr (bufferLoss s a w) a =
    { setLane (getArr s a) w.e.band (rewindLane w w.e.rowMark (laneOf (getArr s a) w)) with
      bound := mapped w.t (replayedSub 0) (getArr s a).bound
      gather := (getArr s a).gather.filter (fun e => e.1 / 2 ^ 17 != w.e.band) } := by
  have hself : getArr (rewoundReport s a w) a = { setLane (getArr s a) w.e.band (rewindLane w w.e.rowMark (laneOf (getArr s a) w)) with
      bound := mapped w.t (replayedSub 0) (getArr s a).bound } := by
    rw [rewoundReport, getArr_rewind_self _ _ _ _ _ h, getArr_bufferReport]
  rw [bufferLoss_eq, getArr_setArr, hself]
  rfl

end

/-! ### Skewed delivery (R46) -/

/-- What an uncorrectable error of a delay line leaves. -/
theorem delayLoss_kept (s : State) (a : Nat) (q : DelayRow) : (delayLoss s a q).mems = s.mems ∧ (delayLoss s a q).ctxs = s.ctxs ∧
    (getArr (delayLoss s a q) a).active = (getArr s a).active ∧ (getArr (delayLoss s a q) a).cycle = (getArr s a).cycle := by
  unfold delayLoss
  split
  next w _ => exact ⟨by rw [bufferLoss_rest], by rw [bufferLoss_rest], by rw [getArr_bufferLoss], by rw [getArr_bufferLoss]⟩
  · rw [bufferReport_rest]
    exact ⟨rfl, rfl, rfl, rfl⟩

/-- The array, behind the check of its delay line, without its oldest row. -/
def popped (s : State) (a : Nat) (q : DelayRow) (rest : List DelayRow) : State :=
  setArr s a { getArr s a with delay := rest, cycle := max (getArr s a).cycle (q.cycle + 512) }

/-- A row is delivered; its descriptor may end with it. -/
theorem deliver_eq {s : State} {a : Nat} {q : DelayRow} {rest : List DelayRow} (rs : RsResult) (h : (getArr s a).delay = q :: rest) :
    deliver s a rs = endTile (drainFree (popped (if rs == .uncorrectable then delayLoss s a q else s) a q rest) (a / 4) q.ctx q.ring 0 q.frees q.writes)
      q.ctx q.ring (a / 4) := by
  unfold deliver
  rw [h]
  rfl

/-- A descriptor without acc_out ends with its result alone. -/
theorem endTile_rest {s : State} {c : Nat} {ring : W32} {r : Nat}
    (h : ∀ d, findAdm (getCtx s c) ring = some d → dAccOut (jobOf d r).d = 0) : endTile s c ring r = { s with ctxs := (endTile s c ring r).ctxs } := by
  unfold endTile
  split
  · rfl
  next d hd =>
    split
    · rfl
    · split
      · rw [finish_rest]
      · dsimp only
        rw [h d hd]
        exact finish_rest ..

theorem getRgn_of_rgns {s t : State} (h : t.rgns = s.rgns) (r : Nat) : getRgn t r = getRgn s r := by rw [getRgn, h, getRgn]
theorem getArr_of_arrs {s t : State} (h : t.arrs = s.arrs) (a : Nat) : getArr t a = getArr s a := by rw [getArr, h, getArr]
theorem getCtx_of_ctxs {s t : State} (h : t.ctxs = s.ctxs) (c : Nat) : getCtx t c = getCtx s c := by rw [getCtx, h, getCtx]

/-- What stands behind a delivery from a state `u`, which the delay line's check has left. -/
theorem delivered {u : State} {a : Nat} {q : DelayRow} {rest : List DelayRow} (hin : Within q.writes)
    (hacc : ∀ d, findAdm (getCtx u q.ctx) q.ring = some d → dAccOut (jobOf d (a / 4)).d = 0) :
    ∃ t, endTile (drainFree (popped u a q rest) (a / 4) q.ctx q.ring 0 q.frees q.writes) q.ctx q.ring (a / 4) = t ∧
      getArr t a = { getArr u a with delay := rest, cycle := max (getArr u a).cycle (q.cycle + 512) } ∧
      t.mems = applyWrites u.mems (q.writes.filter (fun y => y.sp == .mem)) ∧
      (∀ p ∈ spadPieces q.writes, AskedFor t p.1 0 p.2.1 (.write p.2.2)) ∧ ∀ b, b ≠ a → getArr t b = getArr u b := by
  have hdrains := drainFree_drains (r := a / 4) (c := q.ctx) (ring := q.ring) (cls := 0) (frees := q.frees) (sub := none) (mark := none) hin (popped u a q rest)
  have hmems := drainFree_mems (r := a / 4) (c := q.ctx) (ring := q.ring) (cls := 0) (frees := q.frees) (sub := none) (mark := none) hin (popped u a q rest)
  have hasked : ∀ p ∈ spadPieces q.writes,
      AskedFor (drainFree (popped u a q rest) (a / 4) q.ctx q.ring 0 q.frees q.writes) p.1 0 p.2.1 (.write p.2.2) :=
    fun p hp => drainFree_asked _ hp
  generalize drainFree (popped u a q rest) (a / 4) q.ctx q.ring 0 q.frees q.writes = v at *
  have hend : endTile v q.ctx q.ring (a / 4) = { v with ctxs := (endTile v q.ctx q.ring (a / 4)).ctxs } :=
    endTile_rest fun d hd => hacc d (by rw [hdrains.findAdm] at hd; exact hd)
  have harr : ∀ b, getArr (endTile v q.ctx q.ring (a / 4)) b = getArr (popped u a q rest) b := fun b =>
    (getArr_of_arrs (by rw [hend]) b).trans (hdrains.getArr b)
  refine ⟨_, rfl, ?_, ?_, fun p hp => ?_, fun b hb => ?_⟩
  · rw [harr, popped, getArr_setArr]
  · rw [hend]
    exact hmems
  · rw [AskedFor, getRgn_of_rgns (s := v) (by rw [hend])]
    exact hasked p hp
  · rw [harr, popped, getArr_setArr_ne _ _ _ _ hb]

end Sys2Proof.Machine

open Sys2Proof Sys2Proof.Machine

/-- Settles O41: behind the check of the delay line the row is drained, and its descriptor ends at most. -/
theorem skewedRowsAreDelivered : Obligations.SkewedRowsAreDelivered := by
  intro s a q rest rs hon hpower hdelay hacc hin
  have hruns : (!s.boot.off && (s.boot.pstate == 0 || s.boot.pstate == 1)) = true := by
    rw [hon]
    rcases hpower with h | h
    · rw [h]
      rfl
    · rw [h]
      rfl
  have hexec : exec (.skewedDelivery a rs) s = .next (deliver s a.val rs) := congrArg _ (if_pos hruns)
  rw [deliver_eq rs hdelay] at hexec
  have hchecked : ∃ u, (if rs == .uncorrectable then delayLoss s a.val q else s) = u ∧ u.mems = s.mems ∧ u.ctxs = s.ctxs ∧
      (getArr u a.val).active = (getArr s a.val).active ∧ (getArr u a.val).cycle = (getArr s a.val).cycle ∧ (rs ≠ .uncorrectable → u = s) := by
    refine ⟨_, rfl, ?_⟩
    split
    next hloss =>
      obtain ⟨hmems, hctxs, hactive, hcycle⟩ := delayLoss_kept s a.val q
      exact ⟨hmems, hctxs, hactive, hcycle, fun hne => absurd (eq_of_beq hloss) hne⟩
    next => exact ⟨rfl, rfl, rfl, rfl, fun _ => rfl⟩
  obtain ⟨u, hu, hmems, hctxs, hactive, hcycle, hsame⟩ := hchecked
  rw [hu] at hexec
  obtain ⟨t, ht, harray, hbytes, hasked, hothers⟩ := delivered (u := u) (a := a.val) (rest := rest) hin
    (fun d hd => hacc d (by rw [getCtx_of_ctxs hctxs] at hd; exact hd))
  rw [ht] at hexec
  refine ⟨t, hexec, ?_, ?_, ?_, ?_, hasked, fun hrs b hb => ?_⟩
  · rw [harray]
  · rw [harray, hcycle]
  · rw [harray, hactive]
  · rw [hbytes, hmems]
  · rw [hothers b hb, hsame hrs]

end

section
/-!
PROOFS. FOLD and BMASK (R110, R208, R210, R302) settled.
-/

namespace Sys2Proof.Machine

/-! ### Descriptors that may start -/

theorem unfinished_of_dispatchable {s : State} {c : Nat} {i : W32} {d : Adm} (hfound : findAdm (getCtx s c) i = some d)
    (hfree : dispatchable s c d = true) : d.ring = i ∧ Unfinished (getCtx s c) i ∧ d.result = none := by
  have hring : (d.ring == i) = true := List.find?_some (p := fun e : Adm => e.ring == i) hfound
  simp only [dispatchable, Bool.and_eq_true] at hfree
  obtain ⟨⟨⟨⟨⟨⟨⟨-, hnone⟩, -⟩, -⟩, -⟩, -⟩, -⟩, -⟩ := hfree
  have hnone := Option.isNone_iff_eq_none.mp hnone
  exact ⟨eq_of_beq hring, ⟨d, List.mem_of_find?_eq_some hfound, eq_of_beq hring, hnone⟩, hnone⟩

/-- The descriptor of a ring index behind a change that keeps its ring index. -/
theorem findAdm_setAdm {s : State} {c : Nat} {i : W32} {d : Adm} {f : Adm → Adm} (hring : ∀ e, (f e).ring = e.ring)
    (h : findAdm (getCtx s c) i = some d) : findAdm (getCtx (setAdm s c i f) c) i = some (f d) := by
  rw [setAdm, getCtx_setCtx]
  have hkeep : ((fun e : Adm => e.ring == i) ∘ fun e => if e.ring == i then f e else e) = fun e => e.ring == i := by
    funext e
    show ((if e.ring == i then f e else e).ring == i) = _
    split
    · rw [hring]
    · rfl
  have hd : (d.ring == i) = true := List.find?_some (p := fun e : Adm => e.ring == i) h
  simp only [findAdm] at h ⊢
  rw [List.find?_map, hkeep, h, Option.map_some, if_pos hd]

/-! ### Hashes (R210) -/

theorem ceilDiv_pos {n k : Nat} (hk : k ≠ 0) (h : n ≠ 0) : ceilDiv n k ≠ 0 := by
  rw [ceilDiv]
  refine (Nat.div_pos ?_ (Nat.pos_of_ne_zero hk)).ne'
  omega

/-- A requester that has asked for hashes waits for them. -/
theorem hashesDue_askRng (s : State) (r cls unit n : Nat) (ring : W32) (h : n ≠ 0) :
    hashesDue (askRng s r cls unit ring.toNat n) r cls unit ring = true := by
  have hbatch := Nat.pos_of_ne_zero (ceilDiv_pos (k := 256) (by decide) h)
  rw [hashesDue, askRng, getRgn_setRgn]
  refine List.any_eq_true.mpr ⟨{ cls := cls, unit := unit, tag := ring.toNat, count := min 256 (n - 256 * 0), arrived := (getRgn s r).rcycle },
    List.mem_append_right _ (List.mem_map.mpr ⟨0, List.mem_range.mpr hbatch, rfl⟩), ?_⟩
  simp only [beq_self_eq_true, Bool.and_self]

theorem journal_askRng (s : State) (r cls unit tag n k : Nat) : (getRgn (askRng s r cls unit tag n) k).journal = (getRgn s k).journal := by
  rw [askRng, getRgn_setRgn_if]
  split
  next h => rw [h]
  next => rfl

/-! ### Where FOLD and BMASK run -/

/-- Both run in the first region of the mask that has lanes. -/
theorem unitStep_of_region {s : State} {c : Nat} {d : Adm} {draws : Bool} {r : Nat} {rest : List Nat} {f : List Nat → Step1}
    (hrs : unitRegions s (ceAffinity (getCtx s c).ent) ≠ []) (hhere : operandAbsent s d = false)
    (hlanes : laneRegions s draws (unitRegions s (ceAffinity (getCtx s c).ent)) = r :: rest) : unitStep s c d draws f = f (r :: rest) := by
  have hsome : (unitRegions s (ceAffinity (getCtx s c).ent)).isEmpty = false := List.isEmpty_eq_false_iff.mpr hrs
  simp only [unitStep, regionsStep, hhere, hsome, hlanes, List.isEmpty_cons, Bool.false_eq_true, if_false]

theorem foldOp_of_region {s : State} {c : Nat} {d : Adm} {r : Nat} {rest : List Nat}
    (hrs : unitRegions s (ceAffinity (getCtx s c).ent) ≠ []) (hhere : operandAbsent s d = false)
    (hlanes : laneRegions s (foldDraws d.desc) (unitRegions s (ceAffinity (getCtx s c).ent)) = r :: rest) : foldOp s c d = foldRun s c r d := by
  rw [foldOp, unitStep_of_region hrs hhere hlanes]
  dsimp only [Step1.state, List.headD_cons]

theorem bmaskOp_of_region {s : State} {c : Nat} {d : Adm} {r : Nat} {rest : List Nat}
    (hrs : unitRegions s (ceAffinity (getCtx s c).ent) ≠ []) (hhere : operandAbsent s d = false)
    (hlanes : laneRegions s true (unitRegions s (ceAffinity (getCtx s c).ent)) = r :: rest) : bmaskOp s c d = bmaskRun s c r d := by
  rw [bmaskOp, unitStep_of_region hrs hhere hlanes]
  dsimp only [Step1.state, List.headD_cons]

theorem exec_fold {s : State} {c : CtxId} {i : W32} {d : Adm} (hfound : findAdm (getCtx s c.val) i = some d) (hop : dOpcode d.desc = 0x08)
    (hfree : dispatchable s c.val d = true) (hwr : writesOutstanding s c.val i = false) (hrd : readsOutstanding s c.val i = false) :
    exec (.fold c i) s = .next (foldOp s c.val d) := by
  show execFold c i s = _
  simp only [execFold, hfound, hop, hfree, hwr, hrd, beq_self_eq_true, Bool.not_false, Bool.and_self, if_true]

theorem exec_bmask {s : State} {c : CtxId} {i : W32} {d : Adm} (hfound : findAdm (getCtx s c.val) i = some d) (hop : dOpcode d.desc = 0x13)
    (hfree : dispatchable s c.val d = true) (hwr : writesOutstanding s c.val i = false) :
    exec (.bmask c i) s = .next (bmaskOp s c.val d) := by
  show execBmask c i s = _
  simp only [execBmask, hfound, hop, hfree, hwr, beq_self_eq_true, Bool.not_false, Bool.and_self, if_true]

/-! ### FOLD (R110) -/

/-- A FOLD waits for its hashes, or goes on. -/
theorem foldRun_of_begun {s : State} {c r : Nat} {d : Adm} (h : d.emitted ≠ 0) :
    foldRun s c r d = if hashesDue s r 0 (foldUnit c) d.ring then s else foldSum s c r d := if_pos (bne_iff_ne.mpr h)

theorem foldRun_of_new {s : State} {c r k : Nat} {d : Adm} (h : d.emitted = 0) (hk : freeJournal (getRgn s r) = some k) : foldRun s c r d =
    if foldDraws d.desc && foHeads d.desc * foMt d.desc * foNt d.desc != 0 then
      askRng (setAdm (putJournal s r k (foldJournal c d)) c d.ring (fun e => { e with emitted := 1 })) r 0 (foldUnit c) d.ring.toNat
        (foHeads d.desc * foMt d.desc * foNt d.desc)
    else foldSum (putJournal s r k (foldJournal c d)) c r d := by
  rw [foldRun, if_neg (by rw [h]; exact Bool.false_ne_true), hk]

/-- A descriptor that has asked for its hashes. -/
def emittedAsk (s : State) (c r cls unit : Nat) (ring : W32) (n : Nat) : State :=
  askRng (setAdm s c ring (fun e => { e with emitted := 1 })) r cls unit ring.toNat n

theorem emittedAsk_spec {s : State} {c r cls unit n : Nat} {i : W32} {d : Adm} (hfound : findAdm (getCtx s c) i = some d)
    (hnone : d.result = none) (hn : n ≠ 0) : emittedAsk s c r cls unit i n = { s with
      ctxs := (emittedAsk s c r cls unit i n).ctxs, rgns := (emittedAsk s c r cls unit i n).rgns } ∧
    hashesDue (emittedAsk s c r cls unit i n) r cls unit i = true ∧
    (∃ e, findAdm (getCtx (emittedAsk s c r cls unit i n) c) i = some e ∧ e.emitted = 1 ∧ e.result = none) ∧
    ∀ e, e ≠ c → getCtx (emittedAsk s c r cls unit i n) e = getCtx s e :=
  ⟨rfl, hashesDue_askRng _ _ _ _ _ _ hn, ⟨_, findAdm_setAdm (fun _ => rfl) hfound, rfl, hnone⟩, fun _ he => getCtx_setAdm_ne _ _ he⟩

theorem spansAccess_congr {s t : State} {c : Nat} (reads writes : List Span) (henv : t.env = s.env) (hctx : getCtx t c = getCtx s c) :
    spansAccess t c reads writes = spansAccess s c reads writes := by
  simp only [spansAccess, memAccess, memWriteAccess, henv, hctx]

/-- Parts that do not agree end a FOLD. -/
theorem foldSum_of_bad {s : State} {c r n : Nat} {d : Adm} (haccess : spansAccess s c (foldReads (jobOf d r)) (foldWrites (jobOf d r)) = .ok)
    (hbad : foldBad s.mems (jobOf d r) = some n) :
    foldSum s c r d = finish s c d { plainResult .badRsvd d.flags with checkId := 0x03, operand := BitVec.ofNat 16 n } := by
  simp only [foldSum, haccess, hbad]

/-- The state behind a FOLD's sum: its bytes, and what it reads and writes charged. -/
def folded (s : State) (c : Nat) (j : Job) : State :=
  chargeWr (chargeRd { s with mems := (runFold s.mems j).1 } c (memBytes (foldReads j))) c (memBytes (foldWrites j))

theorem foldSum_of_good {s : State} {c r : Nat} {d : Adm} (haccess : spansAccess s c (foldReads (jobOf d r)) (foldWrites (jobOf d r)) = .ok)
    (hgood : foldBad s.mems (jobOf d r) = none) (hlong : foldShort s.mems (jobOf d r) = none) (hquiet : Unwatched s (foldWrites (jobOf d r))) :
    foldSum s c r d = finish (folded s c (jobOf d r)) c d (plainResult .ok (d.flags ||| (runFold s.mems (jobOf d r)).2)) := by
  have hwake : wakeSpans { s with mems := (runFold s.mems (jobOf d r)).1 } (foldWrites (jobOf d r)) = _ :=
    wakeSpans_of_unwatched (s := { s with mems := (runFold s.mems (jobOf d r)).1 }) hquiet
  simp only [foldSum, haccess, hgood, hlong, hwake]
  rfl

theorem folded_rest (s : State) (c : Nat) (j : Job) : folded s c j = { s with mems := (runFold s.mems j).1, tlm := (folded s c j).tlm } := rfl

theorem onlyContext_folded (s : State) (c : Nat) (j : Job) : OnlyContext s (folded s c j) c := .of_rest (fun _ _ => rfl) rfl rfl

/-- How a FOLD ends that nothing holds, from a state that differs in regions at most. -/
theorem foldSum_ends {s u : State} {c r : Nat} {i : W32} {d : Adm} (hu : u = { s with rgns := u.rgns })
    (hquiet : ∀ n, (getRgn u n).watch = (getRgn s n).watch) (hring : d.ring = i) (hopen : Unfinished (getCtx s c) i)
    (haccess : spansAccess s c (foldReads (jobOf d r)) (foldWrites (jobOf d r)) = .ok) :
    (foldBad s.mems (jobOf d r) = none → foldShort s.mems (jobOf d r) = none → Unwatched s (foldWrites (jobOf d r)) →
      ∃ t, foldSum u c r d = t ∧ t.mems = (runFold s.mems (jobOf d r)).1 ∧
        HasResult t c i (plainResult .ok (d.flags ||| (runFold s.mems (jobOf d r)).2)) ∧ OnlyContext s t c ∧ t.rgns = u.rgns) ∧
    (∀ n, foldBad s.mems (jobOf d r) = some n → ∃ t res, foldSum u c r d = t ∧ t = { s with ctxs := t.ctxs, rgns := t.rgns } ∧
      HasResult t c i res ∧ res.status = .badRsvd ∧ res.checkId = 0x03 ∧ res.operand = BitVec.ofNat 16 n) := by
  have hmems : u.mems = s.mems := by rw [hu]
  have hctxs : u.ctxs = s.ctxs := by rw [hu]
  have hctx : getCtx u c = getCtx s c := getCtx_of_ctxs hctxs c
  have haccess : spansAccess u c (foldReads (jobOf d r)) (foldWrites (jobOf d r)) = .ok :=
    (spansAccess_congr _ _ (by rw [hu]) hctx).trans haccess
  have hopen : Unfinished (getCtx u c) d.ring := by
    rw [hctx, hring]
    exact hopen
  have honly : OnlyContext s u c := .of_rest (fun e _ => getCtx_of_ctxs hctxs e) (by rw [hu]) (by rw [hu])
  refine ⟨fun hgood hlong hwatch => ?_, fun n hbad => ?_⟩
  · have hwatch : Unwatched u (foldWrites (jobOf d r)) := fun x hx k hsp w hw => hwatch x hx k hsp w (by rw [← hquiet]; exact hw)
    refine ⟨_, foldSum_of_good haccess (by rw [hmems]; exact hgood) (by rw [hmems]; exact hlong) hwatch, ?_, ?_, ?_, ?_⟩
    · rw [finish_rest, folded_rest, hmems]
    · rw [hmems, ← hring]
      exact finish_result _ hopen
    · exact (honly.trans (onlyContext_folded ..)).trans (.finish ..)
    · rw [finish_rest, folded_rest]
  · refine ⟨_, { plainResult .badRsvd d.flags with checkId := 0x03, operand := BitVec.ofNat 16 n },
      foldSum_of_bad haccess (by rw [hmems]; exact hbad), ?_, ?_, rfl, rfl, rfl⟩
    · rw [finish_rest, hu]
    · rw [← hring]
      exact finish_result _ hopen

theorem watch_putJournal (s : State) (r k : Nat) (ws : List W64) (n : Nat) : (getRgn (putJournal s r k ws) n).watch = (getRgn s n).watch := by
  rw [(Drains.putJournal s r k ws).rgn]

theorem thas_putJournal (s : State) (r k : Nat) (ws : List W64) : thas (getRgn (putJournal s r k ws) r).journal k = true := by
  rw [getRgn_putJournal, if_pos rfl]
  dsimp only
  rw [thas_tset, beq_self_eq_true, Bool.true_or]

/-! ### The bitmap (R207, R208) -/

theorem getLsbD_leBytes {L n : Nat} (h : n / 8 < L) (v : Nat) : ((leBytes L v).getD (n / 8) 0).getLsbD (n % 8) = v.testBit n := by
  induction L generalizing n v with
  | zero => exact absurd h (Nat.not_lt_zero _)
  | succ L ih =>
    by_cases hn : n < 8
    · have hzero : n / 8 = 0 := Nat.div_eq_of_lt hn
      rw [hzero, Nat.mod_eq_of_lt hn]
      show (BitVec.ofNat 8 v).getLsbD n = _
      rw [BitVec.getLsbD_ofNat, decide_eq_true hn, Bool.true_and]
    · have hdiv : n / 8 = (n - 8) / 8 + 1 := by omega
      have hmod : n % 8 = (n - 8) % 8 := by omega
      rw [hdiv, hmod]
      show ((leBytes L (v / 256)).getD ((n - 8) / 8) 0).getLsbD ((n - 8) % 8) = _
      rw [ih (by omega), show v / 256 = v / 2 ^ 8 from rfl, Nat.testBit_div_two_pow]
      congr 1
      omega

/-- The bits of a number that is built from a list of them. -/
theorem testBit_foldr {α : Type} (f : α → Bool) (l : List α) (n : Nat) :
    (l.foldr (fun i acc => b2n (f i) + 2 * acc) 0).testBit n = (l.map f).getD n false := by
  induction l generalizing n with
  | nil => simp
  | cons x l ih =>
    rw [List.foldr_cons, List.map_cons]
    cases n with
    | zero =>
      rw [Nat.testBit_zero]
      cases f x with
      | false => simp [b2n]
      | true => simp [b2n]
    | succ n =>
      rw [Nat.testBit_succ, List.getD_cons_succ, ← ih]
      congr 1
      cases f x with
      | false => simp [b2n]
      | true =>
        simp only [b2n, if_true]
        omega

/-- Bytes of a row of the bitmap. -/
def rowBytes (n : Nat) : Nat := roundUp (ceilDiv n 8) 64

theorem div_lt_rowBytes {n N : Nat} (h : n < N) : n / 8 < rowBytes N := by
  simp only [rowBytes, roundUp, ceilDiv]
  omega

theorem length_bmaskRow (dr : Draw) (p24 m n : Nat) : (bmaskRow dr p24 m n).length = rowBytes n := length_leBytes _ _

/-- Bit `n` of row `m` is its Bernoulli bit. -/
theorem getLsbD_bmaskRow (dr : Draw) (p24 m : Nat) {n N : Nat} (h : n < N) :
    ((bmaskRow dr p24 m N).getD (n / 8) 0).getLsbD (n % 8) = bernoulli dr purpBmask (m * N + n) p24 := by
  have hwidth : roundUp (ceilDiv N 8) 64 = rowBytes N := rfl
  rw [bmaskRow, hwidth, getLsbD_leBytes (div_lt_rowBytes h), testBit_foldr (fun i => bernoulli dr purpBmask (m * N + i) p24), List.getD_eq_getElem?_getD,
    List.getElem?_map, List.getElem?_range h, Option.map_some, Option.getD_some]

/-- Row `m` of rows that lie behind one another. -/
def rowWrite (sp : Space) (base w : Nat) (f : Nat → List Byte) (m : Nat) : MemWrite := { sp := sp, addr := base + m * w, bytes := f m }

theorem bmaskWrites_eq (j : Job) : bmaskWrites j = (List.range (bmM j.d)).map (rowWrite (tentSpace (jent j (bmOut j.d)) j.r)
    (jent j (bmOut j.d)).base (rowBytes (bmN j.d)) (fun m => bmaskRow j.draw (bmP24 j.d) m (bmN j.d))) := rfl

section
variable {sp : Space} {base w M : Nat} {f : Nat → List Byte}

theorem rowWrite_within (hlen : ∀ m, (f m).length = w) {y : MemWrite} (hy : y ∈ (List.range M).map (rowWrite sp base w f)) :
    y.sp = sp ∧ base ≤ y.addr ∧ y.addr + y.bytes.length ≤ base + M * w := by
  obtain ⟨m, hm, rfl⟩ := List.mem_map.mp hy
  have hlast : (m + 1) * w ≤ M * w := Nat.mul_le_mul_right w (List.mem_range.mp hm)
  refine ⟨rfl, Nat.le_add_right _ _, ?_⟩
  show base + m * w + (f m).length ≤ _
  rw [hlen, Nat.add_assoc, ← Nat.succ_mul]
  exact Nat.add_le_add_left hlast _

/-- Rows of one width do not overlap. -/
theorem rdByte_rows (hlen : ∀ m, (f m).length = w) {m k : Nat} (hm : m < M) (hk : k < w) (ms : Mems) :
    rdByte (applyWrites ms ((List.range M).map (rowWrite sp base w f))) sp (base + m * w + k) = (f m).getD k 0 := by
  induction M with
  | zero => exact absurd hm (Nat.not_lt_zero _)
  | succ M ih =>
    rw [List.range_succ, List.map_append, applyWrites_append]
    show rdByte (wrBytes _ sp (base + M * w) (f M)) sp (base + m * w + k) = _
    rcases Nat.lt_succ_iff_lt_or_eq.mp hm with hlt | rfl
    · have hrow : (m + 1) * w ≤ M * w := Nat.mul_le_mul_right w hlt
      rw [Nat.succ_mul] at hrow
      rw [rdByte_wrBytes_outside _ _ _ _ _ _ (.inr (.inl (by omega))), ih hlt]
    · rw [rdByte_wrBytes, if_pos ⟨rfl, Nat.le_add_right _ _, by rw [hlen]; omega⟩, Nat.add_sub_cancel_left]

end

/-! ### BMASK (R208) -/

theorem memWriteAccess_within {s : State} {c a n : Nat} (h : memWriteAccess s c a n = .ok) : a + n ≤ 2 ^ 57 := by
  by_contra hlt
  simp only [memWriteAccess, xlateAt, if_pos (Nat.lt_of_not_le hlt)] at h
  cases h

/-- The bitmap's rows lie below 2^57 where its span of memory can be written. -/
theorem bmaskWrites_in {s : State} {c : Nat} {j : Job} (h : spansAccess s c []
    [entSpan j (jent j (bmOut j.d)) 0 (bmM j.d * rowBytes (bmN j.d))] = .ok) : Within (bmaskWrites j) := by
  intro y hy hsp
  rw [bmaskWrites_eq] at hy
  obtain ⟨hspace, -, hend⟩ := rowWrite_within (fun m => length_bmaskRow _ _ m _) hy
  have hmem : tentSpace (jent j (bmOut j.d)) j.r = .mem := hspace.symm.trans hsp
  refine hend.trans (memWriteAccess_within (s := s) (c := c) ?_)
  have hspan : ((entSpan j (jent j (bmOut j.d)) 0 (bmM j.d * rowBytes (bmN j.d))).sp == .mem) = true := by
    show (tentSpace (jent j (bmOut j.d)) j.r == .mem) = true
    rw [hmem]
    rfl
  rw [spansAccess, List.filter_nil, List.findSome?_nil, List.filter_cons_of_pos (p := fun x : Span => x.sp == .mem) hspan, List.filter_nil, List.findSome?_cons, List.findSome?_nil] at h
  dsimp only [entSpan] at h
  rw [Nat.add_zero] at h
  revert h
  cases memWriteAccess s c (jent j (bmOut j.d)).base (bmM j.d * rowBytes (bmN j.d)) with
  | ok => exact fun _ => rfl
  | xlate a => exact fun h => nomatch h
  | poison a => exact fun h => nomatch h

theorem OnlyContext.of_drains {s t : State} (h : Drains s t) (hctxs : t.ctxs = s.ctxs) (c : Nat) : OnlyContext s t c :=
  .of_rest (fun e _ => getCtx_of_ctxs hctxs e) h.counters (by rw [h.rest])

theorem bmaskWrite_of_ok {s : State} {c r : Nat} {d : Adm} (h : spansAccess s c []
    [entSpan (jobOf d r) (jent (jobOf d r) (bmOut (jobOf d r).d)) 0 (bmM (jobOf d r).d * rowBytes (bmN (jobOf d r).d))] = .ok) :
    bmaskWrite s c r d = finish (drainWrites s r c d.ring 0 (bmaskWrites (jobOf d r))) c d (plainResult .ok d.flags) := by
  have h : spansAccess s c [] [entSpan (jobOf d r) (jent (jobOf d r) (bmOut (jobOf d r).d)) 0
      (bmM (jobOf d r).d * roundUp (ceilDiv (bmN (jobOf d r).d) 8) 64)] = .ok := h
  simp only [bmaskWrite, h]

end Sys2Proof.Machine

open Sys2Proof Sys2Proof.Machine

/-- Settles O54: both take the first region with lanes, ask for their hashes where they draw, and end behind the grants. -/
theorem foldAndBmaskComplete : Obligations.FoldAndBmaskComplete := by
  intro s c i d r rest rs j hrs hhere
  refine ⟨fun hfound hop hfree hwr hrd hlanes => ?_, fun hfound hop hfree hwr hlanes => ?_⟩
  · obtain ⟨hring, hopen, hnone⟩ := unfinished_of_dispatchable hfound hfree
    have hexec : exec (.fold c i) s = .next (foldRun s c.val r d) :=
      (exec_fold hfound hop hfree hwr hrd).trans (congrArg _ (foldOp_of_region hrs hhere hlanes))
    intro waits draws
    refine ⟨fun hnew hfull => ?_, fun k hnew hentry hdraws => ?_, fun hbegun hwait => ?_, fun hgo haccess => ?_⟩
    · rw [hexec, foldRun, hnew, hfull]
      rfl
    · obtain ⟨hdraw, hmany⟩ := hdraws
      have hask : foldRun s c.val r d = emittedAsk (putJournal s r k (foldJournal c.val d)) c.val r 0 (foldUnit c.val) i
          (foHeads d.desc * foMt d.desc * foNt d.desc) := by
        rw [foldRun_of_new hnew hentry, if_pos (by rw [hdraw, bne_iff_ne.mpr hmany]; rfl), hring]
        rfl
      obtain ⟨hrest, hdue, hadm, hothers⟩ := emittedAsk_spec (s := putJournal s r k (foldJournal c.val d)) (c := c.val) (r := r) (cls := 0)
        (unit := foldUnit c.val) hfound hnone hmany
      have hjournal : thas (getRgn (emittedAsk (putJournal s r k (foldJournal c.val d)) c.val r 0 (foldUnit c.val) i
          (foHeads d.desc * foMt d.desc * foNt d.desc)) r).journal k = true := by
        rw [emittedAsk, journal_askRng]
        exact thas_putJournal ..
      generalize emittedAsk _ _ _ _ _ _ _ = t at *
      exact ⟨t, hexec.trans (congrArg _ hask), by rw [hrest, putJournal_rest], hdue, hjournal, hadm, hothers⟩
    · have hwait : hashesDue s r 0 (foldUnit c.val) i = true := hwait
      rw [hexec, foldRun_of_begun hbegun, hring, hwait]
      rfl
    · have hsum : ∃ u, foldRun s c.val r d = foldSum u c.val r d ∧ u = { s with rgns := u.rgns } ∧
          (∀ n, (getRgn u n).watch = (getRgn s n).watch) ∧
          ∀ k, d.emitted = 0 → freeJournal (getRgn s r) = some k → thas (getRgn u r).journal k = true := by
        rcases hgo with ⟨hnew, hentry, hplain⟩ | ⟨hbegun, hcome⟩
        · obtain ⟨k, hk⟩ := Option.isSome_iff_exists.mp hentry
          refine ⟨putJournal s r k (foldJournal c.val d), ?_, rfl, fun n => watch_putJournal _ _ _ _ n, fun n _ hn => ?_⟩
          · rw [foldRun_of_new hnew hk, if_neg]
            intro h
            obtain ⟨hdraw, hmany⟩ := Bool.and_eq_true_iff.mp h
            exact hplain ⟨hdraw, bne_iff_ne.mp hmany⟩
          · cases hk.symm.trans hn
            exact thas_putJournal ..
        · have hcome : hashesDue s r 0 (foldUnit c.val) i = false := hcome
          refine ⟨s, ?_, rfl, fun _ => rfl, fun k hnew => absurd hnew hbegun⟩
          rw [foldRun_of_begun hbegun, hring, hcome]
          rfl
      obtain ⟨u, hrun, hu, hwatch, hjournal⟩ := hsum
      obtain ⟨hgood, hbad⟩ := foldSum_ends (r := r) hu hwatch hring hopen haccess
      refine ⟨fun hok hlong hquiet => ?_, fun n hn => ?_⟩
      · obtain ⟨t, ht, hmems, hres, honly, hrgns⟩ := hgood hok hlong hquiet
        refine ⟨t, hexec.trans (congrArg _ (hrun.trans ht)), hmems, hres, honly, fun k hnew hk => ?_⟩
        rw [getRgn_of_rgns hrgns]
        exact hjournal k hnew hk
      · obtain ⟨t, res, ht, hrest⟩ := hbad n hn
        exact ⟨t, res, hexec.trans (congrArg _ (hrun.trans ht)), hrest⟩
  · obtain ⟨hring, hopen, hnone⟩ := unfinished_of_dispatchable hfound hfree
    have hexec : exec (.bmask c i) s = .next (bmaskRun s c.val r d) :=
      (exec_bmask hfound hop hfree hwr).trans (congrArg _ (bmaskOp_of_region hrs hhere hlanes))
    intro o w
    refine ⟨fun hnew hmany => ?_, fun hbegun hwait => ?_, fun hgo hcome haccess => ?_⟩
    · have hask : bmaskRun s c.val r d = emittedAsk s c.val r 3 c.val i (bmM d.desc * bmN d.desc) := by
        rw [bmaskRun, if_pos (by rw [hnew, bne_iff_ne.mpr hmany]; rfl), hring]
        rfl
      obtain ⟨hrest, hdue, hadm, hothers⟩ := emittedAsk_spec (s := s) (c := c.val) (r := r) (cls := 3) (unit := c.val) hfound hnone hmany
      exact ⟨_, hexec.trans (congrArg _ hask), hrest, hdue, hadm, hothers⟩
    · rw [hexec, bmaskRun, if_neg (by rw [beq_false_of_ne hbegun]; exact Bool.false_ne_true), hring, if_pos hwait]
    · have hrun : bmaskRun s c.val r d = bmaskWrite s c.val r d := by
        rw [bmaskRun, if_neg, hring, if_neg (by rw [hcome]; exact Bool.false_ne_true)]
        intro h
        obtain ⟨hnew, hmany⟩ := Bool.and_eq_true_iff.mp h
        rcases hgo with hbegun | hnothing
        · exact hbegun (eq_of_beq hnew)
        · exact bne_iff_ne.mp hmany hnothing
      have hin : Within (bmaskWrites j) := bmaskWrites_in haccess
      have hdrains := drainFree_drains (r := r) (c := c.val) (ring := d.ring) (cls := 0) (frees := none) (sub := none) (mark := none) hin s
      have hmems := drainFree_mems (r := r) (c := c.val) (ring := d.ring) (cls := 0) (frees := none) (sub := none) (mark := none) hin s
      have hctxs := drainWrites_ctxs (r := r) (c := c.val) (ring := d.ring) (cls := 0) (sub := none) (mark := none) hin s
      have hasked : ∀ p ∈ spadPieces (bmaskWrites j), AskedFor (drainWrites s r c.val d.ring 0 (bmaskWrites j)) p.1 0 p.2.1 (.write p.2.2) :=
        fun p hp => drainFree_asked _ hp
      have hwrite := bmaskWrite_of_ok (s := s) (c := c.val) (r := r) (d := d) haccess
      have hmems : (drainWrites s r c.val d.ring 0 (bmaskWrites j)).mems = _ := hmems
      have hdrains : Drains s (drainWrites s r c.val d.ring 0 (bmaskWrites j)) := hdrains
      have hwrite : bmaskWrite s c.val r d = finish (drainWrites s r c.val d.ring 0 (bmaskWrites j)) c.val d (plainResult .ok d.flags) := hwrite
      generalize drainWrites s r c.val d.ring 0 (bmaskWrites j) = v at *
      have hall : ∀ y ∈ bmaskWrites j, y.sp = tentSpace o j.r ∧ o.base ≤ y.addr ∧ y.addr + y.bytes.length ≤ o.base + bmM j.d * w :=
        fun y hy => rowWrite_within (fun m => length_bmaskRow _ _ m _) (by rw [bmaskWrites_eq] at hy; exact hy)
      refine ⟨_, hexec.trans (congrArg _ (hrun.trans hwrite)), ?_, ?_, fun hsp => ?_, fun q hsp => ?_⟩
      · rw [← hring]
        refine finish_result _ ?_
        rw [getCtx_of_ctxs hctxs, hring]
        exact hopen
      · exact (OnlyContext.of_drains hdrains hctxs _).trans (.finish ..)
      · have hfilter : (bmaskWrites j).filter (fun y => y.sp == .mem) = bmaskWrites j :=
          List.filter_eq_self.mpr fun y hy => by rw [(hall y hy).1, hsp]; rfl
        have hbytes : (finish v c.val d (plainResult .ok d.flags)).mems = applyWrites s.mems (bmaskWrites j) := by
          rw [finish_rest, ← hfilter]
          exact hmems
        refine ⟨fun m n hm hn => ?_, fun sp k hout => ?_⟩
        · rw [hbytes, bmaskWrites_eq, ← hsp]
          exact (congrArg (fun b : Byte => b.getLsbD (n % 8)) (rdByte_rows (fun m => length_bmaskRow _ _ m _) hm (div_lt_rowBytes hn) s.mems)).trans
            (getLsbD_bmaskRow _ _ _ hn)
        · rw [hbytes]
          refine rdByte_applyWrites_outside (fun y hy => ?_) s.mems
          obtain ⟨hspace, hlo, hhi⟩ := hall y hy
          rw [hspace, hsp]
          rcases hout with h | h | h
          · exact .inl h
          · exact .inr (.inl (lt_of_lt_of_le h hlo))
          · exact .inr (.inr (hhi.trans h))
      · have hfilter : (bmaskWrites j).filter (fun y => y.sp == .mem) = [] :=
          List.filter_eq_nil_iff.mpr fun y hy => by rw [(hall y hy).1, hsp]; exact Bool.false_ne_true
        refine ⟨?_, fun m hm => ⟨bmaskRow j.draw (bmP24 j.d) m (bmN j.d), length_bmaskRow .., fun n hn => getLsbD_bmaskRow _ _ _ hn, fun y hy => ?_⟩⟩
        · rw [hfilter] at hmems
          rw [finish_rest]
          exact hmems
        · refine hasked (q, y.1, y.2) (List.mem_flatMap.mpr ⟨_, List.mem_map.mpr ⟨m, List.mem_range.mpr hm, rfl⟩, ?_⟩)
          show _ ∈ (match tentSpace o j.r with
            | .mem => []
            | .spad k => (linePieces ((bmaskRow j.draw (bmP24 j.d) m (bmN j.d)).length + 1) (o.base + m * w) (bmaskRow j.draw (bmP24 j.d) m (bmN j.d))).map
              (fun p : Nat × List Byte => (k, p.1, p.2)))
          rw [hsp, length_bmaskRow]
          exact List.mem_map.mpr ⟨y, hy, rfl⟩

end

section
/-!
PROOFS. A bank's grant of the only request (R23), and the remote atomics (R283, R284) settled.
-/

namespace Sys2Proof.Machine

/-! ### Atomics (R283) -/

theorem atomicValue_atomicNew (op : Nat) (old x y : W64) : AtomicValue op old x y (atomicNew op old x y) := by
  refine ⟨?_, ?_, ?_, ?_, ?_⟩
  · rintro rfl
    have hold := old.isLt
    have hx := x.isLt
    simp only [atomicNew, bits, BitVec.toNat_ofNat, Nat.shiftRight_eq_div_pow]
    omega
  · rintro rfl
    rfl
  · rintro rfl
    simp only [atomicNew, beq_iff_eq]
  · rintro rfl
    simp only [atomicNew]
    split
    · omega
    · omega
  · rintro rfl
    rfl

theorem atomicReport_atomicResult (op : Nat) (old : W64) : AtomicReport op old (atomicResult op old) := by
  have hold := old.isLt
  simp only [AtomicReport, atomicResult, beq_iff_eq]
  split
  · simp only [bits, BitVec.toNat_ofNat, Nat.shiftRight_eq_div_pow]
    omega
  · rfl

/-! ### The grant of a bank's only request (R23) -/

/-- A region whose only request is granted: it has left the queue. -/
def granted (s : State) (r b : Nat) : State :=
  setRgn s r { getRgn s r with
    bankReqs := []
    scycle := max (getRgn s r).scycle (tget 0 (getRgn s r).bankNext b)
    bankNext := tset (getRgn s r).bankNext b (max (getRgn s r).scycle (tget 0 (getRgn s r).bankNext b) + 1) }

/-- The only request is the next one. -/
theorem nextReq_of_only {now : Nat} {g : BankReq} {l : List BankReq} (h : l = [] ∨ ∃ op x y, g.act = .atomic op x y true) :
    nextReq now (g :: l) = some g := by
  rcases h with rfl | ⟨op, x, y, hact⟩
  · rw [nextReq]
    cases hact : (List.find? (fun q : BankReq => match q.act with
        | .atomic _ _ _ held => held
        | _ => false) [g]) with
    | none => rfl
    | some q => exact congrArg some (List.mem_singleton.mp (List.mem_of_find?_eq_some hact))
  · rw [nextReq, List.find?_cons_of_pos (by rw [hact])]
    rfl

theorem bankGrant_of_only {s : State} {r b : Nat} {g : BankReq} (hreqs : (getRgn s r).bankReqs = [g]) (hbank : bankOf g.addr = b)
    (h : scrubReq (getRgn s r) b = none ∨ ∃ op x y, g.act = .atomic op x y true) (rs : RsResult) :
    bankGrant s r b rs = performReq (granted s r b) r b g rs := by
  have hmine : (getRgn s r).bankReqs.filter (fun q => bankOf q.addr == b) = [g] := by
    rw [hreqs, List.filter_cons_of_pos (by rw [hbank, beq_self_eq_true]), List.filter_nil]
  have hnext : ∀ now, nextReq now ((getRgn s r).bankReqs.filter (fun q => bankOf q.addr == b) ++ (scrubReq (getRgn s r) b).toList) = some g := by
    intro now
    rw [hmine]
    exact nextReq_of_only (h.imp (fun hnone => by rw [hnone]; rfl) id)
  have htake : ∀ now, takeReq { getRgn s r with scycle := now, bankNext := tset (getRgn s r).bankNext b (now + 1) } b now g =
      { getRgn s r with bankReqs := [], scycle := now, bankNext := tset (getRgn s r).bankNext b (now + 1) } := by
    intro now
    have hin : (getRgn s r).bankReqs.contains g = true := by
      rw [hreqs]
      exact List.contains_iff_mem.mpr List.mem_cons_self
    have herase : (getRgn s r).bankReqs.erase g = [] := by rw [hreqs, List.erase_cons_head]
    rw [takeReq, if_pos hin]
    dsimp only
    rw [herase]
  simp only [bankGrant, hnext, htake]
  rfl

theorem exec_bankGrant_of_only {s : State} {r : RgnId} {b : Fin 512} {g : BankReq} (hruns : regionRuns s r.val = true)
    (hreqs : (getRgn s r.val).bankReqs = [g]) (hbank : bankOf g.addr = b.val)
    (h : scrubReq (getRgn s r.val) b.val = none ∨ ∃ op x y, g.act = .atomic op x y true) (rs : RsResult) :
    exec (.bankGrant r b rs none) s = .next (performReq (granted s r.val b.val) r.val b.val g rs) := by
  have hexec : exec (.bankGrant r b rs none) s = .next (bankGrant s r.val b.val rs) := by
    show execBankGrant r b rs s none = _
    simp only [execBankGrant, hruns, regionVote, if_true]
  rw [hexec, bankGrant_of_only hreqs hbank h]

theorem granted_rest (s : State) (r b : Nat) : granted s r b = { s with rgns := (granted s r b).rgns } := rfl

theorem getRgn_granted (s : State) (r b : Nat) : getRgn (granted s r b) r = { getRgn s r with
    bankReqs := [], scycle := (getRgn (granted s r b) r).scycle, bankNext := (getRgn (granted s r b) r).bankNext } := by
  rw [granted, getRgn_setRgn]

theorem getRgn_granted_ne (s : State) {r n : Nat} (b : Nat) (h : n ≠ r) : getRgn (granted s r b) n = getRgn s n := getRgn_setRgn_ne _ _ _ _ h

/-! ### An atomic's second grant (R284) -/

theorem claimEnter_rest (s : State) (k : Claim) : claimEnter s k = { s with ledger := (claimEnter s k).ledger, tlm := (claimEnter s k).tlm } := by
  unfold claimEnter
  dsimp only
  split
  · rfl
  · rfl

theorem claimAdd_rest (s : State) (c : Nat) (ring : W32) (a : W64) (op : Nat) (v : W64) :
    claimAdd s c ring a op v = { s with ledger := (claimAdd s c ring a op v).ledger, tlm := (claimAdd s c ring a op v).tlm } := by
  unfold claimAdd
  split
  · exact claimEnter_rest ..
  · rfl

/-- A word of a scratchpad changes. -/
def wordMems (s : State) (r a : Nat) (v : W64) : Mems := wrLe s.mems (.spad r) a 8 v.toNat

theorem spadAtomic_of_unwatched {s : State} {r : Nat} (a op : Nat) (x y : W64) (h : (getRgn s r).watch = []) :
    spadAtomic s r a op x y = (rd64 s.mems (.spad r) a, atomicNew op (rd64 s.mems (.spad r) a) x y,
      { s with mems := wordMems s r a (atomicNew op (rd64 s.mems (.spad r) a) x y) }) := by
  have hwake : ∀ bs, writeWaking s { sp := .spad r, addr := a, bytes := bs } = { s with mems := wrBytes s.mems (.spad r) a bs } := fun bs =>
    writeWaking_of_unwatched (w := { sp := .spad r, addr := a, bytes := bs }) fun n hn => by rw [← Space.spad.inj hn]; exact h
  simp only [spadAtomic, hwake]
  rfl

/-- The bytes of an atomic's word behind it. -/
theorem wordMems_spec (s : State) (r a : Nat) (v : W64) : rd64 (wordMems s r a v) (.spad r) a = v ∧
    ∀ sp k, (sp ≠ .spad r ∨ k < a ∨ a + 8 ≤ k) → rdByte (wordMems s r a v) sp k = rdByte s.mems sp k :=
  ⟨rd64_wrLe .., fun sp k hout => rdByte_wrBytes_outside _ _ _ _ _ _ (by rw [length_leBytes]; exact hout)⟩

/-- An atomic's second grant: its word has the new value, and its descriptor completes with the prior one. -/
theorem atomicStep_spec {s : State} {c r : Nat} {d : Adm} (hwatch : (getRgn s r).watch = []) (hopen : Unfinished (getCtx s c) d.ring) :
    let a := remoteAddr (reA d.desc)
    let old := rd64 s.mems (.spad r) a
    (atomicStep s c r d).mems = wordMems s r a (atomicNew (reOp d.desc) old (reB d.desc) (reC d.desc)) ∧
      HasResult (atomicStep s c r d) c d.ring { plainResult .ok with result := atomicResult (reOp d.desc) old } ∧
      (∀ e, e ≠ c → getCtx (atomicStep s c r d) e = getCtx s e) ∧ (atomicStep s c r d).units = s.units := by
  intro a old
  have hstep : atomicStep s c r d = finish (markRemote (setPrior (claimAdd { s with mems := wordMems s r a (atomicNew (reOp d.desc) old (reB d.desc)
      (reC d.desc)) } c d.ring (reA d.desc) (reOp d.desc) (atomicNew (reOp d.desc) old (reB d.desc) (reC d.desc))) c d.ring
      (atomicResult (reOp d.desc) old)) c d.ring true true) c d { plainResult .ok with result := atomicResult (reOp d.desc) old } := by
    simp only [atomicStep, spadAtomic_of_unwatched _ _ _ _ hwatch]
    rfl
  have hclaim := claimAdd_rest { s with mems := wordMems s r a (atomicNew (reOp d.desc) old (reB d.desc) (reC d.desc)) } c d.ring (reA d.desc)
    (reOp d.desc) (atomicNew (reOp d.desc) old (reB d.desc) (reC d.desc))
  rw [hstep]
  generalize claimAdd _ c d.ring (reA d.desc) (reOp d.desc) _ = v at *
  rw [markRemote_rest]
  refine ⟨?_, finish_result _ (unfinished_setPrior _ ?_), fun e he => ?_, ?_⟩
  · show v.mems = _
    rw [hclaim]
  · rw [getCtx_of_ctxs (s := s) (by rw [hclaim])]
    exact hopen
  · rw [getCtx_finish_ne _ _ he]
    exact (tget_tset_ne _ _ _ _ _ he).trans (getCtx_of_ctxs (s := s) (by rw [hclaim]) e)
  · show v.units = _
    rw [hclaim]

/-! ### The start of an RATOMIC (R284, R291) -/

theorem dstAccess_of_absent {s : State} {c : Nat} {a : W64} {r : Nat} (n : Nat) (hsp : remoteSpace a = .spad r) (h : isLive s .region r = false) :
    dstAccess s c a n = .absent := by
  simp only [dstAccess, hsp, h]
  rfl

theorem dstAccess_of_live {s : State} {c : Nat} {a : W64} {r : Nat} (n : Nat) (hsp : remoteSpace a = .spad r) (h : isLive s .region r = true) :
    dstAccess s c a n = .ok := by
  simp only [dstAccess, hsp, h]
  rfl

theorem remoteIssue_of_full {s : State} {c r : Nat} {d : Adm} {a : W64} {f : State → Nat → State} (hr : remoteRegion s c a = some r)
    (hfull : freeJournal (getRgn s r) = none) : remoteIssue s c d a f = s := by
  simp only [remoteIssue, hr, hfull]

theorem remoteIssue_of_free {s : State} {c r k : Nat} {d : Adm} {a : W64} {f : State → Nat → State} (hr : remoteRegion s c a = some r)
    (hk : freeJournal (getRgn s r) = some k) : remoteIssue s c d a f = f (putJournal s r k (remoteJournal c d false false)) r := by
  simp only [remoteIssue, hr, hk]

theorem remoteRegion_of_spad {s : State} {c r : Nat} {a : W64} (hsp : remoteSpace a = .spad r) (h : isLive s .region r = true) :
    remoteRegion s c a = some r := by
  simp only [remoteRegion, hsp, h, if_true]

theorem remoteRegion_of_mem {s : State} {c : Nat} {a : W64} (hsp : remoteSpace a = .mem) : remoteRegion s c a = carrier s c := by
  simp only [remoteRegion, hsp]

theorem ratomicOp_of_ok {s : State} {c : Nat} {d : Adm} (h : dstAccess s c (reA d.desc) 8 = .ok) : ratomicOp s c d =
    remoteIssue s c d (reA d.desc) (fun u r => match remoteSpace (reA d.desc) with
      | .spad q => askBank u q 3 (remoteAddr (reA d.desc)) (.atomic (reOp d.desc) (reB d.desc) (reC d.desc) false) (.desc c d.ring)
      | .mem => queuePort u c d.ring r 2 (reOp d.desc) 0 (remoteAddr (reA d.desc))
          (leBytes 8 (reB d.desc).toNat ++ (if reOp d.desc == 2 then leBytes 8 (reC d.desc).toNat else []))) := by
  simp only [ratomicOp, h] <;> rfl

theorem ratomicOp_of_absent {s : State} {c : Nat} {d : Adm} (h : dstAccess s c (reA d.desc) 8 = .absent) :
    ratomicOp s c d = finish s c d (plainResult .arraysAbsent) := by
  simp only [ratomicOp, h]
  rfl

/-- The commands of the atomics differ in the operation that they take. -/
theorem exec_atomic {s : State} {c : CtxId} {i : W32} {d : Adm} {p : Nat × Instr} (hp : p ∈ atomicCommands c i) (hstarts : Starts s c i 0x22 d)
    (hop : reOp d.desc = p.1) : exec p.2 s = .next (ratomicOp s c.val d) := by
  have hrun : ∀ k, k = p.1 → ratomicCommand s c.val i k = ratomicOp s c.val d := fun k hk =>
    (hstarts.runs _).trans (if_pos (by rw [hop, hk, beq_self_eq_true]))
  simp only [atomicCommands, List.mem_cons, List.not_mem_nil, or_false] at hp
  rcases hp with rfl | rfl | rfl | rfl | rfl
  · exact congrArg _ (hrun 0 rfl)
  · exact congrArg _ (hrun 1 rfl)
  · exact congrArg _ (hrun 2 rfl)
  · exact congrArg _ (hrun 3 rfl)
  · exact congrArg _ (hrun 4 rfl)

/-- A request of a memory port stands at its end. -/
theorem queuePort_of_port {s : State} {r a q : Nat} (c : Nat) (ring : W32) (op aop cls : Nat) (bs : List Byte) (h : portFor s r a = some q) :
    ∃ u, queuePort s c ring r op aop cls a bs = setMp s q { getMp s q with wrQ := (getMp s q).wrQ ++ [u] } ∧ u.op = op ∧ u.aop = aop ∧
      u.addr = a % 2 ^ 57 ∧ (op = 2 → u.len = 8) ∧ u.owner = .desc c ring := by
  refine ⟨{ op := op, addr := a % 2 ^ 57, asid := ceAsid (getCtx s c).ent, len := if op == 2 then 8 else bs.length, cls := cls, aop := aop, data := bs,
            owner := .desc c ring, arrived := (getMp s q).cycle, retried := false, sub := none }, ?_, rfl, rfl, rfl, fun h => ?_, rfl⟩
  · simp only [queuePort, queueOut, h]
  · exact if_pos (by rw [h]; rfl)

/-- An RATOMIC of scratchpad asks for its bank. -/
theorem ratomicOp_spad {s : State} {c r k : Nat} {d : Adm} (hsp : remoteSpace (reA d.desc) = .spad r) (hlive : isLive s .region r = true)
    (hk : freeJournal (getRgn s r) = some k) : ∃ t, ratomicOp s c d = t ∧ t = { s with rgns := t.rgns } ∧
      AskedBy t r 3 (remoteAddr (reA d.desc)) (.atomic (reOp d.desc) (reB d.desc) (reC d.desc) false) (.desc c d.ring) ∧
      thas (getRgn t r).journal k = true := by
  rw [ratomicOp_of_ok (dstAccess_of_live 8 hsp hlive), remoteIssue_of_free (remoteRegion_of_spad hsp hlive) hk, hsp]
  dsimp only
  refine ⟨_, rfl, ?_, askedBy_askBankFor .., ?_⟩
  · rw [(BanksAsked.askBank ..).rest, putJournal_rest]
  · rw [(BanksAsked.askBank ..).rgn]
    exact thas_putJournal ..

/-- One of memory goes out through a port. -/
theorem ratomicOp_mem {s : State} {c r q k : Nat} {d : Adm} (hsp : remoteSpace (reA d.desc) = .mem)
    (hok : memWriteAccess s c (remoteAddr (reA d.desc)) 8 = .ok) (hcar : carrier s c = some r)
    (hport : portFor s r (remoteAddr (reA d.desc)) = some q) (hk : freeJournal (getRgn s r) = some k) : ∃ t u, ratomicOp s c d = t ∧
      t = { s with mp := t.mp, rgns := t.rgns } ∧ (getMp t q).wrQ = (getMp s q).wrQ ++ [u] ∧ u.op = 2 ∧ u.aop = reOp d.desc ∧
      u.addr = remoteAddr (reA d.desc) % 2 ^ 57 ∧ u.len = 8 ∧ u.owner = .desc c d.ring ∧ thas (getRgn t r).journal k = true := by
  have hdst : dstAccess s c (reA d.desc) 8 = .ok := by simp only [dstAccess, hsp, hok]
  rw [ratomicOp_of_ok hdst, remoteIssue_of_free ((remoteRegion_of_mem hsp).trans hcar) hk, hsp]
  dsimp only
  have hjournal := thas_putJournal s r k (remoteJournal c d false false)
  have hrest := putJournal_rest s r k (remoteJournal c d false false)
  generalize putJournal s r k (remoteJournal c d false false) = v at *
  have hport : portFor v r (remoteAddr (reA d.desc)) = some q := by
    rw [hrest]
    exact hport
  obtain ⟨u, hu, hop, haop, haddr, hlen, howner⟩ := queuePort_of_port c d.ring 2 (reOp d.desc) 0
    (leBytes 8 (reB d.desc).toNat ++ (if reOp d.desc == 2 then leBytes 8 (reC d.desc).toNat else [])) hport
  refine ⟨_, u, hu, ?_, ?_, hop, haop, haddr, hlen rfl, howner, hjournal⟩
  · rw [hrest]
    rfl
  · rw [getMp_setMp, hrest]
    rfl

theorem remoteAddr_lt (a : W64) : remoteAddr a < 2 ^ 57 := Nat.mod_lt _ (by decide)

end Sys2Proof.Machine

open Sys2Proof Sys2Proof.Machine

/-- Settles O58: an RATOMIC's start by the space of its word, and its second grant. -/
theorem remoteAtomicsReturnPriorValue : Obligations.RemoteAtomicsReturnPriorValue := by
  refine ⟨fun s c i d p hp hstarts hop => ?_, fun s c i d r b g op x y hruns hreqs hbank hact howner hfound hnone hwatch => ?_⟩
  · have hexec := exec_atomic hp hstarts hop
    intro a
    refine ⟨fun r hsp hdead => ?_, fun r hok hr hfull => ?_, fun r k hsp hlive hk => ?_, fun r q k hsp hok hcar hport hk => ?_⟩
    · refine ⟨_, hexec.trans (congrArg _ (ratomicOp_of_absent (dstAccess_of_absent 8 hsp hdead))), ?_, by rw [finish_rest]⟩
      rw [← hstarts.ring]
      exact finish_result _ hstarts.unfinished
    · rw [hexec, ratomicOp_of_ok hok, remoteIssue_of_full hr hfull]
    · obtain ⟨t, ht, hrest, ⟨u, hu, hcls, haddr, hact, howner⟩, hjournal⟩ := ratomicOp_spad (c := c.val) hsp hlive hk
      exact ⟨t, u, hexec.trans (congrArg _ ht), hrest, hu, hcls, haddr, by rw [hact, hop], by rw [howner, hstarts.ring], hjournal⟩
    · obtain ⟨t, u, ht, hrest, hwr, hop2, haop, haddr, hlen, howner, hjournal⟩ := ratomicOp_mem hsp hok hcar hport hk
      exact ⟨t, u, hexec.trans (congrArg _ ht), hrest, hwr, hop2, haop.trans hop, haddr.trans (Nat.mod_eq_of_lt (remoteAddr_lt _)), hlen,
        by rw [howner, hstarts.ring], hjournal⟩
  · have hring : d.ring = i := eq_of_beq (List.find?_some (p := fun e : Adm => e.ring == i) hfound)
    have hopen : Unfinished (getCtx (granted s r.val b.val) c.val) d.ring := ⟨d, List.mem_of_find?_eq_some hfound, rfl, hnone⟩
    have hgrant : performReq (granted s r.val b.val) r.val b.val g .clean = atomicStep (granted s r.val b.val) c.val r.val d := by
      have hfound : (findAdm (getCtx (granted s r.val b.val) c.val) i).filter (fun d => d.result.isNone) = some d := by
        rw [show findAdm (getCtx (granted s r.val b.val) c.val) i = some d from hfound, Option.filter_some, if_pos (by rw [hnone]; rfl)]
      rw [performReq, hact]
      dsimp only
      rw [if_pos rfl, atomicGrant, howner]
      dsimp only
      rw [hfound]
    obtain ⟨hmems, hresult, hothers, hunits⟩ := atomicStep_spec (s := granted s r.val b.val) (c := c.val) (r := r.val) (d := d)
      (by rw [getRgn_granted]; exact hwatch) hopen
    obtain ⟨hword, hbytes⟩ := wordMems_spec (granted s r.val b.val) r.val (remoteAddr (reA d.desc))
      (atomicNew (reOp d.desc) (rd64 s.mems (.spad r.val) (remoteAddr (reA d.desc))) (reB d.desc) (reC d.desc))
    intro a
    refine ⟨_, _, (exec_bankGrant_of_only hruns hreqs hbank (.inr ⟨op, x, y, hact⟩) .clean).trans (congrArg _ hgrant), ?_,
      atomicReport_atomicResult .., ?_, fun sp k hout => ?_, hothers, hunits⟩
    · rw [hmems]
      rw [granted_rest] at hword ⊢
      rw [hword]
      exact atomicValue_atomicNew ..
    · rw [← hring]
      exact hresult
    · rw [hmems]
      exact hbytes sp k hout

end

section
/-!
PROOFS. The start of RWRITE and RREAD (R26, R281, R282, R302, R321) settled.
-/

namespace Sys2Proof.Machine

/-! ### Reads through ports (R26) -/

/-- A read of an owner stands in a port's queue. -/
def ReadBy (s : State) (q a n : Nat) (o : Owner) : Prop := ∃ b ∈ (getMp s q).rdQ, b.op = 0 ∧ b.addr = a ∧ b.len = n ∧ b.owner = o

theorem readBy_queueRead {s : State} {r a q : Nat} (o : Owner) (asid : BitVec 16) (cls n : Nat) (h : portFor s r a = some q) :
    ReadBy (queueRead s o asid r cls a n) q (a % 2 ^ 57) n o := by
  rw [ReadBy]
  simp only [queueRead, h]
  rw [getMp_setMp]
  exact ⟨_, List.mem_append_right _ List.mem_cons_self, rfl, rfl, rfl, rfl⟩

theorem ReadBy.queueRead {s : State} {q a n : Nat} {o : Owner} (h : ReadBy s q a n o) (p : Owner) (asid : BitVec 16) (r cls b k : Nat) :
    ReadBy (queueRead s p asid r cls b k) q a n o := by
  obtain ⟨x, hx, hrest⟩ := h
  refine ⟨x, ?_, hrest⟩
  unfold Machine.queueRead
  split
  · exact hx
  next m hm =>
    rw [getMp_setMp_if]
    split
    next e =>
      rw [e] at hx
      exact List.mem_append_left _ hx
    next => exact hx

/-- Each piece of a range that is read stands in the queue of the port that carries it. -/
theorem readBy_queueReads {s : State} {r a n q : Nat} {y : Nat × Nat} (o : Owner) (asid : BitVec 16) (cls : Nat)
    (hy : y ∈ pieces512 (n / 512 + 2) a n) (h : portFor s r y.1 = some q) :
    ReadBy (queueReads s o asid r cls a n) q (y.1 % 2 ^ 57) y.2 o := by
  have hkeep : ∀ (l : List (Nat × Nat)) (u : State), ReadBy u q (y.1 % 2 ^ 57) y.2 o →
      ReadBy (l.foldl (fun t p => queueRead t o asid r cls p.1 p.2 none) u) q (y.1 % 2 ^ 57) y.2 o := by
    intro l
    induction l with
    | nil => exact fun _ hu => hu
    | cons p l ih => exact fun u hu => ih _ (hu.queueRead o asid r cls p.1 p.2)
  unfold queueReads
  generalize pieces512 (n / 512 + 2) a n = l at hy
  induction l generalizing s with
  | nil => exact absurd hy List.not_mem_nil
  | cons p l ih =>
    rw [List.foldl_cons]
    rcases List.mem_cons.mp hy with rfl | hy
    · exact hkeep l _ (readBy_queueRead o asid cls y.2 h)
    · obtain ⟨m, hm⟩ := queueRead_rest s o asid r cls p.1 p.2
      exact ih (by rw [hm]; exact h) hy

/-- The pieces of a range begin in it. -/
theorem pieces512_lt {f a n : Nat} {y : Nat × Nat} (h : y ∈ pieces512 f a n) : y.1 < a + n := by
  induction f generalizing a n with
  | zero => exact absurd h List.not_mem_nil
  | succ f ih =>
    rw [pieces512] at h
    split at h
    · exact absurd h List.not_mem_nil
    next hn =>
      have hpos : n ≠ 0 := fun e => hn (by rw [e]; rfl)
      rcases List.mem_cons.mp h with rfl | h
      · dsimp only
        omega
      · have hlt := ih h
        omega

/-! ### The source and the destination (R279, R291, R321) -/

theorem srcAccess_of_absent {s : State} {c : Nat} {a : W64} {r : Nat} (n : Nat) (hsp : remoteSpace a = .spad r) (h : isLive s .region r = false) :
    srcAccess s c a n = .absent := by
  simp only [srcAccess, hsp, h]
  rfl

theorem srcAccess_within {s : State} {c n : Nat} {a : W64} (hsp : remoteSpace a = .mem) (h : srcAccess s c a n = .ok) :
    remoteAddr a + n ≤ 2 ^ 57 := by
  by_contra hlt
  simp only [srcAccess, hsp, memAccess, xlateAt, if_pos (Nat.lt_of_not_le hlt)] at h
  cases h

theorem copyOp_of_src_absent {s : State} {c : Nat} {d : Adm} (h : srcAccess s c (copySrc d.desc) (reLen d.desc) = .absent) :
    copyOp s c d = finish s c d (plainResult .arraysAbsent) := by
  simp only [copyOp, h]
  rfl

theorem copyOp_of_dst_absent {s : State} {c : Nat} {d : Adm} (hsrc : srcAccess s c (copySrc d.desc) (reLen d.desc) = .ok)
    (h : dstAccess s c (copyDst d.desc) (reLen d.desc) = .absent) : copyOp s c d = finish s c d (plainResult .arraysAbsent) := by
  simp only [copyOp, hsrc, h]
  rfl

/-- The region whose ports read a source: for one in memory the context's. -/
def readerOf (s : State) (c r : Nat) (d : Adm) : Nat :=
  match remoteSpace (copySrc d.desc) with
  | .spad _ => r
  | .mem => (carrier s c).getD r

theorem copyOp_of_ok {s : State} {c : Nat} {d : Adm} (hsrc : srcAccess s c (copySrc d.desc) (reLen d.desc) = .ok)
    (hdst : dstAccess s c (copyDst d.desc) (reLen d.desc) = .ok) :
    copyOp s c d = remoteIssue s c d (copyDst d.desc) (fun u r => copyReads u c (readerOf s c r d) d) := by
  simp only [copyOp, hsrc, hdst]
  rfl

/-- The reads of a source change queues alone. -/
theorem copyReads_asks (s : State) (c r : Nat) (d : Adm) : Asks s (copyReads s c r d) := by
  unfold copyReads
  dsimp only
  split
  · exact .foldl (fun _ _ => asks_askBank ..) s
  · exact .foldl (fun _ _ => asks_queueRead ..) s

theorem copyReads_rest (s : State) (c r : Nat) (d : Adm) :
    copyReads s c r d = { s with rgns := (copyReads s c r d).rgns, mp := (copyReads s c r d).mp } := by
  unfold copyReads
  dsimp only
  split
  next q _ =>
    have hasked : BanksAsked s _ := .foldl (fun u (p : Nat × List Byte) => .askBank u q 3 p.1 (.fetch p.2.length) (.desc c d.ring))
      (linePieces (reLen d.desc + 1) (remoteAddr (copySrc d.desc)) (List.replicate (reLen d.desc) 0)) s
    rw [hasked.rest]
  next =>
    obtain ⟨m, hm⟩ := queueReads_rest s (.desc c d.ring) (ceAsid (getCtx s c).ent) r 1 (remoteAddr (copySrc d.desc)) (reLen d.desc)
    rw [hm]

theorem askedBy_copyReads {s : State} {c r q : Nat} {d : Adm} (hsp : remoteSpace (copySrc d.desc) = .spad q) {y : Nat × List Byte}
    (hy : y ∈ linePieces (reLen d.desc + 1) (remoteAddr (copySrc d.desc)) (List.replicate (reLen d.desc) 0)) :
    AskedBy (copyReads s c r d) q 3 y.1 (.fetch y.2.length) (.desc c d.ring) := by
  simp only [copyReads, hsp]
  exact askedBy_foldl (rg := fun _ => q) (cls := fun _ => 3) (ad := fun p : Nat × List Byte => p.1) (act := fun p => .fetch p.2.length)
    (fun _ _ => rfl) hy s

theorem readBy_copyReads {s : State} {c r q : Nat} {d : Adm} (hsp : remoteSpace (copySrc d.desc) = .mem) {y : Nat × Nat}
    (hy : y ∈ pieces512 (reLen d.desc / 512 + 2) (remoteAddr (copySrc d.desc)) (reLen d.desc)) (h : portFor s r y.1 = some q) :
    ReadBy (copyReads s c r d) q (y.1 % 2 ^ 57) y.2 (.desc c d.ring) := by
  simp only [copyReads, hsp]
  exact readBy_queueReads _ _ _ hy h

theorem exec_copy {s : State} {c : CtxId} {i : W32} {d : Adm} {p : Nat × Instr} (hp : p ∈ [((0x20 : Nat), Instr.rwrite c i), (0x21, .rread c i)])
    (hstarts : Starts s c i p.1 d) : exec p.2 s = .next (copyOp s c.val d) := by
  simp only [List.mem_cons, List.not_mem_nil, or_false] at hp
  rcases hp with rfl | rfl
  · exact congrArg _ (hstarts.runs (fun t d => copyOp t c.val d))
  · exact congrArg _ (hstarts.runs (fun t d => copyOp t c.val d))

end Sys2Proof.Machine

open Sys2Proof Sys2Proof.Machine

/-- Settles O56: what stands at the source and the destination decides, and the reads are those of `copyReads`. -/
theorem remoteCopiesStart : Obligations.RemoteCopiesStart := by
  intro s c i d p hp hstarts
  have hexec := exec_copy hp hstarts
  have hends : ∀ res, HasResult (finish s c.val d res) c.val i res := fun res => by
    rw [← hstarts.ring]
    exact finish_result _ hstarts.unfinished
  intro src dst n
  refine ⟨fun q hsp hdead => ?_, fun r hsrc hsp hdead => ?_, fun r hsrc hdst hr => ⟨fun hfull => ?_, fun k hk => ?_⟩⟩
  · exact ⟨_, hexec.trans (congrArg _ (copyOp_of_src_absent (srcAccess_of_absent _ hsp hdead))), hends _, by rw [finish_rest]⟩
  · exact ⟨_, hexec.trans (congrArg _ (copyOp_of_dst_absent hsrc (dstAccess_of_absent _ hsp hdead))), hends _, by rw [finish_rest]⟩
  · rw [hexec, copyOp_of_ok hsrc hdst, remoteIssue_of_full hr hfull]
  · have hrun : copyOp s c.val d = copyReads (putJournal s r k (remoteJournal c.val d false false)) c.val (readerOf s c.val r d) d := by
      rw [copyOp_of_ok hsrc hdst, remoteIssue_of_free hr hk]
    refine ⟨_, hexec.trans (congrArg _ hrun), ?_, ?_, fun q hsp y hy => ?_, fun m q hsp hcar y hy hport => ?_⟩
    · rw [copyReads_rest, putJournal_rest]
    · rw [(copyReads_asks ..).rgn]
      exact thas_putJournal ..
    · rw [← hstarts.ring]
      exact askedBy_copyReads hsp hy
    · have hreader : readerOf s c.val r d = m := by
        have hsp : remoteSpace (copySrc d.desc) = .mem := hsp
        simp only [readerOf, hsp, hcar, Option.getD_some]
      have hin : y.1 < 2 ^ 57 := lt_of_lt_of_le (pieces512_lt hy) (srcAccess_within hsp hsrc)
      rw [hreader, ← hstarts.ring]
      have hread := readBy_copyReads (s := putJournal s r k (remoteJournal c.val d false false)) (c := c.val) (r := m) (q := q) hsp hy hport
      rw [Nat.mod_eq_of_lt hin] at hread
      exact hread

end

section
/-!
PROOFS. Writes of a copy's destination (R281), claims (R293, R294), and descriptors that fail with one that held them (R252).
-/

namespace Sys2Proof.Machine

/-! ### A range written line by line (R281) -/

/-- Pieces of memory written one after another. -/
def putPieces (ms : Mems) (sp : Space) (l : List (Nat × List Byte)) : Mems := l.foldl (fun m p => wrBytes m sp p.1 p.2) ms

/-- The pieces of a range write what the range does. -/
theorem rdByte_putPieces {f a : Nat} {bs : List Byte} (h : bs.length < f) (ms : Mems) (sp sp2 : Space) (x : Nat) :
    rdByte (putPieces ms sp (linePieces f a bs)) sp2 x = rdByte (wrBytes ms sp a bs) sp2 x := by
  induction f generalizing a bs ms with
  | zero => exact absurd h (Nat.not_lt_zero _)
  | succ f ih =>
    cases bs with
    | nil =>
      show rdByte ms sp2 x = _
      rw [rdByte_wrBytes_outside _ _ _ _ _ _ (by rw [List.length_nil]; omega)]
    | cons b bs =>
      show rdByte (putPieces (wrBytes ms sp a ((b :: bs).take (64 - a % 64))) sp (linePieces f (a + (64 - a % 64)) ((b :: bs).drop (64 - a % 64)))) sp2 x = _
      have hpos : 1 ≤ 64 - a % 64 := by omega
      have hsome : 1 ≤ (b :: bs).length := Nat.le_add_left _ _
      generalize 64 - a % 64 = n at hpos
      generalize b :: bs = l at h hsome ⊢
      rw [ih (by rw [List.length_drop]; omega)]
      simp only [rdByte_wrBytes, List.length_take, List.length_drop]
      by_cases hsp : sp2 = sp
      · by_cases hhi : a + n ≤ x
        · by_cases hin : x < a + l.length
          · rw [if_pos ⟨hsp, hhi, by omega⟩, if_pos ⟨hsp, by omega, hin⟩, List.getD_eq_getElem?_getD, List.getD_eq_getElem?_getD,
              List.getElem?_drop]
            congr 2
            omega
          · rw [if_neg fun e => hin (by omega), if_neg fun e => hin (by omega), if_neg fun e => hin e.2.2]
        · rw [if_neg fun e => hhi e.2.1]
          by_cases hin : a ≤ x ∧ x < a + l.length
          · rw [if_pos ⟨hsp, hin.1, by omega⟩, if_pos ⟨hsp, hin⟩, List.getD_eq_getElem?_getD, List.getD_eq_getElem?_getD,
              List.getElem?_take_of_lt (by omega)]
          · rw [if_neg fun e => hin ⟨e.2.1, by omega⟩, if_neg fun e => hin e.2]
      · rw [if_neg fun e => hsp e.1, if_neg fun e => hsp e.1, if_neg fun e => hsp e.1]

theorem rdBytes_putPieces (ms : Mems) (sp : Space) (a : Nat) (bs : List Byte) :
    rdBytes (putPieces ms sp (linePieces (bs.length + 1) a bs)) sp a bs.length = bs := by
  refine rdBytes_of_getD bs a fun k hk => ?_
  rw [rdByte_putPieces (Nat.lt_succ_self _), rdByte_wrBytes, if_pos ⟨rfl, Nat.le_add_right _ _, Nat.add_lt_add_left hk a⟩, Nat.add_sub_cancel_left]

/-! ### The ledger (R293) -/

/-- A claim that is entered stands in the ledger. -/
theorem mem_claimEnter (s : State) (k : Claim) : k ∈ (claimEnter s k).ledger := by
  unfold claimEnter
  dsimp only
  split
  · exact List.mem_append_right _ (List.mem_append_right _ List.mem_cons_self)
  next hlong =>
    show k ∈ (match s.ledger.filter (fun e => !sameWord e k) with
      | [] => (s.ledger.filter (fun e => sameWord e k && e.value != k.value) ++ [k]).drop 1
      | old :: _ => (s.ledger.filter (fun e => !sameWord e k)).filter (fun e => !sameWord e old) ++
          (s.ledger.filter (fun e => sameWord e k && e.value != k.value) ++ [k]))
    cases hothers : s.ledger.filter (fun e => !sameWord e k) with
    | cons old l => exact List.mem_append_right _ (List.mem_append_right _ List.mem_cons_self)
    | nil =>
      have hmany : 1 ≤ (s.ledger.filter (fun e => sameWord e k && e.value != k.value)).length := by
        rw [hothers] at hlong
        simp only [List.nil_append, List.length_append, List.length_singleton] at hlong
        omega
      dsimp only
      rw [List.drop_append_of_le_length hmany]
      exact List.mem_append_right _ List.mem_cons_self

theorem enterClaim_rest (s : State) (k : Option Claim) : enterClaim s k = { s with ledger := (enterClaim s k).ledger, tlm := (enterClaim s k).tlm } := by
  cases k with
  | none => rfl
  | some k => exact claimEnter_rest ..

/-! ### The destination is written (R281) -/

theorem foldl_portWrites (c : Nat) (ring : W32) (r : Nat) (l : List (Nat × List Byte)) (s : State) : ∃ m,
    l.foldl (fun t p => queuePort { t with mems := wrBytes t.mems .mem p.1 p.2 } c ring r 1 0 0 p.1 p.2) s =
      { s with mems := putPieces s.mems .mem l, mp := m } := by
  induction l generalizing s with
  | nil => exact ⟨s.mp, rfl⟩
  | cons p l ih =>
    obtain ⟨m, hm⟩ := queuePort_mp { s with mems := wrBytes s.mems .mem p.1 p.2 } c ring r 1 0 0 p.1 p.2 none
    obtain ⟨n, hn⟩ := ih (queuePort { s with mems := wrBytes s.mems .mem p.1 p.2 } c ring r 1 0 0 p.1 p.2)
    refine ⟨n, ?_⟩
    rw [List.foldl_cons, hn, hm]
    rfl

/-- A destination in a scratchpad that serves: each line asks for its bank. -/
theorem copyTo_spad {s : State} {c r : Nat} {d : Adm} (bs : List Byte) (claim : Option Claim) (hsp : remoteSpace (copyDst d.desc) = .spad r)
    (hlive : isLive s .region r = true) : (copyTo s c d bs claim).mems = s.mems ∧ (copyTo s c d bs claim).ledger = (enterClaim s claim).ledger ∧
    ∀ y ∈ linePieces (bs.length + 1) (remoteAddr (copyDst d.desc)) bs, AskedBy (copyTo s c d bs claim) r 3 y.1 (.write y.2) (.desc c d.ring) := by
  have hrun : copyTo s c d bs claim = (linePieces (bs.length + 1) (remoteAddr (copyDst d.desc)) bs).foldl
      (fun t p => askBank t r 3 p.1 (.write p.2) (.desc c d.ring)) (enterClaim s claim) := by
    simp only [copyTo, hsp, hlive, if_true]
  have hasked : BanksAsked (enterClaim s claim) (copyTo s c d bs claim) := by
    rw [hrun]
    exact .foldl (fun _ _ => .askBank ..) _ _
  refine ⟨?_, ?_, fun y hy => ?_⟩
  · rw [hasked.mems, enterClaim_rest]
  · rw [hasked.rest]
  · rw [hrun]
    exact askedBy_foldl (rg := fun _ => r) (cls := fun _ => 3) (ad := fun p : Nat × List Byte => p.1) (act := fun p => .write p.2)
      (fun _ _ => rfl) hy _

/-- One in memory: the bytes stand there, and the writes go out. -/
theorem copyTo_mem {s : State} {c r : Nat} {d : Adm} (bs : List Byte) (claim : Option Claim) (hsp : remoteSpace (copyDst d.desc) = .mem)
    (hcar : carrier s c = some r) : (copyTo s c d bs claim).mems =
      putPieces s.mems .mem (linePieces (bs.length + 1) (remoteAddr (copyDst d.desc)) bs) ∧
    (copyTo s c d bs claim).ledger = (enterClaim s claim).ledger := by
  obtain ⟨m, hm⟩ := foldl_portWrites c d.ring r (linePieces (bs.length + 1) (remoteAddr (copyDst d.desc)) bs) (chargeWr (enterClaim s claim) c bs.length)
  have hrun : copyTo s c d bs claim = { chargeWr (enterClaim s claim) c bs.length with
      mems := putPieces (chargeWr (enterClaim s claim) c bs.length).mems .mem (linePieces (bs.length + 1) (remoteAddr (copyDst d.desc)) bs), mp := m } := by
    simp only [copyTo, hsp, hcar]
    exact hm
  have hmems : (chargeWr (enterClaim s claim) c bs.length).mems = s.mems := by
    show (enterClaim s claim).mems = _
    rw [enterClaim_rest]
  rw [hrun]
  exact ⟨by rw [hmems], rfl⟩

/-! ### Descriptors that fail with one that held them (R252, R294) -/

/-- A descriptor of a ring index has a result that meets `p`. -/
def Ended (x : Context) (ring : W32) (p : Result → Prop) : Prop := ∃ e ∈ x.admitted, e.ring = ring ∧ ∃ res, e.result = some res ∧ p res

theorem ended_of_result {s : State} {c : Nat} {ring : W32} {res : Result} (h : HasResult s c ring res) : Ended (getCtx s c) ring (· = res) := by
  obtain ⟨e, he, hring, hres⟩ := h
  exact ⟨e, he, hring, res, hres, rfl⟩

theorem Ended.hasResult {s : State} {c : Nat} {ring : W32} {res : Result} (h : Ended (getCtx s c) ring (· = res)) : HasResult s c ring res := by
  obtain ⟨e, he, hring, r, hr, rfl⟩ := h
  exact ⟨e, he, hring, hr⟩

/-- What another descriptor's end leaves of a context. -/
theorem Ended.finishIn {x : Context} {ring : W32} {p : Result → Prop} (h : Ended x ring p) (k : W32) (res : Result) :
    Ended (finishIn x k res) ring p := by
  unfold Machine.finishIn
  split
  · obtain ⟨e, he, hring, r, hr, hp⟩ := h
    refine ⟨e, List.mem_map.mpr ⟨e, he, if_neg ?_⟩, hring, r, hr, hp⟩
    rw [hr, Option.isNone_some, Bool.and_false]
    exact Bool.false_ne_true
  · exact h

theorem ended_or_open {x : Context} {ring k : W32} {p : Result → Prop} {res : Result} (hp : p res) (h : Unfinished x ring) :
    Unfinished (finishIn x k res) ring ∨ Ended (finishIn x k res) ring p := by
  unfold finishIn
  split
  · obtain ⟨e, he, hring, hnone⟩ := h
    cases hk : (e.ring == k && e.result.isNone) with
    | true => exact .inr ⟨{ e with result := some res }, List.mem_map.mpr ⟨e, he, if_pos hk⟩, hring, res, rfl, hp⟩
    | false => exact .inl ⟨e, List.mem_map.mpr ⟨e, he, if_neg (by rw [hk]; exact Bool.false_ne_true)⟩, hring, hnone⟩
  · exact .inl h

/-- An early end finishes its descriptor in a context that has the same descriptors. -/
theorem getCtx_endDesc (s : State) (c : Nat) (ring : W32) (st : Status) : ∃ x f, x.admitted = (getCtx s c).admitted ∧
    getCtx (endDesc s c ring st) c = finishIn x ring { plainResult st f with result := 0 } := by
  have hdrop := (Dropped.dropSubs s (ofDesc c ring)).dropConfirmed c ring
  refine ⟨getCtx (dropConfirmed (dropSubs s (ofDesc c ring)) c ring) c, admFlags s c ring, ?_, ?_⟩
  · rw [hdrop.ctx]
  · show getCtx (finishDesc _ c ring _) c = _
    rw [finishDesc, getCtx_setCtx]

theorem ended_congr {x y : Context} {ring : W32} {p : Result → Prop} (h : x.admitted = y.admitted) : Ended x ring p ↔ Ended y ring p := by
  rw [Ended, Ended, h]

theorem unfinished_congr {x y : Context} {ring : W32} (h : x.admitted = y.admitted) : Unfinished x ring ↔ Unfinished y ring := by
  rw [Unfinished, Unfinished, h]

theorem Ended.endDesc {s : State} {c : Nat} {ring : W32} {p : Result → Prop} (h : Ended (getCtx s c) ring p) (k : W32) (st : Status) :
    Ended (getCtx (endDesc s c k st) c) ring p := by
  obtain ⟨x, f, hadm, hx⟩ := getCtx_endDesc s c k st
  rw [hx]
  exact ((ended_congr hadm).mpr h).finishIn k _

theorem Ended.foldl {c : Nat} {ring : W32} {p : Result → Prop} (st : Status) (l : List Adm) {s : State} (h : Ended (getCtx s c) ring p) :
    Ended (getCtx (l.foldl (fun t e => Machine.endDesc t c e.ring st) s) c) ring p := by
  induction l generalizing s with
  | nil => exact h
  | cons e l ih =>
    rw [List.foldl_cons]
    exact ih (h.endDesc e.ring st)

/-- Descriptors that end one after another with a status: each has it. -/
theorem ended_foldl {c : Nat} {st : Status} {p : Result → Prop} (hp : ∀ f, p { plainResult st f with result := 0 }) {l : List Adm} {s : State}
    {e : Adm} (he : e ∈ l) (h : Ended (getCtx s c) e.ring p ∨ Unfinished (getCtx s c) e.ring) :
    Ended (getCtx (l.foldl (fun t e => endDesc t c e.ring st) s) c) e.ring p := by
  induction l generalizing s with
  | nil => exact absurd he List.not_mem_nil
  | cons g l ih =>
    rw [List.foldl_cons]
    rcases h with h | hopen
    · exact (h.endDesc g.ring st).foldl st l
    · obtain ⟨x, f, hadm, hx⟩ := getCtx_endDesc s c g.ring st
      have hopen : Unfinished x e.ring := (unfinished_congr hadm).mpr hopen
      rcases List.mem_cons.mp he with rfl | he
      · refine Ended.foldl st l ?_
        obtain ⟨d, hd, hring, hres⟩ := finishIn_result { plainResult st f with result := 0 } hopen
        rw [hx]
        exact ⟨d, hd, hring, _, hres, hp f⟩
      · refine ih he ?_
        rw [hx]
        exact (ended_or_open (hp f) hopen).symm

theorem foldl_endDesc_rest (c : Nat) (st : Status) (l : List Adm) (s : State) : l.foldl (fun t e => endDesc t c e.ring st) s =
    { s with ctxs := (l.foldl (fun t e => endDesc t c e.ring st) s).ctxs, rgns := (l.foldl (fun t e => endDesc t c e.ring st) s).rgns
             arrs := (l.foldl (fun t e => endDesc t c e.ring st) s).arrs } := by
  induction l generalizing s with
  | nil => rfl
  | cons e l ih => rw [List.foldl_cons, ih, endDesc_rest]

theorem failLater_rest (s : State) (c : Nat) (ring : W32) (st : Status) : failLater s c ring st = { s with
    ctxs := (failLater s c ring st).ctxs, rgns := (failLater s c ring st).rgns, arrs := (failLater s c ring st).arrs } := foldl_endDesc_rest ..

/-- The descriptors behind one, where each has changed but its ring index. -/
theorem later_map {x y : Context} {f : Adm → Adm} (hring : ∀ e, (f e).ring = e.ring) (h : y.admitted = x.admitted.map f) (ring : W32) :
    later y ring = (later x ring).map f := by
  have hkeep : (fun d : Adm => d.ring != ring) ∘ f = fun d => d.ring != ring := by
    funext e
    show ((f e).ring != ring) = _
    rw [hring]
  rw [later, later, h, List.dropWhile_map, hkeep, List.map_drop]

theorem mem_of_mem_later {x : Context} {ring : W32} {e : Adm} (h : e ∈ later x ring) : e ∈ x.admitted :=
  (List.dropWhile_sublist _).subset (List.mem_of_mem_drop h)

end Sys2Proof.Machine

end

section
/-!
PROOFS. RWRITE and RREAD behind their source's read (R281, R282, R286, R293, R294) settled.
-/

namespace Sys2Proof.Machine

/-! ### What a descriptor still waits for (R228, R286) -/

theorem bankOutstanding_setRgn {s : State} {r : Nat} {x : Region} {c : Nat} {ring : W32}
    (h : x.bankReqs.any (fun q => q.act != .read && q.owner == .desc c ring) =
      (getRgn s r).bankReqs.any (fun q => q.act != .read && q.owner == .desc c ring)) :
    bankOutstanding (setRgn s r x) c ring = bankOutstanding s c ring :=
  any_tset (d := Region.init) (f := fun y => y.bankReqs.any (fun q => q.act != .read && q.owner == .desc c ring)) s.rgns r h rfl

/-- A journal's writes are of no descriptor. -/
theorem bankOutstanding_putJournal (s : State) (r k : Nat) (ws : List W64) (c : Nat) (ring : W32) :
    bankOutstanding (putJournal s r k ws) c ring = bankOutstanding s c ring := by
  have hask : ∀ (u : State) (a : Nat), bankOutstanding (askBank u r 0 a (.write []) .engine) c ring = bankOutstanding u c ring := fun u a => by
    refine bankOutstanding_setRgn ?_
    dsimp only
    rw [List.any_append]
    exact Bool.or_false _
  rw [putJournal, hask, hask]
  exact bankOutstanding_setRgn rfl

theorem bankOutstanding_putMark (s : State) (m : Option (Nat × Nat × List W64)) (c : Nat) (ring : W32) :
    bankOutstanding (putMark s m) c ring = bankOutstanding s c ring := by
  unfold putMark
  split
  · rfl
  · split
    · exact bankOutstanding_putJournal ..
    · rfl

theorem bankOutstanding_freeSlot (s : State) (e : Nat) (sl : Option SlotRef) (c : Nat) (ring : W32) :
    bankOutstanding (freeSlot s e sl) c ring = bankOutstanding s c ring := by
  cases sl with
  | none => rfl
  | some f =>
    simp only [freeSlot]
    split
    · rfl
    · exact bankOutstanding_setRgn rfl

/-- What a descriptor waits for stands at the ports, in the crossings and at the banks. -/
theorem awaits_congr {s t : State} {c : Nat} {ring : W32} (hbank : bankOutstanding t c ring = bankOutstanding s c ring)
    (hmp : t.mp = s.mp) (hhp : t.hp = s.hp) (hx : t.xing = s.xing) :
    readsOutstanding t c ring = readsOutstanding s c ring ∧ writesOutstanding t c ring = writesOutstanding s c ring := by
  refine ⟨?_, ?_⟩
  · rw [readsOutstanding, readsOutstanding, inFlight, inFlight, hmp, hx]
  · rw [writesOutstanding, writesOutstanding, hbank, hmp, hhp]

/-- A port that a response leaves with fewer outstanding reads. -/
theorem outstanding_tagFree {s : State} {q tag c : Nat} {ring : W32} {x : MemPort}
    (hr : readsOutstanding (setMp s q { x with wrOut := tdrop x.wrOut tag }) c ring = false)
    (hw : writesOutstanding (setMp s q { x with wrOut := tdrop x.wrOut tag }) c ring = false) :
    readsOutstanding (setMp s q (tagFree x tag)) c ring = false ∧ writesOutstanding (setMp s q (tagFree x tag)) c ring = false := by
  have hset : setMp s q (tagFree x tag) = setMp (setMp s q { x with wrOut := tdrop x.wrOut tag }) q (tagFree x tag) := by
    rw [setMp, setMp, setMp, tset_tset]
  have hget : getMp (setMp s q { x with wrOut := tdrop x.wrOut tag }) q = { x with wrOut := tdrop x.wrOut tag } := getMp_setMp ..
  generalize setMp s q { x with wrOut := tdrop x.wrOut tag } = u at *
  rw [hset]
  refine ⟨?_, ?_⟩
  · rw [readsOutstanding, Bool.or_eq_false_iff] at hr ⊢
    obtain ⟨hflight, hports⟩ := hr
    have hheld : (getMp u q).held.any (fun r => r.owner == .desc c ring) = false ∧
        ((getMp u q).rdQ.any (fun r => r.owner == .desc c ring) || (getMp u q).rdOut.any (fun r => r.2.owner == .desc c ring)) = false := by
      rcases tget_cases MemPort.init u.mp q with hinit | hin
      · rw [show getMp u q = MemPort.init from hinit]
        exact ⟨rfl, rfl⟩
      · refine ⟨?_, Bool.eq_false_iff.mpr fun h => Bool.eq_false_iff.mp hports (List.any_eq_true.mpr ⟨_, hin, h⟩)⟩
        refine Bool.eq_false_iff.mpr fun h => Bool.eq_false_iff.mp hflight ?_
        obtain ⟨r, hr, hown⟩ := List.any_eq_true.mp h
        exact List.any_eq_true.mpr ⟨r, List.mem_append_right _ (List.mem_flatMap.mpr ⟨_, hin, hr⟩), hown⟩
    rw [hget] at hheld
    obtain ⟨hheld, hown⟩ := hheld
    rw [Bool.or_eq_false_iff] at hown
    obtain ⟨hqueue, hout⟩ := hown
    refine ⟨Bool.eq_false_iff.mpr fun h => ?_, Bool.eq_false_iff.mpr fun h => ?_⟩
    · obtain ⟨r, hr, hown⟩ := List.any_eq_true.mp h
      rcases List.mem_append.mp hr with hr | hr
      · exact Bool.eq_false_iff.mp hflight (List.any_eq_true.mpr ⟨r, List.mem_append_left _ hr, hown⟩)
      · obtain ⟨e, he, hr⟩ := List.mem_flatMap.mp hr
        rcases mem_tset_cases he with rfl | he
        · exact Bool.eq_false_iff.mp hheld (List.any_eq_true.mpr ⟨r, hr, hown⟩)
        · exact Bool.eq_false_iff.mp hflight (List.any_eq_true.mpr ⟨r, List.mem_append_right _ (List.mem_flatMap.mpr ⟨e, he, hr⟩), hown⟩)
    · obtain ⟨e, he, hown⟩ := List.any_eq_true.mp h
      rcases mem_tset_cases he with rfl | he
      · rcases Bool.or_eq_true_iff.mp hown with hown | hown
        · exact Bool.eq_false_iff.mp hqueue hown
        · obtain ⟨r, hr, hown⟩ := List.any_eq_true.mp hown
          exact Bool.eq_false_iff.mp hout (List.any_eq_true.mpr ⟨r, (List.mem_filter.mp hr).1, hown⟩)
      · exact Bool.eq_false_iff.mp hports (List.any_eq_true.mpr ⟨e, he, hown⟩)
  · rw [← hw, writesOutstanding, writesOutstanding]
    have hports := any_tset (d := MemPort.init) (f := fun q => q.wrQ.any (fun r => r.owner == .desc c ring) ||
      q.wrOut.any (fun r => r.2.owner == .desc c ring)) u.mp q (v := tagFree x tag) (by rw [show tget MemPort.init u.mp q = _ from hget]; rfl) rfl
    exact congrArg (fun b => bankOutstanding u c ring || b || _) hports

/-! ### A scratchpad that is read (R282) -/

/-- A reader sees as many bytes as it asks for; outside the journal and the residency areas they are the scratchpad's. -/
theorem spadRead_spec (s : State) (r a n : Nat) : ∃ bs m, spadRead s r a n = (bs, { s with freeCnt := m }) ∧ bs.length = n ∧
    ((∀ k, k < n → inResidency s r (a + k) = false) → bs = (List.range n).map (fun k => spadByte s r (a + k))) := by
  induction n generalizing a with
  | zero => exact ⟨[], s.freeCnt, rfl, rfl, fun _ => rfl⟩
  | succ n ih =>
    obtain ⟨bs, m, hread, hlen, hbytes⟩ := ih (a + 1)
    have htail : (∀ k, k < n + 1 → inResidency s r (a + k) = false) → bs = (List.range n).map (fun k => spadByte s r (a + 1 + k)) :=
      fun h => hbytes fun k hk => by rw [Nat.add_assoc, Nat.add_comm 1 k]; exact h (k + 1) (Nat.succ_lt_succ hk)
    have hmap : (List.range (n + 1)).map (fun k => spadByte s r (a + k)) = spadByte s r a :: (List.range n).map (fun k => spadByte s r (a + 1 + k)) := by
      rw [List.range_succ_eq_map, List.map_cons, List.map_map]
      refine congrArg _ (List.map_congr_left fun k _ => ?_)
      show spadByte s r (a + (k + 1)) = _
      rw [Nat.add_assoc, Nat.add_comm 1 k]
    rw [spadRead, hread]
    dsimp only
    split
    next hin => exact ⟨_, _, rfl, by rw [List.length_cons, hlen], fun h => absurd hin (by have h0 := h 0 (Nat.succ_pos n); rw [Nat.add_zero] at h0; rw [h0]; exact Bool.false_ne_true)⟩
    next => exact ⟨_, m, rfl, by rw [List.length_cons, hlen], fun h => by rw [hmap, htail h]⟩

theorem spadByte_of_below {s : State} {r a : Nat} (h : a < 0x02FE0000) : spadByte s r a = rdByte s.mems (.spad r) a :=
  if_neg (by rw [decide_eq_true_eq]; omega)

/-! ### A copy goes on -/

/-- A descriptor's end changes each descriptor of its context, or none, and keeps the ring indices. -/
theorem finish_maps (s : State) (c : Nat) (d : Adm) (res : Result) : ∃ g : Adm → Adm, (∀ e, (g e).ring = e.ring) ∧
    (getCtx (finish s c d res) c).admitted = (getCtx s c).admitted.map g := by
  rw [finish, finishDesc, getCtx_setCtx, finishIn]
  split
  · refine ⟨_, fun e => ?_, rfl⟩
    split
    · rfl
    · rfl
  · exact ⟨id, fun _ => rfl, (List.map_id _).symm⟩

/-- A state that differs from `s` in nothing that a copy of context `c` looks at; descriptors keep their ring indices and results. -/
structure CopyFrom (s u : State) (c : Nat) : Prop where
  mems : u.mems = s.mems
  ledger : u.ledger = s.ledger
  units : u.units = s.units
  ent : (getCtx u c).ent = (getCtx s c).ent
  adm : ∃ f : Adm → Adm, (∀ e, (f e).ring = e.ring) ∧ (∀ e, (f e).result = e.result) ∧ (getCtx u c).admitted = (getCtx s c).admitted.map f

namespace CopyFrom
variable {s u : State} {c : Nat}

theorem of_ctxs (hmems : u.mems = s.mems) (hledger : u.ledger = s.ledger) (hunits : u.units = s.units) (hctxs : u.ctxs = s.ctxs) : CopyFrom s u c where
  mems := hmems
  ledger := hledger
  units := hunits
  ent := by rw [getCtx_of_ctxs hctxs]
  adm := ⟨id, fun _ => rfl, fun _ => rfl, by rw [getCtx_of_ctxs hctxs, List.map_id]⟩

/-- Then a descriptor's record of what it has copied changes. -/
theorem setCopied (h : CopyFrom s u c) (ring : W32) (l : List (Nat × List Byte)) :
    CopyFrom s (setAdm u c ring (fun e => { e with copied := l })) c := by
  obtain ⟨f, hring, hres, hadm⟩ := h.adm
  refine ⟨h.mems, h.ledger, h.units, ?_, fun e => if (f e).ring == ring then { f e with copied := l } else f e, fun e => ?_, fun e => ?_, ?_⟩
  · rw [setAdm, getCtx_setCtx]
    exact h.ent
  · dsimp only
    split
    · exact hring e
    · exact hring e
  · dsimp only
    split
    · exact hres e
    · exact hres e
  · rw [setAdm, getCtx_setCtx]
    dsimp only
    rw [hadm, List.map_map]
    rfl

theorem isLive (h : CopyFrom s u c) (k : UnitKind) (n : Nat) : isLive u k n = isLive s k n := by
  rw [Machine.isLive, unitSt, h.units, Machine.isLive, unitSt]

theorem carrier (h : CopyFrom s u c) : carrier u c = carrier s c := by
  simp only [Machine.carrier, h.ent, h.isLive]

theorem isClaim (h : CopyFrom s u c) (d : Adm) : isClaim u c d = isClaim s c d := by rw [Machine.isClaim, h.ent, Machine.isClaim]

theorem dupClaim (h : CopyFrom s u c) (d : Adm) (v : W64) : dupClaim u c d v = dupClaim s c d v := by rw [Machine.dupClaim, h.ledger, Machine.dupClaim]

theorem unfinished (h : CopyFrom s u c) {ring : W32} (hopen : Unfinished (getCtx s c) ring) : Unfinished (getCtx u c) ring := by
  obtain ⟨f, hring, hres, hadm⟩ := h.adm
  obtain ⟨e, he, hr, hnone⟩ := hopen
  exact ⟨f e, by rw [hadm]; exact List.mem_map.mpr ⟨e, he, rfl⟩, (hring e).trans hr, (hres e).trans hnone⟩

end CopyFrom

/-- A claim that the ledger holds is not performed; with ACQUIRE it fails the descriptors that it held (R293, R294). -/
theorem copyGo_dup {s u : State} {c : Nat} {d : Adm} {bs : List Byte} (h : CopyFrom s u c) (hopen : Unfinished (getCtx s c) d.ring)
    (hop : dOpcode d.desc = 0x20) (hclaim : isClaim s c d = true) (hdup : dupClaim s c d (BitVec.ofNat 64 (leNat bs)) = true) :
    (copyGo u c d bs).mems = s.mems ∧ (copyGo u c d bs).ledger = s.ledger ∧ HasResult (copyGo u c d bs) c d.ring (plainResult .dupClaim) ∧
      (dAcquire d.desc = true → ∀ e ∈ later (getCtx s c) d.ring, e.result = none →
        Ended (getCtx (copyGo u c d bs) c) e.ring (fun r => r.status = .dupClaim)) := by
  have hrun : copyGo u c d bs = if dAcquire d.desc then failLater (finish u c d (plainResult .dupClaim)) c d.ring .dupClaim
      else finish u c d (plainResult .dupClaim) := by
    simp only [copyGo, hop, h.isClaim, hclaim, h.dupClaim, hdup, beq_self_eq_true, Bool.and_self, if_true]
  have hdone : HasResult (finish u c d (plainResult .dupClaim)) c d.ring (plainResult .dupClaim) := finish_result _ (h.unfinished hopen)
  rw [hrun]
  split
  next hacq =>
    refine ⟨?_, ?_, ((ended_of_result hdone).foldl _ _).hasResult, fun _ e he hnone => ?_⟩
    · rw [failLater_rest, finish_rest, h.mems]
    · rw [failLater_rest, finish_rest, h.ledger]
    · obtain ⟨f, hring, hres, hadm⟩ := h.adm
      obtain ⟨g, hgring, hgadm⟩ := finish_maps u c d (plainResult .dupClaim)
      have hlater : g (f e) ∈ later (getCtx (finish u c d (plainResult .dupClaim)) c) d.ring := by
        rw [later_map hgring hgadm, later_map hring hadm]
        exact List.mem_map.mpr ⟨f e, List.mem_map.mpr ⟨e, he, rfl⟩, rfl⟩
      have hsame : (g (f e)).ring = e.ring := (hgring _).trans (hring e)
      have hnow : Unfinished (finishIn (getCtx u c) d.ring (plainResult .dupClaim)) e.ring ∨
          Ended (finishIn (getCtx u c) d.ring (plainResult .dupClaim)) e.ring (fun r => r.status = .dupClaim) :=
        ended_or_open (by rfl) (h.unfinished ⟨e, mem_of_mem_later he, rfl, hnone⟩)
      rw [← hsame]
      refine ended_foldl (fun _ => rfl) hlater ?_
      rw [hsame, finish, finishDesc, getCtx_setCtx]
      exact hnow.symm
  next hacq =>
    refine ⟨?_, ?_, hdone, fun h => absurd h hacq⟩
    · rw [finish_rest, h.mems]
    · rw [finish_rest, h.ledger]

/-- The claim that a copy of these bytes makes (R293). -/
def claimOf (s : State) (c : Nat) (d : Adm) (v : W64) : Option Claim :=
  if dOpcode d.desc == 0x20 && isClaim s c d then
    some { sp := remoteSpace (reA d.desc), addr := remoteAddr (reA d.desc), value := v, ctx := c, seq := dSeq d.desc }
  else none

/-- A copy that the ledger does not refuse is performed. -/
theorem copyGo_of_new {s u : State} {c : Nat} {d : Adm} {bs : List Byte} (h : CopyFrom s u c)
    (hnew : ¬((dOpcode d.desc = 0x20 ∧ isClaim s c d = true) ∧ dupClaim s c d (BitVec.ofNat 64 (leNat bs)) = true)) :
    copyGo u c d bs = copyTo u c d bs (claimOf s c d (BitVec.ofNat 64 (leNat bs))) := by
  rw [copyGo, claimOf, h.isClaim]
  dsimp only
  split
  next hclaim =>
    obtain ⟨hop, hc⟩ := Bool.and_eq_true_iff.mp hclaim
    rw [if_neg]
    intro hdup
    rw [h.dupClaim] at hdup
    exact hnew ⟨⟨eq_of_beq hop, hc⟩, hdup⟩
  next => rfl

/-- What the ledger holds behind the claim of a copy. -/
theorem ledger_claimOf {s u : State} {c : Nat} {d : Adm} (h : CopyFrom s u c) (v : W64) :
    ((dOpcode d.desc = 0x20 ∧ isClaim s c d = true) → ∃ k ∈ (enterClaim u (claimOf s c d v)).ledger,
      k.sp = remoteSpace (copyDst d.desc) ∧ k.addr = remoteAddr (copyDst d.desc) ∧ k.value = v ∧ k.ctx = c ∧ k.seq = dSeq d.desc) ∧
    (¬(dOpcode d.desc = 0x20 ∧ isClaim s c d = true) → (enterClaim u (claimOf s c d v)).ledger = s.ledger) := by
  refine ⟨fun hclaim => ?_, fun hplain => ?_⟩
  · obtain ⟨hop, hc⟩ := hclaim
    have hdst : copyDst d.desc = reA d.desc := if_neg (by rw [hop]; decide)
    rw [claimOf, if_pos (by rw [hop, hc]; rfl), hdst]
    exact ⟨_, mem_claimEnter .., rfl, rfl, rfl, rfl, rfl⟩
  · have hnone : claimOf s c d v = none := if_neg fun hclaim => hplain (by
      obtain ⟨hop, hc⟩ := Bool.and_eq_true_iff.mp hclaim
      exact ⟨eq_of_beq hop, hc⟩)
    rw [hnone]
    exact h.ledger

/-- Where a destination can be written, the claim of its copy is entered. -/
theorem ledger_copyTo {s u : State} {c : Nat} {d : Adm} (h : CopyFrom s u c) (bs : List Byte) (claim : Option Claim)
    (hdst : dstAccess s c (copyDst d.desc) (reLen d.desc) = .ok) (hcar : (carrier s c).isSome = true) :
    (copyTo u c d bs claim).ledger = (enterClaim u claim).ledger := by
  cases hsp : remoteSpace (copyDst d.desc) with
  | spad r =>
    have hlive : isLive s .region r = true := by
      simp only [dstAccess, hsp] at hdst
      split at hdst
      next hlive => exact hlive
      next => cases hdst
    exact (copyTo_spad bs claim hsp (by rw [h.isLive]; exact hlive)).2.1
  | mem =>
    obtain ⟨m, hm⟩ := Option.isSome_iff_exists.mp hcar
    exact (copyTo_mem bs claim hsp (by rw [h.carrier]; exact hm)).2

/-- What the bytes of a source that have arrived do, as the destination and the ledger decide. -/
theorem copyGo_spec {s u : State} {c : Nat} {d : Adm} {bs : List Byte} (h : CopyFrom s u c)
    (hnew : ¬((dOpcode d.desc = 0x20 ∧ isClaim s c d = true) ∧ dupClaim s c d (BitVec.ofNat 64 (leNat bs)) = true)) :
    (∀ r, remoteSpace (copyDst d.desc) = .spad r → isLive s .region r = true → (copyGo u c d bs).mems = s.mems ∧
      ∀ y ∈ linePieces (bs.length + 1) (remoteAddr (copyDst d.desc)) bs, AskedBy (copyGo u c d bs) r 3 y.1 (.write y.2) (.desc c d.ring)) ∧
    (∀ m, remoteSpace (copyDst d.desc) = .mem → carrier s c = some m →
      rdBytes (copyGo u c d bs).mems .mem (remoteAddr (copyDst d.desc)) bs.length = bs ∧
      ∀ sp k, (sp ≠ .mem ∨ k < remoteAddr (copyDst d.desc) ∨ remoteAddr (copyDst d.desc) + bs.length ≤ k) →
        rdByte (copyGo u c d bs).mems sp k = rdByte s.mems sp k) ∧
    (dstAccess s c (copyDst d.desc) (reLen d.desc) = .ok → (carrier s c).isSome = true →
      (copyGo u c d bs).ledger = (enterClaim u (claimOf s c d (BitVec.ofNat 64 (leNat bs)))).ledger) := by
  rw [copyGo_of_new h hnew]
  refine ⟨fun r hsp hlive => ?_, fun m hsp hcar => ?_, fun hdst hcar => ledger_copyTo h bs _ hdst hcar⟩
  · obtain ⟨hmems, -, hasks⟩ := copyTo_spad (s := u) (c := c) bs (claimOf s c d (BitVec.ofNat 64 (leNat bs))) hsp (by rw [h.isLive]; exact hlive)
    exact ⟨hmems.trans h.mems, hasks⟩
  · obtain ⟨hmems, -⟩ := copyTo_mem (s := u) (c := c) bs (claimOf s c d (BitVec.ofNat 64 (leNat bs))) hsp (by rw [h.carrier]; exact hcar)
    rw [hmems, h.mems]
    refine ⟨rdBytes_putPieces .., fun sp k hout => ?_⟩
    rw [rdByte_putPieces (Nat.lt_succ_self _), rdByte_wrBytes_outside _ _ _ _ _ _ hout]

/-! ### The source's read (R282) -/

theorem copying_spec {s : State} {c : Nat} {i : W32} {d : Adm} (h : copying s c i = some d) : findAdm (getCtx s c) i = some d ∧ d.ring = i ∧
    d.result = none ∧ Unfinished (getCtx s c) i := by
  obtain ⟨hfound, hp⟩ := Option.filter_eq_some_iff.mp h
  have hring : d.ring = i := eq_of_beq (List.find?_some (p := fun e : Adm => e.ring == i) hfound)
  have hnone : d.result = none := Option.isNone_iff_eq_none.mp (Bool.and_eq_true_iff.mp hp).1
  exact ⟨hfound, hring, hnone, d, List.mem_of_find?_eq_some hfound, hring, hnone⟩

theorem copying_of_ctxs {s t : State} (h : t.ctxs = s.ctxs) (c : Nat) (i : W32) : copying t c i = copying s c i := by
  rw [copying, copying, getCtx_of_ctxs h]

/-- The bytes of one line are those that have arrived. -/
theorem lineBytes (a : Nat) (bs : List Byte) : (List.range bs.length).map (fun i => (([(a, bs)].findSome? (fun p =>
    if p.1 ≤ a + i && a + i < p.1 + p.2.length then p.2[a + i - p.1]? else none)).getD 0)) = bs := by
  refine List.ext_getElem (by rw [List.length_map, List.length_range]) fun i hi hi2 => ?_
  rw [List.getElem_map, List.getElem_range, List.findSome?_cons, if_pos (by
    rw [decide_eq_true (Nat.le_add_right a i), decide_eq_true (Nat.add_lt_add_left hi2 a)]
    rfl), Nat.add_sub_cancel_left, List.getElem?_eq_getElem hi2]
  rfl

/-- A source that is one request: with its line the copy goes on. -/
theorem copyLine_of_whole {s : State} {c : Nat} {i : W32} {d : Adm} {bs : List Byte} (h : copying s c i = some d) (hnone : d.copied = [])
    (hlen : bs.length = reLen d.desc) : copyLine s c i (remoteAddr (copySrc d.desc)) bs =
      copyGo (setAdm s c i (fun e => { e with copied := [(remoteAddr (copySrc d.desc), bs)] })) c d bs := by
  have hbytes := lineBytes (remoteAddr (copySrc d.desc)) bs
  rw [hlen] at hbytes
  simp only [copyLine, h, hnone, List.nil_append, List.foldl_cons, List.foldl_nil, Nat.zero_add, hlen, Nat.lt_irrefl, if_false]
  rw [hbytes]

theorem markIssued_rest (s : State) (o : Owner) : markIssued s o = { s with rgns := (markIssued s o).rgns } := by
  unfold markIssued
  split
  · split
    · exact markRemote_rest ..
    · rfl
  · rfl

/-- The grant of a source's only request (R282): the copy goes on with its bytes. -/
theorem performReq_fetch {s : State} {r b c n : Nat} {i : W32} {d : Adm} {g : BankReq} (hcopy : copying s c i = some d) (hact : g.act = .fetch n)
    (howner : g.owner = .desc c i) (haddr : g.addr = remoteAddr (copySrc d.desc)) (hnone : d.copied = []) (hn : n = reLen d.desc) :
    ∃ u bs, performReq (granted s r b) r b g .clean = copyGo u c d bs ∧ CopyFrom s u c ∧ bs.length = n ∧
      (g.addr + n ≤ 0x02FE0000 → (∀ k, k < n → inResidency s r (g.addr + k) = false) →
        bs = (List.range n).map (fun k => spadByte s r (g.addr + k))) := by
  have hissued : markIssued (granted s r b) g.owner = { s with rgns := (markIssued (granted s r b) g.owner).rgns } := by
    rw [markIssued_rest, granted_rest]
  rw [howner] at hissued
  generalize hm : markIssued (granted s r b) (.desc c i) = m at hissued
  obtain ⟨bs, f, hread, hlen, hbytes⟩ := spadRead_spec m r g.addr n
  have hctxs : ({ m with freeCnt := f } : State).ctxs = s.ctxs := by rw [hissued]
  refine ⟨setAdm { m with freeCnt := f } c i (fun e => { e with copied := [(remoteAddr (copySrc d.desc), bs)] }), bs, ?_, ?_, hlen, fun hbelow hres => ?_⟩
  · have hgrant : performReq (granted s r b) r b g .clean = copyLine { m with freeCnt := f } c i g.addr bs := by
      have hclean : (RsResult.clean == .uncorrectable) = false := rfl
      simp only [performReq, hact, hm, readFinding, hclean, fetchGrant, Bool.false_eq_true, if_false, hread, howner]
    rw [hgrant, haddr, copyLine_of_whole ((copying_of_ctxs hctxs c i).trans hcopy) hnone (hlen.trans hn)]
  · refine CopyFrom.setCopied (.of_ctxs ?_ ?_ ?_ hctxs) i _
    · rw [hissued]
    · rw [hissued]
    · rw [hissued]
  · rw [hbytes fun k hk => by rw [hissued]; exact hres k hk]
    refine List.map_congr_left fun k hk => ?_
    have hk : k < n := List.mem_range.mp hk
    rw [spadByte_of_below (by omega), spadByte_of_below (by omega), hissued]

/-! ### The last line of a copy -/

/-- A copy whose last write has been granted or acknowledged completes (R286). -/
theorem copyDone_result {s : State} {c : Nat} {i : W32} {d : Adm} (h : copying s c i = some d) (hr : readsOutstanding s c i = false)
    (hw : writesOutstanding s c i = false) : ∃ t, copyDone s (.desc c i) = t ∧ HasResult t c i (plainResult .ok) ∧ t.mems = s.mems := by
  obtain ⟨-, hring, -, hopen⟩ := copying_spec h
  have hrun : copyDone s (.desc c i) = finish (markRemote s c i true true) c d (plainResult .ok) := by
    simp only [copyDone, h, hr, hw, Bool.or_self, Bool.false_eq_true, if_false]
  refine ⟨_, hrun, ?_, by rw [finish_rest, markRemote_rest]⟩
  rw [← hring]
  refine finish_result _ ?_
  rw [getCtx_of_ctxs (s := s) (by rw [markRemote_rest]), hring]
  exact hopen

/-- The state behind the bytes of a granted write: its slot is free, and its mark has moved. -/
def written (s : State) (r b : Nat) (g : BankReq) (bs : List Byte) : State :=
  let u := { granted s r b with mems := wrBytes s.mems (.spad r) g.addr bs }
  putMark (match g.frees with
    | some f => freeSlot u f.1 (some f.2)
    | none => u) g.mark

theorem written_drains (s : State) (r b : Nat) (g : BankReq) (bs : List Byte) :
    Drains { granted s r b with mems := wrBytes s.mems (.spad r) g.addr bs } (written s r b g bs) := by
  unfold written
  dsimp only
  split
  · exact (Drains.freeSlot ..).trans (.putMark ..)
  · exact .putMark ..

theorem written_rest (s : State) (r b : Nat) (g : BankReq) (bs : List Byte) :
    written s r b g bs = { s with mems := wrBytes s.mems (.spad r) g.addr bs, ctxs := (written s r b g bs).ctxs, rgns := (written s r b g bs).rgns } := by
  have hslot : ∀ (u : State) (e : Nat) (sl : Option SlotRef), freeSlot u e sl = { u with ctxs := (freeSlot u e sl).ctxs, rgns := (freeSlot u e sl).rgns } := by
    intro u e sl
    cases sl with
    | none => rfl
    | some f =>
      simp only [freeSlot]
      split
      · rfl
      · rfl
  unfold written
  dsimp only
  split
  · rw [putMark_rest, hslot, granted_rest]
  · rw [putMark_rest, granted_rest]

theorem bankOutstanding_written (s : State) (r b : Nat) (g : BankReq) (bs : List Byte) (c : Nat) (i : W32) :
    bankOutstanding (written s r b g bs) c i = bankOutstanding (setRgn s r { getRgn s r with bankReqs := [] }) c i := by
  have hgranted : bankOutstanding (granted s r b) c i = bankOutstanding (setRgn s r { getRgn s r with bankReqs := [] }) c i := by
    rw [granted, ← setRgn_setRgn s r { getRgn s r with bankReqs := [] }]
    refine bankOutstanding_setRgn ?_
    rw [getRgn_setRgn]
  rw [← hgranted]
  unfold written
  dsimp only
  split
  · rw [bankOutstanding_putMark, bankOutstanding_freeSlot]
    rfl
  · rw [bankOutstanding_putMark]
    rfl

theorem performReq_write {s : State} {r b c : Nat} {i : W32} {g : BankReq} {bs : List Byte} (hact : g.act = .write bs)
    (howner : g.owner = .desc c i) (hwatch : (getRgn s r).watch = []) :
    performReq (granted s r b) r b g .clean = copyDone (written s r b g bs) (.desc c i) := by
  have hwake : writeWaking (granted s r b) { sp := .spad r, addr := g.addr, bytes := bs } =
      { granted s r b with mems := wrBytes s.mems (.spad r) g.addr bs } := by
    rw [writeWaking_of_unwatched fun n hn => by rw [← Space.spad.inj hn, getRgn_granted]; exact hwatch]
    rfl
  simp only [performReq, hact, writeGrant, hwake, howner]
  rfl

end Sys2Proof.Machine

open Sys2Proof Sys2Proof.Machine

/-- Settles O57: a source's line or its read data goes on through `copyGo`, and the last grant or acknowledgement completes. -/
theorem remoteCopiesAndClaims : Obligations.RemoteCopiesAndClaims := by
  intro s c i d hcopy
  obtain ⟨hfound, hring, hnone, hopen⟩ := copying_spec hcopy
  intro src dst n asks
  refine ⟨fun q b g hruns hreqs hbank hsp hact howner haddr hcopied hscrub => ?_, fun e f cycles r x hop hcycles hx howner hheld hsrc hdst hlive hwait => ?_,
    fun r b g bs hruns hreqs hbank hact howner hwatch hscrub hwait => ?_, fun q tag prior x hx hop howner hwait => ?_⟩
  · obtain ⟨u, bs, hrun, hfrom, hlen, hbytes⟩ := performReq_fetch (r := q.val) (b := b.val) hcopy hact howner haddr hcopied rfl
    refine ⟨_, bs, (exec_bankGrant_of_only hruns hreqs hbank (.inl hscrub) .clean).trans (congrArg _ hrun), hlen, hbytes, ?_⟩
    intro v claim dup
    refine ⟨fun hdup => ?_, fun r hnew hsp hlive => ?_, fun m hnew hsp hcar => ?_, fun hnew hdst hcar => ?_⟩
    · obtain ⟨⟨hop, hclaim⟩, hd⟩ := hdup
      obtain ⟨hmems, hledger, hres, hlater⟩ := copyGo_dup hfrom (hring.symm ▸ hopen) hop hclaim hd
      rw [hring] at hres hlater
      refine ⟨hmems, hledger, hres, fun hacq e he hopen => ?_⟩
      obtain ⟨y, hy, hyring, res, hyres, hst⟩ := hlater hacq e he hopen
      exact ⟨res, ⟨y, hy, hyring, hyres⟩, hst⟩
    · obtain ⟨hspad, -, -⟩ := copyGo_spec hfrom hnew
      obtain ⟨hmems, hasked⟩ := hspad r hsp hlive
      rw [hlen, hring] at hasked
      exact ⟨hmems, hasked⟩
    · obtain ⟨-, hmem, -⟩ := copyGo_spec hfrom hnew
      have h := hmem m hsp hcar
      rw [hlen] at h
      exact h
    · obtain ⟨-, -, hledger⟩ := copyGo_spec hfrom hnew
      obtain ⟨hentered, hplain⟩ := ledger_claimOf hfrom v
      rw [hledger hdst hcar]
      exact ⟨hentered, hplain⟩
  · have hrest : presentHeld { s with xing := s.xing.erase x, xingOut := s.xingOut ++ [x] } (e.val - 36) =
        { s with xing := s.xing.erase x, xingOut := s.xingOut ++ [x] } := by
      have hheld : (getMp { s with xing := s.xing.erase x, xingOut := s.xingOut ++ [x] } (e.val - 36)).held = [] := hheld
      rw [presentHeld, hheld]
    obtain ⟨hr, hw⟩ := hwait
    have hfrom : CopyFrom s { s with xing := s.xing.erase x, xingOut := s.xingOut ++ [x] } c.val := .of_ctxs rfl rfl rfl rfl
    have hrun : exec (.crossingTransfer e f cycles) s = .next (copyGo { s with xing := s.xing.erase x, xingOut := s.xingOut ++ [x] } c.val d
        (rdBytes s.mems .mem (remoteAddr src) n)) := by
      have hcopy2 : copying { s with xing := s.xing.erase x, xingOut := s.xingOut ++ [x] } c.val i = some d := hcopy
      have hr2 : readsOutstanding { s with xing := s.xing.erase x, xingOut := s.xingOut ++ [x] } c.val i = false := hr
      have hw2 : writesOutstanding { s with xing := s.xing.erase x, xingOut := s.xingOut ++ [x] } c.val i = false := hw
      show Host.Outcome.next (crossingDeliver s e.val f.val cycles) = _
      rw [crossingDeliver, if_pos (decide_eq_true hcycles), hx]
      dsimp only
      rw [hrest, howner, copyRead]
      simp only [hcopy2, hr2, hw2, Bool.or_self, Bool.false_eq_true, if_false]
      rfl
    obtain ⟨hspad, -, -⟩ := copyGo_spec (bs := rdBytes s.mems .mem (remoteAddr src) n) hfrom fun hnew => by
      obtain ⟨⟨hwr, -⟩, -⟩ := hnew
      rw [hop] at hwr
      exact absurd hwr (by decide)
    obtain ⟨hmems, hasked⟩ := hspad r hdst hlive
    rw [length_rdBytes, hring] at hasked
    exact ⟨_, hrun, hmems, hasked⟩
  · obtain ⟨hr, hw⟩ := hwait
    have hrest := written_rest s r.val b.val g bs
    have hdrains := written_drains s r.val b.val g bs
    obtain ⟨hreads, hwrites⟩ := awaits_congr (s := setRgn s r.val { getRgn s r.val with bankReqs := [] }) (t := written s r.val b.val g bs)
      (bankOutstanding_written s r.val b.val g bs c.val i) (by rw [hrest]; rfl) (by rw [hrest]; rfl) (by rw [hrest]; rfl)
    have hcopy2 : copying (written s r.val b.val g bs) c.val i = some d := by
      rw [copying, hdrains.findAdm]
      exact hcopy
    obtain ⟨t, ht, hres, hmems⟩ := copyDone_result hcopy2 (hreads.trans hr) (hwrites.trans hw)
    have hmems : t.mems = wrBytes s.mems (.spad r.val) g.addr bs := by
      rw [hmems, hrest]
    refine ⟨t, (exec_bankGrant_of_only hruns hreqs hbank (.inl hscrub) .clean).trans (congrArg _ ((performReq_write hact howner hwatch).trans ht)), hres,
      fun k v hk => ?_, fun sp k hout => ?_⟩
    · obtain ⟨hlt, hget⟩ := List.getElem?_eq_some_iff.mp hk
      rw [hmems, rdByte_wrBytes, if_pos ⟨rfl, Nat.le_add_right _ _, Nat.add_lt_add_left hlt _⟩, Nat.add_sub_cancel_left,
        List.getD_eq_getElem _ _ hlt, hget]
    · rw [hmems, rdByte_wrBytes_outside _ _ _ _ _ _ hout]
  · obtain ⟨hr, hw⟩ := hwait
    obtain ⟨hr, hw⟩ := outstanding_tagFree hr hw
    have hcopy2 : copying (setMp s q.val (tagFree (getMp s q.val) tag.toNat)) c.val i = some d := hcopy
    obtain ⟨t, ht, hres, hmems⟩ := copyDone_result hcopy2 hr hw
    have hrun : rspReceive (setMp s q.val (tagFree (getMp s q.val) tag.toNat)) q.val x 0 prior = t := by
      rw [← ht, ← howner, rspReceive, if_neg (by rw [howner]; exact Bool.false_ne_true), if_neg (by decide), if_neg (by rw [hop]; decide)]
    exact ⟨t, (exec_mppRspReceive_of_answered prior (answered_of_write 0 hx (by rw [hop]; decide))).trans (congrArg _ hrun), hres, hmems⟩

end

section
/-!
PROOFS. The last grant of a window access (R289), refuted by a state it does not exclude.

The statement asks that the regions' table lists each region once, not that it lists them in ascending order, as the machine's own tables do.
In a table that lists region 1 before region 0, the region behind the grant is put in front and the former one stays behind: the port's
access still seems to wait, and has no answer.
-/

namespace Sys2Proof.Machine

/-- Host port 0 reads the first byte of region 0's scratchpad. -/
def windowFetch : BankReq := { cls := 3, addr := 0, act := .fetch 1, arrived := 0, owner := .host 0, frees := none }

/-- The table lists region 1 first. -/
def unorderedRegions : State :=
  { servingState Context.init with rgns := [(1, Region.init), (0, { Region.init with bankReqs := [windowFetch] })] }

theorem unorderedRegions_grants : regionRuns unorderedRegions 0 = true ∧ (getRgn unorderedRegions 0).bankReqs = [windowFetch] ∧
    bankOf windowFetch.addr = 0 ∧ (∀ e ∈ unorderedRegions.rgns, e.1 ≠ 0 → ∀ q ∈ e.2.bankReqs, q.owner ≠ .host 0) ∧
    (unorderedRegions.rgns.map (·.1)).Nodup ∧ (getHp unorderedRegions 0).wdata = [] ∧ scrubReq (getRgn unorderedRegions 0) 0 = none := by
  decide +kernel

/-- Behind the grant the port has no answer. -/
theorem resp_bankGrant_unorderedRegions : ∃ t, exec (.bankGrant 0 0 .clean none) unorderedRegions = .next t ∧ (getHp t 0).resp = .none :=
  ⟨_, rfl, by decide +kernel⟩

end Sys2Proof.Machine

open Sys2Proof Sys2Proof.Machine

/-- Refutes O51: in `unorderedRegions` the grant of the only line that host port 0 reads leaves the port without its data. -/
theorem not_windowReachesScratchpad : ¬ Obligations.WindowReachesScratchpad := by
  unfold Obligations.WindowReachesScratchpad
  rintro ⟨-, -, hgrant⟩
  obtain ⟨hruns, hreqs, hbank, hothers, hkeys, hdata, hscrub⟩ := unorderedRegions_grants
  obtain ⟨t, hexec, hfetch, -, -⟩ := hgrant unorderedRegions 0 0 0 windowFetch hruns hreqs hbank rfl hothers hkeys hdata hscrub
  obtain ⟨u, hu, hnone⟩ := resp_bankGrant_unorderedRegions
  obtain rfl := Host.Outcome.next.inj (hu.symm.trans hexec)
  obtain ⟨bs, hresp, -⟩ := hfetch 1 rfl
  have hresp : (getHp u 0).resp = .data bs := hresp
  rw [hnone] at hresp
  cases hresp

end

section
/-!
PROOFS. Mask operations from their dispatch to their first phase (R135 to R139, R301) settled.
-/

namespace Sys2Proof.Machine

/-! ### Putting an operation's progress into its descriptor -/

theorem putMask_rest (s : State) (c : Nat) (d : Adm) (m : MaskOp) :
    putMask s c d m = { s with ctxs := (setAdm s c d.ring (fun e => { e with mask := some m })).ctxs, rgns := (putMask s c d m).rgns } := by
  rw [putMask]
  cases m.jent with
  | none => rfl
  | some k => exact putJournal_rest ..

theorem getCtx_putMask (s : State) (c : Nat) (d : Adm) (m : MaskOp) (e : Nat) :
    getCtx (putMask s c d m) e = getCtx (setAdm s c d.ring (fun e => { e with mask := some m })) e := by
  rw [putMask_rest]
  rfl

theorem OnlyContext.putMask (s : State) (c : Nat) (d : Adm) (m : MaskOp) : OnlyContext s (putMask s c d m) c := by
  refine .of_rest (fun e he => (getCtx_putMask s c d m e).trans (getCtx_setAdm_ne _ _ he)) ?_ ?_
  · rw [putMask_rest]
  · rw [putMask_rest]

theorem findAdm_putMask {s : State} {c : Nat} {d e : Adm} (m : MaskOp) (h : findAdm (getCtx s c) d.ring = some e) :
    findAdm (getCtx (putMask s c d m) c) d.ring = some { e with mask := some m } := by
  rw [getCtx_putMask]
  exact findAdm_setAdm (f := fun e => { e with mask := some m }) (fun _ => rfl) h

/-- A descriptor of the operation's ring index then carries the progress. -/
theorem masked_putMask {s : State} {c : Nat} {d e : Adm} (m : MaskOp) (hmem : e ∈ (getCtx s c).admitted) (hring : e.ring = d.ring) :
    ∃ x ∈ (getCtx (putMask s c d m) c).admitted, x.ring = d.ring ∧ x.mask = some m := by
  rw [getCtx_putMask, ← hring]
  exact ⟨_, mem_admitted_setAdm (f := fun e => { e with mask := some m }) hmem, rfl, rfl⟩

theorem thas_putMask {s : State} {c k : Nat} {d : Adm} {m : MaskOp} (h : m.jent = some k) :
    thas (getRgn (putMask s c d m) m.region).journal k = true := by
  rw [putMask, h]
  exact thas_putJournal ..

/-! ### Where a mask operation runs -/

/-- Sweeps go to the first region with an array of the mask. -/
theorem regionStep_of_region {s : State} {c : Nat} {d : Adm} {draws : Bool} {r : Nat} {rest : List Nat} {f : List Nat → Step1}
    (hrs : regionsOf s (ceAffinity (getCtx s c).ent) ≠ []) (hhere : operandAbsent s d = false)
    (hlanes : laneRegions s draws (regionsOf s (ceAffinity (getCtx s c).ent)) = r :: rest) : regionStep s c d draws f = f (r :: rest) := by
  have hsome : (regionsOf s (ceAffinity (getCtx s c).ent)).isEmpty = false := List.isEmpty_eq_false_iff.mpr hrs
  simp only [regionStep, regionsStep, hhere, hsome, hlanes, List.isEmpty_cons, Bool.false_eq_true, if_false]

/-- The operation chooses by a gradient, which the arrays compute. -/
def byGradient (d : Adm) : Bool := dOpcode d.desc == 0x11 && !mkMode d.desc

/-- The regions that may carry the operation. -/
def maskRegions (s : State) (c : Nat) (d : Adm) : List Nat :=
  if byGradient d then regionsOf s (ceAffinity (getCtx s c).ent) else unitRegions s (ceAffinity (getCtx s c).ent)

theorem maskOp_of_region {s : State} {c : Nat} {d : Adm} {r : Nat} {rest : List Nat} (hrs : maskRegions s c d ≠ [])
    (hhere : operandAbsent s d = false) (hlanes : laneRegions s (dOpcode d.desc == 0x11 && mkMode d.desc) (maskRegions s c d) = r :: rest) :
    maskOp s c d = maskRun s c r d := by
  rw [maskOp]
  cases hgrad : byGradient d with
  | true =>
    rw [maskRegions, hgrad, if_pos rfl] at hrs hlanes
    obtain ⟨hop, hmode⟩ := Bool.and_eq_true_iff.mp hgrad
    have hmode : mkMode d.desc = false := by simpa using hmode
    rw [hmode, Bool.and_false] at hlanes
    refine (if_pos hgrad).trans ?_
    rw [regionStep_of_region hrs hhere hlanes]
    dsimp only [Step1.state, List.headD_cons]
  | false =>
    rw [maskRegions, hgrad, if_neg Bool.false_ne_true] at hrs hlanes
    have hdraws : (dOpcode d.desc == 0x11 && mkMode d.desc) = (dOpcode d.desc == 0x11) := by
      rw [byGradient] at hgrad
      cases hop : dOpcode d.desc == 0x11 with
      | false => rfl
      | true => simpa [hop] using hgrad
    rw [hdraws] at hlanes
    refine (if_neg (c := byGradient d = true) (by rw [hgrad]; exact Bool.false_ne_true)).trans ?_
    rw [unitStep_of_region hrs hhere hlanes]
    dsimp only [Step1.state, List.headD_cons]

theorem exec_mask {c : CtxId} {i : W32} {p : Nat × Instr} (h : p ∈ maskCommands c i) (s : State) :
    exec p.2 s = .next (descCommand s c.val i p.1 (fun t d => maskOp t c.val d)) := by
  simp only [maskCommands, List.mem_cons, List.not_mem_nil, or_false] at h
  obtain rfl | rfl | rfl := h
  · rfl
  · rfl
  · rfl

/-! ### The start of the operation -/

theorem maskBegin_region (ms : Mems) (j : Job) (m : MaskOp) : (maskBegin ms j m).region = m.region := by
  rw [maskBegin]
  split
  · rfl
  · rfl

theorem maskBegin_jent (ms : Mems) (j : Job) (m : MaskOp) : (maskBegin ms j m).jent = m.jent := by
  rw [maskBegin]
  split
  · rfl
  · rfl

theorem maskBegin_sweep (ms : Mems) (j : Job) (m : MaskOp) : (maskBegin ms j m).sweep = m.sweep := by
  rw [maskBegin]
  split
  · rfl
  · rfl

theorem maskBegin_phase (ms : Mems) (j : Job) (m : MaskOp) : (maskBegin ms j m).phase = if sweeps j then 1 else 3 := by
  rw [maskBegin]
  split
  · rfl
  · rfl

theorem maskBegin_sel {ms : Mems} {j : Job} (m : MaskOp) (h : sweeps j = false) :
    (maskBegin ms j m).sel = (maskHeadList j).map (selectHead ms j) := by
  rw [maskBegin, if_neg (by rw [h]; exact Bool.false_ne_true)]

/-- The operation as it starts in region `r` with journal entry `k`. -/
def maskStart (s : State) (r k : Nat) (d : Adm) : MaskOp := maskBegin s.mems (jobOf d r) { freshMask with region := r, jent := some k }

/-- The state with an operation that has started, before its hashes are asked for. -/
def maskStarted (s : State) (c r k : Nat) (d : Adm) : State :=
  putMask (chargeRd s c (memBytes (targetSpans (jobOf d r) ++ (if sweeps (jobOf d r) then [] else sourceSpans (jobOf d r))))) c d (maskStart s r k d)

section
variable {s : State} {c r : Nat} {d : Adm}
  (haccess : spansAccess s c (targetSpans (jobOf d r) ++ sourceSpans (jobOf d r)) (shadowSpans (jobOf d r)) = .ok)
include haccess

theorem maskRun_of_bad (hbad : targetListsBad s.mems (jobOf d r) = true) : maskRun s c r d = endDesc s c d.ring .badRsvd := by
  simp only [maskRun, haccess, hbad, if_true]

theorem maskRun_of_full (hgood : targetListsBad s.mems (jobOf d r) = false) (hfull : freeJournal (getRgn s r) = none) : maskRun s c r d = s := by
  simp only [maskRun, haccess, hgood, hfull, Bool.false_eq_true, if_false]

theorem maskRun_of_free {k : Nat} (hgood : targetListsBad s.mems (jobOf d r) = false) (hk : freeJournal (getRgn s r) = some k) :
    maskRun s c r d = maskStarted s c r k d ∨ ∃ n, maskRun s c r d = askRng (maskStarted s c r k d) r 2 c d.ring.toNat n := by
  simp only [maskRun, haccess, hgood, hk, Bool.false_eq_true, if_false]
  split
  · exact .inr ⟨_, rfl⟩
  · exact .inl rfl

end

theorem maskStarted_spec {s : State} {c k : Nat} {d : Adm} (r : Nat) (hfound : findAdm (getCtx s c) d.ring = some d) :
    (maskStarted s c r k d).mems = s.mems ∧ OnlyContext s (maskStarted s c r k d) c ∧
    findAdm (getCtx (maskStarted s c r k d) c) d.ring = some { d with mask := some (maskStart s r k d) } ∧
    thas (getRgn (maskStarted s c r k d) r).journal k = true := by
  refine ⟨?_, ?_, ?_, ?_⟩
  · rw [maskStarted, putMask_rest]
    rfl
  · exact (OnlyContext.setAcct s c c _).trans (.putMask ..)
  · exact findAdm_putMask _ hfound
  · have hjent : (maskStart s r k d).jent = some k := maskBegin_jent ..
    have hthas := thas_putMask (s := chargeRd s c (memBytes (targetSpans (jobOf d r) ++ (if sweeps (jobOf d r) then [] else sourceSpans (jobOf d r)))))
      (c := c) (d := d) hjent
    rw [show (maskStart s r k d).region = r from maskBegin_region ..] at hthas
    exact hthas

end Sys2Proof.Machine

open Sys2Proof Sys2Proof.Machine

/-- Settles O48: the operation runs in the first region it may use, where its journal entry and its progress are its only traces. -/
theorem maskOperationsStart : Obligations.MaskOperationsStart := by
  intro s c i d r rest p hp hstarts draws mask rs j hrs hhere hlanes haccess
  have hexec : exec p.2 s = .next (maskRun s c.val r d) :=
    (exec_mask hp s).trans (congrArg _ ((hstarts.runs _).trans (maskOp_of_region (c := c.val) hrs hhere hlanes)))
  have hfound : findAdm (getCtx s c.val) d.ring = some d := hstarts.ring.symm ▸ hstarts.found
  refine ⟨fun hgood k hk => ?_, fun hgood hfull => ?_, fun hbad => ?_⟩
  · obtain ⟨hmems, honly, hadm, hjournal⟩ := maskStarted_spec (k := k) r hfound
    have hsel : sweeps j = false → (maskStart s r k d).sel = (maskHeadList j).map (selectHead s.mems j) := maskBegin_sel _
    rw [hstarts.ring] at hadm
    rcases maskRun_of_free haccess hgood hk with hrun | ⟨n, hrun⟩
    · exact ⟨_, _, _, hexec.trans (congrArg _ hrun), hadm, rfl, hstarts.result_none, maskBegin_region .., maskBegin_jent .., maskBegin_phase ..,
        maskBegin_sweep .., hjournal, hsel, hmems, honly⟩
    · refine ⟨_, _, _, hexec.trans (congrArg _ hrun), hadm, rfl, hstarts.result_none, maskBegin_region .., maskBegin_jent .., maskBegin_phase ..,
        maskBegin_sweep .., ?_, hsel, hmems, honly.trans (.setRgn ..)⟩
      rw [journal_askRng]
      exact hjournal
  · exact hexec.trans (congrArg _ (maskRun_of_full haccess hgood hfull))
  · have hresult := endDesc_result .badRsvd 0 hstarts.unfinished
    have hexec := hexec.trans (congrArg _ (maskRun_of_bad haccess hbad))
    rw [hstarts.ring] at hresult hexec
    exact ⟨_, _, hexec, hresult, rfl, by rw [endDesc_rest]⟩

end

section
/-!
PROOFS. The later phases of a mask operation (R137, R139 to R144, R327) settled: sweeps, the rebuild, the commit, the retirement and the
recovery.
-/

namespace Sys2Proof.Machine

/-! ### The commands while M1 runs -/

section
variable {s : State} {c : CtxId} (hrun : running s = true)
include hrun

theorem exec_maskSweep : exec (.maskSweep c) s = .next (maskSweepOp s c.val) := congrArg _ (if_pos hrun)

theorem exec_maskRebuild : exec (.maskRebuild c) s = .next (maskRebuildOp s c.val) := congrArg _ (if_pos hrun)

theorem exec_maskRetire : exec (.maskRetire c) s = .next (maskRetireOp s c.val) := congrArg _ (if_pos hrun)

theorem exec_maskCommit (hport : (hostPortFor s c.val).isSome = true) : exec (.maskCommit c) s = .next (maskCommitOp s c.val) :=
  congrArg _ (if_pos (by rw [hrun, hport]; rfl))

theorem exec_maskCommitRecovery (hport : (hostPortFor s c.val).isSome = true) :
    exec (.maskCommitRecovery c) s = .next (maskRecoverOp s c.val) := congrArg _ (if_pos (by rw [hrun, hport]; rfl))

end

/-! ### An operation in a phase -/

/-- An unfinished descriptor of a context is in a phase of its mask operation. -/
structure Masked (s : State) (c : Nat) (d : Adm) (m : MaskOp) : Prop where
  mem : d ∈ (getCtx s c).admitted
  result : d.result = none

namespace Masked

variable {s t : State} {c : Nat} {d : Adm} {m : MaskOp}

theorem unfinished (h : Masked s c d m) : Unfinished (getCtx s c) d.ring := ⟨d, h.mem, rfl, h.result⟩

/-- Behind a state whose contexts are the same, the descriptor carries its progress. -/
theorem put (h : Masked s c d m) (hctxs : t.ctxs = s.ctxs) (n : MaskOp) :
    ∃ x ∈ (getCtx (putMask t c d n) c).admitted, x.ring = d.ring ∧ x.mask = some n :=
  masked_putMask n (e := d) (by rw [getCtx_of_ctxs hctxs]; exact h.mem) rfl

theorem finish (h : Masked s c d m) (hctxs : t.ctxs = s.ctxs) (res : Result) : HasResult (finish t c d res) c d.ring res :=
  finish_result res (by rw [getCtx_of_ctxs hctxs]; exact h.unfinished)

end Masked

theorem masked_of_find {s : State} {c : Nat} {d : Adm} {m : MaskOp} {q : Adm → Bool} (hres : ∀ e, q e = true → e.result.isNone = true)
    (h : (getCtx s c).admitted.find? q = some d) : Masked s c d m :=
  ⟨List.mem_of_find?_eq_some h, Option.isNone_iff_eq_none.mp (hres d (List.find?_some h))⟩

theorem masked_of_maskIn {s : State} {c p : Nat} {d : Adm} {m : MaskOp} {j : Job} (h : maskIn s c p = some (d, m, j)) : Masked s c d m := by
  obtain ⟨e, hfind, hsome⟩ := Option.bind_eq_some_iff.mp h
  obtain ⟨n, -, heq⟩ := Option.map_eq_some_iff.mp hsome
  cases heq
  exact masked_of_find (fun e he => (Bool.and_eq_true_iff.mp he).1) hfind

theorem masked_of_maskLost {s : State} {c : Nat} {d : Adm} {m : MaskOp} (h : maskLost s c = some (d, m)) : Masked s c d m := by
  obtain ⟨e, hfind, hsome⟩ := Option.bind_eq_some_iff.mp h
  obtain ⟨n, -, heq⟩ := Option.map_eq_some_iff.mp hsome
  cases heq
  exact masked_of_find (fun e he => (Bool.and_eq_true_iff.mp he).1) hfind

/-! ### A sweep (R137) -/

theorem sweepOnce_sweep (ms : Mems) (j : Job) (m : MaskOp) : (sweepOnce ms j m).sweep = m.sweep + 1 := by
  rw [sweepOnce]
  split
  · rfl
  · rfl

theorem sweepOnce_region (ms : Mems) (j : Job) (m : MaskOp) : (sweepOnce ms j m).region = m.region := by
  rw [sweepOnce]
  split
  · rfl
  · rfl

/-- The sieve behind one more sweep. -/
def sweptSieve (ms : Mems) (j : Job) (m : MaskOp) : List (List SieveUnit) :=
  ((maskHeadList j).zip m.sieve).map (fun x => x.2.map (sieveStep (gradMag ms j x.1)))

theorem sweepOnce_sieve (ms : Mems) (j : Job) (m : MaskOp) : (sweepOnce ms j m).sieve = sweptSieve ms j m := by
  rw [sweepOnce]
  split
  · rfl
  · rfl

/-- The phase changes once every unit has chosen. -/
theorem sweepOnce_phase (ms : Mems) (j : Job) (m : MaskOp) :
    (sweepOnce ms j m).phase = if (sweepOnce ms j m).sieve.all (fun us => us.all (·.fin)) then 3 else m.phase := by
  rw [sweepOnce_sieve]
  by_cases h : (sweptSieve ms j m).all (fun us : List SieveUnit => us.all (·.fin)) = true
  · rw [if_pos h, sweepOnce]
    exact congrArg MaskOp.phase (if_pos h)
  · rw [if_neg h, sweepOnce]
    exact (congrArg MaskOp.phase (if_neg h)).trans rfl

theorem charged_sweep (s : State) (c n : Nat) (j : Job) : (chargeSweep (chargeRd s c n) c j).ctxs = s.ctxs ∧
    (chargeSweep (chargeRd s c n) c j).mems = s.mems ∧ OnlyContext s (chargeSweep (chargeRd s c n) c j) c := by
  have hread : OnlyContext s (chargeRd s c n) c := .setAcct ..
  rw [chargeSweep]
  split
  · exact ⟨rfl, rfl, hread⟩
  · exact ⟨rfl, rfl, hread.trans (.setAcct ..)⟩

theorem maskSweepOp_of_ok {s : State} {c a : Nat} {d : Adm} {m : MaskOp} {j : Job} (hmask : maskIn s c 1 = some (d, m, j)) (ha : a < 16)
    (hin : inMask (ceAffinity (getCtx s c).ent) a = true) (hruns : arrayRuns s a = true) (haccess : spansAccess s c (sourceSpans j) [] = .ok) :
    maskSweepOp s c = putMask (chargeSweep (chargeRd s c (memBytes (sourceSpans j))) c j) c d (sweepOnce s.mems j m) := by
  have hany : (List.range 16).any (fun a => inMask (ceAffinity (getCtx s c).ent) a && arrayRuns s a) = true :=
    List.any_eq_true.mpr ⟨a, List.mem_range.mpr ha, by rw [hin, hruns]; rfl⟩
  simp only [maskSweepOp, hmask, hany, haccess, Bool.not_true, Bool.false_eq_true, if_false]

/-! ### Writes that wake a WAITV -/

/-- Memory is the same, and the descriptor of each ring index still stands admitted. -/
structure Woken (s t : State) : Prop where
  mems : t.mems = s.mems
  stands : ∀ c, ∀ e ∈ (getCtx s c).admitted, ∃ x ∈ (getCtx t c).admitted, x.ring = e.ring

namespace Woken

variable {s t u : State}

theorem refl (s : State) : Woken s s := ⟨rfl, fun _ e he => ⟨e, he, rfl⟩⟩

theorem trans (h : Woken s t) (k : Woken t u) : Woken s u where
  mems := k.mems.trans h.mems
  stands c e he := by
    obtain ⟨x, hx, hring⟩ := h.stands c e he
    obtain ⟨y, hy, hyring⟩ := k.stands c x hx
    exact ⟨y, hy, hyring.trans hring⟩

theorem of_ctxs (hctxs : t.ctxs = s.ctxs) (hmems : t.mems = s.mems) : Woken s t :=
  ⟨hmems, fun c e he => ⟨e, by rw [getCtx_of_ctxs hctxs]; exact he, rfl⟩⟩

theorem setCtx {c : Nat} {x : Context} (h : ∀ e ∈ (getCtx s c).admitted, ∃ y ∈ x.admitted, y.ring = e.ring) : Woken s (setCtx s c x) := by
  refine ⟨rfl, fun k e he => ?_⟩
  rw [getCtx_setCtx_if]
  split
  next hk => exact h e (hk ▸ he)
  next => exact ⟨e, he, rfl⟩

theorem foldl {α : Type} {f : State → α → State} (hf : ∀ v x, Woken v (f v x)) (l : List α) : ∀ v, Woken v (l.foldl f v) := by
  induction l with
  | nil => exact fun v => refl v
  | cons x l ih => exact fun v => (hf v x).trans (ih (f v x))

theorem finishDesc (s : State) (c : Nat) (ring : W32) (res : Result) : Woken s (finishDesc s c ring res) := by
  refine setCtx fun e he => ?_
  rw [finishIn]
  split
  · refine ⟨_, List.mem_map.mpr ⟨e, he, rfl⟩, ?_⟩
    split
    · rfl
    · rfl
  · exact ⟨e, he, rfl⟩

theorem endWait (s : State) (c : Nat) (d : Adm) (res : Result) : Woken s (endWait s c d res) :=
  (finishDesc s c d.ring res).trans (of_ctxs rfl rfl)

theorem waitValue (s : State) (c : Nat) (d : Adm) (v : W64) : Woken s (waitValue s c d v) := by
  have hread : Woken s (Machine.setCtx s c { getCtx s c with
      admitted := (getCtx s c).admitted.map (fun e => if e.ring == d.ring then { e with lastRead := v } else e) }) := by
    refine setCtx fun e he => ⟨_, List.mem_map.mpr ⟨e, he, rfl⟩, ?_⟩
    split
    · rfl
    · rfl
  rw [Machine.waitValue]
  split
  · exact (hread.trans (endWait ..)).trans (setCtx fun e he => ⟨e, he, rfl⟩)
  · exact hread

theorem poisoned (s u : State) (r c : Nat) (ring : W32) (a : Nat) : Woken s (logFault s (poisonEntry u r c ring a)) :=
  of_ctxs (logFault_ctxs ..) (by rw [logFault_of_replayable (by rfl)])

theorem waitvRead (s : State) (c : Nat) : Woken s (waitvRead s c) := by
  have hcharge : Woken s (chargeRd s c 8) := of_ctxs rfl rfl
  rw [Machine.waitvRead]
  split
  · exact refl s
  · dsimp only
    split
    · exact ite_cases (q := Woken s) (fun _ => waitValue ..) (fun _ => endWait ..)
    · split
      · exact hcharge.trans (endWait ..)
      · exact ite_cases (q := Woken s)
          (fun _ => (hcharge.trans (poisoned ..)).trans (endWait ..))
          (fun _ => hcharge.trans (waitValue ..))

theorem wakeWatch (s : State) (r a n : Nat) : Woken s (wakeWatch s r a n) := foldl (fun v _ => waitvRead v _) _ s

end Woken

/-- Watch entries change no byte of what is written. -/
theorem woken_writesWaking (ws : List MemWrite) : ∀ s, Woken { s with mems := applyWrites s.mems ws } (writesWaking s ws) := by
  induction ws with
  | nil => exact fun s => Woken.refl s
  | cons w ws ih =>
    intro s
    have hone : Woken { s with mems := wrBytes s.mems w.sp w.addr w.bytes } (writeWaking s w) := by
      rw [writeWaking]
      split
      · exact Woken.refl _
      · exact ite_cases (q := Woken _) (fun _ => Woken.refl _) (fun _ => Woken.wakeWatch ..)
    have hfirst : Woken { s with mems := applyWrites s.mems (w :: ws) } { writeWaking s w with mems := applyWrites (writeWaking s w).mems ws } :=
      ⟨congrArg (applyWrites · ws) hone.mems, hone.stands⟩
    exact hfirst.trans (ih (writeWaking s w))

/-! ### The rebuild (R139, R140) -/

section
variable (s : State) (j : Job) (m : MaskOp)

/-- The codes of every head under the new mask. -/
def newHeads : List (List (Option Nat)) := (maskCodes s.mems j m).1

/-- Spill entries and tail entries that the new layout needs. -/
def newSpills : Nat := largest ((newHeads s j m).map (fun x => (spillList (maskShadow j) x).length))
def newTails : Nat := largest ((newHeads s j m).map (fun x => (toverList (maskShadow j) x).length))

/-- The writes of the shadow's layout. -/
def shadowWrites : List MemWrite := ((maskHeadList j).zip (newHeads s j m)).flatMap (fun x => layoutWrites s.freeCnt j x.1 x.2)

/-- What the operation knows behind its rebuild. -/
def rebuilt (fl : TFlags) : MaskOp := { m with phase := 4, spillNeed := newSpills s j m, toverNeed := newTails s j m, flags := m.flags ||| fl }

end

/-- The record of a layout that does not fit. -/
def spillFullResult (f : TFlags) (n : Nat) : Result := { plainResult .spillFull f with shortfall := BitVec.ofNat 32 n }

/-- The state in which a rebuild has drawn its free value. -/
def drewFree (s : State) : State := { s with freeCnt := s.freeCnt + 1 }

/-- A layout that does not fit writes what it has free, and ends. -/
def rebuildFull (s : State) (c : Nat) (d : Adm) (j : Job) (f : TFlags) (n : Nat) : State :=
  finish (writesWaking (drewFree s) (openWrites s.freeCnt j)) c d (spillFullResult f n)

section
variable {s : State} {c : Nat} {d : Adm} {m : MaskOp} {j : Job} (hmask : maskIn s c 3 = some (d, m, j))
include hmask

theorem maskRebuildOp_of_due (hdue : hashesDue s m.region 2 c d.ring = true) : maskRebuildOp s c = s := by
  simp only [maskRebuildOp, hmask, hdue, if_true]

theorem maskRebuildOp_of_done (hdue : hashesDue s m.region 2 c d.ring = false) : ∃ f fl n, maskRebuildOp s c =
    if (maskShadow j).spillCap < newSpills s j m then rebuildFull s c d j f (newSpills s j m)
    else if hasTmap (maskShadow j) && decide ((maskShadow j).toverCap < newTails s j m) then rebuildFull s c d j f (newTails s j m)
    else putMask (chargeWr (writesWaking (drewFree s) (shadowWrites s j m)) c n) c d (rebuilt s j m fl) := by
  simp only [maskRebuildOp, hmask, hdue, Bool.false_eq_true, if_false]
  exact ⟨_, _, _, rfl⟩

end

theorem rebuildFull_result {s : State} {c : Nat} {d : Adm} {m : MaskOp} (h : Masked s c d m) (hquiet : ∀ r, (getRgn s r).watch = [])
    (j : Job) (f : TFlags) (n : Nat) : HasResult (rebuildFull s c d j f n) c d.ring (spillFullResult f n) := by
  rw [rebuildFull, writesWaking_of_unwatched (s := drewFree s) fun _ _ r _ => hquiet r]
  exact h.finish rfl _

theorem rebuilt_spec {s t : State} {c n : Nat} {d : Adm} {m : MaskOp} {ws : List MemWrite} (h : Masked s c d m) (k : MaskOp)
    (ht : t = putMask (chargeWr (writesWaking (drewFree s) ws) c n) c d k) : t.mems = applyWrites s.mems ws ∧
    (∃ e ∈ (getCtx t c).admitted, e.ring = d.ring ∧ e.mask = some k) ∧ ((∀ r, (getRgn s r).watch = []) → OnlyContext s t c) := by
  have hwoken := woken_writesWaking ws (drewFree s)
  obtain ⟨x, hx, hring⟩ := hwoken.stands c d h.mem
  subst ht
  refine ⟨?_, ?_, fun hquiet => ?_⟩
  · rw [putMask_rest]
    exact hwoken.mems
  · exact masked_putMask k (s := chargeWr (writesWaking (drewFree s) ws) c n) (e := x) hx hring
  · rw [writesWaking_of_unwatched (s := drewFree s) fun _ _ r _ => hquiet r]
    exact (OnlyContext.of_rest (s := s) (t := chargeWr { drewFree s with mems := applyWrites (drewFree s).mems ws } c n) (fun _ _ => rfl) rfl rfl).trans
      (.putMask ..)

/-! ### The commit (R141, R336) -/

theorem rdBytes_append (ms : Mems) (sp : Space) (a k n : Nat) : rdBytes ms sp a (k + n) = rdBytes ms sp a k ++ rdBytes ms sp (a + k) n := by
  induction k generalizing a with
  | zero => rw [Nat.zero_add]; rfl
  | succ k ih => rw [Nat.succ_add, rdBytes, rdBytes, ih, List.cons_append, Nat.add_assoc, Nat.add_comm 1 k]

theorem length_wordBytes (ws : List W64) : (wordBytes ws).length = 8 * ws.length := by
  induction ws with
  | nil => rfl
  | cons w ws ih =>
    show (leBytes 8 w.toNat ++ wordBytes ws).length = _
    rw [List.length_append, ih, length_leBytes, List.length_cons]
    omega

theorem rd64_of_rdBytes {ms : Mems} {sp : Space} {a : Nat} {w : W64} (h : rdBytes ms sp a 8 = leBytes 8 w.toNat) : rd64 ms sp a = w := by
  rw [rd64, rdLe, h, leNat_leBytes w.isLt, BitVec.ofNat_toNat, BitVec.setWidth_eq]

/-- Words whose bytes stand in memory are read there. -/
theorem rdWords_of_rdBytes {ms : Mems} {sp : Space} {ws : List W64} :
    ∀ {a : Nat}, rdBytes ms sp a (8 * ws.length) = wordBytes ws → rdWords ms sp a ws.length = ws := by
  induction ws with
  | nil => exact fun _ => rfl
  | cons w ws ih =>
    intro a h
    rw [List.length_cons, Nat.mul_succ, Nat.add_comm, rdBytes_append] at h
    have hlen : (rdBytes ms sp a 8).length = (leBytes 8 w.toNat).length := by rw [length_rdBytes, length_leBytes]
    obtain ⟨hhead, htail⟩ := List.append_inj (t₁ := rdBytes ms sp (a + 8) (8 * ws.length)) (t₂ := wordBytes ws) h hlen
    rw [List.length_cons, rdWords, rd64_of_rdBytes hhead, ih htail]

theorem bits_setBits_low (v x : Nat) (hv : v < 2 ^ 64) : bits (setBits v 31 0 x % 2 ^ 64) 31 0 = x % 2 ^ 32 := by
  simp only [bits, setBits, Nat.shiftRight_zero, Nat.shiftLeft_zero]
  omega

/-- Bits 31:0 of the word at 0x08 of an entry are its generation. -/
theorem gen_committedEntry {w : List W64} (gen : W32) (spills tails : Nat) (h : w.length = 8) :
    (tentOf (committedEntry w gen spills tails)).gen = gen := by
  have hword : (committedEntry w gen spills tails).getD (0x08 / 8) 0 = BitVec.ofNat 64 (setBits (w.getD (0x08 / 8) 0).toNat 31 0 gen.toNat) := by
    simp only [committedEntry, setFld, List.getD_eq_getElem?_getD]
    rw [List.getElem?_set_ne (by decide), List.getElem?_set_ne (by decide), List.getElem?_set_self (by rw [h]; decide), Option.getD_some]
  show BitVec.ofNat 32 (fld (committedEntry w gen spills tails) 0x08 31 0) = gen
  rw [fld, hword, BitVec.toNat_ofNat, bits_setBits_low _ _ (BitVec.isLt _)]
  exact BitVec.eq_of_toNat_eq (by rw [BitVec.toNat_ofNat, Nat.mod_mod, Nat.mod_eq_of_lt gen.isLt])

theorem length_committedEntry (w : List W64) (gen : W32) (spills tails : Nat) : (committedEntry w gen spills tails).length = w.length := by
  simp only [committedEntry, setFld, List.length_set]

theorem dropAtWrap_rest (s : State) (c : Nat) (d : Adm) : dropAtWrap s c d = { s with rgns := (dropAtWrap s c d).rgns } := by
  rw [dropAtWrap]
  split
  · rfl
  · rfl

theorem hostPut_rest_of_fits {s : State} {c : Nat} {o : Owner} {a : Nat} {bs : List Byte} (h : a + bs.length ≤ 2 ^ 57) :
    hostPut s c o a bs = { s with mems := wrBytes s.mems .mem a bs, hp := (hostPut s c o a bs).hp } := by
  rw [hostPut, if_neg (Nat.not_lt.mpr h), hostIssue_rest]

/-- The commit's write, before the operation's progress is put down. -/
def committed (s : State) (c : Nat) (d : Adm) (m : MaskOp) (e : List W64) : State :=
  addRgnCnt (hostWriteFor (dropAtWrap s c d) c (.desc c d.ring) (entryAddr s c (mkTarget d.desc)) (wordBytes e)) m.region 10 m.promotions

theorem maskCommitOp_of_ok {s : State} {c : Nat} {d : Adm} {m : MaskOp} {j : Job} (hmask : maskIn s c 4 = some (d, m, j))
    (haccess : memWriteAccess s c (entryAddr s c (mkTarget d.desc)) 64 = .ok) : maskCommitOp s c =
    putMask (committed s c d m (committedEntry (tget [] d.entries (mkShadow d.desc)) (mkGen d.desc + 1) m.spillNeed m.toverNeed)) c d
      { m with phase := 5 } := by
  simp only [maskCommitOp, hmask, haccess]
  rfl

theorem committed_spec {s : State} {c : Nat} {d : Adm} {m : MaskOp} {e : List W64} (hlen : e.length = 8)
    (hfits : entryAddr s c (mkTarget d.desc) + 64 ≤ 2 ^ 57) : (committed s c d m e).ctxs = s.ctxs ∧
    (committed s c d m e).mems = wrBytes s.mems .mem (entryAddr s c (mkTarget d.desc)) (wordBytes e) ∧ OnlyContext s (committed s c d m e) c := by
  have hbytes : (wordBytes e).length = 64 := by rw [length_wordBytes, hlen]
  have hput := hostPut_rest_of_fits (s := dropAtWrap s c d) (c := c) (o := .desc c d.ring) (by rw [hbytes]; exact hfits)
  have hdrop := dropAtWrap_rest s c d
  rw [committed, hostWriteFor]
  generalize hostPut (dropAtWrap s c d) c (.desc c d.ring) (entryAddr s c (mkTarget d.desc)) (wordBytes e) = v at *
  generalize dropAtWrap s c d = u at *
  have hv : v = { s with mems := wrBytes s.mems .mem (entryAddr s c (mkTarget d.desc)) (wordBytes e), hp := v.hp, rgns := u.rgns } := by
    rw [hput, hdrop]
  have honly : OnlyContext s v c := .of_rest (fun e _ => by rw [hv]; rfl) (by rw [hv]) (by rw [hv])
  exact ⟨by rw [hv]; rfl, by rw [hv]; rfl, honly.trans ((OnlyContext.setAcct ..).trans (.setRgn ..))⟩

/-! ### The recovery (R327) -/

section
variable {s : State} {c r : Nat} {d : Adm} {m : MaskOp} (haccess : memAccess s c (entryAddr s c (mkTarget d.desc)) 64 = .ok)
include haccess

theorem recoverAt_eq : recoverAt s c r d m =
    if (tentOf (rdWords s.mems .mem (entryAddr s c (mkTarget d.desc)) 8)).gen == mkGen d.desc + 1 then
      putMask (chargeRd s c 64) c d { m with phase := 5, region := r, jent := none }
    else if (tentOf (rdWords s.mems .mem (entryAddr s c (mkTarget d.desc)) 8)).gen == mkGen d.desc then
      setAdm (chargeRd s c 64) c d.ring (fun e => { e with mask := some freshMask, flags := e.flags ||| m.flags })
    else finish (chargeRd s c 64) c d { plainResult .admitCount (d.flags ||| m.flags) with
      checkId := 0x25, operand := BitVec.ofNat 16 (mkTarget d.desc)
      shortfall := (tentOf (rdWords s.mems .mem (entryAddr s c (mkTarget d.desc)) 8)).gen } := by
  rw [recoverAt, haccess]

end

theorem maskRecoverOp_of_region {s : State} {c r : Nat} {rest : List Nat} {d : Adm} {m : MaskOp} (hlost : maskLost s c = some (d, m))
    (hrs : unitRegions s (ceAffinity (getCtx s c).ent) = r :: rest) : maskRecoverOp s c = recoverAt s c r d m := by
  simp only [maskRecoverOp, hlost, hrs, List.head?_cons]

end Sys2Proof.Machine

open Sys2Proof Sys2Proof.Machine

/-- Settles O49: each phase changes the operation's own context, and the bytes that its phase writes. -/
theorem maskPhasesAdvance : Obligations.MaskPhasesAdvance := by
  intro s c d m j hrun
  refine ⟨fun hmask hexists haccess => ?_, fun hmask => ⟨fun hdue => ?_, fun hdue hspill htail => ?_, fun hdue hquiet => ⟨?_, ?_⟩⟩,
    fun hmask hport => ?_, fun hmask => ⟨fun hwait => ?_, fun hold hopen => ?_⟩, fun r rest hlost hport hrs => ?_⟩
  · obtain ⟨a, ha, hin, hruns⟩ := hexists
    have hm := masked_of_maskIn hmask
    have hexec : exec (.maskSweep c) s = .next (putMask (chargeSweep (chargeRd s c.val (memBytes (sourceSpans j))) c.val j) c.val d (sweepOnce s.mems j m)) :=
      (exec_maskSweep hrun).trans (congrArg _ (maskSweepOp_of_ok hmask ha hin hruns haccess))
    obtain ⟨hctxs, hmems, honly⟩ := charged_sweep s c.val (memBytes (sourceSpans j)) j
    generalize chargeSweep (chargeRd s c.val (memBytes (sourceSpans j))) c.val j = v at *
    obtain ⟨e, he, hring, hput⟩ := hm.put hctxs (sweepOnce s.mems j m)
    refine ⟨_, hexec, ?_, honly.trans (.putMask ..), e, he, hring, _, hput, sweepOnce_sweep .., sweepOnce_region .., sweepOnce_phase ..⟩
    rw [putMask_rest]
    exact hmems
  · exact (exec_maskRebuild hrun).trans (congrArg _ (maskRebuildOp_of_due hmask hdue))
  · obtain ⟨f, fl, n, hop⟩ := maskRebuildOp_of_done hmask hdue
    have htails : ¬(hasTmap (maskShadow j) && decide ((maskShadow j).toverCap < newTails s j m)) = true := by
      intro h
      obtain ⟨hmap, hover⟩ := Bool.and_eq_true_iff.mp h
      rcases htail with hnone | hfit
      · rw [hnone] at hmap
        exact Bool.false_ne_true hmap
      · exact absurd (of_decide_eq_true hover) (Nat.not_lt.mpr hfit)
    have hspill : ¬(maskShadow j).spillCap < newSpills s j m := Nat.not_lt.mpr hspill
    rw [if_neg hspill, if_neg htails] at hop
    obtain ⟨hmems, ⟨e, he, hring, hput⟩, honly⟩ := rebuilt_spec (masked_of_maskIn hmask) _ hop
    exact ⟨_, exec_maskRebuild hrun, honly, hmems, e, he, hring, _, hput, rfl, rfl, rfl⟩
  · intro hspill
    obtain ⟨f, fl, n, hop⟩ := maskRebuildOp_of_done hmask hdue
    have hspill : (maskShadow j).spillCap < newSpills s j m := hspill
    rw [if_pos hspill] at hop
    exact ⟨_, _, (exec_maskRebuild hrun).trans (congrArg _ hop), rebuildFull_result (masked_of_maskIn hmask) hquiet j f _, rfl, rfl⟩
  · intro hspill hmap htail
    obtain ⟨f, fl, n, hop⟩ := maskRebuildOp_of_done hmask hdue
    have hspill : ¬(maskShadow j).spillCap < newSpills s j m := Nat.not_lt.mpr hspill
    have htail : (maskShadow j).toverCap < newTails s j m := htail
    rw [if_neg hspill, if_pos (by rw [hmap, Bool.true_and]; exact decide_eq_true htail)] at hop
    exact ⟨_, _, (exec_maskRebuild hrun).trans (congrArg _ hop), rebuildFull_result (masked_of_maskIn hmask) hquiet j f _, rfl, rfl⟩
  · intro a haccess hlen
    have hm := masked_of_maskIn hmask
    have hexec : exec (.maskCommit c) s = .next _ :=
      (exec_maskCommit hrun hport).trans (congrArg _ (maskCommitOp_of_ok hmask haccess))
    have hlen8 := (length_committedEntry (tget [] d.entries (mkShadow d.desc)) (mkGen d.desc + 1) m.spillNeed m.toverNeed).trans hlen
    have hgen := gen_committedEntry (mkGen d.desc + 1) m.spillNeed m.toverNeed hlen
    obtain ⟨hctxs, hmems, honly⟩ := committed_spec (m := m) hlen8 (memWriteAccess_within haccess)
    generalize committedEntry (tget [] d.entries (mkShadow d.desc)) (mkGen d.desc + 1) m.spillNeed m.toverNeed = w at *
    generalize committed s c.val d m w = v at *
    have hlen64 : (wordBytes w).length = 64 := by rw [length_wordBytes, hlen8]
    have hbytes : rdBytes v.mems .mem a 64 = wordBytes w := by
      rw [hmems, ← hlen64]
      exact rdBytes_wrBytes ..
    obtain ⟨e, he, hring, hput⟩ := hm.put hctxs { m with phase := 5 }
    have hsame : (putMask v c.val d { m with phase := 5 }).mems = v.mems := by rw [putMask_rest]
    refine ⟨_, hexec, honly.trans (.putMask ..), by rw [hsame, hbytes], ?_, fun sp x hout => ?_, e, he, hring, _, hput, rfl⟩
    · have hwords : rdWords v.mems .mem a w.length = w := rdWords_of_rdBytes (by rw [hlen8]; exact hbytes)
      rw [hlen8] at hwords
      rw [hsame, hwords, hgen]
    · rw [hsame, hmems]
      exact rdByte_wrBytes_outside _ _ _ _ _ _ (by rw [hlen64]; exact hout)
  · have hheld : (oldReaders s c.val d || commitOpen s (entryAddr s c.val (mkTarget d.desc))) = true := by
      rw [Bool.or_eq_true]
      exact hwait
    refine (exec_maskRetire hrun).trans (congrArg _ ?_)
    simp only [maskRetireOp, hmask, hheld, if_true]
  · have hop : maskRetireOp s c.val = finish s c.val d (maskDone d m) := by
      simp only [maskRetireOp, hmask, hold, hopen, Bool.or_self, Bool.false_eq_true, if_false]
    exact ⟨_, _, (exec_maskRetire hrun).trans (congrArg _ hop), finish_rest .., (masked_of_maskIn hmask).finish rfl _, rfl, rfl,
      fun e he => getCtx_finish_ne _ _ he⟩
  · intro a gen haccess
    have hm := masked_of_maskLost hlost
    have hexec : exec (.maskCommitRecovery c) s = .next _ :=
      (exec_maskCommitRecovery hrun hport).trans (congrArg _ ((maskRecoverOp_of_region hlost hrs).trans (recoverAt_eq haccess)))
    have honly : OnlyContext s (chargeRd s c.val 64) c.val := .setAcct ..
    by_cases hnext : gen = mkGen d.desc + 1
    · rw [if_pos (beq_iff_eq.mpr hnext)] at hexec
      obtain ⟨e, he, hring, hput⟩ := hm.put (t := chargeRd s c.val 64) rfl { m with phase := 5, region := r, jent := none }
      have hdiff : mkGen d.desc + 1 ≠ mkGen d.desc := by bv_omega
      refine ⟨_, hexec, by rw [putMask_rest]; rfl, honly.trans (.putMask ..), fun _ => ⟨e, he, hring, _, hput, rfl, rfl⟩,
        fun hsame => absurd (hnext.symm.trans hsame) hdiff, fun _ hno => absurd hnext hno⟩
    · rw [if_neg (fun h => hnext (eq_of_beq h))] at hexec
      by_cases hsame : gen = mkGen d.desc
      · rw [if_pos (beq_iff_eq.mpr hsame)] at hexec
        refine ⟨_, hexec, rfl, honly.trans (.setAdm ..), fun h => absurd h hnext, fun _ => ?_, fun hno => absurd hsame hno⟩
        exact ⟨_, mem_admitted_setAdm (s := chargeRd s c.val 64) (f := fun e => { e with mask := some freshMask, flags := e.flags ||| m.flags }) hm.mem,
          rfl, _, rfl, rfl⟩
      · rw [if_neg (fun h => hsame (eq_of_beq h))] at hexec
        exact ⟨_, hexec, rfl, honly.trans (.finish ..), fun h => absurd h hnext, fun h => absurd h hsame,
          fun _ _ => ⟨_, hm.finish rfl _, rfl, rfl, rfl⟩⟩

end

section
/-!
PROOFS. The check of a row (R42, R56 to R58, R210) settled.
-/

namespace Sys2Proof.Machine

/-! ### The row that is checked -/

/-- An array with one work looks at that work's lane alone. -/
theorem findWork_of_one {α : Type} {s : State} {a : Nat} {w : Work} {ro : Roles} {v : α} (hworks : works s a = [(w, ro)]) {f : Work → Lane → Option α}
    (hf : f w (laneOf (getArr s a) w) = some v) : findWork s a f = some (w, v) := by
  simp only [findWork, hworks, List.findSome?_cons, hf, Option.map_some]

/-- The array in the cycle of the check. -/
def checking (s : State) (a due : Nat) : State := setArr s a { getArr s a with cycle := due }

/-- The lane of a work with row `row` accepted. -/
def acceptedLane (x : ArrayS) (w : Work) (row : Nat) : Lane :=
  { laneOf x w with results := (laneOf x w).results.map (fun y => if y.row == row then { y with accepted := true } else y) }

/-- A row is accepted in `u`, and asks for the hashes that its output draws. -/
def acceptedIn (u : State) (a : Nat) (w : Work) (q : RowRes) (l : Lane) : State :=
  askRng (setArr u a (setLane (getArr u a) w.e.band l)) (a / 4) 0 a (rowTag w q.row) (rowDraws (a / 4) w * q.sums.length)

section
variable {s : State} {a : Nat} {w : Work} {ro : Roles} {q : RowRes} (hworks : works s a = [(w, ro)])
  (hfirst : (laneOf (getArr s a) w).results.find? (fun y => !y.accepted) = some q)
  (htime : delayDue (getArr s a) (max (getArr s a).cycle (q.cycle + 4)) = false)
include hworks hfirst htime

theorem checkOne_of_found : checkOne s a =
    match checkVerdict q with
    | none => acceptedIn (addArrCnt (checking s a (max (getArr s a).cycle (q.cycle + 4))) a 5 1) a w q (acceptedLane (getArr s a) w q.row)
    | some true => acceptedIn (checking s a (max (getArr s a).cycle (q.cycle + 4))) a w q (acceptedLane (getArr s a) w q.row)
    | some false => mismatch (checking s a (max (getArr s a).cycle (q.cycle + 4))) a w q.row := by
  have hfind := findWork_of_one (v := q) hworks (f := fun _ l => l.results.find? (fun q => !q.accepted)) hfirst
  simp only [checkOne, hfind, htime, Bool.false_eq_true, if_false]
  rfl

end

/-! ### A row that is accepted -/

theorem hashPending_askRng (s : State) (a tag n : Nat) (h : n ≠ 0) : hashPending (askRng s (a / 4) 0 a tag n) a tag = true := by
  have hbatch := Nat.pos_of_ne_zero (ceilDiv_pos (k := 256) (by decide) h)
  rw [hashPending, askRng, getRgn_setRgn]
  refine List.any_eq_true.mpr ⟨{ cls := 0, unit := a, tag := tag, count := min 256 (n - 256 * 0), arrived := (getRgn s (a / 4)).rcycle },
    List.mem_append_right _ (List.mem_map.mpr ⟨0, List.mem_range.mpr hbatch, rfl⟩), ?_⟩
  simp only [beq_self_eq_true, Bool.and_self]

theorem getArr_askRng (s : State) (r cls unit tag n b : Nat) : getArr (askRng s r cls unit tag n) b = getArr s b := rfl

theorem getArr_acceptedIn (u : State) (a : Nat) (w : Work) (q : RowRes) (l : Lane) :
    getArr (acceptedIn u a w q l) a = setLane (getArr u a) w.e.band l := (getArr_askRng ..).trans (getArr_setArr ..)

theorem acceptedIn_rest (u : State) (a : Nat) (w : Work) (q : RowRes) (l : Lane) :
    acceptedIn u a w q l = { u with arrs := (acceptedIn u a w q l).arrs, rgns := (acceptedIn u a w q l).rgns } := rfl

theorem getArr_acceptedIn_ne (u : State) {a b : Nat} (w : Work) (q : RowRes) (l : Lane) (h : b ≠ a) : getArr (acceptedIn u a w q l) b = getArr u b :=
  (getArr_askRng ..).trans (getArr_setArr_ne _ _ _ _ h)

theorem hashPending_acceptedIn (u : State) (a : Nat) (w : Work) (q : RowRes) (l : Lane) (hdraws : 0 < rowDraws (a / 4) w) (hsums : q.sums ≠ []) :
    hashPending (acceptedIn u a w q l) a (rowTag w q.row) = true :=
  hashPending_askRng _ _ _ _ (Nat.mul_ne_zero hdraws.ne' fun h => hsums (List.eq_nil_of_length_eq_zero h))

/-! ### A row that does not agree (R58) -/

theorem addEvent_nil (now : Nat) : addEvent [] now = [now] := rfl

/-- The first mismatch within 1 ms leaves the array in service. -/
theorem countMiss_of_first {s : State} {a : Nat} (h : (getArr s a).missTimes = []) :
    countMiss s a = setArr s a { getArr s a with missTimes := [s.time.t] } := by
  rw [countMiss, h, addEvent_nil]
  exact if_neg (show ¬reached 3 [s.time.t] = true from Bool.false_ne_true)

/-- The mismatch is counted and logged. -/
def missLogged (s : State) (a : Nat) (w : Work) : State :=
  logFault (addArrCnt s a 4 1) { flogBase s clsReplayable 1 0x07 a (a / 4) with ctx := BitVec.ofNat 12 w.t.ctx, ring := w.t.ring }

theorem missLogged_rest (s : State) (a : Nat) (w : Work) : missLogged s a w = { addArrCnt s a 4 1 with flog := (missLogged s a w).flog } :=
  logFault_of_replayable rfl

theorem getArr_missLogged (s : State) (a : Nat) (w : Work) : getArr (missLogged s a w) a =
    { getArr s a with cnt := tset (getArr s a).cnt 4 (tget 0 (getArr s a).cnt 4 + BitVec.ofNat 64 1) } := by
  rw [missLogged_rest]
  exact getArr_setArr ..

theorem mismatch_of_first {s : State} {a row : Nat} {w : Work} (hmiss : w.t.misses ≠ 1) :
    mismatch s a w row = countMiss (rewind (missLogged s a w) a w row 1) a := by
  have hm : (w.t.misses == 1) = false := beq_false_of_ne hmiss
  rw [mismatch]
  dsimp only
  rw [hm, Bool.false_and]
  rfl

/-- What the first mismatch of a pass leaves: the pass runs again from the row, and the sub-tile carries REPLAYED. -/
theorem mismatch_spec {s : State} {a row : Nat} {w : Work} (hmiss : w.t.misses ≠ 1) (harr : w.t.array = some a) (htimes : (getArr s a).missTimes = []) :
    getArr (mismatch s a w row) a = { setLane (getArr s a) w.e.band (rewindLane w row (laneOf (getArr s a) w)) with
      cnt := tset (getArr s a).cnt 4 (tget 0 (getArr s a).cnt 4 + BitVec.ofNat 64 1), bound := mapped w.t (replayedSub 1) (getArr s a).bound
      missTimes := [s.time.t] } ∧
    tget 0 (mismatch s a w row).tlm.cnt 13 = tget 0 s.tlm.cnt 13 +
      BitVec.ofNat 64 ((laneOf (getArr s a) w).results.filter (fun y => decide (row ≤ y.row))).length ∧
    LogAt (mismatch s a w row) s.flog.next.toNat 2 0x07 0 := by
  have hself := getArr_rewind_self (missLogged s a w) a w row 1 harr
  have hlane : laneOf (getArr (missLogged s a w) a) w = laneOf (getArr s a) w := by
    rw [getArr_missLogged]
    rfl
  rw [hlane, getArr_missLogged] at hself
  have hcount : (rewind (missLogged s a w) a w row 1).tlm.cnt = (rewound (missLogged s a w) a w row).tlm.cnt := by
    rw [rewind_eq, mapSub_rest]
  have hlog : LogAt (missLogged s a w) s.flog.next.toNat 2 0x07 0 := logAt_logFault (.inl (show (2 : BitVec 3) ≠ 1 by decide)) rfl
  have hrest := rewind_rest (missLogged s a w) a w row 1
  have htime : (rewind (missLogged s a w) a w row 1).time = s.time := by rw [hrest, missLogged_rest]; rfl
  rw [mismatch_of_first hmiss, countMiss_of_first (by rw [hself]; exact htimes), getArr_setArr, htime, hself]
  refine ⟨rfl, ?_, hlog.congr ?_⟩
  · show tget 0 (rewind (missLogged s a w) a w row 1).tlm.cnt 13 = _
    rw [hcount, rewound, hlane]
    show tget 0 (tset (missLogged s a w).tlm.cnt 13 _) 13 = _
    rw [tget_tset_self, missLogged_rest]
    rfl
  · show (rewind (missLogged s a w) a w row 1).flog = _
    rw [hrest]

theorem mem_mapped {t : SubTile} {f : SubTile → SubTile} {l : List SubTile} (h : t ∈ l) : f t ∈ mapped t f l :=
  List.mem_map.mpr ⟨t, h, if_pos (beq_self_eq_true t)⟩

end Sys2Proof.Machine

open Sys2Proof Sys2Proof.Machine

/-- Settles O38: an accepted row changes its lane and asks for hashes; the first mismatch rewinds the lane. -/
theorem rowChecksAcceptOrReplay : Obligations.RowChecksAcceptOrReplay := by
  intro s a w ro q x l due hruns hworks hfirst htime
  have hexec : exec (.rowCheck a) s = .next (checkOne s a.val) := congrArg _ (if_pos hruns)
  rw [checkOne_of_found hworks hfirst htime] at hexec
  refine ⟨fun hverdict => ?_, fun hbad hrole hbound harr hmiss htimes => ?_⟩
  · have hin : ∃ u, exec (.rowCheck a) s = .next (acceptedIn u a.val w q (acceptedLane (getArr s a.val) w q.row)) ∧
        u = { s with arrs := u.arrs } ∧ (getArr u a.val).cycle = due ∧ (getArr u a.val).active = x.active ∧
        (checkVerdict q = none → tget 0 (getArr u a.val).cnt 5 = tget 0 x.cnt 5 + 1) ∧ (checkVerdict q ≠ none → (getArr u a.val).cnt = x.cnt) ∧
        ∀ b, b ≠ a.val → getArr u b = getArr s b := by
      have hcheck : getArr (checking s a.val due) a.val = { x with cycle := due } := getArr_setArr ..
      have hothers : ∀ b, b ≠ a.val → getArr (checking s a.val due) b = getArr s b := fun b hb => getArr_setArr_ne _ _ _ _ hb
      cases hv : checkVerdict q with
      | none =>
        rw [hv] at hexec
        have hcount : getArr (addArrCnt (checking s a.val due) a.val 5 1) a.val =
            { x with cycle := due, cnt := tset x.cnt 5 (tget 0 x.cnt 5 + BitVec.ofNat 64 1) } := (getArr_setArr ..).trans (by rw [hcheck])
        refine ⟨_, hexec, rfl, by rw [hcount], by rw [hcount], fun _ => ?_, fun h => absurd rfl h,
          fun b hb => (getArr_setArr_ne _ _ _ _ hb).trans (hothers b hb)⟩
        rw [hcount]
        exact tget_tset_self ..
      | some ok =>
        cases ok with
        | false => exact absurd hv hverdict
        | true =>
          rw [hv] at hexec
          exact ⟨_, hexec, rfl, by rw [hcheck], by rw [hcheck], fun h => absurd h (Option.some_ne_none _), fun _ => (congrArg ArrayS.cnt hcheck).trans rfl, hothers⟩
    obtain ⟨u, hu, hrest, hcycle, hactive, hcount, hkept, hothers⟩ := hin
    have hself := getArr_acceptedIn u a.val w q (acceptedLane (getArr s a.val) w q.row)
    refine ⟨_, hu, ?_, ?_, ?_, fun h => ?_, fun h => ?_, hashPending_acceptedIn u a.val w q _, ?_,
      fun b hb => (getArr_acceptedIn_ne u w q _ hb).trans (hothers b hb)⟩
    · rw [hself]
      exact hcycle
    · rw [hself]
      exact hactive
    · rw [hself, laneOf, getLane_setLane]
      rfl
    · rw [hself]
      exact hcount h
    · rw [hself]
      exact hkept h
    · rw [acceptedIn_rest, hrest]
  · rw [hbad] at hexec
    have hcheck : getArr (checking s a.val due) a.val = { x with cycle := due } := getArr_setArr ..
    obtain ⟨hself, hcount, hlog⟩ := mismatch_spec (s := checking s a.val due) (row := q.row) hmiss harr (by rw [hcheck]; exact htimes)
    rw [hcheck] at hself hcount
    have hlane : laneOf (getArr (mismatch (checking s a.val due) a.val w q.row) a.val) w = rewindLane w q.row l := by
      rw [hself]
      exact getLane_setLane ..
    refine ⟨_, hexec, by rw [hself]; rfl, by rw [hlane]; rfl, by rw [hlane]; rfl, ⟨_, ?_, rfl⟩, ?_, hcount, hlog⟩
    · rw [hself]
      exact mem_mapped (f := replayedSub 1) hbound
    · rw [hself]
      exact tget_tset_self ..

end

section
/-!
PROOFS. One array cycle of the elastic links (R42, R47 to R49) settled.
-/

namespace Sys2Proof.Machine

/-! ### Lists by their places -/

/-- A list is changed place by place. -/
theorem getElem?_map_range_zip {α β : Type} {f : Nat × α → β} {l : List α} {k : Nat} {y : β}
    (h : (((List.range l.length).zip l).map f)[k]? = some y) : ∃ x, l[k]? = some x ∧ f (k, x) = y := by
  rw [List.getElem?_map] at h
  obtain ⟨p, hp, rfl⟩ := Option.map_eq_some_iff.mp h
  obtain ⟨hk, hx⟩ := List.getElem?_zip_eq_some.mp hp
  have hlt : k < l.length := (List.getElem?_eq_some_iff.mp hx).1
  rw [List.getElem?_range hlt] at hk
  refine ⟨p.2, hx, ?_⟩
  rw [Option.some.inj hk]

theorem length_map_range_zip {α β : Type} (f : Nat × α → β) (l : List α) : (((List.range l.length).zip l).map f).length = l.length := by
  rw [List.length_map, List.length_zip, List.length_range, Nat.min_self]

theorem foldl_min_le {α : Type} (f : α → Nat) (l : List α) (n : Nat) :
    l.foldl (fun m k => min m (f k)) n ≤ n ∧ ∀ y ∈ l, l.foldl (fun m k => min m (f k)) n ≤ f y := by
  induction l generalizing n with
  | nil => exact ⟨Nat.le_refl n, fun y hy => absurd hy List.not_mem_nil⟩
  | cons x l ih =>
    obtain ⟨hn, hl⟩ := ih (min n (f x))
    refine ⟨hn.trans (Nat.min_le_left ..), fun y hy => ?_⟩
    rcases List.mem_cons.mp hy with rfl | hy
    · exact hn.trans (Nat.min_le_right ..)
    · exact hl y hy

/-! ### One cycle of the links (R47 to R49) -/

section
variable (beats rows off : Nat) (here : Nat → Bool) (dry blocked : List Nat) (x : Lane)

/-- Array cycles that each physical row has sent behind the cycle. -/
def sentNext : List Nat := ((List.range x.sent.length).zip x.sent).map (fun p =>
  if dry.contains (off + p.1) || rows ≤ p.2 / beats || x.taken.foldl min rows + 4 ≤ p.2 / beats || !here (p.2 / beats) then p.2 else p.2 + 1)

/-- Rows that every physical row has sent. -/
def sentFull (sent : List Nat) : Nat := sent.foldl (fun m k => min m (k / beats)) rows

/-- Which column trees take a row. -/
def takes (full : Nat) : List Bool := ((List.range x.taken.length).zip (x.taken.zip x.drain)).map (fun p =>
  decide (p.2.1 < full) && (decide (p.2.2 < 8) || !blocked.contains p.1))

def takenNext (took : List Bool) : List Nat := (x.taken.zip took).map (fun p => p.1 + b2n p.2)

def drainNext (took : List Bool) : List Nat := ((List.range x.drain.length).zip (x.drain.zip took)).map (fun p =>
  if blocked.contains p.1 then p.2.1 + b2n p.2.2 else p.2.1 + b2n p.2.2 - 1)

/-- Which column trees take a row in the cycle. -/
def tookNext : List Bool := takes blocked x (sentFull beats rows (sentNext beats rows off here dry x))

theorem elastic_eq : elastic beats rows off here dry blocked x =
    (sentNext beats rows off here dry x, takenNext x (tookNext beats rows off here dry blocked x),
      drainNext blocked x (tookNext beats rows off here dry blocked x)) := rfl

end

section
variable {beats rows off : Nat} {here : Nat → Bool} {dry blocked : List Nat} {x : Lane} {k n m : Nat}

/-- A physical row sends at most one activation row, and only where it has one and its queue has room. -/
theorem sentNext_bounds (hn : x.sent[k]? = some n) (hm : (sentNext beats rows off here dry x)[k]? = some m) :
    (m = n ∨ m = n + 1) ∧ (off + k ∈ dry → m = n) ∧
      (m = n + 1 → n / beats < rows ∧ n / beats < x.taken.foldl min rows + 4 ∧ here (n / beats) = true) := by
  obtain ⟨y, hy, hstep⟩ := getElem?_map_range_zip hm
  cases hn.symm.trans hy
  dsimp only at hstep
  split at hstep
  next =>
    subst hstep
    exact ⟨.inl rfl, fun _ => rfl, fun h => absurd h (Nat.succ_ne_self n).symm⟩
  next hgo =>
    subst hstep
    simp only [Bool.or_eq_true, decide_eq_true_eq, List.contains_iff_mem, not_or, Nat.not_le, Bool.not_eq_true', Bool.not_eq_false] at hgo
    obtain ⟨⟨⟨hdry, hrows⟩, hroom⟩, hhere⟩ := hgo
    exact ⟨.inr rfl, fun h => absurd h hdry, fun _ => ⟨hrows, hroom, hhere⟩⟩

theorem takes_spec {full : Nat} {t : Bool} (h : (takes blocked x full)[k]? = some t) : ∃ a d, x.taken[k]? = some a ∧ x.drain[k]? = some d ∧
    t = (decide (a < full) && (decide (d < 8) || !blocked.contains k)) := by
  rw [takes, List.getElem?_map] at h
  obtain ⟨p, hp, rfl⟩ := Option.map_eq_some_iff.mp h
  obtain ⟨hk, hx⟩ := List.getElem?_zip_eq_some.mp hp
  obtain ⟨ha, hd⟩ := List.getElem?_zip_eq_some.mp hx
  have hlt : k < x.taken.length := (List.getElem?_eq_some_iff.mp ha).1
  rw [List.getElem?_range hlt] at hk
  exact ⟨p.2.1, p.2.2, ha, hd, by rw [Option.some.inj hk]⟩

/-- A column tree takes a row that every physical row has sent, unless its drain is full and blocked. -/
theorem takenNext_bounds {full : Nat} (hn : x.taken[k]? = some n) (hm : (takenNext x (takes blocked x full))[k]? = some m) :
    (m = n ∨ m = n + 1) ∧ (m = n + 1 → n < full) ∧ (k ∈ blocked → x.drain[k]? = some 8 → m = n) := by
  rw [takenNext, List.getElem?_map] at hm
  obtain ⟨p, hp, rfl⟩ := Option.map_eq_some_iff.mp hm
  obtain ⟨hp1, hp2⟩ := List.getElem?_zip_eq_some.mp hp
  obtain ⟨a, d, ha, hd, ht⟩ := takes_spec hp2
  cases hn.symm.trans hp1
  cases hn.symm.trans ha
  cases htake : p.2 with
  | false => exact ⟨.inl rfl, fun h => absurd h (Nat.succ_ne_self _).symm, fun _ _ => rfl⟩
  | true =>
    rw [htake] at ht
    obtain ⟨hlt, hroom⟩ := Bool.and_eq_true_iff.mp ht.symm
    refine ⟨.inr rfl, fun _ => of_decide_eq_true hlt, fun hblocked hfull => ?_⟩
    cases hd.symm.trans hfull
    rw [List.contains_iff_mem.mpr hblocked] at hroom
    exact absurd hroom (by decide)

/-- A drain holds at most 8 rows, and a blocked one loses none. -/
theorem drainNext_bounds {full : Nat} (hn : x.drain[k]? = some n) (hm : (drainNext blocked x (takes blocked x full))[k]? = some m) :
    (n ≤ 8 → m ≤ 8) ∧ (k ∈ blocked → n ≤ m) := by
  rw [drainNext, List.getElem?_map] at hm
  obtain ⟨p, hp, rfl⟩ := Option.map_eq_some_iff.mp hm
  obtain ⟨hk, hx⟩ := List.getElem?_zip_eq_some.mp hp
  obtain ⟨hp1, hp2⟩ := List.getElem?_zip_eq_some.mp hx
  obtain ⟨a, d, ha, hd, ht⟩ := takes_spec hp2
  cases hn.symm.trans hp1
  cases hp1.symm.trans hd
  have hlt : k < x.drain.length := (List.getElem?_eq_some_iff.mp hn).1
  rw [List.getElem?_range hlt] at hk
  have hk : p.1 = k := (Option.some.inj hk).symm
  have hone : b2n p.2.2 ≤ 1 := by
    cases p.2.2
    · exact Nat.zero_le _
    · exact Nat.le_refl _
  rw [hk]
  split
  next hblocked =>
    refine ⟨fun hle => ?_, fun _ => Nat.le_add_right ..⟩
    cases htake : p.2.2 with
    | false => exact hle
    | true =>
      rw [htake, hblocked] at ht
      obtain ⟨-, hroom⟩ := Bool.and_eq_true_iff.mp ht.symm
      rw [Bool.not_true, Bool.or_false] at hroom
      exact of_decide_eq_true hroom
  next hfree => exact ⟨fun hle => by omega, fun h => absurd (List.contains_iff_mem.mpr h) hfree⟩

end

/-- A physical row without data is among those that the cycle holds back. -/
theorem mem_dryRows {w : Work} {l : Lane} {dry : List Nat} {k : Nat} (hdry : 64 * w.e.band + k ∈ dry) (hk : k < w.e.bandRows) :
    64 * w.e.band + k ∈ dryRows w l dry := by
  rw [dryRows]
  dsimp only
  split
  · exact hdry
  · refine List.mem_map.mpr ⟨k, List.mem_filter.mpr ⟨List.mem_range.mpr hk, List.any_eq_true.mpr ⟨_, hdry, ?_⟩⟩, rfl⟩
    rw [beq_self_eq_true, Bool.true_or, Bool.and_true]
    exact decide_eq_true (Nat.le_add_right ..)

/-! ### The counters of a cycle -/

/-- Counters of a region and of array `a` have grown, the array's busy cycles by `n`. -/
structure Counted (s t : State) (a n : Nat) : Prop where
  rest : t = { s with arrs := t.arrs, rgns := t.rgns }
  arr : getArr t a = { getArr s a with cnt := (getArr t a).cnt }
  busy : tget 0 (getArr t a).cnt 7 = tget 0 (getArr s a).cnt 7 + BitVec.ofNat 64 n
  others : ∀ b, b ≠ a → getArr t b = getArr s b

namespace Counted

variable {s t u : State} {a n m : Nat}

theorem refl (s : State) (a : Nat) : Counted s s a 0 := ⟨rfl, rfl, (BitVec.add_zero _).symm, fun _ _ => rfl⟩

theorem trans (h : Counted s t a n) (k : Counted t u a 0) : Counted s u a n where
  rest := by rw [k.rest, h.rest]
  arr := by rw [k.arr, h.arr]
  busy := by rw [k.busy, h.busy]; exact BitVec.add_zero _
  others b hb := (k.others b hb).trans (h.others b hb)

theorem addRgnCnt (s : State) (a r i n : Nat) : Counted s (addRgnCnt s r i n) a 0 := ⟨rfl, rfl, (BitVec.add_zero _).symm, fun _ _ => rfl⟩

theorem busyCycle (s : State) (a n : Nat) : Counted s (addArrCnt s a 7 n) a n where
  rest := rfl
  arr := by rw [addArrCnt, getArr_setArr]
  busy := by rw [addArrCnt, getArr_setArr]; exact tget_tset_self ..
  others _ hb := getArr_setArr_ne _ _ _ _ hb

theorem addArrCnt (s : State) (a n : Nat) {i : Nat} (hi : 7 ≠ i) : Counted s (addArrCnt s a i n) a 0 where
  rest := rfl
  arr := by rw [Machine.addArrCnt, getArr_setArr]
  busy := by
    rw [Machine.addArrCnt, getArr_setArr]
    exact (tget_tset_ne _ _ _ _ _ hi).trans (BitVec.add_zero _).symm
  others _ hb := getArr_setArr_ne _ _ _ _ hb

theorem ite (h : Counted s t a n) {b : Bool} {f : State → State} (hf : ∀ v, Counted v (f v) a 0) : Counted s (if b then f t else t) a n :=
  ite_cases (q := fun v => Counted s v a n) (fun _ => h.trans (hf t)) (fun _ => h)

end Counted

/-- An array cycle is counted as one busy cycle. -/
theorem counted_countCycle (s : State) (a : Nat) (seen : CycleSeen) : Counted s (countCycle s a seen) a 1 := by
  have hbusy := Counted.busyCycle s a 1
  exact ((((hbusy.ite fun v => .addRgnCnt v a (a / 4) 9 1).ite fun v => .addArrCnt v a 1 (i := 1) (by decide)).ite
    fun v => .addRgnCnt v a (a / 4) 15 1).ite fun v => .addArrCnt v a 1 (i := 6) (by decide)).ite fun v => .addArrCnt v a 1 (i := 2) (by decide)

/-! ### Reads leave every array alone -/

theorem foldl_arrs {α : Type} {f : State → α → State} (hf : ∀ u x, (f u x).arrs = u.arrs) (l : List α) : ∀ s : State, (l.foldl f s).arrs = s.arrs := by
  induction l with
  | nil => exact fun _ => rfl
  | cons x l ih => exact fun s => (ih (f s x)).trans (hf s x)

theorem askBank_arrs (s : State) (r cls a : Nat) (act : BankAct) (o : Owner) : (askBank s r cls a act o).arrs = s.arrs := rfl

theorem queueRead_arrs (s : State) (o : Owner) (asid : BitVec 16) (r cls a n : Nat) (sub : Option (Nat × Nat)) :
    (queueRead s o asid r cls a n sub).arrs = s.arrs := by
  unfold queueRead
  split
  · rfl
  · rfl

theorem readAt_arrs (s : State) (r cls : Nat) (sp : Space) (a n : Nat) (t : SubTile) : (readAt s r cls sp a n t).arrs = s.arrs := by
  unfold readAt
  split
  · exact foldl_arrs (fun _ _ => askBank_arrs ..) _ s
  · exact foldl_arrs (fun _ _ => queueRead_arrs ..) _ s

theorem askActs_arrs (s : State) (r cls : Nat) (w : Work) (row : Nat) : (askActs s r cls w row).arrs = s.arrs :=
  (foldl_arrs (fun _ _ => readAt_arrs ..) _ _).trans (foldl_arrs (fun _ _ => askBank_arrs ..) _ s)

theorem askParts_arrs (s : State) (r : Nat) (w : Work) (row : Nat) : (askParts s r w row).arrs = s.arrs := foldl_arrs (fun _ _ => readAt_arrs ..) _ s

/-- An array that asks for its next rows leaves the others alone. -/
theorem getArr_feedAhead_ne (s : State) {a b : Nat} (h : b ≠ a) : getArr (feedAhead s a) b = getArr s b := by
  have hask : ∀ u : State, ∀ w : Work, getArr (askAhead u a w) b = getArr u b := fun u w => by
    unfold askAhead
    dsimp only
    split
    · rfl
    · rw [getArr_of_arrs (foldl_arrs (fun _ _ => askActs_arrs ..) _ _), getArr_setArr_ne _ _ _ _ h]
  have hall : ∀ l : List (Work × Roles), ∀ u : State, getArr (l.foldl (fun u w => askAhead u a w.1) u) b = getArr u b := fun l => by
    induction l with
    | nil => exact fun _ => rfl
    | cons w l ih => exact fun u => (ih (askAhead u a w.1)).trans (hask u w.1)
  exact hall _ s

/-! ### One array cycle of an array with one work -/

section
variable (s : State) (a : Nat) (w : Work) (dry blocked : List Nat) (up : List (Nat × W32))

/-- Column drains that take no row: a wait for z holds every one. -/
def shutColumns : List Nat := if zReady s.mems w then blocked else List.range 257

/-- Result rows that every column tree has taken in the cycle. -/
def newResults (lo hi : Nat) : List RowRes :=
  (List.range (hi - lo)).map (fun i => workRow s (a / 4) (getArr s a).active w (lo + i) (getArr s a).cycle up)

/-- What the column trees take in the cycle. -/
def cycleTook : List Bool :=
  tookNext (rowCycles (jobMode w.j)) w.e.rows (64 * w.e.band) (actHere s a w) (dryRows w (laneOf (getArr s a) w) dry) (shutColumns s w blocked)
    (laneOf (getArr s a) w)

/-- Array cycles that the physical rows have sent behind the cycle. -/
def cycleSent : List Nat :=
  sentNext (rowCycles (jobMode w.j)) w.e.rows (64 * w.e.band) (actHere s a w) (dryRows w (laneOf (getArr s a) w) dry) (laneOf (getArr s a) w)

/-- The lane behind the cycle. -/
def cycledLane : Lane :=
  { laneOf (getArr s a) w with
    sent := cycleSent s a w dry, taken := takenNext (laneOf (getArr s a) w) (cycleTook s a w dry blocked)
    drain := drainNext (shutColumns s w blocked) (laneOf (getArr s a) w) (cycleTook s a w dry blocked)
    results := (laneOf (getArr s a) w).results ++ newResults s a w up ((laneOf (getArr s a) w).taken.foldl min w.e.rows)
      ((takenNext (laneOf (getArr s a) w) (cycleTook s a w dry blocked)).foldl min w.e.rows) }

/-- The array whose lane has moved; rows that have been taken leave the gather buffer. -/
def cycledArray : ArrayS :=
  { setLane (getArr s a) w.e.band (cycledLane s a w dry blocked up) with
    gather := (getArr s a).gather.filter (fun e => decide (e.1 / 2 ^ 17 ≠ w.e.band ∨
      (takenNext (laneOf (getArr s a) w) (cycleTook s a w dry blocked)).foldl min w.e.rows ≤ e.1 % 2 ^ 17)) }

theorem laneCycle_asks : Asks (setArr s a (cycledArray s a w dry blocked up)) (laneCycle s a w dry blocked up).1 :=
  Asks.foldl (fun _ _ => asks_askParts ..) _

theorem laneCycle_arrs : (laneCycle s a w dry blocked up).1.arrs = (setArr s a (cycledArray s a w dry blocked up)).arrs :=
  foldl_arrs (fun _ _ => askParts_arrs ..) _ _

end

/-- An array with one work that is at work and not held by a delivery moves that work's lane. -/
theorem broadcast_of_one {s : State} {a : Nat} {w : Work} {ro : Roles} {dry blocked : List Nat} {up : List (Nat × W32)}
    (hworks : works s a = [(w, ro)]) (hon : passOn (laneOf (getArr s a) w) = true) (hcast : (laneOf (getArr s a) w).castled ≤ (getArr s a).cycle)
    (htime : delayDue (getArr s a) ((getArr s a).cycle + 1) = false) : ∃ u seen, Asks (setArr s a (cycledArray s a w dry blocked up)) u ∧
    u.arrs = (setArr s a (cycledArray s a w dry blocked up)).arrs ∧
    broadcast s a dry blocked up = feedAhead (countCycle (setArr u a { getArr u a with cycle := (getArr s a).cycle + 1 }) a seen) a := by
  refine ⟨_, (laneCycle s a w dry blocked up).2.or { still := false, moved := false, work := false, wait := false, full := false },
    laneCycle_asks s a w dry blocked up, laneCycle_arrs s a w dry blocked up, ?_⟩
  have hfilter : [(w, ro)].filter (fun w => passOn (laneOf (getArr s a) w.1)) = [(w, ro)] := by
    rw [List.filter_cons_of_pos (p := fun w : Work × Roles => passOn (laneOf (getArr s a) w.1)) hon, List.filter_nil]
  have hnow : [(w, ro)].filter (fun w => decide ((laneOf (getArr s a) w.1).castled ≤ (getArr s a).cycle)) = [(w, ro)] := by
    rw [List.filter_cons_of_pos (p := fun w : Work × Roles => decide ((laneOf (getArr s a) w.1).castled ≤ (getArr s a).cycle))
      (decide_eq_true hcast), List.filter_nil]
  rw [broadcast, hworks]
  dsimp only
  rw [hfilter, htime, hnow]
  rfl

end Sys2Proof.Machine

open Sys2Proof Sys2Proof.Machine

/-- Settles O37: the lane moves by the rules of the elastic links, the cycle is counted, and the rest of the cycle asks for rows. -/
theorem broadcastKeepsElasticBounds : Obligations.BroadcastKeepsElasticBounds := by
  intro s a dry blocked up w ro x l beats low hruns hworks hon hcast htime hz
  obtain ⟨u, seen, hasks, harrs, hcycle⟩ := broadcast_of_one (dry := dry) (blocked := blocked) (up := up) hworks hon hcast htime
  have hexec : exec (.rowBroadcast a dry blocked up) s = .next (broadcast s a.val dry blocked up) := congrArg _ (if_pos hruns)
  rw [hcycle] at hexec
  have hcount := counted_countCycle (setArr u a.val { getArr u a.val with cycle := x.cycle + 1 }) a.val seen
  have hfeed := asks_feedAhead (countCycle (setArr u a.val { getArr u a.val with cycle := x.cycle + 1 }) a.val seen) a.val
  have hfar : ∀ b, b ≠ a.val → getArr (feedAhead (countCycle (setArr u a.val { getArr u a.val with cycle := x.cycle + 1 }) a.val seen) a.val) b =
      getArr (countCycle (setArr u a.val { getArr u a.val with cycle := x.cycle + 1 }) a.val seen) b := fun b hb => getArr_feedAhead_ne _ hb
  have hu : getArr u a.val = cycledArray s a.val w dry blocked up := by rw [getArr_of_arrs harrs, getArr_setArr]
  generalize countCycle (setArr u a.val { getArr u a.val with cycle := x.cycle + 1 }) a.val seen = v at *
  generalize feedAhead v a.val = t at *
  have hv : getArr v a.val = { cycledArray s a.val w dry blocked up with cycle := x.cycle + 1, cnt := (getArr v a.val).cnt } := by
    rw [hcount.arr, getArr_setArr, hu]
  have hbusy : tget 0 (getArr v a.val).cnt 7 = tget 0 x.cnt 7 + 1 := by
    rw [hcount.busy, getArr_setArr, hu]
    rfl
  have hlane : laneOf (getArr t a.val) w = { cycledLane s a.val w dry blocked up with asked := (laneOf (getArr t a.val) w).asked } := by
    have hlv : getLane (getArr v a.val) w.e.band = cycledLane s a.val w dry blocked up := by
      rw [hv]
      exact getLane_setLane ..
    rw [laneOf, hfeed.lane, hlv]
  have hrest : t.mems = s.mems ∧ t.ctxs = s.ctxs ∧ t.units = s.units := by
    have hvs : v = { s with arrs := v.arrs, rgns := v.rgns, mp := v.mp } := by
      rw [hcount.rest, hasks.rest]
      rfl
    refine ⟨?_, ?_, ?_⟩
    · rw [hfeed.rest, hvs]
    · rw [hfeed.rest, hvs]
    · rw [hfeed.rest, hvs]
  obtain ⟨hmems, hctxs, hunits⟩ := hrest
  have hsent : (laneOf (getArr t a.val) w).sent = cycleSent s a.val w dry := by rw [hlane]; rfl
  have htook : cycleTook s a.val w dry blocked = takes blocked l (sentFull beats w.e.rows (cycleSent s a.val w dry)) := by
    rw [cycleTook, tookNext, shutColumns, if_pos hz]
    rfl
  have htaken : (laneOf (getArr t a.val) w).taken = takenNext l (takes blocked l (sentFull beats w.e.rows (cycleSent s a.val w dry))) := by
    rw [hlane, ← htook]
    rfl
  have hdrain : (laneOf (getArr t a.val) w).drain = drainNext blocked l (takes blocked l (sentFull beats w.e.rows (cycleSent s a.val w dry))) := by
    have hshut : shutColumns s w blocked = blocked := if_pos hz
    rw [hlane, ← htook]
    show drainNext (shutColumns s w blocked) _ _ = _
    rw [hshut]
  refine ⟨t, hexec, by rw [hfeed.arr, hv]; rfl, by rw [hfeed.arr, hv]; rfl, by rw [hfeed.arr, hv], by rw [hfeed.arr]; exact hbusy, ?_,
    fun k n m hn hm => ?_, fun k n m hn hm => ?_, fun k n m hn hm => ?_, ?_, hmems, hctxs, hunits, fun b hb => ?_⟩
  · rw [hsent]
    exact length_map_range_zip ..
  · rw [hsent] at hm
    obtain ⟨hone, hdry, hroom⟩ := sentNext_bounds hn hm
    exact ⟨hone, fun h hk => hdry (mem_dryRows h hk), hroom⟩
  · rw [htaken] at hm
    obtain ⟨hone, hfull, hblocked⟩ := takenNext_bounds hn hm
    obtain ⟨hrows, hall⟩ := foldl_min_le (fun k => k / beats) (cycleSent s a.val w dry) w.e.rows
    refine ⟨hone, fun h => ⟨lt_of_lt_of_le (hfull h) hrows, fun y hy => lt_of_lt_of_le (hfull h) (hall y ?_)⟩, hblocked⟩
    rwa [hsent] at hy
  · rw [hdrain] at hm
    exact drainNext_bounds hn hm
  · refine ⟨_, by rw [hlane]; rfl, fun q hq => ?_⟩
    obtain ⟨i, hi, rfl⟩ := List.mem_map.mp hq
    have hhi := (foldl_min_le id (takenNext l (cycleTook s a.val w dry blocked)) w.e.rows).1
    have hi := List.mem_range.mp hi
    exact ⟨rfl, rfl, Nat.le_add_right _ _, lt_of_lt_of_le (Nat.add_lt_of_lt_sub' hi) hhi⟩
  · rw [hfar b hb, hcount.others b hb, getArr_setArr_ne _ _ _ _ hb, getArr_of_arrs harrs, getArr_setArr_ne _ _ _ _ hb]

end

section
/-!
PROOFS. The Staging Unit's row work: transposer, gather and windows (R130, R184, R186, R187) settled.
-/

namespace Sys2Proof.Machine

/-! ### Loads that begin -/

/-- Memory, the contexts and every active bank are the same. -/
structure BanksKept (s t : State) : Prop where
  mems : t.mems = s.mems
  ctxs : t.ctxs = s.ctxs
  active : ∀ b, (getArr t b).active = (getArr s b).active

namespace BanksKept

variable {s t u : State}

theorem trans (h : BanksKept s t) (k : BanksKept t u) : BanksKept s u :=
  ⟨k.mems.trans h.mems, k.ctxs.trans h.ctxs, fun b => (k.active b).trans (h.active b)⟩

theorem of_asks (h : Asks s t) : BanksKept s t := ⟨by rw [h.rest], by rw [h.rest], fun b => by rw [h.arr]⟩

theorem foldl {α : Type} {f : State → α → State} (hf : ∀ v x, BanksKept v (f v x)) (l : List α) : ∀ v, BanksKept v (l.foldl f v) := by
  induction l with
  | nil => exact fun v => ⟨rfl, rfl, fun _ => rfl⟩
  | cons x l ih => exact fun v => (hf v x).trans (ih (f v x))

theorem addCnt (s : State) (i n : Nat) : BanksKept s (addCnt s i n) := ⟨rfl, rfl, fun _ => rfl⟩

theorem setArr {a : Nat} {x : ArrayS} (h : x.active = (getArr s a).active) : BanksKept s (setArr s a x) := by
  refine ⟨rfl, rfl, fun b => ?_⟩
  rw [getArr_setArr_if]
  split
  next hb => rw [h, hb]
  next => rfl

end BanksKept

theorem asks_queueReads (s : State) (o : Owner) (asid : BitVec 16) (r cls a n : Nat) (sub : Option (Nat × Nat)) :
    Asks s (queueReads s o asid r cls a n sub) := .foldl (fun _ _ => asks_queueRead ..) s

theorem asks_readRow (s : State) (r bank port : Nat) (o : Owner) (j : Job) (t : SubTile) (n i : Nat) : Asks s (readRow s r bank port o j t n i) :=
  (Asks.foldl (fun _ _ => asks_askBank ..) s).trans (.foldl (fun _ _ => asks_queueReads ..) _)

theorem banksKept_startLoad (s : State) (a : Nat) (w : Work × Nat) : BanksKept s (startLoad s a w) := by
  have hload := BanksKept.setArr (s := s) (a := a) (x := { getArr s a with
    loads := (getArr s a).loads ++ [freshLoad (getArr s a) w.1 w.2], tsp := if (busLoad (getArr s a).loads).isNone then [] else (getArr s a).tsp
    shadow := if w.1.e.bandRows == 256 then { (getArr s a).shadow with rows := [], scales := [] } else (getArr s a).shadow }) (by rfl)
  have hrows := hload.trans (.foldl (fun v i => .of_asks (asks_readRow v (a / 4) 2 1 (.desc w.1.t.ctx w.1.t.ring) w.1.j w.1.e w.2 i))
    (List.range (liveRows (tileRows w.1.j) (passOf w.1.j w.2).1)) _)
  exact ite_cases (q := BanksKept s) (fun _ => hrows.trans (.of_asks (asks_fetchLists ..))) (fun _ => hrows)

theorem banksKept_syncLoads (s : State) (a : Nat) : BanksKept s (syncLoads s a) := by
  rw [syncLoads]
  refine BanksKept.trans ?_ (.foldl (fun _ _ => banksKept_startLoad ..) _ _)
  split
  · exact (BanksKept.addCnt s 3 1).trans (.setArr rfl)
  · exact .setArr rfl

theorem banksKept_currentLoad {s s1 : State} {a : Nat} {l : Option (Load × Job × SubTile × Nat × Option Work)} (h : currentLoad s a = (s1, l)) :
    BanksKept s s1 := by
  have hsync : s1 = syncLoads s a := by
    have hfst : (currentLoad s a).1 = s1 := congrArg Prod.fst h
    rw [← hfst, currentLoad]
    dsimp only
    split
    · rfl
    · split
      · rfl
      · rfl
  exact hsync ▸ banksKept_syncLoads s a

/-! ### The transposer (R130) -/

/-- The slot row that the transposer builds as row `i` of a load. -/
def slotRow (s : State) (j : Job) (u : SubTile) (n i : Nat) : BankRow :=
  if i < liveRows (tileRows j) (passOf j n).1 then
    loadRow s.mems j u.h (subFirst j u) (subCols j u) (256 * (passOf j n).1 + i) (passOf j n).2
  else emptyRow

theorem transposeRow_of_here {s s1 : State} {a : Nat} {l : Load} {j : Job} {u : SubTile} {n : Nat} {v : Option Work}
    (hload : currentLoad s a = (s1, some (l, j, u, n, v))) (htsp : needsTsp j = true) (hmore : l.nextRow + (getArr s1 a).tsp.length < l.total)
    (hhere : rowHere s1 (a / 4) (loadOwner a l u) j u n (l.nextRow + (getArr s1 a).tsp.length) = true) :
    transposeRow s a = setArr s1 a { getArr s1 a with
      tsp := (getArr s1 a).tsp ++ [slotRow s1 j u n (l.nextRow + (getArr s1 a).tsp.length)] } := by
  simp only [transposeRow, hload, htsp, hhere, decide_eq_false (Nat.not_le.mpr hmore), Bool.not_true, Bool.or_self, Bool.false_eq_true, if_false]
  rfl

/-! ### The gather buffer (R184) -/

/-- A gathered row's reads are those of scratchpad lines alone. -/
theorem actPort_of_gathered {w : Work} (row : Nat) (h : gathered w.j = true) : actPort w row = [] := by
  have hconv : (dOpcode w.j.d == 6) = true := (Bool.and_eq_true_iff.mp h).1
  exact if_pos (by rw [hconv, Bool.or_true, Bool.true_or])

theorem askActs_of_gathered {s : State} {r cls : Nat} {w : Work} {row : Nat} (h : gathered w.j = true) :
    askActs s r cls w row = (actSpad s r w row).foldl (fun u x => askBank u x.1 cls x.2 .read (.desc w.t.ctx w.t.ring)) s := by
  rw [askActs, actPort_of_gathered row h]
  rfl

theorem foldl_askBank_rest {α : Type} (rg ad : α → Nat) (cls : Nat) (o : Owner) (l : List α) : ∀ s : State,
    l.foldl (fun u x => askBank u (rg x) cls (ad x) .read o) s =
      { s with rgns := (l.foldl (fun u x => askBank u (rg x) cls (ad x) .read o) s).rgns } := by
  induction l with
  | nil => exact fun _ => rfl
  | cons x l ih => exact fun s => ih (askBank s (rg x) cls (ad x) .read o)

/-- The codes that are gathered next for a work. -/
def nextGathered (s : State) (a : Nat) (w : Work) : List Byte :=
  gatherBytes s.mems w.j w.e (passOf w.j w.e.passesDone).1 (gatherNext (getArr s a) w)

/-- They stand in the gather buffer. -/
def gatheredIn (s : State) (a : Nat) (w : Work) : State :=
  setArr s a { getArr s a with gather := tset (getArr s a).gather (gatherKey w.e.band (gatherNext (getArr s a) w)) (nextGathered s a w) }

section
variable {s : State} {a : Nat} {w : Work} {ro : Roles} (hworks : works s a = [(w, ro)]) (hgather : gathered w.j = true)
  (hon : passOn (laneOf (getArr s a) w) = true) (hwin : windowHere s (a / 4) w.j w.e = true) (hnext : gatherNext (getArr s a) w < w.e.rows)
  (hroom : (getArr s a).gather.foldl (fun n e => n + e.2.length) 0 + (nextGathered s a w).length ≤ 131072)
include hworks hgather hon hwin hnext hroom

theorem gatherOne_of_room (rs : RsResult) : gatherOne s a rs = if rs == .uncorrectable then bufferLoss s a w else
    askActs (gatheredIn s a w) (a / 4) 2 w (gatherNext (getArr s a) w) := by
  have hfind : [(w, ro)].find? (fun w => gathered w.1.j && passOn (laneOf (getArr s a) w.1) && windowHere s (a / 4) w.1.j w.1.e &&
      decide (gatherNext (getArr s a) w.1 < w.1.e.rows)) = some (w, ro) :=
    List.find?_cons_of_pos (by rw [hgather, hon, hwin, decide_eq_true hnext]; rfl)
  rw [gatherOne, hworks]
  dsimp only
  rw [hfind]
  have hfits : ¬decide (131072 < (getArr s a).gather.foldl (fun n e => n + e.2.length) 0 + (nextGathered s a w).length) = true := by
    rw [decide_eq_false (Nat.not_lt.mpr hroom)]
    exact Bool.false_ne_true
  exact if_neg hfits

end

/-! ### Input windows (R186, R187) -/

theorem sameWindow_self (v : Window) : sameWindow v v = true := by
  simp only [sameWindow, beq_self_eq_true, Bool.and_self]

/-- From `s` to `t` reads and writes of banks and reads of ports were asked for, and no array changed. -/
structure Moves (s t : State) : Prop where
  asks : Asks s t
  arrs : t.arrs = s.arrs

namespace Moves

variable {s t u : State}

theorem refl (s : State) : Moves s s := ⟨.refl s, rfl⟩

theorem trans (h : Moves s t) (k : Moves t u) : Moves s u := ⟨h.asks.trans k.asks, k.arrs.trans h.arrs⟩

theorem foldl {α : Type} {f : State → α → State} (hf : ∀ v x, Moves v (f v x)) (l : List α) (s : State) : Moves s (l.foldl f s) :=
  ⟨.foldl (fun v x => (hf v x).asks) s, foldl_arrs (fun v x => (hf v x).arrs) l s⟩

theorem askBank (s : State) (r cls a : Nat) (act : BankAct) (o : Owner) : Moves s (askBank s r cls a act o) := ⟨asks_askBank .., rfl⟩

theorem queueReads (s : State) (o : Owner) (asid : BitVec 16) (r cls a n : Nat) (sub : Option (Nat × Nat)) :
    Moves s (queueReads s o asid r cls a n sub) := foldl (fun v _ => ⟨asks_queueRead .., queueRead_arrs v ..⟩) _ s

theorem rest (h : Moves s t) : t = { s with rgns := t.rgns, mp := t.mp } := by
  rw [h.asks.rest, h.arrs]

end Moves

theorem moves_fetchWindow (s : State) (r : Nat) (j : Job) (t : SubTile) (w : Window) (lo : Nat) : Moves s (fetchWindow s r j t w lo) := by
  refine Moves.foldl (fun v x => ?_) _ s
  split
  · exact Moves.queueReads ..
  · exact Moves.foldl (fun _ _ => Moves.askBank ..) _ v

theorem moves_copyHalo (s : State) (q r : Nat) (t : SubTile) (v w : Window) (hi : Nat) : Moves s (copyHalo s q r t v w hi) :=
  (Moves.foldl (fun _ _ => Moves.askBank ..) _ s).trans (.foldl (fun _ _ => Moves.askBank ..) _ _)

/-- The window stands in its region. -/
def windowPut (s : State) (r : Nat) (w : Window) : State := setRgn s r { getRgn s r with windows := (getRgn s r).windows ++ [w] }

theorem stageWindow_cases (s : State) (r : Nat) (j : Job) (t : SubTile) (w : Window) : ∃ u, Moves u (stageWindow s r j t w) ∧
    (u = windowPut s r w ∨ ∃ i n, u = addRgnCnt (windowPut s r w) r i n) := by
  rw [stageWindow]
  dsimp only
  split
  next v q _ => exact ⟨_, (moves_copyHalo ..).trans (moves_fetchWindow ..), .inr ⟨_, _, rfl⟩⟩
  next =>
    refine ⟨_, moves_fetchWindow .., ?_⟩
    split
    · exact .inl rfl
    · exact .inr ⟨_, _, rfl⟩

theorem stageWindow_spec (s : State) (r : Nat) (j : Job) (t : SubTile) (w : Window) :
    stageWindow s r j t w = { s with rgns := (stageWindow s r j t w).rgns, mp := (stageWindow s r j t w).mp } ∧
    (getRgn (stageWindow s r j t w) r).windows = (getRgn s r).windows ++ [w] := by
  obtain ⟨u, hmoves, hu⟩ := stageWindow_cases s r j t w
  have hrest := hmoves.rest
  have hrgn := hmoves.asks.rgn r
  generalize stageWindow s r j t w = v at *
  have hwin : (getRgn u r).windows = (getRgn s r).windows ++ [w] ∧ u = { s with rgns := u.rgns } := by
    rcases hu with rfl | ⟨i, n, rfl⟩
    · exact ⟨by rw [windowPut, getRgn_setRgn], rfl⟩
    · exact ⟨by rw [addRgnCnt, getRgn_setRgn, windowPut, getRgn_setRgn], rfl⟩
  exact ⟨by rw [hrest, hwin.2], by rw [hrgn, hwin.1]⟩

theorem foldl_stageWindow (r : Nat) (j : Job) (t : SubTile) (l : List Window) : ∀ s : State,
    l.foldl (fun u w => stageWindow u r j t w) s = { s with rgns := (l.foldl (fun u w => stageWindow u r j t w) s).rgns
                                                            mp := (l.foldl (fun u w => stageWindow u r j t w) s).mp } ∧
    (getRgn (l.foldl (fun u w => stageWindow u r j t w) s) r).windows = (getRgn s r).windows ++ l := by
  induction l with
  | nil => exact fun s => ⟨rfl, (List.append_nil _).symm⟩
  | cons w l ih =>
    intro s
    obtain ⟨hrest, hwin⟩ := stageWindow_spec s r j t w
    obtain ⟨hrests, hwins⟩ := ih (stageWindow s r j t w)
    rw [List.foldl_cons]
    refine ⟨?_, by rw [hwins, hwin, List.append_assoc]; rfl⟩
    generalize l.foldl (fun u w => stageWindow u r j t w) (stageWindow s r j t w) = v at *
    rw [hrests, hrest]

/-! ### The halo of a window (R187) -/

/-- The window of the chunk before that holds rows of `w`. -/
def haloIn (w : Window) (x : Region) : Option Window :=
  x.windows.find? (fun v => w.chunk != 0 && sameWindow { w with chunk := w.chunk - 1 } v && decide (w.lo < v.hi))

theorem haloSource_eq (s : State) (r : Nat) (w : Window) : haloSource s r w = match haloIn w (getRgn s r) with
    | some v => some (v, r)
    | none => s.rgns.findSome? (fun e => (haloIn w e.2).map (fun v => (v, e.1))) := rfl

/-- An entry that is looked for in vain may be set. -/
theorem findSome?_tset {α β : Type} {d : α} {f : Nat × α → Option β} (t : Tbl α) (k : Nat) {v : α} (hv : f (k, v) = none)
    (hd : f (k, tget d t k) = none) : (tset t k v).findSome? f = t.findSome? f := by
  induction t with
  | nil => rw [tset, List.findSome?_cons, hv]
  | cons e t ih =>
    obtain ⟨j, w⟩ := e
    rw [tset]
    split
    · rw [List.findSome?_cons, hv]
    · split
      next hj =>
        rw [tget, if_pos hj] at hd
        rw [List.findSome?_cons, hv, List.findSome?_cons, hj, hd]
      next hj =>
        rw [tget, if_neg hj] at hd
        rw [List.findSome?_cons, List.findSome?_cons, ih hd]

/-- A window's halo is found where it was, whatever of the region but its windows has changed. -/
theorem haloSource_setRgn {s : State} {r : Nat} {w : Window} {x : Region} (h : haloIn w x = haloIn w (getRgn s r)) :
    haloSource (setRgn s r x) r w = haloSource s r w := by
  rw [haloSource_eq, getRgn_setRgn, h, haloSource_eq]
  cases hhere : haloIn w (getRgn s r) with
  | some v => rfl
  | none =>
    refine findSome?_tset s.rgns r (d := Region.init) ?_ ?_
    · rw [h, hhere]
      rfl
    · exact congrArg (Option.map fun v => (v, r)) hhere

/-- A window whose halo its own region holds counts the rows that it copies. -/
theorem stageWindow_of_halo {s : State} {r : Nat} {j : Job} {t : SubTile} {w v : Window} (h : haloSource s r w = some (v, r)) :
    tget 0 (getRgn (stageWindow s r j t w) r).cnt 16 = tget 0 (getRgn s r).cnt 16 + BitVec.ofNat 64 (min v.hi w.hi - w.lo) := by
  have hstage : stageWindow s r j t w = fetchWindow (copyHalo (addRgnCnt (windowPut s r w) r 16 (min v.hi w.hi - w.lo)) r r t v w (min v.hi w.hi)) r j t w
      (min v.hi w.hi) := by
    simp only [stageWindow, h, beq_self_eq_true, if_true]
    rfl
  have hmoves := (moves_copyHalo (addRgnCnt (windowPut s r w) r 16 (min v.hi w.hi - w.lo)) r r t v w (min v.hi w.hi)).trans
    (moves_fetchWindow _ r j t w (min v.hi w.hi))
  rw [hstage, hmoves.asks.rgn, addRgnCnt, getRgn_setRgn, windowPut, getRgn_setRgn]
  exact tget_tset_self ..

/-! ### The windows of a chunk -/

section
variable (s : State) (r : Nat) (j : Job) (t : SubTile)

/-- Windows whose descriptor is still admitted. -/
def heldWindows : List Window := (getRgn s r).windows.filter (fun v => (findAdm (getCtx s v.ctx) v.ring).isSome)

/-- Windows of the chunk that the region lacks. -/
def lacked : List Window := (windowsOf j t).filter (fun w => !(heldWindows s r).any (sameWindow w))

/-- The copies that are kept when room is made for the windows. -/
def windowRoom : Option (List ResCopy) :=
  evictFor (copyInUse s) t.ctx (ceResBytes (getCtx s t.ctx).ent - winUsed { getRgn s r with windows := heldWindows s r } t.ctx)
    ((lacked s r j t).foldl (fun n w => n + w.bytes) 0) (getRgn s r).resid.length (getRgn s r).resid

/-- The region with room for the windows. -/
def roomed (l : List ResCopy) : State := setRgn s r { getRgn s r with windows := heldWindows s r, resid := l }

theorem stageChunk_eq : stageChunk s r j t = match windowRoom s r j t with
    | none => addRgnCnt s r 6 1
    | some l => (lacked s r j t).foldl (fun u w => stageWindow u r j t w) (roomed s r l) := rfl

end

/-- A product's work is of the sub-tile that it belongs to. -/
theorem ctx_of_workIn {s : State} {r : Nat} {u : Roles} {t : SubTile} {w : Work} (h : workIn s r u t = some w) : w.e.ctx = w.t.ctx := by
  unfold workIn at h
  split at h
  · cases h
  next d j _ =>
    split at h
    · obtain ⟨q, -, rfl⟩ := Option.map_eq_some_iff.mp h
      cases q with
      | whole => rfl
      | lead => rfl
      | follow => rfl
    · cases h
      rfl

theorem ctx_of_works {s : State} {a : Nat} {w : Work} {ro : Roles} (h : (w, ro) ∈ works s a) : w.e.ctx = w.t.ctx := by
  unfold works at h
  split at h
  next t _ =>
    obtain ⟨v, hv, heq⟩ := Option.map_eq_some_iff.mp (Option.mem_toList.mp h)
    cases heq
    exact ctx_of_workIn hv
  next =>
    obtain ⟨t, -, hsome⟩ := List.mem_filterMap.mp h
    obtain ⟨v, hv, heq⟩ := Option.map_eq_some_iff.mp hsome
    cases heq
    exact ctx_of_workIn hv

theorem stageOne_of_first {s : State} {a : Nat} {w : Work} {ro : Roles} (hworks : works s a = [(w, ro)]) (hconv : dOpcode w.j.d = 6)
    (hlack : ∃ v ∈ windowsOf w.j w.e, (getRgn s (a / 4)).windows.any (sameWindow v) = false) : stageOne s a = stageChunk s (a / 4) w.j w.e := by
  have hall : (windowsOf w.j w.e).all (fun v => (getRgn s (a / 4)).windows.any (sameWindow v)) = false := by
    obtain ⟨v, hv, hnone⟩ := hlack
    exact List.all_eq_false.mpr ⟨v, hv, by rw [hnone]; exact Bool.false_ne_true⟩
  rw [stageOne, hworks, List.map_cons, List.cons_append, List.find?_cons_of_pos (by rw [hconv, hall]; rfl)]

end Sys2Proof.Machine

open Sys2Proof Sys2Proof.Machine

/-- Settles O44: a transposed row, a gathered row and staged windows are appended, and their reads asked for. -/
theorem stagingBuildsRows : Obligations.StagingBuildsRows := by
  intro s a hruns hregion
  have hon : (arrayRuns s a.val && regionRuns s (a.val / 4)) = true := by rw [hruns, hregion]; rfl
  refine ⟨fun s1 l j u n v hload => ?_, fun w ro hworks => ⟨?_, ?_⟩⟩
  · intro i htsp hmore hhere
    have hkept := banksKept_currentLoad hload
    have hexec : exec (.transposerRow a) s = .next (transposeRow s a.val) := congrArg _ (if_pos hon)
    exact ⟨_, hexec.trans (congrArg _ (transposeRow_of_here hload htsp hmore hhere)), fun h => if_neg (Nat.not_lt.mpr h), hkept.active a.val, hkept.mems, hkept.ctxs⟩
  · intro x next bs hgather hpass hwin hnext hroom
    have hone := gatherOne_of_room hworks hgather hpass hwin hnext hroom
    have hexec : ∀ rs, exec (.gatherRow a rs) s = .next (gatherOne s a.val rs) := fun rs => congrArg _ (if_pos hon)
    refine ⟨fun rs hrs => ?_, fun harr => ?_⟩
    · have hgo : ¬(rs == .uncorrectable) = true := fun h => hrs (eq_of_beq h)
      have hrun := (hexec rs).trans (congrArg _ ((hone rs).trans (if_neg hgo)))
      rw [askActs_of_gathered hgather] at hrun
      have hrest := foldl_askBank_rest (Prod.fst (β := Nat)) Prod.snd 2 (.desc w.t.ctx w.t.ring)
        (actSpad (gatheredIn s a.val w) (a.val / 4) w next) (gatheredIn s a.val w)
      refine ⟨_, hrun, ?_, ?_, fun b hb => ?_⟩
      · rw [hrest]
        rfl
      · rw [hrest]
        exact getArr_setArr ..
      · rw [hrest]
        exact getArr_setArr_ne _ _ _ _ hb
    · have hrun := (hexec .uncorrectable).trans (congrArg _ ((hone .uncorrectable).trans (if_pos rfl)))
      have hself := getArr_bufferLoss_self s a.val w harr
      refine ⟨_, hrun, fun e he => ?_, by rw [hself]; rfl, ?_, by rw [bufferLoss_rest], logAt_bufferLoss ..⟩
      · rw [hself] at he
        exact bne_iff_ne.mp (List.mem_filter.mp he).2
      · rw [hself]
        exact congrArg Lane.sent (getLane_setLane ..)
  · intro x held need cap fits hconv hlack
    have hctx : w.e.ctx = w.t.ctx := ctx_of_works (by rw [hworks]; exact List.mem_singleton_self _)
    have hfits : windowRoom s (a.val / 4) w.j w.e = fits := by
      rw [windowRoom, hctx]
      rfl
    have hstage : exec (.stageWindow a) s = .next (stageChunk s (a.val / 4) w.j w.e) :=
      congrArg _ ((if_pos (by rw [hruns, hregion]; rfl)).trans (stageOne_of_first hworks hconv hlack))
    rw [stageChunk_eq] at hstage
    refine ⟨fun hnone => ?_, fun l hl => ?_⟩
    · have hnone : windowRoom s (a.val / 4) w.j w.e = none := hfits.trans hnone
      rw [hstage, hnone]
    · have hl : windowRoom s (a.val / 4) w.j w.e = some l := hfits.trans hl
      rw [hl] at hstage
      have hheld : (getRgn (roomed s (a.val / 4) l) (a.val / 4)).windows = held := by rw [roomed, getRgn_setRgn]; rfl
      obtain ⟨hrest, hwin⟩ := foldl_stageWindow (a.val / 4) w.j w.e need (roomed s (a.val / 4) l)
      refine ⟨_, hstage, hrest, fun v hv => ?_, fun y v hneed hall hsource => ?_⟩
      · refine (congrArg (List.any · (sameWindow v)) (hwin.trans (congrArg (· ++ need) hheld))).trans ?_
        rw [List.any_append]
        by_cases hin : held.any (sameWindow v) = true
        · rw [hin, Bool.true_or]
        · have hmem : v ∈ need := List.mem_filter.mpr ⟨hv, by rw [Bool.eq_false_iff.mpr hin]; rfl⟩
          rw [List.any_eq_true.mpr ⟨v, hmem, sameWindow_self v⟩, Bool.or_true]
      · have hlacked : lacked s (a.val / 4) w.j w.e = [y] := hneed
        have hwindows : heldWindows s (a.val / 4) = x.windows := hall
        have hhalo : haloSource (roomed s (a.val / 4) l) (a.val / 4) y = some (v, a.val / 4) :=
          (haloSource_setRgn (by rw [haloIn, hwindows]; rfl)).trans hsource
        rw [hlacked]
        refine (stageWindow_of_halo hhalo).trans ?_
        rw [roomed, getRgn_setRgn]

end

section
/-!
PROOFS. What the commit of a row writes, in the state in which the array has moved on: writes that wait are the same bytes wherever the tables
of the state list them (R132), and MGRAD's writes lie where they lay.
-/

namespace Sys2Proof.Machine

/-! ### Writes that are performed twice -/

/-- Writes leave a byte alone, or set it to one value whatever it was. -/
theorem rdByte_applyWrites_cases (ws : List MemWrite) (sp : Space) (x : Nat) :
    (∀ ms, rdByte (applyWrites ms ws) sp x = rdByte ms sp x) ∨ ∃ b, ∀ ms, rdByte (applyWrites ms ws) sp x = b := by
  induction ws with
  | nil => exact .inl fun _ => rfl
  | cons w ws ih =>
    simp only [applyWrites_cons]
    rcases ih with hkept | ⟨b, hset⟩
    · by_cases hin : sp = w.sp ∧ w.addr ≤ x ∧ x < w.addr + w.bytes.length
      · exact .inr ⟨w.bytes.getD (x - w.addr) 0, fun ms => by rw [hkept, rdByte_wrBytes, if_pos hin]⟩
      · exact .inl fun ms => by rw [hkept, rdByte_wrBytes, if_neg hin]
    · exact .inr ⟨b, fun ms => hset _⟩

theorem rdByte_applyWrites_congr {ms ms' : Mems} {sp : Space} {x : Nat} (h : rdByte ms' sp x = rdByte ms sp x) (ws : List MemWrite) :
    rdByte (applyWrites ms' ws) sp x = rdByte (applyWrites ms ws) sp x := by
  rcases rdByte_applyWrites_cases ws sp x with hkept | ⟨b, hset⟩
  · rw [hkept, hkept, h]
  · rw [hset, hset]

/-- Writes that come again later. -/
def Repeated (l ws : List MemWrite) : Prop := l = [] ∨ ∃ l1 l2, ws = l1 ++ (l ++ l2)

/-- Writes that come again later leave no trace of their own. -/
theorem rdByte_repeated {l ws : List MemWrite} (h : Repeated l ws) (ms : Mems) (sp : Space) (x : Nat) :
    rdByte (applyWrites ms (l ++ ws)) sp x = rdByte (applyWrites ms ws) sp x := by
  rcases h with rfl | ⟨l1, l2, rfl⟩
  · rfl
  · simp only [applyWrites_append]
    refine rdByte_applyWrites_congr ?_ l2
    rcases rdByte_applyWrites_cases l sp x with hkept | ⟨b, hset⟩
    · rw [hkept, hkept]
      exact rdByte_applyWrites_congr (hkept ms) l1
    · rw [hset, hset]

/-! ### Writes that a table lists -/

section
variable {α : Type} {d : α} {f : Nat × α → List MemWrite} {k : Nat} {v : α}

theorem repeated_tget (t : Tbl α) (hd : f (k, d) = []) : Repeated (f (k, tget d t k)) (t.flatMap f) := by
  induction t with
  | nil => exact .inl hd
  | cons e t ih =>
    obtain ⟨j, w⟩ := e
    rw [tget, List.flatMap_cons]
    split
    next hj => exact .inr ⟨[], t.flatMap f, by rw [List.nil_append, hj]⟩
    next =>
      rcases ih with hnil | ⟨l1, l2, hws⟩
      · exact .inl hnil
      · exact .inr ⟨f (j, w) ++ l1, l2, by rw [hws, List.append_assoc]⟩

/-- A table whose entry of `k` is set to one with the same writes performs the same writes. -/
theorem rdByte_tset (t : Tbl α) (hv : f (k, v) = f (k, tget d t k)) (hd : f (k, d) = []) (sp : Space) (x : Nat) :
    ∀ ms, rdByte (applyWrites ms ((tset t k v).flatMap f)) sp x = rdByte (applyWrites ms (t.flatMap f)) sp x := by
  induction t with
  | nil =>
    intro ms
    rw [tset, List.flatMap_cons, hv]
    exact rdByte_repeated (.inl hd) ms sp x
  | cons e t ih =>
    intro ms
    obtain ⟨j, w⟩ := e
    rw [tset]
    split
    next =>
      rw [List.flatMap_cons, hv]
      exact rdByte_repeated (repeated_tget _ hd) ms sp x
    next =>
      split
      next hj =>
        rw [tget, if_pos hj] at hv
        rw [List.flatMap_cons, List.flatMap_cons, hv, hj]
      next hj =>
        rw [tget, if_neg hj] at hv
        rw [List.flatMap_cons, List.flatMap_cons, applyWrites_append, applyWrites_append]
        exact ih hv _

end

/-! ### Memory with the writes that wait (R132) -/

/-- The writes that wait for a bank of a region. -/
def waitingBank (e : Nat × Region) : List MemWrite := e.2.bankReqs.filterMap (fun q =>
  match q.act with
  | .write bs => some { sp := Space.spad e.1, addr := q.addr, bytes := bs : MemWrite }
  | _ => none)

/-- The writes in the delay line of an array. -/
def waitingDelay (e : Nat × ArrayS) : List MemWrite := e.2.delay.flatMap (·.writes)

theorem pendMems_eq (s : State) : pendMems s = applyWrites (applyWrites s.mems (s.rgns.flatMap waitingBank)) (s.arrs.flatMap waitingDelay) := by
  rw [← applyWrites_append]
  rfl

theorem rdByte_pendMems_setArr (s : State) (a : Nat) {x : ArrayS} (h : x.delay = (getArr s a).delay) :
    rdByte (pendMems (setArr s a x)) = rdByte (pendMems s) := by
  funext sp y
  rw [pendMems_eq, pendMems_eq]
  refine rdByte_tset (d := ArrayS.init) s.arrs ?_ rfl sp y _
  show x.delay.flatMap (·.writes) = (getArr s a).delay.flatMap (·.writes)
  rw [h]

theorem rdByte_pendMems_setRgn (s : State) (r : Nat) {x : Region} (h : x.bankReqs = (getRgn s r).bankReqs) :
    rdByte (pendMems (setRgn s r x)) = rdByte (pendMems s) := by
  funext sp y
  rw [pendMems_eq, pendMems_eq]
  refine rdByte_applyWrites_congr (rdByte_tset (d := Region.init) s.rgns ?_ rfl sp y _) _
  show x.bankReqs.filterMap _ = (getRgn s r).bankReqs.filterMap _
  rw [h]

/-! ### Where writes lie -/

/-- The space, the address and the length of a write. -/
def shapeOf (w : MemWrite) : Space × Nat × Nat := (w.sp, w.addr, w.bytes.length)

theorem Within.of_shapes {l k : List MemWrite} (h : l.map shapeOf = k.map shapeOf) (hk : Within k) : Within l := by
  intro w hw hsp
  obtain ⟨y, hy, hshape⟩ := List.mem_map.mp (h ▸ List.mem_map_of_mem (f := shapeOf) hw)
  have hspace : y.sp = w.sp := congrArg Prod.fst hshape
  have haddr : y.addr = w.addr := congrArg (fun p => p.2.1) hshape
  have hlen : y.bytes.length = w.bytes.length := congrArg (fun p => p.2.2) hshape
  rw [← haddr, ← hlen]
  exact hk y hy (hspace.trans hsp)

section
variable {ms ms' : Mems} (h : rdByte ms' = rdByte ms)
include h

theorem rdBytes_congr (sp : Space) (a n : Nat) : rdBytes ms' sp a n = rdBytes ms sp a n := by
  induction n generalizing a with
  | zero => rfl
  | succ n ih => rw [rdBytes, rdBytes, ih, h]

theorem rdLe_congr (sp : Space) (a n : Nat) : rdLe ms' sp a n = rdLe ms sp a n := by rw [rdLe, rdLe, rdBytes_congr h]

theorem spillRange_congr (t : TEnt) (r hd g p : Nat) : spillRange ms' t r hd g p = spillRange ms t r hd g p := by
  simp only [spillRange, rangeRaw, rdLe_congr h]

end

theorem shapeOf_mgradSlotRow (ms : Mems) (j : Job) (h g rho k : Nat) (vals : List (Nat × Nat)) :
    shapeOf (mgradSlotRow ms j h g rho k vals) = (tentSpace (outEnt j) j.r, slotRowAddr (outEnt j) h g rho, slotValueBytes (tentFmt (outEnt j)) + 128) := by
  simp only [shapeOf, mgradSlotRow, planeBytes, List.length_append, length_leBytes]

theorem isSome_find?_of_keys {l k : List (Nat × Nat)} (h : l.map Prod.fst = k.map Prod.fst) (n : Nat) :
    (l.find? (fun v => v.1 == n)).isSome = (k.find? (fun v => v.1 == n)).isSome := by
  have hkey : ∀ l : List (Nat × Nat), (l.find? (fun v => v.1 == n)).isSome = ((l.map Prod.fst).find? (· == n)).isSome := fun l => by
    rw [List.find?_map, Option.isSome_map]
    rfl
  rw [hkey, hkey, h]

/-- MGRAD's writes of a row lie where the lists of mask_ref put them. -/
theorem shapes_mgradSpills {ms ms' : Mems} {l k : List (Nat × Nat)} (h : rdByte ms' = rdByte ms) (hkeys : l.map Prod.fst = k.map Prod.fst)
    (j : Job) (hd g m : Nat) : (mgradSpills ms' j hd g m l).map shapeOf = (mgradSpills ms j hd g m k).map shapeOf := by
  simp only [mgradSpills, spillRange_congr h, rdLe_congr h]
  split
  · rfl
  · rw [List.map_append, List.map_append, List.map_filterMap, List.map_filterMap]
    congr 2
    funext x
    have hsome := isSome_find?_of_keys hkeys (rawN x.2)
    cases hl : l.find? (fun v => v.1 == rawN x.2) with
    | none =>
      rw [hl] at hsome
      rw [Option.isSome_eq_false_iff.mp hsome.symm |> Option.isNone_iff_eq_none.mp]
    | some v =>
      rw [hl] at hsome
      obtain ⟨w, hw⟩ := Option.isSome_iff_exists.mp hsome.symm
      rw [hw]
      dsimp only
      split
      · simp only [Option.map_some, shapeOf, length_leBytes]
      · rfl

theorem shapes_mgradWrites {ms ms' : Mems} {l k : List (Nat × Nat)} (h : rdByte ms' = rdByte ms) (hkeys : l.map Prod.fst = k.map Prod.fst)
    (j : Job) (hd m g : Nat) : (mgradWrites ms' j hd m g l).map shapeOf = (mgradWrites ms j hd m g k).map shapeOf := by
  simp only [mgradWrites, List.map_append, List.map_map, shapes_mgradSpills h hkeys]
  congr 1
  exact List.map_congr_left fun i _ => (shapeOf_mgradSlotRow ..).trans (shapeOf_mgradSlotRow ..).symm

theorem outProg_mgrad {d : List W64} (h : dOpcode d = 5) : outProg d = [] := by
  rw [outProg, h]
  rfl

theorem vals_rfRun_nil (g : RfArgs) (r : RfRow) : rfRun g [] r = r := rfl

/-- What an MGRAD row drains is a value for each of its columns. -/
theorem drainRow_mgrad (ms : Mems) {j : Job} (hop : dOpcode j.d = 5) (hd m g : Nat) (vals : List (Nat × Num)) :
    ∃ all, (drainRow ms j hd m g vals).writes = mgradWrites ms j hd m (dNorg j.d / 256 + g) all ∧
      all.map Prod.fst = (vals.map Prod.fst).map (dNorg j.d + ·) := by
  refine ⟨_, congrArg RowOut.writes (if_pos (beq_iff_eq.mpr hop)), ?_⟩
  rw [outProg_mgrad hop, vals_rfRun_nil]
  simp only [List.map_map]
  exact List.map_congr_left fun _ _ => rfl

theorem shapes_drainRow {ms ms' : Mems} (h : rdByte ms' = rdByte ms) {j : Job} (hop : dOpcode j.d = 5) (hd m g : Nat)
    {l k : List (Nat × Num)} (hkeys : l.map Prod.fst = k.map Prod.fst) :
    (drainRow ms' j hd m g l).writes.map shapeOf = (drainRow ms j hd m g k).writes.map shapeOf := by
  obtain ⟨all', hw', hk'⟩ := drainRow_mgrad ms' hop hd m g l
  obtain ⟨all, hw, hk⟩ := drainRow_mgrad ms hop hd m g k
  rw [hw', hw]
  exact shapes_mgradWrites h (by rw [hk', hk, hkeys]) j hd m _

/-- The output of an MGRAD row lies at the same places whatever the bytes that it is added to are called by. -/
theorem shapes_finishRow {ms ms' : Mems} (h : rdByte ms' = rdByte ms) {j : Job} (hop : dOpcode j.d = 5) (hd m g : Nat) (spilled : Bool)
    (accs : List (Nat × ElemAcc)) : (finishRow ms' j hd m g spilled accs).writes.map shapeOf = (finishRow ms j hd m g spilled accs).writes.map shapeOf := by
  unfold finishRow
  by_cases hacc : (dAccOut j.d != 0) = true
  · rw [if_pos hacc, if_pos hacc]
  · rw [if_neg hacc, if_neg hacc, List.map_append, List.map_append, shapes_drainRow h hop hd m g rfl]

end Sys2Proof.Machine

end

section
/-!
PROOFS. The commit of a row of a whole product, piece by piece (R42, R43, R94 to R106), and the end of a sub-tile.
-/

namespace Sys2Proof.Machine

/-! ### What a commit keeps -/

theorem findAdm_setAdm_eq {s : State} {c : Nat} {ring : W32} {f : Adm → Adm} (hring : ∀ e, (f e).ring = e.ring) :
    findAdm (getCtx (setAdm s c ring f) c) ring = (findAdm (getCtx s c) ring).map f := by
  cases h : findAdm (getCtx s c) ring with
  | some d => exact findAdm_setAdm hring h
  | none =>
    rw [setAdm, getCtx_setCtx]
    refine List.find?_eq_none.mpr fun e he => ?_
    obtain ⟨d, hd, rfl⟩ := List.mem_map.mp he
    have hne := List.find?_eq_none.mp h d hd
    rw [if_neg hne]
    exact hne

/-- A commit for a descriptor of context `c`: of the arrays only delay lines differ, the Side Path's queues stay, the context goes on being
aborted or not, and the descriptor its job. -/
structure Committed (s t : State) (c : Nat) (ring : W32) : Prop where
  arr : ∀ b, getArr t b = { getArr s b with delay := (getArr t b).delay }
  sideQ : ∀ r, (getRgn t r).sideQ = (getRgn s r).sideQ
  aborting : (getCtx t c).aborting = (getCtx s c).aborting
  sideCycles : (getAcct t c).sideCycles = (getAcct s c).sideCycles
  job : ∀ e, findAdm (getCtx t c) ring = some e → ∃ d, findAdm (getCtx s c) ring = some d ∧ ∀ r, jobOf e r = jobOf d r

theorem Drains.aborting {s t : State} {c : Nat} (h : Drains s t) : (getCtx t c).aborting = (getCtx s c).aborting := by rw [h.ctx]

namespace Committed
variable {s t u : State} {c : Nat} {ring : W32}

theorem refl (s : State) : Committed s s c ring := ⟨fun _ => rfl, fun _ => rfl, rfl, rfl, fun e he => ⟨e, he, fun _ => rfl⟩⟩

theorem trans (h : Committed s t c ring) (k : Committed t u c ring) : Committed s u c ring where
  arr b := by rw [k.arr, h.arr]
  sideQ r := (k.sideQ r).trans (h.sideQ r)
  aborting := k.aborting.trans h.aborting
  sideCycles := k.sideCycles.trans h.sideCycles
  job e he := by
    obtain ⟨d, hd, hjob⟩ := k.job e he
    obtain ⟨d', hd', hjob'⟩ := h.job d hd
    exact ⟨d', hd', fun r => (hjob r).trans (hjob' r)⟩

theorem of_drains (h : Drains s t) : Committed s t c ring where
  arr b := by rw [h.getArr]
  sideQ := h.sideQ
  aborting := h.aborting
  sideCycles := by rw [h.acct]
  job e he := ⟨e, (h.findAdm c ring).symm.trans he, fun _ => rfl⟩

theorem setAdm (s : State) {f : Adm → Adm} (hring : ∀ e, (f e).ring = e.ring) (hjob : ∀ e r, jobOf (f e) r = jobOf e r) :
    Committed s (setAdm s c ring f) c ring where
  arr _ := rfl
  sideQ _ := rfl
  aborting := by rw [Machine.setAdm, getCtx_setCtx]
  sideCycles := rfl
  job e he := by
    rw [findAdm_setAdm_eq hring] at he
    obtain ⟨d, hd, rfl⟩ := Option.map_eq_some_iff.mp he
    exact ⟨d, hd, hjob d⟩

theorem setDelay (s : State) (a : Nat) (l : List DelayRow) : Committed s (setArr s a { getArr s a with delay := l }) c ring where
  arr b := by
    rw [getArr_setArr_if]
    split
    next h => rw [h]
    next => rfl
  sideQ _ := rfl
  aborting := rfl
  sideCycles := rfl
  job e he := ⟨e, he, fun _ => rfl⟩

theorem chargeCommit (s : State) (e macs passes : Nat) : Committed s (chargeCommit s e macs passes) c ring where
  arr _ := rfl
  sideQ _ := rfl
  aborting := rfl
  sideCycles := by
    by_cases h : c = e
    · rw [h, Machine.chargeCommit, getAcct_setAcct]
    · rw [Machine.chargeCommit, getAcct_setAcct_ne _ _ _ _ h]
  job e he := ⟨e, he, fun _ => rfl⟩

end Committed

/-! ### The pieces of a commit -/

/-- A row of final output leaves: drained, or put into a delay line. -/
theorem sendOut_committed {ws : List MemWrite} (h : Within ws) (s : State) (r : Nat) (t : SubTile) (x : RowRes) (skew : Option Nat) (done : Bool)
    (mark : Option (Nat × Nat × List W64)) : Committed s (sendOut s r t x skew done ws mark) t.ctx t.ring := by
  unfold sendOut
  cases skew with
  | none => exact .of_drains (drainFree_drains h s)
  | some a =>
    dsimp only
    split
    · exact .of_drains ((Drains.freeSlot ..).trans (.putMark ..))
    · exact (Committed.of_drains (.putMark s mark)).trans (.setDelay ..)

theorem putStats_committed (s : State) (t : SubTile) (i key : Nat) (vs : List Num) : Committed s (putStats s t i key vs) t.ctx t.ring :=
  .setAdm s (fun _ => rfl) (fun _ _ => rfl)

theorem writeStats_committed (s : State) (r : Nat) {j : Job} {t : SubTile} {i : Nat} {vals : List Num} (f : TFlags)
    (h : Within (statWrite j t.h (t.m0 + i) vals)) : Committed s (writeStats s r j t i vals f) t.ctx t.ring :=
  (Committed.setAdm s (f := fun d => { d with stats := d.stats.filter (fun q => !(q.1 == t.h && q.2.1 == t.m0 + i)), flags := d.flags ||| f })
    (fun _ => rfl) (fun _ _ => rfl)).trans (.of_drains (drainFree_drains h _))

theorem keepStats_committed (s : State) (r : Nat) {j : Job} {t : SubTile} {i : Nat} (vs : List Num) (h : SideWithin j t i) :
    Committed s (keepStats s r j t i vs) t.ctx t.ring := by
  unfold keepStats
  split
  · exact .refl s
  · dsimp only
    split
    · exact putStats_committed ..
    · exact (putStats_committed ..).trans (writeStats_committed _ _ _ (h.1 _))

section
variable (s : State) (r : Nat) (j : Job) (t : SubTile) (x : RowRes) (skew : Option Nat) (zup : List (Nat × W32))

/-- The sub-tile behind the commit of a row. -/
def committedSub : SubTile :=
  afterRow t x.row ((rowOut s j t x zup).flags ||| (if !decide (x.row + 1 < t.rows) then blockFlags s.mems j t t.passesDone else 0))

/-- The row's writes that are partials. -/
def partCount : Nat :=
  if t.passesDone + 1 == t.passes && dAccOut j.d == 0 then
    (partWrites j t.h (t.m0 + x.row) t.g (passesP s.mems j t.passes).2 ((commitElems s j t t.passesDone x zup).map (·.2))).length
  else (rowOut s j t x zup).writes.length

/-- The sub-tile has moved on. -/
def movedOn : State := mapSub s r t (fun _ => committedSub s j t x zup)

/-- Its partials leave, with the row mark but in the last pass. -/
def partsSent : State :=
  drainWrites (movedOn s r j t x zup) r t.ctx t.ring 1 ((rowOut s j t x zup).writes.take (partCount s j t x zup)) (placeOf t)
    (if t.passesDone + 1 == t.passes then none else recordOf s r (committedSub s j t x zup))

/-- Its output leaves in the last pass. -/
def rowSent : State :=
  if t.passesDone + 1 == t.passes then
    sendOut (partsSent s r j t x zup) r t x skew (!decide (x.row + 1 < t.rows)) ((rowOut s j t x zup).writes.drop (partCount s j t x zup))
      (recordOf s r (committedSub s j t x zup))
  else partsSent s r j t x zup

/-- Its context is charged. -/
def rowCharged : State := chargeCommit (rowSent s r j t x skew zup) t.ctx (rowMacs j t t.passesDone) (b2n (!decide (x.row + 1 < t.rows)))

/-- Its statistics are kept in the last pass. -/
def rowDone : State :=
  if t.passesDone + 1 == t.passes then
    keepStats (rowCharged s r j t x skew zup) r j (committedSub s j t x zup) x.row (rowOut s j t x zup).stats
  else rowCharged s r j t x skew zup

theorem commitRow_eq : commitRow s r j t x skew zup =
    if t.passesDone + 1 == t.passes && !decide (x.row + 1 < t.rows) then endSub (rowDone s r j t x skew zup) r j (committedSub s j t x zup)
    else rowDone s r j t x skew zup := rfl

end

section
variable {s : State} {r : Nat} {j : Job} {t : SubTile} {x : RowRes} {skew : Option Nat} {zup : List (Nat × W32)}

theorem Within.take {ws : List MemWrite} (h : Within ws) (n : Nat) : Within (ws.take n) := fun w hw => h w (List.mem_of_mem_take hw)
theorem Within.drop {ws : List MemWrite} (h : Within ws) (n : Nat) : Within (ws.drop n) := fun w hw => h w (List.mem_of_mem_drop hw)

/-- A sub-tile keeps all but its mark, its passes and its flags. -/
theorem afterRow_kept (t : SubTile) (row : Nat) (f : TFlags) : afterRow t row f = { t with
    passesDone := (afterRow t row f).passesDone, rowMark := (afterRow t row f).rowMark, misses := (afterRow t row f).misses
    flags := (afterRow t row f).flags } := by
  unfold afterRow
  split
  · rfl
  · rfl

theorem sideWithin_afterRow {row i : Nat} {f : TFlags} (h : SideWithin j t i) : SideWithin j (afterRow t row f) i := by
  rw [afterRow_kept]
  exact h

theorem partsSent_drains (h : Within (rowOut s j t x zup).writes) : Drains (movedOn s r j t x zup) (partsSent s r j t x zup) :=
  drainFree_drains (h.take _) _

theorem rowSent_committed (h : Within (rowOut s j t x zup).writes) : Committed (movedOn s r j t x zup) (rowSent s r j t x skew zup) t.ctx t.ring := by
  have hparts : Committed (movedOn s r j t x zup) (partsSent s r j t x zup) t.ctx t.ring := .of_drains (partsSent_drains h)
  unfold rowSent
  split
  · exact hparts.trans (sendOut_committed (h.drop _) ..)
  · exact hparts

theorem rowDone_committed (h : Within (rowOut s j t x zup).writes) (hside : SideWithin j t x.row) :
    Committed (movedOn s r j t x zup) (rowDone s r j t x skew zup) t.ctx t.ring := by
  have hcharged : Committed (movedOn s r j t x zup) (rowCharged s r j t x skew zup) t.ctx t.ring := (rowSent_committed h).trans (.chargeCommit ..)
  have hplace : (committedSub s j t x zup).ctx = t.ctx ∧ (committedSub s j t x zup).ring = t.ring := by
    rw [committedSub, afterRow_kept]
    exact ⟨rfl, rfl⟩
  obtain ⟨hctx, hring⟩ := hplace
  unfold rowDone
  split
  · refine hcharged.trans ?_
    rw [← hctx, ← hring]
    exact keepStats_committed _ _ _ (sideWithin_afterRow hside)
  · exact hcharged

/-- A pass that is not the last charges its commits alone. -/
theorem rowDone_of_partial (hlast : t.passesDone + 1 ≠ t.passes) : rowDone s r j t x skew zup =
    chargeCommit (partsSent s r j t x zup) t.ctx (rowMacs j t t.passesDone) (b2n (!decide (x.row + 1 < t.rows))) := by
  have hlast : ¬(t.passesDone + 1 == t.passes) = true := fun h => hlast (eq_of_beq h)
  rw [rowDone, if_neg hlast, rowCharged, rowSent, if_neg hlast]

end

/-! ### The end of a sub-tile -/

theorem leaveArray_setRgns (s : State) (rs : Tbl Region) (a : Nat) (f : SubTile → Bool) :
    leaveArray { s with rgns := rs } a f = { leaveArray s a f with rgns := rs } := by
  unfold leaveArray
  dsimp only
  split
  next h => exact (if_pos h).symm ▸ rfl
  next h => exact (if_neg h).symm ▸ rfl

theorem dropWindows_rest (s : State) (j : Job) (t : SubTile) : dropWindows s j t = { s with rgns := (dropWindows s j t).rgns } := by
  unfold dropWindows
  split
  · rfl
  · rfl

theorem length_headBytes (x : PHead) : (headBytes x).length = 64 := by simp only [headBytes, List.length_append, length_leBytes, List.length_replicate]

/-- The header of a descriptor's acc_out buffer. -/
def headWrite (s : State) (d : Adm) (r : Nat) : MemWrite :=
  { sp := tentSpace (jent (jobOf d r) (dAccOut (jobOf d r).d)) (jobOf d r).r, addr := (jent (jobOf d r) (dAccOut (jobOf d r).d)).base
    bytes := headBytes (outHead s.mems (jobOf d r) (elemPasses (jobOf d r)) d.flags (partialRows (jobOf d r))) }

theorem headWrite_within (s : State) (d : Adm) {r : Nat} (h : (jent (jobOf d r) (dAccOut (jobOf d r).d)).base + 64 ≤ 2 ^ 57) :
    Within [headWrite s d r] := fun w hw _ => by
  rw [List.mem_singleton.mp hw]
  exact (congrArg ((jent (jobOf d r) (dAccOut (jobOf d r).d)).base + ·) (length_headBytes _)).trans_le h

/-- The end of a descriptor, whose header lies below 2^57: no array differs, and every context goes on being aborted or not. -/
theorem endTile_kept {s : State} {c : Nat} {ring : W32} {r : Nat} (hfit : ∀ d, findAdm (getCtx s c) ring = some d →
      dAccOut (jobOf d r).d ≠ 0 → (jent (jobOf d r) (dAccOut (jobOf d r).d)).base + 64 ≤ 2 ^ 57) :
    (endTile s c ring r).arrs = s.arrs ∧ (getCtx (endTile s c ring r) c).aborting = (getCtx s c).aborting := by
  have hfinish : ∀ u d res, (finish u c d res).arrs = u.arrs ∧ (getCtx (finish u c d res) c).aborting = (getCtx u c).aborting := fun u d res => by
    refine ⟨rfl, ?_⟩
    rw [finish, finishDesc, getCtx_setCtx, finishIn]
    split
    · rfl
    · rfl
  unfold endTile
  split
  · exact ⟨rfl, rfl⟩
  next d hd =>
    split
    · exact ⟨rfl, rfl⟩
    · split
      · exact hfinish ..
      · dsimp only
        split
        · exact hfinish ..
        next hacc =>
          have hin := headWrite_within s d (r := r) (hfit d hd fun h => hacc (beq_iff_eq.mpr h))
          have hdrains := drainFree_drains (r := r) (c := c) (ring := ring) (cls := 1) (frees := none) (sub := none) (mark := none) hin s
          obtain ⟨harrs, habort⟩ := hfinish (drainWrites s r c ring 1 [headWrite s d r]) d (plainResult .ok d.flags)
          exact ⟨harrs.trans hdrains.arrs, habort.trans hdrains.aborting⟩

/-- The journal entry of a sub-tile is free. -/
def entryLeft (s : State) (r : Nat) (t : SubTile) : State :=
  match t.jent with
  | some k => dropJournal s r k
  | none => s

/-- Its context is charged for the array's cycles (R358). -/
def cyclesCharged (s : State) (t : SubTile) : State :=
  match t.array with
  | some n => setAcct s t.ctx { getAcct s t.ctx with
    arrayCycles := (getAcct s t.ctx).arrayCycles + BitVec.ofNat 64 (arraysOf t * (((getArr s n).cycle - t.entered) * t.bandRows / 256)) }
  | none => s

/-- A FUSED2 sub-tile that ran solo is counted (R173). -/
def soloCounted (s : State) (r : Nat) (j : Job) (t : SubTile) : State := if dOpcode j.d == 2 && !t.fuse.paired && !t.side then addRgnCnt s r 11 1 else s

/-- Its descriptor counts it. -/
def subCounted (s : State) (t : SubTile) : State :=
  setAdm s t.ctx t.ring (fun d => { d with doneSubs := d.doneSubs + 1, flags := d.flags ||| t.flags })

/-- The machine behind a sub-tile, but for its descriptor's count. -/
def subLeft (s : State) (r : Nat) (j : Job) (t : SubTile) : State :=
  soloCounted (cyclesCharged (entryLeft (removeSub (dropWindows s j t) r t) r t) t) r j t

theorem endSub_eq (s : State) (r : Nat) (j : Job) (t : SubTile) :
    endSub s r j t = endTile (subCounted (subLeft s r j t) t) t.ctx t.ring r := by
  simp only [endSub, subCounted, subLeft, soloCounted, cyclesCharged, entryLeft] <;> rfl

theorem subLeft_kept {s : State} {r : Nat} {j : Job} {t : SubTile} {a : Nat} (harr : t.array = some a) :
    (subLeft s r j t).arrs = (leaveArray s a (fun u => u == t)).arrs ∧ (subLeft s r j t).ctxs = s.ctxs := by
  have hgone : (removeSub (dropWindows s j t) r t).arrs = (leaveArray s a (fun u => u == t)).arrs ∧
      (removeSub (dropWindows s j t) r t).ctxs = s.ctxs := by
    rw [removeSub, harr, dropWindows_rest]
    dsimp only
    rw [leaveArray_setRgns]
    exact ⟨rfl, leaveArray_ctxs ..⟩
  have hentry : ∀ u : State, (entryLeft u r t).arrs = u.arrs ∧ (entryLeft u r t).ctxs = u.ctxs := fun u => by
    unfold entryLeft
    split
    · exact ⟨rfl, rfl⟩
    · exact ⟨rfl, rfl⟩
  have hcycles : ∀ u : State, (cyclesCharged u t).arrs = u.arrs ∧ (cyclesCharged u t).ctxs = u.ctxs := fun u => by
    unfold cyclesCharged
    split
    · exact ⟨rfl, rfl⟩
    · exact ⟨rfl, rfl⟩
  have hsolo : ∀ u : State, (soloCounted u r j t).arrs = u.arrs ∧ (soloCounted u r j t).ctxs = u.ctxs := fun u => by
    unfold soloCounted
    split
    · exact ⟨rfl, rfl⟩
    · exact ⟨rfl, rfl⟩
  exact ⟨(hsolo _).1.trans ((hcycles _).1.trans ((hentry _).1.trans hgone.1)), (hsolo _).2.trans ((hcycles _).2.trans ((hentry _).2.trans hgone.2))⟩

/-- The end of a sub-tile on an array: it leaves the array. -/
theorem endSub_kept {s : State} {r : Nat} {j : Job} {t : SubTile} {a : Nat} (harr : t.array = some a)
    (hfit : ∀ d, findAdm (getCtx s t.ctx) t.ring = some d → dAccOut (jobOf d r).d ≠ 0 → (jent (jobOf d r) (dAccOut (jobOf d r).d)).base + 64 ≤ 2 ^ 57) :
    (endSub s r j t).arrs = (leaveArray s a (fun u => u == t)).arrs ∧ (getCtx (endSub s r j t) t.ctx).aborting = (getCtx s t.ctx).aborting := by
  obtain ⟨harrs, hctxs⟩ := subLeft_kept (s := s) (r := r) (j := j) harr
  have hctx : getCtx (subLeft s r j t) t.ctx = getCtx s t.ctx := getCtx_of_ctxs hctxs t.ctx
  have hadm := findAdm_setAdm_eq (s := subLeft s r j t) (c := t.ctx) (ring := t.ring)
    (f := fun d => { d with doneSubs := d.doneSubs + 1, flags := d.flags ||| t.flags }) fun _ => rfl
  obtain ⟨hend, habort⟩ := endTile_kept (s := subCounted (subLeft s r j t) t) (c := t.ctx) (ring := t.ring) (r := r) fun d hd => by
    rw [subCounted, hadm, hctx] at hd
    obtain ⟨e, he, rfl⟩ := Option.map_eq_some_iff.mp hd
    exact hfit e he
  rw [endSub_eq]
  refine ⟨hend.trans harrs, habort.trans ?_⟩
  rw [subCounted, setAdm, getCtx_setCtx, hctx]

theorem tget_filter_key {α : Type} (d : α) (t : Tbl α) (f : Nat → Bool) (k : Nat) :
    tget d (t.filter (fun e => !f e.1)) k = if f k then d else tget d t k := by
  induction t with
  | nil => exact (ite_self d).symm
  | cons e t ih =>
    obtain ⟨j, v⟩ := e
    by_cases hj : f j = true
    · rw [List.filter_cons_of_neg (by simp [hj]), ih, tget]
      by_cases hjk : j = k
      · rw [if_pos (hjk ▸ hj), if_pos (hjk ▸ hj)]
      · rw [if_neg hjk]
    · rw [List.filter_cons_of_pos (by simp [hj]), tget, tget, ih]
      by_cases hjk : j = k
      · rw [if_pos hjk, if_pos hjk, if_neg fun h => hj (hjk ▸ h)]
      · rw [if_neg hjk, if_neg hjk]

/-- A lane whose sub-tile leaves is empty; every other one stays. -/
theorem getLane_leaveArray (s : State) (a : Nat) (f : SubTile → Bool) (b : Nat) :
    getLane (getArr (leaveArray s a f) a) b = Lane.init ∨ getLane (getArr (leaveArray s a f) a) b = getLane (getArr s a) b := by
  have hdrop : getArr (leaveArray s a f) a = dropBound f (getArr s a) := by
    unfold leaveArray
    dsimp only
    split
    · exact getArr_setArr ..
    · rw [getArr_setArr_ne _ _ _ _ (Nat.ne_of_lt a.lt_succ_self), getArr_setArr]
  rw [hdrop, getLane, getLane]
  have hfilter := tget_filter_key Lane.init (getArr s a).lanes (fun k => ((seated (getArr s a).bound).filter f).any (fun t => t.band == k)) b
  by_cases hleft : ((seated (getArr s a).bound).filter f).any (fun t => t.band == b) = true
  · exact .inl (hfilter.trans (if_pos hleft))
  · exact .inr (hfilter.trans (if_neg hleft))

/-! ### Works of a whole product -/

/-- A work of a whole product is the sub-tile's own, under its descriptor. -/
theorem whole_of_workIn {s : State} {r : Nat} {u : Roles} {t : SubTile} {w : Work} (h : workIn s r u t = some w) (hrole : w.role = .whole) :
    w.e = w.t ∧ ∃ d, findAdm (getCtx s w.t.ctx) w.t.ring = some d ∧ w.j = jobOf d r := by
  unfold workIn at h
  split at h
  · cases h
  next d j hjob =>
    obtain ⟨d', hd', heq⟩ := Option.map_eq_some_iff.mp hjob
    cases heq
    split at h
    · obtain ⟨q, hq, rfl⟩ := Option.map_eq_some_iff.mp h
      cases q with
      | whole =>
        cases hrole
      | lead => cases hrole
      | follow => cases hrole
    · cases h
      exact ⟨rfl, d, hd', rfl⟩

theorem whole_of_works {s : State} {a : Nat} {w : Work} {ro : Roles} (h : (w, ro) ∈ works s a) (hrole : w.role = .whole) :
    w.e = w.t ∧ ∃ d, findAdm (getCtx s w.t.ctx) w.t.ring = some d ∧ w.j = jobOf d (a / 4) := by
  unfold works at h
  split at h
  next t _ =>
    obtain ⟨v, hv, heq⟩ := Option.map_eq_some_iff.mp (Option.mem_toList.mp h)
    cases heq
    exact whole_of_workIn hv hrole
  next =>
    obtain ⟨t, -, hsome⟩ := List.mem_filterMap.mp h
    obtain ⟨v, hv, heq⟩ := Option.map_eq_some_iff.mp hsome
    cases heq
    exact whole_of_workIn hv hrole

/-! ### The row that leaves, in the state in which its array has moved on -/

/-- A row's writes lie where they lay in a state with the same memory, and the same bytes that wait. -/
theorem within_rowOut_congr {s u : State} {j : Job} {t : SubTile} {x : RowRes} {zup : List (Nat × W32)}
    (hpend : rdByte (pendMems u) = rdByte (pendMems s)) (hmems : u.mems = s.mems)
    (helems : commitElems u j t t.passesDone x zup = commitElems s j t t.passesDone x zup)
    (hpass : passWrites u j t = passWrites s j t) (h : Within (rowOut s j t x zup).writes) : Within (rowOut u j t x zup).writes := by
  refine Within.of_shapes ?_ h
  unfold rowOut
  dsimp only
  rw [helems, hmems, hpass]
  split
  · by_cases hop : dOpcode j.d = 5
    · have hop5 : (dOpcode j.d == 5) = true := beq_iff_eq.mpr hop
      rw [if_pos hop5, if_pos hop5]
      exact shapes_finishRow hpend hop ..
    · have hop5 : ¬(dOpcode j.d == 5) = true := fun e => hop (eq_of_beq e)
      rw [if_neg hop5, if_neg hop5]
  · rfl

theorem within_rowOut_setArr {s : State} {a : Nat} {y : ArrayS} {j : Job} {t : SubTile} {x : RowRes} {zup : List (Nat × W32)}
    (hdelay : y.delay = (getArr s a).delay) (h : Within (rowOut s j t x zup).writes) : Within (rowOut (setArr s a y) j t x zup).writes :=
  within_rowOut_congr (rdByte_pendMems_setArr s a hdelay) rfl rfl rfl h

end Sys2Proof.Machine

end

section
/-!
PROOFS. The commit of a row on an array (R42, R43, R298, R302) settled.
-/

namespace Sys2Proof.Machine

/-! ### ROW_COMMIT of a row of a whole product -/

/-- A vote that no copy disagrees on leaves the region as it is. -/
theorem exec_rowCommit_of_runs {s : State} {a : ArrId} (rs : RsResult) (h : arrayRuns s a.val = true) :
    exec (.rowCommit a none rs) s = .next (commitOne s a.val rs) := congrArg _ ((if_pos h).trans (if_pos h))

/-- The array in the cycle of the commit, with its lane moved on. -/
def rowMoved (s : State) (a : Nat) (w : Work) (q : RowRes) : State :=
  setArr s a (afterCommit (getArr s a) w q (max (getArr s a).cycle (q.cycle + 5)) false)

theorem delay_afterCommit (x : ArrayS) (w : Work) (q : RowRes) (at_ : Nat) (stop : Bool) : (afterCommit x w q at_ stop).delay = x.delay := by
  unfold afterCommit
  dsimp only
  split
  · rfl
  · rfl

theorem afterCommit_kept (x : ArrayS) (w : Work) (q : RowRes) (at_ : Nat) (stop : Bool) : (afterCommit x w q at_ stop).bound = x.bound ∧
    (afterCommit x w q at_ stop).cycle = at_ ∧ (afterCommit x w q at_ stop).active = x.active := by
  unfold afterCommit
  dsimp only
  split
  · exact ⟨rfl, rfl, rfl⟩
  · exact ⟨rfl, rfl, rfl⟩

theorem laneOf_afterCommit_of_more {x : ArrayS} {w : Work} {q : RowRes} {at_ : Nat} {stop : Bool} (h : q.row + 1 < w.e.rows) :
    laneOf (afterCommit x w q at_ stop) w = { laneOf x w with results := (laneOf x w).results.drop 1 } := by
  rw [afterCommit]
  dsimp only
  rw [if_pos h]
  exact getLane_setLane ..

/-- Behind a pass's last row no result row is left. -/
theorem results_afterCommit_of_last {x : ArrayS} {w : Work} {q : RowRes} {at_ : Nat} {stop : Bool} (h : ¬q.row + 1 < w.e.rows) :
    (laneOf (afterCommit x w q at_ stop) w).results = [] := by
  rw [afterCommit, if_neg h]
  refine (congrArg Lane.results (getLane_setLane ..)).trans ?_
  unfold laneAfter
  split
  · rfl
  · rfl

theorem passEnded_of_running {s : State} {c : Nat} (h : (getCtx s c).aborting = false) : passEnded s c = s :=
  if_neg (by rw [h]; exact Bool.false_ne_true)

section
variable {s : State} {a : Nat} {w : Work} {ro : Roles} {rest : List SubTile} {q : RowRes} {rs : RsResult}

theorem commitOne_of_loss (hworks : works s a = [(w, ro)]) (hready : commitReady s a w (laneOf (getArr s a) w) = some q) :
    commitOne s a .uncorrectable = drainLoss s a w := by
  rw [commitOne, findWork_of_one hworks hready]
  exact if_pos rfl

/-- A row that is ready is committed; behind a pass's last row the array asks for its next rows. -/
theorem commitOne_of_ready (hworks : works s a = [(w, ro)]) (hready : commitReady s a w (laneOf (getArr s a) w) = some q)
    (hrs : rs ≠ .uncorrectable) (habort : (getCtx s w.t.ctx).aborting = false) : commitOne s a rs =
      if q.row + 1 < w.e.rows then commitWork (rowMoved s a w q) (a / 4) w q (skewOf s a w)
      else feedAhead (passEnded (commitWork (rowMoved s a w q) (a / 4) w q (skewOf s a w)) w.t.ctx) a := by
  have hno : (rs == RsResult.uncorrectable) = false := beq_false_of_ne hrs
  rw [commitOne, findWork_of_one hworks hready]
  dsimp only
  rw [hno, habort]
  rfl

end

/-- A commit's sub-tile is bound in the place of the one before. -/
theorem getArr_movedOn {s : State} {a r : Nat} {j : Job} {t : SubTile} {rest : List SubTile} {x : RowRes} {zup : List (Nat × W32)}
    (harr : t.array = some a) (hbound : (getArr s a).bound = t :: rest) (hnew : t ∉ rest) :
    getArr (movedOn s r j t x zup) a = { getArr s a with bound := committedSub s j t x zup :: rest } := by
  rw [movedOn, getArr_mapSub, if_pos harr, hbound, mapped_cons_self _ hnew]

/-- The commit of a row that is not the last of its sub-tile. -/
theorem commitRow_of_more {s : State} {r : Nat} {j : Job} {t : SubTile} {x : RowRes} {skew : Option Nat} {zup : List (Nat × W32)}
    (h : x.row + 1 < t.rows ∨ t.passesDone + 1 ≠ t.passes) : commitRow s r j t x skew zup = rowDone s r j t x skew zup := by
  rw [commitRow_eq]
  refine if_neg fun hb => ?_
  obtain ⟨hlast, hdone⟩ := Bool.and_eq_true_iff.mp hb
  rcases h with h | h
  · rw [decide_eq_true h] at hdone
    exact Bool.false_ne_true hdone
  · exact h (eq_of_beq hlast)

theorem commitRow_of_last {s : State} {r : Nat} {j : Job} {t : SubTile} {x : RowRes} {skew : Option Nat} {zup : List (Nat × W32)}
    (h : t.rows ≤ x.row + 1) (hlast : t.passesDone + 1 = t.passes) :
    commitRow s r j t x skew zup = endSub (rowDone s r j t x skew zup) r j (committedSub s j t x zup) := by
  rw [commitRow_eq, decide_eq_false (Nat.not_lt.mpr h), hlast, beq_self_eq_true]
  rfl

theorem rowOut_setArr_of_partial {s : State} {a : Nat} {y : ArrayS} {j : Job} {t : SubTile} {x : RowRes} {zup : List (Nat × W32)}
    (h : t.passesDone + 1 ≠ t.passes) : rowOut (setArr s a y) j t x zup = rowOut s j t x zup := by
  have hlast : ¬(t.passesDone + 1 == t.passes) = true := fun e => h (eq_of_beq e)
  unfold rowOut
  dsimp only
  rw [if_neg hlast, if_neg hlast]
  rfl

theorem partCount_of_partial {s : State} {j : Job} {t : SubTile} {x : RowRes} {zup : List (Nat × W32)} (h : t.passesDone + 1 ≠ t.passes) :
    partCount s j t x zup = (rowOut s j t x zup).writes.length := by
  rw [partCount, beq_false_of_ne h]
  rfl

/-- A write of scratchpad that is not empty asks for a bank. -/
theorem spadPieces_ne_nil {ws : List MemWrite} (h : ∃ y ∈ ws, y.sp ≠ .mem ∧ y.bytes ≠ []) : spadPieces ws ≠ [] := by
  obtain ⟨y, hy, hsp, hbytes⟩ := h
  intro hnil
  have hnone := List.flatMap_eq_nil_iff.mp hnil y hy
  cases hspace : y.sp with
  | mem => exact hsp hspace
  | spad r =>
    rw [hspace] at hnone
    cases hb : y.bytes with
    | nil => exact hbytes hb
    | cons b bs =>
      rw [hb] at hnone
      exact nomatch hnone

theorem journal_mapSub (s : State) (r : Nat) (t : SubTile) (f : SubTile → SubTile) (n : Nat) :
    (getRgn (mapSub s r t f) n).journal = (getRgn s n).journal := by
  unfold mapSub
  dsimp only
  split
  · rfl
  · rw [getRgn_setRgn_if]
    split
    next h => rw [h]
    next => rfl

/-- In a pass that is not the last no journal entry moves before the grant of the row's write-back (R43). -/
theorem journal_rowDone {s : State} {r : Nat} {j : Job} {t : SubTile} {x : RowRes} {skew : Option Nat} {zup : List (Nat × W32)}
    (hin : Within (rowOut s j t x zup).writes) (hlast : t.passesDone + 1 ≠ t.passes)
    (hspad : ∃ y ∈ (rowOut s j t x zup).writes, y.sp ≠ .mem ∧ y.bytes ≠ []) (n : Nat) :
    (getRgn (rowDone s r j t x skew zup) n).journal = (getRgn s n).journal := by
  have hmoved : (getRgn (movedOn s r j t x zup) n).journal = (getRgn s n).journal := journal_mapSub ..
  rw [rowDone_of_partial hlast]
  show (getRgn (partsSent s r j t x zup) n).journal = _
  rw [← hmoved, partsSent, partCount_of_partial hlast, List.take_length]
  exact drainFree_journal hin (.inr (spadPieces_ne_nil hspad)) _ n

section
variable {s : State} {a : Nat} {w : Work} {rest : List SubTile} {q : RowRes}
  (hbound : (getArr s a).bound = w.t :: rest) (harr : w.t.array = some a)
  (hnew : ∀ v ∈ rest, ¬(v.ctx = w.t.ctx ∧ v.ring = w.t.ring ∧ v.h = w.t.h ∧ v.c = w.t.c ∧ v.g = w.t.g))
  (hin : Within (rowOut s w.j w.t q).writes) (hside : SideWithin w.j w.t q.row)
include hbound harr hnew hin hside

/-- What the commit of a row leaves of its array and its context, but for a sub-tile that ends. -/
theorem rowDone_spec (skew : Option Nat) : ∃ u, u = rowDone (rowMoved s a w q) (a / 4) w.j w.t q skew [] ∧
    (getArr u a) = { afterCommit (getArr s a) w q (max (getArr s a).cycle (q.cycle + 5)) false with
      bound := committedSub (rowMoved s a w q) w.j w.t q [] :: rest, delay := (getArr u a).delay } ∧
    (getCtx u w.t.ctx).aborting = (getCtx s w.t.ctx).aborting ∧
    ∀ e, findAdm (getCtx u w.t.ctx) w.t.ring = some e → ∃ d, findAdm (getCtx s w.t.ctx) w.t.ring = some d ∧ ∀ r, jobOf e r = jobOf d r := by
  have hout : Within (rowOut (rowMoved s a w q) w.j w.t q []).writes := within_rowOut_setArr (delay_afterCommit ..) hin
  have hdone := rowDone_committed (r := a / 4) (skew := skew) hout hside
  have hmoved : getArr (rowMoved s a w q) a = _ := getArr_setArr ..
  have hself := getArr_movedOn (s := rowMoved s a w q) (r := a / 4) (j := w.j) (x := q) (zup := []) harr
    (by rw [hmoved, (afterCommit_kept ..).1, hbound]) fun h => hnew _ h ⟨rfl, rfl, rfl, rfl, rfl⟩
  have hctxs : (movedOn (rowMoved s a w q) (a / 4) w.j w.t q []).ctxs = s.ctxs := by
    rw [movedOn, mapSub_rest]
    rfl
  have hctx : getCtx (movedOn (rowMoved s a w q) (a / 4) w.j w.t q []) w.t.ctx = getCtx s w.t.ctx := getCtx_of_ctxs hctxs _
  refine ⟨_, rfl, ?_, ?_, fun e he => ?_⟩
  · rw [hdone.arr, hself, hmoved]
  · rw [hdone.aborting, hctx]
  · rw [← hctx]
    exact hdone.job e he

/-- The sub-tile's last row: it leaves the array, and no result row is left. -/
theorem endSub_spec {d : Adm} (hdesc : findAdm (getCtx s w.t.ctx) w.t.ring = some d) (hjob : w.j = jobOf d (a / 4)) (hwhole : w.e = w.t)
    (hlast : w.t.rows ≤ q.row + 1) (skew : Option Nat) :
    ∃ u, u = endSub (rowDone (rowMoved s a w q) (a / 4) w.j w.t q skew []) (a / 4) w.j (committedSub (rowMoved s a w q) w.j w.t q []) ∧
      (getArr u a).bound = rest ∧ (laneOf (getArr u a) w).results = [] ∧ (getCtx u w.t.ctx).aborting = (getCtx s w.t.ctx).aborting := by
  obtain ⟨u, hu, hself, habort, hadm⟩ := rowDone_spec hbound harr hnew hin hside skew
  rw [← hu]
  have hsub := afterRow_kept w.t q.row ((rowOut (rowMoved s a w q) w.j w.t q []).flags |||
    (if !decide (q.row + 1 < w.t.rows) then blockFlags (rowMoved s a w q).mems w.j w.t w.t.passesDone else 0))
  rw [← committedSub] at hsub
  generalize committedSub (rowMoved s a w q) w.j w.t q [] = v at *
  have hvctx : v.ctx = w.t.ctx := by rw [hsub]
  have hvring : v.ring = w.t.ring := by rw [hsub]
  obtain ⟨harrs, hab⟩ := endSub_kept (s := u) (r := a / 4) (j := w.j) (t := v) (a := a) (by rw [hsub]; exact harr) fun e he => by
    rw [hvctx, hvring] at he
    obtain ⟨d', hd', heq⟩ := hadm e he
    rw [hdesc] at hd'
    cases hd'
    rw [heq, ← hjob]
    exact hside.2
  have hgone : getArr (endSub u (a / 4) w.j v) a = getArr (leaveArray u a (fun t => t == v)) a := getArr_of_arrs harrs a
  have hother : ∀ t ∈ rest, (!(t == v)) = true := fun t ht => by
    rw [Bool.not_eq_true', beq_eq_false_iff_ne]
    rintro rfl
    exact hnew _ ht ⟨hvctx, hvring, by rw [hsub], by rw [hsub], by rw [hsub]⟩
  refine ⟨_, rfl, ?_, ?_, by rw [← habort, ← hvctx, hab]⟩
  · rw [hgone, bound_leaveArray, if_pos rfl, hself, List.filter_cons_of_neg (by simp), List.filter_eq_self.mpr hother]
  · rw [hgone, laneOf]
    rcases getLane_leaveArray u a (fun t => t == v) w.e.band with h | h
    · rw [h]
      rfl
    · rw [h, hself]
      exact results_afterCommit_of_last (by rw [hwhole]; exact Nat.not_lt.mpr hlast)

end

/-! ### Array in band mode that loses its drain buffers (R54) -/

theorem takeOut_array_rest (s : State) (n : Nat) (st : UState) : (takeOut s .array n st).mems = s.mems ∧ (takeOut s .array n st).regs = s.regs := by
  have hput : (putUnit (emptyArray s n) .array n st).mems = s.mems ∧ (putUnit (emptyArray s n) .array n st).regs = s.regs := by
    show (emptyArray s n).mems = s.mems ∧ (emptyArray s n).regs = s.regs
    rw [((WorkOnly.refl s).emptyArray n).rest]
    exact ⟨rfl, rfl⟩
  show (ite _ _ _ : State).mems = s.mems ∧ (ite _ _ _ : State).regs = s.regs
  split
  · exact hput
  · exact hput

/-- An array that is fenced holds nothing; of memory only the word of its entry's interrupt differs. -/
theorem fenceArray_spec (s : State) (a : Nat) : unitSt (fenceUnit s .array a) .array a = .fenced ∧ (getArr (fenceUnit s .array a) a).bound = [] ∧
    ∀ sp k, (sp ≠ .mem ∨ k < s.regs.irqAddr.toNat ∨ s.regs.irqAddr.toNat + 4 ≤ k) → rdByte (fenceUnit s .array a).mems sp k = rdByte s.mems sp k := by
  refine ⟨unitSt_fenceUnit_self .., ?_, fun sp k hk => ?_⟩
  · rw [fenceUnit_array, getArr_logFault]
    exact (takeOut_array_spec s a .fenced).1
  · obtain ⟨hmems, hregs⟩ := takeOut_array_rest s a .fenced
    rw [fenceUnit_array, (logFault_logOnly _ _).bytes sp k (by rw [hregs]; exact hk), hmems]

/-- An uncorrectable error in the drain buffers of an array in band mode fences it. -/
theorem drainLoss_of_band {s : State} {a : Nat} {w : Work} (hrole : w.role = .whole) (hbands : w.e.bandRows ≠ 256) :
    drainLoss s a w = fenceUnit (bufferReport s 1 a (a / 4) w.t.ctx w.t.ring) .array a := by
  have hfollow : ¬(w.role == .follow) = true := by
    rw [hrole]
    exact Bool.false_ne_true
  rw [drainLoss, if_neg hfollow, if_pos (bne_iff_ne.mpr hbands)]

/-- One of an array that is not replays the pass from the mark. -/
theorem drainLoss_of_full {s : State} {a : Nat} {w : Work} (hrole : w.role = .whole) (hbands : w.e.bandRows = 256) :
    drainLoss s a w = bufferLoss s a w := by
  have hfollow : ¬(w.role == .follow) = true := by
    rw [hrole]
    exact Bool.false_ne_true
  rw [drainLoss, if_neg hfollow, if_neg fun h => bne_iff_ne.mp h hbands]

end Sys2Proof.Machine

open Sys2Proof Sys2Proof.Machine

/-- Settles O39: the row's writes leave, the sub-tile's mark moves, and with the last row of the last pass the sub-tile ends. -/
theorem rowCommitsMoveTheMark : Obligations.RowCommitsMoveTheMark := by
  intro s a w ro rest q rs x l out hruns hworks hrole hbound harr hnew hready
  obtain ⟨hwhole, d, hdesc, hjob⟩ := whole_of_works (by rw [hworks]; exact List.mem_singleton_self _) hrole
  have hexec := exec_rowCommit_of_runs rs hruns
  refine ⟨fun hrs hin hside habort => ?_, fun hrs hbands => ?_, fun hrs hbands => ?_⟩
  · rw [commitOne_of_ready hworks hready hrs habort] at hexec
    have hwork : commitWork (rowMoved s a.val w q) (a.val / 4) w q (skewOf s a.val w) =
        commitRow (rowMoved s a.val w q) (a.val / 4) w.j w.t q (skewOf s a.val w) [] := by rw [commitWork, hrole]
    obtain ⟨u, hu, hself, hab, -⟩ := rowDone_spec hbound harr hnew hin hside (skewOf s a.val w)
    have hout : Within (rowOut (rowMoved s a.val w q) w.j w.t q []).writes := within_rowOut_setArr (delay_afterCommit ..) hin
    rw [hwork, hwhole] at hexec
    refine ⟨fun hmore => ?_, fun hlast hpass => ?_, fun hlast hpass => ?_⟩
    · rw [if_pos hmore, commitRow_of_more (.inl hmore), ← hu] at hexec
      refine ⟨u, _, hexec, by rw [hself], ?_, ?_, ?_, ?_, ?_, ?_, ?_, fun hpass hspad r => ?_⟩
      · rw [committedSub, afterRow, if_pos hmore]
      · rw [committedSub, afterRow, if_pos hmore]
      · rw [committedSub, afterRow, if_pos hmore]
      · rw [committedSub, afterRow, if_pos hmore]
      · have hl : laneOf (getArr u a.val) w = laneOf (afterCommit x w q (max x.cycle (q.cycle + 5)) false) w := by rw [hself]; rfl
        rw [hl, laneOf_afterCommit_of_more (by rw [hwhole]; exact hmore)]
      · rw [hself]
        exact (afterCommit_kept ..).2.1
      · rw [hself]
        exact (afterCommit_kept ..).2.2
      · have heq : rowOut (rowMoved s a.val w q) w.j w.t q [] = out := rowOut_setArr_of_partial hpass
        rw [hu, journal_rowDone hout hpass (by rw [heq]; exact hspad)]
        rfl
    · rw [if_neg (Nat.not_lt.mpr hlast), commitRow_of_more (.inr hpass), ← hu, passEnded_of_running (hab.trans habort)] at hexec
      have hasks := asks_feedAhead u a.val
      have hmark : ¬q.row + 1 < w.t.rows := Nat.not_lt.mpr hlast
      refine ⟨_, _, hexec, by rw [hasks.arr, hself], ?_, ?_, ?_, ?_⟩
      · rw [committedSub, afterRow, if_neg hmark]
      · rw [committedSub, afterRow, if_neg hmark]
      · rw [laneOf, hasks.lane]
        show (laneOf (getArr u a.val) w).results = []
        rw [hself]
        exact results_afterCommit_of_last (by rw [hwhole]; exact hmark)
      · have hacct : getAcct (feedAhead u a.val) w.t.ctx = getAcct u w.t.ctx := by rw [hasks.rest]; rfl
        have hsent := (partsSent_drains (r := a.val / 4) hout).acct w.t.ctx
        have hmoved : getAcct (movedOn (rowMoved s a.val w q) (a.val / 4) w.j w.t q []) w.t.ctx = getAcct s w.t.ctx := by
          rw [movedOn, mapSub_rest]
          rfl
        rw [hacct, hu, rowDone_of_partial hpass, chargeCommit, getAcct_setAcct, decide_eq_false hmark]
        show (getAcct (partsSent (rowMoved s a.val w q) (a.val / 4) w.j w.t q []) w.t.ctx).passes + 1 = _
        rw [hsent, hmoved]
    · obtain ⟨v, hv, hgone, hres, habv⟩ := endSub_spec hbound harr hnew hin hside hdesc hjob hwhole hlast (skewOf s a.val w)
      rw [if_neg (Nat.not_lt.mpr hlast), commitRow_of_last hlast hpass, ← hv, passEnded_of_running (habv.trans habort)] at hexec
      have hasks := asks_feedAhead v a.val
      refine ⟨_, hexec, by rw [hasks.arr, hgone], ?_⟩
      rw [laneOf, hasks.lane]
      exact hres
  · subst hrs
    rw [commitOne_of_loss hworks hready, drainLoss_of_full hrole (by rw [hwhole]; exact hbands)] at hexec
    have hself := getArr_bufferLoss_self s a.val w harr
    have hlane : laneOf (getArr (bufferLoss s a.val w) a.val) w = rewindLane w w.e.rowMark l := by
      rw [hself]
      exact getLane_setLane ..
    refine ⟨_, hexec, ?_, ?_, ?_, by rw [hself]; rfl, by rw [bufferLoss_rest], by rw [bufferLoss_rest], logAt_bufferLoss s a.val w⟩
    · rw [hself, hbound]
      exact mapped_cons_self _ fun h => hnew _ h ⟨rfl, rfl, rfl, rfl, rfl⟩
    · rw [hlane, hwhole]
      rfl
    · rw [hlane, rewindLane, hwhole, hbands]
  · subst hrs
    have hreport := bufferReport_rest s 1 a.val (a.val / 4) w.t.ctx w.t.ring
    rw [commitOne_of_loss hworks hready, drainLoss_of_band hrole (by rw [hwhole]; exact hbands)] at hexec
    generalize bufferReport s 1 a.val (a.val / 4) w.t.ctx w.t.ring = u at hexec hreport
    obtain ⟨hfenced, hgone, hbytes⟩ := fenceArray_spec u a.val
    refine ⟨_, hexec, hfenced, hgone, fun sp k hk => ?_⟩
    rw [hbytes sp k (by rw [hreport]; exact hk), hreport]

end

section
/-!
PROOFS. The Side Path: its weight buffer, dot rows and spill sums (R126, R188 to R198) settled.
-/

namespace Sys2Proof.Machine

/-! ### The weight buffer (R195) -/

theorem queueReads_arrs (s : State) (o : Owner) (asid : BitVec 16) (r cls a n : Nat) (sub : Option (Nat × Nat)) :
    (queueReads s o asid r cls a n sub).arrs = s.arrs := foldl_arrs (fun _ _ => queueRead_arrs ..) _ s

theorem readRow_arrs (s : State) (r bank port : Nat) (o : Owner) (j : Job) (t : SubTile) (n i : Nat) : (readRow s r bank port o j t n i).arrs = s.arrs :=
  (foldl_arrs (fun _ _ => queueReads_arrs ..) _ _).trans (foldl_arrs (fun _ _ => askBank_arrs ..) _ s)

theorem fetchLists_arrs (s : State) (r : Nat) (j : Job) (t : SubTile) (p : Nat) : (fetchLists s r j t p).arrs = s.arrs := by
  have hlines := foldl_arrs (f := fun u (x : Nat × Nat) => askBank u x.1 1 x.2 .read (.desc t.ctx t.ring)) (fun _ _ => askBank_arrs ..) (listSpad s r j t p) s
  unfold fetchLists
  dsimp only
  split
  · exact hlines
  · exact (foldl_arrs (fun _ _ => queueReads_arrs ..) _ _).trans hlines

/-- A block's reads are requests of banks and ports alone. -/
theorem fetchBlock_spec (s : State) (r : Nat) (j : Job) (t : SubTile) (n : Nat) :
    Asks s (fetchBlock s r j t n) ∧ (fetchBlock s r j t n).arrs = s.arrs := by
  have hrows := Asks.foldl (f := fun u i => readRow u r 1 0 (.desc t.ctx t.ring) j t n i) (fun _ _ => asks_readRow ..)
    (l := List.range (liveRows (tileRows j) (passOf j n).1)) s
  have harrs := foldl_arrs (f := fun u i => readRow u r 1 0 (.desc t.ctx t.ring) j t n i) (fun _ _ => readRow_arrs ..)
    (List.range (liveRows (tileRows j) (passOf j n).1)) s
  unfold fetchBlock
  dsimp only
  split
  · exact ⟨hrows.trans (asks_fetchLists ..), (fetchLists_arrs ..).trans harrs⟩
  · exact ⟨hrows, harrs⟩

/-- A half of the buffer for the block of pass `n` of a work. -/
def newHalf (v : Work) (n : Nat) : SideHalf :=
  { ctx := v.t.ctx, ring := v.t.ring, h := v.t.h, c := v.t.c, g := v.e.g, pass := n, second := v.role == .follow, bytes := blockBytes v.j v.e n }

/-- The buffer with a half for that block, whose reads have been asked for. -/
def sideFilled (s : State) (r : Nat) (v : Work) (n : Nat) : State :=
  setRgn (fetchBlock s r v.j v.e n) r { getRgn (fetchBlock s r v.j v.e n) r with sideHalves := (getRgn s r).sideHalves ++ [newHalf v n] }

theorem sideFill_of_room {s : State} {r : Nat} {w v : Work} {n : Nat} (hhead : sideHead s r = some w) (hroom : (getRgn s r).sideHalves.length < 2)
    (hwant : (sideWants w r).find? (fun v => (halfOf (getRgn s r) v.1 v.2).isNone) = some (v, n)) : sideFill s r = sideFilled s r v n := by
  have hfull : ¬decide (2 ≤ (getRgn s r).sideHalves.length) = true := by rw [decide_eq_true_eq]; omega
  simp only [sideFill, hhead, hwant]
  exact if_neg hfull

/-- A half that holds nothing a work wants. -/
theorem wanted_first {x : Region} {w v : Work} {n k : Nat} {l : List (Work × Nat)} (hhave : (halfOf x w n).isSome = true) (hnone : halfOf x v k = none) :
    ((w, n) :: (v, k) :: l).find? (fun v => (halfOf x v.1 v.2).isNone) = some (v, k) := by
  have hskip : (halfOf x w n).isNone = false := Option.isNone_eq_false_iff.mpr hhave
  have htake : (halfOf x v k).isNone = true := Option.isNone_iff_eq_none.mpr hnone
  simp only [List.find?_cons, hskip, htake]

/-- The running pass's block comes first. -/
theorem sideFill_running {s : State} {r : Nat} {w : Work} (hhead : sideHead s r = some w) (hroom : (getRgn s r).sideHalves.length < 2)
    (hnone : halfOf (getRgn s r) w (blockPass w w.e.passesDone) = none) : sideFill s r = sideFilled s r w (blockPass w w.e.passesDone) :=
  sideFill_of_room hhead hroom
    (List.find?_cons_of_pos (p := fun v : Work × Nat => (halfOf (getRgn s r) v.1 v.2).isNone) (Option.isNone_iff_eq_none.mpr hnone))

/-- The next load's block comes behind it. -/
theorem sideFill_next {s : State} {r k : Nat} {w v : Work} (hhead : sideHead s r = some w) (hroom : (getRgn s r).sideHalves.length < 2)
    (hhave : (halfOf (getRgn s r) w (blockPass w w.e.passesDone)).isSome = true) (hafter : w.after r sideRoles = some (v, k))
    (hnone : halfOf (getRgn s r) v k = none) : sideFill s r = sideFilled s r v k := by
  refine sideFill_of_room hhead hroom ?_
  rw [sideWants, hafter]
  exact wanted_first hhave hnone

theorem sideFill_of_full {s : State} {r : Nat} (h : 2 ≤ (getRgn s r).sideHalves.length) : sideFill s r = s := by
  unfold sideFill
  split
  · rfl
  · dsimp only
    split
    · rfl
    · exact if_pos (decide_eq_true h)

theorem sideFilled_spec (s : State) (r : Nat) (v : Work) (n : Nat) :
    sideFilled s r v n = { s with rgns := (sideFilled s r v n).rgns, mp := (sideFilled s r v n).mp } ∧
    (getRgn (sideFilled s r v n) r).sideQ = (getRgn s r).sideQ ∧
    (getRgn (sideFilled s r v n) r).sideHalves = (getRgn s r).sideHalves ++ [newHalf v n] := by
  obtain ⟨hasks, harrs⟩ := fetchBlock_spec s r v.j v.e n
  refine ⟨?_, ?_, by rw [sideFilled, getRgn_setRgn]⟩
  · have hrest : fetchBlock s r v.j v.e n = { s with rgns := (fetchBlock s r v.j v.e n).rgns, mp := (fetchBlock s r v.j v.e n).mp } := by
      rw [hasks.rest, harrs]
    rw [sideFilled, hrest]
    rfl
  · rw [sideFilled, getRgn_setRgn]
    show (getRgn (fetchBlock s r v.j v.e n) r).sideQ = _
    rw [hasks.rgn]

/-! ### Sub-tiles that are routed to a Side Path -/

theorem mapSub_of_side {t : SubTile} (h : t.array = none) (s : State) (r : Nat) (f : SubTile → SubTile) :
    mapSub s r t f = setRgn s r { getRgn s r with sideQ := mapped t f (getRgn s r).sideQ } := by
  unfold mapSub
  rw [h]
  rfl

theorem sideQ_mapSub {s : State} {r : Nat} {t : SubTile} {rest : List SubTile} (f : SubTile → SubTile) (hside : t.array = none)
    (hq : (getRgn s r).sideQ = t :: rest) (hnew : t ∉ rest) : (getRgn (mapSub s r t f) r).sideQ = f t :: rest := by
  rw [mapSub_of_side hside, getRgn_setRgn, hq]
  exact mapped_cons_self f hnew

/-! ### Dot rows (R188, R192, R197) -/

/-- A dot row of the head of the queue, once it may go on. -/
def dotFound (s : State) (r : Nat) (w : Work) (upset : List (Nat × W32)) (rs buf : RsResult) : State :=
  match halfOf (getRgn s r) w (blockPass w w.e.passesDone) with
  | none => addRgnCnt s r 13 (dotCycles w.j)
  | some b =>
    if !blockHere s r w.j w.e (blockPass w w.e.passesDone) then addRgnCnt s r 13 (dotCycles w.j)
    else if rs == .uncorrectable then halfLoss s r w b
    else if buf == .uncorrectable then sideLoss s r w
    else if !sideFed s r w then sideFeed s r w
    else if !sideHashed s r w then sideHash s r w
    else dotGo s r w upset

theorem dotRow_of_ready {s : State} {r : Nat} {w : Work} {upset : List (Nat × W32)} {rs buf : RsResult} (hhead : sideHead s r = some w)
    (hready : dotReady s r w = true) (hreread : w.t.reread = false) (hslot : slotPending s w.t.ctx w.t.ring = false) :
    dotRow s r upset rs buf = dotFound s r w upset rs buf := by
  have hgo : ¬(slotPending s w.t.ctx w.t.ring || !dotReady s r w) = true := by
    rw [hslot, hready]
    exact Bool.false_ne_true
  have hslots : ¬w.t.reread = true := by
    rw [hreread]
    exact Bool.false_ne_true
  simp only [dotRow, hhead]
  rw [if_neg hslots, if_neg hgo]
  rfl

section
variable {s : State} {r : Nat} {w : Work} {h : SideHalf} {upset : List (Nat × W32)} {rs buf : RsResult}

theorem dotFound_of_empty (hhalf : halfOf (getRgn s r) w (blockPass w w.e.passesDone) = none) :
    dotFound s r w upset rs buf = addRgnCnt s r 13 (dotCycles w.j) := by rw [dotFound, hhalf]

variable (hhalf : halfOf (getRgn s r) w (blockPass w w.e.passesDone) = some h)
include hhalf

theorem dotFound_of_absent (hhere : blockHere s r w.j w.e (blockPass w w.e.passesDone) = false) :
    dotFound s r w upset rs buf = addRgnCnt s r 13 (dotCycles w.j) := by
  simp only [dotFound, hhalf, hhere]
  rfl

variable (hhere : blockHere s r w.j w.e (blockPass w w.e.passesDone) = true)
include hhere

theorem dotFound_of_halfLoss : dotFound s r w upset .uncorrectable buf = halfLoss s r w h := by
  simp only [dotFound, hhalf, hhere]
  rfl

variable (hrs : rs ≠ .uncorrectable)
include hrs

theorem dotFound_of_sideLoss : dotFound s r w upset rs .uncorrectable = sideLoss s r w := by
  have hno : (rs == RsResult.uncorrectable) = false := beq_false_of_ne hrs
  simp only [dotFound, hhalf, hhere, hno]
  rfl

variable (hbuf : buf ≠ .uncorrectable)
include hbuf

theorem dotFound_of_clean : dotFound s r w upset rs buf =
    if !sideFed s r w then sideFeed s r w else if !sideHashed s r w then sideHash s r w else dotGo s r w upset := by
  have hno : (rs == RsResult.uncorrectable) = false := beq_false_of_ne hrs
  have hgood : (buf == RsResult.uncorrectable) = false := beq_false_of_ne hbuf
  simp only [dotFound, hhalf, hhere, hno, hgood]
  rfl

end

/-- A half that is lost is empty. -/
theorem halfLoss_spec (s : State) (r : Nat) (w : Work) (h : SideHalf) : getRgn (halfLoss s r w h) r = { getRgn s r with
    sideHalves := (getRgn s r).sideHalves.erase h } ∧ (halfLoss s r w h).mems = s.mems ∧ (halfLoss s r w h).ctxs = s.ctxs ∧
    LogAt (halfLoss s r w h) s.flog.next.toNat 2 0x11 0 := by
  have hreport := bufferReport_rest s 3 r r w.t.ctx w.t.ring
  have hlog := logAt_bufferReport s 3 r r w.t.ctx w.t.ring
  unfold halfLoss
  generalize bufferReport s 3 r r w.t.ctx w.t.ring = u at *
  have hrgn : getRgn u r = getRgn s r := getRgn_of_rgns (by rw [hreport]) r
  refine ⟨by rw [getRgn_setRgn, hrgn], ?_, ?_, hlog.congr rfl⟩
  · show u.mems = _
    rw [hreport]
  · show u.ctxs = _
    rw [hreport]

/-- A row that is lost in the partial paths: the sub-tile carries REPLAYED. -/
theorem sideLoss_spec {s : State} {r : Nat} {w : Work} {rest : List SubTile} (hrole : w.role ≠ .follow) (hside : w.t.array = none)
    (hq : (getRgn s r).sideQ = w.t :: rest) (hnew : w.t ∉ rest) :
    (getRgn (sideLoss s r w) r).sideQ = { w.t with flags := w.t.flags ||| flReplayed } :: rest ∧
    (getRgn (sideLoss s r w) r).sideHalves = (getRgn s r).sideHalves ∧ (sideLoss s r w).mems = s.mems ∧ (sideLoss s r w).ctxs = s.ctxs ∧
    LogAt (sideLoss s r w) s.flog.next.toNat 2 0x11 0 := by
  have hfollow : ¬(w.role == .follow) = true := fun e => hrole (eq_of_beq e)
  have hreport := bufferReport_rest s 3 r r w.t.ctx w.t.ring
  have hlog := logAt_bufferReport s 3 r r w.t.ctx w.t.ring
  unfold sideLoss
  dsimp only
  rw [if_neg hfollow]
  generalize bufferReport s 3 r r w.t.ctx w.t.ring = u at *
  have hrgn : getRgn u r = getRgn s r := getRgn_of_rgns (by rw [hreport]) r
  refine ⟨sideQ_mapSub _ hside (by rw [hrgn]; exact hq) hnew, ?_, ?_, ?_, hlog.congr ?_⟩
  · rw [mapSub_of_side hside, getRgn_setRgn, hrgn]
  · rw [mapSub_rest, hreport]
  · rw [mapSub_rest, hreport]
  · rw [mapSub_rest]

/-- The reads of a row's operands are asked for, and the sub-tile says so. -/
theorem sideFeed_spec (s : State) (r : Nat) (w : Work) : (sideFeed s r w).mems = s.mems ∧ (sideFeed s r w).ctxs = s.ctxs ∧ (sideFeed s r w).tlm = s.tlm ∧
    ∀ rest, (getRgn s r).sideQ = w.t :: rest → w.t.array = none → w.t ∉ rest →
      (sideFeed s r w).arrs = s.arrs ∧ (getRgn (sideFeed s r w) r).sideQ = { w.t with fedRow := feedTag w } :: rest := by
  by_cases hfed : (w.t.fedRow == feedTag w) = true
  · have hsame : sideFeed s r w = s := if_pos hfed
    rw [hsame]
    refine ⟨rfl, rfl, rfl, fun rest hq _ _ => ⟨rfl, ?_⟩⟩
    rw [hq, ← eq_of_beq hfed]
  · have hasks := (asks_askActs (mapSub s r w.t (fun u => { u with fedRow := feedTag w })) r 1 w w.e.rowMark).trans
      (asks_askParts (askActs (mapSub s r w.t (fun u => { u with fedRow := feedTag w })) r 1 w w.e.rowMark) r w w.e.rowMark)
    have harrs := (askParts_arrs (askActs (mapSub s r w.t (fun u => { u with fedRow := feedTag w })) r 1 w w.e.rowMark) r w w.e.rowMark).trans
      (askActs_arrs (mapSub s r w.t (fun u => { u with fedRow := feedTag w })) r 1 w w.e.rowMark)
    have heq : sideFeed s r w = askParts (askActs (mapSub s r w.t (fun u => { u with fedRow := feedTag w })) r 1 w w.e.rowMark) r w w.e.rowMark :=
      if_neg hfed
    have hrest := mapSub_rest s r w.t (fun u => { u with fedRow := feedTag w })
    rw [← heq] at hasks harrs
    refine ⟨by rw [hasks.rest, hrest], by rw [hasks.rest, hrest], by rw [hasks.rest, hrest], fun rest hq hside hnew => ⟨?_, ?_⟩⟩
    · rw [harrs, mapSub_of_side hside]
      rfl
    · rw [hasks.rgn]
      exact sideQ_mapSub _ hside hq hnew

theorem sideHash_rest (s : State) (r : Nat) (w : Work) : sideHash s r w = { s with rgns := (sideHash s r w).rgns, arrs := (sideHash s r w).arrs } := by
  unfold sideHash
  dsimp only
  split
  · rfl
  · rw [mapSub_rest]
    rfl

/-! ### A dot row that is committed -/

/-- The context is charged for a dot row and its `n` spill products. -/
def dotCharged (s : State) (r : Nat) (w : Work) (n : Nat) : State :=
  addRgnCnt (chargeSide s w.t.ctx (dotCycles w.j + spillCycles w.j n)) r 7 n

/-- The products of a row without spills are none. -/
def dotPaid (s : State) (r : Nat) (w : Work) (es : List ZEntry) : State :=
  if es.isEmpty then chargeSide s w.t.ctx (dotCycles w.j + spillCycles w.j es.length) else dotCharged s r w es.length

structure DotPaid (s u : State) (w : Work) (n : Nat) : Prop where
  rest : u = { s with tlm := u.tlm, rgns := u.rgns }
  rgn : ∀ r, getRgn u r = { getRgn s r with cnt := (getRgn u r).cnt }
  side : (getAcct u w.t.ctx).sideCycles = (getAcct s w.t.ctx).sideCycles + BitVec.ofNat 64 n
  pend : rdByte (pendMems u) = rdByte (pendMems s)

theorem getRgn_addRgnCnt (s : State) (r i n k : Nat) : getRgn (addRgnCnt s r i n) k = { getRgn s k with cnt := (getRgn (addRgnCnt s r i n) k).cnt } := by
  rw [addRgnCnt, getRgn_setRgn_if]
  split
  next h => rw [h]
  next => rfl

theorem rdByte_pendMems_addRgnCnt (s : State) (r i n : Nat) : rdByte (pendMems (addRgnCnt s r i n)) = rdByte (pendMems s) :=
  rdByte_pendMems_setRgn s r (x := { getRgn s r with cnt := tset (getRgn s r).cnt i (tget 0 (getRgn s r).cnt i + BitVec.ofNat 64 n) }) rfl

theorem dotPaid_spec (s : State) (r : Nat) (w : Work) (es : List ZEntry) :
    DotPaid s (dotPaid s r w es) w (dotCycles w.j + spillCycles w.j es.length) := by
  have hcharge : DotPaid s (chargeSide s w.t.ctx (dotCycles w.j + spillCycles w.j es.length)) w (dotCycles w.j + spillCycles w.j es.length) :=
    ⟨rfl, fun _ => rfl, by rw [chargeSide, getAcct_setAcct], rfl⟩
  unfold dotPaid
  split
  · exact hcharge
  · refine ⟨rfl, fun k => ?_, hcharge.side, ?_⟩
    · rw [dotCharged, getRgn_addRgnCnt]
      rfl
    · exact (rdByte_pendMems_addRgnCnt ..).trans hcharge.pend

theorem dotGo_of_accepted {s : State} {r : Nat} {w : Work} (hrole : w.role = .whole)
    (hcheck : checkVerdict (workRow s r (sideBank s.mems w.j { w.e with band := 0 } w.e.passesDone) w w.e.rowMark (getRgn s r).scycle []) ≠ some false)
    (hz : subZ s.mems w.j w.e w.e.passesDone ≠ [] → zVerdict s.mems w.j w.e w.e.rowMark (subZ s.mems w.j w.e w.e.passesDone) [] ≠ some false)
    (hmore : w.e.rowMark + 1 < w.e.rows) : ∃ u, u = commitRow (dotPaid s r w (subZ s.mems w.j w.e w.e.passesDone)) r w.j w.t
        (workRow s r (sideBank s.mems w.j { w.e with band := 0 } w.e.passesDone) w w.e.rowMark (getRgn s r).scycle []) none [] ∧
      dotGo s r w [] = setRgn u r (getRgn u r) := by
  refine ⟨_, rfl, ?_⟩
  have hfollow : ¬(w.role == .follow) = true := by
    rw [hrole]
    exact Bool.false_ne_true
  have hgood : ¬(checkVerdict (workRow s r (sideBank s.mems w.j { w.e with band := 0 } w.e.passesDone) w w.e.rowMark (getRgn s r).scycle []) == some false ||
      (!(subZ s.mems w.j w.e w.e.passesDone).isEmpty &&
        zVerdict s.mems w.j w.e w.e.rowMark (subZ s.mems w.j w.e w.e.passesDone) [] == some false)) = true := by
    rw [beq_false_of_ne hcheck, Bool.false_or]
    intro h
    obtain ⟨hne, hbad⟩ := Bool.and_eq_true_iff.mp h
    exact hz (fun he => by rw [he] at hne; exact Bool.false_ne_true hne) (eq_of_beq hbad)
  have hfree : ∀ x, freeHalf w x = x := fun x => if_pos (by rw [decide_eq_true hmore, Bool.true_or])
  simp only [dotGo, List.filter_nil, if_neg hfollow]
  rw [if_neg hgood]
  simp only [hfree, if_pos hmore, commitWork, hrole]
  rfl

theorem whole_of_sideHead {s : State} {r : Nat} {w : Work} (hhead : sideHead s r = some w) (hrole : w.role = .whole) : w.e = w.t := by
  unfold sideHead at hhead
  split at hhead
  · cases hhead
  · exact (whole_of_workIn hhead hrole).1

/-- A dot row that both checks accept: the mark moves, and the context is charged for the row and its spill products. -/
theorem dotGo_spec {s : State} {r : Nat} {w : Work} {rest : List SubTile} (hhead : sideHead s r = some w) (hrole : w.role = .whole)
    (hq : (getRgn s r).sideQ = w.t :: rest) (hside : w.t.array = none) (hnew : w.t ∉ rest) (hmore : w.t.rowMark + 1 < w.t.rows)
    (hcheck : checkVerdict (workRow s r (sideBank s.mems w.j { w.e with band := 0 } w.e.passesDone) w w.e.rowMark (getRgn s r).scycle []) ≠ some false)
    (hz : subZ s.mems w.j w.e w.e.passesDone ≠ [] → zVerdict s.mems w.j w.e w.e.rowMark (subZ s.mems w.j w.e w.e.passesDone) [] ≠ some false)
    (hin : Within (rowOut s w.j w.t
      (workRow s r (sideBank s.mems w.j { w.e with band := 0 } w.e.passesDone) w w.e.rowMark (getRgn s r).scycle [])).writes)
    (hbeside : SideWithin w.j w.t w.t.rowMark) : ∃ t v, dotGo s r w [] = t ∧ (getRgn t r).sideQ = v :: rest ∧ v.rowMark = w.t.rowMark + 1 ∧
      v.passesDone = w.t.passesDone ∧ v.ctx = w.t.ctx ∧ v.ring = w.t.ring ∧ (getAcct t w.t.ctx).sideCycles = (getAcct s w.t.ctx).sideCycles +
        BitVec.ofNat 64 (dotCycles w.j + spillCycles w.j (subZ s.mems w.j w.e w.e.passesDone).length) := by
  have hwhole := whole_of_sideHead hhead hrole
  obtain ⟨u, hu, hgo⟩ := dotGo_of_accepted hrole hcheck hz (by rw [hwhole]; exact hmore)
  have hmark : (workRow s r (sideBank s.mems w.j { w.e with band := 0 } w.e.passesDone) w w.e.rowMark (getRgn s r).scycle []).row = w.t.rowMark := by
    show w.e.rowMark = _
    rw [hwhole]
  have hpaid := dotPaid_spec s r w (subZ s.mems w.j w.e w.e.passesDone)
  generalize workRow s r (sideBank s.mems w.j { w.e with band := 0 } w.e.passesDone) w w.e.rowMark (getRgn s r).scycle [] = q at *
  generalize dotPaid s r w (subZ s.mems w.j w.e w.e.passesDone) = p at *
  have hmore : q.row + 1 < w.t.rows := by rw [hmark]; exact hmore
  have hout : Within (rowOut p w.j w.t q []).writes :=
    within_rowOut_congr hpaid.pend (by rw [hpaid.rest]) (by rw [hpaid.rest]; rfl) (by rw [hpaid.rest]; rfl) hin
  have hdone := rowDone_committed (r := r) (skew := none) hout (by rw [hmark]; exact hbeside)
  rw [← commitRow_of_more (.inl hmore), ← hu] at hdone
  have hmoved : (getRgn (movedOn p r w.j w.t q []) r).sideQ = committedSub p w.j w.t q [] :: rest :=
    sideQ_mapSub _ hside (by rw [hpaid.rgn]; exact hq) hnew
  have hacct : getAcct (movedOn p r w.j w.t q []) w.t.ctx = getAcct p w.t.ctx := by
    rw [movedOn, mapSub_rest]
    rfl
  refine ⟨_, committedSub p w.j w.t q [], hgo, ?_, ?_, ?_, ?_, ?_, ?_⟩
  · rw [getRgn_setRgn, hdone.sideQ, hmoved]
  · rw [committedSub, afterRow, if_pos hmore, hmark]
  · rw [committedSub, afterRow, if_pos hmore]
  · rw [committedSub, afterRow, if_pos hmore]
  · rw [committedSub, afterRow, if_pos hmore]
  · show (getAcct u w.t.ctx).sideCycles = _
    rw [hdone.sideCycles, hacct, hpaid.side]

/-! ### Spill service (R126, R193, R198) -/

/-- Products of spill sums are counted and charged. -/
theorem sideProducts_spec (s : State) (r c : Nat) (j : Job) (n : Nat) :
    sideProducts s r c j n = { s with rgns := (sideProducts s r c j n).rgns, tlm := (sideProducts s r c j n).tlm } ∧
    tget 0 (getRgn (sideProducts s r c j n) r).cnt 7 = tget 0 (getRgn s r).cnt 7 + BitVec.ofNat 64 n ∧
    (getAcct (sideProducts s r c j n) c).sideCycles = (getAcct s c).sideCycles + BitVec.ofNat 64 (spillCycles j n) := by
  have hcount : tget 0 (getRgn (addRgnCnt s r 7 n) r).cnt 7 = tget 0 (getRgn s r).cnt 7 + BitVec.ofNat 64 n := by
    rw [addRgnCnt, getRgn_setRgn]
    exact tget_tset_self ..
  have hcharge : (getAcct (chargeSide (addRgnCnt s r 7 n) c (spillCycles j n)) c).sideCycles = (getAcct s c).sideCycles + BitVec.ofNat 64 (spillCycles j n) := by
    rw [chargeSide, getAcct_setAcct]
    rfl
  unfold sideProducts
  dsimp only
  split
  · exact ⟨rfl, hcount, hcharge⟩
  · refine ⟨rfl, ?_, hcharge⟩
    rw [addRgnCnt, getRgn_setRgn]
    exact (tget_tset_ne _ _ _ _ _ (by decide)).trans hcount

/-- The mismatch is counted, with its time. -/
def sideCounted (s : State) (r : Nat) : State :=
  addRgnCnt (setRgn s r { getRgn s r with sideMissTimes := addEvent (getRgn s r).sideMissTimes s.time.t }) r 14 1

/-- Its report (R324). -/
def sideEntry (s : State) (r : Nat) (t : SubTile) : FlogEntry :=
  { flogBase s clsReplayable 3 0x08 r r with ctx := BitVec.ofNat 12 t.ctx, ring := t.ring }

theorem sideFinding_eq (s : State) (r : Nat) (t : SubTile) : sideFinding s r t = logFault (sideCounted s r) (sideEntry s r t) := rfl

theorem sideFinding_rest (s : State) (r : Nat) (t : SubTile) : sideFinding s r t = { sideCounted s r with flog := (sideFinding s r t).flog } := by
  rw [sideFinding_eq]
  exact logFault_of_replayable rfl

/-- A finding of the check unit that is not the third within 1 ms. -/
theorem sideFinding_spec (s : State) (r : Nat) (t : SubTile) :
    sideFinding s r t = { s with rgns := (sideFinding s r t).rgns, flog := (sideFinding s r t).flog } ∧
    getRgn (sideFinding s r t) r = { getRgn s r with sideMissTimes := addEvent (getRgn s r).sideMissTimes s.time.t
                                                     cnt := tset (getRgn s r).cnt 14 (tget 0 (getRgn s r).cnt 14 + 1) } := by
  have hrest := sideFinding_rest s r t
  refine ⟨by rw [hrest]; rfl, ?_⟩
  rw [hrest]
  show getRgn (sideCounted s r) r = _
  rw [sideCounted, addRgnCnt, getRgn_setRgn, getRgn_setRgn]
  rfl

theorem spillService_of_bad {s : State} {r : Nat} {w : Work} (hwait : spillWaiting s r = some w) (hruns : sideRuns s r = true)
    (hfew : reached 3 (addEvent (getRgn s r).sideMissTimes s.time.t) = false) : spillService s r true = sideFinding s r w.t := by
  have hgo : (sideRuns s r && true) = true := by rw [hruns]; rfl
  have hstay : sideFence (sideFinding s r w.t) r = sideFinding s r w.t := if_neg (by rw [(sideFinding_spec s r w.t).2, hfew]; exact Bool.false_ne_true)
  simp only [spillService, hwait]
  rw [if_pos hgo, hstay]

/-- The sub-tile's pass has its sums. -/
def zReadied (s : State) (r : Nat) (w : Work) : State := mapSub s r w.t (fun u => { u with zPasses := w.zAfter })

theorem zReadied_spec {s : State} {r a : Nat} {w : Work} (harr : w.t.array = some a) (hbound : w.t ∈ (getArr s a).bound) :
    zReadied s r w = { s with arrs := (zReadied s r w).arrs } ∧ { w.t with zPasses := w.zAfter } ∈ (getArr (zReadied s r w) a).bound ∧
    ∀ b, b ≠ a → getArr (zReadied s r w) b = getArr s b := by
  refine ⟨?_, ?_, fun b hb => ?_⟩
  · unfold zReadied mapSub
    rw [harr]
    rfl
  · rw [zReadied, getArr_mapSub, if_pos harr]
    exact mem_mapped (f := fun u => { u with zPasses := w.zAfter }) hbound
  · rw [zReadied, getArr_mapSub, if_neg fun e => hb (Option.some.inj (harr.symm.trans e)).symm]

theorem spillService_of_good {s : State} {r : Nat} {w : Work} {m : Bool} (hwait : spillWaiting s r = some w) (hgood : (sideRuns s r && m) = false) :
    spillService s r m = if sideRuns s r then
      sideProducts (zReadied s r w) r w.t.ctx w.j ((subZ s.mems w.j w.e w.e.passesDone).length * w.t.rows)
    else addRgnCnt (zReadied s r w) r 8 ((subZ s.mems w.j w.e w.e.passesDone).length * w.t.rows) := by
  have hno : ¬(sideRuns s r && m) = true := by
    rw [hgood]
    exact Bool.false_ne_true
  simp only [spillService, hwait]
  rw [if_neg hno]
  rfl

end Sys2Proof.Machine

open Sys2Proof Sys2Proof.Machine

/-- Settles O43: fills and rows ask and change the region's own fields; a dot row is committed as an array's row is. -/
theorem sidePathFillsDotsAndSpills : Obligations.SidePathFillsDotsAndSpills := by
  refine ⟨fun s r w hruns hhead => ?_, fun s r w rest rs buf hruns hhead hready hreread hslot => ?_, fun s r a w m hruns hwait => ?_⟩
  · intro x n filled
    have hexec : exec (.sideWeightFill r) s = .next (sideFill s r.val) := congrArg _ (if_pos hruns)
    have hfilled : ∀ v k, filled v k (sideFilled s r.val v k) := fun v k => by
      obtain ⟨hrest, hq, hhalves⟩ := sideFilled_spec s r.val v k
      exact ⟨hrest, hq, newHalf v k, hhalves, rfl, rfl, rfl, rfl⟩
    refine ⟨fun hroom hnone => ⟨sideFilled s r.val w n, ?_, hfilled w n⟩, fun v k hroom hhave hafter hnone => ⟨sideFilled s r.val v k, ?_, hfilled v k⟩,
      fun hfull => by rw [hexec, sideFill_of_full hfull]⟩
    · rw [hexec, sideFill_running hhead hroom hnone]
    · rw [hexec, sideFill_next hhead hroom hhave hafter hnone]
  · intro n es q wait
    have hexec : exec (.sideDotRow r [] rs buf) s = .next (dotRow s r.val [] rs buf) := congrArg _ (if_pos hruns)
    rw [dotRow_of_ready hhead hready hreread hslot] at hexec
    refine ⟨fun hnone => by rw [hexec, dotFound_of_empty hnone], fun h hhalf => ⟨fun habsent => by rw [hexec, dotFound_of_absent hhalf habsent], ?_⟩⟩
    refine ⟨fun hhere hrs => ?_, fun hhere hrs hbuf hrole hq hside hnew => ?_, fun hhere hrs hbuf hfed => ?_, fun hhere hrs hbuf hfed hhash => ?_,
      fun hhere hrs hbuf hfed hhash hrole hq hside hnew hmore hcheck hz hin hbeside => ?_⟩
    · subst hrs
      rw [dotFound_of_halfLoss hhalf hhere] at hexec
      exact ⟨_, hexec, halfLoss_spec s r.val w h⟩
    · subst hbuf
      rw [dotFound_of_sideLoss hhalf hhere hrs] at hexec
      exact ⟨_, hexec, sideLoss_spec hrole hside hq hnew⟩
    · rw [dotFound_of_clean hhalf hhere hrs hbuf, hfed] at hexec
      obtain ⟨hmems, hctxs, htlm, hfeed⟩ := sideFeed_spec s r.val w
      exact ⟨sideFeed s r.val w, hexec, hmems, hctxs, htlm, hfeed rest⟩
    · rw [dotFound_of_clean hhalf hhere hrs hbuf, hfed, hhash] at hexec
      have hrest := sideHash_rest s r.val w
      exact ⟨sideHash s r.val w, hexec, by rw [hrest], by rw [hrest], by rw [hrest]⟩
    · rw [dotFound_of_clean hhalf hhere hrs hbuf, hfed, hhash] at hexec
      obtain ⟨t, v, ht, hspec⟩ := dotGo_spec hhead hrole hq hside hnew hmore hcheck hz hin hbeside
      simp only [Bool.not_true, Bool.false_eq_true, if_false] at hexec
      exact ⟨t, v, hexec.trans (by rw [ht]), hspec⟩
  · intro perRow
    have hexec : exec (.sideSpillService r m) s = .next (spillService s r.val m) := congrArg _ (if_pos hruns)
    refine ⟨fun hgood harr hbound => ?_, fun hside hm hfew => ?_⟩
    · rw [spillService_of_good hwait hgood] at hexec
      obtain ⟨hrest, hmem, hothers⟩ := zReadied_spec (r := r.val) harr hbound
      generalize zReadied s r.val w = p at *
      have hrgns : p.rgns = s.rgns := by rw [hrest]
      cases hruns : sideRuns s r.val with
      | true =>
        rw [hruns, if_pos rfl] at hexec
        obtain ⟨hp, hcount, hcharge⟩ := sideProducts_spec p r.val w.t.ctx w.j (perRow * w.t.rows)
        have harrs2 : (sideProducts p r.val w.t.ctx w.j (perRow * w.t.rows)).arrs = p.arrs := by rw [hp]
        refine ⟨_, hexec, by rw [hp, hrest], by rw [getArr_of_arrs harrs2]; exact hmem, fun b hb => by rw [getArr_of_arrs harrs2, hothers b hb],
          fun _ => ⟨?_, ?_⟩, fun h => nomatch h⟩
        · rw [hcount, getRgn_of_rgns hrgns]
        · rw [hcharge, hrest]
          rfl
      | false =>
        rw [hruns, if_neg Bool.false_ne_true] at hexec
        refine ⟨_, hexec, by rw [hrest]; rfl, hmem, hothers, (nomatch ·), fun _ => ⟨?_, ?_⟩⟩
        · rw [addRgnCnt, getRgn_setRgn, getRgn_of_rgns hrgns]
          exact tget_tset_self ..
        · show p.tlm = _
          rw [hrest]
    · subst hm
      rw [spillService_of_bad hwait hside hfew] at hexec
      obtain ⟨hrest, hrgn⟩ := sideFinding_spec s r.val w.t
      refine ⟨_, hexec, by rw [hrest], by rw [hrest], by rw [hrest], by rw [hrest], ?_, ?_⟩
      · rw [hrgn]
        exact tget_tset_ne _ _ _ _ _ (by decide)
      · rw [hrgn]
        exact tget_tset_self ..

end

section
/-!
PROOFS. The statement about FUSED2's rows (R175 to R177), refuted by a state it does not exclude.

It names what a follower's row leaves unchanged, and nothing ties the follower's sub-tile to the even array of the pair that holds it. In
`strayPair` the sub-tile says that it is on another array, so that its commit does not reach the copy that the pair runs. The odd array then
goes on with its own sub-tile, whose pass asks the banks for its next row.
-/

namespace Sys2Proof.Machine

/-- A FUSED2 descriptor with 257 output columns. -/
def widePair : Adm := bareAdm 2 [2, 0, 0, BitVec.ofNat 64 (1 + 257 * 2 ^ 17 + 2 ^ 28 + 2 ^ 49), 0, 0, 0, 0]

/-- Its sub-tile of one row, which runs on a pair. Array 0 holds it, and it names array 5. -/
def straySub : SubTile :=
  { gemmSub with ring := 2, array := some 5, rows := 1, passes := 2, order := 1, fuse := { Fuse.init with paired := true } }

/-- A GEMM whose activations lie in scratchpad. -/
def spadGemm : Adm := { smallGemm with entries := tset smallGemm.entries 1 [BitVec.ofNat 64 (0x8000 + 2 ^ 57), 0x0000080300000007, 0x0000000100000010, 1, 0, 1024, 0, 0] }

/-- Its sub-tile, in the upper half of array 1. -/
def upperSub : SubTile := { gemmSub with array := some 1, bandRows := 128, band := 2 }

/-- The follower's row, checked. -/
def strayRow : RowRes := { row := 0, cycle := 0, sums := [], ycheck := 0, isInt := false, allow := 0, skip := false, accepted := true, flags := 0 }

/-- Array 1 runs the second product of array 0's sub-tile in its lower half; the pass of its own sub-tile stands in the upper one. -/
def strayPair : State :=
  { servingState { Context.init with ent := copyingEntry, st := 1, admitted := [spadGemm, widePair] } with
    units := setUnit (setUnit State.reset.units .region 0 { MUnit.init with st := .live }) .array 1 { MUnit.init with st := .live }
    arrs := [(0, { ArrayS.init with bound := [straySub] }),
      (1, { ArrayS.init with bound := [upperSub], lanes := [(0, { Lane.init with sent := [0], results := [strayRow] }), (2, { Lane.init with sent := [0] })] })] }

/-- The second product's work. -/
def strayWork : Work := fuseWork widePair (jobOf widePair 0) straySub .follow

theorem works_strayPair : works strayPair 1 = [(strayWork, { lead := false, follow := true })] := by
  rfl

/-- The state meets every premise of the follower's clause. -/
theorem strayPair_ready : arrayRuns strayPair 1 = true ∧ (getCtx strayPair 0).aborting = false ∧
    commitReady strayPair 1 strayWork (laneOf (getArr strayPair 1) strayWork) = some strayRow ∧
    strayWork.e.g + 1 < tileGroups (strayWork.tile 0) := by
  decide +kernel

/-- The row's commit leaves requests of banks behind. -/
theorem bankReqs_rowCommit_strayPair : ∃ t, exec (.rowCommit 1 none .clean) strayPair = .next t ∧ (getRgn t 0).bankReqs.isEmpty = false :=
  ⟨_, rfl, by decide +kernel⟩

end Sys2Proof.Machine

open Sys2Proof Sys2Proof.Machine

/-- Refutes O40: in `strayPair` the follower's last row of a W2 group is committed, and the array's own sub-tile asks for its next row. -/
theorem not_fusedRowsUseLinkBuffers : ¬ Obligations.FusedRowsUseLinkBuffers := by
  unfold Obligations.FusedRowsUseLinkBuffers
  intro h
  obtain ⟨hruns, habort, hready, hgroups⟩ := strayPair_ready
  obtain ⟨-, -, hfollow⟩ := h strayPair 1 strayWork _ hruns works_strayPair habort
  obtain ⟨hrow, -⟩ := hfollow strayRow .clean (by decide) hready rfl (by decide)
  obtain ⟨t, hexec, -, -, hbanks, -⟩ := hrow (.inr hgroups)
  obtain ⟨u, hu, hasked⟩ := bankReqs_rowCommit_strayPair
  obtain rfl := Host.Outcome.next.inj (hu.symm.trans hexec)
  rw [hbanks 0] at hasked
  exact absurd hasked (by decide +kernel)

end

section
/-!
PROOFS. The statement about replays (R305 to R307, R320), refuted by a state it does not exclude.

A descriptor that ends leaves every array's list, and its last clause says that no sub-tile of it is then left in the engine. In
`listedTwice` the table of arrays lists array 0 twice: what ends with the descriptor is looked up under the array's number, which finds the
first entry, and the sub-tile of the second one stays.
-/

namespace Sys2Proof.Machine

/-- No array is in service; the sub-tile of `smallGemm` waits in region 0 to be bound again, and stands behind array 0's second entry. -/
def listedTwice : State :=
  { servingState { Context.init with ent := copyingEntry, st := 1, admitted := [smallGemm] } with
    units := setUnit State.reset.units .region 0 { MUnit.init with st := .live }
    rgns := [(0, { Region.init with replayQ := [gemmSub] })]
    arrs := [(0, ArrayS.init), (0, { ArrayS.init with bound := [gemmSub] })] }

/-- The state meets the premises of the clause that ends the descriptor. -/
theorem listedTwice_ends : running listedTwice = true ∧ replayNext (getRgn (moveStranded listedTwice 0) 0) = some gemmSub ∧
    subDesc listedTwice gemmSub = some smallGemm ∧ liveArrays listedTwice (ceAffinity (getCtx listedTwice 0).ent) = [] ∧
    othersWork (moveStranded listedTwice 0) gemmSub = false ∧ smallGemm.result = none := by
  decide +kernel

/-- Its sub-tile is still there behind the replay. -/
theorem allSubs_subtileReplay_listedTwice : ∃ t, exec (.subtileReplay 0 none) listedTwice = .next t ∧ gemmSub ∈ allSubs t :=
  ⟨_, rfl, by decide +kernel⟩

end Sys2Proof.Machine

open Sys2Proof Sys2Proof.Machine

/-- Refutes O47: in `listedTwice` the descriptor ends with ARRAYS_ABSENT, and a sub-tile of it stays in the table of arrays. -/
theorem not_replaysRebindOrEnd : ¬ Obligations.ReplaysRebindOrEnd := by
  unfold Obligations.ReplaysRebindOrEnd
  intro h
  obtain ⟨hrun, hnext, hdesc, hdead, hothers, hnone⟩ := listedTwice_ends
  obtain ⟨-, -, -, -, -, hend⟩ := h listedTwice 0 gemmSub smallGemm hrun hnext hdesc
  obtain ⟨t, -, hexec, -, -, hgone⟩ := hend hdead hothers hnone
  obtain ⟨u, hu, hleft⟩ := allSubs_subtileReplay_listedTwice
  obtain rfl := Host.Outcome.next.inj (hu.symm.trans hexec)
  exact hgone gemmSub hleft ⟨rfl, rfl⟩

end

section
/-!
PROOFS. Speculation behind a WAITV (R270 to R273, R277) settled.
-/

namespace Sys2Proof.Machine

/-! ### A speculative pass -/

/-- The buffer that a speculation begins with. -/
def freshSpec (s : State) (a c : Nat) (d : Adm) (v : Option Nat) : SpecBuf :=
  { sub := subAt s c d (jobOf d (a / 4)) 0 false 0, passes := 0, pairs := [], gens := specGens (jobOf d (a / 4)) d, shape := v, flags := 0
    confirmed := false, limit := s.regs.specPasses.toNat, conf := s.regs.confMin.toNat }

theorem specBuffer_of_start {s : State} {a c : Nat} {d0 d : Adm} {v : Option Nat} (hen : s.regs.specEn = true) (hempty : (getArr s a).spec = none)
    (helse : specElsewhere s a c d0.ring = false) (hshape : shapeNow s c d0 = some v) (hvariant : specShape d0 v = some d)
    (hruns : runsNowhere (jobOf d (a / 4)) = false) (hform : specForm s (a / 4) (jobOf d (a / 4)) = true)
    (hconf : s.regs.confMin.toNat ≤ (getCtx s c).waitConf.toNat) : specBuffer s a c d0 = some (freshSpec s a c d v) := by
  have hstart : specStart s a c d0 = some (freshSpec s a c d v) := by
    simp only [specStart, hen, hempty, helse, hshape, hvariant, Option.bind_some, hruns, hform]
    rfl
  rw [specBuffer, hempty]
  show Option.filter _ (specStart s a c d0) = _
  rw [hstart]
  exact Option.filter_eq_some_iff.mpr ⟨rfl, decide_eq_true hconf⟩

/-- A first pass is run on the buffer that begins. -/
theorem specPass_of_start {s : State} {a c : Nat} {d0 d : Adm} {v : Option Nat} {rs : RsResult} (hrs : rs ≠ .uncorrectable)
    (hfind : (getCtx s c).admitted.find? (fun e => heldByWait s c e) = some d0) (hbuffer : specBuffer s a c d0 = some (freshSpec s a c d v))
    (hvariant : specShape d0 v = some d) (hroom : specRoom (jobOf d (a / 4)) (freshSpec s a c d v) = true)
    (hreads : ∀ x ∈ specReads s (a / 4) (jobOf d (a / 4)) (subAt s c d (jobOf d (a / 4)) 0 false 0) 0, memAccess s c x.1 x.2 = .ok) :
    specPass s a c rs = addCnt (setArr s a { getArr s a with spec := some (specAdvance s.mems (jobOf d (a / 4)) (freshSpec s a c d v)) }) 5 1 := by
  have hno : (rs == RsResult.uncorrectable) = false := beq_false_of_ne hrs
  have hread : (specReads s (a / 4) (jobOf d (a / 4)) (freshSpec s a c d v).sub (freshSpec s a c d v).passes).any
      (fun x => memAccess s c x.1 x.2 != .ok) = false := by
    refine List.any_eq_false.mpr fun x hx => ?_
    rw [hreads x hx]
    exact Bool.false_ne_true
  have hshape : specShape d0 (freshSpec s a c d v).shape = some d := hvariant
  simp only [specPass, hfind, hbuffer, Option.bind_some, hshape, Option.map_some, hroom, hno, hread]
  rfl

/-! ### One array with a speculation -/

theorem confirmOne_of_none {s : State} {a c : Nat} (lost : Bool) (h : (getArr s a).spec = none) : confirmOne s a c lost = s := by
  simp only [confirmOne, h]

/-- Arrays without a speculation are passed over. -/
theorem foldl_confirmOne_of_none {s : State} {c : Nat} {lost : Nat → Bool} {l : List Nat} (h : ∀ e ∈ l, (getArr s e).spec = none) :
    l.foldl (fun t e => confirmOne t e c (lost e)) s = s := by
  induction l with
  | nil => rfl
  | cons e l ih =>
    rw [List.foldl_cons, confirmOne_of_none _ (h e List.mem_cons_self)]
    exact ih fun k hk => h k (List.mem_cons_of_mem _ hk)

/-- Where one array holds a speculation, SPEC_CONFIRM looks at it alone. -/
theorem confirm_of_one {s : State} {a : ArrId} {c : CtxId} {lost : Option ArrId} (hrun : running s = true)
    (hothers : ∀ e, e ≠ a.val → (getArr s e).spec = none)
    (hkept : ∀ e, e ≠ a.val → (getArr (confirmOne s a.val c.val (lost.any (fun b => b.val == a.val))) e).spec = none) :
    exec (.specConfirm c lost) s = .next (confirmOne s a.val c.val (lost.any (fun b => b.val == a.val))) := by
  have hexec : exec (.specConfirm c lost) s =
      .next ((List.range 16).foldl (fun t e => confirmOne t e c.val (lost.any (fun b => b.val == e))) s) := congrArg Host.Outcome.next (if_pos hrun)
  obtain ⟨l, k, hl⟩ := List.append_of_mem (List.mem_range.mpr a.isLt)
  have hnodup : (l ++ a.val :: k).Nodup := by
    rw [← hl]
    exact List.nodup_range
  obtain ⟨-, hk, hdisj⟩ := List.nodup_append.mp hnodup
  have hbefore : ∀ e ∈ l, e ≠ a.val := fun e he => hdisj e he a.val List.mem_cons_self
  have hbehind : ∀ e ∈ k, e ≠ a.val := fun e he h => (List.nodup_cons.mp hk).1 (h ▸ he)
  rw [hexec, hl, List.foldl_append, List.foldl_cons,
    foldl_confirmOne_of_none (lost := fun e => lost.any (fun b => b.val == e)) fun e he => hothers e (hbefore e he),
    foldl_confirmOne_of_none (lost := fun e => lost.any (fun b => b.val == e)) fun e he => hkept e (hbehind e he)]

theorem lost_any_of_ne {a : ArrId} {lost : Option ArrId} (h : lost ≠ some a) : lost.any (fun b => b.val == a.val) = false := by
  cases lost with
  | none => rfl
  | some b =>
    refine beq_false_of_ne fun hb => h ?_
    rw [Fin.ext hb]

theorem squash_spec (s : State) (a : Nat) : squash s a = { s with arrs := (squash s a).arrs, tlm := (squash s a).tlm } ∧
    getArr (squash s a) a = { getArr s a with spec := none } ∧ tget 0 (squash s a).tlm.cnt 7 = tget 0 s.tlm.cnt 7 + 1 ∧
    ∀ e, e ≠ a → getArr (squash s a) e = getArr s e :=
  ⟨rfl, getArr_setArr .., tget_tset_self .., fun _ he => getArr_setArr_ne _ _ _ _ he⟩

section
variable {s : State} {a c : Nat} {b : SpecBuf} {d : Adm} (hspec : (getArr s a).spec = some b) (hctx : b.sub.ctx = c)
  (hopen : b.confirmed = false)
include hspec hctx hopen

theorem confirmOne_of_lost : confirmOne s a c true = squash s a := by
  have hmine : (b.sub.ctx != c || b.confirmed) = false := by rw [hctx, hopen, bne_self_eq_false]; rfl
  simp only [confirmOne, hspec, hmine]
  rfl

variable (hdesc : findAdm (getCtx s c) b.sub.ring = some d) (hresult : d.result = none) (htotal : d.total = none)
include hdesc hresult htotal

/-- A speculation of a descriptor that has not begun. -/
theorem confirmOne_eq : confirmOne s a c false =
    if waitHeld (getCtx s c) d.ring || (hostPortFor s c).isNone then s
    else if !specHolds s c d b || specUnfit s a d b then squash s a
    else if !(dispatchable s c d && specCanBind s a b.sub) then s
    else if (specShape d b.shape).any (fun e => (residencyStep s c e.ring (a / 4) true (jobOf e (a / 4))).isNone) then addRgnCnt s (a / 4) 6 1
    else specDispatch s a c b d := by
  have hmine : (b.sub.ctx != c || b.confirmed) = false := by rw [hctx, hopen, bne_self_eq_false]; rfl
  simp only [confirmOne, hspec, hmine, hdesc, hresult, htotal]
  rfl

theorem confirmOne_of_held (hheld : waitHeld (getCtx s c) d.ring = true) : confirmOne s a c false = s := by
  rw [confirmOne_eq hspec hctx hopen hdesc hresult htotal, hheld]
  rfl

variable (hheld : waitHeld (getCtx s c) d.ring = false) (hport : (hostPortFor s c).isSome = true)
include hheld hport

theorem confirmOne_of_stale (hstale : specHolds s c d b = false ∨ specUnfit s a d b = true) : confirmOne s a c false = squash s a := by
  have hbad : (!specHolds s c d b || specUnfit s a d b) = true := by
    rcases hstale with h | h
    · rw [h]
      rfl
    · rw [h, Bool.or_true]
  rw [confirmOne_eq hspec hctx hopen hdesc hresult htotal, hheld, Option.isNone_eq_false_iff.mpr hport, hbad]
  rfl

theorem confirmOne_of_good (hholds : specHolds s c d b = true) (hfit : specUnfit s a d b = false) (hdisp : dispatchable s c d = true)
    (hbind : specCanBind s a b.sub = true)
    (hcopy : (specShape d b.shape).any (fun e => (residencyStep s c e.ring (a / 4) true (jobOf e (a / 4))).isNone) = false) :
    confirmOne s a c false = specDispatch s a c b d := by
  rw [confirmOne_eq hspec hctx hopen hdesc hresult htotal, hheld, Option.isNone_eq_false_iff.mpr hport, hholds, hfit, hdisp, hbind, hcopy]
  rfl

end

/-! ### A descriptor that begins -/

/-- What the start of a descriptor of context `c` leaves alone: memory, the arrays, every journal, the context's deficit and the ring indices of
its descriptors. -/
structure Begun (s t : State) (c : Nat) : Prop where
  mems : t.mems = s.mems
  arrs : t.arrs = s.arrs
  journal : ∀ n, (getRgn t n).journal = (getRgn s n).journal
  deficit : (getCtx t c).deficit = (getCtx s c).deficit
  rings : ∀ i, (∃ e ∈ (getCtx s c).admitted, e.ring = i) → ∃ e ∈ (getCtx t c).admitted, e.ring = i

namespace Begun
variable {s t u : State} {c : Nat}

theorem refl (s : State) (c : Nat) : Begun s s c := ⟨rfl, rfl, fun _ => rfl, rfl, fun _ h => h⟩

theorem trans (h : Begun s t c) (k : Begun t u c) : Begun s u c where
  mems := k.mems.trans h.mems
  arrs := k.arrs.trans h.arrs
  journal n := (k.journal n).trans (h.journal n)
  deficit := k.deficit.trans h.deficit
  rings i hi := k.rings i (h.rings i hi)

theorem chargeRd (s : State) (c e n : Nat) : Begun s (chargeRd s e n) c := ⟨rfl, rfl, fun _ => rfl, rfl, fun _ h => h⟩

theorem setAdm (s : State) (c : Nat) (ring : W32) {f : Adm → Adm} (hf : ∀ e, (f e).ring = e.ring) : Begun s (setAdm s c ring f) c where
  mems := rfl
  arrs := rfl
  journal _ := rfl
  deficit := by rw [Machine.setAdm, getCtx_setCtx]
  rings i := fun ⟨e, he, hring⟩ => by
    rw [Machine.setAdm, getCtx_setCtx]
    refine ⟨_, List.mem_map.mpr ⟨e, he, rfl⟩, ?_⟩
    split
    · rw [hf, hring]
    · exact hring

/-- Requests of banks and ports leave all of it alone. -/
theorem of_asks (h : Asks s t) (harrs : t.arrs = s.arrs) : Begun s t c where
  mems := by rw [h.rest]
  arrs := harrs
  journal n := by rw [h.rgn]
  deficit := by
    rw [h.rest]
    rfl
  rings i hi := by
    rw [h.rest]
    exact hi

end Begun

theorem begun_shapeStep {s t : State} {c : Nat} {d e : Adm} (h : shapeStep s c d = .go t e) : Begun s t c := by
  have hpick : ∀ u v, Begun s u c → (match pickVariant (bDim d.desc) v d.variants with
      | none => Step1.stop (finish u c d (plainResult .shapeNoBucket d.flags))
      | some i => .go (setAdm u c d.ring (fun e => { e with variant := i, shapeV := v })) { d with variant := i, shapeV := v }) = .go t e →
      Begun s t c := by
    intro u v hu hgo
    split at hgo
    · cases hgo
    · injection hgo with ht he
      rw [← ht]
      exact hu.trans (.setAdm u c d.ring fun _ => rfl)
  simp only [shapeStep] at h
  split at h
  · injection h with ht he
    exact ht ▸ .refl s c
  · split at h
    · cases h
    · split at h
      · cases h
      · cases h
      · exact hpick _ _ (.chargeRd s c c 4) h
    · exact hpick _ _ (.refl s c) h

theorem begun_stage (s : State) (c : Nat) (ring : W32) (j : Job) : Begun s (stage s c ring j) c := by
  have hone : ∀ (u : State) (x : Span), Begun u (match x.sp with
      | .mem => queueReads u (.desc c ring) (ceAsid (getCtx s c).ent) j.r 1 x.a x.n
      | .spad q => (List.range (ceilDiv (x.a % 64 + x.n) 64)).foldl (fun v i => askBank v q 2 (x.a / 64 * 64 + 64 * i) .read (.desc c ring)) u) c := by
    intro u x
    split
    · exact .of_asks (asks_queueReads ..) (queueReads_arrs ..)
    · exact .of_asks (.foldl (fun _ _ => asks_askBank ..) u) (foldl_arrs (fun _ _ => askBank_arrs ..) _ u)
  unfold stage
  generalize stagedReads s c j = l
  suffices h : ∀ u, Begun s u c → Begun s (l.foldl _ u) c from h s (.refl s c)
  induction l with
  | nil => exact fun u hu => hu
  | cons x l ih => exact fun u hu => ih _ (hu.trans (hone u x))

/-- A step over regions goes on only where some region may be used. -/
theorem regionStep_go {s t : State} {c : Nat} {d e : Adm} {draws : Bool} {f : List Nat → Step1} (h : regionStep s c d draws f = .go t e) :
    ∃ rs, f rs = .go t e := by
  unfold regionStep regionsStep at h
  split at h
  · cases h
  · split at h
    · cases h
    · split at h
      · cases h
      · exact ⟨_, h⟩

/-- A tile that runs whole does not go on to sub-tiles. -/
theorem wholeStep_stops {s t : State} {c : Nat} {d e : Adm} : wholeStep c s d ≠ .go t e := by
  intro h
  unfold wholeStep at h
  split at h
  · cases h
  · obtain ⟨rs, hf⟩ := regionStep_go h
    split at hf
    · cases hf
    · cases hf

theorem begun_beginTile {s t : State} {c : Nat} {d e : Adm} (h : beginTile c s d = .go t e) : Begun s t c ∧ e.ring = d.ring := by
  unfold beginTile at h
  dsimp only at h
  split at h
  · exact absurd h wholeStep_stops
  · obtain ⟨rs, hf⟩ := regionStep_go h
    split at hf
    · cases hf
    · split at hf
      · cases hf
      · split at hf
        · cases hf
        · cases hf
        · split at hf
          · cases hf
          · injection hf with ht he
            rw [← ht, ← he]
            exact ⟨(begun_stage ..).trans (.setAdm _ c d.ring fun _ => rfl), rfl⟩

/-- Bucket selection and the start of a tile. -/
theorem begun_start {s t : State} {c : Nat} {d e : Adm} (h : (shapeStep s c d).next (beginTile c) = .go t e) : Begun s t c ∧ e.ring = d.ring := by
  cases hshape : shapeStep s c d with
  | stop u =>
    rw [hshape] at h
    cases h
  | go u d' =>
    rw [hshape] at h
    obtain ⟨hbegun, hring⟩ := begun_beginTile (s := u) (d := d') h
    exact ⟨(begun_shapeStep hshape).trans hbegun, hring.trans (shaped_of_go hshape).ring⟩

/-! ### Residency copies leave the journals -/

theorem journal_roomForWindows {s t : State} {r c : Nat} {ring : W32} {keep : ResCopy → Bool} (h : roomForWindows s r c ring keep = some t) (n : Nat) :
    (getRgn t n).journal = (getRgn s n).journal := by
  obtain ⟨l, -, rfl⟩ := Option.map_eq_some_iff.mp h
  rw [getRgn_setRgn_if]
  split
  next hn => rw [hn]
  next => rfl

theorem journal_adoptReads (s : State) (r c : Nat) (ring : W32) (tensor : Nat) (gen : W32) (array : Option Nat) (n : Nat) :
    (getRgn (adoptReads s r c ring tensor gen array) n).journal = (getRgn s n).journal := by
  rw [show getRgn (adoptReads s r c ring tensor gen array) n = _ from getRgn_mapReqs s _ n]

theorem journal_renewCopy (s : State) (r c : Nat) (ring : W32) (tensor : Nat) (gen : W32) (n : Nat) :
    (getRgn (renewCopy s r c ring tensor gen) n).journal = (getRgn s n).journal := by
  unfold renewCopy
  dsimp only
  rw [journal_adoptReads, getRgn_setRgn_if]
  split
  next hn => rw [hn]
  next => rfl

theorem journal_takeCopy {s t : State} {r c : Nat} {ring : W32} {tensor : Nat} {gen : W32} {bytes : Nat}
    (h : takeCopy s r c ring tensor gen bytes = some t) (n : Nat) : (getRgn t n).journal = (getRgn s n).journal := by
  simp only [takeCopy] at h
  split at h
  · obtain ⟨u, hu, rfl⟩ := Option.map_eq_some_iff.mp h
    exact (journal_renewCopy ..).trans (journal_roomForWindows hu n)
  · obtain ⟨l, -, rfl⟩ := Option.map_eq_some_iff.mp h
    rw [getRgn_setRgn_if]
    split
    next hn => rw [hn]
    next => rfl

theorem journal_productCopy {s t : State} {c r : Nat} {ring : W32} {fetch : Bool} {j : Job} (h : productCopy s c ring r fetch j = some t) (n : Nat) :
    (getRgn t n).journal = (getRgn s n).journal := by
  unfold productCopy at h
  split at h
  · cases h
    rfl
  · obtain ⟨u, hu, rfl⟩ := Option.map_eq_some_iff.mp h
    split
    · have hfetch : Asks u (fetchCopy u c ring r j) := .foldl (fun _ _ => asks_queueReads ..) u
      rw [hfetch.rgn]
      exact journal_takeCopy hu n
    · exact journal_takeCopy hu n

theorem journal_residencyStep {s t : State} {c r : Nat} {ring : W32} {fetch : Bool} {j : Job} (h : residencyStep s c ring r fetch j = some t) (n : Nat) :
    (getRgn t n).journal = (getRgn s n).journal := by
  unfold residencyStep at h
  split at h
  · split at h
    · exact journal_roomForWindows h n
    · cases h
      rfl
  · obtain ⟨u, hu, h⟩ := Option.bind_eq_some_iff.mp h
    split at h
    · exact (journal_productCopy h n).trans (journal_productCopy hu n)
    · cases h
      exact journal_productCopy hu n

theorem begun_residencyStep {s t : State} {c r : Nat} {ring : W32} {fetch : Bool} {j : Job} (h : residencyStep s c ring r fetch j = some t) (k : Nat) :
    Begun s t k := by
  have hasks := residencyStep_asks h
  have harrs : t.arrs = s.arrs := by rw [hasks]
  refine ⟨hasks.mems, harrs, journal_residencyStep h, ?_, fun i hi => ?_⟩
  · rw [hasks.getCtx]
  · rw [hasks.getCtx]
    exact hi

/-! ### A seat leaves every speculation -/

/-- Every array holds the speculation that it held. -/
structure SpecsKept (s t : State) : Prop where
  spec : ∀ e, (getArr t e).spec = (getArr s e).spec

namespace SpecsKept
variable {s t u : State}

theorem refl (s : State) : SpecsKept s s := ⟨fun _ => rfl⟩

theorem trans (h : SpecsKept s t) (k : SpecsKept t u) : SpecsKept s u := ⟨fun e => (k.spec e).trans (h.spec e)⟩

theorem of_arrs (h : t.arrs = s.arrs) : SpecsKept s t := ⟨fun e => by rw [getArr_of_arrs h]⟩

theorem of_asks (h : Asks s t) : SpecsKept s t := ⟨fun e => by rw [h.arr]⟩

theorem setArr (s : State) (a : Nat) {x : ArrayS} (h : x.spec = (getArr s a).spec) : SpecsKept s (setArr s a x) := ⟨fun e => by
  rw [getArr_setArr_if]
  split
  next he => rw [h, he]
  next => rfl⟩

end SpecsKept

theorem specsKept_meetPreload (s : State) (a : Nat) (j : Job) (t : SubTile) (n : Nat) : SpecsKept s (meetPreload s a j t n) := by
  unfold meetPreload
  dsimp only
  split
  · exact .refl s
  next l _ =>
    split
    · have hloads := SpecsKept.setArr (chargeRd s t.ctx l.bytes) a (x := { getArr s a with
        loads := [{ l with preload := false, bytes := 0 }], shadow := adoptRows s.mems j t n l (getArr s a).shadow }) rfl
      have htaken : SpecsKept s (preloadTaken s a j t n l) := ⟨fun e => hloads.spec e⟩
      split
      · exact htaken.trans (.of_asks (asks_fetchLists ..))
      · exact htaken
    · exact (SpecsKept.setArr s a (x := { getArr s a with loads := (getArr s a).loads.filter (fun y => !y.preload) }) rfl).trans (.of_arrs rfl)

theorem specsKept_meetPreloads (s : State) (a : Nat) (j : Job) (t : SubTile) : SpecsKept s (meetPreloads s a j t) := by
  unfold meetPreloads
  dsimp only
  split
  · exact specsKept_meetPreload ..
  · split
    · exact (specsKept_meetPreload ..).trans (specsKept_meetPreload ..)
    · exact specsKept_meetPreload ..

theorem specsKept_seatTo (s : State) (r a k : Nat) (t : SubTile) (d : Adm) (j : Job) : SpecsKept s (seatTo s r a k t d j) := by
  rw [seatTo_eq]
  have hmet := specsKept_meetPreloads s a j (seatedSub s a k t j)
  generalize seatedSub s a k t j = v at *
  generalize meetPreloads s a j v = u at *
  have hjoin : SpecsKept u (joinArray u a v) := .setArr u a (withBound_kept ..).1
  exact (hmet.trans hjoin).trans (.of_arrs (by rw [putJournal_rest]))

theorem ctxs_seatTo (s : State) (r a k : Nat) (t : SubTile) (d : Adm) (j : Job) : (seatTo s r a k t d j).ctxs = s.ctxs := by
  have hmet := met_meetPreloads s a j (seatedSub s a k t j)
  rw [seatTo_eq, putJournal_rest]
  generalize meetPreloads s a j (seatedSub s a k t j) = u at *
  show u.ctxs = _
  rw [hmet.rest]

theorem cost_seatOn (s : State) (a : Nat) (j : Job) (t : SubTile) : (seatOn s a j t).cost = t.cost := by
  unfold seatOn
  dsimp only
  split
  · rfl
  · split
    · rfl
    · rfl

theorem cost_seatedSub (s : State) (a k : Nat) (t : SubTile) (j : Job) : (seatedSub s a k t j).cost = t.cost :=
  cost_seatOn s a j { t with order := if t.order == 0 then nextOrder s else t.order }

/-- A sub-tile that binds keeps its cost; memory, the contexts and every speculation stay. -/
theorem bindTo_keeps {s : State} {r k : Nat} (a : Nat) (t : SubTile) (d : Adm) (j : Job) (h : freeJournal (getRgn s r) = some k) :
    ∃ v ∈ (getArr (bindTo s r a t d j) a).bound, v.ctx = t.ctx ∧ v.ring = t.ring ∧ v.array = some a ∧ v.cost = t.cost ∧
      (bindTo s r a t d j).mems = s.mems ∧ (bindTo s r a t d j).ctxs = s.ctxs ∧ SpecsKept s (bindTo s r a t d j) := by
  have hrgn : getRgn (unqueued s r t) r = { getRgn s r with queue := (getRgn s r).queue.erase t } := getRgn_setRgn ..
  have hseat := seated_seatTo (unqueued s r t) r a k { t with order := 0 } d j (by rw [hrgn]; exact freeJournal_free h)
  obtain ⟨hctx, hring, -, -, -, harr, -⟩ := seatedSub_place (unqueued s r t) a k { t with order := 0 } j
  have hcost := cost_seatedSub (unqueued s r t) a k { t with order := 0 } j
  have hctxs := ctxs_seatTo (unqueued s r t) r a k { t with order := 0 } d j
  have hspecs := specsKept_seatTo (unqueued s r t) r a k { t with order := 0 } d j
  have hsame : SpecsKept s (unqueued s r t) := .of_arrs rfl
  rw [bindTo_of_free a t d j h]
  generalize seatTo (unqueued s r t) r a k { t with order := 0 } d j = u at *
  generalize seatedSub (unqueued s r t) a k { t with order := 0 } j = v at *
  exact ⟨v, hseat.mem, hctx, hring, harr, hcost, hseat.frame.mems, hctxs, hsame.trans hspecs⟩

/-! ### A speculation that is confirmed -/

/-- Memory and a context's ring indices are as before, its deficit is less by the cost of the sub-tile that is bound. -/
structure Bound (s t : State) (a c : Nat) (i : W32) (b : SpecBuf) (v : SubTile) : Prop where
  spec : (getArr t a).spec = some { b with confirmed := true }
  mem : v ∈ (getArr t a).bound
  ctx : v.ctx = c
  ring : v.ring = i
  array : v.array = some a
  deficit : (getCtx t c).deficit = (getCtx s c).deficit - v.cost
  mems : t.mems = s.mems
  emitted : ∃ e ∈ (getCtx t c).admitted, e.ring = i ∧ e.emitted = 1
  others : ∀ e, e ≠ a → (getArr t e).spec = (getArr s e).spec

/-- The sub-tile that a confirmed speculation binds. -/
def specSub (s : State) (c : Nat) (b : SpecBuf) (d : Adm) (r : Nat) : SubTile :=
  { subAt s c d (jobOf d r) 0 false (nextOrder s) with rows := b.sub.rows }

/-- The descriptor has emitted its first sub-tile. -/
def specEmitted (s s1 : State) (c r : Nat) (d : Adm) : State :=
  setAdm s1 c d.ring (fun e => { e with emitted := 1, flags := e.flags ||| routeFlags s c r (jobOf d r) })

/-- Its context's deficit is less by the sub-tile's cost. -/
def specPaid (s s1 : State) (c r : Nat) (b : SpecBuf) (d : Adm) : State :=
  setCtx (specEmitted s s1 c r d) c { getCtx (specEmitted s s1 c r d) c with
    deficit := (getCtx (specEmitted s s1 c r d) c).deficit - (specSub s1 c b d r).cost }

theorem specBind_of_copy {s s1 : State} {a c : Nat} {b : SpecBuf} {d : Adm}
    (h : residencyStep s c d.ring (a / 4) true (jobOf d (a / 4)) = some s1) : specBind s a c b d =
      setArr (bindTo (specPaid s s1 c (a / 4) b d) (a / 4) a (specSub s1 c b d (a / 4)) d (jobOf d (a / 4))) a
        { getArr (bindTo (specPaid s s1 c (a / 4) b d) (a / 4) a (specSub s1 c b d (a / 4)) d (jobOf d (a / 4))) a with
          spec := some { b with confirmed := true } } := by
  simp only [specBind, h]
  rfl

theorem bound_specBind {s s1 : State} {a c : Nat} {b : SpecBuf} {d : Adm} (hcopy : residencyStep s c d.ring (a / 4) true (jobOf d (a / 4)) = some s1)
    (hentry : (freeJournal (getRgn s (a / 4))).isSome = true) (hadm : ∃ e ∈ (getCtx s c).admitted, e.ring = d.ring) :
    ∃ v, Bound s (specBind s a c b d) a c d.ring b v := by
  have hbegun := begun_residencyStep hcopy c
  have hjournal : (getRgn (specPaid s s1 c (a / 4) b d) (a / 4)).journal = (getRgn s (a / 4)).journal := hbegun.journal (a / 4)
  obtain ⟨k, hk⟩ := Option.isSome_iff_exists.mp hentry
  have hfree : freeJournal (getRgn (specPaid s s1 c (a / 4) b d) (a / 4)) = some k := by
    rw [← hk, freeJournal, freeJournal, hjournal]
  obtain ⟨v, hmem, hctx, hring, harr, hcost, hmems, hctxs, hspecs⟩ := bindTo_keeps a (specSub s1 c b d (a / 4)) d (jobOf d (a / 4)) hfree
  have hemitted : getCtx (specEmitted s s1 c (a / 4) d) c = { getCtx s1 c with
      admitted := (getCtx (specEmitted s s1 c (a / 4) d) c).admitted } := by
    rw [specEmitted, setAdm, getCtx_setCtx]
  have hpaid : getCtx (specPaid s s1 c (a / 4) b d) c = { getCtx (specEmitted s s1 c (a / 4) d) c with
      deficit := (getCtx (specEmitted s s1 c (a / 4) d) c).deficit - (specSub s1 c b d (a / 4)).cost } := getCtx_setCtx ..
  have hone : ∃ e ∈ (getCtx (specEmitted s s1 c (a / 4) d) c).admitted, e.ring = d.ring ∧ e.emitted = 1 := by
    obtain ⟨e, he, hering⟩ := hbegun.rings d.ring hadm
    rw [specEmitted, setAdm, getCtx_setCtx]
    exact ⟨_, List.mem_map.mpr ⟨e, he, if_pos (beq_iff_eq.mpr hering)⟩, hering, rfl⟩
  have hold : SpecsKept s (specPaid s s1 c (a / 4) b d) := .of_arrs hbegun.arrs
  have hmem1 : (specPaid s s1 c (a / 4) b d).mems = s.mems := hbegun.mems
  rw [specBind_of_copy hcopy]
  generalize bindTo (specPaid s s1 c (a / 4) b d) (a / 4) a (specSub s1 c b d (a / 4)) d (jobOf d (a / 4)) = u at *
  have hself : getCtx u c = getCtx (specPaid s s1 c (a / 4) b d) c := getCtx_of_ctxs hctxs c
  refine ⟨v, ?_, ?_, hctx, hring, harr, ?_, hmems.trans hmem1, ?_, fun e he => ?_⟩
  · rw [getArr_setArr]
  · rw [getArr_setArr]
    exact hmem
  · rw [getCtx_setArr, hself, hpaid, hemitted, hcost]
    show (getCtx s1 c).deficit - _ = _
    rw [hbegun.deficit]
  · rw [getCtx_setArr, hself, hpaid]
    exact hone
  · rw [getArr_setArr_ne _ _ _ _ he]
    exact (hold.trans hspecs).spec e

/-- The descriptor begins, and its first sub-tile is bound. -/
theorem bound_specDispatch {s s1 s2 : State} {a c : Nat} {b : SpecBuf} {d d1 : Adm} (hgo : (shapeStep s c d).next (beginTile c) = .go s1 d1)
    (hcopy : residencyStep s1 c d1.ring (a / 4) true (jobOf d1 (a / 4)) = some s2) (hbind : specCanBind s a b.sub = true)
    (hadm : d ∈ (getCtx s c).admitted) : ∃ v, Bound s (specDispatch s a c b d) a c d1.ring b v := by
  obtain ⟨hbegun, hring⟩ := begun_start hgo
  have hentry : (freeJournal (getRgn s (a / 4))).isSome = true := by
    rw [specCanBind, Bool.and_eq_true, Bool.and_eq_true] at hbind
    exact hbind.1.2
  have hentry1 : (freeJournal (getRgn s1 (a / 4))).isSome = true := by
    rw [freeJournal, hbegun.journal]
    exact hentry
  obtain ⟨v, hv⟩ := bound_specBind hcopy hentry1 (b := b) (hbegun.rings d1.ring ⟨d, hadm, hring.symm⟩)
  have heq : specDispatch s a c b d = specBind s1 a c b d1 := by simp only [specDispatch, hgo]
  rw [heq]
  refine ⟨v, hv.spec, hv.mem, hv.ctx, hv.ring, hv.array, hv.deficit.trans (by rw [hbegun.deficit]), hv.mems.trans hbegun.mems, hv.emitted,
    fun e he => (hv.others e he).trans ?_⟩
  rw [getArr_of_arrs hbegun.arrs]

end Sys2Proof.Machine

open Sys2Proof Sys2Proof.Machine

/-- Settles O46: a pass advances the buffer; SPEC_CONFIRM looks at the one array that holds one, and squashes it or binds its sub-tile. -/
theorem speculationConfirmsOrSquashes : Obligations.SpeculationConfirmsOrSquashes := by
  refine ⟨fun s a c d0 d v rs hrs hrun hlive hen hbound hfollow hon hmask hconf hfind hempty hshape hvariant => ?_,
    fun s a c b d lost hrun hspec hctx hopen hothers hport hdesc hresult htotal => ⟨fun hlost hheld => ?_, fun hsquash => ?_,
      fun s1 s2 d1 hlost hheld hholds hfit hdisp hbind hcopy hgo hres => ?_⟩⟩
  · intro j hruns hform helse hlimit hpasses hwide hreads
    have hbuffer := specBuffer_of_start hen hempty helse hshape hvariant hruns hform hconf
    have hroom : specRoom j (freshSpec s a.val c.val d v) = true := by
      have hspill : (!(jobWide j != .none && spillPass (dSpillInt j.d) true (0 + 1))) = true := by
        rcases hwide with h | h
        · rw [h]
          rfl
        · rw [h, Bool.and_false]
          rfl
      show (decide (0 < s.regs.specPasses.toNat) && decide (0 + 1 < elemPasses j) &&
        !(jobWide j != .none && spillPass (dSpillInt j.d) true (0 + 1))) = true
      rw [decide_eq_true hlimit, decide_eq_true hpasses, hspill]
      rfl
    have hgo : (running s && isLive s .array a.val && (getArr s a.val).bound.isEmpty && (followed s a.val).isEmpty && gambitOn s c.val &&
        inMask (ceAffinity (getCtx s c.val).ent) a.val) = true := by
      rw [hrun, hlive, hbound, hfollow, hon, hmask]
      rfl
    have hexec : exec (.speculativePass a c rs) s = .next (specPass s a.val c.val rs) := congrArg _ (if_pos hgo)
    rw [specPass_of_start hrs hfind hbuffer hvariant hroom hreads] at hexec
    have hring : d.ring = d0.ring := by
      unfold specShape at hvariant
      split at hvariant
      · cases hvariant
        rfl
      · obtain ⟨i, -, rfl⟩ := Option.map_eq_some_iff.mp hvariant
        rfl
    refine ⟨_, specAdvance s.mems j (freshSpec s a.val c.val d v), hexec, rfl, getArr_setArr .., rfl, rfl, rfl, hring, Nat.zero_div _, ?_,
      Nat.zero_mod _, ?_, rfl, rfl, rfl, rfl, tget_tset_self .., rfl, fun e he => getArr_setArr_ne _ _ _ _ he⟩
    · show 0 / groupsPerChunk j % chunksOf j = 0
      rw [Nat.zero_div, Nat.zero_mod]
    · simp only [specAdvance, List.length_map, List.length_range]
  · have hone : confirmOne s a.val c.val (lost.any (fun b => b.val == a.val)) = s := by
      rw [lost_any_of_ne hlost]
      exact confirmOne_of_held hspec hctx hopen hdesc hresult htotal hheld
    rw [confirm_of_one hrun hothers (by rw [hone]; exact hothers), hone]
  · have hone : confirmOne s a.val c.val (lost.any (fun b => b.val == a.val)) = squash s a.val := by
      by_cases hlost : lost = some a
      · have hyes : lost.any (fun b => b.val == a.val) = true := by
          rw [hlost]
          exact beq_self_eq_true _
        rw [hyes]
        exact confirmOne_of_lost hspec hctx hopen
      · obtain ⟨hheld, hstale⟩ := hsquash.resolve_left hlost
        rw [lost_any_of_ne hlost]
        exact confirmOne_of_stale hspec hctx hopen hdesc hresult htotal hheld hport hstale
    obtain ⟨hrest, hself, hcount, hkept⟩ := squash_spec s a.val
    refine ⟨squash s a.val, ?_, hrest, hself, hcount⟩
    rw [confirm_of_one hrun hothers (by rw [hone]; exact fun e he => by rw [hkept e he, hothers e he]), hone]
  · have hone : confirmOne s a.val c.val (lost.any (fun b => b.val == a.val)) = specDispatch s a.val c.val b d := by
      rw [lost_any_of_ne hlost]
      exact confirmOne_of_good hspec hctx hopen hdesc hresult htotal hheld hport hholds hfit hdisp hbind hcopy
    obtain ⟨v, hv⟩ := bound_specDispatch hgo hres hbind (List.mem_of_find?_eq_some hdesc)
    refine ⟨specDispatch s a.val c.val b d, v, ?_, hv.spec, hv.mem, hv.ctx, hv.ring, hv.array, hv.deficit, hv.mems, hv.emitted⟩
    rw [confirm_of_one hrun hothers (by rw [hone]; exact fun e he => by rw [hv.others e he, hothers e he]), hone]

end
